-- ==== Sys2Proof/Word.lean ====
section
/-! DEFINITION. The word types of LXA-3: 64-bit scalar words, bytes, 32-bit instruction words and 24-bit line tags. -/

namespace Sys2Proof

/-- A scalar register, an address or a system register (R70). -/
abbrev Word := BitVec 64

/-- One byte of memory. -/
abbrev Byte := BitVec 8

/-- A 24-bit line tag (R45, Table 03.1). -/
abbrev Tag := BitVec 24

/-- A 16-bit segment sidecar (R50, Table 03.3). -/
abbrev Sidecar := BitVec 16

/-- The data of one 128-byte line or register segment (R27), byte 0 in the low bits. -/
abbrev Line := BitVec 1024

/-- What the debug port asks of the acting core, and what resident software decides on a consent token (R391, R392, Table 20.4; log 151).
A request about a strand goes to the one whose frame number the row gives. -/
inductive DebugReq where
  /-- Stop a strand at an instruction boundary. -/
  | halt
  /-- Let a stopped strand go on. -/
  | go
  /-- Let a stopped strand execute one instruction. -/
  | step
  /-- Read registers or memory, which changes nothing. -/
  | read
  /-- Write X[r] of a stopped strand. -/
  | writeX (r : BitVec 5) (v : Word)
  /-- Write a segment of V[r] of a stopped strand, and its sidecar. -/
  | writeV (r : BitVec 5) (seg : Nat) (line : Line) (side : Sidecar)
  /-- Write a system register, as the resident level writes it. -/
  | writeSys (num : BitVec 12) (v : Word)
  /-- Write a doubleword of memory under the context's translation. -/
  | writeMem (va v : Word)
  /-- Resident software has accepted a consent token of a context. -/
  | consent (ctx : Nat)
  /-- The consent token of a context has expired. -/
  | expire (ctx : Nat)
  deriving DecidableEq, Repr

/-- Where an uncorrectable error lies (Table 20.1), and who found it. The row's number says which one. -/
inductive ErrorPlace where
  /-- A home line, by its number, found by no context. -/
  | line
  /-- The line or compressed block behind a virtual address, found by an access of the acting strand (engine 0) or by a command that engine
  `engine` of the acting core carries out, of a KIND (Table 17.6). -/
  | access (engine kind : BitVec 8)
  /-- A scratchpad line of the acting core, by an offset in it. -/
  | spad
  /-- The acting core's far copy of a line, by its number. -/
  | farCopy
  /-- An instruction cache. -/
  | fetched
  /-- Registers, loop state, a grant or a trap frame of the strand of a frame number. -/
  | strand
  /-- The registers of an engine of the acting core. -/
  | engine (engine : BitVec 8)
  /-- A line of flash, of a compressed block's sectors, of a pool or of a host, which reads back with an error or as poison from now on. -/
  | source
  /-- The compressed block of a DPA, found by no access. -/
  | block
  /-- A structure of no context. -/
  | shared
  deriving DecidableEq, Repr

/-- A line that a scrub names (R383): a home line, or a scratchpad line of the acting core, by its number. -/
inductive ScrubLine where
  | home (n : Nat)
  | spad (n : Nat)
  deriving DecidableEq, Repr

/-- What bring-up meets and is supplied with (R394, Table 20.6; log 150): the units whose step succeeds, by their bits of the record; whether
memory initialisation and the firmware's digest succeed; the RVEC of the firmware image's header and the image's bytes by DPA; and the device
number assigned. -/
structure BringUp where
  works : BitVec 4096
  memoryOk : Bool
  digestOk : Bool
  rvec : Word
  devnum : BitVec 8
  image : List (Nat × Byte)
  deriving DecidableEq, Repr

/-- A bring-up in which every step succeeds, with an empty image entered at 0, of device 0 (logs 1, 150). -/
def BringUp.plain : BringUp := ⟨BitVec.allOnes 4096, true, true, 0, 0, []⟩

/-- Who fetches a word, and so which private map decodes it (R84, Table 05.1). -/
inductive Space where
  | cc
  | access
  | execute
  deriving DecidableEq, Repr

end Sys2Proof
end

