-- ==== Sys2Proof/Syntax.lean ====
section
/-! DEFINITION. The instructions of LXA-3 and the steps of the device's other agents: one constructor for each row of
the spec's table of operations and events (spec/opcode_table.json). The constructors of encoded rows carry the row's
fields, each at its own width and in the row's order; the rows without bits are steps of engines, walkers, homes, hosts
and system agents (spec/95), and carry what the spec leaves to the agent that takes the step. -/

namespace Sys2Proof

/-- One constructor per row of the table. `rec` is spelled `recode`, because Lean reserves `Instr.rec`. -/
inductive Instr where
  /-- R105. Writes to X[D] the sum of X[A] and X[B], wrapped modulo 2^64. -/
  | add (d : BitVec 5) (a : BitVec 5) (b : BitVec 5)
  /-- R105. Writes to X[D] the difference X[A] minus X[B], wrapped modulo 2^64. -/
  | sub (d : BitVec 5) (a : BitVec 5) (b : BitVec 5)
  /-- R105. Writes to X[D] the low 64 bits of the product of X[A] and X[B]. -/
  | mul (d : BitVec 5) (a : BitVec 5) (b : BitVec 5)
  /-- R105. Writes to X[D] the high 64 bits of the signed product of X[A] and X[B]. -/
  | mulh (d : BitVec 5) (a : BitVec 5) (b : BitVec 5)
  /-- R105. Writes to X[D] the high 64 bits of the unsigned product of X[A] and X[B]. -/
  | mulhu (d : BitVec 5) (a : BitVec 5) (b : BitVec 5)
  /-- R105. Signed division truncated toward zero; division by zero and overflow give fixed results and never trap. -/
  | div (d : BitVec 5) (a : BitVec 5) (b : BitVec 5)
  /-- R105. Unsigned division; division by zero gives 2^64 − 1. -/
  | divu (d : BitVec 5) (a : BitVec 5) (b : BitVec 5)
  /-- R105. Signed remainder with fixed results for a zero divisor and for overflow. -/
  | rem (d : BitVec 5) (a : BitVec 5) (b : BitVec 5)
  /-- R105. Unsigned remainder; a zero divisor returns the dividend. -/
  | remu (d : BitVec 5) (a : BitVec 5) (b : BitVec 5)
  /-- R105. Writes to X[D] the bitwise AND of X[A] and X[B]. -/
  | and (d : BitVec 5) (a : BitVec 5) (b : BitVec 5)
  /-- R105. Writes to X[D] the bitwise OR of X[A] and X[B]. -/
  | or (d : BitVec 5) (a : BitVec 5) (b : BitVec 5)
  /-- R105. Writes to X[D] the bitwise XOR of X[A] and X[B]. -/
  | xor (d : BitVec 5) (a : BitVec 5) (b : BitVec 5)
  /-- R105. Shifts X[A] left by X[B] mod 64. -/
  | sll (d : BitVec 5) (a : BitVec 5) (b : BitVec 5)
  /-- R105. Shifts X[A] right logically by X[B] mod 64. -/
  | srl (d : BitVec 5) (a : BitVec 5) (b : BitVec 5)
  /-- R105. Shifts X[A] right arithmetically by X[B] mod 64. -/
  | sra (d : BitVec 5) (a : BitVec 5) (b : BitVec 5)
  /-- R105. Writes 1 when X[A] is less than X[B] as signed values, else 0. -/
  | slt (d : BitVec 5) (a : BitVec 5) (b : BitVec 5)
  /-- R105. Writes 1 when X[A] is less than X[B] as unsigned values, else 0. -/
  | sltu (d : BitVec 5) (a : BitVec 5) (b : BitVec 5)
  /-- R105. Writes the signed minimum of X[A] and X[B]. -/
  | min (d : BitVec 5) (a : BitVec 5) (b : BitVec 5)
  /-- R105. Writes the signed maximum of X[A] and X[B]. -/
  | max (d : BitVec 5) (a : BitVec 5) (b : BitVec 5)
  /-- R105. Writes the unsigned minimum of X[A] and X[B]. -/
  | minu (d : BitVec 5) (a : BitVec 5) (b : BitVec 5)
  /-- R105. Writes the unsigned maximum of X[A] and X[B]. -/
  | maxu (d : BitVec 5) (a : BitVec 5) (b : BitVec 5)
  /-- R105. Writes the count of leading zero bits of X[A], 64 for zero. -/
  | clz (d : BitVec 5) (a : BitVec 5)
  /-- R105. Writes the count of trailing zero bits of X[A], 64 for zero. -/
  | ctz (d : BitVec 5) (a : BitVec 5)
  /-- R105. Writes the number of one bits of X[A]. -/
  | popc (d : BitVec 5) (a : BitVec 5)
  /-- R105. Writes X[A] if the old X[D] is non-zero, else X[B]. -/
  | sel (d : BitVec 5) (a : BitVec 5) (b : BitVec 5)
  /-- R106. Adds a sign-extended 15-bit immediate to X[A]. -/
  | addi (d : BitVec 5) (a : BitVec 5) (i : BitVec 15)
  /-- R106. Bitwise AND of X[A] with a sign-extended immediate. -/
  | andi (d : BitVec 5) (a : BitVec 5) (i : BitVec 15)
  /-- R106. Bitwise OR of X[A] with a sign-extended immediate. -/
  | ori (d : BitVec 5) (a : BitVec 5) (i : BitVec 15)
  /-- R106. Bitwise XOR of X[A] with a sign-extended immediate. -/
  | xori (d : BitVec 5) (a : BitVec 5) (i : BitVec 15)
  /-- R106. Writes 1 when X[A] is less than the signed immediate. -/
  | slti (d : BitVec 5) (a : BitVec 5) (i : BitVec 15)
  /-- R106. Shifts X[A] left by an immediate from 0 to 63. -/
  | slli (d : BitVec 5) (a : BitVec 5) (s : BitVec 6)
  /-- R106. Shifts X[A] right logically by an immediate from 0 to 63. -/
  | srli (d : BitVec 5) (a : BitVec 5) (s : BitVec 6)
  /-- R106. Shifts X[A] right arithmetically by an immediate from 0 to 63. -/
  | srai (d : BitVec 5) (a : BitVec 5) (s : BitVec 6)
  /-- R107. Adds a sign-extended immediate times 128 to X[A]. -/
  | adda (d : BitVec 5) (a : BitVec 5) (i : BitVec 15)
  /-- R108. Shifts X[D] left by 20 bits and ORs in the 20-bit immediate. -/
  | lih (d : BitVec 5) (i : BitVec 20)
  /-- R109. Branches to PC + 4 × OFF15 when X[A] equals X[B]. -/
  | beq (a : BitVec 5) (b : BitVec 5) (o : BitVec 15)
  /-- R109. Branches when X[A] differs from X[B]. -/
  | bne (a : BitVec 5) (b : BitVec 5) (o : BitVec 15)
  /-- R109. Branches when X[A] is signed less than X[B]. -/
  | blt (a : BitVec 5) (b : BitVec 5) (o : BitVec 15)
  /-- R109. Branches when X[A] is signed greater than or equal to X[B]. -/
  | bge (a : BitVec 5) (b : BitVec 5) (o : BitVec 15)
  /-- R109. Branches when X[A] is unsigned less than X[B]. -/
  | bltu (a : BitVec 5) (b : BitVec 5) (o : BitVec 15)
  /-- R109. Branches when X[A] is unsigned greater than or equal to X[B]. -/
  | bgeu (a : BitVec 5) (b : BitVec 5) (o : BitVec 15)
  /-- R110. Writes PC + 4 to X[D] and continues at PC + 4 × OFF20. -/
  | jal (d : BitVec 5) (o : BitVec 20)
  /-- R110. Writes PC + 4 to X[D] and continues at X[A] plus the immediate with bits [1:0] cleared. -/
  | jalr (d : BitVec 5) (a : BitVec 5) (i : BitVec 15)
  /-- R112. Starts a hardware loop that repeats the following LEN + 1 words T times. -/
  | loop (a : BitVec 5) (l : BitVec 15)
  /-- R115. Runs a software-pipelined loop of S stages with stage predicates and a rotating base. -/
  | ploop (a : BitVec 5) (s : BitVec 3) (l : BitVec 15)
  /-- R118. Scalar load of 1 to 8 bytes under the load delay in harts and interlocked in the CC. -/
  | ld (d : BitVec 5) (a : BitVec 5) (z : BitVec 3) (o : BitVec 12)
  /-- R118. Scalar store of the low 1 to 8 bytes of X[D], making the line RAW. -/
  | st (d : BitVec 5) (a : BitVec 5) (z : BitVec 2) (o : BitVec 12)
  /-- R122. Hint that fills the instruction cache with the addressed line; failures are dropped. -/
  | ipf (a : BitVec 5) (i : BitVec 15)
  /-- R122. Hint that fills the data cache or home slice with the addressed line. -/
  | dpf (a : BitVec 5) (i : BitVec 15)
  /-- R75. Computes a grant from immediate rows and length, writes vl and vr and closes an ordering strip. -/
  | vshapeImm (d : BitVec 5) (w : BitVec 4) (r : BitVec 7) (l : BitVec 9)
  /-- R75. Computes a grant from register rows and length, writes vl and vr and closes an ordering strip. -/
  | vshapeReg (d : BitVec 5) (a : BitVec 5) (b : BitVec 5) (w : BitVec 4)
  /-- R124. Writes the device value selected by the immediate, such as datapath width or REGBITS. -/
  | vquery (d : BitVec 5) (i : BitVec 15)
  /-- R125. Appends the bit X[A] ≠ 0 to the outgoing branch-outcome queue, waiting while it is full. -/
  | bqPush (a : BitVec 5)
  /-- R125. Waits for and removes the oldest incoming branch-outcome bit, branching if it is 1. -/
  | bqBr (o : BitVec 15)
  /-- R256. Orders earlier accesses of the named kinds before later ones at the named scope, acting on far copies at device and system scope. -/
  | fence (s : BitVec 3) (k : BitVec 3)
  /-- R127. Gang barrier: records arrival and waits for every strand of the gang. -/
  | bar
  /-- R128. Raises the user trap TRAP carrying a 15-bit immediate. -/
  | trap (i : BitVec 15)
  /-- R128. Does nothing. -/
  | nop
  /-- R128. Offers the hart's next issue slot to the other ready harts. -/
  | yield
  /-- R129. Reads the user system register numbered NUM into X[D]. -/
  | sysr (d : BitVec 5) (n : BitVec 12)
  /-- R129. Writes X[A] to the user system register numbered NUM. -/
  | sysw (a : BitVec 5) (n : BitVec 12)
  /-- R117. Subtracts the grant from a counter, advances address registers and branches back while the counter is positive. -/
  | sbr (o : BitVec 3) (c : BitVec 5) (a : BitVec 5) (n : BitVec 2) (z : BitVec 8) (p : BitVec 5)
  /-- R267. Acquires a clasp lock or waits at a clasp barrier, invalidating far copies under the signature rules. -/
  | acq (d : BitVec 5) (a : BitVec 5)
  /-- R268. Acquires a clasp only if it is free with no waiter, writing 1 or 0. -/
  | tryacq (d : BitVec 5) (a : BitVec 5)
  /-- R269. Releases a clasp lock, retaining it lazily or handing it to a waiter, or arrives at a clasp barrier. -/
  | rel (a : BitVec 5)
  /-- R300. Enqueues a 64-byte copy command block to an engine command queue. -/
  | cqPush (d : BitVec 5) (a : BitVec 5) (b : BitVec 5)
  /-- R301. Waits until a knot holds at least n and subtracts n atomically. -/
  | knWait (k : BitVec 5) (a : BitVec 5)
  /-- R301. Performs earlier CC accesses at gang scope and adds n to a knot, saturating. -/
  | knSig (k : BitVec 5) (a : BitVec 5)
  /-- R304. Posts a REMOTE event record to another core's event queue. -/
  | renq (d : BitVec 5) (a : BitVec 5) (b : BitVec 5)
  /-- R305. Waits for and removes the oldest event record into four registers. -/
  | evqPop (d : BitVec 5)
  /-- R305. Reads the oldest event record without removing it, or zeros when empty. -/
  | evqPeek (d : BitVec 5)
  /-- R302. Loads a 256-byte Bobbin nest into the core's Bobbin. -/
  | bobLd (a : BitVec 5)
  /-- R303. Starts the loaded Bobbin nest with source and destination offsets. -/
  | bobGo (d : BitVec 5) (a : BitVec 5) (b : BitVec 5)
  /-- R297. Ends the gang and swaps in the next control program, letting named units run on. -/
  | ovl (a : BitVec 5)
  /-- R287. Submits a loop-nest record, judging it for refit or reject and assigning a launch identifier. -/
  | lnrSub (d : BitVec 5) (a : BitVec 5)
  /-- R24. Reads and optionally replaces a format-table entry. -/
  | ftWr (d : BitVec 5) (a : BitVec 5) (n : BitVec 4)
  /-- R59. Reads and optionally replaces a Pricking-table entry. -/
  | pkWr (d : BitVec 5) (a : BitVec 5) (b : BitVec 5)
  /-- R364. Asks the Darner to recode a range of pages under a store-format policy. -/
  | recode (d : BitVec 5) (a : BitVec 5) (b : BitVec 5)
  /-- R371. Asks Turnover to exchange where two DPA pages live. -/
  | swp (d : BitVec 5) (a : BitVec 5) (b : BitVec 5)
  /-- R356. Starts an install of weights into a flash extent from a descriptor. -/
  | winst (d : BitVec 5) (a : BitVec 5)
  /-- R363. Reads the endurance state selected by X[B]. -/
  | wstat (d : BitVec 5) (a : BitVec 5) (b : BitVec 5)
  /-- R378. Reads a page's remap entry heat, access bit and layer, optionally clearing ACC and HEAT. -/
  | heatRd (d : BitVec 5) (a : BitVec 5) (b : BitVec 5)
  /-- R322. Returns from the resident level to user level at sr.epc. -/
  | eret
  /-- R314. Discards cached translations device-wide and waits for accesses made under them. -/
  | tlbi (a : BitVec 5) (b : BitVec 5)
  /-- R319. Answers a fault replay handle with resume, deliver or terminate. -/
  | rpl (d : BitVec 5) (a : BitVec 5) (b : BitVec 5)
  /-- R322. Waits until some enabled resident event is pending. -/
  | wfi
  /-- R326. Stops the core's gang and writes its state container, optionally requeueing it. -/
  | ctxSave (d : BitVec 5) (a : BitVec 5) (b : BitVec 5)
  /-- R327. Restores a state container on the issuing core and reports a status. -/
  | ctxLoad (d : BitVec 5) (a : BitVec 5)
  /-- R333. Reads, and optionally clears, the dirty bits of 64 DPA pages. -/
  | migDirty (d : BitVec 5) (a : BitVec 5) (b : BitVec 5)
  /-- R323. Reads a resident register numbered 0x100 to 0xFFF. -/
  | sysrp (d : BitVec 5) (n : BitVec 12)
  /-- R323. Writes a resident register numbered 0x100 to 0xFFF. -/
  | syswp (a : BitVec 5) (n : BitVec 12)
  /-- R209. Unit-stride vector load into a register of the paired X-hart, filled under R52. -/
  | vldU (d : BitVec 5) (a : BitVec 5) (f : BitVec 1) (t : BitVec 4) (r : BitVec 1) (m : BitVec 3)
  /-- R212. Unit-stride load that pushes the lines with their tags into a tagged queue. -/
  | vldUQueue (q : BitVec 3) (a : BitVec 5)
  /-- R209. Strided vector load into a register of the paired X-hart. -/
  | vldS (d : BitVec 5) (a : BitVec 5) (b : BitVec 5) (f : BitVec 1) (t : BitVec 4) (r : BitVec 1) (m : BitVec 3)
  /-- R209. Indexed vector load using an index register of the paired X-hart. -/
  | vldX (d : BitVec 5) (a : BitVec 5) (b : BitVec 5) (f : BitVec 1) (t : BitVec 4) (r : BitVec 1) (m : BitVec 3)
  /-- R209. Row-pitched block vector load into a register. -/
  | vldB (d : BitVec 5) (a : BitVec 5) (b : BitVec 5) (f : BitVec 1) (t : BitVec 4) (r : BitVec 1) (m : BitVec 3)
  /-- R212. Row-pitched block load that pushes lines into a tagged queue. -/
  | vldBQueue (q : BitVec 3) (a : BitVec 5) (b : BitVec 5)
  /-- R214. Loads k planes of nested-plane groups verbatim, with optional .mid filler. -/
  | vldNp (d : BitVec 5) (a : BitVec 5) (m : BitVec 1) (k : BitVec 4)
  /-- R215. Unit-stride store from a register under the page's store-format policy. -/
  | vstU (v : BitVec 5) (a : BitVec 5)
  /-- R216. Unit-stride store that pops elements from a queue without class checks. -/
  | vstUQueue (q : BitVec 3) (a : BitVec 5)
  /-- R215. Strided store from a register. -/
  | vstS (v : BitVec 5) (a : BitVec 5) (b : BitVec 5)
  /-- R215. Indexed store from a register. -/
  | vstX (v : BitVec 5) (a : BitVec 5) (b : BitVec 5)
  /-- R215. Row-pitched block store from a register. -/
  | vstB (v : BitVec 5) (a : BitVec 5) (b : BitVec 5)
  /-- R216. Row-pitched block store that pops elements from a queue. -/
  | vstBQueue (q : BitVec 3) (a : BitVec 5) (b : BitVec 5)
  /-- R217. Single-copy atomic scalar read-modify-write at the line's home, returning the old value. -/
  | amo (d : BitVec 5) (a : BitVec 5) (b : BitVec 5) (o : BitVec 4) (z : BitVec 2)
  /-- R219. Element-wise atomic update of memory lines from a vector register. -/
  | amoV (v : BitVec 5) (a : BitVec 5) (b : BitVec 5) (x : BitVec 1) (o : BitVec 4)
  /-- R222. Bank-side reduction of vector elements into whole memory lines. -/
  | mred (o : BitVec 5) (a : BitVec 5) (b : BitVec 5)
  /-- R223. Bank-side compare and exchange of whole lines against register segments. -/
  | mcas (d : BitVec 5) (a : BitVec 5) (b : BitVec 5)
  /-- R222. Bank-side scale-and-add of a vector into memory lines. -/
  | msax (d : BitVec 5) (a : BitVec 5) (b : BitVec 5)
  /-- R230. Starts a Shuttle strip copy, optionally converting, counting and clearing full/empty bits. -/
  | cp (d : BitVec 5) (a : BitVec 5) (b : BitVec 5)
  /-- R239. Starts a convolution patch-gathering copy from an NHWC image descriptor. -/
  | cpConv (d : BitVec 5) (a : BitVec 5) (b : BitVec 5)
  /-- R242. Fingerprints 4 KiB blocks into the scratchpad. -/
  | cpFp (d : BitVec 5) (a : BitVec 5) (b : BitVec 5)
  /-- R243. Compares two byte ranges with their tags and writes the first difference offset. -/
  | cpCmp (d : BitVec 5) (a : BitVec 5) (b : BitVec 5)
  /-- R244. Closes the issuer's open copy batch, optionally requesting an event. -/
  | cpClose (a : BitVec 5)
  /-- R245. Closes any open batch and waits until at most n batches are outstanding. -/
  | cpWait (n : BitVec 5)
  /-- R246. Arms a watch counter with an expectation after its assigned elements have landed. -/
  | wset (k : BitVec 4) (a : BitVec 5)
  /-- R246. Waits until a watch counter's front reaches a position or its expectation. -/
  | wwait (k : BitVec 4) (a : BitVec 5)
  /-- R224. Waits until all n scratchpad lines have their full/empty bits full. -/
  | feWait (a : BitVec 5) (b : BitVec 5)
  /-- R224. Sets n full/empty bits and returns how many were full. -/
  | feSet (d : BitVec 5) (a : BitVec 5) (b : BitVec 5)
  /-- R224. Clears n full/empty bits and returns how many were full. -/
  | feClr (d : BitVec 5) (a : BitVec 5) (b : BitVec 5)
  /-- R225. Reads a line tag, plus the full/empty bit for window addresses. -/
  | ltagLd (d : BitVec 5) (a : BitVec 5)
  /-- R226. Writes a line's FMT, SCL, CLS and PLN. -/
  | ltagSt (a : BitVec 5) (b : BitVec 5)
  /-- R138. Element-wise add through the common operand path. -/
  | vadd (d : BitVec 5) (a : BitVec 5) (x : BitVec 1) (b : BitVec 5) (y : BitVec 1)
  /-- R138. Element-wise subtract. -/
  | vsub (d : BitVec 5) (a : BitVec 5) (x : BitVec 1) (b : BitVec 5) (y : BitVec 1)
  /-- R138. Element-wise multiply. -/
  | vmul (d : BitVec 5) (a : BitVec 5) (x : BitVec 1) (b : BitVec 5) (y : BitVec 1)
  /-- R138. Fused multiply-add a × b + c, rounded once. -/
  | vfma (d : BitVec 5) (a : BitVec 5) (x : BitVec 1) (b : BitVec 5) (y : BitVec 1)
  /-- R138. Fused multiply-subtract a × b − c, rounded once. -/
  | vfms (d : BitVec 5) (a : BitVec 5) (x : BitVec 1) (b : BitVec 5) (y : BitVec 1)
  /-- R138. Fused negated multiply-add −(a × b) + c, rounded once. -/
  | vfnma (d : BitVec 5) (a : BitVec 5) (x : BitVec 1) (b : BitVec 5) (y : BitVec 1)
  /-- R139. Correctly rounded element-wise division. -/
  | vdiv (d : BitVec 5) (a : BitVec 5) (x : BitVec 1) (b : BitVec 5) (y : BitVec 1)
  /-- R139. Correctly rounded square root. -/
  | vsqrt (d : BitVec 5) (a : BitVec 5) (x : BitVec 1)
  /-- R139. Correctly rounded reciprocal square root. -/
  | vrsqrt (d : BitVec 5) (a : BitVec 5) (x : BitVec 1)
  /-- R139. Correctly rounded reciprocal. -/
  | vrcp (d : BitVec 5) (a : BitVec 5) (x : BitVec 1)
  /-- R139. Correctly rounded 2^a. -/
  | vexp2 (d : BitVec 5) (a : BitVec 5) (x : BitVec 1)
  /-- R139. Correctly rounded log2 a. -/
  | vlog2 (d : BitVec 5) (a : BitVec 5) (x : BitVec 1)
  /-- R139. Correctly rounded tanh a. -/
  | vtanh (d : BitVec 5) (a : BitVec 5) (x : BitVec 1)
  /-- R139. Correctly rounded sin(πa). -/
  | vsin (d : BitVec 5) (a : BitVec 5) (x : BitVec 1)
  /-- R139. Correctly rounded cos(πa). -/
  | vcos (d : BitVec 5) (a : BitVec 5) (x : BitVec 1)
  /-- R140. Element-wise minimum with NaN-avoiding rule. -/
  | vmin (d : BitVec 5) (a : BitVec 5) (x : BitVec 1) (b : BitVec 5) (y : BitVec 1)
  /-- R140. Element-wise maximum with NaN-avoiding rule. -/
  | vmax (d : BitVec 5) (a : BitVec 5) (x : BitVec 1) (b : BitVec 5) (y : BitVec 1)
  /-- R140. Element-wise absolute value. -/
  | vabs (d : BitVec 5) (a : BitVec 5) (x : BitVec 1)
  /-- R140. Element-wise negation. -/
  | vneg (d : BitVec 5) (a : BitVec 5) (x : BitVec 1)
  /-- R140. Magnitude of a with the sign of b. -/
  | vsgnj (d : BitVec 5) (a : BitVec 5) (x : BitVec 1) (b : BitVec 5) (y : BitVec 1)
  /-- R141. High half of the signed 64-bit integer product. -/
  | vmulh (d : BitVec 5) (a : BitVec 5) (x : BitVec 1) (b : BitVec 5) (y : BitVec 1)
  /-- R152. Element-wise logical left shift in an integer compute format. -/
  | vsll (d : BitVec 5) (a : BitVec 5) (x : BitVec 1) (b : BitVec 5) (y : BitVec 1)
  /-- R152. Element-wise logical right shift. -/
  | vsrl (d : BitVec 5) (a : BitVec 5) (x : BitVec 1) (b : BitVec 5) (y : BitVec 1)
  /-- R152. Element-wise arithmetic right shift. -/
  | vsra (d : BitVec 5) (a : BitVec 5) (x : BitVec 1) (b : BitVec 5) (y : BitVec 1)
  /-- R152. Element-wise bitwise AND. -/
  | vand (d : BitVec 5) (a : BitVec 5) (x : BitVec 1) (b : BitVec 5) (y : BitVec 1)
  /-- R152. Element-wise bitwise OR. -/
  | vor (d : BitVec 5) (a : BitVec 5) (x : BitVec 1) (b : BitVec 5) (y : BitVec 1)
  /-- R152. Element-wise bitwise XOR. -/
  | vxor (d : BitVec 5) (a : BitVec 5) (x : BitVec 1) (b : BitVec 5) (y : BitVec 1)
  /-- R152. Funnel shift of a:b left by c. -/
  | vfsh (d : BitVec 5) (a : BitVec 5) (x : BitVec 1) (b : BitVec 5) (y : BitVec 1)
  /-- R152. Element-wise population count. -/
  | vpopc (d : BitVec 5) (a : BitVec 5) (x : BitVec 1)
  /-- R152. Element-wise count of leading zeros. -/
  | vclz (d : BitVec 5) (a : BitVec 5) (x : BitVec 1)
  /-- R141. Saturating element-wise add. -/
  | vsadd (d : BitVec 5) (a : BitVec 5) (x : BitVec 1) (b : BitVec 5) (y : BitVec 1)
  /-- R142. Element-wise compare under a condition, writing a mask. -/
  | vcmp (m : BitVec 3) (a : BitVec 5) (x : BitVec 1) (b : BitVec 5) (y : BitVec 1) (c : BitVec 3)
  /-- R143. Sets mask bits where 0 ≤ a < b. -/
  | vbound (m : BitVec 3) (a : BitVec 5) (x : BitVec 1) (b : BitVec 5) (y : BitVec 1)
  /-- R156. Mask AND below the grant. -/
  | mand (d : BitVec 3) (a : BitVec 3) (b : BitVec 3)
  /-- R156. Mask OR below the grant. -/
  | mor (d : BitVec 3) (a : BitVec 3) (b : BitVec 3)
  /-- R156. Mask XOR below the grant. -/
  | mxor (d : BitVec 3) (a : BitVec 3) (b : BitVec 3)
  /-- R156. Mask AND-NOT below the grant. -/
  | mandn (d : BitVec 3) (a : BitVec 3) (b : BitVec 3)
  /-- R156. Counts set mask bits below the grant. -/
  | mpopc (d : BitVec 5) (a : BitVec 3)
  /-- R156. Writes the lowest set mask index below the grant, or all ones. -/
  | mfirst (d : BitVec 5) (a : BitVec 3)
  /-- R156. Sets the first u(X[A]) mask bits below the grant and clears the rest. -/
  | mset (d : BitVec 3) (a : BitVec 5)
  /-- R145. Converts each element into a target format, possibly narrower than 16 bits. -/
  | vcvt (d : BitVec 5) (a : BitVec 5) (x : BitVec 1) (f : BitVec 4)
  /-- R146. Quantises into a target format choosing one E8M0 scale per segment from amax. -/
  | vquant (d : BitVec 5) (a : BitVec 5) (x : BitVec 1) (f : BitVec 4)
  /-- R147. Writes the FP32 largest magnitude of the active elements to a scalar. -/
  | vamax (d : BitVec 5) (a : BitVec 5) (x : BitVec 1)
  /-- R148. Reads a register's FMT and one segment's sidecar. -/
  | vtagr (d : BitVec 5) (a : BitVec 5) (x : BitVec 1) (b : BitVec 5)
  /-- R149. Writes one segment's sidecar and optionally the register FMT. -/
  | vtagw (d : BitVec 5) (a : BitVec 5) (b : BitVec 5)
  /-- R150. Copies whole segments and adjusts their scales by k with clamping. -/
  | vscl (d : BitVec 5) (a : BitVec 5) (x : BitVec 1) (b : BitVec 5)
  /-- R155. Moves element codes. -/
  | vmov (d : BitVec 5) (a : BitVec 5) (x : BitVec 1)
  /-- R155. Broadcasts element k to every active element. -/
  | vbcast (d : BitVec 5) (a : BitVec 5) (x : BitVec 1) (b : BitVec 5)
  /-- R155. Slides elements up by k. -/
  | vslideup (d : BitVec 5) (a : BitVec 5) (x : BitVec 1) (b : BitVec 5)
  /-- R155. Slides elements down by k. -/
  | vslidedn (d : BitVec 5) (a : BitVec 5) (x : BitVec 1) (b : BitVec 5)
  /-- R155. Permutes elements by an integer index register. -/
  | vperm (d : BitVec 5) (a : BitVec 5) (x : BitVec 1) (b : BitVec 5)
  /-- R155. Packs active elements to the front. -/
  | vcompress (d : BitVec 5) (a : BitVec 5) (x : BitVec 1)
  /-- R155. Spreads leading elements to the active positions. -/
  | vexpand (d : BitVec 5) (a : BitVec 5) (x : BitVec 1)
  /-- R155. Interleaves two registers. -/
  | vzip (d : BitVec 5) (a : BitVec 5) (x : BitVec 1) (b : BitVec 5)
  /-- R155. De-interleaves one register. -/
  | vunzip (d : BitVec 5) (a : BitVec 5) (x : BitVec 1)
  /-- R155. Transposes element pairs of two registers. -/
  | vtrn (d : BitVec 5) (a : BitVec 5) (x : BitVec 1) (b : BitVec 5)
  /-- R155. Reverses the elements of each row. -/
  | vrev (d : BitVec 5) (a : BitVec 5) (x : BitVec 1)
  /-- R155. Extracts the code of element k into a scalar. -/
  | vext (d : BitVec 5) (a : BitVec 5) (x : BitVec 1) (b : BitVec 5)
  /-- R155. Inserts a scalar's low bits as the code of element k. -/
  | vins (d : BitVec 5) (a : BitVec 5) (b : BitVec 5)
  /-- R158. Reduces active elements through a fixed tree into element 0. -/
  | vred (d : BitVec 5) (a : BitVec 5) (x : BitVec 1) (o : BitVec 4)
  /-- R159. Writes prefix reductions for each active element. -/
  | vscan (d : BitVec 5) (a : BitVec 5) (x : BitVec 1) (o : BitVec 4)
  /-- R162. Appends active elements with their value codes to a deferral-queue path. -/
  | dfrPush (p : BitVec 8) (v : BitVec 5) (n : BitVec 2) (m : BitVec 3)
  /-- R163. Removes up to a grant of entries of a path into registers and a mask. -/
  | dfrPop (p : BitVec 8) (v : BitVec 5) (n : BitVec 2) (m : BitVec 3)
  /-- R164. Writes the number of entries in a deferral path. -/
  | dfrCnt (p : BitVec 8) (x : BitVec 5)
  /-- R166. Waits for a grant of elements at the queue head, checks classes and fills a register. -/
  | qpop (d : BitVec 5) (q : BitVec 3)
  /-- R167. Waits for room and appends a register's elements to a queue as tagged lines. -/
  | qpush (v : BitVec 5) (q : BitVec 3)
  /-- R168. Requests matrix array rows for the X-hart atomically. -/
  | matAtt (d : BitVec 5) (a : BitVec 5)
  /-- R169. Waits for pending operations and returns the hart's rows. -/
  | matDet
  /-- R182. Cancels pending operations on a tile and resets it to UNW zero. -/
  | tzero (t : BitVec 2)
  /-- R183. Opens a peek view of a tile at a uniform retired-operation count. -/
  | tpeek (t : BitVec 2) (a : BitVec 5)
  /-- R181. Waits until a tile has no pending operation, ends its sequence, records basting and raises its flags. -/
  | twait (t : BitVec 2)
  /-- R185. Reads the context energy budget snapshot. -/
  | mbud (d : BitVec 5)
  /-- R176. Issues a matrix outer-product accumulation into a tile after checks and budget wait. -/
  | mop (t : BitVec 2) (a : BitVec 5) (x : BitVec 1) (b : BitVec 5) (y : BitVec 1) (e : BitVec 2)
  /-- R178. Issues a matrix operation with a nested-plane second operand read at k planes. -/
  | mopn (t : BitVec 2) (a : BitVec 5) (x : BitVec 1) (b : BitVec 5) (y : BitVec 1) (m : BitVec 1) (k : BitVec 3) (e : BitVec 2)
  /-- R153. Computes a bitwise three-input function given by a truth table. -/
  | vlut3 (d : BitVec 5) (a : BitVec 5) (x : BitVec 1) (b : BitVec 5) (y : BitVec 1) (t : BitVec 8)
  /-- R100. Prefix word supplying mask, zeroing, rounding mode and fourth operand to the following X instruction. -/
  | pfx (c : BitVec 5) (v : BitVec 1) (z : BitVec 1) (m : BitVec 3) (r : BitVec 1) (o : BitVec 3)
  /-- R82. A scalar load's data lands in its destination after the third shadow instruction. -/
  | pendingLoadWrite
  /-- R199. The CC is diverted to the trap vector at its next instruction boundary after a hart trap. -/
  | trapDiversion
  /-- R189. A gang starts on a core with its strands at their entries and registers at gang-start values. -/
  | gangStart
  /-- R190. The gang ends once every strand has ended and its work drains; queues are discarded and rows returned. -/
  | gangEnd
  /-- R177. A pending matrix operation retires into its tile row group by row group. -/
  | matrixRetire (hart : BitVec 3) (tile : BitVec 2)
  /-- R184. The power manager adds budget units at the context's rate up to its ceiling. -/
  | budgetRefill (ctx : Nat) (us : Nat)
  /-- R68. A basting telemetry entry is written as an engine write and COUNT advances. -/
  | bastingEntryWrite
  /-- R235. A copy writes a destination line's covered slots and tag in one atomic step. -/
  | landing (copy : Nat) (line : Nat)
  /-- R244. A closed batch completes once its copies have retired and earlier batches completed. -/
  | batchComplete (who : Nat)
  /-- R250. A held or new event record enters the core's event queue. -/
  | eventPost
  /-- R247. A queued command block starts its copy, after waiting on its knot if KWE is set. -/
  | commandBlockStart (queue : BitVec 2)
  /-- R248. The Bobbin emits one copy per iteration of its nest, translating it at emission. -/
  | bobbinEmission
  /-- R317. A fault record is written to the partition fault buffer and FAULT is raised. -/
  | faultRecordWrite (part : Nat)
  /-- R322. The CC enters the resident level when an enabled event is pending. -/
  | residentEntry
  /-- R292. A die walker hands the next work item of a launch to a free core. -/
  | walkerAssign (die : Nat)
  /-- R295. A launch completes, writes its STATE and posts its LAUNCH record. -/
  | launchComplete (part : Nat) (launch : Nat)
  /-- R326. The walker restores a requeued container on a free core and clears MAGIC. -/
  | requeueRestore
  /-- R393. A core leaves retention or off when an enabled event or work arrives. -/
  | powerWake
  /-- R394. Power-on runs the bring-up sequence from configuration copy to resident firmware start. -/
  | bringUp
  /-- R384. A resident fault, uncorrectable uncontained error or failed link halts a core or resets the device. -/
  | machineCheck (wholeDevice : Bool)
  /-- R358. A shadow block is erased, programmed and verified, replaced on failure. -/
  | installBlockVerify (index : Nat) (ok : Bool)
  /-- R360. The extent's logical blocks are mapped to their shadows atomically and CODE is written. -/
  | installCommit (index : Nat)
  /-- R365. The Darner rewrites one line's data and tag atomically under its policy. -/
  | recodeLineStep (index : Nat)
  /-- R372. Turnover exchanges the data and remap entries of two DPA pages and posts TURNOVER. -/
  | turnoverSwap (index : Nat)
  /-- R353. A weight read miss stages the line and its tag from flash. -/
  | stagingFill (line : Nat) (bad : Bool)
  /-- R275. A clasp request reaches the home and joins its FIFO or is forwarded as a recall. -/
  | claspRequest (clasp : Nat) (core : Nat) (try_ : Bool)
  /-- R271. A releaser receives a recall, writes back its lazy set and returns a signature. -/
  | recallClasp (clasp : Nat)
  /-- R338. The releaser's signature reaches the clasp's home. -/
  | signature (clasp : Nat)
  /-- R338. The clasp's home grants the clasp with a signature once all write-backs are acknowledged. -/
  | grant (clasp : Nat)
  /-- R268. The home refuses a tryacq that cannot be granted. -/
  | refusal (clasp : Nat)
  /-- R338. A dirty line is written back to its home. -/
  | writeBack (clasp : Nat)
  /-- R338. A home acknowledges a performed write-back to the clasp's home. -/
  | acknowledge (clasp : Nat)
  /-- R387. The device reads a partition entry when its EN becomes 1. -/
  | partitionEnable (part : Nat)
  /-- R87. A word that is not an allocated instruction issues and raises ILLEGAL_INSTRUCTION, or a machine check at resident level. -/
  | unallocatedEncoding (w : BitVec 32)
  /-- R387. A partition's EN returns to 0, ending the partition and allowing its entry to be changed and read again later. -/
  | partitionDisable (part : Nat)
  /-- R336. A persistent request enters the home slice arbiter and gathers all tokens. -/
  | persistent (line : Nat) (holder : Nat)
  /-- R322. The column temperature reaches sr.ttrip and raises the THERMAL event. -/
  | thermal (temp : BitVec 16)
  /-- R391. A debug port request stops a strand or accesses state at the allowed debug level. -/
  | debugStop (level : BitVec 2) (slot : Nat) (req : DebugReq)
  /-- R323. A write of ones to sr.rpend clears pending resident events. -/
  | srRpend (v : BitVec 64)
  /-- R323. A non-zero write creates a context and a write of 0 terminates it. -/
  | srPtroot (v : BitVec 64)
  /-- R322. A write of a core number raises DOORBELL at that core. -/
  | srRing (v : BitVec 64)
  /-- R184. A write sets BUDGET of the context's sr.eb. -/
  | srEbw (v : BitVec 64)
  /-- R352. A write resizes the staging cache, invalidating every staged line first. -/
  | srStage (v : BitVec 64)
  /-- R362. A write sets the install allowance and resets the balance to it. -/
  | srWalw (v : BitVec 64)
  /-- R370. A write sets the free-sector stack top, discarding indices above it. -/
  | srSptop (pool : BitVec 3) (v : BitVec 64)
  /-- R389. Setting HOLD stops walkers handing out the partition's work items. -/
  | srPctlHold (v : BitVec 64)
  /-- R393. A write of 2 requests retention once the core has no running strand. -/
  | srPwrRetention
  /-- R393. A write of 3 requests the off state when the core holds no gang. -/
  | srPwrOff
  /-- R40. A write sets the stochastic generator state, storing 1 for zero. -/
  | srSeed (v : BitVec 64)
  /-- R323. A write to a system or resident register with no behaviour of its own stores the value. -/
  | registerWrite (num : BitVec 12) (v : BitVec 64)
  /-- R393. The device gates a core's clock when no strand is ready, and ungates it when one is. -/
  | clockGate
  /-- R339. A link that cannot deliver after its retries fails the device. -/
  | linkFailure (port : Nat)
  /-- R381. An uncorrectable soft error poisons a line or terminates the context. -/
  | uncorrectableError (place : ErrorPlace) (n : Nat)
  /-- R383. A line is read and written back corrected as one atomic step at its home. -/
  | scrub (line : ScrubLine) (bad : Bool)
  /-- R375. The sampling countdown expires and the page's HEAT is incremented. -/
  | heatSample (dpa : BitVec 64)
  /-- R376. Each valid remap entry's HEAT is halved once per decay interval. -/
  | heatDecay (dpa : BitVec 64)
  /-- R395. The install allowance balance gains one byte per tick up to sr.walw. -/
  | allowanceTick (part : Nat)
  /-- R361. A flash stack loses power during an install, ending it with POWER_LOSS_ROLLBACK. -/
  | flashPowerLoss (stack : Nat)
  /-- R335. A transient read request collects one token and data. -/
  | read (line : Nat) (holder : Nat)
  /-- R335. A transient write request collects every token of a line. -/
  | write (line : Nat) (holder : Nat)
  /-- R334. A data message carries a line and tokens to a requester. -/
  | data (line : Nat) (src : Nat) (dst : Nat)
  /-- R340. A Lacing flit is received, checked by CRC, forwarded or unpacked into messages. -/
  | lacingFlit (port : Nat) (flit : BitVec 2048)
  /-- R343. A back-invalidation snoop to or from a CXL agent is sent and answered before a write. -/
  | bisnp (line : Nat)
  /-- R343. A host write to device memory makes the line RAW and advances GEN. -/
  | hostWrite (line : Nat) (off : BitVec 7) (v : BitVec 64)
  /-- R252. The implementation evicts or writes back a far copy, merging dirty bytes at the home. -/
  | farCopyEviction (index : Nat) (drop : Bool)
  /-- R343. A host read of device memory over CXL.mem is served by the home slice, returning CXL poison for a POI line. -/
  | hostRead (line : Nat)
  /-- R342. The host snoops a host-memory line that a home slice caches under CXL.cache, invalidating or fetching it. -/
  | hostSnoop (line : Nat) (inval : Bool)
  /-- R344. An agent that reaches pool memory without going through this device writes a pool line, clearing its tag-valid bit. -/
  | outsidePoolWrite (line : Nat) (off : BitVec 7) (v : BitVec 64)
  /-- R361. The module loses power, losing all volatile state and leaving any uncommitted install for rollback at the next bring-up. -/
  | modulePowerLoss
  /-- R385. The management controller changes the module configuration record, to take effect at the next bring-up. -/
  | configurationRecordChange (rec : BitVec 4096)
  /-- R20. The main clock's operating point changes while every core is in a power state other than active. -/
  | operatingPointChange (point : Nat)
  /-- R381. A soft error is corrected by ECC, changing no value and incrementing sr.errcnt of the correcting core or die. -/
  | correctedError (core : Nat)
  deriving DecidableEq, Repr

end Sys2Proof
end

