-- ==== Sys2Proof/WellFormed.lean ====
section
/-! DEFINITION. Which operand values each encoded row allows (the field values its entry lists; every other value is an
unallocated encoding, R87). Constructors that are not named here allow every value of their fields. -/

namespace Sys2Proof

/-- WC values 1 and 2 of `vshape` are unallocated (R92). -/
def wcOk (w : BitVec 4) : Bool := w != 1 && w != 2

/-- The FO, FMT, RD and RM fields of a vector load: FO = 0 needs FMT = 0, and RD = 0 needs RM = 0 (R96, Table 11.2). -/
def loadFieldsOk (f : BitVec 1) (t : BitVec 4) (r : BitVec 1) (m : BitVec 3) : Bool :=
  (f == 1 || t == 0) && (r == 1 || m == 0)

/-- The SZ fields of registers beyond N are 0, C lies outside A to A + N - 1, and the last register is at most 31
(R91, R117). -/
def sbrOk (c a : BitVec 5) (n : BitVec 2) (z : BitVec 8) : Bool :=
  a.toNat + n.toNat ≤ 31 && z.toNat < 4 ^ (n.toNat + 1) && !(a.toNat ≤ c.toNat && c.toNat ≤ a.toNat + n.toNat)

/-- The op and size pairs of Table 11.4; `.q` is `.cas` alone, with even D and B (R217, R218). -/
def amoOk (d b : BitVec 5) (o : BitVec 4) (z : BitVec 2) : Bool :=
  match z.toNat with
  | 0 => o.toNat ≤ 10
  | 1 => o.toNat ≤ 9
  | 2 => o.toNat == 9 && d.toNat % 2 == 0 && b.toNat % 2 == 0
  | _ => false

/-- Whether every operand of an encoded row has a value its entry allows. The all-zero word is no instruction (R87), so that `add`
needs a register other than x0. The agents' steps are always well formed. -/
def Instr.wellFormed : Instr → Bool
  | .add d a b => !(d == 0 && a == 0 && b == 0)
  | .ld _ _ z _ => z.toNat ≤ 6
  | .vshapeImm _ w _ _ => wcOk w
  | .vshapeReg _ _ _ w => wcOk w
  | .vquery _ i => i.toNat ≤ 4
  | .fence s k => s.toNat ≤ 4 && k != 0
  | .sbr _ c a n z _ => sbrOk c a n z
  | .evqPop d => 1 ≤ d.toNat && d.toNat ≤ 28
  | .evqPeek d => 1 ≤ d.toNat && d.toNat ≤ 28
  | .sysrp _ n => 0x100 ≤ n.toNat
  | .syswp _ n => 0x100 ≤ n.toNat
  | .vldU _ _ f t r m => loadFieldsOk f t r m
  | .vldS _ _ _ f t r m => loadFieldsOk f t r m
  | .vldX _ _ _ f t r m => loadFieldsOk f t r m
  | .vldB _ _ _ f t r m => loadFieldsOk f t r m
  | .vldNp _ _ _ k => 2 ≤ k.toNat && k.toNat ≤ 8
  | .amo d _ b o z => amoOk d b o z
  | .amoV _ _ b x o => o.toNat ≤ 5 && (x == 1 || b == 0)
  | .mred o _ _ => o.toNat ≤ 2
  | .mcas _ _ b => b.toNat ≤ 30
  | .cpCmp _ a _ => a.toNat ≤ 30
  | .vred _ _ _ o => o.toNat ≤ 6
  | .vscan _ _ _ o => o.toNat ≤ 6
  | .dfrPush _ v n _ => v.toNat + n.toNat ≤ 31
  | .dfrPop _ v n _ => v.toNat + n.toNat + 1 ≤ 31
  | .mopn _ _ _ _ _ _ k _ => k != 7
  | .pfx c v z m r o => (v == 1 || c == 0) && (r == 1 || o == 0) && !(z == 1 && m == 0)
  | _ => true

end Sys2Proof
end

