-- ==== Sys2Proof/Decode.lean ====
section
/-! DEFINITION. Decoding and encoding of instruction words (R84 to R98 and the encoding tables of each chapter). A word
is read as a natural number; `bitsAt w lo n` is its field of `n` bits at bit `lo`. Each space has its own map, split by
major opcode, and every bit of a row that is neither an operand nor listed as fixed is an operand: the fixed bits are
compared, so a reserved bit that is not zero makes the word unallocated (R5, R87). -/

namespace Sys2Proof

/-- Bits [lo + n - 1 : lo] of a word (R4). -/
def bitsAt (w lo n : Nat) : Nat := w / 2 ^ lo % 2 ^ n

/-- Major 0x00 of the shared control subset (Table 05.4). -/
def decodeShared00 (w : Nat) : Option Instr :=
  if bitsAt w 0 9 = 0 ∧ bitsAt w 14 1 = 0 then some (.add (.ofNat 5 (bitsAt w 20 5)) (.ofNat 5 (bitsAt w 15 5)) (.ofNat 5 (bitsAt w 9 5))) else
  if bitsAt w 0 9 = 1 ∧ bitsAt w 14 1 = 0 then some (.sub (.ofNat 5 (bitsAt w 20 5)) (.ofNat 5 (bitsAt w 15 5)) (.ofNat 5 (bitsAt w 9 5))) else
  if bitsAt w 0 9 = 2 ∧ bitsAt w 14 1 = 0 then some (.mul (.ofNat 5 (bitsAt w 20 5)) (.ofNat 5 (bitsAt w 15 5)) (.ofNat 5 (bitsAt w 9 5))) else
  if bitsAt w 0 9 = 3 ∧ bitsAt w 14 1 = 0 then some (.mulh (.ofNat 5 (bitsAt w 20 5)) (.ofNat 5 (bitsAt w 15 5)) (.ofNat 5 (bitsAt w 9 5))) else
  if bitsAt w 0 9 = 4 ∧ bitsAt w 14 1 = 0 then some (.mulhu (.ofNat 5 (bitsAt w 20 5)) (.ofNat 5 (bitsAt w 15 5)) (.ofNat 5 (bitsAt w 9 5))) else
  if bitsAt w 0 9 = 5 ∧ bitsAt w 14 1 = 0 then some (.div (.ofNat 5 (bitsAt w 20 5)) (.ofNat 5 (bitsAt w 15 5)) (.ofNat 5 (bitsAt w 9 5))) else
  if bitsAt w 0 9 = 6 ∧ bitsAt w 14 1 = 0 then some (.divu (.ofNat 5 (bitsAt w 20 5)) (.ofNat 5 (bitsAt w 15 5)) (.ofNat 5 (bitsAt w 9 5))) else
  if bitsAt w 0 9 = 7 ∧ bitsAt w 14 1 = 0 then some (.rem (.ofNat 5 (bitsAt w 20 5)) (.ofNat 5 (bitsAt w 15 5)) (.ofNat 5 (bitsAt w 9 5))) else
  if bitsAt w 0 9 = 8 ∧ bitsAt w 14 1 = 0 then some (.remu (.ofNat 5 (bitsAt w 20 5)) (.ofNat 5 (bitsAt w 15 5)) (.ofNat 5 (bitsAt w 9 5))) else
  if bitsAt w 0 9 = 9 ∧ bitsAt w 14 1 = 0 then some (.and (.ofNat 5 (bitsAt w 20 5)) (.ofNat 5 (bitsAt w 15 5)) (.ofNat 5 (bitsAt w 9 5))) else
  if bitsAt w 0 9 = 10 ∧ bitsAt w 14 1 = 0 then some (.or (.ofNat 5 (bitsAt w 20 5)) (.ofNat 5 (bitsAt w 15 5)) (.ofNat 5 (bitsAt w 9 5))) else
  if bitsAt w 0 9 = 11 ∧ bitsAt w 14 1 = 0 then some (.xor (.ofNat 5 (bitsAt w 20 5)) (.ofNat 5 (bitsAt w 15 5)) (.ofNat 5 (bitsAt w 9 5))) else
  if bitsAt w 0 9 = 12 ∧ bitsAt w 14 1 = 0 then some (.sll (.ofNat 5 (bitsAt w 20 5)) (.ofNat 5 (bitsAt w 15 5)) (.ofNat 5 (bitsAt w 9 5))) else
  if bitsAt w 0 9 = 13 ∧ bitsAt w 14 1 = 0 then some (.srl (.ofNat 5 (bitsAt w 20 5)) (.ofNat 5 (bitsAt w 15 5)) (.ofNat 5 (bitsAt w 9 5))) else
  if bitsAt w 0 9 = 14 ∧ bitsAt w 14 1 = 0 then some (.sra (.ofNat 5 (bitsAt w 20 5)) (.ofNat 5 (bitsAt w 15 5)) (.ofNat 5 (bitsAt w 9 5))) else
  if bitsAt w 0 9 = 15 ∧ bitsAt w 14 1 = 0 then some (.slt (.ofNat 5 (bitsAt w 20 5)) (.ofNat 5 (bitsAt w 15 5)) (.ofNat 5 (bitsAt w 9 5))) else
  if bitsAt w 0 9 = 16 ∧ bitsAt w 14 1 = 0 then some (.sltu (.ofNat 5 (bitsAt w 20 5)) (.ofNat 5 (bitsAt w 15 5)) (.ofNat 5 (bitsAt w 9 5))) else
  if bitsAt w 0 9 = 17 ∧ bitsAt w 14 1 = 0 then some (.min (.ofNat 5 (bitsAt w 20 5)) (.ofNat 5 (bitsAt w 15 5)) (.ofNat 5 (bitsAt w 9 5))) else
  if bitsAt w 0 9 = 18 ∧ bitsAt w 14 1 = 0 then some (.max (.ofNat 5 (bitsAt w 20 5)) (.ofNat 5 (bitsAt w 15 5)) (.ofNat 5 (bitsAt w 9 5))) else
  if bitsAt w 0 9 = 19 ∧ bitsAt w 14 1 = 0 then some (.minu (.ofNat 5 (bitsAt w 20 5)) (.ofNat 5 (bitsAt w 15 5)) (.ofNat 5 (bitsAt w 9 5))) else
  if bitsAt w 0 9 = 20 ∧ bitsAt w 14 1 = 0 then some (.maxu (.ofNat 5 (bitsAt w 20 5)) (.ofNat 5 (bitsAt w 15 5)) (.ofNat 5 (bitsAt w 9 5))) else
  if bitsAt w 0 15 = 21 then some (.clz (.ofNat 5 (bitsAt w 20 5)) (.ofNat 5 (bitsAt w 15 5))) else
  if bitsAt w 0 15 = 22 then some (.ctz (.ofNat 5 (bitsAt w 20 5)) (.ofNat 5 (bitsAt w 15 5))) else
  if bitsAt w 0 15 = 23 then some (.popc (.ofNat 5 (bitsAt w 20 5)) (.ofNat 5 (bitsAt w 15 5))) else
  if bitsAt w 0 9 = 24 ∧ bitsAt w 14 1 = 0 then some (.sel (.ofNat 5 (bitsAt w 20 5)) (.ofNat 5 (bitsAt w 15 5)) (.ofNat 5 (bitsAt w 9 5))) else
  none

/-- Major 0x01 of the shared control subset (Table 05.4). -/
def decodeShared01 (w : Nat) : Option Instr :=
  some (.addi (.ofNat 5 (bitsAt w 20 5)) (.ofNat 5 (bitsAt w 15 5)) (.ofNat 15 (bitsAt w 0 15)))

/-- Major 0x02 of the shared control subset (Table 05.4). -/
def decodeShared02 (w : Nat) : Option Instr :=
  some (.andi (.ofNat 5 (bitsAt w 20 5)) (.ofNat 5 (bitsAt w 15 5)) (.ofNat 15 (bitsAt w 0 15)))

/-- Major 0x03 of the shared control subset (Table 05.4). -/
def decodeShared03 (w : Nat) : Option Instr :=
  some (.ori (.ofNat 5 (bitsAt w 20 5)) (.ofNat 5 (bitsAt w 15 5)) (.ofNat 15 (bitsAt w 0 15)))

/-- Major 0x04 of the shared control subset (Table 05.4). -/
def decodeShared04 (w : Nat) : Option Instr :=
  some (.xori (.ofNat 5 (bitsAt w 20 5)) (.ofNat 5 (bitsAt w 15 5)) (.ofNat 15 (bitsAt w 0 15)))

/-- Major 0x05 of the shared control subset (Table 05.4). -/
def decodeShared05 (w : Nat) : Option Instr :=
  some (.slti (.ofNat 5 (bitsAt w 20 5)) (.ofNat 5 (bitsAt w 15 5)) (.ofNat 15 (bitsAt w 0 15)))

/-- Major 0x06 of the shared control subset (Table 05.4). -/
def decodeShared06 (w : Nat) : Option Instr :=
  if bitsAt w 6 9 = 0 then some (.slli (.ofNat 5 (bitsAt w 20 5)) (.ofNat 5 (bitsAt w 15 5)) (.ofNat 6 (bitsAt w 0 6))) else
  none

/-- Major 0x07 of the shared control subset (Table 05.4). -/
def decodeShared07 (w : Nat) : Option Instr :=
  if bitsAt w 6 9 = 0 then some (.srli (.ofNat 5 (bitsAt w 20 5)) (.ofNat 5 (bitsAt w 15 5)) (.ofNat 6 (bitsAt w 0 6))) else
  none

/-- Major 0x08 of the shared control subset (Table 05.4). -/
def decodeShared08 (w : Nat) : Option Instr :=
  if bitsAt w 6 9 = 0 then some (.srai (.ofNat 5 (bitsAt w 20 5)) (.ofNat 5 (bitsAt w 15 5)) (.ofNat 6 (bitsAt w 0 6))) else
  none

/-- Major 0x09 of the shared control subset (Table 05.4). -/
def decodeShared09 (w : Nat) : Option Instr :=
  some (.adda (.ofNat 5 (bitsAt w 20 5)) (.ofNat 5 (bitsAt w 15 5)) (.ofNat 15 (bitsAt w 0 15)))

/-- Major 0x0A of the shared control subset (Table 05.4). -/
def decodeShared0A (w : Nat) : Option Instr :=
  some (.lih (.ofNat 5 (bitsAt w 20 5)) (.ofNat 20 (bitsAt w 0 20)))

/-- Major 0x0B of the shared control subset (Table 05.4). -/
def decodeShared0B (w : Nat) : Option Instr :=
  some (.beq (.ofNat 5 (bitsAt w 20 5)) (.ofNat 5 (bitsAt w 15 5)) (.ofNat 15 (bitsAt w 0 15)))

/-- Major 0x0C of the shared control subset (Table 05.4). -/
def decodeShared0C (w : Nat) : Option Instr :=
  some (.bne (.ofNat 5 (bitsAt w 20 5)) (.ofNat 5 (bitsAt w 15 5)) (.ofNat 15 (bitsAt w 0 15)))

/-- Major 0x0D of the shared control subset (Table 05.4). -/
def decodeShared0D (w : Nat) : Option Instr :=
  some (.blt (.ofNat 5 (bitsAt w 20 5)) (.ofNat 5 (bitsAt w 15 5)) (.ofNat 15 (bitsAt w 0 15)))

/-- Major 0x0E of the shared control subset (Table 05.4). -/
def decodeShared0E (w : Nat) : Option Instr :=
  some (.bge (.ofNat 5 (bitsAt w 20 5)) (.ofNat 5 (bitsAt w 15 5)) (.ofNat 15 (bitsAt w 0 15)))

/-- Major 0x0F of the shared control subset (Table 05.4). -/
def decodeShared0F (w : Nat) : Option Instr :=
  some (.bltu (.ofNat 5 (bitsAt w 20 5)) (.ofNat 5 (bitsAt w 15 5)) (.ofNat 15 (bitsAt w 0 15)))

/-- Major 0x10 of the shared control subset (Table 05.4). -/
def decodeShared10 (w : Nat) : Option Instr :=
  some (.bgeu (.ofNat 5 (bitsAt w 20 5)) (.ofNat 5 (bitsAt w 15 5)) (.ofNat 15 (bitsAt w 0 15)))

/-- Major 0x11 of the shared control subset (Table 05.4). -/
def decodeShared11 (w : Nat) : Option Instr :=
  some (.jal (.ofNat 5 (bitsAt w 20 5)) (.ofNat 20 (bitsAt w 0 20)))

/-- Major 0x12 of the shared control subset (Table 05.4). -/
def decodeShared12 (w : Nat) : Option Instr :=
  some (.jalr (.ofNat 5 (bitsAt w 20 5)) (.ofNat 5 (bitsAt w 15 5)) (.ofNat 15 (bitsAt w 0 15)))

/-- Major 0x13 of the shared control subset (Table 05.4). -/
def decodeShared13 (w : Nat) : Option Instr :=
  if bitsAt w 15 5 = 0 then some (.loop (.ofNat 5 (bitsAt w 20 5)) (.ofNat 15 (bitsAt w 0 15))) else
  none

/-- Major 0x14 of the shared control subset (Table 05.4). -/
def decodeShared14 (w : Nat) : Option Instr :=
  if bitsAt w 15 2 = 0 then some (.ploop (.ofNat 5 (bitsAt w 20 5)) (.ofNat 3 (bitsAt w 17 3)) (.ofNat 15 (bitsAt w 0 15))) else
  none

/-- Major 0x15 of the shared control subset (Table 05.4). -/
def decodeShared15 (w : Nat) : Option Instr :=
  some (.ld (.ofNat 5 (bitsAt w 20 5)) (.ofNat 5 (bitsAt w 15 5)) (.ofNat 3 (bitsAt w 12 3)) (.ofNat 12 (bitsAt w 0 12)))

/-- Major 0x16 of the shared control subset (Table 05.4). -/
def decodeShared16 (w : Nat) : Option Instr :=
  if bitsAt w 14 1 = 0 then some (.st (.ofNat 5 (bitsAt w 20 5)) (.ofNat 5 (bitsAt w 15 5)) (.ofNat 2 (bitsAt w 12 2)) (.ofNat 12 (bitsAt w 0 12))) else
  none

/-- Major 0x17 of the shared control subset (Table 05.4). -/
def decodeShared17 (w : Nat) : Option Instr :=
  if bitsAt w 20 5 = 0 then some (.ipf (.ofNat 5 (bitsAt w 15 5)) (.ofNat 15 (bitsAt w 0 15))) else
  none

/-- Major 0x18 of the shared control subset (Table 05.4). -/
def decodeShared18 (w : Nat) : Option Instr :=
  if bitsAt w 20 5 = 0 then some (.dpf (.ofNat 5 (bitsAt w 15 5)) (.ofNat 15 (bitsAt w 0 15))) else
  none

/-- Major 0x19 of the shared control subset (Table 05.4). -/
def decodeShared19 (w : Nat) : Option Instr :=
  some (.vshapeImm (.ofNat 5 (bitsAt w 20 5)) (.ofNat 4 (bitsAt w 16 4)) (.ofNat 7 (bitsAt w 9 7)) (.ofNat 9 (bitsAt w 0 9)))

/-- Major 0x1A of the shared control subset (Table 05.4). -/
def decodeShared1A (w : Nat) : Option Instr :=
  if bitsAt w 0 4 = 0 ∧ bitsAt w 8 1 = 0 ∧ bitsAt w 14 1 = 0 then some (.vshapeReg (.ofNat 5 (bitsAt w 20 5)) (.ofNat 5 (bitsAt w 15 5)) (.ofNat 5 (bitsAt w 9 5)) (.ofNat 4 (bitsAt w 4 4))) else
  none

/-- Major 0x1B of the shared control subset (Table 05.4). -/
def decodeShared1B (w : Nat) : Option Instr :=
  if bitsAt w 15 5 = 0 then some (.vquery (.ofNat 5 (bitsAt w 20 5)) (.ofNat 15 (bitsAt w 0 15))) else
  none

/-- Major 0x1C of the shared control subset (Table 05.4). -/
def decodeShared1C (w : Nat) : Option Instr :=
  if bitsAt w 0 15 = 0 ∧ bitsAt w 20 5 = 0 then some (.bqPush (.ofNat 5 (bitsAt w 15 5))) else
  none

/-- Major 0x1D of the shared control subset (Table 05.4). -/
def decodeShared1D (w : Nat) : Option Instr :=
  if bitsAt w 15 10 = 0 then some (.bqBr (.ofNat 15 (bitsAt w 0 15))) else
  none

/-- Major 0x1E of the shared control subset (Table 05.4). -/
def decodeShared1E (w : Nat) : Option Instr :=
  if bitsAt w 0 19 = 0 then some (.fence (.ofNat 3 (bitsAt w 22 3)) (.ofNat 3 (bitsAt w 19 3))) else
  if bitsAt w 0 25 = 1 then some (.bar) else
  none

/-- Major 0x1F of the shared control subset (Table 05.4). -/
def decodeShared1F (w : Nat) : Option Instr :=
  if bitsAt w 15 10 = 0 then some (.trap (.ofNat 15 (bitsAt w 0 15))) else
  none

/-- Major 0x20 of the shared control subset (Table 05.4). -/
def decodeShared20 (w : Nat) : Option Instr :=
  if bitsAt w 0 25 = 0 then some (.nop) else
  if bitsAt w 0 25 = 1 then some (.yield) else
  none

/-- Major 0x21 of the shared control subset (Table 05.4). -/
def decodeShared21 (w : Nat) : Option Instr :=
  if bitsAt w 12 8 = 0 then some (.sysr (.ofNat 5 (bitsAt w 20 5)) (.ofNat 12 (bitsAt w 0 12))) else
  none

/-- Major 0x22 of the shared control subset (Table 05.4). -/
def decodeShared22 (w : Nat) : Option Instr :=
  if bitsAt w 12 3 = 0 ∧ bitsAt w 20 5 = 0 then some (.sysw (.ofNat 5 (bitsAt w 15 5)) (.ofNat 12 (bitsAt w 0 12))) else
  none

/-- Major 0x38 of the shared control subset (Table 05.4). -/
def decodeShared38 (w : Nat) : Option Instr :=
  some (.sbr (.ofNat 3 (bitsAt w 25 3)) (.ofNat 5 (bitsAt w 20 5)) (.ofNat 5 (bitsAt w 15 5)) (.ofNat 2 (bitsAt w 13 2)) (.ofNat 8 (bitsAt w 5 8)) (.ofNat 5 (bitsAt w 0 5)))

/-- The map of the shared control subset, by major opcode. -/
def decodeShared (w : Nat) : Option Instr :=
  match bitsAt w 25 6 with
  | 0 => decodeShared00 w
  | 1 => decodeShared01 w
  | 2 => decodeShared02 w
  | 3 => decodeShared03 w
  | 4 => decodeShared04 w
  | 5 => decodeShared05 w
  | 6 => decodeShared06 w
  | 7 => decodeShared07 w
  | 8 => decodeShared08 w
  | 9 => decodeShared09 w
  | 10 => decodeShared0A w
  | 11 => decodeShared0B w
  | 12 => decodeShared0C w
  | 13 => decodeShared0D w
  | 14 => decodeShared0E w
  | 15 => decodeShared0F w
  | 16 => decodeShared10 w
  | 17 => decodeShared11 w
  | 18 => decodeShared12 w
  | 19 => decodeShared13 w
  | 20 => decodeShared14 w
  | 21 => decodeShared15 w
  | 22 => decodeShared16 w
  | 23 => decodeShared17 w
  | 24 => decodeShared18 w
  | 25 => decodeShared19 w
  | 26 => decodeShared1A w
  | 27 => decodeShared1B w
  | 28 => decodeShared1C w
  | 29 => decodeShared1D w
  | 30 => decodeShared1E w
  | 31 => decodeShared1F w
  | 32 => decodeShared20 w
  | 33 => decodeShared21 w
  | 34 => decodeShared22 w
  | 56 => decodeShared38 w
  | 57 => decodeShared38 w
  | 58 => decodeShared38 w
  | 59 => decodeShared38 w
  | 60 => decodeShared38 w
  | 61 => decodeShared38 w
  | 62 => decodeShared38 w
  | 63 => decodeShared38 w
  | _ => none

/-- Major 0x20 of the CC private space (Table 05.6). -/
def decodeCc20 (w : Nat) : Option Instr :=
  if bitsAt w 0 15 = 0 then some (.acq (.ofNat 5 (bitsAt w 20 5)) (.ofNat 5 (bitsAt w 15 5))) else
  if bitsAt w 0 15 = 1 then some (.tryacq (.ofNat 5 (bitsAt w 20 5)) (.ofNat 5 (bitsAt w 15 5))) else
  if bitsAt w 0 15 = 2 ∧ bitsAt w 20 5 = 0 then some (.rel (.ofNat 5 (bitsAt w 15 5))) else
  none

/-- Major 0x21 of the CC private space (Table 05.6). -/
def decodeCc21 (w : Nat) : Option Instr :=
  if bitsAt w 0 9 = 0 ∧ bitsAt w 14 1 = 0 then some (.cqPush (.ofNat 5 (bitsAt w 20 5)) (.ofNat 5 (bitsAt w 15 5)) (.ofNat 5 (bitsAt w 9 5))) else
  if bitsAt w 0 15 = 1 then some (.knWait (.ofNat 5 (bitsAt w 20 5)) (.ofNat 5 (bitsAt w 15 5))) else
  if bitsAt w 0 15 = 2 then some (.knSig (.ofNat 5 (bitsAt w 20 5)) (.ofNat 5 (bitsAt w 15 5))) else
  none

/-- Major 0x22 of the CC private space (Table 05.6). -/
def decodeCc22 (w : Nat) : Option Instr :=
  if bitsAt w 0 9 = 0 ∧ bitsAt w 14 1 = 0 then some (.renq (.ofNat 5 (bitsAt w 20 5)) (.ofNat 5 (bitsAt w 15 5)) (.ofNat 5 (bitsAt w 9 5))) else
  if bitsAt w 0 20 = 1 then some (.evqPop (.ofNat 5 (bitsAt w 20 5))) else
  if bitsAt w 0 20 = 2 then some (.evqPeek (.ofNat 5 (bitsAt w 20 5))) else
  none

/-- Major 0x23 of the CC private space (Table 05.6). -/
def decodeCc23 (w : Nat) : Option Instr :=
  if bitsAt w 0 15 = 0 ∧ bitsAt w 20 5 = 0 then some (.bobLd (.ofNat 5 (bitsAt w 15 5))) else
  if bitsAt w 0 9 = 1 ∧ bitsAt w 14 1 = 0 then some (.bobGo (.ofNat 5 (bitsAt w 20 5)) (.ofNat 5 (bitsAt w 15 5)) (.ofNat 5 (bitsAt w 9 5))) else
  none

/-- Major 0x24 of the CC private space (Table 05.6). -/
def decodeCc24 (w : Nat) : Option Instr :=
  if bitsAt w 0 15 = 0 ∧ bitsAt w 20 5 = 0 then some (.ovl (.ofNat 5 (bitsAt w 15 5))) else
  if bitsAt w 0 15 = 1 then some (.lnrSub (.ofNat 5 (bitsAt w 20 5)) (.ofNat 5 (bitsAt w 15 5))) else
  none

/-- Major 0x30 of the CC private space (Table 05.6). -/
def decodeCc30 (w : Nat) : Option Instr :=
  if bitsAt w 0 8 = 0 ∧ bitsAt w 12 3 = 0 then some (.ftWr (.ofNat 5 (bitsAt w 20 5)) (.ofNat 5 (bitsAt w 15 5)) (.ofNat 4 (bitsAt w 8 4))) else
  if bitsAt w 0 9 = 1 ∧ bitsAt w 14 1 = 0 then some (.pkWr (.ofNat 5 (bitsAt w 20 5)) (.ofNat 5 (bitsAt w 15 5)) (.ofNat 5 (bitsAt w 9 5))) else
  none

/-- Major 0x31 of the CC private space (Table 05.6). -/
def decodeCc31 (w : Nat) : Option Instr :=
  if bitsAt w 0 9 = 0 ∧ bitsAt w 14 1 = 0 then some (.recode (.ofNat 5 (bitsAt w 20 5)) (.ofNat 5 (bitsAt w 15 5)) (.ofNat 5 (bitsAt w 9 5))) else
  if bitsAt w 0 9 = 1 ∧ bitsAt w 14 1 = 0 then some (.swp (.ofNat 5 (bitsAt w 20 5)) (.ofNat 5 (bitsAt w 15 5)) (.ofNat 5 (bitsAt w 9 5))) else
  if bitsAt w 0 15 = 2 then some (.winst (.ofNat 5 (bitsAt w 20 5)) (.ofNat 5 (bitsAt w 15 5))) else
  if bitsAt w 0 9 = 3 ∧ bitsAt w 14 1 = 0 then some (.wstat (.ofNat 5 (bitsAt w 20 5)) (.ofNat 5 (bitsAt w 15 5)) (.ofNat 5 (bitsAt w 9 5))) else
  if bitsAt w 0 9 = 4 ∧ bitsAt w 14 1 = 0 then some (.heatRd (.ofNat 5 (bitsAt w 20 5)) (.ofNat 5 (bitsAt w 15 5)) (.ofNat 5 (bitsAt w 9 5))) else
  none

/-- Major 0x3C of the CC private space (Table 05.6). -/
def decodeCc3C (w : Nat) : Option Instr :=
  if bitsAt w 0 25 = 0 then some (.eret) else
  if bitsAt w 0 9 = 1 ∧ bitsAt w 14 1 = 0 ∧ bitsAt w 20 5 = 0 then some (.tlbi (.ofNat 5 (bitsAt w 15 5)) (.ofNat 5 (bitsAt w 9 5))) else
  if bitsAt w 0 9 = 2 ∧ bitsAt w 14 1 = 0 then some (.rpl (.ofNat 5 (bitsAt w 20 5)) (.ofNat 5 (bitsAt w 15 5)) (.ofNat 5 (bitsAt w 9 5))) else
  if bitsAt w 0 25 = 3 then some (.wfi) else
  if bitsAt w 0 9 = 4 ∧ bitsAt w 14 1 = 0 then some (.ctxSave (.ofNat 5 (bitsAt w 20 5)) (.ofNat 5 (bitsAt w 15 5)) (.ofNat 5 (bitsAt w 9 5))) else
  if bitsAt w 0 15 = 5 then some (.ctxLoad (.ofNat 5 (bitsAt w 20 5)) (.ofNat 5 (bitsAt w 15 5))) else
  if bitsAt w 0 9 = 6 ∧ bitsAt w 14 1 = 0 then some (.migDirty (.ofNat 5 (bitsAt w 20 5)) (.ofNat 5 (bitsAt w 15 5)) (.ofNat 5 (bitsAt w 9 5))) else
  none

/-- Major 0x3D of the CC private space (Table 05.6). -/
def decodeCc3D (w : Nat) : Option Instr :=
  if bitsAt w 12 8 = 0 then some (.sysrp (.ofNat 5 (bitsAt w 20 5)) (.ofNat 12 (bitsAt w 0 12))) else
  none

/-- Major 0x3E of the CC private space (Table 05.6). -/
def decodeCc3E (w : Nat) : Option Instr :=
  if bitsAt w 12 3 = 0 ∧ bitsAt w 20 5 = 0 then some (.syswp (.ofNat 5 (bitsAt w 15 5)) (.ofNat 12 (bitsAt w 0 12))) else
  none

/-- The map of the CC private space, by major opcode. -/
def decodeCc (w : Nat) : Option Instr :=
  match bitsAt w 25 6 with
  | 32 => decodeCc20 w
  | 33 => decodeCc21 w
  | 34 => decodeCc22 w
  | 35 => decodeCc23 w
  | 36 => decodeCc24 w
  | 48 => decodeCc30 w
  | 49 => decodeCc31 w
  | 60 => decodeCc3C w
  | 61 => decodeCc3D w
  | 62 => decodeCc3E w
  | _ => none

/-- Major 0x00 of the A private space (Table 05.7). -/
def decodeA00 (w : Nat) : Option Instr :=
  if bitsAt w 9 6 = 0 then some (.vldU (.ofNat 5 (bitsAt w 20 5)) (.ofNat 5 (bitsAt w 15 5)) (.ofNat 1 (bitsAt w 8 1)) (.ofNat 4 (bitsAt w 4 4)) (.ofNat 1 (bitsAt w 3 1)) (.ofNat 3 (bitsAt w 0 3))) else
  if bitsAt w 0 15 = 16384 ∧ bitsAt w 23 2 = 0 then some (.vldUQueue (.ofNat 3 (bitsAt w 20 3)) (.ofNat 5 (bitsAt w 15 5))) else
  none

/-- Major 0x01 of the A private space (Table 05.7). -/
def decodeA01 (w : Nat) : Option Instr :=
  if bitsAt w 14 1 = 0 then some (.vldS (.ofNat 5 (bitsAt w 20 5)) (.ofNat 5 (bitsAt w 15 5)) (.ofNat 5 (bitsAt w 9 5)) (.ofNat 1 (bitsAt w 8 1)) (.ofNat 4 (bitsAt w 4 4)) (.ofNat 1 (bitsAt w 3 1)) (.ofNat 3 (bitsAt w 0 3))) else
  none

/-- Major 0x02 of the A private space (Table 05.7). -/
def decodeA02 (w : Nat) : Option Instr :=
  if bitsAt w 14 1 = 0 then some (.vldX (.ofNat 5 (bitsAt w 20 5)) (.ofNat 5 (bitsAt w 15 5)) (.ofNat 5 (bitsAt w 9 5)) (.ofNat 1 (bitsAt w 8 1)) (.ofNat 4 (bitsAt w 4 4)) (.ofNat 1 (bitsAt w 3 1)) (.ofNat 3 (bitsAt w 0 3))) else
  none

/-- Major 0x03 of the A private space (Table 05.7). -/
def decodeA03 (w : Nat) : Option Instr :=
  if bitsAt w 14 1 = 0 then some (.vldB (.ofNat 5 (bitsAt w 20 5)) (.ofNat 5 (bitsAt w 15 5)) (.ofNat 5 (bitsAt w 9 5)) (.ofNat 1 (bitsAt w 8 1)) (.ofNat 4 (bitsAt w 4 4)) (.ofNat 1 (bitsAt w 3 1)) (.ofNat 3 (bitsAt w 0 3))) else
  if bitsAt w 0 9 = 0 ∧ bitsAt w 14 1 = 1 ∧ bitsAt w 23 2 = 0 then some (.vldBQueue (.ofNat 3 (bitsAt w 20 3)) (.ofNat 5 (bitsAt w 15 5)) (.ofNat 5 (bitsAt w 9 5))) else
  none

/-- Major 0x04 of the A private space (Table 05.7). -/
def decodeA04 (w : Nat) : Option Instr :=
  if bitsAt w 0 4 = 0 ∧ bitsAt w 9 6 = 0 then some (.vldNp (.ofNat 5 (bitsAt w 20 5)) (.ofNat 5 (bitsAt w 15 5)) (.ofNat 1 (bitsAt w 8 1)) (.ofNat 4 (bitsAt w 4 4))) else
  none

/-- Major 0x05 of the A private space (Table 05.7). -/
def decodeA05 (w : Nat) : Option Instr :=
  if bitsAt w 0 15 = 0 then some (.vstU (.ofNat 5 (bitsAt w 20 5)) (.ofNat 5 (bitsAt w 15 5))) else
  if bitsAt w 0 15 = 16384 ∧ bitsAt w 23 2 = 0 then some (.vstUQueue (.ofNat 3 (bitsAt w 20 3)) (.ofNat 5 (bitsAt w 15 5))) else
  none

/-- Major 0x06 of the A private space (Table 05.7). -/
def decodeA06 (w : Nat) : Option Instr :=
  if bitsAt w 0 9 = 0 ∧ bitsAt w 14 1 = 0 then some (.vstS (.ofNat 5 (bitsAt w 20 5)) (.ofNat 5 (bitsAt w 15 5)) (.ofNat 5 (bitsAt w 9 5))) else
  none

/-- Major 0x07 of the A private space (Table 05.7). -/
def decodeA07 (w : Nat) : Option Instr :=
  if bitsAt w 0 9 = 0 ∧ bitsAt w 14 1 = 0 then some (.vstX (.ofNat 5 (bitsAt w 20 5)) (.ofNat 5 (bitsAt w 15 5)) (.ofNat 5 (bitsAt w 9 5))) else
  none

/-- Major 0x08 of the A private space (Table 05.7). -/
def decodeA08 (w : Nat) : Option Instr :=
  if bitsAt w 0 9 = 0 ∧ bitsAt w 14 1 = 0 then some (.vstB (.ofNat 5 (bitsAt w 20 5)) (.ofNat 5 (bitsAt w 15 5)) (.ofNat 5 (bitsAt w 9 5))) else
  if bitsAt w 0 9 = 0 ∧ bitsAt w 14 1 = 1 ∧ bitsAt w 23 2 = 0 then some (.vstBQueue (.ofNat 3 (bitsAt w 20 3)) (.ofNat 5 (bitsAt w 15 5)) (.ofNat 5 (bitsAt w 9 5))) else
  none

/-- Major 0x09 of the A private space (Table 05.7). -/
def decodeA09 (w : Nat) : Option Instr :=
  if bitsAt w 6 3 = 0 ∧ bitsAt w 14 1 = 0 then some (.amo (.ofNat 5 (bitsAt w 20 5)) (.ofNat 5 (bitsAt w 15 5)) (.ofNat 5 (bitsAt w 9 5)) (.ofNat 4 (bitsAt w 2 4)) (.ofNat 2 (bitsAt w 0 2))) else
  none

/-- Major 0x0A of the A private space (Table 05.7). -/
def decodeA0A (w : Nat) : Option Instr :=
  if bitsAt w 4 1 = 0 ∧ bitsAt w 6 3 = 0 ∧ bitsAt w 14 1 = 0 then some (.amoV (.ofNat 5 (bitsAt w 20 5)) (.ofNat 5 (bitsAt w 15 5)) (.ofNat 5 (bitsAt w 9 5)) (.ofNat 1 (bitsAt w 5 1)) (.ofNat 4 (bitsAt w 0 4))) else
  none

/-- Major 0x0B of the A private space (Table 05.7). -/
def decodeA0B (w : Nat) : Option Instr :=
  if bitsAt w 0 9 = 0 ∧ bitsAt w 14 1 = 0 then some (.mred (.ofNat 5 (bitsAt w 20 5)) (.ofNat 5 (bitsAt w 15 5)) (.ofNat 5 (bitsAt w 9 5))) else
  if bitsAt w 0 9 = 1 ∧ bitsAt w 14 1 = 0 then some (.mcas (.ofNat 5 (bitsAt w 20 5)) (.ofNat 5 (bitsAt w 15 5)) (.ofNat 5 (bitsAt w 9 5))) else
  if bitsAt w 0 9 = 2 ∧ bitsAt w 14 1 = 0 then some (.msax (.ofNat 5 (bitsAt w 20 5)) (.ofNat 5 (bitsAt w 15 5)) (.ofNat 5 (bitsAt w 9 5))) else
  none

/-- Major 0x0C of the A private space (Table 05.7). -/
def decodeA0C (w : Nat) : Option Instr :=
  if bitsAt w 0 9 = 0 ∧ bitsAt w 14 1 = 0 then some (.cp (.ofNat 5 (bitsAt w 20 5)) (.ofNat 5 (bitsAt w 15 5)) (.ofNat 5 (bitsAt w 9 5))) else
  if bitsAt w 0 9 = 1 ∧ bitsAt w 14 1 = 0 then some (.cpConv (.ofNat 5 (bitsAt w 20 5)) (.ofNat 5 (bitsAt w 15 5)) (.ofNat 5 (bitsAt w 9 5))) else
  if bitsAt w 0 9 = 2 ∧ bitsAt w 14 1 = 0 then some (.cpFp (.ofNat 5 (bitsAt w 20 5)) (.ofNat 5 (bitsAt w 15 5)) (.ofNat 5 (bitsAt w 9 5))) else
  if bitsAt w 0 9 = 3 ∧ bitsAt w 14 1 = 0 then some (.cpCmp (.ofNat 5 (bitsAt w 20 5)) (.ofNat 5 (bitsAt w 15 5)) (.ofNat 5 (bitsAt w 9 5))) else
  if bitsAt w 0 15 = 4 ∧ bitsAt w 20 5 = 0 then some (.cpClose (.ofNat 5 (bitsAt w 15 5))) else
  if bitsAt w 0 9 = 5 ∧ bitsAt w 14 11 = 0 then some (.cpWait (.ofNat 5 (bitsAt w 9 5))) else
  if bitsAt w 0 15 = 6 ∧ bitsAt w 24 1 = 0 then some (.wset (.ofNat 4 (bitsAt w 20 4)) (.ofNat 5 (bitsAt w 15 5))) else
  if bitsAt w 0 15 = 7 ∧ bitsAt w 24 1 = 0 then some (.wwait (.ofNat 4 (bitsAt w 20 4)) (.ofNat 5 (bitsAt w 15 5))) else
  none

/-- Major 0x0D of the A private space (Table 05.7). -/
def decodeA0D (w : Nat) : Option Instr :=
  if bitsAt w 0 9 = 0 ∧ bitsAt w 14 1 = 0 ∧ bitsAt w 20 5 = 0 then some (.feWait (.ofNat 5 (bitsAt w 15 5)) (.ofNat 5 (bitsAt w 9 5))) else
  if bitsAt w 0 9 = 1 ∧ bitsAt w 14 1 = 0 then some (.feSet (.ofNat 5 (bitsAt w 20 5)) (.ofNat 5 (bitsAt w 15 5)) (.ofNat 5 (bitsAt w 9 5))) else
  if bitsAt w 0 9 = 2 ∧ bitsAt w 14 1 = 0 then some (.feClr (.ofNat 5 (bitsAt w 20 5)) (.ofNat 5 (bitsAt w 15 5)) (.ofNat 5 (bitsAt w 9 5))) else
  none

/-- Major 0x0E of the A private space (Table 05.7). -/
def decodeA0E (w : Nat) : Option Instr :=
  if bitsAt w 0 15 = 0 then some (.ltagLd (.ofNat 5 (bitsAt w 20 5)) (.ofNat 5 (bitsAt w 15 5))) else
  if bitsAt w 0 9 = 1 ∧ bitsAt w 14 1 = 0 ∧ bitsAt w 20 5 = 0 then some (.ltagSt (.ofNat 5 (bitsAt w 15 5)) (.ofNat 5 (bitsAt w 9 5))) else
  none

/-- Major 0x20 of the A private space (Table 05.7). -/
def decodeA20 (w : Nat) : Option Instr :=
  if bitsAt w 0 15 = 0 then some (.acq (.ofNat 5 (bitsAt w 20 5)) (.ofNat 5 (bitsAt w 15 5))) else
  if bitsAt w 0 15 = 1 then some (.tryacq (.ofNat 5 (bitsAt w 20 5)) (.ofNat 5 (bitsAt w 15 5))) else
  if bitsAt w 0 15 = 2 ∧ bitsAt w 20 5 = 0 then some (.rel (.ofNat 5 (bitsAt w 15 5))) else
  none

/-- The map of the A private space, by major opcode. -/
def decodeA (w : Nat) : Option Instr :=
  match bitsAt w 25 6 with
  | 0 => decodeA00 w
  | 1 => decodeA01 w
  | 2 => decodeA02 w
  | 3 => decodeA03 w
  | 4 => decodeA04 w
  | 5 => decodeA05 w
  | 6 => decodeA06 w
  | 7 => decodeA07 w
  | 8 => decodeA08 w
  | 9 => decodeA09 w
  | 10 => decodeA0A w
  | 11 => decodeA0B w
  | 12 => decodeA0C w
  | 13 => decodeA0D w
  | 14 => decodeA0E w
  | 32 => decodeA20 w
  | _ => none

/-- Major 0x00 of the X private space (Table 05.9). -/
def decodeX00 (w : Nat) : Option Instr :=
  if bitsAt w 0 8 = 0 then some (.vadd (.ofNat 5 (bitsAt w 20 5)) (.ofNat 5 (bitsAt w 15 5)) (.ofNat 1 (bitsAt w 14 1)) (.ofNat 5 (bitsAt w 9 5)) (.ofNat 1 (bitsAt w 8 1))) else
  if bitsAt w 0 8 = 1 then some (.vsub (.ofNat 5 (bitsAt w 20 5)) (.ofNat 5 (bitsAt w 15 5)) (.ofNat 1 (bitsAt w 14 1)) (.ofNat 5 (bitsAt w 9 5)) (.ofNat 1 (bitsAt w 8 1))) else
  if bitsAt w 0 8 = 2 then some (.vmul (.ofNat 5 (bitsAt w 20 5)) (.ofNat 5 (bitsAt w 15 5)) (.ofNat 1 (bitsAt w 14 1)) (.ofNat 5 (bitsAt w 9 5)) (.ofNat 1 (bitsAt w 8 1))) else
  if bitsAt w 0 8 = 3 then some (.vfma (.ofNat 5 (bitsAt w 20 5)) (.ofNat 5 (bitsAt w 15 5)) (.ofNat 1 (bitsAt w 14 1)) (.ofNat 5 (bitsAt w 9 5)) (.ofNat 1 (bitsAt w 8 1))) else
  if bitsAt w 0 8 = 4 then some (.vfms (.ofNat 5 (bitsAt w 20 5)) (.ofNat 5 (bitsAt w 15 5)) (.ofNat 1 (bitsAt w 14 1)) (.ofNat 5 (bitsAt w 9 5)) (.ofNat 1 (bitsAt w 8 1))) else
  if bitsAt w 0 8 = 5 then some (.vfnma (.ofNat 5 (bitsAt w 20 5)) (.ofNat 5 (bitsAt w 15 5)) (.ofNat 1 (bitsAt w 14 1)) (.ofNat 5 (bitsAt w 9 5)) (.ofNat 1 (bitsAt w 8 1))) else
  none

/-- Major 0x01 of the X private space (Table 05.9). -/
def decodeX01 (w : Nat) : Option Instr :=
  if bitsAt w 0 8 = 0 then some (.vdiv (.ofNat 5 (bitsAt w 20 5)) (.ofNat 5 (bitsAt w 15 5)) (.ofNat 1 (bitsAt w 14 1)) (.ofNat 5 (bitsAt w 9 5)) (.ofNat 1 (bitsAt w 8 1))) else
  if bitsAt w 0 14 = 1 then some (.vsqrt (.ofNat 5 (bitsAt w 20 5)) (.ofNat 5 (bitsAt w 15 5)) (.ofNat 1 (bitsAt w 14 1))) else
  if bitsAt w 0 14 = 2 then some (.vrsqrt (.ofNat 5 (bitsAt w 20 5)) (.ofNat 5 (bitsAt w 15 5)) (.ofNat 1 (bitsAt w 14 1))) else
  if bitsAt w 0 14 = 3 then some (.vrcp (.ofNat 5 (bitsAt w 20 5)) (.ofNat 5 (bitsAt w 15 5)) (.ofNat 1 (bitsAt w 14 1))) else
  if bitsAt w 0 14 = 4 then some (.vexp2 (.ofNat 5 (bitsAt w 20 5)) (.ofNat 5 (bitsAt w 15 5)) (.ofNat 1 (bitsAt w 14 1))) else
  if bitsAt w 0 14 = 5 then some (.vlog2 (.ofNat 5 (bitsAt w 20 5)) (.ofNat 5 (bitsAt w 15 5)) (.ofNat 1 (bitsAt w 14 1))) else
  if bitsAt w 0 14 = 6 then some (.vtanh (.ofNat 5 (bitsAt w 20 5)) (.ofNat 5 (bitsAt w 15 5)) (.ofNat 1 (bitsAt w 14 1))) else
  if bitsAt w 0 14 = 7 then some (.vsin (.ofNat 5 (bitsAt w 20 5)) (.ofNat 5 (bitsAt w 15 5)) (.ofNat 1 (bitsAt w 14 1))) else
  if bitsAt w 0 14 = 8 then some (.vcos (.ofNat 5 (bitsAt w 20 5)) (.ofNat 5 (bitsAt w 15 5)) (.ofNat 1 (bitsAt w 14 1))) else
  none

/-- Major 0x02 of the X private space (Table 05.9). -/
def decodeX02 (w : Nat) : Option Instr :=
  if bitsAt w 0 8 = 0 then some (.vmin (.ofNat 5 (bitsAt w 20 5)) (.ofNat 5 (bitsAt w 15 5)) (.ofNat 1 (bitsAt w 14 1)) (.ofNat 5 (bitsAt w 9 5)) (.ofNat 1 (bitsAt w 8 1))) else
  if bitsAt w 0 8 = 1 then some (.vmax (.ofNat 5 (bitsAt w 20 5)) (.ofNat 5 (bitsAt w 15 5)) (.ofNat 1 (bitsAt w 14 1)) (.ofNat 5 (bitsAt w 9 5)) (.ofNat 1 (bitsAt w 8 1))) else
  if bitsAt w 0 14 = 2 then some (.vabs (.ofNat 5 (bitsAt w 20 5)) (.ofNat 5 (bitsAt w 15 5)) (.ofNat 1 (bitsAt w 14 1))) else
  if bitsAt w 0 14 = 3 then some (.vneg (.ofNat 5 (bitsAt w 20 5)) (.ofNat 5 (bitsAt w 15 5)) (.ofNat 1 (bitsAt w 14 1))) else
  if bitsAt w 0 8 = 4 then some (.vsgnj (.ofNat 5 (bitsAt w 20 5)) (.ofNat 5 (bitsAt w 15 5)) (.ofNat 1 (bitsAt w 14 1)) (.ofNat 5 (bitsAt w 9 5)) (.ofNat 1 (bitsAt w 8 1))) else
  none

/-- Major 0x03 of the X private space (Table 05.9). -/
def decodeX03 (w : Nat) : Option Instr :=
  if bitsAt w 0 8 = 0 then some (.vmulh (.ofNat 5 (bitsAt w 20 5)) (.ofNat 5 (bitsAt w 15 5)) (.ofNat 1 (bitsAt w 14 1)) (.ofNat 5 (bitsAt w 9 5)) (.ofNat 1 (bitsAt w 8 1))) else
  if bitsAt w 0 8 = 1 then some (.vsll (.ofNat 5 (bitsAt w 20 5)) (.ofNat 5 (bitsAt w 15 5)) (.ofNat 1 (bitsAt w 14 1)) (.ofNat 5 (bitsAt w 9 5)) (.ofNat 1 (bitsAt w 8 1))) else
  if bitsAt w 0 8 = 2 then some (.vsrl (.ofNat 5 (bitsAt w 20 5)) (.ofNat 5 (bitsAt w 15 5)) (.ofNat 1 (bitsAt w 14 1)) (.ofNat 5 (bitsAt w 9 5)) (.ofNat 1 (bitsAt w 8 1))) else
  if bitsAt w 0 8 = 3 then some (.vsra (.ofNat 5 (bitsAt w 20 5)) (.ofNat 5 (bitsAt w 15 5)) (.ofNat 1 (bitsAt w 14 1)) (.ofNat 5 (bitsAt w 9 5)) (.ofNat 1 (bitsAt w 8 1))) else
  if bitsAt w 0 8 = 4 then some (.vand (.ofNat 5 (bitsAt w 20 5)) (.ofNat 5 (bitsAt w 15 5)) (.ofNat 1 (bitsAt w 14 1)) (.ofNat 5 (bitsAt w 9 5)) (.ofNat 1 (bitsAt w 8 1))) else
  if bitsAt w 0 8 = 5 then some (.vor (.ofNat 5 (bitsAt w 20 5)) (.ofNat 5 (bitsAt w 15 5)) (.ofNat 1 (bitsAt w 14 1)) (.ofNat 5 (bitsAt w 9 5)) (.ofNat 1 (bitsAt w 8 1))) else
  if bitsAt w 0 8 = 6 then some (.vxor (.ofNat 5 (bitsAt w 20 5)) (.ofNat 5 (bitsAt w 15 5)) (.ofNat 1 (bitsAt w 14 1)) (.ofNat 5 (bitsAt w 9 5)) (.ofNat 1 (bitsAt w 8 1))) else
  if bitsAt w 0 8 = 8 then some (.vfsh (.ofNat 5 (bitsAt w 20 5)) (.ofNat 5 (bitsAt w 15 5)) (.ofNat 1 (bitsAt w 14 1)) (.ofNat 5 (bitsAt w 9 5)) (.ofNat 1 (bitsAt w 8 1))) else
  if bitsAt w 0 14 = 9 then some (.vpopc (.ofNat 5 (bitsAt w 20 5)) (.ofNat 5 (bitsAt w 15 5)) (.ofNat 1 (bitsAt w 14 1))) else
  if bitsAt w 0 14 = 10 then some (.vclz (.ofNat 5 (bitsAt w 20 5)) (.ofNat 5 (bitsAt w 15 5)) (.ofNat 1 (bitsAt w 14 1))) else
  if bitsAt w 0 8 = 11 then some (.vsadd (.ofNat 5 (bitsAt w 20 5)) (.ofNat 5 (bitsAt w 15 5)) (.ofNat 1 (bitsAt w 14 1)) (.ofNat 5 (bitsAt w 9 5)) (.ofNat 1 (bitsAt w 8 1))) else
  none

/-- Major 0x04 of the X private space (Table 05.9). -/
def decodeX04 (w : Nat) : Option Instr :=
  if bitsAt w 3 5 = 0 ∧ bitsAt w 23 2 = 0 then some (.vcmp (.ofNat 3 (bitsAt w 20 3)) (.ofNat 5 (bitsAt w 15 5)) (.ofNat 1 (bitsAt w 14 1)) (.ofNat 5 (bitsAt w 9 5)) (.ofNat 1 (bitsAt w 8 1)) (.ofNat 3 (bitsAt w 0 3))) else
  if bitsAt w 0 8 = 16 ∧ bitsAt w 23 2 = 0 then some (.vbound (.ofNat 3 (bitsAt w 20 3)) (.ofNat 5 (bitsAt w 15 5)) (.ofNat 1 (bitsAt w 14 1)) (.ofNat 5 (bitsAt w 9 5)) (.ofNat 1 (bitsAt w 8 1))) else
  none

/-- Major 0x05 of the X private space (Table 05.9). -/
def decodeX05 (w : Nat) : Option Instr :=
  if bitsAt w 0 9 = 0 ∧ bitsAt w 12 3 = 0 ∧ bitsAt w 18 2 = 0 ∧ bitsAt w 23 2 = 0 then some (.mand (.ofNat 3 (bitsAt w 20 3)) (.ofNat 3 (bitsAt w 15 3)) (.ofNat 3 (bitsAt w 9 3))) else
  if bitsAt w 0 9 = 1 ∧ bitsAt w 12 3 = 0 ∧ bitsAt w 18 2 = 0 ∧ bitsAt w 23 2 = 0 then some (.mor (.ofNat 3 (bitsAt w 20 3)) (.ofNat 3 (bitsAt w 15 3)) (.ofNat 3 (bitsAt w 9 3))) else
  if bitsAt w 0 9 = 2 ∧ bitsAt w 12 3 = 0 ∧ bitsAt w 18 2 = 0 ∧ bitsAt w 23 2 = 0 then some (.mxor (.ofNat 3 (bitsAt w 20 3)) (.ofNat 3 (bitsAt w 15 3)) (.ofNat 3 (bitsAt w 9 3))) else
  if bitsAt w 0 9 = 3 ∧ bitsAt w 12 3 = 0 ∧ bitsAt w 18 2 = 0 ∧ bitsAt w 23 2 = 0 then some (.mandn (.ofNat 3 (bitsAt w 20 3)) (.ofNat 3 (bitsAt w 15 3)) (.ofNat 3 (bitsAt w 9 3))) else
  if bitsAt w 0 15 = 4 ∧ bitsAt w 18 2 = 0 then some (.mpopc (.ofNat 5 (bitsAt w 20 5)) (.ofNat 3 (bitsAt w 15 3))) else
  if bitsAt w 0 15 = 5 ∧ bitsAt w 18 2 = 0 then some (.mfirst (.ofNat 5 (bitsAt w 20 5)) (.ofNat 3 (bitsAt w 15 3))) else
  if bitsAt w 0 15 = 6 ∧ bitsAt w 23 2 = 0 then some (.mset (.ofNat 3 (bitsAt w 20 3)) (.ofNat 5 (bitsAt w 15 5))) else
  none

/-- Major 0x06 of the X private space (Table 05.9). -/
def decodeX06 (w : Nat) : Option Instr :=
  if bitsAt w 0 9 = 0 ∧ bitsAt w 13 1 = 0 then some (.vcvt (.ofNat 5 (bitsAt w 20 5)) (.ofNat 5 (bitsAt w 15 5)) (.ofNat 1 (bitsAt w 14 1)) (.ofNat 4 (bitsAt w 9 4))) else
  if bitsAt w 0 9 = 1 ∧ bitsAt w 13 1 = 0 then some (.vquant (.ofNat 5 (bitsAt w 20 5)) (.ofNat 5 (bitsAt w 15 5)) (.ofNat 1 (bitsAt w 14 1)) (.ofNat 4 (bitsAt w 9 4))) else
  if bitsAt w 0 14 = 2 then some (.vamax (.ofNat 5 (bitsAt w 20 5)) (.ofNat 5 (bitsAt w 15 5)) (.ofNat 1 (bitsAt w 14 1))) else
  if bitsAt w 0 9 = 3 then some (.vtagr (.ofNat 5 (bitsAt w 20 5)) (.ofNat 5 (bitsAt w 15 5)) (.ofNat 1 (bitsAt w 14 1)) (.ofNat 5 (bitsAt w 9 5))) else
  if bitsAt w 0 9 = 4 ∧ bitsAt w 14 1 = 0 then some (.vtagw (.ofNat 5 (bitsAt w 20 5)) (.ofNat 5 (bitsAt w 15 5)) (.ofNat 5 (bitsAt w 9 5))) else
  if bitsAt w 0 9 = 5 then some (.vscl (.ofNat 5 (bitsAt w 20 5)) (.ofNat 5 (bitsAt w 15 5)) (.ofNat 1 (bitsAt w 14 1)) (.ofNat 5 (bitsAt w 9 5))) else
  none

/-- Major 0x07 of the X private space (Table 05.9). -/
def decodeX07 (w : Nat) : Option Instr :=
  if bitsAt w 0 14 = 0 then some (.vmov (.ofNat 5 (bitsAt w 20 5)) (.ofNat 5 (bitsAt w 15 5)) (.ofNat 1 (bitsAt w 14 1))) else
  if bitsAt w 0 9 = 1 then some (.vbcast (.ofNat 5 (bitsAt w 20 5)) (.ofNat 5 (bitsAt w 15 5)) (.ofNat 1 (bitsAt w 14 1)) (.ofNat 5 (bitsAt w 9 5))) else
  if bitsAt w 0 9 = 2 then some (.vslideup (.ofNat 5 (bitsAt w 20 5)) (.ofNat 5 (bitsAt w 15 5)) (.ofNat 1 (bitsAt w 14 1)) (.ofNat 5 (bitsAt w 9 5))) else
  if bitsAt w 0 9 = 3 then some (.vslidedn (.ofNat 5 (bitsAt w 20 5)) (.ofNat 5 (bitsAt w 15 5)) (.ofNat 1 (bitsAt w 14 1)) (.ofNat 5 (bitsAt w 9 5))) else
  if bitsAt w 0 9 = 4 then some (.vperm (.ofNat 5 (bitsAt w 20 5)) (.ofNat 5 (bitsAt w 15 5)) (.ofNat 1 (bitsAt w 14 1)) (.ofNat 5 (bitsAt w 9 5))) else
  if bitsAt w 0 14 = 5 then some (.vcompress (.ofNat 5 (bitsAt w 20 5)) (.ofNat 5 (bitsAt w 15 5)) (.ofNat 1 (bitsAt w 14 1))) else
  if bitsAt w 0 14 = 6 then some (.vexpand (.ofNat 5 (bitsAt w 20 5)) (.ofNat 5 (bitsAt w 15 5)) (.ofNat 1 (bitsAt w 14 1))) else
  if bitsAt w 0 9 = 7 then some (.vzip (.ofNat 5 (bitsAt w 20 5)) (.ofNat 5 (bitsAt w 15 5)) (.ofNat 1 (bitsAt w 14 1)) (.ofNat 5 (bitsAt w 9 5))) else
  if bitsAt w 0 14 = 8 then some (.vunzip (.ofNat 5 (bitsAt w 20 5)) (.ofNat 5 (bitsAt w 15 5)) (.ofNat 1 (bitsAt w 14 1))) else
  if bitsAt w 0 9 = 9 then some (.vtrn (.ofNat 5 (bitsAt w 20 5)) (.ofNat 5 (bitsAt w 15 5)) (.ofNat 1 (bitsAt w 14 1)) (.ofNat 5 (bitsAt w 9 5))) else
  if bitsAt w 0 14 = 10 then some (.vrev (.ofNat 5 (bitsAt w 20 5)) (.ofNat 5 (bitsAt w 15 5)) (.ofNat 1 (bitsAt w 14 1))) else
  if bitsAt w 0 9 = 11 then some (.vext (.ofNat 5 (bitsAt w 20 5)) (.ofNat 5 (bitsAt w 15 5)) (.ofNat 1 (bitsAt w 14 1)) (.ofNat 5 (bitsAt w 9 5))) else
  if bitsAt w 0 9 = 12 ∧ bitsAt w 14 1 = 0 then some (.vins (.ofNat 5 (bitsAt w 20 5)) (.ofNat 5 (bitsAt w 15 5)) (.ofNat 5 (bitsAt w 9 5))) else
  none

/-- Major 0x08 of the X private space (Table 05.9). -/
def decodeX08 (w : Nat) : Option Instr :=
  if bitsAt w 4 10 = 0 then some (.vred (.ofNat 5 (bitsAt w 20 5)) (.ofNat 5 (bitsAt w 15 5)) (.ofNat 1 (bitsAt w 14 1)) (.ofNat 4 (bitsAt w 0 4))) else
  if bitsAt w 4 10 = 1 then some (.vscan (.ofNat 5 (bitsAt w 20 5)) (.ofNat 5 (bitsAt w 15 5)) (.ofNat 1 (bitsAt w 14 1)) (.ofNat 4 (bitsAt w 0 4))) else
  none

/-- Major 0x09 of the X private space (Table 05.9). -/
def decodeX09 (w : Nat) : Option Instr :=
  if bitsAt w 0 7 = 0 then some (.dfrPush (.ofNat 8 (bitsAt w 17 8)) (.ofNat 5 (bitsAt w 12 5)) (.ofNat 2 (bitsAt w 10 2)) (.ofNat 3 (bitsAt w 7 3))) else
  if bitsAt w 0 7 = 1 then some (.dfrPop (.ofNat 8 (bitsAt w 17 8)) (.ofNat 5 (bitsAt w 12 5)) (.ofNat 2 (bitsAt w 10 2)) (.ofNat 3 (bitsAt w 7 3))) else
  if bitsAt w 0 2 = 2 ∧ bitsAt w 7 10 = 0 then some (.dfrCnt (.ofNat 8 (bitsAt w 17 8)) (.ofNat 5 (bitsAt w 2 5))) else
  none

/-- Major 0x0A of the X private space (Table 05.9). -/
def decodeX0A (w : Nat) : Option Instr :=
  if bitsAt w 0 15 = 0 ∧ bitsAt w 18 2 = 0 then some (.qpop (.ofNat 5 (bitsAt w 20 5)) (.ofNat 3 (bitsAt w 15 3))) else
  if bitsAt w 0 15 = 1 ∧ bitsAt w 18 2 = 0 then some (.qpush (.ofNat 5 (bitsAt w 20 5)) (.ofNat 3 (bitsAt w 15 3))) else
  none

/-- Major 0x0B of the X private space (Table 05.9). -/
def decodeX0B (w : Nat) : Option Instr :=
  if bitsAt w 0 15 = 0 then some (.matAtt (.ofNat 5 (bitsAt w 20 5)) (.ofNat 5 (bitsAt w 15 5))) else
  if bitsAt w 0 25 = 1 then some (.matDet) else
  if bitsAt w 0 20 = 4 ∧ bitsAt w 22 3 = 0 then some (.tzero (.ofNat 2 (bitsAt w 20 2))) else
  if bitsAt w 0 15 = 5 ∧ bitsAt w 22 3 = 0 then some (.tpeek (.ofNat 2 (bitsAt w 20 2)) (.ofNat 5 (bitsAt w 15 5))) else
  if bitsAt w 0 20 = 6 ∧ bitsAt w 22 3 = 0 then some (.twait (.ofNat 2 (bitsAt w 20 2))) else
  if bitsAt w 0 20 = 7 then some (.mbud (.ofNat 5 (bitsAt w 20 5))) else
  if bitsAt w 2 6 = 4 ∧ bitsAt w 22 3 = 0 then some (.mop (.ofNat 2 (bitsAt w 20 2)) (.ofNat 5 (bitsAt w 15 5)) (.ofNat 1 (bitsAt w 14 1)) (.ofNat 5 (bitsAt w 9 5)) (.ofNat 1 (bitsAt w 8 1)) (.ofNat 2 (bitsAt w 0 2))) else
  if bitsAt w 6 2 = 1 ∧ bitsAt w 22 3 = 0 then some (.mopn (.ofNat 2 (bitsAt w 20 2)) (.ofNat 5 (bitsAt w 15 5)) (.ofNat 1 (bitsAt w 14 1)) (.ofNat 5 (bitsAt w 9 5)) (.ofNat 1 (bitsAt w 8 1)) (.ofNat 1 (bitsAt w 5 1)) (.ofNat 3 (bitsAt w 2 3)) (.ofNat 2 (bitsAt w 0 2))) else
  none

/-- Major 0x0C of the X private space (Table 05.9). -/
def decodeX0C (w : Nat) : Option Instr :=
  some (.vlut3 (.ofNat 5 (bitsAt w 20 5)) (.ofNat 5 (bitsAt w 15 5)) (.ofNat 1 (bitsAt w 14 1)) (.ofNat 5 (bitsAt w 9 5)) (.ofNat 1 (bitsAt w 8 1)) (.ofNat 8 (bitsAt w 0 8)))

/-- Major 0x3F of the X private space (Table 05.9). -/
def decodeX3F (w : Nat) : Option Instr :=
  if bitsAt w 0 11 = 0 then some (.pfx (.ofNat 5 (bitsAt w 20 5)) (.ofNat 1 (bitsAt w 19 1)) (.ofNat 1 (bitsAt w 18 1)) (.ofNat 3 (bitsAt w 15 3)) (.ofNat 1 (bitsAt w 14 1)) (.ofNat 3 (bitsAt w 11 3))) else
  none

/-- The map of the X private space, by major opcode. -/
def decodeX (w : Nat) : Option Instr :=
  match bitsAt w 25 6 with
  | 0 => decodeX00 w
  | 1 => decodeX01 w
  | 2 => decodeX02 w
  | 3 => decodeX03 w
  | 4 => decodeX04 w
  | 5 => decodeX05 w
  | 6 => decodeX06 w
  | 7 => decodeX07 w
  | 8 => decodeX08 w
  | 9 => decodeX09 w
  | 10 => decodeX0A w
  | 11 => decodeX0B w
  | 12 => decodeX0C w
  | 63 => decodeX3F w
  | _ => none

/-- Why a word is no instruction (R87). -/
inductive DecodeError where
  /-- No row of the space's map has these fixed bits, or a reserved bit is not zero. -/
  | unallocated
  /-- The fixed bits are a row's, but an operand has a value its entry does not list. -/
  | badOperand
  deriving DecidableEq, Repr

/-- The row a word names in a space, its operand values not yet judged (R84). The word 0 names none in any space (R87). -/
def decodeRow (sp : Space) (w : Nat) : Option Instr :=
  if w = 0 then none
  else if bitsAt w 31 1 = 0 then decodeShared w
  else match sp with
    | .cc => decodeCc w
    | .access => decodeA w
    | .execute => decodeX w

/-- The instruction a 32-bit word is in a space, or why it is none: total on every word (R84, R87). -/
def decode (sp : Space) (w : BitVec 32) : Except DecodeError Instr :=
  match decodeRow sp w.toNat with
  | none => .error .unallocated
  | some i => if i.wellFormed then .ok i else .error .badOperand

/-- A word from four little-endian bytes (R4, R84). -/
def wordOfBytes (b0 b1 b2 b3 : BitVec 8) : BitVec 32 :=
  .ofNat 32 (b0.toNat + b1.toNat * 2 ^ 8 + b2.toNat * 2 ^ 16 + b3.toNat * 2 ^ 24)

/-- Byte `k` of a word in memory (R4). -/
def byteOfWord (w : BitVec 32) (k : Nat) : BitVec 8 := .ofNat 8 (bitsAt w.toNat (8 * k) 8)

/-- Decoding from bytes: the instruction and the bytes after it. -/
def decodeBytes (sp : Space) : List (BitVec 8) → Except DecodeError (Instr × List (BitVec 8))
  | b0 :: b1 :: b2 :: b3 :: rest =>
    match decode sp (wordOfBytes b0 b1 b2 b3) with
    | .ok i => .ok (i, rest)
    | .error e => .error e
  | _ => .error .unallocated

/-- The space whose map a constructor belongs to; the shared subset and the agents' steps answer the CC's, which
decodes every shared word too (R84). -/
def Instr.space : Instr → Space
  | .add _ _ _ => .cc
  | .sub _ _ _ => .cc
  | .mul _ _ _ => .cc
  | .mulh _ _ _ => .cc
  | .mulhu _ _ _ => .cc
  | .div _ _ _ => .cc
  | .divu _ _ _ => .cc
  | .rem _ _ _ => .cc
  | .remu _ _ _ => .cc
  | .and _ _ _ => .cc
  | .or _ _ _ => .cc
  | .xor _ _ _ => .cc
  | .sll _ _ _ => .cc
  | .srl _ _ _ => .cc
  | .sra _ _ _ => .cc
  | .slt _ _ _ => .cc
  | .sltu _ _ _ => .cc
  | .min _ _ _ => .cc
  | .max _ _ _ => .cc
  | .minu _ _ _ => .cc
  | .maxu _ _ _ => .cc
  | .clz _ _ => .cc
  | .ctz _ _ => .cc
  | .popc _ _ => .cc
  | .sel _ _ _ => .cc
  | .addi _ _ _ => .cc
  | .andi _ _ _ => .cc
  | .ori _ _ _ => .cc
  | .xori _ _ _ => .cc
  | .slti _ _ _ => .cc
  | .slli _ _ _ => .cc
  | .srli _ _ _ => .cc
  | .srai _ _ _ => .cc
  | .adda _ _ _ => .cc
  | .lih _ _ => .cc
  | .beq _ _ _ => .cc
  | .bne _ _ _ => .cc
  | .blt _ _ _ => .cc
  | .bge _ _ _ => .cc
  | .bltu _ _ _ => .cc
  | .bgeu _ _ _ => .cc
  | .jal _ _ => .cc
  | .jalr _ _ _ => .cc
  | .loop _ _ => .cc
  | .ploop _ _ _ => .cc
  | .ld _ _ _ _ => .cc
  | .st _ _ _ _ => .cc
  | .ipf _ _ => .cc
  | .dpf _ _ => .cc
  | .vshapeImm _ _ _ _ => .cc
  | .vshapeReg _ _ _ _ => .cc
  | .vquery _ _ => .cc
  | .bqPush _ => .cc
  | .bqBr _ => .cc
  | .fence _ _ => .cc
  | .bar => .cc
  | .trap _ => .cc
  | .nop => .cc
  | .yield => .cc
  | .sysr _ _ => .cc
  | .sysw _ _ => .cc
  | .sbr _ _ _ _ _ _ => .cc
  | .acq _ _ => .cc
  | .tryacq _ _ => .cc
  | .rel _ => .cc
  | .cqPush _ _ _ => .cc
  | .knWait _ _ => .cc
  | .knSig _ _ => .cc
  | .renq _ _ _ => .cc
  | .evqPop _ => .cc
  | .evqPeek _ => .cc
  | .bobLd _ => .cc
  | .bobGo _ _ _ => .cc
  | .ovl _ => .cc
  | .lnrSub _ _ => .cc
  | .ftWr _ _ _ => .cc
  | .pkWr _ _ _ => .cc
  | .recode _ _ _ => .cc
  | .swp _ _ _ => .cc
  | .winst _ _ => .cc
  | .wstat _ _ _ => .cc
  | .heatRd _ _ _ => .cc
  | .eret => .cc
  | .tlbi _ _ => .cc
  | .rpl _ _ _ => .cc
  | .wfi => .cc
  | .ctxSave _ _ _ => .cc
  | .ctxLoad _ _ => .cc
  | .migDirty _ _ _ => .cc
  | .sysrp _ _ => .cc
  | .syswp _ _ => .cc
  | .vldU _ _ _ _ _ _ => .access
  | .vldUQueue _ _ => .access
  | .vldS _ _ _ _ _ _ _ => .access
  | .vldX _ _ _ _ _ _ _ => .access
  | .vldB _ _ _ _ _ _ _ => .access
  | .vldBQueue _ _ _ => .access
  | .vldNp _ _ _ _ => .access
  | .vstU _ _ => .access
  | .vstUQueue _ _ => .access
  | .vstS _ _ _ => .access
  | .vstX _ _ _ => .access
  | .vstB _ _ _ => .access
  | .vstBQueue _ _ _ => .access
  | .amo _ _ _ _ _ => .access
  | .amoV _ _ _ _ _ => .access
  | .mred _ _ _ => .access
  | .mcas _ _ _ => .access
  | .msax _ _ _ => .access
  | .cp _ _ _ => .access
  | .cpConv _ _ _ => .access
  | .cpFp _ _ _ => .access
  | .cpCmp _ _ _ => .access
  | .cpClose _ => .access
  | .cpWait _ => .access
  | .wset _ _ => .access
  | .wwait _ _ => .access
  | .feWait _ _ => .access
  | .feSet _ _ _ => .access
  | .feClr _ _ _ => .access
  | .ltagLd _ _ => .access
  | .ltagSt _ _ => .access
  | .vadd _ _ _ _ _ => .execute
  | .vsub _ _ _ _ _ => .execute
  | .vmul _ _ _ _ _ => .execute
  | .vfma _ _ _ _ _ => .execute
  | .vfms _ _ _ _ _ => .execute
  | .vfnma _ _ _ _ _ => .execute
  | .vdiv _ _ _ _ _ => .execute
  | .vsqrt _ _ _ => .execute
  | .vrsqrt _ _ _ => .execute
  | .vrcp _ _ _ => .execute
  | .vexp2 _ _ _ => .execute
  | .vlog2 _ _ _ => .execute
  | .vtanh _ _ _ => .execute
  | .vsin _ _ _ => .execute
  | .vcos _ _ _ => .execute
  | .vmin _ _ _ _ _ => .execute
  | .vmax _ _ _ _ _ => .execute
  | .vabs _ _ _ => .execute
  | .vneg _ _ _ => .execute
  | .vsgnj _ _ _ _ _ => .execute
  | .vmulh _ _ _ _ _ => .execute
  | .vsll _ _ _ _ _ => .execute
  | .vsrl _ _ _ _ _ => .execute
  | .vsra _ _ _ _ _ => .execute
  | .vand _ _ _ _ _ => .execute
  | .vor _ _ _ _ _ => .execute
  | .vxor _ _ _ _ _ => .execute
  | .vfsh _ _ _ _ _ => .execute
  | .vpopc _ _ _ => .execute
  | .vclz _ _ _ => .execute
  | .vsadd _ _ _ _ _ => .execute
  | .vcmp _ _ _ _ _ _ => .execute
  | .vbound _ _ _ _ _ => .execute
  | .mand _ _ _ => .execute
  | .mor _ _ _ => .execute
  | .mxor _ _ _ => .execute
  | .mandn _ _ _ => .execute
  | .mpopc _ _ => .execute
  | .mfirst _ _ => .execute
  | .mset _ _ => .execute
  | .vcvt _ _ _ _ => .execute
  | .vquant _ _ _ _ => .execute
  | .vamax _ _ _ => .execute
  | .vtagr _ _ _ _ => .execute
  | .vtagw _ _ _ => .execute
  | .vscl _ _ _ _ => .execute
  | .vmov _ _ _ => .execute
  | .vbcast _ _ _ _ => .execute
  | .vslideup _ _ _ _ => .execute
  | .vslidedn _ _ _ _ => .execute
  | .vperm _ _ _ _ => .execute
  | .vcompress _ _ _ => .execute
  | .vexpand _ _ _ => .execute
  | .vzip _ _ _ _ => .execute
  | .vunzip _ _ _ => .execute
  | .vtrn _ _ _ _ => .execute
  | .vrev _ _ _ => .execute
  | .vext _ _ _ _ => .execute
  | .vins _ _ _ => .execute
  | .vred _ _ _ _ => .execute
  | .vscan _ _ _ _ => .execute
  | .dfrPush _ _ _ _ => .execute
  | .dfrPop _ _ _ _ => .execute
  | .dfrCnt _ _ => .execute
  | .qpop _ _ => .execute
  | .qpush _ _ => .execute
  | .matAtt _ _ => .execute
  | .matDet => .execute
  | .tzero _ => .execute
  | .tpeek _ _ => .execute
  | .twait _ => .execute
  | .mbud _ => .execute
  | .mop _ _ _ _ _ _ => .execute
  | .mopn _ _ _ _ _ _ _ _ => .execute
  | .vlut3 _ _ _ _ _ _ => .execute
  | .pfx _ _ _ _ _ _ => .execute
  | .pendingLoadWrite => .cc
  | .trapDiversion => .cc
  | .gangStart => .cc
  | .gangEnd => .cc
  | .matrixRetire _ _ => .cc
  | .budgetRefill _ _ => .cc
  | .bastingEntryWrite => .cc
  | .landing _ _ => .cc
  | .batchComplete _ => .cc
  | .eventPost => .cc
  | .commandBlockStart _ => .cc
  | .bobbinEmission => .cc
  | .faultRecordWrite _ => .cc
  | .residentEntry => .cc
  | .thermal _ => .cc
  | .debugStop _ _ _ => .cc
  | .walkerAssign _ => .cc
  | .launchComplete _ _ => .cc
  | .requeueRestore => .cc
  | .srRpend _ => .cc
  | .srPtroot _ => .cc
  | .srRing _ => .cc
  | .srEbw _ => .cc
  | .srStage _ => .cc
  | .srWalw _ => .cc
  | .srSptop _ _ => .cc
  | .srPctlHold _ => .cc
  | .srPwrRetention => .cc
  | .srPwrOff => .cc
  | .srSeed _ => .cc
  | .registerWrite _ _ => .cc
  | .powerWake => .cc
  | .clockGate => .cc
  | .bringUp => .cc
  | .machineCheck _ => .cc
  | .linkFailure _ => .cc
  | .uncorrectableError _ _ => .cc
  | .scrub _ _ => .cc
  | .heatSample _ => .cc
  | .heatDecay _ => .cc
  | .allowanceTick _ => .cc
  | .installBlockVerify _ _ => .cc
  | .installCommit _ => .cc
  | .flashPowerLoss _ => .cc
  | .recodeLineStep _ => .cc
  | .turnoverSwap _ => .cc
  | .stagingFill _ _ => .cc
  | .claspRequest _ _ _ => .cc
  | .recallClasp _ => .cc
  | .signature _ => .cc
  | .grant _ => .cc
  | .refusal _ => .cc
  | .read _ _ => .cc
  | .write _ _ => .cc
  | .persistent _ _ => .cc
  | .data _ _ _ => .cc
  | .writeBack _ => .cc
  | .acknowledge _ => .cc
  | .lacingFlit _ _ => .cc
  | .bisnp _ => .cc
  | .hostWrite _ _ _ => .cc
  | .farCopyEviction _ _ => .cc
  | .partitionEnable _ => .cc
  | .unallocatedEncoding _ => .cc
  | .hostRead _ => .cc
  | .hostSnoop _ _ => .cc
  | .outsidePoolWrite _ _ _ => .cc
  | .modulePowerLoss => .cc
  | .configurationRecordChange _ => .cc
  | .partitionDisable _ => .cc
  | .operatingPointChange _ => .cc
  | .correctedError _ => .cc
/-- A word with fields at bits 20, 15, 14, 9, 8, 5, 2, 0 over its fixed bits (as mopn). -/
def pack_20_15_14_9_8_5_2_0 (m f0 f1 f2 f3 f4 f5 f6 f7 : Nat) : Nat := m + f0 * 2 ^ 20 + f1 * 2 ^ 15 + f2 * 2 ^ 14 + f3 * 2 ^ 9 + f4 * 2 ^ 8 + f5 * 2 ^ 5 + f6 * 2 ^ 2 + f7
/-- A word with fields at bits 20, 15, 9, 8, 4, 3, 0 over its fixed bits (as vld.s). -/
def pack_20_15_9_8_4_3_0 (m f0 f1 f2 f3 f4 f5 f6 : Nat) : Nat := m + f0 * 2 ^ 20 + f1 * 2 ^ 15 + f2 * 2 ^ 9 + f3 * 2 ^ 8 + f4 * 2 ^ 4 + f5 * 2 ^ 3 + f6
/-- A word with fields at bits 20, 15, 8, 4, 3, 0 over its fixed bits (as vld.u). -/
def pack_20_15_8_4_3_0 (m f0 f1 f2 f3 f4 f5 : Nat) : Nat := m + f0 * 2 ^ 20 + f1 * 2 ^ 15 + f2 * 2 ^ 8 + f3 * 2 ^ 4 + f4 * 2 ^ 3 + f5
/-- A word with fields at bits 20, 15, 14, 9, 8, 0 over its fixed bits (as vcmp). -/
def pack_20_15_14_9_8_0 (m f0 f1 f2 f3 f4 f5 : Nat) : Nat := m + f0 * 2 ^ 20 + f1 * 2 ^ 15 + f2 * 2 ^ 14 + f3 * 2 ^ 9 + f4 * 2 ^ 8 + f5
/-- A word with fields at bits 20, 19, 18, 15, 14, 11 over its fixed bits (as pfx). -/
def pack_20_19_18_15_14_11 (m f0 f1 f2 f3 f4 f5 : Nat) : Nat := m + f0 * 2 ^ 20 + f1 * 2 ^ 19 + f2 * 2 ^ 18 + f3 * 2 ^ 15 + f4 * 2 ^ 14 + f5 * 2 ^ 11
/-- A word with fields at bits 25, 20, 15, 13, 5, 0 over its fixed bits (as sbr). -/
def pack_25_20_15_13_5_0 (m f0 f1 f2 f3 f4 f5 : Nat) : Nat := m + f0 * 2 ^ 25 + f1 * 2 ^ 20 + f2 * 2 ^ 15 + f3 * 2 ^ 13 + f4 * 2 ^ 5 + f5
/-- A word with fields at bits 20, 15, 9, 2, 0 over its fixed bits (as amo). -/
def pack_20_15_9_2_0 (m f0 f1 f2 f3 f4 : Nat) : Nat := m + f0 * 2 ^ 20 + f1 * 2 ^ 15 + f2 * 2 ^ 9 + f3 * 2 ^ 2 + f4
/-- A word with fields at bits 20, 15, 9, 5, 0 over its fixed bits (as amo.v). -/
def pack_20_15_9_5_0 (m f0 f1 f2 f3 f4 : Nat) : Nat := m + f0 * 2 ^ 20 + f1 * 2 ^ 15 + f2 * 2 ^ 9 + f3 * 2 ^ 5 + f4
/-- A word with fields at bits 20, 15, 14, 9, 8 over its fixed bits (as vadd). -/
def pack_20_15_14_9_8 (m f0 f1 f2 f3 f4 : Nat) : Nat := m + f0 * 2 ^ 20 + f1 * 2 ^ 15 + f2 * 2 ^ 14 + f3 * 2 ^ 9 + f4 * 2 ^ 8
/-- A word with fields at bits 17, 12, 10, 7 over its fixed bits (as dfr.push). -/
def pack_17_12_10_7 (m f0 f1 f2 f3 : Nat) : Nat := m + f0 * 2 ^ 17 + f1 * 2 ^ 12 + f2 * 2 ^ 10 + f3 * 2 ^ 7
/-- A word with fields at bits 20, 15, 8, 4 over its fixed bits (as vld.np). -/
def pack_20_15_8_4 (m f0 f1 f2 f3 : Nat) : Nat := m + f0 * 2 ^ 20 + f1 * 2 ^ 15 + f2 * 2 ^ 8 + f3 * 2 ^ 4
/-- A word with fields at bits 20, 15, 9, 4 over its fixed bits (as vshape). -/
def pack_20_15_9_4 (m f0 f1 f2 f3 : Nat) : Nat := m + f0 * 2 ^ 20 + f1 * 2 ^ 15 + f2 * 2 ^ 9 + f3 * 2 ^ 4
/-- A word with fields at bits 20, 15, 12, 0 over its fixed bits (as ld). -/
def pack_20_15_12_0 (m f0 f1 f2 f3 : Nat) : Nat := m + f0 * 2 ^ 20 + f1 * 2 ^ 15 + f2 * 2 ^ 12 + f3
/-- A word with fields at bits 20, 15, 14, 0 over its fixed bits (as vred). -/
def pack_20_15_14_0 (m f0 f1 f2 f3 : Nat) : Nat := m + f0 * 2 ^ 20 + f1 * 2 ^ 15 + f2 * 2 ^ 14 + f3
/-- A word with fields at bits 20, 15, 14, 9 over its fixed bits (as vcvt). -/
def pack_20_15_14_9 (m f0 f1 f2 f3 : Nat) : Nat := m + f0 * 2 ^ 20 + f1 * 2 ^ 15 + f2 * 2 ^ 14 + f3 * 2 ^ 9
/-- A word with fields at bits 20, 16, 9, 0 over its fixed bits (as vshape). -/
def pack_20_16_9_0 (m f0 f1 f2 f3 : Nat) : Nat := m + f0 * 2 ^ 20 + f1 * 2 ^ 16 + f2 * 2 ^ 9 + f3
/-- A word with fields at bits 20, 15, 0 over its fixed bits (as addi). -/
def pack_20_15_0 (m f0 f1 f2 : Nat) : Nat := m + f0 * 2 ^ 20 + f1 * 2 ^ 15 + f2
/-- A word with fields at bits 20, 15, 8 over its fixed bits (as ft.wr). -/
def pack_20_15_8 (m f0 f1 f2 : Nat) : Nat := m + f0 * 2 ^ 20 + f1 * 2 ^ 15 + f2 * 2 ^ 8
/-- A word with fields at bits 20, 15, 9 over its fixed bits (as add). -/
def pack_20_15_9 (m f0 f1 f2 : Nat) : Nat := m + f0 * 2 ^ 20 + f1 * 2 ^ 15 + f2 * 2 ^ 9
/-- A word with fields at bits 20, 15, 14 over its fixed bits (as vsqrt). -/
def pack_20_15_14 (m f0 f1 f2 : Nat) : Nat := m + f0 * 2 ^ 20 + f1 * 2 ^ 15 + f2 * 2 ^ 14
/-- A word with fields at bits 20, 17, 0 over its fixed bits (as ploop). -/
def pack_20_17_0 (m f0 f1 f2 : Nat) : Nat := m + f0 * 2 ^ 20 + f1 * 2 ^ 17 + f2
/-- A word with fields at bits 15, 0 over its fixed bits (as ipf). -/
def pack_15_0 (m f0 f1 : Nat) : Nat := m + f0 * 2 ^ 15 + f1
/-- A word with fields at bits 15, 9 over its fixed bits (as tlbi). -/
def pack_15_9 (m f0 f1 : Nat) : Nat := m + f0 * 2 ^ 15 + f1 * 2 ^ 9
/-- A word with fields at bits 17, 2 over its fixed bits (as dfr.cnt). -/
def pack_17_2 (m f0 f1 : Nat) : Nat := m + f0 * 2 ^ 17 + f1 * 2 ^ 2
/-- A word with fields at bits 20, 0 over its fixed bits (as lih). -/
def pack_20_0 (m f0 f1 : Nat) : Nat := m + f0 * 2 ^ 20 + f1
/-- A word with fields at bits 20, 15 over its fixed bits (as clz). -/
def pack_20_15 (m f0 f1 : Nat) : Nat := m + f0 * 2 ^ 20 + f1 * 2 ^ 15
/-- A word with fields at bits 22, 19 over its fixed bits (as fence). -/
def pack_22_19 (m f0 f1 : Nat) : Nat := m + f0 * 2 ^ 22 + f1 * 2 ^ 19
/-- A word with fields at bits 0 over its fixed bits (as bq.br). -/
def pack_0 (m f0 : Nat) : Nat := m + f0
/-- A word with fields at bits 9 over its fixed bits (as cp.wait). -/
def pack_9 (m f0 : Nat) : Nat := m + f0 * 2 ^ 9
/-- A word with fields at bits 15 over its fixed bits (as bq.push). -/
def pack_15 (m f0 : Nat) : Nat := m + f0 * 2 ^ 15
/-- A word with fields at bits 20 over its fixed bits (as evq.pop). -/
def pack_20 (m f0 : Nat) : Nat := m + f0 * 2 ^ 20

/-- The word of an instruction, written from the encoding tables: the row's fixed bits and each operand in its place.
The agents' steps have no word; their arm answers 0, which is no instruction in any space (R87). -/
def Instr.encodeNat : Instr → Nat
  | .add d a b => pack_20_15_9 0x00000000 d.toNat a.toNat b.toNat
  | .sub d a b => pack_20_15_9 0x00000001 d.toNat a.toNat b.toNat
  | .mul d a b => pack_20_15_9 0x00000002 d.toNat a.toNat b.toNat
  | .mulh d a b => pack_20_15_9 0x00000003 d.toNat a.toNat b.toNat
  | .mulhu d a b => pack_20_15_9 0x00000004 d.toNat a.toNat b.toNat
  | .div d a b => pack_20_15_9 0x00000005 d.toNat a.toNat b.toNat
  | .divu d a b => pack_20_15_9 0x00000006 d.toNat a.toNat b.toNat
  | .rem d a b => pack_20_15_9 0x00000007 d.toNat a.toNat b.toNat
  | .remu d a b => pack_20_15_9 0x00000008 d.toNat a.toNat b.toNat
  | .and d a b => pack_20_15_9 0x00000009 d.toNat a.toNat b.toNat
  | .or d a b => pack_20_15_9 0x0000000A d.toNat a.toNat b.toNat
  | .xor d a b => pack_20_15_9 0x0000000B d.toNat a.toNat b.toNat
  | .sll d a b => pack_20_15_9 0x0000000C d.toNat a.toNat b.toNat
  | .srl d a b => pack_20_15_9 0x0000000D d.toNat a.toNat b.toNat
  | .sra d a b => pack_20_15_9 0x0000000E d.toNat a.toNat b.toNat
  | .slt d a b => pack_20_15_9 0x0000000F d.toNat a.toNat b.toNat
  | .sltu d a b => pack_20_15_9 0x00000010 d.toNat a.toNat b.toNat
  | .min d a b => pack_20_15_9 0x00000011 d.toNat a.toNat b.toNat
  | .max d a b => pack_20_15_9 0x00000012 d.toNat a.toNat b.toNat
  | .minu d a b => pack_20_15_9 0x00000013 d.toNat a.toNat b.toNat
  | .maxu d a b => pack_20_15_9 0x00000014 d.toNat a.toNat b.toNat
  | .clz d a => pack_20_15 0x00000015 d.toNat a.toNat
  | .ctz d a => pack_20_15 0x00000016 d.toNat a.toNat
  | .popc d a => pack_20_15 0x00000017 d.toNat a.toNat
  | .sel d a b => pack_20_15_9 0x00000018 d.toNat a.toNat b.toNat
  | .addi d a i => pack_20_15_0 0x02000000 d.toNat a.toNat i.toNat
  | .andi d a i => pack_20_15_0 0x04000000 d.toNat a.toNat i.toNat
  | .ori d a i => pack_20_15_0 0x06000000 d.toNat a.toNat i.toNat
  | .xori d a i => pack_20_15_0 0x08000000 d.toNat a.toNat i.toNat
  | .slti d a i => pack_20_15_0 0x0A000000 d.toNat a.toNat i.toNat
  | .slli d a s => pack_20_15_0 0x0C000000 d.toNat a.toNat s.toNat
  | .srli d a s => pack_20_15_0 0x0E000000 d.toNat a.toNat s.toNat
  | .srai d a s => pack_20_15_0 0x10000000 d.toNat a.toNat s.toNat
  | .adda d a i => pack_20_15_0 0x12000000 d.toNat a.toNat i.toNat
  | .lih d i => pack_20_0 0x14000000 d.toNat i.toNat
  | .beq a b o => pack_20_15_0 0x16000000 a.toNat b.toNat o.toNat
  | .bne a b o => pack_20_15_0 0x18000000 a.toNat b.toNat o.toNat
  | .blt a b o => pack_20_15_0 0x1A000000 a.toNat b.toNat o.toNat
  | .bge a b o => pack_20_15_0 0x1C000000 a.toNat b.toNat o.toNat
  | .bltu a b o => pack_20_15_0 0x1E000000 a.toNat b.toNat o.toNat
  | .bgeu a b o => pack_20_15_0 0x20000000 a.toNat b.toNat o.toNat
  | .jal d o => pack_20_0 0x22000000 d.toNat o.toNat
  | .jalr d a i => pack_20_15_0 0x24000000 d.toNat a.toNat i.toNat
  | .loop a l => pack_20_0 0x26000000 a.toNat l.toNat
  | .ploop a s l => pack_20_17_0 0x28000000 a.toNat s.toNat l.toNat
  | .ld d a z o => pack_20_15_12_0 0x2A000000 d.toNat a.toNat z.toNat o.toNat
  | .st d a z o => pack_20_15_12_0 0x2C000000 d.toNat a.toNat z.toNat o.toNat
  | .ipf a i => pack_15_0 0x2E000000 a.toNat i.toNat
  | .dpf a i => pack_15_0 0x30000000 a.toNat i.toNat
  | .vshapeImm d w r l => pack_20_16_9_0 0x32000000 d.toNat w.toNat r.toNat l.toNat
  | .vshapeReg d a b w => pack_20_15_9_4 0x34000000 d.toNat a.toNat b.toNat w.toNat
  | .vquery d i => pack_20_0 0x36000000 d.toNat i.toNat
  | .bqPush a => pack_15 0x38000000 a.toNat
  | .bqBr o => pack_0 0x3A000000 o.toNat
  | .fence s k => pack_22_19 0x3C000000 s.toNat k.toNat
  | .bar => 0x3C000001
  | .trap i => pack_0 0x3E000000 i.toNat
  | .nop => 0x40000000
  | .yield => 0x40000001
  | .sysr d n => pack_20_0 0x42000000 d.toNat n.toNat
  | .sysw a n => pack_15_0 0x44000000 a.toNat n.toNat
  | .sbr o c a n z p => pack_25_20_15_13_5_0 0x70000000 o.toNat c.toNat a.toNat n.toNat z.toNat p.toNat
  | .acq d a => pack_20_15 0xC0000000 d.toNat a.toNat
  | .tryacq d a => pack_20_15 0xC0000001 d.toNat a.toNat
  | .rel a => pack_15 0xC0000002 a.toNat
  | .cqPush d a b => pack_20_15_9 0xC2000000 d.toNat a.toNat b.toNat
  | .knWait k a => pack_20_15 0xC2000001 k.toNat a.toNat
  | .knSig k a => pack_20_15 0xC2000002 k.toNat a.toNat
  | .renq d a b => pack_20_15_9 0xC4000000 d.toNat a.toNat b.toNat
  | .evqPop d => pack_20 0xC4000001 d.toNat
  | .evqPeek d => pack_20 0xC4000002 d.toNat
  | .bobLd a => pack_15 0xC6000000 a.toNat
  | .bobGo d a b => pack_20_15_9 0xC6000001 d.toNat a.toNat b.toNat
  | .ovl a => pack_15 0xC8000000 a.toNat
  | .lnrSub d a => pack_20_15 0xC8000001 d.toNat a.toNat
  | .ftWr d a n => pack_20_15_8 0xE0000000 d.toNat a.toNat n.toNat
  | .pkWr d a b => pack_20_15_9 0xE0000001 d.toNat a.toNat b.toNat
  | .recode d a b => pack_20_15_9 0xE2000000 d.toNat a.toNat b.toNat
  | .swp d a b => pack_20_15_9 0xE2000001 d.toNat a.toNat b.toNat
  | .winst d a => pack_20_15 0xE2000002 d.toNat a.toNat
  | .wstat d a b => pack_20_15_9 0xE2000003 d.toNat a.toNat b.toNat
  | .heatRd d a b => pack_20_15_9 0xE2000004 d.toNat a.toNat b.toNat
  | .eret => 0xF8000000
  | .tlbi a b => pack_15_9 0xF8000001 a.toNat b.toNat
  | .rpl d a b => pack_20_15_9 0xF8000002 d.toNat a.toNat b.toNat
  | .wfi => 0xF8000003
  | .ctxSave d a b => pack_20_15_9 0xF8000004 d.toNat a.toNat b.toNat
  | .ctxLoad d a => pack_20_15 0xF8000005 d.toNat a.toNat
  | .migDirty d a b => pack_20_15_9 0xF8000006 d.toNat a.toNat b.toNat
  | .sysrp d n => pack_20_0 0xFA000000 d.toNat n.toNat
  | .syswp a n => pack_15_0 0xFC000000 a.toNat n.toNat
  | .vldU d a f t r m => pack_20_15_8_4_3_0 0x80000000 d.toNat a.toNat f.toNat t.toNat r.toNat m.toNat
  | .vldUQueue q a => pack_20_15 0x80004000 q.toNat a.toNat
  | .vldS d a b f t r m => pack_20_15_9_8_4_3_0 0x82000000 d.toNat a.toNat b.toNat f.toNat t.toNat r.toNat m.toNat
  | .vldX d a b f t r m => pack_20_15_9_8_4_3_0 0x84000000 d.toNat a.toNat b.toNat f.toNat t.toNat r.toNat m.toNat
  | .vldB d a b f t r m => pack_20_15_9_8_4_3_0 0x86000000 d.toNat a.toNat b.toNat f.toNat t.toNat r.toNat m.toNat
  | .vldBQueue q a b => pack_20_15_9 0x86004000 q.toNat a.toNat b.toNat
  | .vldNp d a m k => pack_20_15_8_4 0x88000000 d.toNat a.toNat m.toNat k.toNat
  | .vstU v a => pack_20_15 0x8A000000 v.toNat a.toNat
  | .vstUQueue q a => pack_20_15 0x8A004000 q.toNat a.toNat
  | .vstS v a b => pack_20_15_9 0x8C000000 v.toNat a.toNat b.toNat
  | .vstX v a b => pack_20_15_9 0x8E000000 v.toNat a.toNat b.toNat
  | .vstB v a b => pack_20_15_9 0x90000000 v.toNat a.toNat b.toNat
  | .vstBQueue q a b => pack_20_15_9 0x90004000 q.toNat a.toNat b.toNat
  | .amo d a b o z => pack_20_15_9_2_0 0x92000000 d.toNat a.toNat b.toNat o.toNat z.toNat
  | .amoV v a b x o => pack_20_15_9_5_0 0x94000000 v.toNat a.toNat b.toNat x.toNat o.toNat
  | .mred o a b => pack_20_15_9 0x96000000 o.toNat a.toNat b.toNat
  | .mcas d a b => pack_20_15_9 0x96000001 d.toNat a.toNat b.toNat
  | .msax d a b => pack_20_15_9 0x96000002 d.toNat a.toNat b.toNat
  | .cp d a b => pack_20_15_9 0x98000000 d.toNat a.toNat b.toNat
  | .cpConv d a b => pack_20_15_9 0x98000001 d.toNat a.toNat b.toNat
  | .cpFp d a b => pack_20_15_9 0x98000002 d.toNat a.toNat b.toNat
  | .cpCmp d a b => pack_20_15_9 0x98000003 d.toNat a.toNat b.toNat
  | .cpClose a => pack_15 0x98000004 a.toNat
  | .cpWait n => pack_9 0x98000005 n.toNat
  | .wset k a => pack_20_15 0x98000006 k.toNat a.toNat
  | .wwait k a => pack_20_15 0x98000007 k.toNat a.toNat
  | .feWait a b => pack_15_9 0x9A000000 a.toNat b.toNat
  | .feSet d a b => pack_20_15_9 0x9A000001 d.toNat a.toNat b.toNat
  | .feClr d a b => pack_20_15_9 0x9A000002 d.toNat a.toNat b.toNat
  | .ltagLd d a => pack_20_15 0x9C000000 d.toNat a.toNat
  | .ltagSt a b => pack_15_9 0x9C000001 a.toNat b.toNat
  | .vadd d a x b y => pack_20_15_14_9_8 0x80000000 d.toNat a.toNat x.toNat b.toNat y.toNat
  | .vsub d a x b y => pack_20_15_14_9_8 0x80000001 d.toNat a.toNat x.toNat b.toNat y.toNat
  | .vmul d a x b y => pack_20_15_14_9_8 0x80000002 d.toNat a.toNat x.toNat b.toNat y.toNat
  | .vfma d a x b y => pack_20_15_14_9_8 0x80000003 d.toNat a.toNat x.toNat b.toNat y.toNat
  | .vfms d a x b y => pack_20_15_14_9_8 0x80000004 d.toNat a.toNat x.toNat b.toNat y.toNat
  | .vfnma d a x b y => pack_20_15_14_9_8 0x80000005 d.toNat a.toNat x.toNat b.toNat y.toNat
  | .vdiv d a x b y => pack_20_15_14_9_8 0x82000000 d.toNat a.toNat x.toNat b.toNat y.toNat
  | .vsqrt d a x => pack_20_15_14 0x82000001 d.toNat a.toNat x.toNat
  | .vrsqrt d a x => pack_20_15_14 0x82000002 d.toNat a.toNat x.toNat
  | .vrcp d a x => pack_20_15_14 0x82000003 d.toNat a.toNat x.toNat
  | .vexp2 d a x => pack_20_15_14 0x82000004 d.toNat a.toNat x.toNat
  | .vlog2 d a x => pack_20_15_14 0x82000005 d.toNat a.toNat x.toNat
  | .vtanh d a x => pack_20_15_14 0x82000006 d.toNat a.toNat x.toNat
  | .vsin d a x => pack_20_15_14 0x82000007 d.toNat a.toNat x.toNat
  | .vcos d a x => pack_20_15_14 0x82000008 d.toNat a.toNat x.toNat
  | .vmin d a x b y => pack_20_15_14_9_8 0x84000000 d.toNat a.toNat x.toNat b.toNat y.toNat
  | .vmax d a x b y => pack_20_15_14_9_8 0x84000001 d.toNat a.toNat x.toNat b.toNat y.toNat
  | .vabs d a x => pack_20_15_14 0x84000002 d.toNat a.toNat x.toNat
  | .vneg d a x => pack_20_15_14 0x84000003 d.toNat a.toNat x.toNat
  | .vsgnj d a x b y => pack_20_15_14_9_8 0x84000004 d.toNat a.toNat x.toNat b.toNat y.toNat
  | .vmulh d a x b y => pack_20_15_14_9_8 0x86000000 d.toNat a.toNat x.toNat b.toNat y.toNat
  | .vsll d a x b y => pack_20_15_14_9_8 0x86000001 d.toNat a.toNat x.toNat b.toNat y.toNat
  | .vsrl d a x b y => pack_20_15_14_9_8 0x86000002 d.toNat a.toNat x.toNat b.toNat y.toNat
  | .vsra d a x b y => pack_20_15_14_9_8 0x86000003 d.toNat a.toNat x.toNat b.toNat y.toNat
  | .vand d a x b y => pack_20_15_14_9_8 0x86000004 d.toNat a.toNat x.toNat b.toNat y.toNat
  | .vor d a x b y => pack_20_15_14_9_8 0x86000005 d.toNat a.toNat x.toNat b.toNat y.toNat
  | .vxor d a x b y => pack_20_15_14_9_8 0x86000006 d.toNat a.toNat x.toNat b.toNat y.toNat
  | .vfsh d a x b y => pack_20_15_14_9_8 0x86000008 d.toNat a.toNat x.toNat b.toNat y.toNat
  | .vpopc d a x => pack_20_15_14 0x86000009 d.toNat a.toNat x.toNat
  | .vclz d a x => pack_20_15_14 0x8600000A d.toNat a.toNat x.toNat
  | .vsadd d a x b y => pack_20_15_14_9_8 0x8600000B d.toNat a.toNat x.toNat b.toNat y.toNat
  | .vcmp m a x b y c => pack_20_15_14_9_8_0 0x88000000 m.toNat a.toNat x.toNat b.toNat y.toNat c.toNat
  | .vbound m a x b y => pack_20_15_14_9_8 0x88000010 m.toNat a.toNat x.toNat b.toNat y.toNat
  | .mand d a b => pack_20_15_9 0x8A000000 d.toNat a.toNat b.toNat
  | .mor d a b => pack_20_15_9 0x8A000001 d.toNat a.toNat b.toNat
  | .mxor d a b => pack_20_15_9 0x8A000002 d.toNat a.toNat b.toNat
  | .mandn d a b => pack_20_15_9 0x8A000003 d.toNat a.toNat b.toNat
  | .mpopc d a => pack_20_15 0x8A000004 d.toNat a.toNat
  | .mfirst d a => pack_20_15 0x8A000005 d.toNat a.toNat
  | .mset d a => pack_20_15 0x8A000006 d.toNat a.toNat
  | .vcvt d a x f => pack_20_15_14_9 0x8C000000 d.toNat a.toNat x.toNat f.toNat
  | .vquant d a x f => pack_20_15_14_9 0x8C000001 d.toNat a.toNat x.toNat f.toNat
  | .vamax d a x => pack_20_15_14 0x8C000002 d.toNat a.toNat x.toNat
  | .vtagr d a x b => pack_20_15_14_9 0x8C000003 d.toNat a.toNat x.toNat b.toNat
  | .vtagw d a b => pack_20_15_9 0x8C000004 d.toNat a.toNat b.toNat
  | .vscl d a x b => pack_20_15_14_9 0x8C000005 d.toNat a.toNat x.toNat b.toNat
  | .vmov d a x => pack_20_15_14 0x8E000000 d.toNat a.toNat x.toNat
  | .vbcast d a x b => pack_20_15_14_9 0x8E000001 d.toNat a.toNat x.toNat b.toNat
  | .vslideup d a x b => pack_20_15_14_9 0x8E000002 d.toNat a.toNat x.toNat b.toNat
  | .vslidedn d a x b => pack_20_15_14_9 0x8E000003 d.toNat a.toNat x.toNat b.toNat
  | .vperm d a x b => pack_20_15_14_9 0x8E000004 d.toNat a.toNat x.toNat b.toNat
  | .vcompress d a x => pack_20_15_14 0x8E000005 d.toNat a.toNat x.toNat
  | .vexpand d a x => pack_20_15_14 0x8E000006 d.toNat a.toNat x.toNat
  | .vzip d a x b => pack_20_15_14_9 0x8E000007 d.toNat a.toNat x.toNat b.toNat
  | .vunzip d a x => pack_20_15_14 0x8E000008 d.toNat a.toNat x.toNat
  | .vtrn d a x b => pack_20_15_14_9 0x8E000009 d.toNat a.toNat x.toNat b.toNat
  | .vrev d a x => pack_20_15_14 0x8E00000A d.toNat a.toNat x.toNat
  | .vext d a x b => pack_20_15_14_9 0x8E00000B d.toNat a.toNat x.toNat b.toNat
  | .vins d a b => pack_20_15_9 0x8E00000C d.toNat a.toNat b.toNat
  | .vred d a x o => pack_20_15_14_0 0x90000000 d.toNat a.toNat x.toNat o.toNat
  | .vscan d a x o => pack_20_15_14_0 0x90000010 d.toNat a.toNat x.toNat o.toNat
  | .dfrPush p v n m => pack_17_12_10_7 0x92000000 p.toNat v.toNat n.toNat m.toNat
  | .dfrPop p v n m => pack_17_12_10_7 0x92000001 p.toNat v.toNat n.toNat m.toNat
  | .dfrCnt p x => pack_17_2 0x92000002 p.toNat x.toNat
  | .qpop d q => pack_20_15 0x94000000 d.toNat q.toNat
  | .qpush v q => pack_20_15 0x94000001 v.toNat q.toNat
  | .matAtt d a => pack_20_15 0x96000000 d.toNat a.toNat
  | .matDet => 0x96000001
  | .tzero t => pack_20 0x96000004 t.toNat
  | .tpeek t a => pack_20_15 0x96000005 t.toNat a.toNat
  | .twait t => pack_20 0x96000006 t.toNat
  | .mbud d => pack_20 0x96000007 d.toNat
  | .mop t a x b y e => pack_20_15_14_9_8_0 0x96000010 t.toNat a.toNat x.toNat b.toNat y.toNat e.toNat
  | .mopn t a x b y m k e => pack_20_15_14_9_8_5_2_0 0x96000040 t.toNat a.toNat x.toNat b.toNat y.toNat m.toNat k.toNat e.toNat
  | .vlut3 d a x b y t => pack_20_15_14_9_8_0 0x98000000 d.toNat a.toNat x.toNat b.toNat y.toNat t.toNat
  | .pfx c v z m r o => pack_20_19_18_15_14_11 0xFE000000 c.toNat v.toNat z.toNat m.toNat r.toNat o.toNat
  | .pendingLoadWrite => 0
  | .trapDiversion => 0
  | .gangStart => 0
  | .gangEnd => 0
  | .matrixRetire _ _ => 0
  | .budgetRefill _ _ => 0
  | .bastingEntryWrite => 0
  | .landing _ _ => 0
  | .batchComplete _ => 0
  | .eventPost => 0
  | .commandBlockStart _ => 0
  | .bobbinEmission => 0
  | .faultRecordWrite _ => 0
  | .residentEntry => 0
  | .thermal _ => 0
  | .debugStop _ _ _ => 0
  | .walkerAssign _ => 0
  | .launchComplete _ _ => 0
  | .requeueRestore => 0
  | .srRpend _ => 0
  | .srPtroot _ => 0
  | .srRing _ => 0
  | .srEbw _ => 0
  | .srStage _ => 0
  | .srWalw _ => 0
  | .srSptop _ _ => 0
  | .srPctlHold _ => 0
  | .srPwrRetention => 0
  | .srPwrOff => 0
  | .srSeed _ => 0
  | .registerWrite _ _ => 0
  | .powerWake => 0
  | .clockGate => 0
  | .bringUp => 0
  | .machineCheck _ => 0
  | .linkFailure _ => 0
  | .uncorrectableError _ _ => 0
  | .scrub _ _ => 0
  | .heatSample _ => 0
  | .heatDecay _ => 0
  | .allowanceTick _ => 0
  | .installBlockVerify _ _ => 0
  | .installCommit _ => 0
  | .flashPowerLoss _ => 0
  | .recodeLineStep _ => 0
  | .turnoverSwap _ => 0
  | .stagingFill _ _ => 0
  | .claspRequest _ _ _ => 0
  | .recallClasp _ => 0
  | .signature _ => 0
  | .grant _ => 0
  | .refusal _ => 0
  | .read _ _ => 0
  | .write _ _ => 0
  | .persistent _ _ => 0
  | .data _ _ _ => 0
  | .writeBack _ => 0
  | .acknowledge _ => 0
  | .lacingFlit _ _ => 0
  | .bisnp _ => 0
  | .hostWrite _ _ _ => 0
  | .farCopyEviction _ _ => 0
  | .partitionEnable _ => 0
  | .unallocatedEncoding _ => 0
  | .hostRead _ => 0
  | .hostSnoop _ _ => 0
  | .outsidePoolWrite _ _ _ => 0
  | .modulePowerLoss => 0
  | .configurationRecordChange _ => 0
  | .partitionDisable _ => 0
  | .operatingPointChange _ => 0
  | .correctedError _ => 0

/-- Whether the constructor is an encoded row of the table rather than an agent's step. -/
def Instr.hasWord (i : Instr) : Bool := i.encodeNat != 0

/-- The words of an instruction: one 32-bit word, or none for an agent's step (R84). -/
def encode (i : Instr) : List (BitVec 32) := if i.hasWord then [.ofNat 32 i.encodeNat] else []

/-- The instruction this decoder reads from a word numbered as the opcode table numbers it. The table does not say which
strand fetches the word; a private word is read in the first space that allocates it, in the order CC, X, A (log 12). -/
def decodeTableWord (nbits w : Nat) : Option Instr :=
  let b := BitVec.ofNat 32 (w % 2 ^ nbits)
  match decode .cc b with
  | .ok i => some i
  | .error _ =>
    match decode .execute b with
    | .ok i => some i
    | .error _ =>
      match decode .access b with
      | .ok i => some i
      | .error _ => none

end Sys2Proof
end

