-- ==== Sys2Proof/Config.lean ====
section
/-! DEFINITION. What an implementation fixes, and the values the spec leaves open. Each `opaque` constant has no body:
nothing in Lean can evaluate it, so a theorem about the model holds for every value it may have (log 6). -/

namespace Sys2Proof.Config

/-! Frozen constants (R81, Table 04.8). -/

/-- Shadow instructions of a scalar `ld` in a hart (R81, R82). -/
def loadDelay : Nat := 3
/-- Line and register-segment size in bytes (R81). -/
def lineBytes : Nat := 128

/-! Figures of the LXM6-S (R1). -/

/-- Dies of the device (R11). -/
def dies : Nat := 6
/-- Cores of one die (R11). -/
def coresPerDie : Nat := 48
/-- Cores of the device (R11). -/
def cores : Nat := 288
/-- Scratchpad bytes of a core (Table 01.4). -/
def spadBytes : Nat := 4 * 1024 * 1024
/-- Segments of a register with one X-hart (Table 04.3). -/
def segments : Nat := 96
/-- Entries of a core's lazy table (R273). -/
def lazyEntries : Nat := 32
/-- Erases after which a flash block is no longer usable (R351). -/
def wearLimit : Nat := 5000

/-! Free values. The first argument is the counter `Dev.free` of the state, or the operands the value depends on. -/

/-- A byte the spec calls unspecified, or whose encoding it does not give: lines whose bits a load may leave so (R226), bodies
of container fields (R329). -/
opaque freeByte : Nat → BitVec 8
/-- A value an instruction returns where the spec states none (R363). -/
opaque freeWord : Nat → BitVec 64
/-- Which of several elements of one strided or indexed store stays in a slot they share: true keeps the later (R215, R253). -/
opaque laterWins : Nat → Bool
/-- The compressed size in bytes of a 4 KiB block, given by its lines and their tags, which an implementation may define (R368). -/
opaque compressedSize : List (BitVec 1024 × BitVec 24) → Nat
/-- The bytes of the stream that holds a compressed block, whose encoding the spec does not give (R367). -/
opaque streamByte : List (BitVec 1024 × BitVec 24) → Nat → BitVec 8
/-- Whether a store into the deferral carve-out affects an entry (R160). -/
opaque entryHit : Nat → Bool
/-- The data of a line where the spec leaves its value undefined (R160, R197, R226, R264, R272, R349). -/
opaque freeLine : Nat → BitVec 1024
/-- The width in bytes of a container field body that the spec does not give, by FID and hart pairs (R329). -/
opaque fieldWidth : Nat → Nat → Nat
/-- Whether an implementation rounds the far end of an enclosure that 448 fraction bits leave open; no operand is known to reach it (R139). -/
opaque hardCase : Nat → Bool

end Sys2Proof.Config
end

