-- ==== Sys2Proof/Machine/Number.lean ====
section
/-! DEFINITION. Number formats (file 02): format-table entries, exact values, decoding of codes, rounding, conversion,
the E8M0 scale, the stochastic generator and exact arithmetic on values. A value is an exact dyadic number, an infinity or
a NaN; nothing rounds but `convertFloat` and `convertInt`. -/

namespace Sys2Proof.Machine

/-! ### Sticky flags (R42, Table 02.10) -/

/-- Positions of `sr.flags`. -/
def fNV : BitVec 8 := 0x01
def fDZ : BitVec 8 := 0x02
def fOF : BitVec 8 := 0x04
def fUF : BitVec 8 := 0x08
def fNX : BitVec 8 := 0x10
def fRS : BitVec 8 := 0x20
def fSF : BitVec 8 := 0x40
def fSO : BitVec 8 := 0x80

/-! ### Formats (R21 to R23, R28 to R33) -/

/-- KIND of an entry (Table 02.1). -/
inductive Kind where
  | float
  | int
  | nested
  | reserved
  deriving DecidableEq, Repr

/-- The fields of a format-table entry (Table 02.1). -/
structure Fmt where
  kind : Kind
  rsv : Bool
  spc : Nat
  wid : Nat
  mw : Nat
  ew : Nat
  bias : Nat
  deriving DecidableEq, Repr

/-- An entry's fields from its 32 bits (R21). -/
def Fmt.ofEntry (e : BitVec 32) : Fmt where
  kind := match (e.extractLsb' 30 2).toNat with
    | 0 => .float
    | 1 => .int
    | 2 => .nested
    | _ => .reserved
  rsv := e.getLsbD 29
  spc := (e.extractLsb' 27 2).toNat
  wid := (e.extractLsb' 21 6).toNat
  mw := (e.extractLsb' 16 5).toNat
  ew := (e.extractLsb' 12 4).toNat
  bias := (e.extractLsb' 0 8).toNat

/-- Reset contents of the format table; entries 12 to 15 hold the value of entry 4 (R22, Table 02.2). -/
def ftReset : List (BitVec 32) :=
  [0x0417807F, 0x0207807F, 0x020A500F, 0x0102500F, 0x09034007, 0x10C23003, 0x10C32001, 0x10812001,
   0x41000000, 0x40800000, 0x81000000, 0x44000000, 0x09034007, 0x09034007, 0x09034007, 0x09034007]

/-- The FP32 entry, which the matrix accumulator, `vamax` and `amo.fadd` use whatever the table holds. -/
def fp32 : Fmt := Fmt.ofEntry 0x0417807F
/-- The INT32 entry. -/
def int32 : Fmt := Fmt.ofEntry 0x44000000

/-- Whether a float format has infinities (Table 02.4). -/
def Fmt.hasInf (F : Fmt) : Bool := F.spc == 0
/-- Whether a float format has a NaN code (R31). -/
def Fmt.hasNaN (F : Fmt) : Bool := (F.spc == 0 && F.mw != 0) || F.spc == 1 || F.spc == 3

/-- The largest finite exponent (R23). -/
def Fmt.emax (F : Fmt) : Int :=
  if F.spc == 0 || ((F.spc == 1 || F.spc == 3) && F.mw == 0) then (2 ^ F.ew : Nat) - 2 - (F.bias : Int)
  else (2 ^ F.ew : Nat) - 1 - (F.bias : Int)

/-- The exponent of the smallest subnormal, which is the weight of a subnormal's last bit (R23, R28). -/
def Fmt.eminSub (F : Fmt) : Int := 1 - (F.bias : Int) - F.mw

/-- legal_entry (R23). -/
def legalEntry (v : BitVec 32) : Bool :=
  let F := Fmt.ofEntry v
  (ftReset.contains v) ||
    (F.kind == .float && (v.extractLsb' 8 4 == 0) && (4 ≤ F.wid && F.wid ≤ 16) && (1 ≤ F.ew && F.ew ≤ 8)
      && F.mw ≤ 10 && 1 + F.ew + F.mw == F.wid && (F.spc != 0 || 2 ≤ F.ew) && F.emax ≤ 127 && -149 ≤ F.eminSub)

/-- Elements of one 128-byte segment at width W, the n(W) of R27. -/
def perSeg (w : Nat) : Nat :=
  let u := if w ≤ 4 then 8 else if w ≤ 8 then 4 else if w ≤ 16 then 2 else 1
  if w = 0 then 0 else 1024 / w / u * u

/-- The code, without sign, of the largest finite magnitude (R29, R30). -/
def Fmt.maxCode (F : Fmt) : Nat :=
  match F.spc with
  | 0 => (2 ^ F.ew - 2) * 2 ^ F.mw + (2 ^ F.mw - 1)
  | 2 => 2 ^ (F.ew + F.mw) - 1
  | _ => if F.mw = 0 then 2 ^ F.ew - 2 else (2 ^ F.ew - 1) * 2 ^ F.mw + (2 ^ F.mw - 2)

/-- The canonical NaN code (R31). -/
def Fmt.nanCode (F : Fmt) : Nat :=
  if F.spc == 0 then (2 ^ F.ew - 1) * 2 ^ F.mw + 2 ^ (F.mw - 1) else 2 ^ (F.ew + F.mw) - 1

/-! ### Exact values -/

/-- An exact value: a NaN, an infinity, or (-1)^neg x m x 2^e; a zero keeps its sign. -/
inductive Val where
  | nan
  | inf (neg : Bool)
  | fin (neg : Bool) (m : Nat) (e : Int)
  deriving DecidableEq, Repr

/-- The positive zero. -/
def Val.zero : Val := .fin false 0 0
/-- An integer as a value; zero is positive. -/
def Val.ofInt (n : Int) : Val := .fin (n < 0) n.natAbs 0

def Val.isNaN : Val → Bool
  | .nan => true
  | _ => false

def Val.isZero : Val → Bool
  | .fin _ 0 _ => true
  | _ => false

/-- The sign of a value; a NaN counts as positive (R140). -/
def Val.neg? : Val → Bool
  | .nan => false
  | .inf s => s
  | .fin s _ _ => s

def Val.negate : Val → Val
  | .nan => .nan
  | .inf s => .inf !s
  | .fin s m e => .fin (!s) m e

def Val.abs : Val → Val
  | .nan => .nan
  | .inf _ => .inf false
  | .fin _ m e => .fin false m e

/-- Multiplication by 2^k, exact. -/
def Val.scale (k : Int) : Val → Val
  | .fin s m e => .fin s m (e + k)
  | v => v

/-- Application of an E8M0 scale code: 2^(c - 127), or the NaN scale at 255 (R36). -/
def applyScale (c : BitVec 8) (v : Val) : Val := if c = 255 then .nan else v.scale ((c.toNat : Int) - 127)

/-- Signed magnitudes of two finite values at their lower exponent. -/
def alignPair (s₁ : Bool) (m₁ : Nat) (e₁ : Int) (s₂ : Bool) (m₂ : Nat) (e₂ : Int) : Int × Int × Int :=
  let e := min e₁ e₂
  let a : Int := (m₁ * 2 ^ (e₁ - e).toNat : Nat)
  let b : Int := (m₂ * 2 ^ (e₂ - e).toNat : Nat)
  (if s₁ then -a else a, if s₂ then -b else b, e)

/-- Exact order of two values that are not NaN: -1, 0 or 1, with -0 equal to +0 (R142). -/
def Val.cmp : Val → Val → Int
  | .inf s, .inf t => if s = t then 0 else if s then -1 else 1
  | .inf s, _ => if s then -1 else 1
  | _, .inf t => if t then 1 else -1
  | .fin s m e, .fin t n f =>
    let (a, b, _) := alignPair s m e t n f
    if a < b then -1 else if a = b then 0 else 1
  | _, _ => 0

/-- Exact sum with its flags. `down` is whether the mode is RDN, which makes an exact zero sum -0 (R134); infinities of
opposite sign give NaN and NV (R138). -/
def Val.add (down : Bool) : Val → Val → Val × BitVec 8
  | .nan, _ => (.nan, 0)
  | _, .nan => (.nan, 0)
  | .inf s, .inf t => if s = t then (.inf s, 0) else (.nan, fNV)
  | .inf s, _ => (.inf s, 0)
  | _, .inf t => (.inf t, 0)
  | .fin s m e, .fin t n f =>
    if m = 0 ∧ n = 0 then (.fin (if s = t then s else down) 0 0, 0)
    else
      let (a, b, g) := alignPair s m e t n f
      let c := a + b
      if c = 0 then (.fin down 0 0, 0) else (.fin (c < 0) c.natAbs g, 0)

/-- Exact product with its flags; a zero times an infinity is NaN with NV (R138). -/
def Val.mul : Val → Val → Val × BitVec 8
  | .nan, _ => (.nan, 0)
  | _, .nan => (.nan, 0)
  | .inf s, .inf t => (.inf (s != t), 0)
  | .inf s, .fin t m _ => if m = 0 then (.nan, fNV) else (.inf (s != t), 0)
  | .fin t m _, .inf s => if m = 0 then (.nan, fNV) else (.inf (s != t), 0)
  | .fin s m e, .fin t n f => (.fin (s != t) (m * n) (e + f), 0)

/-- a x b + c with the product negated and the addend negated as asked, exact (R138). -/
def Val.fma (down negP negC : Bool) (a b c : Val) : Val × BitVec 8 :=
  let (p, f₁) := a.mul b
  let p := if negP then p.negate else p
  let c := if negC then c.negate else c
  let (r, f₂) := p.add down c
  (r, f₁ ||| f₂)

/-- The smaller of two values; a NaN against a number gives the number, and -0 is less than +0 (R140). -/
def Val.min (a b : Val) : Val :=
  if a.isNaN then b else if b.isNaN then a
  else
    let c := a.cmp b
    if c < 0 ∨ (c = 0 ∧ a.neg? = true) then a else b

/-- The larger of two values, with the same NaN rule (R140). -/
def Val.max (a b : Val) : Val :=
  if a.isNaN then b else if b.isNaN then a
  else
    let c := a.cmp b
    if c > 0 ∨ (c = 0 ∧ a.neg? = false) then a else b

/-! ### Decoding of codes (R28 to R33) -/

/-- The value of a code and the flags that decoding it sets. `toInt` is whether the accumulator or compute format is an
integer: a reserved code then reads as 0, and as a NaN otherwise (R32). -/
def Fmt.decode (F : Fmt) (toInt : Bool) (code : Nat) : Val × BitVec 8 :=
  match F.kind with
  | .float =>
    let c := code % 2 ^ (1 + F.ew + F.mw)
    let s := c / 2 ^ (F.ew + F.mw) % 2 == 1
    let ex := c / 2 ^ F.mw % 2 ^ F.ew
    let f := c % 2 ^ F.mw
    let ones := 2 ^ F.ew - 1
    if F.rsv && c == 2 ^ (F.ew + F.mw) then (if toInt then .zero else .nan, fRS)
    else if F.spc == 0 && ex == ones then (if f == 0 then .inf s else .nan, 0)
    else if (F.spc == 1 || F.spc == 3) && ex == ones && f == 2 ^ F.mw - 1 then (.nan, 0)
    else if ex == 0 then (.fin s f F.eminSub, 0)
    else (.fin s (2 ^ F.mw + f) ((ex : Int) - F.bias - F.mw), 0)
  | _ =>
    let c := code % 2 ^ F.wid
    let v : Int := if 2 * c ≥ 2 ^ F.wid then (c : Int) - (2 ^ F.wid : Nat) else c
    (.ofInt v, 0)

/-- The largest finite value of a format, the M of R66 and R146. -/
def Fmt.maxVal (F : Fmt) : Val :=
  match F.kind with
  | .float => (F.decode false F.maxCode).1
  | _ => .ofInt ((2 ^ (F.wid - 1) : Nat) - 1)

/-! ### Rounding (R37 to R41) -/

/-- A rounding mode (Table 02.6); code 7 never reaches here. -/
inductive RMode where
  | rne
  | rtz
  | rdn
  | rup
  | rna
  | sr
  | rneSat
  deriving DecidableEq, Repr

/-- The mode of codes 0 to 6; code 7 names `sr.round`, which the caller has put in its place (R37). -/
def RMode.ofCode (c : BitVec 3) : RMode :=
  match c.toNat with
  | 1 => .rtz
  | 2 => .rdn
  | 3 => .rup
  | 4 => .rna
  | 5 => .sr
  | 6 => .rneSat
  | _ => .rne

/-- Whether a magnitude whose discarded part is r / 2^k rounds up. `even` is whether the lower neighbour has the even
code, `d` the draw (R37, R41). -/
def roundsUp (rm : RMode) (neg even : Bool) (r k : Nat) (d : BitVec 32) : Bool :=
  match rm with
  | .rne => 2 * r > 2 ^ k || (2 * r == 2 ^ k && !even)
  | .rneSat => 2 * r > 2 ^ k || (2 * r == 2 ^ k && !even)
  | .rtz => false
  | .rdn => neg && r != 0
  | .rup => !neg && r != 0
  | .rna => 2 * r ≥ 2 ^ k && r != 0
  | .sr => d.toNat < r * 2 ^ 32 / 2 ^ k

/-- The overflow result of a float format (R38, Table 02.8). -/
def Fmt.overflowCode (F : Fmt) (rm : RMode) (neg : Bool) : Nat :=
  let sgn := if neg then 2 ^ (F.ew + F.mw) else 0
  let maxC := sgn + F.maxCode
  let big := if F.spc == 0 then sgn + (2 ^ F.ew - 1) * 2 ^ F.mw else F.nanCode
  if F.spc == 2 || F.spc == 3 then maxC
  else match rm with
    | .rne => big
    | .rna => big
    | .sr => big
    | .rtz => maxC
    | .rdn => if neg then big else maxC
    | .rup => if neg then maxC else big
    | .rneSat => maxC

/-- A zero of the given sign, which is +0 in a format with RSV (R32, R39). -/
def Fmt.zeroCode (F : Fmt) (neg : Bool) : Nat := if neg && !F.rsv then 2 ^ (F.ew + F.mw) else 0

/-- A finite non-zero magnitude m x 2^e rounded to significand q and last-place weight t, with the discarded part's being
non-zero; the exponent range is unbounded above (R38). -/
def Fmt.roundMag (F : Fmt) (rm : RMode) (neg : Bool) (m : Nat) (e : Int) (d : BitVec 32) : Nat × Int × Bool :=
  let t := max ((m.log2 : Int) + e - F.mw) F.eminSub
  if t ≤ e then (m * 2 ^ (e - t).toNat, t, false)
  else
    let k := (t - e).toNat
    let q := m / 2 ^ k
    let r := m % 2 ^ k
    let lowCode : Int := if q < 2 ^ F.mw then q else (t + F.mw + F.bias) * (2 ^ F.mw : Nat) + ((q : Int) - (2 ^ F.mw : Nat))
    (if roundsUp rm neg (lowCode % 2 == 0) r k d then q + 1 else q, t, r != 0)

/-- The code of magnitude q x 2^t, which lies within the format. -/
def Fmt.encodeMag (F : Fmt) (q : Nat) (t : Int) : Nat :=
  if q < 2 ^ F.mw then q
  else
    let (q, t) := if q ≥ 2 ^ (F.mw + 1) then (q / 2, t + 1) else (q, t)
    (t + F.mw + F.bias).toNat * 2 ^ F.mw + (q - 2 ^ F.mw)

/-- Conversion to a float format: the code and the flags (R38, R39, R43). -/
def Fmt.convertFloat (F : Fmt) (rm : RMode) (d : BitVec 32) : Val → Nat × BitVec 8
  | .nan => if F.hasNaN then (F.nanCode, 0) else (0, fNV)
  | .inf s =>
    let sgn := if s then 2 ^ (F.ew + F.mw) else 0
    if F.hasInf then (sgn + (2 ^ F.ew - 1) * 2 ^ F.mw, 0) else (sgn + F.maxCode, fOF ||| fNX)
  | .fin s m e =>
    if m = 0 then (F.zeroCode s, 0)
    else
      let (q, t, inexact) := F.roundMag rm s m e d
      if (Val.fin false q t).cmp F.maxVal > 0 then (F.overflowCode rm s, fOF ||| fNX)
      else
        let tiny := (m.log2 : Int) + e < 1 - (F.bias : Int)
        let fl := if inexact then (if tiny then fUF ||| fNX else fNX) else 0
        if q = 0 then (F.zeroCode s, fl)
        else ((if s then 2 ^ (F.ew + F.mw) else 0) + F.encodeMag q t, fl)

/-- A finite magnitude rounded to an integer, with whether that changed it. -/
def roundToNat (rm : RMode) (neg : Bool) (m : Nat) (e : Int) (d : BitVec 32) : Nat × Bool :=
  if 0 ≤ e then (m * 2 ^ e.toNat, false)
  else
    let k := (-e).toNat
    let q := m / 2 ^ k
    let r := m % 2 ^ k
    (if roundsUp rm neg (q % 2 == 0) r k d then q + 1 else q, r != 0)

/-- Conversion to a two's-complement integer of W bits: saturation, NaN and infinity set NV alone (R39). -/
def convertInt (W : Nat) (rm : RMode) (d : BitVec 32) (v : Val) : Nat × BitVec 8 :=
  let top : Int := (2 ^ (W - 1) : Nat)
  let code (n : Int) : Nat := (n % (2 ^ W : Nat)).toNat
  match v with
  | .nan => (0, fNV)
  | .inf s => (code (if s then -top else top - 1), fNV)
  | .fin s m e =>
    let (q, ch) := roundToNat rm s m e d
    let n : Int := if s then -(q : Int) else q
    if n > top - 1 then (code (top - 1), fNV)
    else if n < -top then (code (-top), fNV)
    else (code n, if ch then fNX else 0)

/-- convert(x, F, rm) with the draw SR uses (Table 05.12, R38, R39). -/
def Fmt.convert (F : Fmt) (rm : RMode) (d : BitVec 32) (v : Val) : Nat × BitVec 8 :=
  match F.kind with
  | .float => F.convertFloat rm d v
  | _ => convertInt F.wid rm d v

/-- Whether a value is written exactly by a format: its conversion raises nothing and decodes to the same value. -/
def Fmt.represents (F : Fmt) (v : Val) : Bool :=
  let (c, f) := F.convert .rtz 0 v
  f == 0 && match v, (F.decode false c).1 with
    | .nan, .nan => true
    | .inf s, .inf t => s == t
    | .fin s m e, .fin t n g => (Val.fin s m e).cmp (.fin t n g) == 0 && (F.kind != .float || s == t || m != 0)
    | _, _ => false

/-- S exact-widens to F, from the entries and indices (R51). -/
def exactWidens (si fi : BitVec 4) (S F : Fmt) : Bool :=
  if si = fi then true
  else match S.kind, F.kind with
    | .float, .float => F.mw ≥ S.mw && F.emax ≥ S.emax && F.eminSub ≤ S.eminSub && (!S.hasInf || F.hasInf) && (!S.hasNaN || F.hasNaN)
    | .int, .int => F.wid ≥ S.wid
    | .int, .float => F.mw + 1 + 1 ≥ S.wid && F.emax ≥ (S.wid : Int) - 1
    | _, _ => false

/-! ### The stochastic generator (R40) -/

/-- One step of the 32-bit generator. -/
def seedStep (s : BitVec 32) : BitVec 32 :=
  let b := s.getLsbD 31 ^^ s.getLsbD 21 ^^ s.getLsbD 1 ^^ s.getLsbD 0
  (s <<< 1) ||| (if b then 1 else 0)

/-- A generator state as a write stores it: zero is stored as 1. -/
def seedStore (s : BitVec 32) : BitVec 32 := if s = 0 then 1 else s

/-! ### Scale selection from amax (R66) -/

/-- The scale code and the flag a clamp sets. `amax` is a magnitude or a NaN. -/
def scaleFromAmax (F : Fmt) (amax : Val) : BitVec 8 × BitVec 8 :=
  match amax with
  | .nan => (255, 0)
  | .inf _ => (254, fSO)
  | .fin _ m e =>
    if m = 0 then (127, 0)
    else match F.maxVal with
      | .fin _ mm me =>
        -- the least k with m 2^e ≤ mm 2^(me + k): from the difference of the leading bits, at most one more
        let k₀ := (m.log2 : Int) + e - (mm.log2 : Int) - me
        let k := if (Val.fin false m e).cmp (.fin false mm (me + k₀)) ≤ 0 then k₀ else k₀ + 1
        if k < -127 then (0, fSF) else if k > 127 then (254, fSO) else (.ofInt 8 (k + 127), 0)
      | _ => (127, 0)

/-- An element converted under a chosen scale with the floor and ceiling rules of R66. `x` is the scaled value. -/
def convertScaled (F : Fmt) (rm : RMode) (d : BitVec 32) (clamp : BitVec 8) (x : Val) : Nat × BitVec 8 :=
  let sub : Val := match F.kind with
    | .float => .fin false 1 F.eminSub
    | _ => .ofInt 1
  let sgn := x.neg?
  if clamp = fSF ∧ x.isNaN = false ∧ x.abs.cmp sub < 0 then
    let z := match F.kind with
      | .float => F.zeroCode sgn
      | _ => 0
    (z, if x.isZero then 0 else fUF ||| fNX)
  else if clamp = fSO ∧ x.isNaN = false ∧ x.abs.cmp F.maxVal > 0 then
    match F.kind with
    | .float => ((if sgn then 2 ^ (F.ew + F.mw) else 0) + F.maxCode, fNX)
    | _ => ((F.convert .rtz 0 (if sgn then F.maxVal.negate else F.maxVal)).1, fNX)
  else F.convert rm d x

end Sys2Proof.Machine
end

