-- ==== Sys2Proof/Machine/State.lean ====
section
/-! DEFINITION. The state of one Solino device, as plain data: the acting strand, the core it belongs to (with its other
strands), and the device (with the other cores). Every piece of state the spec names has a field here; `agenda` and
`free` are the model's own (log 3, log 6). State.reset is the device as bring-up leaves it (R394, R324). -/

namespace Sys2Proof.Machine

/-! ### Strands (files 04, 06 to 10) -/

/-- KIND of `sr.hartid` (Table 04.5). -/
inductive StrandKind where
  | cc
  | access
  | execute
  deriving DecidableEq, Repr

/-- What a strand is doing: R190 (ended), R198 (trapped), R318 (parked on a replayable fault with its handle). -/
inductive Run where
  | running
  | ended
  | trapped
  | parked (handle : Nat)
  deriving DecidableEq, Repr

/-- Where the data of a pending load comes from: already read, or still to be read, because a scratchpad line it reaches is empty
(R120). -/
inductive LoadSrc where
  | value (v : Word)
  | late (va : Word) (size : BitVec 3)
  deriving DecidableEq, Repr

/-- A load in its shadow (R82, R83). -/
structure PendLoad where
  dst : BitVec 5
  left : Nat
  src : LoadSrc
  pc : Word
  deriving DecidableEq, Repr

/-- One level of the loop stack (R112, R113, R115); `stages` is 0 for `loop`. -/
structure LoopLevel where
  first : Word
  last : Word
  left : Nat
  stages : Nat
  trips : Nat
  iter : Nat
  deriving DecidableEq, Repr

/-- A `pfx` word that awaits the word it decorates (R100, Table 05.11). -/
structure Deco where
  vc : BitVec 5
  vcv : Bool
  mz : Bool
  msk : BitVec 3
  rmv : Bool
  rm : BitVec 3
  deriving DecidableEq, Repr

/-- A 128-byte register segment with its sidecar (R50, Table 03.3). -/
structure Seg where
  data : Line
  side : Sidecar
  deriving DecidableEq, Repr

/-- A vector register: its FMT and its segments (R50, R72). -/
structure VReg where
  fmt : BitVec 4
  segs : List Seg
  deriving DecidableEq, Repr

/-- An issued matrix operation with the operand values it captured (R176, R177), its declared class and passes. -/
structure MatOp where
  vl : Nat
  vr : Nat
  g : Nat
  accInt : Bool
  a : List Val
  b : List Val
  flags : BitVec 8
  extra : Nat
  deriving DecidableEq, Repr

/-- The matrix state of one tile (R179 to R187). -/
structure Tile where
  ops : List MatOp
  flags : BitVec 8
  issued : Nat
  done : Nat
  sampled : Bool
  start : List Nat
  seqOps : List MatOp
  peek : Bool
  deriving DecidableEq, Repr

/-- The state `tzero` leaves (R182). -/
def Tile.clear : Tile := ⟨[], 0, 0, 0, false, [], [], false⟩

/-- One value code of a deferral entry, with the SCL and CLS of its segment (R160). -/
structure DfrVal where
  code : Nat
  scl : BitVec 8
  cls : BitVec 3
  deriving DecidableEq, Repr

/-- An entry of the deferral queue (R160). -/
structure DfrEntry where
  path : BitVec 8
  elem : Nat
  vals : List DfrVal
  deriving DecidableEq, Repr

/-- A strand: the CC, an A-hart or an X-hart (R70, R71, R130). -/
structure Strand where
  kind : StrandKind
  idx : Nat
  run : Run
  pc : Word
  xr : Vector Word 32
  sp : BitVec 8
  vl : BitVec 15
  vr : BitVec 15
  gw : Nat
  flags : BitVec 8
  tmask : BitVec 8
  round : BitVec 3
  seed : BitVec 32
  rb : BitVec 4
  loops : List LoopLevel
  pend : List PendLoad
  arrived : Option Nat
  deco : Option Deco
  vreg : Vector VReg 32
  mask : Vector (BitVec 24576) 8
  mrows : BitVec 7
  tiles : Vector Tile 4
  bcount : BitVec 16
  dfr : List DfrEntry
  dfrSig : List (BitVec 8 × List (BitVec 4))
  bqIn : List Bool
  batchNext : BitVec 32
  waiting : Bool
  wantsShuttle : Bool
  deriving DecidableEq, Repr

/-- A register as the gang start leaves it: FMT 0 and `n` UNW segments (R50, R71). -/
def VReg.fresh (n : Nat) : VReg := ⟨0, List.replicate n ⟨0, 0x7F2⟩⟩

/-- A strand at gang start with `n` segments per register (R71, Table 04.2). -/
def Strand.fresh (k : StrandKind) (i n : Nat) (pc : Word) : Strand where
  kind := k
  idx := i
  run := .running
  pc := pc
  xr := .replicate 32 0
  sp := 0
  vl := 0
  vr := 0
  gw := 32
  flags := 0
  tmask := 0
  round := 0
  seed := 1
  rb := 0
  loops := []
  pend := []
  arrived := none
  deco := none
  vreg := .replicate 32 (.fresh n)
  mask := .replicate 8 0
  mrows := 0
  tiles := .replicate 4 .clear
  bcount := 0
  dfr := []
  dfrSig := []
  bqIn := []
  batchNext := 1
  waiting := false
  wantsShuttle := false

/-- Frame number of a strand: 0 for the CC, 1 + i for A-hart i, 9 + i for X-hart i (R197). -/
def Strand.slot (t : Strand) : Nat :=
  match t.kind with
  | .cc => 0
  | .access => 1 + t.idx
  | .execute => 9 + t.idx

/-! ### Memory (R4, R16, R45) -/

/-- Bytes and line tags of one address space. Both lists are sorted by address and hold no entry equal to what an
unlisted address reads as: byte 0, tag 0x0027F0 (R45; log 8). -/
structure Memory where
  cells : List Host.Cell
  tags : List (Nat × Tag)
  deriving DecidableEq, Repr

/-- What an unlisted byte reads as: a UNW line's data is zero (R45, R49). -/
def Memory.byte0 : Byte := 0
/-- The reset tag (R45). -/
def Memory.tag0 : Tag := 0x0027F0

/-- A sorted list with no entry equal to the default. -/
def sortedNe {α : Type} [DecidableEq α] (z : α) : List (Nat × α) → Bool
  | [] => true
  | [(_, v)] => v != z
  | (a, v) :: (b, w) :: r => v != z && a < b && sortedNe z ((b, w) :: r)

/-- The canonical form of a memory. -/
def Memory.wf (m : Memory) : Bool := sortedNe Memory.byte0 m.cells && sortedNe Memory.tag0 m.tags

/-- A memory of which nothing is written. -/
def Memory.empty : Memory := ⟨[], []⟩

/-! ### Gangs, queues, copies (files 10, 12, 16) -/

/-- The running gang of a core (R188, R189, R197, R286). `left`: the CC's program was left; `swap`: through `ovl`, so that
units its mask did not name run on into the next gang (R297); `asksH` is the hart pairs that the record asks for; `stamp` counts gang
starts of the device. -/
structure Gang where
  ctx : Nat
  part : Nat
  launch : Nat
  iter : Nat
  tuple : List Nat
  h : Nat
  asksH : Nat
  segs : Nat
  tvec : Word
  centry : Word
  aentry : Word
  xentry : Word
  spr : Nat
  dfrUnits : Nat
  trapSeq : Nat
  barGen : Nat
  resumed : Bool
  left : Bool
  swap : Bool
  term : Option (BitVec 8 × BitVec 8)
  stamp : Nat
  deriving DecidableEq, Repr

/-- A slot of a tagged queue: its remaining element codes, its tag and its recorded address (R195, R282). -/
structure QSlot where
  codes : List Nat
  tag : Tag
  addr : Word
  deriving DecidableEq, Repr

/-- A tagged queue with its binding, by slot of the strand (R194, R195). -/
structure TQueue where
  slots : List QSlot
  producer : Option Nat
  consumer : Option Nat
  deriving DecidableEq, Repr

/-- A watch counter (R246); `ahead` holds the positions landed at or beyond the front. -/
structure Watch where
  expect : BitVec 32
  assigned : BitVec 32
  front : BitVec 32
  ahead : List (BitVec 32)
  deriving DecidableEq, Repr

/-- An event record (Table 12.7), with the launch it gates (R295). -/
structure Ev where
  info1 : Word
  info0 : Word
  utag : BitVec 32
  core : BitVec 16
  dev : BitVec 8
  who : BitVec 8
  kind : BitVec 8
  flags : BitVec 8
  status : BitVec 16
  seq : BitVec 32
  launch : Nat
  ctx : Nat
  deriving DecidableEq, Repr

/-- A cached or held translation: its context, the address of the 64 KiB or 4 KiB piece it maps, the log2 of that
piece, the level of its leaf and the leaf (R312, R313). -/
structure Xlat where
  ctx : Nat
  base : Word
  lg : Nat
  lv : Nat
  pte : BitVec 128
  deriving DecidableEq, Repr

/-- One element of a copy: where it comes from (none: padding), its slots, its draw (R230, R233, R240). -/
structure Mv where
  e : Nat
  src : Option Word
  sslot : Nat
  dslot : Nat
  draw : BitVec 32
  deriving DecidableEq, Repr

/-- A destination line still to land: its location where the Shuttle owns the line (R260), and the line that it was when the copy
started, by location (R236). -/
structure LandLine where
  dst : Word
  own : Option Nat
  home : Option Nat
  moves : List Mv
  deriving DecidableEq, Repr

/-- What a copy does at each landing (R232, R233, R240, R242, R243). -/
inductive CopyKind where
  | move
  | conv (fmt : BitVec 4) (rm : RMode) (scl : Option (BitVec 8)) (padv : BitVec 32)
  | fp
  | cmp (other : Word) (len off : Nat)
  deriving DecidableEq, Repr

/-- A copy in flight (R230 to R246, R313, R318). `queue` is the engine command queue it came from, 4 for the Bobbin, 5 for a
strip copy; `got` holds the source lines read so far, by line address (R235). -/
structure Copy where
  id : Nat
  who : Nat
  engine : Nat
  queue : Nat
  ctx : Nat
  launch : Nat
  batch : BitVec 32
  kind : CopyKind
  w : Nat
  lines : List LandLine
  watch : Option (BitVec 4 × BitVec 32)
  knot : Option (BitVec 5)
  got : List (Nat × Line × Tag)
  parked : Option Nat
  pc : Word
  xl : List Xlat
  deriving DecidableEq, Repr

/-- A batch of one issuer (R244): what its event will say, and whether it is closed. Issuer 17 is the Bobbin, whose
nests signal a knot and count their copies in `tail` (R248); issuers of earlier gangs of an inheriting chain are numbered 32
higher for each swap (R298). -/
structure Batch where
  who : Nat
  num : BitVec 32
  closed : Bool
  evt : Option (BitVec 32)
  written : Nat
  tail : Nat
  flags : BitVec 8
  status : BitVec 16
  knot : Option (BitVec 5)
  launch : Nat
  ctx : Nat
  deriving DecidableEq, Repr

/-- A queued command block with its translations (R247, R300). -/
structure CmdBlock where
  who : Nat
  blk : BitVec 512
  conv : BitVec 512
  ctx : Nat
  launch : Nat
  batch : BitVec 32
  pc : Word
  xl : List Xlat
  deriving DecidableEq, Repr

/-- The Bobbin (R248, R302, R303): the loaded nest, the offsets and `sr.round` of the start that emits, the iterations emitted. -/
structure Bobbin where
  nest : Option (BitVec 2048)
  run : Option (Word × Word × BitVec 3)
  at_ : Nat
  nestNo : BitVec 32
  parked : Option Nat
  pc : Word
  ctx : Nat
  launch : Nat
  deriving DecidableEq, Repr

/-- A far copy of a line (R252): its location, an address it was reached by, its dirty bytes; its DPA on this device, and whether a
store reached it through a translation with DTE = 1 (R333). -/
structure FarCopy where
  loc : Nat
  va : Word
  ctx : Nat
  data : Line
  tag : Tag
  dirty : BitVec 128
  dpa : Option Nat
  dte : Bool
  deriving DecidableEq, Repr

/-- An entry of the lazy table (R270 to R274). `lset` records the addresses of the lines written, `lines` the lines they named, `sig` signature bits carried over; `due` is a recall
received or begun whose write-backs have still to be sent, and `relBy` the strand whose `rel` waits for them (R284). -/
structure LazyEntry where
  clasp : Nat
  ctx : Nat
  va : Word
  ranges : List (Word × Nat)
  seen : Word
  lset : List Word
  lines : List Nat
  sig : BitVec 1024
  held : Bool
  retained : Bool
  waiter : Bool
  due : Bool
  relBy : Option Nat
  deriving DecidableEq, Repr

/-- A fault record (Table 17.6), with the partition whose buffer it goes to. -/
structure FaultRec where
  va : Word
  pc : Word
  info : Word
  handle : BitVec 32
  ctx : BitVec 32
  core : BitVec 16
  dev : BitVec 8
  who : BitVec 8
  engine : BitVec 8
  kind : BitVec 8
  code : BitVec 8
  cls : BitVec 8
  dpa : Word
  deriving DecidableEq, Repr

/-- Bytes an engine has still to write under a translation: basting entries, status blocks, gang records (R68, R289). -/
structure EngWrite where
  ctx : Nat
  launch : Nat
  va : Word
  bytes : List Byte
  kind : Nat
  parked : Option Nat
  pc : Word
  deriving DecidableEq, Repr

/-- A work item handed to a core (R292, R297): a tuple of a launch, or a saved gang by its container. -/
structure WorkItem where
  part : Nat
  launch : Nat
  tuple : List Nat
  saved : Option Word
  deriving DecidableEq, Repr

/-- Handler mode of the CC: what was set aside at its entry (R199, R200). -/
structure Aside where
  loops : List LoopLevel
  sp : BitVec 8
  deriving DecidableEq, Repr

/-- One core (Table 01.4) but for the acting strand. `baste`, `bbuf` and `bheadLag` are what the core holds of the basting registers:
its COUNT lies `bheadLag` above the context's (R25, R80). `inherit` is the context whose units the next gang takes over (R298);
`shuttleLast` is the source the Shuttle served last (R192); `bare` are the clasps held without an entry, by context (R273), and `arrivals`
the arrival generations at barriers, by clasp (R278). `asked` is the launch for which a walker asked resident software to stop the core's
gang, until the core is given a work item (R294), and `dbgStep` are the halted strands that the debug port lets run one instruction
(Table 20.4). -/
structure Core where
  num : Nat
  resident : Bool
  handler : Option Aside
  gang : Option Gang
  strands : List Strand
  ft : Vector (BitVec 32) 16
  pk : Vector (BitVec 8) 256
  queues : Vector TQueue 8
  watch : Vector Watch 16
  knots : Vector (BitVec 16) 32
  evq : List Ev
  evHeld : List Ev
  spad : Memory
  feEmpty : List Nat
  far : List FarCopy
  lazy : List LazyEntry
  copies : List Copy
  copyNext : Nat
  batches : List Batch
  cmdq : Vector (List CmdBlock) 4
  bobbin : Bobbin
  shSeed : BitVec 32
  engWrites : List EngWrite
  renqNo : BitVec 32
  rvec : Word
  epc : Word
  estat : Word
  rpend : BitVec 4
  renab : Word
  rroot : Word
  ctxsel : BitVec 12
  temp : BitVec 16
  ttrip : BitVec 16
  pwr : BitVec 2
  pwrReq : BitVec 2
  heatCd : Nat
  heatS : BitVec 16
  errcnt : Word
  halted : Bool
  dbgHalt : List Nat
  dbgStep : List Nat
  parkedCc : Option Nat
  userLoops : List LoopLevel × BitVec 8
  assigned : Option WorkItem
  laneHalf : Bool
  engKinds : BitVec 2
  engAhead : Vector Nat 4
  baste : BitVec 5
  bbuf : Word
  bheadLag : Word
  inherit : Option Nat
  shuttleLast : Nat
  bare : List (Nat × Nat)
  arrivals : List (Nat × BitVec 16)
  asked : Option Nat
  deriving DecidableEq, Repr

/-! ### The device (files 16 to 20) -/

/-- A context (R21, R53, R67, R184, R323). -/
structure Ctx where
  id : Nat
  part : Nat
  ptroot : Word
  ft : Vector (BitVec 32) 16
  pk : Vector (BitVec 8) 256
  eb : BitVec 32
  ebrate : Word
  ebceil : Word
  baste : BitVec 5
  bbuf : Word
  bhead : Word
  dead : Bool
  deriving DecidableEq, Repr

/-- A launch (R286 to R295) with the counters of its status block (Table 16.3). `pos` is where its enumeration stands, a
linear position or a Morton code, and `handed` counts the tuples handed out. -/
structure Launch where
  id : Nat
  ctx : Nat
  core : Nat
  lnr : BitVec 1024
  lgh : Nat
  pos : Nat
  running : Nat
  saved : List Word
  gseq : Nat
  gangs : Nat
  term : Nat
  discQ : Nat
  discD : Nat
  discE : Nat
  titer : Nat
  tcore : Nat
  twho : BitVec 8
  tcause : BitVec 8
  state : Nat
  handed : Nat
  deriving DecidableEq, Repr

/-- A partition (R387, R317, R362, R389) with the numbers it counts. -/
structure Part where
  on : Bool
  ent : BitVec 512
  fbase : Word
  fhead : Word
  ftail : Word
  fsvc : Word
  dbg : Word
  walw : Word
  balance : Nat
  hold : Bool
  launches : List Launch
  finished : List (Nat × Nat)
  nextLaunch : BitVec 32
  nextRecode : BitVec 32
  nextSwap : BitVec 32
  nextInstall : BitVec 32
  nextHandle : BitVec 32
  held : List FaultRec
  deriving DecidableEq, Repr

/-- Who waits on a replay handle (R318, R319). -/
inductive Party where
  | strand (core slot : Nat)
  | copy (core id : Nat)
  | bobbin (core : Nat)
  | writer (core : Nat)
  | recode (no : Nat)
  | install (no : Nat)
  deriving DecidableEq, Repr

/-- A live replay handle (R318). -/
structure Handle where
  part : Nat
  num : Nat
  party : Party
  frec : FaultRec
  deriving DecidableEq, Repr

/-- A clasp request waiting in a FIFO (R267, R275): a core, the strand, and whether it is a `tryacq`. -/
structure ClaspReq where
  core : Nat
  who : Nat
  try_ : Bool
  deriving DecidableEq, Repr

/-- A write-back of a recall on its way: the core that sent it, its place among what was sent, and the copy (R338, R339). -/
structure WriteBack where
  core : Nat
  seq : Nat
  copy : FarCopy
  deriving DecidableEq, Repr

/-- What a clasp's home keeps beside the line (R262, R273, R275, R276, R338): `recalled` while a signature is due, `granted`
when the grant to the head of the FIFO has left. -/
structure ClaspHome where
  loc : Nat
  fifo : List ClaspReq
  retainer : Option Nat
  recalled : Bool
  wbs : List WriteBack
  acks : Nat
  sig : Option (BitVec 1024)
  ranges : List (Word × Nat)
  granted : Bool
  msgs : Nat
  deriving DecidableEq, Repr

/-- Tokens of one line (R334): holders with their counts, the holder of the owner token, the failed attempts of each requester, and the
requests in the arbiter. Holder 0 is the home slice; of core c, 1 + 3c is the CC data cache, 2 + 3c the access-path cache and 3 + 3c the
Shuttle. -/
structure LineTokens where
  line : Nat
  counts : List (Nat × Nat)
  owner : Nat
  failed : List (Nat × Nat)
  persist : List Nat
  deriving DecidableEq, Repr

/-- One flash stack (R351): differences of the block map from the identity, wear, retired blocks and the pool. -/
structure Flash where
  map : List (Nat × Nat)
  wear : List (Nat × Nat)
  retired : List Nat
  pool : List Nat
  deriving DecidableEq, Repr

/-- An accepted install (R356 to R361): its blocks (stack, logical block of the stack), its translations, and its progress. `lines` is the
current block as it was read from the source (R359); `ack` is the code that acceptance has still to write, or none where only the
number has still to reach the register of the `winst` (R356). -/
structure Install where
  part : Nat
  ctx : Nat
  core : Nat
  no : BitVec 32
  desc : Word
  dxl : List Xlat
  utag : BitVec 32
  evt : Bool
  blocks : List (Nat × Nat)
  src : Word
  sxl : List Xlat
  txl : List Xlat
  pc : Word
  at_ : Nat
  tries : Nat
  cur : Option Nat
  reserved : List (Nat × Nat)
  shadow : List ((Nat × Nat) × Nat)
  nremap : Nat
  maxw : Nat
  fail : Option (BitVec 8)
  committed : Bool
  lines : List (Line × Tag)
  ack : Option (Option (BitVec 8))
  parked : Option Nat
  deriving DecidableEq, Repr

/-- A recode the Darner works on (R364 to R366). -/
structure Recode where
  part : Nat
  ctx : Nat
  core : Nat
  no : BitVec 32
  utag : BitVec 32
  policy : BitVec 9
  ccRound : BitVec 3
  start : Word
  lines : Nat
  at_ : Nat
  xl : List Xlat
  pc : Word
  seed : BitVec 32
  changed : Nat
  inval : Nat
  recomp : Nat
  flags : BitVec 8
  changedPages : List Nat
  faulted : Bool
  parked : Option Nat
  deriving DecidableEq, Repr

/-- An accepted swap (R371, R372): the two DPA pages and whether the entries are turning. -/
structure Swap where
  part : Nat
  core : Nat
  ctx : Nat
  no : BitVec 32
  a : Word
  b : Word
  turning : Bool
  deriving DecidableEq, Repr

/-- A gang held by a state container (R326 to R329; log 11): the header fields that find it, its core as it stopped, whose number
is 4,096 + the gang's `stamp` so that handles can name it, the container's address where the walker is to restore it, whether it was
restored since, and the container's address. -/
structure SavedGang where
  ctx : Nat
  launch : Nat
  iter : Nat
  core : Nat
  body : Core
  at_ : Option Word
  out : Bool
  place : Nat
  deriving DecidableEq, Repr

/-- A Lacing port (R340): the last flit the partner has received, the last received here, credits, the bytes of a message that goes
on in the next flit, and the tag of its line where that has begun. -/
structure Link where
  seq : BitVec 12
  ack : BitVec 12
  cred : Nat
  buf : List Byte
  tag : Option Tag
  deriving DecidableEq, Repr

/-- An entry of the agenda (log 3): give the turn to a strand, or let an agent take one step. -/
inductive Turn where
  | strand (core slot : Nat)
  | agent (core : Nat) (i : Instr)
  deriving DecidableEq, Repr

/-- The device but for the acting core. `bringUps` is the model's own: what the bring-ups still to come meet, as the agenda is who acts
(log 150). -/
structure Dev where
  num : BitVec 8
  cores : List Core
  mem : Memory
  tagValid : List Nat
  packed : List Nat
  rmCache : List (Nat × BitVec 256)
  ctxs : List Ctx
  parts : Vector Part 24
  walker : Vector Nat 6
  starts : Nat
  handles : List Handle
  tlb : List Xlat
  cotab : Word
  verified : List Nat
  rmbase : Word
  breached : List Nat
  stage : BitVec 4
  heatcfg : Word
  ptab : Word
  spbase : Vector Word 8
  spstk : Vector Word 8
  sptop : Vector Word 8
  spesc : Vector Word 8
  staged : List (Nat × Line × Tag)
  flash : Vector Flash 4
  flashBad : List Nat
  rollbacks : Nat
  rollTag : BitVec 32
  installs : List Install
  recodes : List Recode
  swaps : List Swap
  clasps : List ClaspHome
  tokens : List LineTokens
  wbNext : Nat
  hostLines : List (Nat × Option Line)
  hostCache : List Nat
  links : Vector Link 12
  config : BitVec 4096
  record : BitVec 4096
  saved : List SavedGang
  powered : Bool
  failed : Bool
  dbgLevel : BitVec 2
  consent : List Nat
  opPoint : Nat
  dieErr : Vector Word 6
  bringUps : List BringUp
  free : Nat
  deriving DecidableEq, Repr

/-- The whole machine: the acting strand `st`, its core, the device, and the schedule still to come (log 3). -/
structure State where
  st : Strand
  core : Core
  dev : Dev
  agenda : List Turn
  deriving DecidableEq, Repr

/-! ### Why a step can stop -/

/-- Reasons the machine stops. -/
inductive Fault where
  /-- Raised by `step` while the module has no power (R361): nothing runs until bring-up. Safe. -/
  | powerOff
  /-- Raised by `step` after a device failure stopped bring-up or a link failed (R339, R394). Safe. -/
  | deviceFailed
  deriving DecidableEq, Repr

/-- Reasons an instruction has no meaning here. -/
inductive Refusal where
  /-- Answered by an arm of `exec` for a row not modelled. Safe. -/
  | notModelled (mnemonic : String)
  deriving DecidableEq, Repr

/-! ### Reset (R324, R394) -/

/-- Reset contents of the Pricking table by row and column group (R58, Table 03.5). -/
def pkResetEntry (r c : Nat) : BitVec 8 :=
  let group (i : Nat) : Nat :=
    if i = 0 then 0 else if i = 1 then 1 else if i = 2 then 2
    else if i = 8 ∨ i = 9 ∨ i = 11 then 4 else if i = 10 then 5 else 3
  match group r, group c with
  | 5, _ => 0x20
  | _, 5 => 0x20
  | 0, _ => 0x10
  | _, 0 => 0x10
  | 1, 2 => 0x10
  | 2, 1 => 0x10
  | 1, _ => 0x11
  | _, 1 => 0x11
  | 2, _ => 0x12
  | _, 2 => 0x12
  | 4, 4 => 0x1B
  | _, _ => 0x11

/-- The Pricking table at reset and at context creation (R58). -/
def pkReset : Vector (BitVec 8) 256 := .ofFn fun i => pkResetEntry (i.val / 16) (i.val % 16)

/-- The format table at reset and at context creation (R22). -/
def ftResetV : Vector (BitVec 32) 16 := .ofFn fun i => ftReset.getD i.val 0

/-- The configuration record of a part with every unit enabled (Table 20.2; log 1): cores, HBM channels, flash stacks,
Lacing ports, host ports, both ports in mode H, version 3, no lost lane group, RVEC 0, and its CRC-32C. -/
def configFull : BitVec 4096 :=
  .ofNat 4096 (2852328907 * 2 ^ 4064 + (2 ^ 288 - 1) * 2 ^ 3488 + (2 ^ 256 - 1) * 2 ^ 3232 + 15 * 2 ^ 3228 + (2 ^ 12 - 1) * 2 ^ 3216 + 3 * 2 ^ 3214 + 3 * 2 ^ 3184)

/-- A configuration with its reserved fields [3211:3200] and [3119:0] read as zero (R5, Table 20.2). -/
def configRead (c : BitVec 4096) : BitVec 4096 :=
  c &&& .ofNat 4096 ((2 ^ 4096 - 1) - (2 ^ 12 - 1) * 2 ^ 3200 - (2 ^ 3120 - 1))

/-- RVEC of a configuration (Table 20.2). -/
def configRvec (c : BitVec 4096) : Word := c.extractLsb' 3120 64

/-- The bits of Table 20.2 that enable units: CORES, HBMCH, FLASH, LACE and PEN. -/
def configUnits : BitVec 4096 := .ofNat 4096 ((2 ^ 562 - 1) * 2 ^ 3214)

/-- The running configuration that bring-up makes of a record: without the units whose step failed, with the RVEC and the DEVNUM that the
controller writes (R385, R394). -/
def runningConfig (k : BringUp) (r : BitVec 4096) : BitVec 4096 :=
  (r &&& (k.works ||| ~~~configUnits) &&& ~~~(.ofNat 4096 ((2 ^ 64 - 1) * 2 ^ 3120 + (2 ^ 8 - 1) * 2 ^ 3192)))
    ||| .ofNat 4096 (k.rvec.toNat * 2 ^ 3120 + k.devnum.toNat * 2 ^ 3192)

/-- A Bobbin with nothing loaded. -/
def Bobbin.idle : Bobbin := ⟨none, none, 0, 0, none, 0, 0, 0⟩

/-- A core as bring-up or a wake from off leaves it, without its CC (R324, R393, R394). `n` is its number. -/
def Core.fresh (n : Nat) (rvec : Word) (half : Bool) : Core where
  num := n
  resident := true
  handler := none
  gang := none
  strands := []
  ft := ftResetV
  pk := pkReset
  queues := .replicate 8 ⟨[], none, none⟩
  watch := .replicate 16 ⟨0, 0, 0, []⟩
  knots := .replicate 32 0
  evq := []
  evHeld := []
  spad := .empty
  feEmpty := []
  far := []
  lazy := []
  copies := []
  copyNext := 0
  batches := []
  cmdq := .replicate 4 []
  bobbin := .idle
  shSeed := 1
  engWrites := []
  renqNo := 1
  rvec := rvec
  epc := 0
  estat := 1
  rpend := 0
  renab := 0
  rroot := 0
  ctxsel := 0
  temp := 0
  ttrip := 0x0690
  pwr := 0
  pwrReq := 0
  heatCd := 256
  heatS := 0xACE1 ^^^ .ofNat 16 n
  errcnt := 0
  halted := false
  dbgHalt := []
  dbgStep := []
  parkedCc := none
  userLoops := ([], 0)
  assigned := none
  laneHalf := half
  engKinds := 0
  engAhead := .replicate 4 0
  baste := 0
  bbuf := 0
  bheadLag := 0
  inherit := none
  shuttleLast := 0
  bare := []
  arrivals := []
  asked := none

/-- The CC of a core that starts the resident firmware (R394 step 8). -/
def Strand.bootCc (rvec : Word) : Strand := .fresh .cc 0 0 rvec

/-- A core with its CC among its strands, as the device holds the cores that do not act. -/
def Core.boot (c : BitVec 4096) (n : Nat) : Core :=
  { Core.fresh n (configRvec c) (c.getLsbD (3776 + n)) with
    strands := [.bootCc (configRvec c)], halted := !c.getLsbD (3488 + n) }

/-- A partition that was never enabled (R324). -/
def Part.empty : Part := ⟨false, 0, 0, 0, 0, 0, 0, 0, 0, false, [], [], 1, 1, 1, 1, 1, []⟩

/-- A flash stack as bring-up loads it (R351; log 10). -/
def Flash.fresh : Flash := ⟨[], [], [], List.range' 32768 1024⟩

/-- The device after bring-up from a running configuration, without the acting core 0 (R324, R394). -/
def Dev.boot (c rec_ : BitVec 4096) : Dev where
  num := c.extractLsb' 3192 8
  cores := (List.range' 1 287).map (Core.boot c)
  mem := .empty
  tagValid := []
  packed := []
  rmCache := []
  ctxs := []
  parts := .replicate 24 .empty
  walker := .replicate 6 0
  starts := 0
  handles := []
  tlb := []
  cotab := 0
  verified := []
  rmbase := 0
  breached := []
  stage := 4
  heatcfg := 0x11408
  ptab := 0
  spbase := .replicate 8 0
  spstk := .replicate 8 0
  sptop := .replicate 8 0
  spesc := .replicate 8 0
  staged := []
  flash := .replicate 4 .fresh
  flashBad := []
  rollbacks := 0
  rollTag := 0
  installs := []
  recodes := []
  swaps := []
  clasps := []
  tokens := []
  wbNext := 0
  hostLines := []
  hostCache := []
  links := .replicate 12 ⟨0, 0, 0, [], none⟩
  config := configRead c
  record := rec_
  saved := []
  powered := true
  failed := false
  dbgLevel := 0
  consent := []
  opPoint := 0
  bringUps := []
  dieErr := .replicate 6 0
  free := 0

/-- The machine as bring-up leaves it from a record, the CC of core 0 acting (R394). -/
def State.boot (c rec_ : BitVec 4096) : State where
  st := .bootCc (configRvec c)
  core := { Core.fresh 0 (configRvec c) (c.getLsbD 3776) with halted := !c.getLsbD 3488 }
  dev := Dev.boot c rec_
  agenda := []

/-- The machine right after reset: every unit enabled, every CC at `sr.rvec` at the resident level (R324, R394; log 1). -/
def State.reset : State := State.boot configFull configFull

end Sys2Proof.Machine
end

