-- ==== Sys2Proof/Machine/Base.lean ====
section
/-! DEFINITION. The plain accessors every operation uses: sorted sparse lists and memory words, fields of tags and
sidecars, scalar registers, strands by frame number, cores by device-wide number, partitions and contexts, and the
reader-and-stopper `M` in which the instructions that touch memory are written. -/

namespace Sys2Proof

/-! ### Tags and sidecars (Tables 03.1 to 03.3) -/

def Tag.fmt (t : Tag) : BitVec 4 := t.extractLsb' 0 4
def Tag.scl (t : Tag) : BitVec 8 := t.extractLsb' 4 8
/-- CLS as it is read: codes 6 and 7 are decoded as POI (R47). -/
def Tag.cls (t : Tag) : BitVec 3 := let c := t.extractLsb' 12 3; if c = 6 ∨ c = 7 then 3 else c
def Tag.pln (t : Tag) : BitVec 3 := t.extractLsb' 15 3
def Tag.gen (t : Tag) : BitVec 4 := t.extractLsb' 20 4

/-- Validity classes (Table 03.2). -/
def cVAL : BitVec 3 := 0
def cRAW : BitVec 3 := 1
def cUNW : BitVec 3 := 2
def cPOI : BitVec 3 := 3
def cINV : BitVec 3 := 4
def cSTG : BitVec 3 := 5

/-- A tag with FMT, SCL, CLS and PLN set and GEN and CMP kept (R46). -/
def Tag.retag (t : Tag) (fmt : BitVec 4) (scl : BitVec 8) (cls pln : BitVec 3) : Tag :=
  t.extractLsb' 18 6 ++ pln ++ cls ++ scl ++ fmt

/-- A tag with only its class set. -/
def Tag.withCls (t : Tag) (c : BitVec 3) : Tag := t.extractLsb' 15 9 ++ c ++ t.extractLsb' 0 12

/-- A tag after an untyped write: CLS RAW, the rest unchanged (R121, R397). -/
def Tag.raw (t : Tag) : Tag := t.withCls cRAW

/-- A tag with GEN advanced (R46). -/
def Tag.bumpGen (t : Tag) : Tag := (t.gen + 1) ++ t.extractLsb' 0 20

/-- The tag of a line made POI; GEN and CMP are kept (R382). -/
def Tag.toPoi (t : Tag) : Tag := t.retag 0 127 cPOI 0

/-- The tag of a line of a compressed block, with the CMP its block has (R367). -/
def withCmp (c : BitVec 2) (t : Tag) : Tag := t.extractLsb' 20 4 ++ c ++ t.extractLsb' 0 18

/-- A tag from FMT, SCL, CLS and PLN, GEN and CMP at 0. -/
def mkTag (fmt : BitVec 4) (scl : BitVec 8) (cls pln : BitVec 3) : Tag := (0 : BitVec 6) ++ pln ++ cls ++ scl ++ fmt

def Sidecar.cls (d : Sidecar) : BitVec 3 := d.extractLsb' 0 3
def Sidecar.mix (d : Sidecar) : Bool := d.getLsbD 3
def Sidecar.scl (d : Sidecar) : BitVec 8 := d.extractLsb' 4 8
def Sidecar.org (d : Sidecar) : BitVec 4 := d.extractLsb' 12 4

/-- A sidecar from its fields (Table 03.3). -/
def mkSide (org : BitVec 4) (scl : BitVec 8) (mix : Bool) (cls : BitVec 3) : Sidecar :=
  org ++ scl ++ BitVec.ofBool mix ++ cls

end Sys2Proof

namespace Sys2Proof.Machine

/-- The outcome of one step. -/
abbrev Out := Host.Outcome State Fault Refusal

/-! ### Sparse lists and memory (R4, R45) -/

/-- What a sorted list holds at a key, or the default. -/
def lookupD {α : Type} (z : α) (k : Nat) : List (Nat × α) → α
  | [] => z
  | (a, v) :: r => if a = k then v else lookupD z k r

/-- A sorted list with a key set; setting the default removes the key. -/
def setD {α : Type} [DecidableEq α] (z : α) (k : Nat) (v : α) : List (Nat × α) → List (Nat × α)
  | [] => if v = z then [] else [(k, v)]
  | (a, w) :: r =>
    if k < a then (if v = z then (a, w) :: r else (k, v) :: (a, w) :: r)
    else if a = k then (if v = z then r else (k, v) :: r)
    else (a, w) :: setD z k v r

/-- One byte. -/
def Memory.byte (m : Memory) (a : Nat) : Byte := lookupD Memory.byte0 a m.cells
/-- A memory with one byte set. -/
def Memory.setByte (m : Memory) (a : Nat) (v : Byte) : Memory := { m with cells := setD Memory.byte0 a v m.cells }
/-- The tag of the line that holds address `a`. -/
def Memory.tag (m : Memory) (a : Nat) : Tag := lookupD Memory.tag0 (a / 128) m.tags
/-- A memory with the tag of the line of `a` set. -/
def Memory.setTag (m : Memory) (a : Nat) (t : Tag) : Memory := { m with tags := setD Memory.tag0 (a / 128) t m.tags }

/-- `n` bytes from `a` on as a little-endian number (R4). -/
def Memory.readN (m : Memory) (a : Nat) : Nat → Nat
  | 0 => 0
  | n + 1 => (m.byte a).toNat + 256 * m.readN (a + 1) n

/-- A memory with `n` bytes from `a` on set from a little-endian number (R4). -/
def Memory.writeN (m : Memory) (a : Nat) : Nat → Nat → Memory
  | 0, _ => m
  | n + 1, v => (m.setByte a (.ofNat 8 v)).writeN (a + 1) n (v / 256)

/-- The 128 bytes of the line at `a`. -/
def Memory.line (m : Memory) (a : Nat) : Line := .ofNat 1024 (m.readN (a / 128 * 128) 128)

/-- A memory with the 128 bytes of the line at `a` set. -/
def Memory.setLine (m : Memory) (a : Nat) (d : Line) : Memory := m.writeN (a / 128 * 128) 128 d.toNat

/-- A line of bytes with the bytes marked in `dirty` taken from another. -/
def mergeBytes (dirty : BitVec 128) (new old : Line) : Line :=
  .ofNat 1024 ((List.range 128).foldr (fun k acc =>
    acc * 256 + (if dirty.getLsbD k then (new.extractLsb' (8 * k) 8).toNat else (old.extractLsb' (8 * k) 8).toNat)) 0)

/-- The bytes off to off + n - 1 of a line, as a mask. -/
def byteMask (off n : Nat) : BitVec 128 := .ofNat 128 ((2 ^ n - 1) * 2 ^ off)

/-! ### Scalar registers (R70, Table 00.3) -/

/-- X[r]; x0 reads 0. -/
def Strand.x (t : Strand) (r : BitVec 5) : Word := if r = 0 then 0 else t.xr[r.toNat]'(r.isLt)

/-- A strand with X[r] written; a write to x0 is discarded. -/
def Strand.setX (t : Strand) (r : BitVec 5) (v : Word) : Strand :=
  if r = 0 then t else { t with xr := t.xr.set r.toNat v r.isLt }

/-- X[r] of the acting strand. -/
def State.x (s : State) (r : BitVec 5) : Word := s.st.x r

/-- The state with X[r] of the acting strand written. -/
def State.setX (s : State) (r : BitVec 5) (v : Word) : State := { s with st := s.st.setX r v }

/-- The grant of a strand, vl x vr (R77). -/
def Strand.grant (t : Strand) : Nat := t.vl.toNat * t.vr.toNat

/-- WHO of a strand: KIND in [7:6], HART in [5:3] (Table 10.1). -/
def Strand.who (t : Strand) : BitVec 8 :=
  (match t.kind with
    | .cc => (0 : BitVec 2)
    | .access => 1
    | .execute => 2) ++ (BitVec.ofNat 3 t.idx) ++ (0 : BitVec 3)

/-- WHO from a frame number (R197). -/
def whoOfSlot (n : Nat) : BitVec 8 :=
  if n = 0 then 0 else if n ≤ 8 then (1 : BitVec 2) ++ BitVec.ofNat 3 (n - 1) ++ (0 : BitVec 3)
  else (2 : BitVec 2) ++ BitVec.ofNat 3 (n - 9) ++ (0 : BitVec 3)

/-! ### Strands of the core -/

/-- A strand put among others, in ascending frame number. -/
def putStrand (t : Strand) : List Strand → List Strand
  | [] => [t]
  | u :: r => if t.slot < u.slot then t :: u :: r else if t.slot = u.slot then t :: r else u :: putStrand t r

/-- The strand with a frame number, on the acting core. -/
def State.strandAt (s : State) (n : Nat) : Option Strand :=
  if s.st.slot = n then some s.st else s.core.strands.find? (·.slot == n)

/-- The state with the strand of its frame number replaced. -/
def State.putStrandAt (s : State) (t : Strand) : State :=
  if s.st.slot = t.slot then { s with st := t }
  else { s with core := { s.core with strands := putStrand t s.core.strands } }

/-- The state with one strand of the acting core changed, if there is one. -/
def State.updStrandAt (s : State) (n : Nat) (f : Strand → Strand) : State :=
  match s.strandAt n with
  | none => s
  | some t => s.putStrandAt (f t)

/-- Every strand of the acting core, in ascending frame number. -/
def State.allStrands (s : State) : List Strand := putStrand s.st s.core.strands

/-- The state with every strand of the acting core changed. -/
def State.mapStrands (s : State) (f : Strand → Strand) : State :=
  { s with st := f s.st, core := { s.core with strands := s.core.strands.map f } }

/-- The frame number of the acting strand's partner in its pair (R188); a CC has none. -/
def Strand.partner (t : Strand) : Option Nat :=
  match t.kind with
  | .cc => none
  | .access => some (9 + t.idx)
  | .execute => some (1 + t.idx)

/-! ### Cores of the device -/

/-- A core put among others, in ascending number. -/
def putCore (c : Core) : List Core → List Core
  | [] => [c]
  | d :: r => if c.num < d.num then c :: d :: r else if c.num = d.num then c :: r else d :: putCore c r

/-- The acting core with every one of its strands. -/
def State.wholeCore (s : State) : Core := { s.core with strands := putStrand s.st s.core.strands }

/-- The turn given to a strand of a core. Where that core or strand does not exist, nothing changes. -/
def State.focus (s : State) (c n : Nat) : State :=
  if s.core.num = c then
    match s.core.strands.find? (·.slot == n) with
    | none => s
    | some t => { s with st := t, core := { s.core with strands := (putStrand s.st s.core.strands).filter (·.slot != n) } }
  else
    match s.dev.cores.find? (·.num == c) with
    | none => s
    | some d =>
      match d.strands.find? (·.slot == n) with
      | none => s
      | some t =>
        { s with st := t, core := { d with strands := d.strands.filter (·.slot != n) },
                 dev := { s.dev with cores := (putCore s.wholeCore s.dev.cores).filter (·.num != c) } }

/-- The state after `f` ran with the CC of core `n` acting, the turn back where it was. -/
def State.atCore (s : State) (n : Nat) (f : State → State) : State := (f (s.focus n 0)).focus s.core.num s.st.slot

/-- A core of the device with all its strands. -/
def State.coreAt (s : State) (c : Nat) : Option Core :=
  if s.core.num = c then some s.wholeCore else s.dev.cores.find? (·.num == c)

/-- The state with a core's fields other than its strands changed. -/
def State.updCoreAt (s : State) (c : Nat) (f : Core → Core) : State :=
  if s.core.num = c then { s with core := { f s.core with num := c, strands := s.core.strands } }
  else { s with dev := { s.dev with cores := s.dev.cores.map fun d => if d.num = c then { f d with num := c } else d } }

/-- The numbers of all cores. -/
def State.coreNums (s : State) : List Nat := (putCore s.core s.dev.cores).map (·.num)

/-- The die of a core (R11). -/
def Core.die (c : Core) : Nat := c.num / Config.coresPerDie

/-- Whether the acting strand runs at the resident level (R88, R322). -/
def State.atResident (s : State) : Bool := s.st.kind == .cc && s.core.resident

/-! ### Partitions and contexts -/

/-- A partition by its number, 1 to 24. -/
def Dev.part (d : Dev) (p : Nat) : Option Part := if p = 0 then none else d.parts[p - 1]?

/-- The device with a partition changed. -/
def Dev.updPart (d : Dev) (p : Nat) (f : Part → Part) : Dev :=
  if h : p ≠ 0 ∧ p - 1 < 24 then { d with parts := d.parts.set (p - 1) (f (d.parts[p - 1]'h.2)) h.2 } else d

/-- QMASK of a partition entry (Table 20.3). -/
def Part.qmask (p : Part) : BitVec 24 := p.ent.extractLsb' 248 24

/-- The partition that holds a core's quarter, or 0 (R387). -/
def Dev.partOfCore (d : Dev) (c : Nat) : Nat :=
  match (List.range 24).find? fun i => match d.parts[i]? with
    | some p => p.on && p.qmask.getLsbD (c / 12)
    | none => false with
  | some i => i + 1
  | none => 0

/-- A context by its identifier. -/
def Dev.ctx (d : Dev) (c : Nat) : Option Ctx := d.ctxs.find? (·.id == c)

/-- Whether a context exists and was not terminated (R320, R323). -/
def Dev.ctxLive (d : Dev) (c : Nat) : Bool := d.ctxs.any fun x => x.id == c && !x.dead

/-- The device with a context changed. -/
def Dev.updCtx (d : Dev) (c : Nat) (f : Ctx → Ctx) : Dev :=
  { d with ctxs := d.ctxs.map fun x => if x.id = c then f x else x }

/-- A context as its creation leaves it (R22, R58, R323, R324). -/
def Ctx.fresh (id part : Nat) (root : Word) : Ctx :=
  ⟨id, part, root, ftResetV, pkReset, 0x7FFFFFFF, 16777216, 0x7FFFFFFF, 0, 0, 0, false⟩

/-- The context of the core's gang, or 0. -/
def Core.ctxId (c : Core) : Nat :=
  match c.gang with
  | some g => g.ctx
  | none => 0

/-- The context that context-scope registers address (R323). -/
def Core.selCtx (c : Core) : Nat := if c.ctxsel = 0 then c.ctxId else c.ctxsel.toNat

/-- The launch of the core's gang, or 0. -/
def Core.launchId (c : Core) : Nat :=
  match c.gang with
  | some g => g.launch
  | none => 0

/-- The format a format-table index names, as the acting core holds the table at issue (R25). -/
def Core.fmt (c : Core) (i : BitVec 4) : Fmt := Fmt.ofEntry (c.ft[i.toNat]'(i.isLt))

/-- The format of an index on the acting core. -/
def State.fmt (s : State) (i : BitVec 4) : Fmt := s.core.fmt i

/-- Elements in a queue. -/
def TQueue.count (q : TQueue) : Nat := q.slots.foldl (fun n x => n + x.codes.length) 0

/-! ### Stopping -/

/-- What ends an instruction other than its effect. -/
inductive Stop where
  /-- It waits: nothing has happened, and it is tried again (R227). -/
  | wait
  /-- A user trap: cause, INFO, ADDR, and the flags ORed into `sr.flags` (R44, R198). -/
  | trap (cause : BitVec 8) (info : BitVec 32) (addr : Word) (fl : BitVec 8)
  /-- A fault of the acting strand (R202, R315). -/
  | fault (f : FaultRec)
  /-- Something else happens first, to the state the instruction found, where a record names who found it; then the instruction is tried
  again. -/
  | redo (f : (FaultRec → FaultRec) → State → State)

/-- The state with the clock of its core no longer gated: it is active (Table 20.5). -/
def State.ungated (s : State) : State := { s with core := { s.core with pwr := if s.core.pwr = 1 then 0 else s.core.pwr } }

/-- Whether the debug port holds the strand of a frame number still: stopped, and not let execute one instruction (R391). -/
def Core.heldStill (c : Core) (slot : Nat) : Bool := c.dbgHalt.contains slot && !c.dbgStep.contains slot

/-- Whether a stop is a wait. -/
def Stop.waits : Stop → Bool
  | .wait => true
  | _ => false

/-- A computation on the state that may stop. A stop keeps nothing of what was done before it (R103). -/
abbrev M := StateT State (Except Stop)

/-- Stop here. -/
def stop {α : Type} (x : Stop) : M α := throw x

/-- A user trap with no INFO and no ADDR. -/
def raiseTrap {α : Type} (cause : BitVec 8) : M α := stop (.trap cause 0 0 0)

/-! User trap causes (Tables 05.3 and 10.3). -/

def tILLEGAL : BitVec 8 := 0x01
def tPRIVILEGED : BitVec 8 := 0x02
def tGRANT_WIDTH : BitVec 8 := 0x03
def tTAG_CLASS : BitVec 8 := 0x04
def tTAG_FORMAT : BitVec 8 := 0x05
def tFORBIDDEN_PAIR : BitVec 8 := 0x06
def tFORMAT_OPERAND : BitVec 8 := 0x07
def tARITH : BitVec 8 := 0x08
def tTRAP : BitVec 8 := 0x09
def tDEFER_FULL : BitVec 8 := 0x0A
def tMATRIX_SHAPE : BitVec 8 := 0x0B
def tQUEUE_BINDING : BitVec 8 := 0x0C
def tQUEUE_SHORT : BitVec 8 := 0x0D
def tMISALIGNED : BitVec 8 := 0x0E
def tCOPY_RANGE : BitVec 8 := 0x0F
def tCLASP_STATE : BitVec 8 := 0x10
def tLAUNCH_ARG : BitVec 8 := 0x11
def tFAULT_DELIVERED : BitVec 8 := 0x12
def tTERMINATED : BitVec 8 := 0x13
def tLAYER_ARG : BitVec 8 := 0x14

/-- The PC a stop of the acting strand reports: the `pfx` of a pair (R101). -/
def Strand.wordPc (t : Strand) : Word := if t.deco.isSome then t.pc - 4 else t.pc

/-- A fault of the acting strand: class, code, address, DPA, INFO and KIND (Table 17.6); the handle is given when it parks. -/
def State.mkFault (s : State) (cls code kind : BitVec 8) (va : Word) (dpa info : Nat) : FaultRec where
  va := va
  pc := s.st.wordPc
  info := .ofNat 64 info
  handle := 0
  ctx := .ofNat 32 s.core.ctxId
  core := .ofNat 16 s.core.num
  dev := s.dev.num
  who := s.st.who
  engine := 0
  kind := kind
  code := code
  cls := cls
  dpa := .ofNat 64 dpa

/-- The device without the clasp requests of those strands of a core that `p` names (R267). -/
def Dev.withdraw (d : Dev) (c : Nat) (p : Nat → Bool) : Dev :=
  { d with clasps := d.clasps.map fun h =>
      if h.fifo.any (fun r => r.core == c && p r.who) then
        { h with granted := false, fifo := h.fifo.filter fun r => !(r.core == c && p r.who) }
      else h }

/-- Free values taken from the counter of the state (log 6). -/
def State.takeFree (s : State) : Nat × State := (s.dev.free, { s with dev := { s.dev with free := s.dev.free + 1 } })

end Sys2Proof.Machine
end

