-- ==== Sys2Proof/Machine/Mem.lean ====
section
/-! DEFINITION. Addresses and lines: the page walk (R307 to R310), cached translations (R312), the remap table (R348),
lines at their homes in every layer (R12, R16, R343, R344, R353, R367, R368), far copies (R252), the access and heat bits
(R374 to R377), and one line part of a load or a store. A location is a number: space x 2^64 + offset. Spaces: 0 DPAs outside
the remap table (log 2), 16 + die L-S, 32 + die L-D, 48 + stack flash, 64 + port L-P, 80 + pool compressed blocks,
256 + device the memory of other devices. -/

namespace Sys2Proof.Machine

/-! ### Page-table entries (R308, Table 17.2) -/

def pteHdev (p : BitVec 128) : BitVec 8 := p.extractLsb' 112 8
def pteKey (p : BitVec 128) : BitVec 8 := p.extractLsb' 120 8
def pteSfp (p : BitVec 128) : BitVec 9 := p.extractLsb' 97 9
def ptePcls (p : BitVec 128) : Nat := (p.extractLsb' 95 2).toNat
def pteCache (p : BitVec 128) : Nat := (p.extractLsb' 93 2).toNat
def pteCmpr (p : BitVec 128) : Bool := p.getLsbD 92
def pteCow (p : BitVec 128) : Bool := p.getLsbD 91
def pteDte (p : BitVec 128) : Bool := p.getLsbD 90
def pteHse (p : BitVec 128) : Bool := p.getLsbD 89
def pteIcc (p : BitVec 128) : Bool := p.getLsbD 88
def pteFrame (p : BitVec 128) : Nat := (p.extractLsb' 8 56).toNat * 256
def pteX (p : BitVec 128) : Bool := p.getLsbD 5
def pteW (p : BitVec 128) : Bool := p.getLsbD 4
def pteR (p : BitVec 128) : Bool := p.getLsbD 3
def pteV (p : BitVec 128) : Bool := p.getLsbD 2
def pteType (p : BitVec 128) : Nat := (p.extractLsb' 0 2).toNat

/-- The leaf that stands for an untranslated access: every permission, class general, no far copies. -/
def pteRaw : BitVec 128 := .ofNat 128 (3 * 2 ^ 95 + 2 ^ 93 + 0x3E)

/-- What an access needs (Table 17.3), whether the copy-on-write and weights checks apply (R310), and its KIND
(Table 17.6). -/
structure Need where
  r : Bool
  w : Bool
  x : Bool
  cow : Bool
  stg : Bool
  kind : BitVec 8
  deriving DecidableEq, Repr

def nFetch : Need := ⟨false, false, true, false, false, 0⟩
def nLoad : Need := ⟨true, false, false, false, false, 1⟩
def nStore : Need := ⟨false, true, false, true, true, 2⟩
def nRmw : Need := ⟨true, true, false, true, true, 3⟩
def nEngRead : Need := ⟨true, false, false, false, false, 4⟩
def nEngWrite : Need := ⟨false, true, false, true, true, 5⟩
/-- A bank-side command: V and W (Table 17.3). -/
def nBank : Need := ⟨false, true, false, true, true, 3⟩
/-- Reading and writing as permissions only (R364, R371). -/
def nPerm : Need := ⟨true, true, false, false, false, 3⟩
/-- The destination of an install (R356). -/
def nInstall : Need := ⟨false, true, false, true, false, 2⟩

/-- Why an address has no translation: class, code, INFO, DPA (Tables 17.5 and 17.6), and whether it is the walk's own read of a table
that fails, which the record's KIND then names (log 126). -/
structure Flt where
  cls : BitVec 8
  code : BitVec 8
  info : Nat
  dpa : Nat
  walk : Bool := false
  deriving DecidableEq, Repr

def fltNotPresent (lv : Nat) : Flt := { cls := 1, code := 0x01, info := lv, dpa := 0 }
def fltNoRead (lv : Nat) : Flt := { cls := 1, code := 0x02, info := lv, dpa := 0 }
def fltNoWrite (lv : Nat) : Flt := { cls := 1, code := 0x03, info := lv, dpa := 0 }
def fltNoExec (lv : Nat) : Flt := { cls := 1, code := 0x04, info := lv, dpa := 0 }
def fltBadEntry (lv : Nat) : Flt := { cls := 1, code := 0x05, info := lv, dpa := 0 }
def fltCow (lv : Nat) : Flt := { cls := 1, code := 0x06, info := lv, dpa := 0 }
def fltRange : Flt := { cls := 1, code := 0x07, info := 0, dpa := 0 }
def fltWalkPoison (lv : Nat) : Flt := { cls := 1, code := 0x08, info := lv, dpa := 0, walk := true }
def fltRemapAbsent (lv : Nat) : Flt := { cls := 1, code := 0x09, info := lv, dpa := 0 }
/-- REMAP_ABSENT of a page table's own page. -/
def fltWalkAbsent (lv : Nat) : Flt := { fltRemapAbsent lv with walk := true }
/-- A fault at a line's tag by its code; the record names the line (Table 17.6). -/
def fltTag (code : BitVec 8) (ix dpa : Nat) : Flt := { cls := 2, code := code, info := ix, dpa := dpa / 128 * 128 }
def fltPoison (ix dpa : Nat) : Flt := fltTag 0x01 ix dpa
def fltStgWrite (ix dpa : Nat) : Flt := fltTag 0x02 ix dpa
def fltCodeHash (ix : Nat) (dpa : Nat) : Flt := { cls := 3, code := 0x01, info := ix, dpa := dpa / 65536 * 65536 }
def fltCodeBad (ix : Nat) (dpa : Nat) : Flt := { cls := 3, code := 0x02, info := ix, dpa := dpa / 65536 * 65536 }
def fltCodeUnreg (ix : Nat) (dpa : Nat) : Flt := { cls := 3, code := 0x03, info := ix, dpa := dpa / 65536 * 65536 }
def fltOverflow (dpa : Nat) : Flt := { cls := 4, code := 0x01, info := 0, dpa := dpa }
def fltExhausted (dpa : Nat) : Flt := { cls := 4, code := 0x02, info := 0, dpa := dpa }

/-! ### The remap table (R348 to R349, Tables 18.7 and 18.8) -/

/-- LGN of `sr.rmbase`. -/
def Dev.rmLgn (d : Dev) : Nat := (d.rmbase.extractLsb' 0 6).toNat
/-- BASE of `sr.rmbase`. -/
def Dev.rmTable (d : Dev) : Nat := (d.rmbase.extractLsb' 12 52).toNat * 4096
/-- The table index of a DPA. -/
def rmPage (dpa : Nat) : Nat := dpa / 65536
/-- Whether a DPA has a table entry, whatever that holds. -/
def Dev.rmIn (d : Dev) (dpa : Nat) : Bool := d.rmLgn != 0 && rmPage dpa < 2 ^ d.rmLgn
/-- The location of a DPA's entry; the table itself is never remapped (log 2). -/
def Dev.rmAt (d : Dev) (dpa : Nat) : Nat := d.rmTable + 32 * rmPage dpa
/-- The 256 bits of a DPA's entry. -/
def Dev.rmEnt (d : Dev) (dpa : Nat) : BitVec 256 := .ofNat 256 (d.mem.readN (d.rmAt dpa) 32)

def rmLoc (e : BitVec 256) : Nat := (e.extractLsb' 192 64).toNat
def rmTloc (e : BitVec 256) : Nat := (e.extractLsb' 128 64).toNat
def rmGenf (e : BitVec 256) : BitVec 32 := e.extractLsb' 96 32
def rmHeat (e : BitVec 256) : Nat := (e.extractLsb' 88 8).toNat
def rmAcc (e : BitVec 256) : Bool := e.getLsbD 87
def rmDirty (e : BitVec 256) : Bool := e.getLsbD 86
def rmTurning (e : BitVec 256) : Bool := e.extractLsb' 64 2 == 1
def rmSite (e : BitVec 256) : Nat := (e.extractLsb' 56 8).toNat
/-- LAYER: 0 NONE, 1 L-S, 2 L-D, 3 L-F, 4 L-P. -/
def rmLayer (e : BitVec 256) : Nat := (e.extractLsb' 52 4).toNat

/-- The fields of an entry that say where its page lies: LOC, TLOC, SITE and LAYER. -/
def rmPlace (e : BitVec 256) : BitVec 256 := e &&& .ofNat 256 ((2 ^ 128 - 1) * 2 ^ 128 + (2 ^ 12 - 1) * 2 ^ 52)

/-- A bit of the running configuration (Table 20.2). -/
def Dev.cfg (d : Dev) (i : Nat) : Bool := d.config.getLsbD i

/-- The first HBM4 stack of a die that has two of them (Table 01.2). -/
def dieStack (die : Nat) : Option Nat :=
  match die with
  | 0 => some 0
  | 2 => some 2
  | 3 => some 4
  | 5 => some 6
  | _ => none

/-- Bytes of a die's L-D location space: 1.5 GB, of 10^9 bytes, for each enabled channel (R386; log 14). -/
def Dev.hbmBytes (d : Dev) (die : Nat) : Nat :=
  match dieStack die with
  | none => 0
  | some k => ((List.range 64).filter fun c => d.cfg (3232 + 32 * k + c)).length * 1500000000

/-- The first L-D location of the staging reserve of a die (R352). -/
def Dev.stageBase (d : Dev) (die : Nat) : Nat := d.hbmBytes die - d.stage.toNat * 2000000000

/-- The flash stack and its logical block number for an L-F location (R351). -/
def flashBlock (site loc : Nat) : Nat × Nat :=
  let b := loc / 16777216
  ((if site = 4 then 2 else 0) + b / 32768 % 2, b % 32768)

/-- Whether an entry names a place that exists: otherwise its LAYER reads as NONE (R348, R352, R386). -/
def Dev.rmValid (d : Dev) (e : BitVec 256) : Bool :=
  match rmLayer e with
  | 1 => rmSite e < 6 && rmLoc e < 201326592
  | 2 => rmSite e < 6 && rmLoc e < d.stageBase (rmSite e)
  | 3 => (rmSite e == 1 || rmSite e == 4) && rmLoc e < 1099511627776 && d.cfg (3228 + (flashBlock (rmSite e) (rmLoc e)).1)
  | 4 => rmSite e < 2 && d.cfg (3214 + rmSite e)
  | _ => false

/-- The entry of a DPA's page, when a lookup finds one (R348). -/
def Dev.rmLook (d : Dev) (dpa : Nat) : Option (BitVec 256) :=
  if d.rmIn dpa then
    let e := d.rmEnt dpa
    if d.rmValid e then some e else none
  else none

/-- The physical block a stack maps a logical block to (R351). -/
def Flash.phys (f : Flash) (b : Nat) : Nat := lookupD b b f.map

/-- A flash stack of the device. -/
def Dev.stackOf (d : Dev) (k : Nat) : Flash := d.flash[k]?.getD .fresh

/-- The location of an offset within an entry's page. -/
def Dev.locOf (d : Dev) (e : BitVec 256) (off : Nat) : Nat :=
  let p := rmLoc e + off
  match rmLayer e with
  | 1 => (16 + rmSite e) * 2 ^ 64 + p
  | 2 => (32 + rmSite e) * 2 ^ 64 + p
  | 3 =>
    let (k, b) := flashBlock (rmSite e) p
    (48 + k) * 2 ^ 64 + (d.stackOf k).phys b * 16777216 + p % 16777216
  | _ => (64 + rmSite e) * 2 ^ 64 + p

/-- Whether a DPA lies in the remap table itself, which is never remapped (log 2). -/
def Dev.inRemap (d : Dev) (dpa : Nat) : Bool := d.rmLgn != 0 && decide (d.rmTable ≤ dpa) && decide (dpa < d.rmTable + 32 * 2 ^ d.rmLgn)

/-- Whether an untranslated access needs no remap entry: in the table itself, and before there is a table, when the resident level's
addresses are used as they are (R324, R394; log 2). -/
def Dev.rmFree (d : Dev) (dpa : Nat) : Bool := d.rmLgn == 0 || d.inRemap dpa

/-- The location of a DPA that an agent names itself, none where its lookup finds no entry: without a table there is none (R348). -/
def Dev.dpaLook (d : Dev) (dpa : Nat) : Option Nat :=
  if d.inRemap dpa then some dpa else (d.rmLook dpa).map fun e => d.locOf e (dpa % 65536)

/-- The location of a DPA that the device reads for itself; a DPA without an entry has one that nothing is ever written to. -/
def Dev.dpaLoc (d : Dev) (dpa : Nat) : Nat := (d.dpaLook dpa).getD (2 ^ 64 + dpa)

/-- The location of an untranslated address. -/
def Dev.rawLoc (d : Dev) (dpa : Nat) : Nat := if d.rmFree dpa then dpa else d.dpaLoc dpa

/-- Whether the page of a DPA is turning: every new lookup of it waits (R372). -/
def Dev.turningAt (d : Dev) (dpa : Nat) : Bool := !d.inRemap dpa && (d.rmLook dpa).any rmTurning

/-- Whether a page of `n` bytes from a DPA on is turning. -/
def Dev.turnsIn (d : Dev) (dpa n : Nat) : Bool :=
  (List.range ((dpa + n - 1) / 65536 - dpa / 65536 + 1)).any fun i => d.turningAt (65536 * (dpa / 65536 + i))

/-- The space of a location. -/
def spaceOf (loc : Nat) : Nat := loc / 2 ^ 64

/-- Whether a location lies in flash. -/
def inFlash (loc : Nat) : Bool := decide (48 ≤ spaceOf loc) && decide (spaceOf loc < 64)
/-- Whether a location lies in the memory behind a pool port. -/
def inPool (loc : Nat) : Bool := spaceOf loc == 64 || spaceOf loc == 65

/-- The first DPA page, looking at `n` of them from `i` on, whose entry places a location in it. -/
def Dev.findPage (d : Dev) (loc : Nat) : Nat → Nat → Option Nat
  | 0, _ => none
  | n + 1, i =>
    match d.rmLook (65536 * i) with
    | some e => if d.locOf e 0 ≤ loc ∧ loc < d.locOf e 0 + 65536 then some i else d.findPage loc n (i + 1)
    | none => d.findPage loc n (i + 1)

/-- The DPA page of a location. -/
def Dev.pageOf (d : Dev) (loc : Nat) : Option Nat := if d.rmLgn = 0 then none else d.findPage loc (2 ^ d.rmLgn) 0

/-- The DPA of a location: the location itself where no entry is needed, otherwise through the entry that names it. -/
def Dev.dpaOf (d : Dev) (loc : Nat) : Option Nat :=
  if spaceOf loc = 0 then (if d.rmFree loc then some loc else none)
  else (d.pageOf loc).map fun i => 65536 * i + (loc - d.locOf (d.rmEnt (65536 * i)) 0)

/-! ### Tags and lines by location (R16, R343, R344, R353) -/

/-- A pool line whose tag-valid bit is clear reads with this tag (R344). -/
def tagPoolRaw : Tag := 0x0017F0

/-- Where the tag entry of a pool line lies, in the tag block at TLOC of its page (R344). -/
def Dev.tagEntry (d : Dev) (loc : Nat) : Option Nat :=
  (d.pageOf loc).map fun i =>
    let e := d.rmEnt (65536 * i)
    spaceOf loc * 2 ^ 64 + rmTloc e + 4 * ((loc - d.locOf e 0) / 128)

/-- The tag stored for a line: beside it, or for a pool line in its tag entry, once the device has written it (R16, R344; log 30). -/
def Dev.tagAt (d : Dev) (loc : Nat) : Tag :=
  if inPool loc then
    if d.tagValid.contains (loc / 128) then
      match d.tagEntry loc with
      | some a => .ofNat 24 (d.mem.readN a 4)
      | none => d.mem.tag loc
    else tagPoolRaw
  else d.mem.tag loc

/-- The device with the tag of a line stored, and its tag-valid bit set (R344). -/
def Dev.putTag (d : Dev) (loc : Nat) (t : Tag) : Dev :=
  if inPool loc then
    let d := { d with tagValid := if d.tagValid.contains (loc / 128) then d.tagValid else loc / 128 :: d.tagValid }
    match d.tagEntry loc with
    | some a => { d with mem := d.mem.writeN a 4 t.toNat }
    | none => { d with mem := d.mem.setTag loc t }
  else { d with mem := d.mem.setTag loc t }

/-- Whether a line comes back as one that cannot be corrected: a flash read, or the answer of a pool or a host with poison (R343, R353;
log 119). -/
def Dev.lineBad (d : Dev) (loc : Nat) : Bool := d.flashBad.contains (loc / 128)

/-- A flash line as the staging cache holds it: VAL becomes STG and CMP 0; a line that ECC cannot correct is POI
(R353). -/
def Dev.stageLine (d : Dev) (loc : Nat) : Line × Tag :=
  let t := d.mem.tag loc
  if d.lineBad loc then (0, withCmp 0 t.toPoi)
  else (d.mem.line loc, withCmp 0 (if t.cls = cVAL then t.withCls cSTG else t))

/-- What a host that holds a line has made of it (R343). -/
def Dev.hostModified (d : Dev) (loc : Nat) : Option Line := (d.hostLines.find? fun (a, _) => a == loc / 128).bind (·.2)

/-- The line of a location outside compressed pages, as a device agent reads it: the staged copy of a flash line, what a host holds
modified, or the line at its home (R343, R353). -/
def Dev.lineAt (d : Dev) (loc : Nat) : Line × Tag :=
  if inFlash loc then
    match d.staged.find? fun (a, _, _) => a == loc / 128 with
    | some (_, l, t) => (l, t)
    | none => d.stageLine loc
  else if d.lineBad loc then (0, (d.tagAt loc).toPoi)
  else ((d.hostModified loc).getD (d.mem.line loc), if (d.hostModified loc).isSome then (d.tagAt loc).bumpGen.raw else d.tagAt loc)

/-- The device after a host's copy of a line came back and the host holds the line no longer: what it had modified, or POI where it
came back with poison (R343). -/
def Dev.hostTake (d : Dev) (loc : Nat) : Dev :=
  match d.hostLines.find? fun (a, _) => a == loc / 128 with
  | none => d
  | some (_, c) =>
    let d := { d with hostLines := d.hostLines.filter fun (a, _) => a != loc / 128 }
    match c with
    | none => d
    | some l =>
      if d.lineBad loc then
        ({ d with mem := d.mem.setLine loc 0, flashBad := d.flashBad.filter (· != loc / 128) } : Dev).putTag loc (d.tagAt loc).toPoi
      else ({ d with mem := d.mem.setLine loc l } : Dev).putTag loc (d.tagAt loc).bumpGen.raw

/-- The device with the tokens of a line replaced; a line all of whose tokens are at its home slice needs no entry. -/
def Dev.setTokens (d : Dev) (t : LineTokens) : Dev :=
  let r := d.tokens.filter (·.line != t.line)
  { d with tokens := if t.counts = [(0, 256)] ∧ t.owner = 0 ∧ t.failed = [] ∧ t.persist = [] then r else t :: r }

/-- `n` bytes of one line at a location, as a device agent reads them (R343, R353). -/
def Dev.readAt (d : Dev) (loc n : Nat) : Nat := (d.lineAt loc).1.toNat / 2 ^ (8 * (loc % 128)) % 2 ^ (8 * n)

/-- The device with every token of a line at its home slice, what is in the arbiter kept: a landing, the Darner's step, or any other write
of a device agent there (R334, R336). -/
def Dev.tokensHome (d : Dev) (loc : Nat) : Dev :=
  match d.tokens.find? (·.line == loc / 128) with
  | none => d
  | some t => d.setTokens { t with counts := [(0, 256)], owner := 0 }

/-- `n` bytes of one line of a device table written where the table lies: what a host holds of the line comes back first, and flash is
written by installs alone (R15, R334, R343). -/
def Dev.writeAt (d : Dev) (loc n v : Nat) : Dev :=
  if inFlash loc then d
  else
    let d := (d.hostTake loc).tokensHome loc
    { d with mem := d.mem.writeN loc n v }

/-- The device with one field of a DPA's entry replaced, `n` bits at `lo`. -/
def Dev.rmSet (d : Dev) (dpa lo n v : Nat) : Dev :=
  let d := d.hostTake (d.rmAt dpa)
  let e := (d.rmEnt dpa).toNat
  let e' := e - e / 2 ^ lo % 2 ^ n * 2 ^ lo + v % 2 ^ n * 2 ^ lo
  { d with mem := d.mem.writeN (d.rmAt dpa) 32 e' }

/-- The device with a line of a location outside compressed pages written, tag and data as one, by the home slice, which then has every
token of the line (R334, R343, R344). Flash is written by installs alone (R15). -/
def Dev.putLineAt (d : Dev) (loc : Nat) (l : Line) (t : Tag) : Dev :=
  if inFlash loc then d
  else
    let d := (d.hostTake loc).tokensHome loc
    ({ d with mem := d.mem.setLine loc l, flashBad := d.flashBad.filter (· != loc / 128) } : Dev).putTag loc t

/-- The die where a line is homed (R12), or none for a location that no die caches for another. Staged flash lines spread
over the dies that hold the staging cache (log 15). -/
def homeDie (loc : Nat) : Option Nat :=
  let sp := spaceOf loc
  if sp < 16 then none
  else if sp < 32 then some (sp - 16)
  else if sp < 48 then some (sp - 32)
  else if sp < 64 then some ([0, 2, 3, 5].getD (loc / 128 % 4) 0)
  else if sp = 64 then some 1
  else if sp = 65 then some 4
  else if sp < 256 then none
  else some 255

/-! ### The walk (R307 to R310) -/

/-- Level, lowest index bit and index width of each level (Table 17.1). -/
def walkLevels : List (Nat × Nat × Nat) := [(0, 48, 8), (1, 39, 9), (2, 30, 9), (3, 21, 9), (4, 16, 5), (5, 12, 4)]

/-- log2 of the page a leaf of a level maps. -/
def levelShift (lv : Nat) : Nat :=
  match lv with
  | 2 => 30
  | 3 => 21
  | 4 => 16
  | _ => 12

/-- Whether a partition's walk may name a frame (R388). -/
def frameIn (p : Option Part) (frame : Nat) : Bool :=
  match p with
  | none => true
  | some p =>
    let base := (p.ent.extractLsb' 448 64).toNat
    base ≤ frame && frame < base + 65536 * (p.ent.extractLsb' 384 64).toNat

/-- Whether a leaf's key id is allowed (R388). -/
def keyIn (p : Option Part) (k : BitVec 8) : Bool :=
  match p with
  | none => true
  | some p => k == 0 || (p.ent.extractLsb' 280 8 ≤ k && k ≤ p.ent.extractLsb' 272 8)

/-- Whether the remap entry of an access's page is one the leaf allows: placement class (R347), host coherence (R342),
the 4 KiB rule (R307) and the partition's flash blocks (R388). -/
def Dev.placementOk (d : Dev) (p : Option Part) (pte : BitVec 128) (lv dpa : Nat) : Bool :=
  if pteHdev pte ≠ d.num then lv != 5 || ptePcls pte == 2
  else match d.rmLook dpa with
    | none => lv != 5 || ptePcls pte == 2
    | some e =>
      let l := rmLayer e
      (match ptePcls pte with
        | 0 => l == 3
        | 1 => l == 1 || l == 2
        | 2 => l == 4 || l == 2
        | _ => l == 1 || l == 2 || l == 4)
      && (lv != 5 || ptePcls pte == 2 || l == 4)
      && (pteCache pte != 2 || l == 4 || (l == 2 && ((d.cfg 3214 && !d.cfg 3212) || (d.cfg 3215 && !d.cfg 3213))))
      && (match p with
        | none => true
        | some p =>
          let b := rmLoc e / 16777216
          let lo := (p.ent.extractLsb' 224 16).toNat
          l != 3 || (lo ≤ b && b < lo + (p.ent.extractLsb' 208 16).toNat))

/-- A leaf's own checks (R309). -/
def leafOk (p : Option Part) (pte : BitVec 128) (sh : Nat) : Bool :=
  pte.extractLsb' 64 24 == 0 && pte.extractLsb' 6 2 == 0 && pteCache pte != 3 && (!pteX pte || pteIcc pte)
    && (!pteIcc pte || !pteW pte) && pteFrame pte % 2 ^ sh == 0 && frameIn p (pteFrame pte) && keyIn p (pteKey pte)

/-- The walk of an address from a table: the leaf and its level, or the fault (R309, R310). -/
def Dev.walk (d : Dev) (p : Option Part) (va : Nat) : List (Nat × Nat × Nat) → Nat → Except Flt (BitVec 128 × Nat)
  | [], _ => .error (fltBadEntry 5)
  | (lv, sh, nb) :: rest, tbl =>
    match d.dpaLook (tbl + 16 * (va / 2 ^ sh % 2 ^ nb)) with
    | none => .error (fltWalkAbsent lv)
    | some a =>
    if (d.lineAt a).2.cls = cPOI then .error (fltWalkPoison lv)
    else
      let e : BitVec 128 := .ofNat 128 ((d.lineAt a).1.toNat / 2 ^ (8 * (a % 128)))
      if !pteV e then .error (fltNotPresent lv)
      else if pteType e = 1 then
        match rest with
        | [] => .error (fltBadEntry lv)
        | (l', s', n') :: rest' =>
          if pteFrame e % (16 * 2 ^ n') ≠ 0 ∨ frameIn p (pteFrame e) = false then .error (fltBadEntry lv)
          else d.walk p va ((l', s', n') :: rest') (pteFrame e)
      else if pteType e = 2 ∧ 2 ≤ lv then
        if leafOk p e sh && d.placementOk p e lv (pteFrame e + va % 2 ^ sh) then .ok (e, lv) else .error (fltBadEntry lv)
      else .error (fltBadEntry lv)

/-- Whether a walk comes to a table in a page that is turning, and so waits (R372). -/
def Dev.walkTurns (d : Dev) (va : Nat) : List (Nat × Nat × Nat) → Nat → Bool
  | [], _ => false
  | (_, sh, nb) :: rest, tbl =>
    let at_ := tbl + 16 * (va / 2 ^ sh % 2 ^ nb)
    d.turningAt at_ || (d.dpaLook at_).any fun a =>
      let e : BitVec 128 := .ofNat 128 ((d.lineAt a).1.toNat / 2 ^ (8 * (a % 128)))
      pteV e && pteType e == 1 && d.walkTurns va rest (pteFrame e)

/-- On whose behalf an access translates: the key of its cached translations, its root table, its partition, and whether it
is untranslated (R324). Resident accesses of core c have key 4096 + c. -/
structure Via where
  key : Nat
  root : Word
  part : Nat
  raw : Bool
  deriving DecidableEq, Repr

/-- A context's own translation. -/
def Dev.viaCtx (d : Dev) (c : Nat) : Via :=
  match d.ctx c with
  | some x => ⟨c, x.ptroot, x.part, false⟩
  | none => ⟨c, 0, 0, false⟩

/-- The translation of the acting strand (R322, R324). -/
def State.via (s : State) : Via :=
  if s.atResident then ⟨4096 + s.core.num, s.core.rroot, 0, s.core.rroot == 0⟩ else s.dev.viaCtx s.core.ctxId

/-- A translated address: whether it lies in the scratchpad, its location there or in memory, its leaf, the level of that,
its DPA, whether it was used untranslated, and whether its remap entry was changed against the rules (R349). -/
structure Tr where
  spad : Bool
  loc : Nat
  pte : BitVec 128
  lv : Nat
  dpa : Nat
  va : Word
  raw : Bool
  breach : Bool
  deriving DecidableEq, Repr

/-- Whether an address lies in the scratchpad window (R119). -/
def inWindow (va : Word) : Bool := va.extractLsb' 22 42 == BitVec.allOnes 42

/-- A scratchpad offset: the address modulo 4 MiB (R119, R224). -/
def spadOff (va : Word) : Nat := va.toNat % Config.spadBytes

/-- A byte of the scratchpad as a translated address. -/
def Tr.ofSpad (va : Word) : Tr := ⟨true, spadOff va, pteRaw, 0, 0, va, false, false⟩

/-- Whether a translated address lies in a page of this device's memory. -/
def Tr.here (tr : Tr) (dev : BitVec 8) : Bool := !tr.spad && (tr.raw || pteHdev tr.pte == dev)

/-- The cached translation of an address (R312). -/
def Dev.cached (d : Dev) (key : Nat) (va : Word) : Option Xlat :=
  d.tlb.find? fun x => x.ctx == key && x.base.toNat / 2 ^ x.lg == va.toNat / 2 ^ x.lg

/-- The leaf of an address and the device with the translation cached. -/
def Dev.leafOf (d : Dev) (v : Via) (va : Word) : Except Flt (Xlat × Dev) :=
  match d.cached v.key va with
  | some x => .ok (x, d)
  | none =>
    if v.root = 0 then .error (fltNotPresent 0)
    else
      match d.walk (d.part v.part) (va.toNat % 2 ^ 56) walkLevels v.root.toNat with
      | .error f => .error f
      | .ok (pte, lv) =>
        let lg := Nat.min 16 (levelShift lv)
        let x : Xlat := ⟨v.key, .ofNat 64 (va.toNat / 2 ^ lg * 2 ^ lg), lg, lv, pte⟩
        .ok (x, { d with tlb := x :: d.tlb })

/-- Whether the leaf of an address has to be walked for, through a page that is turning. -/
def Dev.leafTurns (d : Dev) (v : Via) (va : Word) : Bool :=
  v.root != 0 && (d.cached v.key va).isNone && d.walkTurns (va.toNat % 2 ^ 56) walkLevels v.root.toNat

/-- Permissions, copy-on-write and the weights check of a leaf (R310 steps 3 to 5). -/
def needFault (n : Need) (x : Xlat) (dpa : Nat) : Option Flt :=
  if n.x && !pteX x.pte then some (fltNoExec x.lv)
  else if n.r && !pteR x.pte then some (fltNoRead x.lv)
  else if n.w && !pteW x.pte then some (fltNoWrite x.lv)
  else if n.cow && n.w && pteCow x.pte then some (fltCow x.lv)
  else if n.stg && n.w && ptePcls x.pte == 0 then some (fltStgWrite 0 dpa)
  else none

/-- The entry that a remap lookup uses, whether it was changed against the rules, and the device with the entry cached: an entry that
was looked up before stays in use until a `tlbi` or the device itself discards it (R348, R349). The lookup of an untranslated access
leaves no entry behind, since no `tlbi` would discard it. -/
def Dev.place (d : Dev) (dpa : Nat) (raw : Bool) : Option (BitVec 256 × Bool × Dev) :=
  match d.rmCache.find? (·.1 == rmPage dpa), d.rmLook dpa with
  | some (_, c), some e => some (e, rmPlace e != c || d.breached.contains (rmPage dpa), d)
  | some (_, c), none => some (c, true, d)
  | none, some e => some (e, d.breached.contains (rmPage dpa), if raw then d else { d with rmCache := (rmPage dpa, rmPlace e) :: d.rmCache })
  | none, none => none

/-- A page of this device's memory at an address: where it lies with the entry cached, or the fault. A lookup of a page that is turning
waits, which is none; a command that holds counts on the page does not (R372). Flash is no destination (R15). -/
def Dev.trHere (d : Dev) (n : Need) (held : Bool) (pte : BitVec 128) (lv dpa : Nat) (va : Word) (raw : Bool) : Except Flt (Option (Tr × Dev)) :=
  if raw && d.rmFree dpa then .ok (some (⟨false, dpa, pte, lv, dpa, va, true, false⟩, d))
  else
    match d.place dpa raw with
    | none => .error (fltRemapAbsent lv)
    | some (e, breach, d') =>
      let loc := d.locOf e (dpa % 65536)
      if !held && rmTurning e then .ok none
      else if raw && n.w && n.stg && inFlash loc then .error (fltStgWrite 0 dpa)
      else .ok (some (⟨false, loc, pte, lv, dpa, va, raw, breach⟩, d'))

/-- An address under a leaf: where it lies, or the fault (R310). -/
def Dev.trFrom (d : Dev) (x : Xlat) (n : Need) (held : Bool) (va : Word) : Except Flt (Option (Tr × Dev)) :=
  let dpa := pteFrame x.pte + va.toNat % 2 ^ levelShift x.lv
  match needFault n x dpa with
  | some f => .error f
  | none =>
    if pteHdev x.pte ≠ d.num then
      .ok (some (⟨false, (256 + (pteHdev x.pte).toNat) * 2 ^ 64 + dpa, x.pte, x.lv, dpa, va, false, false⟩, d))
    else d.trHere n held x.pte x.lv dpa va false

/-- Whether an address is no canonical virtual address (R307). -/
def badRange (va : Word) : Bool := va.extractLsb' 55 9 != 0 && va.extractLsb' 55 9 != BitVec.allOnes 9

/-- The translation of an address with the device's caches updated, or none where its page is turning. A fetch never reaches the
scratchpad window (R111, R119). -/
def Dev.translate (d : Dev) (v : Via) (n : Need) (va : Word) : Except Flt (Option (Tr × Dev)) :=
  if inWindow va && !n.x then .ok (some (.ofSpad va, d))
  else if v.raw then d.trHere n false pteRaw 0 va.toNat va true
  else if badRange va then .error fltRange
  else if d.leafTurns v va then .ok none
  else
    match d.leafOf v va with
    | .error f => .error f
    | .ok (x, d) => d.trFrom x n false va

/-! ### Compressed pages (R367, R368, R370) -/

/-- The sector map of a compressed line's block: its pool, the location of its entry, its 4 KiB block number in the page
(R367). None where the page is not compressed. -/
def Dev.sector (d : Dev) (tr : Tr) : Option (Nat × Nat) :=
  if tr.spad || !pteCmpr tr.pte || tr.raw || !tr.here d.num then none
  else match d.rmLook tr.dpa with
    | none => none
    | some e =>
      let at_ := d.locOf e 0 + 16 * (tr.dpa % 65536 / 4096)
      match rmLayer e with
      | 2 => some (rmSite e, at_)
      | 4 => some (6 + rmSite e, at_)
      | _ => none

/-- A sector-map entry. -/
def Dev.sectorEnt (d : Dev) (at_ : Nat) : BitVec 128 := .ofNat 128 (d.readAt at_ 16)
/-- ST of a sector-map entry; 4 to 7 read as poisoned (Table 19.9). -/
def secSt (e : BitVec 128) : Nat := (e.extractLsb' 0 3).toNat
def secPsn (e : BitVec 128) : Bool := e.getLsbD 3 || 4 ≤ secSt e
/-- Sectors an entry holds. -/
def secCount (e : BitVec 128) : Nat :=
  match secSt e with
  | 1 => 1
  | 2 => 2
  | 3 => 4
  | _ => 0
def secIdx (e : BitVec 128) (k : Nat) : Nat := (e.extractLsb' (8 + 30 * k) 30).toNat
/-- CMP of every line of a block (R367). -/
def secCmp (e : BitVec 128) : BitVec 2 := if secSt e = 1 ∨ secSt e = 2 then 1 else if secSt e = 3 then 2 else 0

/-- The location of the sector of index `i` of a pool (R367). -/
def Dev.sectorLoc (d : Dev) (pool i : Nat) : Nat :=
  (if pool < 6 then 32 + pool else 58 + pool) * 2 ^ 64 + (d.spbase[pool]?.getD 0).toNat / 1024 * 1024 + 1024 * i

/-- Where the contents of a stream are kept beside its bytes, by its first sector (log 127). -/
def blockLoc (pool : Nat) (e : BitVec 128) : Nat := (80 + pool) * 2 ^ 64 + secIdx e 0 * 4096

/-- The location of line `i` of a block that is held uncompressed, in its four sectors. -/
def Dev.plainLoc (d : Dev) (pool : Nat) (e : BitVec 128) (i : Nat) : Nat := d.sectorLoc pool (secIdx e (i / 8)) + 128 * (i % 8)

/-- Whether an allocated block is held as a stream. -/
def Dev.isPacked (d : Dev) (pool : Nat) (e : BitVec 128) : Bool := d.packed.contains (blockLoc pool e)

/-- The lines of a block with their tags, CMP at 0 (R367). -/
def Dev.blockLines (d : Dev) (pool : Nat) (e : BitVec 128) : List (Line × Tag) :=
  (List.range 32).map fun i =>
    if secCount e = 0 then (0, Memory.tag0)
    else if d.isPacked pool e then (d.mem.line (blockLoc pool e + 128 * i), d.mem.tag (blockLoc pool e + 128 * i))
    else ((d.lineAt (d.plainLoc pool e i)).1, withCmp 0 (d.mem.tag (d.plainLoc pool e i)))

/-- Sectors a block of a given compressed size needs (R368). -/
def sectorsFor (size : Nat) : Nat := if size ≤ 1024 then 1 else if size ≤ 2048 then 2 else 4

/-- Sectors that a block's contents need (R368). -/
def blockNeed (ls : List (Line × Tag)) : Nat := sectorsFor (Config.compressedSize ls)

/-- Byte `k` of the stream of a block lies at this location. -/
def Dev.streamLoc (d : Dev) (pool : Nat) (e : BitVec 128) (k : Nat) : Nat := d.sectorLoc pool (secIdx e (k / 1024)) + k % 1024

/-- Whether an allocated block that is not poisoned fails its CRC, its sectors not holding its stream, or meets an ECC error in its sectors
(R369). -/
def Dev.blockCorrupt (d : Dev) (pool : Nat) (e : BitVec 128) : Bool :=
  !secPsn e && secCount e != 0 &&
    ((List.range (8 * secCount e)).any (fun i => d.lineBad (d.plainLoc pool e i)) ||
    if d.isPacked pool e then
      let ls := d.blockLines pool e
      (List.range (1024 * blockNeed ls)).any fun k => d.readAt (d.streamLoc pool e k) 1 != (Config.streamByte ls k).toNat
    else secSt e != 3)

/-- The contents of a block stored in its first sectors: as a stream, or escaped with each line in place (R367, R368). The tags of an escaped
block's lines stand beside them, on an L-P pool too, where its 4 KiB fill the four sectors (log 153). -/
def Dev.storeBlock (d : Dev) (pool : Nat) (e : BitVec 128) (ls : List (Line × Tag)) : Dev :=
  let n := blockNeed ls
  let base := blockLoc pool e
  let d := (List.range (8 * n)).foldl (fun d i => d.hostTake (d.plainLoc pool e i)) d
  -- flash is written by installs alone (R15)
  if inFlash (d.plainLoc pool e 0) then d
  else if n = 4 then
    let mem := ls.zipIdx.foldl (fun m ((l, t), i) => (m.setLine (d.plainLoc pool e i) l).setTag (d.plainLoc pool e i) t) d.mem
    { d with mem := mem, packed := d.packed.filter (· != base) }
  else
    let mem := ls.zipIdx.foldl (fun m ((l, t), i) => (m.setLine (base + 128 * i) l).setTag (base + 128 * i) t) d.mem
    let mem := (List.range (1024 * n)).foldl (fun m k => m.setByte (d.streamLoc pool e k) (Config.streamByte ls k)) mem
    { d with mem := mem, packed := if d.packed.contains base then d.packed else base :: d.packed }

/-- The line at its home (R252), as a device access finds it. -/
def Dev.homeLine (d : Dev) (tr : Tr) : Line × Tag :=
  match d.sector tr with
  | some (pool, at_) =>
    let e := d.sectorEnt at_
    if secPsn e then (0, withCmp (secCmp e) (Memory.tag0).toPoi)
    else
      let (l, t) := (d.blockLines pool e).getD (tr.dpa % 4096 / 128) (0, Memory.tag0)
      (l, withCmp (secCmp e) t)
  | none => d.lineAt tr.loc

/-- The free-sector stack's entry: a sector index in 4 bytes (R370; log 16). -/
def Dev.spEntry (d : Dev) (pool k : Nat) : Nat :=
  d.readAt (d.dpaLoc ((d.spstk[pool]?.getD 0).toNat / 4096 * 4096 + 4 * k)) 4 % 2 ^ 30

/-- A device register of the pools with one value set. -/
def setPool (v : Vector Word 8) (k : Nat) (w : Word) : Vector Word 8 := if h : k < 8 then v.set k w h else v

/-- The device with one more block stored escaped counted (R368). -/
def Dev.countEscape (d : Dev) (pool : Nat) (ls : List (Line × Tag)) : Dev :=
  if blockNeed ls = 4 then { d with spesc := setPool d.spesc pool (d.spesc[pool]?.getD 0 + 1) } else d

/-- The ST value of a number of sectors. -/
def stFor (n : Nat) : Nat := if n = 4 then 3 else n

/-- The device with a line of a compressed block written, or the fault of the write (R368). -/
def Dev.putCompressed (d : Dev) (pool at_ : Nat) (tr : Tr) (l : Line) (t : Tag) : Except Flt Dev :=
  let e := d.sectorEnt at_
  let blk := tr.dpa / 4096 * 4096
  let ls := (d.blockLines pool e).set (tr.dpa % 4096 / 128) (l, withCmp 0 t)
  let n := blockNeed ls
  if secPsn e then .error (fltPoison 0 blk)
  else if secSt e = 0 then
    let top := (d.sptop[pool]?.getD 0).toNat
    if top < n then .error (fltExhausted blk)
    else
      let ix (k : Nat) : Nat := if k < n then d.spEntry pool (top - 1 - k) else 0
      let e' : Nat := ix 3 * 2 ^ 98 + ix 2 * 2 ^ 68 + ix 1 * 2 ^ 38 + ix 0 * 2 ^ 8 + stFor n
      let d := { d with sptop := setPool d.sptop pool (.ofNat 64 (top - n)) }
      .ok (((d.writeAt at_ 16 e').countEscape pool ls).storeBlock pool (.ofNat 128 e') ls)
  else if n > secCount e then .error (fltOverflow blk)
  else .ok ((d.countEscape pool ls).storeBlock pool e ls)

/-! ### Code objects (R331, Table 17.13) -/

/-- The DPA of an object's table entry. -/
def Dev.objAt (d : Dev) (i : Nat) : Nat := d.cotab.toNat / 4096 * 4096 + 32 * i

/-- An object's table entry. -/
def Dev.objEnt (d : Dev) (i : Nat) : BitVec 256 := .ofNat 256 (d.readAt (d.dpaLoc (d.objAt i)) 32)

def objMdpa (e : BitVec 256) : Nat := (e.extractLsb' 192 64).toNat
def objBase (e : BitVec 256) : Nat := (e.extractLsb' 128 64).toNat
def objPages (e : BitVec 256) : Nat := (e.extractLsb' 96 32).toNat
/-- STATE 1 good, 2 bad; 0 and 3 are free. -/
def objState (e : BitVec 256) : Nat := (e.extractLsb' 0 2).toNat

/-- Whether a registered object holds a DPA. -/
def objHolds (e : BitVec 256) (dpa : Nat) : Bool :=
  (objState e == 1 || objState e == 2) && objBase e ≤ dpa && dpa < objBase e + 65536 * objPages e

/-- The index of the object that holds a DPA, looking at `n` entries from `i` on. -/
def Dev.findObj (d : Dev) (dpa : Nat) : Nat → Nat → Option Nat
  | 0, _ => none
  | n + 1, i => if objHolds (d.objEnt i) dpa then some i else d.findObj dpa n (i + 1)

/-- The object that holds a DPA; a table at DPA 0 is no table (R324). -/
def Dev.objOf (d : Dev) (dpa : Nat) : Option Nat :=
  if d.cotab.toNat / 4096 = 0 then none else d.findObj dpa (2 ^ (d.cotab.toNat % 32)) 0

/-- The device with the object that holds a DPA marked bad (R332). -/
def Dev.markBad (d : Dev) (dpa : Nat) : Dev :=
  match d.objOf dpa with
  | none => d
  | some i => d.writeAt (d.dpaLoc (d.objAt i)) 32 ((d.objEnt i).toNat / 4 * 4 + 2)

/-- Whether the table of code objects has an entry at a DPA. -/
def Dev.objIn (d : Dev) (dpa : Nat) : Bool :=
  d.cotab.toNat / 4096 != 0 && decide (d.objAt 0 ≤ dpa) && decide (dpa < d.objAt 0 + 32 * 2 ^ (d.cotab.toNat % 32))

/-- Registration by a write that reaches the entry at a DPA: an object whose entry then reads STATE 1 loses the verified bits of its
pages (R331). -/
def Dev.noteObject (d : Dev) (dpa : Nat) : Dev :=
  if d.objIn dpa then
    let e := d.objEnt ((dpa - d.objAt 0) / 32)
    if objState e = 1 then
      { d with verified := d.verified.filter fun p => !(decide (rmPage (objBase e) ≤ p) && decide (p < rmPage (objBase e) + objPages e)) }
    else d
  else d

/-- The device after a line of its memory was written at a DPA: its page, and every object it registers, are no longer verified (R331,
R332). -/
def Dev.unverifyAt (d : Dev) (dpa : Nat) : Dev :=
  (List.range 4).foldl (fun d k => d.noteObject (dpa / 128 * 128 + 32 * k)) { d with verified := d.verified.filter (· != rmPage dpa) }

/-- As `unverifyAt`, by location. -/
def Dev.unverify (d : Dev) (loc : Nat) : Dev := (d.dpaOf loc).elim d d.unverifyAt

/-- The device after a write performed at a page of its memory: verified bits (R332), and the dirty bit under a translation with DTE = 1
(R333). -/
def Dev.wrote (d : Dev) (dpa : Nat) (dte : Bool) : Dev :=
  let d := d.unverifyAt dpa
  if dte && (d.rmLook dpa).isSome then d.rmSet dpa 86 1 1 else d

/-- Whether a write through a translation sets the page's dirty bit (R333). -/
def Tr.dte (tr : Tr) : Bool := pteDte tr.pte && !tr.raw

/-- The device after a write performed at a translated line's home. -/
def Dev.markWrite (d : Dev) (tr : Tr) : Dev := if tr.here d.num then d.wrote tr.dpa tr.dte else d

/-- The device with a line written at its home, or the fault of the write. -/
def Dev.putHome (d : Dev) (tr : Tr) (l : Line) (t : Tag) : Except Flt Dev :=
  match d.sector tr with
  | some (pool, at_) => d.putCompressed pool at_ tr l t
  | none => .ok (d.putLineAt tr.loc l t)

/-! ### Far copies (R252) -/

/-- A core's far copy of a line. -/
def Core.farAt (c : Core) (loc : Nat) : Option FarCopy := c.far.find? (·.loc == loc / 128)

/-- Whether a core uses a far copy of a line: one homed off the core's die, in a page that allows them (Table 17.2, R342). An
untranslated access uses a far copy that is present, and makes none (log 128). -/
def farMay (core : Core) (tr : Tr) : Bool :=
  !tr.spad && !tr.breach && (if tr.raw then (core.farAt tr.loc).isSome else pteCache tr.pte == 0 && !pteCmpr tr.pte) &&
    (match homeDie tr.loc with
      | none => false
      | some d => d != core.die)

/-- A far copy of a translated line. -/
def Tr.copyOf (tr : Tr) (dev : BitVec 8) (ctx : Nat) (l : Line) (t : Tag) (old : Option FarCopy) (bytes : BitVec 128) : FarCopy where
  loc := tr.loc / 128
  va := .ofNat 64 (tr.va.toNat / 128 * 128)
  ctx := ctx
  data := l
  tag := t
  dirty := old.elim 0 (·.dirty) ||| bytes
  dpa := if tr.here dev then some (tr.dpa / 128 * 128) else none
  dte := old.any (·.dte) || (bytes != 0 && tr.dte)

/-- A core with a far copy put in place of any other of its line. -/
def Core.putFar (c : Core) (f : FarCopy) : Core := { c with far := f :: c.far.filter (·.loc != f.loc) }

/-- A core without a far copy of a line. -/
def Core.dropFar (c : Core) (loc : Nat) : Core := { c with far := c.far.filter (·.loc != loc / 128) }

/-- The device after the dirty bytes of a far copy were merged at their home, where the writes then perform; the home's GEN and CMP stay
(R252, R332, R333). A line that has become POI there stays POI unless every byte of it is written (R380). -/
def Dev.farBack (d : Dev) (f : FarCopy) : Dev :=
  if f.dirty = 0 then d
  else
    let loc := f.loc * 128
    let (l, t) := d.lineAt loc
    let d := if t.cls = cPOI ∧ f.dirty ≠ BitVec.allOnes 128 then d
      else d.putLineAt loc (mergeBytes f.dirty f.data l) (t.retag f.tag.fmt f.tag.scl f.tag.cls f.tag.pln)
    f.dpa.elim d fun a => d.wrote a f.dte

/-- The agent that homes a location, as the write-backs of one core see it: a die, or another device. -/
def homeAgent (loc : Nat) : Nat × Option Nat := (if spaceOf loc < 256 then 0 else spaceOf loc, homeDie loc)

/-- Whether a write-back on its way is one of a core to the home of a location. -/
def WriteBack.toward (w : WriteBack) (core loc : Nat) : Bool := w.core == core && homeAgent (w.copy.loc * 128) == homeAgent loc

/-- A write-back put among others in the order of sending. -/
def insertBack (w : WriteBack) : List WriteBack → List WriteBack
  | [] => [w]
  | x :: r => if w.seq < x.seq then w :: x :: r else x :: insertBack w r

/-- The device after what a core sent earlier to the home of a location arrived there, in order (R339). -/
def Dev.landBefore (d : Dev) (core loc : Nat) : Dev :=
  let hit (w : WriteBack) : Bool := w.toward core loc
  let ws := (d.clasps.flatMap fun h => h.wbs.filter hit).foldr insertBack []
  let d := ws.foldl (fun d w => d.farBack w.copy) d
  { d with clasps := d.clasps.map fun h => { h with wbs := h.wbs.filter (fun w => !hit w), acks := h.acks + (h.wbs.filter hit).length } }

/-- The device after a far copy of a core went back, behind what that core had sent to the same home (R339). -/
def Dev.sendBack (d : Dev) (core : Nat) (f : FarCopy) : Dev := if f.dirty = 0 then d else (d.landBefore core (f.loc * 128)).farBack f

/-- The device after the write-backs of a core that are on their way, of the copies that `p` names, arrived at their homes, behind what that
core had sent there before (R339). -/
def Dev.landOwn (d : Dev) (core : Nat) (p : FarCopy → Bool) : Dev :=
  (d.clasps.flatMap (·.wbs)).foldl (fun d w => if w.core == core && p w.copy then d.landBefore core (w.copy.loc * 128) else d) d

/-- The device after the far copies of a core that `p` names were performed at their homes: those on their way first, then the dirty ones. -/
def Dev.backAll (d : Dev) (c : Core) (p : FarCopy → Bool) : Dev :=
  c.far.foldl (fun d f => if p f then d.sendBack c.num f else d) (d.landOwn c.num p)

/-- The state after every far copy of the acting core that `p` names was written back, and dropped where asked. -/
def State.flushFar (s : State) (p : FarCopy → Bool) (drop : Bool) : State :=
  let d := s.dev.backAll s.core p
  let far := if drop then s.core.far.filter (fun f => !p f)
    else s.core.far.map fun f => if p f then { f with dirty := 0, dte := false } else f
  { s with dev := d, core := { s.core with far := far } }

/-- The state after every far copy of one line, on every core, was written back and invalidated (R260). -/
def State.flushLineEverywhere (s : State) (loc : Nat) : State :=
  let s := s.flushFar (·.loc == loc / 128) true
  let d := s.dev.cores.foldl (fun d c => d.backAll c (·.loc == loc / 128)) s.dev
  { s with dev := { d with cores := d.cores.map (·.dropFar loc) } }

/-! ### Access bits and heat (R374 to R377) -/

/-- One sampling event of a core at a page; the heat counted is that of a page of this device (R375). -/
def State.heatEvent (s : State) (tr : Tr) : State :=
  if !(s.dev.heatcfg.getLsbD 16) then s
  else
    let cd := s.core.heatCd - 1
    if cd ≠ 0 then { s with core := { s.core with heatCd := cd } }
    else
      let h := (s.dev.heatcfg.extractLsb' 0 4).toNat
      let g := s.core.heatS
      let b := g.getLsbD 15 ^^ g.getLsbD 14 ^^ g.getLsbD 12 ^^ g.getLsbD 3
      let g := (g <<< 1) ||| (if b then 1 else 0)
      let d := if tr.here s.dev.num && (s.dev.rmLook tr.dpa).isSome then
          s.dev.rmSet tr.dpa 88 8 (Nat.min (rmHeat (s.dev.rmEnt tr.dpa) + 1) 255) else s.dev
      { s with core := { s.core with heatS := g, heatCd := 2 ^ h - 2 ^ (h - 3) + g.toNat % 2 ^ (h - 2) }, dev := d }

/-- The device after an access to a line: a home slice caches a line of host memory under CXL.cache (R342). -/
def Dev.cacheHost (d : Dev) (tr : Tr) : Dev :=
  let port := spaceOf tr.loc - 64
  if pteCache tr.pte == 2 && (spaceOf tr.loc == 64 || spaceOf tr.loc == 65) && !d.cfg (3212 + port) && !d.hostCache.contains (tr.loc / 128) then
    { d with hostCache := tr.loc / 128 :: d.hostCache }
  else d

/-- The state after an access reached a page: ACC of a page of this device set, and one sampling event where the leaf asks for it
(R374, R377). -/
def State.touch (s : State) (tr : Tr) (sample : Bool) : State :=
  if tr.spad || tr.raw then s
  else
    let s := { s with dev := s.dev.cacheHost tr }
    let s := if tr.here s.dev.num && (s.dev.rmLook tr.dpa).isSome then { s with dev := s.dev.rmSet tr.dpa 87 1 1 } else s
    if sample && pteHse tr.pte then s.heatEvent tr else s

/-! ### Lines as an access sees them -/

/-- A fault of the acting strand at an address. -/
def faultAt {α : Type} (kind : BitVec 8) (va : Word) (f : Flt) : M α := do
  let s ← get
  stop (.fault (s.mkFault f.cls f.code (if f.walk then 6 else kind) va f.dpa f.info))

/-- Translation for an access of the acting strand or of an engine (R310, R311); a tag-class fault names the element `ix` (Table 17.6). -/
def translateAt (v : Via) (n : Need) (ix : Nat) (va : Word) : M Tr := do
  let s ← get
  match s.dev.translate v n va with
  | .error f => faultAt n.kind va (if f.cls = 2 then { f with info := ix } else f)
  | .ok none => stop .wait
  | .ok (some (tr, d)) =>
    set { s with dev := d }
    return tr

/-- Translation for an access whose faults name element 0. -/
abbrev translate (v : Via) (n : Need) (va : Word) : M Tr := translateAt v n 0 va

/-- Whether a line is owned by some Shuttle as the destination of a copy in flight (R260). -/
def Core.owns (c : Core) (loc : Nat) : Bool :=
  c.copies.any fun k => k.lines.any fun l => l.own == some (loc / 128)

/-- Whether any core's Shuttle owns a line, or a copy that is saved with its gang does until it has landed after the restore (R236,
R260). -/
def State.owned (s : State) (loc : Nat) : Bool :=
  s.core.owns loc || s.dev.cores.any (·.owns loc) || s.dev.saved.any fun g => !g.out && g.body.owns loc

/-- Whether a write-back of a core has to wait: a Shuttle owns the home line, or that of one which the core sent earlier to the same home
(R260, R339). -/
def State.sendWaitsOf (s : State) (core loc : Nat) : Bool :=
  s.owned loc || s.dev.clasps.any fun h => h.wbs.any fun w => w.toward core loc && s.owned (w.copy.loc * 128)

/-- The same for the acting core. -/
def State.sendWaits (s : State) (loc : Nat) : Bool := s.sendWaitsOf s.core.num loc

/-- Whether writing back some far copies of the acting core has to wait, those on their way among them. -/
def State.backWaits (s : State) (p : FarCopy → Bool) : Bool :=
  (s.core.far.any fun f => p f && f.dirty != 0 && s.sendWaits (f.loc * 128)) ||
    s.dev.clasps.any fun h => h.wbs.any fun w => w.core == s.core.num && p w.copy && s.sendWaits (w.copy.loc * 128)

/-- Whether a line's compressed block has an outstanding fault (R370). -/
def State.blockWaits (s : State) (tr : Tr) : Bool :=
  !tr.spad && pteCmpr tr.pte && s.dev.handles.any fun h => h.frec.cls == 4 && h.frec.dpa.toNat / 4096 == tr.dpa / 4096

/-- An access waits while an engine owns the line, and a write also while its compressed block has an outstanding fault
(R260, R370). -/
def State.mustWait (s : State) (tr : Tr) (write : Bool) : Bool :=
  !tr.spad && (s.owned tr.loc || (write && s.blockWaits tr))

/-- A fault record of the hardware of a device that no core raised (R382). -/
def hardRecord (dev : BitVec 8) (dpa : Nat) : FaultRec := ⟨0, 0, 0, 0, 0, 0xFFFF, dev, 0, 9, 4, 2, 6, .ofNat 64 dpa⟩

/-- The partition whose window holds a DPA, 0 where none does (R387). -/
def Dev.partOfDpa (d : Dev) (dpa : Nat) : Nat :=
  ((List.range' 1 24).find? fun p => (d.part p).any fun q => q.on && frameIn (some q) dpa).getD 0

/-- The block of an address found bad: PSN is set, and DECOMP_ERROR recorded for the partition that holds it, with the record `r` that
the access would raise (R369). -/
def State.badBlock (s : State) (at_ blk : Nat) (r : FaultRec) : State :=
  let d := s.dev.writeAt at_ 16 (s.dev.sectorEnt at_ ||| 8).toNat
  { s with dev := d.updPart (d.partOfDpa blk) fun q => { q with held := q.held ++ [{ r with cls := 4, code := 3, dpa := .ofNat 64 blk, handle := 0 }] } }

/-- An access that finds a compressed block whose CRC fails: the block is marked first, and the access then meets a POI line (R369). -/
def checkBlock (tr : Tr) (kind : BitVec 8) : M Unit := do
  let s ← get
  match s.dev.sector tr with
  | none => return ()
  | some (pool, at_) =>
    if s.dev.blockCorrupt pool (s.dev.sectorEnt at_) then
      stop (.redo fun me s => s.badBlock at_ (tr.dpa / 4096 * 4096) (me (s.mkFault 4 3 kind tr.va 0 0)))

/-- LINE_POISONED recorded for the partition that holds a line (R382). -/
def State.linePoisoned (s : State) (dpa : Nat) (r : FaultRec) : State :=
  { s with dev := s.dev.updPart (s.dev.partOfDpa dpa) fun q =>
      { q with held := q.held ++ [{ r with cls := 6, code := 2, dpa := .ofNat 64 (dpa / 128 * 128), handle := 0 }] } }

/-- A weight line read from flash takes a staging line, unless the staging cache has size 0 (R15, R353). -/
def Dev.stageFill (d : Dev) (tr : Tr) : Dev :=
  if !tr.spad && inFlash tr.loc && d.stage ≠ 0 &&
      !(d.staged.any fun (a, _, _) => a == tr.loc / 128) then
    let (l, t) := d.stageLine tr.loc
    { d with staged := (tr.loc / 128, l, t) :: d.staged }
  else d

/-- An access that finds a flash line which ECC cannot correct: it is staged as POI and recorded first (R353, R382). -/
def checkFlash (tr : Tr) (kind : BitVec 8) : M Unit := do
  let d := (← get).dev
  if !tr.spad && inFlash tr.loc && d.stage != 0 && d.lineBad tr.loc && !d.staged.any (·.1 == tr.loc / 128) then
    stop (.redo fun me s => ({ s with dev := s.dev.stageFill tr } : State).linePoisoned tr.dpa (me (s.mkFault 6 2 kind tr.va 0 0)))

/-- A line of a page whose remap entry was changed against the rules: a free value (R349). -/
def breachLine : M (Line × Tag) := do
  let s ← get
  let (n, t) := s.takeFree
  set t
  return (Config.freeLine n, mkTag 0 127 cRAW 0)

/-! ### Tokens of a line (R334 to R336) -/

/-- Tokens of one holder. -/
def LineTokens.of_ (t : LineTokens) (h : Nat) : Nat := lookupD 0 h t.counts

/-- `n` tokens moved from one holder to another. -/
def LineTokens.move (t : LineTokens) (a b n : Nat) : LineTokens :=
  let c := setD 0 a (t.of_ a - n) t.counts
  { t with counts := setD 0 b (lookupD 0 b c + n) c }

/-- Who can spare a token for a reader: the owner while it holds two, else any holder of two. -/
def LineTokens.giver (t : LineTokens) : Option Nat :=
  if 2 ≤ t.of_ t.owner then some t.owner else (t.counts.find? fun x => decide (2 ≤ x.2)).map (·.1)

/-- Whether a request of a holder fails: another's persistent request is active (R335, R336). -/
def LineTokens.blocked (t : LineTokens) (h : Nat) : Bool :=
  match t.persist with
  | [] => false
  | p :: _ => p != h

/-- A failed transient request; the fourth of one requester turns into a persistent one (R335). -/
def LineTokens.fail (t : LineTokens) (h : Nat) : LineTokens :=
  if 3 ≤ lookupD 0 h t.failed then
    { t with failed := setD 0 h 0 t.failed, persist := if t.persist.contains h then t.persist else t.persist ++ [h] }
  else { t with failed := setD 0 h (lookupD 0 h t.failed + 1) t.failed }

/-- A request of a holder that succeeded: its failures are forgotten, and an active entry of its own ends with the access (R336). -/
def LineTokens.ok (t : LineTokens) (h : Nat) : LineTokens :=
  { t with failed := setD 0 h 0 t.failed, persist := if t.persist.head? = some h then t.persist.drop 1 else t.persist }

/-- The tokens after an access of a holder performed: after a write it has them all, and keeps them; a read that held none took one (R334
to R336; log 139). -/
def LineTokens.access (t : LineTokens) (h : Nat) (write : Bool) : LineTokens :=
  let t := t.ok h
  if write then { t with counts := [(h, 256)], owner := h }
  else if t.of_ h ≠ 0 then t
  else match t.giver with
    | some g => t.move g h 1
    | none => t

/-- The holder through which the acting strand reaches a line: its core's cache where the line is homed on the core's die, the home slice
where it is not. -/
def State.holder (s : State) (loc : Nat) : Nat :=
  if homeDie loc = some s.core.die then 1 + 3 * s.core.num + (if s.st.kind = .cc then 0 else 1) else 0

/-- The tokens that an access needs, collected as it performs; where a persistent request of another is active the attempt fails, and is
made again (R335). -/
def takeTokens (tr : Tr) (write : Bool) : M Unit := do
  let s ← get
  match s.dev.tokens.find? (·.line == tr.loc / 128) with
  | none => return ()
  | some t =>
    let h := s.holder tr.loc
    if t.blocked h then stop (.redo fun _ s => { s with dev := s.dev.setTokens (t.fail h) })
    else set { s with dev := s.dev.setTokens (t.access h write) }

/-- Whether a persistent request for a line is active: no engine takes its tokens meanwhile (R335, R336). -/
def Dev.entryActive (d : Dev) (loc : Nat) : Bool := d.tokens.any fun t => t.line == loc / 128 && !t.persist.isEmpty

/-- A line at its home, through the staging cache (R15, R252). -/
def homeRead (tr : Tr) (kind : BitVec 8) : M (Line × Tag) := do
  if tr.breach then breachLine
  else
    checkBlock tr kind
    checkFlash tr kind
    let s ← get
    let d := s.dev.stageFill tr
    set { s with dev := d }
    return d.homeLine tr

/-- What the acting core sent to the home of a line has arrived there before the core's own access to the line (R254, R339). -/
def landHere (tr : Tr) : M Unit := do
  let s ← get
  if s.dev.clasps.any fun h => h.wbs.any fun w => w.core == s.core.num && w.copy.loc == tr.loc / 128 then
    if s.sendWaits tr.loc then stop .wait
    set { s with dev := s.dev.landOwn s.core.num (·.loc == tr.loc / 128) }

/-- A line at its home as an access of the acting core reads it. -/
def fetchHome (tr : Tr) (kind : BitVec 8) : M (Line × Tag) := do
  landHere tr
  takeTokens tr false
  homeRead tr kind

/-- The line of a translated address as the acting core reads it: the scratchpad, its far copy, or the home (R252). -/
def readLine (tr : Tr) (kind : BitVec 8) : M (Line × Tag) := do
  let s ← get
  if tr.spad then return (s.core.spad.line tr.loc, s.core.spad.tag tr.loc)
  if s.mustWait tr false then stop .wait
  if farMay s.core tr then
    match s.core.farAt tr.loc with
    | some f => return (f.data, f.tag)
    | none =>
      let (l, t) ← fetchHome tr kind
      let s ← get
      set { s with core := s.core.putFar (tr.copyOf s.dev.num s.core.ctxId l t none 0) }
      return (l, t)
  else fetchHome tr kind

/-- The line at its home, after the acting core's own far copy of it was written back and dropped (R252). -/
def readHome (tr : Tr) (kind : BitVec 8) : M (Line × Tag) := do
  let s ← get
  if tr.spad then return (s.core.spad.line tr.loc, s.core.spad.tag tr.loc)
  if s.mustWait tr false || s.backWaits (·.loc == tr.loc / 128) then stop .wait
  set (s.flushFar (·.loc == tr.loc / 128) true)
  fetchHome tr kind

/-- Lazy entries of the acting core whose captured ranges hold a line and whose clasp it holds: the line joins their lazy sets, by its
address and, where a far copy may hold it, by its place (R270). -/
def Core.noteLazy (c : Core) (ctx : Nat) (va : Word) (line : Option Nat) : Core :=
  let l := va.toNat / 128 * 128
  { c with lazy := c.lazy.map fun e =>
      if e.held && e.ctx == ctx && e.ranges.any (fun (b, n) => b.toNat ≤ l && l < b.toNat + n) then
        { e with lset := if e.lset.contains (.ofNat 64 l) then e.lset else .ofNat 64 l :: e.lset
                 lines := (line.filter fun n => !e.lines.contains n).toList ++ e.lines }
      else e }

/-- A line written in the scratchpad. -/
def State.putSpad (s : State) (off : Nat) (l : Line) (t : Tag) : State :=
  { s with core := { s.core with spad := (s.core.spad.setLine off l).setTag off t } }

/-- Where the trap frames begin in the scratchpad (R197). -/
def framesAt : Nat := Config.spadBytes - 2048

/-- Bytes of the deferral carve-out, which lies directly below the trap frames (R160, Table 16.1). -/
def Core.carveSize (c : Core) : Nat :=
  match c.gang with
  | none => 0
  | some g => 32768 * g.dfrUnits

/-- Deferral entries after a store into the carve-out: those it affects hold free codes of their path's formats, with CLS VAL (R160; log
131). -/
def spoilEntries (width : DfrEntry → Nat → Nat) : List DfrEntry → Nat → List DfrEntry
  | [], _ => []
  | x :: r, n =>
    (if Config.entryHit n then
      { x with vals := x.vals.zipIdx.map fun (v, i) => { v with code := (Config.freeLine n).toNat / 2 ^ (32 * i) % 2 ^ width x i, cls := cVAL } }
    else x) :: spoilEntries width r (n + 1)

/-- A strand whose deferral entries a store may have affected. -/
def Strand.spoilDfr (t : Strand) (ft : BitVec 4 → Fmt) (n : Nat) : Strand :=
  { t with dfr := spoilEntries (fun x i => match t.dfrSig.find? (·.1 == x.path) with
      | some (_, fs) => (ft (fs.getD i 0)).wid
      | none => 32) t.dfr n }

/-- The state after a strand stored some bytes of a scratchpad line: into the carve-out, or, but for the CC, into the frames 0 to 16, whose
contents are then free (R160, R197). -/
def State.spadStored (s : State) (off : Nat) (bytes : BitVec 128) : State :=
  let line := off / 128 * 128
  if line + s.core.carveSize < framesAt then s
  else if line < framesAt then
    let n := s.dev.free
    let used := (s.allStrands.map (·.dfr.length)).foldl Nat.max 0
    let s := s.allStrands.foldl (fun s t => s.putStrandAt (t.spoilDfr s.fmt (n + used * t.slot))) s
    { s with dev := { s.dev with free := n + 32 * used } }
  else
    let k := (line - framesAt) / 128
    if s.st.kind = .cc || 8 < k || (k == 8 && bytes.extractLsb' 0 64 == 0) then s
    else
      let n := s.dev.free
      let spad := (List.range 9).foldl (fun m i =>
        m.setLine (framesAt + 128 * i) (mergeBytes (if i = 8 then byteMask 0 64 else BitVec.allOnes 128) (Config.freeLine (n + i)) (m.line (framesAt + 128 * i))))
        s.core.spad
      { s with core := { s.core with spad := spad }, dev := { s.dev with free := n + 9 } }

/-- Whether a line holds a clasp that is not idle (R264). -/
def Dev.claspBusy (d : Dev) (loc : Nat) : Bool :=
  match d.clasps.find? (·.loc == loc / 128) with
  | none => false
  | some h =>
    let l := (d.lineAt loc).1
    !h.fifo.isEmpty || h.retainer.isSome || (if l.extractLsb' 62 2 = 1 then l.extractLsb' 0 16 != 0 else l.getLsbD 0)

/-- What a store leaves in a line: a clasp that is not idle then holds undefined values (R264). -/
def storedLine (tr : Tr) (l : Line) : M Line := do
  let s ← get
  if !tr.spad && s.dev.claspBusy tr.loc then
    let (n, t) := s.takeFree
    set t
    return Config.freeLine n
  else return l

/-- Whether a leaf names a DPA page of this device. -/
def Dev.leafNames (d : Dev) (pte : BitVec 128) (sh page : Nat) : Bool :=
  pteHdev pte == d.num && decide (pteFrame pte < 65536 * (page + 1)) && decide (65536 * page < pteFrame pte + 2 ^ sh)

/-- Whether an entry of a page table, or of a table below it, names a DPA page. -/
def Dev.tableNames (d : Dev) (page : Nat) : List (Nat × Nat × Nat) → Nat → Bool
  | [], _ => false
  | (_, sh, nb) :: rest, tbl => (List.range (2 ^ nb)).any fun i =>
    let e : BitVec 128 := .ofNat 128 (d.readAt (d.dpaLoc (tbl + 16 * i)) 16)
    pteV e && ((pteType e == 1 && d.tableNames page rest (pteFrame e)) || (pteType e == 2 && d.leafNames e sh page))

/-- Whether a DPA page is still in use: a cached entry or translation of it, or a page-table entry that names it (R349). -/
def State.pageNamed (s : State) (page : Nat) : Bool :=
  let d := s.dev
  (d.rmCache.any (·.1 == page)) || (d.tlb.any fun x => d.leafNames x.pte (levelShift x.lv) page) ||
    ((d.ctxs.map (·.ptroot) ++ s.core.rroot :: d.cores.map (·.rroot)).any fun r => r != 0 && d.tableNames page walkLevels r.toNat)

/-- The device `d`, in which a line of the remap table has been written: a valid entry whose place changed while its page was in use is
breached, and one changed in order is so no longer (R349). -/
def State.noteBreach (s : State) (tr : Tr) (l : Line) (d : Dev) : Dev :=
  if tr.here d.num && s.dev.inRemap tr.loc then
    (List.range 4).foldl (fun d k =>
      let page := (tr.loc / 128 * 128 + 32 * k - s.dev.rmTable) / 32
      let old := s.dev.rmEnt (65536 * page)
      let rest := d.breached.filter (· != page)
      if rmPlace old = rmPlace (.ofNat 256 (l.toNat / 2 ^ (256 * k))) then d
      else { d with breached := if s.dev.rmValid old && s.pageNamed page then page :: rest else rest }) d
  else d

/-- A line put at its home. A write to a page whose remap entry was changed against the rules reaches no memory (R349). -/
def putLine (tr : Tr) (kind : BitVec 8) (ix : Nat) (l : Line) (t : Tag) : M Unit := do
  let s ← get
  if tr.spad then set (s.putSpad tr.loc l t)
  else if tr.breach then return ()
  else
    if s.mustWait tr true then stop .wait
    takeTokens tr true
    checkBlock tr kind
    let s ← get
    match s.dev.putHome tr l t with
    | .error f => faultAt kind tr.va { f with info := ix }
    -- the home slice wrote the line for the access, whose cache keeps the tokens it collected
    | .ok d => set { s with dev := { (s.noteBreach tr l d).markWrite tr with tokens := s.dev.tokens }, core := s.core.noteLazy s.core.ctxId tr.va (some (tr.loc / 128)) }

/-- What the spec leaves open in a scratchpad that a strand stored to (R160, R197). -/
def spadStoredM (tr : Tr) (bytes : BitVec 128) : M Unit := modify fun s => if tr.spad then s.spadStored tr.loc bytes else s

/-- The parts of an access of `n` bytes, at most 128, in each line. -/
def lineParts (va : Word) (n : Nat) : List (Word × Nat) :=
  let room := 128 - va.toNat % 128
  if n ≤ room then [(va, n)] else [(va, room), (va + .ofNat 64 room, n - room)]

/-- The scratchpad bytes of one line that a strand's pending load has still to read, as a mask (R120). -/
def PendLoad.unread (p : PendLoad) (hart : Bool) (line : Nat) : BitVec 128 :=
  match p.src with
  | .value _ => 0
  | .late va z => (lineParts va (2 ^ (z.toNat % 4))).foldl (fun m (a, n) =>
      if (hart || inWindow a) && spadOff a / 128 == line then m ||| byteMask (a.toNat % 128) n else m) 0

/-- Whether a strand has a load whose data is still to be read. -/
def Strand.unread (t : Strand) : Bool := t.pend.any fun p => match p.src with
  | .value _ => false
  | .late _ _ => true

/-- Whether a strand has still to read some of these bytes of a scratchpad line for an earlier load: a later write of its own waits
(R254). -/
def Strand.holdsBytes (t : Strand) (line : Nat) (bytes : BitVec 128) : Bool :=
  t.pend.any fun p => p.unread (t.kind == .execute) line &&& bytes != 0

/-- A line written as a store of the acting core writes it: into its far copy with the written bytes marked, or at the home
(R252). -/
def writeLine (tr : Tr) (kind : BitVec 8) (ix : Nat) (l : Line) (t : Tag) (bytes : BitVec 128) : M Unit := do
  let s ← get
  if tr.spad && s.st.holdsBytes (tr.loc / 128) bytes then stop .wait
  if farMay s.core tr then
    if s.mustWait tr true then stop .wait
    -- a clasp that is not idle has free bytes throughout, all of which go home (R264)
    let bytes := if s.dev.claspBusy tr.loc then BitVec.allOnes 128 else bytes
    let l ← storedLine tr l
    let s ← get
    set { s with core := (s.core.putFar (tr.copyOf s.dev.num s.core.ctxId l t (s.core.farAt tr.loc) bytes)).noteLazy s.core.ctxId tr.va (some (tr.loc / 128)) }
  else
    putLine tr kind ix (← storedLine tr l) t
    spadStoredM tr bytes

/-- A line written at its home as an access of the acting strand leaves it, which stores some of its bytes (R197, R218, R226). -/
def writeHome (tr : Tr) (kind : BitVec 8) (ix : Nat) (l : Line) (t : Tag) (bytes : BitVec 128) : M Unit := do
  let s ← get
  if tr.spad && s.st.holdsBytes (tr.loc / 128) (BitVec.allOnes 128) then stop .wait
  putLine tr kind ix (← storedLine tr l) t
  spadStoredM tr bytes

/-- The page of an address marked accessed, with a sampling event (R374, R377). -/
def touchM (tr : Tr) : M Unit := modify (·.touch tr true)

/-! ### Scalar parts (R118, R121) -/

/-- Bytes of a line as a number. -/
def lineBytes (l : Line) (off n : Nat) : Nat := l.toNat / 2 ^ (8 * off) % 2 ^ (8 * n)

/-- A line with `n` bytes at `off` set from a number. -/
def setLineBytes (l : Line) (off n v : Nat) : Line :=
  .ofNat 1024 (l.toNat - lineBytes l off n * 2 ^ (8 * off) + v % 2 ^ (8 * n) * 2 ^ (8 * off))

/-- What a class does to an untyped load: POISON, TAG_CLASS, or the data with the flag NX of a UNW line (R49, R121). -/
def loadClass (kind : BitVec 8) (tr : Tr) (l : Line) (t : Tag) : M (Line × BitVec 8) := do
  if t.cls = cPOI then faultAt kind tr.va (fltPoison 0 tr.dpa)
  else if t.cls = cINV then stop (.trap tTAG_CLASS 0 tr.va 0)
  else if t.cls = cUNW then return (0, fNX)
  else return (l, 0)

/-- What a class does to an untyped partial store: the line with a UNW line's bytes zero (R47, R121). -/
def storeClass (kind : BitVec 8) (tr : Tr) (l : Line) (t : Tag) : M Line := do
  if t.cls = cPOI then faultAt kind tr.va (fltPoison 0 tr.dpa)
  else if t.cls = cINV then stop (.trap tTAG_CLASS 0 tr.va 0)
  else if t.cls = cSTG then faultAt kind tr.va (fltStgWrite 0 tr.dpa)
  else if t.cls = cUNW then return 0
  else return l

/-- Translation for a scalar access of the acting strand: an X-hart reaches its scratchpad alone (R119). -/
def scalarTr (n : Need) (va : Word) : M Tr := do
  let s ← get
  if s.st.kind = .execute then return .ofSpad va else translate s.via n va

/-- Parts of a scalar load, little-endian, with the flags they raise (R118, R121). -/
def loadParts : List (Word × Nat) → M (Nat × BitVec 8)
  | [] => return (0, 0)
  | (va, n) :: r => do
    let tr ← scalarTr nLoad va
    let s ← get
    if tr.spad && s.core.feEmpty.contains (tr.loc / 128) then stop .wait
    let (l, t) ← readLine tr nLoad.kind
    let (l, f) ← loadClass nLoad.kind tr l t
    touchM tr
    let (hi, g) ← loadParts r
    return (lineBytes l (va.toNat % 128) n + 2 ^ (8 * n) * hi, f ||| g)

/-- Parts of a scalar store (R118, R121). -/
def storeParts : List (Word × Nat) → Nat → M Unit
  | [], _ => return ()
  | (va, n) :: r, x => do
    let tr ← scalarTr nStore va
    let (l, t) ← readLine tr nStore.kind
    let l ← storeClass nStore.kind tr l t
    writeLine tr nStore.kind 0 (setLineBytes l (va.toNat % 128) n x) t.raw
      (if t.cls = cUNW then BitVec.allOnes 128 else byteMask (va.toNat % 128) n)
    touchM tr
    storeParts r (x / 2 ^ (8 * n))

/-- The part of a device record in one line, written by DPA: it never faults on a class, and reaches no memory where the DPA has no
remap entry (R348, R397). -/
def Dev.putRaw (d : Dev) (dpa n x : Nat) : Dev :=
  match d.dpaLook dpa with
  | none => d
  | some loc =>
    let (l, t) := d.lineAt loc
    let l := if t.cls = cRAW ∨ t.cls = cVAL then l else 0
    (d.putLineAt loc (setLineBytes l (loc % 128) n x) t.raw).unverifyAt dpa

/-- Bytes of a record written by DPA from its address on, in parts of at most 16 bytes aligned to 16 (R397). -/
def Dev.putRecord (d : Dev) (dpa : Nat) : Nat → Nat → Dev
  | 0, _ => d
  | k + 1, x => (d.putRaw dpa 16 (x % 2 ^ 128)).putRecord (dpa + 16) k (x / 2 ^ 128)

/-- `n` bytes of a scratchpad record that lie in one line: CLS becomes RAW, and the other bytes of a line that was neither RAW nor
VAL become zero (R397). -/
def Memory.putRaw (m : Memory) (off n x : Nat) : Memory :=
  let t := m.tag off
  let m := if t.cls = cRAW ∨ t.cls = cVAL then m else m.setLine off 0
  (m.writeN off n x).setTag off t.raw

/-- Bytes of a scratchpad record, in parts of 8 bytes (R397). -/
def Memory.putRecord (m : Memory) (off : Nat) : Nat → Nat → Memory
  | 0, _ => m
  | k + 1, x => (m.putRaw off 8 x).putRecord (off + 8) k (x / 2 ^ 64)

end Sys2Proof.Machine
end

