-- ==== Sys2Proof/Machine/Lazy.lean ====
section
/-! DEFINITION. The clasp line (Table 13.3), signatures of lazy sets (R271) and the eager conversion of lazy-table entries
(R273, R274), on one core and the device. -/

namespace Sys2Proof.Machine

/-! ### Fields of a line -/

/-- The field of `n` bits at `lo` of a line. -/
def lineField (l : Line) (lo n : Nat) : Nat := l.toNat / 2 ^ lo % 2 ^ n

/-- A line with the field of `n` bits at `lo` replaced. -/
def lineSet (l : Line) (lo n v : Nat) : Line :=
  .ofNat 1024 (l.toNat - lineField l lo n * 2 ^ lo + v % 2 ^ n * 2 ^ lo)

def clSig (l : Line) : BitVec 512 := .ofNat 512 (lineField l 512 512)
def clSigSeq (l : Line) : Word := .ofNat 64 (lineField l 256 64)
def clRptr (l : Line) : Word := .ofNat 64 (lineField l 198 58 * 64)
def clNr (l : Line) : Nat := lineField l 192 4
def clRseq (l : Line) : Word := .ofNat 64 (lineField l 128 64)
def clRdev (l : Line) : Nat := lineField l 96 8
def clRcore (l : Line) : Nat := lineField l 80 16
def clRv (l : Line) : Bool := lineField l 64 1 == 1
def clMode (l : Line) : Nat := lineField l 62 2
def clHeld (l : Line) : Bool := lineField l 0 1 == 1
def clHcore (l : Line) : Nat := lineField l 16 16
def clHdev (l : Line) : Nat := lineField l 32 8
def clGen (l : Line) : BitVec 16 := .ofNat 16 (lineField l 32 16)
def clParties (l : Line) : Nat := lineField l 16 16
def clArrived (l : Line) : Nat := lineField l 0 16
/-- Whether the WORD bits that Table 13.4 does not list are 0. -/
def clWordOk (l : Line) : Bool :=
  if clMode l = 0 then lineField l 40 22 == 0 && lineField l 1 15 == 0 else lineField l 48 14 == 0

/-! ### Signatures (R271) -/

/-- The two bit indices of a line's address. -/
def sigBits (va : Word) : Nat × Nat :=
  let l := (va.extractLsb' 7 49).toNat
  ((l ^^^ (l / 2 ^ 10) ^^^ (l / 2 ^ 20) ^^^ (l / 2 ^ 30) ^^^ (l / 2 ^ 40)) % 1024, l * 0x9E3779B97F4A7C15 % 2 ^ 64 / 2 ^ 54)

/-- A signature with one line added. -/
def sigAdd (s : BitVec 1024) (va : Word) : BitVec 1024 :=
  s ||| .ofNat 1024 (2 ^ (sigBits va).1) ||| .ofNat 1024 (2 ^ (sigBits va).2)

/-- Whether a line matches a signature. -/
def sigMatch (s : BitVec 1024) (va : Word) : Bool := s.getLsbD (sigBits va).1 && s.getLsbD (sigBits va).2

/-- fold of R271. -/
def sigFold (s : BitVec 1024) : BitVec 512 := s.extractLsb' 0 512 ||| s.extractLsb' 512 512
/-- unfold of R271. -/
def sigUnfold (f : BitVec 512) : BitVec 1024 := f ++ f

/-- The signature of an entry's lazy set (R271, R274). -/
def LazyEntry.sigma (e : LazyEntry) : BitVec 1024 := e.lset.foldl sigAdd e.sig

/-! ### The lazy set's write-back and eager conversion -/

/-- Whether a far copy lies in an entry's lazy set. -/
def LazyEntry.has (e : LazyEntry) (f : FarCopy) : Bool := e.lines.contains f.loc

/-- Whether a far copy lies in the lazy set of any entry (R256). -/
def Core.inLazy (c : Core) (f : FarCopy) : Bool := c.lazy.any (·.has f)

/-- The device and a core after the dirty far copies that `p` names went back to their homes. -/
def backFar (d : Dev) (c : Core) (p : FarCopy → Bool) : Dev × Core :=
  (d.backAll c p,
   { c with far := c.far.map fun f => if p f then { f with dirty := 0, dte := false } else f })

/-- What the home keeps of a clasp, or nothing yet. -/
def Dev.claspHome (d : Dev) (loc : Nat) : ClaspHome :=
  (d.clasps.find? (·.loc == loc)).getD ⟨loc, [], none, false, [], 0, none, [], false, 0⟩

/-- The device with what a home keeps of a clasp replaced. -/
def Dev.setClasp (d : Dev) (h : ClaspHome) : Dev := { d with clasps := h :: d.clasps.filter (·.loc != h.loc) }

/-- The device and a core after the dirty far copies that `p` names were sent to their homes for a clasp, whose home waits for them
(R338). -/
def sendFar (loc : Nat) (d : Dev) (c : Core) (p : FarCopy → Bool) : Dev × Core :=
  let out := (c.far.filter fun f => p f && f.dirty != 0).zipIdx.map fun (f, i) => (⟨c.num, d.wbNext + i, f⟩ : WriteBack)
  let h := d.claspHome loc
  ({ d.setClasp { h with wbs := h.wbs ++ out, msgs := h.msgs + out.length } with wbNext := d.wbNext + out.length },
   { c with far := c.far.map fun f => if p f then { f with dirty := 0, dte := false } else f })

/-- A clasp's line as the device writes it: bits [127:104] and [79:65] are written as 0 (Table 13.3). -/
def clWritten (l : Line) : Line := lineSet (lineSet l 104 24 0) 65 15 0

/-- The device without the clean copies of a clasp's line that other cores hold: a load that issues later returns the state it then has
(R262). -/
def Dev.forgetClasp (d : Dev) (loc : Nat) : Dev :=
  { d with cores := d.cores.map fun c => { c with far := c.far.filter fun f => f.loc != loc || f.dirty != 0 } }

/-- The device with a clasp's line changed at its home: a UNW line is zero, and the line is RAW (R264). -/
def Dev.claspPut (d : Dev) (loc : Nat) (g : Line → Line) : Dev :=
  let (l, t) := d.lineAt (loc * 128)
  (d.forgetClasp loc).putLineAt (loc * 128) (clWritten (g (if t.cls = cUNW then 0 else l))) t.raw

/-- A clasp's line with a signature left in SIG for its RSEQ, and RV cleared where asked (R273). -/
def clConverted (sig : BitVec 1024) (clear : Bool) (l : Line) : Line :=
  let l := lineSet (lineSet l 512 512 (sigFold sig).toNat) 256 64 (clRseq l).toNat
  if clear then lineSet l 64 1 0 else l

/-- An eager conversion of one entry of a core (R273); a held clasp stays held and keeps its releaser fields (R274). A signature that
was sent but not yet used goes into SIG too, and a releaser record that still names the core is cleared. A barrier clasp's line needs no
conversion. Where a Shuttle owns a line of the lazy set, the write-backs are on their way until it has landed (R260). -/
def convertEntry (d : Dev) (c : Core) (e : LazyEntry) (own : Nat → Bool) : Dev × Core :=
  let (d, c) := if c.far.any fun f => e.has f && f.dirty != 0 && own (f.loc * 128) then sendFar e.clasp d c e.has else backFar d c e.has
  let c := c.dropFar (e.clasp * 128)
  let l := (d.lineAt (e.clasp * 128)).1
  let h := d.claspHome e.clasp
  let names := clRv l && clRcore l == c.num && clRdev l == d.num.toNat
  if clMode l = 1 then (d, c)
  else if e.held || e.retained || e.due || (names && h.recalled) then
    ((d.claspPut e.clasp (clConverted e.sigma (!e.held))).setClasp
      { h with retainer := if h.retainer = some c.num then none else h.retainer, recalled := h.recalled && !(e.due || names) }, c)
  else if names then
    (d.claspPut e.clasp fun l => match h.sig with
      | some g => clConverted g true l
      | none => lineSet l 64 1 0, c)
  else (d, c)

/-- A core after every entry that `p` names was converted and taken from its table; `own` says which lines some Shuttle owns. -/
def convertLazy (d : Dev) (c : Core) (p : LazyEntry → Bool) (own : Nat → Bool := fun _ => false) : Dev × Core :=
  let (d, c) := c.lazy.foldl (fun (d, c) e => if p e then convertEntry d c e own else (d, c)) (d, c)
  (d, { c with lazy := c.lazy.filter fun e => !p e })

end Sys2Proof.Machine
end

