-- ==== Sys2Proof/Machine/Code.lean ====
section
/-! DEFINITION. The check of code pages and instruction fetch (R111, R332). -/

namespace Sys2Proof.Machine

/-! ### Page verification (R332) -/

/-- The 65,536 data bytes of a page at its home. -/
def Dev.pageBytes (d : Dev) (dpa : Nat) : List Byte :=
  let at_ := d.dpaLoc (dpa / 65536 * 65536)
  (List.range 512).flatMap fun i =>
    let l := (d.lineAt (at_ + 128 * i)).1
    (List.range 128).map fun k => l.extractLsb' (8 * k) 8

/-- The digest the manifest gives a page (R331). -/
def Dev.pageDigest (d : Dev) (mdpa page : Nat) : List Byte :=
  (List.range 48).map fun i => .ofNat 8 (d.readAt (d.dpaLoc (mdpa + 48 * page + i)) 1)

/-- The check of an integrity-checked page before a fetch from it: the device with the page verified, or the fault (R332). No object
holds a frame of another device. -/
def Dev.verifyPage (d : Dev) (tr : Tr) : Except Flt Dev :=
  match (if tr.here d.num then d.objOf tr.dpa else none) with
  | none => .error (fltCodeUnreg 0 tr.dpa)
  | some i =>
    let e := d.objEnt i
    let page := (tr.dpa - objBase e) / 65536
    if objState e = 2 then .error (fltCodeBad page tr.dpa)
    else if d.verified.contains (rmPage tr.dpa) then .ok d
    else if sha384 (d.pageBytes tr.dpa) = d.pageDigest (objMdpa e) page then .ok { d with verified := rmPage tr.dpa :: d.verified }
    else .error (fltCodeHash page tr.dpa)

/-! ### Fetch (R111, R280, R332) -/

/-- The word at an address, as an instruction fetch reads it: at its home, with only a POI line faulting. -/
def fetchAt (v : Via) (pc : Word) : M (BitVec 32) := do
  let tr ← translate v nFetch pc
  let s ← get
  if pteIcc tr.pte && !tr.raw then
    if (s.dev.objOf tr.dpa).any fun i => s.dev.turningAt (s.dev.objAt i) then stop .wait
    match s.dev.verifyPage tr with
    | .error f => faultAt nFetch.kind pc f
    | .ok d => set { s with dev := d }
  let s ← get
  if s.mustWait tr false then stop .wait
  let (l, t) ← fetchHome tr nFetch.kind
  if t.cls = cPOI then faultAt nFetch.kind pc (fltPoison 0 tr.dpa)
  modify (·.touch tr false)
  return .ofNat 32 (lineBytes l (pc.toNat % 128) 4)

end Sys2Proof.Machine
end

