-- ==== Sys2Proof/Machine/Ops.lean ====
section
/-! DEFINITION. The shared operations of control: completing an instruction (R82, R112 to R116), taken transfers (R113,
R115, R190), user traps, their frames and the return from them (R197 to R201), parking on a fault and its record (R202,
R316 to R318), terminating a gang, a context and a core (R201, R320, R384), entering and leaving the resident level (R322),
and the delivery of whatever stopped an instruction. -/

namespace Sys2Proof.Machine

/-! ### Every strand of a core, and every core -/

/-- The state with the acting core, all its strands included, and the device changed together. The turn stays with the
strand of the same frame number, or goes to the CC where that strand is no more. -/
def State.onCore (s : State) (f : Dev → Core → Dev × Core) : State :=
  let (d, c) := f s.dev s.wholeCore
  match c.strands.find? (·.slot == s.st.slot) with
  | some t => { s with dev := d, st := t, core := { c with strands := c.strands.filter (·.slot != t.slot) } }
  | none =>
    match c.strands.find? (·.slot == 0) with
    | some t => { s with dev := d, st := t, core := { c with strands := c.strands.filter (·.slot != 0) } }
    | none => { s with dev := d, core := c }

/-- The state with every core changed in turn, the acting core first. -/
def State.onAllCores (s : State) (f : Dev → Core → Dev × Core) : State :=
  let s := s.onCore f
  let (d, cs) := s.dev.cores.foldl (fun (d, cs) c =>
    let (d, c) := f d c
    (d, cs ++ [c])) (s.dev, [])
  { s with dev := { d with cores := cs } }

/-! ### Completing an instruction -/

/-- Stage predicates of a `ploop` in iteration `i`: bit k is set when stage k runs (R115). -/
def stagePred (stages trips i : Nat) : BitVec 8 :=
  .ofNat 8 ((List.range 8).foldr (fun k acc => 2 * acc + (if k < stages ∧ k ≤ i ∧ i < k + trips then 1 else 0)) 0)

/-- Loop processing after the word at `pc` completed without a taken transfer: the next pc, the loop stack, the stage
predicates and the rotating base, which moves by `rot` (R112, R113, R115, R116). A level whose final word this is not stays
as it is, and an outer level counts where it is its final word. -/
def endLoops (rot : BitVec 4) (pc : Word) :
    List LoopLevel → BitVec 8 → BitVec 4 → Word × List LoopLevel × BitVec 8 × BitVec 4
  | [], sp, rb => (pc + 4, [], sp, rb)
  | l :: r, sp, rb =>
    if l.last ≠ pc then
      let (p, r', sp', rb') := endLoops rot pc r sp rb
      (p, l :: r', sp', rb')
    else if l.stages = 0 then
      if 1 < l.left then (l.first, { l with left := l.left - 1 } :: r, sp, rb) else endLoops rot pc r sp rb
    else if l.iter + 1 < l.trips + l.stages - 1 then
      (l.first, { l with iter := l.iter + 1 } :: r, stagePred l.stages l.trips (l.iter + 1), rb + rot)
    else endLoops rot pc r 0 (rb + rot)

/-- One more instruction of a load's shadow is over (R82). -/
def PendLoad.tick (p : PendLoad) : PendLoad := { p with left := p.left - 1 }

/-- A strand whose instruction at `pc` completed without a taken transfer. -/
def Strand.advance (t : Strand) : Strand :=
  let (pc, loops, sp, rb) := endLoops (if t.kind = .execute then 1 else 0) t.pc t.loops t.sp t.rb
  { t with pc := pc, loops := loops, sp := sp, rb := rb, pend := t.pend.map .tick, deco := none, waiting := false, wantsShuttle := false }

/-- The state whose acting strand completed its instruction. -/
def State.advance (s : State) : State := { s with st := s.st.advance }

/-- The state whose acting strand waits: it will try the same instruction, with its `pfx`, again (R101, R227). -/
def Strand.rewind (t : Strand) : Strand := { t with pc := t.wordPc, deco := none }

/-- The state whose acting strand waits. -/
def State.await (s : State) : State := { s with st := { s.st.rewind with waiting := true, wantsShuttle := false } }

/-! ### Trap frames (R197, Table 10.1) -/

/-- The scratchpad offset of a frame. -/
def frameOff (n : Nat) : Nat := Config.spadBytes - 2048 + 64 * n

/-- STATE of a frame. -/
def Core.frameState (c : Core) (n : Nat) : Nat := c.spad.readN (frameOff n + 16) 1
/-- RPC of a frame, its bits [1:0] cleared (R200). -/
def Core.frameRpc (c : Core) (n : Nat) : Word := .ofNat 64 (c.spad.readN (frameOff n + 8) 8 / 4 * 4)

/-- A core with STATE of a frame written. -/
def Core.setFrameState (c : Core) (n v : Nat) : Core :=
  { c with spad := c.spad.putRaw (frameOff n + 16) 1 v }

/-- The 40 bytes the device writes to a frame (R198): PC, RPC, STATE 1, CAUSE, WHO, INFO, ADDR, SEQ. -/
def frameWords (pc : Word) (who cause : BitVec 8) (info : BitVec 32) (addr : Word) (seq : Nat) : Nat :=
  pc.toNat + 2 ^ 64 * pc.toNat + 2 ^ 128 + 2 ^ 136 * cause.toNat + 2 ^ 144 * who.toNat + 2 ^ 160 * info.toNat
    + 2 ^ 192 * addr.toNat + 2 ^ 256 * (seq % 2 ^ 64)

/-- The lowest-numbered hart stopped with a trap, by its frame number (R201). -/
def State.lowTrapped (s : State) : Option Nat :=
  (s.allStrands.find? fun t => t.slot != 0 && t.run == .trapped).map (·.slot)

/-! ### Ends of strands and gangs (R190, R201) -/

/-- A strand that issues nothing more. -/
def Strand.ended (t : Strand) : Strand :=
  { t with run := .ended, pend := [], loops := [], deco := none, arrived := none, waiting := false }

/-- A core whose gang was terminated: every strand stops; the gang ends when its work has drained (R201). While the CC is at
the resident level only its user program ends. -/
def Core.terminate (c : Core) (cause who : BitVec 8) : Core :=
  match c.gang with
  | none => c
  | some g =>
    let term := match g.term with
      | none => some (cause, who)
      | some x => some x
    { c with gang := some { g with term := term, left := true },
             handler := none,
             strands := c.strands.map fun t => if t.slot = 0 ∧ c.resident = true then t else t.ended }

/-- Whether a strand of a core stops when its gang is terminated: not the CC while it is at the resident level. -/
def Core.stopsAll (c : Core) (n : Nat) : Bool := n != 0 || !c.resident

/-- The acting core's gang terminated with a cause and the trapping strand; what its strands waited for in a clasp's FIFO is withdrawn
(R267). -/
def State.terminateGang (s : State) (cause who : BitVec 8) : State :=
  s.onCore fun d c => (d.withdraw c.num c.stopsAll, c.terminate cause who)

/-- The gang terminated by the trap of the lowest-numbered stopped hart. -/
def State.terminateByFrame (s : State) (n : Nat) : State :=
  s.terminateGang (.ofNat 8 (s.core.spad.readN (frameOff n + 17) 1)) (whoOfSlot n)

/-- The acting strand ends at a taken transfer to address 0 outside handler mode (R190). A CC that ends while a hart is
stopped with a trap terminates the gang (R201). -/
def State.strandEnd (s : State) : State :=
  let s := { s with st := s.st.ended }
  if s.st.kind = .cc then
    match s.lowTrapped with
    | some n => s.terminateByFrame n
    | none => s
  else s

/-! ### Contexts and cores that stop (R320, R384) -/

/-- The commands of a context dropped from a core, and its basting entries; a status write of its that is parked is dropped too, since the
handle dies and a fault of it is dropped (R320). -/
def Core.dropCommands (c : Core) (ctx : Nat) : Core :=
  { c with
    copies := c.copies.filter (·.ctx != ctx)
    cmdq := c.cmdq.map fun q => q.filter (·.ctx != ctx)
    bobbin := if c.bobbin.ctx = ctx then { Bobbin.idle with nestNo := c.bobbin.nestNo } else c.bobbin
    batches := c.batches.filter fun b => b.ctx != ctx
    engWrites := c.engWrites.filter fun w => w.ctx != ctx || (w.kind != 4 && w.parked.isNone) }

/-- The work of a context on a core ended, its commands having been dropped: its lazy entries converted, its gang terminated (R320). -/
def endCoreWork (ctx : Nat) (own : Nat → Bool) (d : Dev) (c : Core) : Dev × Core :=
  let (d, c) := convertLazy d c (·.ctx == ctx) own
  if c.ctxId = ctx ∧ c.gang.isSome then (d.withdraw c.num c.stopsAll, c.terminate 0x13 0) else (d, c)

/-- A saved gang whose context was terminated: it runs no more, and its launch reports its end (R320). -/
def SavedGang.lose (g : SavedGang) : SavedGang := { g with at_ := none, body := (g.body.dropCommands g.ctx).terminate 0x13 0 }

/-- A context terminated (R320): its gangs stop, its commands are dropped, its launches end FAILED or CANCELLED, its handles
die but those of layer work, its saved gangs are lost. -/
def State.terminateCtx (s : State) (ctx : Nat) : State :=
  let s := s.onAllCores fun d c => (d, c.dropCommands ctx)
  let s := s.onAllCores (endCoreWork ctx s.owned)
  let lost (l : Launch) : Nat :=
    (s.dev.saved.filter fun g => g.ctx == ctx && g.launch == l.id && !g.out && g.at_.isNone).length
  let parts := s.dev.parts.map fun p => { p with launches := p.launches.map fun l =>
    if l.ctx = ctx then { l with state := (if l.state = 1 then 5 else 4), saved := [], running := l.running - lost l } else l }
  let d := { s.dev with
    parts := parts
    handles := s.dev.handles.filter fun h => h.frec.ctx.toNat != ctx || (match h.party with
      | .recode _ => true
      | .install _ => true
      | _ => false)
    saved := s.dev.saved.map fun (g : SavedGang) => if g.ctx = ctx ∧ g.out = false then g.lose else g
    consent := s.dev.consent.filter (· != ctx) }
  { s with dev := d.updCtx ctx fun x => { x with dead := true } }

/-- A core whose CC halts, at whatever level it ran (R384). -/
def Core.haltCc (c : Core) : Core :=
  { c with resident := false, strands := c.strands.map fun t => if t.slot = 0 then t.ended else t }

/-- A machine check of the acting core (R384): the CC halts, the context of its gang is terminated, and the core is cleared
from the running configuration. -/
def State.machineCheckCore (s : State) : State :=
  let ctx := s.core.ctxId
  let s := s.onCore fun d c => (d, c.haltCc)
  let s := if s.core.gang.isSome then s.terminateCtx ctx else s
  { s with
    core := { s.core with halted := true }
    dev := { s.dev with config := s.dev.config &&& ~~~(BitVec.ofNat 4096 (2 ^ (3488 + s.core.num))) } }

/-! ### Fault records and handles (R316 to R318) -/

/-- A record detected for a partition and held until its buffer takes it; with a party, under a new handle, which is
answered (R317, R318). -/
def State.postFault (s : State) (p : Nat) (r : FaultRec) (party : Option Party) : State × Nat :=
  match s.dev.part p, party with
  | none, _ => (s, 0)
  | some _, none => ({ s with dev := s.dev.updPart p fun q => { q with held := q.held ++ [r] } }, 0)
  | some q, some y =>
    let n := if q.nextHandle = 0 then 1 else q.nextHandle
    let r := { r with handle := n }
    let d := s.dev.updPart p fun q => { q with held := q.held ++ [r], nextHandle := n + 1 }
    ({ s with dev := { d with handles := d.handles ++ [⟨p, n.toNat, y, r⟩] } }, n.toNat)

/-- The partition of the acting core's gang. -/
def Core.partId (c : Core) : Nat :=
  match c.gang with
  | some g => g.part
  | none => 0

/-- Whether a fault is not replayable: CODE_HASH, CODE_BAD and the hardware class (Table 17.5, R382). -/
def FaultRec.final (r : FaultRec) : Bool := (r.cls == 3 && (r.code == 1 || r.code == 2)) || r.cls == 6

/-- The state after a CODE_HASH fault marked the object bad, at whatever level it was found (R332). -/
def State.noteBad (s : State) (r : FaultRec) : State :=
  { s with dev := if r.cls = 3 ∧ r.code = 1 then s.dev.markBad r.dpa.toNat else s.dev }

/-- The acting strand's fault (R202, R318, R322, R332): at the resident level a machine check; not replayable, the record
and the context's end; otherwise the strand parks at its word with a handle. -/
def State.strandFault (s : State) (r : FaultRec) : State :=
  if s.atResident then (s.noteBad r).machineCheckCore
  else if r.final then ((s.noteBad r).postFault s.core.partId r none).1.terminateCtx s.core.ctxId
  else
    let (s, h) := s.postFault s.core.partId r (some (.strand s.core.num s.st.slot))
    { s with st := { s.st.rewind with run := .parked h, waiting := false } }

/-! ### User traps (R198 to R201) -/

/-- The CC in handler mode at the trap vector, its loop stack and stage predicates set aside (R199). -/
def Strand.toHandler (t : Strand) (tvec : Word) : Strand :=
  { t with pc := tvec, loops := [], sp := 0, deco := none, arrived := none, waiting := false }

/-- Taking a user trap: the one operation for every cause (R198, R199, R201). The frame of the acting strand is filled,
`fl` enters its sticky flags (R44), the strand stops, and the CC's own trap enters handler mode at the trap vector. A trap
that no handler can take terminates the gang; at the resident level it is a machine check (R322). -/
def State.takeTrap (s : State) (cause : BitVec 8) (info : BitVec 32) (addr : Word) (fl : BitVec 8) : State :=
  if s.atResident then s.machineCheckCore
  else match s.core.gang with
  | none => { s with st := s.st.ended }
  | some g =>
    let n := s.st.slot
    let seq := g.trapSeq + 1
    let spad := s.core.spad.putRecord (frameOff n) 5 (frameWords s.st.wordPc s.st.who cause info addr seq)
    let wasHandler := s.core.handler.isSome
    let loops := s.st.loops
    let sp := s.st.sp
    let s := { s with
      st := { s.st.rewind with flags := s.st.flags ||| fl, run := .trapped, waiting := false }
      core := { s.core with spad := spad, gang := some { g with trapSeq := seq } } }
    if g.tvec = 0 then s.terminateGang cause s.st.who
    else if n = 0 then
      if wasHandler then s.terminateGang cause s.st.who
      else { s with st := { s.st.toHandler g.tvec with run := .running }, core := { s.core with handler := some ⟨loops, sp⟩ } }
    else if g.left ∨ (s.core.strands.any fun t => t.slot == 0 && t.run == .ended) then s.terminateGang cause s.st.who
    else s

/-- Whether a hart's trap may divert the CC now (R199): the CC runs user code outside handler mode. -/
def Core.divertable (c : Core) (cc : Strand) : Bool :=
  !c.resident && c.handler.isNone && cc.run == .running && cc.deco.isNone && c.gang.isSome && !(c.lazy.any (·.relBy == some 0))

/-- The barrier of a CC that had completed before a diversion (R127). -/
def Strand.finishBar (t : Strand) (gen : Nat) : Strand :=
  match t.arrived with
  | some g => if g < gen then { t.advance with arrived := none } else { t with arrived := none }
  | none => t

/-- The CC diverted to the trap vector after a hart's trap (R199): frame 0 takes STATE 4 and the resume address; a waiting
word is abandoned, its barrier arrival withdrawn and its clasp request taken from the FIFO. -/
def State.divert (s : State) : State :=
  s.onCore fun d c =>
    match c.strands.find? (·.slot == 0), c.gang with
    | some cc, some g =>
      if c.divertable cc && (c.strands.any fun t => t.slot != 0 && t.run == .trapped) then
        let cc := cc.finishBar g.barGen
        let spad := (c.spad.putRaw (frameOff 0 + 8) 8 cc.pc.toNat).putRaw (frameOff 0 + 16) 1 4
        (d.withdraw c.num (· == 0),
         { c with spad := spad, handler := some ⟨cc.loops, cc.sp⟩,
                     strands := putStrand (cc.toHandler g.tvec) c.strands })
      else (d, c)
    | _, _ => (d, c)

/-- What handler exit does to one hart (Table 10.2). -/
def Strand.exitFrame (t : Strand) (state : Nat) (rpc : Word) : Strand :=
  if t.run ≠ .trapped then t
  else if state = 2 then { t with run := .running, pc := rpc }
  else if state = 3 then t.ended
  else t

/-- Handler exit (R200): the frames are read in the order 1 to 16, then 0; stopped harts resume, end or stay; the CC
continues at its RPC with its loops restored, or ends. -/
def State.handlerExit (s : State) : State :=
  let harts := s.core.strands.map fun t => t.exitFrame (s.core.frameState t.slot) (s.core.frameRpc t.slot)
  let stays (n : Nat) : Bool := harts.any fun t => t.slot == n && t.run == .trapped
  let core := (List.range' 1 16).foldl (fun c n => c.setFrameState n (if stays n then 1 else 0)) { s.core with strands := harts }
  let ends := s.core.frameState 0 == 3
  let rpc := s.core.frameRpc 0
  let core := (core.setFrameState 0 0)
  if ends then { s with core := { core with handler := none } }.strandEnd
  else
    let (loops, sp) := match s.core.handler with
      | some a => (a.loops, a.sp)
      | none => ([], 0)
    { s with
      st := { s.st with pc := rpc, run := .running, loops := loops.dropWhile fun l => !(l.first ≤ rpc && rpc ≤ l.last),
                        sp := sp, deco := none, waiting := false }
      core := { core with handler := none } }

/-! ### Taken transfers (R109, R110, R113, R115, R190) -/

/-- Whether a target lies in the body of a loop. -/
def LoopLevel.holds (l : LoopLevel) (pc : Word) : Bool := l.first ≤ pc && pc ≤ l.last

/-- A taken transfer of the acting strand in `s0` to `target`, `s` being the state with what the instruction writes besides.
A target in an active `ploop` body is ILLEGAL_INSTRUCTION, with nothing written; a target of 0 at the user level ends the
strand or leaves handler mode; loops that do not hold the target end. -/
def State.transfer (s0 s : State) (target : Word) : State :=
  if s0.st.loops.any fun l => l.stages != 0 && l.holds target then s0.takeTrap tILLEGAL 0 0 0
  else
    let s := { s with st := { s.st with pend := s.st.pend.map .tick, deco := none, waiting := false } }
    if target = 0 ∧ s.atResident = false then
      if s.st.kind = .cc ∧ s.core.handler.isSome then s.handlerExit else s.strandEnd
    else { s with st := { s.st with pc := target, loops := s.st.loops.dropWhile fun l => !l.holds target } }

/-! ### The resident level (R322) -/

/-- Whether the CC is idle: no gang, or its program has ended. -/
def Strand.idle (t : Strand) : Bool := t.run == .ended

/-- Entry to the resident level at an instruction boundary, when an enabled event is pending and the CC is at user level or
idle: `sr.epc` takes the next, abandoned or faulting word, `sr.estat` the state that was (R322). -/
def State.residentEntry (s : State) : State :=
  s.onCore fun d c =>
    let ev := c.rpend &&& c.renab.extractLsb' 0 4
    match c.strands.find? (·.slot == 0) with
    | none => (d, c)
    | some cc =>
      if c.resident || ev = 0 || cc.deco.isSome then (d, c)
      else
        let cc := match c.gang with
          | some g => cc.finishBar g.barGen
          | none => cc
        let bit := if ev.getLsbD 0 then 0 else if ev.getLsbD 1 then 1 else if ev.getLsbD 2 then 2 else 3
        let parked := match cc.run with
          | .parked h => some h
          | _ => none
        let estat : Nat := 256 * bit + (if parked.isSome then 4 else 0) + (if c.handler.isSome then 2 else 0)
          + (if c.gang.isNone then 1 else 0)
        (d.withdraw c.num (· == 0),
         { c with resident := true, epc := cc.wordPc, estat := .ofNat 64 estat, parkedCc := parked,
                     gang := c.gang.map fun g => if cc.run = .ended then { g with left := true } else g,
                     userLoops := (cc.loops, cc.sp),
                     strands := putStrand { cc with pc := c.rvec, run := .running, loops := [], sp := 0, deco := none, arrived := none,
                                                    waiting := false } c.strands })

/-- The return to user level at `sr.epc` (R322): handler mode follows HMODE, a CC whose handle is still live parks again, and
a core with no gang becomes idle. -/
def State.residentExit (s : State) : State :=
  let epc := s.core.epc &&& ~~~3
  let hmode := s.core.estat.getLsbD 1
  let aside : Aside := s.core.handler.getD ⟨[], 0⟩
  let core := { s.core with resident := false, handler := if hmode then some aside else none, parkedCc := none }
  let t := { s.st with pc := epc, loops := s.core.userLoops.1, sp := s.core.userLoops.2, pend := [], deco := none, waiting := false }
  match s.core.gang with
  | none => { s with core := core, st := t.ended }
  | some g =>
    if g.left then { s with core := core, st := t.ended }
    else
      let run := match s.core.parkedCc with
        | some h => if s.core.estat.getLsbD 2 && s.dev.handles.any (fun k => k.part == g.part && k.num == h) then Run.parked h else .running
        | none => .running
      { s with core := core, st := { t with run := run } }

/-! ### Delivery -/

/-- The state after a computation of the acting strand stopped: a wait with nothing done, a user trap, a fault, or what comes first. -/
def State.stopped (s : State) : Stop → State
  | .wait => s.await
  | .trap c i a f => s.takeTrap c i a f
  | .fault r => s.strandFault r
  | .redo f => f id s.await

/-- The state a computation of the acting strand leaves, from the state it started in: its effect, or where it stopped. -/
def settle (s : State) (m : M Unit) : State :=
  match m.run s with
  | .ok (_, s') => s'
  | .error e => s.stopped e

/-- The same for a computation that may leave the strand waiting after something was done, which it then answers with false. -/
def settleKept (s : State) (m : M Bool) : State :=
  match m.run s with
  | .ok (true, t) => t
  | .ok (false, t) => t.await
  | .error e => s.stopped e

/-- The outcome of a computation of the acting strand. -/
def deliver (s : State) (m : M Unit) : Out := .next (settle s m)

/-- The instruction completes without a taken transfer. -/
def advanceM : M Unit := modify State.advance

/-- Flags raised by an instruction: ORed into `sr.flags`, or the trap ARITH when one of them is enabled, with the
destinations unchanged (R44). -/
def raiseFlags (f : BitVec 8) : M Unit := do
  let s ← get
  let on := f &&& s.st.tmask
  if on ≠ 0 then stop (.trap tARITH (on.setWidth 32) 0 f)
  set { s with st := { s.st with flags := s.st.flags ||| f } }

/-- A scalar result written at once (the CC, and every result that is no load). -/
def setXM (d : BitVec 5) (v : Word) : M Unit := modify (·.setX d v)

/-- An instruction completes and a loaded value goes to X[D]: at once in the CC, in the load's shadow in a hart (R82, R118). -/
def State.advanceLoad (s : State) (d : BitVec 5) (src : LoadSrc) : State :=
  let pc := s.st.wordPc
  let s := s.advance
  { s with st := { s.st with pend := s.st.pend ++ [⟨d, Config.loadDelay, src, pc⟩] } }

/-- As `advanceLoad` for a value, interlocked in the CC. -/
def State.advanceValue (s : State) (d : BitVec 5) (v : Word) : State :=
  if s.st.kind = .cc then (s.setX d v).advance else s.advanceLoad d (.value v)

/-- Which strands may issue an instruction; another raises ILLEGAL_INSTRUCTION (R70, R87). -/
def onlyKind (k : StrandKind) : M Unit := do
  let s ← get
  if s.st.kind ≠ k then raiseTrap tILLEGAL

/-- A resident instruction at user level raises PRIVILEGED (R88). -/
def onlyResident : M Unit := do
  onlyKind .cc
  let s ← get
  if !s.core.resident then raiseTrap tPRIVILEGED

end Sys2Proof.Machine
end

