-- ==== Sys2Proof/Machine/Control.lean ====
section
/-! DEFINITION. The shared control subset (file 06): integer arithmetic, branches, loops, scalar memory accesses, shapes,
branch-outcome queues, fences, the gang barrier and the user system registers. -/

namespace Sys2Proof.Machine

/-! ### Integer arithmetic and logic (R105 to R108) -/

/-- The outcome of an instruction that writes X[D] and completes. -/
def State.result (s : State) (d : BitVec 5) (v : Word) : Out := .next (s.setX d v).advance

/-- 1 or 0. -/
def boolWord (b : Bool) : Word := if b then 1 else 0

/-- Leading zero bits (Table 06.1). -/
def clz64 (a : Word) : Nat := if a = 0 then 64 else 63 - a.toNat.log2

/-- Trailing zero bits among bits i on, looking at `n` of them. -/
def ctzFrom (a : Word) (i : Nat) : Nat → Nat
  | 0 => i
  | n + 1 => if a.getLsbD i then i else ctzFrom a (i + 1) n

/-- Trailing zero bits (Table 06.1). -/
def ctz64 (a : Word) : Nat := ctzFrom a 0 64

/-- Number of one bits among the low `n`. -/
def popcount (a : Nat) : Nat → Nat
  | 0 => 0
  | n + 1 => a % 2 + popcount (a / 2) n

/-- Signed division with the fixed results of Table 06.1. -/
def divS (a b : Word) : Word := if b = 0 then BitVec.allOnes 64 else a.sdiv b
/-- Unsigned division with its fixed result. -/
def divU (a b : Word) : Word := if b = 0 then BitVec.allOnes 64 else a / b
/-- Signed remainder with its fixed results. -/
def remS (a b : Word) : Word := if b = 0 then a else a.srem b
/-- Unsigned remainder with its fixed result. -/
def remU (a b : Word) : Word := if b = 0 then a else a % b

def execAdd (d a b : BitVec 5) (s : State) : Out := s.result d (s.x a + s.x b)
def execSub (d a b : BitVec 5) (s : State) : Out := s.result d (s.x a - s.x b)
def execMul (d a b : BitVec 5) (s : State) : Out := s.result d (s.x a * s.x b)
def execMulh (d a b : BitVec 5) (s : State) : Out :=
  s.result d (((s.x a).signExtend 128 * (s.x b).signExtend 128).extractLsb' 64 64)
def execMulhu (d a b : BitVec 5) (s : State) : Out :=
  s.result d (((s.x a).setWidth 128 * (s.x b).setWidth 128).extractLsb' 64 64)
def execDiv (d a b : BitVec 5) (s : State) : Out := s.result d (divS (s.x a) (s.x b))
def execDivu (d a b : BitVec 5) (s : State) : Out := s.result d (divU (s.x a) (s.x b))
def execRem (d a b : BitVec 5) (s : State) : Out := s.result d (remS (s.x a) (s.x b))
def execRemu (d a b : BitVec 5) (s : State) : Out := s.result d (remU (s.x a) (s.x b))
def execAnd (d a b : BitVec 5) (s : State) : Out := s.result d (s.x a &&& s.x b)
def execOr (d a b : BitVec 5) (s : State) : Out := s.result d (s.x a ||| s.x b)
def execXor (d a b : BitVec 5) (s : State) : Out := s.result d (s.x a ^^^ s.x b)
def execSll (d a b : BitVec 5) (s : State) : Out := s.result d (s.x a <<< ((s.x b).toNat % 64))
def execSrl (d a b : BitVec 5) (s : State) : Out := s.result d (s.x a >>> ((s.x b).toNat % 64))
def execSra (d a b : BitVec 5) (s : State) : Out := s.result d ((s.x a).sshiftRight ((s.x b).toNat % 64))
def execSlt (d a b : BitVec 5) (s : State) : Out := s.result d (boolWord ((s.x a).slt (s.x b)))
def execSltu (d a b : BitVec 5) (s : State) : Out := s.result d (boolWord ((s.x a).ult (s.x b)))
def execMin (d a b : BitVec 5) (s : State) : Out := s.result d (if (s.x a).slt (s.x b) then s.x a else s.x b)
def execMax (d a b : BitVec 5) (s : State) : Out := s.result d (if (s.x a).slt (s.x b) then s.x b else s.x a)
def execMinu (d a b : BitVec 5) (s : State) : Out := s.result d (if (s.x a).ult (s.x b) then s.x a else s.x b)
def execMaxu (d a b : BitVec 5) (s : State) : Out := s.result d (if (s.x a).ult (s.x b) then s.x b else s.x a)
def execClz (d a : BitVec 5) (s : State) : Out := s.result d (.ofNat 64 (clz64 (s.x a)))
def execCtz (d a : BitVec 5) (s : State) : Out := s.result d (.ofNat 64 (ctz64 (s.x a)))
def execPopc (d a : BitVec 5) (s : State) : Out := s.result d (.ofNat 64 (popcount (s.x a).toNat 64))
def execSel (d a b : BitVec 5) (s : State) : Out := s.result d (if s.x d ≠ 0 then s.x a else s.x b)

def execAddi (d a : BitVec 5) (i : BitVec 15) (s : State) : Out := s.result d (s.x a + i.signExtend 64)
def execAndi (d a : BitVec 5) (i : BitVec 15) (s : State) : Out := s.result d (s.x a &&& i.signExtend 64)
def execOri (d a : BitVec 5) (i : BitVec 15) (s : State) : Out := s.result d (s.x a ||| i.signExtend 64)
def execXori (d a : BitVec 5) (i : BitVec 15) (s : State) : Out := s.result d (s.x a ^^^ i.signExtend 64)
def execSlti (d a : BitVec 5) (i : BitVec 15) (s : State) : Out := s.result d (boolWord ((s.x a).slt (i.signExtend 64)))
def execSlli (d a : BitVec 5) (i : BitVec 6) (s : State) : Out := s.result d (s.x a <<< i.toNat)
def execSrli (d a : BitVec 5) (i : BitVec 6) (s : State) : Out := s.result d (s.x a >>> i.toNat)
def execSrai (d a : BitVec 5) (i : BitVec 6) (s : State) : Out := s.result d ((s.x a).sshiftRight i.toNat)
def execAdda (d a : BitVec 5) (i : BitVec 15) (s : State) : Out := s.result d (s.x a + i.signExtend 64 * 128)
def execLih (d : BitVec 5) (i : BitVec 20) (s : State) : Out := s.result d (s.x d <<< 20 ||| i.setWidth 64)

/-! ### Branches and jumps (R109, R110) -/

/-- A branch of the acting strand to pc + 4 x offset, taken or not. -/
def State.branch (s : State) (taken : Bool) (o : BitVec 15) : Out :=
  .next (if taken then s.transfer s (s.st.pc + o.signExtend 64 * 4) else s.advance)

def execBeq (a b : BitVec 5) (o : BitVec 15) (s : State) : Out := s.branch (s.x a == s.x b) o
def execBne (a b : BitVec 5) (o : BitVec 15) (s : State) : Out := s.branch (s.x a != s.x b) o
def execBlt (a b : BitVec 5) (o : BitVec 15) (s : State) : Out := s.branch ((s.x a).slt (s.x b)) o
def execBge (a b : BitVec 5) (o : BitVec 15) (s : State) : Out := s.branch (!(s.x a).slt (s.x b)) o
def execBltu (a b : BitVec 5) (o : BitVec 15) (s : State) : Out := s.branch ((s.x a).ult (s.x b)) o
def execBgeu (a b : BitVec 5) (o : BitVec 15) (s : State) : Out := s.branch (!(s.x a).ult (s.x b)) o

def execJal (d : BitVec 5) (o : BitVec 20) (s : State) : Out :=
  .next (s.transfer (s.setX d (s.st.pc + 4)) (s.st.pc + o.signExtend 64 * 4))

def execJalr (d a : BitVec 5) (i : BitVec 15) (s : State) : Out :=
  .next (s.transfer (s.setX d (s.st.pc + 4)) ((s.x a + i.signExtend 64) &&& ~~~3))

/-! ### Hardware loops (R112 to R116) -/

/-- Whether a `loop` or `ploop` may issue: fewer than four levels are active, and no `ploop` is (R113, R115). -/
def Strand.loopRoom (t : Strand) : Bool := t.loops.length < 4 && !(t.loops.any fun l => l.stages != 0)

/-- The strand past a body that does not run: execution continues after it, and no iteration of any loop is counted (R112, R115). -/
def Strand.skipBody (t : Strand) (last : Word) : Strand := { t with pc := last + 4, pend := t.pend.map .tick, deco := none, waiting := false }

/-- The strand at the first word of a body it has entered. -/
def Strand.enterBody (t : Strand) (l : LoopLevel) (sp : BitVec 8) : Strand :=
  { t with pc := t.pc + 4, loops := l :: t.loops, sp := sp, pend := t.pend.map .tick, deco := none, waiting := false }

def execLoop (a : BitVec 5) (l : BitVec 15) (s : State) : Out :=
  if s.st.loopRoom = false then .next (s.takeTrap tILLEGAL 0 0 0)
  else
    let last := s.st.pc + 4 + l.setWidth 64 * 4
    if s.x a = 0 then .next { s with st := s.st.skipBody last }
    else .next { s with st := s.st.enterBody ⟨s.st.pc + 4, last, (s.x a).toNat, 0, 0, 0⟩ s.st.sp }

def execPloop (a : BitVec 5) (st : BitVec 3) (l : BitVec 15) (s : State) : Out :=
  let stages := st.toNat + 1
  if s.st.loopRoom = false ∨ (l.toNat + 1) % stages ≠ 0 then .next (s.takeTrap tILLEGAL 0 0 0)
  else
    let last := s.st.pc + 4 + l.setWidth 64 * 4
    if s.x a = 0 then .next { s with st := s.st.skipBody last }
    else
      .next { s with st := s.st.enterBody ⟨s.st.pc + 4, last, 0, stages, (s.x a).toNat, 0⟩ (stagePred stages (s.x a).toNat 0) }

/-! ### The fused strip-mine branch (R117) -/

/-- The advance of an address register for a grant (R117). -/
def sbrAdv (z : Nat) (w g : Nat) : Nat :=
  match z with
  | 0 => g
  | 1 => 2 * g
  | 2 => 4 * g
  | _ => 128 * (g / perSeg w) + (g % perSeg w * w + 7) / 8

/-- The state with the address registers `a` on advanced, `n` of them from the `i`th. -/
def sbrAddrs (a : BitVec 5) (z : BitVec 8) (w g : Nat) : Nat → Nat → State → State
  | 0, _, s => s
  | n + 1, i, s =>
    let r := a + .ofNat 5 i
    sbrAddrs a z w g n (i + 1) (s.setX r (s.x r + .ofNat 64 (sbrAdv (z.toNat / 4 ^ i % 4) w g)))

def execSbr (o : BitVec 3) (c a : BitVec 5) (n : BitVec 2) (z : BitVec 8) (p : BitVec 5) (s : State) : Out :=
  let g := s.st.grant
  let t := sbrAddrs a z s.st.gw g (n.toNat + 1) 0 (s.setX c (s.x c - .ofNat 64 g))
  if (0 : Word).slt (t.x c) then .next (s.transfer t (s.st.pc - 4 * ((o ++ p).setWidth 64 + 1))) else .next t.advance

/-! ### Scalar loads and stores (R118 to R121) -/

/-- Bytes of a size code of `ld` (R93). -/
def ldSize (z : BitVec 3) : Nat := 2 ^ (z.toNat % 4)

/-- The register value of `ldSize z` loaded bytes: sign-extended for codes 0 to 3, zero-extended above (R93). -/
def ldExtend (z : BitVec 3) (v : Nat) : Word :=
  let n := 8 * ldSize z
  if z.toNat < 4 ∧ v / 2 ^ (n - 1) % 2 = 1 then .ofNat 64 (v % 2 ^ n + 2 ^ 64 - 2 ^ n) else .ofNat 64 (v % 2 ^ n)

/-- Whether some of `n` bytes at an address lie in a scratchpad line whose full/empty bit is empty (R119, R120). -/
def State.spadEmpty (s : State) (va : Word) (n : Nat) : Bool :=
  (lineParts va n).any fun (a, _) => (s.st.kind == .execute || inWindow a) && s.core.feEmpty.contains (spadOff a / 128)

/-- A later access of the CC waits for command blocks that a fence with `eng` placed before it (R257). `k` is 2 for loads, 1
for stores. -/
def Core.engHolds (c : Core) (k : BitVec 2) : Bool := c.engKinds &&& k != 0 && c.engAhead.any (· != 0)

/-- Such an access waits. -/
def engGate (k : BitVec 2) : M Unit := do
  let s ← get
  if s.st.kind = .cc && s.core.engHolds k then stop .wait

/-- `ld`: into the load's shadow in a hart, at once in the CC; a hart's load that reaches an empty scratchpad line reads its bytes when
the line is filled (R118, R120). -/
def execLd (d a : BitVec 5) (z : BitVec 3) (o : BitVec 12) (s : State) : Out := deliver s do
  engGate 2
  let va := s.x a + o.signExtend 64
  let n := ldSize z
  if s.st.kind ≠ .cc ∧ s.spadEmpty va n = true then
    for p in lineParts va n do
      let _ ← scalarTr nLoad p.1
    modify (·.advanceLoad d (.late va z))
  else
    let (v, f) ← loadParts (lineParts va n)
    raiseFlags f
    modify (·.advanceValue d (ldExtend z v))

def execSt (d a : BitVec 5) (z : BitVec 2) (o : BitVec 12) (s : State) : Out := deliver s do
  engGate 1
  storeParts (lineParts (s.x a + o.signExtend 64) (2 ^ z.toNat)) (s.x d).toNat
  advanceM

/-- The value of a pending load: already there, or read now, once its lines are filled (R120, R121). -/
def loadValue (p : PendLoad) : M Word := do
  match p.src with
  | .value v => return v
  | .late va z =>
    let s ← get
    if s.spadEmpty va (ldSize z) then stop .wait
    let (v, f) ← loadParts (lineParts va (ldSize z))
    raiseFlags f
    return ldExtend z v

/-- Whether a pending load of the acting strand can be read now. -/
def State.loadReady (s : State) (p : PendLoad) : Bool :=
  match p.src with
  | .value _ => false
  | .late va z => !s.spadEmpty va (ldSize z)

/-- Whether a pending load of the acting strand still meets an empty line. -/
def State.loadEmpty (s : State) (p : PendLoad) : Bool :=
  match p.src with
  | .value _ => false
  | .late va z => s.spadEmpty va (ldSize z)

/-- A pending load read where it stands in the list: its value there, or in X[D] where it is due. A trap or fault found now reports the
load's own word, and the load has completed nothing (R83, R120). -/
def State.readPending (s : State) (before : List PendLoad) (p : PendLoad) (rest : List PendLoad) : Out :=
  let s0 := { s with st := { s.st with pend := before ++ rest } }
  match (loadValue p).run s0 with
  | .ok (v, t) =>
    .next (if before = [] ∧ p.left = 0 then { t with st := { t.st.setX p.dst v with waiting := false } }
      else { t with st := { t.st with pend := before ++ { p with src := .value v } :: rest } })
  | .error .wait => .next { s with st := { s.st with waiting := true } }
  | .error (.trap c i a f) => .next (({ s0 with st := { s0.st with pc := p.pc } } : State).takeTrap c i a f)
  | .error (.fault r) => .next (s.strandFault { r with pc := p.pc })
  | .error (.redo f) =>
    let t := f (fun r => { r with pc := p.pc }) s
    .next { t with st := { t.st with waiting := true } }

/-- A due load's data lands at the boundary before the strand's next instruction; a load that found a line empty is read once the line
is filled, whether or not an earlier one still waits for its own (R82, R120). -/
def execPendingLoadWrite (s : State) : Out :=
  match s.st.pend with
  | [] => .next s
  | p :: r =>
    if s.st.run ≠ .running then .next s
    else if p.left = 0 ∧ s.loadEmpty p = false then s.readPending [] p r
    else match (p :: r).span fun q => !s.loadReady q with
      | (a, q :: b) => s.readPending a q b
      | _ => if p.left = 0 then s.readPending [] p r else .next s

/-! ### Prefetch (R122) -/

/-- A prefetch: nothing but the page's access bit, and nothing at all where translation fails (R122, R377). -/
def State.prefetch (s : State) (va : Word) : State :=
  match s.dev.translate s.via nLoad va with
  | .ok (some (tr, _)) =>
    if pteIcc tr.pte && !(s.dev.verified.contains (rmPage tr.dpa)) then s else s.touch tr false
  | _ => s

def execIpf (a : BitVec 5) (i : BitVec 15) (s : State) : Out := .next (s.prefetch (s.x a + i.signExtend 64)).advance

def execDpf (a : BitVec 5) (i : BitVec 15) (s : State) : Out :=
  .next (if s.st.kind = .execute then s else s.prefetch (s.x a + i.signExtend 64)).advance

/-! ### Shapes and queries (R75, R76, R123, R124) -/

/-- The register segments S that a strand of the core shapes with; those of one hart pair without a gang (log 17). -/
def Core.segs (c : Core) : Nat :=
  match c.gang with
  | some g => g.segs
  | none => if c.laneHalf then 48 else 96

/-- Hart pairs of the gang, 1 without one (log 17). -/
def Core.pairs (c : Core) : Nat :=
  match c.gang with
  | some g => g.h
  | none => 1

/-- limit_rows of the acting strand (R76). -/
def State.limitRows (s : State) : Nat :=
  match s.st.kind with
  | .cc => 0
  | .execute => s.st.mrows.toNat
  | .access => match s.strandAt (9 + s.st.idx) with
    | some x => x.mrows.toNat
    | none => 0

/-- W from its code (R92). -/
def wcWidth (w : BitVec 4) : Nat := if w = 0 then 32 else w.toNat + 1

/-- The grant of R75: vl and vr. -/
def shapeGrant (cap limit rows len : Nat) : Nat × Nat :=
  let vl := Nat.min len cap
  let vr := if vl = 0 then 0 else Nat.min rows (cap / vl)
  let vr := if limit > 0 then Nat.min vr limit else vr
  (if vr = 0 then 0 else vl, vr)

/-- `vshape` with its rows and length. -/
def State.vshape (s : State) (d : BitVec 5) (w rows len : Nat) : State :=
  let (vl, vr) := shapeGrant (s.core.segs * perSeg w) s.limitRows rows len
  let t := { s with st := { s.st with vl := .ofNat 15 vl, vr := .ofNat 15 vr, gw := w } }
  (t.setX d (.ofNat 64 (vl * vr))).advance

def execVshapeImm (d : BitVec 5) (w : BitVec 4) (r : BitVec 7) (l : BitVec 9) (s : State) : Out :=
  .next (s.vshape d (wcWidth w) r.toNat l.toNat)

def execVshapeReg (d a b : BitVec 5) (w : BitVec 4) (s : State) : Out :=
  .next (s.vshape d (wcWidth w) (s.x a).toNat (s.x b).toNat)

/-- Matrix rows attached on the core. -/
def State.rowsAttached (s : State) : Nat := (s.allStrands.map fun t => t.mrows.toNat).foldl (· + ·) 0

def execVquery (d : BitVec 5) (i : BitVec 15) (s : State) : Out :=
  match i.toNat with
  | 0 => s.result d (.ofNat 64 ((if s.core.laneHalf then 2048 else 4096) / s.core.pairs))
  | 1 => s.result d (.ofNat 64 (s.core.segs * 1024))
  | 2 => s.result d (.ofNat 64 s.core.pairs)
  | 3 => s.result d (.ofNat 64 (64 - s.rowsAttached))
  | 4 => s.result d 0x0300
  | _ => .next (s.takeTrap tILLEGAL 0 0 0)

/-! ### Branch-outcome queues (R125) -/

def execBqPush (a : BitVec 5) (s : State) : Out := deliver s do
  match s.st.partner with
  | none => raiseTrap tILLEGAL
  | some n =>
    match s.strandAt n with
    | none => raiseTrap tILLEGAL
    | some p =>
      if 16 ≤ p.bqIn.length then stop .wait
      modify (·.updStrandAt n fun p => { p with bqIn := p.bqIn ++ [s.x a != 0] })
      advanceM

def execBqBr (o : BitVec 15) (s : State) : Out := deliver s do
  if s.st.kind = .cc then raiseTrap tILLEGAL
  match s.st.bqIn with
  | [] => stop .wait
  | b :: r =>
    let t := { s with st := { s.st with bqIn := r } }
    set (if b then s.transfer t (s.st.pc + o.signExtend 64 * 4) else t.advance)

/-! ### Ordering and the gang barrier (R126, R127, R256, R257) -/

/-- The far-copy actions of a fence (Table 13.2); lines in lazy sets are left alone. -/
def State.fenceFar (s : State) (scope : Nat) (ld st : Bool) : State :=
  if scope < 3 then s
  else if ld then s.flushFar (fun f => !s.core.inLazy f) true
  else if st then s.flushFar (fun f => !s.core.inLazy f) false
  else s

/-- Whether the far-copy actions of a fence have to wait for a Shuttle that owns a line (R260). -/
def State.fenceWaits (s : State) (scope : Nat) (ld st : Bool) : Bool :=
  decide (3 ≤ scope) && (ld || st) && s.backWaits fun f => !s.core.inLazy f

/-- `fence`. A load that has still to be read is one that was not performed (R120). -/
def execFence (sc k : BitVec 3) (s : State) : Out :=
  if (k.getLsbD 2 && s.st.unread) || s.fenceWaits sc.toNat (k.getLsbD 2) (k.getLsbD 1) then .next s.await
  else
  let t := s.fenceFar sc.toNat (k.getLsbD 2) (k.getLsbD 1)
  let t := if k.getLsbD 0 && s.st.kind == .cc then
      { t with core := { t.core with engKinds := t.core.engKinds ||| k.extractLsb' 1 2
                                     engAhead := t.core.cmdq.map List.length } } else t
  .next t.advance

/-- Whether every strand of the gang has arrived at the barrier of generation `gen`, ended strands included; the CC is ended
too when its program was left (R127, R190). -/
def State.allArrived (s : State) (gen : Nat) : Bool :=
  s.allStrands.all fun t => t.run == .ended || (t.slot == 0 && (s.core.gang.any (·.left))) ||
    (t.run == .running && t.arrived == some gen)

def execBar (s : State) : Out :=
  match s.core.gang with
  | none => .next s.advance
  | some g =>
    if s.atResident then .next s.advance
    else if s.st.unread then .next s.await
    else
      let gen := s.st.arrived.getD g.barGen
      if gen < g.barGen then .next ({ s with st := { s.st with arrived := none } } : State).advance
      else
        let t := { s with st := { s.st with arrived := some gen } }
        if t.allArrived gen then
          .next ({ t with st := { t.st with arrived := none },
                          core := { t.core with gang := some { g with barGen := gen + 1 } } } : State).advance
        else .next t.await

/-! ### Traps and hints (R128) -/

def execTrap (i : BitVec 15) (s : State) : Out := .next (s.takeTrap tTRAP (i.setWidth 32) 0 0)
def execNop (s : State) : Out := .next s.advance
def execYield (s : State) : Out := .next s.advance

/-- An encoding that is not allocated issues (R87, R322). -/
def execUnallocatedEncoding (_w : BitVec 32) (s : State) : Out := .next (s.takeTrap tILLEGAL 0 0 0)

/-! ### User system registers (R80, R129, Table 04.4) -/

/-- log2 of the hart pairs. -/
def lgPairs (h : Nat) : Nat := h.log2

/-- `sr.hartid` of the acting strand (Table 04.5). -/
def State.hartid (s : State) : Word :=
  .ofNat 64 (s.dev.num.toNat * 2 ^ 32 + s.core.num * 2 ^ 16 + s.st.who.toNat + lgPairs s.core.pairs)

/-- A field of the context that the acting core runs; 0 without one. -/
def State.ctxField (s : State) (f : Ctx → Word) : Word :=
  match s.dev.ctx s.core.ctxId with
  | some c => f c
  | none => 0

/-- A core's count of basting entries after the context's was rewritten from `old` to `new`: what the core reads stays (R25, R80). -/
def Core.keepCount (c : Core) (ctx : Nat) (old new : Word) : Core :=
  if c.gang.isSome && c.ctxId == ctx then { c with bheadLag := c.bheadLag + (old - new) } else c

/-- The value of a user system register, or none where the strand may not read it (R80). -/
def State.readSr (s : State) (n : BitVec 12) : Option Word :=
  match n.toNat with
  | 0x000 => some (s.st.flags.setWidth 64)
  | 0x001 => some (s.st.tmask.setWidth 64)
  | 0x002 => some (s.st.round.setWidth 64)
  | 0x003 => if s.st.kind = .cc then none else some (s.st.seed.setWidth 64)
  | 0x004 => some s.hartid
  | 0x005 => if s.st.kind = .execute then some (s.st.mrows.setWidth 64) else none
  | 0x006 => some (s.st.vl.setWidth 64)
  | 0x007 => some (s.st.vr.setWidth 64)
  | 0x008 => some (s.ctxField fun c => c.eb.setWidth 64)
  | 0x009 => some (s.ctxField fun _ => s.core.baste.setWidth 64)
  | 0x00A => some (s.ctxField fun _ => s.core.bbuf)
  | 0x00B => some (s.ctxField fun c => c.bhead + s.core.bheadLag)
  | _ => none

/-- LGN as a write stores it (Table 03.8). -/
def basteStore (v : Word) : BitVec 5 :=
  let n := v.extractLsb' 0 5
  if 4 ≤ n.toNat ∧ n.toNat ≤ 16 then n else 0

/-- `sr.bbuf` as a write stores it (Table 03.9). -/
def bbufStore (v : Word) : Word :=
  let n := v.toNat % 32
  .ofNat 64 (v.toNat / 4096 * 4096 + (if n ≤ 16 then n else 16))

/-- The state with the context of the core changed. -/
def State.setCtx (s : State) (f : Ctx → Ctx) : State := { s with dev := s.dev.updCtx s.core.ctxId f }

/-- `sr.bhead` written: the context's COUNT and the core's own view of it; other cores, and gangs in containers, go on counting from what
they hold (R25, R80). -/
def State.setBhead (s : State) (v : Word) : State :=
  let ctx := s.core.ctxId
  let old := s.ctxField (·.bhead)
  let s := s.setCtx fun c => { c with bhead := v }
  { s with
    core := { s.core with bheadLag := 0 }
    dev := { s.dev with
      cores := s.dev.cores.map fun c => c.keepCount ctx old v
      saved := s.dev.saved.map fun g => { g with body := g.body.keepCount ctx old v } } }

/-- The state with a user system register written, or none where the strand may not write it (R80, R129). -/
def State.writeSr (s : State) (n : BitVec 12) (v : Word) : Option State :=
  match n.toNat with
  | 0x000 => some { s with st := { s.st with flags := v.extractLsb' 0 8 } }
  | 0x001 => some { s with st := { s.st with tmask := v.extractLsb' 0 8 } }
  | 0x002 => some { s with st := { s.st with round := if v.extractLsb' 0 3 = 7 then 0 else v.extractLsb' 0 3 } }
  | 0x003 => if s.st.kind = .cc then none else some { s with st := { s.st with seed := seedStore (v.extractLsb' 0 32) } }
  | 0x009 => some { s.setCtx (fun c => { c with baste := basteStore v }) with core := { s.core with baste := basteStore v } }
  | 0x00A => some { s.setCtx (fun c => { c with bbuf := bbufStore v }) with core := { s.core with bbuf := bbufStore v } }
  | 0x00B => some (s.setBhead v)
  | _ => none

def execSysr (d : BitVec 5) (n : BitVec 12) (s : State) : Out :=
  match s.readSr n with
  | some v => s.result d v
  | none => .next (s.takeTrap tILLEGAL 0 0 0)

def execSysw (a : BitVec 5) (n : BitVec 12) (s : State) : Out :=
  match s.writeSr n (s.x a) with
  | some t => .next t.advance
  | none => .next (s.takeTrap tILLEGAL 0 0 0)

/-- A write of a strand's generator: zero is stored as 1 (R40). The CC holds none. -/
def execSrSeed (v : BitVec 64) (s : State) : Out := .next ((s.writeSr 3 v).getD s)

end Sys2Proof.Machine
end

