-- ==== Sys2Proof/Machine/Clasps.lean ====
section
/-! DEFINITION. Clasps (R262 to R278, R284, R285, R338): requests, recalls, grants and releases, in the composed form in which
`acq`, `tryacq` and `rel` carry them out, and message by message as the agents' steps do. -/

namespace Sys2Proof.Machine

/-! ### Cores and lazy tables -/

/-- The state with one core, all its strands included, and the device changed together. -/
def State.onCoreAt (s : State) (n : Nat) (f : Dev → Core → Dev × Core) : State :=
  if s.core.num = n then s.onCore f
  else match s.dev.cores.find? (·.num == n) with
    | none => s
    | some c =>
      let (d, c) := f s.dev c
      { s with dev := { d with cores := putCore c d.cores } }

/-- A core's lazy-table entry for a clasp. -/
def Core.entryFor (c : Core) (loc : Nat) : Option LazyEntry := c.lazy.find? (·.clasp == loc)

/-- A core with the entry for a clasp changed. -/
def Core.updEntry (c : Core) (loc : Nat) (f : LazyEntry → LazyEntry) : Core :=
  { c with lazy := c.lazy.map fun e => if e.clasp = loc then f e else e }

/-- Whether an address lies in captured ranges. -/
def inRanges (rs : List (Word × Nat)) (va : Word) : Bool := rs.any fun (b, n) => b.toNat ≤ va.toNat && decide (va.toNat < b.toNat + n)

/-- Whether copies of a core have still to land lines in an entry's ranges (R271 step 1). -/
def Core.landingIn (c : Core) (e : LazyEntry) : Bool :=
  c.copies.any fun k => k.ctx == e.ctx && k.lines.any fun l => inRanges e.ranges l.dst

/-- One more clasp message, or several (R277). -/
def ClaspHome.count (h : ClaspHome) (n : Nat) : ClaspHome := { h with msgs := h.msgs + n }

/-- The device with what a home keeps of a clasp changed. -/
def Dev.updClasp (d : Dev) (loc : Nat) (f : ClaspHome → ClaspHome) : Dev := d.setClasp (f (d.claspHome loc))

/-! ### Recalls (R271, R276, R284, R285) -/

/-- A recall received by the retaining core, which from then on retains the clasp no longer (R276, R284). A core that holds it learns of a
waiter; of another the write-backs and the signature are due. -/
def recallCore (loc : Nat) (d : Dev) (c : Core) : Dev × Core :=
  match c.entryFor loc with
  | none => (d.updClasp loc fun h => { h with retainer := none }, c)
  | some e =>
    if e.held then
      (d.updClasp loc fun h => { h with retainer := none }, c.updEntry loc fun e => { e with waiter := true, retained := false })
    else
      (d.updClasp loc fun h => { (h.count 1) with retainer := none, recalled := true },
       c.updEntry loc fun e => { e with retained := false, waiter := false, due := true })

/-- The number under which the home of a clasp knows a core of another device (log 28). -/
def foreignCore (dev core : Nat) : Nat := 65536 * (1 + dev) + core

/-- The recall of a clasp that some core retains; one to another device leaves over Lacing, and its signature is awaited (R276, R338). -/
def State.recall (s : State) (loc : Nat) : State :=
  match (s.dev.claspHome loc).retainer with
  | none => s
  | some r =>
    if 65536 ≤ r then { s with dev := s.dev.updClasp loc fun h => { (h.count 1) with retainer := none, recalled := true } }
    else s.onCoreAt r (recallCore loc)

/-- A lazy-table entry whose signature has left: its lazy set has ended (R270, R271). -/
def LazyEntry.sent (e : LazyEntry) : LazyEntry := { e with lset := [], lines := [], sig := 0, due := false }

/-- The write-backs and the signature of a releaser, performed at once: its far copies stay, clean (R285). -/
def recallDirect (loc : Nat) (e : LazyEntry) (d : Dev) (c : Core) : Dev × Core :=
  let n := (c.far.filter fun f => e.has f && f.dirty != 0).length
  let (d, c) := backFar d c e.has
  (d.updClasp loc fun h => { (h.count (n + 1)) with sig := some e.sigma, recalled := false }, c.updEntry loc .sent)

/-- The same with the write-backs on their way to the homes of their lines, and the signature still to come (R338). -/
def recallSent (loc : Nat) (e : LazyEntry) (d : Dev) (c : Core) : Dev × Core :=
  let (d, c) := sendFar loc d c e.has
  (d, c.updEntry loc fun e => { e with due := false })

/-- The recall that is due of a core, performed once the copies it started have landed their lines in the ranges (R271 step 1). -/
def performDue (perform : Nat → LazyEntry → Dev → Core → Dev × Core) (loc : Nat) (d : Dev) (c : Core) : Dev × Core :=
  match c.entryFor loc with
  | none => (d, c)
  | some e => if !e.due || c.landingIn e then (d, c) else perform loc e d c

/-- The core that released a clasp last. -/
def Dev.releaserOf (d : Dev) (loc : Nat) : Nat :=
  let l := (d.lineAt (loc * 128)).1
  if clRdev l = d.num.toNat then clRcore l else foreignCore (clRdev l) (clRcore l)

/-- Whether a write-back of a core's recall has to wait for a Shuttle that owns its line (R260). -/
def State.recallWaits (s : State) (c : Core) (loc : Nat) : Bool :=
  (c.entryFor loc).any fun e => c.far.any fun f => e.has f && f.dirty != 0 && s.owned (f.loc * 128)

/-- The recall that is due of a clasp's last releaser. -/
def State.dueRecall (s : State) (perform : Nat → LazyEntry → Dev → Core → Dev × Core) (loc : Nat) : State :=
  let r := s.dev.releaserOf loc
  if (s.coreAt r).any (s.recallWaits · loc) then s else s.onCoreAt r (performDue perform loc)

/-- The signature that the clasp's last releaser has still to send, after its write-backs (R271 step 4); another device's comes over Lacing. -/
def State.sendSignature (s : State) (loc : Nat) : State :=
  let rel := s.dev.releaserOf loc
  let e : Option LazyEntry := (s.coreAt rel).bind (·.entryFor loc)
  if !(s.dev.claspHome loc).recalled || e.any (·.due) || decide (65536 ≤ rel) then s
  else
    let s := { s with dev := s.dev.updClasp loc fun h => { (h.count 1) with recalled := false, sig := e.map LazyEntry.sigma } }
    s.onCoreAt rel fun d c => (d, c.updEntry loc .sent)

/-- Write-backs of a clasp performed at their homes and acknowledged; one to a line that a Shuttle owns waits (R260). -/
def State.landBacks (s : State) (loc : Nat) : Dev :=
  let h := s.dev.claspHome loc
  ((h.wbs.filter fun w => !s.owned (w.copy.loc * 128)).foldl (fun d w => d.landBefore w.core (w.copy.loc * 128)) s.dev).updClasp loc fun h =>
    { h with acks := 0 }

/-- A request that reached the home goes as far as it can: recall, write-backs, acknowledgements, signature (R338). -/
def State.progress (s : State) (loc : Nat) : State :=
  let s := (s.recall loc).dueRecall recallDirect loc
  let s := { s with dev := s.landBacks loc }
  s.sendSignature loc

/-- Whether the home may grant a clasp: free, retained nowhere, every write-back acknowledged and no signature due (R267,
R338). -/
def Dev.grantable (d : Dev) (loc : Nat) : Bool :=
  let h := d.claspHome loc
  let (l, t) := d.lineAt (loc * 128)
  !(clHeld (if t.cls = cUNW then 0 else l)) && h.retainer.isNone && h.wbs.isEmpty && h.acks == 0 && !h.recalled

/-! ### Ranges and invalidation (R263, R272) -/

/-- A CLASP_STATE trap (Table 13.6). -/
def claspTrap {α : Type} (info : BitVec 32) (va : Word) : M α := stop (.trap tCLASP_STATE info va 0)

/-- `n` entries of a range list from an address on, checked (R263). -/
def readRanges (clasp : Word) : Nat → Word → M (List (Word × Nat))
  | 0, _ => return []
  | n + 1, a => do
    let (v, _) ← loadParts (lineParts a 16)
    let base := BitVec.ofNat 64 v
    let len := v / 2 ^ 64
    if base.extractLsb' 0 7 ≠ 0 ∨ len % 128 ≠ 0 ∨ len = 0 then claspTrap 5 clasp
    let r ← readRanges clasp n (a + 16)
    return (base, len) :: r

/-- The ranges of a clasp captured (R263). -/
def captureRanges (va : Word) (l : Line) : M (List (Word × Nat)) := do
  if 8 < clNr l then claspTrap 5 va
  readRanges va (clNr l) (clRptr l)

/-- The far copies of a list with free bytes in those dirty ones that `p` names, and the count of free values taken. -/
def freeDirty (p : FarCopy → Bool) : List FarCopy → Nat → List FarCopy × Nat
  | [], n => ([], n)
  | f :: r, n =>
    if p f && f.dirty != 0 then
      let (r, m) := freeDirty p r (n + 1)
      ({ f with data := Config.freeLine n } :: r, m)
    else
      let (r, m) := freeDirty p r n
      (f :: r, m)

/-- The far copies of the acting core that `p` names invalidated. A dirty one comes from a breach: it is written back first, with undefined
bytes (R272). -/
def invalidate (p : FarCopy → Bool) : M Unit := do
  let s ← get
  if s.backWaits p then stop .wait
  let (far, n) := freeDirty p s.core.far s.dev.free
  set (({ s with core := { s.core with far := far }, dev := { s.dev with free := n } } : State).flushFar p true)

/-- The invalidations of a grant (R272): none, by signature, or in full. -/
def grantInvalidate (ctx : Nat) (rs : List (Word × Nat)) (q : Word) (seen : Option Word) (sig : Option (BitVec 1024)) : M Unit :=
  let within (f : FarCopy) : Bool := f.ctx == ctx && inRanges rs f.va
  let last := q - 1
  if seen == some q then pure ()
  else match sig with
    | some g => if seen == some last then invalidate fun f => within f && sigMatch g f.va else invalidate within
    | none => invalidate within

/-- The oldest entry of a released clasp, where the acting core's lazy table is full and has none for this one: it is the entry to be
converted (R273). -/
def State.roomFrom (s : State) (loc : Nat) : Option LazyEntry :=
  if s.core.lazy.length < Config.lazyEntries || (s.core.entryFor loc).isSome then none else s.core.lazy.find? fun e => !e.held

/-- Whether an eager conversion of an entry has to wait: for a hand-off under way, for the copies that still land in its ranges, or for a
Shuttle that owns a line of its lazy set (R260, R271). -/
def State.convertWaits (s : State) (e : LazyEntry) : Bool := e.due || e.relBy.isSome || s.core.landingIn e || s.backWaits e.has

/-- Whether an acquisition waits for the conversion that gives it an entry. -/
def State.roomWaits (s : State) (loc : Nat) : Bool := (s.roomFrom loc).any s.convertWaits

/-- Room for an entry in the acting core's lazy table: the oldest entry of a released clasp is converted where the table is full
(R273). Answers whether there is room. -/
def roomForEntry (loc : Nat) : M Bool := do
  let s ← get
  match s.roomFrom loc with
  | none => return decide (s.core.lazy.length < Config.lazyEntries) || (s.core.entryFor loc).isSome
  | some e =>
    if s.convertWaits e then stop .wait
    modify fun s => s.onCore fun d c => convertLazy d c fun x => x.clasp == e.clasp
    return true

/-- The acting core's entry for a clasp replaced, or added last. -/
def putEntry (e : LazyEntry) : M Unit := modify fun s =>
  let known := s.core.lazy.any fun x => x.clasp == e.clasp
  { s with core := { s.core with lazy :=
      if known then s.core.lazy.map fun x => if x.clasp = e.clasp then e else x else s.core.lazy ++ [e] } }

/-! ### Issue (R265) -/

/-- The line of a clasp at its home, after the checks that all three instructions share (R264, R265). -/
def claspLine (va : Word) : M (Tr × Line) := do
  if va.extractLsb' 0 7 ≠ 0 then stop (.trap tMISALIGNED 0 va 0)
  if inWindow va then claspTrap 1 va
  engGate 3
  let s ← get
  let tr ← translate s.via nRmw va
  let (l, t) ← readHome tr nRmw.kind
  if t.cls = cPOI then faultAt nRmw.kind va (fltPoison 0 tr.dpa)
  if t.cls = cINV then stop (.trap tTAG_CLASS 0 va 0)
  if t.cls = cSTG then faultAt nRmw.kind va (fltStgWrite 0 tr.dpa)
  let l := if t.cls = cUNW then 0 else l
  if 2 ≤ clMode l ∨ clWordOk l = false then claspTrap 2 va
  if clMode l = 1 ∧ clParties l = 0 then claspTrap 6 va
  return (tr, l)

/-- The clasp's line written at its home, as an access of the acting strand. -/
def putClasp (tr : Tr) (l : Line) : M Unit := do
  modify fun s => { s with dev := s.dev.forgetClasp (tr.loc / 128) }
  let s ← get
  putLine tr nRmw.kind 0 (clWritten l) (s.dev.homeLine tr).2.raw
  touchM tr

/-- Whether the acting core holds a lock. -/
def State.holds (s : State) (l : Line) : Bool := clHeld l && clHcore l == s.core.num && clHdev l == s.dev.num.toNat

/-- A lock's line with the acting core as holder. -/
def State.heldLine (s : State) (l : Line) : Line := lineSet (lineSet (lineSet l 0 1 1) 16 16 s.core.num) 32 8 s.dev.num.toNat

/-! ### Grants (R267) -/

/-- The grant of a lock to the acting core; the instruction's result is left to it. -/
def grantLock (tr : Tr) (va : Word) (l : Line) : M Unit := do
  let s ← get
  let loc := tr.loc / 128
  let h := s.dev.claspHome loc
  let rs ← captureRanges va l
  let own := s.core.entryFor loc
  let q := clRseq l
  if h.retainer = some s.core.num then
    -- a local hit: the lazy set goes on under the new ranges
    modify fun s => { s with core := s.core.updEntry loc fun e => { e with held := true, ranges := rs, va := va, ctx := s.core.ctxId } }
    putClasp tr (s.heldLine l)
  else
    let foreign := clRv l && !(clRcore l == s.core.num && clRdev l == s.dev.num.toNat)
    let sig := if foreign then h.sig else if !clRv l && clSigSeq l == q then some (sigUnfold (clSig l)) else none
    let room ← roomForEntry loc
    grantInvalidate s.core.ctxId rs q (if room then own.map (·.seen) else none) sig
    modify fun s => { s with dev := s.dev.updClasp loc fun h =>
      { (h.count 1) with fifo := h.fifo.filter fun r => !(r.core == s.core.num && r.who == s.st.slot),
                         sig := none, granted := false, retainer := if room then some s.core.num else none,
                         ranges := if room then [] else rs } }
    if room then
      let s ← get
      putEntry ⟨loc, s.core.ctxId, va, rs, q, [], [], 0, true, true, !(s.dev.claspHome loc).fifo.isEmpty, false, own.bind (·.relBy)⟩
    else modify fun s => { s with core := { s.core with bare := s.core.bare ++ [(loc, s.core.ctxId)] } }
    putClasp tr (s.heldLine l)

/-- The state in which the acting strand's request stands in the FIFO, counted once (R267). -/
def State.enqueueClasp (s : State) (loc : Nat) (try_ : Bool) : State :=
  let h := s.dev.claspHome loc
  if h.fifo.any (fun r => r.core == s.core.num && r.who == s.st.slot) then s
  else { s with dev := s.dev.setClasp { (h.count 1) with fifo := h.fifo ++ [⟨s.core.num, s.st.slot, try_⟩] } }

/-- The state without the acting strand's requests (R267). -/
def State.withdraw (s : State) : State := { s with dev := s.dev.withdraw s.core.num (· == s.st.slot) }

/-- Whether the acting strand's request is the head of a FIFO. -/
def State.atHead (s : State) (loc : Nat) : Bool :=
  match (s.dev.claspHome loc).fifo with
  | r :: _ => r.core == s.core.num && r.who == s.st.slot
  | [] => false

/-- Whether another strand of the core has a request waiting (Table 13.6 INFO 4). -/
def State.otherWaits (s : State) (loc : Nat) : Bool :=
  (s.dev.claspHome loc).fifo.any fun r => r.core == s.core.num && r.who != s.st.slot

/-- Whether a request is the acting strand's own. -/
def State.isOwn (s : State) (r : ClaspReq) : Bool := r.core == s.core.num && r.who == s.st.slot

/-- Whether another's request stands in the FIFO ahead of the acting strand, whose own may stand there since an earlier try (R268). -/
def State.isBehind (s : State) (loc : Nat) : Bool := !((s.dev.claspHome loc).fifo.takeWhile fun r => !s.isOwn r).isEmpty

/-- The barrier part of `acq`: the full path, a new lazy set, X[D] ← GEN (R278). -/
def passBarrier (d : BitVec 5) (tr : Tr) (va : Word) (l : Line) : M Unit := do
  let s ← get
  let loc := tr.loc / 128
  let rs ← captureRanges va l
  discard (roomForEntry loc)
  grantInvalidate s.core.ctxId rs 0 none none
  putEntry ⟨loc, s.core.ctxId, va, rs, clRseq l, [], [], 0, true, false, false, false, none⟩
  -- a request and a grant (R277)
  modify fun s => { s with dev := s.dev.updClasp loc (·.count 2) }
  touchM tr
  modify (·.advanceValue d (.ofNat 64 (clGen l).toNat))

/-- Whether `acq` of a barrier waits: GEN is the core's arrival generation (R278). -/
def State.barrierWaits (s : State) (loc : Nat) (l : Line) : Bool := s.core.arrivals.any fun a => a.1 == loc && a.2 == clGen l

/-- What an attempt to acquire comes to: the clasp is granted, or the strand waits with its request in the FIFO. -/
def acquire (d a : BitVec 5) : M Bool := do
  let va := (← get).x a
  let (tr, l) ← claspLine va
  let s ← get
  let loc := tr.loc / 128
  if clMode l = 1 then
    if s.barrierWaits loc l then return false
    passBarrier d tr va l
    return true
  else
    if s.holds l || s.otherWaits loc then claspTrap 4 va
    if (s.dev.claspHome loc).retainer = some s.core.num then
      grantLock tr va l
      modify (·.advanceValue d (clRseq l))
      return true
    else
      set ((s.enqueueClasp loc false).progress loc)
      let s ← get
      if s.atHead loc && ((s.dev.claspHome loc).granted || s.dev.grantable loc) && !s.roomWaits loc then
        let (l, t) := s.dev.homeLine tr
        let l := if t.cls = cUNW then 0 else l
        grantLock tr va l
        modify (·.advanceValue d (clRseq l))
        return true
      else return false

/-- The outcome of an acquisition: done, waiting with the request kept, or stopped with the request withdrawn. -/
def settleAcquire (s : State) (m : M Bool) : State :=
  match m.run s with
  | .ok (true, t) => t
  | .ok (false, t) => t.await
  | .error .wait => s.await
  | .error (.redo f) => f id s.await
  | .error e => s.withdraw.stopped e

def execAcq (d a : BitVec 5) (s : State) : Out := .next (settleAcquire s (acquire d a))

/-- `tryacq` (R268): as `acq` where the clasp is free with nobody ahead, else 0. -/
def tryAcquire (d a : BitVec 5) : M Bool := do
  let va := (← get).x a
  let (tr, l) ← claspLine va
  let s ← get
  let loc := tr.loc / 128
  let h := s.dev.claspHome loc
  if clMode l = 1 then
    if s.barrierWaits loc l then
      modify fun s => { s with dev := s.dev.updClasp loc (·.count 2) }
      touchM tr
      modify (·.advanceValue d 0)
    else passBarrier d tr va l
    return true
  else
    if s.holds l || s.otherWaits loc then claspTrap 4 va
    if h.retainer = some s.core.num then
      grantLock tr va l
      modify (·.advanceValue d 1)
      return true
    else if clHeld l || s.isBehind loc then
      -- a request and its refusal; the request counts once (R277)
      modify fun s => { (s.withdraw : State) with dev := s.withdraw.dev.updClasp loc (·.count (if h.fifo.any s.isOwn then 1 else 2)) }
      touchM tr
      modify (·.advanceValue d 0)
      return true
    else
      set ((s.enqueueClasp loc true).progress loc)
      let s ← get
      if s.dev.grantable loc && !s.roomWaits loc then
        let (l, t) := s.dev.homeLine tr
        grantLock tr va (if t.cls = cUNW then 0 else l)
        modify (·.advanceValue d 1)
        return true
      else return false

def execTryacq (d a : BitVec 5) (s : State) : Out := .next (settleAcquire s (tryAcquire d a))

/-! ### Releases (R269, R273, R278) -/

/-- A lock's line after its release by the acting core (R269). -/
def State.releasedLine (s : State) (l : Line) (rv : Nat) : Line :=
  lineSet (lineSet (lineSet (lineSet (lineSet l 0 1 0) 128 64 (clRseq l + 1).toNat) 80 16 s.core.num) 96 8 s.dev.num.toNat) 64 1 rv

/-- The hand-off that a `rel` of the acting strand started, as far as it goes; whether it is over (R269, R284). -/
def handOff (loc : Nat) : M Bool := do
  modify fun s => (s.dueRecall recallDirect loc).sendSignature loc
  let s ← get
  if (s.core.entryFor loc).any (·.due) || (s.dev.releaserOf loc == s.core.num && (s.dev.claspHome loc).recalled) then return false
  set { s with core := s.core.updEntry loc fun e => { e with relBy := none } }
  return true

/-- The release of a lock, and whether it is complete: one that hands the clasp over waits for the recall's write-backs and signature, while
the clasp is no longer held or retained (R269, R273, R284). -/
def releaseLock (tr : Tr) (va : Word) (l : Line) : M Bool := do
  let s ← get
  let loc := tr.loc / 128
  let own := s.core.entryFor loc
  if own.any (fun e => e.relBy == some s.st.slot) then handOff loc
  else
    if !s.holds l then claspTrap 3 va
    let h := s.dev.claspHome loc
    match own with
    | none =>
      -- a holding without an entry (R273)
      let mine (f : FarCopy) : Bool := f.ctx == s.core.ctxId && inRanges h.ranges f.va
      let n := (s.core.far.filter fun f => mine f && f.dirty != 0).length
      if s.backWaits mine then stop .wait
      modify (·.flushFar mine false)
      modify fun s => { s with core := { s.core with bare := s.core.bare.filter (·.1 != loc) },
                               dev := s.dev.updClasp loc fun h => { (h.count (n + 2)) with retainer := none, ranges := [] } }
      putClasp tr (s.releasedLine l 0)
      return true
    | some e =>
      let q := clRseq l + 1
      if e.waiter then
        putClasp tr (s.releasedLine l 1)
        -- the recall row of Table 13.7, whose recall is counted here (R277)
        modify fun s => { s with
          core := s.core.updEntry loc fun e => { e with held := false, retained := false, waiter := false, seen := q, due := true, relBy := some s.st.slot }
          dev := s.dev.updClasp loc fun h => { (h.count 1) with retainer := none, recalled := true } }
        handOff loc
      else
        modify fun s => { s with core := s.core.updEntry loc fun e => { e with held := false, seen := q } }
        putClasp tr (s.releasedLine l 1)
        return true

/-- An arrival at a barrier (R278). -/
def arriveBarrier (tr : Tr) (l : Line) : M Unit := do
  let s ← get
  let loc := tr.loc / 128
  let g := clGen l
  match s.core.entryFor loc with
  | some e =>
    if s.core.landingIn e || s.backWaits e.has then stop .wait
    let n := (s.core.far.filter fun f => e.has f && f.dirty != 0).length
    modify fun s => s.onCore fun d c => backFar d c e.has
    modify fun s => { s with core := (s.core.updEntry loc fun e => { e with held := false }).updEntry loc .sent,
                             dev := s.dev.updClasp loc (·.count (n + 2)) }
  | none => modify fun s => { s with dev := s.dev.updClasp loc (·.count 2) }
  modify fun s => { s with core := { s.core with arrivals := (loc, g) :: s.core.arrivals.filter (·.1 != loc) } }
  let n := clArrived l + 1
  putClasp tr (if n = clParties l then lineSet (lineSet (lineSet l 0 16 0) 32 16 (g + 1).toNat) 128 64 (clRseq l + 1).toNat
    else lineSet l 0 16 n)

/-- `rel`: first every earlier access of the strand is performed, a load that has still to be read among them (R120, R269). -/
def release (a : BitVec 5) : M Bool := do
  let s ← get
  if s.st.unread then stop .wait
  let va := s.x a
  let (tr, l) ← claspLine va
  let done ← if clMode l = 1 then (do
    arriveBarrier tr l
    pure true) else releaseLock tr va l
  if done then advanceM
  return done

def execRel (a : BitVec 5) (s : State) : Out := .next (settleKept s (release a))

/-! ### The messages one by one (R275, R338) -/

/-- A request of a strand of core `core` reaches the home and joins the FIFO; a clasp that is retained is recalled (R275,
R276). The strand is the lowest-numbered one of that core that waits and has no request there. -/
def execClaspRequest (clasp core : Nat) (try_ : Bool) (s : State) : Out :=
  let h := s.dev.claspHome clasp
  let who := (s.coreAt core).bind fun c => (c.strands.find? fun t => t.waiting && t.run == .running &&
    !(h.fifo.any fun r => r.core == core && r.who == t.slot) && !(c.lazy.any fun e => e.relBy == some t.slot)).map (·.slot)
  .next (match who with
    | none => s
    | some w => { s with dev := s.dev.setClasp { (h.count 1) with fifo := h.fifo ++ [⟨core, w, try_⟩] } })

/-- The recall of a retained clasp reaches the retaining core (R271, R276, R284). -/
def execRecallClasp (clasp : Nat) (s : State) : Out :=
  .next (if (s.dev.claspHome clasp).fifo.isEmpty then s else (s.recall clasp).dueRecall recallSent clasp)

/-- The releaser's signature reaches the home (R338 step 4), after the write-backs of a recall that its copies had held up. -/
def execSignature (clasp : Nat) (s : State) : Out := .next ((s.dueRecall recallSent clasp).sendSignature clasp)

/-- A clasp granted to a core of another device, which holds and retains it from now on (R267, R269; log 28). -/
def Dev.grantAway (d : Dev) (clasp core : Nat) : Dev :=
  (d.claspPut clasp fun l => lineSet (lineSet (lineSet l 0 1 1) 16 16 (core % 65536)) 32 8 (core / 65536 - 1)).updClasp clasp fun h =>
    { (h.count 1) with fifo := h.fifo.tail, sig := none, granted := false, retainer := some core, ranges := [] }

/-- The grant to the head of the FIFO leaves the home, once every write-back is acknowledged (R338 step 5); the acquirer's own
step completes it. -/
def execGrant (clasp : Nat) (s : State) : Out :=
  .next (match (s.dev.claspHome clasp).fifo with
    | [] => s
    | r :: _ =>
      if s.dev.grantable clasp = false then s
      else if 65536 ≤ r.core then { s with dev := s.dev.grantAway clasp r.core }
      else { s with dev := s.dev.updClasp clasp fun h => { h with granted := true } })

/-- The home refuses the requests of `tryacq` while the clasp is held or others are ahead (R268). -/
def execRefusal (clasp : Nat) (s : State) : Out :=
  .next { s with dev := s.dev.updClasp clasp fun h =>
    let keep := (h.fifo.zipIdx.filter fun (r, i) => !r.try_ || (i == 0 && s.dev.grantable clasp)).map (·.1)
    { (h.count (h.fifo.length - keep.length)) with fifo := keep } }

/-- Whether a write-back that a core sent earlier to the same home is still on its way (R339). -/
def Dev.behindBack (d : Dev) (w : WriteBack) : Bool :=
  d.clasps.any fun h => h.wbs.any fun x => x.toward w.core (w.copy.loc * 128) && decide (x.seq < w.seq)

/-- The oldest write-back on its way is performed at the home of its line (R338 step 3), unless one of its core to that home was sent
before it, or a Shuttle owns the line (R260, R339). -/
def execWriteBack (clasp : Nat) (s : State) : Out :=
  .next (match (s.dev.claspHome clasp).wbs with
    | [] => s
    | w :: r =>
      if s.owned (w.copy.loc * 128) || s.dev.behindBack w then s
      else { s with dev := (s.dev.farBack w.copy).updClasp clasp fun h => { h with wbs := r, acks := h.acks + 1 } })

/-- An acknowledgement of a performed write-back reaches the clasp's home (R338 step 3). -/
def execAcknowledge (clasp : Nat) (s : State) : Out :=
  .next { s with dev := s.dev.updClasp clasp fun h => { h with acks := h.acks - 1 } }

end Sys2Proof.Machine
end

