-- ==== Sys2Proof/Machine/Operands.lean ====
section
/-! DEFINITION. Vector operands: register names under the rotating base (R116), element codes (R27, R50, R74), tiles with
pending operations (R177, R180, R183), the checks made at issue (R54, R77, R89), the reading of an operand into the compute
format (R55, R56, R131) and the writing of a destination with its tags (R57, R136). -/

namespace Sys2Proof.Machine

/-! ### Registers, segments and codes -/

/-- The physical register that a name addresses under the rotating base (R116). -/
def Strand.phys (t : Strand) (v : BitVec 5) : Nat :=
  if v.toNat < 16 then v.toNat else 16 + (v.toNat - t.rb.toNat) % 16

/-- A physical vector register. -/
def Strand.reg (t : Strand) (p : Nat) : VReg := if h : p < 32 then t.vreg[p] else .fresh 0

/-- A strand with a physical vector register replaced. -/
def Strand.setReg (t : Strand) (p : Nat) (r : VReg) : Strand := if h : p < 32 then { t with vreg := t.vreg.set p r } else t

/-- Segment `g` of a register. -/
def VReg.seg (r : VReg) (g : Nat) : Seg := r.segs.getD g ⟨0, 0x7F2⟩

/-- The bits of slot `k` of a segment at width `w`, whatever its class. -/
def Seg.bits (s : Seg) (w k : Nat) : Nat := s.data.toNat / 2 ^ (w * k) % 2 ^ w

/-- The code of slot `k` of a segment at width `w`: 0 in a UNW segment (R47). -/
def Seg.code (s : Seg) (w k : Nat) : Nat := if s.side.cls = cUNW then 0 else s.bits w k

/-- The code of element `e` at width `w` (R74). -/
def VReg.code (r : VReg) (w e : Nat) : Nat := (r.seg (e / perSeg w)).code w (e % perSeg w)

/-- Segments that hold an element below `g` at width `w`. -/
def segsBelow (g w : Nat) : Nat := (g + perSeg w - 1) / perSeg w

/-- Codes packed at width `w`, the first lowest (R27). -/
def packCodes (w : Nat) (codes : List Nat) : Nat := codes.foldr (fun c acc => c % 2 ^ w + 2 ^ w * acc) 0

/-- Segments with codes written from element 0 on: a written segment keeps the bits of its later elements, has zero padding,
and takes a sidecar; the others stay (R27, R136). -/
def fillSegs (w : Nat) (side : Nat → Sidecar) : List Seg → Nat → List Nat → List Seg
  | [], _, _ => []
  | s :: r, g, codes =>
    match codes with
    | [] => s :: r
    | _ =>
      let here := codes.take (perSeg w)
      let keep := s.data.toNat % 2 ^ (w * perSeg w) / 2 ^ (w * here.length) * 2 ^ (w * here.length)
      ⟨.ofNat 1024 (packCodes w here + keep), side g⟩ :: fillSegs w side r (g + 1) (codes.drop (perSeg w))

/-- The active mask bit of an element: m0 reads all true (Table 00.3). -/
def Strand.maskBit (t : Strand) (m : BitVec 3) (e : Nat) : Bool := m == 0 || (t.mask[m.toNat]'(m.isLt)).getLsbD e

/-- MSK of the decoration, 0 without one (R100). -/
def Strand.msk (t : Strand) : BitVec 3 :=
  match t.deco with
  | some x => x.msk
  | none => 0

/-- Whether the decoration zeroes inactive elements (R100). -/
def Strand.mz (t : Strand) : Bool :=
  match t.deco with
  | some x => x.mz
  | none => false

/-- Whether element `e` is active under the decoration. -/
def Strand.active (t : Strand) (e : Nat) : Bool := t.maskBit t.msk e

/-- The fourth operand: VC, or vd (R100). -/
def Strand.fourth (t : Strand) (d : BitVec 5) : BitVec 5 :=
  match t.deco with
  | some x => if x.vcv then x.vc else d
  | none => d

/-- A rounding mode from its code, with code 7 as `sr.round` (R37). -/
def Strand.modeOf (t : Strand) (c : BitVec 3) : RMode := .ofCode (if c = 7 then t.round else c)

/-- The rounding decoration, if there is one. -/
def Strand.decoMode (t : Strand) : Option RMode :=
  match t.deco with
  | some x => if x.rmv then some (t.modeOf x.rm) else none
  | none => none

/-- mode() of Table 05.12. -/
def Strand.mode (t : Strand) : RMode := t.decoMode.getD (t.modeOf 7)

/-! ### Matrix operations and tiles (R177, R180, R183) -/

/-- Σ of the products of one group, exact, with flags, taken in product order (log 158); the sum of negative zeros alone is -0 (R177). -/
def groupSum (a b : Array Val) (i j g : Nat) : Val × BitVec 8 :=
  let p (k : Nat) : Val × BitVec 8 := (a.getD (i * g + k) .zero).mul (b.getD (j * g + k) .zero)
  (List.range' 1 (g - 1)).foldl (fun (s, f) k =>
    let (x, f₁) := p k
    let (y, f₂) := s.add false x
    (y, f ||| f₁ ||| f₂)) (p 0)

/-- The format of an accumulator, fixed whatever the format table holds, and its index (R171, R177). -/
def accFmt (int : Bool) : Fmt := if int then int32 else fp32
def accIdx (int : Bool) : BitVec 4 := if int then 11 else 0

/-- An integer value modulo 2^w as a code. -/
def wrapCode (w : Nat) (v : Val) : Nat :=
  match v with
  | .fin s m e =>
    let n : Int := (if 0 ≤ e then m * 2 ^ e.toNat else m / 2 ^ (-e).toNat : Nat)
    ((if s then -n else n) % (2 ^ w : Nat)).toNat
  | _ => 0

/-- The new code of a tile element from its old code and the group sum (R177). -/
def accumulate (int : Bool) (old : Nat) (s : Val) : Nat × BitVec 8 :=
  let t := ((accFmt int).decode int old).1
  let (r, f) := t.add false s
  if int then (wrapCode 32 r, f)
  else
    let (c, f₂) := fp32.convert .rne 0 r
    (c, f ||| f₂)

/-- The codes of `n` tile elements from `k` on, new and with flags, in register order. -/
def MatOp.codesFrom (o : MatOp) (a b : Array Val) (old : Nat → Nat) (k n : Nat) : List Nat × BitVec 8 :=
  (List.range' k n).foldr (fun e (cs, f) =>
    let (s, f₁) := groupSum a b (e / o.vl) (e % o.vl) o.g
    let (c, f₂) := accumulate o.accInt (old e) s
    (c :: cs, f ||| f₁ ||| f₂)) ([], 0)

/-- The register that holds tile element `e`, with `c` 32-bit elements each, and the element there (R79). -/
def tileReg (k c e : Nat) : Nat × Nat := (8 * k + e / c, e % c)

/-- The code of a tile element. -/
def Strand.tileCode (t : Strand) (k e : Nat) : Nat :=
  let c := (t.reg (8 * k)).segs.length * 32
  (t.reg (tileReg k c e).1).code 32 (tileReg k c e).2

/-- The registers of tile `k` after one operation, and its flags (R177). -/
def Strand.retireOp (t : Strand) (k : Nat) (o : MatOp) : Strand × BitVec 8 :=
  let c := (t.reg (8 * k)).segs.length * 32
  let total := o.vl * o.vr
  let a := o.a.toArray
  let b := o.b.toArray
  (List.range 8).foldl (fun (u, f) i =>
    let (cs, f₁) := o.codesFrom a b (t.tileCode k) (i * c) (Nat.min c (total - i * c))
    let r := t.reg (8 * k + i)
    (u.setReg (8 * k + i) ⟨accIdx o.accInt, fillSegs 32 (fun _ => mkSide (accIdx o.accInt) 127 false cVAL) r.segs 0 cs⟩, f ||| f₁))
    (t, o.flags)

/-- A tile of a strand. -/
def Strand.tile (t : Strand) (k : Nat) : Tile := t.tiles[k]?.getD .clear

/-- A strand with a tile's state replaced. -/
def Strand.setTile (t : Strand) (k : Nat) (x : Tile) : Strand := if h : k < 4 then { t with tiles := t.tiles.set k x } else t

/-- Operations of a tile still pending (R180). -/
def Tile.pending (x : Tile) : Nat := x.issued - x.done

/-- The first operation of tile `k` whose effect is not yet in the registers put there, with its flags in the tile's set. -/
def Strand.applyFirst (t : Strand) (k : Nat) : Strand :=
  match (t.tile k).ops with
  | [] => t
  | o :: r =>
    let (u, f) := t.retireOp k o
    u.setTile k { u.tile k with ops := r, flags := (u.tile k).flags ||| f }

/-- `n` operations of tile `k` put into the registers. -/
def Strand.applyOps (t : Strand) (k : Nat) : Nat → Strand
  | 0 => t
  | n + 1 => (t.applyFirst k).applyOps k n

/-- The end of a peek view: the registers show every operation retired so far (R183). -/
def Strand.endPeek (t : Strand) (k : Nat) : Strand :=
  let x := t.tile k
  let u := if x.peek then t.applyOps k (x.ops.length - x.pending) else t
  u.setTile k { u.tile k with peek := false }

/-- One pending operation of tile `k` retires; during a peek view its effect is held back (R177, R183). -/
def Strand.retireOne (t : Strand) (k : Nat) : Strand :=
  let x := t.tile k
  if x.pending = 0 then t
  else
    let u := if x.peek then t else t.applyFirst k
    u.setTile k { u.tile k with done := x.done + 1 }

/-- What a stop does to the tiles (R187): operations retire, peek views end, samples of open sequences are discarded. -/
def Strand.stopTiles (t : Strand) : Strand :=
  (List.range 4).foldl (fun u k =>
    let u := u.endPeek k
    let u := u.applyOps k (u.tile k).ops.length
    u.setTile k { u.tile k with done := (u.tile k).issued, sampled := false, start := [], seqOps := [] }) t

/-- The X-hart whose registers the acting strand uses: its own, or its pair's (R211). -/
def State.xslot (s : State) : Nat := 9 + s.st.idx

/-- The X-hart whose registers the acting strand uses. -/
def State.xhart (s : State) : Strand := (s.strandAt s.xslot).getD s.st

/-- Whether a pending operation covers a row group, of eight tile rows, that holds an element of register `p` (R180). -/
def Strand.covered (t : Strand) (p : Nat) : Bool :=
  let x := t.tile (p / 8)
  let c := (t.reg (p / 8 * 8)).segs.length * 32
  (x.ops.drop (x.ops.length - x.pending)).any fun o => decide (p % 8 * c < o.vl * ((o.vr + 7) / 8 * 8))

/-- Reads of registers wait for the pending operations of their tiles, except in a peek view (R180). -/
def readLock (ps : List Nat) : M Unit := do
  let s ← get
  let x := s.xhart
  if ps.any fun p => !(x.tile (p / 8)).peek && x.covered p then stop .wait

/-- A write of registers waits for the pending operations of their tiles and ends a peek view (R180, R183). -/
def writeLock (ps : List Nat) : M Unit := do
  let s ← get
  let x := s.xhart
  if ps.any x.covered then stop .wait
  modify fun s => s.updStrandAt s.xslot fun t => ps.foldl (fun u p => if (u.tile (p / 8)).peek then u.endPeek (p / 8) else u) t

/-- A named register of the X-hart in use, once its tile allows reading it. -/
def readReg (v : BitVec 5) : M VReg := do
  readLock [(← get).xhart.phys v]
  return (← get).xhart.reg ((← get).xhart.phys v)

/-- A named register of the X-hart in use, once its tile allows writing it. -/
def claimReg (v : BitVec 5) : M VReg := do
  writeLock [(← get).xhart.phys v]
  return (← get).xhart.reg ((← get).xhart.phys v)

/-- The state with a named register of the X-hart in use replaced. -/
def State.putReg (s : State) (v : BitVec 5) (r : VReg) : State :=
  s.updStrandAt s.xslot fun t => t.setReg (t.phys v) r

/-! ### The Pricking table and the checks made at issue (R54, R77, R89) -/

/-- The outcome of the Pricking table: compute format, scale rule (0 APPLY, 1 CARRY, 2 IGNORE), whether the pair is allowed
and whether it traps. -/
structure Prick where
  cf : BitVec 4
  rule : Nat
  al : Bool
  trp : Bool
  deriving DecidableEq, Repr

/-- The fields of an entry (Table 03.4). -/
def Prick.ofEntry (e : BitVec 8) : Prick := ⟨e.extractLsb' 0 4, (e.extractLsb' 6 2).toNat, e.getLsbD 4, e.getLsbD 5⟩

/-- P[a][b]. -/
def Core.pkEnt (c : Core) (a b : BitVec 4) : BitVec 8 := c.pk[(a ++ b).toNat]'((a ++ b).isLt)

/-- The chain of R54 over further operands. -/
def Core.prickMore (c : Core) : List (BitVec 4) → Prick → Prick
  | [], p => p
  | f :: r, p =>
    let q := Prick.ofEntry (c.pkEnt p.cf f)
    c.prickMore r { q with al := p.al && q.al, trp := p.trp || q.trp }

/-- prick of a list of operand formats; one operand stands for both (R54). -/
def Core.prick (c : Core) (fs : List (BitVec 4)) : Prick :=
  let p := match fs with
    | [] => c.prickMore [] (.ofEntry (c.pkEnt 0 0))
    | [a] => .ofEntry (c.pkEnt a a)
    | a :: b :: r => c.prickMore r (.ofEntry (c.pkEnt a b))
  let f := c.fmt p.cf
  if p.al && (decide (f.wid < 16) || f.kind == .nested) then { p with al := false, trp := true } else p

/-- A register at a format has room for the grant (R77). -/
def VReg.holds (r : VReg) (f : Fmt) (g : Nat) : Bool := decide (g ≤ r.segs.length * perSeg f.wid)

/-- Whether a segment holding an element below the grant is RAW (R54). -/
def VReg.rawBelow (r : VReg) (f : Fmt) (g : Nat) : Bool :=
  (List.range (segsBelow g f.wid)).any fun k => (r.seg k).side.cls == cRAW

/-- Whether a merge keeps any old element: a mask is named and not zeroed. -/
def Strand.merges (t : Strand) : Bool := t.msk != 0 && !t.mz

/-- Whether a merge would keep an element of a RAW segment (R57). -/
def Strand.rawKept (t : Strand) (old : VReg) (f : Fmt) : Bool :=
  t.merges && (List.range t.grant).any fun e => !t.active e && (old.seg (e / perSeg f.wid)).side.cls == cRAW

/-- Whether a merge would keep an old element that lies beyond the capacity of the destination's format (log 19). -/
def Strand.keptBeyond (t : Strand) (old : VReg) (f : Fmt) : Bool :=
  t.merges && (List.range t.grant).any fun e => !t.active e && decide (old.segs.length * perSeg f.wid ≤ e)

/-- Steps 3 and 4 of R89 for sources and a destination that takes format `df`; both are skipped under a zero grant (R78).
An old element that a merge keeps must lie within the destination's own format too (log 19). -/
def widthAndClass (srcs : List VReg) (old : VReg) (df : BitVec 4) : M Unit := do
  let s ← get
  let g := s.st.grant
  if g ≠ 0 then
    if (srcs.any fun r => !r.holds (s.fmt r.fmt) g) || !old.holds (s.fmt df) g || s.st.keptBeyond old (s.fmt old.fmt) then
      raiseTrap tGRANT_WIDTH
    if (srcs.any fun r => r.rawBelow (s.fmt r.fmt) g) || s.st.rawKept old (s.fmt old.fmt) then raiseTrap tTAG_CLASS

/-! ### Reading operands (R55, R56, R131) -/

/-- A value under its segment's scale: a NaN under code 255 in every case, scaled where asked (R36, R56). -/
def underScale (apply : Bool) (c : BitVec 8) (v : Val) : Val := if c = 255 then .nan else if apply then applyScale c v else v

/-- The unscaled value of a slot and its flags: a UNW segment reads as +0 with NX (R54). -/
def Seg.value (s : Seg) (F : Fmt) (toInt : Bool) (k : Nat) : Val × BitVec 8 :=
  if s.side.cls = cUNW then (.zero, fNX) else F.decode toInt (s.bits F.wid k)

/-- The value of an element with its scale applied as asked, and its flags. -/
def VReg.value (r : VReg) (F : Fmt) (toInt apply : Bool) (e : Nat) : Val × BitVec 8 :=
  let s := r.seg (e / perSeg F.wid)
  let (x, f) := s.value F toInt (e % perSeg F.wid)
  (underScale apply s.side.scl x, f)

/-- An operand element in the compute format (R55, R133). -/
def VReg.operand (r : VReg) (F cf : Fmt) (apply : Bool) (rm : RMode) (d : BitVec 32) (e : Nat) : Val × BitVec 8 :=
  let (x, f) := r.value F (cf.kind != .float) apply e
  let (c, f₂) := cf.convert rm d x
  ((cf.decode (cf.kind != .float) c).1, f ||| f₂)

/-- The one scale code of a list of segments, if they carry one and it is not 255 (R56). -/
def oneScale : List (BitVec 8) → Option (BitVec 8)
  | [] => none
  | c :: r => if c ≠ 255 ∧ r.all (· == c) then some c else none

/-- The scale codes of the segments that feed elements lo to hi of a source. -/
def VReg.feeding (r : VReg) (F : Fmt) (lo hi : Nat) : List (BitVec 8) :=
  (List.range' (lo / perSeg F.wid) (hi / perSeg F.wid + 1 - lo / perSeg F.wid)).map fun k => (r.seg k).side.scl

/-- The code a result segment carries under CARRY, if it does (R131, R132). -/
def carryOf (srcs : List (VReg × Fmt)) (cf : Fmt) (g k : Nat) : Option (BitVec 8) :=
  let n := perSeg cf.wid
  oneScale (srcs.flatMap fun (r, F) => r.feeding F (k * n) (Nat.min g ((k + 1) * n) - 1))

/-! ### Writing destinations (R57, R136) -/

/-- The code a merge keeps for an old element in a destination of format `fi` under scale code `c`, if it can be written
exactly (R57). -/
def mergeCode (old : VReg) (oF cf : Fmt) (fi : BitVec 4) (c : BitVec 8) (e : Nat) : Option Nat :=
  let s := old.seg (e / perSeg oF.wid)
  let code := s.code oF.wid (e % perSeg oF.wid)
  if s.side.cls = cUNW then some 0
  else if old.fmt = fi ∧ s.side.scl = c then some code
  else
    let x := (oF.decode (cf.kind != .float) code).1
    let x := if s.side.scl = 255 then .nan else x.scale ((s.side.scl.toNat : Int) - c.toNat)
    if cf.represents x then some (cf.convert .rtz 0 x).1 else none

/-- A result under construction: the generator, the flags and the codes so far, last first. -/
structure Acc where
  seed : BitVec 32
  flags : BitVec 8
  codes : List Nat
  bad : Bool
  deriving DecidableEq, Repr

/-- One element more: an active one is computed with its draw, an inactive one keeps its old code, or becomes 0 (R41, R131).
`f` answers the code and its flags, `keep` the old code. -/
def Acc.step (t : Strand) (draws : Bool) (f : Nat → BitVec 32 → Nat × BitVec 8) (keep : Nat → Option Nat) (a : Acc) (e : Nat) : Acc :=
  if t.active e then
    let seed := if draws then seedStep a.seed else a.seed
    let (c, fl) := f e seed
    { a with seed := seed, flags := a.flags ||| fl, codes := c :: a.codes }
  else if t.mz then { a with codes := 0 :: a.codes }
  else match keep e with
    | some c => { a with codes := c :: a.codes }
    | none => { a with bad := true, codes := 0 :: a.codes }

/-- All elements below the grant in ascending order. -/
def elements (t : Strand) (draws : Bool) (f : Nat → BitVec 32 → Nat × BitVec 8) (keep : Nat → Option Nat) : Acc :=
  (List.range t.grant).foldl (Acc.step t draws f keep) ⟨t.seed, 0, [], false⟩

/-- A register written from element 0 on. -/
def VReg.write (r : VReg) (fi : BitVec 4) (w : Nat) (codes : List Nat) (side : Nat → Sidecar) : VReg :=
  ⟨fi, fillSegs w side r.segs 0 codes⟩

/-- The destination written with its tags, the flags raised, the generator stepped; the instruction completes (R44, R57). -/
def commitV (d : BitVec 5) (fi : BitVec 4) (a : Acc) (side : Nat → Sidecar) : M Unit := do
  if a.bad then raiseTrap tTAG_FORMAT
  raiseFlags a.flags
  modify fun s =>
    let t := s.st
    let r := (t.reg (t.phys d)).write fi (s.fmt fi).wid a.codes.reverse side
    { s with st := { t.setReg (t.phys d) r with seed := a.seed } }
  advanceM

/-- The canonical NaN of a format, or 0 in an integer format (R55), and the flags of writing it. -/
def nanFor (cf : Fmt) : Nat × BitVec 8 :=
  match cf.kind with
  | .float => (((cf.convert .rne 0 .nan)).1, fNV)
  | _ => (0, fNV)

/-- What one instruction of the common path computes (R131): which compute formats it takes, whether it is scale-linear, and
the result of an element from its operands in the compute format. -/
structure VOp where
  takes : Fmt → Bool
  linear : Bool
  run : Fmt → RMode → BitVec 32 → List Val → Nat × BitVec 8

/-- Waits and issue checks of an arithmetic instruction with named sources and destination (R54, R89, R135): the source
registers and the outcome of the table. -/
def issueArith (srcs : List (BitVec 5)) (d : BitVec 5) (takes : Fmt → Bool) : M (List VReg × Prick) := do
  let s ← get
  let regs ← if s.st.grant = 0 then pure (srcs.map fun v => s.st.reg (s.st.phys v)) else srcs.mapM readReg
  let old ← if s.st.grant = 0 then pure (s.st.reg (s.st.phys d)) else claimReg d
  let p := s.core.prick (regs.map (·.fmt))
  widthAndClass regs old p.cf
  if (!p.al && p.trp) || !takes (s.fmt p.cf) then raiseTrap tFORBIDDEN_PAIR
  return (regs, p)

/-- The elements of an instruction of the common path from its source registers and the outcome of the table, and the scale code
of each result segment (R131 to R133). A pair with AL = 0 and TRP = 0 takes the whole path but for its operation, whose result is the NaN
of R55: its operands are read and converted, and it draws (log 51). -/
def arithAcc (o : VOp) (d : BitVec 5) (s : State) (regs : List VReg) (p : Prick) : Acc × (Nat → BitVec 8) :=
  let g := s.st.grant
  let cf := s.fmt p.cf
  let rm := s.st.mode
  let old := s.st.reg (s.st.phys d)
  let pairs := regs.map fun r => (r, s.fmt r.fmt)
  let carry (k : Nat) : Option (BitVec 8) := if p.rule = 1 ∧ o.linear = true then carryOf pairs cf g k else none
  let carries := (List.range (segsBelow g cf.wid)).map carry
  let scl (k : Nat) : BitVec 8 := (carries.getD k none).getD 127
  let elem (e : Nat) (seed : BitVec 32) : Nat × BitVec 8 :=
    let apply := p.rule == 0 || (p.rule == 1 && (carries.getD (e / perSeg cf.wid) none).isNone)
    let xs := pairs.map fun (r, F) => r.operand F cf apply rm seed e
    let (c, f) := if p.al then o.run cf rm seed (xs.map (·.1)) else nanFor cf
    (c, xs.foldl (fun a x => a ||| x.2) f)
  let keep (e : Nat) : Option Nat := mergeCode old (s.fmt old.fmt) cf p.cf (scl (e / perSeg cf.wid)) e
  (elements s.st (rm == .sr) elem keep, scl)

/-- The common operand path (R131). -/
def vectorOp (o : VOp) (d : BitVec 5) (srcs : List (BitVec 5)) : M Unit := do
  let (regs, p) ← issueArith srcs d o.takes
  let s ← get
  if s.st.grant = 0 then advanceM
  else commitV d p.cf (arithAcc o d s regs p).1 fun k => mkSide p.cf ((arithAcc o d s regs p).2 k) false cVAL

end Sys2Proof.Machine
end

