-- ==== Sys2Proof/Machine/Fill.lean ====
section
/-! DEFINITION. Elements between lines and registers: the places of a strip (R205, R206), the filling of a register (R52),
and the writing of a line under a store-format policy (R61, R62, R216). -/

namespace Sys2Proof.Machine

/-! ### Places (R205) -/

/-- The line and slot of element offset `t` from byte address `b`, at strip width `w`, in unbounded integers (R205). -/
def place (w : Nat) (b : Int) (t : Int) : Int × Nat :=
  let n := perSeg w
  let o := (b % 128).toNat
  let s0 := 8 * o / w
  let base := b - o
  let (base, s0) := if s0 ≥ n then (base + 128, 0) else (base, s0)
  let u := (s0 : Int) + t
  (base + 128 * (u / n), (u % n).toNat)

/-- A place with its line address wrapped to 64 bits. -/
def placeAt (w : Nat) (b t : Int) : Word × Nat := ((BitVec.ofInt 64 (place w b t).1), (place w b t).2)

/-- The code of slot `k` of a line at width `w`. -/
def lineSlot (l : Line) (w k : Nat) : Nat := l.toNat / 2 ^ (w * k) % 2 ^ w

/-- A line with its padding at width `w` zero, as the device writes it (R27). -/
def zeroPad (w : Nat) (l : Line) : Line := .ofNat 1024 (l.toNat % 2 ^ (w * perSeg w))

/-- A line with slot `k` at width `w` set. -/
def setLineSlot (l : Line) (w k c : Nat) : Line :=
  .ofNat 1024 (l.toNat - lineSlot l w k * 2 ^ (w * k) + c % 2 ^ w * 2 ^ (w * k))

/-- Whether a line of a format has slot `k` for an access that is no plane load (R206). -/
def slotOk (F : Fmt) (k : Nat) : Bool := decide (k < perSeg F.wid) && F.kind != .nested

/-! ### Filling a register (R52) -/

/-- An element on its way into a register: its code and the FMT, SCL and CLS of its line. -/
structure FillEl where
  code : Nat
  fmt : BitVec 4
  scl : BitVec 8
  cls : BitVec 3
  deriving DecidableEq, Repr

/-- What a segment of a register becomes: sidecar, whether RAW, whether scales fold (R52). -/
structure FillSeg where
  side : Sidecar
  raw : Bool
  fold : Bool
  deriving DecidableEq, Repr

/-- The plan of one segment from the elements that supply it; without any, it takes the register's format and SCL 127. -/
def fillPlan (fi : BitVec 4) (els : List FillEl) : FillSeg :=
  match els with
  | [] => ⟨mkSide fi 127 false cVAL, false, false⟩
  | a :: r =>
    let raw := (a :: r).any (·.cls == cRAW)
    let mix := r.any (·.fmt != a.fmt)
    let fold := r.any (·.scl != a.scl)
    ⟨mkSide a.fmt (if fold then 127 else a.scl) mix (if raw then cRAW else cVAL), raw, fold⟩

/-- One element written: its code and flags, or none where it cannot be written (R52). A folded element under the NaN scale is a NaN, which
no integer format represents. -/
def fillOne (ft : BitVec 4 → Fmt) (fi : BitVec 4) (deco : Option RMode) (p : FillSeg) (d : BitVec 32) (x : FillEl) : Option (Nat × BitVec 8) :=
  let F := ft fi
  if p.raw then some (if x.cls = cUNW then 0 else x.code, 0)
  else
    let S := ft x.fmt
    let (v, f) := if x.cls = cUNW then (Val.zero, fNX) else S.decode (F.kind != .float) x.code
    let v := if p.fold then applyScale x.scl v else v
    if (!p.fold && exactWidens x.fmt fi S F) || F.represents v then
      let (c, f₂) := F.convert .rtz 0 v
      some (c, f ||| f₂)
    else match deco with
      | some rm =>
        let (c, f₂) := F.convert rm d v
        some (c, f ||| f₂)
      | none => none

/-- The filling of a register: codes and sidecars, flags, the generator, and the first element that cannot be written. -/
structure FillRes where
  codes : List Nat
  sides : List Sidecar
  flags : BitVec 8
  seed : BitVec 32
  bad : Option Nat
  deriving DecidableEq, Repr

/-- One element more of a fill. -/
def FillRes.step (ft : BitVec 4 → Fmt) (fi : BitVec 4) (deco : Option RMode) (p : FillSeg) (r : FillRes) (x : Nat × Option FillEl) : FillRes :=
  let seed := if deco = some .sr then seedStep r.seed else r.seed
  match x.2 with
  | none => { r with codes := 0 :: r.codes, seed := seed }
  | some el =>
    match fillOne ft fi deco p seed el with
    | some (c, f) => { r with codes := c :: r.codes, flags := r.flags ||| f, seed := seed }
    | none => { r with codes := 0 :: r.codes, seed := seed, bad := if r.bad.isNone then some x.1 else r.bad }

/-- The segments of a fill, `n` elements each, `fuel` bounding their number (R52). An element without a line is code 0. -/
def fillFrom (ft : BitVec 4 → Fmt) (fi : BitVec 4) (deco : Option RMode) (n : Nat) : Nat → Nat → List (Option FillEl) → FillRes → FillRes
  | 0, _, _, r => r
  | fuel + 1, e, els, r =>
    match els with
    | [] => r
    | _ =>
      let here := els.take n
      let p := fillPlan fi (here.filterMap id)
      let r := ((List.range' e here.length).zip here).foldl (FillRes.step ft fi deco p) r
      fillFrom ft fi deco n fuel (e + n) (els.drop n) { r with sides := p.side :: r.sides }

/-- The filling of elements 0 on of a register of format `fi` (R52). -/
def fill (ft : BitVec 4 → Fmt) (fi : BitVec 4) (deco : Option RMode) (seed : BitVec 32) (els : List (Option FillEl)) : FillRes :=
  let r := fillFrom ft fi deco (perSeg (ft fi).wid) els.length 0 els ⟨[], [], 0, seed, none⟩
  { r with codes := r.codes.reverse, sides := r.sides.reverse }

/-- A register filled. -/
def VReg.filled (r : VReg) (fi : BitVec 4) (w : Nat) (x : FillRes) : VReg := r.write fi w x.codes fun g => x.sides.getD g 0x7F2

/-! ### Writing a line (R61, R62, R216) -/

/-- A slot of a line to be written: its number, the element, and whether it is an old element of the line (R62). -/
structure LineEl where
  slot : Nat
  el : FillEl
  old : Bool
  deriving DecidableEq, Repr

/-- A written line: data, FMT, SCL, CLS and flags. -/
structure LineRes where
  data : Line
  fmt : BitVec 4
  scl : BitVec 8
  cls : BitVec 3
  flags : BitVec 8
  deriving DecidableEq, Repr

/-- MODE of a store-format policy; 3 is treated as keep (Table 03.7). -/
def sfpMode (p : BitVec 9) : Nat := let m := (p.extractLsb' 7 2).toNat; if m = 3 then 0 else m
/-- TFMT of a policy. -/
def sfpFmt (p : BitVec 9) : BitVec 4 := p.extractLsb' 3 4
/-- RM of a policy, where 7 names the storing strand's `sr.round` (Table 03.7). -/
def sfpRound (p : BitVec 9) (rnd : BitVec 3) : RMode := .ofCode (if p.extractLsb' 0 3 = 7 then rnd else p.extractLsb' 0 3)

/-- The value of a line or segment element with its own scale applied; a UNW one is +0 and raises nothing (R61). -/
def FillEl.value (ft : BitVec 4 → Fmt) (toInt : Bool) (x : FillEl) : Val × BitVec 8 :=
  if x.cls = cUNW then (.zero, 0)
  else
    let (v, f) := (ft x.fmt).decode toInt x.code
    (applyScale x.scl v, f)

/-- The largest of a list of scale codes, or a default. -/
def maxScale (z : BitVec 8) (cs : List (BitVec 8)) : BitVec 8 :=
  match cs with
  | [] => z
  | c :: r => r.foldl (fun a b => if a < b then b else a) c

/-- Slots put one after another into a line at a width. -/
def putSlots (w : Nat) (l : Line) (xs : List (Nat × Nat)) : Line := xs.foldl (fun l (k, c) => setLineSlot l w k c) l

/-- The largest finite code of a sign. -/
def Fmt.maxSigned (F : Fmt) (neg : Bool) : Nat :=
  match F.kind with
  | .float => (if neg then 2 ^ (F.ew + F.mw) else 0) + F.maxCode
  | _ => (convertInt F.wid .rtz 0 (if neg then F.maxVal.negate else F.maxVal)).1

/-- One element under keep: its code in the register's format at scale c, or none (R61, R62). `same` is whether the codes of
the store are written unchanged. At the NaN scale no old element but a NaN can be written exactly. -/
def keepOne (ft : BitVec 4 → Fmt) (fi : BitVec 4) (c : BitVec 8) (same : Bool) (x : LineEl) : Option (Nat × BitVec 8) :=
  let F := ft fi
  if c = 255 ∧ same = false then some (F.convert .rne 0 .nan)
  else if same = true ∧ x.el.cls ≠ cUNW ∧ x.el.fmt = fi ∧ x.el.scl = c then some (x.el.code, 0)
  else
    let (v, f) := x.el.value ft (F.kind != .float)
    let y := if v.isNaN then v else v.scale (127 - (c.toNat : Int))
    if F.represents y && (c != 255 || !x.old || y.isNaN) then some ((F.convert .rtz 0 y).1, f) else none

/-- One element under a demoting policy: its code, its flags and whether it overflowed (R61). -/
def demoteOne (ft : BitVec 4 → Fmt) (ti : BitVec 4) (c : BitVec 8) (rm : RMode) (d : BitVec 32) (x : FillEl) : Nat × BitVec 8 × Bool :=
  let T := ft ti
  if c = 255 then
    let (k, f) := T.convert rm d .nan
    (k, f, false)
  else
    let (v, f) := x.value ft (T.kind != .float)
    let y := if v.isNaN then v else v.scale (127 - (c.toNat : Int))
    let (k, f₂) := T.convert rm d y
    if f₂ &&& fOF ≠ 0 then (T.maxSigned y.neg?, f ||| fOF ||| fNX, true) else (k, f ||| f₂, false)

/-- A demotion under construction. -/
structure DemRes where
  slots : List (Nat × Nat)
  flags : BitVec 8
  ovf : Bool
  deriving DecidableEq, Repr

/-- The element of the lowest slot. -/
def lowSlot (xs : List LineEl) : LineEl :=
  xs.foldl (fun (a : LineEl) b => if b.slot < a.slot then b else a) (xs.headD ⟨0, ⟨0, 0, 127, 0⟩, false⟩)

/-- A whole line from its elements under a policy (R61, R62), or the slots that cannot be written. `rnd` is the storing
strand's `sr.round`, which RM 7 names, and `draw` gives the draw of each slot under SR (R41). -/
def buildLine (ft : BitVec 4 → Fmt) (policy : BitVec 9) (rnd : BitVec 3) (draw : Nat → BitVec 32) (xs : List LineEl) : Except (List Nat) LineRes :=
  let news := xs.filter fun x => !x.old
  let fi := match news with
    | x :: _ => x.el.fmt
    | [] => 0
  if news.any (·.el.cls == cRAW) then
    -- RAW: verbatim under the register's format
    let bad := (xs.filter fun x => !slotOk (ft fi) x.slot).map (·.slot)
    if bad ≠ [] then .error bad
    else
      let low := lowSlot news
      .ok ⟨putSlots (ft fi).wid 0 (xs.map fun x => (x.slot, if x.el.cls = cUNW then 0 else x.el.code)), fi, low.el.scl, cRAW, 0⟩
  else if sfpMode policy = 0 then
    let scls := (news.filter fun x => x.el.cls != cUNW).map (·.el.scl)
    let c := maxScale 127 scls
    let done := xs.map fun x => (x.slot, if slotOk (ft fi) x.slot then keepOne ft fi c (scls.all (· == c)) x else none)
    let bad := (done.filter fun x => x.2.isNone).map (·.1)
    if bad ≠ [] then .error bad
    else
      .ok ⟨putSlots (ft fi).wid 0 (done.map fun x => (x.1, (x.2.getD (0, 0)).1)), fi, c, cVAL,
        done.foldl (fun f x => f ||| (x.2.getD (0, 0)).2) 0⟩
  else
    let ti := sfpFmt policy
    let bad := (xs.filter fun x => !slotOk (ft ti) x.slot).map (·.slot)
    if bad ≠ [] then .error bad
    else
      let c := maxScale 127 (xs.map (·.el.scl))
      let r := xs.foldl (fun (r : DemRes) x =>
        let (k, f, o) := demoteOne ft ti c (sfpRound policy rnd) (draw x.slot) x.el
        ⟨(x.slot, k) :: r.slots, r.flags ||| f, r.ovf || o⟩) ⟨[], 0, false⟩
      if r.ovf ∧ sfpMode policy = 2 then .ok ⟨0, ti, c, cINV, fOF⟩
      else .ok ⟨putSlots (ft ti).wid 0 r.slots, ti, c, cVAL, r.flags⟩

/-- The old elements of a line that a partial store merges with: the slots below n(W) it does not write, in a line whose tag
is `t` (R62). -/
def oldElements (ft : BitVec 4 → Fmt) (w : Nat) (l : Line) (t : Tag) (written : List Nat) : List LineEl :=
  let of_ := ft t.fmt
  ((List.range (perSeg w)).filter fun k => !written.contains k).map fun k =>
    if t.cls = cUNW ∨ perSeg of_.wid ≤ k then ⟨k, ⟨0, t.fmt, t.scl, cUNW⟩, true⟩
    else ⟨k, ⟨lineSlot l of_.wid k, t.fmt, t.scl, t.cls⟩, true⟩

/-- The elements of a line in ascending slot. -/
def sortSlots (xs : List LineEl) : List LineEl := (List.range 256).flatMap fun k => xs.filter (·.slot == k)

/-- Whether a store of new elements into a line with tag `t` rounds them under SR: neither verbatim nor a bit merge nor under keep (R41,
R61, R62). -/
def storeDraws (policy : BitVec 9) (rnd : BitVec 3) (full : Bool) (t : Tag) (xs : List LineEl) : Bool :=
  let c := (lowSlot xs).el.cls
  !(c == cPOI || c == cINV || c == cSTG || xs.any (·.el.cls == cRAW) || (!full && t.cls == cRAW) || sfpMode policy == 0) &&
    sfpRound policy rnd == .sr

/-- The line that a store makes of its new elements, which lie in distinct slots, and the old line (R61, R62, R216): whole
when every slot below n(W) is written, merged otherwise, moved verbatim for slots of class POI, INV or STG. -/
def storeLine (ft : BitVec 4 → Fmt) (w : Nat) (policy : BitVec 9) (rnd : BitVec 3) (draw : Nat → BitVec 32) (l : Line) (t : Tag) (xs : List LineEl) :
    Except (List Nat) LineRes :=
  let low := lowSlot xs
  let c := low.el.cls
  let fi := low.el.fmt
  let full := (List.range (perSeg w)).all fun k => xs.any (·.slot == k)
  let codes := xs.map fun x => (x.slot, if x.el.cls = cUNW then 0 else x.el.code)
  let bad := (xs.filter fun x => !slotOk (ft fi) x.slot).map (·.slot)
  if c = cPOI ∨ c = cINV ∨ c = cSTG then
    if bad ≠ [] then .error bad else .ok ⟨putSlots (ft fi).wid 0 codes, fi, low.el.scl, c, 0⟩
  else if full then buildLine ft policy rnd draw (sortSlots xs)
  else if t.cls = cRAW ∨ (xs.any fun x => x.el.cls == cRAW) = true then
    -- a bit merge
    if bad ≠ [] then .error bad
    else .ok ⟨putSlots (ft fi).wid (if t.cls = cUNW then 0 else l) codes, fi, low.el.scl, cRAW, 0⟩
  else buildLine ft policy rnd draw (sortSlots (xs ++ oldElements ft w l t (xs.map (·.slot))))

end Sys2Proof.Machine
end

