-- ==== Sys2Proof/Machine/Engine.lean ====
section
/-! DEFINITION. What the engines of a core share: their faults and parked parties (R316, R318), writes under a context's
translation with the tag rule of R397 (R68, R289), event records (R250, R306) and batches (R244). -/

namespace Sys2Proof.Machine

/-! ### Running an engine -/

/-- What a step of an engine comes to. -/
inductive EngRes where
  | done (s : State)
  | wait
  | check (addr : Word)
  | fault (r : FaultRec)
  | again (s : State)

/-- A computation carried out by an engine of the acting core, which a record that it writes names as `me` does. -/
def runEngine (s : State) (me : FaultRec → FaultRec) (m : M Unit) : EngRes :=
  match m.run s with
  | .ok (_, t) => .done t
  | .error .wait => .wait
  | .error (.trap _ _ a _) => .check a
  | .error (.fault r) => .fault r
  | .error (.redo f) => .again (f me s)

/-- The partition of a context, 0 where there is none. -/
def Dev.partOfCtx (d : Dev) (c : Nat) : Nat := (d.ctx c).elim 0 (·.part)

/-- The translation behind a key: a context's, or the resident one of a core (R322, R324). -/
def State.viaKey (s : State) (k : Nat) : Via :=
  if k < 4096 then s.dev.viaCtx k
  else
    let root := (s.coreAt (k - 4096)).elim 0 (·.rroot)
    ⟨k, root, 0, root == 0⟩

/-- A record as an engine raises it (Table 17.6). -/
def FaultRec.by (r : FaultRec) (engine who : BitVec 8) (ctx : Nat) (pc : Word) : FaultRec :=
  { r with engine := engine, who := who, ctx := .ofNat 32 ctx, pc := pc }

/-- An engine's fault posted for a party, which parks under the handle that is answered; at the resident level a machine check
(R318, R322). A fault that is not replayable ends the context (R382). -/
def State.engineFault (s : State) (ctx : Nat) (party : Party) (r : FaultRec) : State × Nat :=
  if 4096 ≤ ctx then (s.machineCheckCore, 0)
  else if r.final then ((s.postFault (s.dev.partOfCtx ctx) r none).1.terminateCtx ctx, 0)
  else s.postFault (s.dev.partOfCtx ctx) r (some party)

/-! ### Records written under a translation (R68, R289, R397) -/

/-- A little-endian number from its bytes (R4). -/
def numOf : List Byte → Nat
  | [] => 0
  | b :: r => b.toNat + 256 * numOf r

/-- Bytes of one line written by the device at an address that `look` translates (R397); `acc` is false for install traffic, which sets no
access bit (R377). -/
def recordAt (acc : Bool) (look : M Tr) (va : Word) (bytes : List Byte) : M Unit := do
  let tr ← look
  let (l, t) ← readHome tr nEngWrite.kind
  if t.cls = cPOI ∨ t.cls = cINV then faultAt nEngWrite.kind va (fltPoison 0 tr.dpa)
  if t.cls = cSTG then faultAt nEngWrite.kind va (fltStgWrite 0 tr.dpa)
  let l := if t.cls = cUNW then 0 else l
  putLine tr nEngWrite.kind 0 (← storedLine tr (setLineBytes l (va.toNat % 128) bytes.length (numOf bytes))) t.raw
  if acc then modify (·.touch tr false)

/-- Bytes of one line written by the device under a translation made now. -/
def recordWrite (acc : Bool) (v : Via) (va : Word) (bytes : List Byte) : M Unit := recordAt acc (translate v nEngWrite va) va bytes

/-- `sr.bbuf` and COUNT of `sr.bhead` as the acting core holds them for a context (R25, R80). -/
def State.basteView (s : State) (c : Ctx) : Word × Word :=
  if s.core.gang.isSome && s.core.ctxId == c.id then (s.core.bbuf, c.bhead + s.core.bheadLag) else (c.bbuf, c.bhead)

/-- Where an entry or record goes, and its bytes: a basting entry takes its place and SEQ from COUNT when it is written
(R68). -/
def State.entryOf (s : State) (w : EngWrite) : Word × List Byte :=
  if w.kind ≠ 4 then (w.va, w.bytes)
  else match s.dev.ctx w.ctx with
    | none => (w.va, w.bytes)
    | some c =>
      let (bbuf, count) := s.basteView c
      (.ofNat 64 (bbuf.toNat / 4096 * 4096 + 32 * (count.toNat % 2 ^ (bbuf.toNat % 32))),
       (List.range 8).map (fun k => BitVec.ofNat 8 ((count + 1).toNat / 256 ^ k)) ++ w.bytes)

/-- WHO of a writer's record: the X-hart of a basting entry, which names it in bits [71:69]; 0 for the status writer. -/
def EngWrite.who (w : EngWrite) : BitVec 8 := if w.kind = 4 then whoOfSlot (9 + (w.bytes.headD 0).toNat / 32) else 0

/-- The first write of a kind put in place of itself, or removed. -/
def replaceWrite (kind : Nat) (x : Option EngWrite) : List EngWrite → List EngWrite
  | [] => []
  | w :: r => if w.kind = kind then x.toList ++ r else w :: replaceWrite kind x r

/-- The state with the first write of a kind replaced or removed. -/
def State.setWrite (s : State) (kind : Nat) (x : Option EngWrite) : State :=
  { s with core := { s.core with engWrites := replaceWrite kind x s.core.engWrites } }

/-- The oldest write of a kind tried: a parked one holds back the later ones of its kind (R318); a fault for a terminated
context drops it (R320). -/
def State.tryWrite (s : State) (kind : Nat) : State :=
  match s.core.engWrites.find? (·.kind == kind) with
  | none => s
  | some w =>
    if w.parked.isSome then s
    else
      let (va, bytes) := s.entryOf w
      let me := (·.by (.ofNat 8 kind) w.who w.ctx w.pc)
      match runEngine s me (recordWrite true (s.viaKey w.ctx) va bytes) with
      | .done t =>
        let t := t.setWrite kind none
        if kind = 4 then { t with dev := t.dev.updCtx w.ctx fun c => { c with bhead := c.bhead + 1 } } else t
      | .fault r =>
        if !s.dev.ctxLive w.ctx then s.setWrite kind none
        else
          let (t, h) := s.engineFault w.ctx (.writer s.core.num) (me r)
          t.setWrite kind (some { w with parked := some h })
      | .again t => t
      | _ => s

/-- At most `n` writes of a kind tried. -/
def State.drainWrites (s : State) (kind : Nat) : Nat → State
  | 0 => s
  | n + 1 => (s.tryWrite kind).drainWrites kind n

/-- The state with a status write handed to the status writer of the core and tried (R289). -/
def State.statusWrite (s : State) (ctx launch : Nat) (va : Word) (bytes : List Byte) : State :=
  let s := { s with core := { s.core with engWrites := s.core.engWrites ++ [(⟨ctx, launch, va, bytes, 5, none, 0⟩ : EngWrite)] } }
  s.drainWrites 5 s.core.engWrites.length

/-- Whether the oldest write of a kind is not parked. -/
def Core.writeReady (c : Core) (k : Nat) : Bool :=
  match c.engWrites.find? (·.kind == k) with
  | some w => w.parked.isNone
  | none => false

/-- A basting entry, or a status write that had to wait, is written (R68). -/
def execBastingEntryWrite (s : State) : Out :=
  .next (s.tryWrite (if s.core.writeReady 4 then 4 else 5))

/-! ### Event records (R250, R305, R306, Tables 12.7 and 16.4) -/

/-- Whether a record is held by a walker or a layer engine, not by the Shuttle: LAUNCH, INSTALL, RECODE, TURNOVER (R306, R355). -/
def Ev.outer (e : Ev) : Bool := e.kind == 4 || e.kind == 6 || e.kind == 7 || e.kind == 8

/-- Records that the Shuttle holds back; those of a walker or layer engine wait beside them (R250, R306, R355). -/
def Core.shuttleHeld (c : Core) : Nat := (c.evHeld.filter fun e => !e.outer).length

/-- A record of the core posted, or held (R250). -/
def Core.post (c : Core) (e : Ev) : Core :=
  if c.evq.length < 256 ∧ c.shuttleHeld = 0 ∧ e.outer = false then { c with evq := c.evq ++ [e] } else { c with evHeld := c.evHeld ++ [e] }

/-- Whether a held record may enter the queue: a walker's or layer engine's only while a gang of its context runs here, or the core is at
the resident level where that issued the work (R304, R306, R355; log 138). -/
def Core.mayPost (c : Core) (e : Ev) : Bool := !e.outer || (c.gang.isSome && c.ctxId == e.ctx) || (c.resident && e.ctx == 4096 + c.num)

/-- Removal of the first entry that satisfies a test. -/
def takeFirst {α : Type} (p : α → Bool) : List α → Option (α × List α)
  | [] => none
  | a :: r => if p a then some (a, r) else (takeFirst p r).map fun (x, q) => (x, a :: q)

/-- The oldest held record that may be posted enters the queue, if it has room. -/
def Core.postHeld (c : Core) : Core :=
  if 256 ≤ c.evq.length then c
  else match takeFirst c.mayPost c.evHeld with
    | some (e, r) => { c with evq := c.evq ++ [e], evHeld := r }
    | none => c

def execEventPost (s : State) : Out := .next { s with core := s.core.postHeld }

/-- The 32 bytes of a record (Table 12.7). -/
def Ev.bits (e : Ev) : BitVec 256 :=
  e.info1 ++ e.info0 ++ e.utag ++ e.core ++ e.dev ++ e.who ++ e.kind ++ e.flags ++ e.status ++ e.seq

/-! ### Batches (R244, R245, R248) -/

/-- A list with its first entry that satisfies a test changed. -/
def updFirst {α : Type} (p : α → Bool) (f : α → α) : List α → List α
  | [] => []
  | a :: r => if p a then f a :: r else a :: updFirst p f r

/-- The state with the first batch that satisfies a test changed. -/
def State.updBatch (s : State) (p : Batch → Bool) (f : Batch → Batch) : State :=
  { s with core := { s.core with batches := updFirst p f s.core.batches } }

/-- The open batch of the acting strand, opened where there is none (R244): its number. -/
def openBatch : M (BitVec 32) := do
  let s ← get
  match s.core.batches.find? fun b => b.who == s.st.slot && !b.closed with
  | some b => return b.num
  | none =>
    let n := s.st.batchNext
    let b : Batch := ⟨s.st.slot, n, false, none, 0, 0, 0, 0, none, s.core.launchId, s.via.key⟩
    set { s with st := { s.st with batchNext := n + 1 }, core := { s.core with batches := s.core.batches ++ [b] } }
    return n

/-- Closed batches of an issuer that are outstanding. -/
def Core.outstanding (c : Core) (who : Nat) : Nat := (c.batches.filter fun b => b.who == who && b.closed).length

/-- The acting strand's batch closed, an empty one where none is open (R244). -/
def closeBatch (evt : Option (BitVec 32)) : M Unit := do
  let s ← get
  if 64 ≤ s.core.outstanding s.st.slot then stop .wait
  let n ← openBatch
  modify (·.updBatch (fun b => b.who == s.st.slot && b.num == n) fun b => { b with closed := true, evt := evt })

/-- Whether every copy of a batch has retired. -/
def Core.batchIdle (c : Core) (b : Batch) : Bool :=
  !(c.copies.any fun k => k.who == b.who && k.batch == b.num) &&
    !(c.cmdq.any fun q => q.any fun x => x.who == b.who && x.batch == b.num)

/-- A knot signalled, saturating (R247, R301). -/
def Core.signal (c : Core) (k : BitVec 5) (n : Nat) : Core :=
  { c with knots := c.knots.set k.toNat (.ofNat 16 (Nat.min 65535 ((c.knots[k.toNat]'(k.isLt)).toNat + n))) k.isLt }

/-- The record a batch asks for (Table 12.7). -/
def State.batchEvent (s : State) (b : Batch) (tag : BitVec 32) : Ev where
  info1 := .ofNat 64 b.tail
  info0 := .ofNat 64 b.written
  utag := tag
  core := .ofNat 16 s.core.num
  dev := s.dev.num
  who := if b.who % 32 = 17 then 0 else whoOfSlot (b.who % 32)
  kind := if b.who % 32 = 17 then 2 else 1
  flags := b.flags
  status := b.status
  seq := b.num
  launch := b.launch
  ctx := b.ctx

/-- The oldest batch of an issuer completes, if it is closed and its copies have retired (R244). One that asks for a record
waits while the Shuttle already holds 64 (R250). -/
def execBatchComplete (who : Nat) (s : State) : Out :=
  .next (match takeFirst (fun b => b.who == who) s.core.batches with
    | none => s
    | some (b, r) =>
      if !b.closed || !s.core.batchIdle b || (b.evt.isSome && decide (64 ≤ s.core.shuttleHeld)) then s
      else
        let core := { s.core with batches := r }
        let core := b.knot.elim core fun k => core.signal k 1
        { s with core := b.evt.elim core fun t => core.post (s.batchEvent b t) })

end Sys2Proof.Machine
end

