-- ==== Sys2Proof/Machine/Copies.lean ====
section
/-! DEFINITION. The Shuttle and the Bobbin (file 12): the plan and the issue checks of a copy (R230, R231, R239 to R243), its
start, its landings (R232 to R236), watch counters (R246), batches as the A-harts close and await them (R244, R245), command
blocks as they start (R247) and Bobbin emissions (R248). -/

namespace Sys2Proof.Machine

/-! ### Plans -/

/-- What a copy is asked to do: OP, strip width and shape, addresses, and the `sr.round` that mode 7 names (Table 12.9). -/
structure CopyReq where
  op : Nat
  w : Nat
  vl : Nat
  vr : Nat
  src : Word
  dst : Word
  arg : Word
  aux : Word
  rnd : BitVec 3
  deriving DecidableEq, Repr

/-- A planned copy: its landings, the pages it reads and writes, its counter, and what it adds to its batch. -/
structure Plan where
  kind : CopyKind
  lines : List LandLine
  reads : List Word
  writes : List Word
  wctr : Option (BitVec 4)
  clr : Bool
  count : Nat
  tail : Nat
  padded : Bool
  seed : BitVec 32
  deriving DecidableEq, Repr

/-- The places of a strip's elements in unbounded integers (R230). -/
def stripPlaces (w vl vr : Nat) (base pitch : Int) : List (Int × Nat) :=
  (List.range (vl * vr)).map fun (e : Nat) =>
    if pitch = 0 then place w base e else place w (base + 128 * pitch * Int.ofNat (e / vl)) (Int.ofNat (e % vl))

/-- Whether lines span at most 16 MiB (R231 step 5). -/
def spanOk (xs : List Int) : Bool :=
  match xs with
  | [] => true
  | a :: r =>
    let lo := r.foldl min a
    let hi := r.foldl max a
    decide (hi + 128 - lo ≤ 16777216)

/-- The page of 4 KiB that holds an address. -/
def pageOf (va : Word) : Word := va &&& ~~~0xFFF

/-- An address put among sorted distinct ones. -/
def insertAddr (a : Word) : List Word → List Word
  | [] => [a]
  | b :: r => if a.toNat < b.toNat then a :: b :: r else if a = b then b :: r else b :: insertAddr a r

/-- The pages of a list of addresses, ascending, without repeats. -/
def pagesOf (xs : List Word) : List Word := xs.foldl (fun ps a => insertAddr (pageOf a) ps) []

/-- The pages of `n` bytes from an address on. -/
def pagesIn (va : Word) (n : Nat) : List Word :=
  (List.range ((va.toNat % 4096 + n + 4095) / 4096)).map fun i => pageOf va + .ofNat 64 (4096 * i)

/-- An element among the landings of its destination line. -/
def addMove (ls : List LandLine) (x : Word × Mv) : List LandLine :=
  if ls.any (·.dst == x.1) then ls.map fun l => if l.dst = x.1 then { l with moves := l.moves ++ [x.2] } else l
  else ls ++ [⟨x.1, none, none, [x.2]⟩]

/-- The draws of `n` elements and the generator after them (R233). -/
def copyDraws (on : Bool) (seed : BitVec 32) : Nat → List (BitVec 32) × BitVec 32
  | 0 => ([], seed)
  | n + 1 =>
    let s := if on then seedStep seed else seed
    let (ds, z) := copyDraws on s n
    (s :: ds, z)

/-- The landings of elements with their sources, destinations and draws. -/
def landLines (srcs : List (Option (Word × Nat))) (dsts : List (Word × Nat)) (draws : List (BitVec 32)) : List LandLine :=
  ((srcs.zip (dsts.zip draws)).zipIdx.map fun ((s, d, z), e) =>
    (d.1, (⟨e, s.map (·.1), (s.map (·.2)).getD 0, d.2, z⟩ : Mv))).foldl addMove []

/-- A line address wrapped to 64 bits. -/
def wrapLine (x : Int × Nat) : Word × Nat := (.ofInt 64 x.1, x.2)

/-- A failed check: the trap's cause and ADDR (R229). -/
abbrev Check := BitVec 8 × Word

/-- A plan that copies nothing. -/
def Plan.none_ (seed : BitVec 32) : Plan := ⟨.move, [], [], [], none, false, 0, 0, false, seed⟩

/-- Elements of a request's strip. -/
def CopyReq.size (q : CopyReq) : Nat := q.vl * q.vr

/-- Whether a format cannot be a converting copy's target at a strip width (R231 step 4). -/
def badTarget (F : Fmt) (w : Nat) : Bool := decide (w < F.wid) || F.kind == .nested || F.kind == .reserved

/-- The places of a strip copy's source and of its destination (R230). -/
def CopyReq.srcPlaces (q : CopyReq) : List (Int × Nat) := stripPlaces q.w q.vl q.vr q.src.toNat (q.arg.extractLsb' 48 16).toInt
def CopyReq.dstPlaces (q : CopyReq) : List (Int × Nat) := stripPlaces q.w q.vl q.vr q.dst.toNat (q.arg.extractLsb' 32 16).toInt

/-- The checks of a strip copy but for translation; under a zero grant only step 2 (R231). -/
def checkStrip (ft : BitVec 4 → Fmt) (q : CopyReq) : Option Check :=
  let o := q.arg
  let conv := o.getLsbD 23
  if o &&& 0xFF00FF30 ≠ 0 then some (tCOPY_RANGE, 0)
  else if q.size = 0 then none
  else if !conv && q.src.extractLsb' 0 7 != q.dst.extractLsb' 0 7 then some (tMISALIGNED, q.src)
  else if conv && badTarget (ft (o.extractLsb' 19 4)) q.w then some (tTAG_FORMAT, 0)
  else if !spanOk (q.srcPlaces.map (·.1)) || !spanOk (q.dstPlaces.map (·.1)) then some (tCOPY_RANGE, 0)
  else none

/-- The plan of a strip copy (R230). -/
def planStrip (q : CopyReq) (seed : BitVec 32) : Plan :=
  if q.size = 0 then .none_ seed
  else
    let o := q.arg
    let conv := o.getLsbD 23
    let code := o.extractLsb' 16 3
    let rm := RMode.ofCode (if code = 7 then q.rnd else code)
    let (ds, seed') := copyDraws (conv && rm == .sr) seed q.size
    let lines := landLines (q.srcPlaces.map fun x => some (wrapLine x)) (q.dstPlaces.map wrapLine) ds
    ⟨if conv then .conv (o.extractLsb' 19 4) rm none 0 else .move, lines, pagesOf (q.srcPlaces.map fun x => (wrapLine x).1),
      pagesOf (lines.map (·.dst)), if o.getLsbD 6 then some (o.extractLsb' 0 4) else none, o.getLsbD 7, q.size, 0, false, seed'⟩

/-! ### Convolution (R239 to R241) -/

/-- An unsigned field of a descriptor. -/
def dfield (c : BitVec 512) (lo n : Nat) : Nat := (c.extractLsb' lo n).toNat
/-- A signed field of a descriptor. -/
def dsigned (c : BitVec 512) (lo n : Nat) : Int := (c.extractLsb' lo n).toInt

/-- The source of element (i, j): none for padding; and whether it is a tail element (R240). -/
def convSource (c : BitVec 512) (pos : Word) (w vl e : Nat) : Option (Int × Nat) × Bool :=
  let OH := dfield c 256 16
  let OW := dfield c 272 16
  let p := (pos.extractLsb' 32 32).toNat + e / vl
  if dfield c 192 16 * OH * OW ≤ p then (none, true)
  else
    let n := p / (OH * OW)
    let oh := p / OW % OH
    let ow := p % OW
    let ih : Int := (oh * dfield c 288 8 + (pos.extractLsb' 24 8).toNat * dfield c 304 8 : Nat) - (dfield c 320 16 : Int)
    let iw : Int := (ow * dfield c 296 8 + (pos.extractLsb' 16 8).toNat * dfield c 312 8 : Nat) - (dfield c 336 16 : Int)
    if ih < 0 ∨ (dfield c 208 16 : Int) ≤ ih ∨ iw < 0 ∨ (dfield c 224 16 : Int) ≤ iw then (none, false)
    else
      (some (place w ((dfield c 0 64 : Int) + n * dsigned c 64 64 + ih * dsigned c 128 32 + iw * dsigned c 160 32)
        (((pos.extractLsb' 0 16).toNat + e % vl : Nat) : Int)), false)

/-- Whether a descriptor and position word break step 2 of R241. -/
def convBad (c : BitVec 512) (pos : Word) (vl : Nat) : Bool :=
  dfield c 403 109 != 0 || dfield c 388 4 != 0 ||
    ([(192, 16), (208, 16), (224, 16), (240, 16), (256, 16), (272, 16), (288, 8), (296, 8), (304, 8), (312, 8)].any fun (lo, n) => dfield c lo n == 0)
    || dfield c 395 8 == 255 || decide (dfield c 240 16 < (pos.extractLsb' 0 16).toNat + vl)

/-- The sources of a convolution copy's elements, and the places of its destination (R239, R240). -/
def CopyReq.convSources (q : CopyReq) (c : BitVec 512) : List (Option (Int × Nat) × Bool) :=
  (List.range q.size).map (convSource c q.arg q.w q.vl)
def CopyReq.convPlaces (q : CopyReq) : List (Int × Nat) := stripPlaces q.w q.vl q.vr q.dst.toNat 0

/-- The checks of a convolution copy but for translation (R241). -/
def checkConv (ft : BitVec 4 → Fmt) (q : CopyReq) (c : BitVec 512) : Option Check :=
  if convBad c q.arg q.vl then some (tCOPY_RANGE, 0)
  else if q.size = 0 then none
  else if badTarget (ft (c.extractLsb' 384 4)) q.w then some (tTAG_FORMAT, 0)
  else if !spanOk (((q.convSources c).filterMap (·.1)).map (·.1)) || !spanOk (q.convPlaces.map (·.1)) then some (tCOPY_RANGE, 0)
  else none

/-- The plan of a convolution copy with its descriptor, which lies at `aux` (R239). -/
def planConv (q : CopyReq) (c : BitVec 512) (seed : BitVec 32) : Plan :=
  if q.size = 0 then .none_ seed
  else
    let code := c.extractLsb' 392 3
    let rm := RMode.ofCode (if code = 7 then q.rnd else code)
    let srcs := q.convSources c
    let (ds, seed') := copyDraws (rm == .sr) seed q.size
    let lines := landLines (srcs.map fun x => x.1.map wrapLine) (q.convPlaces.map wrapLine) ds
    let range := match (srcs.filterMap (·.1)).map (·.1) with
      | [] => []
      | a :: r => pagesIn (.ofInt 64 (r.foldl min a)) ((r.foldl max a) + 128 - r.foldl min a).toNat
    ⟨.conv (c.extractLsb' 384 4) rm (some (c.extractLsb' 395 8)) (c.extractLsb' 352 32), lines, pagesOf (pagesIn q.aux 64 ++ range),
      pagesOf (lines.map (·.dst)), none, false, q.size, (srcs.filter (·.2)).length, srcs.any (·.1.isNone), seed'⟩

/-! ### Fingerprints and compares (R242, R243) -/

/-- The checks of a fingerprint but for translation (R242). -/
def checkFp (q : CopyReq) : Option Check :=
  let k := q.arg.toNat
  let dst := q.aux
  if q.src.extractLsb' 0 12 ≠ 0 then some (tMISALIGNED, q.src)
  else if dst.extractLsb' 0 3 ≠ 0 ∧ inWindow dst = true then some (tMISALIGNED, dst)
  else if k = 0 ∨ 4096 < k ∨ inWindow dst = false ∨ Config.spadBytes < spadOff dst + 8 * k then some (tCOPY_RANGE, dst)
  else none

/-- The plan of a fingerprint: one result doubleword for each block. -/
def planFp (q : CopyReq) (seed : BitVec 32) : Plan :=
  let k := q.arg.toNat
  let lines := ((List.range k).map fun b =>
    let a := q.aux + .ofNat 64 (8 * b)
    (a &&& ~~~0x7F, (⟨b, some (q.src + .ofNat 64 (4096 * b)), 0, (a.toNat % 128) / 8, 0⟩ : Mv))).foldl addMove []
  ⟨.fp, lines, pagesIn q.src (4096 * k), [], none, true, k, 0, false, seed⟩

/-- The checks of a compare but for translation: `dst` of the request is the second range, `aux` the result (R243, Table 12.9). -/
def checkCmp (q : CopyReq) : Option Check :=
  let n := q.arg.toNat
  if q.src.extractLsb' 0 7 ≠ 0 then some (tMISALIGNED, q.src)
  else if q.dst.extractLsb' 0 7 ≠ 0 then some (tMISALIGNED, q.dst)
  else if q.aux.extractLsb' 0 3 ≠ 0 then some (tMISALIGNED, q.aux)
  else if n % 128 ≠ 0 ∨ n < 128 ∨ 16777216 < n then some (tCOPY_RANGE, 0)
  else if inWindow q.aux = false then some (tCOPY_RANGE, q.aux)
  else none

/-- The plan of a compare. -/
def planCmp (q : CopyReq) (seed : BitVec 32) : Plan :=
  let n := q.arg.toNat
  ⟨.cmp q.dst n 0, [⟨q.aux &&& ~~~0x7F, none, none, [⟨0, some q.src, 0, q.aux.toNat % 128 / 8, 0⟩]⟩],
    (pagesIn q.dst n).foldl (fun ps a => insertAddr a ps) (pagesIn q.src n), [], none, true, 1, 0, false, seed⟩

/-- The checks of a request but for translation; `c` is the convolution descriptor of OP 1. -/
def checkCopy (ft : BitVec 4 → Fmt) (q : CopyReq) (c : BitVec 512) : Option Check :=
  match q.op with
  | 0 => checkStrip ft q
  | 1 => checkConv ft q c
  | 2 => checkFp q
  | _ => checkCmp q

/-- The plan of a request that passes its checks. -/
def planCopy (q : CopyReq) (c : BitVec 512) (seed : BitVec 32) : Plan :=
  match q.op with
  | 0 => planStrip q seed
  | 1 => planConv q c seed
  | 2 => planFp q seed
  | _ => planCmp q seed

/-- The lowest element of a plan's landings in a page (Table 17.6). -/
def firstIn (lines : List LandLine) (page : Word) : Nat :=
  match (lines.filter fun l => pageOf l.dst == page).flatMap fun l => l.moves.map (·.e) with
  | [] => 0
  | e :: r => r.foldl Nat.min e

/-! ### Issue and start (R231, R236, R260, R313) -/

/-- The translation of a page held by a command; none in the scratchpad window and at an untranslated resident level. -/
def pageLeaf (v : Via) (n : Need) (ix : Nat) (va : Word) : M (List Xlat) := do
  if inWindow va then return []
  let _ ← translateAt v n ix va
  let s ← get
  return if v.raw then [] else (s.dev.cached v.key va).toList

/-- The translations of pages, in ascending address order, reading before writing; `ix` names the element of a page written (R231 step 6). -/
def mapPages (v : Via) (reads writes : List Word) (ix : Word → Nat) : M (List Xlat) := do
  let all := writes.foldl (fun ps a => insertAddr a ps) reads
  let xs ← all.mapM fun a => do
    let x ← if reads.contains a then pageLeaf v nEngRead 0 a else pure []
    let y ← if writes.contains a then pageLeaf v nEngWrite (ix a) a else pure []
    return x ++ y
  return (xs.flatten).eraseDups

/-- The translations of a plan's pages. -/
def Plan.mapPages (p : Plan) (v : Via) : M (List Xlat) := Sys2Proof.Machine.mapPages v p.reads p.writes (firstIn p.lines)

/-- Whether a translation covers an address. -/
def Xlat.covers (x : Xlat) (va : Word) : Bool := x.base.toNat / 2 ^ x.lg == va.toNat / 2 ^ x.lg

/-- The translation of an address by a command: from those it holds, which a page that is turning does not hold up (R372), or afresh where
it holds none (R314). -/
def heldTr (v : Via) (xl : List Xlat) (n : Need) (va : Word) : M Tr := do
  let s ← get
  match xl.find? (·.covers va) with
  | some x =>
    if inWindow va then return .ofSpad va
    match s.dev.trFrom x n true va with
    | .error f => faultAt n.kind va f
    | .ok none => stop .wait
    | .ok (some (tr, d)) =>
      set { s with dev := d }
      return tr
  | none => translate v n va

/-- A landing with the line that it is, by location; the Shuttle owns one homed on the core's die (R236, R260). -/
def placeLine (s : State) (v : Via) (xl : List Xlat) (ln : LandLine) : LandLine :=
  match (heldTr v xl nEngWrite ln.dst).run s with
  | .ok (tr, _) =>
    if tr.spad then ln
    else { ln with home := some (tr.loc / 128), own := if homeDie tr.loc == some s.core.die then some (tr.loc / 128) else none }
  | .error _ => ln

/-- A line offset put among the empty ones, in ascending order. -/
def insertNat (a : Nat) : List Nat → List Nat
  | [] => [a]
  | b :: r => if a < b then a :: b :: r else if a = b then b :: r else b :: insertNat a r

/-- Whether the Shuttle takes no further copy now (R231, R250). -/
def Core.shuttleBusy (c : Core) : Bool := decide (512 ≤ c.copies.length) || decide (64 ≤ c.shuttleHeld)

/-- A watch counter of the core. -/
def Core.watchAt (c : Core) (k : BitVec 4) : Watch := c.watch[k.toNat]'(k.isLt)
/-- A core with a watch counter replaced. -/
def Core.setWatch (c : Core) (k : BitVec 4) (w : Watch) : Core := { c with watch := c.watch.set k.toNat w k.isLt }

/-- A copy that has no line left retires: its knot is signalled (R238, R247). -/
def Core.retireCopy (c : Core) (id : Nat) : Core :=
  match c.copies.find? (·.id == id) with
  | none => c
  | some k =>
    let c := { c with copies := c.copies.filter (·.id != id) }
    k.knot.elim c fun n => c.signal n 1

/-- Who starts a copy, and where its completion is told. -/
structure Starter where
  who : Nat
  engine : Nat
  queue : Nat
  batch : BitVec 32
  knot : Option (BitVec 5)
  key : Nat
  launch : Nat
  pc : Word
  deriving DecidableEq, Repr

/-- Whether a copy cannot start yet: another core's Shuttle owns one of its lines, which it is to own itself, or a load of the issuer that
is still to be read reaches a line whose bit it clears (R236, R260). -/
def State.startWaits (s : State) (issuer : Nat) (p : Plan) (lines : List LandLine) : Bool :=
  (lines.any fun l => l.own.any fun n => s.dev.cores.any (·.owns (n * 128)) || s.dev.entryActive (n * 128)) ||
    (p.clr && lines.any fun l => inWindow l.dst && (s.strandAt issuer).any (·.holdsBytes (spadOff l.dst / 128) (BitVec.allOnes 128)))

/-- A planned copy started (R231): it owns its on-die destination lines, takes its positions, and empties its scratchpad lines
where asked. -/
def State.startCopy (s : State) (b : Starter) (p : Plan) (lines : List LandLine) (xl : List Xlat) : State :=
  let base := p.wctr.map fun k => (k, (s.core.watchAt k).assigned)
  let c := match p.wctr with
    | some k => s.core.setWatch k { s.core.watchAt k with assigned := (s.core.watchAt k).assigned + BitVec.ofNat 32 p.count }
    | none => s.core
  let c := if p.clr then
      { c with feEmpty := (lines.filter fun l => inWindow l.dst).foldl (fun fs l => insertNat (spadOff l.dst / 128) fs) c.feEmpty } else c
  let c := lines.foldl (fun c l => if inWindow l.dst then c else c.noteLazy b.key l.dst l.own) c
  let k : Copy := ⟨c.copyNext, b.who, b.engine, b.queue, b.key, b.launch, b.batch, p.kind, 0, lines, base, b.knot, [], none, b.pc, xl⟩
  let c := { c with copies := c.copies ++ [k], copyNext := c.copyNext + 1 }
  let s := ({ s with core := c } : State).updBatch (fun x => x.who == b.who && x.num == b.batch) fun x =>
    { x with tail := x.tail + (if b.who % 32 = 17 then 1 else p.tail), status := x.status ||| (if p.padded then 2 else 0) }
  if lines = [] then { s with core := s.core.retireCopy k.id } else s

/-- The copy started, if it need not wait; `issuer` is the strand whose accesses it follows. -/
def startM (issuer : Nat) (b : Starter) (p : Plan) (xl : List Xlat) : M Unit := do
  let s ← get
  let lines := p.lines.map (placeLine s (s.viaKey b.key) xl)
  if s.startWaits issuer p lines then stop .wait
  let t := s.startCopy b p lines xl
  set { t with dev := (lines.filterMap fun (l : LandLine) => l.own).foldl (fun d n => d.tokensHome (n * 128)) t.dev }

/-! ### The Shuttle's rotation by source (R192; log 135) -/

/-- Whether the first block of a queue may start when its turn comes: it does not wait on its knot (R247). -/
def Core.headReady (c : Core) (q : BitVec 2) : Bool :=
  match c.cmdq[q.toNat]'(q.isLt) with
  | [] => false
  | b :: _ => !b.blk.getLsbD 205 || (c.knots[(b.blk.extractLsb' 200 5).toNat]'((b.blk.extractLsb' 200 5).isLt)) != 0

/-- The queue that the CC's turn goes to: the first ready one after the queue served last. -/
def Core.queueTurn (c : Core) : Option (BitVec 2) :=
  ((List.range 4).map fun i => BitVec.ofNat 2 (c.shuttleLast / 16 + 1 + i)).find? c.headReady

/-- Whether a source has a command for the Shuttle: source 0 is the CC with its queues, the others are the A-harts by frame number. -/
def State.wantsTurn (s : State) (n : Nat) : Bool :=
  !s.core.heldStill n &&
    if n = 0 then s.core.queueTurn.isSome else (s.strandAt n).any fun t => t.run == .running && t.wantsShuttle

/-- Whether it is the turn of a source that has a command, and the debug port does not hold that source still (R325, R391). -/
def State.shuttleTurn (s : State) (me : Nat) : Bool :=
  !s.core.heldStill me && ((List.range 9).map fun i => (s.core.shuttleLast % 16 + 1 + i) % 9).find? (fun n => n == me || s.wantsTurn n) == some me

/-- A copy issued by an A-hart (R231); a zero grant has no effect (R78). -/
def issueCopy (q : CopyReq) (conv : BitVec 512) : M Unit := do
  let s ← get
  match checkCopy s.fmt q conv with
  | some (c, a) => stop (.trap c 0 a 0)
  | none =>
    if q.op < 2 ∧ q.size = 0 then advanceM
    else
      let p := planCopy q conv s.st.seed
      let xl ← p.mapPages s.via
      let t ← get
      if t.core.shuttleBusy || !t.shuttleTurn s.st.slot then
        stop (.redo fun _ u => { u with st := { u.st with wantsShuttle := true } })
      let n ← openBatch
      startM s.st.slot ⟨s.st.slot, 1, 5, n, none, s.via.key, s.core.launchId, s.st.wordPc⟩ p xl
      modify fun t => { t with st := { t.st with seed := p.seed },
                               core := { t.core with shuttleLast := t.core.shuttleLast / 16 * 16 + s.st.slot } }
      advanceM

/-- `n` bytes of a record read as loads of the acting strand read them (Table 17.3). -/
def readRecord (va : Word) (n : Nat) : M Nat := do
  engGate 2
  let (v, _) ← loadParts (lineParts va n)
  return v

/-- The request of a strand under its own grant. -/
def State.stripReq (s : State) (op : Nat) (src dst arg aux : Word) : CopyReq :=
  ⟨op, s.st.gw, s.st.vl.toNat, s.st.vr.toNat, src, dst, arg, aux, s.st.round⟩

def execCp (d a b : BitVec 5) (s : State) : Out := deliver s (issueCopy (s.stripReq 0 (s.x a) (s.x d) (s.x b) 0) 0)

/-- A record read by an engine at its home, by parts in each line; a POI line faults. It sets ACC, and is no sampling event (R377; log
134). -/
def engineRecord (v : Via) : List (Word × Nat) → M Nat
  | [] => return 0
  | (va, n) :: r => do
    let tr ← translate v nEngRead va
    let (l, t) ← readHome tr nEngRead.kind
    modify (·.touch tr false)
    if t.cls = cPOI then faultAt nEngRead.kind va (fltPoison 0 tr.dpa)
    let hi ← engineRecord v r
    return lineBytes (if t.cls = cUNW then 0 else l) (va.toNat % 128) n + 2 ^ (8 * n) * hi

/-- The convolution descriptor of a request, which `read` reads. Where it cannot be read, what else the checks know fails first: the
destination's span, then the pages of the descriptor and the destination in ascending order (R241). A request without elements needs none:
one that cannot be read is no failure then, and there is none (R78, R231). -/
def convRecordBy (read : M Nat) (v : Via) (q : CopyReq) : M (Option (BitVec 512)) := fun s =>
  match read.run s with
  | .ok (c, t) => .ok (some (.ofNat 512 c), t)
  | .error .wait => .error .wait
  | .error (.redo f) => .error (.redo f)
  | .error e =>
    if q.size = 0 then .ok (none, s)
    else if !spanOk (q.convPlaces.map (·.1)) then .error (.trap tCOPY_RANGE 0 0 0)
    else match (mapPages v (pagesIn q.aux 64) (pagesOf (q.convPlaces.map fun x => (wrapLine x).1)) fun _ => 0).run s with
      | .ok _ => .error e
      | .error f => .error f

/-- The convolution descriptor of a request of the acting strand. -/
def convRecord (q : CopyReq) : M (Option (BitVec 512)) := do convRecordBy (readRecord q.aux 64) (← get).via q

def execCpConv (d a b : BitVec 5) (s : State) : Out := deliver s do
  let q := s.stripReq 1 0 (s.x d) (s.x b) (s.x a)
  match ← convRecord q with
  | some c => issueCopy q c
  | none => advanceM

def execCpFp (d a b : BitVec 5) (s : State) : Out := deliver s (issueCopy (s.stripReq 2 (s.x a) 0 (s.x b) (s.x d)) 0)

def execCpCmp (d a b : BitVec 5) (s : State) : Out :=
  deliver s (issueCopy (s.stripReq 3 (s.x a) (s.x (a + 1)) (s.x b) (s.x d)) 0)

/-! ### Batches and watch counters as strands use them (R244 to R246) -/

def execCpClose (a : BitVec 5) (s : State) : Out := deliver s do
  closeBatch (if a = 0 then none else some ((s.x a).extractLsb' 0 32))
  advanceM

/-- `cp.wait`: the open batch is closed even where the wait goes on (R245). -/
def execCpWait (n : BitVec 5) (s : State) : Out :=
  let t := if s.core.batches.any fun b => b.who == s.st.slot && !b.closed then
      match (closeBatch none).run s with
      | .ok (_, t) => some t
      | .error _ => none
    else some s
  match t with
  | some t => if t.core.outstanding s.st.slot ≤ n.toNat then .next t.advance else .next t.await
  | none => .next s.await

def execWset (k : BitVec 4) (a : BitVec 5) (s : State) : Out := deliver s do
  let w := s.core.watchAt k
  if w.front ≠ w.assigned then stop .wait
  let n := s.st.grant * (if a = 0 then 1 else (s.x a).toNat)
  if 2 ^ 32 ≤ n then raiseTrap tCOPY_RANGE
  modify fun s => { s with core := s.core.setWatch k ⟨.ofNat 32 n, 0, 0, []⟩ }
  advanceM

def execWwait (k : BitVec 4) (a : BitVec 5) (s : State) : Out := deliver s do
  let w := s.core.watchAt k
  if w.front.toNat < (if a = 0 then w.expect.toNat else Nat.min (s.x a).toNat w.expect.toNat) then stop .wait
  advanceM

/-- The front moved over positions that have landed. -/
def Watch.settle (w : Watch) : Nat → Watch
  | 0 => w
  | n + 1 => if w.ahead.contains w.front then ({ w with front := w.front + 1, ahead := w.ahead.filter (· != w.front) }).settle n else w

/-- Positions of a counter that have landed (R246). -/
def Watch.mark (w : Watch) (ps : List (BitVec 32)) : Watch :=
  let w := { w with ahead := w.ahead ++ ps.filter (!w.ahead.contains ·) }
  w.settle w.ahead.length

/-! ### Landings (R232 to R236) -/

/-- A source line as the Shuttle reads it: from the core's far copy, or from the home. A line that another core's Shuttle owns is waited for;
copies of its own core may have it before or after (R236, R260). -/
def readSource (v : Via) (xl : List Xlat) (va : Word) : M (Line × Tag) := do
  let s ← get
  if inWindow va then return (s.core.spad.line (spadOff va), s.core.spad.tag (spadOff va))
  let tr ← heldTr v xl nEngRead va
  let s ← get
  if s.dev.cores.any (·.owns tr.loc) then stop .wait
  set (s.touch tr true)
  match s.core.farAt tr.loc with
  | some f => return (f.data, f.tag)
  | none => fetchHome tr nEngRead.kind

/-- The source lines a landing needs, each read once over the life of the copy (R235). -/
def gather (v : Via) (xl : List Xlat) : List Word → List (Nat × Line × Tag) → M (List (Nat × Line × Tag))
  | [], got => return got
  | a :: r, got => do
    if got.any fun x => x.1 == a.toNat then gather v xl r got
    else
      let (l, t) ← readSource v xl a
      gather v xl r ((a.toNat, l, t) :: got)

/-- The moves of a landing that take effect: where several share a slot, the one of the highest element. -/
def lastMoves (ms : List Mv) : List Mv := ms.filter fun m => !(ms.any fun n => n.dslot == m.dslot && decide (m.e < n.e))

/-- A line as a landing makes it, the bits of its batch's STATUS and its flags. -/
structure Landed where
  data : Line
  fmt : BitVec 4
  scl : BitVec 8
  cls : BitVec 3
  pln : BitVec 3
  partly : Bool
  flags : BitVec 8
  deriving DecidableEq, Repr

/-- Why a source element cannot be moved (R232, R233), by fault code. -/
def moveBad (ft : BitVec 4 → Fmt) (conv : Bool) (t : Tag) (slot : Nat) : Option (BitVec 8) :=
  let S := ft t.fmt
  if conv && t.cls == cRAW then some 4
  else if conv && t.cls != cUNW && S.kind == .nested then some 3
  else if t.cls != cUNW && decide (perSeg S.wid ≤ slot) then some 3
  else none

/-- Slots put into a line whose old contents are kept where FMT, SCL and CLS agree (R234). -/
def coverLine (ft : BitVec 4 → Fmt) (old : Line) (ot : Tag) (fmt : BitVec 4) (scl : BitVec 8) (cls pln : BitVec 3)
    (xs : List (Nat × Nat)) (fl : BitVec 8) : Landed :=
  let n := perSeg (ft fmt).wid
  let keep := ot.fmt == fmt && ot.scl == scl && ot.cls == cls
  let base := if keep && cls != cUNW then zeroPad (ft fmt).wid old else 0
  ⟨putSlots (ft fmt).wid base (xs.filter fun x => decide (x.1 < n)), fmt, scl, cls, pln,
    !keep && (List.range n).any fun k => !(xs.any fun x => x.1 == k), fl⟩

/-- A line moved (R232): codes at the width of each source line's format, tags of the line that feeds the lowest slot. -/
def moveLine (ft : BitVec 4 → Fmt) (got : Word → Line × Tag) (ms : List Mv) (old : Line) (ot : Tag) : Landed :=
  let low := ms.foldl (fun (a : Mv) b => if b.dslot < a.dslot then b else a) (ms.headD ⟨0, none, 0, 0, 0⟩)
  let t := (got (low.src.getD 0)).2
  let xs := ms.map fun m =>
    let (l, u) := got (m.src.getD 0)
    (m.dslot, if u.cls = cUNW then 0 else lineSlot l (ft u.fmt).wid m.sslot)
  coverLine ft old ot t.fmt t.scl (if t.cls = cSTG then cVAL else t.cls) t.pln xs 0

/-- The scaled value of a source element, or of padding, and its flags (R233, R240). -/
def moveValue (ft : BitVec 4 → Fmt) (toInt : Bool) (padv : BitVec 32) (got : Word → Line × Tag) (m : Mv) : Val × BitVec 8 :=
  match m.src with
  | none => fp32.decode toInt padv.toNat
  | some a =>
    let (l, t) := got a
    if t.cls = cUNW then (.zero, fNX)
    else
      let (x, f) := (ft t.fmt).decode toInt (lineSlot l (ft t.fmt).wid m.sslot)
      (applyScale t.scl x, f)

/-- A line converted (R233, R240). -/
def convLine (ft : BitVec 4 → Fmt) (fi : BitVec 4) (rm : RMode) (scl : Option (BitVec 8)) (padv : BitVec 32) (got : Word → Line × Tag)
    (ms : List Mv) (old : Line) (ot : Tag) : Landed :=
  let low := ms.foldl (fun (a : Mv) b => if b.dslot < a.dslot then b else a) (ms.headD ⟨0, none, 0, 0, 0⟩)
  let c := scl.getD (low.src.elim 127 fun a => (got a).2.scl)
  let F := ft fi
  let bad (k : BitVec 3) : Bool := ms.any fun m => m.src.any fun a => (got a).2.cls == k
  let good := ms.filter fun m => !(m.src.any fun a => (got a).2.cls == cPOI || (got a).2.cls == cINV)
  let done := good.map fun m =>
    let (x, f) := moveValue ft (F.kind != .float) padv got m
    let y := if c = 255 then Val.nan else x.scale (127 - (c.toNat : Int))
    let (k, f₂) := F.convert rm m.draw y
    ((m.dslot, k), f ||| f₂)
  let fl := done.foldl (fun f x => f ||| x.2) 0
  let slots := ms.map fun m => (m.dslot, 0)
  if bad cPOI then { coverLine ft old ot fi c cPOI 0 slots fl with data := 0 }
  else if bad cINV then { coverLine ft old ot fi c cINV 0 slots fl with data := 0 }
  else coverLine ft old ot fi c cVAL 0 (done.map (·.1)) fl

/-- rotl of R242. -/
def rotl64 (v s : Nat) : Nat := (v * 2 ^ s ||| v / 2 ^ (64 - s)) % 2 ^ 64

/-- One line of a fingerprint (R242). -/
def fpLine (h : Nat) (x : Line × Tag) : Nat :=
  let l := if x.2.cls = cUNW ∨ x.2.cls = cPOI then 0 else x.1
  let h := (List.range 16).foldl (fun h k => rotl64 (h ^^^ (l.extractLsb' (64 * k) 64).toNat) 27 * 0xD6E8FEB86659FD93 % 2 ^ 64) h
  rotl64 (h ^^^ (x.2.extractLsb' 0 18).toNat) 31 * 0x9FB21C651E98DF25 % 2 ^ 64

/-- The fingerprint of a block's lines (R242). -/
def fingerprint (xs : List (Line × Tag)) : Nat :=
  let h := xs.foldl fpLine 0x5D0C3A71E2B49F68
  let h := h ^^^ h / 2 ^ 29
  let h := h * 0xD6E8FEB86659FD93 % 2 ^ 64
  h ^^^ h / 2 ^ 32

/-- The offset of the first byte in which two lines differ, looking at `n` bytes from `k` on. -/
def firstDiff (a b : Line) (k : Nat) : Nat → Nat
  | 0 => k
  | n + 1 => if a.extractLsb' (8 * k) 8 ≠ b.extractLsb' (8 * k) 8 then k else firstDiff a b (k + 1) n

/-- The result of a compare over `n` lines from offset `off` on (R243). -/
def compareLines (v : Via) (xl : List Xlat) (a b : Word) (off : Nat) : Nat → M Nat
  | 0 => return 2 ^ 64 - 1
  | n + 1 => do
    let (x, t) ← readSource v xl (a + .ofNat 64 off)
    let (y, u) ← readSource v xl (b + .ofNat 64 off)
    if t.extractLsb' 0 18 ≠ u.extractLsb' 0 18 ∨ t.cls = cPOI ∨ u.cls = cPOI then return off
    else if x ≠ y then return off + firstDiff x y 0 128
    else compareLines v xl a b (off + 128) n

/-- A result doubleword written to the scratchpad, a line of whatever class (R242, R397; log 156). -/
def putResult (dst : Word) (slot v : Nat) : M Unit :=
  modify fun s => { s with core := { s.core with spad := s.core.spad.putRecord (spadOff dst + 8 * slot) 1 v } }

/-- A scratchpad line's bit set full (R261). -/
def setFull (off : Nat) : M Unit := modify fun s => { s with core := { s.core with feEmpty := s.core.feEmpty.filter (· != off / 128) } }

/-- The destination line of a landing at its home, with the core's far copy of it written back and dropped, and the clean ones that
other cores hold of a line the Shuttle owns (R260; log 69). -/
def landHome (ln : LandLine) (tr : Tr) : M (Line × Tag) := do
  let s ← get
  if (ln.own.isNone && s.owned tr.loc) || s.blockWaits tr then stop .wait
  let s := s.flushFar (·.loc == tr.loc / 128) true
  set (if ln.own.isSome then { s with dev := s.dev.forgetClasp (tr.loc / 128) } else s)
  homeRead tr nEngWrite.kind

/-- A landed line written: data and tag in one step, GEN and CMP kept, whatever class the line had (R46, R235; log 133). -/
def putLanded (tr : Tr) (ix : Nat) (ot : Tag) (x : Landed) : M Unit := do
  let s ← get
  let t := ot.retag x.fmt x.scl x.cls x.pln
  if tr.spad then set (s.putSpad tr.loc x.data t)
  else if tr.breach then set (s.touch tr true)
  else match s.dev.putHome tr x.data t with
    | .error f => faultAt nEngWrite.kind tr.va { f with info := ix }
    | .ok d => set (({ s with dev := (d.markWrite tr).tokensHome tr.loc } : State).touch tr true)

/-- One landing of a copy: the lines it has read, whether it wrote code 0 into uncovered slots, and its flags. -/
def landing (k : Copy) (ln : LandLine) : M (List (Nat × Line × Tag) × Bool × BitVec 8) := do
  let s ← get
  let v := s.viaKey k.ctx
  match k.kind with
  | .fp => do
    ln.moves.forM fun m => do
      let xs ← (List.range 32).mapM fun i => readSource v k.xl (m.src.getD 0 + .ofNat 64 (128 * i))
      putResult ln.dst m.dslot (fingerprint xs)
    setFull (spadOff ln.dst)
    return ([], false, 0)
  | .cmp other len _ => do
    ln.moves.forM fun m => do
      let r ← compareLines v k.xl (m.src.getD 0) other 0 (len / 128)
      putResult ln.dst m.dslot r
    setFull (spadOff ln.dst)
    return ([], false, 0)
  | kind => do
    let ms := lastMoves ln.moves
    let got ← gather v k.xl (ms.filterMap (·.src)) k.got
    let look (a : Word) : Line × Tag := ((got.find? fun x => x.1 == a.toNat).map (·.2)).getD (0, Memory.tag0)
    let conv := match kind with
      | .conv _ _ _ _ => true
      | _ => false
    match ms.findSome? fun m => m.src.bind fun a => (moveBad s.fmt conv (look a).2 m.sslot).map fun c => (m, a, c) with
    | some (m, a, c) =>
      let tr ← heldTr v k.xl nEngRead a
      faultAt nEngRead.kind a (fltTag c m.e tr.dpa)
    | none => pure ()
    let tr ← heldTr v k.xl nEngWrite ln.dst
    let (old, ot) ← if tr.spad then pure ((← get).core.spad.line tr.loc, (← get).core.spad.tag tr.loc) else landHome ln tr
    let x := match kind with
      | .conv fi rm scl padv => convLine s.fmt fi rm scl padv look ms old ot
      | _ => moveLine s.fmt look ms old ot
    putLanded tr (ln.moves.foldl (fun n m => Nat.min n m.e) (ln.moves.headD ⟨0, none, 0, 0, 0⟩).e) ot x
    if tr.spad then setFull tr.loc
    return (got, x.partly, x.flags)

/-- A copy of a core changed. -/
def State.updCopy (s : State) (id : Nat) (f : Copy → Copy) : State :=
  { s with core := { s.core with copies := s.core.copies.map fun k => if k.id = id then f k else k } }

/-- Positions of a copy's landed elements on its counter. -/
def State.markWatch (s : State) (k : Copy) (ln : LandLine) : State :=
  match k.watch with
  | none => s
  | some (c, base) =>
    { s with core := s.core.setWatch c ((s.core.watchAt c).mark (ln.moves.map fun m => base + .ofNat 32 m.e)) }

/-- Whether an earlier copy of the same issuer has still to land a line, by whatever address (R236, R238). -/
def Core.behind (c : Core) (k : Copy) (ln : LandLine) : Bool :=
  (c.copies.takeWhile (·.id != k.id)).any fun j => j.who == k.who && j.lines.any fun l => l.dst == ln.dst || (l.home.isSome && l.home == ln.home)

/-- The pages that a copy's remaining lines read and write. -/
def Copy.pages (k : Copy) : List Word × List Word :=
  let srcs := k.lines.flatMap fun l => l.moves.filterMap (·.src)
  match k.kind with
  | .fp => (pagesOf srcs, [])
  | .cmp other len _ => (pagesOf (pagesIn other len ++ srcs.flatMap (pagesIn · len)), [])
  | _ => (pagesOf srcs, pagesOf (k.lines.map (·.dst)))

/-- The translations of a copy, with those that it does not hold made again and held (R313, R314). -/
def rehold (k : Copy) : M (List Xlat) := do
  let v := (← get).viaKey k.ctx
  if v.raw then return k.xl
  let miss (a : Word) : Bool := !inWindow a && !k.xl.any (·.covers a)
  let xl ← mapPages v (k.pages.1.filter miss) (k.pages.2.filter miss) (firstIn k.lines)
  return k.xl ++ xl

/-- A record as a copy raises it (Table 17.6). -/
def Copy.names (k : Copy) (r : FaultRec) : FaultRec :=
  r.by (.ofNat 8 k.engine) (if k.who % 32 = 17 then 0 else whoOfSlot (k.who % 32)) k.ctx k.pc

/-- A copy parked alone on an engine fault (R238). -/
def State.parkCopy (s : State) (k : Copy) (r : FaultRec) : State :=
  let (t, h) := s.engineFault k.ctx (.copy s.core.num k.id) (k.names r)
  t.updCopy k.id fun k => { k with parked := some h }

/-- One landing with what it does to its copy, its counter and its batch. -/
def landOne (k : Copy) (line : Nat) (ln : LandLine) : M Unit := do
  let (got, part, fl) ← landing k ln
  modify fun s => s.updCopy k.id fun k => { k with got := got, lines := k.lines.eraseIdx line }
  modify fun s => (s.markWatch k ln).updBatch (fun b => b.who == k.who && b.num == k.batch) fun b =>
    { b with written := b.written + ln.moves.length, flags := b.flags ||| fl, status := b.status ||| (if part then 1 else 0) }
  if k.lines.length = 1 then modify fun s => { s with core := s.core.retireCopy k.id }

/-- Whether a copy is parked because the debug port stopped its issuer; the Bobbin's and the queues' is the CC (R325, R391). -/
def Core.copyHeld (c : Core) (k : Copy) : Bool := k.who == 17 && c.heldStill 0 || decide (k.who < 17) && c.heldStill k.who

/-- What comes of the landing of a copy's line, none where it has to wait: its pages are translated again where it holds no translation,
and a fault parks it with those that it then holds. -/
def State.land (s : State) (k : Copy) (line : Nat) (ln : LandLine) : Option State :=
  if k.parked.isSome || s.core.copyHeld k || s.core.behind k ln then none
  else
    let held : M Unit := do
      let xl ← rehold k
      modify (·.updCopy k.id fun k => { k with xl := xl })
    match runEngine s k.names held with
    | .done t =>
      match t.core.copies.find? (·.id == k.id) with
      | none => none
      | some k =>
        match runEngine t k.names (landOne k line ln) with
        | .done u => some u
        | .fault r => some (t.parkCopy k r)
        | .again u => some u
        | _ => none
    | .fault r => some (s.parkCopy k r)
    | .again t => some t
    | _ => none

/-- Line `line` of those that copy `copy` has still to land lands (R235); an engine fault parks the copy alone (R238). -/
def execLanding (copy line : Nat) (s : State) : Out :=
  .next (match s.core.copies.find? (·.id == copy) with
    | none => s
    | some k =>
      match k.lines[line]? with
      | none => s
      | some ln => (s.land k line ln).getD s)

/-! ### Command blocks and the Bobbin as they start copies (R247, R248) -/

/-- The request in a command block (Table 12.9). -/
def blockReq (b : BitVec 512) (rnd : BitVec 3) : CopyReq :=
  let op := (b.extractLsb' 208 8).toNat
  let aux := b.extractLsb' 256 64
  ⟨op, wcWidth (b.extractLsb' 220 4), (b.extractLsb' 224 16).toNat, (b.extractLsb' 240 16).toNat, b.extractLsb' 448 64,
    b.extractLsb' 384 64, b.extractLsb' 320 64, aux, rnd⟩

/-- Whether a block breaks Table 12.9: reserved bits, OP, WC, or an AUX that its OP does not use. -/
def blockBad (b : BitVec 512) (maxOp : Nat) : Bool :=
  let op := (b.extractLsb' 208 8).toNat
  let wc := b.extractLsb' 220 4
  b.extractLsb' 216 4 != 0 || b.extractLsb' 192 2 != 0 || b.extractLsb' 0 160 != 0 || decide (maxOp < op) ||
    (decide (op < 2) && (wc == 1 || wc == 2)) || (op == 0 && b.extractLsb' 256 64 != 0)

/-- The first block of a queue starts, on the CC's turn and unless it waits on its knot or the Shuttle is full; its checks were made when
it was pushed (R192, R247). -/
def execCommandBlockStart (queue : BitVec 2) (s : State) : Out :=
  .next (match s.core.cmdq[queue.toNat]'(queue.isLt) with
    | [] => s
    | b :: r =>
      let kw := b.blk.extractLsb' 200 5
      let kv := s.core.knots[kw.toNat]'(kw.isLt)
      if s.core.shuttleBusy || !s.core.headReady queue || !s.shuttleTurn 0 then s
      else
        let core := { s.core with cmdq := s.core.cmdq.set queue.toNat r queue.isLt,
                                  engAhead := s.core.engAhead.set queue.toNat ((s.core.engAhead[queue.toNat]'(queue.isLt)) - 1) queue.isLt,
                                  shuttleLast := 16 * queue.toNat }
        let core := if b.blk.getLsbD 205 then { core with knots := core.knots.set kw.toNat (kv - 1) kw.isLt } else core
        let core := if core.engAhead.all (· == 0) then { core with engKinds := 0 } else core
        let p := planCopy (blockReq b.blk 0) b.conv s.core.shSeed
        let who : Starter := ⟨b.who, 2, queue.toNat, b.batch, if b.blk.getLsbD 199 then some (b.blk.extractLsb' 194 5) else none, b.ctx, b.launch,
          b.pc⟩
        match runEngine { s with core := { core with shSeed := p.seed } } (·.by 2 0 b.ctx b.pc) (startM 0 who p b.xl) with
        | .done t => t
        | _ => s)

/-- COUNT of level `k` of a nest (Table 12.10). -/
def nestCount (n : BitVec 2048) (k : Nat) : Nat := (n.extractLsb' (512 + 256 * k + 96) 32).toNat
/-- Iterations of a nest. -/
def nestTotal (n : BitVec 2048) : Nat := (List.range 6).foldl (fun a k => a * nestCount n k) 1

/-- The offsets of iteration `i`, level 0 innermost: of the source at bit 192 of each level entry, of the destination at bit
128 (R248). -/
def nestOffset (n : BitVec 2048) (lo i : Nat) : Word :=
  ((List.range 6).foldl (fun (acc, q) k =>
    (acc + .ofNat 64 (q % nestCount n k) * n.extractLsb' (512 + 256 * k + lo) 64, q / nestCount n k)) ((0 : Word), i)).1

/-- The request of iteration `i` of a nest started with two offsets (R248, R303). -/
def nestReq (n : BitVec 2048) (offA offB : Word) (rnd : BitVec 3) (i : Nat) : CopyReq :=
  let q := blockReq (n.extractLsb' 0 512) rnd
  let so := offA + nestOffset n 192 i
  if q.op = 1 then { q with arg := q.arg + so, dst := q.dst + offB + nestOffset n 128 i }
  else { q with src := q.src + so, dst := q.dst + offB + nestOffset n 128 i }

/-- The nest that emitted its last copy: its batch closes, with what its completion tells (R248). -/
def State.closeNest (s : State) (n : BitVec 2048) : State :=
  let t := n.extractLsb' 0 512
  let no := s.core.bobbin.nestNo
  ({ s with core := { s.core with bobbin := { s.core.bobbin with run := none, at_ := 0 } } } : State).updBatch
    (fun b => b.who == 17 && b.num == no) fun b =>
      { b with closed := true, evt := if t.getLsbD 206 then some (t.extractLsb' 160 32) else none,
               knot := if t.getLsbD 199 then some (t.extractLsb' 194 5) else none }

/-- The Bobbin emits the copy of its next iteration; a check or translation that fails parks it there (R248). -/
def execBobbinEmission (s : State) : Out :=
  let w := s.core.bobbin
  .next (match w.nest, w.run with
    | some n, some (offA, offB, rnd) =>
      if w.parked.isSome || s.core.heldStill 0 then s
      else if nestTotal n ≤ w.at_ then (if s.core.outstanding 17 < 64 then s.closeNest n else s)
      else if s.core.shuttleBusy then s
      else
        let q := nestReq n offA offB rnd w.at_
        let v := s.viaKey w.ctx
        let m : M Unit := do
          let conv ← if q.op = 1 then convRecordBy (engineRecord v (lineParts q.aux 64)) v q else pure (some 0)
          match conv.bind (checkCopy s.fmt q) with
          | some (e, a) => stop (.trap e 0 a 0)
          | none =>
            let c := conv.getD 0
            let p := planCopy q c s.core.shSeed
            let xl ← p.mapPages v
            modify fun s => { s with core := { s.core with shSeed := p.seed, bobbin := { s.core.bobbin with at_ := w.at_ + 1 } } }
            startM 0 ⟨17, 3, 4, w.nestNo, none, w.ctx, w.launch, w.pc⟩ p xl
        let park (r : FaultRec) : State :=
          let (t, h) := s.engineFault w.ctx (.bobbin s.core.num) (r.by 3 0 w.ctx w.pc)
          { t with core := { t.core with bobbin := { t.core.bobbin with parked := some h } } }
        match runEngine s (·.by 3 0 w.ctx w.pc) m with
        | .done t => if nestTotal n ≤ w.at_ + 1 && decide (t.core.outstanding 17 < 64) then t.closeNest n else t
        | .again t => t
        | .wait => s
        | .check a => park (s.mkFault 5 1 4 a 0 0)
        | .fault r => park r
    | _, _ => s)

end Sys2Proof.Machine
end

