-- ==== Sys2Proof/Machine/Matrix.lean ====
section
/-! DEFINITION. The matrix array (file 09): row grants, the issue checks of `mop` and `mopn`, their capture and retirement,
tiles, the energy budget and basting (R67 to R69). -/

namespace Sys2Proof.Machine

/-! ### Rows (R168, R169) -/

/-- The acting hart's row grant after `mat.att` of a request. -/
def State.attGrant (s : State) (n : Nat) : Nat :=
  let req := 8 * ((Nat.min n 64 + 7) / 8)
  let cur := s.st.mrows.toNat
  if req ≤ cur then cur else Nat.min req (cur + (64 - s.rowsAttached))

def execMatAtt (d a : BitVec 5) (s : State) : Out :=
  let g := s.attGrant (s.x a).toNat
  ({ s with st := { s.st with mrows := .ofNat 7 g } } : State).result d (.ofNat 64 g)

/-- Whether some tile of a strand has a pending operation. -/
def Strand.anyPending (t : Strand) : Bool := (List.range 4).any fun k => (t.tile k).pending != 0

def execMatDet (s : State) : Out := deliver s do
  if s.st.mrows ≠ 0 then
    if s.st.anyPending then stop .wait
    modify fun s => { s with st := { (List.range 4).foldl (fun t k => t.endPeek k) s.st with mrows := 0 } }
  advanceM

/-! ### Operand paths (R170, R171) -/

/-- The group size of the path of a format-table entry (Table 09.1), or none where no path accepts it. -/
def pathG (e : BitVec 32) : Option Nat :=
  if e = 0x10812001 ∨ e = 0x40800000 then some 8
  else if e = 0x41000000 then some 4
  else if e = 0x0207807F ∨ e = 0x020A500F then some 2
  else if e = 0x0417807F then some 1
  else if (Fmt.ofEntry e).kind = .float ∧ (Fmt.ofEntry e).wid ≤ 8 ∧ legalEntry e = true then some 4
  else none

/-- What a pair of operand formats makes of an operation: the group size check 2 takes, whether the pair is accepted, and
whether the accumulator is INT32. -/
structure Pair where
  g : Nat
  ok : Bool
  int : Bool
  deriving DecidableEq, Repr

/-- The narrower of two group sizes: that of the wider path. An operand on no path counts for nothing. -/
def widerG (a b : Option Nat) : Nat :=
  match a, b with
  | some x, some y => Nat.min x y
  | some x, none => x
  | none, some y => y
  | none, none => 1

/-- The pair of two format-table entries; `np` is whether the operation is `mopn` (R171, R176). -/
def pairOf (np : Bool) (ea eb : BitVec 32) : Pair :=
  let A := Fmt.ofEntry ea
  let B := Fmt.ofEntry eb
  let ga := pathG ea
  let gb := pathG eb
  if np then ⟨widerG ga gb, B.kind == .nested && (ga == some 4 || ga == some 2), ea == 0x41000000⟩
  else ⟨widerG ga gb, ga.isSome && gb.isSome && A.kind == B.kind, A.kind == .int⟩

/-- The format-table entry of an index on the acting core. -/
def State.ftEntry (s : State) (i : BitVec 4) : BitVec 32 := s.core.ft[i.toNat]'(i.isLt)

/-! ### Operands (R173, R174) -/

/-- A plane group element: the k bits of its planes as an integer, scaled by its plane-0 segment (R34, R35, R174). -/
def VReg.plane (r : VReg) (k : Nat) (mid : Bool) (e : Nat) : Val × BitVec 8 :=
  let h := 8 * (e / 1024)
  let sides := (List.range k).map fun p => (r.seg (h + p)).side
  let q := (List.range k).foldl (fun q p => 2 * q + (r.seg (h + p)).code 1 (e % 1024)) 0
  let n : Int := (if 2 ^ (k - 1) ≤ q then (q : Int) - (2 ^ k : Nat) else q) * (2 ^ (8 - k) : Nat)
    + (if mid ∧ k < 8 then (2 ^ (7 - k) : Nat) else 0)
  (applyScale (r.seg h).side.scl (.ofInt n), if sides.any (·.cls == cUNW) then fNX else 0)

/-- Values of the first `n` elements of an operand, with their flags. -/
def captured (f : Nat → Val × BitVec 8) (n : Nat) : List Val × BitVec 8 :=
  (List.range n).foldr (fun e (vs, fl) => ((f e).1 :: vs, fl ||| (f e).2)) ([], 0)

/-- The segments of vb that a nested-plane operation of `n` elements reads. -/
def planeSegs (k n : Nat) : List Nat :=
  (List.range ((n + 1023) / 1024)).flatMap fun h => (List.range k).map fun p => 8 * h + p

/-- Cost of the class that the operands of a pass meet: `z` zero values among `n` (Table 09.5). -/
def metCost (z n : Nat) : Nat := if 3 * n ≤ 4 * z then 1 else if n ≤ 2 * z then 2 else if n ≤ 4 * z then 4 else 8

/-- Units that metering adds over all passes to what was declared (R184). -/
def meterExtra (vl g declared : Nat) (a b : List Val) : Nat :=
  let za := (a.filter (·.isZero)).length
  ((List.range ((vl + 95) / 96)).map fun p =>
    let cols := (b.drop (96 * p * g)).take (96 * g)
    metCost (za + (cols.filter (·.isZero)).length) (a.length + cols.length) - declared).foldl (· + ·) 0

/-! ### mop and mopn (R176, R178, R184, R186) -/

/-- FMT and sidecar of a tile segment as pending operations will leave it (R176): segment `g` of register `i`, `c` elements
to a register. -/
def Strand.tileSide (t : Strand) (k c i g : Nat) : BitVec 4 × Sidecar :=
  let r := t.reg (8 * k + i)
  let fi := match (t.tile k).ops.getLast? with
    | some o => accIdx o.accInt
    | none => r.fmt
  let over_ := (t.tile k).ops.filter fun o => decide (i * c + 32 * g < o.vl * o.vr)
  (fi, match over_.getLast? with
    | some o => mkSide (accIdx o.accInt) 127 false cVAL
    | none => (r.seg g).side)

/-- The tile segments, by register and number, that hold the first `n` elements. -/
def tileSegs (c n : Nat) : List (Nat × Nat) :=
  (List.range 8).flatMap fun i => (List.range ((Nat.min c (n - i * c) + 31) / 32)).map fun g => (i, g)

/-- The waits and issue checks of `mop` (`np` none) and `mopn` (`np` the planes and the `.mid` option) under a grant that is not
zero, in the order of R176 (check 3: logs 122, 160), and the operation they capture (R177). -/
def issueMatrix (tk : BitVec 2) (a b : BitVec 5) (ee : BitVec 2) (np : Option (Nat × Bool)) : M MatOp := do
  let s ← get
  let k := tk.toNat
  let pa := s.st.phys a
  let pb := s.st.phys b
  let vl := s.st.vl.toNat
  let vr := s.st.vr.toNat
  let A := s.st.reg pa
  let B := s.st.reg pb
  let P := pairOf np.isSome (s.ftEntry A.fmt) (s.ftEntry B.fmt)
  readLock [pa, pb]
  let fa := s.fmt A.fmt
  let fb := s.fmt B.fmt
  let nested := fb.kind == .nested
  let na := vr * P.g
  let nb := vl * P.g
  let S := B.segs.length
  let c := (s.st.reg (8 * k)).segs.length * 32
  let planes := match np with
    | some (n, _) => if nested then planeSegs n nb else []
    | none => []
  if !A.holds fa na || (if nested then decide (S * 128 < nb) || planes.any (S ≤ ·) else !B.holds fb nb) || decide (8 * c < vl * vr) then
    raiseTrap tGRANT_WIDTH
  let sideA := (List.range (segsBelow na fa.wid)).map fun g => (A.seg g).side
  let sideB := (if planes = [] then List.range (segsBelow nb fb.wid) else planes).map fun g => (B.seg g).side
  let tiles := (tileSegs c (vl * vr)).map fun (i, g) => s.st.tileSide k c i g
  if (sideA ++ sideB ++ tiles.map (·.2)).any (·.cls == cRAW) then raiseTrap tTAG_CLASS
  if !P.ok then raiseTrap tFORBIDDEN_PAIR
  if s.st.mrows = 0 ∨ s.st.mrows.toNat < vr ∨ 384 < vl then stop (.trap tMATRIX_SHAPE (tk.setWidth 32) 0 0)
  if (tiles.any fun (f, d) => d.cls == cVAL && (f != accIdx P.int || d.scl != 127)) ||
      (P.int && (sideA ++ sideB).any (·.scl != 127)) then raiseTrap tTAG_FORMAT
  let budget := (s.ctxField fun x => x.eb.signExtend 64).toInt
  if s.core.gang.isSome && decide (budget ≤ 0) then stop .wait
  let (va, f₁) := captured (fun e => A.value fa P.int true e) na
  let (vb, f₂) := captured (fun e => match np with
    | some (n, mid) => B.plane n mid e
    | none => B.value fb P.int true e) nb
  return ⟨vl, vr, P.g, P.int, va, vb, f₁ ||| f₂, meterExtra vl P.g (2 ^ ee.toNat) va vb⟩

/-- The state with a matrix operation begun on tile `k`: what was declared is debited, a peek view ends, the first operation of a
sequence decides whether it is sampled, and the operation is pending (R68, R177, R183, R184). -/
def State.matrixBegin (s : State) (k : Nat) (ee : BitVec 2) (op : MatOp) : State :=
  let s := s.setCtx fun x => { x with eb := x.eb - .ofNat 32 ((op.vl + 95) / 96 * 2 ^ ee.toNat) }
  let t := s.st.endPeek k
  let x := t.tile k
  let lgn := s.core.baste.toNat
  let sampled := if x.issued = 0 then lgn != 0 && t.bcount.toNat % 2 ^ lgn == 0 else x.sampled
  let c := (s.st.reg (8 * k)).segs.length * 32
  let start := if x.issued = 0 then (if sampled then (List.range (8 * c)).map (t.tileCode k) else []) else x.start
  { s with st := t.setTile k { x with
      ops := x.ops ++ [op], issued := x.issued + 1, sampled := sampled, start := start,
      seqOps := if sampled then x.seqOps ++ [op] else [] } }

/-- The pair that a matrix operation's operand registers make (R171, R176). -/
def State.matrixPair (s : State) (np : Bool) (a b : BitVec 5) : Pair :=
  pairOf np (s.ftEntry (s.st.reg (s.st.phys a)).fmt) (s.ftEntry (s.st.reg (s.st.phys b)).fmt)

/-- The shared meaning of `mop` and `mopn`; under a zero grant check 4 judges the operands at once (R176; log 162). -/
def matrixOp (tk : BitVec 2) (a b : BitVec 5) (ee : BitVec 2) (np : Option (Nat × Bool)) : M Unit := do
  let s ← get
  if s.st.phys a / 8 = tk.toNat ∨ s.st.phys b / 8 = tk.toNat then raiseTrap tILLEGAL
  if s.st.grant = 0 then
    if !(s.matrixPair np.isSome a b).ok then raiseTrap tFORBIDDEN_PAIR
    advanceM
  else
    let op ← issueMatrix tk a b ee np
    modify (·.matrixBegin tk.toNat ee op)
    advanceM

def execMop (t : BitVec 2) (a : BitVec 5) (_x : BitVec 1) (b : BitVec 5) (_y : BitVec 1) (e : BitVec 2) (s : State) : Out :=
  deliver s (matrixOp t a b e none)

def execMopn (t : BitVec 2) (a : BitVec 5) (_x : BitVec 1) (b : BitVec 5) (_y : BitVec 1) (m : BitVec 1) (k : BitVec 3) (e : BitVec 2)
    (s : State) : Out :=
  deliver s (matrixOp t a b e (some (k.toNat + 2, m == 1)))

/-- A pending operation retires (R177): the oldest of the tile of X-hart `hart`, with its metering debited (R184). -/
def execMatrixRetire (hart : BitVec 3) (tile : BitVec 2) (s : State) : Out :=
  let n := 9 + hart.toNat
  let k := tile.toNat
  match s.strandAt n with
  | none => .next s
  | some t =>
    let x := t.tile k
    let extra := match (x.ops.drop (x.ops.length - x.pending)).head? with
      | some o => o.extra
      | none => 0
    .next ((s.putStrandAt (t.retireOne k)).setCtx fun c => { c with eb := c.eb - .ofNat 32 extra })

/-! ### Tiles (R181 to R183) -/

def execTzero (t : BitVec 2) (s : State) : Out :=
  let k := t.toNat
  let st := (List.range 8).foldl (fun (u : Strand) i =>
    let r := u.reg (8 * k + i)
    u.setReg (8 * k + i) ⟨r.fmt, r.segs.map fun _ => ⟨0, 0x7F2⟩⟩) s.st
  .next ({ s with st := st.setTile k .clear } : State).advance

def execTpeek (t : BitVec 2) (a : BitVec 5) (s : State) : Out :=
  let k := t.toNat
  let st := s.st.endPeek k
  let n := (st.tile k).done
  ({ s with st := st.setTile k { st.tile k with peek := true } } : State).result a (.ofNat 64 n)

/-! ### Basting (R68, R69, R186) -/

/-- x rounded up to FP32, as a code (R69). -/
def rup32 (v : Val) : Nat := (fp32.convert .rup 0 v).1

/-- a / b for magnitudes, with enough bits and a sticky bit for a rounding to FP32. -/
def ratio (a b : Val) : Val :=
  match a, b with
  | .fin _ m e, .fin _ n f =>
    let sh := 64 + n.log2
    let q := m * 2 ^ sh / n
    .fin false (2 * q + (if m * 2 ^ sh % n = 0 then 0 else 1)) (e - f - sh - 1)
  | _, _ => .zero

/-- The absolute and the relative deviation of a from b as FP32 codes, and whether exactly one is a NaN (R69). -/
def deviation (a b : Val) : Nat × Nat × Bool :=
  let inf := 0x7F800000
  if a.isNaN ∧ b.isNaN then (0, 0, false)
  else if a.isNaN ∨ b.isNaN then (inf, inf, true)
  else match a, b with
    | .fin _ _ _, .fin _ _ _ =>
      let d := (a.add false b.negate).1.abs
      (rup32 d, if b.isZero then (if a.isZero then 0 else inf) else if d.isZero then 0 else rup32 (ratio d b), false)
    | _, _ => if a = b then (0, 0, false) else (inf, inf, false)

/-- One product added to a recomputed element (R186). -/
def recompute (int : Bool) (b x y : Val) : Val :=
  if int then (int32.decode true (wrapCode 32 (b.add false (x.mul y).1).1)).1
  else
    let p := (fp32.decode false (fp32.convert .rne 0 (x.mul y).1).1).1
    (fp32.decode false (fp32.convert .rne 0 (b.add false p).1).1).1

/-- The recomputed value of element `e` from its start code (R186). -/
def recomputed (int : Bool) (ops : List MatOp) (start e : Nat) : Val :=
  ops.foldl (fun b o =>
    if o.vl * o.vr ≤ e then b
    else (List.range o.g).foldl (fun b g =>
      recompute int b (o.a.getD (e / o.vl * o.g + g) .zero) (o.b.getD (e % o.vl * o.g + g) .zero)) b)
    ((accFmt int).decode int start).1

/-- The comparison of a tile with its recomputation: the largest absolute deviation, its lowest element, the largest relative
deviation, and whether a NaN met a number (R69). -/
def compareTile (n : Nat) (a b : Nat → Val) : Nat × Nat × Nat × Bool :=
  (List.range n).foldl (fun (best, elem, rel, nm) e =>
    let (d, r, m) := deviation (a e) (b e)
    (Nat.max best d, if best < d then e else elem, Nat.max rel r, nm || m)) (0, 0, 0, false)

/-- Bits [255:64] of the entry of a sampled sequence of tile `k` (Table 03.11), an INT32 one where any of its operations is (log 159). -/
def State.basteEntry (s : State) (k : Nat) : Nat :=
  let x := s.st.tile k
  let int := x.seqOps.any (·.accInt)
  let n := x.seqOps.foldl (fun n o => Nat.max n (o.vl * o.vr)) 0
  let (absd, elem, reld, nanm) := compareTile n
    (fun e => ((accFmt int).decode int (s.st.tileCode k e)).1) (fun e => recomputed int x.seqOps (x.start.getD e 0) e)
  let iter := match s.core.gang with
    | some g => g.iter
    | none => 0
  2 * nanm.toNat + 4 * int.toNat + 8 * k + 32 * s.st.idx + 256 * s.dev.num.toNat + 2 ^ 16 * (s.core.num % 2 ^ 16)
    + 2 ^ 32 * (s.core.launchId % 2 ^ 32) + 2 ^ 64 * (iter % 2 ^ 32) + 2 ^ 96 * absd + 2 ^ 128 * reld + 2 ^ 160 * (elem % 2 ^ 16)

/-- `n` bytes of a number, lowest first. -/
def bytesOf : Nat → Nat → List Byte
  | 0, _ => []
  | n + 1, v => .ofNat 8 v :: bytesOf n (v / 256)

def execTwait (t : BitVec 2) (s : State) : Out :=
  let k := t.toNat
  if (s.st.tile k).pending ≠ 0 then .next s.await
  else
    let st := s.st.endPeek k
    let s := { s with st := st }
    let x := st.tile k
    let core := if x.issued ≠ 0 ∧ x.sampled = true then
        { s.core with engWrites := s.core.engWrites ++
          [⟨s.core.ctxId, s.core.launchId, 0, bytesOf 24 (s.basteEntry k), 4, none, s.st.wordPc⟩] }
      else s.core
    let s := { s with
      core := core
      st := { st.setTile k .clear with bcount := if x.issued = 0 then st.bcount else st.bcount + 1 } }
    -- the flag set is empty already when a flag traps (R181)
    deliver s do
      raiseFlags x.flags
      advanceM

/-! ### The energy budget (R184, R185) -/

def execMbud (d : BitVec 5) (s : State) : Out := s.result d (s.ctxField fun c => c.eb.signExtend 64)

/-- The power manager adds `us` microseconds of units at the context's rate, up to its ceiling (R184, R323). -/
def execBudgetRefill (ctx us : Nat) (s : State) : Out :=
  .next { s with dev := s.dev.updCtx ctx fun c =>
    let top := c.ebceil.toInt
    let new := c.eb.toInt + c.ebrate.toInt * us
    if c.eb.toInt < top then { c with eb := .ofInt 32 (min top new) } else c }

end Sys2Proof.Machine
end

