-- ==== Sys2Proof/Machine/Launches.lean ====
section
/-! DEFINITION. Launches (file 16): the loop-nest record and its judgement (R286 to R288), enumeration (R290, R291), the
walkers (R292 to R294), completion (R295), engine command queues, knots, the Bobbin and events as the CC uses them (R300 to
R306), leaving a gang through `ovl` (R297), and the table writes `ft.wr` and `pk.wr` (R24, R59). -/

namespace Sys2Proof.Machine

/-! ### The record (Table 16.1) -/

/-- A field of a loop-nest record. -/
def lnrF (r : BitVec 1024) (lo n : Nat) : Nat := (r.extractLsb' lo n).toNat

/-- LEVELS. -/
def lnrLevels (r : BitVec 1024) : Nat := lnrF r 720 3
/-- The used counts, level 0 first. -/
def lnrCounts (r : BitVec 1024) : List Nat := (List.range (lnrLevels r)).map fun k => lnrF r (320 + 32 * k) 32
/-- Iterations of the record (ITOT). -/
def lnrTotal (r : BitVec 1024) : Nat := (lnrCounts r).foldl (· * ·) 1
/-- The cores that DMASK and CMASK name, in ascending number (R286). -/
def lnrNamed (r : BitVec 1024) : List Nat :=
  (List.range 6).flatMap fun d => ((List.range 48).filter fun c => r.getLsbD (688 + d) && r.getLsbD (640 + c)).map fun c => 48 * d + c
/-- STATUS. -/
def lnrStatus (r : BitVec 1024) : Word := r.extractLsb' 256 64
/-- PRIO. -/
def lnrPrio (r : BitVec 1024) : Nat := lnrF r 716 3

/-- Whether a core is enabled in the running configuration (Table 20.2). -/
def Dev.coreOn (d : Dev) (c : Nat) : Bool := decide (c < Config.cores) && d.cfg (3488 + c)

/-- The core set of a record (R286). -/
def Dev.coreSet (d : Dev) (r : BitVec 1024) : List Nat := (lnrNamed r).filter d.coreOn

/-- Whether a core lies in a partition (R387). -/
def Part.hasCore (p : Part) (c : Nat) : Bool := decide (c < Config.cores) && p.qmask.getLsbD (c / 12)

/-- Bytes of a register at `h` hart pairs, the least among the cores of the set (R287). -/
def Dev.lreg (d : Dev) (cs : List Nat) (h : Nat) : Nat :=
  (if cs.any fun c => d.cfg (3776 + c) then 6144 else 12288) / h

/-- The refit of R287: log2 of the hart pairs, from `lg` downward. -/
def refit (ok : Nat → Bool) : Nat → Option Nat
  | 0 => if ok 0 then some 0 else none
  | lg + 1 => if ok (lg + 1) then some (lg + 1) else refit ok lg

/-- Step 1 of R287. -/
def lnrInvalid (r : BitVec 1024) (user : Bool) (p : Part) : Bool :=
  r.extractLsb' 758 266 != 0 || r.getLsbD 719 || r.extractLsb' 694 2 != 0
    || lnrLevels r == 0 || decide (6 < lnrLevels r) || decide (2 ^ 32 - 1 < lnrTotal r)
    || r.extractLsb' 0 64 == 0 || ([0, 64, 128, 192].any fun k => lnrF r k 2 != 0)
    || lnrF r 256 6 != 0 || (user && r.getLsbD 715) || (r.getLsbD 712 && !p.hasCore (lnrF r 696 16))

/-- The judgement of R287: ST, and log2 of the hart pairs granted. -/
def Dev.judge (d : Dev) (r : BitVec 1024) (user : Bool) (part : Option Part) : Nat × Nat :=
  match part with
  | none => (3, 0)
  | some p =>
    let cs := d.coreSet r
    let lg := lnrF r 725 3
    let ok (k : Nat) : Bool := decide (k ≤ 3) && decide (512 * lnrF r 728 8 ≤ d.lreg cs (2 ^ k))
    if lnrInvalid r user p then (3, 0)
    else if !((lnrNamed r).all p.hasCore) || cs.isEmpty then (4, 0)
    else if 4096 < lnrF r 736 13 + 2 + 32 * lnrF r 749 5 ∨ 16 < lnrF r 749 5 then (2, 0)
    else
      match (if ok lg then some (0, lg) else if r.getLsbD 714 then (refit ok lg).map fun k => (1, k) else none) with
      | none => (2, 0)
      | some x => if 256 ≤ p.launches.length then (5, 0) else x

/-! ### Status blocks (R289, Table 16.3) -/

/-- The 64 bytes of a launch's status block. -/
def Launch.block (l : Launch) : List Byte :=
  bytesOf 64 (l.state + 2 ^ 8 * l.lgh + 2 ^ 128 * (l.id % 2 ^ 32) + 2 ^ 160 * (lnrTotal l.lnr % 2 ^ 32) + 2 ^ 192 * (l.gangs % 2 ^ 32)
    + 2 ^ 224 * (l.term % 2 ^ 32) + 2 ^ 256 * (l.gseq % 2 ^ 64) + 2 ^ 320 * l.tcause.toNat + 2 ^ 328 * l.twho.toNat
    + 2 ^ 336 * (l.tcore % 2 ^ 16) + 2 ^ 352 * (l.titer % 2 ^ 32) + 2 ^ 384 * (l.discE % 2 ^ 32) + 2 ^ 416 * (l.discD % 2 ^ 32)
    + 2 ^ 448 * (l.discQ % 2 ^ 64))

/-- A launch of a partition. -/
def Dev.launch (d : Dev) (p id : Nat) : Option Launch := (d.part p).bind fun x => x.launches.find? (·.id == id)

/-- The device with a launch changed. -/
def Dev.updLaunch (d : Dev) (p id : Nat) (f : Launch → Launch) : Dev :=
  d.updPart p fun x => { x with launches := x.launches.map fun l => if l.id = id then f l else l }

/-- A launch changed and its status block written (R289), by the status writer of the core whose gang ended last or, where none
has, that submitted it (Table 17.6). -/
def State.reportLaunch (s : State) (p id : Nat) (f : Launch → Launch) : State :=
  let s := { s with dev := s.dev.updLaunch p id f }
  match s.dev.launch p id with
  | none => s
  | some l => s.atCore l.core fun t => t.statusWrite l.ctx l.id (lnrStatus l.lnr) l.block

/-! ### Submission (R287, R288, R296) -/

/-- The context a `lnr.sub` submits for, 0 where there is none (R288). -/
def State.submitCtx (s : State) : Nat := if s.atResident then s.core.selCtx else s.core.ctxId

/-- Pages translated for an engine's writes. -/
def mapWrites (v : Via) : List Word → M Unit
  | [] => return ()
  | a :: r => do
    let _ ← translate v nEngWrite a
    mapWrites v r

/-- An accepted launch, put last among those of its partition; its identifier (R288). -/
def submit (ctx p lg : Nat) (r : BitVec 1024) : M Nat := do
  let s ← get
  let n := (s.dev.part p).elim 1 fun x => if x.nextLaunch = 0 then 1 else x.nextLaunch.toNat
  let l : Launch := ⟨n, ctx, s.core.num, r, lg, 0, 0, [], 0, 0, 0, 0, 0, 0, 0, 0, 0, 0, 1, 0⟩
  set { s with dev := s.dev.updPart p fun x => { x with launches := x.launches ++ [l], nextLaunch := .ofNat 32 (n + 1) } }
  modify (·.reportLaunch p n id)
  return n

def execLnrSub (d a : BitVec 5) (s : State) : Out := deliver s do
  let va := s.x a
  if va.extractLsb' 0 7 ≠ 0 then stop (.trap tMISALIGNED 0 va 0)
  if s.fenceWaits 3 true true then stop .wait
  modify (·.fenceFar 3 true true)
  let x ← readRecord va 128
  let r := BitVec.ofNat 1024 x
  let ctx := s.submitCtx
  let p := s.dev.partOfCtx ctx
  let (st, lg) := s.dev.judge r (!s.atResident) (if s.dev.ctxLive ctx then s.dev.part p else none)
  if 2 ≤ st then setXM d (.ofNat 64 (st * 2 ^ 56))
  else
    mapWrites (s.dev.viaCtx ctx) (pagesIn (lnrStatus r) (64 + 32 * 2 ^ lnrF r 754 4))
    let n ← submit ctx p lg r
    setXM d (.ofNat 64 (st * 2 ^ 56 + lg * 2 ^ 32 + n))
  advanceM

/-! ### Enumeration (R290, R291) -/

/-- The digits of a row-major position: the last level varies fastest. -/
def rowDigits : List Nat → Nat → List Nat
  | [], _ => []
  | _ :: r, p => p / r.foldl (· * ·) 1 :: rowDigits r (p % r.foldl (· * ·) 1)

/-- The digits of a serpentine position: a level runs downward where the outer indices sum to an odd number. -/
def serpentine : List Nat → Nat → Nat → List Nat
  | [], _, _ => []
  | n :: r, sum, p =>
    let q := p / r.foldl (· * ·) 1
    let i := if sum % 2 = 1 then n - 1 - q else q
    i :: serpentine r (sum + i) (p % r.foldl (· * ·) 1)

/-- ceil(log2 n). -/
def clog2 (n : Nat) : Nat := if n ≤ 1 then 0 else (n - 1).log2 + 1

/-- The bits of a Morton code from weight 0 upward, as (level, weight) pairs. -/
def mortonBits (ns : List Nat) : List (Nat × Nat) :=
  (List.range 32).flatMap fun w => ((List.range ns.length).reverse.filter fun k => decide (w < clog2 (ns.getD k 0))).map fun k => (k, w)

/-- The tuple of a Morton code. -/
def mortonTuple (ns : List Nat) (code : Nat) : List Nat :=
  (List.range ns.length).map fun k =>
    ((mortonBits ns).zipIdx.foldl (fun a ((l, w), j) => if l = k then a + code / 2 ^ j % 2 * 2 ^ w else a) 0)

/-- The first code from `code` on whose tuple lies inside the counts, looking at `fuel` codes. -/
def nextMorton (ns : List Nat) : Nat → Nat → Option Nat
  | 0, _ => none
  | fuel + 1, code => if ((mortonTuple ns code).zip ns).all fun (i, n) => decide (i < n) then some code else nextMorton ns fuel (code + 1)

/-- The next tuple of a launch and where its enumeration stands after it (R290). -/
def Launch.next (l : Launch) : Option (List Nat × Nat) :=
  let ns := lnrCounts l.lnr
  if lnrTotal l.lnr ≤ l.handed then none
  else match lnrF l.lnr 723 2 with
    | 0 => some (rowDigits ns l.pos, l.pos + 1)
    | 1 => some ((rowDigits ns.reverse l.pos).reverse, l.pos + 1)
    | 2 => (nextMorton ns (2 ^ (mortonBits ns).length) l.pos).map fun c => (mortonTuple ns c, c + 1)
    | _ => some (serpentine ns 0 l.pos, l.pos + 1)

/-- ITER of a tuple: its row-major rank (R291). -/
def iterOf (ns is : List Nat) : Nat := (ns.zip is).foldl (fun a (n, i) => a * n + i) 0

/-- Work items not yet handed out. -/
def Launch.left (l : Launch) : Nat := l.saved.length + (lnrTotal l.lnr - l.handed)

/-! ### The walkers (R292 to R294) -/

/-- How a named predecessor stands: none while it has not completed, otherwise whether it ended DONE (R293). -/
def Part.predDone (p : Part) (id : Nat) : Option Bool :=
  if p.launches.any (·.id == id) then none
  else match p.finished.find? (·.1 == id) with
    | some (_, st) => some (st == 3)
    | none => some true

/-- The named predecessors. -/
def Launch.preds (l : Launch) : List Nat := ((List.range 4).map fun k => lnrF l.lnr (512 + 32 * k) 32).filter (· != 0)

/-- Whether a launch may be handed out (R293, R320). -/
def Part.eligible (p : Part) (l : Launch) : Bool :=
  p.on && decide (l.state ≤ 2) && l.left != 0 &&
    l.preds.all fun i => match p.predDone i with
      | none => false
      | some done => done || l.lnr.getLsbD 713

/-- Whether a launch is cancelled by a predecessor (R293). -/
def Part.cancelled (p : Part) (l : Launch) : Bool :=
  !l.lnr.getLsbD 713 && l.preds.any fun i => p.predDone i == some false

/-- Whether every hart of the core's gang has ended and no matrix operation is pending. -/
def Core.hartsOver (c : Core) : Bool := c.strands.all fun t => t.slot == 0 || (t.run == .ended && !t.anyPending)

/-- Whether the CC of the core's gang has left its program (R190, R297). -/
def Core.ccOver (c : Core) : Bool :=
  c.gang.any (·.left) || c.strands.any fun t => t.slot == 0 && t.run == .ended

/-- Whether one unit of R297 has retired all its work: queues 0 to 3, the Bobbin, the strip copies. -/
def Core.unitIdle (c : Core) (k : Nat) : Bool :=
  !(c.copies.any (·.queue == k)) && (if k = 4 then c.bobbin.run.isNone else (c.cmdq[k]?.getD []).isEmpty)

/-- Whether a unit that a trailer mask names has retired all its work: of the strip copies, those of the gang's own A-harts; earlier gangs'
count from frame number 32 on (R297). -/
def Core.namedIdle (c : Core) (k : Nat) : Bool :=
  if k = 5 then !(c.copies.any fun y => y.queue == 5 && y.who != 0 && decide (y.who < 32)) else c.unitIdle k

/-- Whether every unit has retired all its work. -/
def Core.unitsIdle (c : Core) : Bool := (List.range 6).all c.unitIdle

/-- Whether an outgoing gang has reached the point at which the next work item is chosen (R297). -/
def Core.atSwap (c : Core) : Bool :=
  match c.gang with
  | none => false
  | some g => !c.resident && c.hartsOver && c.ccOver && (g.swap || c.unitsIdle)

/-- Whether a core is free for a work item (R293): idle, or at the swap. -/
def Core.free (c : Core) (d : Dev) : Bool :=
  d.coreOn c.num && !c.halted && c.assigned.isNone && !c.resident && (c.gang.isNone || c.atSwap)

/-- Every core with all its strands, in ascending number. -/
def State.allCores (s : State) : List Core := putCore s.wholeCore s.dev.cores

/-- The eligible launch of highest PRIO whose set holds a core, the earliest submitted of several (R293). -/
def Part.best (p : Part) (d : Dev) (c : Nat) : Option Launch :=
  (p.launches.filter fun l => p.eligible l && (d.coreSet l.lnr).contains c).foldl (fun a l => match a with
    | none => some l
    | some b => if lnrPrio b.lnr < lnrPrio l.lnr then some l else some b) none

/-- The launch that would get a core. -/
def Dev.bestFor (d : Dev) (c : Nat) : Option Launch :=
  match d.part (d.partOfCore c) with
  | some p => if p.hold then none else p.best d c
  | none => none

/-- The lowest-numbered die of a record's DMASK (R292). -/
def lnrDie (r : BitVec 1024) : Nat := ((List.range 6).find? fun d => r.getLsbD (688 + d)).getD 0

/-- The first core of a list at or after a number, wrapping. -/
def firstAt (cs : List Nat) (k : Nat) : Option Nat :=
  match cs.find? (k ≤ ·) with
  | some c => some c
  | none => cs.head?

/-- Whether the next work item of a launch fits a core: a tuple fits every core of the set, a saved gang one whose registers have
the length it was saved with (R326, R327). -/
def Dev.fits (d : Dev) (l : Launch) (c : Core) : Bool :=
  match l.saved with
  | [] => true
  | a :: _ => match d.saved.find? fun g => g.at_ == some a && g.launch == l.id with
    | some g => g.body.laneHalf == c.laneHalf
    | none => true

/-- What the walker of a die would hand out next: a partition, a launch and a free core (R292, R293). -/
def State.walkerPick (s : State) (die : Nat) : Option (Nat × Launch × Nat) :=
  let free := s.allCores.filter (·.free s.dev)
  (List.range' 1 24).findSome? fun p =>
    match s.dev.part p with
    | none => none
    | some q =>
      let mine := q.launches.filter fun l => lnrDie l.lnr == die && q.eligible l
      mine.findSome? fun l =>
        let cs := (s.dev.coreSet l.lnr).filter fun c => (free.any fun k => k.num == c && s.dev.fits l k) && (s.dev.bestFor c).any (·.id == l.id) && s.dev.partOfCore c == p
        (firstAt cs (s.dev.walker[die]?.getD 0)).map fun c => (p, l, c)

/-- The next work item of a launch and the launch after it (R292). -/
def Launch.take (l : Launch) (p : Nat) : Option (WorkItem × Launch) :=
  match l.saved with
  | a :: r => some (⟨p, l.id, [], some a⟩, { l with saved := r })
  | [] => l.next.map fun (t, pos) => (⟨p, l.id, t, none⟩, { l with pos := pos, handed := l.handed + 1 })

/-- One work item handed out by the walker of a die. -/
def State.handOut (s : State) (die p : Nat) (l : Launch) (c : Nat) : State :=
  match l.take p with
  | none => s
  | some (w, l') =>
    let ptr := (firstAt (s.dev.coreSet l.lnr) (c + 1)).getD 0
    let d := s.dev.updLaunch p l.id fun _ => { l' with running := l'.running + 1 }
    let d := { d with walker := if h : die < 6 then d.walker.set die ptr h else d.walker }
    ({ s with dev := d } : State).updCoreAt c fun k => { k with assigned := some w, asked := none }

/-- The core whose gang a walker asks resident software to stop for a launch with PMODE = 1 that cannot be placed (R294): the
lowest priority below the launch's, the latest started; at most one for each of its own work items left. -/
def State.stopPick (s : State) (q : Part) (l : Launch) : Option Nat :=
  let set := s.dev.coreSet l.lnr
  let cs := s.allCores.filter fun c => set.contains c.num
  let asked := (cs.filter fun c => c.asked == some l.id).length
  if !l.lnr.getLsbD 715 || decide (l.left ≤ asked) then none
  else
    let prio (c : Core) : Option (Nat × Nat) := c.gang.bind fun g =>
      if c.asked.isSome then none
      else (q.launches.find? (·.id == g.launch)).bind fun m => if lnrPrio m.lnr < lnrPrio l.lnr then some (lnrPrio m.lnr, g.stamp) else none
    (cs.foldl (fun (a : Option (Nat × Nat × Nat)) c => match prio c with
      | none => a
      | some (pr, st) => match a with
        | none => some (c.num, pr, st)
        | some (n, pr', st') => if pr < pr' ∨ (pr = pr' ∧ st' < st) then some (c.num, pr, st) else some (n, pr', st')) none).map (·.1)

/-- A launch of a die's walker that waits for a stop it has not asked for yet, with the core. -/
def State.stopWanted (s : State) (die : Nat) : Option (Nat × Nat) :=
  (List.range' 1 24).findSome? fun p =>
    match s.dev.part p with
    | none => none
    | some q => (q.launches.filter fun l => lnrDie l.lnr == die && q.eligible l && !q.hold).findSome? fun l => (s.stopPick q l).map fun c => (l.id, c)

/-- A core asked to stop its gang for a launch: the STOP event is raised there (R294, R322). -/
def Core.askStop (launch : Nat) (c : Core) : Core :=
  { c with rpend := c.rpend ||| 2, asked := some launch }

/-- The walker of a die hands out one work item, or asks for one stop (R292, R294). -/
def execWalkerAssign (die : Nat) (s : State) : Out :=
  .next (match s.walkerPick die with
    | some (p, l, c) => s.handOut die p l c
    | none => match s.stopWanted die with
      | some (l, c) => s.updCoreAt c (Core.askStop l)
      | none => s)

/-! ### The end of a gang, as its launch reports it (R289, R320) -/

/-- Queue elements, deferral entries and event records that a gang end discards (R71, R160, R305). -/
structure Discards where
  q : Nat
  d : Nat
  e : Nat
  deriving DecidableEq, Repr

/-- What would be discarded from a core; events only where the next gang does not inherit (R298). -/
def Core.discards (c : Core) (inherit : Bool) : Discards :=
  ⟨c.queues.toList.foldl (fun n q => n + q.count) 0, c.strands.foldl (fun n t => n + t.dfr.length) 0,
    if inherit then 0 else c.evq.length + c.shuttleHeld⟩

/-- The GANG record (Table 16.4) as 32 bytes. -/
def Gang.record (g : Gang) (core : Nat) (dev : BitVec 8) (d : Discards) (seq : Nat) : List Byte :=
  let (cause, who) := g.term.getD (0, 0)
  let e : Ev := ⟨.ofNat 64 (d.q % 2 ^ 32 + 2 ^ 32 * (d.d % 2 ^ 16) + 2 ^ 48 * (d.e % 2 ^ 9)), .ofNat 64 g.iter, .ofNat 32 g.launch, .ofNat 16 core,
    dev, who, 3, cause, .ofNat 16 ((if g.term.isSome then 1 else 0) + (if g.resumed then 2 else 0)), .ofNat 32 seq, 0, 0⟩
  bytesOf 32 e.bits.toNat

/-- The counters of a launch after one of its gangs ended (R289). -/
def Launch.ended (l : Launch) (g : Gang) (core : Nat) (d : Discards) : Launch :=
  let l := { l with core := core, running := l.running - 1, gseq := l.gseq + 1, gangs := l.gangs + 1, discQ := l.discQ + d.q, discD := l.discD + d.d,
                    discE := l.discE + d.e }
  match g.term with
  | none => l
  | some (cause, who) =>
    let l := if l.term = 0 then { l with titer := g.iter, tcore := core, twho := who, tcause := cause } else l
    { l with term := l.term + 1 }

/-- The gang record of a gang that ended on a core and the status block written (R289). -/
def State.reportEnd (s : State) (core : Nat) (g : Gang) (d : Discards) : State :=
  match s.dev.launch g.part g.launch with
  | none => s
  | some l =>
    let at_ := lnrStatus l.lnr + .ofNat 64 (64 + 32 * (l.gseq % 2 ^ lnrF l.lnr 754 4))
    let s := s.atCore core fun t => t.statusWrite l.ctx l.id at_ (g.record core s.dev.num d (l.gseq + 1))
    s.reportLaunch g.part g.launch fun l => l.ended g core d

/-- The gangs of a launch that lie in containers of a terminated context end there, each with its record (R289, R320). -/
def State.reportLost (s : State) (l : Launch) : State :=
  let lost (g : SavedGang) : Bool := !g.out && g.ctx == l.ctx && g.launch == l.id && !s.dev.ctxLive l.ctx
  let t := (s.dev.saved.filter lost).foldl (fun s g => match g.body.gang with
    | none => s
    | some x =>
      let s := { s with dev := s.dev.updLaunch x.part x.launch fun l => { l with running := l.running + 1 } }
      s.reportEnd g.core x (g.body.discards false)) s
  { t with dev := { t.dev with saved := t.dev.saved.map fun g => if lost g then { g with out := true } else g } }

/-! ### Completion (R295) -/

/-- Whether something that a launch issued is still in flight on a core; a batch that nobody closed has no completion of its own. -/
def Core.gates (c : Core) (id : Nat) : Bool :=
  c.copies.any (·.launch == id) || c.cmdq.any (fun q => q.any (·.launch == id)) || (c.bobbin.run.isSome && c.bobbin.launch == id)
    || c.batches.any (fun b => b.closed && b.launch == id) || c.evq.any (·.launch == id) || c.evHeld.any (·.launch == id)
    || c.engWrites.any (fun w => w.kind == 5 && w.launch == id) || c.assigned.any (·.launch == id)

/-- Whether a launch can complete: its gangs have ended and nothing of theirs is in flight, on a core or in a container (R295). -/
def State.launchOver (s : State) (p : Nat) (q : Part) (l : Launch) : Bool :=
  l.running == 0 && (decide (3 ≤ l.state) || q.cancelled l || l.left == 0) &&
    !(s.allCores.any fun c => s.dev.partOfCore c.num == p && c.gates l.id) &&
    !(s.dev.saved.any fun g => !g.out && s.dev.ctxLive g.ctx && s.dev.partOfCtx g.ctx == p && g.body.gates l.id)

/-- The final STATE of a launch (R295, R293, R320). -/
def Launch.final (l : Launch) (q : Part) : Nat :=
  if 3 ≤ l.state then l.state else if q.cancelled l then 5 else if l.term ≠ 0 then 4 else 3

/-- The LAUNCH record (Table 16.4). -/
def State.launchEvent (s : State) (l : Launch) (st : Nat) : Ev :=
  ⟨.ofNat 64 l.term, .ofNat 64 l.gangs, .ofNat 32 l.id, .ofNat 16 (lnrF l.lnr 696 16), s.dev.num, 0, 4, 0, .ofNat 16 st, 1, 0, l.ctx⟩

/-- A launch completes: STATE is written last, and its LAUNCH record is handed to REPCORE (R289, R295, R306). -/
def execLaunchComplete (part launch : Nat) (s : State) : Out :=
  .next (match s.dev.part part, s.dev.launch part launch with
    | some q, some l =>
      if !s.launchOver part q l then s
      else
        let st := l.final q
        let s := s.reportLost l
        let s := s.reportLaunch part launch fun l => { l with state := st }
        let s := { s with dev := s.dev.updPart part fun x =>
          { x with launches := x.launches.filter (·.id != launch), finished := ((launch, st) :: x.finished).take 4096 } }
        if l.lnr.getLsbD 712 then
          s.updCoreAt (lnrF l.lnr 696 16) fun c => { c with evHeld := c.evHeld ++ [s.launchEvent l st] }
        else s
    | _, _ => s)

/-! ### Leaving a gang (R297) -/

/-- A LAUNCH_ARG trap (R299). -/
def launchArg {α : Type} (info : BitVec 32) : M α := stop (.trap tLAUNCH_ARG info 0 0)

/-- `ovl`: once the harts have ended and the named units have retired, the CC leaves its program; the gang's end and the next
item follow (R297). Without a gang there is nothing to end (log 18). -/
def execOvl (a : BitVec 5) (s : State) : Out := deliver s do
  if s.core.handler.isSome ∨ (s.x a).extractLsb' 6 58 ≠ 0 then launchArg 5
  match s.core.gang with
  | none => advanceM
  | some g =>
    if !s.core.hartsOver || (List.range 6).any fun k => (s.x a).getLsbD k && !s.core.namedIdle k then stop .wait
    modify fun s => { s with core := { s.core with gang := some { g with left := true, swap := true } } }
    if s.atResident then advanceM else modify fun s => { s with st := s.st.ended }

/-! ### Command queues, knots, the Bobbin (R300 to R303) -/

/-- A block with rounding mode 7 of its options word resolved (Table 12.2). -/
def resolveBlock (b : BitVec 512) (rnd : BitVec 3) : BitVec 512 :=
  if b.extractLsb' 208 8 = 0 ∧ b.extractLsb' 336 3 = 7 then b.extractLsb' 339 173 ++ rnd ++ b.extractLsb' 0 336 else b

/-- A convolution descriptor with rounding mode 7 resolved (Table 12.4). -/
def resolveConv (c : BitVec 512) (rnd : BitVec 3) : BitVec 512 :=
  if c.extractLsb' 392 3 = 7 then c.extractLsb' 395 117 ++ rnd ++ c.extractLsb' 0 392 else c

def execCqPush (d a b : BitVec 5) (s : State) : Out := deliver s do
  let va := s.x a
  if va.extractLsb' 0 6 ≠ 0 then stop (.trap tMISALIGNED 0 va 0)
  if h : (s.x b).toNat < 4 then
    let x ← readRecord va 64
    let blk := resolveBlock (.ofNat 512 x) s.st.round
    if blockBad blk 3 then raiseTrap tCOPY_RANGE
    let q := blockReq blk s.st.round
    let conv ← if q.op = 1 then convRecord q else pure (some 0)
    let conv := conv.map (resolveConv · s.st.round)
    match conv.bind (checkCopy s.fmt q) with
    | some (c, e) => stop (.trap c 0 e 0)
    | none =>
      let conv := conv.getD 0
      let xl ← (planCopy q conv s.core.shSeed).mapPages s.via
      let old := s.core.cmdq[(s.x b).toNat]'h
      if 64 ≤ old.length then stop .wait
      let n ← openBatch
      let e : CmdBlock := ⟨0, blk, conv, s.via.key, s.core.launchId, n, s.st.wordPc, xl⟩
      modify fun t => { t with core := { t.core with cmdq := t.core.cmdq.set (s.x b).toNat (old ++ [e]) h } }
      if blk.getLsbD 207 then closeBatch (if blk.getLsbD 206 then some (blk.extractLsb' 160 32) else none)
      setXM d (.ofNat 64 (old.length + 1))
      advanceM
  else launchArg 1

/-- n of `kn.wait` and `kn.sig` (R301). -/
def knotCount (a : BitVec 5) : M Nat := do
  let s ← get
  let n := if a = 0 then 1 else (s.x a).toNat
  if n = 0 ∨ 65535 < n then launchArg 2
  return n

def execKnWait (k a : BitVec 5) (s : State) : Out := deliver s do
  let n ← knotCount a
  let v := (s.core.knots[k.toNat]'(k.isLt)).toNat
  if v < n then stop .wait
  modify fun s => { s with core := { s.core with knots := s.core.knots.set k.toNat (.ofNat 16 (v - n)) k.isLt } }
  advanceM

def execKnSig (k a : BitVec 5) (s : State) : Out := deliver s do
  let n ← knotCount a
  modify fun s => { s with core := s.core.signal k n }
  advanceM

/-- Whether a nest breaks R302: its template's reserved fields or OP, or a reserved field of a level. -/
def nestBad (n : BitVec 2048) : Bool :=
  blockBad (n.extractLsb' 0 512) 1 || (List.range 6).any fun k => n.extractLsb' (512 + 256 * k) 96 != 0

def execBobLd (a : BitVec 5) (s : State) : Out := deliver s do
  let va := s.x a
  if va.extractLsb' 0 8 ≠ 0 then stop (.trap tMISALIGNED 0 va 0)
  let lo ← readRecord va 128
  let hi ← readRecord (va + 128) 128
  let n := BitVec.ofNat 2048 (lo + 2 ^ 1024 * hi)
  if nestBad n then raiseTrap tCOPY_RANGE
  if s.core.bobbin.run.isSome then stop .wait
  modify fun s => { s with core := { s.core with bobbin := { s.core.bobbin with nest := some n } } }
  advanceM

def execBobGo (d a b : BitVec 5) (s : State) : Out := deliver s do
  if s.core.bobbin.nest.isNone then launchArg 4
  if s.core.bobbin.run.isSome then stop .wait
  let no := s.core.bobbin.nestNo + 1
  let ba : Batch := ⟨17, no, false, none, 0, 0, 0, 0, none, s.core.launchId, s.via.key⟩
  modify fun t => { t with core := { t.core with
    batches := t.core.batches ++ [ba]
    bobbin := { t.core.bobbin with run := some (s.x a, s.x b, s.st.round), at_ := 0, nestNo := no, parked := none, pc := s.st.wordPc,
                                   ctx := s.via.key, launch := s.core.launchId } } }
  setXM d (no.setWidth 64)
  advanceM

/-! ### Events (R304, R305) -/

/-- A REMOTE record (Table 16.4). -/
def State.remote (s : State) (utag : BitVec 32) (x y : Word) : Ev :=
  ⟨y, x, utag, .ofNat 16 s.core.num, s.dev.num, 0, 5, 0, 0, s.core.renqNo, s.core.launchId, s.core.ctxId⟩

/-- A core takes a record into its event queue. -/
def Core.enqueueEv (c : Core) (e : Ev) : Core := { c with evq := c.evq ++ [e] }

/-- `renq`, a store for the fences (R257, R304). -/
def execRenq (t a b : BitVec 5) (s : State) : Out := deliver s do
  engGate 1
  let w := s.x t
  let core := (w.extractLsb' 0 16).toNat
  let ours := (s.dev.part (s.dev.partOfCtx s.core.ctxId)).any (·.hasCore core)
  if w.extractLsb' 24 8 ≠ 0 ∨ w.extractLsb' 16 8 ≠ s.dev.num ∨ ours = false ∨ s.dev.coreOn core = false then launchArg 3
  let ready := match s.coreAt core with
    | some c => c.gang.isSome && c.ctxId == s.core.ctxId && decide (c.evq.length < 256)
    | none => false
  if !ready then stop .wait
  modify fun u => u.updCoreAt core fun c => c.enqueueEv (s.remote (w.extractLsb' 32 32) (s.x a) (s.x b))
  modify fun u => { u with core := { u.core with renqNo := u.core.renqNo + 1 } }
  advanceM

/-- Four registers from X[D] on written from a record (R305). -/
def State.setEvent (s : State) (d : BitVec 5) (e : BitVec 256) : State :=
  (((s.setX d (e.extractLsb' 0 64)).setX (d + 1) (e.extractLsb' 64 64)).setX (d + 2) (e.extractLsb' 128 64)).setX (d + 3) (e.extractLsb' 192 64)

/-- `evq.pop`, a load for the fences (R257, R304). -/
def execEvqPop (d : BitVec 5) (s : State) : Out := deliver s do
  engGate 2
  match s.core.evq with
  | [] => stop .wait
  | e :: r =>
    modify fun s => { (s.setEvent d e.bits) with core := { s.core with evq := r } }
    advanceM

def execEvqPeek (d : BitVec 5) (s : State) : Out :=
  .next (s.setEvent d ((s.core.evq.head?).elim 0 Ev.bits)).advance

/-! ### Table writes (R24, R25, R59) -/

def execFtWr (d a : BitVec 5) (n : BitVec 4) (s : State) : Out := deliver s do
  let old := s.core.ft[n.toNat]'(n.isLt)
  if a ≠ 0 then
    let v := s.x a
    let new := v.extractLsb' 0 32
    if v.extractLsb' 32 32 ≠ 0 ∨ legalEntry new = false then raiseTrap tFORMAT_OPERAND
    modify fun s => { (s.setCtx fun c => { c with ft := c.ft.set n.toNat new n.isLt }) with
      core := { s.core with ft := s.core.ft.set n.toNat new n.isLt } }
  setXM d (old.setWidth 64)
  advanceM

/-- Whether a Pricking-table entry may be written (R59). -/
def Core.pkLegal (c : Core) (v : Word) : Bool :=
  let F := c.fmt (v.extractLsb' 0 4)
  v.extractLsb' 8 56 == 0 && v.extractLsb' 6 2 != 3 && !(v.getLsbD 4 && (decide (F.wid < 16) || F.kind == .nested))

def execPkWr (d a b : BitVec 5) (s : State) : Out := deliver s do
  if h : (s.x b).toNat < 256 then
    let old := s.core.pk[(s.x b).toNat]'h
    if a ≠ 0 then
      if s.core.pkLegal (s.x a) = false then raiseTrap tFORMAT_OPERAND
      let new := (s.x a).extractLsb' 0 8
      modify fun t => { (t.setCtx fun c => { c with pk := c.pk.set (s.x b).toNat new h }) with
        core := { t.core with pk := t.core.pk.set (s.x b).toNat new h } }
    setXM d (old.setWidth 64)
    advanceM
  else raiseTrap tFORMAT_OPERAND

end Sys2Proof.Machine
end

