-- ==== Sys2Proof/Machine/Flags.lean ====
section
/-! DEFINITION. What the vector instructions compute on operands in the compute format, with the sticky flags each result
raises (R42, R43, R134, R138 to R143, R152). -/

namespace Sys2Proof.Machine

/-- The integer that a value of an integer format holds. -/
def Val.toInt (v : Val) : Int :=
  match v with
  | .fin s m e =>
    let n : Int := (if 0 ≤ e then m * 2 ^ e.toNat else m / 2 ^ (-e).toNat : Nat)
    if s then -n else n
  | _ => 0

/-- The W-bit pattern of an integer. -/
def intCode (w : Nat) (n : Int) : Nat := (n % (2 ^ w : Nat)).toNat

/-- deliver of R131 for an exact result with its flags. -/
def delivered (cf : Fmt) (rm : RMode) (d : BitVec 32) (r : Val × BitVec 8) : Nat × BitVec 8 :=
  let (c, f) := cf.convert rm d r.1
  (c, r.2 ||| f)

/-- Operand `k` of a list. -/
def opnd (xs : List Val) (k : Nat) : Val := xs.getD k .zero
/-- Operand `k` as an integer. -/
def iopnd (xs : List Val) (k : Nat) : Int := (opnd xs k).toInt

/-- An instruction with a float result that is rounded once, and an integer result that wraps (R138). -/
def arithOp (linear : Bool) (fl : Bool → List Val → Val × BitVec 8) (int : List Val → Int) : VOp where
  takes _ := true
  linear := linear
  run cf rm d xs :=
    match cf.kind with
    | .float => delivered cf rm d (fl (rm == .rdn) xs)
    | _ => (intCode cf.wid (int xs), 0)

def opAdd : VOp := arithOp true (fun dn xs => (opnd xs 0).add dn (opnd xs 1)) (fun xs => iopnd xs 0 + iopnd xs 1)
def opSub : VOp := arithOp true (fun dn xs => (opnd xs 0).add dn (opnd xs 1).negate) (fun xs => iopnd xs 0 - iopnd xs 1)
def opMul : VOp := arithOp false (fun _ xs => (opnd xs 0).mul (opnd xs 1)) (fun xs => iopnd xs 0 * iopnd xs 1)
def opFma : VOp := arithOp false (fun dn xs => Val.fma dn false false (opnd xs 0) (opnd xs 1) (opnd xs 2))
  (fun xs => iopnd xs 0 * iopnd xs 1 + iopnd xs 2)
def opFms : VOp := arithOp false (fun dn xs => Val.fma dn false true (opnd xs 0) (opnd xs 1) (opnd xs 2))
  (fun xs => iopnd xs 0 * iopnd xs 1 - iopnd xs 2)
def opFnma : VOp := arithOp false (fun dn xs => Val.fma dn true false (opnd xs 0) (opnd xs 1) (opnd xs 2))
  (fun xs => iopnd xs 2 - iopnd xs 0 * iopnd xs 1)

/-- A special function, for float compute formats only (R139). -/
def specialOp (f : List Val → Val × BitVec 8) : VOp where
  takes cf := cf.kind == .float
  linear := false
  run cf rm d xs := delivered cf rm d (f xs)

/-- Saturation to W bits with NV, as `vabs` (R140). -/
def satNv (w : Nat) (n : Int) : Int × BitVec 8 := if n > (2 ^ (w - 1) : Nat) - 1 then ((2 ^ (w - 1) : Nat) - 1, fNV) else (n, 0)

/-- The integer results that saturate with NV. -/
def satCode (w : Nat) (r : Int × BitVec 8) : Nat × BitVec 8 := (intCode w r.1, r.2)

/-- An instruction of major 0x02: exact on floats, with its own integer result (R140). -/
def orderOp (fl : List Val → Val) (int : Nat → List Val → Int × BitVec 8) : VOp where
  takes _ := true
  linear := true
  run cf _ _ xs :=
    match cf.kind with
    | .float => cf.convert .rtz 0 (fl xs)
    | _ => satCode cf.wid (int cf.wid xs)

/-- Magnitude of a, sign of b; a NaN stays (R140). -/
def Val.sgnj (a b : Val) : Val := if b.neg? then a.abs.negate else a.abs

def opMin : VOp := orderOp (fun xs => (opnd xs 0).min (opnd xs 1)) (fun _ xs => (Min.min (iopnd xs 0) (iopnd xs 1), 0))
def opMax : VOp := orderOp (fun xs => (opnd xs 0).max (opnd xs 1)) (fun _ xs => (Max.max (iopnd xs 0) (iopnd xs 1), 0))
def opAbs : VOp := orderOp (fun xs => (opnd xs 0).abs) (fun w xs => satNv w (iopnd xs 0).natAbs)
def opNeg : VOp := orderOp (fun xs => (opnd xs 0).negate) (fun w xs => satNv w (-iopnd xs 0))
def opSgnj : VOp := orderOp (fun xs => (opnd xs 0).sgnj (opnd xs 1)) (fun w xs =>
  let (m, f) := satNv w (iopnd xs 0).natAbs
  (if 0 ≤ iopnd xs 1 then m else -m, f))

/-- An instruction on W-bit patterns, for integer compute formats only (R141, R152). -/
def patternOp (f : Nat → List Val → Int) : VOp where
  takes cf := cf.kind == .int
  linear := false
  run cf _ _ xs := (intCode cf.wid (f cf.wid xs), 0)

/-- The W-bit pattern of operand `k`. -/
def popnd (w : Nat) (xs : List Val) (k : Nat) : Nat := intCode w (iopnd xs k)

/-- Leading zeros of a W-bit pattern. -/
def clzW (w n : Nat) : Nat := if n = 0 then w else w - 1 - n.log2

def opMulh : VOp := patternOp fun w xs => iopnd xs 0 * iopnd xs 1 / (2 ^ w : Nat)
def opSll : VOp := patternOp fun w xs => popnd w xs 0 * 2 ^ (popnd w xs 1 % w)
def opSrl : VOp := patternOp fun w xs => (popnd w xs 0 / 2 ^ (popnd w xs 1 % w) : Nat)
def opSra : VOp := patternOp fun w xs => iopnd xs 0 / (2 ^ (popnd w xs 1 % w) : Nat)
def opAnd : VOp := patternOp fun w xs => (popnd w xs 0 &&& popnd w xs 1 : Nat)
def opOr : VOp := patternOp fun w xs => (popnd w xs 0 ||| popnd w xs 1 : Nat)
def opXor : VOp := patternOp fun w xs => (popnd w xs 0 ^^^ popnd w xs 1 : Nat)
def opFsh : VOp := patternOp fun w xs =>
  ((popnd w xs 0 * 2 ^ w + popnd w xs 1) * 2 ^ (popnd w xs 2 % w) / 2 ^ w : Nat)
def opPopc : VOp := patternOp fun w xs => popcount (popnd w xs 0) w
def opClz : VOp := patternOp fun w xs => clzW w (popnd w xs 0)

/-- Saturating add (R141): a float overflow gives ±max with OF and NX, an integer clamp OF. -/
def opSadd : VOp where
  takes _ := true
  linear := true
  run cf rm d xs :=
    match cf.kind with
    | .float =>
      let (r, f) := (opnd xs 0).add (rm == .rdn) (opnd xs 1)
      let (c, f₂) := cf.convert rm d r
      if f₂ &&& fOF ≠ 0 then ((if r.neg? then 2 ^ (cf.ew + cf.mw) else 0) + cf.maxCode, f ||| fOF ||| fNX) else (c, f ||| f₂)
    | _ =>
      let n := iopnd xs 0 + iopnd xs 1
      let top : Int := (2 ^ (cf.wid - 1) : Nat)
      if n > top - 1 then (intCode cf.wid (top - 1), fOF) else if n < -top then (intCode cf.wid (-top), fOF) else (intCode cf.wid n, 0)

/-! ### Compares (R142, R143) -/

/-- A condition of Table 07.5 on two values. -/
def compare (c : BitVec 3) (a b : Val) : Bool :=
  let un := a.isNaN || b.isNaN
  match c.toNat with
  | 0 => !un && a.cmp b == 0
  | 1 => un || a.cmp b != 0
  | 2 => !un && decide (a.cmp b < 0)
  | 3 => !un && decide (a.cmp b ≤ 0)
  | 4 => !un && decide (a.cmp b > 0)
  | 5 => !un && decide (a.cmp b ≥ 0)
  | 6 => un
  | _ => !un

/-- `vbound`: 0 ≤ a and a < b, with -0 counting as 0 (R143). -/
def bounded (a b : Val) : Bool := !a.isNaN && !b.isNaN && decide (a.cmp .zero ≥ 0) && decide (a.cmp b < 0)

end Sys2Proof.Machine
end

