-- ==== Sys2Proof/Machine/Special.lean ====
section
/-! DEFINITION. The special functions of major 0x01 (R139, Table 07.2). Each answers a value that rounds, in every mode
and format, as the exact mathematical value does: the true value cut to a fine grid, with one more low bit set when
something was cut off. Quotients and roots are cut exactly. The transcendental functions are computed in fixed point of
`fxPrec` fraction bits as an enclosure, and cut at `fxPrec - fxGuard` bits where both ends agree (log 13). -/

namespace Sys2Proof.Machine

/-- A magnitude cut at weight 2^e, with the sticky bit below it. -/
def jamVal (neg : Bool) (m : Nat) (sticky : Bool) (e : Int) : Val := .fin neg (2 * m + sticky.toNat) (e - 1)

/-- Integer square root by bits, from bit `k - 1` down. -/
def isqrtFrom (n : Nat) : Nat → Nat → Nat
  | 0, r => r
  | k + 1, r =>
    let t := r + 2 ^ k
    isqrtFrom n k (if t * t ≤ n then t else r)

/-- floor(√n). -/
def isqrt (n : Nat) : Nat := isqrtFrom n (n.log2 / 2 + 1) 0

/-- a / b (Table 07.2, vdiv). -/
def divVal : Val → Val → Val × BitVec 8
  | .nan, _ => (.nan, 0)
  | _, .nan => (.nan, 0)
  | .inf _, .inf _ => (.nan, fNV)
  | .inf s, .fin t _ _ => (.inf (s != t), 0)
  | .fin s _ _, .inf t => (.fin (s != t) 0 0, 0)
  | .fin s m e, .fin t n f =>
    if n = 0 then (if m = 0 then (.nan, fNV) else (.inf (s != t), fDZ))
    else if m = 0 then (.fin (s != t) 0 0, 0)
    else
      let k := n.log2 + 100
      (jamVal (s != t) (m * 2 ^ k / n) (m * 2 ^ k % n != 0) (e - f - k), 0)

/-- √a (Table 07.2, vsqrt). -/
def sqrtVal : Val → Val × BitVec 8
  | .nan => (.nan, 0)
  | .inf s => if s then (.nan, fNV) else (.inf false, 0)
  | .fin s m e =>
    if m = 0 then (.fin s 0 0, 0)
    else if s then (.nan, fNV)
    else
      let k : Nat := if e % 2 = 0 then 200 else 201
      let n := m * 2 ^ k
      let r := isqrt n
      (jamVal false r (r * r != n) ((e - k) / 2), 0)

/-- 1 / √a (Table 07.2, vrsqrt). -/
def rsqrtVal : Val → Val × BitVec 8
  | .nan => (.nan, 0)
  | .inf s => if s then (.nan, fNV) else (.zero, 0)
  | .fin s m e =>
    if m = 0 then (.inf s, fDZ)
    else if s then (.nan, fNV)
    else
      let (m, e) := if e % 2 = 0 then (m, e) else (2 * m, e - 1)
      let k := m.log2 + 100
      let r := isqrt (2 ^ (2 * k) / m)
      (jamVal false r (r * r * m != 2 ^ (2 * k)) (-(k : Int) - e / 2), 0)

/-- 1 / a (Table 07.2, vrcp). -/
def rcpVal (a : Val) : Val × BitVec 8 := divVal (.fin false 1 0) a

/-! ### Fixed point -/

/-- Fraction bits of the fixed-point enclosures. -/
def fxPrec : Nat := 512
/-- Low bits of an enclosure that are not used. -/
def fxGuard : Nat := 64
/-- The weight of one unit, 1.0. -/
def fxOne : Nat := 2 ^ fxPrec
/-- A bound, in the last place, on the error of one series below. -/
def fxSlack : Nat := 2 ^ 24

/-- Σ t^k / k!, k from 0, each term cut; `n` terms. -/
def expSum (t : Nat) : Nat → Nat → Nat → Nat
  | 0, _, _ => 0
  | n + 1, k, term => term + expSum t n (k + 1) (term * t / fxOne / (k + 1))

/-- Σ z^(2k+1) / (2k+1), the series of atanh, with z² given; `n` terms. -/
def atanhSum (z2 : Nat) : Nat → Nat → Nat → Nat
  | 0, _, _ => 0
  | n + 1, k, pw => pw / (2 * k + 1) + atanhSum z2 n (k + 1) (pw * z2 / fxOne)

/-- Σ (-1)^k t^(2k+j) / (2k+j)!, with t² given: the positive and the negative terms; `n` pairs. -/
def sinCosSum (t2 : Nat) : Nat → Nat → Nat → Nat × Nat
  | 0, _, _ => (0, 0)
  | n + 1, i, term =>
    let t' := term * t2 / fxOne / ((i + 1) * (i + 2))
    let (p, q) := sinCosSum t2 n (i + 4) (t' * t2 / fxOne / ((i + 3) * (i + 4)))
    (term + p, t' + q)

/-- ln 2 = 2 atanh(1/3), within `fxSlack` from below. -/
def fxLn2 : Nat := 2 * atanhSum (fxOne / 9) 170 0 (fxOne / 3)

/-- atan(1/q) by its alternating series, as positive and negative sums. -/
def atanSum (q2 : Nat) : Nat → Nat → Nat → Nat × Nat
  | 0, _, _ => (0, 0)
  | n + 1, k, pw =>
    let (p, m) := atanSum q2 n (k + 2) (pw / q2 / q2)
    (pw / (2 * k + 1) + p, pw / q2 / (2 * k + 3) + m)

/-- π = 16 atan(1/5) - 4 atan(1/239) (Machin), within `fxSlack` on either side. -/
def fxPi : Nat :=
  let (a, b) := atanSum 25 120 0 (fxOne / 5)
  let (c, d) := atanSum 57121 40 0 (fxOne / 239)
  16 * (a - b) - 4 * (c - d)

/-- The value known to lie from lo to hi, in units of 2^-prec, cut at the grid (log 13). -/
def fxCut (neg : Bool) (lo hi : Nat) (e : Int) : Val :=
  let a := lo / 2 ^ fxGuard
  let b := hi / 2 ^ fxGuard
  jamVal neg (if a = b then a else if Config.hardCase lo then a else b) true (e - fxPrec + fxGuard)

/-- An enclosure of e^r for 0 ≤ r < 1 given in units of 2^-prec. -/
def expEncl (r : Nat) : Nat × Nat :=
  let s := expSum r 120 0 fxOne
  (s, s + fxSlack)

/-- 2^a (Table 07.2, vexp2). Arguments beyond ±1000 give the result of ±1000, which rounds alike in every format. -/
def exp2Val : Val → Val × BitVec 8
  | .nan => (.nan, 0)
  | .inf s => (if s then .zero else .inf false, 0)
  | .fin s m e =>
    if m = 0 then (.fin false 1 0, 0)
    else if (m.log2 : Int) + e ≥ 10 then (jamVal false 1 true (if s then -1000 else 1000), 0)
    else
      -- a in units of 2^-prec: exact, because no operand has a bit below 2^-149
      let a : Int := if 0 ≤ e + fxPrec then (m * 2 ^ (e + fxPrec).toNat : Nat) else (m / 2 ^ (-(e + fxPrec)).toNat : Nat)
      let a := if s then -a else a
      let n := a / (fxOne : Int)
      let f := (a % (fxOne : Int)).toNat
      if f = 0 then (.fin false 1 n, 0)
      else
        let (lo, hi) := (f * fxLn2 / fxOne, f * (fxLn2 + fxSlack) / fxOne + 1)
        (fxCut false (expEncl lo).1 (expEncl hi).2 n, 0)

/-- log2 a (Table 07.2, vlog2). -/
def log2Val : Val → Val × BitVec 8
  | .nan => (.nan, 0)
  | .inf s => if s then (.nan, fNV) else (.inf false, 0)
  | .fin s m e =>
    if m = 0 then (.inf true, fDZ)
    else if s then (.nan, fNV)
    else
      let n : Int := (m.log2 : Int) + e
      if m = 2 ^ m.log2 then (.ofInt n, 0)
      else
        let y := m * fxOne / 2 ^ m.log2
        let z := (y - fxOne) * fxOne / (y + fxOne)
        let l := 2 * atanhSum (z * z / fxOne) 330 0 z
        let lo := l * fxOne / (fxLn2 + fxSlack)
        let hi := (l + fxSlack) * fxOne / fxLn2 + 1
        if 0 ≤ n then (fxCut false (n.toNat * fxOne + lo) (n.toNat * fxOne + hi) 0, 0)
        else (fxCut true ((-n).toNat * fxOne - hi) ((-n).toNat * fxOne - lo) 0, 0)

/-- tanh a (Table 07.2, vtanh). Below 2^-40 the value lies just under a, above 64 just under 1. -/
def tanhVal : Val → Val × BitVec 8
  | .nan => (.nan, 0)
  | .inf s => (.fin s 1 0, 0)
  | .fin s m e =>
    if m = 0 then (.fin s 0 0, 0)
    else
      let n : Int := (m.log2 : Int) + e
      if n < -40 then (jamVal s (m * 2 ^ 64 - 1) true (e - 64), 0)
      else if n ≥ 6 then (jamVal s (2 ^ 128 - 1) true (-128), 0)
      else
        let t := if 0 ≤ e + 1 + fxPrec then m * 2 ^ (e + 1 + fxPrec).toNat else m / 2 ^ (-(e + 1 + fxPrec)).toNat
        let k := t / (fxLn2 + fxSlack)
        let (r₀, r₁) := (t - k * (fxLn2 + fxSlack), t - k * fxLn2)
        let eLo := (expEncl r₀).1 * 2 ^ k
        let eHi := (expEncl r₁).2 * 2 ^ k
        (fxCut s ((eLo - fxOne) * fxOne / (eLo + fxOne)) ((eHi - fxOne) * fxOne / (eHi + fxOne) + 1) 0, 0)

/-- An enclosure of sin(πg) for 0 < g ≤ 1/4, g in units of 2^-prec. -/
def sinEncl (g : Nat) : Nat × Nat :=
  let t := fxPi * g / fxOne
  let (p, q) := sinCosSum (t * t / fxOne) 50 1 t
  (p - q - fxSlack, p - q + fxSlack)

/-- An enclosure of cos(πg) for 0 < g ≤ 1/4, g in units of 2^-prec. -/
def cosEncl (g : Nat) : Nat × Nat :=
  let t := fxPi * g / fxOne
  let (p, q) := sinCosSum (t * t / fxOne) 50 0 fxOne
  (p - q - fxSlack, p - q + fxSlack)

/-- |a| mod 2 in units of 2^-prec; every operand is a multiple of 2^-149, so this is exact. -/
def mod2 (m : Nat) (e : Int) : Nat :=
  (if 0 ≤ e + fxPrec then m * 2 ^ (e + fxPrec).toNat else m / 2 ^ (-(e + fxPrec)).toNat) % (2 * fxOne)

/-- sin(πa), a in half-turns (Table 07.2, vsin). -/
def sinVal : Val → Val × BitVec 8
  | .nan => (.nan, 0)
  | .inf _ => (.nan, fNV)
  | .fin s m e =>
    let h := mod2 m e
    let neg := s != decide (fxOne ≤ h)
    let g := h % fxOne
    let g := if 2 * g > fxOne then fxOne - g else g
    if g = 0 then (.fin s 0 0, 0)
    else if 2 * g = fxOne then (.fin neg 1 0, 0)
    else if 4 * g ≤ fxOne then (fxCut neg (sinEncl g).1 (sinEncl g).2 0, 0)
    else (fxCut neg (cosEncl (fxOne / 2 - g)).1 (cosEncl (fxOne / 2 - g)).2 0, 0)

/-- cos(πa), a in half-turns (Table 07.2, vcos). -/
def cosVal : Val → Val × BitVec 8
  | .nan => (.nan, 0)
  | .inf _ => (.nan, fNV)
  | .fin _ m e =>
    let h := mod2 m e
    let h := if h > fxOne then 2 * fxOne - h else h
    let neg := decide (2 * h > fxOne)
    let g := if 2 * h > fxOne then fxOne - h else h
    if 2 * g = fxOne then (.zero, 0)
    else if g = 0 then (.fin neg 1 0, 0)
    else if 4 * g ≤ fxOne then (fxCut neg (cosEncl g).1 (cosEncl g).2 0, 0)
    else (fxCut neg (sinEncl (fxOne / 2 - g)).1 (sinEncl (fxOne / 2 - g)).2 0, 0)

end Sys2Proof.Machine
end

