-- ==== Sys2Proof/Machine/Vector.lean ====
section
/-! DEFINITION. The vector instructions of file 07, the logic minors of R152, and the prefix word (R100, R101). -/

namespace Sys2Proof.Machine

/-! ### Majors 0x00 to 0x03 (R138 to R141, R152) -/

def execVadd (d a : BitVec 5) (_x : BitVec 1) (b : BitVec 5) (_y : BitVec 1) (s : State) : Out := deliver s (vectorOp opAdd d [a, b])
def execVsub (d a : BitVec 5) (_x : BitVec 1) (b : BitVec 5) (_y : BitVec 1) (s : State) : Out := deliver s (vectorOp opSub d [a, b])
def execVmul (d a : BitVec 5) (_x : BitVec 1) (b : BitVec 5) (_y : BitVec 1) (s : State) : Out := deliver s (vectorOp opMul d [a, b])
def execVfma (d a : BitVec 5) (_x : BitVec 1) (b : BitVec 5) (_y : BitVec 1) (s : State) : Out :=
  deliver s (vectorOp opFma d [a, b, s.st.fourth d])
def execVfms (d a : BitVec 5) (_x : BitVec 1) (b : BitVec 5) (_y : BitVec 1) (s : State) : Out :=
  deliver s (vectorOp opFms d [a, b, s.st.fourth d])
def execVfnma (d a : BitVec 5) (_x : BitVec 1) (b : BitVec 5) (_y : BitVec 1) (s : State) : Out :=
  deliver s (vectorOp opFnma d [a, b, s.st.fourth d])

def execVdiv (d a : BitVec 5) (_x : BitVec 1) (b : BitVec 5) (_y : BitVec 1) (s : State) : Out :=
  deliver s (vectorOp (specialOp fun xs => divVal (opnd xs 0) (opnd xs 1)) d [a, b])
def execVsqrt (d a : BitVec 5) (_x : BitVec 1) (s : State) : Out := deliver s (vectorOp (specialOp fun xs => sqrtVal (opnd xs 0)) d [a])
def execVrsqrt (d a : BitVec 5) (_x : BitVec 1) (s : State) : Out := deliver s (vectorOp (specialOp fun xs => rsqrtVal (opnd xs 0)) d [a])
def execVrcp (d a : BitVec 5) (_x : BitVec 1) (s : State) : Out := deliver s (vectorOp (specialOp fun xs => rcpVal (opnd xs 0)) d [a])
def execVexp2 (d a : BitVec 5) (_x : BitVec 1) (s : State) : Out := deliver s (vectorOp (specialOp fun xs => exp2Val (opnd xs 0)) d [a])
def execVlog2 (d a : BitVec 5) (_x : BitVec 1) (s : State) : Out := deliver s (vectorOp (specialOp fun xs => log2Val (opnd xs 0)) d [a])
def execVtanh (d a : BitVec 5) (_x : BitVec 1) (s : State) : Out := deliver s (vectorOp (specialOp fun xs => tanhVal (opnd xs 0)) d [a])
def execVsin (d a : BitVec 5) (_x : BitVec 1) (s : State) : Out := deliver s (vectorOp (specialOp fun xs => sinVal (opnd xs 0)) d [a])
def execVcos (d a : BitVec 5) (_x : BitVec 1) (s : State) : Out := deliver s (vectorOp (specialOp fun xs => cosVal (opnd xs 0)) d [a])

def execVmin (d a : BitVec 5) (_x : BitVec 1) (b : BitVec 5) (_y : BitVec 1) (s : State) : Out := deliver s (vectorOp opMin d [a, b])
def execVmax (d a : BitVec 5) (_x : BitVec 1) (b : BitVec 5) (_y : BitVec 1) (s : State) : Out := deliver s (vectorOp opMax d [a, b])
def execVabs (d a : BitVec 5) (_x : BitVec 1) (s : State) : Out := deliver s (vectorOp opAbs d [a])
def execVneg (d a : BitVec 5) (_x : BitVec 1) (s : State) : Out := deliver s (vectorOp opNeg d [a])
def execVsgnj (d a : BitVec 5) (_x : BitVec 1) (b : BitVec 5) (_y : BitVec 1) (s : State) : Out := deliver s (vectorOp opSgnj d [a, b])

def execVmulh (d a : BitVec 5) (_x : BitVec 1) (b : BitVec 5) (_y : BitVec 1) (s : State) : Out := deliver s (vectorOp opMulh d [a, b])
def execVsll (d a : BitVec 5) (_x : BitVec 1) (b : BitVec 5) (_y : BitVec 1) (s : State) : Out := deliver s (vectorOp opSll d [a, b])
def execVsrl (d a : BitVec 5) (_x : BitVec 1) (b : BitVec 5) (_y : BitVec 1) (s : State) : Out := deliver s (vectorOp opSrl d [a, b])
def execVsra (d a : BitVec 5) (_x : BitVec 1) (b : BitVec 5) (_y : BitVec 1) (s : State) : Out := deliver s (vectorOp opSra d [a, b])
def execVand (d a : BitVec 5) (_x : BitVec 1) (b : BitVec 5) (_y : BitVec 1) (s : State) : Out := deliver s (vectorOp opAnd d [a, b])
def execVor (d a : BitVec 5) (_x : BitVec 1) (b : BitVec 5) (_y : BitVec 1) (s : State) : Out := deliver s (vectorOp opOr d [a, b])
def execVxor (d a : BitVec 5) (_x : BitVec 1) (b : BitVec 5) (_y : BitVec 1) (s : State) : Out := deliver s (vectorOp opXor d [a, b])
def execVfsh (d a : BitVec 5) (_x : BitVec 1) (b : BitVec 5) (_y : BitVec 1) (s : State) : Out :=
  deliver s (vectorOp opFsh d [a, b, s.st.fourth d])
def execVpopc (d a : BitVec 5) (_x : BitVec 1) (s : State) : Out := deliver s (vectorOp opPopc d [a])
def execVclz (d a : BitVec 5) (_x : BitVec 1) (s : State) : Out := deliver s (vectorOp opClz d [a])
def execVsadd (d a : BitVec 5) (_x : BitVec 1) (b : BitVec 5) (_y : BitVec 1) (s : State) : Out := deliver s (vectorOp opSadd d [a, b])

/-! ### Masks as destinations (R142, R156) -/

/-- A mask with its bits below `g` replaced. -/
def maskWith (old : BitVec 24576) (g : Nat) (bits : Nat → Bool) : BitVec 24576 :=
  let n := (List.range g).foldr (fun e acc => 2 * acc + (bits e).toNat) 0
  .ofNat 24576 (old.toNat / 2 ^ g * 2 ^ g + n)

/-- A strand with a mask written; a write to m0 is discarded (Table 00.3). -/
def Strand.setMask (t : Strand) (m : BitVec 3) (v : BitVec 24576) : Strand :=
  if m = 0 then t else { t with mask := t.mask.set m.toNat v m.isLt }

/-- A strand with the bits of a mask below its grant replaced. -/
def Strand.putMask (t : Strand) (m : BitVec 3) (bits : Nat → Bool) : Strand :=
  t.setMask m (maskWith (t.mask[m.toNat]'(m.isLt)) t.grant bits)

/-- The bits of a compare as codes, from its two registers and the outcome of the table, with CARRY decided per element (R142). -/
def compareAcc (m : BitVec 3) (test : Val → Val → Bool) (s : State) (regs : List VReg) (p : Prick) : Acc :=
  let cf := s.fmt p.cf
  let rm := s.st.mode
  let pairs := regs.map fun r => (r, s.fmt r.fmt)
  let elem (e : Nat) (seed : BitVec 32) : Nat × BitVec 8 :=
    let apply := p.rule == 0 || (p.rule == 1 && (oneScale (pairs.flatMap fun (r, F) => r.feeding F e e)).isNone)
    let xs := pairs.map fun (r, F) => r.operand F cf apply rm seed e
    let (c, f) := if p.al then ((test (opnd (xs.map (·.1)) 0) (opnd (xs.map (·.1)) 1)).toNat, (0 : BitVec 8)) else (0, fNV)
    (c, xs.foldl (fun f x => f ||| x.2) f)
  elements s.st (rm == .sr) elem fun e => some (s.st.maskBit m e).toNat

/-- The waits and issue checks of a compare, in the order of R89: its two registers and the outcome of the table. -/
def issueCompare (a b : BitVec 5) : M (List VReg × Prick) := do
  let s ← get
  let regs ← if s.st.grant = 0 then pure ([a, b].map fun v => s.st.reg (s.st.phys v)) else [a, b].mapM readReg
  let p := s.core.prick (regs.map (·.fmt))
  let g := s.st.grant
  if g ≠ 0 then
    if regs.any fun r => !r.holds (s.fmt r.fmt) g then raiseTrap tGRANT_WIDTH
    if regs.any fun r => r.rawBelow (s.fmt r.fmt) g then raiseTrap tTAG_CLASS
  if !p.al && p.trp then raiseTrap tFORBIDDEN_PAIR
  return (regs, p)

/-- A compare into a mask (R142). -/
def compareOp (m : BitVec 3) (a b : BitVec 5) (test : Val → Val → Bool) : M Unit := do
  let (regs, p) ← issueCompare a b
  let s ← get
  if s.st.grant = 0 then advanceM
  else
    let acc := compareAcc m test s regs p
    let bits := acc.codes.reverse
    raiseFlags acc.flags
    modify fun s => { s with st := { s.st.putMask m (fun e => bits.getD e 0 != 0) with seed := acc.seed } }
    advanceM

def execVcmp (m : BitVec 3) (a : BitVec 5) (_x : BitVec 1) (b : BitVec 5) (_y : BitVec 1) (c : BitVec 3) (s : State) : Out :=
  deliver s (compareOp m a b (compare c))
def execVbound (m : BitVec 3) (a : BitVec 5) (_x : BitVec 1) (b : BitVec 5) (_y : BitVec 1) (s : State) : Out :=
  deliver s (compareOp m a b bounded)

/-! ### Conversion and tags (R144 to R150) -/

/-- The issue checks of `vcvt` and `vquant` with their source register (R145). -/
def issueConvert (d a : BitVec 5) (f : BitVec 4) : M VReg := do
  let s ← get
  let src ← if s.st.grant = 0 then pure (s.st.reg (s.st.phys a)) else readReg a
  let old ← if s.st.grant = 0 then pure (s.st.reg (s.st.phys d)) else claimReg d
  widthAndClass [src] old f
  if (s.fmt f).kind == .nested || (s.fmt f).kind == .reserved then raiseTrap tFORBIDDEN_PAIR
  return src

/-- The elements of `vcvt` to the format of an index (R145). -/
def convertAcc (d : BitVec 5) (f : BitVec 4) (s : State) (src : VReg) : Acc :=
  let T := s.fmt f
  let rm := s.st.mode
  let old := s.st.reg (s.st.phys d)
  let elem (e : Nat) (seed : BitVec 32) : Nat × BitVec 8 :=
    let (x, fl) := src.value (s.fmt src.fmt) (T.kind != .float) true e
    delivered T rm seed (x, fl)
  elements s.st (rm == .sr) elem (mergeCode old (s.fmt old.fmt) T f 127)

def execVcvt (d a : BitVec 5) (_x : BitVec 1) (f : BitVec 4) (s : State) : Out := deliver s do
  let src ← issueConvert d a f
  let s ← get
  if s.st.grant = 0 then advanceM
  else commitV d f (convertAcc d f s src) fun _ => mkSide f 127 false cVAL

/-- The largest magnitude of a list of values: NaN where one is NaN, +0 for none (R146, R147). -/
def amaxOf (xs : List Val) : Val := xs.foldl (fun m x => if m.isNaN || x.isNaN then .nan else m.max x.abs) .zero

/-- The scale code and clamp flag of each result segment of `vquant` (R146). -/
def quantScales (f : BitVec 4) (s : State) (src : VReg) : List (BitVec 8 × BitVec 8) :=
  let g := s.st.grant
  let T := s.fmt f
  let n := perSeg T.wid
  (List.range (segsBelow g T.wid)).map fun k =>
    scaleFromAmax T (amaxOf (((List.range' (k * n) (Nat.min n (g - k * n))).filter s.st.active).map fun e =>
      (src.value (s.fmt src.fmt) (T.kind != .float) true e).1))

/-- The elements of `vquant` under the scale codes of their segments (R146). -/
def quantAcc (f : BitVec 4) (s : State) (src : VReg) : Acc :=
  let T := s.fmt f
  let rm := s.st.mode
  let elem (e : Nat) (seed : BitVec 32) : Nat × BitVec 8 :=
    let (x, fl) := src.value (s.fmt src.fmt) (T.kind != .float) true e
    let (c, clamp) := (quantScales f s src).getD (e / perSeg T.wid) (127, 0)
    if c = 255 then (0, fl)
    else
      let (code, f₂) := convertScaled T rm seed clamp (x.scale (127 - (c.toNat : Int)))
      (code, fl ||| clamp ||| f₂)
  elements s.st (rm == .sr) elem fun _ => some 0

def execVquant (d a : BitVec 5) (_x : BitVec 1) (f : BitVec 4) (s : State) : Out := deliver s do
  let src ← issueConvert d a f
  let s ← get
  if s.st.grant = 0 then advanceM
  else commitV d f (quantAcc f s src) fun k => mkSide f ((quantScales f s src).getD k (127, 0)).1 false cVAL

def execVamax (d a : BitVec 5) (_x : BitVec 1) (s : State) : Out := deliver s do
  let s ← get
  let g := s.st.grant
  let v ← if g = 0 then pure Val.zero
    else do
      let src ← readReg a
      let F := s.fmt src.fmt
      if !src.holds F g then raiseTrap tGRANT_WIDTH
      if src.rawBelow F g then raiseTrap tTAG_CLASS
      pure (amaxOf (((List.range g).filter s.st.active).map fun e => (src.value F false true e).1))
  setXM d (.ofNat 64 (fp32.convert .rup 0 v).1)
  advanceM

def execVtagr (d a : BitVec 5) (_x : BitVec 1) (b : BitVec 5) (s : State) : Out := deliver s do
  let r ← readReg a
  let i := (s.x b).toNat
  setXM d (if i < r.segs.length then .ofNat 64 (r.fmt.toNat * 2 ^ 16 + (r.seg i).side.toNat) else .ofNat 64 (2 ^ 63))
  advanceM

/-- A register with one segment replaced. -/
def VReg.setSeg (r : VReg) (g : Nat) (x : Seg) : VReg := { r with segs := r.segs.set g x }

def execVtagw (d a b : BitVec 5) (s : State) : Out := deliver s do
  let i := (s.x b).toNat
  let w := s.x a
  if s.st.grant = 0 || (s.st.reg (s.st.phys d)).segs.length ≤ i then advanceM
  else
    let r ← claimReg d
    if !r.holds (s.fmt r.fmt) s.st.grant then raiseTrap tGRANT_WIDTH
    if 3 ≤ (w.extractLsb' 0 3).toNat then raiseTrap tTAG_CLASS
    let r := r.setSeg i { r.seg i with side := w.extractLsb' 0 16 }
    modify (·.putReg d { r with fmt := if w.getLsbD 20 then w.extractLsb' 16 4 else r.fmt })
    advanceM

/-- A scale code moved by k with its clamps (R150). -/
def moveScale (c : BitVec 8) (k : Int) : BitVec 8 × BitVec 8 :=
  let n := (c.toNat : Int) + k
  if n > 254 then (254, fSO) else if n < 0 then (0, fSF) else (.ofInt 8 n, 0)

/-- The segments of a source that hold an element below the grant as `vscl` leaves them, each with its flag: those with an active
element and a code other than 255 are moved by `k` (R150). -/
def scaledSegs (s : State) (src : VReg) (k : Int) : List (Seg × BitVec 8) :=
  let g := s.st.grant
  let n := perSeg (s.fmt src.fmt).wid
  (List.range (segsBelow g (s.fmt src.fmt).wid)).map fun j =>
    let x := src.seg j
    if x.side.scl ≠ 255 ∧ ((List.range' (j * n) (Nat.min n (g - j * n))).any s.st.active) = true then
      let (c, f) := moveScale x.side.scl k
      ({ x with side := mkSide x.side.org c x.side.mix x.side.cls }, f)
    else (x, 0)

def execVscl (d a : BitVec 5) (_x : BitVec 1) (b : BitVec 5) (s : State) : Out := deliver s do
  let g := s.st.grant
  if g = 0 then advanceM
  else
    let src ← readReg a
    let old ← claimReg d
    let s ← get
    if !src.holds (s.fmt src.fmt) g then raiseTrap tGRANT_WIDTH
    let touched := scaledSegs s src (s.x b).toInt
    raiseFlags (touched.foldl (fun f x => f ||| x.2) 0)
    modify (·.putReg d ⟨src.fmt, touched.map (·.1) ++ old.segs.drop touched.length⟩)
    advanceM

/-! ### The prefix word (R100, R101) -/

/-- The decoration groups an instruction accepts (Table 05.9): M, R, C; or none where no `pfx` is accepted at all. -/
def decoGroups (i : Instr) : Option (Bool × Bool × Bool) :=
  match i with
  | .vadd _ _ _ _ _ => some (true, true, false)
  | .vsub _ _ _ _ _ => some (true, true, false)
  | .vmul _ _ _ _ _ => some (true, true, false)
  | .vfma _ _ _ _ _ => some (true, true, true)
  | .vfms _ _ _ _ _ => some (true, true, true)
  | .vfnma _ _ _ _ _ => some (true, true, true)
  | .vdiv _ _ _ _ _ => some (true, true, false)
  | .vsqrt _ _ _ => some (true, true, false)
  | .vrsqrt _ _ _ => some (true, true, false)
  | .vrcp _ _ _ => some (true, true, false)
  | .vexp2 _ _ _ => some (true, true, false)
  | .vlog2 _ _ _ => some (true, true, false)
  | .vtanh _ _ _ => some (true, true, false)
  | .vsin _ _ _ => some (true, true, false)
  | .vcos _ _ _ => some (true, true, false)
  | .vmin _ _ _ _ _ => some (true, false, false)
  | .vmax _ _ _ _ _ => some (true, false, false)
  | .vabs _ _ _ => some (true, false, false)
  | .vneg _ _ _ => some (true, false, false)
  | .vsgnj _ _ _ _ _ => some (true, false, false)
  | .vmulh _ _ _ _ _ => some (true, false, false)
  | .vsll _ _ _ _ _ => some (true, false, false)
  | .vsrl _ _ _ _ _ => some (true, false, false)
  | .vsra _ _ _ _ _ => some (true, false, false)
  | .vand _ _ _ _ _ => some (true, false, false)
  | .vor _ _ _ _ _ => some (true, false, false)
  | .vxor _ _ _ _ _ => some (true, false, false)
  | .vfsh _ _ _ _ _ => some (true, false, true)
  | .vpopc _ _ _ => some (true, false, false)
  | .vclz _ _ _ => some (true, false, false)
  | .vsadd _ _ _ _ _ => some (true, false, false)
  | .vcmp _ _ _ _ _ _ => some (true, false, false)
  | .vbound _ _ _ _ _ => some (true, false, false)
  | .vcvt _ _ _ _ => some (true, true, false)
  | .vquant _ _ _ _ => some (true, true, false)
  | .vamax _ _ _ => some (true, false, false)
  | .vscl _ _ _ _ => some (true, false, false)
  | .vmov _ _ _ => some (true, false, false)
  | .vbcast _ _ _ _ => some (true, false, false)
  | .vslideup _ _ _ _ => some (true, false, false)
  | .vslidedn _ _ _ _ => some (true, false, false)
  | .vperm _ _ _ _ => some (true, false, false)
  | .vcompress _ _ _ => some (true, false, false)
  | .vexpand _ _ _ => some (true, false, false)
  | .vzip _ _ _ _ => some (true, false, false)
  | .vunzip _ _ _ => some (true, false, false)
  | .vtrn _ _ _ _ => some (true, false, false)
  | .vrev _ _ _ => some (true, false, false)
  | .vred _ _ _ _ => some (true, true, false)
  | .vscan _ _ _ _ => some (true, true, false)
  | .qpop _ _ => some (false, true, false)
  | .vlut3 _ _ _ _ _ _ => some (true, false, true)
  | _ => none

/-- The limits Table 07.6 adds: `vquant` takes a mask only with `z`; `vamax` and `vscl` take none with `z`. -/
def decoLimit (i : Instr) (x : Deco) : Bool :=
  match i with
  | .vquant _ _ _ _ => x.msk == 0 || x.mz
  | .vamax _ _ _ => !x.mz
  | .vscl _ _ _ _ => !x.mz
  | _ => true

/-- Whether a decoration may stand before an instruction (R101). -/
def decoOk (i : Instr) (x : Deco) : Bool :=
  match decoGroups i with
  | none => false
  | some (m, r, c) => (m || (x.msk == 0 && !x.mz)) && (r || !x.rmv) && (c || !x.vcv) && decoLimit i x

/-- `pfx`: the pair's second word is fetched and judged; the decoration then waits for it (R101). -/
def execPfx (c : BitVec 5) (v z : BitVec 1) (m : BitVec 3) (r : BitVec 1) (o : BitVec 3) (s : State) : Out := deliver s do
  let x : Deco := ⟨c, v == 1, z == 1, m, r == 1, o⟩
  let w ← fetchAt s.via (s.st.pc + 4)
  match decode .execute w with
  | .error _ => raiseTrap tILLEGAL
  | .ok i =>
    if w.getLsbD 31 = false || !decoOk i x then raiseTrap tILLEGAL
    modify fun s => { s with st := { s.st with deco := some x, pc := s.st.pc + 4 } }

end Sys2Proof.Machine
end

