-- ==== Sys2Proof/Machine/VecData.lean ====
section
/-! DEFINITION. Permutes, masks, reductions, the deferral queue and the X-hart ends of the tagged queues (file 08). -/

namespace Sys2Proof.Machine

/-! ### Code-moving instructions (R153 to R155) -/

/-- Where an element of a destination comes from: its code, where it has one the sidecar of its source segment, and whether the instruction
writes it, rather than merging it. -/
structure Moved where
  code : Nat
  side : Option Sidecar
  written : Bool
  deriving DecidableEq, Repr

/-- A code-0 element (R154). -/
def Moved.zero : Moved := ⟨0, none, true⟩

/-- Element `e` of a register at width `w`; an element of a UNW segment is code 0 with no source (R154). -/
def VReg.moved (r : VReg) (w e : Nat) : Moved :=
  let s := r.seg (e / perSeg w)
  if s.side.cls = cUNW then .zero else ⟨s.bits w (e % perSeg w), some s.side, true⟩

/-- What becomes of a segment of the destination of a code-moving instruction (R154). -/
inductive MovedSeg where
  /-- No element of it is written: it stays. -/
  | kept
  /-- Its source segments carry two scale codes: TAG_FORMAT. -/
  | clash
  /-- It is written, and takes this sidecar. -/
  | takes (d : Sidecar)
  deriving DecidableEq, Repr

/-- The sidecar of a written segment from the sources of its elements (R154). ORG is that of the source of the lowest-numbered written
element, or the format where that has none (log 129). -/
def movedSide (fi : BitVec 4) (xs : List Moved) : MovedSeg :=
  match xs.filterMap (·.side) with
  | [] => .takes (mkSide fi 127 false cVAL)
  | a :: r =>
    if r.any fun b => b.scl != a.scl then .clash
    else .takes (mkSide (((xs.find? (·.written)).bind (·.side)).elim fi (·.org)) a.scl
      (a.mix || r.any fun b => b.mix || b.org != a.org) (if (a :: r).any (·.cls == cRAW) then cRAW else cVAL))

/-- The segments of a list of moved elements, `n` each. -/
def chunks (n : Nat) : Nat → List Moved → List (List Moved)
  | 0, _ => []
  | fuel + 1, xs =>
    match xs with
    | [] => []
    | _ => xs.take n :: chunks n fuel (xs.drop n)

/-- The elements below the grant: moved ones where `pick` answers, merged or zeroed ones elsewhere (R154, R155). -/
def movedElements (t : Strand) (old : VReg) (w : Nat) (pick : Nat → Option Moved) : List Moved :=
  (List.range t.grant).map fun e =>
    match pick e with
    | some m => m
    | none => if t.mz then .zero else { old.moved w e with written := false }

/-- Whether some position keeps its old code under merge. -/
def keepsOld (t : Strand) (pick : Nat → Option Moved) : Bool := !t.mz && (List.range t.grant).any fun e => (pick e).isNone

/-- What becomes of each segment below the grant; `sideOf` answers for those with a written element (R136, R154). -/
def movedSides (w : Nat) (xs : List Moved) (sideOf : Nat → List Moved → MovedSeg) : List MovedSeg :=
  let parts := chunks (perSeg w) xs.length xs
  (List.range parts.length).map fun g => if (parts.getD g []).any (·.written) then sideOf g (parts.getD g []) else .kept

/-- A register written from element 0 on with moved elements and their sidecars; its other segments stay. -/
def VReg.writeMoved (old : VReg) (fi : BitVec 4) (w : Nat) (xs : List Moved) (sides : List MovedSeg) : VReg :=
  let side (g : Nat) : Sidecar := match sides.getD g .kept with
    | .takes d => d
    | _ => 0x7F2
  let r := old.write fi w (xs.map (·.code)) side
  ⟨fi, r.segs.zipIdx.map fun (x, g) => if sides.getD g .kept = .kept then old.seg g else x⟩

/-- The destination of a code-moving instruction written in format `fi` with a sidecar rule per segment. -/
def commitMoved (d : BitVec 5) (fi : BitVec 4) (old : VReg) (pick : Nat → Option Moved) (sideOf : Nat → List Moved → MovedSeg) : M Unit := do
  let s ← get
  let w := (s.fmt fi).wid
  if keepsOld s.st pick && old.fmt != fi then raiseTrap tTAG_FORMAT
  let xs := movedElements s.st old w pick
  let sides := movedSides w xs sideOf
  if sides.contains .clash then raiseTrap tTAG_FORMAT
  modify (·.putReg d (old.writeMoved fi w xs sides))
  advanceM

/-- Sources of one format and a destination with room at that format (R154): the source registers and the old destination. -/
def issueMove (d : BitVec 5) (srcs : List (BitVec 5)) : M (List VReg × VReg) := do
  let s ← get
  let g := s.st.grant
  let regs ← if g = 0 then pure (srcs.map fun v => s.st.reg (s.st.phys v)) else srcs.mapM readReg
  let old ← if g = 0 then pure (s.st.reg (s.st.phys d)) else claimReg d
  let fi := match regs with
    | r :: _ => r.fmt
    | [] => 0
  if g ≠ 0 && (regs.any (fun r => !r.holds (s.fmt r.fmt) g) || !old.holds (s.fmt fi) g) then raiseTrap tGRANT_WIDTH
  if regs.any (·.fmt != fi) then raiseTrap tFORBIDDEN_PAIR
  return (regs, old)

/-- A code-moving instruction (R154): `pick` answers the element written at each position, from the source registers at
their width. -/
def moveOp (d : BitVec 5) (srcs : List (BitVec 5)) (pick : Strand → Nat → List VReg → Nat → Option Moved) : M Unit := do
  let (regs, old) ← issueMove d srcs
  let s ← get
  if s.st.grant = 0 then advanceM
  else
    let fi := match regs with
      | r :: _ => r.fmt
      | [] => 0
    commitMoved d fi old (pick s.st (s.fmt fi).wid regs) fun _ xs => movedSide fi xs

/-- Element `k` of source `i`. -/
def srcAt (regs : List VReg) (w i k : Nat) : Moved := (regs.getD i (.fresh 0)).moved w k

/-- A pick for active elements only. -/
def onActive (f : Strand → Nat → List VReg → Nat → Moved) (t : Strand) (w : Nat) (regs : List VReg) (e : Nat) : Option Moved :=
  if t.active e then some (f t w regs e) else none

/-- The active elements below the grant, in ascending order. -/
def Strand.activeList (t : Strand) : List Nat := (List.range t.grant).filter t.active

/-- How many active elements lie below `e`. -/
def Strand.rank (t : Strand) (e : Nat) : Nat := ((List.range e).filter t.active).length

def execVmov (d a : BitVec 5) (_x : BitVec 1) (s : State) : Out :=
  deliver s (moveOp d [a] (onActive fun _ w r e => srcAt r w 0 e))
def execVbcast (d a : BitVec 5) (_x : BitVec 1) (b : BitVec 5) (s : State) : Out :=
  deliver s (moveOp d [a] (onActive fun t w r _ => if (s.x b).toNat < t.grant then srcAt r w 0 (s.x b).toNat else .zero))
def execVslideup (d a : BitVec 5) (_x : BitVec 1) (b : BitVec 5) (s : State) : Out :=
  deliver s (moveOp d [a] (onActive fun _ w r e => if (s.x b).toNat ≤ e then srcAt r w 0 (e - (s.x b).toNat) else .zero))
def execVslidedn (d a : BitVec 5) (_x : BitVec 1) (b : BitVec 5) (s : State) : Out :=
  deliver s (moveOp d [a] (onActive fun t w r e => if e + (s.x b).toNat < t.grant then srcAt r w 0 (e + (s.x b).toNat) else .zero))
def execVcompress (d a : BitVec 5) (_x : BitVec 1) (s : State) : Out :=
  deliver s (moveOp d [a] fun t w r e => match t.activeList[e]? with
    | some k => some (srcAt r w 0 k)
    | none => none)
def execVexpand (d a : BitVec 5) (_x : BitVec 1) (s : State) : Out :=
  deliver s (moveOp d [a] (onActive fun t w r e => srcAt r w 0 (t.rank e)))
def execVzip (d a : BitVec 5) (_x : BitVec 1) (b : BitVec 5) (s : State) : Out :=
  deliver s (moveOp d [a, b] (onActive fun _ w r e => srcAt r w (e % 2) (e / 2)))
def execVunzip (d a : BitVec 5) (_x : BitVec 1) (s : State) : Out :=
  deliver s (moveOp d [a] (onActive fun t w r e =>
    let h := (t.grant + 1) / 2
    srcAt r w 0 (if e < h then 2 * e else 2 * (e - h) + 1)))
def execVtrn (d a : BitVec 5) (_x : BitVec 1) (b : BitVec 5) (s : State) : Out :=
  deliver s (moveOp d [a, b] (onActive fun _ w r e => if e % 2 = 0 then srcAt r w 0 e else srcAt r w 1 (e - 1)))
def execVrev (d a : BitVec 5) (_x : BitVec 1) (s : State) : Out :=
  deliver s (moveOp d [a] (onActive fun t w r e =>
    let vl := t.vl.toNat
    srcAt r w 0 (e / vl * vl + (vl - 1 - e % vl))))

/-- The integer value of an index element, its scale ignored (R155, R205). -/
def VReg.index (r : VReg) (F : Fmt) (e : Nat) : Int := (F.decode true (r.code F.wid e)).1.toInt

/-- The waits and issue checks of `vperm`: its index, source and old destination registers (R155). -/
def issuePerm (d a b : BitVec 5) : M (VReg × VReg × VReg) := do
  let s ← get
  let g := s.st.grant
  let ix ← if g = 0 then pure (s.st.reg (s.st.phys b)) else readReg b
  let src ← if g = 0 then pure (s.st.reg (s.st.phys a)) else readReg a
  let old ← if g = 0 then pure (s.st.reg (s.st.phys d)) else claimReg d
  let s ← get
  let F := s.fmt ix.fmt
  if g ≠ 0 && (!ix.holds F g || !src.holds (s.fmt src.fmt) g || !old.holds (s.fmt src.fmt) g) then raiseTrap tGRANT_WIDTH
  if g ≠ 0 && ix.rawBelow F g then raiseTrap tTAG_CLASS
  if F.kind != .int then raiseTrap tFORBIDDEN_PAIR
  return (ix, src, old)

/-- The element that `vperm` puts at position `e`: 0 where its index is outside the grant. -/
def permPick (s : State) (ix src : VReg) (e : Nat) : Option Moved :=
  if s.st.active e then
    let i := ix.index (s.fmt ix.fmt) e
    some (if 0 ≤ i ∧ i < s.st.grant then src.moved (s.fmt src.fmt).wid i.toNat else .zero)
  else none

def execVperm (d a : BitVec 5) (_x : BitVec 1) (b : BitVec 5) (s : State) : Out := deliver s do
  let (ix, src, old) ← issuePerm d a b
  let s ← get
  if s.st.grant = 0 then advanceM
  else commitMoved d src.fmt old (permPick s ix src) fun _ xs => movedSide src.fmt xs

def execVext (d a : BitVec 5) (_x : BitVec 1) (b : BitVec 5) (s : State) : Out := deliver s do
  let g := s.st.grant
  let k := (s.x b).toNat
  let v ← if g = 0 then pure (2 ^ 63) else do
    let r ← readReg a
    let s ← get
    let w := (s.fmt r.fmt).wid
    if !r.holds (s.fmt r.fmt) g then raiseTrap tGRANT_WIDTH
    pure (if k < g then (r.seg (k / perSeg w)).bits w (k % perSeg w) else 2 ^ 63)
  setXM d (.ofNat 64 v)
  advanceM

/-- A segment with one code replaced; a UNW one becomes VAL with its other elements 0 (R155). -/
def Seg.insert (x : Seg) (w k c : Nat) : Seg :=
  if x.side.cls = cUNW then ⟨setLineSlot 0 w k c, mkSide x.side.org x.side.scl x.side.mix cVAL⟩
  else { x with data := setLineSlot (zeroPad w x.data) w k c }

def execVins (d a b : BitVec 5) (s : State) : Out := deliver s do
  let g := s.st.grant
  let k := (s.x b).toNat
  if g = 0 then advanceM
  else
    let r ← claimReg d
    let s ← get
    let w := (s.fmt r.fmt).wid
    if !r.holds (s.fmt r.fmt) g then raiseTrap tGRANT_WIDTH
    if k < g then modify (·.putReg d (r.setSeg (k / perSeg w) ((r.seg (k / perSeg w)).insert w (k % perSeg w) (s.x a).toNat)))
    advanceM

/-- The bitwise function of three codes given by a truth table (R153). -/
def lut3 (tt : BitVec 8) (a b c : Nat) : Nat → Nat
  | 0 => 0
  | n + 1 => (tt.getLsbD (4 * (a % 2) + 2 * (b % 2) + c % 2)).toNat + 2 * lut3 tt (a / 2) (b / 2) (c / 2) n

/-- The element that `vlut3` puts at position `e`. -/
def lutPick (tt : BitVec 8) (t : Strand) (w : Nat) (regs : List VReg) (e : Nat) : Option Moved :=
  if t.active e then some ⟨lut3 tt (srcAt regs w 0 e).code (srcAt regs w 1 e).code (srcAt regs w 2 e).code w, none, true⟩ else none

/-- The sidecar of segment `g` that `vlut3` writes: SCL and ORG of va's segment, CLS of its three source segments. A merged element keeps
its meaning only where its own scale agrees, else R154's TAG_FORMAT is raised (R153, R154; log 130). -/
def lutSide (regs : List VReg) (g : Nat) (xs : List Moved) : MovedSeg :=
  let sd := ((regs.getD 0 (.fresh 0)).seg g).side
  if (xs.filterMap (·.side)).any fun b => b.scl != sd.scl then .clash
  else .takes (mkSide sd.org sd.scl false (if regs.any fun r => (r.seg g).side.cls == cRAW then cRAW else cVAL))

def execVlut3 (d a : BitVec 5) (_x : BitVec 1) (b : BitVec 5) (_y : BitVec 1) (t : BitVec 8) (s : State) : Out := deliver s do
  let (regs, old) ← issueMove d [a, b, s.st.fourth d]
  let s ← get
  if s.st.grant = 0 then advanceM
  else
    let fi := (regs.getD 0 (.fresh 0)).fmt
    commitMoved d fi old (lutPick t s.st (s.fmt fi).wid regs) (lutSide regs)

/-! ### Masks (R156) -/

/-- A mask instruction that writes the bits below the grant. -/
def State.maskOp (s : State) (d : BitVec 3) (bits : Nat → Bool) : Out := .next ({ s with st := s.st.putMask d bits } : State).advance

def execMand (d a b : BitVec 3) (s : State) : Out := s.maskOp d fun e => s.st.maskBit a e && s.st.maskBit b e
def execMor (d a b : BitVec 3) (s : State) : Out := s.maskOp d fun e => s.st.maskBit a e || s.st.maskBit b e
def execMxor (d a b : BitVec 3) (s : State) : Out := s.maskOp d fun e => s.st.maskBit a e != s.st.maskBit b e
def execMandn (d a b : BitVec 3) (s : State) : Out := s.maskOp d fun e => s.st.maskBit a e && !s.st.maskBit b e
def execMpopc (d : BitVec 5) (a : BitVec 3) (s : State) : Out :=
  s.result d (.ofNat 64 ((List.range s.st.grant).filter (s.st.maskBit a)).length)
def execMfirst (d : BitVec 5) (a : BitVec 3) (s : State) : Out :=
  s.result d (match (List.range s.st.grant).find? (s.st.maskBit a) with
    | some e => .ofNat 64 e
    | none => BitVec.allOnes 64)
def execMset (d : BitVec 3) (a : BitVec 5) (s : State) : Out := s.maskOp d fun e => decide (e < (s.x a).toNat)

/-! ### Reductions and scans (R157 to R159) -/

/-- The identity of a reduction as a value of the compute format (Table 08.4). -/
def redIdentity (o : Nat) (cf : Fmt) : Val :=
  match cf.kind with
  | .float =>
    match o with
    | 0 => .fin true 0 0
    | 1 => if cf.hasInf then .inf false else cf.maxVal
    | 2 => if cf.hasInf then .inf true else cf.maxVal.negate
    | _ => .zero
  | _ =>
    let top : Int := (2 ^ (cf.wid - 1) : Nat)
    match o with
    | 1 => .ofInt (top - 1)
    | 2 => .ofInt (-top)
    | 4 => .ofInt (-1)
    | _ => .zero

/-- An integer result of W bits as a value. -/
def wrapVal (w : Nat) (n : Int) : Val := ((⟨.int, false, 0, w, 0, 0, 0⟩ : Fmt).decode true (intCode w n)).1

/-- One node of the tree (Table 08.4), rounded to the compute format with its draw; `.amax` takes a number over a NaN, as `vmax` (log 157). -/
def redNode (o : Nat) (cf : Fmt) (rm : RMode) (d : BitVec 32) (a b : Val) : Val × BitVec 8 :=
  match cf.kind with
  | .float =>
    match o with
    | 0 =>
      let (c, f) := delivered cf rm d (a.add (rm == .rdn) b)
      ((cf.decode false c).1, f)
    | 1 => (a.min b, 0)
    | _ => (a.max b, 0)
  | _ =>
    let w := cf.wid
    let x := a.toInt
    let y := b.toInt
    match o with
    | 0 => (wrapVal w (x + y), 0)
    | 1 => (.ofInt (Min.min x y), 0)
    | 4 => (wrapVal w ((intCode w x &&& intCode w y : Nat)), 0)
    | 5 => (wrapVal w ((intCode w x ||| intCode w y : Nat)), 0)
    | 6 => (wrapVal w ((intCode w x ^^^ intCode w y : Nat)), 0)
    | _ => (.ofInt (Max.max x y), 0)

/-- The leaf of an active element from its value in the compute format: its magnitude under `.amax` (Table 08.4). -/
def redLeaf (o : Nat) (cf : Fmt) (v : Val) : Val × BitVec 8 :=
  if o ≠ 3 then (v, 0)
  else match cf.kind with
    | .float => (v.abs, 0)
    | _ =>
      let (n, f) := satNv cf.wid v.toInt.natAbs
      (.ofInt n, f)

/-- One level of the tree: pairs in ascending order, each drawing one step where asked; values come out in order. -/
def redLevel (o : Nat) (cf : Fmt) (rm : RMode) (draws : Bool) : List Val → BitVec 32 → List Val × BitVec 32 × BitVec 8
  | a :: b :: r, seed =>
    let seed := if draws then seedStep seed else seed
    let (v, f) := redNode o cf rm seed a b
    let (vs, seed, f₂) := redLevel o cf rm draws r seed
    (v :: vs, seed, f ||| f₂)
  | _, seed => ([], seed, 0)

/-- `k` levels of the tree, down to its root (R158). -/
def redTree (o : Nat) (cf : Fmt) (rm : RMode) (draws : Bool) : Nat → List Val → BitVec 32 → Val × BitVec 32 × BitVec 8
  | 0, vs, seed => (vs.headD .zero, seed, 0)
  | k + 1, vs, seed =>
    let (vs, seed, f) := redLevel o cf rm draws vs seed
    let (v, seed, f₂) := redTree o cf rm draws k vs seed
    (v, seed, f ||| f₂)

/-- The levels of the tree of a grant: P = 2^k is the smallest power of two not below it. -/
def treeLevels (g : Nat) : Nat := if g ≤ 1 then 0 else (g - 1).log2 + 1

/-- The leaves below the grant, identities for inactive ones, with the generator after their draws and their flags. -/
def redLeaves (o : Nat) (cf : Fmt) (t : Strand) (draws : Bool) (x : Nat → BitVec 32 → Val × BitVec 8) : List Val × BitVec 32 × BitVec 8 :=
  let (vs, seed, f) := (List.range t.grant).foldl (fun (vs, seed, f) e =>
    if t.active e then
      let seed := if draws then seedStep seed else seed
      let (v, f₁) := x e seed
      let (v, f₂) := redLeaf o cf v
      (v :: vs, seed, f ||| f₁ ||| f₂)
    else (redIdentity o cf :: vs, seed, f)) (([] : List Val), t.seed, (0 : BitVec 8))
  (vs.reverse, seed, f)

/-- Leaves extended with identities to the width of the tree. -/
def padLeaves (o : Nat) (cf : Fmt) (g : Nat) (vs : List Val) : List Val := vs ++ List.replicate (2 ^ treeLevels g - vs.length) (redIdentity o cf)

/-- The code of a tree's root. -/
def rootCode (cf : Fmt) (v : Val) : Nat := (cf.convert .rtz 0 v).1

/-- Issue of `vred` and `vscan`; `vred` merges nothing (R157, R158). -/
def issueRed (d a : BitVec 5) (o : Nat) (merging : Bool) : M (VReg × Prick) := do
  let s ← get
  let g := s.st.grant
  let src ← if g = 0 then pure (s.st.reg (s.st.phys a)) else readReg a
  let old ← if g = 0 then pure (s.st.reg (s.st.phys d)) else claimReg d
  let p := s.core.prick [src.fmt]
  if merging then widthAndClass [src] old p.cf
  else if g ≠ 0 then
    if !src.holds (s.fmt src.fmt) g || !old.holds (s.fmt p.cf) g then raiseTrap tGRANT_WIDTH
    if src.rawBelow (s.fmt src.fmt) g then raiseTrap tTAG_CLASS
  if (!p.al && p.trp) || ((s.fmt p.cf).kind == .float && decide (4 ≤ o)) then raiseTrap tFORBIDDEN_PAIR
  return (src, p)

/-- The result of `vred` from its source and the outcome of the table: element 0 the root, the others 0 (R157, R158). With AL = 0 and
TRP = 0 the leaves are converted and the tree draws as ever, and the root is NaN (log 51). -/
def redAcc (o : Nat) (s : State) (src : VReg) (p : Prick) : Acc :=
  let g := s.st.grant
  let cf := s.fmt p.cf
  let rm := s.st.mode
  let draws := rm == .sr
  let (vs, seed, f) := redLeaves o cf s.st draws fun e seed => src.operand (s.fmt src.fmt) cf (p.rule != 2) rm seed e
  let (v, seed, f₂) := redTree o cf rm draws (treeLevels g) (padLeaves o cf g vs) seed
  let zeros := List.replicate (g - 1) 0
  if p.al then ⟨seed, f ||| f₂, zeros ++ [rootCode cf v], false⟩
  else ⟨seed, f ||| fNV, zeros ++ [(nanFor cf).1], false⟩

def execVred (d a : BitVec 5) (_x : BitVec 1) (o : BitVec 4) (s : State) : Out := deliver s do
  let (src, p) ← issueRed d a o.toNat false
  let s ← get
  if s.st.grant = 0 then advanceM
  else commitV d p.cf (redAcc o.toNat s src p) fun _ => mkSide p.cf 127 false cVAL

/-- The result of `vscan` (R159): element `e` is the reduction of the elements up to it. -/
def scanAcc (d : BitVec 5) (o : Nat) (s : State) (src : VReg) (p : Prick) : Acc :=
  let g := s.st.grant
  let cf := s.fmt p.cf
  let rm := s.st.mode
  let draws := rm == .sr
  let old := s.st.reg (s.st.phys d)
  let (vs, seed, f) := redLeaves o cf s.st draws fun e seed => src.operand (s.fmt src.fmt) cf (p.rule != 2) rm seed e
  let nodeRm := if rm == .sr then RMode.rne else rm
  let prefixAt (e : Nat) : Val × BitVec 8 :=
    let (v, _, f₂) := redTree o cf nodeRm false (treeLevels g) (padLeaves o cf g (vs.take (e + 1))) 0
    (v, f₂)
  let elem (e : Nat) (_ : BitVec 32) : Nat × BitVec 8 :=
    if p.al then
      let (v, f₂) := prefixAt e
      (rootCode cf v, f ||| f₂)
    else ((nanFor cf).1, f ||| fNV)
  let acc := elements s.st false elem (mergeCode old (s.fmt old.fmt) cf p.cf 127)
  { acc with seed := seed }

def execVscan (d a : BitVec 5) (_x : BitVec 1) (o : BitVec 4) (s : State) : Out := deliver s do
  let (src, p) ← issueRed d a o.toNat true
  let s ← get
  if s.st.grant = 0 then advanceM
  else commitV d p.cf (scanAcc d o.toNat s src p) fun _ => mkSide p.cf 127 false cVAL

/-! ### The deferral queue (R160 to R164) -/

/-- Entries one X-hart may hold (R160). -/
def Core.dfrRoom (c : Core) : Nat :=
  match c.gang with
  | some g => g.dfrUnits * 1024 / g.h
  | none => 0

/-- The entries of a path, oldest first. -/
def Strand.dfrPath (t : Strand) (p : BitVec 8) : List DfrEntry := t.dfr.filter (·.path == p)

/-- The signature of a path, if it holds entries. -/
def Strand.dfrSigOf (t : Strand) (p : BitVec 8) : Option (List (BitVec 4)) := (t.dfrSig.find? fun x => x.1 == p).map (·.2)

/-- The value code of an element as an entry keeps it (R162). -/
def VReg.dfrVal (r : VReg) (w e : Nat) : DfrVal :=
  let s := r.seg (e / perSeg w)
  ⟨s.code w (e % perSeg w), s.side.scl, if s.side.cls = cUNW then cVAL else s.side.cls⟩

/-- The registers of a deferral instruction from `v` on. -/
def dfrNames (v : BitVec 5) (n : Nat) : List (BitVec 5) := (List.range n).map fun i => v + BitVec.ofNat 5 i

/-- The entries that `dfr.push` makes of the active elements, in ascending order (R161, R162). -/
def dfrEntries (s : State) (p : BitVec 8) (m : BitVec 3) (regs : List VReg) : List DfrEntry :=
  ((List.range s.st.grant).filter (s.st.maskBit m)).map fun e => ⟨p, e, regs.map fun r => r.dfrVal (s.fmt r.fmt).wid e⟩

/-- The state with entries added to a path; the first of a path fix its signature (R161). -/
def State.dfrAdd (s : State) (p : BitVec 8) (fmts : List (BitVec 4)) (new : List DfrEntry) : State :=
  let sig := if new = [] ∨ (s.st.dfrSigOf p).isSome = true then s.st.dfrSig else s.st.dfrSig ++ [(p, fmts)]
  { s with st := { s.st with dfr := s.st.dfr ++ new, dfrSig := sig } }

def execDfrPush (p : BitVec 8) (v : BitVec 5) (n : BitVec 2) (m : BitVec 3) (s : State) : Out := deliver s do
  let g := s.st.grant
  if g = 0 then advanceM
  else
    let regs ← (dfrNames v (n.toNat + 1)).mapM readReg
    let s ← get
    if regs.any fun r => !r.holds (s.fmt r.fmt) g then raiseTrap tGRANT_WIDTH
    let fmts := regs.map (·.fmt)
    if (s.st.dfrSigOf p).any (· != fmts) then raiseTrap tTAG_FORMAT
    let new := dfrEntries s p m regs
    if s.core.dfrRoom < s.st.dfr.length + new.length then stop (.trap tDEFER_FULL (p.setWidth 32) 0 0)
    modify (·.dfrAdd p fmts new)
    advanceM

/-- A list without the first `k` entries of a path. -/
def dfrDrop (p : BitVec 8) : Nat → List DfrEntry → List DfrEntry
  | 0, es => es
  | _, [] => []
  | k + 1, x :: r => if x.path = p then dfrDrop p k r else x :: dfrDrop p (k + 1) r

/-- The format that value register `i` of a pop takes: the path's, or its own where the path is empty (R163). -/
def dfrFmt (s : State) (p : BitVec 8) (olds : List VReg) (i : Nat) : BitVec 4 :=
  (((s.st.dfrSigOf p).getD [])[i]?).getD (olds.getD i (.fresh 0)).fmt

/-- One value of a pop: the entry's code as it is, or where the scales of its segment fold the value (R163). -/
def dfrOne (ft : BitVec 4 → Fmt) (fi : BitVec 4) (p : FillSeg) (x : FillEl) : Option (Nat × BitVec 8) :=
  if p.fold && !p.raw then fillOne ft fi none p 0 x else some (x.code, 0)

/-- What value register `i` of a pop takes from the entries, position by position, each segment tagged as R52 tags one from lines
(R163). -/
def dfrFill (s : State) (p : BitVec 8) (olds : List VReg) (got : List DfrEntry) (i : Nat) : FillRes :=
  let fi := dfrFmt s p olds i
  let n := perSeg (s.fmt fi).wid
  let els : List (Option FillEl) := (List.range s.st.grant).map fun j => (got[j]?).map fun x =>
    let y := x.vals.getD i ⟨0, 127, 0⟩
    ⟨y.code, fi, y.scl, y.cls⟩
  let plan (g : Nat) : FillSeg := fillPlan fi (((els.drop (g * n)).take n).filterMap id)
  let outs := els.zipIdx.map fun (x, j) => x.elim (some (0, (0 : BitVec 8))) (dfrOne s.fmt fi (plan (j / n)))
  ⟨outs.map fun o => o.elim 0 (·.1), (List.range (segsBelow s.st.grant (s.fmt fi).wid)).map fun g => (plan g).side,
    outs.foldl (fun f o => f ||| o.elim 0 (·.2)) 0, s.st.seed, outs.findIdx? (·.isNone)⟩

/-- The index register of a pop: the element numbers, then zeros (R163). -/
def dfrIndex (s : State) (ix : VReg) (got : List DfrEntry) : VReg :=
  ix.write 11 (s.fmt 11).wid (got.map (·.elem) ++ List.replicate (s.st.grant - got.length) 0) fun _ => mkSide 11 127 false cVAL

/-- The state with the registers of a pop written. -/
def State.dfrPut (s : State) (p : BitVec 8) (v : BitVec 5) (names : List (BitVec 5)) (ix : VReg) (olds : List VReg) (got : List DfrEntry) : State :=
  ((names.zip olds).zipIdx).foldl (fun t ((r, old), i) =>
    t.putReg r (old.filled (dfrFmt s p olds i) (s.fmt (dfrFmt s p olds i)).wid (dfrFill s p olds got i))) (s.putReg v (dfrIndex s ix got))

/-- The state with the first `k` entries of a path gone and the mask written (R163). -/
def State.dfrTake (s : State) (p : BitVec 8) (m : BitVec 3) (k : Nat) : State :=
  let dfr := dfrDrop p k s.st.dfr
  let t := if m = 0 then s.st else s.st.putMask m fun e => decide (e < k)
  { s with st := { t with dfr := dfr,
                          dfrSig := if dfr.any (·.path == p) then t.dfrSig else t.dfrSig.filter (·.1 != p) } }

def execDfrPop (p : BitVec 8) (v : BitVec 5) (n : BitVec 2) (m : BitVec 3) (s : State) : Out := deliver s do
  let g := s.st.grant
  if g = 0 then advanceM
  else
    let N := n.toNat + 1
    let names := dfrNames (v + 1) N
    let ix ← claimReg v
    let olds ← names.mapM claimReg
    let s ← get
    if !ix.holds (s.fmt 11) g || (List.range N).any fun i => !(olds.getD i (.fresh 0)).holds (s.fmt (dfrFmt s p olds i)) g then
      raiseTrap tGRANT_WIDTH
    if (s.st.dfrSigOf p).any (·.length != N) then raiseTrap tTAG_FORMAT
    let got := (s.st.dfrPath p).take g
    let fills := (List.range N).map (dfrFill s p olds got)
    if fills.any fun x => x.bad.isSome then raiseTrap tTAG_FORMAT
    raiseFlags (fills.foldl (fun f x => f ||| x.flags) 0)
    modify fun t => (t.dfrPut p v names ix olds got).dfrTake p m got.length
    advanceM

def execDfrCnt (p : BitVec 8) (x : BitVec 5) (s : State) : Out := s.result x (.ofNat 64 (s.st.dfrPath p).length)

/-! ### Tagged queues (R165 to R167, R194 to R196) -/

/-- A queue of the core. -/
def Core.queue (c : Core) (q : BitVec 3) : TQueue := c.queues[q.toNat]'(q.isLt)

/-- The state with a queue replaced. -/
def State.setQueue (s : State) (q : BitVec 3) (x : TQueue) : State :=
  { s with core := { s.core with queues := s.core.queues.set q.toNat x q.isLt } }

/-- The elements of a queue from the head on, each with its tag and recorded address. -/
def TQueue.elements (q : TQueue) : List (Nat × Tag × Word) := q.slots.flatMap fun x => x.codes.map fun c => (c, x.tag, x.addr)

/-- Slots without their first `g` elements (R195). -/
def dropElems : Nat → List QSlot → List QSlot
  | _, [] => []
  | g, x :: r => if x.codes.length ≤ g then dropElems (g - x.codes.length) r else { x with codes := x.codes.drop g } :: r

/-- The queue bound for a push or a pop of the acting strand; another strand's queue raises QUEUE_BINDING (R194). -/
def bindQueue (q : BitVec 3) (push : Bool) : M TQueue := do
  let s ← get
  let x := s.core.queue q
  let me := s.st.slot
  match if push then x.producer else x.consumer with
  | some n => if n ≠ me then stop (.trap tQUEUE_BINDING (q.setWidth 32) 0 0) else return x
  | none =>
    return if push then { x with producer := some me, consumer := s.st.partner } else { x with consumer := some me, producer := s.st.partner }

/-- Whether a bound strand has ended (R196). -/
def State.hasEnded (s : State) (n : Option Nat) : Bool :=
  match n with
  | none => false
  | some k => match s.strandAt k with
    | some t => t.run == .ended
    | none => true

/-- The queue bound for a push of `n` slots, once there is room for all of them (R194 to R196). -/
def claimQueue (q : BitVec 3) (n : Nat) : M TQueue := do
  let x ← bindQueue q true
  let s ← get
  if 256 < x.slots.length + n then
    if s.hasEnded x.consumer then stop (.trap tQUEUE_SHORT (q.setWidth 32) 0 0) else stop .wait
  return x

/-- Slots appended to a queue, once there is room for all (R195, R196). -/
def pushQueue (q : BitVec 3) (new : List QSlot) : M Unit := do
  let x ← claimQueue q new.length
  modify (·.setQueue q { x with slots := x.slots ++ new })

/-- The first `g` elements of a queue, once they are there (R195, R196). -/
def headQueue (q : BitVec 3) (g : Nat) : M (TQueue × List (Nat × Tag × Word)) := do
  let x ← bindQueue q false
  let s ← get
  if x.count < g then
    if x.slots.length = 256 || s.hasEnded x.producer then stop (.trap tQUEUE_SHORT (q.setWidth 32) 0 0) else stop .wait
  return (x, x.elements.take g)

/-- The DPA of an address under the strand's translation, 0 where there is none. -/
def State.dpaOf (s : State) (va : Word) : Nat :=
  match s.dev.translate s.via nLoad va with
  | .ok (some (tr, _)) => tr.dpa
  | _ => 0

/-- A zero grant binds no queue (log 161). -/
def execQpop (d : BitVec 5) (q : BitVec 3) (s : State) : Out := deliver s do
  let g := s.st.grant
  if g = 0 then advanceM
  else
    let old ← claimReg d
    let s ← get
    if !old.holds (s.fmt old.fmt) g then raiseTrap tGRANT_WIDTH
    let (x, els) ← headQueue q g
    match (List.range g).find? (fun i => (els.getD i (0, 0, 0)).2.1.cls == cPOI) with
    | some i =>
      let va := (els.getD i (0, 0, 0)).2.2
      faultAt nLoad.kind va (fltPoison i (s.dpaOf va))
    | none => pure ()
    match els.find? (fun y => y.2.1.cls == cINV) with
    | some y => stop (.trap tTAG_CLASS 0 y.2.2 0)
    | none => pure ()
    let r := fill s.fmt old.fmt s.st.decoMode s.st.seed (els.map fun y => some ⟨y.1, y.2.1.fmt, y.2.1.scl, y.2.1.cls⟩)
    match r.bad with
    | some i => stop (.trap tTAG_FORMAT 0 (els.getD i (0, 0, 0)).2.2 0)
    | none => pure ()
    raiseFlags r.flags
    modify fun s => (s.setQueue q { x with slots := dropElems g x.slots }).putReg d (old.filled old.fmt (s.fmt old.fmt).wid r)
    modify fun s => { s with st := { s.st with seed := r.seed } }
    advanceM

/-- The lines that `qpush` makes of a register: one for each segment below the grant (R167). -/
def VReg.lines (r : VReg) (w g : Nat) : List QSlot :=
  (List.range (segsBelow g w)).map fun k =>
    let s := r.seg k
    ⟨(List.range (Nat.min (perSeg w) (g - k * perSeg w))).map (s.code w), mkTag r.fmt s.side.scl s.side.cls 0, 0⟩

/-- A zero grant binds no queue (log 161). -/
def execQpush (v : BitVec 5) (q : BitVec 3) (s : State) : Out := deliver s do
  let g := s.st.grant
  if g = 0 then advanceM
  else
    let r ← readReg v
    let s ← get
    if !r.holds (s.fmt r.fmt) g then raiseTrap tGRANT_WIDTH
    pushQueue q (r.lines (s.fmt r.fmt).wid g)
    advanceM

end Sys2Proof.Machine
end

