-- ==== Sys2Proof/Machine/Gangs.lean ====
section
/-! DEFINITION. The start and the end of a gang (R71, R189, R190, R246, R249, R289, R296 to R298), and the diversion of a CC
after a hart's trap (R199). -/

namespace Sys2Proof.Machine

/-! ### Gang end -/

/-- Units of an outgoing gang as the next gang finds them: inherited, with the batches of its strands renumbered, or emptied
(R246, R249, R298). -/
def Core.passUnits (c : Core) (inherit : Bool) : Core :=
  if inherit then
    let age (w : Nat) : Nat := if w % 32 = 17 then w else w + 32
    { c with
      batches := c.batches.map fun b => { b with who := age b.who }
      copies := c.copies.map fun k => { k with who := age k.who }
      cmdq := c.cmdq.map fun q => q.map fun b => { b with who := age b.who } }
  else
    { c with
      batches := []
      copies := []
      cmdq := .replicate 4 []
      bobbin := .idle
      watch := .replicate 16 ⟨0, 0, 0, []⟩
      knots := .replicate 32 0
      evq := []
      evHeld := c.evHeld.filter (·.outer)
      shSeed := 1
      engKinds := 0
      engAhead := .replicate 4 0 }

/-- A core whose gang is gone: the CC idle, no hart, no queue (R125, R160, R169, R190). -/
def Core.noGang (c : Core) : Core :=
  { c with gang := none, handler := none, parkedCc := none, userLoops := ([], 0), queues := .replicate 8 ⟨[], none, none⟩,
           strands := (c.strands.filter (·.slot == 0)).map Strand.ended }

/-- Whether the core's next item is a tuple of its gang's own context, which inherits its units (R298). -/
def State.inherits (s : State) : Bool :=
  match s.core.assigned, s.core.gang with
  | some w, some g => w.saved.isNone && (s.dev.launch w.part w.launch).any fun l => l.ctx == g.ctx
  | _, _ => false

/-- Whether the core's gang can end now: its strands and the units it waits for are done, and the next item is chosen
(R190, R297). -/
def State.gangOver (s : State) : Bool :=
  let c := s.wholeCore
  c.atSwap && !(s.backWaits fun f => !s.core.inLazy f) && (s.inherits || (c.unitsIdle && (c.assigned.isSome || (s.dev.bestFor c.num).isNone)))

/-- The gang ends (R190, R296 to R298). -/
def execGangEnd (s : State) : Out :=
  .next (match s.core.gang with
    | none => s
    | some g =>
      if !s.gangOver then s
      else
        let inh := s.inherits
        let s := s.flushFar (fun f => !s.core.inLazy f) false
        let d := s.wholeCore.discards inh
        let s := s.onCore fun dv c => (dv.withdraw c.num fun _ => true, { (c.passUnits inh).noGang with inherit := if inh then some g.ctx else none })
        s.reportEnd s.core.num g d)

/-! ### Gang start -/

/-- The trap frames of a fresh gang: zero, their lines RAW (R197). -/
def Memory.clearFrames (m : Memory) : Memory :=
  (List.range 16).foldl (fun m i => (m.setLine (frameOff 0 + 128 * i) 0).setTag (frameOff 0 + 128 * i) 0x0017F0) m

/-- A strand at gang start, with the hart pairs that the record asks for (R71, R186, R189, R291; log 136): an entry of 0 leaves it ended. -/
def startStrand (k : StrandKind) (i segs : Nat) (entry : Word) (iter h : Nat) (tuple : List Nat) : Strand :=
  let t := Strand.fresh k i segs entry
  let t := { t with
    xr := Vector.ofFn fun j : Fin 32 => if 10 ≤ j.val ∧ j.val ≤ 15 then .ofNat 64 (tuple.getD (j.val - 10) 0) else 0
    seed := seedStore (.ofNat 32 (iter * 16 + (match k with
      | .execute => 8 + i
      | _ => i)))
    bcount := .ofNat 16 (iter * h + i) }
  if entry = 0 then t.ended else t

/-- The units as a gang of a context finds them at its start: inherited, or with the gang-start values of R233, R246 and R249; what another
context would have inherited is gone (R298). -/
def Core.startUnits (c : Core) (ctx : Nat) : Core :=
  if c.inherit = some ctx then { c with inherit := none }
  else
    let c := if c.inherit.isSome then c.passUnits false else c
    { c with watch := .replicate 16 ⟨0, 0, 0, []⟩, knots := .replicate 32 0, shSeed := 1, inherit := none,
             bobbin := if c.bobbin.run.isSome then c.bobbin else { c.bobbin with nest := none, nestNo := 0 } }

/-- A gang and its strands for a tuple of a launch. -/
def Core.startGang (c : Core) (x : Ctx) (l : Launch) (w : WorkItem) (stamp : Nat) : Core :=
  let c := c.startUnits x.id
  let h := 2 ^ l.lgh
  let H := 2 ^ lnrF l.lnr 725 3
  let segs := (if c.laneHalf then 48 else 96) / h
  let iter := iterOf (lnrCounts l.lnr) w.tuple
  let e (k : Nat) : Word := l.lnr.extractLsb' (64 * k) 64
  let harts := (List.range h).map (fun i => startStrand .access i segs (e 1) iter H w.tuple)
    ++ (List.range h).map fun i => startStrand .execute i segs (e 2) iter H w.tuple
  { c with
    dbgHalt := [], dbgStep := []
    gang := some ⟨x.id, x.part, l.id, iter, w.tuple, h, H, segs, e 3, e 0, e 1, e 2, lnrF l.lnr 736 13, lnrF l.lnr 749 5, 0, 0, false, false, false,
      none, stamp⟩
    handler := none
    strands := startStrand .cc 0 0 (e 0) iter H w.tuple :: harts
    ft := x.ft
    pk := x.pk
    baste := x.baste
    bbuf := x.bbuf
    bheadLag := 0
    spad := c.spad.clearFrames
    assigned := none }

/-- An assigned item dropped before it ran; units that its gang would have inherited are emptied (R298, R320). -/
def State.dropItem (s : State) : State :=
  let c := if s.core.inherit.isSome then s.core.passUnits false else s.core
  { s with core := { c with assigned := none, inherit := none } }

/-- The same, with one gang of its launch less running. -/
def State.dropGang (s : State) (w : WorkItem) : State :=
  let s := s.dropItem
  { s with dev := s.dev.updLaunch w.part w.launch fun l => { l with running := l.running - 1 } }

/-- A gang starts for the tuple that a walker handed to this core, which acts as `fence.dev ld` (R189, R296). An item whose
launch or context is gone is dropped. -/
def execGangStart (s : State) : Out :=
  .next (match s.core.assigned with
    | none => s
    | some w =>
      if s.core.gang.isSome || s.core.resident || s.core.halted || 2 ≤ s.core.pwr.toNat || w.saved.isSome then s
      else
        match s.dev.launch w.part w.launch with
        | none => s.dropItem
        | some l =>
          match s.dev.ctx l.ctx with
          | none => s.dropGang w
          | some x =>
            if x.dead ∨ 3 ≤ l.state then s.dropGang w
            else if s.backWaits fun f => !s.core.inLazy f then s
            else
              let s := s.ungated.fenceFar 3 true true
              let s := s.onCore fun d c => ({ d with starts := d.starts + 1 }, c.startGang x l w d.starts)
              if l.state = 1 then s.reportLaunch w.part w.launch fun l => { l with state := 2 } else s)

/-! ### Diversion and the resident level -/

def execTrapDiversion (s : State) : Out := .next s.divert
def execResidentEntry (s : State) : Out := .next s.residentEntry

end Sys2Proof.Machine
end

