-- ==== Sys2Proof/Machine/Resident.lean ====
section
/-! DEFINITION. The resident level (file 17): `eret`, `wfi`, `tlbi` (R314), fault records and `rpl` (R317 to R319), the resident
registers of Tables 17.8, 18.6 and 19.1 and of file 20 (R323, R324, R350, R385, R387, R389, R393), and `mig.dirty` (R333). -/

namespace Sys2Proof.Machine

/-! ### `eret`, `wfi` (R322) -/

def execEret (s : State) : Out := deliver s do
  onlyResident
  modify State.residentExit

def execWfi (s : State) : Out := deliver s do
  onlyResident
  if s.core.rpend &&& s.core.renab.extractLsb' 0 4 = 0 then stop .wait
  advanceM

/-! ### `tlbi` (R312 to R314) -/

/-- Whether a cached or held translation is one that `tlbi xa, xb` discards. KIND 2 and 3 take the contexts of the issuing core's
partition and the resident translations of its cores. -/
def State.tlbiHits (s : State) (va w : Word) (x : Xlat) : Bool :=
  let ctx := (w.extractLsb' 16 32).toNat
  let p := s.dev.partOfCore s.core.num
  match (w.extractLsb' 0 2).toNat with
  | 0 => x.ctx == ctx && x.base.toNat / 2 ^ levelShift x.lv == va.toNat % 2 ^ 64 / 2 ^ levelShift x.lv
  | 1 => x.ctx == ctx
  | _ => if x.ctx < 4096 then s.dev.partOfCtx x.ctx == p else s.dev.partOfCore (x.ctx - 4096) == p

/-- A copy that drops its discarded translations where it is parked. -/
def Copy.drop (k : Copy) (hit : Xlat → Bool) : Copy := { k with xl := k.xl.filter fun x => !hit x }

/-- The DPA page that an address under a translation lies in first. -/
def Xlat.page (x : Xlat) : Nat := rmPage (pteFrame x.pte + x.base.toNat % 2 ^ levelShift x.lv)

/-- The device without the cached translations that `hit` names, and without the remap entries of their pages (R314, R349). -/
def Dev.discard (d : Dev) (hit : Xlat → Bool) : Dev :=
  let gone := (d.tlb.filter hit).map Xlat.page
  { d with tlb := d.tlb.filter fun x => !hit x, rmCache := d.rmCache.filter fun e => !gone.contains e.1 }

/-- The state without the translations that `hit` names; with `wait`, parked commands and those of saved gangs drop them
too. -/
def State.discard (s : State) (hit : Xlat → Bool) (wait : Bool) : State :=
  let s := { s with dev := s.dev.discard hit }
  if wait then
    let s := s.onAllCores fun d c => (d, { c with copies := c.copies.map fun k => if k.parked.isSome then k.drop hit else k })
    let park (g : SavedGang) : SavedGang := { g with body := { g.body with
      copies := g.body.copies.map fun k => k.drop hit
      cmdq := g.body.cmdq.map fun q => q.map fun b => { b with xl := b.xl.filter fun x => !hit x } } }
    { s with dev := { s.dev with saved := s.dev.saved.map park } }
  else s

/-- Whether a command of a core that is neither retired nor parked holds a discarded translation. -/
def Core.holdsAny (c : Core) (hit : Xlat → Bool) : Bool :=
  c.copies.any (fun k => k.parked.isNone && k.xl.any hit) || c.cmdq.any fun q => q.any fun b => b.xl.any hit

def execTlbi (a b : BitVec 5) (s : State) : Out :=
  if s.atResident = false then deliver s onlyResident
  else
    let hit := s.tlbiHits (s.x a) (s.x b)
    let wait := (s.x b).getLsbD 2
    let t := (s.fenceFar 3 false true).discard hit wait
    if s.fenceWaits 3 false true then .next s.await
    else if wait && t.allCores.any (·.holdsAny hit) then .next t.await
    else .next t.advance

/-! ### Fault records (R316, R317) -/

/-- The 64 bytes of a record with its SEQ (Table 17.6). -/
def FaultRec.bits (r : FaultRec) (seq : Word) : BitVec 512 :=
  r.va ++ r.pc ++ r.info ++ r.handle ++ r.ctx ++ r.core ++ r.dev ++ r.who ++ r.engine ++ r.kind ++ r.code ++ r.cls ++ r.dpa
    ++ (0 : BitVec 64) ++ seq

/-- Records the buffer of a partition can hold (R317). -/
def Part.slots (p : Part) : Nat := 2 ^ (p.fbase.toNat % 32)

/-- Whether the buffer can take a record: it has a base and is not full (R317, R324). -/
def Part.roomy (p : Part) : Bool := p.fbase.toNat / 4096 != 0 && decide ((p.fhead - p.ftail).toNat < p.slots)

/-- The DPA of the record that comes next. -/
def Part.next (p : Part) : Nat := p.fbase.toNat / 4096 * 4096 + 64 * (p.fhead.toNat % p.slots)

/-- An event raised at a core, by its bit of `sr.rpend` (R322). -/
def Core.raise (c : Core) (bit : Nat) : Core := { c with rpend := c.rpend ||| .ofNat 4 (2 ^ bit) }

/-- The oldest held record of a partition is written, and FAULT raised at `sr.fsvc` (R317). -/
def execFaultRecordWrite (part : Nat) (s : State) : Out :=
  .next (match s.dev.part part with
    | none => s
    | some p =>
      match p.held with
      | [] => s
      | r :: rest =>
        let at_ := p.next
        if !p.roomy || s.dev.turningAt at_ then s
        else
          let d := s.dev.putRecord at_ 4 (r.bits (p.fhead + 1)).toNat
          let d := d.updPart part fun p => { p with held := rest, fhead := p.fhead + 1 }
          ({ s with dev := d } : State).updCoreAt p.fsvc.toNat (·.raise 0))

/-! ### Parties of faults (R318, R319) -/

/-- The state after `f` ran with strand `k` of core `n` acting, the turn back where it was. A gang in a container is the core
whose number is 4,096 + its stamp (log 11). -/
def State.inCore (s : State) (n k : Nat) (f : State → State) : State :=
  let home := s.core.num
  let slot := s.st.slot
  if s.coreNums.contains n then (f (s.focus n k)).focus home slot
  else
    match s.dev.saved.find? fun h => h.body.num == n && !h.out with
    | none => s
    | some g =>
      let u := f (({ s with dev := { s.dev with cores := putCore g.body s.dev.cores } } : State).focus n k)
      let u := u.focus home slot
      let body := u.dev.cores.find? (·.num == n)
      { u with dev := { u.dev with
          cores := u.dev.cores.filter (·.num != n)
          saved := u.dev.saved.map fun h => if h.body.num = n ∧ h.out = false then { h with body := body.getD h.body } else h } }

/-- The user trap FAULT_DELIVERED of a CC that parked before its core entered the resident level: it takes effect at the
`eret` (R199, R319, R322). -/
def Core.trapParked (c : Core) (info : BitVec 32) (addr : Word) : Core :=
  match c.gang with
  | none => c
  | some g =>
    let spad := c.spad.putRecord (frameOff 0) 5 (frameWords c.epc 0 tFAULT_DELIVERED info addr (g.trapSeq + 1))
    let c := { c with spad := spad, gang := some { g with trapSeq := g.trapSeq + 1 }, parkedCc := none }
    if g.tvec = 0 ∨ c.handler.isSome = true then c.terminate tFAULT_DELIVERED 0
    else { c with handler := some ⟨c.userLoops.1, c.userLoops.2⟩, userLoops := ([], 0), epc := g.tvec, estat := (c.estat ||| 2) &&& ~~~4 }

/-- A copy abandoned: its remaining positions count as landed, and its batch says so (R319). -/
def State.abandonCopy (s : State) (id : Nat) : State :=
  match s.core.copies.find? (·.id == id) with
  | none => s
  | some k =>
    let s := k.lines.foldl (fun s ln => s.markWatch k ln) s
    let s := s.updBatch (fun b => b.who == k.who && b.num == k.batch) fun b => { b with status := b.status ||| 4 }
    { s with core := { s.core with copies := s.core.copies.filter (·.id != id) } }

/-- The rest of the Bobbin's nest abandoned; copies it emitted go on. Its batch closes at once where 64 closed ones are not outstanding, and
otherwise waits as any close does (R244, R319). -/
def State.abandonNest (s : State) : State :=
  match s.core.bobbin.nest with
  | none => s
  | some n =>
    let no := s.core.bobbin.nestNo
    let s := s.updBatch (fun b => b.who == 17 && b.num == no) fun b => { b with status := b.status ||| 4 }
    let s := { s with core := { s.core with bobbin := { s.core.bobbin with parked := none, at_ := nestTotal n } } }
    if s.core.outstanding 17 < 64 then s.closeNest n else s

/-- Action 0: the party goes on (R319). -/
def State.resume (s : State) (h : Handle) : State :=
  match h.party with
  | .strand n k =>
    let s := s.inCore n k fun t => if t.st.slot = k ∧ t.st.run = .parked h.num then { t with st := { t.st with run := .running } } else t
    s.updCoreAt n fun c => if c.parkedCc = some h.num ∧ k = 0 then { c with parkedCc := none } else c
  | .copy n id => s.inCore n 0 fun t => t.updCopy id fun k => { k with parked := none }
  | .bobbin n => s.inCore n 0 fun t => { t with core := { t.core with bobbin := { t.core.bobbin with parked := none } } }
  | .writer n => s.updCoreAt n fun c =>
      { c with engWrites := c.engWrites.map fun w => if w.parked = some h.num then { w with parked := none } else w }
  | .recode no => { s with dev := { s.dev with
      recodes := s.dev.recodes.map fun r => if r.part = h.part ∧ r.no.toNat = no then { r with parked := none } else r } }
  | .install no => { s with dev := { s.dev with
      installs := s.dev.installs.map fun r => if r.part = h.part ∧ r.no.toNat = no then { r with parked := none } else r } }

/-- Action 1 (R319). Layer work has nothing to deliver to, and goes on (R355). -/
def State.handBack (s : State) (h : Handle) : State :=
  match h.party with
  | .strand n k =>
    let info : BitVec 32 := .ofNat 32 (h.frec.cls.toNat * 256 + h.frec.code.toNat)
    if k = 0 ∧ (s.coreAt n).any (·.resident) = true then s.inCore n 0 fun t => t.onCore fun d c => (d, c.trapParked info h.frec.va)
    else s.inCore n k fun t => if t.st.slot = k then t.takeTrap tFAULT_DELIVERED info h.frec.va 0 else t
  | .copy n id => s.inCore n 0 fun t => t.abandonCopy id
  | .bobbin n => s.inCore n 0 State.abandonNest
  | .writer n => s.updCoreAt n fun c => { c with engWrites := c.engWrites.filter (·.parked != some h.num) }
  | .recode _ => s.resume h
  | .install _ => s.resume h

/-- Whether a handle is layer work's, which runs on when its context is terminated (R320). -/
def Party.isLayer (p : Party) : Bool :=
  match p with
  | .recode _ => true
  | .install _ => true
  | _ => false

/-- A live handle answered (R319). -/
def State.answer (s : State) (h : Handle) (act : Nat) : State :=
  let s := { s with dev := { s.dev with handles := s.dev.handles.filter fun k => !(k.part == h.part && k.num == h.num) } }
  match act with
  | 0 => s.resume h
  | 1 => s.handBack h
  | _ => (if h.party.isLayer then s.resume h else s).terminateCtx h.frec.ctx.toNat

def execRpl (d a b : BitVec 5) (s : State) : Out := deliver s do
  onlyResident
  let p := s.dev.partOfCore s.core.num
  match s.dev.handles.find? fun h => h.part == p && h.num == ((s.x a).extractLsb' 0 32).toNat with
  | none => setXM d 1
  | some h =>
    modify fun t => t.answer h ((s.x b).extractLsb' 0 2).toNat
    setXM d 0
  advanceM

/-! ### Dirty bits (R333) -/

def execMigDirty (d a b : BitVec 5) (s : State) : Out := deliver s do
  onlyResident
  let base := (s.x a).toNat / 4194304 * 4194304
  let bits := (List.range 64).map fun i => (s.dev.rmLook (base + 65536 * i)).any rmDirty
  if !(s.x b).getLsbD 0 then
    modify fun t => { t with dev := (List.range 64).foldl (fun dv i =>
      if (dv.rmLook (base + 65536 * i)).isSome then dv.rmSet (base + 65536 * i) 86 1 0 else dv) t.dev }
  setXM d (.ofNat 64 (bits.foldr (fun x acc => 2 * acc + x.toNat) 0))
  advanceM

/-! ### Resident registers -/

/-- A value of the issuing core's partition, 0 where the core is in none. -/
def State.partVal (s : State) (f : Part → Word) : Word := (s.dev.part (s.dev.partOfCore s.core.num)).elim 0 f

/-- The state with the issuing core's partition changed. -/
def State.setPart (s : State) (f : Part → Part) : State := { s with dev := s.dev.updPart (s.dev.partOfCore s.core.num) f }

/-- A value of the context that `sr.ctxsel` names, 0 where there is none (R323). -/
def State.selVal (s : State) (f : Ctx → Word) : Word := (s.dev.ctx s.core.selCtx).elim 0 f

/-- The state with the selected context changed. -/
def State.setSel (s : State) (f : Ctx → Ctx) : State := { s with dev := s.dev.updCtx s.core.selCtx f }

/-- Whether a core has engine work started or queued, parked work included (R389). -/
def Core.working (c : Core) : Bool :=
  !c.copies.isEmpty || c.cmdq.any (fun q => !q.isEmpty) || c.bobbin.run.isSome || !c.engWrites.isEmpty

/-- IDLE of `sr.pctl` (R389). -/
def State.partIdle (s : State) (p : Nat) : Bool :=
  !(s.allCores.any fun c => c.gang.any (·.part == p) || (s.dev.partOfCore c.num == p && c.working)) &&
    !(s.dev.installs.any (·.part == p) || s.dev.recodes.any (·.part == p) || s.dev.swaps.any (·.part == p))

/-- The pool and the register of numbers 0x180 to 0x19F that belong to the pools, but for the three that R387, R389 and R393
take (log 20). -/
def poolReg (n : Nat) : Option (Nat × Nat) :=
  if 0x180 ≤ n ∧ n ≤ 0x19F ∧ n ≠ 0x190 ∧ n ≠ 0x191 ∧ n ≠ 0x192 then some ((n - 0x180) / 4, (n - 0x180) % 4) else none

/-- The value of a resident register (R323). -/
def State.readRes (s : State) (num : BitVec 12) : Word :=
  match num.toNat with
  | 0x100 => s.core.rvec
  | 0x101 => s.core.epc
  | 0x102 => s.core.estat
  | 0x103 => s.core.rpend.setWidth 64
  | 0x104 => s.core.renab
  | 0x105 => .ofNat 64 s.core.ctxId
  | 0x106 => s.selVal fun c => if c.dead then 0 else c.ptroot
  | 0x107 => s.core.rroot
  | 0x108 => s.core.ctxsel.setWidth 64
  | 0x110 => s.partVal (·.fbase)
  | 0x111 => s.partVal (·.fhead)
  | 0x112 => s.partVal (·.ftail)
  | 0x113 => s.partVal (·.fsvc)
  | 0x120 => s.selVal (·.ebrate)
  | 0x121 => s.selVal (·.ebceil)
  | 0x130 => s.partVal (·.dbg)
  | 0x140 => s.dev.cotab
  | 0x150 => s.core.temp.setWidth 64
  | 0x151 => s.core.ttrip.setWidth 64
  | 0x160 => s.dev.rmbase
  | 0x170 => s.dev.stage.setWidth 64
  | 0x171 => s.partVal (·.walw)
  | 0x172 => s.dev.heatcfg
  | 0x190 => s.dev.ptab
  | 0x191 => s.partVal fun p => .ofNat 64 (p.hold.toNat + 2 * (s.partIdle (s.dev.partOfCore s.core.num)).toNat)
  | 0x192 => s.core.pwr.setWidth 64
  | n =>
    if 0x200 ≤ n ∧ n < 0x240 then s.dev.config.extractLsb' (64 * (n - 0x200)) 64
    else match poolReg n with
      | some (k, 0) => s.dev.spbase[k]?.getD 0
      | some (k, 1) => s.dev.spstk[k]?.getD 0
      | some (k, 2) => s.dev.sptop[k]?.getD 0
      | some (k, _) => s.dev.spesc[k]?.getD 0
      | none => 0

/-! Writes with a behaviour of their own (R322, R323, R352, R362, R370, R389, R393). -/

/-- `sr.rpend`: ones clear. -/
def State.clearPending (s : State) (v : Word) : State :=
  { s with core := { s.core with rpend := s.core.rpend &&& ~~~(v.extractLsb' 0 4) } }

/-- `sr.ptroot` of the selected context: a value other than 0 creates it where it does not live, 0 terminates it (R320, R323). -/
def State.writeRoot (s : State) (v : Word) : State :=
  let c := s.core.selCtx
  if c = 0 then s
  else if v = 0 then (if s.dev.ctxLive c then s.terminateCtx c else s)
  else if s.dev.ctxLive c then { s with dev := s.dev.updCtx c fun x => { x with ptroot := v } }
  else { s with dev := { s.dev with
    ctxs := .fresh c (s.dev.partOfCore s.core.num) v :: s.dev.ctxs.filter (·.id != c) } }

/-- `sr.ring`: DOORBELL at the core named (R322). -/
def State.ring (s : State) (v : Word) : State := s.updCoreAt v.toNat (·.raise 3)

/-- A memory whose listed lines in some ranges of locations hold free values, and the count of those taken. -/
def Memory.lose (m : Memory) (rs : List (Nat × Nat)) (n : Nat) : Memory × Nat :=
  let hit := (m.cells.map fun c => c.1 / 128 * 128).eraseDups.filter fun a => rs.any fun (lo, hi) => decide (lo ≤ a) && decide (a < hi)
  (hit.zipIdx.foldl (fun m (a, i) => m.setLine a (Config.freeLine (n + i))) m, n + hit.length)

/-- `sr.stage`: every staged line goes first; pages left in a reserve that grew lose their data and have no entry any more (R352, Table
19.1; log 137). -/
def State.resizeStage (s : State) (v : Word) : State :=
  let old := s.dev
  let d := { old with staged := [], stage := if 12 < (v.extractLsb' 0 4).toNat then 12 else v.extractLsb' 0 4 }
  let rs := [0, 2, 3, 5].map fun k => ((32 + k) * 2 ^ 64 + d.stageBase k, (32 + k) * 2 ^ 64 + old.stageBase k)
  let (mem, free) := d.mem.lose rs d.free
  { s with dev := { d with mem := mem, free := free, rmCache := d.rmCache.filter fun e => (d.rmLook (65536 * e.1)).isSome } }

/-- `sr.walw`: the balance is set too (R362). -/
def Part.setAllowance (p : Part) (v : Word) : Part := { p with walw := v, balance := v.toNat }

/-- `sr.sptop` of a pool (R370). -/
def State.setTop (s : State) (pool : Nat) (v : Word) : State :=
  { s with dev := { s.dev with sptop := setPool s.dev.sptop pool v } }

/-- `sr.heatcfg` as a write stores it (Table 19.2). -/
def heatStore (v : Word) : Word :=
  let clamp (x lo hi : Nat) : Nat := if x < lo then lo else if hi < x then hi else x
  .ofNat 64 (clamp (v.toNat % 16) 4 12 + 256 * clamp (v.toNat / 256 % 32) 4 30 + 65536 * (v.toNat / 65536 % 2))

/-- `sr.fbase` as a write stores it (Table 17.8). -/
def fbaseStore (v : Word) : Word :=
  let n := v.toNat % 32
  .ofNat 64 (v.toNat / 4096 * 4096 + (if 6 ≤ n ∧ n ≤ 16 then n else 6))

/-- `sr.rmbase` as a write stores it (Table 18.7). -/
def rmbaseStore (v : Word) : Word := .ofNat 64 (v.toNat / 4096 * 4096 + Nat.min (v.toNat % 64) 40)

/-- THERMAL where the temperature is at or above the threshold (R322). -/
def Core.checkHeat (c : Core) : Core := if c.ttrip ≤ c.temp then c.raise 2 else c

/-- Whether a strand of the core is running (R393). -/
def Core.anyRunning (c : Core) : Bool := c.strands.any (·.run == .running)

/-- A power state that was requested entered, once no strand runs (R393, Table 20.5): caches are written back and emptied; for
off, what the core would lose is written back first. -/
def State.enterPower (s : State) : State :=
  if s.wholeCore.anyRunning || s.core.pwrReq = 0 || !s.core.dbgHalt.isEmpty || s.backWaits (fun _ => true) then s
  else if s.core.pwrReq = 3 && s.core.gang.isSome then { s with core := { s.core with pwrReq := 0 } }
  else
    let s := if s.core.pwrReq = 3 then s.onCore fun d c => convertLazy d c fun _ => true else s
    let s := s.flushFar (fun _ => true) true
    { s with core := { s.core with pwr := s.core.pwrReq, pwrReq := 0 } }

/-- `sr.pwr`: a request for retention or off; other values do nothing (R393). -/
def State.requestPower (s : State) (v : BitVec 2) : State :=
  let s := if v = 2 ∨ (v = 3 ∧ s.core.gang.isNone = true) then { s with core := { s.core with pwrReq := v } } else s
  s.enterPower

/-- The state with a resident register written (R323): a number that is not in the tables, and a read-only one, discards. -/
def State.writeRes (s : State) (num : BitVec 12) (v : Word) : State :=
  match num.toNat with
  | 0x100 => { s with core := { s.core with rvec := v &&& ~~~3 } }
  | 0x101 => { s with core := { s.core with epc := v } }
  | 0x102 => { s with core := { s.core with estat := v &&& 0xFF07 } }
  | 0x103 => s.clearPending v
  | 0x104 => { s with core := { s.core with renab := v &&& 0xF } }
  | 0x106 => s.writeRoot v
  | 0x107 => { s with core := { s.core with rroot := v } }
  | 0x108 => { s with core := { s.core with ctxsel := v.extractLsb' 0 12 } }
  | 0x110 => s.setPart fun p => { p with fbase := fbaseStore v }
  | 0x112 => s.setPart fun p => { p with ftail := v }
  | 0x113 => s.setPart fun p => { p with fsvc := v }
  | 0x120 => s.setSel fun c => { c with ebrate := v }
  | 0x121 => s.setSel fun c => { c with ebceil := v }
  | 0x122 => s.setSel fun c => { c with eb := v.extractLsb' 0 32 }
  | 0x130 => s.setPart fun p => { p with dbg := v &&& 1 }
  | 0x131 => s.ring v
  | 0x140 => { s with dev := { s.dev with cotab := v &&& ~~~0xFE0 } }
  | 0x151 => { s with core := ({ s.core with ttrip := v.extractLsb' 0 16 } : Core).checkHeat }
  | 0x160 => { s with dev := { s.dev with rmbase := rmbaseStore v, rmCache := [] } }
  | 0x170 => s.resizeStage v
  | 0x171 => s.setPart fun p => p.setAllowance v
  | 0x172 => { s with dev := { s.dev with heatcfg := heatStore v } }
  | 0x190 => { s with dev := { s.dev with ptab := v &&& ~~~0xFFF } }
  | 0x191 => s.setPart fun p => { p with hold := v.getLsbD 0 }
  | 0x192 => s.requestPower (v.extractLsb' 0 2)
  | n =>
    match poolReg n with
    | some (k, 0) => { s with dev := { s.dev with spbase := setPool s.dev.spbase k (v &&& ~~~0x3FF) } }
    | some (k, 1) => { s with dev := { s.dev with spstk := setPool s.dev.spstk k (v &&& ~~~0xFFF) } }
    | some (k, 2) => s.setTop k v
    | some (k, _) => { s with dev := { s.dev with spesc := setPool s.dev.spesc k v } }
    | none => s

def execSysrp (d : BitVec 5) (n : BitVec 12) (s : State) : Out := deliver s do
  onlyResident
  setXM d (s.readRes n)
  advanceM

def execSyswp (a : BitVec 5) (n : BitVec 12) (s : State) : Out := deliver s do
  onlyResident
  modify fun t => t.writeRes n (s.x a)
  advanceM

/-- The state with a system register written by its number, as its holder or the resident level writes it. -/
def State.writeNumbered (s : State) (num : BitVec 12) (v : Word) : State :=
  if num.toNat < 0x100 then (s.writeSr num v).getD s else s.writeRes num v

/-! The same writes as steps of their own (the debug port's among them, R391). -/

def execSrRpend (v : BitVec 64) (s : State) : Out := .next (s.clearPending v)
def execSrPtroot (v : BitVec 64) (s : State) : Out := .next (s.writeRoot v)
def execSrRing (v : BitVec 64) (s : State) : Out := .next (s.ring v)
def execSrEbw (v : BitVec 64) (s : State) : Out := .next (s.setSel fun c => { c with eb := v.extractLsb' 0 32 })
def execSrStage (v : BitVec 64) (s : State) : Out := .next (s.resizeStage v)
def execSrWalw (v : BitVec 64) (s : State) : Out := .next (s.setPart fun p => p.setAllowance v)
def execSrSptop (pool : BitVec 3) (v : BitVec 64) (s : State) : Out := .next (s.setTop pool.toNat v)
def execSrPctlHold (v : BitVec 64) (s : State) : Out := .next (s.setPart fun p => { p with hold := v.getLsbD 0 })
def execSrPwrRetention (s : State) : Out := .next (s.requestPower 2)
def execSrPwrOff (s : State) : Out := .next (s.requestPower 3)
def execRegisterWrite (num : BitVec 12) (v : BitVec 64) (s : State) : Out := .next (s.writeNumbered num v)

/-- The measured column temperature changes; THERMAL is raised at or above `sr.ttrip` (R322). -/
def execThermal (temp : BitVec 16) (s : State) : Out :=
  .next { s with core := ({ s.core with temp := temp } : Core).checkHeat }

end Sys2Proof.Machine
end

