-- ==== Sys2Proof/Machine/Container.lean ====
section
/-! DEFINITION. Stopping, saving and restoring a gang (R325 to R330). The header and the directory of a container are written and
read in memory; the bodies, whose encoding the spec does not give, are kept as data in `Dev.saved` (log 11). -/

namespace Sys2Proof.Config

/-- The state that a container's header and the bodies of its fields, by FID, stand for: the spec gives no encoding of a body, so it is a free
value, the same for the same bytes (R329; log 11). -/
opaque containerState : BitVec 512 → List (Nat × List Byte) → Option Machine.Core

end Sys2Proof.Config

namespace Sys2Proof.Machine

/-! ### The stop (R325) -/

/-- The state an outcome goes on with. -/
def goOn (s : State) (o : Out) : State :=
  match o with
  | .next t => t
  | _ => s

/-- `n` pending operations of a tile retired. -/
def State.drainTile (s : State) (hart : BitVec 3) (tile : BitVec 2) : Nat → State
  | 0 => s
  | n + 1 => (goOn s (execMatrixRetire hart tile s)).drainTile hart tile n

/-- Every pending matrix operation of the core retired (R187). -/
def State.drainTiles (s : State) : State :=
  (List.range 8).foldl (fun s h => (List.range 4).foldl (fun s k =>
    s.drainTile (.ofNat 3 h) (.ofNat 2 k) ((s.strandAt (9 + h)).elim 0 fun t => (t.tile k).pending)) s) s

/-- A strand stopped at an instruction boundary: peek views end, a sampled sequence goes on unsampled, a waiting word is
abandoned (R187, R325). -/
def Strand.halt (t : Strand) : Strand :=
  let u : Strand := (List.range 4).foldl (fun t k => t.endPeek k) t
  let u : Strand := { u with tiles := u.tiles.map fun x => { x with sampled := false, start := [], seqOps := [] }, waiting := false }
  if t.kind = .cc then u else u.rewind

/-- The core's gang stopped (R325): the state with its far copies back, its clasps recorded, and its CC as the user left it. A `rel` that
waited for its hand-off is complete, since the conversion of its entry ends that (R273, R284). -/
def State.stopGang (s : State) : State :=
  let s := s.residentExit.drainTiles
  let rels := s.core.lazy.filterMap (·.relBy)
  let s := s.mapStrands fun t => (if rels.contains t.slot then t.advance else t).halt
  let s := s.onCore fun d c => convertLazy (d.withdraw c.num fun _ => true) c fun e => !e.held
  let s := s.onCore fun d c =>
    let (d, c) := c.lazy.foldl (fun (d, c) e => convertEntry d c e fun _ => false) (d, c)
    (d, c)
  s.flushFar (fun _ => true) false

/-! ### The container (Tables 17.10 to 17.12) -/

/-- MAGIC. -/
def contMagic : Nat := 0x4C584333
/-- REV 0x0300. -/
def contRev : Nat := 0x0300

/-- FID and RULE of the fields of revision 0x0300 (Table 17.12). -/
def contFields : List (Nat × Nat) :=
  [(0x01, 3), (0x02, 0), (0x03, 0), (0x04, 3), (0x05, 3), (0x06, 2), (0x07, 0), (0x08, 0), (0x09, 1), (0x0A, 3), (0x0B, 3), (0x0C, 1), (0x0D, 3)]

/-- The body width of a field: 1,024 bytes for each strand in STRAND; free otherwise. -/
def contWidth (fid h : Nat) : Nat := if fid = 2 then 1024 * (1 + 2 * h) else Config.fieldWidth fid h

/-- A size rounded up to a line. -/
def roundUp (n : Nat) : Nat := (n + 127) / 128 * 128

/-- FID, RULE, offset and width of each field from an offset on, and where the container ends. -/
def contPlaces (h : Nat) : List (Nat × Nat) → Nat → List (Nat × Nat × Nat × Nat) × Nat
  | [], off => ([], off)
  | (f, r) :: rest, off =>
    let (xs, last) := contPlaces h rest (off + roundUp (contWidth f h))
    ((f, r, off, contWidth f h) :: xs, last)

/-- The fields of a container for `h` hart pairs, and its LEN. -/
def contLayout (h : Nat) : List (Nat × Nat × Nat × Nat) × Nat := contPlaces h contFields (roundUp (64 + 16 * contFields.length))

/-- Bytes of the scratchpad image: requirement, frames and carve-out (Table 16.1, R160, R197). -/
def Gang.image (g : Gang) : Nat := 1024 * (g.spr + 2 + 32 * g.dfrUnits)

/-- Lanes of a core (R73). -/
def Core.lanes (c : Core) : Nat := if c.laneHalf then 16 else 32

/-- A header (Table 17.10). -/
def contHeader (g : Gang) (c : Core) (dev : BitVec 8) (len : Nat) : Nat :=
  contMagic + 2 ^ 208 * contRev + 2 ^ 224 * contFields.length + 2 ^ 256 * (g.image % 2 ^ 32) + 2 ^ 288 * (g.h.log2 % 8) + 2 ^ 296 * c.lanes
    + 2 ^ 304 * (g.segs * 128 % 2 ^ 16) + 2 ^ 328 * dev.toNat + 2 ^ 336 * (c.num % 2 ^ 16) + 2 ^ 352 * (g.iter % 2 ^ 32)
    + 2 ^ 384 * (g.launch % 2 ^ 32) + 2 ^ 416 * (g.ctx % 2 ^ 32) + 2 ^ 448 * (len % 2 ^ 64)

/-- A directory entry (Table 17.11). -/
def contEntry (x : Nat × Nat × Nat × Nat) : Nat :=
  x.1 + 2 ^ 14 * x.2.1 + 2 ^ 16 * contRev + 2 ^ 32 * (x.2.2.2 % 2 ^ 32) + 2 ^ 64 * x.2.2.1

/-- `n` body bytes from a DPA on, free ones. -/
def Dev.putFree (d : Dev) (dpa seed : Nat) : Nat → Dev
  | 0 => d
  | n + 1 => (d.putRaw dpa 1 (Config.freeByte (seed + dpa)).toNat).putFree (dpa + 1) seed n

/-- A container written at a DPA (R329, R397). -/
def Dev.putContainer (d : Dev) (at_ header : Nat) (fields : List (Nat × Nat × Nat × Nat)) (seed : Nat) : Dev :=
  let d := d.putRecord at_ 4 header
  let d := fields.zipIdx.foldl (fun d (x, i) => d.putRecord (at_ + 64 + 16 * i) 1 (contEntry x)) d
  fields.foldl (fun d x => d.putFree (at_ + x.2.2.1) (2 ^ 64 * seed) x.2.2.2) d

/-! ### `ctx.save` (R326) -/

/-- The key under which handles name the parties of a saved gang (log 11). -/
def Gang.key (g : Gang) : Nat := 4096 + g.stamp

/-- A party moved from one core number to another; writers stay with their core. -/
def Party.move (p : Party) (a b : Nat) : Party :=
  match p with
  | .strand n k => .strand (if n = a then b else n) k
  | .copy n k => .copy (if n = a then b else n) k
  | .bobbin n => .bobbin (if n = a then b else n)
  | p => p

/-- The device with the parties of one context moved. -/
def Dev.moveParties (d : Dev) (ctx a b : Nat) : Dev :=
  { d with handles := d.handles.map fun h => if h.frec.ctx.toNat = ctx then { h with party := h.party.move a b } else h }

/-- The core after its gang went into a container: the CC still resident, nothing of the gang left. -/
def State.leaveGang (s : State) : State :=
  s.onCore fun d c =>
    let c := { (c.passUnits false) with gang := none, handler := none, parkedCc := none, userLoops := ([], 0), lazy := [], bare := [], arrivals := [],
                                        queues := .replicate 8 ⟨[], none, none⟩, strands := c.strands.filter (·.slot == 0) }
    (d, c)

def execCtxSave (d a b : BitVec 5) (s : State) : Out := deliver s do
  onlyResident
  let at_ := (s.x a).toNat
  if at_ % 4096 ≠ 0 ∨ (s.x b).extractLsb' 1 63 ≠ 0 then setXM d (BitVec.allOnes 64)
  else match s.core.gang with
  | none => setXM d 0
  | some g =>
    if (s.backWaits fun _ => true) || s.dev.turnsIn at_ (contLayout g.h).2 then stop .wait
    let u := s.stopGang
    let body := { u.wholeCore with num := g.key, evHeld := u.core.evHeld.filter fun e => !e.outer, engWrites := [] }
    let (fields, len) := contLayout g.h
    let (seed, u) := u.takeFree
    let requeue := (s.x b).getLsbD 0
    let sg : SavedGang := ⟨g.ctx, g.launch, g.iter, s.core.num, body, if requeue then some (s.x a) else none, false, at_⟩
    let dv := ((u.dev.putContainer at_ (contHeader g s.core s.dev.num len) fields seed).moveParties g.ctx s.core.num g.key)
    let dv := { dv with saved := sg :: dv.saved.filter (·.place != at_) }
    let dv := if requeue then dv.updLaunch g.part g.launch fun l => { l with running := l.running - 1, saved := l.saved ++ [s.x a] } else dv
    -- the resident CC goes on where it was, on a core without a gang
    let core := { u.core with resident := true, epc := s.core.epc, estat := s.core.estat }
    set (({ u with dev := dv, core := core, st := s.st } : State).leaveGang)
    setXM d (.ofNat 64 len)
  advanceM

/-! ### `ctx.load` (R327, R330) -/

/-- The 64 bytes of the header at a DPA. -/
def Dev.contAt (d : Dev) (at_ : Nat) : BitVec 512 :=
  .ofNat 512 ((List.range 4).foldr (fun i acc => acc * 2 ^ 128 + d.readAt (d.dpaLoc (at_ + 16 * i)) 16) 0)

/-- The directory of a container (Table 17.11), `n` entries from `i` on. -/
def Dev.contDir (d : Dev) (at_ : Nat) : Nat → Nat → List (BitVec 128)
  | _, 0 => []
  | i, n + 1 => .ofNat 128 (d.readAt (d.dpaLoc (at_ + 64 + 16 * i)) 16) :: d.contDir at_ (i + 1) n

def dirOff (e : BitVec 128) : Nat := (e.extractLsb' 64 64).toNat
def dirWid (e : BitVec 128) : Nat := (e.extractLsb' 32 32).toNat
def dirVadd (e : BitVec 128) : Nat := (e.extractLsb' 16 16).toNat
def dirFid (e : BitVec 128) : Nat := (e.extractLsb' 0 8).toNat

/-- Whether a directory is well formed: it and every body lie within LEN, bodies at multiples of 128, no FID twice. -/
def dirOk (n len : Nat) (es : List (BitVec 128)) : Bool :=
  decide (64 + 16 * n ≤ len) && (es.all fun e => dirOff e % 128 == 0 && decide (64 + 16 * n ≤ dirOff e) && decide (dirOff e + dirWid e ≤ len)) &&
    (es.map dirFid).eraseDups.length == es.length

/-- Whether `n` bytes from a DPA on are zero. -/
def Dev.zeros (d : Dev) (dpa : Nat) : Nat → Bool
  | 0 => true
  | n + 1 => d.readAt (d.dpaLoc dpa) 1 == 0 && d.zeros (dpa + 1) n

/-- Whether a container's fields satisfy R330 for a reader of revision 0x0300 with `h` hart pairs. -/
def Dev.revisionOk (d : Dev) (at_ rev h : Nat) (es : List (BitVec 128)) : Bool :=
  if rev ≤ contRev then
    contFields.all fun (f, r) => r != 3 || es.any fun e => dirFid e == f && decide (contWidth f h ≤ dirWid e)
  else
    (es.all fun e => !decide (contRev < dirVadd e) || d.zeros (at_ + dirOff e) (dirWid e)) &&
      es.all fun e => match contFields.find? fun x => x.1 == dirFid e with
        | some _ => d.zeros (at_ + dirOff e + contWidth (dirFid e) h) (dirWid e - contWidth (dirFid e) h)
        | none => true

/-- The saved gang behind a header at a DPA, that of the latest save where the container was moved; none where this device did not write it
(log 11). -/
def Dev.savedOf (d : Dev) (at_ : Nat) (x : BitVec 512) : Option SavedGang :=
  let mine (g : SavedGang) : Bool := BitVec.ofNat 32 g.ctx == x.extractLsb' 416 32 && BitVec.ofNat 32 g.launch == x.extractLsb' 384 32 &&
    BitVec.ofNat 32 g.iter == x.extractLsb' 352 32 && BitVec.ofNat 16 g.core == x.extractLsb' 336 16 && x.extractLsb' 328 8 == d.num
  match d.saved.find? fun g => mine g && g.place == at_ with
  | some g => some g
  | none => d.saved.find? mine

/-- The status of a restore at a DPA on the acting core, 0 for OK (R327), by the order of the statuses. -/
def State.loadStatus (s : State) (at_ : Nat) : Nat :=
  let x := s.dev.contAt at_
  let len := (x.extractLsb' 448 64).toNat
  let n := (x.extractLsb' 224 32).toNat
  let rev := (x.extractLsb' 208 16).toNat
  let h := 2 ^ (x.extractLsb' 288 3).toNat
  if x.extractLsb' 0 32 ≠ .ofNat 32 contMagic ∨ rev / 256 ≠ 3 ∨ len < 64 + 16 * n then 1
  else
    let es := s.dev.contDir at_ 0 n
    if dirOk n len es = false then 1
    else if s.dev.revisionOk at_ rev h es = false then 2
    else if 3 < (x.extractLsb' 288 3).toNat ∨ (x.extractLsb' 304 16).toNat ≠ (if s.core.laneHalf then 48 else 96) / h * 128 ∨
        (x.extractLsb' 296 8).toNat ≠ s.core.lanes ∨ Config.spadBytes < (x.extractLsb' 256 32).toNat then 3
    else if s.core.gang.isSome then 4
    else if !s.dev.ctxLive (x.extractLsb' 416 32).toNat then 5
    else 0

/-- The basting count of an X-hart at gang start: it takes the same value under every refit, so it counts the hart pairs that the record
asks for (R186, R291; log 136). -/
def Gang.baste0 (g : Gang) (i : Nat) : BitVec 16 := .ofNat 16 (g.iter * g.asksH + i)

/-- A saved core with the fields a container lacks at their zero bytes, or recomputed (R330). -/
def Core.defaults (c : Core) (have_ : Nat → Bool) : Core :=
  let c := if have_ 2 then c else { c with handler := none, strands := c.strands.map fun t =>
    { t with xr := .replicate 32 0, sp := 0, vl := 0, vr := 0, flags := 0, tmask := 0, round := 0, seed := seedStore 0, rb := 0, loops := [], pend := [],
             arrived := none, pc := 0, run := .running } }
  let c := if have_ 3 then c else { c with strands := c.strands.map fun t => { t with bqIn := [] } }
  let c := if have_ 6 then c else match c.gang with
    | some g => { c with strands := c.strands.map fun t => { t with bcount := g.baste0 t.idx } }
    | none => c
  let c := if have_ 7 then c else { c with queues := .replicate 8 ⟨[], none, none⟩ }
  let c := if have_ 8 then c else { c with watch := .replicate 16 ⟨0, 0, 0, []⟩, knots := .replicate 32 0, evq := [], evHeld := [], batches := [],
                                           strands := c.strands.map fun t => { t with batchNext := 0 } }
  let c := if have_ 9 then c else { c with cmdq := .replicate 4 [], bobbin := .idle, shSeed := 1 }
  if have_ 12 then c else { c with lazy := [] }

/-- A memory with the same contents in canonical form. -/
def Memory.canon (m : Memory) : Memory :=
  m.tags.foldl (fun u x => u.setTag (128 * x.1) x.2) (m.cells.foldl (fun u c => u.setByte c.1 c.2) .empty)

/-- A free core shaped as the header of its container says: its gang's context, launch, iteration and hart pairs, one strand for each hart
and the CC, registers of the header's length, and memories in canonical form (R327, R329). -/
def Core.shaped (b : Core) (d : Dev) (x : BitVec 512) (laneHalf : Bool) (n : Nat) : Core :=
  let h := 2 ^ (x.extractLsb' 288 3).toNat
  let segs := (if laneHalf then 48 else 96) / h
  let ctx := (x.extractLsb' 416 32).toNat
  let g := b.gang.getD ⟨0, 0, 0, 0, [], 0, 0, 0, 0, 0, 0, 0, 0, 0, 0, 0, false, false, false, none, 0⟩
  let strand (k : StrandKind) (i m : Nat) : Strand :=
    let t := (b.strands.find? fun t => t.kind == k && t.idx == i).getD (.fresh k i m 0)
    { t with vreg := t.vreg.map fun r => { r with segs := (List.range m).map r.seg } }
  { b with
    num := n
    gang := some { g with ctx := ctx, part := d.partOfCtx ctx, launch := (x.extractLsb' 384 32).toNat, iter := (x.extractLsb' 352 32).toNat,
                          h := h, segs := segs }
    strands := strand .cc 0 0 :: ((List.range h).map fun i => strand .access i segs) ++ (List.range h).map fun i => strand .execute i segs
    spad := b.spad.canon }

/-- The bytes of a field's body at a DPA, at the reader's width: beyond a narrower body, zero bytes (R330). -/
def Dev.bodyBytes (d : Dev) (at_ h : Nat) (e : BitVec 128) : List Byte :=
  let w := contWidth (dirFid e) h
  (List.range (Nat.min w (dirWid e))).map (fun i => .ofNat 8 (d.readAt (d.dpaLoc (at_ + dirOff e + i)) 1)) ++ List.replicate (w - dirWid e) 0

/-- The core that a container at a DPA holds, read from its bytes (R330; log 11). -/
def State.readContainer (s : State) (at_ : Nat) (es : List (BitVec 128)) (n : Nat) : Core :=
  let x := s.dev.contAt at_
  let known := es.filter fun e => contFields.any (·.1 == dirFid e)
  ((Config.containerState x (known.map fun e => (dirFid e, s.dev.bodyBytes at_ (2 ^ (x.extractLsb' 288 3).toNat) e))).getD
    (.fresh n 0 s.core.laneHalf)).shaped s.dev x s.core.laneHalf n

/-- Whether a container holds every known field that its directory lists at the reader's width. -/
def contFull (h : Nat) (es : List (BitVec 128)) : Bool :=
  es.all fun e => !(contFields.any (·.1 == dirFid e)) || decide (contWidth (dirFid e) h ≤ dirWid e)

/-- The gang of a container: the one that was saved, or, where this device did not write it or a field is narrower, what its bytes say. A gang
from elsewhere begins to run here (R330, R390). -/
def State.container (s : State) (at_ : Nat) : SavedGang :=
  let x := s.dev.contAt at_
  let es := s.dev.contDir at_ 0 (x.extractLsb' 224 32).toNat
  match s.dev.savedOf at_ x with
  | some g => if contFull (2 ^ (x.extractLsb' 288 3).toNat) es then g else { g with body := s.readContainer at_ es g.body.num }
  | none => ⟨(x.extractLsb' 416 32).toNat, (x.extractLsb' 384 32).toNat, (x.extractLsb' 352 32).toNat, (x.extractLsb' 336 16).toNat,
      s.readContainer at_ es s.core.num, none, true, at_⟩

/-- Whether a container supplies a field: one that is recomputed only at its whole width (R330). -/
def contHas (h : Nat) (es : List (BitVec 128)) (f : Nat) : Bool := es.any fun e => dirFid e == f && (f != 6 || decide (contWidth f h ≤ dirWid e))

/-- A lock's line with a core as its holder (R274). -/
def Dev.rehold (d : Dev) (core clasp : Nat) : Dev := d.claspPut clasp fun l => lineSet (lineSet l 16 16 core) 32 8 d.num.toNat

/-- An entry of a restored gang rebuilt on its new core, which holds and again retains the lock; the set of a barrier's entry goes on
(R274, R278). -/
def rebindEntry (d : Dev) (core : Nat) (e : LazyEntry) : Dev × LazyEntry :=
  if clMode (d.lineAt (e.clasp * 128)).1 = 1 then (d, e)
  else
    let d := d.rehold core e.clasp
    let h := d.claspHome e.clasp
    (d.setClasp { h with retainer := some core },
     { e with lset := [], lines := [], sig := sigUnfold (clSig (d.lineAt (e.clasp * 128)).1), retained := true, waiter := !h.fifo.isEmpty })

/-- The clasps held by a restored gang, with their holder fields rewritten and their entries rebuilt (R273, R274). -/
def rebindClasps (d : Dev) (c : Core) : Dev × Core :=
  let d := c.bare.foldl (fun d x => d.rehold c.num x.1) d
  let (d, es) := c.lazy.foldl (fun (d, es) e =>
    let (d, e) := rebindEntry d c.num e
    (d, es ++ [e])) (d, [])
  (d, { c with lazy := es })

/-- The core that a restored gang runs on: the gang's state, with what belongs to the core itself kept (R274, R327). -/
def Core.install (c body : Core) : Core :=
  { body with
    num := c.num, rvec := c.rvec, rpend := c.rpend, renab := c.renab, rroot := c.rroot, ctxsel := c.ctxsel, temp := c.temp, ttrip := c.ttrip,
    pwr := c.pwr, pwrReq := c.pwrReq, heatCd := c.heatCd, heatS := c.heatS, errcnt := c.errcnt, halted := c.halted, dbgHalt := c.dbgHalt.filter (· == 0), dbgStep := c.dbgStep.filter (· == 0),
    asked := none, laneHalf := c.laneHalf, far := c.far, engWrites := c.engWrites, evHeld := c.evHeld ++ body.evHeld, assigned := none, epc := c.epc,
    estat := c.estat, parkedCc := none, userLoops := ([], 0), renqNo := c.renqNo }

/-- The device after a saved gang went to a core. -/
def Dev.markOut (d : Dev) (g : SavedGang) (n : Nat) : Dev :=
  let d := d.moveParties g.ctx g.body.num n
  { d with saved := d.saved.map fun h => if h.body.num = g.body.num then { h with out := true, at_ := none } else h }

/-- A gang that was restored from a container (Table 16.4). -/
def Gang.again (g : Gang) : Gang := { g with resumed := true }

/-- The gang of a container on the acting core, at user level (R327). -/
def State.restore (s : State) (g : SavedGang) (have_ : Nat → Bool) : State :=
  let s := s.fenceFar 3 true true
  s.onCore fun d c =>
    let d := d.markOut g c.num
    let d := if g.out then d.updLaunch (d.partOfCtx g.ctx) g.launch fun l => { l with running := l.running + 1 } else d
    let body := g.body.defaults have_
    rebindClasps d (c.install { body with gang := body.gang.map Gang.again })

/-- The acting core at the resident level again, with the CC's user state in `sr.epc` and `sr.estat` (R327). -/
def State.backToResident (s : State) (pc : Word) : State :=
  let parked := match s.st.run with
    | .parked h => some h
    | _ => none
  let estat : Nat := (if parked.isSome then 4 else 0) + (if s.core.handler.isSome then 2 else 0)
  { s with
    core := { s.core with resident := true, epc := s.st.pc, estat := .ofNat 64 estat, parkedCc := parked, userLoops := (s.st.loops, s.st.sp),
                          gang := s.core.gang.map fun g => if s.st.run = .ended then { g with left := true } else g }
    st := { s.st with pc := pc, run := .running, loops := [], sp := 0, deco := none, waiting := false } }

def execCtxLoad (d a : BitVec 5) (s : State) : Out := deliver s do
  onlyResident
  let at_ := (s.x a).toNat
  if s.dev.turnsIn at_ 64 then stop .wait
  let st := s.loadStatus at_
  let x := s.dev.contAt at_
  if st = 0 then
    if s.dev.turnsIn at_ (x.extractLsb' 448 64).toNat || s.backWaits fun f => !s.core.inLazy f then stop .wait
    let has := contHas (2 ^ (x.extractLsb' 288 3).toNat) (s.dev.contDir at_ 0 (x.extractLsb' 224 32).toNat)
    modify fun t => (t.restore (s.container at_) has).backToResident s.st.pc
  setXM d (.ofNat 64 st)
  advanceM

/-- The walker's restore of a requeued container on the free core it chose; MAGIC is written 0 after it (R294, R326). An item
whose gang is gone is dropped. -/
def execRequeueRestore (s : State) : Out :=
  .next (match s.core.assigned with
    | none => s
    | some w =>
      match w.saved with
      | none => s
      | some a =>
        if s.core.gang.isSome || s.core.resident || s.core.halted || 2 ≤ s.core.pwr.toNat then s
        else
          match s.dev.saved.find? fun g => g.at_ == some a && g.launch == w.launch with
          | none => s.dropGang w
          | some g =>
            if s.dev.turningAt a.toNat || s.backWaits fun f => !s.core.inLazy f then s
            else
            let s := s.ungated.restore g fun _ => true
            { s with dev := s.dev.putRaw a.toNat 4 0 })

end Sys2Proof.Machine
end

