-- ==== Sys2Proof/Machine/Layers.lean ====
section
/-! DEFINITION. Layers over time (file 19): installs (R356 to R361), `wstat` (R363), the allowance (R362, R395), the Darner (R364 to
R366), Turnover (R371 to R373), page heat (R375, R376, R378), staging (R353), and their event records (R379). -/

namespace Sys2Proof.Machine

/-- A LAYER_ARG trap (Table 19.4). -/
def layerArg {α : Type} (info : BitVec 32) (addr : Word) : M α := stop (.trap tLAYER_ARG info addr 0)

/-- A number after another, 0 skipped (R355). -/
def nextNumber (n : BitVec 32) : BitVec 32 := if n + 1 = 0 then 1 else n + 1

/-- The partition on whose behalf the CC issues layer work: its context's, or its core's at the resident level. -/
def State.layerPart (s : State) : Nat := if s.atResident then s.dev.partOfCore s.core.num else s.dev.partOfCtx s.core.ctxId

/-! ### Pages as the layer instructions name them -/

/-- A page of an operand: its address, the translation held for it, its DPA, its remap entry. -/
structure Pg where
  va : Word
  xl : List Xlat
  pte : BitVec 128
  lv : Nat
  dpa : Nat
  ent : BitVec 256

/-- An operand page under its leaf, its remap entry as it stands (R310, R356, R371, R378). The scratchpad and pages of other
devices are none that the instructions accept. -/
def pageAt (v : Via) (n : Need) (info : BitVec 32) (va : Word) : M Pg := do
  if inWindow va then layerArg info va
  let s ← get
  if v.raw then return ⟨va, [], pteRaw, 4, va.toNat, if s.dev.rmIn va.toNat then s.dev.rmEnt va.toNat else 0⟩
  if badRange va then faultAt n.kind va fltRange
  if s.dev.leafTurns v va then stop .wait
  match s.dev.leafOf v va with
  | .error f => faultAt n.kind va f
  | .ok (x, d) =>
    let dpa := pteFrame x.pte + va.toNat % 2 ^ levelShift x.lv
    match needFault n x dpa with
    | some f => faultAt n.kind va f
    | none =>
      if pteHdev x.pte ≠ s.dev.num then layerArg info va
      set { s with dev := d }
      return ⟨va, [x], x.pte, x.lv, dpa, if d.rmIn dpa then d.rmEnt dpa else 0⟩

/-- A page whose remap lookup finds no entry faults; one that is turning waits (R348, R372). -/
def Pg.look (p : Pg) (kind : BitVec 8) (wait : Bool) : M Unit := do
  let s ← get
  match s.dev.rmLook p.dpa with
  | none => faultAt kind p.va (fltRemapAbsent p.lv)
  | some e => if wait && rmTurning e then stop .wait

/-- The pages of a range, `n` pieces of 4 KiB at most: 64 KiB at a time, 4 KiB under a 4 KiB leaf. -/
def pagesOver (v : Via) (n : Need) (check : Pg → M Unit) (last : Nat) : Nat → Word → M (List Pg)
  | 0, _ => return []
  | k + 1, va => do
    if last ≤ va.toNat then return []
    let p ← pageAt v n 2 va
    check p
    let sz := if p.lv = 5 then 4096 else 65536
    let rest ← pagesOver v n check last k (.ofNat 64 (va.toNat / sz * sz + sz))
    return p :: rest

/-! ### Events and other agents (R260, R355, R379) -/

/-- An event record held for a core by a layer engine (R355, R379). -/
def State.layerEvent (s : State) (kind : BitVec 8) (core ctx : Nat) (no utag : BitVec 32) (i1 i0 : Nat) (flags : BitVec 8) (status : Nat) : State :=
  if ctx < 4096 && !s.dev.ctxLive ctx then s
  else
    let e : Ev := ⟨.ofNat 64 i1, .ofNat 64 i0, utag, .ofNat 16 core, s.dev.num, 0, kind, flags, .ofNat 16 status, no, 0, ctx⟩
    s.updCoreAt core fun c => { c with evHeld := c.evHeld ++ [e] }

/-- Whether a translation lies in a DPA page of 64 KiB of this device. -/
def Xlat.inPage (x : Xlat) (dev : BitVec 8) (page : Nat) : Bool := pteHdev x.pte == dev && x.page == page

/-- A record as layer work of a context raises it (Table 17.6). -/
def FaultRec.byLayer (r : FaultRec) (engine : BitVec 8) (ctx : Nat) (pc : Word) : FaultRec := r.by engine 0 (if ctx < 4096 then ctx else 0) pc
def Recode.names (k : Recode) (r : FaultRec) : FaultRec := r.byLayer 6 k.ctx k.pc
def Install.names (k : Install) (r : FaultRec) : FaultRec := r.byLayer 7 k.ctx k.pc

/-- A fault of layer work, which parks the work whatever level issued it (R318, R355; log 138). -/
def State.layerFault (s : State) (part ctx : Nat) (party : Party) (engine : BitVec 8) (pc : Word) (r : FaultRec) : State × Nat :=
  s.postFault part (r.byLayer engine ctx pc) (some party)

/-- The in-flight counts on a DPA page: whether any command, saved or not, or any layer work holds a translation of it (R313,
R355). -/
def State.counted (s : State) (page : Nat) : Bool :=
  let hit (x : Xlat) : Bool := x.inPage s.dev.num page
  let held (c : Core) : Bool := c.copies.any (fun k => k.xl.any hit) || c.cmdq.any fun q => q.any fun b => b.xl.any hit
  s.allCores.any held || s.dev.saved.any (fun g => !g.out && held g.body) || s.dev.recodes.any (fun r => r.xl.any hit)
    || s.dev.installs.any fun i => i.sxl.any hit || i.txl.any hit || i.dxl.any hit

/-- The state after every far copy of the lines of a location page went back and was dropped (R260). -/
def State.flushPage (s : State) (loc n : Nat) : State :=
  let hit (f : FarCopy) : Bool := decide (loc / 128 ≤ f.loc) && decide (f.loc < (loc + n) / 128)
  s.onAllCores fun d c =>
    (d.backAll c hit, { c with far := c.far.filter fun f => !hit f })

/-! ### Installing weights (R356 to R361) -/

/-- Wear of a physical block. -/
def Flash.wearOf (f : Flash) (p : Nat) : Nat := lookupD 0 p f.wear
/-- The usable blocks of a stack's pool (R351). -/
def Flash.usable (f : Flash) : List Nat := f.pool.filter fun p => decide (f.wearOf p < Config.wearLimit)
/-- The least-worn usable pool block, the first of several. -/
def Flash.leastWorn (f : Flash) : Option Nat :=
  f.usable.foldl (fun a p => match a with
    | none => some p
    | some q => if f.wearOf p < f.wearOf q then some p else some q) none

/-- The device with a flash stack changed. -/
def Dev.updStack (d : Dev) (k : Nat) (g : Flash → Flash) : Dev := if h : k < 4 then { d with flash := d.flash.set k (g (d.flash[k]'h)) h } else d

/-- A usable block taken from a stack's pool, the least worn. -/
def Dev.takeBlock (d : Dev) (k : Nat) : Option (Nat × Dev) :=
  (d.stackOf k).leastWorn.map fun p => (p, d.updStack k fun f => { f with pool := f.pool.filter (· != p) })

/-- A block reserved for each logical block of a list (R357). -/
def Dev.reserve (d : Dev) : List (Nat × Nat) → Option (List (Nat × Nat) × Dev)
  | [] => some ([], d)
  | (k, _) :: r =>
    match d.takeBlock k with
    | none => none
    | some (p, d) => (d.reserve r).map fun (xs, d) => ((k, p) :: xs, d)

/-- The logical block of a 16 MiB step of the destination, where its 256 pages map in order to it (R357 test 1). -/
def stepBlock (d : Dev) (es : List (BitVec 256)) : Option (Nat × Nat) :=
  let e := es.headD 0
  let site := rmSite e
  let loc := rmLoc e
  let ok := es.length == 256 && loc % 16777216 == 0 && d.rmValid e &&
    es.zipIdx.all fun (x, i) => rmLayer x == 3 && rmSite x == site && rmLoc x == loc + 65536 * i
  if ok then some (flashBlock site loc) else none

/-- The logical blocks of an extent from the remap entries of its pages, 256 a step, or none where a step breaks the rule. -/
def extentBlocks (d : Dev) : Nat → List (BitVec 256) → Option (List (Nat × Nat))
  | 0, _ => some []
  | n + 1, es =>
    match stepBlock d (es.take 256), extentBlocks d n (es.drop 256) with
    | some b, some r => some (b :: r)
    | _, _ => none

/-- Acceptance of an install (R357): the refusal code, or its blocks with the blocks reserved for them. -/
def Dev.accept (d : Dev) (p : Nat) (dst src : Word) (nblk : Nat) (ents : List (BitVec 256)) :
    Except (BitVec 8) (List (Nat × Nat) × List (Nat × Nat) × Dev) :=
  match (if dst.toNat % 16777216 ≠ 0 ∨ src.toNat % 65536 ≠ 0 then none else extentBlocks d nblk ents) with
  | none => .error 7
  | some bs =>
    if bs.any fun b => d.installs.any (·.blocks.contains b) || decide (16 ≤ (d.installs.filter fun i => i.blocks.any (·.1 == b.1)).length) then .error 8
    else if ((d.part p).elim 0 (·.balance)) < nblk * 16777216 then .error 4
    else match d.reserve bs with
      | none => .error 3
      | some (rs, d) => .ok (bs, rs, d.updPart p fun q => { q with balance := q.balance - nblk * 16777216 })

/-- The written fields of a descriptor (Table 19.5). -/
def installWord (code : BitVec 8) (nremap maxw : Nat) (no : BitVec 32) : List Byte :=
  bytesOf 8 (no.toNat + 2 ^ 32 * (maxw % 2 ^ 16) + 2 ^ 48 * (nremap % 2 ^ 8) + 2 ^ 56 * code.toNat)

/-- The INSTALL record (Table 19.12). -/
def State.installEvent (s : State) (i : Install) (code : BitVec 8) : State :=
  if i.evt then
    s.layerEvent 6 i.core i.ctx i.no i.utag (i.no.toNat + 2 ^ 32 * (i.maxw % 2 ^ 16) + 2 ^ 48 * (i.nremap % 2 ^ 16))
      (if i.committed then i.blocks.length * 16777216 else 0) 0 code.toNat
  else s

/-- An install parked on a fault. -/
def State.parkInstall (s : State) (i : Install) (f : Install → Install) (r : FaultRec) : State :=
  let (t, h) := s.layerFault i.part i.ctx (.install i.no.toNat) 7 i.pc r
  { t with dev := { t.dev with installs := t.dev.installs.map fun j => if j.part = i.part ∧ j.no = i.no then { f j with parked := some h } else j } }

/-- The `winst` of an install whose acceptance write had to wait: it completes once that is written, and a refused install is then
complete (R356, R357). -/
def winstEnd (d : BitVec 5) (i : Install) : M Unit := do
  if i.ack ≠ some none then stop .wait
  let mine (j : Install) : Bool := j.part == i.part && j.no == i.no
  let over_ := i.fail.isSome && i.blocks.isEmpty
  modify fun t => { t with dev := { t.dev with installs :=
    (t.dev.installs.filter fun j => !(over_ && mine j)).map fun j => if mine j then { j with ack := none } else j } }
  setXM d (i.no.setWidth 64)
  advanceM

/-- The acceptance write of an install, `s` being the state with the install accepted or refused; an engine fault parks the install while the
`winst` waits (R356, R397). -/
def acceptWrite (acc : Bool) (v : Via) (i : Install) (code : BitVec 8) : M Unit := fun t =>
  match (recordWrite false v i.desc (installWord code 0 0 i.no)).run t with
  | .ok r => .ok r
  | .error (.fault r) =>
    let j : Install := { i with ack := some (some code), fail := if acc then none else some code }
    let u := if acc then t else { t with dev := { t.dev with installs := t.dev.installs ++ [j] } }
    .error (.redo fun _ _ => (u.parkInstall j (fun k => { k with ack := some (some code) }) r).await)
  | .error e => .error e

def execWinst (d a : BitVec 5) (s : State) : Out := deliver s do
  let va := s.x a
  if va.extractLsb' 0 6 ≠ 0 then stop (.trap tMISALIGNED 0 va 0)
  if s.fenceWaits 3 false true then stop .wait
  match s.dev.installs.find? fun i => i.ack.isSome && i.ctx == s.via.key && i.desc == va with
  | some i => winstEnd d i
  | none =>
  modify (·.fenceFar 3 false true)
  let v := s.via
  let _ ← translate v nRmw va
  let dxl ← pageLeaf v nRmw 0 va
  let x ← readRecord va 64
  let w := BitVec.ofNat 512 x
  let dst := w.extractLsb' 448 64
  let src := w.extractLsb' 384 64
  let nblk := (w.extractLsb' 352 32).toNat
  if w.extractLsb' 65 255 ≠ 0 ∨ nblk = 0 ∨ 64 < nblk then layerArg 1 va
  let pieces := nblk * 4096 + 16
  let bytes := nblk * 16777216
  let ds ← pagesOver v nInstall (fun p => do
    let t ← get
    if t.dev.rmIn p.dpa && rmLayer p.ent == 3 then pure () else p.look nInstall.kind true) (dst.toNat + bytes) pieces dst
  let ss ← pagesOver v nEngRead (fun p => p.look nEngRead.kind true) (src.toNat + bytes) pieces src
  ds.forM fun p => if v.raw || ptePcls p.pte != 0 then layerArg 2 p.va else pure ()
  ss.forM fun p => if rmLayer p.ent != 2 && rmLayer p.ent != 4 then layerArg 2 p.va else pure ()
  let t ← get
  let p := s.layerPart
  let no := (t.dev.part p).elim 1 (·.nextInstall)
  let base : Install := ⟨p, v.key, s.core.num, no, va, dxl, w.extractLsb' 320 32, w.getLsbD 64, [], src, ss.flatMap (·.xl), ds.flatMap (·.xl), s.st.wordPc,
    0, 0, none, [], [], 0, 0, none, false, [], none, none⟩
  modify fun t => { t with dev := t.dev.updPart p fun q => { q with nextInstall := nextNumber q.nextInstall } }
  match t.dev.accept p dst src nblk (ds.map (·.ent)) with
  | .error c =>
    acceptWrite false v base c
    modify fun t => t.installEvent base c
  | .ok (bs, rs, dv) =>
    let i := { base with blocks := bs, reserved := rs }
    set { t with dev := { dv.updPart p (fun q => { q with nextInstall := nextNumber q.nextInstall }) with installs := dv.installs ++ [i] } }
    acceptWrite true v i 0xFF
  setXM d (no.setWidth 64)
  advanceM

/-- Whether an install may work on its current block: each stack runs its installs one at a time, in order (R358). -/
def Dev.installTurn (d : Dev) (n : Nat) (i : Install) : Bool :=
  i.parked.isNone && i.fail.isNone && !i.committed && !(i.ack.any (·.isSome)) && (match i.blocks[i.at_]? with
    | none => false
    | some (k, _) => !((d.installs.take n).any fun j => j.blocks.any (·.1 == k)))

/-- The lines of a block read from their source (R359). -/
def installLines (v : Via) (xl : List Xlat) (src : Word) : Nat → Nat → M (List (Line × Tag))
  | _, 0 => return []
  | k, n + 1 => do
    let tr ← heldTr v xl nEngRead (src + .ofNat 64 (128 * k))
    let s ← get
    if s.mustWait tr false then stop .wait
    let x ← homeRead tr nEngRead.kind
    let r ← installLines v xl src (k + 1) n
    return x :: r

/-- The device with a physical block programmed: tags as read with GEN and CMP 0 (R359); what was staged of the block is dropped (R360). -/
def Dev.program (d : Dev) (k p : Nat) (ls : List (Line × Tag)) : Dev :=
  let base := (48 + k) * 2 ^ 64 + p * 16777216
  let mem := ls.zipIdx.foldl (fun m ((l, t), i) => (m.setLine (base + 128 * i) l).setTag (base + 128 * i) (t.extractLsb' 0 18 |>.setWidth 24)) d.mem
  { d with mem := mem, staged := d.staged.filter fun (a, _, _) => !(decide (base / 128 ≤ a) && decide (a < base / 128 + 131072)),
           flashBad := d.flashBad.filter fun b => !(decide (base / 128 ≤ b) && decide (b < base / 128 + 131072)) }

/-- An install changed in place. -/
def Dev.updInstall (d : Dev) (n : Nat) (f : Install → Install) : Dev :=
  { d with installs := d.installs.zipIdx.map fun (i, k) => if k = n then f i else i }

/-- The install ends without its commit: the code is set, and every block it took but the retired ones goes back (R358). -/
def Dev.failInstall (d : Dev) (n : Nat) (code : BitVec 8) : Dev :=
  match d.installs[n]? with
  | none => d
  | some i =>
    let back := i.reserved ++ (i.shadow.map fun ((k, _), p) => (k, p)) ++
      (match i.cur, i.blocks[i.at_]? with
        | some p, some (k, _) => [(k, p)]
        | _, _ => [])
    let d := back.foldl (fun d (k, p) => d.updStack k fun f => { f with pool := f.pool ++ [p] }) d
    d.updInstall n fun i => { i with fail := some code, reserved := [], shadow := [], cur := none }

/-- The block an install is to program now: the current one, or the next reserved of the stack. -/
def Install.take (i : Install) (k : Nat) : Option (Nat × Install) :=
  match i.cur with
  | some p => some (p, i)
  | none => (takeFirst (fun x => x.1 == k) i.reserved).map fun ((_, p), r) => (p, { i with reserved := r, cur := some p, tries := 0 })

/-- One attempt at the current block of install `index` (R358): erase, program, read back. `ok` is whether the read-back equals the
source; a second failure, or an empty pool, ends the install with VERIFY_FAIL. -/
def execInstallBlockVerify (index : Nat) (ok : Bool) (s : State) : Out :=
  .next (match s.dev.installs[index]? with
    | none => s
    | some i =>
      match i.blocks[i.at_]? with
      | none => s
      | some (k, b) =>
        if s.dev.installTurn index i = false then s
        else match i.take k with
        | none => { s with dev := s.dev.failInstall index 5 }
        | some (p, i) =>
          -- each source line is read once; dirty far copies are no part of the source's home
          match runEngine s i.names (do
              let ls ← if i.lines.isEmpty then installLines (s.viaKey i.ctx) i.sxl (i.src + .ofNat 64 (16777216 * i.at_)) 0 131072 else pure i.lines
              let t ← get
              let d := t.dev.updStack k fun f => { f with wear := setD 0 p (f.wearOf p + 1) f.wear }
              let w := (d.stackOf k).wearOf p
              let d := d.updInstall index fun _ => { i with maxw := Nat.max i.maxw w, lines := ls }
              if ls.any (·.2.cls == cPOI) then set { t with dev := d.failInstall index 5 }
              else
                let d := d.program k p ls
                if ok then
                  set { t with dev := d.updInstall index fun i =>
                    { i with shadow := i.shadow ++ [((k, b), p)], at_ := i.at_ + 1, cur := none, tries := 0, lines := [] } }
                else
                  let d := d.updStack k fun f => { f with retired := f.retired ++ [p] }
                  let d := d.updInstall index fun i => { i with cur := none, tries := i.tries + 1 }
                  match (if i.tries + 1 = 2 then none else d.takeBlock k) with
                  | none => set { t with dev := d.failInstall index 5 }
                  | some (q, d) => set { t with dev := d.updInstall index fun i => { i with cur := some q, nremap := i.nremap + 1 } }) with
          | .done t => t
          | .fault r => s.parkInstall i id r
          | .again t => t
          | _ => s)

/-- The extent's logical blocks mapped to their shadows in one step (R360): the old blocks go to the pool; staged lines and far
copies of the extent go; every page of it is dirty, and none is verified any more (R332, R333). -/
def State.commitBlocks (s : State) (i : Install) : State :=
  i.shadow.foldl (fun s ((k, b), p) =>
    let old := (s.dev.stackOf k).phys b
    let loc := (48 + k) * 2 ^ 64 + old * 16777216
    let s := s.flushPage loc 16777216
    let d := s.dev.updStack k fun f => { f with map := setD b b p (f.map.filter (·.1 != b)), pool := f.pool ++ [old] }
    { s with dev := { d with staged := d.staged.filter fun (a, _, _) => !(decide (loc / 128 ≤ a) && decide (a < loc / 128 + 131072)) } })
    { s with dev := i.txl.foldl (fun d x =>
      let d := { d with verified := d.verified.filter (· != x.page) }
      if (d.rmLook (65536 * x.page)).isSome then d.rmSet (65536 * x.page) 86 1 1 else d) s.dev }

/-- CODE of an install that has ended (Table 19.6). -/
def Install.code (i : Install) : BitVec 8 :=
  match i.fail with
  | some c => c
  | none => if 0 < i.nremap then 1 else if 4000 ≤ i.maxw then 2 else 0

/-- The status of an install written into its descriptor, under the translation it holds of it since its acceptance, which a turning page does
not hold up (R313, R356, R372). -/
def Install.statusWrite (i : Install) (s : State) (bytes : List Byte) : M Unit :=
  recordAt false (heldTr (s.viaKey i.ctx) i.dxl nEngWrite i.desc) i.desc bytes

/-- An install that has ended commits, writes its status and posts its event, in that order (R360, R361, R396). A terminated
context's writes and events are dropped (R320). -/
def execInstallCommit (index : Nat) (s : State) : Out :=
  .next (match s.dev.installs[index]? with
    | none => s
    | some i =>
      if i.parked.isSome then s
      else match i.ack with
      | some none => s
      | some (some c) =>
        match runEngine s i.names (i.statusWrite s (installWord c 0 0 i.no)) with
        | .done t =>
          let t := { t with dev := t.dev.updInstall index fun i => { i with ack := some none } }
          if i.blocks.isEmpty then t.installEvent i c else t
        | .fault r => s.parkInstall i id r
        | .again t => t
        | _ => s
      | none =>
      if i.fail.isNone && decide (i.at_ < i.blocks.length) then s
      else
        let s := if i.fail.isNone && !i.committed then
            let t := s.commitBlocks i
            { t with dev := t.dev.updInstall index fun i => { i with committed := true } } else s
        let i := { i with committed := i.fail.isNone }
        let gone (t : State) : State := { t with dev := { t.dev with installs := t.dev.installs.eraseIdx index } }
        if i.ctx < 4096 && !s.dev.ctxLive i.ctx then gone s
        else match runEngine s i.names (i.statusWrite s (installWord i.code i.nremap i.maxw i.no)) with
          | .done t => gone (t.installEvent i i.code)
          | .fault r => s.parkInstall i id r
          | .again t => t
          | _ => s)

/-- A flash stack loses power while the module runs: installs that use it and have not committed end (R361). -/
def execFlashPowerLoss (stack : Nat) (s : State) : Out :=
  let hit (i : Install) : Bool := !i.committed && i.fail.isNone && i.blocks.any (·.1 == stack)
  let d := (List.range s.dev.installs.length).foldl (fun d n =>
    if (d.installs[n]?).any hit then { d.failInstall n 6 with rollbacks := d.rollbacks + 1 } else d) s.dev
  .next { s with dev := d }

/-- One tick of the allowance clock of a partition (R362, R395). -/
def execAllowanceTick (part : Nat) (s : State) : Out :=
  .next { s with dev := s.dev.updPart part fun p => if p.balance < p.walw.toNat then { p with balance := p.balance + 1 } else p }

/-! ### `wstat` (R363) -/

/-- The wear word of a stack (Table 19.7, selector 3). With no usable pool block the lowest wear is a free value. -/
def Flash.summary (f : Flash) (free : Nat) : Nat :=
  let worst := f.wear.foldl (fun a x => Nat.max a x.2) 0
  let least := match f.leastWorn with
    | some p => f.wearOf p
    | none => (Config.freeWord free).toNat
  2 ^ 48 * (f.retired.length % 2 ^ 16) + 2 ^ 32 * (f.usable.length % 2 ^ 16) + 2 ^ 16 * (worst % 2 ^ 16) + least % 2 ^ 16

def execWstat (d a b : BitVec 5) (s : State) : Out := deliver s do
  let p := s.layerPart
  let q := s.dev.part p
  let sel := (s.x b).toNat
  let v : Nat ← (match sel with
    | 0 => return q.elim 0 (·.balance)
    | 1 => return (q.elim 0 (·.walw)).toNat
    | 4 => return (s.dev.installs.filter (·.part == p)).length
    | 5 => return s.dev.rollTag.toNat * 2 ^ 32 + s.dev.rollbacks % 2 ^ 32
    | n =>
      if n = 2 ∨ n = 3 then do
        let pg ← pageAt s.via nLoad 4 (s.x a)
        pg.look nLoad.kind true
        if rmLayer pg.ent ≠ 3 then layerArg 4 (s.x a)
        let loc := rmLoc pg.ent + (s.x a).toNat % 65536
        let (k, blk) := flashBlock (rmSite pg.ent) loc
        let f := s.dev.stackOf k
        if n = 2 then return loc / 16777216 * 2 ^ 32 + f.wearOf (f.phys blk) % 2 ^ 16
        else
          let t ← get
          let (seed, t) := t.takeFree
          set t
          return f.summary seed
      else layerArg 4 0 : M Nat)
  setXM d (.ofNat 64 v)
  advanceM

/-! ### The Darner (R364 to R366) -/

def execRecode (d a b : BitVec 5) (s : State) : Out := deliver s do
  let va := s.x a
  let w := s.x b
  if va.extractLsb' 0 16 ≠ 0 then stop (.trap tMISALIGNED 0 va 0)
  if s.fenceWaits 3 false true then stop .wait
  modify (·.fenceFar 3 false true)
  let npg := (w.extractLsb' 16 16).toNat
  let ps ← pagesOver s.via nPerm (fun p => p.look nPerm.kind true) (va.toNat + 65536 * npg) (16 * npg) va
  if npg = 0 ∨ w.extractLsb' 9 7 ≠ 0 ∨ w.extractLsb' 7 2 = 3 then layerArg 1 0
  ps.forM fun p => if !s.via.raw && ptePcls p.pte == 0 then layerArg 2 p.va else pure ()
  let p := s.layerPart
  let no := (s.dev.part p).elim 1 (·.nextRecode)
  let r : Recode := ⟨p, s.via.key, s.core.num, no, w.extractLsb' 32 32, w.extractLsb' 0 9, s.st.round, va, 512 * npg, 0, ps.flatMap (·.xl), s.st.wordPc,
    seedStore no, 0, 0, 0, 0, [], false, none⟩
  modify fun t => { t with dev := { t.dev.updPart p (fun q => { q with nextRecode := nextNumber q.nextRecode }) with recodes := t.dev.recodes ++ [r] } }
  setXM d (no.setWidth 64)
  advanceM

/-- The formats of a context, those of the resident level being the reset ones (R22). -/
def Dev.ftOf (d : Dev) (ctx : Nat) : BitVec 4 → Fmt := fun i =>
  Fmt.ofEntry (((d.ctx ctx).elim ftResetV (·.ft))[i.toNat]'(i.isLt))

/-- The generator after some steps (R40). -/
def seedSteps (seed : BitVec 32) : Nat → BitVec 32
  | 0 => seed
  | n + 1 => seedStep (seedSteps seed n)

/-- A line under the Darner's policy: the line it becomes, its flags and the generator, which takes one step for each slot under SR; or none
where it is left (R365). -/
def recodeLine (ft : BitVec 4 → Fmt) (r : Recode) (l : Line) (t : Tag) : Option (Line × Tag × BitVec 8 × BitVec 32) :=
  let F := ft t.fmt
  let ti := sfpFmt r.policy
  let T := ft ti
  if sfpMode r.policy = 0 ∨ t.cls ≠ cVAL ∨ F.kind = .nested ∨ T.kind = .nested ∨ t.fmt = ti ∨ F.wid < T.wid then none
  else
    let els := (List.range (perSeg F.wid)).map fun k => (⟨k, ⟨lineSlot l F.wid k, t.fmt, t.scl, cVAL⟩, false⟩ : LineEl)
    match buildLine ft r.policy r.ccRound (fun k => seedSteps r.seed (k + 1)) els with
    | .error _ => none
    | .ok x => some (x.data, (t.retag x.fmt x.scl x.cls t.pln).bumpGen, x.flags,
        if sfpRound r.policy r.ccRound == .sr then seedSteps r.seed (perSeg F.wid) else r.seed)

/-- The surplus sectors of a block returned to their pool, and its state lowered (R365). -/
def Dev.shrinkBlock (d : Dev) (pool at_ n : Nat) : Dev :=
  let e := d.sectorEnt at_
  let extra := (List.range' n (secCount e - n)).map (secIdx e)
  let top := (d.sptop[pool]?.getD 0).toNat
  let base := (d.spstk[pool]?.getD 0).toNat / 4096 * 4096
  let d := extra.zipIdx.foldl (fun (d : Dev) (x, i) => d.writeAt (d.dpaLoc (base + 4 * (top + i))) 4 x) d
  let keep := (List.range n).foldl (fun a k => a + secIdx e k * 2 ^ (8 + 30 * k)) 0
  { d.writeAt at_ 16 (keep + stFor n) with sptop := setPool d.sptop pool (.ofNat 64 (top + extra.length)) }

/-- A block recompressed after the Darner has treated its lines; under MODE 0 its surplus sectors go back (R365, R368). -/
def Dev.recompress (d : Dev) (keep : Bool) (tr : Tr) : Dev × Bool :=
  match d.sector tr with
  | none => (d, false)
  | some (pool, at_) =>
    let e := d.sectorEnt at_
    if secPsn e || secCount e = 0 then (d, false)
    else
      let ls := d.blockLines pool e
      let n := blockNeed ls
      let d := (d.countEscape pool ls).storeBlock pool e ls
      (if keep && decide (n < secCount e) then d.shrinkBlock pool at_ n else d, true)

/-- The DPA pages that a recode has still to treat, by device: those of its leaves, or those it names itself where it was issued
untranslated. -/
def Recode.pages (r : Recode) (dev : BitVec 8) : List (BitVec 8 × Nat) :=
  let at_ := r.start.toNat + 128 * r.at_
  if r.xl.isEmpty then (List.range ((128 * (r.lines - r.at_) + at_ % 65536 + 65535) / 65536)).map fun i => (dev, rmPage at_ + i)
  else (r.xl.filter fun x => decide (at_ < x.base.toNat + 2 ^ x.lg)).map fun x => (pteHdev x.pte, x.page)

/-- GENF of the changed pages whose pass is over advances, by 1 each (R365). -/
def State.passPages (s : State) (r : Recode) : State × Recode :=
  let left := r.pages s.dev.num
  let over_ (p : Nat) : Bool := !left.contains (s.dev.num, p)
  let d := (r.changedPages.filter over_).foldl (fun d p =>
    if (d.rmLook (65536 * p)).isSome then d.rmSet (65536 * p) 96 32 ((rmGenf (d.rmEnt (65536 * p))).toNat + 1) else d) s.dev
  ({ s with dev := d }, { r with changedPages := r.changedPages.filter fun p => !over_ p })

/-- One line of a recode, as one step at the line's home: far copies of it go first (R63, R260, R366). -/
def recodeStep (r : Recode) : M Recode := do
  let s ← get
  let va := r.start + .ofNat 64 (128 * r.at_)
  let tr ← heldTr (s.viaKey r.ctx) r.xl nPerm va
  let s ← get
  if s.mustWait tr true || (s.allCores.any fun c => s.sendWaitsOf c.num tr.loc) || s.dev.entryActive tr.loc then stop .wait
  modify (·.flushLineEverywhere tr.loc)
  let (l, t) ← homeRead tr nEngWrite.kind
  let s ← get
  let r ← (match recodeLine (s.dev.ftOf r.ctx) r l t with
    | none => return { r with at_ := r.at_ + 1 }
    | some (l', t', fl, seed) => do
      match s.dev.putHome tr l' t' with
      | .error f => faultAt nEngWrite.kind va { f with info := r.at_ }
      | .ok d =>
        let d := d.markWrite tr
        let page := rmPage tr.dpa
        let d := if tr.here s.dev.num && (d.rmLook tr.dpa).isSome then d.rmSet tr.dpa 86 1 1 else d
        set { s with dev := d.tokensHome tr.loc }
        return { r with at_ := r.at_ + 1, seed := seed, flags := r.flags ||| fl, changed := r.changed + 1,
                        inval := r.inval + (if t'.cls = cINV then 1 else 0),
                        changedPages := if r.changedPages.contains page then r.changedPages else page :: r.changedPages } : M Recode)
  -- the end of a 4 KiB block, and of a page
  let s ← get
  let (s, r) := if r.at_ % 32 = 0 then
      let (d, did) := s.dev.recompress (sfpMode r.policy == 0) tr
      (({ s with dev := d } : State), { r with recomp := r.recomp + did.toNat })
    else (s, r)
  let (s, r) := s.passPages r
  set s
  return r

/-- A recode keeps its place behind earlier ones of the same pages (R366). -/
def Dev.recodeTurn (d : Dev) (n : Nat) (r : Recode) : Bool :=
  r.parked.isNone && !((d.recodes.take n).any fun q => (q.pages d.num).any (r.pages d.num).contains)

/-- A recode changed in place. -/
def Dev.updRecode (d : Dev) (n : Nat) (f : Recode → Recode) : Dev :=
  { d with recodes := d.recodes.zipIdx.map fun (i, k) => if k = n then f i else i }

/-- One line of recode `index`; after the last, its RECODE event (R365, R366, R379). -/
def execRecodeLineStep (index : Nat) (s : State) : Out :=
  .next (match s.dev.recodes[index]? with
    | none => s
    | some r =>
      if s.dev.recodeTurn index r = false then s
      else
        match runEngine s r.names (do
            let r ← recodeStep r
            modify fun t => { t with dev := t.dev.updRecode index fun _ => r }
            if r.lines ≤ r.at_ then
              modify fun t =>
                let t := t.layerEvent 7 r.core r.ctx r.no r.utag (r.inval % 2 ^ 32 + 2 ^ 32 * (r.recomp % 2 ^ 32)) r.changed r.flags r.faulted.toNat
                { t with dev := { t.dev with recodes := t.dev.recodes.eraseIdx index } }) with
        | .done t => t
        | .again t => t
        | .fault f =>
          let (t, h) := s.layerFault r.part r.ctx (.recode r.no.toNat) 6 r.pc f
          { t with dev := t.dev.updRecode index fun r => { r with parked := some h, faulted := true } }
        | _ => s)

/-! ### Turnover (R371 to R373) -/

/-- Whether a class allows a layer (Table 18.5). -/
def classAllows (pcls layer : Nat) : Bool :=
  match pcls with
  | 0 => layer == 3
  | 1 => layer == 1 || layer == 2
  | 2 => layer == 4 || layer == 2
  | _ => layer == 1 || layer == 2 || layer == 4

/-- Whether a partition's window holds a DPA (R387). -/
def Part.holds (p : Part) (dpa : Nat) : Bool := p.on && frameIn (some p) dpa

/-- Valid remap entries of a partition on a layer (R388). -/
def Dev.layerCount (d : Dev) (p : Part) (layer : Nat) : Nat :=
  ((List.range (p.ent.extractLsb' 384 64).toNat).filter fun i =>
    (d.rmLook ((p.ent.extractLsb' 448 64).toNat + 65536 * i)).any fun e => rmLayer e == layer).length

/-- The quota of a partition on a layer; L-F has none (Table 20.3). -/
def Part.quota (p : Part) (layer : Nat) : Option Nat :=
  match layer with
  | 1 => some (p.ent.extractLsb' 352 32).toNat
  | 2 => some (p.ent.extractLsb' 320 32).toNat
  | 4 => some (p.ent.extractLsb' 288 32).toNat
  | _ => none

/-- Whether an exchange of the layers of two pages takes some partition over a quota (R388): only a partition that holds one of
them gains a page on the other's layer. -/
def Dev.overQuota (d : Dev) (a b : Pg) : Bool :=
  let la := rmLayer a.ent
  let lb := rmLayer b.ent
  la != lb && d.parts.any fun p =>
    let over_ (l : Nat) : Bool := (p.quota l).any fun q => decide (q < d.layerCount p l + 1)
    (p.holds a.dpa && !p.holds b.dpa && over_ lb) || (p.holds b.dpa && !p.holds a.dpa && over_ la)

def execSwp (d a b : BitVec 5) (s : State) : Out := deliver s do
  let va := s.x a
  let vb := s.x b
  if va.extractLsb' 0 16 ≠ 0 then stop (.trap tMISALIGNED 0 va 0)
  if vb.extractLsb' 0 16 ≠ 0 then stop (.trap tMISALIGNED 0 vb 0)
  if s.fenceWaits 3 false true then stop .wait
  modify (·.fenceFar 3 false true)
  let pa ← pageAt s.via nPerm 2 va
  pa.look nPerm.kind true
  let pb ← pageAt s.via nPerm 2 vb
  pb.look nPerm.kind true
  if rmPage pa.dpa = rmPage pb.dpa then layerArg 3 va
  let bad (p q : Pg) : Bool := (!s.via.raw && ptePcls p.pte == 0) || pteCmpr p.pte || pteCache p.pte == 2 || !classAllows (ptePcls p.pte) (rmLayer q.ent)
  if ptePcls pa.pte ≠ ptePcls pb.pte ∨ bad pa pb = true then layerArg 2 va
  if bad pb pa then layerArg 2 vb
  let t ← get
  if t.dev.overQuota pa pb then layerArg 2 va
  let p := s.layerPart
  let no := (s.dev.part p).elim 1 (·.nextSwap)
  let w : Swap := ⟨p, s.core.num, s.via.key, no, .ofNat 64 (pa.dpa / 65536 * 65536), .ofNat 64 (pb.dpa / 65536 * 65536), false⟩
  modify fun t => { t with dev := { t.dev.updPart p (fun q => { q with nextSwap := nextNumber q.nextSwap }) with swaps := t.dev.swaps ++ [w] } }
  setXM d (no.setWidth 64)
  advanceM

/-- A location moved between two location pages that exchange their contents. -/
def swapLoc (la lb loc : Nat) : Nat :=
  if la ≤ loc ∧ loc < la + 65536 then lb + (loc - la) else if lb ≤ loc ∧ loc < lb + 65536 then la + (loc - lb) else loc

/-- A line number moved likewise. -/
def swapLine (la lb n : Nat) : Nat := swapLoc la lb (n * 128) / 128

/-- The 512 lines of a location page with their tags, what a host had made of them among it. -/
def Dev.pageLines (d : Dev) (loc : Nat) : List (Line × Tag) := (List.range 512).map fun i => d.lineAt (loc + 128 * i)

/-- The device with the lines of a location page written, tags where the layer keeps them. -/
def Dev.putPage (d : Dev) (loc : Nat) (ls : List (Line × Tag)) : Dev := ls.zipIdx.foldl (fun d ((l, t), i) => d.putLineAt (loc + 128 * i) l t) d

/-- Two location pages exchanged, data and tags (R372). -/
def Dev.swapPages (d : Dev) (la lb : Nat) : Dev := (d.putPage la (d.pageLines lb)).putPage lb (d.pageLines la)

/-- Steps 5 to 7 of a swap (R372): every cached copy goes back; data and tags change places; LOC, TLOC, LAYER and SITE are
exchanged and STATE is normal; what the homes and the cores keep of lines moves with them. -/
def State.turn (s : State) (w : Swap) : State :=
  let ea := s.dev.rmEnt w.a.toNat
  let eb := s.dev.rmEnt w.b.toNat
  let la := s.dev.locOf ea 0
  let lb := s.dev.locOf eb 0
  let s := s.onAllCores fun d c => convertLazy d c (fun e => !e.held && (swapLine la lb e.clasp != e.clasp)) s.owned
  let s := (s.flushPage la 65536).flushPage lb 65536
  let mv (n : Nat) : Nat := swapLine la lb n
  let d := s.dev.swapPages la lb
  let d := { d with clasps := d.clasps.map fun h => { h with loc := mv h.loc }, tokens := d.tokens.filter fun t => mv t.line == t.line }
  let put (d : Dev) (dpa : Nat) (e : BitVec 256) : Dev :=
    ((((d.rmSet dpa 192 64 (rmLoc e)).rmSet dpa 128 64 (rmTloc e)).rmSet dpa 56 8 (rmSite e)).rmSet dpa 52 4 (rmLayer e)).rmSet dpa 64 2 0
  let d := put (put d w.a.toNat eb) w.b.toNat ea
  let s := { s with dev := d }
  s.onAllCores fun d c => (d, { c with
    lazy := c.lazy.map fun e => { e with clasp := mv e.clasp, lines := e.lines.map mv }, bare := c.bare.map fun x => (mv x.1, x.2),
    arrivals := c.arrivals.map fun x => (mv x.1, x.2) })

/-- Whether the exchange has to wait for a location page: a request waits in the FIFO of a clasp of it, or a write-back to it or a landing
in it is on its way (R260, R372 step 4). -/
def State.pageWaits (s : State) (loc : Nat) : Bool :=
  let hit (n : Nat) : Bool := decide (loc / 128 ≤ n) && decide (n < loc / 128 + 512)
  (s.dev.clasps.any fun h => (hit h.loc && !h.fifo.isEmpty) || h.wbs.any fun w => hit w.copy.loc) ||
    s.allCores.any fun c => c.copies.any fun k => k.lines.any fun l => l.own.any hit

/-- One step of swap `index` (R372): its entries start to turn once no earlier swap names its pages; the exchange follows once no
count and no clasp request is left on them. -/
def execTurnoverSwap (index : Nat) (s : State) : Out :=
  .next (match s.dev.swaps[index]? with
    | none => s
    | some w =>
      let pages := [w.a, w.b]
      if (s.dev.swaps.take index).any fun q => pages.contains q.a || pages.contains q.b then s
      else if !w.turning then
        let d := (s.dev.rmSet w.a.toNat 64 2 1).rmSet w.b.toNat 64 2 1
        { s with dev := { d with rmCache := d.rmCache.filter (fun e => e.1 != rmPage w.a.toNat && e.1 != rmPage w.b.toNat), swaps := d.swaps.zipIdx.map fun (q, k) => if k = index then { q with turning := true } else q } }
      else
        let la := s.dev.locOf (s.dev.rmEnt w.a.toNat) 0
        let lb := s.dev.locOf (s.dev.rmEnt w.b.toNat) 0
        if s.counted (rmPage w.a.toNat) || s.counted (rmPage w.b.toNat) || s.pageWaits la || s.pageWaits lb then s
        else
          let s := s.turn w
          let s := { s with dev := { s.dev with swaps := s.dev.swaps.eraseIdx index } }
          s.layerEvent 8 w.core w.ctx w.no 0 w.b.toNat w.a.toNat 0 0)

/-! ### Page heat (R375, R376, R378) -/

/-- One sampling event of the acting core's memory path at a page (R375). -/
def execHeatSample (dpa : BitVec 64) (s : State) : Out :=
  .next (s.heatEvent ⟨false, 0, pteRaw, 4, dpa.toNat, 0, true, false⟩)

/-- HEAT of a valid entry halved, once in each decay interval while EN is 1 (R376). -/
def execHeatDecay (dpa : BitVec 64) (s : State) : Out :=
  .next (if s.dev.heatcfg.getLsbD 16 && (s.dev.rmLook dpa.toNat).isSome then
      { s with dev := s.dev.rmSet dpa.toNat 88 8 (rmHeat (s.dev.rmEnt dpa.toNat) / 2) }
    else s)

def execHeatRd (d a b : BitVec 5) (s : State) : Out := deliver s do
  let p ← pageAt s.via nLoad 4 (s.x a)
  p.look nLoad.kind false
  let e := p.ent
  modify fun t =>
    let dv := if (s.x b).getLsbD 0 then t.dev.rmSet p.dpa 87 1 0 else t.dev
    { t with dev := if (s.x b).getLsbD 1 then dv.rmSet p.dpa 88 8 0 else dv }
  setXM d (.ofNat 64 (2 ^ 32 * (rmGenf e).toNat + 2 ^ 24 * (rmTurning e).toNat + 2 ^ 16 * rmSite e + 2 ^ 12 * rmLayer e + 2 ^ 8 * (rmAcc e).toNat
    + rmHeat e))
  advanceM

/-! ### Staging (R353) -/

/-- A flash line and its tag staged; one that ECC cannot correct (`bad`) as POI. The cache may also be filled ahead of demand. -/
def execStagingFill (line : Nat) (bad : Bool) (s : State) : Out :=
  .next (if 48 ≤ spaceOf (line * 128) ∧ spaceOf (line * 128) < 64 ∧ s.dev.stage ≠ 0 then
      let (l, t) := if bad then (0, (s.dev.mem.tag (line * 128)).toPoi |> withCmp 0) else s.dev.stageLine (line * 128)
      let u : State := { s with dev := { s.dev with staged := (line, l, t) :: s.dev.staged.filter fun (a, _, _) => a != line } }
      if (bad || s.dev.lineBad (line * 128)) && !(s.dev.staged.any fun (a, _, t) => a == line && t.cls == cPOI) then
        (s.dev.dpaOf (line * 128)).elim u fun a => u.linePoisoned a (hardRecord s.dev.num 0)
      else u
    else s)

end Sys2Proof.Machine
end

