-- ==== Sys2Proof/Machine/Fabric.lean ====
section
/-! DEFINITION. The coherence fabric and the links (file 18): tokens (R334 to R336), Lacing flits and their messages (R340), hosts and
pools (R342 to R344), and the eviction of far copies (R252). -/

namespace Sys2Proof.Machine

/-! ### Tokens (R334 to R336) -/

/-- Whether a Shuttle owns a line, which then yields its tokens only at the landing (R260, R336): the core whose it is, or the number of
a saved one. -/
def State.shuttleOf (s : State) (line : Nat) : Option Nat :=
  ((s.allCores ++ (s.dev.saved.filter (!·.out)).map (·.body)).find? (·.owns (line * 128))).map (·.num)

/-- The tokens of a line: all at the home slice until somebody asks, and at the Shuttle that owns the line (R334). -/
def State.tokensOf (s : State) (line : Nat) : LineTokens :=
  let t := (s.dev.tokens.find? (·.line == line)).getD ⟨line, [(0, 256)], 0, [], []⟩
  match s.shuttleOf line with
  | some c => { t with counts := [(3 + 3 * c, 256)], owner := 3 + 3 * c }
  | none => t

/-- Every token of the line, the owner's among them, gathered by a holder. -/
def LineTokens.gather (t : LineTokens) (h : Nat) : LineTokens := { t with counts := [(h, 256)], owner := h }

/-- Tokens of the line, over all holders (R334). -/
def LineTokens.total (t : LineTokens) : Nat := t.counts.foldl (fun n x => n + x.2) 0

/-- Whether a number is a holder that may ask for tokens of a line: the home slice, or a cache of a core of the line's die (R334). -/
def State.isHolder (s : State) (line h : Nat) : Bool :=
  match homeDie (line * 128) with
  | none => false
  | some d => decide (d < 6) && (h == 0 || ((h - 1) % 3 != 2 && decide ((h - 1) / 3 / 48 = d) && s.dev.coreOn ((h - 1) / 3)))

/-- The state with the tokens of a line changed by a request of a holder; one that is no holder has none, and a line that a Shuttle owns
only counts the failure. -/
def State.request (s : State) (line h : Nat) (f : LineTokens → LineTokens) : State :=
  if !s.isHolder line h then s
  else
    let stored := (s.dev.tokens.find? (·.line == line)).getD ⟨line, [(0, 256)], 0, [], []⟩
    { s with dev := s.dev.setTokens (if (s.shuttleOf line).isSome then stored.fail h else f stored) }

/-- A transient read request: one token, with the owner's data (R335). -/
def execRead (line holder : Nat) (s : State) : Out :=
  .next (s.request line holder fun t =>
    if t.blocked holder then t.fail holder
    else if t.of_ holder ≠ 0 then t.ok holder
    else match t.giver with
      | some g => (t.ok holder).move g holder 1
      | none => t.fail holder)

/-- A transient write request: every token (R335). -/
def execWrite (line holder : Nat) (s : State) : Out :=
  .next (s.request line holder fun t => if t.blocked holder then t.fail holder else (t.ok holder).gather holder)

/-- Whether the access of a holder has still to perform: a strand of its core waits to make one again, or, of the home slice, one of any
core. Otherwise what it asked for was abandoned. -/
def State.holderWaits (s : State) (holder : Nat) : Bool :=
  s.allCores.any fun k => (holder == 0 || k.num == (holder - 1) / 3) && (k.strands.any (·.waiting) || (k.num == s.core.num && s.st.waiting))

/-- A step of a persistent request at the arbiter of the line's home slice: it enters; the first in arrival order becomes active and gathers
every token, which a line owned by a Shuttle delays; it ends when the requester's access has performed, or was abandoned (R336). -/
def execPersistent (line holder : Nat) (s : State) : Out :=
  let t := (s.dev.tokens.find? (·.line == line)).getD ⟨line, [(0, 256)], 0, [], []⟩
  .next (if !s.isHolder line holder then s
    else if !t.persist.contains holder then { s with dev := s.dev.setTokens { t with persist := t.persist ++ [holder] } }
    else if t.persist.head? ≠ some holder ∨ (s.shuttleOf line).isSome = true then s
    else if t.of_ holder ≠ 256 then { s with dev := s.dev.setTokens (t.gather holder) }
    else if s.holderWaits holder then s
    else { s with dev := s.dev.setTokens (t.ok holder) })

/-- A data message: the line and the sender's tokens reach the requester (R334). While an entry is active, tokens go to its requester alone,
and a line that a Shuttle owns yields none (R336). -/
def execData (line src dst : Nat) (s : State) : Out :=
  .next (if src = dst ∨ s.isHolder line src = false ∨ s.isHolder line dst = false ∨ (s.shuttleOf line).isSome = true then s
    else
      let t := s.tokensOf line
      let u := { t.move src dst (t.of_ src) with owner := if t.owner = src ∧ t.of_ src ≠ 0 then dst else t.owner }
      if t.blocked dst then s else { s with dev := s.dev.setTokens u })

/-! ### Lacing (R340) -/

/-- One bit of CRC-64/ECMA-182. -/
def crc64Bit (c : BitVec 64) (b : Bool) : BitVec 64 :=
  let c' := c <<< 1
  if c.getLsbD 63 != b then c' ^^^ 0x42F0E1EBA9EA3693 else c'

/-- CRC-64/ECMA-182 over bits [1983:0], byte 0 first and the high bit of each byte first (log 29). -/
def flitCrc (f : BitVec 2048) : BitVec 64 :=
  (List.range 1984).foldl (fun c i => crc64Bit c (f.getLsbD (i / 8 * 8 + (7 - i % 8)))) 0

/-- The header of a message, from its first 16 bytes (Table 18.1). -/
def msgHeader (bs : List Byte) : BitVec 128 := .ofNat 128 (numOf (bs.take 16))

/-- The effect of a message from another device (Table 18.1; log 28). At this device's homes: a write-back is performed, an acknowledgement
and a signature reach a clasp, a clasp request joins the FIFO. At its cores, about a clasp or line of the sender: data is what the sender's
home holds; a recall reaches the core that retains the clasp; a grant or a refusal answers the core's request. Requests for tokens have no
effect: caches of another die hold none of a line's (R334, R337). -/
def State.message (s : State) (h : BitVec 128) (line : Line) (tag : Tag) : State :=
  let addr := (h.extractLsb' 64 64).toNat
  let sender := (h.extractLsb' 0 8).toNat
  let core := (h.extractLsb' 32 16).toNat
  let loc := s.dev.dpaLoc addr
  let home := loc / 128
  let away := (256 + sender) * 2 ^ 64 + addr
  let at_ (n : Nat) (f : ClaspHome → ClaspHome) : State := { s with dev := s.dev.updClasp n f }
  match (h.extractLsb' 24 8).toNat with
  | 0x04 => { s with dev := s.dev.putLineAt away line tag }
  | 0x05 => if (s.dev.dpaLook addr).isNone then s
    else { s with dev := (s.dev.putLineAt loc line ((s.dev.lineAt loc).2.retag tag.fmt tag.scl tag.cls tag.pln)).unverifyAt addr }
  | 0x06 => at_ home fun k => { k with acks := k.acks - 1 }
  | 0x10 => at_ home fun k => { (k.count 1) with fifo := k.fifo ++ [⟨foreignCore sender (h.extractLsb' 48 16).toNat, 0, false⟩] }
  | 0x11 => (s.onCoreAt core (recallCore (away / 128))).dueRecall recallSent (away / 128)
  | 0x12 => at_ home fun k => { (k.count 1) with sig := some line, recalled := false }
  | 0x13 => at_ (away / 128) fun k => { k with granted := true, sig := if h.getLsbD 21 then some line else k.sig }
  | 0x14 => at_ (away / 128) fun k => { k with fifo := k.fifo.filter fun r => !(r.core == core && r.try_) }
  | _ => s

/-- The bytes a message takes, its line among them. -/
def msgSize (h : BitVec 128) : Nat := if h.getLsbD 21 then 144 else 16

/-- Messages taken from the bytes received, `tags` being those of the lines that begin in this flit: the state, the rest, and the tag
of a line that has begun in it. -/
def State.unpack (s : State) : Nat → List Byte → Option Tag → List Tag → State × List Byte × Option Tag
  | 0, bs, t, _ => (s, bs, t)
  | n + 1, bs, t, tags =>
    let h := msgHeader bs
    if bs.length < 16 then (s, bs, t)
    else if h.extractLsb' 24 8 = 0 then (s, [], none)
    else
      let (t, tags) := match t with
        | some x => (some x, tags)
        | none => if h.getLsbD 21 && decide (16 < bs.length) then (tags.head?, tags.drop 1) else (none, tags)
      if bs.length < msgSize h then (s, bs, t)
      else (s.message h (.ofNat 1024 (numOf ((bs.drop 16).take 128))) (t.getD Memory.tag0)).unpack n (bs.drop (msgSize h)) none tags

/-- A port changed. -/
def Dev.updLink (d : Dev) (p : Nat) (f : Link → Link) : Dev := if h : p < 12 then { d with links := d.links.set p (f (d.links[p]'h)) h } else d

/-- A flit arrives at a port: dropped where its CRC fails or it is not the next in sequence; forwarded, with no effect here, where it
is for another device; otherwise its messages are unpacked. -/
def execLacingFlit (port : Nat) (flit : BitVec 2048) (s : State) : Out :=
  let l := (s.dev.links[port]?).getD ⟨0, 0, 0, [], none⟩
  let tags := [flit.extractLsb' 144 24, flit.extractLsb' 168 24].take (flit.extractLsb' 142 2).toNat
  .next (if flitCrc flit ≠ flit.extractLsb' 1984 64 ∨ flit.extractLsb' 104 12 ≠ l.ack + 1 ∨ 12 ≤ port then s
    else
      let s := { s with dev := s.dev.updLink port fun l =>
        { l with ack := flit.extractLsb' 104 12, seq := flit.extractLsb' 116 12, cred := l.cred + (flit.extractLsb' 96 8).toNat } }
      if flit.extractLsb' 88 8 ≠ s.dev.num ∨ flit.extractLsb' 72 8 ≠ 1 then s
      else
        let bytes := (List.range 224).map fun k => flit.extractLsb' (192 + 8 * k) 8
        let (s, buf, t) := s.unpack 32 (l.buf ++ bytes) l.tag tags
        { s with dev := s.dev.updLink port fun l => { l with buf := buf, tag := t } })

/-! ### Hosts and pools (R342 to R345) -/

/-- Whether the device has a host: an enabled host/pool port that runs in mode H (R341, Table 20.2). -/
def Dev.hasHost (d : Dev) : Bool := [0, 1].any fun i => d.cfg (3214 + i) && !d.cfg (3212 + i)

/-- Whether a line is one of device memory, which the host reaches through CXL.mem (R341). -/
def devLine (line : Nat) : Bool := decide (16 ≤ spaceOf (line * 128)) && decide (spaceOf (line * 128) < 48)

/-- BISnp: the host gives up its copy of a line, and what it had modified comes back (R343). -/
def execBisnp (line : Nat) (s : State) : Out := .next (if s.dev.hasHost then { s with dev := s.dev.hostTake (line * 128) } else s)

/-- Eight bytes of a line written by the host, those that lie in it. In a line that the host holds the write stays with the host, which has
then modified it; otherwise it reaches the memory: the line becomes RAW and its GEN advances (R343). -/
def execHostWrite (line : Nat) (off : BitVec 7) (v : BitVec 64) (s : State) : Out :=
  let loc := line * 128
  let (l, t) := s.dev.lineAt loc
  let l := if t.cls = cRAW ∨ t.cls = cVAL then l else 0
  let l := setLineBytes l off.toNat (Nat.min 8 (128 - off.toNat)) v.toNat
  .next (if !s.dev.hasHost || !devLine line then s
    else if s.dev.hostLines.any (·.1 == line) then
      { s with dev := ({ s.dev with hostLines := (line, some l) :: s.dev.hostLines.filter (·.1 != line) } : Dev).unverify loc }
    else { s with dev := (s.dev.putLineAt loc l t.bumpGen.raw).unverify loc })

/-- A host read of device memory: the host then holds the line (R343). A POI line returns CXL poison and is not held. -/
def execHostRead (line : Nat) (s : State) : Out :=
  .next (if !s.dev.hasHost ∨ devLine line = false ∨ (s.dev.lineAt (line * 128)).2.cls = cPOI ∨ s.dev.hostLines.any (·.1 == line) = true then s
    else { s with dev := { s.dev with hostLines := (line, none) :: s.dev.hostLines } })

/-- The host snoops a line of its memory that a home slice caches (R342): an invalidation drops it; a fetch leaves it cached. -/
def execHostSnoop (line : Nat) (inval : Bool) (s : State) : Out :=
  .next (if inval && s.dev.hasHost then { s with dev := { s.dev with hostCache := s.dev.hostCache.filter (· != line) } } else s)

/-- An agent outside this device writes bytes of a pool line, which clears its tag-valid bit; the page is no longer verified (R332, R344). -/
def execOutsidePoolWrite (line : Nat) (off : BitVec 7) (v : BitVec 64) (s : State) : Out :=
  let loc := line * 128
  .next (if inPool loc then
      let l := setLineBytes (s.dev.mem.line loc) off.toNat (Nat.min 8 (128 - off.toNat)) v.toNat
      { s with dev := ({ s.dev with mem := s.dev.mem.setLine loc l, tagValid := s.dev.tagValid.filter (· != line),
                                    flashBad := s.dev.flashBad.filter (· != line) } : Dev).unverify loc }
    else s)

/-! ### Far copies (R252, R337) -/

/-- A far copy of the acting core written back, and dropped where asked: at any moment the implementation likes (R252). -/
def execFarCopyEviction (index : Nat) (drop : Bool) (s : State) : Out :=
  .next (match s.core.far[index]? with
    | none => s
    | some f =>
      let p (g : FarCopy) : Bool := g.loc == f.loc
      if s.backWaits p then s else s.flushFar p drop)

end Sys2Proof.Machine
end

