-- ==== Sys2Proof/Machine/System.lean ====
section
/-! DEFINITION. Reliability, partitions, debug, power and bring-up (file 20): soft errors (R381 to R383), machine checks (R384), the
configuration record (R385), partitions (R387), debug stops (R391, R392), power states (R393, R20), bring-up (R394) and the loss
of power (R361). -/

namespace Sys2Proof.Machine

/-! ### Soft errors (R381 to R383) -/

/-- A line made POI at its home, GEN and CMP kept. A flash line becomes so where it is staged; flash itself is not written (R15, R353,
R382). -/
def Dev.poisonAt (d : Dev) (loc : Nat) : Dev :=
  if inFlash loc then { d with staged := d.staged.map fun (a, l, t) => if a == loc / 128 then (a, 0, t.toPoi) else (a, l, t) }
  else d.putLineAt loc 0 (d.lineAt loc).2.toPoi

/-- A line made POI at its home, with its record for the partition that holds it (R382). -/
def State.poison (s : State) (loc : Nat) (r : Nat → FaultRec) : State :=
  let d := s.dev.poisonAt loc
  match s.dev.dpaOf loc with
  | none => { s with dev := d }
  | some a => (({ s with dev := d } : State).postFault (d.partOfDpa a) (r (a / 128 * 128)) none).1

/-- A scratchpad line of the acting core made POI (Table 20.1). -/
def State.poisonSpad (s : State) (off : Nat) : State := s.putSpad off 0 (s.core.spad.tag off).toPoi

/-- The fault UNCORRECTABLE_REG of a strand, which ends its context; a structure of no context is a machine check (R382, R384). -/
def State.lostRegister (s : State) (slot : Nat) : State :=
  if s.core.gang.isNone then s.machineCheckCore
  else
    let r : FaultRec := { s.mkFault 6 1 0 0 0 0 with who := whoOfSlot slot, pc := (s.strandAt slot).elim 0 Strand.wordPc }
    (s.postFault s.core.partId r none).1.terminateCtx s.core.ctxId

/-- The block of an address of a compressible page found bad by no access (R369); by an access, `checkBlock` finds it. -/
def State.blockLost (s : State) (dpa : Nat) : State :=
  match s.dev.rmLook dpa with
  | none => s
  | some e => s.badBlock (s.dev.locOf e 0 + 16 * (dpa % 65536 / 4096)) (dpa / 4096 * 4096) (hardRecord s.dev.num 0)

/-- Who an engine of the acting core works for: the key of its translations, and a record as it raises it (Table 17.6); 0 is the acting
strand. -/
def State.finder (s : State) (engine : BitVec 8) : Option (Nat × (FaultRec → FaultRec)) :=
  match engine.toNat with
  | 0 => some (s.via.key, id)
  | 6 => s.dev.recodes.head?.map fun r => (r.ctx, r.names)
  | 7 => s.dev.installs.head?.map fun i => (i.ctx, i.names)
  | 8 => s.dev.swaps.head?.map fun w => (w.ctx, (·.byLayer 8 w.ctx 0))
  | n =>
    match s.core.copies.find? (·.engine == n), s.core.engWrites.find? (·.kind == n) with
    | some k, _ => some (k.ctx, k.names)
    | none, some w => some (w.ctx, (·.by engine w.who w.ctx w.pc))
    | none, none => if n = 3 ∧ s.core.bobbin.nest.isSome then some (s.core.bobbin.ctx, (·.by 3 0 s.core.bobbin.ctx s.core.bobbin.pc)) else none

/-- An error found by an access at an address: its scratchpad line or its home line becomes POI, or its compressed block is marked (R369,
R382). -/
def State.foundAt (s : State) (engine kind : BitVec 8) (va : Word) : State :=
  match s.finder engine with
  | none => s
  | some (key, me) =>
    match s.dev.translate (s.viaKey key) ⟨false, false, kind == 0, false, false, kind⟩ va with
    | .ok (some (tr, _)) =>
      if tr.spad then s.poisonSpad tr.loc
      else match s.dev.sector tr with
        | some (_, at_) => s.badBlock at_ (tr.dpa / 4096 * 4096) (me (s.mkFault 4 3 kind tr.va 0 0))
        | none => s.poison tr.loc fun a => me (s.mkFault 6 2 kind tr.va a 0)
    | _ => s

/-- The fault UNCORRECTABLE_REG of an engine, which ends the context it works for (R382). -/
def State.lostEngine (s : State) (engine : BitVec 8) : State :=
  match s.finder engine with
  | none => s
  | some (key, me) =>
    if 4096 ≤ key then s.machineCheckCore
    else (s.postFault (s.dev.partOfCtx key) (me (s.mkFault 6 1 0 0 0 0)) none).1.terminateCtx key

/-- An uncorrectable error (Table 20.1). -/
def execUncorrectableError (place : ErrorPlace) (n : Nat) (s : State) : Out :=
  .next (match place with
    | .line => s.poison (n * 128) (hardRecord s.dev.num)
    | .access e k => s.foundAt e k (.ofNat 64 n)
    | .spad => s.poisonSpad (n % Config.spadBytes)
    | .farCopy =>
      match s.core.far.find? (·.loc == n) with
      | none => s
      | some f =>
        let t := { s with core := s.core.dropFar (n * 128) }
        if f.dirty = 0 then t else t.poison (n * 128) (hardRecord s.dev.num)
    | .fetched => s
    | .strand => s.lostRegister n
    | .engine e => s.lostEngine e
    | .source => { s with dev := { s.dev with flashBad := n :: s.dev.flashBad } }
    | .block => s.blockLost n
    | .shared => s.machineCheckCore)

/-- A corrected error changes no value and is counted by the core that corrected it, or, from number 288 on, by the die (R381; log 152). -/
def execCorrectedError (core : Nat) (s : State) : Out :=
  .next (if core < Config.cores then s.updCoreAt core fun c => { c with errcnt := c.errcnt + 1 }
    else { s with dev := { s.dev with dieErr := s.dev.dieErr.mapIdx fun i n => if i = core - Config.cores then n + 1 else n } })

/-- A scrub of a home line, or of a scratchpad line of the acting core, as one step: an uncorrectable error makes it POI. It waits, as a recode
does, while an engine owns the line (R63, R383). -/
def execScrub (line : ScrubLine) (bad : Bool) (s : State) : Out :=
  .next (if !bad then s
    else match line with
      | .spad n => s.poisonSpad (n * 128 % Config.spadBytes)
      | .home n => if s.owned (n * 128) || s.dev.entryActive (n * 128) then s else s.poison (n * 128) (hardRecord s.dev.num))

/-! ### Machine checks (R384) -/

/-- Every context terminated. -/
def State.terminateAll (s : State) : State :=
  (s.dev.ctxs.map (·.id)).foldl (fun s c => if s.dev.ctxLive c then s.terminateCtx c else s) s

/-- The management controller resets the device: every context ends, and nothing runs until the next bring-up, which rolls
uncommitted installs back (R361, R384). -/
def State.failDevice (s : State) : State :=
  let s := s.terminateAll
  { s with dev := { s.dev with failed := true } }

def execMachineCheck (wholeDevice : Bool) (s : State) : Out := .next (if wholeDevice then s.failDevice else s.machineCheckCore)

/-- A link that cannot deliver after its retries is out of service, and the device fails (R339, R384, R385). -/
def execLinkFailure (port : Nat) (s : State) : Out :=
  let d := { s.dev with config := s.dev.config &&& ~~~(BitVec.ofNat 4096 (if port < 12 then 2 ^ (3216 + port) else 0)) }
  .next ({ s with dev := d } : State).failDevice

/-! ### Partitions (R387) -/

/-- A partition's entry in the table of `sr.ptab`; a table at DPA 0 is no table (R324). -/
def Dev.partEntry (d : Dev) (part : Nat) : BitVec 512 :=
  if d.ptab.toNat / 4096 = 0 ∨ part = 0 ∨ 24 < part then 0
  else .ofNat 512 ((List.range 4).foldr (fun i acc => acc * 2 ^ 128 + d.readAt (d.dpaLoc (d.ptab.toNat + 64 * (part - 1) + 16 * i)) 16) 0)

/-- EN of an entry (Table 20.3). -/
def entryOn (e : BitVec 512) : Bool := e.getLsbD 240

/-- The device reads an entry whose EN became 1. -/
def execPartitionEnable (part : Nat) (s : State) : Out :=
  let e := s.dev.partEntry part
  .next { s with dev := s.dev.updPart part fun p => if entryOn e && !p.on then { p with on := true, ent := e } else p }

/-- A partition whose EN returned to 0 ends, its contexts with it. -/
def execPartitionDisable (part : Nat) (s : State) : Out :=
  .next (if entryOn (s.dev.partEntry part) || !(s.dev.part part).any (·.on) then s
    else
      let s := (s.dev.ctxs.filter fun c => c.part == part).foldl (fun s c => if s.dev.ctxLive c.id then s.terminateCtx c.id else s) s
      { s with dev := s.dev.updPart part fun p => { p with on := false, ent := 0 } })

/-! ### Debug (R391, R392) -/

/-- DBG of a partition entry; 3 reads as 2. -/
def Part.dbgMax (p : Part) : Nat := Nat.min 2 (p.ent.extractLsb' 244 2).toNat
/-- SEC of a partition entry: any value but 0 is secure. -/
def Part.secure (p : Part) : Bool := p.ent.extractLsb' 246 2 != 0

/-- The effective debug level of the core's context (R391, Table 20.4): a secure one without a token allows no invasive debug. -/
def State.debugLevel (s : State) (req : Nat) : Nat :=
  match s.dev.part (s.dev.partOfCore s.core.num) with
  | none => Nat.min 2 req
  | some p =>
    let l := Nat.min (Nat.min 2 req) p.dbgMax
    if p.secure && !s.dev.consent.contains s.core.ctxId then Nat.min 1 l else l

/-- The acting core made active for a debug access: a gated one stays so no longer, and one in retention goes back to it (Table 20.5). -/
def State.forDebug (s : State) : State :=
  if s.core.pwr = 2 then { s with core := { s.core with pwr := 0, pwrReq := 2 } } else s.ungated

/-- A strand of the acting core stopped at an instruction boundary (R325, R391): matrix operations retire and peek views end (R187), its
clasp request is withdrawn (R267), entries of released clasps convert and dirty far copies go home, where none has to wait. Its engines
stand still while it does (`Core.heldStill`). -/
def State.debugHalt (s : State) (slot : Nat) : State :=
  let s := s.drainTiles
  let s := s.updStrandAt slot Strand.halt
  let s := { s with dev := s.dev.withdraw s.core.num (· == slot) }
  let s := if s.backWaits fun _ => true then s
    else (s.onCore fun d c => convertLazy d c fun e => !e.held && e.relBy.isNone).flushFar (fun _ => true) false
  { s with core := { s.core with dbgHalt := if s.core.dbgHalt.contains slot then s.core.dbgHalt else slot :: s.core.dbgHalt
                                 dbgStep := s.core.dbgStep.filter (· != slot) } }

/-- A doubleword of memory written by the debug port under the context's translation; one that cannot be stored changes nothing (R391; log
151). -/
def State.debugStore (s : State) (va v : Word) : State :=
  match (storeParts (lineParts va 8) v.toNat).run s with
  | .ok (_, t) => { t with st := s.st }
  | .error _ => s

/-- What an invasive request of the debug port does (Table 20.4), for the strand of a frame number. Registers of a strand change only while it
is stopped. -/
def State.debugAct (s : State) (n : Nat) (q : DebugReq) : State :=
  match q with
  | .halt => s.debugHalt n
  | .go => { s with core := { s.core with dbgHalt := s.core.dbgHalt.filter (· != n) } }
  | .step => if s.core.heldStill n then { s with core := { s.core with dbgStep := n :: s.core.dbgStep } } else s
  | .writeX r v => if s.core.heldStill n then s.updStrandAt n fun t => t.setX r v else s
  | .writeV r g l d => if s.core.heldStill n then s.updStrandAt n fun t => t.setReg (t.phys r) ((t.reg (t.phys r)).setSeg g ⟨l, d⟩) else s
  | .writeSys num v => s.writeNumbered num v
  | .writeMem va v => s.debugStore va v
  | .read => s
  | .consent _ => s
  | .expire _ => s

/-- A request of the debug port to the acting core (R391): it sets the level asked for; a core that is off refuses it, and only invasive
debug may stop a strand or write (Tables 20.4, 20.5). Resident software's decisions on consent tokens come the same way (R392; log 111). -/
def execDebugStop (level : BitVec 2) (slot : Nat) (req : DebugReq) (s : State) : Out :=
  .next (match req with
    | .consent c => { s with dev := { s.dev with consent := if s.dev.ctxLive c then c :: s.dev.consent.filter (· != c) else s.dev.consent } }
    | .expire c => { s with dev := { s.dev with consent := s.dev.consent.filter (· != c) } }
    | q =>
      let s := { s with dev := { s.dev with dbgLevel := level } }
      if s.core.pwr = 3 ∨ s.debugLevel level.toNat < 2 then s else s.forDebug.debugAct slot q)

/-! ### Power (R20, R393) -/

/-- Whether an enabled event is pending at a core. -/
def Core.eventDue (c : Core) : Bool := c.rpend &&& c.renab.extractLsb' 0 4 != 0

/-- A core as it leaves off: as from reset, but for the work it was handed, and the records that others hold for its queue, those of the
walkers among them (R306, R324, R393). -/
def Core.wake (c : Core) (d : Dev) : Core :=
  let f := Core.fresh c.num (configRvec d.config) c.laneHalf
  { f with strands := [.bootCc (configRvec d.config)], assigned := c.assigned, evHeld := c.evHeld.filter (·.outer), temp := c.temp, heatCd := c.heatCd, heatS := c.heatS, halted := c.halted }

/-- The acting core leaves retention or off when an enabled event or work arrives (R393). -/
def execPowerWake (s : State) : Out :=
  .next (if s.core.pwr.toNat < 2 ∨ (s.core.eventDue || s.core.assigned.isSome) = false then s
    else if s.core.pwr = 2 then { s with core := { s.core with pwr := 0 } }
    else s.onCore fun d c => (d, c.wake d))

/-- Whether a strand of the core is ready: it runs, does not wait, and the debug port does not hold it still. -/
def Core.anyReady (c : Core) : Bool := c.strands.any fun t => t.run == .running && !t.waiting && !c.heldStill t.slot

/-- What makes a core active: a ready strand, an enabled event, or work that a walker handed it (Table 20.5). -/
def Core.wakes (c : Core) : Bool := c.anyReady || c.eventDue || c.assigned.isSome

/-- The device gates the core's clock when no strand is ready, and ungates it when one is, an event arrives or a walker hands it work (Table
20.5). -/
def execClockGate (s : State) : Out :=
  .next (if s.core.pwr = 0 && !s.wholeCore.wakes && s.core.dbgHalt.isEmpty then { s with core := { s.core with pwr := 1 } }
    else if s.core.pwr = 1 && s.wholeCore.wakes then { s with core := { s.core with pwr := 0 } }
    else s)

/-- Whether a core is active, or a strand of it makes it so at once (R20, Table 20.5). -/
def Core.active (c : Core) : Bool := c.pwr == 0 || !c.dbgHalt.isEmpty || (c.pwr == 1 && c.wakes)

/-- The operating point changes only with every enabled core in a state other than active (R20). -/
def execOperatingPointChange (point : Nat) (s : State) : Out :=
  .next (if s.allCores.any fun c => s.dev.coreOn c.num && c.active then s
    else { s with dev := { s.dev with opPoint := point } })

/-! ### Power loss and bring-up (R361, R385, R394) -/

/-- The module loses power: nothing runs until bring-up, which finds the flash as it was (R361). -/
def execModulePowerLoss (s : State) : Out := .next { s with dev := { s.dev with powered := false } }

/-- The record changes; the change takes effect at the next bring-up (R385). -/
def execConfigurationRecordChange (rec_ : BitVec 4096) (s : State) : Out := .next { s with dev := { s.dev with record := rec_ } }

/-- One bit of CRC-32C, reflected. -/
def crc32Bit (c : BitVec 32) : BitVec 32 := if c.getLsbD 0 then (c >>> 1) ^^^ 0x82F63B78 else c >>> 1

/-- CRC-32C of the first `n` bytes of a record, byte 0 first (log 29). -/
def crc32c (x : BitVec 4096) (n : Nat) : BitVec 32 :=
  ~~~((List.range n).foldl (fun c k =>
    (List.range 8).foldl (fun c _ => crc32Bit c) (c ^^^ (x.extractLsb' (8 * k) 8).setWidth 32)) 0xFFFFFFFF)

/-- Whether a record's CRC is right (Table 20.2). -/
def recordOk (x : BitVec 4096) : Bool := crc32c x 508 == x.extractLsb' 4064 32

/-- Whether a location outlives a loss of power: flash, and the memory of other devices. -/
def outlives (loc : Nat) : Bool := (48 ≤ spaceOf loc && spaceOf loc < 52) || 256 ≤ spaceOf loc

/-- A memory with only what outlives a loss of power. -/
def Memory.afterPower (m : Memory) : Memory :=
  ⟨m.cells.filter fun x => outlives x.1, m.tags.filter fun x => outlives (x.1 * 128)⟩

/-- The flash after bring-up: uncommitted installs are rolled back from the journal (R361). -/
def Dev.rollback (d : Dev) : Dev :=
  let lost := d.installs.filter fun i => !i.committed
  let d := (List.range d.installs.length).foldl (fun d n => if (d.installs[n]?).any (!·.committed) then d.failInstall n 6 else d) d
  { d with rollbacks := lost.length, rollTag := (lost.getLast?).elim 0 (·.utag) }

/-- The firmware image's bytes where bring-up loads them (R394 step 8). -/
def Memory.load (m : Memory) (image : List (Nat × Byte)) : Memory :=
  image.foldl (fun m (a, v) => (m.setByte a v).setTag a (m.tag a).raw) m

/-- What the next bring-up meets (log 150). -/
def Dev.nextUp (d : Dev) : BringUp := d.bringUps.headD .plain

/-- Bring-up from the record (R394, Table 20.6): a record whose CRC fails, memory that cannot be initialised and firmware whose digest fails are
device failures; otherwise everything but the flash starts anew, without the units whose step failed, the firmware loaded and each enabled
core's CC at `sr.rvec`. -/
def execBringUp (s : State) : Out :=
  let k := s.dev.nextUp
  let ups := s.dev.bringUps.tail
  .next (if recordOk s.dev.record = false ∨ k.memoryOk = false ∨ k.digestOk = false then
      { s with dev := { s.dev with powered := true, failed := true, bringUps := ups } }
    else
      let old := s.dev.rollback
      let t := State.boot (runningConfig k s.dev.record) s.dev.record
      { t with
        agenda := s.agenda
        dev := { t.dev with
          mem := old.mem.afterPower.load k.image
          flash := old.flash
          flashBad := old.flashBad
          rollbacks := old.rollbacks
          rollTag := old.rollTag
          opPoint := old.opPoint
          bringUps := ups
          free := old.free } })

end Sys2Proof.Machine
end

