-- ==== Sys2Proof/Machine/Auto.lean ====
section
/-! DEFINITION. Which step an agent inside the device takes next of its own accord, when the agenda is empty (log 3). Steps that
another party or chance decides (hosts, links, errors, clocks, the debug port, the management controller) come from the agenda
alone. -/

namespace Sys2Proof.Machine

/-- Whether a state changes under an instruction of an agent. -/
def State.moves (s : State) (o : Out) : Bool :=
  match o with
  | .next t => t != s
  | _ => false

/-- A tile with a pending operation, by X-hart and tile. -/
def State.pendingTile (s : State) : Option (BitVec 3 × BitVec 2) :=
  s.allStrands.findSome? fun t =>
    if t.kind = .execute then ((List.range 4).find? fun k => (t.tile k).pending != 0).map fun k => (.ofNat 3 t.idx, .ofNat 2 k) else none

/-- A copy and one of its lines whose landing need not wait. -/
def State.landable (s : State) : Option (Nat × Nat) :=
  s.core.copies.findSome? fun k => (k.lines.zipIdx.find? fun x => (s.land k x.2 x.1).isSome).map fun x => (k.id, x.2)

/-- The queue whose first block the Shuttle takes next, if it is the CC's turn and the block need not wait (R192, R247). -/
def State.blockReady (s : State) : Option (BitVec 2) :=
  if s.core.shuttleBusy || !s.shuttleTurn 0 then none else s.core.queueTurn.filter fun q => s.moves (execCommandBlockStart q s)

/-- The issuer of a batch that may complete: the oldest of its issuer, closed, with its copies retired. -/
def Core.batchReady (c : Core) : Option Nat :=
  (c.batches.find? fun b => b.closed && c.batchIdle b && (b.evt.isNone || decide (c.shuttleHeld < 64)) &&
    ((c.batches.find? (·.who == b.who)).any (· == b))).map (·.who)

/-- Whether a core enters the resident level at its next boundary (R322). -/
def State.entersResident (s : State) : Bool :=
  !s.core.resident && !s.core.halted && s.core.eventDue && s.core.pwr.toNat < 2 &&
    ((s.strandAt 0).any fun t => t.deco.isNone && t.run != .trapped)

/-- Whether the CC of a core is diverted at its next boundary (R199), a CC that `rpl` resumed at once (log 163). -/
def State.diverts (s : State) : Bool :=
  ((s.strandAt 0).any s.core.divertable) && s.allStrands.any fun t => t.slot != 0 && t.run == .trapped

/-- Whether the Bobbin can act: a start that is not parked and, unless nothing is left to emit, a Shuttle with room. -/
def Core.bobbinReady (c : Core) : Bool :=
  match c.bobbin.nest, c.bobbin.run with
  | some n, some _ => c.bobbin.parked.isNone && !c.heldStill 0 && (decide (nestTotal n ≤ c.bobbin.at_) || !c.shuttleBusy)
  | _, _ => false

/-- The next step of an engine of the acting core, if one can act. -/
def State.coreAgent (s : State) : Option Instr :=
  if s.core.pwr = 1 && s.wholeCore.wakes then some .clockGate
  else if s.entersResident then some .residentEntry
  else if s.diverts then some .trapDiversion
  else if s.core.gang.isSome && s.gangOver && s.core.pwr.toNat < 2 then some .gangEnd
  else if s.core.evq.length < 256 && s.core.evHeld.any s.core.mayPost then some .eventPost
  else match s.pendingTile with
  | some (h, k) => some (.matrixRetire h k)
  | none =>
    match s.landable with
    | some (c, l) => some (.landing c l)
    | none =>
      match s.core.batchReady with
      | some w => some (.batchComplete w)
      | none =>
        match s.blockReady with
        | some q => some (.commandBlockStart q)
        | none =>
          if s.core.bobbinReady && s.moves (execBobbinEmission s) then some .bobbinEmission
          else if (s.core.writeReady 4 || s.core.writeReady 5) && s.moves (execBastingEntryWrite s) then some .bastingEntryWrite
          else if s.core.assigned.any (·.saved.isNone) && s.moves (execGangStart s) then some .gangStart
          else if s.core.assigned.any (·.saved.isSome) && s.moves (execRequeueRestore s) then some .requeueRestore
          else if 2 ≤ s.core.pwr.toNat && (s.core.eventDue || s.core.assigned.isSome) then some .powerWake
          else if s.core.pwrReq != 0 && !s.wholeCore.anyRunning && s.core.dbgHalt.isEmpty then
            some (if s.core.pwrReq = 2 then .srPwrRetention else .srPwrOff)
          else none

/-- A partition whose held record can be written, or whose entry changed its EN. -/
def State.partAgent (s : State) (p : Nat) : Option Instr :=
  match s.dev.part p with
  | none => none
  | some q =>
    if !q.held.isEmpty && q.roomy && !s.dev.turningAt q.next then some (.faultRecordWrite p)
    else if q.on != entryOn (s.dev.partEntry p) then some (if q.on then .partitionDisable p else .partitionEnable p)
    else match q.launches.find? (s.launchOver p q) with
      | some l => some (.launchComplete p l.id)
      | none => none

/-- A step for the first persistent request of a line, at the arbiter of its home slice (R336). -/
def State.arbiterAgent (s : State) : Option Instr :=
  s.dev.tokens.findSome? fun t => match t.persist with
    | [] => none
    | h :: _ => if s.moves (execPersistent t.line h s) then some (.persistent t.line h) else none

/-- The next step of a die's or the device's own engine, if one can act. -/
def State.devAgent (s : State) : Option Instr :=
  match (List.range' 1 24).findSome? s.partAgent with
  | some i => some i
  | none =>
    match (List.range 6).find? fun d => (s.walkerPick d).isSome || (s.stopWanted d).isSome with
    | some d => some (.walkerAssign d)
    | none =>
      match (List.range s.dev.installs.length).find? fun i => s.moves (execInstallCommit i s) with
      | some i => some (.installCommit i)
      | none =>
        match s.dev.installs.zipIdx.find? fun x => s.dev.installTurn x.2 x.1 && s.moves (execInstallBlockVerify x.2 true s) with
        | some (_, i) => some (.installBlockVerify i true)
        | none =>
          match (s.dev.recodes.zipIdx.find? fun x => s.dev.recodeTurn x.2 x.1 && s.moves (execRecodeLineStep x.2 s)) with
          | some (_, i) => some (.recodeLineStep i)
          | none =>
            match (List.range s.dev.swaps.length).find? fun i => s.moves (execTurnoverSwap i s) with
            | some i => some (.turnoverSwap i)
            | none => s.arbiterAgent

end Sys2Proof.Machine
end

