-- ==== Sys2Proof/Machine/Access.lean ====
section
/-! DEFINITION. The access instructions of the A-harts (file 11): strips (R205, R206), loads (R208 to R214), stores (R215,
R216), scalar and vector atomics (R217 to R219), bank-side commands (R220 to R223), full/empty bits (R224) and line tags
(R225, R226). -/

namespace Sys2Proof.Machine

/-! ### Strips (R205, Table 11.1) -/

/-- Where element `e` of a strip lies, from the strand, its index values and `e`. -/
abbrev Strip := State → List Int → Nat → Word × Nat

/-- `.u`. -/
def stripU (a : BitVec 5) : Strip := fun s _ e => placeAt s.st.gw (s.x a).toNat e
/-- `.s`: B holds a stride in bytes. -/
def stripS (a b : BitVec 5) : Strip := fun s _ e => placeAt s.st.gw ((s.x a).toNat + e * (s.x b).toInt) 0
/-- `.b`: B holds a row pitch in bytes. -/
def stripB (a b : BitVec 5) : Strip := fun s _ e =>
  placeAt s.st.gw ((s.x a).toNat + ((e / s.st.vl.toNat : Nat) : Int) * (s.x b).toInt) ((e % s.st.vl.toNat : Nat) : Int)
/-- `.x`: B names an index register. -/
def stripX (a : BitVec 5) : Strip := fun s ix e => placeAt s.st.gw (s.x a).toNat (ix.getD e 0)

/-- The issue checks of the registers of an access: room, the class of an index, its KIND (R77, R89, R205); the index
values. `narrow` says that a data register lacks room, `raw` that a data register may not be RAW and is. -/
def issueAccess (ix : Option (BitVec 5)) (narrow raw : Bool) : M (List Int) := do
  let s ← get
  let g := s.st.grant
  match ix with
  | none =>
    if g ≠ 0 then
      if narrow then raiseTrap tGRANT_WIDTH
      if raw then raiseTrap tTAG_CLASS
    return []
  | some v =>
    let x ← if g = 0 then pure (s.xhart.reg (s.xhart.phys v)) else readReg v
    let F := s.fmt x.fmt
    if g ≠ 0 then
      if narrow || !x.holds F g then raiseTrap tGRANT_WIDTH
      if raw || x.rawBelow F g then raiseTrap tTAG_CLASS
    if F.kind ≠ .int then raiseTrap tFORBIDDEN_PAIR
    return (List.range g).map fun e => (F.decode true (x.code F.wid e)).1.toInt

/-- A named register of the X-hart in use, to be written, without any wait under a zero grant. -/
def claimUnless0 (v : BitVec 5) : M VReg := do
  let s ← get
  if s.st.grant = 0 then return s.xhart.reg (s.xhart.phys v) else claimReg v

/-- A named register of the X-hart in use, to be read, without any wait under a zero grant. -/
def readUnless0 (v : BitVec 5) : M VReg := do
  let s ← get
  if s.st.grant = 0 then return s.xhart.reg (s.xhart.phys v) else readReg v

/-! ### Loads (R209 to R213) -/

/-- A line as a load found it. -/
structure SeenLine where
  va : Word
  tr : Tr
  data : Line
  tag : Tag
  deriving DecidableEq, Repr

/-- The line of a load, read once for all its elements; an empty scratchpad line makes the load wait (R213). -/
def seeLine (va : Word) (seen : List SeenLine) : M (SeenLine × List SeenLine) := do
  match seen.find? (·.va == va) with
  | some x => return (x, seen)
  | none =>
    let tr ← translate (← get).via nLoad va
    if tr.spad && (← get).core.feEmpty.contains (tr.loc / 128) then stop .wait
    let (l, t) ← readLine tr nLoad.kind
    let x : SeenLine := ⟨va, tr, l, t⟩
    return (x, x :: seen)

/-- Lines in ascending address. -/
def insertTr (x : Tr) : List Tr → List Tr
  | [] => [x]
  | y :: r => if x.va.toNat < y.va.toNat then x :: y :: r else y :: insertTr x r

/-- The pages of an instruction's lines marked accessed, with one sampling event for each line in ascending order (R374, R377). -/
def touchAll (trs : List Tr) : M Unit := modify fun s => (trs.foldr insertTr []).foldl (fun s tr => s.touch tr true) s

/-- The check of R206 at slot `k` of a line. -/
def slotCheck (va : Word) (t : Tag) (k : Nat) : M Unit := do
  if t.cls ≠ cUNW && !slotOk ((← get).fmt t.fmt) k then stop (.trap tTAG_FORMAT 0 va 0)

/-- The checks of one element of a register load on its line (R206, R209). -/
def loadCheck (e : Nat) (va : Word) (k : Nat) (x : SeenLine) : M Unit := do
  slotCheck va x.tag k
  if x.tag.cls = cPOI then faultAt nLoad.kind va (fltPoison e x.tr.dpa)
  if x.tag.cls = cINV then stop (.trap tTAG_CLASS 0 va 0)

/-- An element of a line that a load has found. -/
def SeenLine.el (x : SeenLine) (ft : BitVec 4 → Fmt) (k : Nat) : FillEl := ⟨lineSlot x.data (ft x.tag.fmt).wid k, x.tag.fmt, x.tag.scl, x.tag.cls⟩

/-- The elements of a load in ascending order, none for one whose line cannot be reached, with the first failure, the lines seen and the
state. After a failure only the rest of its segment, of `n` elements, is read, since R52 judges an element by the tags of every line of its
segment, those of a line whose class or slot fails among them (R209). -/
def loadEls (n : Nat) : List (Nat × Word × Nat) → List SeenLine → Option (Nat × Stop) → State →
    List (Option FillEl) × Option (Nat × Stop) × List SeenLine × State
  | [], seen, b, s => ([], b, seen, s)
  | (e, va, k) :: r, seen, b, s =>
    if b.any fun y => y.1 / n != e / n then ([], b, seen, s)
    else
      match (seeLine va seen).run s with
      | .error x =>
        let (els, z) := loadEls n r seen (if b.isNone then some (e, x) else b) s
        (none :: els, z)
      | .ok ((x, seen), s) =>
        let b := match (loadCheck e va k x).run s with
          | .error y => if b.isNone then some (e, y) else b
          | .ok _ => b
        let (els, z) := loadEls n r seen b s
        (some (x.el s.fmt k) :: els, z)

/-- What ends a load: of the first element that R52 cannot write, which counts at its place, and the first failure, the lower-numbered
one. A line that is still empty holds back the judgement of its own segment, of `n` elements, alone (R52, R209, R210, R213). -/
def loadStop (n : Nat) (place : Nat → Word) (bad : Option Nat) (x : Option (Nat × Stop)) : Option Stop :=
  match bad, x with
  | some i, some (e, y) => if i / n < e / n || (decide (i < e) && !y.waits) then some (.trap tTAG_FORMAT 0 (place i) 0) else some y
  | some i, none => some (.trap tTAG_FORMAT 0 (place i) 0)
  | none, some (_, y) => some y
  | none, none => none

/-- A register load (R209, R210, R211). -/
def vecLoad (d : BitVec 5) (f : BitVec 1) (t : BitVec 4) (r : BitVec 1) (m : BitVec 3) (ix : Option (BitVec 5)) (strip : Strip) : M Unit := do
  let old ← claimUnless0 d
  let s ← get
  let g := s.st.grant
  let fi := if f = 1 then t else old.fmt
  let iv ← issueAccess ix (!old.holds (s.fmt fi) g) false
  let s ← get
  if g = 0 then advanceM
  else
    let locs := (List.range g).map fun e => (e, strip s iv e)
    let (els, x, seen, t) := loadEls (perSeg (s.fmt fi).wid) locs [] none s
    let deco := if r = 1 then some (s.st.modeOf m) else none
    let res := fill s.fmt fi deco s.st.seed els
    if let some y := loadStop (perSeg (s.fmt fi).wid) (fun i => (strip s iv i).1) res.bad x then stop y
    set t
    touchAll (seen.map (·.tr))
    raiseFlags res.flags
    modify fun u => ({ u with st := { u.st with seed := res.seed } } : State).putReg d (old.filled fi (s.fmt fi).wid res)
    advanceM

def execVldU (d a : BitVec 5) (f : BitVec 1) (t : BitVec 4) (r : BitVec 1) (m : BitVec 3) (s : State) : Out :=
  deliver s (vecLoad d f t r m none (stripU a))
def execVldS (d a b : BitVec 5) (f : BitVec 1) (t : BitVec 4) (r : BitVec 1) (m : BitVec 3) (s : State) : Out :=
  deliver s (vecLoad d f t r m none (stripS a b))
def execVldX (d a b : BitVec 5) (f : BitVec 1) (t : BitVec 4) (r : BitVec 1) (m : BitVec 3) (s : State) : Out :=
  deliver s (vecLoad d f t r m (some b) (stripX a))
def execVldB (d a b : BitVec 5) (f : BitVec 1) (t : BitVec 4) (r : BitVec 1) (m : BitVec 3) (s : State) : Out :=
  deliver s (vecLoad d f t r m none (stripB a b))

/-- The slots of a queue load: one for each line, in strip order (R212). -/
def loadSlots : List (Nat × Word × Nat) → List SeenLine → List (Word × Tag × List (Nat × Nat)) → M (List (Word × Tag × List (Nat × Nat)))
  | [], seen, js => do
    touchAll (seen.map (·.tr))
    return js
  | (_, va, k) :: r, seen, js => do
    let (x, seen) ← seeLine va seen
    slotCheck va x.tag k
    let s ← get
    let c := if x.tag.cls = cUNW then 0 else lineSlot x.data (s.fmt x.tag.fmt).wid k
    loadSlots r seen (if js.any (·.1 == va) then js.map fun j => if j.1 = va then (j.1, j.2.1, j.2.2 ++ [(k, c)]) else j
      else js ++ [(va, x.tag, [(k, c)])])

/-- A load into a queue: the push's binding and room for its lines come before anything is read (R194, R196, R212); a zero grant binds
nothing (log 161). -/
def queueLoad (q : BitVec 3) (strip : Strip) : M Unit := do
  let s ← get
  if s.st.grant = 0 then advanceM
  else
    let locs := (List.range s.st.grant).map fun e => (e, strip s [] e)
    let _ ← claimQueue q (locs.map (·.2.1)).eraseDups.length
    let js ← loadSlots locs [] []
    pushQueue q (js.map fun (va, t, cs) => ⟨(List.range 256).flatMap fun k => (cs.filter (·.1 == k)).map (·.2), t, va⟩)
    advanceM

def execVldUQueue (q : BitVec 3) (a : BitVec 5) (s : State) : Out := deliver s (queueLoad q (stripU a))
def execVldBQueue (q : BitVec 3) (a b : BitVec 5) (s : State) : Out := deliver s (queueLoad q (stripB a b))

/-! ### Plane loads (R214) -/

/-- One plane line: its segment's number, data, SCL and CLS, and the group FMT known so far. Its class is judged before its format (log 164). -/
def loadPlane (base : Word) (gf : Option (BitVec 4)) (h p : Nat) : M ((Nat × Line × BitVec 8 × BitVec 3) × Option (BitVec 4)) := do
  let va := base + .ofNat 64 (1024 * h + 128 * p)
  let (x, _) ← seeLine va []
  touchM x.tr
  let c := x.tag.cls
  if c = cPOI then faultAt nLoad.kind va (fltPoison (1024 * h) x.tr.dpa)
  if c = cINV then stop (.trap tTAG_CLASS 0 va 0)
  if c = cUNW then return ((8 * h + p, 0, if p = 0 then x.tag.scl else 127, cUNW), gf)
  if ((← get).fmt x.tag.fmt).kind ≠ .nested ∨ x.tag.pln.toNat ≠ p ∨ (gf.any (· != x.tag.fmt)) = true then stop (.trap tTAG_FORMAT 0 va 0)
  return ((8 * h + p, x.data, if p = 0 then x.tag.scl else 127, if c = cSTG then cVAL else c), some x.tag.fmt)

/-- The plane lines in ascending order of group and plane. -/
def loadPlanes (base : Word) : List (Nat × Nat) → Option (BitVec 4) → M (List (Nat × Line × BitVec 8 × BitVec 3) × Option (BitVec 4))
  | [], gf => return ([], gf)
  | (h, p) :: r, gf => do
    let (x, gf) ← loadPlane base gf h p
    let (xs, gf) ← loadPlanes base r gf
    return (x :: xs, gf)

/-- A segment of a list replaced, where there is one. -/
def setSeg (k : Nat) (x : Seg) : List Seg → List Seg
  | [] => []
  | s :: r => if k = 0 then x :: r else s :: setSeg (k - 1) x r

def execVldNp (d a : BitVec 5) (m : BitVec 1) (k : BitVec 4) (s : State) : Out := deliver s do
  let g := s.st.grant
  if g = 0 then advanceM
  else
    let old ← claimReg d
    let n := old.segs.length
    let groups := (g + 1023) / 1024
    if n * 128 < g ∨ n < 8 * (groups - 1) + k.toNat then raiseTrap tGRANT_WIDTH
    let base := s.x a
    if base.extractLsb' 0 10 ≠ 0 then stop (.trap tMISALIGNED 0 base 0)
    let (xs, gf) ← loadPlanes base ((List.range groups).flatMap fun h => (List.range k.toNat).map fun p => (h, p)) none
    let F := gf.getD old.fmt
    let filler := if m = 1 then (List.range groups).flatMap fun h => (List.range' k.toNat (8 - k.toNat)).map fun p =>
        (8 * h + p, (if p = k.toNat then BitVec.allOnes 1024 else 0 : Line), (127 : BitVec 8), cVAL) else []
    let segs := (xs ++ filler).foldl (fun ss (i, l, c, cls) => setSeg i ⟨l, mkSide F c false cls⟩ ss) old.segs
    modify (·.putReg d ⟨F, segs⟩)
    advanceM

/-! ### Work line by line (R210) -/

/-- A computation for one line whose failure counts at an element. -/
abbrev AtEl := StateT State (Except (Nat × Stop))

/-- A computation whose stop counts at element `e`. -/
def atEl {α : Type} (e : Nat) (m : M α) : AtEl α := fun s =>
  match m.run s with
  | .ok r => .ok r
  | .error x => .error (e, x)

/-- Lines worked on one after another; of those that fail, the failure at the lowest-numbered element is kept. -/
def runLines {α β : Type} (f : α → AtEl β) : List α → State → List β × Option (Nat × Stop) × State
  | [], s => ([], none, s)
  | j :: r, s =>
    match (f j).run s with
    | .ok (x, s) =>
      let (xs, b, s) := runLines f r s
      (x :: xs, b, s)
    | .error (e, x) =>
      let (xs, b, s) := runLines f r s
      (xs, (match b with
        | some (e', y) => if e' < e then some (e', y) else some (e, x)
        | none => some (e, x)), s)

/-- All lines, or the stop of the lowest-numbered element that fails (R210). -/
def allLines {α β : Type} (f : α → AtEl β) (js : List α) : M (List β) := do
  let (xs, b, s) := runLines f js (← get)
  match b with
  | some (_, x) => stop x
  | none => set s
  return xs

/-- The union of flags. -/
def orFlags (fs : List (BitVec 8)) : BitVec 8 := fs.foldl (· ||| ·) 0

/-! ### Stores (R215, R216) -/

/-- A slot that a store writes: the lowest element that addresses it, the element it takes, and the queue tag of that. -/
structure StoreEl where
  slot : Nat
  first : Nat
  e : Nat
  el : FillEl
  tag : Tag
  deriving DecidableEq, Repr

/-- What a store writes to one line. -/
structure StoreLine where
  va : Word
  e0 : Nat
  els : List StoreEl
  deriving DecidableEq, Repr

/-- One element among the lines of a store. Of two that address one slot, an open choice decides (R215; log 6), and the other is not converted
at all (R43; log 155). -/
def addStoreEl (js : List StoreLine) (e : Nat) (loc : Word × Nat) (el : FillEl) (tag : Tag) : M (List StoreLine) := do
  let (va, k) := loc
  match js.find? (·.va == va) with
  | none => return js ++ [⟨va, e, [⟨k, e, e, el, tag⟩]⟩]
  | some j =>
    if j.els.any (·.slot == k) then
      let (n, s) := (← get).takeFree
      set s
      let put (x : StoreEl) : StoreEl := if x.slot = k ∧ Config.laterWins n = true then { x with e := e, el := el, tag := tag } else x
      return js.map fun j => if j.va = va then { j with els := j.els.map put } else j
    else return js.map fun j => if j.va = va then { j with els := j.els ++ [⟨k, e, e, el, tag⟩] } else j

/-- The lines of a store from its elements in ascending order. -/
def storeLines : List (Nat × (Word × Nat) × FillEl × Tag) → List StoreLine → M (List StoreLine)
  | [], js => return js
  | (e, loc, el, t) :: r, js => do storeLines r (← addStoreEl js e loc el t)

/-- The least of some element numbers, or a default. -/
def leastEl (z : Nat) (es : List Nat) : Nat := es.foldl Nat.min (es.headD z)

/-- The bytes that `n`-bit slots occupy. -/
def slotBytes (w : Nat) (ks : List Nat) : BitVec 128 :=
  ks.foldl (fun m k => m ||| byteMask (w * k / 8) ((w * k + w - 1) / 8 + 1 - w * k / 8)) 0

/-- The bytes of a far copy that a typed store makes dirty: those of its slots and those it changes; all of them where the
line's format, scale or class changes. -/
def dirtyOf (full : Bool) (w : Nat) (ks : List Nat) (old new : Line) (t u : Tag) : BitVec 128 :=
  if full || t != u then BitVec.allOnes 128
  else (List.range 128).foldl (fun m k => if lineBytes old k 1 = lineBytes new k 1 then m else m ||| byteMask k 1) (slotBytes w ks)

/-- The format a line will hold, against which R206 checks the slots of a store (R215). -/
def StoreLine.target (j : StoreLine) (policy : BitVec 9) (t : Tag) (full : Bool) : BitVec 4 :=
  let low := j.els.foldl (fun (a : StoreEl) b => if b.slot < a.slot then b else a) (j.els.headD ⟨0, 0, 0, ⟨0, 0, 127, 0⟩, 0⟩)
  let c := low.el.cls
  if c = cPOI ∨ c = cINV ∨ c = cSTG ∨ (j.els.any (·.el.cls == cRAW)) = true ∨ (full = false ∧ t.cls = cRAW) ∨ sfpMode policy = 0 then
    low.el.fmt
  else sfpFmt policy

/-- The new elements of a line. -/
def StoreLine.new (j : StoreLine) : List LineEl := j.els.map fun x => ⟨x.slot, x.el, false⟩

/-- A line of a store after the checks made before anything is converted: the line as it was, whether every slot is written, the slots that
its format lacks, and whether its elements draw under SR. -/
structure StorePlan where
  j : StoreLine
  tr : Tr
  old : Line
  tag : Tag
  full : Bool
  bad : List Nat
  draws : Bool
  deriving DecidableEq, Repr

/-- The checks of one line of a store (R206, R210, R215). -/
def planLine (w : Nat) (j : StoreLine) : AtEl StorePlan := do
  let tr ← atEl j.e0 (translateAt (← get).via nStore j.e0 j.va)
  let (l, t) ← atEl j.e0 (readLine tr nStore.kind)
  let s ← get
  let full := (List.range (perSeg w)).all fun k => j.els.any (·.slot == k)
  let ti := j.target (pteSfp tr.pte) t full
  let bad := (j.els.filter fun x => !slotOk (s.fmt ti) x.slot).map (·.first)
  if bad.any (· == j.e0) then atEl j.e0 (stop (.trap tTAG_FORMAT 0 j.va 0))
  if t.cls = cSTG then atEl j.e0 (faultAt nStore.kind j.va (fltStgWrite j.e0 tr.dpa))
  if !full && t.cls == cPOI then atEl j.e0 (faultAt nStore.kind j.va (fltPoison j.e0 tr.dpa))
  if !full && t.cls == cINV then atEl j.e0 (stop (.trap tTAG_CLASS 0 j.va 0))
  return ⟨j, tr, l, t, full, bad, storeDraws (pteSfp tr.pte) s.st.round full t j.new⟩

/-- The old elements of a planned line, by slot. -/
def StorePlan.oldSlots (p : StorePlan) (w : Nat) : List Nat :=
  if p.full then [] else (List.range (perSeg w)).filter fun k => !(p.j.els.any (·.slot == k))

/-- `n` draws from a generator state on. -/
def drawList : Nat → BitVec 32 → List (BitVec 32)
  | 0, _ => []
  | n + 1, s => seedStep s :: drawList n (seedStep s)

/-- Who draws under SR in a store: each new element that stays, by its number, in ascending order; then the old elements that its lines merge,
line by line in ascending slot (R41; logs 58, 154). The former are (none, element), the latter (line, slot). -/
def drawers (w : Nat) (es : List Nat) (ps : List StorePlan) : List (Option Word × Nat) :=
  let on := ps.filter (·.draws)
  ((es.filter fun e => on.any fun p => p.j.els.any (·.e == e)).map fun e => (none, e)) ++
    on.flatMap fun p => (p.oldSlots w).map fun k => (some p.j.va, k)

/-- The draw of a slot of a planned line. -/
def StorePlan.draw (p : StorePlan) (ds : List ((Option Word × Nat) × BitVec 32)) (k : Nat) : BitVec 32 :=
  match p.j.els.find? (·.slot == k) with
  | some x => ((ds.find? (·.1 == (none, x.e))).map (·.2)).getD 0
  | none => ((ds.find? (·.1 == (some p.j.va, k))).map (·.2)).getD 0

/-- One line of a store converted and written (R61, R62, R210, R216). `queue`: the elements come from a queue, and must share one tag, of which
a POI, INV or STG line takes PLN too. The least element that the line cannot take fails; an old element fails with the first of the line. -/
def storeOne (w : Nat) (queue : Bool) (ds : List ((Option Word × Nat) × BitVec 32)) (p : StorePlan) : AtEl (BitVec 8) := do
  let s ← get
  let j := p.j
  let tagFormat (e : Nat) : AtEl Unit := atEl e (stop (.trap tTAG_FORMAT 0 j.va 0))
  let mixed := if queue then (j.els.filter fun x => x.tag != (j.els.headD x).tag).map (·.e) else []
  match storeLine s.fmt w (pteSfp p.tr.pte) s.st.round (p.draw ds) p.old p.tag j.new with
  | .error ks =>
    let old := if ks.all fun k => j.els.any (·.slot == k) then [] else [j.e0]
    tagFormat (leastEl j.e0 (old ++ p.bad ++ mixed ++ (j.els.filter fun x => ks.contains x.slot).map (·.e)))
    return 0
  | .ok r =>
    if p.bad ++ mixed ≠ [] then tagFormat (leastEl j.e0 (p.bad ++ mixed))
    let moved := r.cls == cPOI || r.cls == cSTG || (r.cls == cINV && (lowSlot j.new).el.cls == cINV)
    let u := p.tag.retag r.fmt r.scl r.cls (if queue && moved then ((j.els.head?).elim p.tag (·.tag)).pln else p.tag.pln)
    atEl j.e0 (writeLine p.tr nStore.kind j.e0 r.data u (dirtyOf p.full (s.fmt r.fmt).wid (j.els.map (·.slot)) p.old r.data p.tag u))
    return r.flags

/-- The failure at the lower-numbered element. -/
def firstOf (a b : Option (Nat × Stop)) : Option (Nat × Stop) :=
  match a, b with
  | some x, some y => if y.1 < x.1 then b else a
  | some _, none => a
  | none, _ => b

/-- A store of elements with their places, its flags raised at the end (R41, R61, R210). -/
def storeStrip (queue : Bool) (xs : List (Nat × (Word × Nat) × FillEl × Tag)) : M Unit := do
  let js ← storeLines xs []
  let s ← get
  let w := s.st.gw
  let (ps, b₁, s₁) := runLines (planLine w) js s
  let who := drawers w (xs.map (·.1)) ps
  let draws := drawList who.length s.st.seed
  let (fs, b₂, s₂) := runLines (storeOne w queue (who.zip draws)) ps s₁
  match firstOf b₁ b₂ with
  | some (_, x) => stop x
  | none => set { s₂ with st := { s₂.st with seed := (draws.getLast?).getD s.st.seed } }
  touchAll (ps.map (·.tr))
  raiseFlags (orFlags fs)

/-- The elements of a register as a store takes them. -/
def VReg.storeEl (r : VReg) (w e : Nat) : FillEl :=
  let s := r.seg (e / perSeg w)
  ⟨s.code w (e % perSeg w), r.fmt, s.side.scl, s.side.cls⟩

/-- A store from a register (R215). -/
def vecStore (v : BitVec 5) (ix : Option (BitVec 5)) (strip : Strip) : M Unit := do
  let r ← readUnless0 v
  let s ← get
  let g := s.st.grant
  let iv ← issueAccess ix (!r.holds (s.fmt r.fmt) g) false
  if g = 0 then advanceM
  else
    storeStrip false ((List.range g).map fun e => (e, strip s iv e, r.storeEl (s.fmt r.fmt).wid e, (0 : Tag)))
    advanceM

def execVstU (v a : BitVec 5) (s : State) : Out := deliver s (vecStore v none (stripU a))
def execVstS (v a b : BitVec 5) (s : State) : Out := deliver s (vecStore v none (stripS a b))
def execVstX (v a b : BitVec 5) (s : State) : Out := deliver s (vecStore v (some b) (stripX a))
def execVstB (v a b : BitVec 5) (s : State) : Out := deliver s (vecStore v none (stripB a b))

/-- A store from a queue (R216; log 161). -/
def queueStore (q : BitVec 3) (strip : Strip) : M Unit := do
  let s ← get
  let g := s.st.grant
  if g = 0 then advanceM
  else
    let (x, els) ← headQueue q g
    storeStrip true (els.zipIdx.map fun ((c, t, _), e) => (e, strip s [] e, ⟨c, t.fmt, t.scl, t.cls⟩, t))
    modify (·.setQueue q { x with slots := dropElems g x.slots })
    advanceM

def execVstUQueue (q : BitVec 3) (a : BitVec 5) (s : State) : Out := deliver s (queueStore q (stripU a))
def execVstBQueue (q : BitVec 3) (a b : BitVec 5) (s : State) : Out := deliver s (queueStore q (stripB a b))

/-! ### Scalar atomics (R217, R218) -/

/-- A signed reading of `n` bits. -/
def signedOf (n v : Nat) : Int := if 2 ^ (n - 1) ≤ v then (v : Int) - (2 ^ n : Nat) else v

/-- m' of Table 11.4 in `n` bits, with flags; `x` is the expected value of `.cas`. -/
def amoResult (o : BitVec 4) (n m b x : Nat) : Nat × BitVec 8 :=
  match o.toNat with
  | 0 => (b, 0)
  | 1 => ((m + b) % 2 ^ n, 0)
  | 2 => (m &&& b, 0)
  | 3 => (m ||| b, 0)
  | 4 => (m ^^^ b, 0)
  | 5 => (if signedOf n b < signedOf n m then b else m, 0)
  | 6 => (if signedOf n m < signedOf n b then b else m, 0)
  | 7 => (Nat.min m b, 0)
  | 8 => (Nat.max m b, 0)
  | 9 => (if m = x then b else m, 0)
  | _ =>
    let (u, f₁) := fp32.decode false m
    let (v, f₂) := fp32.decode false b
    let (r, f₃) := u.add false v
    let (c, f₄) := fp32.convert .rne 0 r
    (c, f₁ ||| f₂ ||| f₃ ||| f₄)

/-- An operand of `n` bytes, at most 16: the register, with the next above it. -/
def State.wide (s : State) (r : BitVec 5) (n : Nat) : Nat :=
  if n = 16 then (s.x r).toNat + 2 ^ 64 * (s.x (r + 1)).toNat else (s.x r).toNat % 2 ^ (8 * n)

/-- The classes that stop a read-modify-write (R47): POISON, TAG_CLASS, STG_WRITE. -/
def rmwClass (va : Word) (tr : Tr) (t : Tag) (e : Nat) : M Unit := do
  if t.cls = cPOI then faultAt nRmw.kind va (fltPoison e tr.dpa)
  if t.cls = cINV then stop (.trap tTAG_CLASS 0 va 0)
  if t.cls = cSTG then faultAt nRmw.kind va (fltStgWrite e tr.dpa)

/-- The old value goes to X[D], sign-extended for `.w`, in the load's shadow (R82, R218). -/
def State.amoReturn (s : State) (d : BitVec 5) (n m : Nat) : State :=
  if n = 4 then s.advanceValue d (.ofInt 64 (signedOf 32 m))
  else
    let t := s.advanceValue d (.ofNat 64 m)
    if n = 16 then
      if s.st.kind = .cc then t.setX (d + 1) (.ofNat 64 (m / 2 ^ 64))
      else { t with st := { t.st with pend := t.st.pend ++ [⟨d + 1, Config.loadDelay, .value (.ofNat 64 (m / 2 ^ 64)), s.st.wordPc⟩] } }
    else t

def execAmo (d a b : BitVec 5) (o : BitVec 4) (z : BitVec 2) (s : State) : Out := deliver s do
  let n := 4 * 2 ^ z.toNat
  let va := s.x a
  if va.toNat % n ≠ 0 then stop (.trap tMISALIGNED 0 va 0)
  engGate 3
  let tr ← translate s.via nRmw va
  let (l, t) ← readHome tr nRmw.kind
  rmwClass va tr t 0
  let l := if t.cls = cUNW then 0 else l
  let off := va.toNat % 128
  let m := lineBytes l off n
  let (v, f) := amoResult o (8 * n) m (s.wide b n) (s.wide d n)
  raiseFlags (if t.cls = cUNW then f ||| fNX else f)
  writeHome tr nRmw.kind 0 (setLineBytes l off n v) t.raw (if t.cls = cUNW then BitVec.allOnes 128 else byteMask off n)
  touchM tr
  modify (·.amoReturn d n m)

/-! ### Vector atomics (R219) -/

/-- An element that a line update takes: its slot, its number, its value as read (a vector register element). -/
structure UpdEl where
  slot : Nat
  e : Nat
  scl : BitVec 8
  code : Nat
  cls : BitVec 3
  deriving DecidableEq, Repr

/-- A line with the elements that update it, in ascending order. -/
structure UpdLine where
  va : Word
  els : List UpdEl
  deriving DecidableEq, Repr

/-- An element added to the lines of an update. -/
def addUpd (js : List UpdLine) (x : Word × UpdEl) : List UpdLine :=
  if js.any (·.va == x.1) then js.map fun j => if j.va = x.1 then { j with els := j.els ++ [x.2] } else j else js ++ [⟨x.1, [x.2]⟩]

/-- The lines of an update of `g` elements of a register at its places. -/
def updLines (r : VReg) (F : Fmt) (g : Nat) (loc : Nat → Word × Nat) : List UpdLine :=
  ((List.range g).map fun e =>
    let s := r.seg (e / perSeg F.wid)
    ((loc e).1, (⟨(loc e).2, e, s.side.scl, s.code F.wid (e % perSeg F.wid), s.side.cls⟩ : UpdEl))).foldl addUpd []

/-- The first element of an update. -/
def UpdLine.e0 (j : UpdLine) : Nat := (j.els.headD ⟨0, 0, 0, 0, 0⟩).e

/-- One element of a vector atomic, both values in format F (R219). -/
def amoVOne (o : BitVec 4) (F : Fmt) (old : Nat) (x : UpdEl) : Nat × BitVec 8 :=
  let (m, f₁) := F.decode (F.kind != .float) old
  let (b, f₂) := if x.cls = cUNW then (Val.zero, fNX) else F.decode (F.kind != .float) x.code
  let f := f₁ ||| f₂
  let out (v : Val) (g : BitVec 8) : Nat × BitVec 8 :=
    let (c, h) := F.convert .rne 0 v
    (c, f ||| g ||| h)
  match o.toNat with
  | 0 => match F.kind with
    | .float => let (v, g) := m.add false b; out v g
    | _ => (intCode F.wid (m.toInt + b.toInt), f)
  | 1 => match F.kind with
    | .float => out (m.min b) 0
    | _ => (intCode F.wid (min m.toInt b.toInt), f)
  | 2 => match F.kind with
    | .float => out (m.max b) 0
    | _ => (intCode F.wid (max m.toInt b.toInt), f)
  | 3 => (intCode F.wid m.toInt &&& intCode F.wid b.toInt, f)
  | 4 => (intCode F.wid m.toInt ||| intCode F.wid b.toInt, f)
  | _ => (intCode F.wid m.toInt ^^^ intCode F.wid b.toInt, f)

/-- One line of a vector atomic (R219). -/
def amoVLine (o fi : BitVec 4) (F : Fmt) (j : UpdLine) : AtEl (BitVec 8 × Tr) := do
  let tr ← atEl j.e0 (translateAt (← get).via nRmw j.e0 j.va)
  let (l, t) ← atEl j.e0 (readHome tr nRmw.kind)
  let tagFormat (e : Nat) : AtEl Unit := atEl e (stop (.trap tTAG_FORMAT 0 j.va 0))
  let s ← get
  let lf := if t.cls = cUNW then F else s.fmt t.fmt
  let bad := (j.els.filter fun x => !slotOk lf x.slot).map (·.e)
  if bad.any (· == j.e0) then tagFormat j.e0
  atEl j.e0 (rmwClass j.va tr t j.e0)
  if t.cls = cRAW then atEl j.e0 (stop (.trap tTAG_CLASS 0 j.va 0))
  if t.scl ≠ 127 ∨ (t.cls ≠ cUNW ∧ t.fmt ≠ fi) then tagFormat j.e0
  let bad := bad ++ (j.els.filter fun x => x.scl != 127).map (·.e)
  if bad ≠ [] then tagFormat (leastEl j.e0 bad)
  let l := if t.cls = cUNW then 0 else zeroPad F.wid l
  let (l, f) := j.els.foldl (fun (l, f) x =>
    let (c, g) := amoVOne o F (lineSlot l F.wid x.slot) x
    (setLineSlot l F.wid x.slot c, f ||| g)) (l, (0 : BitVec 8))
  atEl j.e0 (writeHome tr nRmw.kind j.e0 l (t.retag fi 127 cVAL t.pln) (BitVec.allOnes 128))
  return (f, tr)

def execAmoV (v a b : BitVec 5) (x : BitVec 1) (o : BitVec 4) (s : State) : Out := deliver s do
  let r ← readUnless0 v
  let s ← get
  let g := s.st.grant
  let F := s.fmt r.fmt
  let bits := decide (3 ≤ o.toNat) && F.kind == .float
  let iv ← issueAccess (if x = 1 then some b else none) (!r.holds F g) (r.rawBelow F g)
  if bits then raiseTrap tFORBIDDEN_PAIR
  if g = 0 then advanceM
  else
    let strip := if x = 1 then stripX a else stripU a
    let xs ← allLines (amoVLine o r.fmt F) (updLines r F g (strip s iv))
    touchAll (xs.map (·.2))
    raiseFlags (orFlags (xs.map (·.1)))
    advanceM

/-! ### Bank-side commands (R220 to R223) -/

/-- One slot of `mred` or `msax` (R222): the line's element, the register's, the factor of `msax`. An element under the NaN scale is a NaN,
in an integer line too, where no compute format is named (log 132). -/
def bankOne (o : BitVec 5) (fac : Option Val) (lf rf : Fmt) (lscl : BitVec 8) (fresh : Bool) (old : Nat) (x : UpdEl) : Nat × BitVec 8 :=
  let toInt := lf.kind != .float
  let (m, f₁) := if fresh then (Val.zero, (0 : BitVec 8)) else lf.decode toInt old
  let m := if fresh then m else applyScale lscl m
  let (y, f₂) := if x.cls = cUNW then (Val.zero, fNX) else rf.decode toInt x.code
  let y := applyScale x.scl y
  let (r, f₃) := match fac with
    | some f => Val.fma false false false m f y
    | none => match o.toNat with
      | 0 => m.add false y
      | 1 => (m.min y, 0)
      | _ => (m.max y, 0)
  let r := if r.isNaN then r else r.scale (127 - (lscl.toNat : Int))
  let (c, f₄) := lf.convert .rne 0 r
  (c, f₁ ||| f₂ ||| f₃ ||| f₄)

/-- One line of `mred` or `msax` (R222). -/
def bankLine (o : BitVec 5) (fac : Option Val) (fi : BitVec 4) (rf : Fmt) (j : UpdLine) : AtEl (BitVec 8) := do
  let tr ← atEl j.e0 (translateAt (← get).via nBank j.e0 j.va)
  let (l, t) ← atEl j.e0 (readHome tr nRmw.kind)
  let fresh := t.cls == cUNW
  let li := if fresh then fi else t.fmt
  let lf := (← get).fmt li
  let lscl := if fresh then (j.els.headD ⟨0, 0, 127, 0, 0⟩).scl else t.scl
  let tagFormat (e : Nat) : AtEl Unit := atEl e (stop (.trap tTAG_FORMAT 0 j.va 0))
  let bad := (j.els.filter fun x => !slotOk lf x.slot).map (·.e)
  if bad.any (· == j.e0) then tagFormat j.e0
  atEl j.e0 (rmwClass j.va tr t j.e0)
  if t.cls = cRAW then atEl j.e0 (stop (.trap tTAG_CLASS 0 j.va 0))
  if fac.isSome && lf.kind != .float then tagFormat j.e0
  let bad := bad ++ (j.els.filter fun x => x.cls == cRAW).map (·.e)
  if bad ≠ [] then tagFormat (leastEl j.e0 bad)
  let l := if fresh then 0 else zeroPad lf.wid l
  let (l, f) := j.els.foldl (fun (l, f) x =>
    let (c, g) := bankOne o fac lf rf lscl fresh (lineSlot l lf.wid x.slot) x
    (setLineSlot l lf.wid x.slot c, f ||| g)) (l, (0 : BitVec 8))
  atEl j.e0 (writeHome tr nRmw.kind j.e0 l (t.retag li lscl cVAL t.pln) (BitVec.allOnes 128))
  atEl j.e0 (touchM tr)
  return f

/-- `mred` and `msax` (R222). -/
def bankUpdate (o : BitVec 5) (fac : Option Val) (a b : BitVec 5) : M Unit := do
  let r ← readUnless0 b
  let s ← get
  let g := s.st.grant
  let F := s.fmt r.fmt
  let _ ← issueAccess none (!r.holds F g) false
  if g = 0 then advanceM
  else
    if (s.x a).extractLsb' 0 7 ≠ 0 then stop (.trap tMISALIGNED 0 (s.x a) 0)
    let fs ← allLines (bankLine o fac r.fmt F) (updLines r F g (stripU a s []))
    raiseFlags (orFlags fs)
    advanceM

def execMred (o a b : BitVec 5) (s : State) : Out := deliver s (bankUpdate o none a b)
def execMsax (d a b : BitVec 5) (s : State) : Out :=
  deliver s (bankUpdate 0 (some (fp32.decode false (s.x d).toNat).1) a b)

/-- What `mcas` does to one line: its number, the old line and tag, and whether it is exchanged (R223). -/
def mcasLine (r q : VReg) (w g : Nat) (base : Word) (k : Nat) : AtEl (Nat × Line × Tag × Bool) := do
  let n := perSeg w
  let e0 := k * n
  let va := base + .ofNat 64 (128 * k)
  let tr ← atEl e0 (translateAt (← get).via nBank e0 va)
  let (l, t) ← atEl e0 (readHome tr nRmw.kind)
  let slots := Nat.min n (g - e0)
  let s ← get
  let bad := if t.cls = cUNW then [] else (List.range slots).filter fun i => !slotOk (s.fmt t.fmt) i
  if bad.any (· == 0) then atEl e0 (stop (.trap tTAG_FORMAT 0 va 0))
  atEl e0 (rmwClass va tr t e0)
  if bad ≠ [] then atEl (e0 + leastEl 0 bad) (stop (.trap tTAG_FORMAT 0 va 0))
  let x := r.seg k
  let y := q.seg k
  let same := l == x.data && t.fmt == r.fmt && t.scl == x.side.scl && t.cls == x.side.cls
  if same then
    let new := if slots = n then y.data
      else .ofNat 1024 (l.toNat / 2 ^ (w * slots) * 2 ^ (w * slots) + y.data.toNat % 2 ^ (w * slots))
    atEl e0 (writeHome tr nRmw.kind e0 new (t.retag q.fmt y.side.scl y.side.cls 0) (BitVec.allOnes 128))
  atEl e0 (touchM tr)
  return (k, l, t, same)

def execMcas (d a b : BitVec 5) (s : State) : Out := deliver s do
  let r ← claimUnless0 b
  let q ← readUnless0 (b + 1)
  let s ← get
  let g := s.st.grant
  let F := s.fmt r.fmt
  let _ ← issueAccess none (!r.holds F g || !q.holds (s.fmt q.fmt) g) false
  if g = 0 then modify (·.advanceValue d 0)
  else
    let va := s.x a
    if va.extractLsb' 0 7 ≠ 0 then stop (.trap tMISALIGNED 0 va 0)
    if r.fmt ≠ q.fmt ∨ F.wid ≠ s.st.gw then raiseTrap tTAG_FORMAT
    let xs ← allLines (mcasLine r q s.st.gw g va) (List.range (segsBelow g s.st.gw))
    let segs := xs.foldl (fun ss (k, l, t, _) =>
      setSeg k ⟨l, mkSide t.fmt t.scl false (if t.fmt ≠ r.fmt then cRAW else t.cls)⟩ ss) r.segs
    modify (·.putReg b { r with segs := segs })
    modify (·.advanceValue d (.ofNat 64 (xs.filter (·.2.2.2)).length))

/-! ### Full/empty bits (R224) -/

/-- The first line and the number of lines that a full/empty instruction names. -/
def feRange (a b : BitVec 5) : M (Nat × Nat) := do
  let s ← get
  let k := spadOff (s.x a) / 128
  let n := if b = 0 then 1 else (s.x b).toNat
  if n = 0 ∨ 32768 < k + n then stop (.trap tTAG_FORMAT 0 (s.x a) 0)
  return (k, n)

/-- Empty lines among `n` from line `k` on. -/
def Core.empties (c : Core) (k n : Nat) : Nat := (c.feEmpty.filter fun i => k ≤ i && i < k + n).length

/-- A core with `n` full/empty bits from line `k` on full or empty. -/
def Core.setFe (c : Core) (k n : Nat) (full : Bool) : Core :=
  { c with feEmpty := c.feEmpty.filter (· < k) ++ (if full then [] else List.range' k n) ++ c.feEmpty.filter (k + n ≤ ·) }

def execFeWait (a b : BitVec 5) (s : State) : Out := deliver s do
  let (k, n) ← feRange a b
  if s.core.empties k n ≠ 0 then stop .wait
  advanceM

/-- Whether a strand has still to read some of `n` scratchpad lines from line `k` on for an earlier load (R120). -/
def Strand.holdsLines (t : Strand) (k n : Nat) : Bool := (List.range' k n).any fun i => t.holdsBytes i (BitVec.allOnes 128)

/-- `fe.set` and `fe.clr`, once every earlier access of the strand to the lines has performed: the number of lines that were full goes to
X[D] (R224). -/
def changeFe (d a b : BitVec 5) (full : Bool) : M Unit := do
  let (k, n) ← feRange a b
  let s ← get
  if s.st.holdsLines k n then stop .wait
  set { s with core := s.core.setFe k n full }
  modify (·.advanceValue d (.ofNat 64 (n - s.core.empties k n)))

def execFeSet (d a b : BitVec 5) (s : State) : Out := deliver s (changeFe d a b true)
def execFeClr (d a b : BitVec 5) (s : State) : Out := deliver s (changeFe d a b false)

/-! ### Line tags (R225, R226) -/

def execLtagLd (d a : BitVec 5) (s : State) : Out := deliver s do
  let tr ← translate s.via nLoad (s.x a)
  let (_, t) ← readLine tr nLoad.kind
  touchM tr
  let fe := if tr.spad && !s.core.feEmpty.contains (tr.loc / 128) then 2 ^ 24 else 0
  modify (·.advanceValue d (.ofNat 64 (t.toNat + fe)))

/-- `ltag.st`, performed at the line's home (R226). -/
def execLtagSt (a b : BitVec 5) (s : State) : Out := deliver s do
  let va := s.x a
  let tr ← translate s.via nStore va
  let (l, t) ← readHome tr nStore.kind
  if t.cls = cSTG then faultAt nStore.kind va (fltStgWrite 0 tr.dpa)
  let new : Tag := (s.x b).extractLsb' 0 24
  let u := t.retag new.fmt new.scl new.cls new.pln
  let s ← get
  let (n, s') := s.takeFree
  if t.cls = cPOI ∧ u.cls ≠ cUNW then set s'
  let l := if t.cls = cUNW ∨ u.cls = cUNW then 0 else if t.cls = cPOI then Config.freeLine n else l
  writeHome tr nStore.kind 0 l u (BitVec.allOnes 128)
  touchM tr
  advanceM

end Sys2Proof.Machine
end

