-- ==== Sys2Proof/Machine/Dispatch.lean ====
section
/-! DEFINITION. One arm per constructor of Instr: the one place where an instruction meets its meaning. -/

namespace Sys2Proof.Machine

def exec (i : Instr) (s : State) : Host.Outcome State Fault Refusal :=
  match i with
  | .add d a b => Sys2Proof.Machine.execAdd d a b s
  | .sub d a b => Sys2Proof.Machine.execSub d a b s
  | .mul d a b => Sys2Proof.Machine.execMul d a b s
  | .mulh d a b => Sys2Proof.Machine.execMulh d a b s
  | .mulhu d a b => Sys2Proof.Machine.execMulhu d a b s
  | .div d a b => Sys2Proof.Machine.execDiv d a b s
  | .divu d a b => Sys2Proof.Machine.execDivu d a b s
  | .rem d a b => Sys2Proof.Machine.execRem d a b s
  | .remu d a b => Sys2Proof.Machine.execRemu d a b s
  | .and d a b => Sys2Proof.Machine.execAnd d a b s
  | .or d a b => Sys2Proof.Machine.execOr d a b s
  | .xor d a b => Sys2Proof.Machine.execXor d a b s
  | .sll d a b => Sys2Proof.Machine.execSll d a b s
  | .srl d a b => Sys2Proof.Machine.execSrl d a b s
  | .sra d a b => Sys2Proof.Machine.execSra d a b s
  | .slt d a b => Sys2Proof.Machine.execSlt d a b s
  | .sltu d a b => Sys2Proof.Machine.execSltu d a b s
  | .min d a b => Sys2Proof.Machine.execMin d a b s
  | .max d a b => Sys2Proof.Machine.execMax d a b s
  | .minu d a b => Sys2Proof.Machine.execMinu d a b s
  | .maxu d a b => Sys2Proof.Machine.execMaxu d a b s
  | .clz d a => Sys2Proof.Machine.execClz d a s
  | .ctz d a => Sys2Proof.Machine.execCtz d a s
  | .popc d a => Sys2Proof.Machine.execPopc d a s
  | .sel d a b => Sys2Proof.Machine.execSel d a b s
  | .addi d a imm => Sys2Proof.Machine.execAddi d a imm s
  | .andi d a imm => Sys2Proof.Machine.execAndi d a imm s
  | .ori d a imm => Sys2Proof.Machine.execOri d a imm s
  | .xori d a imm => Sys2Proof.Machine.execXori d a imm s
  | .slti d a imm => Sys2Proof.Machine.execSlti d a imm s
  | .slli d a sh => Sys2Proof.Machine.execSlli d a sh s
  | .srli d a sh => Sys2Proof.Machine.execSrli d a sh s
  | .srai d a sh => Sys2Proof.Machine.execSrai d a sh s
  | .adda d a imm => Sys2Proof.Machine.execAdda d a imm s
  | .lih d imm => Sys2Proof.Machine.execLih d imm s
  | .beq a b o => Sys2Proof.Machine.execBeq a b o s
  | .bne a b o => Sys2Proof.Machine.execBne a b o s
  | .blt a b o => Sys2Proof.Machine.execBlt a b o s
  | .bge a b o => Sys2Proof.Machine.execBge a b o s
  | .bltu a b o => Sys2Proof.Machine.execBltu a b o s
  | .bgeu a b o => Sys2Proof.Machine.execBgeu a b o s
  | .jal d o => Sys2Proof.Machine.execJal d o s
  | .jalr d a imm => Sys2Proof.Machine.execJalr d a imm s
  | .loop a l => Sys2Proof.Machine.execLoop a l s
  | .ploop a sh l => Sys2Proof.Machine.execPloop a sh l s
  | .ld d a z o => Sys2Proof.Machine.execLd d a z o s
  | .st d a z o => Sys2Proof.Machine.execSt d a z o s
  | .ipf a imm => Sys2Proof.Machine.execIpf a imm s
  | .dpf a imm => Sys2Proof.Machine.execDpf a imm s
  | .vshapeImm d w r l => Sys2Proof.Machine.execVshapeImm d w r l s
  | .vshapeReg d a b w => Sys2Proof.Machine.execVshapeReg d a b w s
  | .vquery d imm => Sys2Proof.Machine.execVquery d imm s
  | .bqPush a => Sys2Proof.Machine.execBqPush a s
  | .bqBr o => Sys2Proof.Machine.execBqBr o s
  | .fence sh k => Sys2Proof.Machine.execFence sh k s
  | .bar => Sys2Proof.Machine.execBar s
  | .trap imm => Sys2Proof.Machine.execTrap imm s
  | .nop => Sys2Proof.Machine.execNop s
  | .yield => Sys2Proof.Machine.execYield s
  | .sysr d n => Sys2Proof.Machine.execSysr d n s
  | .sysw a n => Sys2Proof.Machine.execSysw a n s
  | .sbr o c a n z p => Sys2Proof.Machine.execSbr o c a n z p s
  | .acq d a => Sys2Proof.Machine.execAcq d a s
  | .tryacq d a => Sys2Proof.Machine.execTryacq d a s
  | .rel a => Sys2Proof.Machine.execRel a s
  | .cqPush d a b => Sys2Proof.Machine.execCqPush d a b s
  | .knWait k a => Sys2Proof.Machine.execKnWait k a s
  | .knSig k a => Sys2Proof.Machine.execKnSig k a s
  | .renq d a b => Sys2Proof.Machine.execRenq d a b s
  | .evqPop d => Sys2Proof.Machine.execEvqPop d s
  | .evqPeek d => Sys2Proof.Machine.execEvqPeek d s
  | .bobLd a => Sys2Proof.Machine.execBobLd a s
  | .bobGo d a b => Sys2Proof.Machine.execBobGo d a b s
  | .ovl a => Sys2Proof.Machine.execOvl a s
  | .lnrSub d a => Sys2Proof.Machine.execLnrSub d a s
  | .ftWr d a n => Sys2Proof.Machine.execFtWr d a n s
  | .pkWr d a b => Sys2Proof.Machine.execPkWr d a b s
  | .recode d a b => Sys2Proof.Machine.execRecode d a b s
  | .swp d a b => Sys2Proof.Machine.execSwp d a b s
  | .winst d a => Sys2Proof.Machine.execWinst d a s
  | .wstat d a b => Sys2Proof.Machine.execWstat d a b s
  | .heatRd d a b => Sys2Proof.Machine.execHeatRd d a b s
  | .eret => Sys2Proof.Machine.execEret s
  | .tlbi a b => Sys2Proof.Machine.execTlbi a b s
  | .rpl d a b => Sys2Proof.Machine.execRpl d a b s
  | .wfi => Sys2Proof.Machine.execWfi s
  | .ctxSave d a b => Sys2Proof.Machine.execCtxSave d a b s
  | .ctxLoad d a => Sys2Proof.Machine.execCtxLoad d a s
  | .migDirty d a b => Sys2Proof.Machine.execMigDirty d a b s
  | .sysrp d n => Sys2Proof.Machine.execSysrp d n s
  | .syswp a n => Sys2Proof.Machine.execSyswp a n s
  | .vldU d a f t r m => Sys2Proof.Machine.execVldU d a f t r m s
  | .vldUQueue q a => Sys2Proof.Machine.execVldUQueue q a s
  | .vldS d a b f t r m => Sys2Proof.Machine.execVldS d a b f t r m s
  | .vldX d a b f t r m => Sys2Proof.Machine.execVldX d a b f t r m s
  | .vldB d a b f t r m => Sys2Proof.Machine.execVldB d a b f t r m s
  | .vldBQueue q a b => Sys2Proof.Machine.execVldBQueue q a b s
  | .vldNp d a m k => Sys2Proof.Machine.execVldNp d a m k s
  | .vstU v a => Sys2Proof.Machine.execVstU v a s
  | .vstUQueue q a => Sys2Proof.Machine.execVstUQueue q a s
  | .vstS v a b => Sys2Proof.Machine.execVstS v a b s
  | .vstX v a b => Sys2Proof.Machine.execVstX v a b s
  | .vstB v a b => Sys2Proof.Machine.execVstB v a b s
  | .vstBQueue q a b => Sys2Proof.Machine.execVstBQueue q a b s
  | .amo d a b o z => Sys2Proof.Machine.execAmo d a b o z s
  | .amoV v a b x o => Sys2Proof.Machine.execAmoV v a b x o s
  | .mred o a b => Sys2Proof.Machine.execMred o a b s
  | .mcas d a b => Sys2Proof.Machine.execMcas d a b s
  | .msax d a b => Sys2Proof.Machine.execMsax d a b s
  | .cp d a b => Sys2Proof.Machine.execCp d a b s
  | .cpConv d a b => Sys2Proof.Machine.execCpConv d a b s
  | .cpFp d a b => Sys2Proof.Machine.execCpFp d a b s
  | .cpCmp d a b => Sys2Proof.Machine.execCpCmp d a b s
  | .cpClose a => Sys2Proof.Machine.execCpClose a s
  | .cpWait n => Sys2Proof.Machine.execCpWait n s
  | .wset k a => Sys2Proof.Machine.execWset k a s
  | .wwait k a => Sys2Proof.Machine.execWwait k a s
  | .feWait a b => Sys2Proof.Machine.execFeWait a b s
  | .feSet d a b => Sys2Proof.Machine.execFeSet d a b s
  | .feClr d a b => Sys2Proof.Machine.execFeClr d a b s
  | .ltagLd d a => Sys2Proof.Machine.execLtagLd d a s
  | .ltagSt a b => Sys2Proof.Machine.execLtagSt a b s
  | .vadd d a x b y => Sys2Proof.Machine.execVadd d a x b y s
  | .vsub d a x b y => Sys2Proof.Machine.execVsub d a x b y s
  | .vmul d a x b y => Sys2Proof.Machine.execVmul d a x b y s
  | .vfma d a x b y => Sys2Proof.Machine.execVfma d a x b y s
  | .vfms d a x b y => Sys2Proof.Machine.execVfms d a x b y s
  | .vfnma d a x b y => Sys2Proof.Machine.execVfnma d a x b y s
  | .vdiv d a x b y => Sys2Proof.Machine.execVdiv d a x b y s
  | .vsqrt d a x => Sys2Proof.Machine.execVsqrt d a x s
  | .vrsqrt d a x => Sys2Proof.Machine.execVrsqrt d a x s
  | .vrcp d a x => Sys2Proof.Machine.execVrcp d a x s
  | .vexp2 d a x => Sys2Proof.Machine.execVexp2 d a x s
  | .vlog2 d a x => Sys2Proof.Machine.execVlog2 d a x s
  | .vtanh d a x => Sys2Proof.Machine.execVtanh d a x s
  | .vsin d a x => Sys2Proof.Machine.execVsin d a x s
  | .vcos d a x => Sys2Proof.Machine.execVcos d a x s
  | .vmin d a x b y => Sys2Proof.Machine.execVmin d a x b y s
  | .vmax d a x b y => Sys2Proof.Machine.execVmax d a x b y s
  | .vabs d a x => Sys2Proof.Machine.execVabs d a x s
  | .vneg d a x => Sys2Proof.Machine.execVneg d a x s
  | .vsgnj d a x b y => Sys2Proof.Machine.execVsgnj d a x b y s
  | .vmulh d a x b y => Sys2Proof.Machine.execVmulh d a x b y s
  | .vsll d a x b y => Sys2Proof.Machine.execVsll d a x b y s
  | .vsrl d a x b y => Sys2Proof.Machine.execVsrl d a x b y s
  | .vsra d a x b y => Sys2Proof.Machine.execVsra d a x b y s
  | .vand d a x b y => Sys2Proof.Machine.execVand d a x b y s
  | .vor d a x b y => Sys2Proof.Machine.execVor d a x b y s
  | .vxor d a x b y => Sys2Proof.Machine.execVxor d a x b y s
  | .vfsh d a x b y => Sys2Proof.Machine.execVfsh d a x b y s
  | .vpopc d a x => Sys2Proof.Machine.execVpopc d a x s
  | .vclz d a x => Sys2Proof.Machine.execVclz d a x s
  | .vsadd d a x b y => Sys2Proof.Machine.execVsadd d a x b y s
  | .vcmp m a x b y c => Sys2Proof.Machine.execVcmp m a x b y c s
  | .vbound m a x b y => Sys2Proof.Machine.execVbound m a x b y s
  | .mand d a b => Sys2Proof.Machine.execMand d a b s
  | .mor d a b => Sys2Proof.Machine.execMor d a b s
  | .mxor d a b => Sys2Proof.Machine.execMxor d a b s
  | .mandn d a b => Sys2Proof.Machine.execMandn d a b s
  | .mpopc d a => Sys2Proof.Machine.execMpopc d a s
  | .mfirst d a => Sys2Proof.Machine.execMfirst d a s
  | .mset d a => Sys2Proof.Machine.execMset d a s
  | .vcvt d a x f => Sys2Proof.Machine.execVcvt d a x f s
  | .vquant d a x f => Sys2Proof.Machine.execVquant d a x f s
  | .vamax d a x => Sys2Proof.Machine.execVamax d a x s
  | .vtagr d a x b => Sys2Proof.Machine.execVtagr d a x b s
  | .vtagw d a b => Sys2Proof.Machine.execVtagw d a b s
  | .vscl d a x b => Sys2Proof.Machine.execVscl d a x b s
  | .vmov d a x => Sys2Proof.Machine.execVmov d a x s
  | .vbcast d a x b => Sys2Proof.Machine.execVbcast d a x b s
  | .vslideup d a x b => Sys2Proof.Machine.execVslideup d a x b s
  | .vslidedn d a x b => Sys2Proof.Machine.execVslidedn d a x b s
  | .vperm d a x b => Sys2Proof.Machine.execVperm d a x b s
  | .vcompress d a x => Sys2Proof.Machine.execVcompress d a x s
  | .vexpand d a x => Sys2Proof.Machine.execVexpand d a x s
  | .vzip d a x b => Sys2Proof.Machine.execVzip d a x b s
  | .vunzip d a x => Sys2Proof.Machine.execVunzip d a x s
  | .vtrn d a x b => Sys2Proof.Machine.execVtrn d a x b s
  | .vrev d a x => Sys2Proof.Machine.execVrev d a x s
  | .vext d a x b => Sys2Proof.Machine.execVext d a x b s
  | .vins d a b => Sys2Proof.Machine.execVins d a b s
  | .vred d a x o => Sys2Proof.Machine.execVred d a x o s
  | .vscan d a x o => Sys2Proof.Machine.execVscan d a x o s
  | .dfrPush p v n m => Sys2Proof.Machine.execDfrPush p v n m s
  | .dfrPop p v n m => Sys2Proof.Machine.execDfrPop p v n m s
  | .dfrCnt p x => Sys2Proof.Machine.execDfrCnt p x s
  | .qpop d q => Sys2Proof.Machine.execQpop d q s
  | .qpush v q => Sys2Proof.Machine.execQpush v q s
  | .matAtt d a => Sys2Proof.Machine.execMatAtt d a s
  | .matDet => Sys2Proof.Machine.execMatDet s
  | .tzero t => Sys2Proof.Machine.execTzero t s
  | .tpeek t a => Sys2Proof.Machine.execTpeek t a s
  | .twait t => Sys2Proof.Machine.execTwait t s
  | .mbud d => Sys2Proof.Machine.execMbud d s
  | .mop t a x b y e => Sys2Proof.Machine.execMop t a x b y e s
  | .mopn t a x b y m k e => Sys2Proof.Machine.execMopn t a x b y m k e s
  | .vlut3 d a x b y t => Sys2Proof.Machine.execVlut3 d a x b y t s
  | .pfx c v z m r o => Sys2Proof.Machine.execPfx c v z m r o s
  | .pendingLoadWrite => Sys2Proof.Machine.execPendingLoadWrite s
  | .trapDiversion => Sys2Proof.Machine.execTrapDiversion s
  | .gangStart => Sys2Proof.Machine.execGangStart s
  | .gangEnd => Sys2Proof.Machine.execGangEnd s
  | .matrixRetire hart tile => Sys2Proof.Machine.execMatrixRetire hart tile s
  | .budgetRefill ctx us => Sys2Proof.Machine.execBudgetRefill ctx us s
  | .bastingEntryWrite => Sys2Proof.Machine.execBastingEntryWrite s
  | .landing copy line => Sys2Proof.Machine.execLanding copy line s
  | .batchComplete who => Sys2Proof.Machine.execBatchComplete who s
  | .eventPost => Sys2Proof.Machine.execEventPost s
  | .commandBlockStart queue => Sys2Proof.Machine.execCommandBlockStart queue s
  | .bobbinEmission => Sys2Proof.Machine.execBobbinEmission s
  | .faultRecordWrite part => Sys2Proof.Machine.execFaultRecordWrite part s
  | .residentEntry => Sys2Proof.Machine.execResidentEntry s
  | .walkerAssign die => Sys2Proof.Machine.execWalkerAssign die s
  | .launchComplete part launch => Sys2Proof.Machine.execLaunchComplete part launch s
  | .requeueRestore => Sys2Proof.Machine.execRequeueRestore s
  | .powerWake => Sys2Proof.Machine.execPowerWake s
  | .bringUp => Sys2Proof.Machine.execBringUp s
  | .machineCheck wholeDevice => Sys2Proof.Machine.execMachineCheck wholeDevice s
  | .installBlockVerify index ok => Sys2Proof.Machine.execInstallBlockVerify index ok s
  | .installCommit index => Sys2Proof.Machine.execInstallCommit index s
  | .recodeLineStep index => Sys2Proof.Machine.execRecodeLineStep index s
  | .turnoverSwap index => Sys2Proof.Machine.execTurnoverSwap index s
  | .stagingFill line bad => Sys2Proof.Machine.execStagingFill line bad s
  | .claspRequest clasp core try_ => Sys2Proof.Machine.execClaspRequest clasp core try_ s
  | .recallClasp clasp => Sys2Proof.Machine.execRecallClasp clasp s
  | .signature clasp => Sys2Proof.Machine.execSignature clasp s
  | .grant clasp => Sys2Proof.Machine.execGrant clasp s
  | .refusal clasp => Sys2Proof.Machine.execRefusal clasp s
  | .writeBack clasp => Sys2Proof.Machine.execWriteBack clasp s
  | .acknowledge clasp => Sys2Proof.Machine.execAcknowledge clasp s
  | .partitionEnable part => Sys2Proof.Machine.execPartitionEnable part s
  | .unallocatedEncoding w => Sys2Proof.Machine.execUnallocatedEncoding w s
  | .partitionDisable part => Sys2Proof.Machine.execPartitionDisable part s
  | .thermal temp => Sys2Proof.Machine.execThermal temp s
  | .debugStop level slot req => Sys2Proof.Machine.execDebugStop level slot req s
  | .srRpend v => Sys2Proof.Machine.execSrRpend v s
  | .srPtroot v => Sys2Proof.Machine.execSrPtroot v s
  | .srRing v => Sys2Proof.Machine.execSrRing v s
  | .srEbw v => Sys2Proof.Machine.execSrEbw v s
  | .srStage v => Sys2Proof.Machine.execSrStage v s
  | .srWalw v => Sys2Proof.Machine.execSrWalw v s
  | .srSptop pool v => Sys2Proof.Machine.execSrSptop pool v s
  | .srPctlHold v => Sys2Proof.Machine.execSrPctlHold v s
  | .srPwrRetention => Sys2Proof.Machine.execSrPwrRetention s
  | .srPwrOff => Sys2Proof.Machine.execSrPwrOff s
  | .srSeed v => Sys2Proof.Machine.execSrSeed v s
  | .registerWrite num v => Sys2Proof.Machine.execRegisterWrite num v s
  | .clockGate => Sys2Proof.Machine.execClockGate s
  | .linkFailure port => Sys2Proof.Machine.execLinkFailure port s
  | .uncorrectableError place n => Sys2Proof.Machine.execUncorrectableError place n s
  | .scrub line bad => Sys2Proof.Machine.execScrub line bad s
  | .heatSample dpa => Sys2Proof.Machine.execHeatSample dpa s
  | .heatDecay dpa => Sys2Proof.Machine.execHeatDecay dpa s
  | .allowanceTick part => Sys2Proof.Machine.execAllowanceTick part s
  | .flashPowerLoss stack => Sys2Proof.Machine.execFlashPowerLoss stack s
  | .read line holder => Sys2Proof.Machine.execRead line holder s
  | .write line holder => Sys2Proof.Machine.execWrite line holder s
  | .persistent line holder => Sys2Proof.Machine.execPersistent line holder s
  | .data line src dst => Sys2Proof.Machine.execData line src dst s
  | .lacingFlit port flit => Sys2Proof.Machine.execLacingFlit port flit s
  | .bisnp line => Sys2Proof.Machine.execBisnp line s
  | .hostWrite line off v => Sys2Proof.Machine.execHostWrite line off v s
  | .farCopyEviction index drop => Sys2Proof.Machine.execFarCopyEviction index drop s
  | .hostRead line => Sys2Proof.Machine.execHostRead line s
  | .hostSnoop line inval => Sys2Proof.Machine.execHostSnoop line inval s
  | .outsidePoolWrite line off v => Sys2Proof.Machine.execOutsidePoolWrite line off v s
  | .modulePowerLoss => Sys2Proof.Machine.execModulePowerLoss s
  | .configurationRecordChange r => Sys2Proof.Machine.execConfigurationRecordChange r s
  | .operatingPointChange point => Sys2Proof.Machine.execOperatingPointChange point s
  | .correctedError core => Sys2Proof.Machine.execCorrectedError core s

end Sys2Proof.Machine
end

