-- ==== Sys2Proof/Machine/Turn.lean ====
section
/-! DEFINITION. One turn of the machine: an agent's step or one instruction of the acting strand, and who comes next
(R191; log 3). -/

namespace Sys2Proof.Machine

/-! ### Issue (R87, R101, R114, R115) -/

/-- The private map a strand decodes with (R84). -/
def StrandKind.space (k : StrandKind) : Space :=
  match k with
  | .cc => .cc
  | .access => .access
  | .execute => .execute

/-- The instructions that may not be the last word of a loop body (R114). -/
def endsNoBody (i : Instr) : Bool :=
  match i with
  | .beq _ _ _ => true
  | .bne _ _ _ => true
  | .blt _ _ _ => true
  | .bge _ _ _ => true
  | .bltu _ _ _ => true
  | .bgeu _ _ _ => true
  | .jal _ _ => true
  | .jalr _ _ _ => true
  | .sbr _ _ _ _ _ _ => true
  | .bqBr _ => true
  | .loop _ _ => true
  | .ploop _ _ _ => true
  | .pfx _ _ _ _ _ _ => true
  | _ => false

/-- Whether a suppressed word raises ILLEGAL_INSTRUCTION as an active one would: it names a register that the strand does not
hold or may not write (R70, R80, R125), opens a loop inside a `ploop` body, or names a tile that holds an operand (R176; log 120). -/
def illegalWord (s : State) (i : Instr) : Bool :=
  match i with
  | .sysr _ n => (s.readSr n).isNone
  | .sysw _ n => (s.writeSr n 0).isNone
  | .bqPush _ => s.st.kind == .cc
  | .bqBr _ => s.st.kind == .cc
  | .loop _ _ => true
  | .ploop _ _ _ => true
  | .mop t a _ b _ _ => s.st.phys a / 8 == t.toNat || s.st.phys b / 8 == t.toNat
  | .mopn t a _ b _ _ _ _ => s.st.phys a / 8 == t.toNat || s.st.phys b / 8 == t.toNat
  | _ => false

/-- Whether a suppressed word still raises PRIVILEGED (R88, R115). -/
def isResident (i : Instr) : Bool :=
  match i with
  | .eret => true
  | .tlbi _ _ => true
  | .rpl _ _ _ => true
  | .wfi => true
  | .ctxSave _ _ _ => true
  | .ctxLoad _ _ => true
  | .migDirty _ _ _ => true
  | .sysrp _ _ => true
  | .syswp _ _ => true
  | _ => false

/-- Whether the word at the pc belongs to a stage whose predicate is 0 (R115). -/
def Strand.suppressed (t : Strand) : Bool :=
  match t.loops with
  | [] => false
  | l :: _ =>
    if l.stages = 0 ∨ l.holds t.pc = false ∨ t.deco.isSome then false
    else
      let words := (l.last.toNat - l.first.toNat) / 4 + 1
      !t.sp.getLsbD ((t.pc.toNat - l.first.toNat) / 4 / (words / l.stages))

/-- What issues when the acting strand has fetched `w`: the word's instruction; or, for an encoding not allocated to its
space, the step that raises its trap (R87). -/
def State.wordInstr (s : State) (w : BitVec 32) : Instr :=
  match decode s.st.kind.space w with
  | .ok i => i
  | .error _ => .unallocatedEncoding w

/-- A suppressed word: only traps that depend on the word alone are taken; a `pfx` pair is skipped as one (R115). -/
def skipWord (i : Instr) (s : State) : Out :=
  match i with
  | .unallocatedEncoding w => exec (.unallocatedEncoding w) s
  | .pfx c v z m r o =>
    match exec (.pfx c v z m r o) s with
    | .next t => if t.st.deco.isSome then .next t.advance else .next t
    | .fault f => .fault f
    | .refused f => .refused f
  | i =>
    if illegalWord s i then .next (s.takeTrap tILLEGAL 0 0 0)
    else if isResident i ∧ s.atResident = false then .next (s.takeTrap tPRIVILEGED 0 0 0)
    else .next s.advance

/-- The issue of a decoded word by the acting strand. -/
def issueInstr (i : Instr) (s : State) : Out :=
  if endsNoBody i && s.st.loops.any (·.last == s.st.pc) then .next (s.takeTrap tILLEGAL 0 0 0)
  else if s.st.suppressed then skipWord i s
  else exec i s

/-- One instruction of the acting strand: fetch, decode, issue. -/
def issue (s : State) : Out :=
  match (fetchAt s.via s.st.pc).run s with
  | .ok (w, s') => issueInstr (s'.wordInstr w) s'
  | .error e => .next (s.stopped e)

/-! ### Who comes next (R191; log 3) -/

/-- Whether a strand of a core can take a turn: the core is active, or gated while the strand waits; a strand that the debug port stopped
can only complete the one instruction it was let execute (R391, Table 20.5). -/
def Core.canRun (c : Core) (t : Strand) : Bool :=
  t.run == .running && !c.halted && (!c.heldStill t.slot || t.deco.isSome) && (c.pwr == 0 || c.pwr == 1 && t.waiting)

/-- The first running strand of a core after a frame number. -/
def Core.nextSlot (c : Core) (n : Nat) : Option Nat := (c.strands.find? fun t => n < t.slot && c.canRun t).map (·.slot)

/-- Whether a core has anything to do: a strand that runs, or work of its engines. -/
def Core.busy (c : Core) : Bool := c.strands.any c.canRun || c.gang.isSome || c.working || !c.evHeld.isEmpty || !c.batches.isEmpty ||
  c.assigned.isSome || c.pwrReq != 0 || c.eventDue || c.pwr == 1 && c.anyReady

/-- The turn passed on: to the next running strand of the core, else to the next core that has anything to do, in ascending
number with wrap-around. -/
def State.rotate (s : State) : State :=
  match s.core.nextSlot s.st.slot with
  | some n => s.focus s.core.num n
  | none =>
    let pick := match s.dev.cores.find? fun c => s.core.num < c.num && c.busy with
      | some c => some c
      | none => s.dev.cores.find? fun c => c.num < s.core.num && c.busy
    match pick with
    | some c => s.focus c.num (((c.strands.find? c.canRun).map (·.slot)).getD 0)
    | none =>
      match s.core.strands.find? s.core.canRun with
      | some t => s.focus s.core.num t.slot
      | none => s

/-- The state after a turn of the acting strand: one that the debug port let execute an instruction has done so, unless it waits (Table
20.4). -/
def State.stepped (s : State) : State :=
  if s.st.waiting then s else { s with core := { s.core with dbgStep := s.core.dbgStep.filter (· != s.st.slot) } }

/-- An outcome with the turn at its end. -/
def thenStepped (o : Out) : Out :=
  match o with
  | .next s => .next s.stepped
  | .fault f => .fault f
  | .refused r => .refused r

/-- An outcome with the turn passed on, but never between the two words of a pair (R101). -/
def thenRotate (o : Out) : Out :=
  match o with
  | .next s => .next (if s.st.deco.isSome then s.stepped else s.stepped.rotate)
  | .fault f => .fault f
  | .refused r => .refused r

/-- Whether the acting strand has a load due before its next issue (R82). -/
def Strand.loadDue (t : Strand) : Bool :=
  t.deco.isNone && (match t.pend with
    | p :: _ => p.left == 0
    | [] => false)

/-- One instruction of the acting strand, or the landing of its due load, or nothing where it cannot run; on a gated
core a ready strand ungates the clock first (Table 20.5). A control core that is to
enter the resident level or to be diverted does so at this boundary, before another word of its program (R199, R200, R322). -/
def strandTurn (s : State) : Out :=
  if s.core.canRun s.st = false then (if s.core.pwr = 1 then exec .clockGate s else .next s)
  else if s.st.slot = 0 ∧ s.entersResident = true then exec .residentEntry s
  else if s.st.slot = 0 ∧ s.diverts = true then exec .trapDiversion s
  else if s.st.loadDue || s.st.pend.any s.loadReady then exec .pendingLoadWrite s
  else issue s

/-- Whether an agent's step has no word of its own (R84): only those may stand in the agenda. -/
def isAgentStep (i : Instr) : Bool := !i.hasWord

/-- Whether an agent's step may happen while the module is down: bring-up, and the management controller's own (R385,
R394). -/
def whileDown (i : Instr) : Bool :=
  match i with
  | .bringUp => true
  | .configurationRecordChange _ => true
  | _ => false

/-- The core an agenda entry names becomes the acting core, its CC acting if it has to change. -/
def State.focusCore (s : State) (c : Nat) : State := if s.core.num = c then s else s.focus c 0

/-- One turn. A pair begun is completed first (R101). Otherwise the agenda decides; when it is empty, the agents of the
acting core and of the device go first, then the acting strand, and the turn passes on. -/
def runTurn (s : State) : Out :=
  if s.dev.powered = false ∨ s.dev.failed = true then
    match s.agenda with
    | .agent _ i :: r =>
      if whileDown i then exec i { s with agenda := r }
      else .fault (if s.dev.powered then .deviceFailed else .powerOff)
    | _ => .fault (if s.dev.powered then .deviceFailed else .powerOff)
  else if s.st.deco.isSome ∧ s.core.canRun s.st = true then issue s
  else
    match s.agenda with
    | .strand c n :: r => thenStepped (strandTurn (({ s with agenda := r } : State).focus c n))
    | .agent c i :: r =>
      let t := ({ s with agenda := r } : State).focusCore c
      if isAgentStep i then exec i t else .next t
    | [] =>
      match s.coreAgent with
      | some i => exec i s
      | none =>
        match s.devAgent with
        | some i => exec i s
        | none => thenRotate (strandTurn s)

end Sys2Proof.Machine
end

