-- ==== Sys2Proof/Machine/Step.lean ====
section
/-! DEFINITION. One step of the machine, and the placing of an instruction where the next step fetches it. -/

namespace Sys2Proof.Machine

/-- One step. -/
def step (s : State) : Host.Outcome State Fault Refusal := runTurn s

/-- The leaf under which `withFetchWord` places a word for a hart: an executable code page of this device, frame 0 (log 12). -/
def fetchLeaf (dev : BitVec 8) : BitVec 128 := dev.setWidth 128 <<< 112 ||| (1 : BitVec 128) <<< 88 ||| 3 <<< 95 ||| 0x2E

/-- A device with what a hart's fetch at 0x1000 needs: a remap table at DPA 0x10000 that places pages 0 and 1 on L-S, a code object that
holds page 0, its page verified, and the translation cached; and the word (R332, R348; log 12). -/
def Dev.withCode (d : Dev) (w : Nat) : Dev :=
  let ls := 16 * 2 ^ 64
  { d with
    rmbase := 0x10001
    cotab := 0x11000
    verified := [0]
    tlb := ⟨1, 0, 16, 4, fetchLeaf d.num⟩ :: d.tlb
    mem := (((d.mem.writeN 0x10000 32 (2 ^ 52)).writeN 0x10020 32 (0x10000 * 2 ^ 192 + 2 ^ 52)).writeN (ls + 0x11000) 32 (2 ^ 96 + 1)).writeN
      (ls + 0x1000) 4 w }

/-- The state with a hart of a one-pair gang acting on its core, its code page translated, and a word at its pc. -/
def State.withHart (s : State) (k : StrandKind) (w : Nat) : State :=
  let g : Gang := ⟨1, 0, 0, 0, [], 1, 1, 96, 0, 0, 0, 0, 0, 0, 0, 0, false, false, false, none, 0⟩
  let t := Strand.fresh k 0 96 0x1000
  let u := Strand.fresh (if k = .access then .execute else .access) 0 96 0x1000
  { s with
    st := t
    core := { s.core with resident := false, gang := some g,
                          strands := putStrand u.ended (putStrand { s.st with run := .ended } []) }
    dev := s.dev.withCode w
    agenda := [] }

/-- The state with an instruction where the next step fetches it (log 12): at the pc of the resident control core for words
of the shared subset and of the CC, and at the pc of a hart for the words of the harts' own spaces. -/
def State.withFetchWord (s : State) (nbits w : Nat) : State :=
  let b := BitVec.ofNat 32 (w % 2 ^ nbits)
  match decode .cc b, decode .execute b, decode .access b with
  | .ok _, _, _ => { s with dev := { s.dev with mem := s.dev.mem.writeN (s.dev.rawLoc s.st.pc.toNat) 4 b.toNat } }
  | _, .ok _, _ => s.withHart .execute b.toNat
  | _, _, .ok _ => s.withHart .access b.toNat
  | _, _, _ => { s with dev := { s.dev with mem := s.dev.mem.writeN (s.dev.rawLoc s.st.pc.toNat) 4 b.toNat } }

end Sys2Proof.Machine
end

