-- ==== Sys2Proof/Safety.lean ====
section
/-! DEFINITION. What counts as a safe state and a safe run, and the terms in which claims are stated: what an instruction of
each shape leaves alone, and the states that results are written into. -/

namespace Sys2Proof.Machine

/-- Every memory of a core is in its canonical form: its scratchpad. -/
def Core.memWf (c : Core) : Bool := c.spad.wf

/-- Every memory of the machine is in its canonical form: the device's, the acting core's scratchpad, and the scratchpads of
the other cores and of saved gangs. -/
def State.memWf (s : State) : Bool :=
  s.dev.mem.wf && s.core.memWf && s.dev.cores.all Core.memWf && s.dev.saved.all fun g => g.body.memWf

/-- A run of at most `n` steps from `s` meets neither a fault nor a refusal. -/
def State.runsSafely : Nat → State → Prop
  | 0, _ => True
  | n + 1, s => ∃ t, step s = .next t ∧ State.runsSafely n t

/-! ### Frames -/

/-- `t` is `s` but for where the acting strand goes on: its pc, its loops, its load shadows, its prefix, and that it waits for nothing. -/
def State.onlyGoesOn (s t : State) : Prop :=
  t = { s with st := { s.st with pc := t.st.pc, loops := t.st.loops, sp := t.st.sp, rb := t.st.rb, pend := t.st.pend,
                                 deco := none, waiting := false, wantsShuttle := t.st.wantsShuttle } }

/-- `t` is `s` but for where the acting strand goes on and for its scalar registers. -/
def State.onlyScalars (s t : State) : Prop :=
  t = { s with st := { s.st with pc := t.st.pc, loops := t.st.loops, sp := t.st.sp, rb := t.st.rb, pend := t.st.pend,
                                 deco := none, waiting := false, wantsShuttle := t.st.wantsShuttle, xr := t.st.xr } }

/-- The register that a shared integer instruction writes (R105 to R108). -/
def scalarDest (i : Instr) : Option (BitVec 5) :=
  match i with
  | .add d _ _ => some d
  | .sub d _ _ => some d
  | .mul d _ _ => some d
  | .mulh d _ _ => some d
  | .mulhu d _ _ => some d
  | .div d _ _ => some d
  | .divu d _ _ => some d
  | .rem d _ _ => some d
  | .remu d _ _ => some d
  | .and d _ _ => some d
  | .or d _ _ => some d
  | .xor d _ _ => some d
  | .sll d _ _ => some d
  | .srl d _ _ => some d
  | .sra d _ _ => some d
  | .slt d _ _ => some d
  | .sltu d _ _ => some d
  | .min d _ _ => some d
  | .max d _ _ => some d
  | .minu d _ _ => some d
  | .maxu d _ _ => some d
  | .clz d _ => some d
  | .ctz d _ => some d
  | .popc d _ => some d
  | .sel d _ _ => some d
  | .addi d _ _ => some d
  | .andi d _ _ => some d
  | .ori d _ _ => some d
  | .xori d _ _ => some d
  | .slti d _ _ => some d
  | .slli d _ _ => some d
  | .srli d _ _ => some d
  | .srai d _ _ => some d
  | .adda d _ _ => some d
  | .lih d _ => some d
  | _ => none

/-- The vector instructions of the X space that write one vector register D and no mask, with that register. -/
def vectorDest (i : Instr) : Option (BitVec 5) :=
  match i with
  | .vadd d _ _ _ _ => some d
  | .vsub d _ _ _ _ => some d
  | .vmul d _ _ _ _ => some d
  | .vfma d _ _ _ _ => some d
  | .vfms d _ _ _ _ => some d
  | .vfnma d _ _ _ _ => some d
  | .vdiv d _ _ _ _ => some d
  | .vsqrt d _ _ => some d
  | .vrsqrt d _ _ => some d
  | .vrcp d _ _ => some d
  | .vexp2 d _ _ => some d
  | .vlog2 d _ _ => some d
  | .vtanh d _ _ => some d
  | .vsin d _ _ => some d
  | .vcos d _ _ => some d
  | .vmin d _ _ _ _ => some d
  | .vmax d _ _ _ _ => some d
  | .vabs d _ _ => some d
  | .vneg d _ _ => some d
  | .vsgnj d _ _ _ _ => some d
  | .vmulh d _ _ _ _ => some d
  | .vsll d _ _ _ _ => some d
  | .vsrl d _ _ _ _ => some d
  | .vsra d _ _ _ _ => some d
  | .vand d _ _ _ _ => some d
  | .vor d _ _ _ _ => some d
  | .vxor d _ _ _ _ => some d
  | .vfsh d _ _ _ _ => some d
  | .vpopc d _ _ => some d
  | .vclz d _ _ => some d
  | .vsadd d _ _ _ _ => some d
  | .vcvt d _ _ _ => some d
  | .vquant d _ _ _ => some d
  | .vred d _ _ _ => some d
  | .vscan d _ _ _ => some d
  | _ => none

/-! ### Results -/

/-- The flags `f` raise no trap of the acting strand (R44). -/
def State.calm (s : State) (f : BitVec 8) : Prop := f &&& s.st.tmask = 0

/-- The state with flags ORed into `sr.flags` (R42). -/
def State.flagged (s : State) (f : BitVec 8) : State := { s with st := { s.st with flags := s.st.flags ||| f } }

/-- The state after a vector result was written to register D in format `fi` with a sidecar for each segment, its flags raised, its
draws taken, and the instruction completed (R44, R57, R41). -/
def State.written (s : State) (d : BitVec 5) (fi : BitVec 4) (a : Acc) (side : Nat → Sidecar) : State :=
  ({ s with st := { s.st.setReg (s.st.phys d) ((s.st.reg (s.st.phys d)).write fi (s.fmt fi).wid a.codes.reverse side) with
                    seed := a.seed, flags := s.st.flags ||| a.flags } } : State).advance

/-- A register of the acting X-hart can be read now: a peek view shows it, or no pending operation covers it (R180). -/
def State.readable (s : State) (v : BitVec 5) : Prop :=
  (s.st.tile (s.st.phys v / 8)).peek = true ∨ s.st.covered (s.st.phys v) = false

/-- A register of the acting X-hart can be written now, and no peek view ends with it (R180, R183). -/
def State.writable (s : State) (v : BitVec 5) : Prop :=
  (s.st.tile (s.st.phys v / 8)).peek = false ∧ s.st.covered (s.st.phys v) = false

/-- The named register of the acting X-hart. -/
def State.vreg (s : State) (v : BitVec 5) : VReg := s.st.reg (s.st.phys v)

/-- Where a taken transfer of the acting strand may go on: outside every active `ploop` body, and not at 0 at the user level
(R115, R190). -/
def State.mayGoTo (s : State) (target : Word) : Prop :=
  (∀ l ∈ s.st.loops, l.stages = 0 ∨ l.holds target = false) ∧ (target ≠ 0 ∨ s.atResident = true)

/-- The state whose acting strand goes on at a target after a taken transfer: loops that do not hold it end (R109, R113). -/
def State.goTo (s : State) (target : Word) : State :=
  { s with st := { s.st with pc := target, loops := s.st.loops.dropWhile fun l => !l.holds target, pend := s.st.pend.map .tick,
                             deco := none, waiting := false } }

/-- The acting strand lies outside every loop's last word, so that it goes on at the next word (R112). -/
def State.inLine (s : State) : Prop := ∀ l ∈ s.st.loops, l.last ≠ s.st.pc

/-! ### What the vector statements name -/

/-- The instructions of the common operand path, with what each computes, its destination and its sources (R131, R138 to R141,
R152). -/
def commonPath (i : Instr) (s : State) : Option (VOp × BitVec 5 × List (BitVec 5)) :=
  match i with
  | .vadd d a _ b _ => some (opAdd, d, [a, b])
  | .vsub d a _ b _ => some (opSub, d, [a, b])
  | .vmul d a _ b _ => some (opMul, d, [a, b])
  | .vfma d a _ b _ => some (opFma, d, [a, b, s.st.fourth d])
  | .vfms d a _ b _ => some (opFms, d, [a, b, s.st.fourth d])
  | .vfnma d a _ b _ => some (opFnma, d, [a, b, s.st.fourth d])
  | .vdiv d a _ b _ => some ((specialOp fun xs => divVal (opnd xs 0) (opnd xs 1)), d, [a, b])
  | .vsqrt d a _ => some ((specialOp fun xs => sqrtVal (opnd xs 0)), d, [a])
  | .vrsqrt d a _ => some ((specialOp fun xs => rsqrtVal (opnd xs 0)), d, [a])
  | .vrcp d a _ => some ((specialOp fun xs => rcpVal (opnd xs 0)), d, [a])
  | .vexp2 d a _ => some ((specialOp fun xs => exp2Val (opnd xs 0)), d, [a])
  | .vlog2 d a _ => some ((specialOp fun xs => log2Val (opnd xs 0)), d, [a])
  | .vtanh d a _ => some ((specialOp fun xs => tanhVal (opnd xs 0)), d, [a])
  | .vsin d a _ => some ((specialOp fun xs => sinVal (opnd xs 0)), d, [a])
  | .vcos d a _ => some ((specialOp fun xs => cosVal (opnd xs 0)), d, [a])
  | .vmin d a _ b _ => some (opMin, d, [a, b])
  | .vmax d a _ b _ => some (opMax, d, [a, b])
  | .vabs d a _ => some (opAbs, d, [a])
  | .vneg d a _ => some (opNeg, d, [a])
  | .vsgnj d a _ b _ => some (opSgnj, d, [a, b])
  | .vmulh d a _ b _ => some (opMulh, d, [a, b])
  | .vsll d a _ b _ => some (opSll, d, [a, b])
  | .vsrl d a _ b _ => some (opSrl, d, [a, b])
  | .vsra d a _ b _ => some (opSra, d, [a, b])
  | .vand d a _ b _ => some (opAnd, d, [a, b])
  | .vor d a _ b _ => some (opOr, d, [a, b])
  | .vxor d a _ b _ => some (opXor, d, [a, b])
  | .vfsh d a _ b _ => some (opFsh, d, [a, b, s.st.fourth d])
  | .vpopc d a _ => some (opPopc, d, [a])
  | .vclz d a _ => some (opClz, d, [a])
  | .vsadd d a _ b _ => some (opSadd, d, [a, b])
  | _ => none

/-- The code-moving instructions with one list of sources, their destination and sources (R153 to R155). -/
def moveOperands (i : Instr) : Option (BitVec 5 × List (BitVec 5)) :=
  match i with
  | .vmov d a _ => some (d, [a])
  | .vbcast d a _ _ => some (d, [a])
  | .vslideup d a _ _ => some (d, [a])
  | .vslidedn d a _ _ => some (d, [a])
  | .vcompress d a _ => some (d, [a])
  | .vexpand d a _ => some (d, [a])
  | .vzip d a _ b => some (d, [a, b])
  | .vunzip d a _ => some (d, [a])
  | .vtrn d a _ b => some (d, [a, b])
  | .vrev d a _ => some (d, [a])
  | _ => none

/-- Whether a code-moving instruction writes position `e`: under a mask the active ones, but for `vcompress`, which fills positions
from 0 on (Table 08.2). -/
def moveWrites (i : Instr) (s : State) (e : Nat) : Bool :=
  match i with
  | .vcompress _ _ _ => decide (e < ((List.range s.st.grant).filter s.st.active).length)
  | _ => s.st.active e

/-- The source, by operand and element, of position `e` of a code-moving instruction; none for a position that becomes 0
(Table 08.2). -/
def moveSource (i : Instr) (s : State) (e : Nat) : Option (Nat × Nat) :=
  let g := s.st.grant
  match i with
  | .vbcast _ _ _ b => if (s.x b).toNat < g then some (0, (s.x b).toNat) else none
  | .vslideup _ _ _ b => if e < (s.x b).toNat then none else some (0, e - (s.x b).toNat)
  | .vslidedn _ _ _ b => if e + (s.x b).toNat < g then some (0, e + (s.x b).toNat) else none
  | .vcompress _ _ _ => some (0, ((List.range g).filter s.st.active).getD e 0)
  | .vexpand _ _ _ => some (0, ((List.range e).filter s.st.active).length)
  | .vzip _ _ _ _ => if e % 2 = 0 then some (0, e / 2) else some (1, e / 2)
  | .vunzip _ _ _ => if 2 * e < g + g % 2 then some (0, 2 * e) else some (0, 2 * (e - (g + 1) / 2) + 1)
  | .vtrn _ _ _ _ => if e % 2 = 0 then some (0, e) else some (1, e - 1)
  | .vrev _ _ _ => some (0, e / s.st.vl.toNat * s.st.vl.toNat + (s.st.vl.toNat - 1 - e % s.st.vl.toNat))
  | _ => some (0, e)

/-! ### What the statements about numbers name (R23, R28, R37, R41) -/

/-- The rational number that a finite value stands for; 0 for the others. -/
def Val.rat (v : Val) : ℚ :=
  match v with
  | .fin s m e => (if s then -1 else 1) * (m * 2 ^ e)
  | _ => 0

/-- A float format that an entry of the format table may hold (R23). -/
def Fmt.legalFloat (F : Fmt) : Prop := F.kind = .float ∧ ∃ v, legalEntry v = true ∧ F = Fmt.ofEntry v

/-- An integer format that an entry of the format table may hold (R23, R33). -/
def Fmt.legalInt (F : Fmt) : Prop := F.kind = .int ∧ ∃ v, legalEntry v = true ∧ F = Fmt.ofEntry v

/-- A code of a format reads as the finite number of a sign and a magnitude, and raises nothing. -/
def Fmt.reads (F : Fmt) (c : Nat) (neg : Bool) (x : ℚ) : Prop :=
  c < 2 ^ F.wid ∧ ∃ m e, F.decode false c = (.fin neg m e, 0) ∧ (m : ℚ) * 2 ^ e = x

/-- Whether a magnitude rounds up whose discarded part is the fraction `fr` of one unit in the last place (Table 02.6, R41); `even` is whether
the code below it is even, `d` the draw. -/
def RMode.up (rm : RMode) (neg even : Bool) (fr : ℚ) (d : BitVec 32) : Prop :=
  match rm with
  | .rne => 1 / 2 < fr ∨ fr = 1 / 2 ∧ even = false
  | .rneSat => 1 / 2 < fr ∨ fr = 1 / 2 ∧ even = false
  | .rtz => False
  | .rdn => neg = true ∧ fr ≠ 0
  | .rup => neg = false ∧ fr ≠ 0
  | .rna => 1 / 2 ≤ fr
  | .sr => (d.toNat : ℤ) < ⌊fr * 2 ^ 32⌋

/-- The generator after `n` draws, where the mode draws (R40, R41). -/
def drawn (rm : RMode) (seed : BitVec 32) (n : Nat) : BitVec 32 := if rm = .sr then seedStep^[n] seed else seed

/-- Active elements among the first `n` (R41). -/
def Strand.activeBelow (t : Strand) (n : Nat) : Nat := ((List.range n).filter t.active).length

/-- The segments of the sources that feed result segment `k` of a grant all carry the scale code `c` (R131). -/
def fedBy (srcs : List (VReg × Fmt)) (n g k : Nat) (c : BitVec 8) : Prop :=
  c ≠ 255 ∧ srcs ≠ [] ∧ ∀ x ∈ srcs, ∀ e, k * n ≤ e → e < (k + 1) * n → e < g → (x.1.seg (e / perSeg x.2.wid)).side.scl = c

end Sys2Proof.Machine
end

