-- ==== Sys2Proof/Certificates/Slice0/Obligations.lean ====
section
/-! DEFINITION. The statements for the provers. -/

section

open Sys2Proof Sys2Proof.Machine

/-- R84, R86, R88 to R100. The spec's own example words, and words of the other families written out from their encoding tables,
decode to the instructions they stand for (files 05 to 12). -/
def Obligations.WrittenWordsDecode : Prop :=  decode .cc 0x0262FFFD = .ok (.addi 6 5 0x7FFD) ∧ decode .cc 0x145BCDEF = .ok (.lih 5 0xBCDEF) ∧
  decode .execute 0x28940005 = .ok (.ploop 9 2 5) ∧ decode .access 0x325F1100 = .ok (.vshapeImm 5 15 8 256) ∧
  decode .execute 0x3CF00000 = .ok (.fence 3 6) ∧ decode .access 0x3C000001 = .ok .bar ∧
  decode .execute 0x80308503 = .ok (.vfma 3 1 0 2 1) ∧ decode .execute 0x8E408404 = .ok (.vperm 4 1 0 2) ∧
  decode .execute 0x920A0016 = .ok (.dfrCnt 5 5) ∧ decode .execute 0x94508001 = .ok (.qpush 5 1) ∧
  decode .execute 0xFE054800 = .ok (.pfx 0 0 1 2 1 1) ∧ decode .access 0x84540C00 = .ok (.vldX 5 8 6 0 0 0 0) ∧
  decode .access 0x90441200 = .ok (.vstB 4 8 9) ∧ decode .access 0x98941400 = .ok (.cp 9 8 10) ∧
  decode .access 0x9C040C01 = .ok (.ltagSt 8 6) ∧ decode .cc 0xE0530C00 = .ok (.ftWr 5 6 12)

/-- R84 to R100. For every well-formed encoded instruction and every space that reads its word, the decoder gives the instruction
back: no bit of an operand is dropped. A shared word is read alike in every space. -/
def Obligations.DecodeOfEncode : Prop :=  ∀ (i : Instr) (sp : Space), i.wellFormed = true → i.hasWord = true → (i.encodeNat < 2 ^ 31 ∨ sp = i.space) →
    decode sp (.ofNat 32 i.encodeNat) = .ok i

/-- R84, R87. A word that decodes is the one word of the instruction it decodes to: reserved bits are zero in it, and no two words
of a space mean the same instruction. -/
def Obligations.EncodeOfDecode : Prop :=  ∀ (sp : Space) (w : BitVec 32) (i : Instr), decode sp w = .ok i → i.wellFormed = true ∧ encode i = [w]

/-- R84, R87, R191; log 3. With power, no agenda, no pair begun and no agent ready, and no load of the strand to be read first, a
step whose fetch gives a word that decodes to `i` is `exec i`, after which the turn passes on; an encoding that is not allocated
raises its trap. Words that end a loop body or belong to a suppressed stage are the second half of `StepOtherTurns`. -/
def Obligations.StepRunsDecodedInstruction : Prop :=  ∀ (s u : State) (w : BitVec 32),
    s.dev.powered = true → s.dev.failed = false → s.agenda = [] → s.st.deco = none → s.coreAgent = none → s.devAgent = none →
    s.core.canRun s.st = true → s.st.loadDue = false → s.st.pend.any s.loadReady = false → (fetchAt s.via s.st.pc).run s = .ok (w, u) → u.st.suppressed = false →
    (∀ i, decode u.st.kind.space w = .ok i → (endsNoBody i = false ∨ ∀ l ∈ u.st.loops, l.last ≠ u.st.pc) →
      step s = thenRotate (exec i u)) ∧
    (∀ e, decode u.st.kind.space w = .error e → step s = thenRotate (exec (.unallocatedEncoding w) u))

/-- R82, R101, R191, R339, R361, R391, R393; log 3. What else a step can be: the second word of a pair at once; a strand or an
agent that the agenda names; an agent of the acting core, then one of the device; the landing of a due load; nothing of a strand
that cannot run, but that the clock of a gated core is seen to; and a fault while the module is down. R114, R115. In the last word
of an active body a transfer, a loop or a `pfx` is ILLEGAL_INSTRUCTION; a word of a stage whose predicate is 0 is issued and
counted and has no other effect, a transfer in the middle of a body and a `pfx` pair among them, but for traps that its word alone
decides: which those are is the model's reading (log 120). -/
def Obligations.StepOtherTurns : Prop :=
  (∀ s : State,
    (s.dev.powered = false → s.agenda = [] → step s = .fault .powerOff) ∧
    (s.dev.powered = true → s.dev.failed = true → s.agenda = [] → step s = .fault .deviceFailed) ∧
    (s.dev.powered = true → s.dev.failed = false →
      (s.st.deco.isSome = true → s.core.canRun s.st = true → step s = issue s) ∧
      (s.st.deco = none →
        (∀ c i r, s.agenda = .agent c i :: r → i.hasWord = false → s.core.num = c → step s = exec i { s with agenda := r }) ∧
        (∀ c n r, s.agenda = .strand c n :: r → step s = thenStepped (strandTurn (({ s with agenda := r } : State).focus c n))) ∧
        (∀ i, s.agenda = [] → s.coreAgent = some i → step s = exec i s) ∧
        (∀ i, s.agenda = [] → s.coreAgent = none → s.devAgent = some i → step s = exec i s) ∧
        (s.agenda = [] → s.coreAgent = none → s.devAgent = none → s.core.canRun s.st = true → s.st.loadDue = true →
          step s = thenRotate (exec .pendingLoadWrite s)) ∧
        (s.agenda = [] → s.coreAgent = none → s.devAgent = none → s.core.canRun s.st = false →
          step s = thenRotate (if s.core.pwr = 1 then exec .clockGate s else .next s))))) ∧
  (∀ (i : Instr) (s : State),
    (endsNoBody i = true → (∃ l ∈ s.st.loops, l.last = s.st.pc) → issueInstr i s = .next (s.takeTrap 0x01 0 0 0)) ∧
    (s.st.suppressed = true → endsNoBody i = false → illegalWord s i = false → isResident i = false →
      (∀ w, i ≠ .unallocatedEncoding w) → issueInstr i s = .next s.advance) ∧
    (s.st.suppressed = true → illegalWord s i = true → issueInstr i s = .next (s.takeTrap 0x01 0 0 0)) ∧
    (s.st.suppressed = true → endsNoBody i = false → isResident i = true → s.atResident = false →
      issueInstr i s = .next (s.takeTrap 0x02 0 0 0)) ∧
    (s.st.suppressed = true → (∀ l ∈ s.st.loops, l.last ≠ s.st.pc) → endsNoBody i = true → illegalWord s i = false →
      (∀ c v z m r o, i ≠ .pfx c v z m r o) → issueInstr i s = .next s.advance) ∧
    (∀ c v z m r o t, s.st.suppressed = true → (∀ l ∈ s.st.loops, l.last ≠ s.st.pc) → exec (.pfx c v z m r o) s = .next t →
      issueInstr (.pfx c v z m r o) s = .next (if t.st.deco.isSome then t.advance else t)) ∧
    (∀ l r, s.st.loops = l :: r → l.stages ≠ 0 → l.holds s.st.pc = true → s.st.deco = none →
      s.st.suppressed = !s.st.sp.getLsbD ((s.st.pc.toNat - l.first.toNat) / 4 / (((l.last.toNat - l.first.toNat) / 4 + 1) / l.stages))))

/-- R4, R322, R324, R348; log 2. At the resident level, while `sr.rroot` and the remap table are 0, a fetch reads the four bytes
at the pc, the first the least significant, and changes nothing. That a DPA is then its own location is the model's choice (log
2). -/
def Obligations.FetchReadsFourBytes : Prop :=  ∀ s : State, s.atResident = true → s.core.rroot = 0 → s.dev.rmLgn = 0 → s.st.pc.toNat % 4 = 0 →
    s.core.owns s.st.pc.toNat = false → (∀ c ∈ s.dev.cores, c.owns s.st.pc.toNat = false) → s.dev.hostLines = [] → s.dev.flashBad = [] →
    (∀ t ∈ s.dev.tokens, t.line ≠ s.st.pc.toNat / 128) → (s.dev.mem.tag s.st.pc.toNat).cls ≠ cPOI →
    (fetchAt s.via s.st.pc).run s =
      .ok (wordOfBytes (s.dev.mem.byte s.st.pc.toNat) (s.dev.mem.byte (s.st.pc.toNat + 1))
        (s.dev.mem.byte (s.st.pc.toNat + 2)) (s.dev.mem.byte (s.st.pc.toNat + 3)), s)

/-- R22, R50, R58, R71, R322, R324, R351, R394. The state right after reset: what the spec gives of it, and every core's CC
running at `sr.rvec` at the resident level. That `sr.rvec` is 0 is the model's choice (log 1), and so is that the CC's x registers
are 0 at bring-up (log 4). Log 8. At reset every memory is in its canonical form. -/
def Obligations.ResetValues : Prop :=
  (let s := State.reset
  s.st.kind = .cc ∧ s.st.run = .running ∧ s.core.resident = true ∧ s.st.pc = s.core.rvec ∧ s.core.rvec = 0 ∧
  s.core.epc = 0 ∧ s.core.estat = 1 ∧ s.core.rpend = 0 ∧ s.core.renab = 0 ∧ s.core.rroot = 0 ∧ s.core.ctxsel = 0 ∧
  s.core.ttrip = 0x0690 ∧ s.core.gang = none ∧ s.core.ctxId = 0 ∧ s.core.handler = none ∧
  s.dev.cotab = 0 ∧ s.dev.rmbase = 0 ∧ s.dev.ptab = 0 ∧
  (∀ p, s.dev.part p = none ∨ ∃ q, s.dev.part p = some q ∧ q.fbase = 0 ∧ q.fhead = 0 ∧ q.ftail = 0 ∧ q.fsvc = 0 ∧ q.dbg = 0 ∧ q.on = false) ∧
  (∀ r, s.st.x r = 0) ∧ s.st.vl = 0 ∧ s.st.vr = 0 ∧ s.st.sp = 0 ∧ s.st.rb = 0 ∧ s.st.flags = 0 ∧ s.st.tmask = 0 ∧ s.st.round = 0 ∧
  s.dev.mem = .empty ∧ s.dev.ctxs = [] ∧ s.core.evq = [] ∧ s.core.copies = [] ∧ s.dev.cores.length = 287 ∧
  (∀ c ∈ s.dev.cores, c.resident = true ∧ c.gang = none ∧ c.halted = false ∧ c.strands = [.bootCc 0])) ∧
  (State.reset.memWf = true)

/-- R105, Table 06.1. The arithmetic of two registers, on the numbers the registers hold: sums, products, quotients and
remainders, with the fixed results of division by zero and of overflow. Each completes and writes X[D]. -/
def Obligations.RegisterArithmetic : Prop :=  ∀ (d a b : BitVec 5) (s : State),
    (∃ v, exec (.add d a b) s = .next (s.setX d v).advance ∧ v.toNat = ((s.x a).toNat + (s.x b).toNat) % 2 ^ 64) ∧
    (∃ v, exec (.sub d a b) s = .next (s.setX d v).advance ∧ v.toNat = ((s.x a).toNat + 2 ^ 64 - (s.x b).toNat) % 2 ^ 64) ∧
    (∃ v, exec (.mul d a b) s = .next (s.setX d v).advance ∧ v.toNat = (s.x a).toNat * (s.x b).toNat % 2 ^ 64) ∧
    (∃ v, exec (.mulh d a b) s = .next (s.setX d v).advance ∧ v.toInt = (s.x a).toInt * (s.x b).toInt / 2 ^ 64) ∧
    (∃ v, exec (.mulhu d a b) s = .next (s.setX d v).advance ∧ v.toNat = (s.x a).toNat * (s.x b).toNat / 2 ^ 64) ∧
    (∃ v, exec (.div d a b) s = .next (s.setX d v).advance ∧
      ((s.x b).toInt = 0 → v.toInt = -1) ∧
      ((s.x a).toInt = -2 ^ 63 → (s.x b).toInt = -1 → v.toInt = -2 ^ 63) ∧
      ((s.x b).toInt ≠ 0 → ¬((s.x a).toInt = -2 ^ 63 ∧ (s.x b).toInt = -1) → v.toInt = (s.x a).toInt.tdiv (s.x b).toInt)) ∧
    (∃ v, exec (.divu d a b) s = .next (s.setX d v).advance ∧
      ((s.x b).toNat = 0 → v.toNat = 2 ^ 64 - 1) ∧ ((s.x b).toNat ≠ 0 → v.toNat = (s.x a).toNat / (s.x b).toNat)) ∧
    (∃ v, exec (.rem d a b) s = .next (s.setX d v).advance ∧
      ((s.x b).toInt = 0 → v = s.x a) ∧ ((s.x b).toInt ≠ 0 → v.toInt = (s.x a).toInt.tmod (s.x b).toInt)) ∧
    (∃ v, exec (.remu d a b) s = .next (s.setX d v).advance ∧
      ((s.x b).toNat = 0 → v = s.x a) ∧ ((s.x b).toNat ≠ 0 → v.toNat = (s.x a).toNat % (s.x b).toNat))

/-- R105, Table 06.1. The logic, shifts, comparisons and bit counts of registers. Each completes and writes X[D]; a shift takes
its amount modulo 64. -/
def Obligations.RegisterLogic : Prop :=  ∀ (d a b : BitVec 5) (s : State),
    (∃ v, exec (.and d a b) s = .next (s.setX d v).advance ∧ ∀ k, v.getLsbD k = ((s.x a).getLsbD k && (s.x b).getLsbD k)) ∧
    (∃ v, exec (.or d a b) s = .next (s.setX d v).advance ∧ ∀ k, v.getLsbD k = ((s.x a).getLsbD k || (s.x b).getLsbD k)) ∧
    (∃ v, exec (.xor d a b) s = .next (s.setX d v).advance ∧ ∀ k, v.getLsbD k = ((s.x a).getLsbD k != (s.x b).getLsbD k)) ∧
    (∃ v, exec (.sll d a b) s = .next (s.setX d v).advance ∧ v.toNat = (s.x a).toNat * 2 ^ ((s.x b).toNat % 64) % 2 ^ 64) ∧
    (∃ v, exec (.srl d a b) s = .next (s.setX d v).advance ∧ v.toNat = (s.x a).toNat / 2 ^ ((s.x b).toNat % 64)) ∧
    (∃ v, exec (.sra d a b) s = .next (s.setX d v).advance ∧ v.toInt = (s.x a).toInt / 2 ^ ((s.x b).toNat % 64)) ∧
    (exec (.slt d a b) s = .next (s.setX d (if (s.x a).toInt < (s.x b).toInt then 1 else 0)).advance) ∧
    (exec (.sltu d a b) s = .next (s.setX d (if (s.x a).toNat < (s.x b).toNat then 1 else 0)).advance) ∧
    (∃ v, exec (.min d a b) s = .next (s.setX d v).advance ∧ v.toInt = Min.min (s.x a).toInt (s.x b).toInt) ∧
    (∃ v, exec (.max d a b) s = .next (s.setX d v).advance ∧ v.toInt = Max.max (s.x a).toInt (s.x b).toInt) ∧
    (∃ v, exec (.minu d a b) s = .next (s.setX d v).advance ∧ v.toNat = Min.min (s.x a).toNat (s.x b).toNat) ∧
    (∃ v, exec (.maxu d a b) s = .next (s.setX d v).advance ∧ v.toNat = Max.max (s.x a).toNat (s.x b).toNat) ∧
    (∃ n, exec (.clz d a) s = .next (s.setX d (.ofNat 64 n)).advance ∧ n ≤ 64 ∧
      (n < 64 → (s.x a).getLsbD (63 - n) = true) ∧ ∀ k, 64 - n ≤ k → k < 64 → (s.x a).getLsbD k = false) ∧
    (∃ n, exec (.ctz d a) s = .next (s.setX d (.ofNat 64 n)).advance ∧ n ≤ 64 ∧
      (n < 64 → (s.x a).getLsbD n = true) ∧ ∀ k, k < n → (s.x a).getLsbD k = false) ∧
    (exec (.popc d a) s = .next (s.setX d (.ofNat 64 ((List.range 64).countP fun k => (s.x a).getLsbD k))).advance) ∧
    (exec (.sel d a b) s = .next (s.setX d (if s.x d = 0 then s.x b else s.x a)).advance)

/-- R106, R107. The immediate forms compute the matching operation with b the sign-extended immediate, or shift by it. -/
def Obligations.ImmediateArithmetic : Prop :=  ∀ (d a : BitVec 5) (i : BitVec 15) (h : BitVec 6) (s : State),
    (∃ v, exec (.addi d a i) s = .next (s.setX d v).advance ∧ v.toInt = ((s.x a).toInt + i.toInt).bmod (2 ^ 64)) ∧
    (∃ v, exec (.andi d a i) s = .next (s.setX d v).advance ∧
      ∀ k, k < 64 → v.getLsbD k = ((s.x a).getLsbD k && i.getLsbD (Min.min k 14))) ∧
    (∃ v, exec (.ori d a i) s = .next (s.setX d v).advance ∧
      ∀ k, k < 64 → v.getLsbD k = ((s.x a).getLsbD k || i.getLsbD (Min.min k 14))) ∧
    (∃ v, exec (.xori d a i) s = .next (s.setX d v).advance ∧
      ∀ k, k < 64 → v.getLsbD k = ((s.x a).getLsbD k != i.getLsbD (Min.min k 14))) ∧
    (exec (.slti d a i) s = .next (s.setX d (if (s.x a).toInt < i.toInt then 1 else 0)).advance) ∧
    (∃ v, exec (.slli d a h) s = .next (s.setX d v).advance ∧ v.toNat = (s.x a).toNat * 2 ^ h.toNat % 2 ^ 64) ∧
    (∃ v, exec (.srli d a h) s = .next (s.setX d v).advance ∧ v.toNat = (s.x a).toNat / 2 ^ h.toNat) ∧
    (∃ v, exec (.srai d a h) s = .next (s.setX d v).advance ∧ v.toInt = (s.x a).toInt / 2 ^ h.toNat) ∧
    (∃ v, exec (.adda d a i) s = .next (s.setX d v).advance ∧ v.toInt = ((s.x a).toInt + i.toInt * 128).bmod (2 ^ 64))

/-- R108. `lih` writes X[D] times 2^20, wrapped, ORed with the twenty bits of its field. -/
def Obligations.LoadImmediateHigh : Prop :=  ∀ (d : BitVec 5) (i : BitVec 20) (s : State),
    ∃ v, exec (.lih d i) s = .next (s.setX d v).advance ∧ v.toNat = (s.x d).toNat * 2 ^ 20 % 2 ^ 64 + i.toNat

/-- R70, R105 to R108. The frame of the integer instructions: only X[D] changes, x0 never, and beside it only where the strand
goes on (pc, loops with their stage predicates and rotating base, load shadows). Flags, every other register, special registers
and all of memory stay. R70, Table 00.3. x0 reads 0 and discards writes; a write of another register is read back and leaves the
others. -/
def Obligations.ScalarFrame : Prop :=
  (∀ (i : Instr) (d : BitVec 5) (s t : State), scalarDest i = some d → exec i s = .next t →
    s.onlyScalars t ∧ (∀ r, r ≠ d → t.x r = s.x r) ∧ t.x 0 = 0 ∧ (∀ a, t.dev.mem.byte a = s.dev.mem.byte a) ∧
    (∀ a, t.core.spad.byte a = s.core.spad.byte a)) ∧
  (∀ (s : State) (d r : BitVec 5) (v : Word),
    s.x 0 = 0 ∧ s.setX 0 v = s ∧ (d ≠ 0 → (s.setX d v).x d = v) ∧ (r ≠ d → (s.setX d v).x r = s.x r))

/-- R82, R112, R113, R115, R116. Where a strand goes on after a word that completed without a taken transfer: the next word; the
first word of a body whose trip count is not used up; the outer loop's judgement of a word that is not the inner one's last, or of
the same word when one falls through; a `ploop` moves its predicates and, in an X-hart, the rotating base by 1, and its predicates
are 0 when it falls through. R109, R113, R115, R190; logs 24, 25. The six branches: taken, the strand goes on at PC + 4 x OFF15,
else at the next word, whatever the target; a branch that is taken into an active `ploop` body is ILLEGAL_INSTRUCTION. -/
def Obligations.WhereAWordGoesOn : Prop :=
  (∀ s : State,
    (s.inLine → s.advance.st.pc = s.st.pc + 4 ∧ s.advance.st.loops = s.st.loops ∧ s.advance.st.sp = s.st.sp ∧ s.advance.st.rb = s.st.rb) ∧
    (∀ l r, s.st.loops = l :: r → l.last ≠ s.st.pc →
      let u := ({ s with st := { s.st with loops := r } } : State).advance
      s.advance.st.pc = u.st.pc ∧ s.advance.st.loops = l :: u.st.loops ∧ s.advance.st.sp = u.st.sp ∧ s.advance.st.rb = u.st.rb) ∧
    (∀ l r, s.st.loops = l :: r → l.last = s.st.pc → l.stages = 0 → 1 < l.left →
      s.advance.st.pc = l.first ∧ s.advance.st.loops = { l with left := l.left - 1 } :: r ∧ s.advance.st.rb = s.st.rb) ∧
    (∀ l r, s.st.loops = l :: r → l.last = s.st.pc → l.stages = 0 → l.left ≤ 1 →
      s.advance = ({ s with st := { s.st with loops := r } } : State).advance) ∧
    (∀ l r, s.st.loops = l :: r → l.last = s.st.pc → l.stages ≠ 0 → l.iter + 1 < l.trips + l.stages - 1 →
      s.advance.st.pc = l.first ∧ s.advance.st.loops = { l with iter := l.iter + 1 } :: r ∧
      s.advance.st.rb = s.st.rb + (if s.st.kind = .execute then 1 else 0) ∧
      ∀ k, k < 8 → 1 ≤ l.trips →
        s.advance.st.sp.getLsbD k = decide (k < l.stages ∧ k ≤ l.iter + 1 ∧ l.iter + 1 ≤ k + l.trips - 1)) ∧
    (∀ l r, s.st.loops = l :: r → l.last = s.st.pc → l.stages ≠ 0 → l.trips + l.stages - 1 ≤ l.iter + 1 →
      s.advance = ({ s with st := { s.st with loops := r, sp := 0,
                                              rb := s.st.rb + (if s.st.kind = .execute then 1 else 0) } } : State).advance) ∧
    s.advance.st.pend = s.st.pend.map fun p => { p with left := p.left - 1 }) ∧
  (∀ (a b : BitVec 5) (o : BitVec 15) (s : State),
    let target := s.st.pc + o.signExtend 64 * 4
    let go (i : Instr) (c : Prop) [Decidable c] : Prop :=
      (s.mayGoTo target → exec i s = .next (if c then s.goTo target else s.advance)) ∧
      (¬ c → exec i s = .next s.advance) ∧
      (c → (∃ l ∈ s.st.loops, l.stages ≠ 0 ∧ l.holds target = true) → exec i s = .next (s.takeTrap 0x01 0 0 0))
    go (.beq a b o) (s.x a = s.x b) ∧
    go (.bne a b o) (s.x a ≠ s.x b) ∧
    go (.blt a b o) ((s.x a).toInt < (s.x b).toInt) ∧
    go (.bge a b o) ((s.x b).toInt ≤ (s.x a).toInt) ∧
    go (.bltu a b o) ((s.x a).toNat < (s.x b).toNat) ∧
    go (.bgeu a b o) ((s.x b).toNat ≤ (s.x a).toNat))

/-- R23, R28 to R33, R36 to R41, R43, R66, R134, R138, R139, Tables 02.4, 02.6 and 02.8. What the codes of the formats that an
entry may hold mean, and how an exact value becomes a code: a float code is a sign, an exponent and a fraction, or a special code
of its policy; a value rounds to one of the codes around it as its mode says, overflows as Table 02.8 says, and raises NX, UF and
OF as R43 says; infinities, NaNs and zeros convert as R39 says; an integer saturates with NV. A scale multiplies by a power of
two; the scale of an amax is the least at which it fits, clamped with SF or SO. Sums, products, quotients and roots are exact, or
cut far below any rounding with a sticky bit. -/
def Obligations.NumberFormats : Prop :=  (∀ F : Fmt, F.legalFloat →
    let ones := 2 ^ F.ew - 1
    let sign (s : Bool) : Nat := if s then 2 ^ (F.ew + F.mw) else 0
    let max := F.maxVal.rat
    let tiny : ℚ := 2 ^ (1 - (F.bias : ℤ) - F.mw)
    (∀ (toInt s : Bool) (ex f : Nat), ex < 2 ^ F.ew → f < 2 ^ F.mw →
      let c := sign s + ex * 2 ^ F.mw + f
      let reserved : Prop := F.rsv = true ∧ s = true ∧ ex = 0 ∧ f = 0
      let noNumber : Prop := F.spc = 0 ∧ ex = ones ∨ (F.spc = 1 ∨ F.spc = 3) ∧ ex = ones ∧ f = 2 ^ F.mw - 1
      (reserved → F.decode toInt c = (if toInt then .zero else .nan, 0x20)) ∧
      (F.spc = 0 → ex = ones → F.decode toInt c = (if f = 0 then .inf s else .nan, 0)) ∧
      ((F.spc = 1 ∨ F.spc = 3) → ex = ones → f = 2 ^ F.mw - 1 → F.decode toInt c = (.nan, 0)) ∧
      (¬reserved → ¬noNumber → ∃ m e, F.decode toInt c = (.fin s m e, 0) ∧ (m : ℚ) * 2 ^ e =
        if ex = 0 then 2 ^ (1 - (F.bias : ℤ)) * ((f : ℚ) / 2 ^ F.mw) else 2 ^ ((ex : ℤ) - F.bias) * (1 + (f : ℚ) / 2 ^ F.mw))) ∧
    (∃ c, F.reads c false max) ∧ (∀ c s x, F.reads c s x → x ≤ max) ∧
    (∀ (rm : RMode) (s : Bool) (d : BitVec 32) (m : Nat) (e k : ℤ) (n q : Nat) (fr : ℚ),
      let x : ℚ := m * 2 ^ e
      let t := Max.max (k - F.mw) (1 - (F.bias : ℤ) - F.mw)
      let below : ℤ := if n < 2 ^ F.mw then n else (t + F.mw + F.bias) * 2 ^ F.mw + (n - 2 ^ F.mw)
      let y : ℚ := q * 2 ^ t
      let r := F.convert rm d (.fin s m e)
      let saturates : Prop := F.spc = 2 ∨ F.spc = 3 ∨ rm = .rtz ∨ rm = .rneSat ∨ rm = .rdn ∧ s = false ∨ rm = .rup ∧ s = true
      2 ^ k ≤ x → x < 2 ^ (k + 1) → 0 ≤ fr → fr < 1 → x = (n + fr) * 2 ^ t →
      (rm.up s (below % 2 == 0) fr d → q = n + 1) → (¬rm.up s (below % 2 == 0) fr d → q = n) →
      (y ≤ max → F.reads r.1 (s && (!F.rsv || decide (q ≠ 0))) y ∧
        r.2 = if fr = 0 then 0 else if x < 2 ^ (1 - (F.bias : ℤ)) then 0x18 else 0x10) ∧
      (max < y → r.2 = 0x14 ∧ (saturates → F.reads r.1 s max) ∧
        (¬saturates → (F.spc = 0 → r.1 = sign s + ones * 2 ^ F.mw) ∧ (F.spc = 1 → r.1 = 2 ^ (F.ew + F.mw) - 1)))) ∧
    (∀ (rm : RMode) (d : BitVec 32) (s : Bool) (e : ℤ),
      (F.reads (F.convert rm d (.fin s 0 e)).1 (s && !F.rsv) 0 ∧ (F.convert rm d (.fin s 0 e)).2 = 0) ∧
      (F.spc = 0 → F.convert rm d (.inf s) = (sign s + ones * 2 ^ F.mw, 0)) ∧
      (F.spc ≠ 0 → F.reads (F.convert rm d (.inf s)).1 s max ∧ (F.convert rm d (.inf s)).2 = 0x14) ∧
      (F.spc = 2 ∨ F.spc = 0 ∧ F.mw = 0 → F.convert rm d .nan = (0, 0x01)) ∧
      (F.spc = 0 → F.mw ≠ 0 → F.convert rm d .nan = (ones * 2 ^ F.mw + 2 ^ (F.mw - 1), 0)) ∧
      (F.spc = 1 ∨ F.spc = 3 → F.convert rm d .nan = (2 ^ (F.ew + F.mw) - 1, 0))) ∧
    (∀ s m e, F.represents (.fin s m e) = true ↔ ∃ c, F.reads c s (m * 2 ^ e)) ∧
    (∀ (rm : RMode) (d : BitVec 32) (s : Bool) (m : Nat) (e : ℤ), let x : ℚ := m * 2 ^ e
      (x < tiny → F.reads (convertScaled F rm d 0x40 (.fin s m e)).1 (s && !F.rsv) 0 ∧
        (convertScaled F rm d 0x40 (.fin s m e)).2 = if m = 0 then 0 else 0x18) ∧
      (tiny ≤ x → convertScaled F rm d 0x40 (.fin s m e) = F.convert rm d (.fin s m e)) ∧
      (max < x → F.reads (convertScaled F rm d 0x80 (.fin s m e)).1 s max ∧ (convertScaled F rm d 0x80 (.fin s m e)).2 = 0x10) ∧
      (x ≤ max → convertScaled F rm d 0x80 (.fin s m e) = F.convert rm d (.fin s m e)) ∧
      convertScaled F rm d 0 (.fin s m e) = F.convert rm d (.fin s m e))) ∧
  (∀ F : Fmt, F.legalInt →
    let top : ℤ := 2 ^ (F.wid - 1)
    let code (n : ℤ) : Nat := (n % 2 ^ F.wid).toNat
    (∀ (toInt : Bool) (n : ℤ), -top ≤ n → n < top → F.decode toInt (code n) = (.ofInt n, 0) ∧ (Val.ofInt n).rat = n ∧ (Val.ofInt n).toInt = n) ∧
    (∀ (rm : RMode) (s : Bool) (d : BitVec 32) (m : Nat) (e : ℤ) (n q : Nat) (fr : ℚ), 0 ≤ fr → fr < 1 → (m : ℚ) * 2 ^ e = n + fr →
      (rm.up s (n % 2 == 0) fr d → q = n + 1) → (¬rm.up s (n % 2 == 0) fr d → q = n) →
      let v : ℤ := if s then -q else q
      F.convert rm d (.fin s m e) = if top ≤ v then (code (top - 1), 0x01) else if v < -top then (code (-top), 0x01)
        else (code v, if fr = 0 then 0 else 0x10)) ∧
    (∀ (rm : RMode) (d : BitVec 32), F.convert rm d .nan = (0, 0x01) ∧ F.convert rm d (.inf false) = (code (top - 1), 0x01) ∧
      F.convert rm d (.inf true) = (code (-top), 0x01))) ∧
  (∀ F : Fmt, F.legalFloat ∨ F.legalInt → ∀ (m : Nat) (e k : ℤ), m ≠ 0 →
    (m : ℚ) * 2 ^ e ≤ F.maxVal.rat * 2 ^ k → F.maxVal.rat * 2 ^ (k - 1) < (m : ℚ) * 2 ^ e →
    scaleFromAmax F (.fin false m e) = (if k < -127 then (0, 0x40) else if 127 < k then (254, 0x80) else (.ofInt 8 (k + 127), 0)) ∧
    scaleFromAmax F (.fin false 0 e) = (127, 0) ∧ scaleFromAmax F .nan = (255, 0) ∧ scaleFromAmax F (.inf false) = (254, 0x80)) ∧
  (∀ (c : BitVec 8) (s : Bool) (m : Nat) (e : ℤ), (c ≠ 255 → ∃ e', applyScale c (.fin s m e) = .fin s m e' ∧
      (m : ℚ) * 2 ^ e' = m * 2 ^ e * 2 ^ ((c.toNat : ℤ) - 127)) ∧ (∀ v, applyScale 255 v = .nan)) ∧
  (∀ x : BitVec 32, seedStep x = x <<< 1 ||| (if x.getLsbD 31 ^^ x.getLsbD 21 ^^ x.getLsbD 1 ^^ x.getLsbD 0 then 1 else 0)) ∧
  (∀ (down s u : Bool) (m n : Nat) (e f : ℤ), let a : Val := .fin s m e
    let b : Val := .fin u n f
    (∃ z k g, a.add down b = (.fin z k g, 0) ∧ (Val.fin z k g).rat = a.rat + b.rat ∧
      (a.rat + b.rat = 0 → z = if m = 0 ∧ n = 0 ∧ s = u then s else down)) ∧
    (∃ k g, a.mul b = (.fin (s != u) k g, 0) ∧ (Val.fin (s != u) k g).rat = a.rat * b.rat) ∧
    (a.cmp b < 0 ↔ a.rat < b.rat) ∧ (a.cmp b = 0 ↔ a.rat = b.rat) ∧
    (m ≠ 0 → n ≠ 0 → ∃ k g, divVal a b = (.fin (s != u) k g, 0) ∧ 2 ^ 99 ≤ k ∧ let r : ℚ := m * 2 ^ e / (n * 2 ^ f)
      (k % 2 = 0 → (k : ℚ) * 2 ^ g = r) ∧ (k % 2 = 1 → (k - 1 : ℚ) * 2 ^ g < r ∧ r < (k + 1 : ℚ) * 2 ^ g)) ∧
    (m ≠ 0 → ∃ k g, sqrtVal (.fin false m e) = (.fin false k g, 0) ∧ 2 ^ 99 ≤ k ∧ let r : ℚ := m * 2 ^ e
      (k % 2 = 0 → ((k : ℚ) * 2 ^ g) ^ 2 = r) ∧ (k % 2 = 1 → ((k - 1 : ℚ) * 2 ^ g) ^ 2 < r ∧ r < ((k + 1 : ℚ) * 2 ^ g) ^ 2)) ∧
    a.mul .nan = (.nan, 0) ∧ Val.nan.mul a = (.nan, 0) ∧ a.add down .nan = (.nan, 0) ∧ Val.nan.add down a = (.nan, 0) ∧
    (Val.inf s).add down a = (.inf s, 0) ∧ a.add down (.inf s) = (.inf s, 0) ∧
    (Val.inf s).add down (.inf u) = (if s = u then (.inf s, 0) else (.nan, 0x01)) ∧ (Val.inf s).mul (.inf u) = (.inf (s != u), 0) ∧
    (Val.inf u).mul a = (if m = 0 then (.nan, 0x01) else (.inf (u != s), 0)) ∧ a.mul (.inf u) = (if m = 0 then (.nan, 0x01) else (.inf (s != u), 0)) ∧
    (n = 0 → divVal a b = if m = 0 then (.nan, 0x01) else (.inf (s != u), 0x02)) ∧ (Val.inf s |> (divVal · (.inf u))) = (.nan, 0x01) ∧
    (m ≠ 0 → sqrtVal (.fin true m e) = (.nan, 0x01)) ∧ sqrtVal (.fin s 0 e) = (.fin s 0 0, 0) ∧ sqrtVal (.inf false) = (.inf false, 0))

/-- R110, R113. `jal` and `jalr` write PC + 4 to X[D] and go on at their target, `jalr`'s from the old X[A] with its two low bits
clear (logs 24, 25: the stage predicates stay, and 0 is an ordinary target at the resident level). R115, R190, R200, R201. A taken
transfer into an active `ploop` body is ILLEGAL_INSTRUCTION with nothing written; one to 0 at the user level leaves handler mode
on the CC, ends a CC outside handler mode, which terminates its gang while a hart of it is stopped with a trap, and ends any other
strand. -/
def Obligations.JumpsAndTransfers : Prop :=
  (∀ (d a : BitVec 5) (o : BitVec 20) (i : BitVec 15) (s : State),
    (s.mayGoTo (s.st.pc + o.signExtend 64 * 4) →
      exec (.jal d o) s = .next ((s.setX d (s.st.pc + 4)).goTo (s.st.pc + o.signExtend 64 * 4))) ∧
    (∀ target : Word, s.mayGoTo target → (target.toNat = (s.x a + i.signExtend 64).toNat / 4 * 4) →
      exec (.jalr d a i) s = .next ((s.setX d (s.st.pc + 4)).goTo target))) ∧
  (∀ (d a : BitVec 5) (o : BitVec 20) (s : State),
    ((∃ l ∈ s.st.loops, l.stages ≠ 0 ∧ l.holds (s.st.pc + o.signExtend 64 * 4) = true) →
      exec (.jal d o) s = .next (s.takeTrap 0x01 0 0 0)) ∧
    ((∃ l ∈ s.st.loops, l.stages ≠ 0 ∧ l.holds (s.x a &&& ~~~3) = true) →
      exec (.jalr d a 0) s = .next (s.takeTrap 0x01 0 0 0)) ∧
    ((∀ l ∈ s.st.loops, l.stages = 0) → s.atResident = false → s.st.kind = .cc → s.core.handler.isSome = true →
      exec (.jalr 0 0 0) s = .next ({ s with st := { s.st with pend := s.st.pend.map .tick, deco := none, waiting := false } } : State).handlerExit) ∧
    ((∀ l ∈ s.st.loops, l.stages = 0) → s.atResident = false → s.st.kind = .cc → s.core.handler = none →
      ∃ t, exec (.jalr 0 0 0) s = .next t ∧ t.st.run = .ended ∧
        ((∀ u ∈ s.core.strands, u.run ≠ .trapped) → t.core = s.core ∧ t.dev = s.dev ∧ t.st.xr = s.st.xr) ∧
        (∀ g n, s.st.slot = 0 → s.core.gang = some g → g.term = none → s.lowTrapped = some n → ∃ h, t.core.gang = some h ∧ h.left = true ∧
          h.term = some (s.core.spad.byte (4194304 - 2048 + 64 * n + 17), whoOfSlot n))) ∧
    ((∀ l ∈ s.st.loops, l.stages = 0) → s.st.kind ≠ .cc → ∃ t, exec (.jalr 0 0 0) s = .next t ∧ t.st.run = .ended ∧ t.core = s.core ∧ t.dev = s.dev ∧
      t.st.xr = s.st.xr ∧ t.st.vreg = s.st.vreg))

/-- R112, R113, R115. `loop` and `ploop` enter a body at the next word with a fresh level, or, for a trip count of 0, go on after
the body, with no iteration of any loop counted; with four levels active, a `ploop` active, or a body no multiple of its stages
they are ILLEGAL_INSTRUCTION. R117; logs 23, 24, 25. `sbr` subtracts the grant from X[C], advances each address register by its
size code's amount, and branches back when X[C] is then positive. Nothing else of the registers changes. That the words of a
skipped body count no iteration of an outer loop is the model's reading (log 23). -/
def Obligations.LoopsAndStripMining : Prop :=
  (∀ (a : BitVec 5) (st : BitVec 3) (l : BitVec 15) (s : State),
    let first := s.st.pc + 4
    let last := s.st.pc + 4 + l.setWidth 64 * 4
    let room := s.st.loops.length < 4 ∧ ∀ x ∈ s.st.loops, x.stages = 0
    (room → s.x a ≠ 0 → exec (.loop a l) s =
      .next { s with st := s.st.enterBody ⟨first, last, (s.x a).toNat, 0, 0, 0⟩ s.st.sp }) ∧
    (room → s.x a = 0 → exec (.loop a l) s = .next { s with st := s.st.skipBody last }) ∧
    (room → s.x a ≠ 0 → (l.toNat + 1) % (st.toNat + 1) = 0 → exec (.ploop a st l) s =
      .next { s with st := s.st.enterBody ⟨first, last, 0, st.toNat + 1, (s.x a).toNat, 0⟩ 1 }) ∧
    (room → s.x a = 0 → (l.toNat + 1) % (st.toNat + 1) = 0 → exec (.ploop a st l) s = .next { s with st := s.st.skipBody last }) ∧
    (¬ room → exec (.loop a l) s = .next (s.takeTrap 0x01 0 0 0) ∧ exec (.ploop a st l) s = .next (s.takeTrap 0x01 0 0 0)) ∧
    ((l.toNat + 1) % (st.toNat + 1) ≠ 0 → exec (.ploop a st l) s = .next (s.takeTrap 0x01 0 0 0)) ∧
    (∀ x sp, (s.st.enterBody x sp).pc = first ∧ (s.st.enterBody x sp).loops = x :: s.st.loops ∧ (s.st.enterBody x sp).sp = sp ∧
      (s.st.enterBody x sp).rb = s.st.rb ∧ (s.st.enterBody x sp).xr = s.st.xr) ∧
    ((s.st.skipBody last).pc = last + 4 ∧ (s.st.skipBody last).loops = s.st.loops ∧ (s.st.skipBody last).sp = s.st.sp ∧
      (s.st.skipBody last).rb = s.st.rb ∧ (s.st.skipBody last).xr = s.st.xr)) ∧
  (∀ (o : BitVec 3) (c a : BitVec 5) (n : BitVec 2) (z : BitVec 8) (p : BitVec 5) (s : State), sbrOk c a n z = true →
    let g := s.st.vl.toNat * s.st.vr.toNat
    let back := s.st.pc - 4 * ((o ++ p).setWidth 64 + 1)
    ∃ xr : Vector Word 32,
      let t : State := { s with st := { s.st with xr := xr } }
      (c ≠ 0 → t.x c = s.x c - .ofNat 64 g) ∧
      (∀ i, i ≤ n.toNat → a + .ofNat 5 i ≠ 0 → t.x (a + .ofNat 5 i) = s.x (a + .ofNat 5 i) + .ofNat 64 (match z.toNat / 4 ^ i % 4 with
        | 0 => g
        | 1 => 2 * g
        | 2 => 4 * g
        | _ => 128 * (g / perSeg s.st.gw) + (g % perSeg s.st.gw * s.st.gw + 7) / 8)) ∧
      (∀ r : BitVec 5, r ≠ c → ¬(a.toNat ≤ r.toNat ∧ r.toNat ≤ a.toNat + n.toNat) → t.x r = s.x r) ∧
      (0 < (t.x c).toInt → s.mayGoTo back → exec (.sbr o c a n z p) s = .next (t.goTo back)) ∧
      ((t.x c).toInt ≤ 0 → exec (.sbr o c a n z p) s = .next t.advance))

/-- R93, R118 to R121. A scalar load that lies within one full scratchpad line of class VAL or RAW: the value is its bytes,
little-endian, sign-extended or zero-extended by the size code. The CC writes it at once; a hart's write waits three instructions
in its load shadow. Nothing else changes. R93, R118, R119, R121. A scalar store that lies within one scratchpad line of class VAL
or RAW: its bytes take the low bytes of X[D], little-endian; the line becomes RAW and keeps its other fields; no other byte, tag
or register changes, but for what R160 and R197 leave open where a strand stores into the deferral carve-out or a hart into the
trap frames. -/
def Obligations.ScratchpadAccess : Prop :=
  (∀ (d a : BitVec 5) (z : BitVec 3) (o : BitVec 12) (s : State),
    let va := s.x a + o.signExtend 64
    let n := 2 ^ (z.toNat % 4)
    let off := va.toNat % 4194304
    z.toNat ≤ 6 →
    (s.st.kind = .execute ∨ 0xFFFFFFFFFFC00000 ≤ va.toNat) → va.toNat % 128 + n ≤ 128 →
    (s.st.kind = .cc → s.core.engHolds 2 = false) → (off / 128) ∉ s.core.feEmpty →
    ((s.core.spad.tag off).cls = cVAL ∨ (s.core.spad.tag off).cls = cRAW) →
    ∃ v : Word,
      (∀ k, k < 64 → v.getLsbD k = if k < 8 * n then (s.core.spad.byte (off + k / 8)).getLsbD (k % 8)
        else decide (z.toNat < 4) && (s.core.spad.byte (off + n - 1)).getLsbD 7) ∧
      (s.st.kind = .cc → exec (.ld d a z o) s = .next (s.setX d v).advance) ∧
      (s.st.kind ≠ .cc → exec (.ld d a z o) s =
        .next { s.advance with st := { s.advance.st with pend := s.advance.st.pend ++ [⟨d, 3, .value v, s.st.wordPc⟩] } })) ∧
  (∀ (d a : BitVec 5) (z : BitVec 2) (o : BitVec 12) (s : State),
    let va := s.x a + o.signExtend 64
    let n := 2 ^ z.toNat
    let off := va.toNat % 4194304
    (s.st.kind = .execute ∨ 0xFFFFFFFFFFC00000 ≤ va.toNat) → va.toNat % 128 + n ≤ 128 →
    (s.st.kind = .cc → s.core.engHolds 1 = false) → s.core.spad.wf = true → s.st.holdsBytes (off / 128) (byteMask (off % 128) n) = false →
    ((s.core.spad.tag off).cls = cVAL ∨ (s.core.spad.tag off).cls = cRAW) →
    ∃ m : Memory,
      let t : State := { s with core := { s.core with spad := m } }
      exec (.st d a z o) s = .next (t.spadStored off (byteMask (off % 128) n)).advance ∧
      (off / 128 * 128 + s.core.carveSize < 4194304 - 2048 ∨ (s.st.kind = .cc ∧ 4194304 - 2048 ≤ off) →
        t.spadStored off (byteMask (off % 128) n) = t) ∧
      (∀ k, k < n → m.byte (off + k) = (s.x d).extractLsb' (8 * k) 8) ∧
      (∀ b, (b < off ∨ off + n ≤ b) → m.byte b = s.core.spad.byte b) ∧
      m.tag off = (s.core.spad.tag off).withCls cRAW ∧
      (∀ b, b / 128 ≠ off / 128 → m.tag b = s.core.spad.tag b))

/-- R118, R120, R121. Every scalar access, whatever it crosses: a store completes with what its parts leave, a load with the value
and the flags its parts give; a hart's load from an empty scratchpad line goes into the shadow unread. R82, R120. A load whose
shadow has ended writes its destination and changes nothing else; one whose scratchpad line is still empty makes the strand wait.
-/
def Obligations.ScalarAccess : Prop :=
  (∀ (d a : BitVec 5) (z : BitVec 3) (y : BitVec 2) (o : BitVec 12) (s u : State) (v : Nat) (f : BitVec 8),
    let va := s.x a + o.signExtend 64
    ((s.st.kind = .cc → s.core.engHolds 1 = false) → (storeParts (lineParts va (2 ^ y.toNat)) (s.x d).toNat).run s = .ok ((), u) →
      exec (.st d a y o) s = .next u.advance) ∧
    ((s.st.kind = .cc → s.core.engHolds 2 = false) → (loadParts (lineParts va (ldSize z))).run s = .ok ((v, f), u) → u.calm f →
      ¬(s.st.kind ≠ .cc ∧ s.spadEmpty va (ldSize z) = true) →
      exec (.ld d a z o) s = .next ((u.flagged f).advanceValue d (ldExtend z v))) ∧
    (s.st.kind = .execute ∨ (s.st.kind = .access ∧ ∀ p ∈ lineParts va (ldSize z), inWindow p.1 = true) → s.spadEmpty va (ldSize z) = true →
      exec (.ld d a z o) s = .next (s.advanceLoad d (.late va z)))) ∧
  (∀ (s : State) (p : PendLoad) (r : List PendLoad), s.st.pend = p :: r → p.left = 0 → s.st.run = .running →
    (∀ v, p.src = .value v → exec .pendingLoadWrite s =
      .next { s with st := { s.st.setX p.dst v with pend := r, waiting := false } }) ∧
    (∀ va z, p.src = .late va z → s.spadEmpty va (ldSize z) = true → s.st.pend.any s.loadReady = false →
      exec .pendingLoadWrite s = .next { s with st := { s.st with waiting := true } }) ∧
    (∀ va z v f u, p.src = .late va z → s.spadEmpty va (ldSize z) = false →
      (loadParts (lineParts va (ldSize z))).run { s with st := { s.st with pend := r } } = .ok ((v, f), u) →
      u.calm f → exec .pendingLoadWrite s =
        .next { u with st := { (u.flagged f).st.setX p.dst (ldExtend z v) with waiting := false } }))

/-- R120, R126, R128, R252, R257, R260, Table 13.2. A fence completes, unless a load that it names has still to be read or a
write-back has to wait for a Shuttle that owns the line: below device scope far copies stay as they are; from device scope on,
`ld` leaves the core no far copy that no lazy set holds, and `st` alone leaves those with no dirty byte. `nop` and `yield` do
nothing. R122, R310, R374, Table 17.3; log 123. A prefetch completes and changes no register, no scratchpad byte and no strand;
one whose address has no translation changes nothing at all, and in an X-hart `dpf` has no effect. That `ipf` needs R permission,
as `dpf`, is the model's reading (log 123). -/
def Obligations.FencesHintsAndPrefetches : Prop :=
  (∀ (sc k : BitVec 3) (s : State),
    ((k.getLsbD 2 = true ∧ s.st.unread = true) ∨ s.fenceWaits sc.toNat (k.getLsbD 2) (k.getLsbD 1) = true →
      exec (.fence sc k) s = .next s.await) ∧
    ((k.getLsbD 2 = true → s.st.unread = false) → s.fenceWaits sc.toNat (k.getLsbD 2) (k.getLsbD 1) = false → ∃ t : State,
    exec (.fence sc k) s = .next t.advance ∧ t.st = s.st ∧ t.core.spad = s.core.spad ∧ t.core.gang = s.core.gang ∧
    (sc.toNat < 3 → t.core.far = s.core.far ∧ t.dev = s.dev) ∧
    (3 ≤ sc.toNat → k.getLsbD 2 = true → ∀ f ∈ t.core.far, s.core.inLazy f = true) ∧
    (3 ≤ sc.toNat → k.getLsbD 2 = false → k.getLsbD 1 = true → ∀ f ∈ t.core.far, s.core.inLazy f = true ∨ f.dirty = 0)) ∧
    exec .nop s = .next s.advance ∧ exec .yield s = .next s.advance) ∧
  (∀ (a : BitVec 5) (i : BitVec 15) (s : State),
    let va := s.x a + i.signExtend 64
    (∃ t : State, t.st = s.st ∧ t.core = s.core ∧ t.agenda = s.agenda ∧ exec (.ipf a i) s = .next t.advance ∧
      (s.st.kind ≠ .execute → exec (.dpf a i) s = .next t.advance) ∧
      (∀ f, s.dev.translate s.via nLoad va = .error f → t = s)) ∧
    (s.st.kind = .execute → exec (.dpf a i) s = .next s.advance))

/-- R75, R76, R123. The grant: C = S x n(W); vl = min(len, C); vr = min(rows, C / vl), bounded by the attached rows; vl = 0 when
vr = 0; X[D] = vl x vr. R124, Table 06.4. The values of `vquery` on a core that runs a gang. -/
def Obligations.ShapesAndQueries : Prop :=
  (∀ (d a b : BitVec 5) (w : BitVec 4) (r : BitVec 7) (l : BitVec 9) (s : State), wcOk w = true →
    let W := if w = 0 then 32 else w.toNat + 1
    let cap := s.core.segs * perSeg W
    let granted (rows len : Nat) (t : State) : Prop := ∃ vl vr : Nat, ∃ y : Nat,
      vl ≤ len ∧ vl ≤ cap ∧ vl * vr ≤ cap ∧ vr ≤ rows ∧ (s.limitRows > 0 → vr ≤ s.limitRows) ∧ (vr = 0 ↔ vl = 0) ∧
      y = (if Min.min len cap = 0 then 0 else Min.min rows (cap / Min.min len cap)) ∧
      vr = (if s.limitRows > 0 then Min.min y s.limitRows else y) ∧ (vr ≠ 0 → vl = Min.min len cap) ∧
      t = ({ s with st := { s.st with vl := .ofNat 15 vl, vr := .ofNat 15 vr, gw := W } } : State).setX d (.ofNat 64 (vl * vr))
    (∃ t, exec (.vshapeImm d w r l) s = .next t.advance ∧ granted r.toNat l.toNat t) ∧
    (∃ t, exec (.vshapeReg d a b w) s = .next t.advance ∧ granted (s.x a).toNat (s.x b).toNat t)) ∧
  (∀ (d : BitVec 5) (s : State) (g : Gang), s.core.gang = some g →
    exec (.vquery d 0) s = .next (s.setX d (.ofNat 64 ((if s.core.laneHalf then 2048 else 4096) / g.h))).advance ∧
    exec (.vquery d 1) s = .next (s.setX d (.ofNat 64 (g.segs * 1024))).advance ∧
    exec (.vquery d 2) s = .next (s.setX d (.ofNat 64 g.h)).advance ∧
    exec (.vquery d 3) s = .next (s.setX d (.ofNat 64 (64 - (s.allStrands.map fun t => t.mrows.toNat).foldl (· + ·) 0))).advance ∧
    exec (.vquery d 4) s = .next (s.setX d 0x0300).advance)

/-- R125; logs 24, 25. `bq.push` appends its bit to the partner's queue, or waits while that holds 16; `bq.br` takes the oldest
bit and branches on it, or waits while there is none; in the CC both are ILLEGAL_INSTRUCTION. R120, R127, R190. `bar` of a gang's
strand at the user level: it waits while a load of the strand has still to be read, then, its arrival noted, until every strand
has arrived or ended; the last to arrive advances the generation; one whose generation is over goes on. -/
def Obligations.BranchOutcomesAndBarrier : Prop :=
  (∀ (a : BitVec 5) (o : BitVec 15) (s : State),
    (∀ n p, s.st.partner = some n → s.strandAt n = some p → n ≠ s.st.slot → p.bqIn.length < 16 → exec (.bqPush a) s =
      .next (s.updStrandAt n fun p => { p with bqIn := p.bqIn ++ [s.x a != 0] }).advance) ∧
    (∀ n p, s.st.partner = some n → s.strandAt n = some p → 16 ≤ p.bqIn.length →
      exec (.bqPush a) s = .next s.await) ∧
    (∀ b r, s.st.kind ≠ .cc → s.st.bqIn = b :: r → s.mayGoTo (s.st.pc + o.signExtend 64 * 4) →
      let t : State := { s with st := { s.st with bqIn := r } }
      exec (.bqBr o) s = .next (if b then t.goTo (s.st.pc + o.signExtend 64 * 4) else t.advance)) ∧
    (s.st.kind ≠ .cc → s.st.bqIn = [] → exec (.bqBr o) s = .next s.await) ∧
    (s.st.kind = .cc → exec (.bqPush a) s = .next (s.takeTrap 0x01 0 0 0) ∧ exec (.bqBr o) s = .next (s.takeTrap 0x01 0 0 0))) ∧
  (∀ (s : State) (g : Gang), s.core.gang = some g → s.atResident = false →
    let gen := s.st.arrived.getD g.barGen
    let t : State := { s with st := { s.st with arrived := some gen } }
    (s.st.unread = true → exec .bar s = .next s.await) ∧
    (s.st.unread = false → gen < g.barGen → exec .bar s = .next ({ s with st := { s.st with arrived := none } } : State).advance) ∧
    (s.st.unread = false → g.barGen ≤ gen → t.allArrived gen = false → exec .bar s = .next t.await) ∧
    (s.st.unread = false → g.barGen ≤ gen → t.allArrived gen = true → exec .bar s =
      .next ({ s with st := { s.st with arrived := none }, core := { s.core with gang := some { g with barGen := gen + 1 } } } : State).advance))

/-- R87, R128. `trap` raises the user trap TRAP with its immediate; an encoding that is not allocated raises ILLEGAL_INSTRUCTION.
R201, R322, R384. A user trap with no vector, or of the CC in handler mode, terminates the gang under the trap's cause; at the
resident level a trap is a machine check that halts the core (log 21). -/
def Obligations.TrapsRaisedAndUnhandled : Prop :=
  (∀ (i : BitVec 15) (w : BitVec 32) (s : State),
    exec (.trap i) s = .next (s.takeTrap 0x09 (i.setWidth 32) 0 0) ∧ exec (.unallocatedEncoding w) s = .next (s.takeTrap 0x01 0 0 0)) ∧
  (∀ (s : State) (g : Gang) (cause fl : BitVec 8) (info : BitVec 32) (addr : Word), s.core.gang = some g →
    (s.atResident = false → g.term = none → (g.tvec = 0 ∨ (s.st.slot = 0 ∧ s.core.handler.isSome = true)) →
      ∃ h, (s.takeTrap cause info addr fl).core.gang = some h ∧ h.term = some (cause, s.st.who) ∧ h.left = true ∧
        (s.takeTrap cause info addr fl).st.run = .ended) ∧
    (s.atResident = true → (s.takeTrap cause info addr fl).core.halted = true))

/-- R44, R197, R198, R199, Table 10.1. Taking a user trap in a gang with a trap vector: the strand stops at its word, its frame
takes PC, RPC, STATE 1, CAUSE, WHO, INFO, ADDR and SEQ, little-endian; the CC's own trap enters handler mode at the vector with
its loops set aside; no register changes, and no byte outside the frame's 40 when its line is RAW or VAL. R199, R200, Table 10.2.
Leaving handler mode: the CC goes on at frame 0's RPC with its set-aside predicates, and every hart stopped with a trap resumes at
its frame's RPC (STATE 2), ends (STATE 3) or stays; RPC bits [1:0] are cleared. -/
def Obligations.TrapEntryAndHandlerExit : Prop :=
  (∀ (s : State) (g : Gang) (cause fl : BitVec 8) (info : BitVec 32) (addr : Word),
    s.core.spad.wf = true → s.atResident = false → s.core.gang = some g → g.tvec ≠ 0 → s.st.slot ≤ 16 →
    (s.st.slot ≠ 0 → g.left = false ∧ ∀ t ∈ s.core.strands, t.slot = 0 → t.run ≠ .ended) → (s.st.slot = 0 → s.core.handler = none) →
    let t := s.takeTrap cause info addr fl
    let f := 4194304 - 2048 + 64 * s.st.slot
    let m := t.core.spad
    m.readN f 8 = s.st.wordPc.toNat ∧ m.readN (f + 8) 8 = s.st.wordPc.toNat ∧ m.byte (f + 16) = 1 ∧ m.byte (f + 17) = cause ∧
    m.byte (f + 18) = s.st.who ∧ m.byte (f + 19) = 0 ∧ m.readN (f + 20) 4 = info.toNat ∧ m.readN (f + 24) 8 = addr.toNat ∧
    m.readN (f + 32) 8 = (g.trapSeq + 1) % 2 ^ 64 ∧
    ((s.core.spad.tag f).cls = cRAW ∨ (s.core.spad.tag f).cls = cVAL → ∀ b, (b < f ∨ f + 40 ≤ b) → m.byte b = s.core.spad.byte b) ∧
    t.core.gang = some { g with trapSeq := g.trapSeq + 1 } ∧ t.dev = s.dev ∧
    t.st.xr = s.st.xr ∧ t.st.vreg = s.st.vreg ∧ t.st.mask = s.st.mask ∧ t.st.flags = s.st.flags ||| fl ∧ t.st.pend = s.st.pend ∧
    (s.st.slot ≠ 0 → t.st.run = .trapped ∧ t.st.pc = s.st.wordPc ∧ t.st.loops = s.st.loops) ∧
    (s.st.slot = 0 → t.st.run = .running ∧ t.st.pc = g.tvec ∧ t.st.loops = [] ∧ t.st.sp = 0 ∧
      t.core.handler = some ⟨s.st.loops, s.st.sp⟩)) ∧
  (∀ (s : State) (a : Aside), s.st.kind = .cc → s.core.handler = some a →
    let rpc (n : Nat) : Nat := s.core.spad.readN (4194304 - 2048 + 64 * n + 8) 8 / 4 * 4
    let state (n : Nat) : Nat := (s.core.spad.byte (4194304 - 2048 + 64 * n + 16)).toNat
    (state 0 ≠ 3 → s.handlerExit.st.pc.toNat = rpc 0 ∧ s.handlerExit.st.run = .running ∧ s.handlerExit.core.handler = none ∧
      s.handlerExit.st.sp = a.sp ∧ s.handlerExit.st.xr = s.st.xr ∧ s.handlerExit.dev = s.dev ∧
      s.handlerExit.core.strands = s.core.strands.map fun u =>
        if u.run ≠ .trapped then u
        else if state u.slot = 2 then { u with run := .running, pc := .ofNat 64 (rpc u.slot) }
        else if state u.slot = 3 then u.ended else u) ∧
    (state 0 = 3 → s.handlerExit.st.run = .ended))

/-- R25, R41, R42, R80, R129, Table 04.4. The user system registers read as their fields, and a write is seen by the next
instruction; a COUNT written to `sr.bhead` leaves what other cores of the context read until their next gang; a number that is not
in the table, a register the strand does not hold, and a write to a read-only one are ILLEGAL_INSTRUCTION. -/
def Obligations.UserSystemRegisters : Prop :=  ∀ (d a : BitVec 5) (n : BitVec 12) (s : State),
    exec (.sysr d 0) s = .next (s.setX d (s.st.flags.setWidth 64)).advance ∧
    exec (.sysr d 1) s = .next (s.setX d (s.st.tmask.setWidth 64)).advance ∧
    exec (.sysr d 2) s = .next (s.setX d (s.st.round.setWidth 64)).advance ∧
    (s.st.kind ≠ .cc → exec (.sysr d 3) s = .next (s.setX d (s.st.seed.setWidth 64)).advance) ∧
    (s.st.kind = .execute → exec (.sysr d 5) s = .next (s.setX d (s.st.mrows.setWidth 64)).advance) ∧
    exec (.sysr d 4) s = .next (s.setX d (.ofNat 64
      (s.dev.num.toNat * 2 ^ 32 + s.core.num * 2 ^ 16 + s.st.who.toNat + s.core.pairs.log2))).advance ∧
    (∀ c, s.dev.ctx s.core.ctxId = some c →
      exec (.sysr d 8) s = .next (s.setX d (c.eb.setWidth 64)).advance ∧ exec (.sysr d 9) s = .next (s.setX d (s.core.baste.setWidth 64)).advance ∧
      exec (.sysr d 10) s = .next (s.setX d s.core.bbuf).advance ∧
      exec (.sysr d 11) s = .next (s.setX d (c.bhead + s.core.bheadLag)).advance ∧
      (let t := s.setBhead (s.x a);
        t.dev.ctx s.core.ctxId = some { c with bhead := s.x a } ∧ t.core.bheadLag = 0 ∧ t.st = s.st ∧ t.dev.mem = s.dev.mem ∧
        ∀ k ∈ t.dev.cores, ∃ j ∈ s.dev.cores, k = { j with bheadLag := k.bheadLag } ∧
          (j.gang.isSome = true → j.ctxId = s.core.ctxId → s.x a + k.bheadLag = c.bhead + j.bheadLag))) ∧
    exec (.sysw a 9) s = .next (
      let l := (s.x a).extractLsb' 0 5
      let n := if 4 ≤ l.toNat ∧ l.toNat ≤ 16 then l else 0
      ({ s with dev := s.dev.updCtx s.core.ctxId fun c => { c with baste := n }, core := { s.core with baste := n } } : State)).advance ∧
    exec (.sysw a 10) s = .next (
      let n := .ofNat 64 ((s.x a).toNat / 4096 * 4096 + Min.min ((s.x a).toNat % 32) 16)
      ({ s with dev := s.dev.updCtx s.core.ctxId fun c => { c with bbuf := n }, core := { s.core with bbuf := n } } : State)).advance ∧
    exec (.sysw a 11) s = .next (s.setBhead (s.x a)).advance ∧
    exec (.sysr d 6) s = .next (s.setX d (s.st.vl.setWidth 64)).advance ∧
    exec (.sysr d 7) s = .next (s.setX d (s.st.vr.setWidth 64)).advance ∧
    exec (.sysw a 0) s = .next ({ s with st := { s.st with flags := (s.x a).extractLsb' 0 8 } } : State).advance ∧
    exec (.sysw a 1) s = .next ({ s with st := { s.st with tmask := (s.x a).extractLsb' 0 8 } } : State).advance ∧
    exec (.sysw a 2) s = .next
      ({ s with st := { s.st with round := if (s.x a).extractLsb' 0 3 = 7 then 0 else (s.x a).extractLsb' 0 3 } } : State).advance ∧
    (s.st.kind ≠ .cc → exec (.sysw a 3) s = .next ({ s with st := { s.st with
      seed := if (s.x a).extractLsb' 0 32 = 0 then 1 else (s.x a).extractLsb' 0 32 } } : State).advance) ∧
    (∀ v, s.st.kind ≠ .cc → exec (.srSeed v) s = .next { s with st := { s.st with
      seed := if v.extractLsb' 0 32 = 0 then 1 else v.extractLsb' 0 32 } }) ∧
    (12 ≤ n.toNat ∨ (n = 3 ∧ s.st.kind = .cc) ∨ (n = 5 ∧ s.st.kind ≠ .execute) → exec (.sysr d n) s = .next (s.takeTrap 0x01 0 0 0)) ∧
    (12 ≤ n.toNat ∨ (4 ≤ n.toNat ∧ n.toNat ≤ 8) ∨ (n = 3 ∧ s.st.kind = .cc) → exec (.sysw a n) s = .next (s.takeTrap 0x01 0 0 0))

/-- R89, R131, R138 to R141, R152. Every instruction of the common operand path (`vadd`, `vsub`, `vmul`, `vfma`, `vfms`, `vfnma`,
`vdiv`, `vsqrt`, `vrsqrt`, `vrcp`, `vexp2`, `vlog2`, `vtanh`, `vsin`, `vcos`, `vmin`, `vmax`, `vabs`, `vneg`, `vsgnj`, `vmulh`,
`vsll`, `vsrl`, `vsra`, `vand`, `vor`, `vxor`, `vfsh`, `vpopc`, `vclz`, `vsadd`) whose issue checks pass writes the elements
`arithAcc` gives to register D, with the compute format's FMT and ORG, class VAL, MIX 0 and the segment scales, raises its flags,
takes its draws and completes; while an enabled flag is raised it traps ARITH and writes nothing. R54 to R56, R132, R133. Each
active element is the operation of its entry on the source elements, each scaled as the rule says and converted into the compute
format under the mode, with one draw for all of it; a result segment carries the one scale code that feeds it, or 127. R54, R77,
R89, R131, R180. The issue checks of an arithmetic instruction pass, changing nothing, when its registers are free of pending tile
operations, every format has room for the grant and the destination's old one for what a merge keeps (log 19), no operand segment
and no kept one is RAW, and the Pricking table allows the pair and the instruction its compute format; they answer the source
registers and the table's outcome. R41, R131. The elements of an arithmetic instruction: below the grant in ascending order, an
active one computed with the generator after one step for each active element up to it (none where nothing draws), an inactive one
0 under zeroing and its old code under merging; the generator ends after all of them. -/
def Obligations.CommonPathWritesItsElements : Prop :=
  ((∀ (i : Instr) (s : State) (o : VOp) (d : BitVec 5) (srcs : List (BitVec 5)) (regs : List VReg) (p : Prick),
    commonPath i s = some (o, d, srcs) → s.st.grant ≠ 0 → (issueArith srcs d o.takes).run s = .ok ((regs, p), s) →
    let r := arithAcc o d s regs p
    (r.1.bad = false → s.calm r.1.flags → exec i s = .next (s.written d p.cf r.1 fun k => mkSide p.cf (r.2 k) false cVAL)) ∧
    (r.1.bad = false → ¬ s.calm r.1.flags →
      exec i s = .next (s.takeTrap 0x08 ((r.1.flags &&& s.st.tmask).setWidth 32) 0 r.1.flags)) ∧
    (r.1.bad = true → exec i s = .next (s.takeTrap 0x05 0 0 0)) ∧
    (let cf := s.fmt p.cf
     let n := perSeg cf.wid
     let toInt := cf.kind != .float
     let srcs := regs.map fun x => (x, s.fmt x.fmt)
     let carry (k : Nat) : Option (BitVec 8) := if p.rule = 1 ∧ o.linear = true then carryOf srcs cf s.st.grant k else none
     (∀ k c, k < segsBelow s.st.grant cf.wid → (carryOf srcs cf s.st.grant k = some c ↔ fedBy srcs n s.st.grant k c)) ∧
     (∀ k, k < segsBelow s.st.grant cf.wid → r.2 k = (carry k).getD 127) ∧
     (∀ e, e < s.st.grant → s.st.active e = true → e / n < segsBelow s.st.grant cf.wid →
       let draw := drawn s.st.mode s.st.seed (s.st.activeBelow (e + 1))
       let scaled : Bool := p.rule == 0 || (p.rule == 1 && (carry (e / n)).isNone)
       let x (q : VReg × Fmt) : Val :=
         let g := q.1.seg (e / perSeg q.2.wid)
         let v := if g.side.cls = cUNW then Val.zero else (q.2.decode toInt (g.bits q.2.wid (e % perSeg q.2.wid))).1
         let v := if g.side.scl = 255 then Val.nan else if scaled then applyScale g.side.scl v else v
         (cf.decode toInt (cf.convert s.st.mode draw v).1).1
       r.1.codes.reverse[e]? = some (if p.al = true then (o.run cf s.st.mode draw (srcs.map x)).1
         else if cf.kind = .float then (cf.convert .rne 0 .nan).1 else 0))) ∧
    (∀ (cf : Fmt) (rm : RMode) (d : BitVec 32) (x y z : Val),
      let out (v : Val × BitVec 8) : Nat × BitVec 8 := ((cf.convert rm d v.1).1, v.2 ||| (cf.convert rm d v.1).2)
      let dn := rm == .rdn
      let code (n : ℤ) : Nat := (n % 2 ^ cf.wid).toNat
      let pat (v : Val) : Nat := code v.toInt
      let top : ℤ := 2 ^ (cf.wid - 1)
      let sat (n : ℤ) : Nat × BitVec 8 := if top ≤ n then (code (top - 1), 0x01) else (code n, 0)
      let clamp (n : ℤ) : Nat × BitVec 8 := if top ≤ n then (code (top - 1), 0x04) else if n < -top then (code (-top), 0x04) else (code n, 0)
      (cf.kind = .float → opAdd.run cf rm d [x, y] = out (x.add dn y) ∧ opSub.run cf rm d [x, y] = out (x.add dn y.negate) ∧
        opMul.run cf rm d [x, y] = out (x.mul y) ∧ opFma.run cf rm d [x, y, z] = out (Val.fma dn false false x y z) ∧
        opFms.run cf rm d [x, y, z] = out (Val.fma dn false true x y z) ∧ opFnma.run cf rm d [x, y, z] = out (Val.fma dn true false x y z) ∧
        opMin.run cf rm d [x, y] = cf.convert .rtz 0 (x.min y) ∧ opMax.run cf rm d [x, y] = cf.convert .rtz 0 (x.max y) ∧
        opAbs.run cf rm d [x] = cf.convert .rtz 0 x.abs ∧ opNeg.run cf rm d [x] = cf.convert .rtz 0 x.negate ∧
        opSgnj.run cf rm d [x, y] = cf.convert .rtz 0 (if y.neg? = true then x.abs.negate else x.abs) ∧
        (let v := x.add dn y
         opSadd.run cf rm d [x, y] = if (cf.convert rm d v.1).2 &&& 0x04 ≠ 0
           then ((if v.1.neg? = true then 2 ^ (cf.ew + cf.mw) else 0) + cf.maxCode, v.2 ||| 0x14) else out v) ∧
        ∀ f xs, (specialOp f).run cf rm d xs = out (f xs)) ∧
      (cf.kind = .int → opAdd.run cf rm d [x, y] = (code (x.toInt + y.toInt), 0) ∧ opSub.run cf rm d [x, y] = (code (x.toInt - y.toInt), 0) ∧
        opMul.run cf rm d [x, y] = (code (x.toInt * y.toInt), 0) ∧ opFma.run cf rm d [x, y, z] = (code (x.toInt * y.toInt + z.toInt), 0) ∧
        opFms.run cf rm d [x, y, z] = (code (x.toInt * y.toInt - z.toInt), 0) ∧
        opFnma.run cf rm d [x, y, z] = (code (z.toInt - x.toInt * y.toInt), 0) ∧
        opMin.run cf rm d [x, y] = (code (Min.min x.toInt y.toInt), 0) ∧ opMax.run cf rm d [x, y] = (code (Max.max x.toInt y.toInt), 0) ∧
        opAbs.run cf rm d [x] = sat |x.toInt| ∧ opNeg.run cf rm d [x] = sat (-x.toInt) ∧
        opSgnj.run cf rm d [x, y] = (code (if 0 ≤ y.toInt then Min.min |x.toInt| (top - 1) else -Min.min |x.toInt| (top - 1)),
          (sat |x.toInt|).2) ∧ opSadd.run cf rm d [x, y] = clamp (x.toInt + y.toInt) ∧
        opMulh.run cf rm d [x, y] = (code (x.toInt * y.toInt / 2 ^ cf.wid), 0) ∧
        opSll.run cf rm d [x, y] = (code (pat x * 2 ^ (pat y % cf.wid)), 0) ∧ opSrl.run cf rm d [x, y] = (code (pat x / 2 ^ (pat y % cf.wid) : Nat), 0) ∧
        opSra.run cf rm d [x, y] = (code (x.toInt / 2 ^ (pat y % cf.wid)), 0) ∧ opAnd.run cf rm d [x, y] = (code (pat x &&& pat y : Nat), 0) ∧
        opOr.run cf rm d [x, y] = (code (pat x ||| pat y : Nat), 0) ∧ opXor.run cf rm d [x, y] = (code (pat x ^^^ pat y : Nat), 0) ∧
        opPopc.run cf rm d [x] = (code ((List.range cf.wid).countP (pat x).testBit : Nat), 0) ∧
        (∀ k, k ≤ cf.wid → (∀ j, j < cf.wid → cf.wid ≤ j + k → (pat x).testBit j = false) →
          (k < cf.wid → (pat x).testBit (cf.wid - 1 - k) = true) → opClz.run cf rm d [x] = (code k, 0)) ∧
        opFsh.run cf rm d [x, y, z] = (code ((pat x * 2 ^ cf.wid + pat y) * 2 ^ (pat z % cf.wid) / 2 ^ cf.wid : Nat), 0)) ∧
      (∀ i j, (x = .nan → x.min y = y ∧ x.max y = y) ∧ (y = .nan → x.min y = x ∧ x.max y = x) ∧ (x ≠ .nan → y ≠ .nan →
        x.min y = (if x.cmp y < 0 ∨ x.cmp y = 0 ∧ x.neg? = true then x else y) ∧
        x.max y = (if 0 < x.cmp y ∨ x.cmp y = 0 ∧ x.neg? = false then x else y)) ∧
        Val.fma dn i j x y z = (let q := x.mul y
          let w := (if i then q.1.negate else q.1).add dn (if j then z.negate else z)
          (w.1, q.2 ||| w.2))))) ∧
  (∀ (s : State) (d : BitVec 5) (srcs : List (BitVec 5)) (takes : Fmt → Bool),
    let g := s.st.grant
    let regs := srcs.map s.vreg
    let p := s.core.prick (regs.map (·.fmt))
    let old := s.vreg d
    s.st.kind = .execute → g ≠ 0 → (∀ v ∈ srcs, s.readable v) → s.writable d →
    (∀ r ∈ regs, g ≤ r.segs.length * perSeg (s.fmt r.fmt).wid ∧ r.rawBelow (s.fmt r.fmt) g = false) →
    g ≤ old.segs.length * perSeg (s.fmt p.cf).wid → s.st.keptBeyond old (s.fmt old.fmt) = false →
    s.st.rawKept old (s.fmt old.fmt) = false → (p.al = true ∨ p.trp = false) → takes (s.fmt p.cf) = true →
    (issueArith srcs d takes).run s = .ok ((regs, p), s))) ∧
  (∀ (t : Strand) (draws : Bool) (f : Nat → BitVec 32 → Nat × BitVec 8) (keep : Nat → Option Nat),
    let rank (e : Nat) : Nat := ((List.range e).filter t.active).length
    let seed (n : Nat) : BitVec 32 := if draws then seedStep^[n] t.seed else t.seed
    let a := elements t draws f keep
    a.codes.reverse = ((List.range t.grant).map fun e =>
      if t.active e then (f e (seed (rank (e + 1)))).1 else if t.mz then 0 else (keep e).getD 0) ∧
    a.seed = seed (rank t.grant) ∧
    (a.bad = true ↔ t.mz = false ∧ ∃ e, e < t.grant ∧ t.active e = false ∧ keep e = none) ∧
    (∀ k, a.flags.getLsbD k = true ↔ ∃ e, e < t.grant ∧ t.active e = true ∧ (f e (seed (rank (e + 1)))).2.getLsbD k = true))

/-- R27, R39, R41, R47, R51, R52, R60 to R62, R74. The tag rules of fills and stores. A fill takes each segment's sidecar from the
lines that supply it: RAW lines are copied, scales that differ are folded into the values, and an element is written exactly where
its format exact-widens or the register's represents it, else rounded under a decoration, else it cannot be written (TAG_FORMAT);
under SR each element draws. A store writes a whole line, old elements merged in where it writes a part: verbatim from RAW
segments or in a bit merge; under keep at the largest scale, exactly or not at all; under a demoting policy converted to TFMT at
the largest scale, saturated with OF and NX where it overflows, or the line INV with OF alone. -/
def Obligations.FillsAndTypedStores : Prop :=  (∀ (si fi : BitVec 4) (S F : Fmt), exactWidens si fi S F = true ↔ si = fi ∨
    (S.kind = .float ∧ F.kind = .float ∧ S.mw ≤ F.mw ∧ S.emax ≤ F.emax ∧ F.eminSub ≤ S.eminSub ∧ (S.spc = 0 → F.spc = 0) ∧
      (S.hasNaN = true → F.hasNaN = true)) ∨
    (S.kind = .int ∧ F.kind = .int ∧ S.wid ≤ F.wid) ∨
    (S.kind = .int ∧ F.kind = .float ∧ S.wid ≤ F.mw + 2 ∧ (S.wid : ℤ) - 1 ≤ F.emax)) ∧
  (∀ (ft : BitVec 4 → Fmt) (fi : BitVec 4) (deco : Option RMode) (seed : BitVec 32) (els : List (Option FillEl)),
    let F := ft fi
    let n := perSeg F.wid
    let r := fill ft fi deco seed els
    let here (g : Nat) : List FillEl := ((els.drop (g * n)).take n).filterMap id
    let raw (g : Nat) : Bool := (here g).any (·.cls == cRAW)
    let fold (g : Nat) : Bool := (here g).any fun x => x.scl != ((here g).headD x).scl
    let draw (e : Nat) : BitVec 32 := if deco = some .sr then seedStep^[e + 1] seed else seed
    let value (g : Nat) (x : FillEl) : Val :=
      let v := if x.cls = cUNW then Val.zero else ((ft x.fmt).decode (F.kind != .float) x.code).1
      if fold g then applyScale x.scl v else v
    let exact (g : Nat) (x : FillEl) : Bool := (!fold g && exactWidens x.fmt fi (ft x.fmt) F) || F.represents (value g x)
    0 < n →
    r.seed = (if deco = some .sr then seedStep^[els.length] seed else seed) ∧ r.codes.length = els.length ∧
    (∀ g : Nat, g * n < els.length → r.sides[g]? = some (match here g with
      | [] => mkSide fi 127 false cVAL
      | x :: q => mkSide x.fmt (if fold g then 127 else x.scl) (q.any (·.fmt != x.fmt)) (if raw g then cRAW else cVAL))) ∧
    (∀ (e : Nat) (x : FillEl), els[e]? = some (some x) → let g := e / n
      (raw g = true → r.codes[e]? = some (if x.cls = cUNW then 0 else x.code)) ∧
      (raw g = false → exact g x = true → r.codes[e]? = some (F.convert .rtz 0 (value g x)).1) ∧
      (∀ rm, raw g = false → exact g x = false → deco = some rm → r.codes[e]? = some (F.convert rm (draw e) (value g x)).1)) ∧
    (∀ e : Nat, els[e]? = some none → r.codes[e]? = some 0) ∧
    (∀ e, r.bad = some e ↔ deco = none ∧ (∃ x, els[e]? = some (some x) ∧ raw (e / n) = false ∧ exact (e / n) x = false) ∧
      ∀ (i : Nat) (y : FillEl), i < e → els[i]? = some (some y) → raw (i / n) = true ∨ exact (i / n) y = true)) ∧
  (∀ (ft : BitVec 4 → Fmt) (policy : BitVec 9) (rnd : BitVec 3) (draw : Nat → BitVec 32) (low : LineEl) (rest : List LineEl),
    let xs := low :: rest
    let mode := (policy.extractLsb' 7 2).toNat
    let news := xs.filter fun x => !x.old
    let x₀ := news.headD low
    let F := ft x₀.el.fmt
    let T := ft (policy.extractLsb' 3 4)
    let rm := RMode.ofCode (if policy.extractLsb' 0 3 = 7 then rnd else policy.extractLsb' 0 3)
    let raw : Prop := ∃ x ∈ news, x.el.cls = cRAW
    let lives := (news.filter fun x => x.el.cls != cUNW).map (·.el.scl)
    let value (F : Fmt) (x : LineEl) : Val :=
      if x.el.cls = cUNW then .zero else applyScale x.el.scl ((ft x.el.fmt).decode (F.kind != .float) x.el.code).1
    let divided (c : BitVec 8) (v : Val) : Val := if v.isNaN then v else v.scale (127 - (c.toNat : ℤ))
    let most (c : BitVec 8) (cs : List (BitVec 8)) : Prop := (c ∈ cs ∨ cs = [] ∧ c = 127) ∧ ∀ z ∈ cs, z ≤ c
    let build := buildLine ft policy rnd draw xs
    xs.Pairwise (fun x y => x.slot < y.slot) → news ≠ [] →
    (raw → (∀ x ∈ xs, slotOk F x.slot = true) → ∃ l, build = .ok ⟨l, x₀.el.fmt, x₀.el.scl, cRAW, 0⟩ ∧
      ∀ x ∈ xs, lineSlot l F.wid x.slot = (if x.el.cls = cUNW then 0 else x.el.code) % 2 ^ F.wid) ∧
    (∀ c, ¬raw → (mode = 0 ∨ mode = 3) → most c lives →
      let same : Prop := ∀ z ∈ lives, z = c
      let verbatim (x : LineEl) : Prop := same ∧ x.el.cls ≠ cUNW ∧ x.el.fmt = x₀.el.fmt ∧ x.el.scl = c
      let quotient (x : LineEl) : Val := divided c (value F x)
      let fits (x : LineEl) : Prop := slotOk F x.slot = true ∧ ((c = 255 ∧ ¬same) ∨ verbatim x ∨
        (F.represents (quotient x) = true ∧ (c ≠ 255 ∨ x.old = false ∨ quotient x = .nan)))
      (∀ x ∈ xs, fits x) → ∃ l fl, build = .ok ⟨l, x₀.el.fmt, c, cVAL, fl⟩ ∧ ∀ x ∈ xs,
        (c = 255 → ¬same → lineSlot l F.wid x.slot = (F.convert .rne 0 .nan).1 % 2 ^ F.wid) ∧
        (verbatim x → lineSlot l F.wid x.slot = x.el.code % 2 ^ F.wid) ∧
        ((c ≠ 255 ∨ same) → ¬verbatim x → lineSlot l F.wid x.slot = (F.convert .rtz 0 (quotient x)).1 % 2 ^ F.wid)) ∧
    (∀ c x, ¬raw → (mode = 0 ∨ mode = 3) → most c lives → x ∈ xs → slotOk F x.slot = true → (c ≠ 255 ∨ ∀ z ∈ lives, z = c) →
      ¬((∀ z ∈ lives, z = c) ∧ x.el.cls ≠ cUNW ∧ x.el.fmt = x₀.el.fmt ∧ x.el.scl = c) → F.represents (divided c (value F x)) = false →
      ∃ bad, build = .error bad ∧ x.slot ∈ bad) ∧
    (∀ c, ¬raw → (mode = 1 ∨ mode = 2) → most c (xs.map (·.el.scl)) → (∀ x ∈ xs, slotOk T x.slot = true) →
      let conv (x : LineEl) : Nat × BitVec 8 := T.convert rm (draw x.slot) (divided c (value T x))
      let overflows (x : LineEl) : Prop := c ≠ 255 ∧ (conv x).2 &&& 0x04 ≠ 0
      (mode = 2 → (∃ x ∈ xs, overflows x) → build = .ok ⟨0, policy.extractLsb' 3 4, c, cINV, 0x04⟩) ∧
      (mode = 1 ∨ (∀ x ∈ xs, ¬overflows x) → ∃ l fl, build = .ok ⟨l, policy.extractLsb' 3 4, c, cVAL, fl⟩ ∧ ∀ x ∈ xs,
        (c = 255 → lineSlot l T.wid x.slot = (T.convert rm (draw x.slot) .nan).1 % 2 ^ T.wid) ∧
        (overflows x → lineSlot l T.wid x.slot = T.maxSigned (value T x).neg? % 2 ^ T.wid ∧ fl &&& 0x14 = 0x14) ∧
        (c ≠ 255 → ¬overflows x → lineSlot l T.wid x.slot = (conv x).1 % 2 ^ T.wid)))) ∧
  (∀ (ft : BitVec 4 → Fmt) (w : Nat) (policy : BitVec 9) (rnd : BitVec 3) (draw : Nat → BitVec 32) (l : Line) (t : Tag) (low : LineEl)
      (rest : List LineEl),
    let xs := low :: rest
    let F := ft low.el.fmt
    let r := storeLine ft w policy rnd draw l t xs
    let full : Prop := ∀ k, k < perSeg w → ∃ x ∈ xs, x.slot = k
    let bits : Prop := t.cls = cRAW ∨ ∃ x ∈ xs, x.el.cls = cRAW
    (∀ x ∈ rest, low.slot < x.slot) → low.el.cls ≠ cPOI → low.el.cls ≠ cINV → low.el.cls ≠ cSTG →
    (full → r = buildLine ft policy rnd draw (sortSlots xs)) ∧
    (¬full → ¬bits → r = buildLine ft policy rnd draw (sortSlots (xs ++ oldElements ft w l t (xs.map (·.slot))))) ∧
    (¬full → bits → xs.Pairwise (fun x y => x.slot < y.slot) → (∀ x ∈ xs, slotOk F x.slot = true) →
      ∃ m, r = .ok ⟨m, low.el.fmt, low.el.scl, cRAW, 0⟩ ∧
        (∀ x ∈ xs, lineSlot m F.wid x.slot = (if x.el.cls = cUNW then 0 else x.el.code) % 2 ^ F.wid) ∧
        ∀ i, i < 1024 → (∀ x ∈ xs, i / F.wid ≠ x.slot) → m.getLsbD i = (t.cls ≠ cUNW && l.getLsbD i))) ∧
  (∀ (ft : BitVec 4 → Fmt) (w : Nat) (l : Line) (t : Tag) (ks : List Nat) (x : LineEl), x ∈ oldElements ft w l t ks ↔
    x.slot < perSeg w ∧ x.slot ∉ ks ∧ x.old = true ∧ x.el.fmt = t.fmt ∧ x.el.scl = t.scl ∧
    if t.cls = cUNW ∨ perSeg (ft t.fmt).wid ≤ x.slot then x.el.code = 0 ∧ x.el.cls = cUNW
    else x.el.code = lineSlot l (ft t.fmt).wid x.slot ∧ x.el.cls = t.cls)

/-- R77, R136. The frame of the vector instructions that write one register, when its tile has no peek view: apart from that
register, `sr.flags`, `sr.seed` and where the strand goes on, everything of the machine stays; the register keeps its length and
its segments at or above the grant. -/
def Obligations.VectorFrame : Prop :=  ∀ (i : Instr) (d : BitVec 5) (s t : State), vectorDest i = some d → s.st.kind = .execute → s.st.run = .running →
    (s.st.tile (s.st.phys d / 8)).peek = false → s.st.phys d < 32 → exec i s = .next t → t.st.run = .running →
    t.core = s.core ∧ t.dev = s.dev ∧ t.agenda = s.agenda ∧ t.st.xr = s.st.xr ∧ t.st.mask = s.st.mask ∧ t.st.tmask = s.st.tmask ∧
    t.st.round = s.st.round ∧ t.st.vl = s.st.vl ∧ t.st.vr = s.st.vr ∧ t.st.mrows = s.st.mrows ∧ t.st.tiles = s.st.tiles ∧
    t.st.dfr = s.st.dfr ∧ t.st.bqIn = s.st.bqIn ∧ t.st.kind = s.st.kind ∧ t.st.idx = s.st.idx ∧ t.st.gw = s.st.gw ∧
    t.st.arrived = s.st.arrived ∧ t.st.bcount = s.st.bcount ∧ t.st.dfrSig = s.st.dfrSig ∧ t.st.batchNext = s.st.batchNext ∧
    (∀ p, p < 32 → p ≠ s.st.phys d → t.st.reg p = s.st.reg p) ∧
    (t.st.reg (s.st.phys d)).segs.length = (s.st.reg (s.st.phys d)).segs.length ∧
    (∀ k, segsBelow s.st.grant (s.fmt (t.st.reg (s.st.phys d)).fmt).wid ≤ k →
      (t.st.reg (s.st.phys d)).segs[k]? = (s.st.reg (s.st.phys d)).segs[k]?)

/-- R78. Under a zero grant the instructions named complete with no element read or written and no tag, flag or generator changed.
-/
def Obligations.ZeroGrantDoesNothing : Prop :=  ∀ (i : Instr) (s : State), s.st.grant = 0 →
    (∀ o d srcs, commonPath i s = some (o, d, srcs) →
      let p := s.core.prick (srcs.map fun v => (s.vreg v).fmt)
      (p.al = true ∨ p.trp = false) → o.takes (s.fmt p.cf) = true → exec i s = .next s.advance) ∧
    (∀ d srcs f, moveOperands i = some (d, srcs) → (∀ v ∈ srcs, (s.vreg v).fmt = f) → exec i s = .next s.advance) ∧
    (∀ d q v a b p n m, (i = .qpop d q ∨ i = .qpush v q ∨ i = .dfrPush p v n m ∨ i = .dfrPop p v n m ∨ i = .vins d a b ∨
      i = .vtagw d a b ∨ (∃ x, i = .vscl d a x b)) → exec i s = .next s.advance)

/-- R142, R143, Table 07.5. `vcmp` and `vbound` write the bits below the grant of a mask from their elements; other masks, and all
of m0, stay. R131, R138, R140, R157 to R159, Table 08.4; log 51. A reduction writes the root of the tree of R158 to element 0 and
0 to the others: the active elements and identities are its leaves, each node is the operation of its two, rounded with a draw of
its own; a scan writes to each active element the root of the tree with the later positions inactive, its nodes rounded as RNE
where the mode draws. R54, R77, R89, R180. The issue checks of compares, reductions and scans pass, changing nothing, when the
registers are free of pending tile operations and have room for the grant, no source segment is RAW, and the Pricking table allows
the pair and the reduction its format. -/
def Obligations.ComparesReductionsAndScans : Prop :=
  (∀ (m c : BitVec 3) (a b : BitVec 5) (x y : BitVec 1) (s : State) (regs : List VReg) (p : Prick),
    s.st.grant ≠ 0 → (issueCompare a b).run s = .ok ((regs, p), s) →
    let wrote (test : Val → Val → Bool) : State :=
      { s with st := { s.st.putMask m (fun e => (compareAcc m test s regs p).codes.reverse.getD e 0 != 0) with
        flags := s.st.flags ||| (compareAcc m test s regs p).flags, seed := (compareAcc m test s regs p).seed } }
    (s.calm (compareAcc m (compare c) s regs p).flags → exec (.vcmp m a x b y c) s = .next (wrote (compare c)).advance) ∧
    (s.calm (compareAcc m bounded s regs p).flags → exec (.vbound m a x b y) s = .next (wrote bounded).advance) ∧
    (∀ (n : BitVec 3) (e : Nat) (bits : Nat → Bool), (s.st.putMask m bits).maskBit n e =
      if n = 0 then true else if n = m ∧ e < s.st.grant ∧ e < 24576 then bits e else s.st.maskBit n e)) ∧
  ((∀ (d a : BitVec 5) (x : BitVec 1) (o : BitVec 4) (s : State) (src : VReg) (p : Prick), s.st.grant ≠ 0 →
    ((issueRed d a o.toNat false).run s = .ok ((src, p), s) → (redAcc o.toNat s src p).bad = false → s.calm (redAcc o.toNat s src p).flags →
      exec (.vred d a x o) s = .next (s.written d p.cf (redAcc o.toNat s src p) fun _ => mkSide p.cf 127 false cVAL)) ∧
    ((issueRed d a o.toNat true).run s = .ok ((src, p), s) → (scanAcc d o.toNat s src p).bad = false →
      s.calm (scanAcc d o.toNat s src p).flags →
      exec (.vscan d a x o) s = .next (s.written d p.cf (scanAcc d o.toNat s src p) fun _ => mkSide p.cf 127 false cVAL)) ∧
    (let cf := s.fmt p.cf
     let F := s.fmt src.fmt
     let toInt := cf.kind != .float
     let g := s.st.grant
     let rm := s.st.mode
     let total := s.st.activeBelow g
     let top : ℤ := 2 ^ (cf.wid - 1)
     let wrap (n : ℤ) : Val := .ofInt ((n + top) % 2 ^ cf.wid - top)
     let pat (v : Val) : Nat := (v.toInt % 2 ^ cf.wid).toNat
     let identity : Val := if cf.kind = .float
       then (match o.toNat with | 0 => .fin true 0 0 | 1 => if cf.spc = 0 then .inf false else cf.maxVal
                                | 2 => if cf.spc = 0 then .inf true else cf.maxVal.negate | _ => .zero)
       else (match o.toNat with | 1 => .ofInt (top - 1) | 2 => .ofInt (-top) | 4 => .ofInt (-1) | _ => .zero)
     let node (m : RMode) (d : BitVec 32) (a b : Val) : Val := if cf.kind = .float
       then (match o.toNat with | 0 => (cf.decode false (cf.convert m d (a.add (m == .rdn) b).1).1).1 | 1 => a.min b | _ => a.max b)
       else (match o.toNat with | 0 => wrap (a.toInt + b.toInt) | 1 => .ofInt (Min.min a.toInt b.toInt) | 4 => wrap (pat a &&& pat b : Nat)
                                | 5 => wrap (pat a ||| pat b : Nat) | 6 => wrap (pat a ^^^ pat b : Nat) | _ => .ofInt (Max.max a.toInt b.toInt))
     let leaf (e : Nat) : Val :=
       let sg := src.seg (e / perSeg F.wid)
       let v := if sg.side.cls = cUNW then Val.zero else (F.decode toInt (sg.bits F.wid (e % perSeg F.wid))).1
       let v := if sg.side.scl = 255 then Val.nan else if p.rule = 2 then v else applyScale sg.side.scl v
       let v := (cf.decode toInt (cf.convert rm (drawn rm s.st.seed (s.st.activeBelow (e + 1))) v).1).1
       if o.toNat ≠ 3 then v else if cf.kind = .float then v.abs else .ofInt (Min.min |v.toInt| (top - 1))
     ∀ (h : Nat) (L : Nat → Nat → Val), g ≤ 2 ^ h → (h = 0 ∨ 2 ^ (h - 1) < g) → 2 ≤ cf.wid → o.toNat < 7 →
       ((∀ e, e < 2 ^ h → L 0 e = if e < g ∧ s.st.active e = true then leaf e else identity) →
        (∀ k j, k < h → j < 2 ^ (h - k - 1) → L (k + 1) j =
          node rm (drawn rm s.st.seed (total + (2 ^ h - 2 ^ (h - k)) + j + 1)) (L k (2 * j)) (L k (2 * j + 1))) →
        (redAcc o.toNat s src p).seed = drawn rm s.st.seed (total + (2 ^ h - 1)) ∧
        (redAcc o.toNat s src p).codes.reverse[0]? = some (if p.al = true then (cf.convert .rtz 0 (L h 0)).1
          else if cf.kind = .float then (cf.convert .rne 0 .nan).1 else 0)) ∧
       (∀ e, e < g → s.st.active e = true →
        (∀ q, q < 2 ^ h → L 0 q = if q ≤ e ∧ s.st.active q = true then leaf q else identity) →
        (∀ k j, k < h → j < 2 ^ (h - k - 1) → L (k + 1) j =
          node (if rm = .sr then .rne else rm) 0 (L k (2 * j)) (L k (2 * j + 1))) →
        (scanAcc d o.toNat s src p).codes.reverse[e]? = some (if p.al = true then (cf.convert .rtz 0 (L h 0)).1
          else if cf.kind = .float then (cf.convert .rne 0 .nan).1 else 0))) ∧
    ((redAcc o.toNat s src p).codes.length = s.st.grant ∧ ∀ e, 0 < e → e < s.st.grant → (redAcc o.toNat s src p).codes.reverse[e]? = some 0)) ∧
  (∀ (a b : BitVec 5) (s : State),
    let regs := [s.vreg a, s.vreg b]
    let p := s.core.prick (regs.map (·.fmt))
    s.st.kind = .execute → s.st.grant ≠ 0 → s.readable a → s.readable b →
    (∀ r ∈ regs, r.holds (s.fmt r.fmt) s.st.grant = true ∧ r.rawBelow (s.fmt r.fmt) s.st.grant = false) → (p.al = true ∨ p.trp = false) →
    (issueCompare a b).run s = .ok ((regs, p), s)) ∧
  (∀ (d a : BitVec 5) (o : BitVec 4) (s : State),
    let src := s.vreg a
    let old := s.vreg d
    let p := s.core.prick [src.fmt]
    s.st.kind = .execute → s.st.grant ≠ 0 → s.readable a → s.writable d → src.holds (s.fmt src.fmt) s.st.grant = true →
    src.rawBelow (s.fmt src.fmt) s.st.grant = false → old.holds (s.fmt p.cf) s.st.grant = true → (p.al = true ∨ p.trp = false) →
    ((s.fmt p.cf).kind ≠ .float ∨ o.toNat < 4) →
    (issueRed d a o.toNat false).run s = .ok ((src, p), s) ∧
    (s.st.keptBeyond old (s.fmt old.fmt) = false → s.st.rawKept old (s.fmt old.fmt) = false →
      (issueRed d a o.toNat true).run s = .ok ((src, p), s))))

/-- R36, R39, R41, R66, R145 to R147, R149, R150; log 140. The conversions and tag instructions: `vcvt` and `vquant` write their
elements in the format they name, `vcvt` each active one converted as it is with its scale applied, `vquant` divided by the scale
of its result segment, the smallest at which the largest active magnitude lies within the format; `vamax` writes the largest
active magnitude, rounded up to FP32, and 0 under a zero grant; `vtagr` reads a segment's sidecar and FMT, under a zero grant too,
`vtagw` writes them where the register has room for the grant in its old format (the model's reading, log 140), `vscl` moves scale
codes. R54, R77, R145, R180. The issue checks of the conversions pass, changing nothing, when the registers are free of pending
tile operations and have room for the grant, no read or kept segment is RAW, and the format named is neither nested-plane nor
reserved. -/
def Obligations.ConversionsAndTags : Prop :=  ∀ (d a b : BitVec 5) (x : BitVec 1) (f : BitVec 4) (s : State), s.st.kind = .execute →
    let g := s.st.grant
    (s.readable a → exec (.vtagr d a x b) s = .next (s.setX d (if h : (s.x b).toNat < (s.vreg a).segs.length
      then .ofNat 64 ((s.vreg a).fmt.toNat * 2 ^ 16 + ((s.vreg a).segs[(s.x b).toNat]).side.toNat) else .ofNat 64 (2 ^ 63))).advance) ∧
    (g = 0 → exec (.vamax d a x) s = .next (s.setX d 0).advance ∧
      ((s.fmt f).kind ≠ .nested → (s.fmt f).kind ≠ .reserved →
        exec (.vcvt d a x f) s = .next s.advance ∧ exec (.vquant d a x f) s = .next s.advance)) ∧
    (∀ src : VReg,
      let T := s.fmt f
      let n := perSeg T.wid
      let value (e : Nat) : Val × BitVec 8 := src.value (s.fmt src.fmt) (T.kind != .float) true e
      let seed (e : Nat) : BitVec 32 :=
        if s.st.mode = .sr then seedStep^[((List.range (e + 1)).filter s.st.active).length] s.st.seed else s.st.seed
      let amax (k : Nat) : Val := amaxOf (((List.range g).filter fun e => e / n == k && s.st.active e).map fun e => (value e).1)
      let scale (k : Nat) : BitVec 8 := (scaleFromAmax T (amax k)).1
      (∀ e, e < g → s.st.active e = true →
        (convertAcc d f s src).codes.reverse[e]? = some (T.convert s.st.mode (seed e) (value e).1).1 ∧
        (0 < n → scale (e / n) ≠ 255 → (quantAcc f s src).codes.reverse[e]? = some (convertScaled T s.st.mode (seed e)
          (scaleFromAmax T (amax (e / n))).2 ((value e).1.scale (127 - ((scale (e / n)).toNat : Int)))).1) ∧
        (0 < n → scale (e / n) = 255 → (quantAcc f s src).codes.reverse[e]? = some 0)) ∧
      (0 < n → ∀ k, k < segsBelow g T.wid → ((quantScales f s src).getD k (127, 0)).1 = scale k)) ∧
    (g ≠ 0 → (∀ src, (issueConvert d a f).run s = .ok (src, s) →
      ((convertAcc d f s src).bad = false → s.calm (convertAcc d f s src).flags →
        exec (.vcvt d a x f) s = .next (s.written d f (convertAcc d f s src) fun _ => mkSide f 127 false cVAL)) ∧
      ((quantAcc f s src).bad = false → s.calm (quantAcc f s src).flags →
        exec (.vquant d a x f) s = .next (s.written d f (quantAcc f s src) fun k =>
          mkSide f ((quantScales f s src).getD k (127, 0)).1 false cVAL))) ∧
    (s.readable a → s.writable d → (s.vreg a).holds (s.fmt (s.vreg a).fmt) g = true → (s.vreg a).rawBelow (s.fmt (s.vreg a).fmt) g = false →
      (s.vreg d).holds (s.fmt f) g = true → s.st.keptBeyond (s.vreg d) (s.fmt (s.vreg d).fmt) = false →
      s.st.rawKept (s.vreg d) (s.fmt (s.vreg d).fmt) = false → (s.fmt f).kind ≠ .nested → (s.fmt f).kind ≠ .reserved →
      (issueConvert d a f).run s = .ok (s.vreg a, s)) ∧
    (s.readable a → (s.vreg a).holds (s.fmt (s.vreg a).fmt) g = true → (s.vreg a).rawBelow (s.fmt (s.vreg a).fmt) g = false →
      exec (.vamax d a x) s = .next (s.setX d (.ofNat 64 (fp32.convert .rup 0 (amaxOf (((List.range g).filter s.st.active).map fun e =>
        ((s.vreg a).value (s.fmt (s.vreg a).fmt) false true e).1))).1)).advance) ∧
    (s.writable d → (s.x b).toNat < (s.vreg d).segs.length → ((s.x a).extractLsb' 0 3).toNat < 3 →
      ((s.vreg d).holds (s.fmt (s.vreg d).fmt) g = false → exec (.vtagw d a b) s = .next (s.takeTrap 0x03 0 0 0)) ∧
      ((s.vreg d).holds (s.fmt (s.vreg d).fmt) g = true → exec (.vtagw d a b) s = .next (s.putReg d ⟨if (s.x a).getLsbD 20 then (s.x a).extractLsb' 16 4 else (s.vreg d).fmt,
        (s.vreg d).segs.set (s.x b).toNat ⟨((s.vreg d).seg (s.x b).toNat).data, (s.x a).extractLsb' 0 16⟩⟩).advance)) ∧
    (s.readable a → s.writable d → (s.vreg a).holds (s.fmt (s.vreg a).fmt) g = true →
      let moved := scaledSegs s (s.vreg a) (s.x b).toInt
      s.calm (moved.foldl (fun f y => f ||| y.2) 0) →
      exec (.vscl d a x b) s = .next ((s.flagged (moved.foldl (fun f y => f ||| y.2) 0)).putReg d
        ⟨(s.vreg a).fmt, moved.map (·.1) ++ (s.vreg d).segs.drop moved.length⟩).advance))

/-- R100, R101. A `pfx` before a word that decodes, lies in the private half and accepts its decorations becomes the decoration of
that word, which issues next; any other makes the pair ILLEGAL_INSTRUCTION. -/
def Obligations.PrefixDecoratesTheNextWord : Prop :=  ∀ (c : BitVec 5) (v z : BitVec 1) (m : BitVec 3) (r : BitVec 1) (o : BitVec 3) (s u : State) (w : BitVec 32),
    (fetchAt s.via (s.st.pc + 4)).run s = .ok (w, u) →
    let x : Deco := ⟨c, v == 1, z == 1, m, r == 1, o⟩
    (∀ i, decode .execute w = .ok i → w.getLsbD 31 = true → decoOk i x = true →
      exec (.pfx c v z m r o) s = .next { u with st := { u.st with deco := some x, pc := u.st.pc + 4 } }) ∧
    (∀ i, decode .execute w = .ok i → (w.getLsbD 31 = false ∨ decoOk i x = false) →
      exec (.pfx c v z m r o) s = .next (s.takeTrap 0x01 0 0 0)) ∧
    (∀ e, decode .execute w = .error e → exec (.pfx c v z m r o) s = .next (s.takeTrap 0x01 0 0 0))

/-- R154, R155, Table 08.2. A code-moving instruction (`vmov`, `vbcast`, `vslideup`, `vslidedn`, `vcompress`, `vexpand`, `vzip`,
`vunzip`, `vtrn`, `vrev`) whose registers pass its issue checks writes at each position the code of the source element its entry
names, 0 where there is none, or what merging or zeroing leaves, and completes; each segment with a written element takes its
sidecar from its sources' segments; two scale codes in one raise TAG_FORMAT. R153, R155. `vperm` takes each element from the
position its index names, 0 outside the grant; `vlut3` computes each bit of its codes from the three sources' bits by its truth
table. R54, R77, R154, R180. The issue checks pass, changing nothing, when the registers are free of pending tile operations,
every register has room for the grant at its format, the moved sources have one format, and `vperm`'s indexes are integers in no
RAW segment. -/
def Obligations.CodeMoves : Prop :=
  (∀ (i : Instr) (s : State) (d : BitVec 5) (srcs : List (BitVec 5)) (r : VReg) (regs : List VReg) (old : VReg),
    moveOperands i = some (d, srcs) → s.st.grant ≠ 0 → (issueMove d srcs).run s = .ok ((r :: regs, old), s) →
    let w := (s.fmt r.fmt).wid
    let pick (e : Nat) : Option Moved :=
      if moveWrites i s e then some (match moveSource i s e with
        | some (k, x) => ((r :: regs).getD k (.fresh 0)).moved w x
        | none => .zero)
      else none
    let xs := movedElements s.st old w pick
    let sides := movedSides w xs fun _ ys => movedSide r.fmt ys
    ((keepsOld s.st pick = false ∨ old.fmt = r.fmt) → .clash ∉ sides →
      exec i s = .next (s.putReg d (old.writeMoved r.fmt w xs sides)).advance) ∧
    ((keepsOld s.st pick = true ∧ old.fmt ≠ r.fmt) ∨ .clash ∈ sides → exec i s = .next (s.takeTrap 0x05 0 0 0))) ∧
  ((∀ (d a b : BitVec 5) (x y : BitVec 1) (tt : BitVec 8) (s : State) (ix src old : VReg) (regs : List VReg), s.st.grant ≠ 0 →
    ((issuePerm d a b).run s = .ok ((ix, src, old), s) →
      let w := (s.fmt src.fmt).wid
      let xs := movedElements s.st old w (permPick s ix src)
      let sides := movedSides w xs fun _ ys => movedSide src.fmt ys
      (keepsOld s.st (permPick s ix src) = false ∨ old.fmt = src.fmt) → .clash ∉ sides →
      exec (.vperm d a x b) s = .next (s.putReg d (old.writeMoved src.fmt w xs sides)).advance) ∧
    ((issueMove d [a, b, s.st.fourth d]).run s = .ok ((regs, old), s) →
      let fi := (regs.getD 0 (.fresh 0)).fmt
      let w := (s.fmt fi).wid
      let xs := movedElements s.st old w (lutPick tt s.st w regs)
      let sides := movedSides w xs (lutSide regs)
      (keepsOld s.st (lutPick tt s.st w regs) = false ∨ old.fmt = fi) → .clash ∉ sides →
      exec (.vlut3 d a x b y tt) s = .next (s.putReg d (old.writeMoved fi w xs sides)).advance) ∧
    (∀ (n p q r k : Nat), k < n → (lut3 tt p q r n).testBit k =
      tt.getLsbD (4 * (p.testBit k).toNat + 2 * (q.testBit k).toNat + (r.testBit k).toNat))) ∧
  (∀ (d v : BitVec 5) (r : List (BitVec 5)) (s : State),
    let fi := (s.vreg v).fmt
    s.st.kind = .execute → s.st.grant ≠ 0 → (∀ x ∈ v :: r, s.readable x ∧ (s.vreg x).fmt = fi ∧ (s.vreg x).holds (s.fmt fi) s.st.grant = true) →
    s.writable d → (s.vreg d).holds (s.fmt fi) s.st.grant = true →
    (issueMove d (v :: r)).run s = .ok (((v :: r).map s.vreg, s.vreg d), s)) ∧
  (∀ (d a b : BitVec 5) (s : State),
    let F := s.fmt (s.vreg b).fmt
    let S := s.fmt (s.vreg a).fmt
    s.st.kind = .execute → s.st.grant ≠ 0 → s.readable a → s.readable b → s.writable d → F.kind = .int →
    (s.vreg b).holds F s.st.grant = true → (s.vreg b).rawBelow F s.st.grant = false → (s.vreg a).holds S s.st.grant = true →
    (s.vreg d).holds S s.st.grant = true → (issuePerm d a b).run s = .ok ((s.vreg b, s.vreg a, s.vreg d), s)))

/-- R155. `vext` reads the bits of one element into X[D], 2^63 outside the grant; `vins` writes one code and leaves every other
element, a UNW segment becoming VAL with its other elements 0. R156, Table 08.3. The mask instructions act on the bits below the
grant: the destination's other bits, the other masks and m0 stay; counts and the first set bit go to X[D]. -/
def Obligations.ElementsAndMasks : Prop :=
  (∀ (d a b : BitVec 5) (x : BitVec 1) (s : State), s.st.kind = .execute →
    let g := s.st.grant
    let k := (s.x b).toNat
    (s.readable a → g ≠ 0 → (s.vreg a).holds (s.fmt (s.vreg a).fmt) g = true →
      let w := (s.fmt (s.vreg a).fmt).wid
      exec (.vext d a x b) s = .next (s.setX d (.ofNat 64
        (if k < g then ((s.vreg a).seg (k / perSeg w)).data.toNat / 2 ^ (w * (k % perSeg w)) % 2 ^ w else 2 ^ 63))).advance) ∧
    (g = 0 → exec (.vext d a x b) s = .next (s.setX d (.ofNat 64 (2 ^ 63))).advance) ∧
    (s.writable d → g ≠ 0 → (s.vreg d).holds (s.fmt (s.vreg d).fmt) g = true →
      let w := (s.fmt (s.vreg d).fmt).wid
      (k < g → exec (.vins d a b) s = .next (s.putReg d ((s.vreg d).setSeg (k / perSeg w)
        (((s.vreg d).seg (k / perSeg w)).insert w (k % perSeg w) (s.x a).toNat))).advance) ∧
      (g ≤ k → exec (.vins d a b) s = .next s.advance))) ∧
  (∀ (d a b : BitVec 3) (x : BitVec 5) (s : State),
    let g := s.st.grant
    let wrote (i : Instr) (f : Nat → Bool) : Prop := ∃ t : State, exec i s = .next t.advance ∧
      t = { s with st := { s.st with mask := t.st.mask } } ∧
      ∀ (n : BitVec 3) (e : Nat), e < 24576 →
        t.st.maskBit n e = if n = 0 then true else if n = d ∧ e < g then f e else s.st.maskBit n e
    wrote (.mand d a b) (fun e => s.st.maskBit a e && s.st.maskBit b e) ∧
    wrote (.mor d a b) (fun e => s.st.maskBit a e || s.st.maskBit b e) ∧
    wrote (.mxor d a b) (fun e => s.st.maskBit a e != s.st.maskBit b e) ∧
    wrote (.mandn d a b) (fun e => s.st.maskBit a e && !s.st.maskBit b e) ∧
    wrote (.mset d x) (fun e => decide (e < (s.x x).toNat)) ∧
    exec (.mpopc x a) s = .next (s.setX x (.ofNat 64 ((List.range g).countP (s.st.maskBit a)))).advance ∧
    ((∀ e, e < g → s.st.maskBit a e = false) → exec (.mfirst x a) s = .next (s.setX x (BitVec.allOnes 64)).advance) ∧
    (∀ e, e < g → s.st.maskBit a e = true → (∀ k, k < e → s.st.maskBit a k = false) →
      exec (.mfirst x a) s = .next (s.setX x (.ofNat 64 e)).advance))

/-- R164. `dfr.cnt` writes the number of entries of its path to X[D] as an unsigned value, under any grant, and changes nothing
else; the two example words of the rule decode as it says; an entry added to a path of one strand is seen in that strand alone. -/
def Obligations.DeferralCount : Prop :=  (∀ (p : BitVec 8) (x : BitVec 5) (s : State),
    exec (.dfrCnt p x) s = .next (s.setX x (.ofNat 64 (s.st.dfr.countP fun e => e.path == p))).advance) ∧
  decode .execute 0x920A2480 = .ok (.dfrPush 5 2 1 1) ∧ decode .execute 0x920A0016 = .ok (.dfrCnt 5 5) ∧
  (∀ (p : BitVec 8) (sig : List (BitVec 4)) (new : List DfrEntry) (s : State),
    (s.dfrAdd p sig new).core = s.core ∧ (s.dfrAdd p sig new).dev = s.dev ∧ (s.dfrAdd p sig new).st.dfr = s.st.dfr ++ new)

/-- R160 to R163. `dfr.push` appends one entry for each active element, in ascending order, to its path, which takes the signature
of its first; `dfr.pop` takes the oldest entries of its path, up to the grant, in order, and says in a mask which elements they
filled; each changes no other path. R165 to R167, R194 to R196; log 161. On a queue bound to the acting X-hart, or bound to it by
this its first push or pop, the other strand of its pair at the other end: `qpush` appends one slot for each segment below the
grant while there is room, and waits, or traps QUEUE_SHORT when the consumer has ended, while there is not; `qpop` takes the first
elements, fills D from them under its format and removes them, and waits while there are too few, but traps QUEUE_SHORT when all
256 slots are taken or the producer has ended; a queue bound to another strand traps QUEUE_BINDING. -/
def Obligations.DeferralsAndTaggedQueues : Prop :=
  (∀ (p : BitVec 8) (v : BitVec 5) (n : BitVec 2) (m : BitVec 3) (s : State), s.st.grant ≠ 0 → s.st.kind = .execute →
    (∀ regs, regs = (dfrNames v (n.toNat + 1)).map s.vreg → (∀ r ∈ dfrNames v (n.toNat + 1), s.readable r) →
      (∀ r ∈ regs, r.holds (s.fmt r.fmt) s.st.grant = true) → (∀ sig, s.st.dfrSigOf p = some sig → sig = regs.map (·.fmt)) →
      s.st.dfr.length + (dfrEntries s p m regs).length ≤ s.core.dfrRoom →
      exec (.dfrPush p v n m) s = .next (s.dfrAdd p (regs.map (·.fmt)) (dfrEntries s p m regs)).advance) ∧
    (∀ ix olds got, ix = s.vreg v → olds = (dfrNames (v + 1) (n.toNat + 1)).map s.vreg →
      s.writable v → (∀ r ∈ dfrNames (v + 1) (n.toNat + 1), s.writable r) → ix.holds (s.fmt 11) s.st.grant = true →
      (∀ i, i < n.toNat + 1 → (olds.getD i (.fresh 0)).holds (s.fmt (dfrFmt s p olds i)) s.st.grant = true) →
      (∀ sig, s.st.dfrSigOf p = some sig → sig.length = n.toNat + 1) → got = (s.st.dfrPath p).take s.st.grant →
      (∀ i, i < n.toNat + 1 → (dfrFill s p olds got i).bad = none ∧ (dfrFill s p olds got i).flags = 0) →
      exec (.dfrPop p v n m) s =
        .next ((s.dfrPut p v (dfrNames (v + 1) (n.toNat + 1)) ix olds got).dfrTake p m got.length).advance) ∧
    (∀ (k : Nat) (es : List DfrEntry), (dfrDrop p k es).filter (·.path == p) = (es.filter (·.path == p)).drop k ∧
      (dfrDrop p k es).filter (·.path != p) = es.filter (·.path != p))) ∧
  (∀ (d v : BitVec 5) (q : BitVec 3) (s : State), s.st.kind = .execute → s.st.grant ≠ 0 →
    let was := s.core.queue q
    let g := s.st.grant
    (s.readable v → (s.vreg v).holds (s.fmt (s.vreg v).fmt) g = true → was.producer = none ∨ was.producer = some s.st.slot →
      let x : TQueue := if was.producer = none then { was with producer := some s.st.slot, consumer := s.st.partner } else was
      let new := (s.vreg v).lines (s.fmt (s.vreg v).fmt).wid g
      (x.slots.length + new.length ≤ 256 → exec (.qpush v q) s = .next (s.setQueue q { x with slots := x.slots ++ new }).advance) ∧
      (256 < x.slots.length + new.length → s.hasEnded x.consumer = false →
        exec (.qpush v q) s = .next s.await) ∧
      (256 < x.slots.length + new.length → s.hasEnded x.consumer = true →
        exec (.qpush v q) s = .next (s.takeTrap 0x0D (q.setWidth 32) 0 0))) ∧
    (∀ n, was.consumer = some n → n ≠ s.st.slot → s.writable d → (s.vreg d).holds (s.fmt (s.vreg d).fmt) g = true →
      exec (.qpop d q) s = .next (s.takeTrap 0x0C (q.setWidth 32) 0 0)) ∧
    (∀ n, was.producer = some n → n ≠ s.st.slot → s.readable v → (s.vreg v).holds (s.fmt (s.vreg v).fmt) g = true →
      exec (.qpush v q) s = .next (s.takeTrap 0x0C (q.setWidth 32) 0 0)) ∧
    (s.writable d → (s.vreg d).holds (s.fmt (s.vreg d).fmt) g = true → was.consumer = none ∨ was.consumer = some s.st.slot → g ≤ was.count →
      let x : TQueue := if was.consumer = none then { was with consumer := some s.st.slot, producer := s.st.partner } else was
      let els := x.elements.take g
      let r := fill s.fmt (s.vreg d).fmt s.st.decoMode s.st.seed (els.map fun y => some ⟨y.1, y.2.1.fmt, y.2.1.scl, y.2.1.cls⟩)
      (∀ y ∈ els, y.2.1.cls ≠ cPOI ∧ y.2.1.cls ≠ cINV) → els.length = g → r.bad = none → s.calm r.flags →
      exec (.qpop d q) s = .next (({ s with
        st := { s.st.setReg (s.st.phys d) ((s.vreg d).filled (s.vreg d).fmt (s.fmt (s.vreg d).fmt).wid r) with
                  flags := s.st.flags ||| r.flags, seed := r.seed }
        core := (s.setQueue q { x with slots := dropElems g x.slots }).core } : State).advance)) ∧
    (was.consumer = none ∨ was.consumer = some s.st.slot → s.writable d → (s.vreg d).holds (s.fmt (s.vreg d).fmt) g = true → was.count < g →
      let other := if was.consumer = none then s.st.partner else was.producer
      (was.slots.length ≠ 256 → s.hasEnded other = false → exec (.qpop d q) s = .next s.await) ∧
      (was.slots.length = 256 ∨ s.hasEnded other = true → exec (.qpop d q) s = .next (s.takeTrap 0x0D (q.setWidth 32) 0 0))) ∧
    (∀ n (ss : List QSlot), ((dropElems n ss).flatMap (·.codes)) = (ss.flatMap (·.codes)).drop n))

/-- R168, R169. `mat.att` grants rows in eights, never fewer than it holds and never more than 64 over the core; `mat.det` waits
for the hart's pending operations and returns its rows; a detached hart's does nothing. R69, R181 to R183, R186. `tzero` empties a
tile with its flags and its sequence and makes its registers code 0 and UNW; `tpeek` answers how many operations have retired and
begins a view, an open one first ended, whose registers then show every operation retired; `twait` waits for the pending ones,
ends the sequence, owes the entry of a sampled one to the basting buffer, and raises the tile's flags, which are gone even when
one traps. -/
def Obligations.MatrixRowsAndTiles : Prop :=
  (∀ (d a : BitVec 5) (s : State),
    let n := (s.x a).toNat
    let req := 8 * ((Min.min n 64 + 7) / 8)
    let cur := s.st.mrows.toNat
    let free := 64 - (s.allStrands.map fun t => t.mrows.toNat).foldl (· + ·) 0
    let g := if req ≤ cur then cur else Min.min req (cur + free)
    exec (.matAtt d a) s = .next ((({ s with st := { s.st with mrows := .ofNat 7 g } } : State).setX d (.ofNat 64 g)).advance) ∧
    cur ≤ g ∧
    (s.st.mrows = 0 → exec .matDet s = .next s.advance) ∧
    (s.st.mrows ≠ 0 → (∀ k, k < 4 → (s.st.tile k).pending ≠ 0 → exec .matDet s = .next s.await)) ∧
    (s.st.mrows ≠ 0 → (∀ k, k < 4 → (s.st.tile k).pending = 0 ∧ (s.st.tile k).peek = false) →
      ∃ tiles, (∀ k, k < 4 → tiles[k]? = s.st.tiles[k]?) ∧
        exec .matDet s = .next ({ s with st := { s.st with tiles := tiles, mrows := 0 } } : State).advance)) ∧
  (∀ (t : BitVec 2) (a : BitVec 5) (s : State),
    (∃ u : State, exec (.tzero t) s = .next u.advance ∧ u.core = s.core ∧ u.dev = s.dev ∧ u.st.xr = s.st.xr ∧ u.st.flags = s.st.flags ∧
      u.st.tile t.toNat = .clear ∧
      (∀ i, i < 8 → (u.st.reg (8 * t.toNat + i)).fmt = (s.st.reg (8 * t.toNat + i)).fmt ∧
        (u.st.reg (8 * t.toNat + i)).segs = (s.st.reg (8 * t.toNat + i)).segs.map fun _ => ⟨0, 0x7F2⟩) ∧
      (∀ p, p / 8 ≠ t.toNat → u.st.reg p = s.st.reg p)) ∧
    ((s.st.tile t.toNat).peek = false → exec (.tpeek t a) s =
      .next (({ s with st := s.st.setTile t.toNat { s.st.tile t.toNat with peek := true } } : State).setX a
        (.ofNat 64 (s.st.tile t.toNat).done)).advance) ∧
    ((s.st.tile t.toNat).peek = true →
      let w := s.st.endPeek t.toNat
      exec (.tpeek t a) s = .next (({ s with st := w.setTile t.toNat { w.tile t.toNat with peek := true } } : State).setX a
        (.ofNat 64 (s.st.tile t.toNat).done)).advance ∧
      (w.tile t.toNat).peek = false ∧ (w.tile t.toNat).done = (s.st.tile t.toNat).done ∧
      (w.tile t.toNat).ops = (s.st.tile t.toNat).ops.drop ((s.st.tile t.toNat).ops.length - (s.st.tile t.toNat).pending)) ∧
    (∀ k o r, k < 4 → (s.st.tile k).ops = o :: r →
      (s.st.applyFirst k).vreg = (s.st.retireOp k o).1.vreg ∧ ((s.st.applyFirst k).tile k).ops = r ∧
      ((s.st.applyFirst k).tile k).flags = (s.st.tile k).flags ||| (s.st.retireOp k o).2) ∧
    ((s.st.tile t.toNat).pending ≠ 0 → exec (.twait t) s = .next s.await) ∧
    ((s.st.tile t.toNat).pending = 0 → (s.st.tile t.toNat).peek = false → (s.st.tile t.toNat).sampled = true → (s.st.tile t.toNat).issued ≠ 0 →
      let owed : EngWrite := ⟨s.core.ctxId, s.core.launchId, 0, bytesOf 24 (s.basteEntry t.toNat), 4, none, s.st.wordPc⟩
      let u : State := { s with st := { s.st.setTile t.toNat .clear with bcount := s.st.bcount + 1 }
                                core := { s.core with engWrites := s.core.engWrites ++ [owed] } }
      let f := (s.st.tile t.toNat).flags
      (s.calm f → exec (.twait t) s = .next (u.flagged f).advance) ∧
      (¬ s.calm f → exec (.twait t) s = .next (u.takeTrap 0x08 ((f &&& s.st.tmask).setWidth 32) 0 f))) ∧
    ((s.st.tile t.toNat).pending = 0 → (s.st.tile t.toNat).peek = false → (s.st.tile t.toNat).sampled = false →
      let u : State := { s with st := { s.st.setTile t.toNat .clear with
        bcount := if (s.st.tile t.toNat).issued = 0 then s.st.bcount else s.st.bcount + 1 } }
      let f := (s.st.tile t.toNat).flags
      (s.calm f → exec (.twait t) s = .next (u.flagged f).advance) ∧
      (¬ s.calm f → exec (.twait t) s = .next (u.takeTrap 0x08 ((f &&& s.st.tmask).setWidth 32) 0 f))))

/-- R176, R177, R184. A matrix operation that names no register of its tile and passes its checks captures its operands, debits
its declared cost and is pending on its tile; under a zero grant an accepted pair does nothing. R176. What makes a `mop` pass its
checks: an accepted pair, room in the operands and the tile, no RAW segment, attached rows for the grant, a tile of the pair's
accumulator, and a budget above 0. -/
def Obligations.MatrixOperationsIssue : Prop :=
  (∀ (t : BitVec 2) (a b : BitVec 5) (x y m : BitVec 1) (k : BitVec 3) (e : BitVec 2) (s : State) (op : MatOp),
    s.st.phys a / 8 ≠ t.toNat → s.st.phys b / 8 ≠ t.toNat →
    (s.st.grant ≠ 0 → (issueMatrix t a b e none).run s = .ok (op, s) →
      exec (.mop t a x b y e) s = .next (s.matrixBegin t.toNat e op).advance) ∧
    (s.st.grant ≠ 0 → (issueMatrix t a b e (some (k.toNat + 2, m == 1))).run s = .ok (op, s) →
      exec (.mopn t a x b y m k e) s = .next (s.matrixBegin t.toNat e op).advance) ∧
    (s.st.grant = 0 → (s.matrixPair false a b).ok = true → exec (.mop t a x b y e) s = .next s.advance) ∧
    (s.st.grant = 0 → (s.matrixPair true a b).ok = true → exec (.mopn t a x b y m k e) s = .next s.advance) ∧
    ((s.st.tile t.toNat).peek = false → ((s.matrixBegin t.toNat e op).st.tile t.toNat).ops = (s.st.tile t.toNat).ops ++ [op] ∧
      ((s.matrixBegin t.toNat e op).st.tile t.toNat).issued = (s.st.tile t.toNat).issued + 1 ∧
      (s.matrixBegin t.toNat e op).st.vreg = s.st.vreg) ∧
    (∀ c, s.dev.ctx s.core.ctxId = some c → ∃ c', (s.matrixBegin t.toNat e op).dev.ctx s.core.ctxId = some c' ∧
      c'.eb = c.eb - .ofNat 32 ((op.vl + 95) / 96 * 2 ^ e.toNat))) ∧
  (∀ (t : BitVec 2) (a b : BitVec 5) (e : BitVec 2) (s : State),
    let A := s.vreg a
    let B := s.vreg b
    let P := s.matrixPair false a b
    let vl := s.st.vl.toNat
    let vr := s.st.vr.toNat
    let c := (s.st.reg (8 * t.toNat)).segs.length * 32
    s.st.kind = .execute → s.readable a → s.readable b → P.ok = true → P.int = false → (s.fmt B.fmt).kind ≠ .nested →
    A.holds (s.fmt A.fmt) (vr * P.g) = true → B.holds (s.fmt B.fmt) (vl * P.g) = true → vl * vr ≤ 8 * c →
    (∀ x ∈ A.segs, x.side.cls ≠ cRAW) → (∀ x ∈ B.segs, x.side.cls ≠ cRAW) →
    (∀ x ∈ (tileSegs c (vl * vr)).map fun y => s.st.tileSide t.toNat c y.1 y.2,
      x.2.cls = cUNW ∨ (x.2.cls = cVAL ∧ x.1 = 0 ∧ x.2.scl = 127)) →
    vr ≤ s.st.mrows.toNat → s.st.mrows ≠ 0 → vl ≤ 384 →
    (s.core.gang = none ∨ ∃ y, s.dev.ctx s.core.ctxId = some y ∧ 0 < y.eb.toInt) →
    ∃ op, (issueMatrix t a b e none).run s = .ok (op, s) ∧ op.vl = vl ∧ op.vr = vr ∧ op.g = P.g ∧ op.accInt = false ∧
      op.a.length = vr * P.g ∧ op.b.length = vl * P.g)

/-- R185. `mbud` writes the sign-extended budget of the core's context to X[D]. -/
def Obligations.BudgetIsRead : Prop :=  ∀ (d : BitVec 5) (s : State) (c : Ctx), s.dev.ctx s.core.ctxId = some c →
    ∃ v : Word, exec (.mbud d) s = .next (s.setX d v).advance ∧ v.toInt = c.eb.toInt

/-- R68, R177, R184, R324; logs 31, 35. The matrix array's own steps: the oldest pending operation of a tile retires into its
registers, its metering debited, the operation whole and the debit with it (the model's choices, logs 31 and 35); the power
manager refills a budget at its rate up to its ceiling; a basting entry goes to its slot in the buffer as its core holds `sr.bbuf`
and COUNT. -/
def Obligations.MatrixArraySteps : Prop :=  ∀ (hart : BitVec 3) (tile : BitVec 2) (ctx us : Nat) (s : State) (t : Strand) (o : MatOp) (c : Ctx),
    (s.strandAt (9 + hart.toNat) = some t → (t.tile tile.toNat).ops = [o] → (t.tile tile.toNat).pending = 1 →
      (t.tile tile.toNat).peek = false →
      exec (.matrixRetire hart tile) s = .next ((s.putStrandAt ((t.retireOp tile.toNat o).1.setTile tile.toNat
        { t.tile tile.toNat with ops := [], done := (t.tile tile.toNat).done + 1,
                                 flags := (t.tile tile.toNat).flags ||| (t.retireOp tile.toNat o).2 })).setCtx
        fun c => { c with eb := c.eb - .ofNat 32 o.extra })) ∧
    (s.dev.ctx ctx = some c → ∃ u c', exec (.budgetRefill ctx us) s = .next u ∧ u.dev.ctx ctx = some c' ∧ u.st = s.st ∧ u.core = s.core ∧
      u.dev.mem = s.dev.mem ∧
      (c.ebceil.toInt ≤ c.eb.toInt → c'.eb = c.eb) ∧
      (c.eb.toInt < c.ebceil.toInt → (c'.eb.toInt = Min.min c.ebceil.toInt (c.eb.toInt + c.ebrate.toInt * us) ∨
        ¬ (-2 ^ 31 ≤ Min.min c.ebceil.toInt (c.eb.toInt + c.ebrate.toInt * us) ∧
          Min.min c.ebceil.toInt (c.eb.toInt + c.ebrate.toInt * us) < 2 ^ 31)))) ∧
    (∀ w r u, s.core.engWrites = w :: r → w.kind = 4 → w.parked = none → s.dev.ctx w.ctx = some c →
      let buf := (s.basteView c).1
      let count := (s.basteView c).2
      (recordWrite true (s.viaKey w.ctx) (.ofNat 64 (buf.toNat / 4096 * 4096 + 32 * (count.toNat % 2 ^ (buf.toNat % 32))))
        ((List.range 8).map (fun k => BitVec.ofNat 8 ((count + 1).toNat / 256 ^ k)) ++ w.bytes)).run s = .ok ((), u) →
      u.core.engWrites = s.core.engWrites →
      exec .bastingEntryWrite s = .next { u with core := { u.core with engWrites := r }
                                                 dev := u.dev.updCtx w.ctx fun c => { c with bhead := c.bhead + 1 } })

/-- R52, R209 to R211, Table 11.1; logs 79, 121. The register loads of a strip: with the registers free, room for the grant, every
element found and the fill possible, D takes the filled register in the destination format and the load completes, its flags
raised, its draws taken and its lines sampled in ascending order. Where an element's line traps, fails or is empty, or R52 cannot
write an element, the lowest-numbered such element ends the load: nothing is written. The element places are those of the form.
R205. Where element `t` from byte address `b` of a strip lies: its line and slot, computed with unbounded integers and wrapped. -/
def Obligations.VectorLoads : Prop :=
  (∀ (d a b : BitVec 5) (f : BitVec 1) (t : BitVec 4) (r : BitVec 1) (m : BitVec 3) (s u : State) (old : VReg) (iv : List Int)
    (els : List (Option FillEl)) (seen : List SeenLine), s.st.grant ≠ 0 → (claimUnless0 d).run s = .ok (old, s) →
    let g := s.st.grant
    let fi := if f = 1 then t else old.fmt
    let done (i : Instr) (ix : Option (BitVec 5)) (place : Nat → Word × Nat) : Prop :=
      (issueAccess ix (!old.holds (s.fmt fi) g) false).run s = .ok (iv, s) →
      loadEls (perSeg (s.fmt fi).wid) ((List.range g).map fun e => (e, place e)) [] none s = (els, none, seen, u) →
      let x := fill s.fmt fi (if r = 1 then some (s.st.modeOf m) else none) s.st.seed els
      let v := ((seen.map (·.tr)).foldr insertTr []).foldl (fun s tr => s.touch tr true) u
      x.bad = none → v.calm x.flags →
      exec i s = .next (({ v with st := { v.st with flags := v.st.flags ||| x.flags, seed := x.seed } } : State).putReg d
        (old.filled fi (s.fmt fi).wid x)).advance
    let fails (i : Instr) (ix : Option (BitVec 5)) (place : Nat → Word × Nat) : Prop :=
      ∀ (b : Option (Nat × Stop)) (e k : Nat) (y : Stop), (issueAccess ix (!old.holds (s.fmt fi) g) false).run s = .ok (iv, s) →
      loadEls (perSeg (s.fmt fi).wid) ((List.range g).map fun e => (e, place e)) [] none s = (els, b, seen, u) →
      let x := fill s.fmt fi (if r = 1 then some (s.st.modeOf m) else none) s.st.seed els
      let ends : Prop := match y with
        | .trap c n ad fl => exec i s = .next (s.takeTrap c n ad fl)
        | .fault z => exec i s = .next (s.strandFault z)
        | .wait => exec i s = .next s.await
        | .redo _ => True
      let unfit : Prop := exec i s = .next (s.takeTrap 0x05 0 (place k).1 0)
      (x.bad = none → b = some (e, y) → ends) ∧
      (x.bad = some k → b = none → unfit) ∧
      (x.bad = some k → b = some (e, y) → k < e → y.waits = false → unfit) ∧
      (x.bad = some k → b = some (e, y) → e ≤ k → k / perSeg (s.fmt fi).wid = e / perSeg (s.fmt fi).wid → ends)
    let base : Int := (s.x a).toNat
    let W := s.st.gw
    let both (i : Instr) (ix : Option (BitVec 5)) (place : Nat → Word × Nat) : Prop := done i ix place ∧ fails i ix place
    both (.vldU d a f t r m) none (fun e => placeAt W base e) ∧
    both (.vldS d a b f t r m) none (fun e => placeAt W (base + e * (s.x b).toInt) 0) ∧
    both (.vldX d a b f t r m) (some b) (fun e => placeAt W base (iv.getD e 0)) ∧
    both (.vldB d a b f t r m) none
      (fun e => placeAt W (base + (e / s.st.vl.toNat : Nat) * (s.x b).toInt) (e % s.st.vl.toNat : Nat))) ∧
  (∀ (w : Nat) (b : Nat) (t : Int), 0 < perSeg w → 4 ≤ w → w ≤ 32 →
    let n : Int := perSeg w
    let o := b % 128
    let s0 : Int := if n ≤ (8 * o / w : Nat) then 0 else (8 * o / w : Nat)
    let base : Int := if n ≤ (8 * o / w : Nat) then (b : Int) - o + 128 else (b : Int) - o
    let u := s0 + t
    placeAt w b t = (.ofInt 64 (base + 128 * (u / n)), (u % n).toNat))

/-- R194, R196, R212, R214; logs 79, 121. Loads into a queue append one slot for each line of the strip; a push that the queue
refuses stops them before they read anything. A line takes one slot whichever rows name it (the model's choice, logs 79 and 121).
Plane loads put each plane line verbatim into its segment and, with `.mid`, the midpoint filler behind them. Under a zero grant
they do nothing. -/
def Obligations.QueueAndPlaneLoads : Prop :=  ∀ (d a b : BitVec 5) (q : BitVec 3) (m : BitVec 1) (k : BitVec 4) (s u v w : State),
    (s.st.grant = 0 → exec (.vldUQueue q a) s = .next s.advance ∧ exec (.vldBQueue q a b) s = .next s.advance ∧
      exec (.vldNp d a m k) s = .next s.advance) ∧
    (s.st.grant ≠ 0 →
      let slots (js : List (Word × Tag × List (Nat × Nat))) : List QSlot :=
        js.map fun j => ⟨(List.range 256).flatMap fun k => (j.2.2.filter (·.1 == k)).map (·.2), j.2.1, j.1⟩
      let through (i : Instr) (strip : Strip) : Prop :=
        let locs := (List.range s.st.grant).map fun e => (e, strip s [] e)
        let n := (locs.map (·.2.1)).eraseDups.length
        (∀ x js, (claimQueue q n).run s = .ok (x, w) → (loadSlots locs [] []).run w = .ok (js, u) →
          (pushQueue q (slots js)).run u = .ok ((), v) → exec i s = .next v.advance) ∧
        (∀ c y ad fl, (claimQueue q n).run s = .error (.trap c y ad fl) → exec i s = .next (s.takeTrap c y ad fl)) ∧
        ((claimQueue q n).run s = .error .wait → exec i s = .next s.await)
      through (.vldUQueue q a) (stripU a) ∧ through (.vldBQueue q a b) (stripB a b) ∧
      (∀ old xs gf, (claimReg d).run s = .ok (old, s) → s.st.grant ≤ old.segs.length * 128 →
        8 * ((s.st.grant + 1023) / 1024 - 1) + k.toNat ≤ old.segs.length → (s.x a).toNat % 1024 = 0 →
        (loadPlanes (s.x a) ((List.range ((s.st.grant + 1023) / 1024)).flatMap fun h => (List.range k.toNat).map fun p => (h, p)) none).run s
          = .ok ((xs, gf), u) →
        let F := gf.getD old.fmt
        let filler := if m = 1 then (List.range ((s.st.grant + 1023) / 1024)).flatMap fun h =>
            (List.range' k.toNat (8 - k.toNat)).map fun p =>
              (8 * h + p, (if p = k.toNat then BitVec.allOnes 1024 else 0 : Line), (127 : BitVec 8), cVAL) else []
        exec (.vldNp d a m k) s = .next (u.putReg d ⟨F, (xs ++ filler).foldl
          (fun ss x => setSeg x.1 ⟨x.2.1, mkSide F x.2.2.1 false x.2.2.2⟩ ss) old.segs⟩).advance))

/-- R210, R215, R216. The stores of a strip from a register or a queue: when every line of it can be written they write all of
them, and complete with their flags raised; a queue's elements are removed only then. Where a line fails nothing of the store
stays. -/
def Obligations.VectorStores : Prop :=  ∀ (v a b : BitVec 5) (q : BitVec 3) (s u w : State) (r : VReg) (iv : List Int), s.st.grant ≠ 0 →
    let g := s.st.grant
    let els (place : Nat → Word × Nat) : List (Nat × (Word × Nat) × FillEl × Tag) :=
      (List.range g).map fun e => (e, place e, r.storeEl (s.fmt r.fmt).wid e, (0 : Tag))
    let fromReg (i : Instr) (ix : Option (BitVec 5)) (strip : Strip) : Prop :=
      (readUnless0 v).run s = .ok (r, s) → (issueAccess ix (!r.holds (s.fmt r.fmt) g) false).run s = .ok (iv, s) →
      ((storeStrip false (els (strip s iv))).run s = .ok ((), u) → exec i s = .next u.advance) ∧
      (∀ c n ad fl, (storeStrip false (els (strip s iv))).run s = .error (.trap c n ad fl) → exec i s = .next (s.takeTrap c n ad fl)) ∧
      (∀ e, (storeStrip false (els (strip s iv))).run s = .error (.fault e) → exec i s = .next (s.strandFault e))
    let fromQueue (i : Instr) (strip : Strip) : Prop :=
      ∀ x es, (headQueue q g).run s = .ok ((x, es), w) →
        (storeStrip true (es.zipIdx.map fun y => (y.2, strip s [] y.2, ⟨y.1.1, y.1.2.1.fmt, y.1.2.1.scl, y.1.2.1.cls⟩, y.1.2.1))).run w
          = .ok ((), u) →
        exec i s = .next (u.setQueue q { x with slots := dropElems g x.slots }).advance
    fromReg (.vstU v a) none (stripU a) ∧ fromReg (.vstS v a b) none (stripS a b) ∧ fromReg (.vstX v a b) (some b) (stripX a) ∧
    fromReg (.vstB v a b) none (stripB a b) ∧ fromQueue (.vstUQueue q a) (stripU a) ∧ fromQueue (.vstBQueue q a b) (stripB a b)

/-- R217, R218, R257, Table 11.4. A scalar atomic on an aligned operand of class VAL, RAW or UNW (which reads as zero and raises
NX) writes the new value of its operation at the line's home, makes the line RAW, and returns the old value as a load does; a
misaligned address traps MISALIGNED; one of the CC waits behind engine commands that it must follow. R207, R210, R219 to R223. The
vector atomics and bank-side commands update every line of their strip, or none: with their checks passed and every line done they
complete with the flags of all lines raised; `mcas` also returns the old lines and the number exchanged. An address that is not a
multiple of 128 traps MISALIGNED in the bank-side commands. -/
def Obligations.Atomics : Prop :=
  (∀ (d a b : BitVec 5) (o : BitVec 4) (z : BitVec 2) (s u v w : State) (tr : Tr) (l : Line) (t : Tag),
    let n := 4 * 2 ^ z.toNat
    let va := s.x a
    let old : Line := if t.cls = cUNW then 0 else l
    let m := lineBytes old (va.toNat % 128) n
    let r := amoResult o (8 * n) m (s.wide b n) (s.wide d n)
    let f := if t.cls = cUNW then r.2 ||| 0x10 else r.2
    let held := s.st.kind == .cc && s.core.engHolds 3
    (va.toNat % n ≠ 0 → exec (.amo d a b o z) s = .next (s.takeTrap 0x0E 0 va 0)) ∧
    (va.toNat % n = 0 → held = true → exec (.amo d a b o z) s = .next s.await) ∧
    (va.toNat % n = 0 → held = false → (translate s.via nRmw va).run s = .ok (tr, u) →
      (readHome tr nRmw.kind).run u = .ok ((l, t), v) → (t.cls = cVAL ∨ t.cls = cRAW ∨ t.cls = cUNW) → v.calm f →
      (writeHome tr nRmw.kind 0 (setLineBytes old (va.toNat % 128) n r.1) t.raw
        (if t.cls = cUNW then BitVec.allOnes 128 else byteMask (va.toNat % 128) n)).run (v.flagged f) = .ok ((), w) →
      exec (.amo d a b o z) s = .next ((w.touch tr true).amoReturn d n m)) ∧
    (∀ (k m b x : Nat), 0 < k → m < 2 ^ k → b < 2 ^ k →
      (amoResult 0 k m b x).1 = b ∧ (amoResult 1 k m b x).1 = (m + b) % 2 ^ k ∧ (amoResult 2 k m b x).1 = m &&& b ∧
      (amoResult 3 k m b x).1 = m ||| b ∧ (amoResult 4 k m b x).1 = m ^^^ b ∧
      signedOf k (amoResult 5 k m b x).1 = Min.min (signedOf k m) (signedOf k b) ∧
      signedOf k (amoResult 6 k m b x).1 = Max.max (signedOf k m) (signedOf k b) ∧
      (amoResult 7 k m b x).1 = Min.min m b ∧ (amoResult 8 k m b x).1 = Max.max m b ∧
      (amoResult 9 k m b x).1 = if m = x then b else m)) ∧
  (∀ (v a b d o : BitVec 5) (x : BitVec 1) (p : BitVec 4) (s u : State) (r : VReg) (iv : List Int) (fs : List (BitVec 8))
    (ys : List (BitVec 8 × Tr)), s.st.grant ≠ 0 →
    let g := s.st.grant
    let F := s.fmt r.fmt
    ((readUnless0 v).run s = .ok (r, s) → ¬(3 ≤ p.toNat ∧ F.kind = .float) →
      (issueAccess (if x = 1 then some b else none) (!r.holds F g) (r.rawBelow F g)).run s = .ok (iv, s) →
      (allLines (amoVLine p r.fmt F) (updLines r F g ((if x = 1 then stripX a else stripU a) s iv))).run s = .ok (ys, u) →
      let w := ((ys.map (·.2)).foldr insertTr []).foldl (fun s tr => s.touch tr true) u
      w.calm (orFlags (ys.map (·.1))) → exec (.amoV v a b x p) s = .next (w.flagged (orFlags (ys.map (·.1)))).advance) ∧
    ((readUnless0 b).run s = .ok (r, s) → r.holds F g = true → (s.x a).toNat % 128 = 0 →
      ((allLines (bankLine o none r.fmt F) (updLines r F g (stripU a s []))).run s = .ok (fs, u) → u.calm (orFlags fs) →
        exec (.mred o a b) s = .next (u.flagged (orFlags fs)).advance) ∧
      ((allLines (bankLine 0 (some (fp32.decode false (s.x d).toNat).1) r.fmt F) (updLines r F g (stripU a s []))).run s = .ok (fs, u) →
        u.calm (orFlags fs) → exec (.msax d a b) s = .next (u.flagged (orFlags fs)).advance)) ∧
    ((readUnless0 b).run s = .ok (r, s) → r.holds F g = true → (s.x a).toNat % 128 ≠ 0 →
      exec (.mred o a b) s = .next (s.takeTrap 0x0E 0 (s.x a) 0) ∧ exec (.msax d a b) s = .next (s.takeTrap 0x0E 0 (s.x a) 0)) ∧
    (∀ q xs, (claimUnless0 b).run s = .ok (r, s) → (readUnless0 (b + 1)).run s = .ok (q, s) → r.holds F g = true →
      q.holds (s.fmt q.fmt) g = true → (s.x a).toNat % 128 = 0 → r.fmt = q.fmt → F.wid = s.st.gw →
      (allLines (mcasLine r q s.st.gw g (s.x a)) (List.range (segsBelow g s.st.gw))).run s = .ok (xs, u) →
      exec (.mcas d a b) s = .next ((u.putReg b { r with segs := xs.foldl (fun ss y =>
        setSeg y.1 ⟨y.2.1, mkSide y.2.2.1.fmt y.2.2.1.scl false (if y.2.2.1.fmt ≠ r.fmt then cRAW else y.2.2.1.cls)⟩ ss) r.segs }).advanceValue d
        (.ofNat 64 (xs.filter (·.2.2.2)).length))))

/-- R225, R226, Table 03.1; log 82. `ltag.ld` reads a line's tag, with the full/empty bit of a scratchpad line in bit 24;
`ltag.st` writes FMT, SCL, CLS and PLN of the line from X[B] at the line's home (the model's reading, log 82) and keeps GEN and
CMP; its data become zero where the line was or becomes UNW, hold a free value where it was POI and does not, and are unchanged
otherwise; a STG line faults STG_WRITE. On a scratchpad line both complete under no other condition but, for `ltag.st`, that it is
not STG and that no earlier load of the strand has it still to read. R120, R224. The full/empty instructions on a range that lies
in the scratchpad: `fe.wait` waits until every line of it is full, `fe.set` and `fe.clr` wait while an earlier load of the strand
has a line of it still to read, then set all of its bits and answer how many were full; a range that does not lie in it traps
TAG_FORMAT. -/
def Obligations.LineTagsAndFullEmptyBits : Prop :=
  (∀ (d a b : BitVec 5) (s u v w : State) (tr : Tr) (l : Line) (t : Tag),
    let new : Tag := (s.x b).extractLsb' 0 24
    let x := t.retag new.fmt new.scl new.cls new.pln
    x.fmt = new.fmt ∧ x.scl = new.scl ∧ x.cls = new.cls ∧ x.pln = new.pln ∧ x.gen = t.gen ∧ x.extractLsb' 18 6 = t.extractLsb' 18 6 ∧
    ((translate s.via nLoad (s.x a)).run s = .ok (tr, u) → (readLine tr nLoad.kind).run u = .ok ((l, t), v) →
      exec (.ltagLd d a) s = .next ((v.touch tr true).advanceValue d
        (.ofNat 64 (t.toNat + (if tr.spad = true ∧ tr.loc / 128 ∉ s.core.feEmpty then 2 ^ 24 else 0))))) ∧
    ((translate s.via nStore (s.x a)).run s = .ok (tr, u) → (readHome tr nStore.kind).run u = .ok ((l, t), v) → t.cls ≠ cSTG →
      let free := t.cls == cPOI && x.cls != cUNW
      let data := if t.cls = cUNW ∨ x.cls = cUNW then 0 else if t.cls = cPOI then Config.freeLine v.takeFree.1 else l
      (writeHome tr nStore.kind 0 data x (BitVec.allOnes 128)).run (if free then v.takeFree.2 else v) = .ok ((), w) →
      exec (.ltagSt a b) s = .next (w.touch tr true).advance) ∧
    ((translate s.via nStore (s.x a)).run s = .ok (tr, u) → (readHome tr nStore.kind).run u = .ok ((l, t), v) → t.cls = cSTG →
      exec (.ltagSt a b) s = .next (s.strandFault (v.mkFault 2 0x02 2 (s.x a) (tr.dpa / 128 * 128) 0))) ∧
    (inWindow (s.x a) = true →
      let k := spadOff (s.x a) / 128
      exec (.ltagLd d a) s = .next (s.advanceValue d
        (.ofNat 64 ((s.core.spad.tag (128 * k)).toNat + (if k ∉ s.core.feEmpty then 2 ^ 24 else 0)))) ∧
      (s.st.holdsBytes k (BitVec.allOnes 128) = false → (s.core.spad.tag (128 * k)).cls ≠ cSTG → ∃ z : State, exec (.ltagSt a b) s = .next z.advance))) ∧
  (∀ (d a b : BitVec 5) (s : State),
    let k := (s.x a).toNat % 4194304 / 128
    let n := if b = 0 then 1 else (s.x b).toNat
    let empty := s.core.feEmpty.countP fun i => decide (k ≤ i ∧ i < k + n)
    (n ≠ 0 → k + n ≤ 32768 →
      (empty = 0 → exec (.feWait a b) s = .next s.advance) ∧
      (empty ≠ 0 → exec (.feWait a b) s = .next s.await) ∧
      ((∀ i, k ≤ i → i < k + n → s.st.holdsBytes i (BitVec.allOnes 128) = false) →
        exec (.feSet d a b) s = .next (({ s with core := s.core.setFe k n true } : State).advanceValue d (.ofNat 64 (n - empty))) ∧
        exec (.feClr d a b) s = .next (({ s with core := s.core.setFe k n false } : State).advanceValue d (.ofNat 64 (n - empty)))) ∧
      ((∃ i, k ≤ i ∧ i < k + n ∧ s.st.holdsBytes i (BitVec.allOnes 128) = true) →
        exec (.feSet d a b) s = .next s.await ∧ exec (.feClr d a b) s = .next s.await) ∧
      (∀ full i, i ∈ (s.core.setFe k n full).feEmpty ↔ (if k ≤ i ∧ i < k + n then full = false else i ∈ s.core.feEmpty))) ∧
    ((n = 0 ∨ 32768 < k + n) → exec (.feWait a b) s = .next (s.takeTrap 0x05 0 (s.x a) 0) ∧
      exec (.feSet d a b) s = .next (s.takeTrap 0x05 0 (s.x a) 0) ∧ exec (.feClr d a b) s = .next (s.takeTrap 0x05 0 (s.x a) 0)))

/-- R78, R192, R230, R231, R242 to R244, R260; logs 76, 135. A copy whose request passes its checks and whose pages translate
starts under the A-hart's open batch, and the instruction completes; the Shuttle busy, at another source's turn, or another
Shuttle owning one of its lines, it waits; a failed check traps with its cause and address. The order in which the Shuttle serves
its sources is the model's choice (log 135), and so is that `cp.conv` reads its descriptor where it stands at a misaligned address
(log 76). `cp` and `cp.conv` under a zero grant do nothing. -/
def Obligations.CopiesStart : Prop :=  ∀ (d a b : BitVec 5) (s u v : State) (xl : List Xlat) (n : BitVec 32),
    let issued (i : Instr) (s₀ : State) (q : CopyReq) (c : BitVec 512) : Prop :=
      let p := planCopy q c s₀.st.seed
      (checkCopy s₀.fmt q c = none → (q.op < 2 → q.size ≠ 0) → (p.mapPages s₀.via).run s₀ = .ok (xl, u) →
        ((u.core.shuttleBusy = true ∨ u.shuttleTurn s₀.st.slot = false) →
          exec i s = .next { s.await with st := { s.await.st with wantsShuttle := true } }) ∧
        (u.core.shuttleBusy = false → u.shuttleTurn s₀.st.slot = true → openBatch.run u = .ok (n, v) →
          let lines := p.lines.map (placeLine v (v.viaKey s₀.via.key) xl)
          let t := v.startCopy ⟨s₀.st.slot, 1, 5, n, none, s₀.via.key, s₀.core.launchId, s₀.st.wordPc⟩ p lines xl
          let w : State := { t with dev := (lines.filterMap fun (l : LandLine) => l.own).foldl (fun d n => d.tokensHome (n * 128)) t.dev }
          (v.startWaits s₀.st.slot p lines = true → exec i s = .next s.await) ∧
          (v.startWaits s₀.st.slot p lines = false → exec i s =
            .next ({ w with st := { w.st with seed := p.seed }
                            core := { w.core with shuttleLast := w.core.shuttleLast / 16 * 16 + s₀.st.slot } } : State).advance))) ∧
      (∀ e, checkCopy s₀.fmt q c = some e → exec i s = .next (s.takeTrap e.1 0 e.2 0)) ∧
      (checkCopy s₀.fmt q c = none → q.op < 2 → q.size = 0 → exec i s = .next s₀.advance)
    issued (.cp d a b) s (s.stripReq 0 (s.x a) (s.x d) (s.x b) 0) 0 ∧
    issued (.cpFp d a b) s (s.stripReq 2 (s.x a) 0 (s.x b) (s.x d)) 0 ∧
    issued (.cpCmp d a b) s (s.stripReq 3 (s.x a) (s.x (a + 1)) (s.x b) (s.x d)) 0 ∧
    (∀ c s₀, (readRecord (s.x a) 64).run s = .ok (c, s₀) →
      issued (.cpConv d a b) s₀ (s.stripReq 1 0 (s.x d) (s.x b) (s.x a)) (.ofNat 512 c)) ∧
    (∀ r, s.st.vl.toNat * s.st.vr.toNat = 0 → (readRecord (s.x a) 64).run s = .error (.fault r) →
      exec (.cpConv d a b) s = .next s.advance)

/-- R244 to R246, R250. Closing a batch and waiting for batches; setting and awaiting a watch counter; a closed batch whose copies
have retired leaves the core, its knot signalled and its record posted where it asks for them, and a record enters the event queue
while it has room. -/
def Obligations.BatchesAndCounters : Prop :=  ∀ (a w : BitVec 5) (k : BitVec 4) (s u : State) (n : BitVec 32),
    let slot := s.st.slot
    let shut (e : Option (BitVec 32)) : State := u.updBatch (fun x => x.who == u.st.slot && x.num == n) fun x => { x with closed := true, evt := e }
    let wait (t : State) : State := t.await
    let c := s.core.watchAt k
    let count := s.st.grant * (if a = 0 then 1 else (s.x a).toNat)
    (s.core.outstanding slot < 64 → openBatch.run s = .ok (n, u) → u.st.slot = slot →
      exec (.cpClose a) s = .next (shut (if a = 0 then none else some ((s.x a).extractLsb' 0 32))).advance ∧
      ((∃ x ∈ s.core.batches, x.who = slot ∧ x.closed = false) → exec (.cpWait w) s =
        .next (if (shut none).core.outstanding (shut none).st.slot ≤ w.toNat then (shut none).advance else wait (shut none)))) ∧
    ((∀ x ∈ s.core.batches, x.who = slot → x.closed = true) → exec (.cpWait w) s =
      .next (if s.core.outstanding slot ≤ w.toNat then s.advance else wait s)) ∧
    (64 ≤ s.core.outstanding slot → exec (.cpClose a) s = .next (wait s)) ∧
    (c.front = c.assigned → count < 2 ^ 32 → exec (.wset k a) s =
      .next ({ s with core := s.core.setWatch k ⟨.ofNat 32 count, 0, 0, []⟩ } : State).advance) ∧
    (c.front = c.assigned → 2 ^ 32 ≤ count → exec (.wset k a) s = .next (s.takeTrap 0x0F 0 0 0)) ∧
    (c.front ≠ c.assigned → exec (.wset k a) s = .next (wait s)) ∧
    exec (.wwait k a) s = .next (if (if a = 0 then c.expect.toNat else Nat.min (s.x a).toNat c.expect.toNat) ≤ c.front.toNat then s.advance else wait s) ∧
    (∀ who x r, takeFirst (fun x => x.who == who) s.core.batches = some (x, r) → x.closed = true → s.core.batchIdle x = true →
      (x.evt = none ∨ s.core.shuttleHeld < 64) →
      let told : Core := x.knot.elim { s.core with batches := r } fun k => ({ s.core with batches := r } : Core).signal k 1
      exec (.batchComplete who) s = .next { s with core := x.evt.elim told fun g => told.post (s.batchEvent x g) }) ∧
    (∀ xs e r, s.core.evq.length < 256 → s.core.evHeld = xs ++ e :: r → (∀ y ∈ xs, s.core.mayPost y = false) → s.core.mayPost e = true →
      exec .eventPost s = .next { s with core := { s.core with evq := s.core.evq ++ [e], evHeld := xs ++ r } })

/-- R192, R232 to R238, R246 to R248, R313, R325, R391; log 135. The engines' own steps: a line of a copy lands, once no earlier
copy of the same issuer has it to land, and the last one retires the copy; translations that the copy does not hold are made
first, and held; a fault parks that copy alone; a debug stop of the issuer holds its copies still; the first block of a queue
starts its copy on the CC's turn (log 135: all queues share it), unless it waits on its knot, and the next iteration of a nest
starts its copy, the last closing the nest's batch. -/
def Obligations.EngineSteps : Prop :=  ∀ (s t u : State),
    let own (w : State) (ls : List LandLine) : State :=
      { w with dev := (ls.filterMap fun (l : LandLine) => l.own).foldl (fun d n => d.tokensHome (n * 128)) w.dev }
    (∀ copy line k₀ ln got part fl xl, s.core.copies.find? (·.id == copy) = some k₀ → k₀.lines[line]? = some ln → k₀.parked = none →
      (s.core.behind k₀ ln = true ∨ s.core.copyHeld k₀ = true → exec (.landing copy line) s = .next s) ∧
      (s.core.behind k₀ ln = false → s.core.copyHeld k₀ = false → (rehold k₀).run s = .ok (xl, t) → t.core = s.core →
        let k : Copy := { k₀ with xl := xl }
        let h := t.updCopy copy fun k => { k with xl := xl }
        ((landing k ln).run h = .ok ((got, part, fl), u) →
          let x := ((u.updCopy copy fun k => { k with got := got, lines := k₀.lines.eraseIdx line }).markWatch k ln).updBatch
            (fun b => b.who == k.who && b.num == k.batch) fun b =>
              { b with written := b.written + ln.moves.length, flags := b.flags ||| fl, status := b.status ||| (if part then 1 else 0) }
          exec (.landing copy line) s = .next (if k.lines.length = 1 then { x with core := x.core.retireCopy copy } else x)) ∧
        ((landing k ln).run h = .error .wait → exec (.landing copy line) s = .next s) ∧
        (∀ r, (landing k ln).run h = .error (.fault r) → k.ctx < 4096 → r.final = false →
          let y := h.postFault (h.dev.partOfCtx k.ctx)
            (r.by (.ofNat 8 k.engine) (if k.who % 32 = 17 then 0 else whoOfSlot (k.who % 32)) k.ctx k.pc) (some (.copy s.core.num copy))
          exec (.landing copy line) s = .next (y.1.updCopy copy fun k => { k with parked := some y.2 })))) ∧
    (∀ (q : BitVec 2) b r, s.core.cmdq[q.toNat]'(q.isLt) = b :: r →
      let kw := b.blk.extractLsb' 200 5
      let waits := b.blk.getLsbD 205 && s.core.knots[kw.toNat]'(kw.isLt) == 0
      ((s.core.shuttleBusy = true ∨ waits = true ∨ s.shuttleTurn 0 = false) → exec (.commandBlockStart q) s = .next s) ∧
      (s.core.shuttleBusy = false → waits = false → s.shuttleTurn 0 = true →
        let ahead := s.core.engAhead.set q.toNat ((s.core.engAhead[q.toNat]'(q.isLt)) - 1) q.isLt
        let p := planCopy (blockReq b.blk 0) b.conv s.core.shSeed
        let t : State := { s with core := { s.core with
          cmdq := s.core.cmdq.set q.toNat r q.isLt, engAhead := ahead, shSeed := p.seed, shuttleLast := 16 * q.toNat
          knots := if b.blk.getLsbD 205 then s.core.knots.set kw.toNat (s.core.knots[kw.toNat]'(kw.isLt) - 1) kw.isLt else s.core.knots
          engKinds := if ahead.all (· == 0) then 0 else s.core.engKinds } }
        let lines := p.lines.map (placeLine t (t.viaKey b.ctx) b.xl)
        t.startWaits 0 p lines = false → exec (.commandBlockStart q) s = .next (own (t.startCopy ⟨b.who, 2, q.toNat, b.batch,
          if b.blk.getLsbD 199 then some (b.blk.extractLsb' 194 5) else none, b.ctx, b.launch, b.pc⟩ p lines b.xl) lines))) ∧
    (∀ nest offA offB rnd xl, s.core.bobbin.nest = some nest → s.core.bobbin.run = some (offA, offB, rnd) → s.core.bobbin.parked = none →
      s.core.bobbin.at_ < nestTotal nest → s.core.shuttleBusy = false → s.core.heldStill 0 = false →
      let w := s.core.bobbin
      let q := nestReq nest offA offB rnd w.at_
      let p := planCopy q 0 s.core.shSeed
      q.op ≠ 1 → checkCopy s.fmt q 0 = none → (p.mapPages (s.viaKey w.ctx)).run s = .ok (xl, u) →
      let t : State := { u with core := { u.core with shSeed := p.seed, bobbin := { u.core.bobbin with at_ := w.at_ + 1 } } }
      let lines := p.lines.map (placeLine t (t.viaKey w.ctx) xl)
      t.startWaits 0 p lines = false →
      let z := own (t.startCopy ⟨17, 3, 4, w.nestNo, none, w.ctx, w.launch, w.pc⟩ p lines xl) lines
      exec .bobbinEmission s = .next (if nestTotal nest ≤ w.at_ + 1 ∧ z.core.outstanding 17 < 64 then z.closeNest nest else z))

/-- R265 to R269, R273, R277, R278; log 36. `acq`, `tryacq` and `rel` on a clasp line that passes the checks they share: granted,
the lock's sequence (`tryacq`: 1) goes to X[D], from the core that retains it or from the home, where the request, its progress
and the grant are one step (the model's choice, log 36); held or with others ahead, `tryacq` answers 0; `acq` waits with its
request in the FIFO; a lock the core already holds, and a release of one it does not hold, trap CLASP_STATE. A release waits for
the strand's loads that are still to be read and, where it hands the clasp over, for that; without a waiter it leaves the line
released, RSEQ advanced, and the clasp retained. -/
def Obligations.ClaspsAreTaken : Prop :=  ∀ (d a : BitVec 5) (s u v : State) (tr : Tr) (l : Line),
    let va := s.x a
    let loc := tr.loc / 128
    (claspLine va).run s = .ok ((tr, l), u) →
    let mine (r : ClaspReq) : Bool := r.core == u.core.num && r.who == u.st.slot
    (clMode l = 0 →
      (u.holds l = true ∨ u.otherWaits loc = true →
        exec (.acq d a) s = .next (s.withdraw.takeTrap 0x10 4 va 0) ∧ exec (.tryacq d a) s = .next (s.withdraw.takeTrap 0x10 4 va 0)) ∧
      (u.holds l = false → u.otherWaits loc = false → (u.dev.claspHome loc).retainer = some u.core.num →
        (grantLock tr va l).run u = .ok ((), v) →
        exec (.acq d a) s = .next (v.advanceValue d (clRseq l)) ∧ exec (.tryacq d a) s = .next (v.advanceValue d 1)) ∧
      (u.holds l = false → u.otherWaits loc = false → (u.dev.claspHome loc).retainer ≠ some u.core.num →
        let w := (u.enqueueClasp loc false).progress loc
        let now := w.atHead loc && ((w.dev.claspHome loc).granted || w.dev.grantable loc) && !w.roomWaits loc
        let l' : Line := if (w.dev.homeLine tr).2.cls = cUNW then 0 else (w.dev.homeLine tr).1
        (now = true → (grantLock tr va l').run w = .ok ((), v) → exec (.acq d a) s = .next (v.advanceValue d (clRseq l'))) ∧
        (now = false → exec (.acq d a) s = .next w.await) ∧
        ((clHeld l = true ∨ ((u.dev.claspHome loc).fifo.takeWhile fun r => !mine r) ≠ []) →
          let x : State := { u.withdraw with dev := u.withdraw.dev.updClasp loc (·.count (if (u.dev.claspHome loc).fifo.any mine then 1 else 2)) }
          touchM tr x = .ok ((), v) → exec (.tryacq d a) s = .next (v.advanceValue d 0)) ∧
        (clHeld l = false → ((u.dev.claspHome loc).fifo.takeWhile fun r => !mine r) = [] →
          let z := (u.enqueueClasp loc true).progress loc
          let free := z.dev.grantable loc && !z.roomWaits loc
          (free = true → (grantLock tr va (if (z.dev.homeLine tr).2.cls = cUNW then 0 else (z.dev.homeLine tr).1)).run z = .ok ((), v) →
            exec (.tryacq d a) s = .next (v.advanceValue d 1)) ∧
          (free = false → exec (.tryacq d a) s = .next z.await))) ∧
      (s.st.unread = false → (releaseLock tr va l).run u = .ok (true, v) → exec (.rel a) s = .next v.advance) ∧
      (s.st.unread = false → (releaseLock tr va l).run u = .ok (false, v) → exec (.rel a) s = .next v.await) ∧
      (s.st.unread = false → u.holds l = false → (∀ e, u.core.entryFor loc = some e → e.relBy = none) →
        exec (.rel a) s = .next (s.takeTrap 0x10 3 va 0))) ∧
    (s.st.unread = true → exec (.rel a) s = .next s.await) ∧
    (clMode l = 1 →
      (u.barrierWaits loc l = true → exec (.acq d a) s = .next u.await) ∧
      (u.barrierWaits loc l = false → (passBarrier d tr va l).run u = .ok ((), v) →
        exec (.acq d a) s = .next v ∧ exec (.tryacq d a) s = .next v) ∧
      (u.barrierWaits loc l = true → touchM tr { u with dev := u.dev.updClasp loc (·.count 2) } = .ok ((), v) →
        exec (.tryacq d a) s = .next (v.advanceValue d 0)) ∧
      (s.st.unread = false → (arriveBarrier tr l).run u = .ok ((), v) → exec (.rel a) s = .next v.advance)) ∧
    (∀ e, u.core.entryFor loc = some e → e.relBy = none → e.waiter = false → u.holds l = true →
      (putClasp tr (u.releasedLine l 1)).run
        { u with core := u.core.updEntry loc fun e => { e with held := false, seen := clRseq l + 1 } } = .ok ((), v) →
      (releaseLock tr va l).run u = .ok (true, v))

/-- R268, R271, R275, R276, R284, R338, R339; log 28. The clasp messages one by one: a request joins the FIFO; a recall reaches
the retaining core, which from then on retains the clasp no longer, notes a waiter while it holds it, and owes write-backs and
signature while it does not; write-backs are performed and acknowledged one at a time, behind what their core sent to that home
before and behind a Shuttle that owns the line; the signature follows; the grant leaves once all of them are in; the refusal drops
what only tried. -/
def Obligations.ClaspMessages : Prop :=  ∀ (clasp : Nat) (s : State),
    let h := s.dev.claspHome clasp
    let put (x : ClaspHome) : State := { s with dev := s.dev.setClasp x }
    let w := s.dueRecall recallSent clasp
    (∀ core try_ c t, s.coreAt core = some c →
      c.strands.find? (fun t => t.waiting && t.run == .running && !(h.fifo.any fun r => r.core == core && r.who == t.slot) &&
        !(c.lazy.any fun e => e.relBy == some t.slot)) = some t →
      exec (.claspRequest clasp core try_) s = .next (put { h with msgs := h.msgs + 1, fifo := h.fifo ++ [⟨core, t.slot, try_⟩] })) ∧
    (∀ f r, h.wbs = f :: r → s.owned (f.copy.loc * 128) = false → s.dev.behindBack f = false → exec (.writeBack clasp) s =
      .next { s with dev := (s.dev.farBack f.copy).updClasp clasp fun h => { h with wbs := r, acks := h.acks + 1 } }) ∧
    (∀ f r, h.wbs = f :: r → (s.owned (f.copy.loc * 128) = true ∨ s.dev.behindBack f = true) → exec (.writeBack clasp) s = .next s) ∧
    (h.wbs = [] → exec (.writeBack clasp) s = .next s) ∧
    exec (.acknowledge clasp) s = .next (put { h with acks := h.acks - 1 }) ∧
    ((w.dev.claspHome clasp).recalled = true → w.dev.releaserOf clasp < 65536 → ∀ c e, w.coreAt (w.dev.releaserOf clasp) = some c → c.entryFor clasp = some e → e.due = false →
      exec (.signature clasp) s = .next
        (({ w with dev := w.dev.updClasp clasp fun h => { h with msgs := h.msgs + 1, recalled := false, sig := some e.sigma } } : State).onCoreAt
          (w.dev.releaserOf clasp) fun d c => (d, c.updEntry clasp .sent))) ∧
    ((w.dev.claspHome clasp).recalled = false → exec (.signature clasp) s = .next w) ∧
    (∀ r q, h.fifo = r :: q → s.dev.grantable clasp = true →
      (r.core < 65536 → exec (.grant clasp) s = .next (put { h with granted := true })) ∧
      (65536 ≤ r.core → exec (.grant clasp) s = .next { s with dev := s.dev.grantAway clasp r.core } ∧
        ((s.dev.grantAway clasp r.core).claspHome clasp).retainer = some r.core ∧ ((s.dev.grantAway clasp r.core).claspHome clasp).fifo = q)) ∧
    (s.dev.grantable clasp = false → exec (.grant clasp) s = .next s) ∧
    (h.fifo ≠ [] → h.retainer = some s.core.num → ∀ e, s.wholeCore.entryFor clasp = some e →
      let t := s.recall clasp
      exec (.recallClasp clasp) s = .next (t.dueRecall recallSent clasp) ∧
      (e.held = true → t.core.lazy = (s.core.lazy.map fun x => if x.clasp = clasp then { x with waiter := true, retained := false } else x) ∧
        t.dev = s.dev.updClasp clasp fun h => { h with retainer := none }) ∧
      (e.held = false → t.core.lazy = (s.core.lazy.map fun x =>
          if x.clasp = clasp then { x with retained := false, waiter := false, due := true } else x) ∧
        t.dev = s.dev.updClasp clasp fun h => { h with msgs := h.msgs + 1, retainer := none, recalled := true })) ∧
    (h.fifo = [] → exec (.recallClasp clasp) s = .next s) ∧
    (s.dev.grantable clasp = false → ∃ t, exec (.refusal clasp) s = .next t ∧ (t.dev.claspHome clasp).fifo = h.fifo.filter (fun r => !r.try_) ∧
      t.core = s.core ∧ t.st = s.st ∧ t.dev.mem = s.dev.mem)

/-- R189, R190, R286 to R289, R292 to R298. A launch from its submission to its end: `lnr.sub` judges the record by the four tests
of R287 in their order and answers its status, its refit and the launch's number; a walker hands out its pick; a gang starts for a
tuple; `ovl` ends the CC's program once the harts and the named units are done; the gang ends, its record written; the launch
completes, after the records of its gangs that were lost in containers. -/
def Obligations.LaunchesRunThrough : Prop :=  ∀ (d a : BitVec 5) (s u v : State),
    ((s.x a).toNat % 128 ≠ 0 → exec (.lnrSub d a) s = .next (s.takeTrap 0x0E 0 (s.x a) 0)) ∧
    ((s.x a).toNat % 128 = 0 → s.fenceWaits 3 true true = true → exec (.lnrSub d a) s = .next s.await) ∧
    (∀ x, (s.x a).toNat % 128 = 0 → s.fenceWaits 3 true true = false → (readRecord (s.x a) 128).run (s.fenceFar 3 true true) = .ok (x, u) →
      let r := BitVec.ofNat 1024 x
      let ctx := s.submitCtx
      let p := s.dev.partOfCtx ctx
      let j := s.dev.judge r (!s.atResident) (if s.dev.ctxLive ctx then s.dev.part p else none)
      (2 ≤ j.1 → exec (.lnrSub d a) s = .next (u.setX d (.ofNat 64 (j.1 * 2 ^ 56))).advance) ∧
      (∀ w n, j.1 < 2 → (mapWrites (s.dev.viaCtx ctx) (pagesIn (lnrStatus r) (64 + 32 * 2 ^ lnrF r 754 4))).run u = .ok ((), w) →
        (submit ctx p j.2 r).run w = .ok (n, v) →
        exec (.lnrSub d a) s = .next (v.setX d (.ofNat 64 (j.1 * 2 ^ 56 + j.2 * 2 ^ 32 + n))).advance)) ∧
    (∀ (r : BitVec 1024) (user : Bool) (q : Part),
      let f (lo n : Nat) : Nat := (r.extractLsb' lo n).toNat
      let invalid : Bool := r.extractLsb' 758 266 != 0 || r.getLsbD 719 || r.extractLsb' 694 2 != 0 || f 720 3 == 0 || decide (6 < f 720 3) ||
        decide (2 ^ 32 - 1 < ((List.range (f 720 3)).map fun k => f (320 + 32 * k) 32).foldl (· * ·) 1) || r.extractLsb' 0 64 == 0 ||
        f 0 64 % 4 != 0 || f 64 64 % 4 != 0 || f 128 64 % 4 != 0 || f 192 64 % 4 != 0 || f 256 64 % 64 != 0 ||
        (user && r.getLsbD 715) || (r.getLsbD 712 && !(decide (f 696 16 < 288) && q.qmask.getLsbD (f 696 16 / 12)))
      let away : Prop := (∃ d c, d < 6 ∧ c < 48 ∧ r.getLsbD (688 + d) = true ∧ r.getLsbD (640 + c) = true ∧
          q.qmask.getLsbD ((48 * d + c) / 12) = false) ∨
        ∀ d c, d < 6 → c < 48 → r.getLsbD (688 + d) = true → r.getLsbD (640 + c) = true → s.dev.cfg (3488 + (48 * d + c)) = false
      let need := f 736 13 + 2 + 32 * f 749 5
      let fits (k : Nat) : Prop := k ≤ 3 ∧ 512 * f 728 8 ≤ s.dev.lreg (s.dev.coreSet r) (2 ^ k)
      let full (x : Nat × Nat) : Nat × Nat := if 256 ≤ q.launches.length then (5, 0) else x
      s.dev.judge r user none = (3, 0) ∧
      (invalid = true → s.dev.judge r user (some q) = (3, 0)) ∧
      (invalid = false → away → s.dev.judge r user (some q) = (4, 0)) ∧
      (invalid = false → ¬away → (4096 < need ∨ 16 < f 749 5) → s.dev.judge r user (some q) = (2, 0)) ∧
      (invalid = false → ¬away → need ≤ 4096 → f 749 5 ≤ 16 →
        (fits (f 725 3) → s.dev.judge r user (some q) = full (0, f 725 3)) ∧
        (¬fits (f 725 3) → r.getLsbD 714 = false → s.dev.judge r user (some q) = (2, 0)) ∧
        (¬fits (f 725 3) → r.getLsbD 714 = true →
          (∀ k, k < f 725 3 → fits k → (∀ j, k < j → j < f 725 3 → ¬fits j) → s.dev.judge r user (some q) = full (1, k)) ∧
          ((∀ k, k < f 725 3 → ¬fits k) → s.dev.judge r user (some q) = (2, 0))))) ∧
    (∀ die p l c, s.walkerPick die = some (p, l, c) → exec (.walkerAssign die) s = .next (s.handOut die p l c)) ∧
    (∀ die l c, s.walkerPick die = none → s.stopWanted die = some (l, c) → exec (.walkerAssign die) s = .next (s.updCoreAt c (Core.askStop l))) ∧
    (∀ w l x, s.core.assigned = some w → w.saved = none → s.core.gang = none → s.core.resident = false → s.core.halted = false →
      s.core.pwr.toNat < 2 → s.dev.launch w.part w.launch = some l → s.dev.ctx l.ctx = some x → x.dead = false → l.state < 3 →
      s.backWaits (fun f => !s.core.inLazy f) = false →
      let f := s.ungated.fenceFar 3 true true
      let t := f.onCore fun d c => ({ d with starts := d.starts + 1 }, c.startGang x l w f.dev.starts)
      exec .gangStart s = .next (if l.state = 1 then t.reportLaunch w.part w.launch fun l => { l with state := 2 } else t)) ∧
    (∀ g, s.core.gang = some g → s.core.handler = none → (s.x a).toNat < 64 → s.core.hartsOver = true →
      (∀ k, k < 6 → (s.x a).getLsbD k = true → s.core.namedIdle k = true) → s.atResident = false →
      exec (.ovl a) s = .next { s with st := s.st.ended, core := { s.core with gang := some { g with left := true, swap := true } } }) ∧
    ((s.core.handler.isSome = true ∨ 64 ≤ (s.x a).toNat) → exec (.ovl a) s = .next (s.takeTrap 0x11 5 0 0)) ∧
    (∀ g, s.core.gang = some g → s.gangOver = true →
      let f := s.flushFar (fun x => !s.core.inLazy x) false
      let t := f.onCore fun d c => (d.withdraw c.num fun _ => true,
        { (c.passUnits s.inherits).noGang with inherit := if s.inherits then some g.ctx else none })
      exec .gangEnd s = .next (t.reportEnd t.core.num g (f.wholeCore.discards s.inherits))) ∧
    (∀ part launch q l, s.dev.part part = some q → s.dev.launch part launch = some l → s.launchOver part q l = true →
      let t := (s.reportLost l).reportLaunch part launch fun y => { y with state := l.final q }
      let t : State := { t with dev := t.dev.updPart part fun x =>
        { x with launches := x.launches.filter (·.id != launch), finished := ((launch, l.final q) :: x.finished).take 4096 } }
      exec (.launchComplete part launch) s = .next (if l.lnr.getLsbD 712 then
        t.updCoreAt (lnrF l.lnr 696 16) fun c => { c with evHeld := c.evHeld ++ [t.launchEvent l (l.final q)] } else t))

/-- R24, R59, R257, R300 to R305. The CC's own commands: a block enters a queue and X[D] takes the queue's length; knots count up
and down; the Bobbin takes a nest and starts it; records are sent, taken and looked at; an entry of the format table or of the
Pricking table is exchanged. -/
def Obligations.CommandsOfTheCc : Prop :=  ∀ (d a b : BitVec 5) (s u v w : State),
    let wait : State := s.await
    let n := if a = 0 then 1 else (s.x a).toNat
    (∀ (h : (s.x b).toNat < 4) x xl no, (s.x a).toNat % 64 = 0 → (readRecord (s.x a) 64).run s = .ok (x, u) →
      let blk := resolveBlock (.ofNat 512 x) s.st.round
      let old := s.core.cmdq[(s.x b).toNat]'h
      blockBad blk 3 = false → (blockReq blk s.st.round).op ≠ 1 → checkCopy s.fmt (blockReq blk s.st.round) 0 = none →
      ((planCopy (blockReq blk s.st.round) 0 s.core.shSeed).mapPages s.via).run u = .ok (xl, v) →
      (64 ≤ old.length → exec (.cqPush d a b) s = .next wait) ∧
      (old.length < 64 → blk.getLsbD 207 = false → openBatch.run v = .ok (no, w) →
        let held : List CmdBlock := old ++ [⟨0, blk, 0, s.via.key, s.core.launchId, no, s.st.wordPc, xl⟩]
        exec (.cqPush d a b) s = .next (({ w with core := { w.core with cmdq := w.core.cmdq.set (s.x b).toNat held h } } : State).setX d
          (.ofNat 64 (old.length + 1))).advance)) ∧
    (4 ≤ (s.x b).toNat → (s.x a).toNat % 64 = 0 → exec (.cqPush d a b) s = .next (s.takeTrap 0x11 1 0 0)) ∧
    (∀ k : BitVec 5, 1 ≤ n → n ≤ 65535 →
      let c := (s.core.knots[k.toNat]'(k.isLt)).toNat
      (n ≤ c → exec (.knWait k a) s = .next ({ s with core := { s.core with knots := s.core.knots.set k.toNat (.ofNat 16 (c - n)) k.isLt } } : State).advance) ∧
      (c < n → exec (.knWait k a) s = .next wait) ∧
      exec (.knSig k a) s = .next ({ s with core := { s.core with
        knots := s.core.knots.set k.toNat (.ofNat 16 (Nat.min 65535 (c + n))) k.isLt } } : State).advance) ∧
    (∀ k : BitVec 5, (n = 0 ∨ 65535 < n) → exec (.knWait k a) s = .next (s.takeTrap 0x11 2 0 0) ∧ exec (.knSig k a) s = .next (s.takeTrap 0x11 2 0 0)) ∧
    (∀ lo hi, (s.x a).toNat % 256 = 0 → (readRecord (s.x a) 128).run s = .ok (lo, u) → (readRecord (s.x a + 128) 128).run u = .ok (hi, v) →
      nestBad (.ofNat 2048 (lo + 2 ^ 1024 * hi)) = false → s.core.bobbin.run = none →
      exec (.bobLd a) s = .next ({ v with core := { v.core with bobbin := { v.core.bobbin with nest := some (.ofNat 2048 (lo + 2 ^ 1024 * hi)) } } } : State).advance) ∧
    (s.core.bobbin.nest.isSome = true → s.core.bobbin.run = none →
      let no := s.core.bobbin.nestNo + 1
      exec (.bobGo d a b) s = .next (({ s with core := { s.core with
        batches := s.core.batches ++ [⟨17, no, false, none, 0, 0, 0, 0, none, s.core.launchId, s.via.key⟩]
        bobbin := { s.core.bobbin with run := some (s.x a, s.x b, s.st.round), at_ := 0, nestNo := no, parked := none, pc := s.st.wordPc,
                                       ctx := s.via.key, launch := s.core.launchId } } } : State).setX d (no.setWidth 64)).advance) ∧
    (s.core.bobbin.nest = none → exec (.bobGo d a b) s = .next (s.takeTrap 0x11 4 0 0)) ∧
    (∀ t : BitVec 5, (s.st.kind = .cc → s.core.engHolds 1 = false) → (s.x t).extractLsb' 24 8 = 0 → (s.x t).extractLsb' 16 8 = s.dev.num →
      let c := ((s.x t).extractLsb' 0 16).toNat
      (s.dev.part (s.dev.partOfCtx s.core.ctxId)).any (·.hasCore c) = true → s.dev.coreOn c = true →
      (∀ k, s.coreAt c = some k → k.gang.isSome = true → k.ctxId = s.core.ctxId → k.evq.length < 256 →
        let y := s.updCoreAt c fun k => k.enqueueEv (s.remote ((s.x t).extractLsb' 32 32) (s.x a) (s.x b))
        exec (.renq t a b) s = .next ({ y with core := { y.core with renqNo := y.core.renqNo + 1 } } : State).advance) ∧
      (∀ k, s.coreAt c = some k → (k.gang = none ∨ k.ctxId ≠ s.core.ctxId ∨ 256 ≤ k.evq.length) → exec (.renq t a b) s = .next wait)) ∧
    (∀ e r, s.core.evq = e :: r →
      ((s.st.kind = .cc → s.core.engHolds 2 = false) →
        exec (.evqPop d) s = .next ({ (s.setEvent d e.bits) with core := { s.core with evq := r } } : State).advance) ∧
      exec (.evqPeek d) s = .next (s.setEvent d e.bits).advance) ∧
    (s.core.evq = [] → exec (.evqPop d) s = .next wait ∧ exec (.evqPeek d) s = .next (s.setEvent d 0).advance) ∧
    (∀ k : BitVec 4, let old := s.core.ft[k.toNat]'(k.isLt)
      (a = 0 → exec (.ftWr d a k) s = .next (s.setX d (old.setWidth 64)).advance) ∧
      (a ≠ 0 → (s.x a).toNat < 2 ^ 32 → legalEntry ((s.x a).extractLsb' 0 32) = true → ∃ t : State,
        exec (.ftWr d a k) s = .next (t.setX d (old.setWidth 64)).advance ∧ t.st = s.st ∧
        t.core = { s.core with ft := s.core.ft.set k.toNat ((s.x a).extractLsb' 0 32) k.isLt } ∧
        (∀ c, s.dev.ctx s.core.ctxId = some c → t.dev.ctx s.core.ctxId = some { c with ft := c.ft.set k.toNat ((s.x a).extractLsb' 0 32) k.isLt })) ∧
      (a ≠ 0 → (2 ^ 32 ≤ (s.x a).toNat ∨ legalEntry ((s.x a).extractLsb' 0 32) = false) → exec (.ftWr d a k) s = .next (s.takeTrap 0x07 0 0 0))) ∧
    (∀ h : (s.x b).toNat < 256, let old := s.core.pk[(s.x b).toNat]'h
      (a = 0 → exec (.pkWr d a b) s = .next (s.setX d (old.setWidth 64)).advance) ∧
      (a ≠ 0 → s.core.pkLegal (s.x a) = true → ∃ t : State, exec (.pkWr d a b) s = .next (t.setX d (old.setWidth 64)).advance ∧ t.st = s.st ∧
        t.core = { s.core with pk := s.core.pk.set (s.x b).toNat ((s.x a).extractLsb' 0 8) h }) ∧
      (a ≠ 0 → s.core.pkLegal (s.x a) = false → exec (.pkWr d a b) s = .next (s.takeTrap 0x07 0 0 0)))

/-- R88, R199, R322; log 22. The resident level: a resident instruction at user level is PRIVILEGED; entry saves the word the CC
would issue next in `sr.epc` and what it was doing in `sr.estat`, EV the lowest pending event's bit number (log 22), and goes on
at `sr.rvec`; `eret` returns to `sr.epc`; `wfi` waits for an enabled event; and a hart's trap diverts a running CC to the trap
vector, its resume address in frame 0. -/
def Obligations.ResidentLevel : Prop :=  ∀ (s : State),
    (∀ i, isResident i = true → s.st.kind = .cc → s.core.resident = false → exec i s = .next (s.takeTrap 0x02 0 0 0)) ∧
    (s.st.kind = .cc → s.core.resident = true → exec .eret s = .next s.residentExit ∧
      (s.core.rpend &&& s.core.renab.extractLsb' 0 4 ≠ 0 → exec .wfi s = .next s.advance) ∧
      (s.core.rpend &&& s.core.renab.extractLsb' 0 4 = 0 → exec .wfi s = .next s.await) ∧
      (∀ g, s.core.gang = some g → g.left = false → s.core.parkedCc = none →
        s.residentExit.st.pc = s.core.epc &&& ~~~3 ∧ s.residentExit.st.run = .running ∧ s.residentExit.core.resident = false ∧
        s.residentExit.core.handler.isSome = s.core.estat.getLsbD 1 ∧ s.residentExit.st.xr = s.st.xr ∧ s.residentExit.dev = s.dev)) ∧
    (s.st.kind = .cc → s.st.slot = 0 → (∀ t ∈ s.core.strands, t.slot ≠ 0) → s.core.resident = false → s.st.deco = none → s.st.arrived = none →
      s.core.rpend &&& s.core.renab.extractLsb' 0 4 ≠ 0 →
      ∃ t, exec .residentEntry s = .next t ∧ t.core.resident = true ∧ t.st.pc = s.core.rvec ∧ t.st.run = .running ∧ t.core.epc = s.st.wordPc ∧
        t.st.loops = [] ∧ t.core.userLoops = (s.st.loops, s.st.sp) ∧ t.st.xr = s.st.xr ∧ t.dev.mem = s.dev.mem ∧ t.core.spad = s.core.spad ∧
        t.core.estat.getLsbD 0 = s.core.gang.isNone ∧ t.core.estat.getLsbD 1 = s.core.handler.isSome ∧
        (∀ k, k < 4 → (s.core.rpend &&& s.core.renab.extractLsb' 0 4).getLsbD k = true →
          (∀ j, j < k → (s.core.rpend &&& s.core.renab.extractLsb' 0 4).getLsbD j = false) → t.core.estat.toNat / 256 = k)) ∧
    (∀ g, s.core.gang = some g → s.st.slot = 0 → (∀ t ∈ s.core.strands, t.slot ≠ 0) → s.core.resident = false → s.core.handler = none →
      s.st.run = .running → s.st.deco = none → s.st.arrived = none → (∃ t ∈ s.core.strands, t.run = .trapped) →
      ∃ t, exec .trapDiversion s = .next t ∧ t.st.pc = g.tvec ∧ t.st.loops = [] ∧ t.core.handler = some ⟨s.st.loops, s.st.sp⟩ ∧
        (s.core.spad.wf = true → t.core.spad.readN (4194304 - 2048 + 8) 8 = s.st.pc.toNat ∧ t.core.spad.byte (4194304 - 2048 + 16) = 4) ∧
        t.st.xr = s.st.xr ∧ t.dev.mem = s.dev.mem)

/-- R312 to R314, R317 to R319, R333, R372; log 90. `tlbi`, at the resident level, discards the translations it names, after
write-backs that wait for a Shuttle, and, asked to, waits for commands that hold them, discarding again at each try (log 90);
`rpl` answers a live handle of the partition, or 1 for a dead one; `mig.dirty` reads the dirty bits of 64 pages and, with X[B]
even, clears them (where no host holds lines); the oldest held record of a partition enters its buffer and FAULT is raised, where
the buffer has room and its page is not turning. -/
def Obligations.TranslationsAndFaultRecords : Prop :=  ∀ (d a b : BitVec 5) (s : State), s.st.kind = .cc → s.core.resident = true →
    let hit := s.tlbiHits (s.x a) (s.x b)
    let t := (s.fenceFar 3 false true).discard hit ((s.x b).getLsbD 2)
    let base := (s.x a).toNat / 4194304 * 4194304
    (s.fenceWaits 3 false true = true → exec (.tlbi a b) s = .next s.await) ∧
    (s.fenceWaits 3 false true = false → ((s.x b).getLsbD 2 = false ∨ (∀ c ∈ t.allCores, c.holdsAny hit = false)) →
      exec (.tlbi a b) s = .next t.advance) ∧
    (s.fenceWaits 3 false true = false → (s.x b).getLsbD 2 = true → (∃ c ∈ t.allCores, c.holdsAny hit = true) →
      exec (.tlbi a b) s = .next t.await) ∧
    (∀ x ∈ t.dev.tlb, hit x = false) ∧
    ((∀ h ∈ s.dev.handles, ¬(h.part = s.dev.partOfCore s.core.num ∧ h.num = ((s.x a).extractLsb' 0 32).toNat)) →
      exec (.rpl d a b) s = .next (s.setX d 1).advance) ∧
    (∀ h, s.dev.handles.find? (fun h => h.part == s.dev.partOfCore s.core.num && h.num == ((s.x a).extractLsb' 0 32).toNat) = some h →
      exec (.rpl d a b) s = .next ((s.answer h ((s.x b).extractLsb' 0 2).toNat).setX d 0).advance) ∧
    (∃ (u : State) (v : Word), exec (.migDirty d a b) s = .next (u.setX d v).advance ∧ u.st = s.st ∧ u.core = s.core ∧
      (∀ i, i < 64 → v.getLsbD i = (s.dev.rmLook (base + 65536 * i)).any rmDirty) ∧ ((s.x b).getLsbD 0 = true → u = s) ∧
      ((s.x b).getLsbD 0 = false → s.dev.mem.wf = true → s.dev.hostLines = [] →
        ∀ i, i < 64 → (u.dev.rmLook (base + 65536 * i)).any rmDirty = false)) ∧
    (∀ part p r rest, s.dev.part part = some p → p.held = r :: rest → p.roomy = true →
      let place := p.fbase.toNat / 4096 * 4096 + 64 * (p.fhead.toNat % 2 ^ (p.fbase.toNat % 32))
      let dv := s.dev.putRecord place 4 (r.bits (p.fhead + 1)).toNat
      (s.dev.turningAt place = true → exec (.faultRecordWrite part) s = .next s) ∧
      (s.dev.turningAt place = false → exec (.faultRecordWrite part) s = .next (({ s with dev := dv.updPart part fun p => { p with held := rest, fhead := p.fhead + 1 } } : State).updCoreAt
        p.fsvc.toNat fun c => { c with rpend := c.rpend ||| 1 }))) ∧
    (∀ part p, s.dev.part part = some p → (p.held = [] ∨ p.roomy = false) → exec (.faultRecordWrite part) s = .next s)

/-- R274, R325 to R330, R372, R390; logs 11, 93, 94. `ctx.save` stops the core's gang, writes its container and answers its
length, 0 with no gang and all ones for a misuse; `ctx.load` answers the first status of R327 that holds (logs 93, 94 say what a
malformed directory is and in what order the statuses are judged) and, when it is 0, makes the container's gang the core's: the
one saved or, from another device or with a field narrower than the reader's, the one its bytes stand for (log 11); a requeued
container is restored by its walker, its MAGIC then 0. All wait for write-backs that a Shuttle holds up, and for a page of the
container that turns. -/
def Obligations.GangsAreSavedAndRestored : Prop :=  ∀ (d a b : BitVec 5) (s : State),
    (s.st.kind = .cc → s.core.resident = true →
      ((s.x a).toNat % 4096 ≠ 0 ∨ 2 ≤ (s.x b).toNat → exec (.ctxSave d a b) s = .next (s.setX d (BitVec.allOnes 64)).advance) ∧
      ((s.x a).toNat % 4096 = 0 → (s.x b).toNat < 2 → s.core.gang = none → exec (.ctxSave d a b) s = .next (s.setX d 0).advance) ∧
      (∀ g, (s.x a).toNat % 4096 = 0 → (s.x b).toNat < 2 → s.core.gang = some g →
        (s.backWaits (fun _ => true) = true ∨ s.dev.turnsIn (s.x a).toNat (contLayout g.h).2 = true) → exec (.ctxSave d a b) s = .next s.await) ∧
      (∀ g, (s.x a).toNat % 4096 = 0 → (s.x b).toNat < 2 → s.core.gang = some g →
        s.backWaits (fun _ => true) = false → s.dev.turnsIn (s.x a).toNat (contLayout g.h).2 = false → ∃ (t : State) (x : SavedGang), exec (.ctxSave d a b) s = .next (t.setX d (.ofNat 64 (contLayout g.h).2)).advance ∧ x ∈ t.dev.saved ∧
          x.ctx = g.ctx ∧ x.launch = g.launch ∧ x.iter = g.iter ∧ x.core = s.core.num ∧ x.out = false ∧
          x.at_ = (if (s.x b).getLsbD 0 = true then some (s.x a) else none)) ∧
      (let n := (s.x a).toNat
       let head := s.dev.contAt n
       let es := s.dev.contDir n 0 (head.extractLsb' 224 32).toNat
       let lgh := (head.extractLsb' 288 3).toNat
       let format : Prop := head.extractLsb' 0 32 ≠ 0x4C584333 ∨ head.extractLsb' 216 8 ≠ 3 ∨
         dirOk (head.extractLsb' 224 32).toNat (head.extractLsb' 448 64).toNat es = false
       let revision : Prop := s.dev.revisionOk n (head.extractLsb' 208 16).toNat (2 ^ lgh) es = false
       let geometry : Prop := 3 < lgh ∨ (head.extractLsb' 304 16).toNat ≠ (if s.core.laneHalf = true then 48 else 96) / 2 ^ lgh * 128 ∨
         (head.extractLsb' 296 8).toNat ≠ s.core.lanes ∨ 4194304 < (head.extractLsb' 256 32).toNat
       let busy : Prop := s.core.gang.isSome = true
       let context : Prop := s.dev.ctxLive (head.extractLsb' 416 32).toNat = false
       let len := (head.extractLsb' 448 64).toNat
       (s.dev.turnsIn n 64 = true → exec (.ctxLoad d a) s = .next s.await) ∧
       (s.dev.turnsIn n 64 = false →
         (format → exec (.ctxLoad d a) s = .next (s.setX d 1).advance) ∧
         (¬format → revision → exec (.ctxLoad d a) s = .next (s.setX d 2).advance) ∧
         (¬format → ¬revision → geometry → exec (.ctxLoad d a) s = .next (s.setX d 3).advance) ∧
         (¬format → ¬revision → ¬geometry → busy → exec (.ctxLoad d a) s = .next (s.setX d 4).advance) ∧
         (¬format → ¬revision → ¬geometry → ¬busy → context → exec (.ctxLoad d a) s = .next (s.setX d 5).advance) ∧
         (¬format → ¬revision → ¬geometry → ¬busy → ¬context →
           (s.dev.turnsIn n len = true ∨ s.backWaits (fun f => !s.core.inLazy f) = true → exec (.ctxLoad d a) s = .next s.await) ∧
           (s.dev.turnsIn n len = false → s.backWaits (fun f => !s.core.inLazy f) = false →
             exec (.ctxLoad d a) s = .next ((((s.restore (s.container n) (contHas (2 ^ lgh) es)).backToResident s.st.pc).setX d 0).advance)))) ∧
       (∀ g, s.dev.savedOf n head = some g → contFull (2 ^ lgh) es = true → s.container n = g)) ∧
      (∀ n rev h (es : List (BitVec 128)), rev ≤ 0x0300 → (s.dev.revisionOk n rev h es = true ↔
        ∀ f ∈ [0x01, 0x04, 0x05, 0x0A, 0x0B, 0x0D], ∃ e ∈ es, dirFid e = f ∧ contWidth f h ≤ dirWid e))) ∧
    (∀ w at_ g, s.core.assigned = some w → w.saved = some at_ → s.core.gang = none → s.core.resident = false → s.core.halted = false →
      s.core.pwr.toNat < 2 → s.dev.saved.find? (fun g => g.at_ == some at_ && g.launch == w.launch) = some g →
      s.backWaits (fun f => !s.core.inLazy f) = false → s.dev.turningAt at_.toNat = false →
      exec .requeueRestore s = .next { (s.ungated.restore g fun _ => true) with dev := (s.ungated.restore g fun _ => true).dev.putRaw at_.toNat 4 0 }) ∧
    (∀ w, s.core.assigned = some w → w.saved = none → exec .requeueRestore s = .next s)

/-- R322, R323, R350, R352, R362, R370, R385, R389, R393, Tables 17.8, 18.6, 19.1, 20.2; logs 20, 103, 104. `sysrp` and `sysw` of
the resident level: what each register reads, what a write stores, and the writes that act: the same writes as steps of the debug
port; and the temperature's event. -/
def Obligations.ResidentRegisters : Prop :=  ∀ (d a : BitVec 5) (v : Word) (s : State),
    (s.st.kind = .cc → s.core.resident = true → ∀ n, exec (.sysrp d n) s = .next (s.setX d (s.readRes n)).advance ∧
      exec (.syswp a n) s = .next (s.writeRes n (s.x a)).advance) ∧
    (∀ n : BitVec 12, exec (.registerWrite n v) s = .next (if n.toNat < 0x100 then (s.writeSr n v).getD s else s.writeRes n v)) ∧
    (s.readRes 0x100 = s.core.rvec ∧ s.readRes 0x101 = s.core.epc ∧ s.readRes 0x102 = s.core.estat ∧ s.readRes 0x103 = s.core.rpend.setWidth 64 ∧
      s.readRes 0x104 = s.core.renab ∧ s.readRes 0x107 = s.core.rroot ∧ s.readRes 0x140 = s.dev.cotab ∧ s.readRes 0x150 = s.core.temp.setWidth 64 ∧
      s.readRes 0x151 = s.core.ttrip.setWidth 64 ∧ s.readRes 0x160 = s.dev.rmbase ∧ s.readRes 0x170 = s.dev.stage.setWidth 64 ∧
      s.readRes 0x172 = s.dev.heatcfg ∧ s.readRes 0x190 = s.dev.ptab ∧ s.readRes 0x192 = s.core.pwr.setWidth 64 ∧
      (∀ k : BitVec 6, s.readRes (0x200 + k.setWidth 12) = s.dev.config.extractLsb' (64 * k.toNat) 64)) ∧
    (s.writeRes 0x100 v = { s with core := { s.core with rvec := v &&& ~~~3 } } ∧ s.writeRes 0x101 v = { s with core := { s.core with epc := v } } ∧
      s.writeRes 0x104 v = { s with core := { s.core with renab := v &&& 0xF } } ∧ s.writeRes 0x107 v = { s with core := { s.core with rroot := v } } ∧
      s.writeRes 0x105 v = s ∧ s.writeRes 0x111 v = s ∧ s.writeRes 0x150 v = s ∧ (∀ n, 0x200 ≤ n.toNat → s.writeRes n v = s)) ∧
    exec (.srRpend v) s = .next { s with core := { s.core with rpend := s.core.rpend &&& ~~~(v.extractLsb' 0 4) } } ∧
    (s.core.selCtx ≠ 0 → (v = 0 → s.dev.ctxLive s.core.selCtx = true → exec (.srPtroot v) s = .next (s.terminateCtx s.core.selCtx)) ∧
      (v ≠ 0 → s.dev.ctxLive s.core.selCtx = true →
        exec (.srPtroot v) s = .next { s with dev := s.dev.updCtx s.core.selCtx fun x => { x with ptroot := v } }) ∧
      (v ≠ 0 → s.dev.ctxLive s.core.selCtx = false → ∃ t, exec (.srPtroot v) s = .next t ∧ t.dev.ctxLive s.core.selCtx = true ∧
        ∀ c, t.dev.ctx s.core.selCtx = some c → c.ptroot = v ∧ c.part = s.dev.partOfCore s.core.num)) ∧
    exec (.srRing v) s = .next (s.updCoreAt v.toNat fun c => { c with rpend := c.rpend ||| 8 }) ∧
    exec (.srEbw v) s = .next { s with dev := s.dev.updCtx s.core.selCtx fun c => { c with eb := v.extractLsb' 0 32 } } ∧
    (∃ t, exec (.srStage v) s = .next t ∧ t.st = s.st ∧ t.core = s.core ∧ t.dev.staged = [] ∧
      t.dev.stage = (if 12 < (v.extractLsb' 0 4).toNat then 12 else v.extractLsb' 0 4) ∧
      (s.dev.mem.wf = true → ∀ n, (∀ k ∈ [0, 2, 3, 5], ¬((32 + k) * 2 ^ 64 + t.dev.stageBase k ≤ n / 128 * 128 ∧
        n / 128 * 128 < (32 + k) * 2 ^ 64 + s.dev.stageBase k)) → t.dev.mem.byte n = s.dev.mem.byte n)) ∧
    exec (.srWalw v) s = .next { s with dev := s.dev.updPart (s.dev.partOfCore s.core.num) fun p => { p with walw := v, balance := v.toNat } } ∧
    (∀ p : BitVec 3, exec (.srSptop p v) s = .next { s with dev := { s.dev with sptop := setPool s.dev.sptop p.toNat v } }) ∧
    exec (.srPctlHold v) s = .next { s with dev := s.dev.updPart (s.dev.partOfCore s.core.num) fun p => { p with hold := v.getLsbD 0 } } ∧
    exec .srPwrRetention s = .next ({ s with core := { s.core with pwrReq := 2 } } : State).enterPower ∧
    (s.core.gang = none → exec .srPwrOff s = .next ({ s with core := { s.core with pwrReq := 3 } } : State).enterPower) ∧
    (∀ t : BitVec 16, exec (.thermal t) s = .next { s with core := { s.core with temp := t
                                                                                 rpend := if s.core.ttrip ≤ t then s.core.rpend ||| 4 else s.core.rpend } })

/-- R356, R357, R363, R364, R371, R378, R388; logs 105, 107. The layer instructions, once their pages are found: `winst` reserves
blocks and starts an install, or refuses it with a code, and answers its number either way; `recode` and `swp` queue their work
and answer its number; `wstat` and `heat.rd` read, `heat.rd` clearing ACC or HEAT where it is asked to. A `winst` whose acceptance
write had to wait completes once that is written. A misaligned operand traps MISALIGNED; a `recode` of no page or of a reserved
field, a `swp` of a page with itself and a `wstat` of no selector trap LAYER_ARG. -/
def Obligations.LayerInstructions : Prop :=  ∀ (d a b : BitVec 5) (s u : State),
    let va := s.x a
    let vb := s.x b
    let f := s.fenceFar 3 false true
    (va.toNat % 64 ≠ 0 → exec (.winst d a) s = .next (s.takeTrap 0x0E 0 va 0)) ∧
    (va.toNat % 65536 ≠ 0 → exec (.recode d a b) s = .next (s.takeTrap 0x0E 0 va 0) ∧ exec (.swp d a b) s = .next (s.takeTrap 0x0E 0 va 0)) ∧
    let opens := s.fenceWaits 3 false true
    (va.toNat % 64 = 0 → opens = true → exec (.winst d a) s = .next s.await) ∧
    (∀ i, va.toNat % 64 = 0 → opens = false → s.dev.installs.find? (fun i => i.ack.isSome && i.ctx == s.via.key && i.desc == va) = some i →
      (i.ack ≠ some none → exec (.winst d a) s = .next s.await) ∧
      (i.ack = some none → ∃ t : State, exec (.winst d a) s = .next (t.setX d (i.no.setWidth 64)).advance ∧ t.st = s.st ∧ t.core = s.core)) ∧
    (∀ t₁ u₁ dxl u₂ x u₃ ds u₄ ss u₅, va.toNat % 64 = 0 → opens = false → (∀ i ∈ s.dev.installs, i.ack = none) →
      (translate s.via nRmw va).run f = .ok (t₁, u₁) → (pageLeaf s.via nRmw 0 va).run u₁ = .ok (dxl, u₂) → (readRecord va 64).run u₂ = .ok (x, u₃) →
      let w := BitVec.ofNat 512 x
      let dst := w.extractLsb' 448 64
      let src := w.extractLsb' 384 64
      let n := (w.extractLsb' 352 32).toNat
      w.extractLsb' 65 255 = 0 → 1 ≤ n → n ≤ 64 →
      (pagesOver s.via nInstall (fun p => do
        let t ← get
        if t.dev.rmIn p.dpa && rmLayer p.ent == 3 then pure () else p.look nInstall.kind true) (dst.toNat + n * 16777216) (n * 4096 + 16) dst).run u₃
          = .ok (ds, u₄) →
      (pagesOver s.via nEngRead (fun p => p.look nEngRead.kind true) (src.toNat + n * 16777216) (n * 4096 + 16) src).run u₄ = .ok (ss, u₅) →
      (∀ p ∈ ds, s.via.raw = false ∧ ptePcls p.pte = 0) → (∀ p ∈ ss, rmLayer p.ent = 2 ∨ rmLayer p.ent = 4) →
      let p := s.layerPart
      let no := (u₅.dev.part p).elim 1 (·.nextInstall)
      let i : Install := ⟨p, s.via.key, s.core.num, no, va, dxl, w.extractLsb' 320 32, w.getLsbD 64, [], src, ss.flatMap (·.xl), ds.flatMap (·.xl),
        s.st.wordPc, 0, 0, none, [], [], 0, 0, none, false, [], none, none⟩
      let next (q : Part) : Part := { q with nextInstall := nextNumber q.nextInstall }
      (∀ c, u₅.dev.accept p dst src n (ds.map (·.ent)) = .error c →
        (recordWrite false s.via va (installWord c 0 0 no)).run { u₅ with dev := u₅.dev.updPart p next } = .ok ((), u) →
        exec (.winst d a) s = .next ((u.installEvent i c).setX d (no.setWidth 64)).advance) ∧
      (∀ bs rs dv, u₅.dev.accept p dst src n (ds.map (·.ent)) = .ok (bs, rs, dv) →
        (recordWrite false s.via va (installWord 0xFF 0 0 no)).run { u₅ with dev :=
          { dv.updPart p next with installs := dv.installs ++ [{ i with blocks := bs, reserved := rs }] } } = .ok ((), u) →
        exec (.winst d a) s = .next (u.setX d (no.setWidth 64)).advance)) ∧
    (∀ ps, va.toNat % 65536 = 0 → opens = false →
      let w := vb
      let n := (w.extractLsb' 16 16).toNat
      (pagesOver s.via nPerm (fun p => p.look nPerm.kind true) (va.toNat + 65536 * n) (16 * n) va).run f = .ok (ps, u) →
      (n = 0 ∨ w.extractLsb' 9 7 ≠ 0 ∨ w.extractLsb' 7 2 = 3 → exec (.recode d a b) s = .next (s.takeTrap 0x14 1 0 0)) ∧
      (n ≠ 0 → w.extractLsb' 9 7 = 0 → w.extractLsb' 7 2 ≠ 3 → (∀ p ∈ ps, s.via.raw = true ∨ ptePcls p.pte ≠ 0) →
        let no := (s.dev.part s.layerPart).elim 1 (·.nextRecode)
        let r : Recode := ⟨s.layerPart, s.via.key, s.core.num, no, w.extractLsb' 32 32, w.extractLsb' 0 9, s.st.round, va, 512 * n, 0,
          ps.flatMap (·.xl), s.st.wordPc, seedStore no, 0, 0, 0, 0, [], false, none⟩
        let dv := u.dev.updPart s.layerPart fun q => { q with nextRecode := nextNumber q.nextRecode }
        exec (.recode d a b) s = .next (({ u with dev := { dv with recodes := u.dev.recodes ++ [r] } } : State).setX d (no.setWidth 64)).advance)) ∧
    (∀ pa u₁ u₂ pb u₃, va.toNat % 65536 = 0 → vb.toNat % 65536 = 0 → opens = false → (pageAt s.via nPerm 2 va).run f = .ok (pa, u₁) →
      (pa.look nPerm.kind true).run u₁ = .ok ((), u₂) → (pageAt s.via nPerm 2 vb).run u₂ = .ok (pb, u₃) →
      (pb.look nPerm.kind true).run u₃ = .ok ((), u) →
      (rmPage pa.dpa = rmPage pb.dpa → exec (.swp d a b) s = .next (s.takeTrap 0x14 3 va 0)) ∧
      (rmPage pa.dpa ≠ rmPage pb.dpa → ptePcls pa.pte = ptePcls pb.pte → (s.via.raw = true ∨ ptePcls pa.pte ≠ 0) →
        pteCmpr pa.pte = false → pteCmpr pb.pte = false → pteCache pa.pte ≠ 2 → pteCache pb.pte ≠ 2 →
        classAllows (ptePcls pa.pte) (rmLayer pb.ent) = true → classAllows (ptePcls pb.pte) (rmLayer pa.ent) = true →
        u.dev.overQuota pa pb = false →
        let no := (s.dev.part s.layerPart).elim 1 (·.nextSwap)
        let dv := u.dev.updPart s.layerPart fun q => { q with nextSwap := nextNumber q.nextSwap }
        exec (.swp d a b) s = .next (({ u with dev := { dv with swaps := u.dev.swaps ++ [⟨s.layerPart, s.core.num, s.via.key, no,
          .ofNat 64 (pa.dpa / 65536 * 65536), .ofNat 64 (pb.dpa / 65536 * 65536), false⟩] } } : State).setX d (no.setWidth 64)).advance)) ∧
    (∀ q, s.dev.part s.layerPart = some q →
      (vb = 0 → exec (.wstat d a b) s = .next (s.setX d (.ofNat 64 q.balance)).advance) ∧
      (vb = 1 → exec (.wstat d a b) s = .next (s.setX d q.walw).advance) ∧
      (vb = 4 → exec (.wstat d a b) s = .next (s.setX d (.ofNat 64 (s.dev.installs.filter (·.part == s.layerPart)).length)).advance) ∧
      (vb = 5 → exec (.wstat d a b) s = .next (s.setX d (.ofNat 64 (s.dev.rollTag.toNat * 2 ^ 32 + s.dev.rollbacks % 2 ^ 32))).advance) ∧
      (6 ≤ vb.toNat → exec (.wstat d a b) s = .next (s.takeTrap 0x14 4 0 0))) ∧
    (∀ p u₁, (pageAt s.via nLoad 4 va).run s = .ok (p, u₁) → (p.look nLoad.kind true).run u₁ = .ok ((), u) → vb = 2 ∨ vb = 3 →
      let loc := rmLoc p.ent + va.toNat % 65536
      let blk := flashBlock (rmSite p.ent) loc
      let f := s.dev.stackOf blk.1
      (rmLayer p.ent ≠ 3 → exec (.wstat d a b) s = .next (s.takeTrap 0x14 4 va 0)) ∧
      (rmLayer p.ent = 3 → vb = 2 →
        exec (.wstat d a b) s = .next (u.setX d (.ofNat 64 (2 ^ 32 * (loc / 16777216) + f.wearOf (f.phys blk.2) % 2 ^ 16))).advance) ∧
      (rmLayer p.ent = 3 → vb = 3 → ∃ least, (∀ q, f.leastWorn = some q → least = f.wearOf q) ∧
        exec (.wstat d a b) s = .next (u.takeFree.2.setX d (.ofNat 64 (2 ^ 48 * (f.retired.length % 2 ^ 16) + 2 ^ 32 * (f.usable.length % 2 ^ 16) +
          2 ^ 16 * (f.wear.foldl (fun n x => Nat.max n x.2) 0 % 2 ^ 16) + least % 2 ^ 16))).advance)) ∧
    (∀ p u₁, (pageAt s.via nLoad 4 va).run s = .ok (p, u₁) → (p.look nLoad.kind false).run u₁ = .ok ((), u) →
      let noAcc := if vb.getLsbD 0 = true then u.dev.rmSet p.dpa 87 1 0 else u.dev
      let cold := if vb.getLsbD 1 = true then noAcc.rmSet p.dpa 88 8 0 else noAcc
      exec (.heatRd d a b) s = .next (({ u with dev := cold } : State).setX d (.ofNat 64 (2 ^ 32 * (rmGenf p.ent).toNat + 2 ^ 24 * (rmTurning p.ent).toNat + 2 ^ 16 * rmSite p.ent
        + 2 ^ 12 * rmLayer p.ent + 2 ^ 8 * (rmAcc p.ent).toNat + rmHeat p.ent))).advance)

/-- R353, R358 to R362, R365, R366, R372, R375, R376, R379, R396; log 106. The layer engines' own steps: a block is programmed and
read back, then shadowed; one that fails its read-back is retired and replaced, and the install fails at the second failure, with
an empty pool or on a POI source line; an install that has ended commits and writes its status; a recode treats a line, and its
last one posts its event; a swap starts to turn its entries and then exchanges their pages; heat is sampled and halves; a flash
line is staged, as POI with its record where flash cannot be read; the allowance ticks; a stack that loses power ends its
uncommitted installs. -/
def Obligations.LayerSteps : Prop :=  ∀ (s u : State) (index : Nat),
    (∀ i k b p j ls, s.dev.installs[index]? = some i → i.blocks[i.at_]? = some (k, b) → s.dev.installTurn index i = true → i.take k = some (p, j) →
      (if j.lines.isEmpty then installLines (s.viaKey j.ctx) j.sxl (j.src + .ofNat 64 (16777216 * j.at_)) 0 131072 else pure j.lines).run s
        = .ok (ls, u) →
      let d₁ := u.dev.updStack k fun f => { f with wear := setD 0 p (f.wearOf p + 1) f.wear }
      let d₂ := d₁.updInstall index fun _ => { j with maxw := Nat.max j.maxw ((d₁.stackOf k).wearOf p), lines := ls }
      let d₃ := ((d₂.program k p ls).updStack k fun f => { f with retired := f.retired ++ [p] }).updInstall index fun i =>
        { i with cur := none, tries := i.tries + 1 }
      ((∃ x ∈ ls, x.2.cls = cPOI) → ∀ ok, exec (.installBlockVerify index ok) s = .next { u with dev := d₂.failInstall index 5 }) ∧
      ((∀ x ∈ ls, x.2.cls ≠ cPOI) →
        exec (.installBlockVerify index true) s = .next { u with dev := (d₂.program k p ls).updInstall index fun i =>
          { i with shadow := i.shadow ++ [((k, b), p)], at_ := i.at_ + 1, cur := none, tries := 0, lines := [] } } ∧
        (∀ q d₄, j.tries ≠ 1 → d₃.takeBlock k = some (q, d₄) → exec (.installBlockVerify index false) s = .next
          { u with dev := d₄.updInstall index fun i => { i with cur := some q, nremap := i.nremap + 1 } }) ∧
        ((j.tries = 1 ∨ d₃.takeBlock k = none) → exec (.installBlockVerify index false) s = .next { u with dev := d₃.failInstall index 5 }))) ∧
    (∀ i c, s.dev.installs[index]? = some i → i.parked = none → i.ack = none → i.fail = some c → (4096 ≤ i.ctx ∨ s.dev.ctxLive i.ctx = true) →
      (i.statusWrite s (installWord c i.nremap i.maxw i.no)).run s = .ok ((), u) →
      let t := u.installEvent { i with committed := false } c
      exec (.installCommit index) s = .next { t with dev := { t.dev with installs := t.dev.installs.eraseIdx index } }) ∧
    (∀ i, s.dev.installs[index]? = some i → i.parked = none → i.ack = none → i.fail = none → i.committed = false → i.at_ = i.blocks.length →
      let c := s.commitBlocks i
      let c : State := { c with dev := c.dev.updInstall index fun i => { i with committed := true } }
      (4096 ≤ i.ctx ∨ c.dev.ctxLive i.ctx = true) →
      (i.statusWrite c (installWord ({ i with committed := true } : Install).code i.nremap i.maxw i.no)).run c = .ok ((), u) →
      let t := u.installEvent { i with committed := true } ({ i with committed := true } : Install).code
      exec (.installCommit index) s = .next { t with dev := { t.dev with installs := t.dev.installs.eraseIdx index } }) ∧
    (∀ r q, s.dev.recodes[index]? = some r → s.dev.recodeTurn index r = true → (recodeStep r).run s = .ok (q, u) →
      let t : State := { u with dev := u.dev.updRecode index fun _ => q }
      let z := t.layerEvent 7 q.core q.ctx q.no q.utag (q.inval % 2 ^ 32 + 2 ^ 32 * (q.recomp % 2 ^ 32)) q.changed q.flags q.faulted.toNat
      exec (.recodeLineStep index) s = .next
        (if q.at_ < q.lines then t else { z with dev := { z.dev with recodes := z.dev.recodes.eraseIdx index } })) ∧
    (∀ w, s.dev.swaps[index]? = some w → (∀ q ∈ s.dev.swaps.take index, ∀ p ∈ [w.a, w.b], q.a ≠ p ∧ q.b ≠ p) →
      (w.turning = false → ∃ t, exec (.turnoverSwap index) s = .next t ∧ t.st = s.st ∧ t.core = s.core ∧
        t.dev.swaps[index]? = some { w with turning := true }) ∧
      (w.turning = true → s.counted (rmPage w.a.toNat) = false → s.counted (rmPage w.b.toNat) = false →
        s.pageWaits (s.dev.locOf (s.dev.rmEnt w.a.toNat) 0) = false → s.pageWaits (s.dev.locOf (s.dev.rmEnt w.b.toNat) 0) = false →
        let t := s.turn w
        exec (.turnoverSwap index) s = .next (({ t with dev := { t.dev with swaps := t.dev.swaps.eraseIdx index } } : State).layerEvent
          8 w.core w.ctx w.no 0 w.b.toNat w.a.toNat 0 0))) ∧
    (∀ dpa : BitVec 64,
      exec (.heatSample dpa) s = .next (s.heatEvent ⟨false, 0, pteRaw, 4, dpa.toNat, 0, true, false⟩) ∧
      (s.dev.heatcfg.getLsbD 16 = true → (s.dev.rmLook dpa.toNat).isSome = true →
        exec (.heatDecay dpa) s = .next { s with dev := s.dev.rmSet dpa.toNat 88 8 (rmHeat (s.dev.rmEnt dpa.toNat) / 2) }) ∧
      (s.dev.heatcfg.getLsbD 16 = false → exec (.heatDecay dpa) s = .next s)) ∧
    (∀ line, 48 ≤ spaceOf (line * 128) → spaceOf (line * 128) < 64 → s.dev.stage ≠ 0 →
      let staged (x : Line × Tag) : State := { s with dev := { s.dev with staged := (line, x) :: s.dev.staged.filter fun y => y.1 != line } }
      let lost : Line × Tag := (0, withCmp 0 (s.dev.mem.tag (line * 128)).toPoi)
      (s.dev.lineBad (line * 128) = false → exec (.stagingFill line false) s = .next (staged (s.dev.stageLine (line * 128)))) ∧
      (s.dev.lineBad (line * 128) = true → s.dev.stageLine (line * 128) = lost) ∧
      (∀ bad, (bad = true ∨ s.dev.lineBad (line * 128) = true) → (∀ y ∈ s.dev.staged, y.1 = line → y.2.2.cls ≠ cPOI) →
        exec (.stagingFill line bad) s = .next ((s.dev.dpaOf (line * 128)).elim (staged lost) fun at_ =>
          (staged lost).linePoisoned at_ (hardRecord s.dev.num 0)))) ∧
    (∀ part, exec (.allowanceTick part) s = .next { s with dev := s.dev.updPart part fun p =>
      { p with balance := if p.balance < p.walw.toNat then p.balance + 1 else p.balance } }) ∧
    (∀ stack, ∃ t : State, exec (.flashPowerLoss stack) s = .next t ∧ t.st = s.st ∧ t.core = s.core ∧ t.dev.mem = s.dev.mem ∧
      t.dev.installs.length = s.dev.installs.length ∧
      ∀ (n : Nat) (i j : Install), s.dev.installs[n]? = some i → t.dev.installs[n]? = some j →
        j.fail = (if i.committed = false ∧ i.fail = none ∧ i.blocks.any (·.1 == stack) = true then some 6 else i.fail))

/-- R252, R334 to R336, R337 to R340, R342 to R344; logs 28, 108, 139. The fabric's messages. A holder's read request takes one
token, its write request all of them, and a blocked one counts a failure, the fourth of one requester turning persistent; a
persistent request enters its arbiter, gathers every token once it is first, and ends with its access; data move the sender's
tokens. A line that a Shuttle owns yields none, and a number that is no holder asks for nothing. A flit whose CRC fails or that is
out of sequence changes nothing, and one for another device only its port; one for this device acts here: its messages are
unpacked, one after another, each with its line and tag, and have the effect of their KIND. Where a host runs, its write of device
memory reaches the line, which becomes RAW, or stays with the host that holds the line; its read makes it a holder; BISnp takes
the line back; its snoop drops a line of its own memory. An outside write of a pool line clears its tag-valid bit. A far copy is
written back, and dropped where asked. -/
def Obligations.FabricMessages : Prop :=  ∀ (s : State) (line holder src dst : Nat) (off : BitVec 7) (v : Word),
    let t := (s.dev.tokens.find? (·.line == line)).getD ⟨line, [(0, 256)], 0, [], []⟩
    let put (x : LineTokens) : State := { s with dev := s.dev.setTokens x }
    let known (h : Nat) : Bool := s.isHolder line h
    (known holder = false → exec (.read line holder) s = .next s ∧ exec (.write line holder) s = .next s ∧ exec (.persistent line holder) s = .next s) ∧
    (known holder = true → s.shuttleOf line = none → t.blocked holder = false →
      (t.of_ holder ≠ 0 → exec (.read line holder) s = .next (put (t.ok holder))) ∧
      (∀ g, t.of_ holder = 0 → t.giver = some g → exec (.read line holder) s = .next (put ((t.ok holder).move g holder 1)) ∧
        (g ≠ holder → (t.counts.map (·.1)).Pairwise (· < ·) → (t.move g holder 1).of_ holder = 1 ∧ (t.move g holder 1).total = t.total)) ∧
      exec (.write line holder) s = .next (put { t.ok holder with counts := [(holder, 256)], owner := holder })) ∧
    (known holder = true → (s.shuttleOf line).isSome = true ∨ t.blocked holder = true →
      exec (.read line holder) s = .next (put (t.fail holder)) ∧ exec (.write line holder) s = .next (put (t.fail holder))) ∧
    (sortedNe 0 t.failed = true → lookupD 0 holder t.failed = 3 →
      lookupD 0 holder (t.fail holder).failed = 0 ∧ holder ∈ (t.fail holder).persist) ∧
    (known holder = true →
      (holder ∉ t.persist → exec (.persistent line holder) s = .next (put { t with persist := t.persist ++ [holder] })) ∧
      (∀ r, t.persist = holder :: r → s.shuttleOf line = none →
        (t.of_ holder ≠ 256 → exec (.persistent line holder) s = .next (put { t with counts := [(holder, 256)], owner := holder })) ∧
        (t.of_ holder = 256 → s.holderWaits holder = false →
          exec (.persistent line holder) s = .next (put (t.ok holder)) ∧ (t.ok holder).persist = r))) ∧
    (src ≠ dst → known src = true → known dst = true →
      (s.shuttleOf line = none → t.blocked dst = false → exec (.data line src dst) s = .next (put { t.move src dst (t.of_ src) with
        owner := if t.owner = src ∧ t.of_ src ≠ 0 then dst else t.owner })) ∧
      ((s.shuttleOf line).isSome = true ∨ t.blocked dst = true → exec (.data line src dst) s = .next s)) ∧
    (∀ port flit, (flitCrc flit ≠ flit.extractLsb' 1984 64 ∨ 12 ≤ port) → exec (.lacingFlit port flit) s = .next s) ∧
    (∀ port flit (h : port < 12), flitCrc flit = flit.extractLsb' 1984 64 →
      (flit.extractLsb' 104 12 ≠ (s.dev.links[port]'h).ack + 1 → exec (.lacingFlit port flit) s = .next s) ∧
      (flit.extractLsb' 104 12 = (s.dev.links[port]'h).ack + 1 → flit.extractLsb' 88 8 ≠ s.dev.num →
        ∃ u, exec (.lacingFlit port flit) s = .next u ∧ u.st = s.st ∧ u.core = s.core ∧ u.dev.mem = s.dev.mem ∧
          (u.dev.links[port]'h).ack = flit.extractLsb' 104 12) ∧
      (flit.extractLsb' 104 12 = (s.dev.links[port]'h).ack + 1 → flit.extractLsb' 88 8 = s.dev.num →
        let l := s.dev.links[port]'h
        let l₁ : Link := { l with ack := flit.extractLsb' 104 12, seq := flit.extractLsb' 116 12, cred := l.cred + (flit.extractLsb' 96 8).toNat }
        let s₁ : State := { s with dev := { s.dev with links := s.dev.links.set port l₁ h } }
        let bytes := (List.range 224).map fun k => flit.extractLsb' (192 + 8 * k) 8
        let r := s₁.unpack 32 (l.buf ++ bytes) l.tag ([flit.extractLsb' 144 24, flit.extractLsb' 168 24].take (flit.extractLsb' 142 2).toNat)
        (flit.extractLsb' 72 8 ≠ 1 → exec (.lacingFlit port flit) s = .next s₁) ∧
        (flit.extractLsb' 72 8 = 1 → exec (.lacingFlit port flit) s =
          .next { r.1 with dev := r.1.dev.updLink port fun l => { l with buf := r.2.1, tag := r.2.2 } }))) ∧
    (∀ n (bs : List Byte) tags, let h := msgHeader bs
      (bs.length < 16 → s.unpack (n + 1) bs none tags = (s, bs, none)) ∧
      (16 ≤ bs.length → h.extractLsb' 24 8 = 0 → s.unpack (n + 1) bs none tags = (s, [], none)) ∧
      (16 ≤ bs.length → h.extractLsb' 24 8 ≠ 0 → h.getLsbD 21 = false →
        s.unpack (n + 1) bs none tags = (s.message h (.ofNat 1024 (numOf ((bs.drop 16).take 128))) Memory.tag0).unpack n (bs.drop 16) none tags) ∧
      (∀ x, 144 ≤ bs.length → h.extractLsb' 24 8 ≠ 0 → h.getLsbD 21 = true →
        s.unpack (n + 1) bs none (x :: tags) = (s.message h (.ofNat 1024 (numOf ((bs.drop 16).take 128))) x).unpack n (bs.drop 144) none tags ∧
        s.unpack (n + 1) bs (some x) tags = (s.message h (.ofNat 1024 (numOf ((bs.drop 16).take 128))) x).unpack n (bs.drop 144) none tags)) ∧
    (∀ (h : BitVec 128) (data : Line) (tag : Tag),
      let addr := (h.extractLsb' 64 64).toNat
      let home := s.dev.dpaLoc addr
      let from_ := (h.extractLsb' 0 8).toNat
      let away := (256 + from_) * 2 ^ 64 + addr
      let core := (h.extractLsb' 32 16).toNat
      let upd (n : Nat) (f : ClaspHome → ClaspHome) : State := { s with dev := s.dev.updClasp n f }
      let kind := h.extractLsb' 24 8
      (kind = 0x04 → s.message h data tag = { s with dev := s.dev.putLineAt away data tag }) ∧
      (kind = 0x05 → (s.dev.dpaLook addr).isSome = true → s.message h data tag =
        { s with dev := (s.dev.putLineAt home data ((s.dev.lineAt home).2.retag tag.fmt tag.scl tag.cls tag.pln)).unverifyAt addr }) ∧
      (kind = 0x06 → s.message h data tag = upd (home / 128) fun k => { k with acks := k.acks - 1 }) ∧
      (kind = 0x10 → s.message h data tag = upd (home / 128) fun k =>
        { k with msgs := k.msgs + 1, fifo := k.fifo ++ [⟨foreignCore from_ (h.extractLsb' 48 16).toNat, 0, false⟩] }) ∧
      (kind = 0x11 → s.message h data tag = (s.onCoreAt core (recallCore (away / 128))).dueRecall recallSent (away / 128)) ∧
      (kind = 0x12 → s.message h data tag = upd (home / 128) fun k => { k with msgs := k.msgs + 1, sig := some data, recalled := false }) ∧
      (kind = 0x13 → s.message h data tag = upd (away / 128) fun k => { k with granted := true, sig := if h.getLsbD 21 = true then some data else k.sig }) ∧
      (kind = 0x14 → s.message h data tag = upd (away / 128) fun k => { k with fifo := k.fifo.filter fun r => !(r.core == core && r.try_) })) ∧
    (s.dev.hasHost = true → devLine line = true →
      let x := s.dev.lineAt (line * 128)
      let new := setLineBytes (if x.2.cls = cRAW ∨ x.2.cls = cVAL then x.1 else 0) off.toNat (Nat.min 8 (128 - off.toNat)) v.toNat
      let held := s.dev.hostLines.any (·.1 == line)
      (held = false → exec (.hostWrite line off v) s = .next
        { s with dev := (s.dev.putLineAt (line * 128) new x.2.bumpGen.raw).unverify (line * 128) }) ∧
      (held = true → exec (.hostWrite line off v) s = .next
        { s with dev := ({ s.dev with hostLines := (line, some new) :: s.dev.hostLines.filter (·.1 != line) } : Dev).unverify (line * 128) }) ∧
      (x.2.cls ≠ cPOI → held = false → exec (.hostRead line) s = .next { s with dev := { s.dev with hostLines := (line, none) :: s.dev.hostLines } }) ∧
      (x.2.cls = cPOI ∨ held = true → exec (.hostRead line) s = .next s)) ∧
    (s.dev.hasHost = true → exec (.bisnp line) s = .next { s with dev := s.dev.hostTake (line * 128) } ∧
      exec (.hostSnoop line true) s = .next { s with dev := { s.dev with hostCache := s.dev.hostCache.filter (· != line) } }) ∧
    (s.dev.hasHost = false → exec (.bisnp line) s = .next s ∧ exec (.hostSnoop line true) s = .next s ∧
      exec (.hostWrite line off v) s = .next s ∧ exec (.hostRead line) s = .next s) ∧
    exec (.hostSnoop line false) s = .next s ∧
    (inPool (line * 128) = true → ∃ u, exec (.outsidePoolWrite line off v) s = .next u ∧ u.st = s.st ∧ u.core = s.core ∧
      line ∉ u.dev.tagValid ∧ u.dev.mem = s.dev.mem.setLine (line * 128)
        (setLineBytes (s.dev.mem.line (line * 128)) off.toNat (Nat.min 8 (128 - off.toNat)) v.toNat)) ∧
    (∀ i f, s.core.far[i]? = some f → ∀ drop, exec (.farCopyEviction i drop) s =
      .next (if s.backWaits (fun g => g.loc == f.loc) = true then s else s.flushFar (fun g => g.loc == f.loc) drop))

/-- R20, R361, R369, R381 to R385, R387, R391 to R394; logs 109, 114, 115, 150 to 152. The system's events: a corrected error is
counted by its core or, from number 288 on, by its die (log 152); an uncorrectable one makes the line that it lies in POI, with
its record (none for a scratchpad line, log 114), marks a compressed block, loses a register and with it its context, or is a
machine check; a scrub of a line that nobody owns makes a bad one POI; a machine check halts its core, and one of the device, or a
failed link, fails the device until bring-up (log 109); a partition begins and ends with EN; the debug port acts only with
invasive rights, and not on a core that is off (log 151); a core sleeps and wakes, from off as from reset; power is lost; bring-up
(what it meets is log 150's) starts the machine from the record, without the units whose step failed. What each row names is log
115's choice. -/
def Obligations.SystemEvents : Prop :=  ∀ (s : State),
    (∀ core, (core < 288 → exec (.correctedError core) s = .next (s.updCoreAt core fun c => { c with errcnt := c.errcnt + 1 })) ∧
      (288 ≤ core → ∃ t, exec (.correctedError core) s = .next t ∧ t = { s with dev := { s.dev with dieErr := t.dev.dieErr } } ∧
        ∀ (n : Nat) (h : n < 6), t.dev.dieErr[n]'h = (s.dev.dieErr[n]'h) + (if n = core - 288 then 1 else 0))) ∧
    (∀ n, exec (.uncorrectableError .line n) s = .next (s.poison (n * 128) (hardRecord s.dev.num)) ∧
      exec (.uncorrectableError .spad n) s = .next (s.putSpad (n % 4194304) 0 (s.core.spad.tag (n % 4194304)).toPoi) ∧
      exec (.uncorrectableError .source n) s = .next { s with dev := { s.dev with flashBad := n :: s.dev.flashBad } } ∧
      exec (.uncorrectableError .fetched n) s = .next s ∧ exec (.uncorrectableError .shared n) s = .next s.machineCheckCore ∧
      (s.core.gang = none → exec (.uncorrectableError .strand n) s = .next s.machineCheckCore) ∧
      (s.core.gang.isSome = true → ∃ r, exec (.uncorrectableError .strand n) s =
        .next ((s.postFault s.core.partId r none).1.terminateCtx s.core.ctxId) ∧ r.cls = 6 ∧ r.code = 1 ∧ r.who = whoOfSlot n) ∧
      (∀ e, s.dev.rmLook n = some e → exec (.uncorrectableError .block n) s =
        .next (s.badBlock (s.dev.locOf e 0 + 16 * (n % 65536 / 4096)) (n / 4096 * 4096) (hardRecord s.dev.num 0))) ∧
      (∀ f, s.core.far.find? (fun f => f.loc == n) = some f →
        let t : State := { s with core := s.core.dropFar (n * 128) }
        exec (.uncorrectableError .farCopy n) s = .next (if f.dirty = 0 then t else t.poison (n * 128) (hardRecord s.dev.num)))) ∧
    (∀ kind n tr d, s.dev.translate s.via ⟨false, false, kind == 0, false, false, kind⟩ (.ofNat 64 n) = .ok (some (tr, d)) → s.viaKey s.via.key = s.via →
      (tr.spad = true → exec (.uncorrectableError (.access 0 kind) n) s = .next (s.putSpad tr.loc 0 (s.core.spad.tag tr.loc).toPoi)) ∧
      (tr.spad = false → s.dev.sector tr = none → exec (.uncorrectableError (.access 0 kind) n) s =
        .next (s.poison tr.loc fun a => s.mkFault 6 2 kind tr.va a 0)) ∧
      (∀ k at_, tr.spad = false → s.dev.sector tr = some (k, at_) → exec (.uncorrectableError (.access 0 kind) n) s =
        .next (s.badBlock at_ (tr.dpa / 4096 * 4096) (s.mkFault 4 3 kind tr.va 0 0)))) ∧
    (∀ e n key me, s.finder e = some (key, me) → key < 4096 → exec (.uncorrectableError (.engine e) n) s =
      .next ((s.postFault (s.dev.partOfCtx key) (me (s.mkFault 6 1 0 0 0 0)) none).1.terminateCtx key)) ∧
    (∀ n x, exec (.scrub x false) s = .next s ∧
      exec (.scrub (.spad n) true) s = .next (s.putSpad (n * 128 % 4194304) 0 (s.core.spad.tag (n * 128 % 4194304)).toPoi) ∧
      ((s.owned (n * 128) = true ∨ s.dev.entryActive (n * 128) = true) → exec (.scrub (.home n) true) s = .next s) ∧
      (s.owned (n * 128) = false → s.dev.entryActive (n * 128) = false →
        exec (.scrub (.home n) true) s = .next (s.poison (n * 128) (hardRecord s.dev.num)))) ∧
    (∀ loc r, (s.poison loc r).dev.mem = (if inFlash loc then s.dev.mem else (s.dev.putLineAt loc 0 (s.dev.lineAt loc).2.toPoi).mem) ∧
      (s.poison loc r).st = s.st ∧ (s.poison loc r).core = s.core) ∧
    (exec (.machineCheck false) s = .next s.machineCheckCore ∧ s.machineCheckCore.core.halted = true ∧
      ∃ t, exec (.machineCheck true) s = .next t ∧ t.dev.failed = true) ∧
    (∀ port, port < 12 → ∃ t, exec (.linkFailure port) s = .next t ∧ t.dev.failed = true) ∧
    (∀ part p, s.dev.part part = some p →
      (p.on = false → entryOn (s.dev.partEntry part) = true → ∃ t q, exec (.partitionEnable part) s = .next t ∧ t.dev.part part = some q ∧
        q.on = true ∧ q.ent = s.dev.partEntry part) ∧
      (p.on = true → entryOn (s.dev.partEntry part) = false → ∃ t, exec (.partitionDisable part) s = .next t ∧
        ∀ q, t.dev.part part = some q → q.on = false) ∧
      (p.on = true → entryOn (s.dev.partEntry part) = true → exec (.partitionDisable part) s = .next s)) ∧
    (∀ (level : BitVec 2) (n c : Nat),
      exec (.debugStop level n (.consent c)) s = .next { s with dev := { s.dev with
        consent := if s.dev.ctxLive c = true then c :: s.dev.consent.filter (· != c) else s.dev.consent } } ∧
      exec (.debugStop level n (.expire c)) s = .next { s with dev := { s.dev with consent := s.dev.consent.filter (· != c) } }) ∧
    (∀ (level : BitVec 2) (n : Nat) (q : DebugReq), (∀ c, q ≠ .consent c ∧ q ≠ .expire c) →
      let asked : State := { s with dev := { s.dev with dbgLevel := level } }
      ((s.core.pwr = 3 ∨ asked.debugLevel level.toNat < 2) → exec (.debugStop level n q) s = .next asked) ∧
      (s.core.pwr ≠ 3 → 2 ≤ asked.debugLevel level.toNat → exec (.debugStop level n q) s = .next (asked.forDebug.debugAct n q))) ∧
    (∀ n p, s.dev.part (s.dev.partOfCore s.core.num) = some p →
      s.debugLevel n = Nat.min (Nat.min n (p.ent.extractLsb' 244 2).toNat)
        (if p.ent.extractLsb' 246 2 ≠ 0 ∧ s.core.ctxId ∉ s.dev.consent then 1 else 2)) ∧
    (s.core.pwr = 2 → s.forDebug = { s with core := { s.core with pwr := 0, pwrReq := 2 } }) ∧
    (s.core.pwr = 1 → s.forDebug = { s with core := { s.core with pwr := 0 } }) ∧
    (∀ n r v, n ∈ (s.debugAct n .halt).core.dbgHalt ∧
      s.debugAct n .go = { s with core := { s.core with dbgHalt := s.core.dbgHalt.filter (· != n) } } ∧ s.debugAct n .read = s ∧
      (s.core.heldStill n = true → s.debugAct n .step = { s with core := { s.core with dbgStep := n :: s.core.dbgStep } } ∧
        s.debugAct n (.writeX r v) = s.updStrandAt n fun t => t.setX r v) ∧
      (s.core.heldStill n = false → s.debugAct n .step = s ∧ s.debugAct n (.writeX r v) = s) ∧
      (∀ num : BitVec 12, s.debugAct n (.writeSys num v) = if num.toNat < 0x100 then (s.writeSr num v).getD s else s.writeRes num v)) ∧
    (s.core.pwr = 2 → (s.core.eventDue = true ∨ s.core.assigned.isSome = true) →
      exec .powerWake s = .next { s with core := { s.core with pwr := 0 } }) ∧
    (s.core.pwr = 3 → (s.core.eventDue = true ∨ s.core.assigned.isSome = true) → ∃ t, exec .powerWake s = .next t ∧ t.dev = s.dev ∧
      t.core.num = s.core.num ∧ t.core.pwr = 0 ∧ t.core.resident = true ∧ t.core.gang = none ∧ t.core.rvec = configRvec s.dev.config ∧
      t.st = .bootCc (configRvec s.dev.config) ∧ t.core.assigned = s.core.assigned) ∧
    ((s.core.eventDue = false ∧ s.core.assigned = none ∨ s.core.pwr.toNat < 2) → exec .powerWake s = .next s) ∧
    (s.core.pwr = 0 → s.wholeCore.wakes = false → s.core.dbgHalt = [] → exec .clockGate s = .next { s with core := { s.core with pwr := 1 } }) ∧
    (s.core.pwr = 1 → s.wholeCore.wakes = true → exec .clockGate s = .next { s with core := { s.core with pwr := 0 } }) ∧
    (∀ point, ((∀ c ∈ s.allCores, s.dev.coreOn c.num = true → c.active = false) →
      exec (.operatingPointChange point) s = .next { s with dev := { s.dev with opPoint := point } }) ∧
      ((∃ c ∈ s.allCores, s.dev.coreOn c.num = true ∧ c.active = true) → exec (.operatingPointChange point) s = .next s)) ∧
    exec .modulePowerLoss s = .next { s with dev := { s.dev with powered := false } } ∧
    (∀ r, exec (.configurationRecordChange r) s = .next { s with dev := { s.dev with record := r } }) ∧
    (let k := s.dev.nextUp;
      recordOk s.dev.record = true → k.memoryOk = true → k.digestOk = true →
      ∃ t, exec .bringUp s = .next t ∧ t.dev.powered = true ∧ t.dev.failed = false ∧
        t.dev.config = configRead (runningConfig k s.dev.record) ∧ t.st.kind = .cc ∧ t.st.run = .running ∧ t.core.resident = true ∧
        t.dev.bringUps = s.dev.bringUps.tail ∧ t.st.pc = k.rvec ∧ t.core.rvec = k.rvec ∧ t.dev.num = k.devnum ∧ t.dev.ctxs = [] ∧
        (∀ n, 3214 ≤ n → n < 3776 → t.dev.config.getLsbD n = (s.dev.record.getLsbD n && k.works.getLsbD n)) ∧
        (∀ x ∈ t.dev.mem.cells, outlives x.1 = true ∨ ∃ v, (x.1, v) ∈ k.image)) ∧
    (let k := s.dev.nextUp;
      (recordOk s.dev.record = false ∨ k.memoryOk = false ∨ k.digestOk = false) →
      exec .bringUp s = .next { s with dev := { s.dev with powered := true, failed := true, bringUps := s.dev.bringUps.tail } })

/-- R45; log 8. Every step keeps the device's memory in the canonical form of log 8 (the model's choice), from every state in
which it has it; and every memory of the machine, the scratchpads of its cores and of saved gangs among them, from every state in
which all have it. -/
def Obligations.MemoryStaysCanonical : Prop :=  ∀ s t : State, step s = .next t → (s.dev.mem.wf = true → t.dev.mem.wf = true) ∧ (s.memWf = true → t.memWf = true)

end
end

