-- ==== Sys2Proof/Laws/Memory.lean ====
section
/-! SUPPORT. Memory: every operation keeps the canonical form, and reads answer what was written. -/

namespace Sys2Proof.Machine

/-! ### Sorted sparse lists -/

theorem sortedNe_cons {α : Type} [DecidableEq α] (z : α) (a : Nat) (v : α) (l : List (Nat × α)) :
    sortedNe z ((a, v) :: l) = true ↔ v ≠ z ∧ (∀ x ∈ l, a < x.1) ∧ sortedNe z l = true := by
  induction l generalizing a v with
  | nil => simp [sortedNe]
  | cons y r ih =>
    obtain ⟨b, w⟩ := y
    have h := ih b w
    simp only [sortedNe, Bool.and_eq_true, bne_iff_ne, ne_eq, decide_eq_true_eq, List.mem_cons, forall_eq_or_imp]
    constructor
    · rintro ⟨⟨hv, hab⟩, hr⟩
      have := h.mp hr
      exact ⟨hv, ⟨hab, fun x hx => Nat.lt_trans hab (this.2.1 x hx)⟩, hr⟩
    · rintro ⟨hv, ⟨hab, -⟩, hr⟩
      exact ⟨⟨hv, hab⟩, hr⟩

theorem setD_mem {α : Type} [DecidableEq α] (z : α) (k : Nat) (v : α) (l : List (Nat × α)) (x : Nat × α)
    (h : x ∈ setD z k v l) : x ∈ l ∨ (x = (k, v)) := by
  induction l with
  | nil =>
    simp only [setD] at h
    split at h <;> simp_all
  | cons y r ih =>
    obtain ⟨a, w⟩ := y
    simp only [setD] at h
    split at h
    · split at h <;> simp_all
      rcases h with h | h | h <;> simp [h]
    · split at h
      · split at h
        · exact .inl (List.mem_cons_of_mem _ h)
        · rcases List.mem_cons.mp h with h | h
          · exact .inr h
          · exact .inl (List.mem_cons_of_mem _ h)
      · rcases List.mem_cons.mp h with h | h
        · simp [h]
        · rcases ih h with h | h
          · exact .inl (List.mem_cons_of_mem _ h)
          · exact .inr h

/-- Setting a key keeps the canonical form. -/
theorem setD_sorted {α : Type} [DecidableEq α] (z : α) (k : Nat) (v : α) (l : List (Nat × α)) (h : sortedNe z l = true) :
    sortedNe z (setD z k v l) = true := by
  induction l with
  | nil =>
    simp only [setD]
    split
    · rfl
    · simpa [sortedNe] using ‹_›
  | cons y r ih =>
    obtain ⟨a, w⟩ := y
    obtain ⟨hw, ha, hr⟩ := (sortedNe_cons z a w r).mp h
    simp only [setD]
    split
    · split
      · exact h
      · refine (sortedNe_cons z k v _).mpr ⟨‹_›, ?_, h⟩
        intro x hx
        rcases List.mem_cons.mp hx with hx | hx
        · simpa [hx] using ‹k < a›
        · exact Nat.lt_trans ‹k < a› (ha x hx)
    · split
      · subst a
        split
        · exact hr
        · exact (sortedNe_cons z k v r).mpr ⟨‹_›, ha, hr⟩
      · refine (sortedNe_cons z a w _).mpr ⟨hw, ?_, ih hr⟩
        intro x hx
        rcases setD_mem z k v r x hx with hx | hx
        · exact ha x hx
        · simp only [hx]; omega

theorem lookupD_below {α : Type} (z : α) (k : Nat) (l : List (Nat × α)) (h : ∀ x ∈ l, k < x.1) : lookupD z k l = z := by
  induction l with
  | nil => rfl
  | cons y r ih =>
    have := h y (List.mem_cons_self ..)
    simp only [lookupD]
    rw [if_neg (by omega)]
    exact ih fun x hx => h x (List.mem_cons_of_mem _ hx)

/-- Reading a key after setting one. -/
theorem lookupD_setD {α : Type} [DecidableEq α] (z : α) (k j : Nat) (v : α) (l : List (Nat × α)) (h : sortedNe z l = true) :
    lookupD z j (setD z k v l) = if j = k then v else lookupD z j l := by
  induction l with
  | nil =>
    simp only [setD]
    split
    · simp_all [lookupD]
    · simp only [lookupD]
      split <;> split <;> simp_all
  | cons y r ih =>
    obtain ⟨a, w⟩ := y
    obtain ⟨hw, ha, hr⟩ := (sortedNe_cons z a w r).mp h
    simp only [setD]
    split
    · have hk : ∀ x ∈ (a, w) :: r, k < x.1 := by
        intro x hx
        rcases List.mem_cons.mp hx with hx | hx
        · simpa [hx] using ‹k < a›
        · exact Nat.lt_trans ‹k < a› (ha x hx)
      split
      · split
        · subst j; subst v; exact lookupD_below z k _ hk
        · rfl
      · by_cases hj : j = k
        · simp [lookupD, hj]
        · have : k ≠ j := fun e => hj e.symm
          rw [if_neg hj]
          simp only [lookupD, if_neg this]
    · split
      · subst a
        split
        · by_cases hj : j = k
          · subst hj; simp only [if_true]; subst v; exact lookupD_below z _ _ ha
          · have : k ≠ j := fun e => hj e.symm
            simp [lookupD, hj, this]
        · by_cases hj : j = k
          · simp [lookupD, hj]
          · have : k ≠ j := fun e => hj e.symm
            simp [lookupD, hj, this]
      · simp only [lookupD]
        by_cases hj : a = j
        · subst hj
          simp [‹¬a = k›]
        · simp only [if_neg hj]
          exact ih hr

/-! ### Memory operations keep the canonical form -/

theorem Memory.wf_iff (m : Memory) : m.wf = true ↔ sortedNe Memory.byte0 m.cells = true ∧ sortedNe Memory.tag0 m.tags = true := by
  simp [Memory.wf]

theorem Memory.empty_wf : Memory.empty.wf = true := rfl

theorem Memory.setByte_wf (m : Memory) (a : Nat) (v : Byte) (h : m.wf = true) : (m.setByte a v).wf = true := by
  rw [wf_iff] at h ⊢
  exact ⟨setD_sorted _ _ _ _ h.1, h.2⟩

theorem Memory.setTag_wf (m : Memory) (a : Nat) (t : Tag) (h : m.wf = true) : (m.setTag a t).wf = true := by
  rw [wf_iff] at h ⊢
  exact ⟨h.1, setD_sorted _ _ _ _ h.2⟩

theorem Memory.writeN_wf (m : Memory) (a n v : Nat) (h : m.wf = true) : (m.writeN a n v).wf = true := by
  induction n generalizing m a v with
  | zero => simpa [Memory.writeN] using h
  | succ n ih => simp only [Memory.writeN]; exact ih _ _ _ (setByte_wf m a _ h)

theorem Memory.setLine_wf (m : Memory) (a : Nat) (d : Line) (h : m.wf = true) : (m.setLine a d).wf = true := by
  unfold Memory.setLine; exact writeN_wf _ _ _ _ h

theorem Memory.putRecord_wf (m : Memory) (off k x : Nat) (h : m.wf = true) : (m.putRecord off k x).wf = true := by
  induction k generalizing m off x with
  | zero => simpa [Memory.putRecord] using h
  | succ k ih =>
    simp only [Memory.putRecord]
    apply ih
    apply setTag_wf
    apply writeN_wf
    split
    · exact h
    · exact setLine_wf _ _ _ h

/-! ### Reads after writes -/

theorem Memory.byte_setByte (m : Memory) (a b : Nat) (v : Byte) (h : m.wf = true) :
    (m.setByte a v).byte b = if b = a then v else m.byte b :=
  lookupD_setD _ _ _ _ _ ((wf_iff m).mp h).1

@[simp] theorem Memory.byte_setTag (m : Memory) (a b : Nat) (t : Tag) : (m.setTag a t).byte b = m.byte b := rfl

theorem Memory.tag_setTag (m : Memory) (a b : Nat) (t : Tag) (h : m.wf = true) :
    (m.setTag a t).tag b = if b / 128 = a / 128 then t else m.tag b :=
  lookupD_setD _ _ _ _ _ ((wf_iff m).mp h).2

theorem Memory.writeN_tags (m : Memory) (a n v : Nat) : (m.writeN a n v).tags = m.tags := by
  induction n generalizing m a v with
  | zero => rfl
  | succ n ih => simp only [Memory.writeN]; rw [ih]; rfl

@[simp] theorem Memory.tag_writeN (m : Memory) (a n v b : Nat) : (m.writeN a n v).tag b = m.tag b := by
  unfold Memory.tag; rw [writeN_tags]

@[simp] theorem Memory.tag_setLine (m : Memory) (a b : Nat) (d : Line) : (m.setLine a d).tag b = m.tag b := by
  unfold Memory.setLine; exact tag_writeN _ _ _ _ _

/-- A byte after `n` bytes were written: the number's digit inside, the old byte outside. -/
theorem Memory.byte_writeN (m : Memory) (a n v b : Nat) (h : m.wf = true) :
    (m.writeN a n v).byte b = if a ≤ b ∧ b < a + n then .ofNat 8 (v / 256 ^ (b - a)) else m.byte b := by
  induction n generalizing m a v with
  | zero => rw [if_neg (by omega)]; rfl
  | succ n ih =>
    simp only [Memory.writeN]
    rw [ih _ _ _ (setByte_wf m a _ h), byte_setByte m a b _ h]
    by_cases hb : b = a
    · subst hb
      rw [if_neg (by omega), if_pos rfl, if_pos (by omega)]
      simp
    · by_cases hin : a ≤ b ∧ b < a + (n + 1)
      · rw [if_pos (by omega), if_pos hin]
        have : b - a = (b - (a + 1)) + 1 := by omega
        rw [this, Nat.pow_succ', Nat.div_div_eq_div_mul]
      · rw [if_neg (by omega), if_neg hb, if_neg hin]

/-- `n` bytes are a number below 256 ^ n. -/
theorem Memory.readN_lt (m : Memory) (a n : Nat) : m.readN a n < 256 ^ n := by
  induction n generalizing a with
  | zero => simp [Memory.readN]
  | succ n ih =>
    simp only [Memory.readN, Nat.pow_succ']
    have := ih (a + 1)
    have := (m.byte a).isLt
    omega

/-- A run of bytes read in two parts. -/
theorem Memory.readN_add (m : Memory) (a k n : Nat) : m.readN a (k + n) = m.readN a k + 256 ^ k * m.readN (a + k) n := by
  induction k generalizing a with
  | zero => simp [Memory.readN]
  | succ k ih =>
    rw [show k + 1 + n = (k + n) + 1 by omega]
    simp only [Memory.readN]
    rw [ih (a + 1), Nat.pow_succ', show a + (k + 1) = a + 1 + k by omega]
    ring

theorem Memory.readN_writeN_self (m : Memory) (a n v : Nat) (h : m.wf = true) : (m.writeN a n v).readN a n = v % 256 ^ n := by
  have key : ∀ (k j : Nat), j + k = n → (m.writeN a n v).readN (a + j) k = v / 256 ^ j % 256 ^ k := by
    intro k
    induction k with
    | zero => intro j _; simp [Memory.readN, Nat.mod_one]
    | succ k ih =>
      intro j hj
      simp only [Memory.readN]
      rw [show a + j + 1 = a + (j + 1) by omega, ih (j + 1) (by omega), byte_writeN m a n v (a + j) h,
        if_pos (by omega), show a + j - a = j by omega, BitVec.toNat_ofNat, show (2 : Nat) ^ 8 = 256 from rfl, Nat.pow_succ' (m := 256) (n := k),
        Nat.mod_mul, Nat.div_div_eq_div_mul, ← Nat.pow_succ]
  simpa using key n 0 (by omega)

/-- Some of the bytes of a run. -/
theorem Memory.readN_part (m : Memory) (a off n w : Nat) (h : off + n ≤ w) :
    m.readN a w / 256 ^ off % 256 ^ n = m.readN (a + off) n := by
  have e1 : m.readN a w = m.readN a off + 256 ^ off * m.readN (a + off) (w - off) := by rw [← readN_add]; congr 1; omega
  have e2 : m.readN (a + off) (w - off) = m.readN (a + off) n + 256 ^ n * m.readN (a + off + n) (w - off - n) := by
    rw [← readN_add]; congr 1; omega
  rw [e1, Nat.add_mul_div_left _ _ (by positivity), Nat.div_eq_of_lt (m.readN_lt _ _), Nat.zero_add, e2, Nat.add_mul_mod_self_left,
    Nat.mod_eq_of_lt (m.readN_lt _ _)]

theorem two_pow_bytes (k : Nat) : 2 ^ (8 * k) = 256 ^ k := by rw [Nat.pow_mul]

/-- The bytes of a line, as an access takes them. -/
theorem Memory.line_bytes (m : Memory) (a off n : Nat) (h : off + n ≤ 128) :
    lineBytes (m.line a) off n = m.readN (a / 128 * 128 + off) n := by
  have hlt := m.readN_lt (a / 128 * 128) 128
  rw [← two_pow_bytes] at hlt
  unfold lineBytes Memory.line
  rw [BitVec.toNat_ofNat, Nat.mod_eq_of_lt hlt, two_pow_bytes, two_pow_bytes, readN_part _ _ _ _ _ h]

end Sys2Proof.Machine
end

