-- ==== Sys2Proof/Laws/State.lean ====
section
/-! SUPPORT. What the updates of the state leave alone, one lemma a field, so that no later proof unfolds a record update. -/

namespace Sys2Proof.Machine

/-! ### The acting strand completes an instruction -/
@[simp] theorem Strand.advance_kind (t : Strand) : t.advance.kind = t.kind := rfl
@[simp] theorem Strand.advance_idx (t : Strand) : t.advance.idx = t.idx := rfl
@[simp] theorem Strand.advance_run (t : Strand) : t.advance.run = t.run := rfl
@[simp] theorem Strand.advance_xr (t : Strand) : t.advance.xr = t.xr := rfl
@[simp] theorem Strand.advance_vl (t : Strand) : t.advance.vl = t.vl := rfl
@[simp] theorem Strand.advance_vr (t : Strand) : t.advance.vr = t.vr := rfl
@[simp] theorem Strand.advance_gw (t : Strand) : t.advance.gw = t.gw := rfl
@[simp] theorem Strand.advance_flags (t : Strand) : t.advance.flags = t.flags := rfl
@[simp] theorem Strand.advance_tmask (t : Strand) : t.advance.tmask = t.tmask := rfl
@[simp] theorem Strand.advance_round (t : Strand) : t.advance.round = t.round := rfl
@[simp] theorem Strand.advance_seed (t : Strand) : t.advance.seed = t.seed := rfl
@[simp] theorem Strand.advance_arrived (t : Strand) : t.advance.arrived = t.arrived := rfl
@[simp] theorem Strand.advance_vreg (t : Strand) : t.advance.vreg = t.vreg := rfl
@[simp] theorem Strand.advance_mask (t : Strand) : t.advance.mask = t.mask := rfl
@[simp] theorem Strand.advance_mrows (t : Strand) : t.advance.mrows = t.mrows := rfl
@[simp] theorem Strand.advance_tiles (t : Strand) : t.advance.tiles = t.tiles := rfl
@[simp] theorem Strand.advance_bcount (t : Strand) : t.advance.bcount = t.bcount := rfl
@[simp] theorem Strand.advance_dfr (t : Strand) : t.advance.dfr = t.dfr := rfl
@[simp] theorem Strand.advance_dfrSig (t : Strand) : t.advance.dfrSig = t.dfrSig := rfl
@[simp] theorem Strand.advance_bqIn (t : Strand) : t.advance.bqIn = t.bqIn := rfl
@[simp] theorem Strand.advance_batchNext (t : Strand) : t.advance.batchNext = t.batchNext := rfl
@[simp] theorem Strand.advance_pend (t : Strand) : t.advance.pend = t.pend.map PendLoad.tick := rfl
@[simp] theorem Strand.advance_deco (t : Strand) : t.advance.deco = none := rfl
@[simp] theorem Strand.advance_wantsShuttle (t : Strand) : t.advance.wantsShuttle = false := rfl
@[simp] theorem Strand.advance_waiting (t : Strand) : t.advance.waiting = false := rfl
@[simp] theorem State.advance_core (s : State) : s.advance.core = s.core := rfl
@[simp] theorem State.advance_dev (s : State) : s.advance.dev = s.dev := rfl
@[simp] theorem State.advance_agenda (s : State) : s.advance.agenda = s.agenda := rfl
@[simp] theorem State.advance_st (s : State) : s.advance.st = s.st.advance := rfl
@[simp] theorem Strand.advance_x (t : Strand) (r : BitVec 5) : t.advance.x r = t.x r := rfl
@[simp] theorem State.advance_x (s : State) (r : BitVec 5) : s.advance.x r = s.x r := rfl

/-! ### Scalar registers -/
@[simp] theorem Strand.setX_kind (t : Strand) (r : BitVec 5) (v : Word) : (t.setX r v).kind = t.kind := by
  unfold Strand.setX; split <;> rfl
@[simp] theorem Strand.setX_idx (t : Strand) (r : BitVec 5) (v : Word) : (t.setX r v).idx = t.idx := by
  unfold Strand.setX; split <;> rfl
@[simp] theorem Strand.setX_run (t : Strand) (r : BitVec 5) (v : Word) : (t.setX r v).run = t.run := by
  unfold Strand.setX; split <;> rfl
@[simp] theorem Strand.setX_pc (t : Strand) (r : BitVec 5) (v : Word) : (t.setX r v).pc = t.pc := by
  unfold Strand.setX; split <;> rfl
@[simp] theorem Strand.setX_sp (t : Strand) (r : BitVec 5) (v : Word) : (t.setX r v).sp = t.sp := by
  unfold Strand.setX; split <;> rfl
@[simp] theorem Strand.setX_vl (t : Strand) (r : BitVec 5) (v : Word) : (t.setX r v).vl = t.vl := by
  unfold Strand.setX; split <;> rfl
@[simp] theorem Strand.setX_vr (t : Strand) (r : BitVec 5) (v : Word) : (t.setX r v).vr = t.vr := by
  unfold Strand.setX; split <;> rfl
@[simp] theorem Strand.setX_gw (t : Strand) (r : BitVec 5) (v : Word) : (t.setX r v).gw = t.gw := by
  unfold Strand.setX; split <;> rfl
@[simp] theorem Strand.setX_flags (t : Strand) (r : BitVec 5) (v : Word) : (t.setX r v).flags = t.flags := by
  unfold Strand.setX; split <;> rfl
@[simp] theorem Strand.setX_tmask (t : Strand) (r : BitVec 5) (v : Word) : (t.setX r v).tmask = t.tmask := by
  unfold Strand.setX; split <;> rfl
@[simp] theorem Strand.setX_round (t : Strand) (r : BitVec 5) (v : Word) : (t.setX r v).round = t.round := by
  unfold Strand.setX; split <;> rfl
@[simp] theorem Strand.setX_seed (t : Strand) (r : BitVec 5) (v : Word) : (t.setX r v).seed = t.seed := by
  unfold Strand.setX; split <;> rfl
@[simp] theorem Strand.setX_rb (t : Strand) (r : BitVec 5) (v : Word) : (t.setX r v).rb = t.rb := by
  unfold Strand.setX; split <;> rfl
@[simp] theorem Strand.setX_loops (t : Strand) (r : BitVec 5) (v : Word) : (t.setX r v).loops = t.loops := by
  unfold Strand.setX; split <;> rfl
@[simp] theorem Strand.setX_pend (t : Strand) (r : BitVec 5) (v : Word) : (t.setX r v).pend = t.pend := by
  unfold Strand.setX; split <;> rfl
@[simp] theorem Strand.setX_arrived (t : Strand) (r : BitVec 5) (v : Word) : (t.setX r v).arrived = t.arrived := by
  unfold Strand.setX; split <;> rfl
@[simp] theorem Strand.setX_deco (t : Strand) (r : BitVec 5) (v : Word) : (t.setX r v).deco = t.deco := by
  unfold Strand.setX; split <;> rfl
@[simp] theorem Strand.setX_vreg (t : Strand) (r : BitVec 5) (v : Word) : (t.setX r v).vreg = t.vreg := by
  unfold Strand.setX; split <;> rfl
@[simp] theorem Strand.setX_mask (t : Strand) (r : BitVec 5) (v : Word) : (t.setX r v).mask = t.mask := by
  unfold Strand.setX; split <;> rfl
@[simp] theorem Strand.setX_mrows (t : Strand) (r : BitVec 5) (v : Word) : (t.setX r v).mrows = t.mrows := by
  unfold Strand.setX; split <;> rfl
@[simp] theorem Strand.setX_tiles (t : Strand) (r : BitVec 5) (v : Word) : (t.setX r v).tiles = t.tiles := by
  unfold Strand.setX; split <;> rfl
@[simp] theorem Strand.setX_bcount (t : Strand) (r : BitVec 5) (v : Word) : (t.setX r v).bcount = t.bcount := by
  unfold Strand.setX; split <;> rfl
@[simp] theorem Strand.setX_dfr (t : Strand) (r : BitVec 5) (v : Word) : (t.setX r v).dfr = t.dfr := by
  unfold Strand.setX; split <;> rfl
@[simp] theorem Strand.setX_dfrSig (t : Strand) (r : BitVec 5) (v : Word) : (t.setX r v).dfrSig = t.dfrSig := by
  unfold Strand.setX; split <;> rfl
@[simp] theorem Strand.setX_bqIn (t : Strand) (r : BitVec 5) (v : Word) : (t.setX r v).bqIn = t.bqIn := by
  unfold Strand.setX; split <;> rfl
@[simp] theorem Strand.setX_batchNext (t : Strand) (r : BitVec 5) (v : Word) : (t.setX r v).batchNext = t.batchNext := by
  unfold Strand.setX; split <;> rfl
@[simp] theorem Strand.setX_waiting (t : Strand) (r : BitVec 5) (v : Word) : (t.setX r v).waiting = t.waiting := by
  unfold Strand.setX; split <;> rfl
@[simp] theorem Strand.setX_wantsShuttle (t : Strand) (r : BitVec 5) (v : Word) : (t.setX r v).wantsShuttle = t.wantsShuttle := by
  unfold Strand.setX; split <;> rfl
@[simp] theorem State.setX_core (s : State) (r : BitVec 5) (v : Word) : (s.setX r v).core = s.core := rfl
@[simp] theorem State.setX_dev (s : State) (r : BitVec 5) (v : Word) : (s.setX r v).dev = s.dev := rfl
@[simp] theorem State.setX_agenda (s : State) (r : BitVec 5) (v : Word) : (s.setX r v).agenda = s.agenda := rfl
@[simp] theorem State.setX_st (s : State) (r : BitVec 5) (v : Word) : (s.setX r v).st = s.st.setX r v := rfl

/-! ### A strand that waits, ends or is put back -/
@[simp] theorem Strand.rewind_kind (t : Strand) : t.rewind.kind = t.kind := rfl
@[simp] theorem Strand.rewind_idx (t : Strand) : t.rewind.idx = t.idx := rfl
@[simp] theorem Strand.rewind_run (t : Strand) : t.rewind.run = t.run := rfl
@[simp] theorem Strand.rewind_xr (t : Strand) : t.rewind.xr = t.xr := rfl
@[simp] theorem Strand.rewind_sp (t : Strand) : t.rewind.sp = t.sp := rfl
@[simp] theorem Strand.rewind_vl (t : Strand) : t.rewind.vl = t.vl := rfl
@[simp] theorem Strand.rewind_vr (t : Strand) : t.rewind.vr = t.vr := rfl
@[simp] theorem Strand.rewind_gw (t : Strand) : t.rewind.gw = t.gw := rfl
@[simp] theorem Strand.rewind_flags (t : Strand) : t.rewind.flags = t.flags := rfl
@[simp] theorem Strand.rewind_tmask (t : Strand) : t.rewind.tmask = t.tmask := rfl
@[simp] theorem Strand.rewind_round (t : Strand) : t.rewind.round = t.round := rfl
@[simp] theorem Strand.rewind_seed (t : Strand) : t.rewind.seed = t.seed := rfl
@[simp] theorem Strand.rewind_rb (t : Strand) : t.rewind.rb = t.rb := rfl
@[simp] theorem Strand.rewind_loops (t : Strand) : t.rewind.loops = t.loops := rfl
@[simp] theorem Strand.rewind_pend (t : Strand) : t.rewind.pend = t.pend := rfl
@[simp] theorem Strand.rewind_arrived (t : Strand) : t.rewind.arrived = t.arrived := rfl
@[simp] theorem Strand.rewind_vreg (t : Strand) : t.rewind.vreg = t.vreg := rfl
@[simp] theorem Strand.rewind_mask (t : Strand) : t.rewind.mask = t.mask := rfl
@[simp] theorem Strand.rewind_mrows (t : Strand) : t.rewind.mrows = t.mrows := rfl
@[simp] theorem Strand.rewind_tiles (t : Strand) : t.rewind.tiles = t.tiles := rfl
@[simp] theorem Strand.rewind_bcount (t : Strand) : t.rewind.bcount = t.bcount := rfl
@[simp] theorem Strand.rewind_dfr (t : Strand) : t.rewind.dfr = t.dfr := rfl
@[simp] theorem Strand.rewind_dfrSig (t : Strand) : t.rewind.dfrSig = t.dfrSig := rfl
@[simp] theorem Strand.rewind_bqIn (t : Strand) : t.rewind.bqIn = t.bqIn := rfl
@[simp] theorem Strand.rewind_batchNext (t : Strand) : t.rewind.batchNext = t.batchNext := rfl
@[simp] theorem Strand.rewind_waiting (t : Strand) : t.rewind.waiting = t.waiting := rfl
@[simp] theorem Strand.rewind_wantsShuttle (t : Strand) : t.rewind.wantsShuttle = t.wantsShuttle := rfl
@[simp] theorem Strand.ended_kind (t : Strand) : t.ended.kind = t.kind := rfl
@[simp] theorem Strand.ended_idx (t : Strand) : t.ended.idx = t.idx := rfl
@[simp] theorem Strand.ended_pc (t : Strand) : t.ended.pc = t.pc := rfl
@[simp] theorem Strand.ended_xr (t : Strand) : t.ended.xr = t.xr := rfl
@[simp] theorem Strand.ended_sp (t : Strand) : t.ended.sp = t.sp := rfl
@[simp] theorem Strand.ended_vl (t : Strand) : t.ended.vl = t.vl := rfl
@[simp] theorem Strand.ended_vr (t : Strand) : t.ended.vr = t.vr := rfl
@[simp] theorem Strand.ended_gw (t : Strand) : t.ended.gw = t.gw := rfl
@[simp] theorem Strand.ended_flags (t : Strand) : t.ended.flags = t.flags := rfl
@[simp] theorem Strand.ended_tmask (t : Strand) : t.ended.tmask = t.tmask := rfl
@[simp] theorem Strand.ended_round (t : Strand) : t.ended.round = t.round := rfl
@[simp] theorem Strand.ended_seed (t : Strand) : t.ended.seed = t.seed := rfl
@[simp] theorem Strand.ended_rb (t : Strand) : t.ended.rb = t.rb := rfl
@[simp] theorem Strand.ended_vreg (t : Strand) : t.ended.vreg = t.vreg := rfl
@[simp] theorem Strand.ended_mask (t : Strand) : t.ended.mask = t.mask := rfl
@[simp] theorem Strand.ended_mrows (t : Strand) : t.ended.mrows = t.mrows := rfl
@[simp] theorem Strand.ended_tiles (t : Strand) : t.ended.tiles = t.tiles := rfl
@[simp] theorem Strand.ended_bcount (t : Strand) : t.ended.bcount = t.bcount := rfl
@[simp] theorem Strand.ended_dfr (t : Strand) : t.ended.dfr = t.dfr := rfl
@[simp] theorem Strand.ended_dfrSig (t : Strand) : t.ended.dfrSig = t.dfrSig := rfl
@[simp] theorem Strand.ended_bqIn (t : Strand) : t.ended.bqIn = t.bqIn := rfl
@[simp] theorem Strand.ended_batchNext (t : Strand) : t.ended.batchNext = t.batchNext := rfl
@[simp] theorem Strand.ended_wantsShuttle (t : Strand) : t.ended.wantsShuttle = t.wantsShuttle := rfl
@[simp] theorem Strand.ended_run (t : Strand) : t.ended.run = .ended := rfl

/-! ### Vector registers and tiles -/
@[simp] theorem Strand.setReg_kind (t : Strand) (p : Nat) (r : VReg) : (t.setReg p r).kind = t.kind := by
  unfold Strand.setReg; split <;> rfl
@[simp] theorem Strand.setReg_idx (t : Strand) (p : Nat) (r : VReg) : (t.setReg p r).idx = t.idx := by
  unfold Strand.setReg; split <;> rfl
@[simp] theorem Strand.setReg_run (t : Strand) (p : Nat) (r : VReg) : (t.setReg p r).run = t.run := by
  unfold Strand.setReg; split <;> rfl
@[simp] theorem Strand.setReg_pc (t : Strand) (p : Nat) (r : VReg) : (t.setReg p r).pc = t.pc := by
  unfold Strand.setReg; split <;> rfl
@[simp] theorem Strand.setReg_xr (t : Strand) (p : Nat) (r : VReg) : (t.setReg p r).xr = t.xr := by
  unfold Strand.setReg; split <;> rfl
@[simp] theorem Strand.setReg_sp (t : Strand) (p : Nat) (r : VReg) : (t.setReg p r).sp = t.sp := by
  unfold Strand.setReg; split <;> rfl
@[simp] theorem Strand.setReg_vl (t : Strand) (p : Nat) (r : VReg) : (t.setReg p r).vl = t.vl := by
  unfold Strand.setReg; split <;> rfl
@[simp] theorem Strand.setReg_vr (t : Strand) (p : Nat) (r : VReg) : (t.setReg p r).vr = t.vr := by
  unfold Strand.setReg; split <;> rfl
@[simp] theorem Strand.setReg_gw (t : Strand) (p : Nat) (r : VReg) : (t.setReg p r).gw = t.gw := by
  unfold Strand.setReg; split <;> rfl
@[simp] theorem Strand.setReg_flags (t : Strand) (p : Nat) (r : VReg) : (t.setReg p r).flags = t.flags := by
  unfold Strand.setReg; split <;> rfl
@[simp] theorem Strand.setReg_tmask (t : Strand) (p : Nat) (r : VReg) : (t.setReg p r).tmask = t.tmask := by
  unfold Strand.setReg; split <;> rfl
@[simp] theorem Strand.setReg_round (t : Strand) (p : Nat) (r : VReg) : (t.setReg p r).round = t.round := by
  unfold Strand.setReg; split <;> rfl
@[simp] theorem Strand.setReg_seed (t : Strand) (p : Nat) (r : VReg) : (t.setReg p r).seed = t.seed := by
  unfold Strand.setReg; split <;> rfl
@[simp] theorem Strand.setReg_rb (t : Strand) (p : Nat) (r : VReg) : (t.setReg p r).rb = t.rb := by
  unfold Strand.setReg; split <;> rfl
@[simp] theorem Strand.setReg_loops (t : Strand) (p : Nat) (r : VReg) : (t.setReg p r).loops = t.loops := by
  unfold Strand.setReg; split <;> rfl
@[simp] theorem Strand.setReg_pend (t : Strand) (p : Nat) (r : VReg) : (t.setReg p r).pend = t.pend := by
  unfold Strand.setReg; split <;> rfl
@[simp] theorem Strand.setReg_arrived (t : Strand) (p : Nat) (r : VReg) : (t.setReg p r).arrived = t.arrived := by
  unfold Strand.setReg; split <;> rfl
@[simp] theorem Strand.setReg_deco (t : Strand) (p : Nat) (r : VReg) : (t.setReg p r).deco = t.deco := by
  unfold Strand.setReg; split <;> rfl
@[simp] theorem Strand.setReg_mask (t : Strand) (p : Nat) (r : VReg) : (t.setReg p r).mask = t.mask := by
  unfold Strand.setReg; split <;> rfl
@[simp] theorem Strand.setReg_mrows (t : Strand) (p : Nat) (r : VReg) : (t.setReg p r).mrows = t.mrows := by
  unfold Strand.setReg; split <;> rfl
@[simp] theorem Strand.setReg_tiles (t : Strand) (p : Nat) (r : VReg) : (t.setReg p r).tiles = t.tiles := by
  unfold Strand.setReg; split <;> rfl
@[simp] theorem Strand.setReg_bcount (t : Strand) (p : Nat) (r : VReg) : (t.setReg p r).bcount = t.bcount := by
  unfold Strand.setReg; split <;> rfl
@[simp] theorem Strand.setReg_dfr (t : Strand) (p : Nat) (r : VReg) : (t.setReg p r).dfr = t.dfr := by
  unfold Strand.setReg; split <;> rfl
@[simp] theorem Strand.setReg_dfrSig (t : Strand) (p : Nat) (r : VReg) : (t.setReg p r).dfrSig = t.dfrSig := by
  unfold Strand.setReg; split <;> rfl
@[simp] theorem Strand.setReg_bqIn (t : Strand) (p : Nat) (r : VReg) : (t.setReg p r).bqIn = t.bqIn := by
  unfold Strand.setReg; split <;> rfl
@[simp] theorem Strand.setReg_batchNext (t : Strand) (p : Nat) (r : VReg) : (t.setReg p r).batchNext = t.batchNext := by
  unfold Strand.setReg; split <;> rfl
@[simp] theorem Strand.setReg_waiting (t : Strand) (p : Nat) (r : VReg) : (t.setReg p r).waiting = t.waiting := by
  unfold Strand.setReg; split <;> rfl
@[simp] theorem Strand.setReg_wantsShuttle (t : Strand) (p : Nat) (r : VReg) : (t.setReg p r).wantsShuttle = t.wantsShuttle := by
  unfold Strand.setReg; split <;> rfl
@[simp] theorem Strand.setTile_kind (t : Strand) (k : Nat) (x : Tile) : (t.setTile k x).kind = t.kind := by
  unfold Strand.setTile; split <;> rfl
@[simp] theorem Strand.setTile_idx (t : Strand) (k : Nat) (x : Tile) : (t.setTile k x).idx = t.idx := by
  unfold Strand.setTile; split <;> rfl
@[simp] theorem Strand.setTile_run (t : Strand) (k : Nat) (x : Tile) : (t.setTile k x).run = t.run := by
  unfold Strand.setTile; split <;> rfl
@[simp] theorem Strand.setTile_pc (t : Strand) (k : Nat) (x : Tile) : (t.setTile k x).pc = t.pc := by
  unfold Strand.setTile; split <;> rfl
@[simp] theorem Strand.setTile_xr (t : Strand) (k : Nat) (x : Tile) : (t.setTile k x).xr = t.xr := by
  unfold Strand.setTile; split <;> rfl
@[simp] theorem Strand.setTile_sp (t : Strand) (k : Nat) (x : Tile) : (t.setTile k x).sp = t.sp := by
  unfold Strand.setTile; split <;> rfl
@[simp] theorem Strand.setTile_vl (t : Strand) (k : Nat) (x : Tile) : (t.setTile k x).vl = t.vl := by
  unfold Strand.setTile; split <;> rfl
@[simp] theorem Strand.setTile_vr (t : Strand) (k : Nat) (x : Tile) : (t.setTile k x).vr = t.vr := by
  unfold Strand.setTile; split <;> rfl
@[simp] theorem Strand.setTile_gw (t : Strand) (k : Nat) (x : Tile) : (t.setTile k x).gw = t.gw := by
  unfold Strand.setTile; split <;> rfl
@[simp] theorem Strand.setTile_flags (t : Strand) (k : Nat) (x : Tile) : (t.setTile k x).flags = t.flags := by
  unfold Strand.setTile; split <;> rfl
@[simp] theorem Strand.setTile_tmask (t : Strand) (k : Nat) (x : Tile) : (t.setTile k x).tmask = t.tmask := by
  unfold Strand.setTile; split <;> rfl
@[simp] theorem Strand.setTile_round (t : Strand) (k : Nat) (x : Tile) : (t.setTile k x).round = t.round := by
  unfold Strand.setTile; split <;> rfl
@[simp] theorem Strand.setTile_seed (t : Strand) (k : Nat) (x : Tile) : (t.setTile k x).seed = t.seed := by
  unfold Strand.setTile; split <;> rfl
@[simp] theorem Strand.setTile_rb (t : Strand) (k : Nat) (x : Tile) : (t.setTile k x).rb = t.rb := by
  unfold Strand.setTile; split <;> rfl
@[simp] theorem Strand.setTile_loops (t : Strand) (k : Nat) (x : Tile) : (t.setTile k x).loops = t.loops := by
  unfold Strand.setTile; split <;> rfl
@[simp] theorem Strand.setTile_pend (t : Strand) (k : Nat) (x : Tile) : (t.setTile k x).pend = t.pend := by
  unfold Strand.setTile; split <;> rfl
@[simp] theorem Strand.setTile_arrived (t : Strand) (k : Nat) (x : Tile) : (t.setTile k x).arrived = t.arrived := by
  unfold Strand.setTile; split <;> rfl
@[simp] theorem Strand.setTile_deco (t : Strand) (k : Nat) (x : Tile) : (t.setTile k x).deco = t.deco := by
  unfold Strand.setTile; split <;> rfl
@[simp] theorem Strand.setTile_vreg (t : Strand) (k : Nat) (x : Tile) : (t.setTile k x).vreg = t.vreg := by
  unfold Strand.setTile; split <;> rfl
@[simp] theorem Strand.setTile_mask (t : Strand) (k : Nat) (x : Tile) : (t.setTile k x).mask = t.mask := by
  unfold Strand.setTile; split <;> rfl
@[simp] theorem Strand.setTile_mrows (t : Strand) (k : Nat) (x : Tile) : (t.setTile k x).mrows = t.mrows := by
  unfold Strand.setTile; split <;> rfl
@[simp] theorem Strand.setTile_bcount (t : Strand) (k : Nat) (x : Tile) : (t.setTile k x).bcount = t.bcount := by
  unfold Strand.setTile; split <;> rfl
@[simp] theorem Strand.setTile_dfr (t : Strand) (k : Nat) (x : Tile) : (t.setTile k x).dfr = t.dfr := by
  unfold Strand.setTile; split <;> rfl
@[simp] theorem Strand.setTile_dfrSig (t : Strand) (k : Nat) (x : Tile) : (t.setTile k x).dfrSig = t.dfrSig := by
  unfold Strand.setTile; split <;> rfl
@[simp] theorem Strand.setTile_bqIn (t : Strand) (k : Nat) (x : Tile) : (t.setTile k x).bqIn = t.bqIn := by
  unfold Strand.setTile; split <;> rfl
@[simp] theorem Strand.setTile_batchNext (t : Strand) (k : Nat) (x : Tile) : (t.setTile k x).batchNext = t.batchNext := by
  unfold Strand.setTile; split <;> rfl
@[simp] theorem Strand.setTile_waiting (t : Strand) (k : Nat) (x : Tile) : (t.setTile k x).waiting = t.waiting := by
  unfold Strand.setTile; split <;> rfl
@[simp] theorem Strand.setTile_wantsShuttle (t : Strand) (k : Nat) (x : Tile) : (t.setTile k x).wantsShuttle = t.wantsShuttle := by
  unfold Strand.setTile; split <;> rfl
@[simp] theorem Strand.setMask_kind (t : Strand) (m : BitVec 3) (v : BitVec 24576) : (t.setMask m v).kind = t.kind := by
  unfold Strand.setMask; split <;> rfl
@[simp] theorem Strand.setMask_idx (t : Strand) (m : BitVec 3) (v : BitVec 24576) : (t.setMask m v).idx = t.idx := by
  unfold Strand.setMask; split <;> rfl
@[simp] theorem Strand.setMask_run (t : Strand) (m : BitVec 3) (v : BitVec 24576) : (t.setMask m v).run = t.run := by
  unfold Strand.setMask; split <;> rfl
@[simp] theorem Strand.setMask_pc (t : Strand) (m : BitVec 3) (v : BitVec 24576) : (t.setMask m v).pc = t.pc := by
  unfold Strand.setMask; split <;> rfl
@[simp] theorem Strand.setMask_xr (t : Strand) (m : BitVec 3) (v : BitVec 24576) : (t.setMask m v).xr = t.xr := by
  unfold Strand.setMask; split <;> rfl
@[simp] theorem Strand.setMask_sp (t : Strand) (m : BitVec 3) (v : BitVec 24576) : (t.setMask m v).sp = t.sp := by
  unfold Strand.setMask; split <;> rfl
@[simp] theorem Strand.setMask_vl (t : Strand) (m : BitVec 3) (v : BitVec 24576) : (t.setMask m v).vl = t.vl := by
  unfold Strand.setMask; split <;> rfl
@[simp] theorem Strand.setMask_vr (t : Strand) (m : BitVec 3) (v : BitVec 24576) : (t.setMask m v).vr = t.vr := by
  unfold Strand.setMask; split <;> rfl
@[simp] theorem Strand.setMask_gw (t : Strand) (m : BitVec 3) (v : BitVec 24576) : (t.setMask m v).gw = t.gw := by
  unfold Strand.setMask; split <;> rfl
@[simp] theorem Strand.setMask_flags (t : Strand) (m : BitVec 3) (v : BitVec 24576) : (t.setMask m v).flags = t.flags := by
  unfold Strand.setMask; split <;> rfl
@[simp] theorem Strand.setMask_tmask (t : Strand) (m : BitVec 3) (v : BitVec 24576) : (t.setMask m v).tmask = t.tmask := by
  unfold Strand.setMask; split <;> rfl
@[simp] theorem Strand.setMask_round (t : Strand) (m : BitVec 3) (v : BitVec 24576) : (t.setMask m v).round = t.round := by
  unfold Strand.setMask; split <;> rfl
@[simp] theorem Strand.setMask_seed (t : Strand) (m : BitVec 3) (v : BitVec 24576) : (t.setMask m v).seed = t.seed := by
  unfold Strand.setMask; split <;> rfl
@[simp] theorem Strand.setMask_rb (t : Strand) (m : BitVec 3) (v : BitVec 24576) : (t.setMask m v).rb = t.rb := by
  unfold Strand.setMask; split <;> rfl
@[simp] theorem Strand.setMask_loops (t : Strand) (m : BitVec 3) (v : BitVec 24576) : (t.setMask m v).loops = t.loops := by
  unfold Strand.setMask; split <;> rfl
@[simp] theorem Strand.setMask_pend (t : Strand) (m : BitVec 3) (v : BitVec 24576) : (t.setMask m v).pend = t.pend := by
  unfold Strand.setMask; split <;> rfl
@[simp] theorem Strand.setMask_arrived (t : Strand) (m : BitVec 3) (v : BitVec 24576) : (t.setMask m v).arrived = t.arrived := by
  unfold Strand.setMask; split <;> rfl
@[simp] theorem Strand.setMask_deco (t : Strand) (m : BitVec 3) (v : BitVec 24576) : (t.setMask m v).deco = t.deco := by
  unfold Strand.setMask; split <;> rfl
@[simp] theorem Strand.setMask_vreg (t : Strand) (m : BitVec 3) (v : BitVec 24576) : (t.setMask m v).vreg = t.vreg := by
  unfold Strand.setMask; split <;> rfl
@[simp] theorem Strand.setMask_mrows (t : Strand) (m : BitVec 3) (v : BitVec 24576) : (t.setMask m v).mrows = t.mrows := by
  unfold Strand.setMask; split <;> rfl
@[simp] theorem Strand.setMask_tiles (t : Strand) (m : BitVec 3) (v : BitVec 24576) : (t.setMask m v).tiles = t.tiles := by
  unfold Strand.setMask; split <;> rfl
@[simp] theorem Strand.setMask_bcount (t : Strand) (m : BitVec 3) (v : BitVec 24576) : (t.setMask m v).bcount = t.bcount := by
  unfold Strand.setMask; split <;> rfl
@[simp] theorem Strand.setMask_dfr (t : Strand) (m : BitVec 3) (v : BitVec 24576) : (t.setMask m v).dfr = t.dfr := by
  unfold Strand.setMask; split <;> rfl
@[simp] theorem Strand.setMask_dfrSig (t : Strand) (m : BitVec 3) (v : BitVec 24576) : (t.setMask m v).dfrSig = t.dfrSig := by
  unfold Strand.setMask; split <;> rfl
@[simp] theorem Strand.setMask_bqIn (t : Strand) (m : BitVec 3) (v : BitVec 24576) : (t.setMask m v).bqIn = t.bqIn := by
  unfold Strand.setMask; split <;> rfl
@[simp] theorem Strand.setMask_batchNext (t : Strand) (m : BitVec 3) (v : BitVec 24576) : (t.setMask m v).batchNext = t.batchNext := by
  unfold Strand.setMask; split <;> rfl
@[simp] theorem Strand.setMask_waiting (t : Strand) (m : BitVec 3) (v : BitVec 24576) : (t.setMask m v).waiting = t.waiting := by
  unfold Strand.setMask; split <;> rfl
@[simp] theorem Strand.setMask_wantsShuttle (t : Strand) (m : BitVec 3) (v : BitVec 24576) : (t.setMask m v).wantsShuttle = t.wantsShuttle := by
  unfold Strand.setMask; split <;> rfl

/-! ### Memory -/
@[simp] theorem Memory.setByte_tags (m : Memory) (a : Nat) (v : Byte) : (m.setByte a v).tags = m.tags := rfl
@[simp] theorem Memory.setTag_cells (m : Memory) (a : Nat) (t : Tag) : (m.setTag a t).cells = m.cells := rfl

/-! ### Queues, counters and knots of a core -/
@[simp] theorem State.setQueue_core_num (s : State) (q : BitVec 3) (x : TQueue) : (s.setQueue q x).core.num = s.core.num := rfl
@[simp] theorem State.setQueue_core_resident (s : State) (q : BitVec 3) (x : TQueue) : (s.setQueue q x).core.resident = s.core.resident := rfl
@[simp] theorem State.setQueue_core_handler (s : State) (q : BitVec 3) (x : TQueue) : (s.setQueue q x).core.handler = s.core.handler := rfl
@[simp] theorem State.setQueue_core_gang (s : State) (q : BitVec 3) (x : TQueue) : (s.setQueue q x).core.gang = s.core.gang := rfl
@[simp] theorem State.setQueue_core_strands (s : State) (q : BitVec 3) (x : TQueue) : (s.setQueue q x).core.strands = s.core.strands := rfl
@[simp] theorem State.setQueue_core_ft (s : State) (q : BitVec 3) (x : TQueue) : (s.setQueue q x).core.ft = s.core.ft := rfl
@[simp] theorem State.setQueue_core_pk (s : State) (q : BitVec 3) (x : TQueue) : (s.setQueue q x).core.pk = s.core.pk := rfl
@[simp] theorem State.setQueue_core_watch (s : State) (q : BitVec 3) (x : TQueue) : (s.setQueue q x).core.watch = s.core.watch := rfl
@[simp] theorem State.setQueue_core_knots (s : State) (q : BitVec 3) (x : TQueue) : (s.setQueue q x).core.knots = s.core.knots := rfl
@[simp] theorem State.setQueue_core_evq (s : State) (q : BitVec 3) (x : TQueue) : (s.setQueue q x).core.evq = s.core.evq := rfl
@[simp] theorem State.setQueue_core_evHeld (s : State) (q : BitVec 3) (x : TQueue) : (s.setQueue q x).core.evHeld = s.core.evHeld := rfl
@[simp] theorem State.setQueue_core_spad (s : State) (q : BitVec 3) (x : TQueue) : (s.setQueue q x).core.spad = s.core.spad := rfl
@[simp] theorem State.setQueue_core_feEmpty (s : State) (q : BitVec 3) (x : TQueue) : (s.setQueue q x).core.feEmpty = s.core.feEmpty := rfl
@[simp] theorem State.setQueue_core_far (s : State) (q : BitVec 3) (x : TQueue) : (s.setQueue q x).core.far = s.core.far := rfl
@[simp] theorem State.setQueue_core_lazy (s : State) (q : BitVec 3) (x : TQueue) : (s.setQueue q x).core.lazy = s.core.lazy := rfl
@[simp] theorem State.setQueue_core_copies (s : State) (q : BitVec 3) (x : TQueue) : (s.setQueue q x).core.copies = s.core.copies := rfl
@[simp] theorem State.setQueue_core_copyNext (s : State) (q : BitVec 3) (x : TQueue) : (s.setQueue q x).core.copyNext = s.core.copyNext := rfl
@[simp] theorem State.setQueue_core_batches (s : State) (q : BitVec 3) (x : TQueue) : (s.setQueue q x).core.batches = s.core.batches := rfl
@[simp] theorem State.setQueue_core_cmdq (s : State) (q : BitVec 3) (x : TQueue) : (s.setQueue q x).core.cmdq = s.core.cmdq := rfl
@[simp] theorem State.setQueue_core_bobbin (s : State) (q : BitVec 3) (x : TQueue) : (s.setQueue q x).core.bobbin = s.core.bobbin := rfl
@[simp] theorem State.setQueue_core_shSeed (s : State) (q : BitVec 3) (x : TQueue) : (s.setQueue q x).core.shSeed = s.core.shSeed := rfl
@[simp] theorem State.setQueue_core_engWrites (s : State) (q : BitVec 3) (x : TQueue) : (s.setQueue q x).core.engWrites = s.core.engWrites := rfl
@[simp] theorem State.setQueue_core_renqNo (s : State) (q : BitVec 3) (x : TQueue) : (s.setQueue q x).core.renqNo = s.core.renqNo := rfl
@[simp] theorem State.setQueue_core_rvec (s : State) (q : BitVec 3) (x : TQueue) : (s.setQueue q x).core.rvec = s.core.rvec := rfl
@[simp] theorem State.setQueue_core_epc (s : State) (q : BitVec 3) (x : TQueue) : (s.setQueue q x).core.epc = s.core.epc := rfl
@[simp] theorem State.setQueue_core_estat (s : State) (q : BitVec 3) (x : TQueue) : (s.setQueue q x).core.estat = s.core.estat := rfl
@[simp] theorem State.setQueue_core_rpend (s : State) (q : BitVec 3) (x : TQueue) : (s.setQueue q x).core.rpend = s.core.rpend := rfl
@[simp] theorem State.setQueue_core_renab (s : State) (q : BitVec 3) (x : TQueue) : (s.setQueue q x).core.renab = s.core.renab := rfl
@[simp] theorem State.setQueue_core_rroot (s : State) (q : BitVec 3) (x : TQueue) : (s.setQueue q x).core.rroot = s.core.rroot := rfl
@[simp] theorem State.setQueue_core_ctxsel (s : State) (q : BitVec 3) (x : TQueue) : (s.setQueue q x).core.ctxsel = s.core.ctxsel := rfl
@[simp] theorem State.setQueue_core_temp (s : State) (q : BitVec 3) (x : TQueue) : (s.setQueue q x).core.temp = s.core.temp := rfl
@[simp] theorem State.setQueue_core_ttrip (s : State) (q : BitVec 3) (x : TQueue) : (s.setQueue q x).core.ttrip = s.core.ttrip := rfl
@[simp] theorem State.setQueue_core_pwr (s : State) (q : BitVec 3) (x : TQueue) : (s.setQueue q x).core.pwr = s.core.pwr := rfl
@[simp] theorem State.setQueue_core_pwrReq (s : State) (q : BitVec 3) (x : TQueue) : (s.setQueue q x).core.pwrReq = s.core.pwrReq := rfl
@[simp] theorem State.setQueue_core_heatCd (s : State) (q : BitVec 3) (x : TQueue) : (s.setQueue q x).core.heatCd = s.core.heatCd := rfl
@[simp] theorem State.setQueue_core_heatS (s : State) (q : BitVec 3) (x : TQueue) : (s.setQueue q x).core.heatS = s.core.heatS := rfl
@[simp] theorem State.setQueue_core_errcnt (s : State) (q : BitVec 3) (x : TQueue) : (s.setQueue q x).core.errcnt = s.core.errcnt := rfl
@[simp] theorem State.setQueue_core_halted (s : State) (q : BitVec 3) (x : TQueue) : (s.setQueue q x).core.halted = s.core.halted := rfl
@[simp] theorem State.setQueue_core_dbgHalt (s : State) (q : BitVec 3) (x : TQueue) : (s.setQueue q x).core.dbgHalt = s.core.dbgHalt := rfl
@[simp] theorem State.setQueue_core_dbgStep (s : State) (q : BitVec 3) (x : TQueue) : (s.setQueue q x).core.dbgStep = s.core.dbgStep := rfl
@[simp] theorem State.setQueue_core_parkedCc (s : State) (q : BitVec 3) (x : TQueue) : (s.setQueue q x).core.parkedCc = s.core.parkedCc := rfl
@[simp] theorem State.setQueue_core_userLoops (s : State) (q : BitVec 3) (x : TQueue) : (s.setQueue q x).core.userLoops = s.core.userLoops := rfl
@[simp] theorem State.setQueue_core_assigned (s : State) (q : BitVec 3) (x : TQueue) : (s.setQueue q x).core.assigned = s.core.assigned := rfl
@[simp] theorem State.setQueue_core_laneHalf (s : State) (q : BitVec 3) (x : TQueue) : (s.setQueue q x).core.laneHalf = s.core.laneHalf := rfl
@[simp] theorem State.setQueue_core_engKinds (s : State) (q : BitVec 3) (x : TQueue) : (s.setQueue q x).core.engKinds = s.core.engKinds := rfl
@[simp] theorem State.setQueue_core_engAhead (s : State) (q : BitVec 3) (x : TQueue) : (s.setQueue q x).core.engAhead = s.core.engAhead := rfl
@[simp] theorem State.setQueue_core_baste (s : State) (q : BitVec 3) (x : TQueue) : (s.setQueue q x).core.baste = s.core.baste := rfl
@[simp] theorem State.setQueue_core_bbuf (s : State) (q : BitVec 3) (x : TQueue) : (s.setQueue q x).core.bbuf = s.core.bbuf := rfl
@[simp] theorem State.setQueue_core_bheadLag (s : State) (q : BitVec 3) (x : TQueue) : (s.setQueue q x).core.bheadLag = s.core.bheadLag := rfl
@[simp] theorem State.setQueue_core_inherit (s : State) (q : BitVec 3) (x : TQueue) : (s.setQueue q x).core.inherit = s.core.inherit := rfl
@[simp] theorem State.setQueue_core_shuttleLast (s : State) (q : BitVec 3) (x : TQueue) : (s.setQueue q x).core.shuttleLast = s.core.shuttleLast := rfl
@[simp] theorem State.setQueue_core_bare (s : State) (q : BitVec 3) (x : TQueue) : (s.setQueue q x).core.bare = s.core.bare := rfl
@[simp] theorem State.setQueue_core_arrivals (s : State) (q : BitVec 3) (x : TQueue) : (s.setQueue q x).core.arrivals = s.core.arrivals := rfl
@[simp] theorem State.setQueue_core_asked (s : State) (q : BitVec 3) (x : TQueue) : (s.setQueue q x).core.asked = s.core.asked := rfl
@[simp] theorem State.setQueue_st (s : State) (q : BitVec 3) (x : TQueue) : (s.setQueue q x).st = s.st := rfl
@[simp] theorem State.setQueue_dev (s : State) (q : BitVec 3) (x : TQueue) : (s.setQueue q x).dev = s.dev := rfl
@[simp] theorem State.setQueue_agenda (s : State) (q : BitVec 3) (x : TQueue) : (s.setQueue q x).agenda = s.agenda := rfl
@[simp] theorem State.putSpad_core_num (s : State) (o : Nat) (l : Line) (t : Tag) : (s.putSpad o l t).core.num = s.core.num := by
  unfold State.putSpad; rfl
@[simp] theorem State.putSpad_core_resident (s : State) (o : Nat) (l : Line) (t : Tag) : (s.putSpad o l t).core.resident = s.core.resident := by
  unfold State.putSpad; rfl
@[simp] theorem State.putSpad_core_handler (s : State) (o : Nat) (l : Line) (t : Tag) : (s.putSpad o l t).core.handler = s.core.handler := by
  unfold State.putSpad; rfl
@[simp] theorem State.putSpad_core_gang (s : State) (o : Nat) (l : Line) (t : Tag) : (s.putSpad o l t).core.gang = s.core.gang := by
  unfold State.putSpad; rfl
@[simp] theorem State.putSpad_core_strands (s : State) (o : Nat) (l : Line) (t : Tag) : (s.putSpad o l t).core.strands = s.core.strands := by
  unfold State.putSpad; rfl
@[simp] theorem State.putSpad_core_ft (s : State) (o : Nat) (l : Line) (t : Tag) : (s.putSpad o l t).core.ft = s.core.ft := by
  unfold State.putSpad; rfl
@[simp] theorem State.putSpad_core_pk (s : State) (o : Nat) (l : Line) (t : Tag) : (s.putSpad o l t).core.pk = s.core.pk := by
  unfold State.putSpad; rfl
@[simp] theorem State.putSpad_core_queues (s : State) (o : Nat) (l : Line) (t : Tag) : (s.putSpad o l t).core.queues = s.core.queues := by
  unfold State.putSpad; rfl
@[simp] theorem State.putSpad_core_watch (s : State) (o : Nat) (l : Line) (t : Tag) : (s.putSpad o l t).core.watch = s.core.watch := by
  unfold State.putSpad; rfl
@[simp] theorem State.putSpad_core_knots (s : State) (o : Nat) (l : Line) (t : Tag) : (s.putSpad o l t).core.knots = s.core.knots := by
  unfold State.putSpad; rfl
@[simp] theorem State.putSpad_core_evq (s : State) (o : Nat) (l : Line) (t : Tag) : (s.putSpad o l t).core.evq = s.core.evq := by
  unfold State.putSpad; rfl
@[simp] theorem State.putSpad_core_evHeld (s : State) (o : Nat) (l : Line) (t : Tag) : (s.putSpad o l t).core.evHeld = s.core.evHeld := by
  unfold State.putSpad; rfl
@[simp] theorem State.putSpad_core_feEmpty (s : State) (o : Nat) (l : Line) (t : Tag) : (s.putSpad o l t).core.feEmpty = s.core.feEmpty := by
  unfold State.putSpad; rfl
@[simp] theorem State.putSpad_core_far (s : State) (o : Nat) (l : Line) (t : Tag) : (s.putSpad o l t).core.far = s.core.far := by
  unfold State.putSpad; rfl
@[simp] theorem State.putSpad_core_lazy (s : State) (o : Nat) (l : Line) (t : Tag) : (s.putSpad o l t).core.lazy = s.core.lazy := by
  unfold State.putSpad; rfl
@[simp] theorem State.putSpad_core_copies (s : State) (o : Nat) (l : Line) (t : Tag) : (s.putSpad o l t).core.copies = s.core.copies := by
  unfold State.putSpad; rfl
@[simp] theorem State.putSpad_core_copyNext (s : State) (o : Nat) (l : Line) (t : Tag) : (s.putSpad o l t).core.copyNext = s.core.copyNext := by
  unfold State.putSpad; rfl
@[simp] theorem State.putSpad_core_batches (s : State) (o : Nat) (l : Line) (t : Tag) : (s.putSpad o l t).core.batches = s.core.batches := by
  unfold State.putSpad; rfl
@[simp] theorem State.putSpad_core_cmdq (s : State) (o : Nat) (l : Line) (t : Tag) : (s.putSpad o l t).core.cmdq = s.core.cmdq := by
  unfold State.putSpad; rfl
@[simp] theorem State.putSpad_core_bobbin (s : State) (o : Nat) (l : Line) (t : Tag) : (s.putSpad o l t).core.bobbin = s.core.bobbin := by
  unfold State.putSpad; rfl
@[simp] theorem State.putSpad_core_shSeed (s : State) (o : Nat) (l : Line) (t : Tag) : (s.putSpad o l t).core.shSeed = s.core.shSeed := by
  unfold State.putSpad; rfl
@[simp] theorem State.putSpad_core_engWrites (s : State) (o : Nat) (l : Line) (t : Tag) : (s.putSpad o l t).core.engWrites = s.core.engWrites := by
  unfold State.putSpad; rfl
@[simp] theorem State.putSpad_core_renqNo (s : State) (o : Nat) (l : Line) (t : Tag) : (s.putSpad o l t).core.renqNo = s.core.renqNo := by
  unfold State.putSpad; rfl
@[simp] theorem State.putSpad_core_rvec (s : State) (o : Nat) (l : Line) (t : Tag) : (s.putSpad o l t).core.rvec = s.core.rvec := by
  unfold State.putSpad; rfl
@[simp] theorem State.putSpad_core_epc (s : State) (o : Nat) (l : Line) (t : Tag) : (s.putSpad o l t).core.epc = s.core.epc := by
  unfold State.putSpad; rfl
@[simp] theorem State.putSpad_core_estat (s : State) (o : Nat) (l : Line) (t : Tag) : (s.putSpad o l t).core.estat = s.core.estat := by
  unfold State.putSpad; rfl
@[simp] theorem State.putSpad_core_rpend (s : State) (o : Nat) (l : Line) (t : Tag) : (s.putSpad o l t).core.rpend = s.core.rpend := by
  unfold State.putSpad; rfl
@[simp] theorem State.putSpad_core_renab (s : State) (o : Nat) (l : Line) (t : Tag) : (s.putSpad o l t).core.renab = s.core.renab := by
  unfold State.putSpad; rfl
@[simp] theorem State.putSpad_core_rroot (s : State) (o : Nat) (l : Line) (t : Tag) : (s.putSpad o l t).core.rroot = s.core.rroot := by
  unfold State.putSpad; rfl
@[simp] theorem State.putSpad_core_ctxsel (s : State) (o : Nat) (l : Line) (t : Tag) : (s.putSpad o l t).core.ctxsel = s.core.ctxsel := by
  unfold State.putSpad; rfl
@[simp] theorem State.putSpad_core_temp (s : State) (o : Nat) (l : Line) (t : Tag) : (s.putSpad o l t).core.temp = s.core.temp := by
  unfold State.putSpad; rfl
@[simp] theorem State.putSpad_core_ttrip (s : State) (o : Nat) (l : Line) (t : Tag) : (s.putSpad o l t).core.ttrip = s.core.ttrip := by
  unfold State.putSpad; rfl
@[simp] theorem State.putSpad_core_pwr (s : State) (o : Nat) (l : Line) (t : Tag) : (s.putSpad o l t).core.pwr = s.core.pwr := by
  unfold State.putSpad; rfl
@[simp] theorem State.putSpad_core_pwrReq (s : State) (o : Nat) (l : Line) (t : Tag) : (s.putSpad o l t).core.pwrReq = s.core.pwrReq := by
  unfold State.putSpad; rfl
@[simp] theorem State.putSpad_core_heatCd (s : State) (o : Nat) (l : Line) (t : Tag) : (s.putSpad o l t).core.heatCd = s.core.heatCd := by
  unfold State.putSpad; rfl
@[simp] theorem State.putSpad_core_heatS (s : State) (o : Nat) (l : Line) (t : Tag) : (s.putSpad o l t).core.heatS = s.core.heatS := by
  unfold State.putSpad; rfl
@[simp] theorem State.putSpad_core_errcnt (s : State) (o : Nat) (l : Line) (t : Tag) : (s.putSpad o l t).core.errcnt = s.core.errcnt := by
  unfold State.putSpad; rfl
@[simp] theorem State.putSpad_core_halted (s : State) (o : Nat) (l : Line) (t : Tag) : (s.putSpad o l t).core.halted = s.core.halted := by
  unfold State.putSpad; rfl
@[simp] theorem State.putSpad_core_dbgHalt (s : State) (o : Nat) (l : Line) (t : Tag) : (s.putSpad o l t).core.dbgHalt = s.core.dbgHalt := by
  unfold State.putSpad; rfl
@[simp] theorem State.putSpad_core_dbgStep (s : State) (o : Nat) (l : Line) (t : Tag) : (s.putSpad o l t).core.dbgStep = s.core.dbgStep := by
  unfold State.putSpad; rfl
@[simp] theorem State.putSpad_core_parkedCc (s : State) (o : Nat) (l : Line) (t : Tag) : (s.putSpad o l t).core.parkedCc = s.core.parkedCc := by
  unfold State.putSpad; rfl
@[simp] theorem State.putSpad_core_userLoops (s : State) (o : Nat) (l : Line) (t : Tag) : (s.putSpad o l t).core.userLoops = s.core.userLoops := by
  unfold State.putSpad; rfl
@[simp] theorem State.putSpad_core_assigned (s : State) (o : Nat) (l : Line) (t : Tag) : (s.putSpad o l t).core.assigned = s.core.assigned := by
  unfold State.putSpad; rfl
@[simp] theorem State.putSpad_core_laneHalf (s : State) (o : Nat) (l : Line) (t : Tag) : (s.putSpad o l t).core.laneHalf = s.core.laneHalf := by
  unfold State.putSpad; rfl
@[simp] theorem State.putSpad_core_engKinds (s : State) (o : Nat) (l : Line) (t : Tag) : (s.putSpad o l t).core.engKinds = s.core.engKinds := by
  unfold State.putSpad; rfl
@[simp] theorem State.putSpad_core_engAhead (s : State) (o : Nat) (l : Line) (t : Tag) : (s.putSpad o l t).core.engAhead = s.core.engAhead := by
  unfold State.putSpad; rfl
@[simp] theorem State.putSpad_core_baste (s : State) (o : Nat) (l : Line) (t : Tag) : (s.putSpad o l t).core.baste = s.core.baste := by
  unfold State.putSpad; rfl
@[simp] theorem State.putSpad_core_bbuf (s : State) (o : Nat) (l : Line) (t : Tag) : (s.putSpad o l t).core.bbuf = s.core.bbuf := by
  unfold State.putSpad; rfl
@[simp] theorem State.putSpad_core_bheadLag (s : State) (o : Nat) (l : Line) (t : Tag) : (s.putSpad o l t).core.bheadLag = s.core.bheadLag := by
  unfold State.putSpad; rfl
@[simp] theorem State.putSpad_core_inherit (s : State) (o : Nat) (l : Line) (t : Tag) : (s.putSpad o l t).core.inherit = s.core.inherit := by
  unfold State.putSpad; rfl
@[simp] theorem State.putSpad_core_shuttleLast (s : State) (o : Nat) (l : Line) (t : Tag) : (s.putSpad o l t).core.shuttleLast = s.core.shuttleLast := by
  unfold State.putSpad; rfl
@[simp] theorem State.putSpad_core_bare (s : State) (o : Nat) (l : Line) (t : Tag) : (s.putSpad o l t).core.bare = s.core.bare := by
  unfold State.putSpad; rfl
@[simp] theorem State.putSpad_core_arrivals (s : State) (o : Nat) (l : Line) (t : Tag) : (s.putSpad o l t).core.arrivals = s.core.arrivals := by
  unfold State.putSpad; rfl
@[simp] theorem State.putSpad_core_asked (s : State) (o : Nat) (l : Line) (t : Tag) : (s.putSpad o l t).core.asked = s.core.asked := by
  unfold State.putSpad; rfl
@[simp] theorem State.putSpad_st (s : State) (o : Nat) (l : Line) (t : Tag) : (s.putSpad o l t).st = s.st := by
  unfold State.putSpad; rfl
@[simp] theorem State.putSpad_dev (s : State) (o : Nat) (l : Line) (t : Tag) : (s.putSpad o l t).dev = s.dev := by
  unfold State.putSpad; rfl
@[simp] theorem State.putSpad_agenda (s : State) (o : Nat) (l : Line) (t : Tag) : (s.putSpad o l t).agenda = s.agenda := by
  unfold State.putSpad; rfl
@[simp] theorem State.putSpad_spad (s : State) (o : Nat) (l : Line) (t : Tag) : (s.putSpad o l t).core.spad = (s.core.spad.setLine o l).setTag o t := by
  unfold State.putSpad; rfl
@[simp] theorem State.setCtx_st (s : State) (g : Ctx → Ctx) : (s.setCtx g).st = s.st := rfl
@[simp] theorem State.setCtx_core (s : State) (g : Ctx → Ctx) : (s.setCtx g).core = s.core := rfl
@[simp] theorem State.setCtx_agenda (s : State) (g : Ctx → Ctx) : (s.setCtx g).agenda = s.agenda := rfl
@[simp] theorem Dev.updCtx_num (d : Dev) (c : Nat) (g : Ctx → Ctx) : (d.updCtx c g).num = d.num := rfl
@[simp] theorem Dev.updCtx_cores (d : Dev) (c : Nat) (g : Ctx → Ctx) : (d.updCtx c g).cores = d.cores := rfl
@[simp] theorem Dev.updCtx_mem (d : Dev) (c : Nat) (g : Ctx → Ctx) : (d.updCtx c g).mem = d.mem := rfl
@[simp] theorem Dev.updCtx_tagValid (d : Dev) (c : Nat) (g : Ctx → Ctx) : (d.updCtx c g).tagValid = d.tagValid := rfl
@[simp] theorem Dev.updCtx_packed (d : Dev) (c : Nat) (g : Ctx → Ctx) : (d.updCtx c g).packed = d.packed := rfl
@[simp] theorem Dev.updCtx_rmCache (d : Dev) (c : Nat) (g : Ctx → Ctx) : (d.updCtx c g).rmCache = d.rmCache := rfl
@[simp] theorem Dev.updCtx_parts (d : Dev) (c : Nat) (g : Ctx → Ctx) : (d.updCtx c g).parts = d.parts := rfl
@[simp] theorem Dev.updCtx_walker (d : Dev) (c : Nat) (g : Ctx → Ctx) : (d.updCtx c g).walker = d.walker := rfl
@[simp] theorem Dev.updCtx_starts (d : Dev) (c : Nat) (g : Ctx → Ctx) : (d.updCtx c g).starts = d.starts := rfl
@[simp] theorem Dev.updCtx_handles (d : Dev) (c : Nat) (g : Ctx → Ctx) : (d.updCtx c g).handles = d.handles := rfl
@[simp] theorem Dev.updCtx_tlb (d : Dev) (c : Nat) (g : Ctx → Ctx) : (d.updCtx c g).tlb = d.tlb := rfl
@[simp] theorem Dev.updCtx_cotab (d : Dev) (c : Nat) (g : Ctx → Ctx) : (d.updCtx c g).cotab = d.cotab := rfl
@[simp] theorem Dev.updCtx_verified (d : Dev) (c : Nat) (g : Ctx → Ctx) : (d.updCtx c g).verified = d.verified := rfl
@[simp] theorem Dev.updCtx_rmbase (d : Dev) (c : Nat) (g : Ctx → Ctx) : (d.updCtx c g).rmbase = d.rmbase := rfl
@[simp] theorem Dev.updCtx_breached (d : Dev) (c : Nat) (g : Ctx → Ctx) : (d.updCtx c g).breached = d.breached := rfl
@[simp] theorem Dev.updCtx_stage (d : Dev) (c : Nat) (g : Ctx → Ctx) : (d.updCtx c g).stage = d.stage := rfl
@[simp] theorem Dev.updCtx_heatcfg (d : Dev) (c : Nat) (g : Ctx → Ctx) : (d.updCtx c g).heatcfg = d.heatcfg := rfl
@[simp] theorem Dev.updCtx_ptab (d : Dev) (c : Nat) (g : Ctx → Ctx) : (d.updCtx c g).ptab = d.ptab := rfl
@[simp] theorem Dev.updCtx_spbase (d : Dev) (c : Nat) (g : Ctx → Ctx) : (d.updCtx c g).spbase = d.spbase := rfl
@[simp] theorem Dev.updCtx_spstk (d : Dev) (c : Nat) (g : Ctx → Ctx) : (d.updCtx c g).spstk = d.spstk := rfl
@[simp] theorem Dev.updCtx_sptop (d : Dev) (c : Nat) (g : Ctx → Ctx) : (d.updCtx c g).sptop = d.sptop := rfl
@[simp] theorem Dev.updCtx_spesc (d : Dev) (c : Nat) (g : Ctx → Ctx) : (d.updCtx c g).spesc = d.spesc := rfl
@[simp] theorem Dev.updCtx_staged (d : Dev) (c : Nat) (g : Ctx → Ctx) : (d.updCtx c g).staged = d.staged := rfl
@[simp] theorem Dev.updCtx_flash (d : Dev) (c : Nat) (g : Ctx → Ctx) : (d.updCtx c g).flash = d.flash := rfl
@[simp] theorem Dev.updCtx_flashBad (d : Dev) (c : Nat) (g : Ctx → Ctx) : (d.updCtx c g).flashBad = d.flashBad := rfl
@[simp] theorem Dev.updCtx_rollbacks (d : Dev) (c : Nat) (g : Ctx → Ctx) : (d.updCtx c g).rollbacks = d.rollbacks := rfl
@[simp] theorem Dev.updCtx_rollTag (d : Dev) (c : Nat) (g : Ctx → Ctx) : (d.updCtx c g).rollTag = d.rollTag := rfl
@[simp] theorem Dev.updCtx_installs (d : Dev) (c : Nat) (g : Ctx → Ctx) : (d.updCtx c g).installs = d.installs := rfl
@[simp] theorem Dev.updCtx_recodes (d : Dev) (c : Nat) (g : Ctx → Ctx) : (d.updCtx c g).recodes = d.recodes := rfl
@[simp] theorem Dev.updCtx_swaps (d : Dev) (c : Nat) (g : Ctx → Ctx) : (d.updCtx c g).swaps = d.swaps := rfl
@[simp] theorem Dev.updCtx_clasps (d : Dev) (c : Nat) (g : Ctx → Ctx) : (d.updCtx c g).clasps = d.clasps := rfl
@[simp] theorem Dev.updCtx_tokens (d : Dev) (c : Nat) (g : Ctx → Ctx) : (d.updCtx c g).tokens = d.tokens := rfl
@[simp] theorem Dev.updCtx_wbNext (d : Dev) (c : Nat) (g : Ctx → Ctx) : (d.updCtx c g).wbNext = d.wbNext := rfl
@[simp] theorem Dev.updCtx_hostLines (d : Dev) (c : Nat) (g : Ctx → Ctx) : (d.updCtx c g).hostLines = d.hostLines := rfl
@[simp] theorem Dev.updCtx_hostCache (d : Dev) (c : Nat) (g : Ctx → Ctx) : (d.updCtx c g).hostCache = d.hostCache := rfl
@[simp] theorem Dev.updCtx_links (d : Dev) (c : Nat) (g : Ctx → Ctx) : (d.updCtx c g).links = d.links := rfl
@[simp] theorem Dev.updCtx_config (d : Dev) (c : Nat) (g : Ctx → Ctx) : (d.updCtx c g).config = d.config := rfl
@[simp] theorem Dev.updCtx_record (d : Dev) (c : Nat) (g : Ctx → Ctx) : (d.updCtx c g).record = d.record := rfl
@[simp] theorem Dev.updCtx_saved (d : Dev) (c : Nat) (g : Ctx → Ctx) : (d.updCtx c g).saved = d.saved := rfl
@[simp] theorem Dev.updCtx_powered (d : Dev) (c : Nat) (g : Ctx → Ctx) : (d.updCtx c g).powered = d.powered := rfl
@[simp] theorem Dev.updCtx_failed (d : Dev) (c : Nat) (g : Ctx → Ctx) : (d.updCtx c g).failed = d.failed := rfl
@[simp] theorem Dev.updCtx_dbgLevel (d : Dev) (c : Nat) (g : Ctx → Ctx) : (d.updCtx c g).dbgLevel = d.dbgLevel := rfl
@[simp] theorem Dev.updCtx_consent (d : Dev) (c : Nat) (g : Ctx → Ctx) : (d.updCtx c g).consent = d.consent := rfl
@[simp] theorem Dev.updCtx_opPoint (d : Dev) (c : Nat) (g : Ctx → Ctx) : (d.updCtx c g).opPoint = d.opPoint := rfl
@[simp] theorem Dev.updCtx_dieErr (d : Dev) (c : Nat) (g : Ctx → Ctx) : (d.updCtx c g).dieErr = d.dieErr := rfl
@[simp] theorem Dev.updCtx_bringUps (d : Dev) (c : Nat) (g : Ctx → Ctx) : (d.updCtx c g).bringUps = d.bringUps := rfl
@[simp] theorem Dev.updCtx_free (d : Dev) (c : Nat) (g : Ctx → Ctx) : (d.updCtx c g).free = d.free := rfl
@[simp] theorem Dev.updPart_num (d : Dev) (p : Nat) (g : Part → Part) : (d.updPart p g).num = d.num := by
  unfold Dev.updPart; split <;> rfl
@[simp] theorem Dev.updPart_cores (d : Dev) (p : Nat) (g : Part → Part) : (d.updPart p g).cores = d.cores := by
  unfold Dev.updPart; split <;> rfl
@[simp] theorem Dev.updPart_mem (d : Dev) (p : Nat) (g : Part → Part) : (d.updPart p g).mem = d.mem := by
  unfold Dev.updPart; split <;> rfl
@[simp] theorem Dev.updPart_tagValid (d : Dev) (p : Nat) (g : Part → Part) : (d.updPart p g).tagValid = d.tagValid := by
  unfold Dev.updPart; split <;> rfl
@[simp] theorem Dev.updPart_packed (d : Dev) (p : Nat) (g : Part → Part) : (d.updPart p g).packed = d.packed := by
  unfold Dev.updPart; split <;> rfl
@[simp] theorem Dev.updPart_rmCache (d : Dev) (p : Nat) (g : Part → Part) : (d.updPart p g).rmCache = d.rmCache := by
  unfold Dev.updPart; split <;> rfl
@[simp] theorem Dev.updPart_ctxs (d : Dev) (p : Nat) (g : Part → Part) : (d.updPart p g).ctxs = d.ctxs := by
  unfold Dev.updPart; split <;> rfl
@[simp] theorem Dev.updPart_walker (d : Dev) (p : Nat) (g : Part → Part) : (d.updPart p g).walker = d.walker := by
  unfold Dev.updPart; split <;> rfl
@[simp] theorem Dev.updPart_starts (d : Dev) (p : Nat) (g : Part → Part) : (d.updPart p g).starts = d.starts := by
  unfold Dev.updPart; split <;> rfl
@[simp] theorem Dev.updPart_handles (d : Dev) (p : Nat) (g : Part → Part) : (d.updPart p g).handles = d.handles := by
  unfold Dev.updPart; split <;> rfl
@[simp] theorem Dev.updPart_tlb (d : Dev) (p : Nat) (g : Part → Part) : (d.updPart p g).tlb = d.tlb := by
  unfold Dev.updPart; split <;> rfl
@[simp] theorem Dev.updPart_cotab (d : Dev) (p : Nat) (g : Part → Part) : (d.updPart p g).cotab = d.cotab := by
  unfold Dev.updPart; split <;> rfl
@[simp] theorem Dev.updPart_verified (d : Dev) (p : Nat) (g : Part → Part) : (d.updPart p g).verified = d.verified := by
  unfold Dev.updPart; split <;> rfl
@[simp] theorem Dev.updPart_rmbase (d : Dev) (p : Nat) (g : Part → Part) : (d.updPart p g).rmbase = d.rmbase := by
  unfold Dev.updPart; split <;> rfl
@[simp] theorem Dev.updPart_breached (d : Dev) (p : Nat) (g : Part → Part) : (d.updPart p g).breached = d.breached := by
  unfold Dev.updPart; split <;> rfl
@[simp] theorem Dev.updPart_stage (d : Dev) (p : Nat) (g : Part → Part) : (d.updPart p g).stage = d.stage := by
  unfold Dev.updPart; split <;> rfl
@[simp] theorem Dev.updPart_heatcfg (d : Dev) (p : Nat) (g : Part → Part) : (d.updPart p g).heatcfg = d.heatcfg := by
  unfold Dev.updPart; split <;> rfl
@[simp] theorem Dev.updPart_ptab (d : Dev) (p : Nat) (g : Part → Part) : (d.updPart p g).ptab = d.ptab := by
  unfold Dev.updPart; split <;> rfl
@[simp] theorem Dev.updPart_spbase (d : Dev) (p : Nat) (g : Part → Part) : (d.updPart p g).spbase = d.spbase := by
  unfold Dev.updPart; split <;> rfl
@[simp] theorem Dev.updPart_spstk (d : Dev) (p : Nat) (g : Part → Part) : (d.updPart p g).spstk = d.spstk := by
  unfold Dev.updPart; split <;> rfl
@[simp] theorem Dev.updPart_sptop (d : Dev) (p : Nat) (g : Part → Part) : (d.updPart p g).sptop = d.sptop := by
  unfold Dev.updPart; split <;> rfl
@[simp] theorem Dev.updPart_spesc (d : Dev) (p : Nat) (g : Part → Part) : (d.updPart p g).spesc = d.spesc := by
  unfold Dev.updPart; split <;> rfl
@[simp] theorem Dev.updPart_staged (d : Dev) (p : Nat) (g : Part → Part) : (d.updPart p g).staged = d.staged := by
  unfold Dev.updPart; split <;> rfl
@[simp] theorem Dev.updPart_flash (d : Dev) (p : Nat) (g : Part → Part) : (d.updPart p g).flash = d.flash := by
  unfold Dev.updPart; split <;> rfl
@[simp] theorem Dev.updPart_flashBad (d : Dev) (p : Nat) (g : Part → Part) : (d.updPart p g).flashBad = d.flashBad := by
  unfold Dev.updPart; split <;> rfl
@[simp] theorem Dev.updPart_rollbacks (d : Dev) (p : Nat) (g : Part → Part) : (d.updPart p g).rollbacks = d.rollbacks := by
  unfold Dev.updPart; split <;> rfl
@[simp] theorem Dev.updPart_rollTag (d : Dev) (p : Nat) (g : Part → Part) : (d.updPart p g).rollTag = d.rollTag := by
  unfold Dev.updPart; split <;> rfl
@[simp] theorem Dev.updPart_installs (d : Dev) (p : Nat) (g : Part → Part) : (d.updPart p g).installs = d.installs := by
  unfold Dev.updPart; split <;> rfl
@[simp] theorem Dev.updPart_recodes (d : Dev) (p : Nat) (g : Part → Part) : (d.updPart p g).recodes = d.recodes := by
  unfold Dev.updPart; split <;> rfl
@[simp] theorem Dev.updPart_swaps (d : Dev) (p : Nat) (g : Part → Part) : (d.updPart p g).swaps = d.swaps := by
  unfold Dev.updPart; split <;> rfl
@[simp] theorem Dev.updPart_clasps (d : Dev) (p : Nat) (g : Part → Part) : (d.updPart p g).clasps = d.clasps := by
  unfold Dev.updPart; split <;> rfl
@[simp] theorem Dev.updPart_tokens (d : Dev) (p : Nat) (g : Part → Part) : (d.updPart p g).tokens = d.tokens := by
  unfold Dev.updPart; split <;> rfl
@[simp] theorem Dev.updPart_wbNext (d : Dev) (p : Nat) (g : Part → Part) : (d.updPart p g).wbNext = d.wbNext := by
  unfold Dev.updPart; split <;> rfl
@[simp] theorem Dev.updPart_hostLines (d : Dev) (p : Nat) (g : Part → Part) : (d.updPart p g).hostLines = d.hostLines := by
  unfold Dev.updPart; split <;> rfl
@[simp] theorem Dev.updPart_hostCache (d : Dev) (p : Nat) (g : Part → Part) : (d.updPart p g).hostCache = d.hostCache := by
  unfold Dev.updPart; split <;> rfl
@[simp] theorem Dev.updPart_links (d : Dev) (p : Nat) (g : Part → Part) : (d.updPart p g).links = d.links := by
  unfold Dev.updPart; split <;> rfl
@[simp] theorem Dev.updPart_config (d : Dev) (p : Nat) (g : Part → Part) : (d.updPart p g).config = d.config := by
  unfold Dev.updPart; split <;> rfl
@[simp] theorem Dev.updPart_record (d : Dev) (p : Nat) (g : Part → Part) : (d.updPart p g).record = d.record := by
  unfold Dev.updPart; split <;> rfl
@[simp] theorem Dev.updPart_saved (d : Dev) (p : Nat) (g : Part → Part) : (d.updPart p g).saved = d.saved := by
  unfold Dev.updPart; split <;> rfl
@[simp] theorem Dev.updPart_powered (d : Dev) (p : Nat) (g : Part → Part) : (d.updPart p g).powered = d.powered := by
  unfold Dev.updPart; split <;> rfl
@[simp] theorem Dev.updPart_failed (d : Dev) (p : Nat) (g : Part → Part) : (d.updPart p g).failed = d.failed := by
  unfold Dev.updPart; split <;> rfl
@[simp] theorem Dev.updPart_dbgLevel (d : Dev) (p : Nat) (g : Part → Part) : (d.updPart p g).dbgLevel = d.dbgLevel := by
  unfold Dev.updPart; split <;> rfl
@[simp] theorem Dev.updPart_consent (d : Dev) (p : Nat) (g : Part → Part) : (d.updPart p g).consent = d.consent := by
  unfold Dev.updPart; split <;> rfl
@[simp] theorem Dev.updPart_opPoint (d : Dev) (p : Nat) (g : Part → Part) : (d.updPart p g).opPoint = d.opPoint := by
  unfold Dev.updPart; split <;> rfl
@[simp] theorem Dev.updPart_dieErr (d : Dev) (p : Nat) (g : Part → Part) : (d.updPart p g).dieErr = d.dieErr := by
  unfold Dev.updPart; split <;> rfl
@[simp] theorem Dev.updPart_bringUps (d : Dev) (p : Nat) (g : Part → Part) : (d.updPart p g).bringUps = d.bringUps := by
  unfold Dev.updPart; split <;> rfl
@[simp] theorem Dev.updPart_free (d : Dev) (p : Nat) (g : Part → Part) : (d.updPart p g).free = d.free := by
  unfold Dev.updPart; split <;> rfl
@[simp] theorem Dev.putTag_num (d : Dev) (a : Nat) (t : Tag) : (d.putTag a t).num = d.num := by
  unfold Dev.putTag; dsimp only; repeat' split
  all_goals rfl
@[simp] theorem Dev.putTag_cores (d : Dev) (a : Nat) (t : Tag) : (d.putTag a t).cores = d.cores := by
  unfold Dev.putTag; dsimp only; repeat' split
  all_goals rfl
@[simp] theorem Dev.putTag_packed (d : Dev) (a : Nat) (t : Tag) : (d.putTag a t).packed = d.packed := by
  unfold Dev.putTag; dsimp only; repeat' split
  all_goals rfl
@[simp] theorem Dev.putTag_rmCache (d : Dev) (a : Nat) (t : Tag) : (d.putTag a t).rmCache = d.rmCache := by
  unfold Dev.putTag; dsimp only; repeat' split
  all_goals rfl
@[simp] theorem Dev.putTag_ctxs (d : Dev) (a : Nat) (t : Tag) : (d.putTag a t).ctxs = d.ctxs := by
  unfold Dev.putTag; dsimp only; repeat' split
  all_goals rfl
@[simp] theorem Dev.putTag_parts (d : Dev) (a : Nat) (t : Tag) : (d.putTag a t).parts = d.parts := by
  unfold Dev.putTag; dsimp only; repeat' split
  all_goals rfl
@[simp] theorem Dev.putTag_walker (d : Dev) (a : Nat) (t : Tag) : (d.putTag a t).walker = d.walker := by
  unfold Dev.putTag; dsimp only; repeat' split
  all_goals rfl
@[simp] theorem Dev.putTag_starts (d : Dev) (a : Nat) (t : Tag) : (d.putTag a t).starts = d.starts := by
  unfold Dev.putTag; dsimp only; repeat' split
  all_goals rfl
@[simp] theorem Dev.putTag_handles (d : Dev) (a : Nat) (t : Tag) : (d.putTag a t).handles = d.handles := by
  unfold Dev.putTag; dsimp only; repeat' split
  all_goals rfl
@[simp] theorem Dev.putTag_tlb (d : Dev) (a : Nat) (t : Tag) : (d.putTag a t).tlb = d.tlb := by
  unfold Dev.putTag; dsimp only; repeat' split
  all_goals rfl
@[simp] theorem Dev.putTag_cotab (d : Dev) (a : Nat) (t : Tag) : (d.putTag a t).cotab = d.cotab := by
  unfold Dev.putTag; dsimp only; repeat' split
  all_goals rfl
@[simp] theorem Dev.putTag_verified (d : Dev) (a : Nat) (t : Tag) : (d.putTag a t).verified = d.verified := by
  unfold Dev.putTag; dsimp only; repeat' split
  all_goals rfl
@[simp] theorem Dev.putTag_rmbase (d : Dev) (a : Nat) (t : Tag) : (d.putTag a t).rmbase = d.rmbase := by
  unfold Dev.putTag; dsimp only; repeat' split
  all_goals rfl
@[simp] theorem Dev.putTag_breached (d : Dev) (a : Nat) (t : Tag) : (d.putTag a t).breached = d.breached := by
  unfold Dev.putTag; dsimp only; repeat' split
  all_goals rfl
@[simp] theorem Dev.putTag_stage (d : Dev) (a : Nat) (t : Tag) : (d.putTag a t).stage = d.stage := by
  unfold Dev.putTag; dsimp only; repeat' split
  all_goals rfl
@[simp] theorem Dev.putTag_heatcfg (d : Dev) (a : Nat) (t : Tag) : (d.putTag a t).heatcfg = d.heatcfg := by
  unfold Dev.putTag; dsimp only; repeat' split
  all_goals rfl
@[simp] theorem Dev.putTag_ptab (d : Dev) (a : Nat) (t : Tag) : (d.putTag a t).ptab = d.ptab := by
  unfold Dev.putTag; dsimp only; repeat' split
  all_goals rfl
@[simp] theorem Dev.putTag_spbase (d : Dev) (a : Nat) (t : Tag) : (d.putTag a t).spbase = d.spbase := by
  unfold Dev.putTag; dsimp only; repeat' split
  all_goals rfl
@[simp] theorem Dev.putTag_spstk (d : Dev) (a : Nat) (t : Tag) : (d.putTag a t).spstk = d.spstk := by
  unfold Dev.putTag; dsimp only; repeat' split
  all_goals rfl
@[simp] theorem Dev.putTag_sptop (d : Dev) (a : Nat) (t : Tag) : (d.putTag a t).sptop = d.sptop := by
  unfold Dev.putTag; dsimp only; repeat' split
  all_goals rfl
@[simp] theorem Dev.putTag_spesc (d : Dev) (a : Nat) (t : Tag) : (d.putTag a t).spesc = d.spesc := by
  unfold Dev.putTag; dsimp only; repeat' split
  all_goals rfl
@[simp] theorem Dev.putTag_staged (d : Dev) (a : Nat) (t : Tag) : (d.putTag a t).staged = d.staged := by
  unfold Dev.putTag; dsimp only; repeat' split
  all_goals rfl
@[simp] theorem Dev.putTag_flash (d : Dev) (a : Nat) (t : Tag) : (d.putTag a t).flash = d.flash := by
  unfold Dev.putTag; dsimp only; repeat' split
  all_goals rfl
@[simp] theorem Dev.putTag_flashBad (d : Dev) (a : Nat) (t : Tag) : (d.putTag a t).flashBad = d.flashBad := by
  unfold Dev.putTag; dsimp only; repeat' split
  all_goals rfl
@[simp] theorem Dev.putTag_rollbacks (d : Dev) (a : Nat) (t : Tag) : (d.putTag a t).rollbacks = d.rollbacks := by
  unfold Dev.putTag; dsimp only; repeat' split
  all_goals rfl
@[simp] theorem Dev.putTag_rollTag (d : Dev) (a : Nat) (t : Tag) : (d.putTag a t).rollTag = d.rollTag := by
  unfold Dev.putTag; dsimp only; repeat' split
  all_goals rfl
@[simp] theorem Dev.putTag_installs (d : Dev) (a : Nat) (t : Tag) : (d.putTag a t).installs = d.installs := by
  unfold Dev.putTag; dsimp only; repeat' split
  all_goals rfl
@[simp] theorem Dev.putTag_recodes (d : Dev) (a : Nat) (t : Tag) : (d.putTag a t).recodes = d.recodes := by
  unfold Dev.putTag; dsimp only; repeat' split
  all_goals rfl
@[simp] theorem Dev.putTag_swaps (d : Dev) (a : Nat) (t : Tag) : (d.putTag a t).swaps = d.swaps := by
  unfold Dev.putTag; dsimp only; repeat' split
  all_goals rfl
@[simp] theorem Dev.putTag_clasps (d : Dev) (a : Nat) (t : Tag) : (d.putTag a t).clasps = d.clasps := by
  unfold Dev.putTag; dsimp only; repeat' split
  all_goals rfl
@[simp] theorem Dev.putTag_tokens (d : Dev) (a : Nat) (t : Tag) : (d.putTag a t).tokens = d.tokens := by
  unfold Dev.putTag; dsimp only; repeat' split
  all_goals rfl
@[simp] theorem Dev.putTag_wbNext (d : Dev) (a : Nat) (t : Tag) : (d.putTag a t).wbNext = d.wbNext := by
  unfold Dev.putTag; dsimp only; repeat' split
  all_goals rfl
@[simp] theorem Dev.putTag_hostLines (d : Dev) (a : Nat) (t : Tag) : (d.putTag a t).hostLines = d.hostLines := by
  unfold Dev.putTag; dsimp only; repeat' split
  all_goals rfl
@[simp] theorem Dev.putTag_hostCache (d : Dev) (a : Nat) (t : Tag) : (d.putTag a t).hostCache = d.hostCache := by
  unfold Dev.putTag; dsimp only; repeat' split
  all_goals rfl
@[simp] theorem Dev.putTag_links (d : Dev) (a : Nat) (t : Tag) : (d.putTag a t).links = d.links := by
  unfold Dev.putTag; dsimp only; repeat' split
  all_goals rfl
@[simp] theorem Dev.putTag_config (d : Dev) (a : Nat) (t : Tag) : (d.putTag a t).config = d.config := by
  unfold Dev.putTag; dsimp only; repeat' split
  all_goals rfl
@[simp] theorem Dev.putTag_record (d : Dev) (a : Nat) (t : Tag) : (d.putTag a t).record = d.record := by
  unfold Dev.putTag; dsimp only; repeat' split
  all_goals rfl
@[simp] theorem Dev.putTag_saved (d : Dev) (a : Nat) (t : Tag) : (d.putTag a t).saved = d.saved := by
  unfold Dev.putTag; dsimp only; repeat' split
  all_goals rfl
@[simp] theorem Dev.putTag_powered (d : Dev) (a : Nat) (t : Tag) : (d.putTag a t).powered = d.powered := by
  unfold Dev.putTag; dsimp only; repeat' split
  all_goals rfl
@[simp] theorem Dev.putTag_failed (d : Dev) (a : Nat) (t : Tag) : (d.putTag a t).failed = d.failed := by
  unfold Dev.putTag; dsimp only; repeat' split
  all_goals rfl
@[simp] theorem Dev.putTag_dbgLevel (d : Dev) (a : Nat) (t : Tag) : (d.putTag a t).dbgLevel = d.dbgLevel := by
  unfold Dev.putTag; dsimp only; repeat' split
  all_goals rfl
@[simp] theorem Dev.putTag_consent (d : Dev) (a : Nat) (t : Tag) : (d.putTag a t).consent = d.consent := by
  unfold Dev.putTag; dsimp only; repeat' split
  all_goals rfl
@[simp] theorem Dev.putTag_opPoint (d : Dev) (a : Nat) (t : Tag) : (d.putTag a t).opPoint = d.opPoint := by
  unfold Dev.putTag; dsimp only; repeat' split
  all_goals rfl
@[simp] theorem Dev.putTag_dieErr (d : Dev) (a : Nat) (t : Tag) : (d.putTag a t).dieErr = d.dieErr := by
  unfold Dev.putTag; dsimp only; repeat' split
  all_goals rfl
@[simp] theorem Dev.putTag_bringUps (d : Dev) (a : Nat) (t : Tag) : (d.putTag a t).bringUps = d.bringUps := by
  unfold Dev.putTag; dsimp only; repeat' split
  all_goals rfl
@[simp] theorem Dev.putTag_free (d : Dev) (a : Nat) (t : Tag) : (d.putTag a t).free = d.free := by
  unfold Dev.putTag; dsimp only; repeat' split
  all_goals rfl
@[simp] theorem Dev.hostTake_num (d : Dev) (a : Nat) : (d.hostTake a).num = d.num := by
  unfold Dev.hostTake
  split
  · rfl
  · dsimp only
    split
    · rfl
    · split <;> simp
@[simp] theorem Dev.hostTake_cores (d : Dev) (a : Nat) : (d.hostTake a).cores = d.cores := by
  unfold Dev.hostTake
  split
  · rfl
  · dsimp only
    split
    · rfl
    · split <;> simp
@[simp] theorem Dev.hostTake_packed (d : Dev) (a : Nat) : (d.hostTake a).packed = d.packed := by
  unfold Dev.hostTake
  split
  · rfl
  · dsimp only
    split
    · rfl
    · split <;> simp
@[simp] theorem Dev.hostTake_rmCache (d : Dev) (a : Nat) : (d.hostTake a).rmCache = d.rmCache := by
  unfold Dev.hostTake
  split
  · rfl
  · dsimp only
    split
    · rfl
    · split <;> simp
@[simp] theorem Dev.hostTake_ctxs (d : Dev) (a : Nat) : (d.hostTake a).ctxs = d.ctxs := by
  unfold Dev.hostTake
  split
  · rfl
  · dsimp only
    split
    · rfl
    · split <;> simp
@[simp] theorem Dev.hostTake_parts (d : Dev) (a : Nat) : (d.hostTake a).parts = d.parts := by
  unfold Dev.hostTake
  split
  · rfl
  · dsimp only
    split
    · rfl
    · split <;> simp
@[simp] theorem Dev.hostTake_walker (d : Dev) (a : Nat) : (d.hostTake a).walker = d.walker := by
  unfold Dev.hostTake
  split
  · rfl
  · dsimp only
    split
    · rfl
    · split <;> simp
@[simp] theorem Dev.hostTake_starts (d : Dev) (a : Nat) : (d.hostTake a).starts = d.starts := by
  unfold Dev.hostTake
  split
  · rfl
  · dsimp only
    split
    · rfl
    · split <;> simp
@[simp] theorem Dev.hostTake_handles (d : Dev) (a : Nat) : (d.hostTake a).handles = d.handles := by
  unfold Dev.hostTake
  split
  · rfl
  · dsimp only
    split
    · rfl
    · split <;> simp
@[simp] theorem Dev.hostTake_tlb (d : Dev) (a : Nat) : (d.hostTake a).tlb = d.tlb := by
  unfold Dev.hostTake
  split
  · rfl
  · dsimp only
    split
    · rfl
    · split <;> simp
@[simp] theorem Dev.hostTake_cotab (d : Dev) (a : Nat) : (d.hostTake a).cotab = d.cotab := by
  unfold Dev.hostTake
  split
  · rfl
  · dsimp only
    split
    · rfl
    · split <;> simp
@[simp] theorem Dev.hostTake_verified (d : Dev) (a : Nat) : (d.hostTake a).verified = d.verified := by
  unfold Dev.hostTake
  split
  · rfl
  · dsimp only
    split
    · rfl
    · split <;> simp
@[simp] theorem Dev.hostTake_rmbase (d : Dev) (a : Nat) : (d.hostTake a).rmbase = d.rmbase := by
  unfold Dev.hostTake
  split
  · rfl
  · dsimp only
    split
    · rfl
    · split <;> simp
@[simp] theorem Dev.hostTake_breached (d : Dev) (a : Nat) : (d.hostTake a).breached = d.breached := by
  unfold Dev.hostTake
  split
  · rfl
  · dsimp only
    split
    · rfl
    · split <;> simp
@[simp] theorem Dev.hostTake_stage (d : Dev) (a : Nat) : (d.hostTake a).stage = d.stage := by
  unfold Dev.hostTake
  split
  · rfl
  · dsimp only
    split
    · rfl
    · split <;> simp
@[simp] theorem Dev.hostTake_heatcfg (d : Dev) (a : Nat) : (d.hostTake a).heatcfg = d.heatcfg := by
  unfold Dev.hostTake
  split
  · rfl
  · dsimp only
    split
    · rfl
    · split <;> simp
@[simp] theorem Dev.hostTake_ptab (d : Dev) (a : Nat) : (d.hostTake a).ptab = d.ptab := by
  unfold Dev.hostTake
  split
  · rfl
  · dsimp only
    split
    · rfl
    · split <;> simp
@[simp] theorem Dev.hostTake_spbase (d : Dev) (a : Nat) : (d.hostTake a).spbase = d.spbase := by
  unfold Dev.hostTake
  split
  · rfl
  · dsimp only
    split
    · rfl
    · split <;> simp
@[simp] theorem Dev.hostTake_spstk (d : Dev) (a : Nat) : (d.hostTake a).spstk = d.spstk := by
  unfold Dev.hostTake
  split
  · rfl
  · dsimp only
    split
    · rfl
    · split <;> simp
@[simp] theorem Dev.hostTake_sptop (d : Dev) (a : Nat) : (d.hostTake a).sptop = d.sptop := by
  unfold Dev.hostTake
  split
  · rfl
  · dsimp only
    split
    · rfl
    · split <;> simp
@[simp] theorem Dev.hostTake_spesc (d : Dev) (a : Nat) : (d.hostTake a).spesc = d.spesc := by
  unfold Dev.hostTake
  split
  · rfl
  · dsimp only
    split
    · rfl
    · split <;> simp
@[simp] theorem Dev.hostTake_staged (d : Dev) (a : Nat) : (d.hostTake a).staged = d.staged := by
  unfold Dev.hostTake
  split
  · rfl
  · dsimp only
    split
    · rfl
    · split <;> simp
@[simp] theorem Dev.hostTake_flash (d : Dev) (a : Nat) : (d.hostTake a).flash = d.flash := by
  unfold Dev.hostTake
  split
  · rfl
  · dsimp only
    split
    · rfl
    · split <;> simp
@[simp] theorem Dev.hostTake_rollbacks (d : Dev) (a : Nat) : (d.hostTake a).rollbacks = d.rollbacks := by
  unfold Dev.hostTake
  split
  · rfl
  · dsimp only
    split
    · rfl
    · split <;> simp
@[simp] theorem Dev.hostTake_rollTag (d : Dev) (a : Nat) : (d.hostTake a).rollTag = d.rollTag := by
  unfold Dev.hostTake
  split
  · rfl
  · dsimp only
    split
    · rfl
    · split <;> simp
@[simp] theorem Dev.hostTake_installs (d : Dev) (a : Nat) : (d.hostTake a).installs = d.installs := by
  unfold Dev.hostTake
  split
  · rfl
  · dsimp only
    split
    · rfl
    · split <;> simp
@[simp] theorem Dev.hostTake_recodes (d : Dev) (a : Nat) : (d.hostTake a).recodes = d.recodes := by
  unfold Dev.hostTake
  split
  · rfl
  · dsimp only
    split
    · rfl
    · split <;> simp
@[simp] theorem Dev.hostTake_swaps (d : Dev) (a : Nat) : (d.hostTake a).swaps = d.swaps := by
  unfold Dev.hostTake
  split
  · rfl
  · dsimp only
    split
    · rfl
    · split <;> simp
@[simp] theorem Dev.hostTake_clasps (d : Dev) (a : Nat) : (d.hostTake a).clasps = d.clasps := by
  unfold Dev.hostTake
  split
  · rfl
  · dsimp only
    split
    · rfl
    · split <;> simp
@[simp] theorem Dev.hostTake_tokens (d : Dev) (a : Nat) : (d.hostTake a).tokens = d.tokens := by
  unfold Dev.hostTake
  split
  · rfl
  · dsimp only
    split
    · rfl
    · split <;> simp
@[simp] theorem Dev.hostTake_wbNext (d : Dev) (a : Nat) : (d.hostTake a).wbNext = d.wbNext := by
  unfold Dev.hostTake
  split
  · rfl
  · dsimp only
    split
    · rfl
    · split <;> simp
@[simp] theorem Dev.hostTake_hostCache (d : Dev) (a : Nat) : (d.hostTake a).hostCache = d.hostCache := by
  unfold Dev.hostTake
  split
  · rfl
  · dsimp only
    split
    · rfl
    · split <;> simp
@[simp] theorem Dev.hostTake_links (d : Dev) (a : Nat) : (d.hostTake a).links = d.links := by
  unfold Dev.hostTake
  split
  · rfl
  · dsimp only
    split
    · rfl
    · split <;> simp
@[simp] theorem Dev.hostTake_config (d : Dev) (a : Nat) : (d.hostTake a).config = d.config := by
  unfold Dev.hostTake
  split
  · rfl
  · dsimp only
    split
    · rfl
    · split <;> simp
@[simp] theorem Dev.hostTake_record (d : Dev) (a : Nat) : (d.hostTake a).record = d.record := by
  unfold Dev.hostTake
  split
  · rfl
  · dsimp only
    split
    · rfl
    · split <;> simp
@[simp] theorem Dev.hostTake_saved (d : Dev) (a : Nat) : (d.hostTake a).saved = d.saved := by
  unfold Dev.hostTake
  split
  · rfl
  · dsimp only
    split
    · rfl
    · split <;> simp
@[simp] theorem Dev.hostTake_powered (d : Dev) (a : Nat) : (d.hostTake a).powered = d.powered := by
  unfold Dev.hostTake
  split
  · rfl
  · dsimp only
    split
    · rfl
    · split <;> simp
@[simp] theorem Dev.hostTake_failed (d : Dev) (a : Nat) : (d.hostTake a).failed = d.failed := by
  unfold Dev.hostTake
  split
  · rfl
  · dsimp only
    split
    · rfl
    · split <;> simp
@[simp] theorem Dev.hostTake_dbgLevel (d : Dev) (a : Nat) : (d.hostTake a).dbgLevel = d.dbgLevel := by
  unfold Dev.hostTake
  split
  · rfl
  · dsimp only
    split
    · rfl
    · split <;> simp
@[simp] theorem Dev.hostTake_consent (d : Dev) (a : Nat) : (d.hostTake a).consent = d.consent := by
  unfold Dev.hostTake
  split
  · rfl
  · dsimp only
    split
    · rfl
    · split <;> simp
@[simp] theorem Dev.hostTake_opPoint (d : Dev) (a : Nat) : (d.hostTake a).opPoint = d.opPoint := by
  unfold Dev.hostTake
  split
  · rfl
  · dsimp only
    split
    · rfl
    · split <;> simp
@[simp] theorem Dev.hostTake_dieErr (d : Dev) (a : Nat) : (d.hostTake a).dieErr = d.dieErr := by
  unfold Dev.hostTake
  split
  · rfl
  · dsimp only
    split
    · rfl
    · split <;> simp
@[simp] theorem Dev.hostTake_bringUps (d : Dev) (a : Nat) : (d.hostTake a).bringUps = d.bringUps := by
  unfold Dev.hostTake
  split
  · rfl
  · dsimp only
    split
    · rfl
    · split <;> simp
@[simp] theorem Dev.hostTake_free (d : Dev) (a : Nat) : (d.hostTake a).free = d.free := by
  unfold Dev.hostTake
  split
  · rfl
  · dsimp only
    split
    · rfl
    · split <;> simp
@[simp] theorem Dev.rmSet_num (d : Dev) (a lo n v : Nat) : (d.rmSet a lo n v).num = d.num := by
  simp [Dev.rmSet]
@[simp] theorem Dev.rmSet_cores (d : Dev) (a lo n v : Nat) : (d.rmSet a lo n v).cores = d.cores := by
  simp [Dev.rmSet]
@[simp] theorem Dev.rmSet_packed (d : Dev) (a lo n v : Nat) : (d.rmSet a lo n v).packed = d.packed := by
  simp [Dev.rmSet]
@[simp] theorem Dev.rmSet_rmCache (d : Dev) (a lo n v : Nat) : (d.rmSet a lo n v).rmCache = d.rmCache := by
  simp [Dev.rmSet]
@[simp] theorem Dev.rmSet_ctxs (d : Dev) (a lo n v : Nat) : (d.rmSet a lo n v).ctxs = d.ctxs := by
  simp [Dev.rmSet]
@[simp] theorem Dev.rmSet_parts (d : Dev) (a lo n v : Nat) : (d.rmSet a lo n v).parts = d.parts := by
  simp [Dev.rmSet]
@[simp] theorem Dev.rmSet_walker (d : Dev) (a lo n v : Nat) : (d.rmSet a lo n v).walker = d.walker := by
  simp [Dev.rmSet]
@[simp] theorem Dev.rmSet_starts (d : Dev) (a lo n v : Nat) : (d.rmSet a lo n v).starts = d.starts := by
  simp [Dev.rmSet]
@[simp] theorem Dev.rmSet_handles (d : Dev) (a lo n v : Nat) : (d.rmSet a lo n v).handles = d.handles := by
  simp [Dev.rmSet]
@[simp] theorem Dev.rmSet_tlb (d : Dev) (a lo n v : Nat) : (d.rmSet a lo n v).tlb = d.tlb := by
  simp [Dev.rmSet]
@[simp] theorem Dev.rmSet_cotab (d : Dev) (a lo n v : Nat) : (d.rmSet a lo n v).cotab = d.cotab := by
  simp [Dev.rmSet]
@[simp] theorem Dev.rmSet_verified (d : Dev) (a lo n v : Nat) : (d.rmSet a lo n v).verified = d.verified := by
  simp [Dev.rmSet]
@[simp] theorem Dev.rmSet_rmbase (d : Dev) (a lo n v : Nat) : (d.rmSet a lo n v).rmbase = d.rmbase := by
  simp [Dev.rmSet]
@[simp] theorem Dev.rmSet_breached (d : Dev) (a lo n v : Nat) : (d.rmSet a lo n v).breached = d.breached := by
  simp [Dev.rmSet]
@[simp] theorem Dev.rmSet_stage (d : Dev) (a lo n v : Nat) : (d.rmSet a lo n v).stage = d.stage := by
  simp [Dev.rmSet]
@[simp] theorem Dev.rmSet_heatcfg (d : Dev) (a lo n v : Nat) : (d.rmSet a lo n v).heatcfg = d.heatcfg := by
  simp [Dev.rmSet]
@[simp] theorem Dev.rmSet_ptab (d : Dev) (a lo n v : Nat) : (d.rmSet a lo n v).ptab = d.ptab := by
  simp [Dev.rmSet]
@[simp] theorem Dev.rmSet_spbase (d : Dev) (a lo n v : Nat) : (d.rmSet a lo n v).spbase = d.spbase := by
  simp [Dev.rmSet]
@[simp] theorem Dev.rmSet_spstk (d : Dev) (a lo n v : Nat) : (d.rmSet a lo n v).spstk = d.spstk := by
  simp [Dev.rmSet]
@[simp] theorem Dev.rmSet_sptop (d : Dev) (a lo n v : Nat) : (d.rmSet a lo n v).sptop = d.sptop := by
  simp [Dev.rmSet]
@[simp] theorem Dev.rmSet_spesc (d : Dev) (a lo n v : Nat) : (d.rmSet a lo n v).spesc = d.spesc := by
  simp [Dev.rmSet]
@[simp] theorem Dev.rmSet_staged (d : Dev) (a lo n v : Nat) : (d.rmSet a lo n v).staged = d.staged := by
  simp [Dev.rmSet]
@[simp] theorem Dev.rmSet_flash (d : Dev) (a lo n v : Nat) : (d.rmSet a lo n v).flash = d.flash := by
  simp [Dev.rmSet]
@[simp] theorem Dev.rmSet_rollbacks (d : Dev) (a lo n v : Nat) : (d.rmSet a lo n v).rollbacks = d.rollbacks := by
  simp [Dev.rmSet]
@[simp] theorem Dev.rmSet_rollTag (d : Dev) (a lo n v : Nat) : (d.rmSet a lo n v).rollTag = d.rollTag := by
  simp [Dev.rmSet]
@[simp] theorem Dev.rmSet_installs (d : Dev) (a lo n v : Nat) : (d.rmSet a lo n v).installs = d.installs := by
  simp [Dev.rmSet]
@[simp] theorem Dev.rmSet_recodes (d : Dev) (a lo n v : Nat) : (d.rmSet a lo n v).recodes = d.recodes := by
  simp [Dev.rmSet]
@[simp] theorem Dev.rmSet_swaps (d : Dev) (a lo n v : Nat) : (d.rmSet a lo n v).swaps = d.swaps := by
  simp [Dev.rmSet]
@[simp] theorem Dev.rmSet_clasps (d : Dev) (a lo n v : Nat) : (d.rmSet a lo n v).clasps = d.clasps := by
  simp [Dev.rmSet]
@[simp] theorem Dev.rmSet_tokens (d : Dev) (a lo n v : Nat) : (d.rmSet a lo n v).tokens = d.tokens := by
  simp [Dev.rmSet]
@[simp] theorem Dev.rmSet_wbNext (d : Dev) (a lo n v : Nat) : (d.rmSet a lo n v).wbNext = d.wbNext := by
  simp [Dev.rmSet]
@[simp] theorem Dev.rmSet_hostCache (d : Dev) (a lo n v : Nat) : (d.rmSet a lo n v).hostCache = d.hostCache := by
  simp [Dev.rmSet]
@[simp] theorem Dev.rmSet_links (d : Dev) (a lo n v : Nat) : (d.rmSet a lo n v).links = d.links := by
  simp [Dev.rmSet]
@[simp] theorem Dev.rmSet_config (d : Dev) (a lo n v : Nat) : (d.rmSet a lo n v).config = d.config := by
  simp [Dev.rmSet]
@[simp] theorem Dev.rmSet_record (d : Dev) (a lo n v : Nat) : (d.rmSet a lo n v).record = d.record := by
  simp [Dev.rmSet]
@[simp] theorem Dev.rmSet_saved (d : Dev) (a lo n v : Nat) : (d.rmSet a lo n v).saved = d.saved := by
  simp [Dev.rmSet]
@[simp] theorem Dev.rmSet_powered (d : Dev) (a lo n v : Nat) : (d.rmSet a lo n v).powered = d.powered := by
  simp [Dev.rmSet]
@[simp] theorem Dev.rmSet_failed (d : Dev) (a lo n v : Nat) : (d.rmSet a lo n v).failed = d.failed := by
  simp [Dev.rmSet]
@[simp] theorem Dev.rmSet_dbgLevel (d : Dev) (a lo n v : Nat) : (d.rmSet a lo n v).dbgLevel = d.dbgLevel := by
  simp [Dev.rmSet]
@[simp] theorem Dev.rmSet_consent (d : Dev) (a lo n v : Nat) : (d.rmSet a lo n v).consent = d.consent := by
  simp [Dev.rmSet]
@[simp] theorem Dev.rmSet_opPoint (d : Dev) (a lo n v : Nat) : (d.rmSet a lo n v).opPoint = d.opPoint := by
  simp [Dev.rmSet]
@[simp] theorem Dev.rmSet_dieErr (d : Dev) (a lo n v : Nat) : (d.rmSet a lo n v).dieErr = d.dieErr := by
  simp [Dev.rmSet]
@[simp] theorem Dev.rmSet_bringUps (d : Dev) (a lo n v : Nat) : (d.rmSet a lo n v).bringUps = d.bringUps := by
  simp [Dev.rmSet]
@[simp] theorem Dev.rmSet_free (d : Dev) (a lo n v : Nat) : (d.rmSet a lo n v).free = d.free := by
  simp [Dev.rmSet]

end Sys2Proof.Machine
end

