-- ==== Sys2Proof/Laws/Run.lean ====
section
/-! SUPPORT. How the computations that may stop run: one equation for each way they are built, what delivering each outcome does,
and what the shared operations on registers answer where they do not wait. Statements about instructions cite these and unfold
nothing of `M`. -/

namespace Sys2Proof.Machine

/-! ### The computation type -/

theorem run_bind {α β : Type} (x : M α) (f : α → M β) (s : State) :
    (x >>= f).run s = (match x.run s with
      | .ok (a, t) => (f a).run t
      | .error e => .error e) := by
  simp only [bind, StateT.bind, StateT.run, Except.bind]
  cases x s <;> rfl

theorem run_pure {α : Type} (a : α) (s : State) : (pure a : M α).run s = .ok (a, s) := rfl
theorem run_get (s : State) : (get : M State).run s = .ok (s, s) := rfl
theorem run_set (t s : State) : (set t : M Unit).run s = .ok ((), t) := rfl
theorem run_modify (f : State → State) (s : State) : (modify f : M Unit).run s = .ok ((), f s) := rfl
theorem run_stop {α : Type} (x : Stop) (s : State) : (stop x : M α).run s = .error x := rfl
theorem run_raiseTrap {α : Type} (c : BitVec 8) (s : State) : (raiseTrap c : M α).run s = .error (.trap c 0 0 0) := rfl
theorem run_advanceM (s : State) : advanceM.run s = .ok ((), s.advance) := rfl
theorem run_setXM (d : BitVec 5) (v : Word) (s : State) : (setXM d v).run s = .ok ((), s.setX d v) := rfl

theorem run_ite {α : Type} (p : Prop) [Decidable p] (x y : M α) (s : State) :
    (if p then x else y).run s = if p then x.run s else y.run s := by
  split <;> rfl

/-- Flags that raise no trap are ORed in (R44). -/
theorem run_raiseFlags_calm (f : BitVec 8) (s : State) (h : s.calm f) : (raiseFlags f).run s = .ok ((), s.flagged f) := by
  have h' : f &&& s.st.tmask = 0 := h
  simp only [raiseFlags, run_bind, run_get, h', ne_eq, not_true_eq_false, if_false, run_set]
  rfl

/-- Flags of which one is enabled trap ARITH (R44). -/
theorem run_raiseFlags_trap (f : BitVec 8) (s : State) (h : ¬ s.calm f) :
    (raiseFlags f).run s = .error (.trap tARITH ((f &&& s.st.tmask).setWidth 32) 0 f) := by
  have h' : ¬ f &&& s.st.tmask = 0 := h
  simp only [raiseFlags, run_bind, run_get, h', ne_eq, not_false_eq_true, if_true, run_stop]

/-! ### Delivery -/

theorem deliver_ok (s t : State) (m : M Unit) (h : m.run s = .ok ((), t)) : deliver s m = .next t := by
  simp only [deliver, settle, h]

theorem deliver_wait (s : State) (m : M Unit) (h : m.run s = .error .wait) :
    deliver s m = .next s.await := by
  simp only [deliver, settle, h, State.stopped]

theorem deliver_trap (s : State) (m : M Unit) (c : BitVec 8) (i : BitVec 32) (a : Word) (f : BitVec 8)
    (h : m.run s = .error (.trap c i a f)) : deliver s m = .next (s.takeTrap c i a f) := by
  simp only [deliver, settle, h, State.stopped]

theorem deliver_fault (s : State) (m : M Unit) (r : FaultRec) (h : m.run s = .error (.fault r)) :
    deliver s m = .next (s.strandFault r) := by
  simp only [deliver, settle, h, State.stopped]

/-! ### Registers of an X-hart (R180, R183) -/

/-- The registers an X-hart uses are its own. -/
theorem xhart_execute (s : State) (h : s.st.kind = .execute) : s.xhart = s.st := by
  simp [State.xhart, State.strandAt, State.xslot, Strand.slot, h]

theorem updStrandAt_xslot (s : State) (h : s.st.kind = .execute) (f : Strand → Strand) :
    s.updStrandAt s.xslot f = if s.st.slot = (f s.st).slot then { s with st := f s.st }
      else { s with core := { s.core with strands := putStrand (f s.st) s.core.strands } } := by
  simp [State.updStrandAt, State.strandAt, State.xslot, State.putStrandAt, Strand.slot, h]

theorem updStrandAt_xslot_same (s : State) (h : s.st.kind = .execute) (f : Strand → Strand) (hf : f s.st = s.st) :
    s.updStrandAt s.xslot f = s := by
  rw [updStrandAt_xslot s h, hf, if_pos rfl]

/-- A named register of an X-hart written is that physical register of its own. -/
theorem putReg_execute (s : State) (h : s.st.kind = .execute) (v : BitVec 5) (r : VReg) :
    s.putReg v r = { s with st := s.st.setReg (s.st.phys v) r } := by
  rw [State.putReg, updStrandAt_xslot s h, if_pos]
  unfold Strand.setReg
  by_cases q : s.st.phys v < 32
  · rw [dif_pos q]; rfl
  · rw [dif_neg q]

/-- Reading a register that no pending operation covers answers it. -/
theorem run_readReg (s : State) (v : BitVec 5) (h : s.st.kind = .execute) (r : s.readable v) :
    (readReg v).run s = .ok (s.vreg v, s) := by
  simp only [readReg, readLock, run_bind, run_get, xhart_execute s h]
  have : (([s.st.phys v]).any fun p => !(s.st.tile (p / 8)).peek && s.st.covered p) = false := by
    rcases r with r | r <;> simp [r]
  rw [this]
  simp only [Bool.false_eq_true, if_false, run_pure, xhart_execute s h]
  rfl

/-- Claiming a register that no pending operation covers and no peek view shows answers it and changes nothing. -/
theorem run_claimReg (s : State) (v : BitVec 5) (h : s.st.kind = .execute) (r : s.writable v) :
    (claimReg v).run s = .ok (s.vreg v, s) := by
  have u := updStrandAt_xslot_same s h
    (fun t => [s.st.phys v].foldl (fun u p => if (u.tile (p / 8)).peek then u.endPeek (p / 8) else u) t) (by simp [r.1])
  simp only [claimReg, writeLock, run_bind, run_get, xhart_execute s h]
  have : ([s.st.phys v].any s.st.covered) = false := by simp [r.2]
  rw [this]
  simp only [Bool.false_eq_true, if_false, run_pure, run_modify, u, xhart_execute s h]
  rfl

theorem run_mapM_readReg (s : State) (h : s.st.kind = .execute) :
    ∀ srcs : List (BitVec 5), (∀ v ∈ srcs, s.readable v) → (srcs.mapM readReg).run s = .ok (srcs.map s.vreg, s)
  | [], _ => rfl
  | v :: r, q => by
    rw [List.mapM_cons, run_bind, run_readReg s v h (q v (by simp))]
    simp only [run_bind, run_mapM_readReg s h r (fun x hx => q x (by simp [hx]))]
    rfl

theorem run_mapM_claimReg (s : State) (h : s.st.kind = .execute) :
    ∀ names : List (BitVec 5), (∀ v ∈ names, s.writable v) → (names.mapM claimReg).run s = .ok (names.map s.vreg, s)
  | [], _ => rfl
  | v :: r, q => by
    rw [List.mapM_cons, run_bind, run_claimReg s v h (q v (by simp))]
    simp only [run_bind, run_mapM_claimReg s h r (fun x hx => q x (by simp [hx]))]
    rfl

/-! ### Taken transfers (R109, R113, R190) -/

/-- A taken transfer that may go on goes on at its target. -/
theorem transfer_goTo (s₀ s : State) (target : Word) (h : s₀.mayGoTo target) (e : s.atResident = s₀.atResident) :
    s₀.transfer s target = s.goTo target := by
  obtain ⟨h, g⟩ := h
  unfold State.transfer
  rw [if_neg]
  · simp only
    rw [if_neg]
    · rfl
    · rintro ⟨q, p⟩
      rcases g with g | g
      · exact g q
      · have : State.atResident s = false := p
        rw [e, g] at this
        exact absurd this (by simp)
  · simp only [List.any_eq_true, Bool.and_eq_true, bne_iff_ne, not_exists, not_and]
    intro l hl q
    rcases h l hl with h | h
    · exact absurd h q
    · simp [h]

/-- Writing a scalar register moves nothing else of the state. -/
theorem setX_eq (s : State) (d : BitVec 5) (v : Word) : s.setX d v = { s with st := { s.st with xr := (s.setX d v).st.xr } } := by
  unfold State.setX Strand.setX
  split <;> rfl

/-- A scalar register reads as it was last written (R70). -/
theorem x_setX (s : State) (d : BitVec 5) (v : Word) (h : d ≠ 0) : (s.setX d v).x d = v := by
  simp only [State.setX, State.x, Strand.setX, Strand.x, if_neg h, Vector.getElem_set_self]

theorem x_setX_ne (s : State) (d r : BitVec 5) (v : Word) (h : r ≠ d) : (s.setX d v).x r = s.x r := by
  have hn : d.toNat ≠ r.toNat := fun q => h (BitVec.eq_of_toNat_eq q.symm)
  by_cases hd : d = 0
  · rw [hd]; rfl
  · simp only [State.setX, State.x, Strand.setX, Strand.x, if_neg hd, Vector.getElem_set, if_neg hn]

end Sys2Proof.Machine
end

