-- ==== Sys2Proof/Laws/Ops.lean ====
section
/-! SUPPORT. What the shared memory operations can do, once for each: which parts of the machine an operation that answers may have
changed. A proof about an access cites these and unfolds no operation. -/

namespace Sys2Proof.Machine

/-! ### Translation (R310, R311, R348) -/

/-- A remap lookup changes nothing of the device but its cached remap entries. -/
theorem place_frame (d d' : Dev) (dpa : Nat) (raw b : Bool) (e : BitVec 256) (h : d.place dpa raw = some (e, b, d')) :
    ∃ r, d' = { d with rmCache := r } := by
  unfold Dev.place at h
  split at h
  · simp only [Option.some.injEq, Prod.mk.injEq] at h; exact ⟨d.rmCache, h.2.2 ▸ rfl⟩
  · simp only [Option.some.injEq, Prod.mk.injEq] at h; exact ⟨d.rmCache, h.2.2 ▸ rfl⟩
  · simp only [Option.some.injEq, Prod.mk.injEq] at h
    split at h
    · exact ⟨d.rmCache, h.2.2 ▸ rfl⟩
    · exact ⟨_, h.2.2.symm⟩
  · cases h

theorem trHere_frame (d d' : Dev) (n : Need) (held : Bool) (pte : BitVec 128) (lv dpa : Nat) (va : Word) (raw : Bool) (tr : Tr)
    (h : d.trHere n held pte lv dpa va raw = .ok (some (tr, d'))) : ∃ r, d' = { d with rmCache := r } := by
  unfold Dev.trHere at h
  split at h
  · simp only [Except.ok.injEq, Option.some.injEq, Prod.mk.injEq] at h; exact ⟨d.rmCache, h.2 ▸ rfl⟩
  · split at h
    · cases h
    · rename_i q
      simp only at h
      split at h
      · cases h
      · split at h
        · cases h
        · simp only [Except.ok.injEq, Option.some.injEq, Prod.mk.injEq] at h
          exact h.2 ▸ place_frame _ _ _ _ _ _ q

theorem trFrom_frame (d d' : Dev) (x : Xlat) (n : Need) (held : Bool) (va : Word) (tr : Tr)
    (h : d.trFrom x n held va = .ok (some (tr, d'))) : ∃ r, d' = { d with rmCache := r } := by
  simp only [Dev.trFrom] at h
  split at h
  · cases h
  · split at h
    · simp only [Except.ok.injEq, Option.some.injEq, Prod.mk.injEq] at h; exact ⟨d.rmCache, h.2 ▸ rfl⟩
    · exact trHere_frame _ _ _ _ _ _ _ _ _ _ h

theorem leafOf_frame (d d' : Dev) (v : Via) (va : Word) (x : Xlat) (h : d.leafOf v va = .ok (x, d')) :
    ∃ t, d' = { d with tlb := t } := by
  unfold Dev.leafOf at h
  split at h
  · simp only [Except.ok.injEq, Prod.mk.injEq] at h; exact ⟨d.tlb, h.2 ▸ rfl⟩
  · split at h
    · cases h
    · split at h
      · cases h
      · simp only [Except.ok.injEq, Prod.mk.injEq] at h; exact ⟨_, h.2.symm⟩

/-- A translation that answers changes nothing of the device but what it caches. -/
theorem translate_frame (d d' : Dev) (v : Via) (n : Need) (va : Word) (tr : Tr) (h : d.translate v n va = .ok (some (tr, d'))) :
    ∃ t r, d' = { d with tlb := t, rmCache := r } := by
  unfold Dev.translate at h
  split at h
  · simp only [Except.ok.injEq, Option.some.injEq, Prod.mk.injEq] at h; exact ⟨d.tlb, d.rmCache, h.2 ▸ rfl⟩
  · split at h
    · obtain ⟨r, e⟩ := trHere_frame _ _ _ _ _ _ _ _ _ _ h
      exact ⟨d.tlb, r, e⟩
    · split at h
      · cases h
      · split at h
        · simp at h
        split at h
        · cases h
        · rename_i q
          obtain ⟨t, e⟩ := leafOf_frame _ _ _ _ _ q
          obtain ⟨r, e'⟩ := trFrom_frame _ _ _ _ _ _ _ h
          exact ⟨t, r, by rw [e', e]⟩

/-- Translation of an access that answers changes nothing of the machine but what the device caches. -/
theorem run_translateAt_frame (v : Via) (n : Need) (ix : Nat) (va : Word) (s s' : State) (tr : Tr)
    (h : (translateAt v n ix va).run s = .ok (tr, s')) :
    s.dev.translate v n va = .ok (some (tr, s'.dev)) ∧
      ∃ t r, s' = { s with dev := { s.dev with tlb := t, rmCache := r } } := by
  simp only [translateAt, run_bind, run_get] at h
  split at h
  · simp [faultAt, run_stop] at h
  · simp [run_stop] at h
  · rename_i tr' d q
    simp only [run_bind, run_set, run_pure, Except.ok.injEq, Prod.mk.injEq] at h
    obtain ⟨rfl, rfl⟩ := h
    obtain ⟨t, r, e⟩ := translate_frame _ _ _ _ _ _ q
    exact ⟨q, t, r, by rw [← e]⟩

/-- An address of the scratchpad window lies in the acting core's scratchpad, with nothing cached (R119). -/
theorem run_translateAt_window (v : Via) (n : Need) (ix : Nat) (va : Word) (s : State) (w : inWindow va = true) (x : n.x = false) :
    (translateAt v n ix va).run s = .ok (.ofSpad va, s) := by
  have q : s.dev.translate v n va = .ok (some (.ofSpad va, s.dev)) := by
    unfold Dev.translate
    rw [if_pos (by simp [w, x])]
  simp only [translateAt, run_bind, run_get, q, run_set, run_pure]

/-! ### Far copies (R252) -/

/-- Writing back far copies leaves the strand and what the core has besides its far copies as they were. -/
theorem flushFar_frame (s : State) (p : FarCopy → Bool) (drop : Bool) :
    ∃ d f, s.flushFar p drop = { s with dev := d, core := { s.core with far := f } } := ⟨_, _, rfl⟩

/-- Far copies written back and dropped are gone, and the others are as they were. -/
theorem flushFar_drops (s : State) (p : FarCopy → Bool) : (s.flushFar p true).core.far = s.core.far.filter (fun f => !p f) := rfl

/-- A far copy that was put is the one that an access of the core finds. -/
theorem farAt_putFar (c : Core) (f : FarCopy) (loc : Nat) (h : loc / 128 = f.loc) : (c.putFar f).farAt loc = some f := by
  simp [Core.farAt, Core.putFar, h]

/-! ### Access bits and lines (R374, R377, R119) -/

/-- Marking a page accessed leaves the acting strand as it was. -/
theorem touch_st (s : State) (tr : Tr) (b : Bool) : (s.touch tr b).st = s.st := by
  simp only [State.touch, State.heatEvent]
  repeat' split
  all_goals rfl

/-- An access to the scratchpad sets no access bit and samples nothing (R377). -/
theorem touch_spad (s : State) (tr : Tr) (b : Bool) (h : tr.spad = true) : s.touch tr b = s := by
  simp [State.touch, h]

/-- A line of the scratchpad reads as the scratchpad holds it, with its tag, and nothing changes. -/
theorem run_readLine_spad (tr : Tr) (kind : BitVec 8) (s : State) (h : tr.spad = true) :
    (readLine tr kind).run s = .ok ((s.core.spad.line tr.loc, s.core.spad.tag tr.loc), s) := by
  simp only [readLine, run_bind, run_get, h, if_true, run_pure]

/-- A far copy that the core holds is what its reads see while no engine owns the line (R252). -/
theorem run_readLine_far (tr : Tr) (kind : BitVec 8) (s : State) (f : FarCopy) (h : tr.spad = false) (w : s.mustWait tr false = false)
    (m : farMay s.core tr = true) (q : s.core.farAt tr.loc = some f) : (readLine tr kind).run s = .ok ((f.data, f.tag), s) := by
  simp only [readLine, run_bind, run_get, h, w, m, q, Bool.false_eq_true, if_false, if_true, run_pure]

/-! ### Traps and faults (R197, R317 to R320) -/

/-- At the resident level a trap is a machine check (R322). -/
theorem takeTrap_resident (s : State) (c : BitVec 8) (i : BitVec 32) (a : Word) (f : BitVec 8) (h : s.atResident = true) :
    s.takeTrap c i a f = s.machineCheckCore := by
  simp [State.takeTrap, h]

/-- At the resident level a fault is a machine check (R322). -/
theorem strandFault_resident (s : State) (r : FaultRec) (h : s.atResident = true) : s.strandFault r = (s.noteBad r).machineCheckCore := by
  simp [State.strandFault, h]

/-- Posting a fault changes records and handles of the device alone. -/
theorem postFault_frame (s : State) (p : Nat) (r : FaultRec) (y : Option Party) : ∃ d, (s.postFault p r y).1 = { s with dev := d } := by
  unfold State.postFault
  split
  · exact ⟨s.dev, rfl⟩
  · exact ⟨_, rfl⟩
  · exact ⟨_, rfl⟩

/-- A fault that can be replayed parks the strand on its handle, at the word that raised it, and touches nothing else of the core
(R318). -/
theorem strandFault_parks (s : State) (r : FaultRec) (h : s.atResident = false) (q : r.final = false) :
    ∃ d n, s.strandFault r = { s with dev := d, st := { s.st.rewind with run := .parked n, waiting := false } } := by
  obtain ⟨d, e⟩ := postFault_frame s s.core.partId r (some (.strand s.core.num s.st.slot))
  refine ⟨d, (s.postFault s.core.partId r (some (.strand s.core.num s.st.slot))).2, ?_⟩
  simp only [State.strandFault, h, q, Bool.false_eq_true, if_false, e]

end Sys2Proof.Machine
end

