-- ==== Sys2Proof/Laws/PerInstr.lean ====
section
/-! SUPPORT. The family Encoding of LAWS.json: what holds of each constructor of `Instr` as syntax. A row's fixed bits and its operands in
their places make no more than one 32-bit word (R84), so that the encoder's narrowing to 32 bits drops nothing. -/

namespace Sys2Proof.Laws

set_option Elab.async false

/-- The word of an instruction is a number of 32 bits. -/
def Encoding.Statement (i : Instr) : Prop := i.encodeNat < 2 ^ 32

theorem Encoding.add (d : BitVec 5) (a : BitVec 5) (b : BitVec 5) : Encoding.Statement (.add d a b) := by
  have hd := d.isLt; have ha := a.isLt; have hb := b.isLt
  simp only [Encoding.Statement, Instr.encodeNat, pack_20_15_9]; omega
theorem Encoding.sub (d : BitVec 5) (a : BitVec 5) (b : BitVec 5) : Encoding.Statement (.sub d a b) := by
  have hd := d.isLt; have ha := a.isLt; have hb := b.isLt
  simp only [Encoding.Statement, Instr.encodeNat, pack_20_15_9]; omega
theorem Encoding.mul (d : BitVec 5) (a : BitVec 5) (b : BitVec 5) : Encoding.Statement (.mul d a b) := by
  have hd := d.isLt; have ha := a.isLt; have hb := b.isLt
  simp only [Encoding.Statement, Instr.encodeNat, pack_20_15_9]; omega
theorem Encoding.mulh (d : BitVec 5) (a : BitVec 5) (b : BitVec 5) : Encoding.Statement (.mulh d a b) := by
  have hd := d.isLt; have ha := a.isLt; have hb := b.isLt
  simp only [Encoding.Statement, Instr.encodeNat, pack_20_15_9]; omega
theorem Encoding.mulhu (d : BitVec 5) (a : BitVec 5) (b : BitVec 5) : Encoding.Statement (.mulhu d a b) := by
  have hd := d.isLt; have ha := a.isLt; have hb := b.isLt
  simp only [Encoding.Statement, Instr.encodeNat, pack_20_15_9]; omega
theorem Encoding.div (d : BitVec 5) (a : BitVec 5) (b : BitVec 5) : Encoding.Statement (.div d a b) := by
  have hd := d.isLt; have ha := a.isLt; have hb := b.isLt
  simp only [Encoding.Statement, Instr.encodeNat, pack_20_15_9]; omega
theorem Encoding.divu (d : BitVec 5) (a : BitVec 5) (b : BitVec 5) : Encoding.Statement (.divu d a b) := by
  have hd := d.isLt; have ha := a.isLt; have hb := b.isLt
  simp only [Encoding.Statement, Instr.encodeNat, pack_20_15_9]; omega
theorem Encoding.rem (d : BitVec 5) (a : BitVec 5) (b : BitVec 5) : Encoding.Statement (.rem d a b) := by
  have hd := d.isLt; have ha := a.isLt; have hb := b.isLt
  simp only [Encoding.Statement, Instr.encodeNat, pack_20_15_9]; omega
theorem Encoding.remu (d : BitVec 5) (a : BitVec 5) (b : BitVec 5) : Encoding.Statement (.remu d a b) := by
  have hd := d.isLt; have ha := a.isLt; have hb := b.isLt
  simp only [Encoding.Statement, Instr.encodeNat, pack_20_15_9]; omega
theorem Encoding.and (d : BitVec 5) (a : BitVec 5) (b : BitVec 5) : Encoding.Statement (.and d a b) := by
  have hd := d.isLt; have ha := a.isLt; have hb := b.isLt
  simp only [Encoding.Statement, Instr.encodeNat, pack_20_15_9]; omega
theorem Encoding.or (d : BitVec 5) (a : BitVec 5) (b : BitVec 5) : Encoding.Statement (.or d a b) := by
  have hd := d.isLt; have ha := a.isLt; have hb := b.isLt
  simp only [Encoding.Statement, Instr.encodeNat, pack_20_15_9]; omega
theorem Encoding.xor (d : BitVec 5) (a : BitVec 5) (b : BitVec 5) : Encoding.Statement (.xor d a b) := by
  have hd := d.isLt; have ha := a.isLt; have hb := b.isLt
  simp only [Encoding.Statement, Instr.encodeNat, pack_20_15_9]; omega
theorem Encoding.sll (d : BitVec 5) (a : BitVec 5) (b : BitVec 5) : Encoding.Statement (.sll d a b) := by
  have hd := d.isLt; have ha := a.isLt; have hb := b.isLt
  simp only [Encoding.Statement, Instr.encodeNat, pack_20_15_9]; omega
theorem Encoding.srl (d : BitVec 5) (a : BitVec 5) (b : BitVec 5) : Encoding.Statement (.srl d a b) := by
  have hd := d.isLt; have ha := a.isLt; have hb := b.isLt
  simp only [Encoding.Statement, Instr.encodeNat, pack_20_15_9]; omega
theorem Encoding.sra (d : BitVec 5) (a : BitVec 5) (b : BitVec 5) : Encoding.Statement (.sra d a b) := by
  have hd := d.isLt; have ha := a.isLt; have hb := b.isLt
  simp only [Encoding.Statement, Instr.encodeNat, pack_20_15_9]; omega
theorem Encoding.slt (d : BitVec 5) (a : BitVec 5) (b : BitVec 5) : Encoding.Statement (.slt d a b) := by
  have hd := d.isLt; have ha := a.isLt; have hb := b.isLt
  simp only [Encoding.Statement, Instr.encodeNat, pack_20_15_9]; omega
theorem Encoding.sltu (d : BitVec 5) (a : BitVec 5) (b : BitVec 5) : Encoding.Statement (.sltu d a b) := by
  have hd := d.isLt; have ha := a.isLt; have hb := b.isLt
  simp only [Encoding.Statement, Instr.encodeNat, pack_20_15_9]; omega
theorem Encoding.min (d : BitVec 5) (a : BitVec 5) (b : BitVec 5) : Encoding.Statement (.min d a b) := by
  have hd := d.isLt; have ha := a.isLt; have hb := b.isLt
  simp only [Encoding.Statement, Instr.encodeNat, pack_20_15_9]; omega
theorem Encoding.max (d : BitVec 5) (a : BitVec 5) (b : BitVec 5) : Encoding.Statement (.max d a b) := by
  have hd := d.isLt; have ha := a.isLt; have hb := b.isLt
  simp only [Encoding.Statement, Instr.encodeNat, pack_20_15_9]; omega
theorem Encoding.minu (d : BitVec 5) (a : BitVec 5) (b : BitVec 5) : Encoding.Statement (.minu d a b) := by
  have hd := d.isLt; have ha := a.isLt; have hb := b.isLt
  simp only [Encoding.Statement, Instr.encodeNat, pack_20_15_9]; omega
theorem Encoding.maxu (d : BitVec 5) (a : BitVec 5) (b : BitVec 5) : Encoding.Statement (.maxu d a b) := by
  have hd := d.isLt; have ha := a.isLt; have hb := b.isLt
  simp only [Encoding.Statement, Instr.encodeNat, pack_20_15_9]; omega
theorem Encoding.clz (d : BitVec 5) (a : BitVec 5) : Encoding.Statement (.clz d a) := by
  have hd := d.isLt; have ha := a.isLt
  simp only [Encoding.Statement, Instr.encodeNat, pack_20_15]; omega
theorem Encoding.ctz (d : BitVec 5) (a : BitVec 5) : Encoding.Statement (.ctz d a) := by
  have hd := d.isLt; have ha := a.isLt
  simp only [Encoding.Statement, Instr.encodeNat, pack_20_15]; omega
theorem Encoding.popc (d : BitVec 5) (a : BitVec 5) : Encoding.Statement (.popc d a) := by
  have hd := d.isLt; have ha := a.isLt
  simp only [Encoding.Statement, Instr.encodeNat, pack_20_15]; omega
theorem Encoding.sel (d : BitVec 5) (a : BitVec 5) (b : BitVec 5) : Encoding.Statement (.sel d a b) := by
  have hd := d.isLt; have ha := a.isLt; have hb := b.isLt
  simp only [Encoding.Statement, Instr.encodeNat, pack_20_15_9]; omega
theorem Encoding.addi (d : BitVec 5) (a : BitVec 5) (i : BitVec 15) : Encoding.Statement (.addi d a i) := by
  have hd := d.isLt; have ha := a.isLt; have hi := i.isLt
  simp only [Encoding.Statement, Instr.encodeNat, pack_20_15_0]; omega
theorem Encoding.andi (d : BitVec 5) (a : BitVec 5) (i : BitVec 15) : Encoding.Statement (.andi d a i) := by
  have hd := d.isLt; have ha := a.isLt; have hi := i.isLt
  simp only [Encoding.Statement, Instr.encodeNat, pack_20_15_0]; omega
theorem Encoding.ori (d : BitVec 5) (a : BitVec 5) (i : BitVec 15) : Encoding.Statement (.ori d a i) := by
  have hd := d.isLt; have ha := a.isLt; have hi := i.isLt
  simp only [Encoding.Statement, Instr.encodeNat, pack_20_15_0]; omega
theorem Encoding.xori (d : BitVec 5) (a : BitVec 5) (i : BitVec 15) : Encoding.Statement (.xori d a i) := by
  have hd := d.isLt; have ha := a.isLt; have hi := i.isLt
  simp only [Encoding.Statement, Instr.encodeNat, pack_20_15_0]; omega
theorem Encoding.slti (d : BitVec 5) (a : BitVec 5) (i : BitVec 15) : Encoding.Statement (.slti d a i) := by
  have hd := d.isLt; have ha := a.isLt; have hi := i.isLt
  simp only [Encoding.Statement, Instr.encodeNat, pack_20_15_0]; omega
theorem Encoding.slli (d : BitVec 5) (a : BitVec 5) (s : BitVec 6) : Encoding.Statement (.slli d a s) := by
  have hd := d.isLt; have ha := a.isLt; have hs := s.isLt
  simp only [Encoding.Statement, Instr.encodeNat, pack_20_15_0]; omega
theorem Encoding.srli (d : BitVec 5) (a : BitVec 5) (s : BitVec 6) : Encoding.Statement (.srli d a s) := by
  have hd := d.isLt; have ha := a.isLt; have hs := s.isLt
  simp only [Encoding.Statement, Instr.encodeNat, pack_20_15_0]; omega
theorem Encoding.srai (d : BitVec 5) (a : BitVec 5) (s : BitVec 6) : Encoding.Statement (.srai d a s) := by
  have hd := d.isLt; have ha := a.isLt; have hs := s.isLt
  simp only [Encoding.Statement, Instr.encodeNat, pack_20_15_0]; omega
theorem Encoding.adda (d : BitVec 5) (a : BitVec 5) (i : BitVec 15) : Encoding.Statement (.adda d a i) := by
  have hd := d.isLt; have ha := a.isLt; have hi := i.isLt
  simp only [Encoding.Statement, Instr.encodeNat, pack_20_15_0]; omega
theorem Encoding.lih (d : BitVec 5) (i : BitVec 20) : Encoding.Statement (.lih d i) := by
  have hd := d.isLt; have hi := i.isLt
  simp only [Encoding.Statement, Instr.encodeNat, pack_20_0]; omega
theorem Encoding.beq (a : BitVec 5) (b : BitVec 5) (o : BitVec 15) : Encoding.Statement (.beq a b o) := by
  have ha := a.isLt; have hb := b.isLt; have ho := o.isLt
  simp only [Encoding.Statement, Instr.encodeNat, pack_20_15_0]; omega
theorem Encoding.bne (a : BitVec 5) (b : BitVec 5) (o : BitVec 15) : Encoding.Statement (.bne a b o) := by
  have ha := a.isLt; have hb := b.isLt; have ho := o.isLt
  simp only [Encoding.Statement, Instr.encodeNat, pack_20_15_0]; omega
theorem Encoding.blt (a : BitVec 5) (b : BitVec 5) (o : BitVec 15) : Encoding.Statement (.blt a b o) := by
  have ha := a.isLt; have hb := b.isLt; have ho := o.isLt
  simp only [Encoding.Statement, Instr.encodeNat, pack_20_15_0]; omega
theorem Encoding.bge (a : BitVec 5) (b : BitVec 5) (o : BitVec 15) : Encoding.Statement (.bge a b o) := by
  have ha := a.isLt; have hb := b.isLt; have ho := o.isLt
  simp only [Encoding.Statement, Instr.encodeNat, pack_20_15_0]; omega
theorem Encoding.bltu (a : BitVec 5) (b : BitVec 5) (o : BitVec 15) : Encoding.Statement (.bltu a b o) := by
  have ha := a.isLt; have hb := b.isLt; have ho := o.isLt
  simp only [Encoding.Statement, Instr.encodeNat, pack_20_15_0]; omega
theorem Encoding.bgeu (a : BitVec 5) (b : BitVec 5) (o : BitVec 15) : Encoding.Statement (.bgeu a b o) := by
  have ha := a.isLt; have hb := b.isLt; have ho := o.isLt
  simp only [Encoding.Statement, Instr.encodeNat, pack_20_15_0]; omega
theorem Encoding.jal (d : BitVec 5) (o : BitVec 20) : Encoding.Statement (.jal d o) := by
  have hd := d.isLt; have ho := o.isLt
  simp only [Encoding.Statement, Instr.encodeNat, pack_20_0]; omega
theorem Encoding.jalr (d : BitVec 5) (a : BitVec 5) (i : BitVec 15) : Encoding.Statement (.jalr d a i) := by
  have hd := d.isLt; have ha := a.isLt; have hi := i.isLt
  simp only [Encoding.Statement, Instr.encodeNat, pack_20_15_0]; omega
theorem Encoding.loop (a : BitVec 5) (l : BitVec 15) : Encoding.Statement (.loop a l) := by
  have ha := a.isLt; have hl := l.isLt
  simp only [Encoding.Statement, Instr.encodeNat, pack_20_0]; omega
theorem Encoding.ploop (a : BitVec 5) (s : BitVec 3) (l : BitVec 15) : Encoding.Statement (.ploop a s l) := by
  have ha := a.isLt; have hs := s.isLt; have hl := l.isLt
  simp only [Encoding.Statement, Instr.encodeNat, pack_20_17_0]; omega
theorem Encoding.ld (d : BitVec 5) (a : BitVec 5) (z : BitVec 3) (o : BitVec 12) : Encoding.Statement (.ld d a z o) := by
  have hd := d.isLt; have ha := a.isLt; have hz := z.isLt; have ho := o.isLt
  simp only [Encoding.Statement, Instr.encodeNat, pack_20_15_12_0]; omega
theorem Encoding.st (d : BitVec 5) (a : BitVec 5) (z : BitVec 2) (o : BitVec 12) : Encoding.Statement (.st d a z o) := by
  have hd := d.isLt; have ha := a.isLt; have hz := z.isLt; have ho := o.isLt
  simp only [Encoding.Statement, Instr.encodeNat, pack_20_15_12_0]; omega
theorem Encoding.ipf (a : BitVec 5) (i : BitVec 15) : Encoding.Statement (.ipf a i) := by
  have ha := a.isLt; have hi := i.isLt
  simp only [Encoding.Statement, Instr.encodeNat, pack_15_0]; omega
theorem Encoding.dpf (a : BitVec 5) (i : BitVec 15) : Encoding.Statement (.dpf a i) := by
  have ha := a.isLt; have hi := i.isLt
  simp only [Encoding.Statement, Instr.encodeNat, pack_15_0]; omega
theorem Encoding.vshapeImm (d : BitVec 5) (w : BitVec 4) (r : BitVec 7) (l : BitVec 9) : Encoding.Statement (.vshapeImm d w r l) := by
  have hd := d.isLt; have hw := w.isLt; have hr := r.isLt; have hl := l.isLt
  simp only [Encoding.Statement, Instr.encodeNat, pack_20_16_9_0]; omega
theorem Encoding.vshapeReg (d : BitVec 5) (a : BitVec 5) (b : BitVec 5) (w : BitVec 4) : Encoding.Statement (.vshapeReg d a b w) := by
  have hd := d.isLt; have ha := a.isLt; have hb := b.isLt; have hw := w.isLt
  simp only [Encoding.Statement, Instr.encodeNat, pack_20_15_9_4]; omega
theorem Encoding.vquery (d : BitVec 5) (i : BitVec 15) : Encoding.Statement (.vquery d i) := by
  have hd := d.isLt; have hi := i.isLt
  simp only [Encoding.Statement, Instr.encodeNat, pack_20_0]; omega
theorem Encoding.bqPush (a : BitVec 5) : Encoding.Statement (.bqPush a) := by
  have ha := a.isLt
  simp only [Encoding.Statement, Instr.encodeNat, pack_15]; omega
theorem Encoding.bqBr (o : BitVec 15) : Encoding.Statement (.bqBr o) := by
  have ho := o.isLt
  simp only [Encoding.Statement, Instr.encodeNat, pack_0]; omega
theorem Encoding.fence (s : BitVec 3) (k : BitVec 3) : Encoding.Statement (.fence s k) := by
  have hs := s.isLt; have hk := k.isLt
  simp only [Encoding.Statement, Instr.encodeNat, pack_22_19]; omega
theorem Encoding.bar  : Encoding.Statement (.bar) := by
  simp only [Encoding.Statement, Instr.encodeNat]; omega
theorem Encoding.trap (i : BitVec 15) : Encoding.Statement (.trap i) := by
  have hi := i.isLt
  simp only [Encoding.Statement, Instr.encodeNat, pack_0]; omega
theorem Encoding.nop  : Encoding.Statement (.nop) := by
  simp only [Encoding.Statement, Instr.encodeNat]; omega
theorem Encoding.yield  : Encoding.Statement (.yield) := by
  simp only [Encoding.Statement, Instr.encodeNat]; omega
theorem Encoding.sysr (d : BitVec 5) (n : BitVec 12) : Encoding.Statement (.sysr d n) := by
  have hd := d.isLt; have hn := n.isLt
  simp only [Encoding.Statement, Instr.encodeNat, pack_20_0]; omega
theorem Encoding.sysw (a : BitVec 5) (n : BitVec 12) : Encoding.Statement (.sysw a n) := by
  have ha := a.isLt; have hn := n.isLt
  simp only [Encoding.Statement, Instr.encodeNat, pack_15_0]; omega
theorem Encoding.sbr (o : BitVec 3) (c : BitVec 5) (a : BitVec 5) (n : BitVec 2) (z : BitVec 8) (p : BitVec 5) : Encoding.Statement (.sbr o c a n z p) := by
  have ho := o.isLt; have hc := c.isLt; have ha := a.isLt; have hn := n.isLt; have hz := z.isLt; have hp := p.isLt
  simp only [Encoding.Statement, Instr.encodeNat, pack_25_20_15_13_5_0]; omega
theorem Encoding.acq (d : BitVec 5) (a : BitVec 5) : Encoding.Statement (.acq d a) := by
  have hd := d.isLt; have ha := a.isLt
  simp only [Encoding.Statement, Instr.encodeNat, pack_20_15]; omega
theorem Encoding.tryacq (d : BitVec 5) (a : BitVec 5) : Encoding.Statement (.tryacq d a) := by
  have hd := d.isLt; have ha := a.isLt
  simp only [Encoding.Statement, Instr.encodeNat, pack_20_15]; omega
theorem Encoding.rel (a : BitVec 5) : Encoding.Statement (.rel a) := by
  have ha := a.isLt
  simp only [Encoding.Statement, Instr.encodeNat, pack_15]; omega
theorem Encoding.cqPush (d : BitVec 5) (a : BitVec 5) (b : BitVec 5) : Encoding.Statement (.cqPush d a b) := by
  have hd := d.isLt; have ha := a.isLt; have hb := b.isLt
  simp only [Encoding.Statement, Instr.encodeNat, pack_20_15_9]; omega
theorem Encoding.knWait (k : BitVec 5) (a : BitVec 5) : Encoding.Statement (.knWait k a) := by
  have hk := k.isLt; have ha := a.isLt
  simp only [Encoding.Statement, Instr.encodeNat, pack_20_15]; omega
theorem Encoding.knSig (k : BitVec 5) (a : BitVec 5) : Encoding.Statement (.knSig k a) := by
  have hk := k.isLt; have ha := a.isLt
  simp only [Encoding.Statement, Instr.encodeNat, pack_20_15]; omega
theorem Encoding.renq (d : BitVec 5) (a : BitVec 5) (b : BitVec 5) : Encoding.Statement (.renq d a b) := by
  have hd := d.isLt; have ha := a.isLt; have hb := b.isLt
  simp only [Encoding.Statement, Instr.encodeNat, pack_20_15_9]; omega
theorem Encoding.evqPop (d : BitVec 5) : Encoding.Statement (.evqPop d) := by
  have hd := d.isLt
  simp only [Encoding.Statement, Instr.encodeNat, pack_20]; omega
theorem Encoding.evqPeek (d : BitVec 5) : Encoding.Statement (.evqPeek d) := by
  have hd := d.isLt
  simp only [Encoding.Statement, Instr.encodeNat, pack_20]; omega
theorem Encoding.bobLd (a : BitVec 5) : Encoding.Statement (.bobLd a) := by
  have ha := a.isLt
  simp only [Encoding.Statement, Instr.encodeNat, pack_15]; omega
theorem Encoding.bobGo (d : BitVec 5) (a : BitVec 5) (b : BitVec 5) : Encoding.Statement (.bobGo d a b) := by
  have hd := d.isLt; have ha := a.isLt; have hb := b.isLt
  simp only [Encoding.Statement, Instr.encodeNat, pack_20_15_9]; omega
theorem Encoding.ovl (a : BitVec 5) : Encoding.Statement (.ovl a) := by
  have ha := a.isLt
  simp only [Encoding.Statement, Instr.encodeNat, pack_15]; omega
theorem Encoding.lnrSub (d : BitVec 5) (a : BitVec 5) : Encoding.Statement (.lnrSub d a) := by
  have hd := d.isLt; have ha := a.isLt
  simp only [Encoding.Statement, Instr.encodeNat, pack_20_15]; omega
theorem Encoding.ftWr (d : BitVec 5) (a : BitVec 5) (n : BitVec 4) : Encoding.Statement (.ftWr d a n) := by
  have hd := d.isLt; have ha := a.isLt; have hn := n.isLt
  simp only [Encoding.Statement, Instr.encodeNat, pack_20_15_8]; omega
theorem Encoding.pkWr (d : BitVec 5) (a : BitVec 5) (b : BitVec 5) : Encoding.Statement (.pkWr d a b) := by
  have hd := d.isLt; have ha := a.isLt; have hb := b.isLt
  simp only [Encoding.Statement, Instr.encodeNat, pack_20_15_9]; omega
theorem Encoding.recode (d : BitVec 5) (a : BitVec 5) (b : BitVec 5) : Encoding.Statement (.recode d a b) := by
  have hd := d.isLt; have ha := a.isLt; have hb := b.isLt
  simp only [Encoding.Statement, Instr.encodeNat, pack_20_15_9]; omega
theorem Encoding.swp (d : BitVec 5) (a : BitVec 5) (b : BitVec 5) : Encoding.Statement (.swp d a b) := by
  have hd := d.isLt; have ha := a.isLt; have hb := b.isLt
  simp only [Encoding.Statement, Instr.encodeNat, pack_20_15_9]; omega
theorem Encoding.winst (d : BitVec 5) (a : BitVec 5) : Encoding.Statement (.winst d a) := by
  have hd := d.isLt; have ha := a.isLt
  simp only [Encoding.Statement, Instr.encodeNat, pack_20_15]; omega
theorem Encoding.wstat (d : BitVec 5) (a : BitVec 5) (b : BitVec 5) : Encoding.Statement (.wstat d a b) := by
  have hd := d.isLt; have ha := a.isLt; have hb := b.isLt
  simp only [Encoding.Statement, Instr.encodeNat, pack_20_15_9]; omega
theorem Encoding.heatRd (d : BitVec 5) (a : BitVec 5) (b : BitVec 5) : Encoding.Statement (.heatRd d a b) := by
  have hd := d.isLt; have ha := a.isLt; have hb := b.isLt
  simp only [Encoding.Statement, Instr.encodeNat, pack_20_15_9]; omega
theorem Encoding.eret  : Encoding.Statement (.eret) := by
  simp only [Encoding.Statement, Instr.encodeNat]; omega
theorem Encoding.tlbi (a : BitVec 5) (b : BitVec 5) : Encoding.Statement (.tlbi a b) := by
  have ha := a.isLt; have hb := b.isLt
  simp only [Encoding.Statement, Instr.encodeNat, pack_15_9]; omega
theorem Encoding.rpl (d : BitVec 5) (a : BitVec 5) (b : BitVec 5) : Encoding.Statement (.rpl d a b) := by
  have hd := d.isLt; have ha := a.isLt; have hb := b.isLt
  simp only [Encoding.Statement, Instr.encodeNat, pack_20_15_9]; omega
theorem Encoding.wfi  : Encoding.Statement (.wfi) := by
  simp only [Encoding.Statement, Instr.encodeNat]; omega
theorem Encoding.ctxSave (d : BitVec 5) (a : BitVec 5) (b : BitVec 5) : Encoding.Statement (.ctxSave d a b) := by
  have hd := d.isLt; have ha := a.isLt; have hb := b.isLt
  simp only [Encoding.Statement, Instr.encodeNat, pack_20_15_9]; omega
theorem Encoding.ctxLoad (d : BitVec 5) (a : BitVec 5) : Encoding.Statement (.ctxLoad d a) := by
  have hd := d.isLt; have ha := a.isLt
  simp only [Encoding.Statement, Instr.encodeNat, pack_20_15]; omega
theorem Encoding.migDirty (d : BitVec 5) (a : BitVec 5) (b : BitVec 5) : Encoding.Statement (.migDirty d a b) := by
  have hd := d.isLt; have ha := a.isLt; have hb := b.isLt
  simp only [Encoding.Statement, Instr.encodeNat, pack_20_15_9]; omega
theorem Encoding.sysrp (d : BitVec 5) (n : BitVec 12) : Encoding.Statement (.sysrp d n) := by
  have hd := d.isLt; have hn := n.isLt
  simp only [Encoding.Statement, Instr.encodeNat, pack_20_0]; omega
theorem Encoding.syswp (a : BitVec 5) (n : BitVec 12) : Encoding.Statement (.syswp a n) := by
  have ha := a.isLt; have hn := n.isLt
  simp only [Encoding.Statement, Instr.encodeNat, pack_15_0]; omega
theorem Encoding.vldU (d : BitVec 5) (a : BitVec 5) (f : BitVec 1) (t : BitVec 4) (r : BitVec 1) (m : BitVec 3) : Encoding.Statement (.vldU d a f t r m) := by
  have hd := d.isLt; have ha := a.isLt; have hf := f.isLt; have ht := t.isLt; have hr := r.isLt; have hm := m.isLt
  simp only [Encoding.Statement, Instr.encodeNat, pack_20_15_8_4_3_0]; omega
theorem Encoding.vldUQueue (q : BitVec 3) (a : BitVec 5) : Encoding.Statement (.vldUQueue q a) := by
  have hq := q.isLt; have ha := a.isLt
  simp only [Encoding.Statement, Instr.encodeNat, pack_20_15]; omega
theorem Encoding.vldS (d : BitVec 5) (a : BitVec 5) (b : BitVec 5) (f : BitVec 1) (t : BitVec 4) (r : BitVec 1) (m : BitVec 3) : Encoding.Statement (.vldS d a b f t r m) := by
  have hd := d.isLt; have ha := a.isLt; have hb := b.isLt; have hf := f.isLt; have ht := t.isLt; have hr := r.isLt; have hm := m.isLt
  simp only [Encoding.Statement, Instr.encodeNat, pack_20_15_9_8_4_3_0]; omega
theorem Encoding.vldX (d : BitVec 5) (a : BitVec 5) (b : BitVec 5) (f : BitVec 1) (t : BitVec 4) (r : BitVec 1) (m : BitVec 3) : Encoding.Statement (.vldX d a b f t r m) := by
  have hd := d.isLt; have ha := a.isLt; have hb := b.isLt; have hf := f.isLt; have ht := t.isLt; have hr := r.isLt; have hm := m.isLt
  simp only [Encoding.Statement, Instr.encodeNat, pack_20_15_9_8_4_3_0]; omega
theorem Encoding.vldB (d : BitVec 5) (a : BitVec 5) (b : BitVec 5) (f : BitVec 1) (t : BitVec 4) (r : BitVec 1) (m : BitVec 3) : Encoding.Statement (.vldB d a b f t r m) := by
  have hd := d.isLt; have ha := a.isLt; have hb := b.isLt; have hf := f.isLt; have ht := t.isLt; have hr := r.isLt; have hm := m.isLt
  simp only [Encoding.Statement, Instr.encodeNat, pack_20_15_9_8_4_3_0]; omega
theorem Encoding.vldBQueue (q : BitVec 3) (a : BitVec 5) (b : BitVec 5) : Encoding.Statement (.vldBQueue q a b) := by
  have hq := q.isLt; have ha := a.isLt; have hb := b.isLt
  simp only [Encoding.Statement, Instr.encodeNat, pack_20_15_9]; omega
theorem Encoding.vldNp (d : BitVec 5) (a : BitVec 5) (m : BitVec 1) (k : BitVec 4) : Encoding.Statement (.vldNp d a m k) := by
  have hd := d.isLt; have ha := a.isLt; have hm := m.isLt; have hk := k.isLt
  simp only [Encoding.Statement, Instr.encodeNat, pack_20_15_8_4]; omega
theorem Encoding.vstU (v : BitVec 5) (a : BitVec 5) : Encoding.Statement (.vstU v a) := by
  have hv := v.isLt; have ha := a.isLt
  simp only [Encoding.Statement, Instr.encodeNat, pack_20_15]; omega
theorem Encoding.vstUQueue (q : BitVec 3) (a : BitVec 5) : Encoding.Statement (.vstUQueue q a) := by
  have hq := q.isLt; have ha := a.isLt
  simp only [Encoding.Statement, Instr.encodeNat, pack_20_15]; omega
theorem Encoding.vstS (v : BitVec 5) (a : BitVec 5) (b : BitVec 5) : Encoding.Statement (.vstS v a b) := by
  have hv := v.isLt; have ha := a.isLt; have hb := b.isLt
  simp only [Encoding.Statement, Instr.encodeNat, pack_20_15_9]; omega
theorem Encoding.vstX (v : BitVec 5) (a : BitVec 5) (b : BitVec 5) : Encoding.Statement (.vstX v a b) := by
  have hv := v.isLt; have ha := a.isLt; have hb := b.isLt
  simp only [Encoding.Statement, Instr.encodeNat, pack_20_15_9]; omega
theorem Encoding.vstB (v : BitVec 5) (a : BitVec 5) (b : BitVec 5) : Encoding.Statement (.vstB v a b) := by
  have hv := v.isLt; have ha := a.isLt; have hb := b.isLt
  simp only [Encoding.Statement, Instr.encodeNat, pack_20_15_9]; omega
theorem Encoding.vstBQueue (q : BitVec 3) (a : BitVec 5) (b : BitVec 5) : Encoding.Statement (.vstBQueue q a b) := by
  have hq := q.isLt; have ha := a.isLt; have hb := b.isLt
  simp only [Encoding.Statement, Instr.encodeNat, pack_20_15_9]; omega
theorem Encoding.amo (d : BitVec 5) (a : BitVec 5) (b : BitVec 5) (o : BitVec 4) (z : BitVec 2) : Encoding.Statement (.amo d a b o z) := by
  have hd := d.isLt; have ha := a.isLt; have hb := b.isLt; have ho := o.isLt; have hz := z.isLt
  simp only [Encoding.Statement, Instr.encodeNat, pack_20_15_9_2_0]; omega
theorem Encoding.amoV (v : BitVec 5) (a : BitVec 5) (b : BitVec 5) (x : BitVec 1) (o : BitVec 4) : Encoding.Statement (.amoV v a b x o) := by
  have hv := v.isLt; have ha := a.isLt; have hb := b.isLt; have hx := x.isLt; have ho := o.isLt
  simp only [Encoding.Statement, Instr.encodeNat, pack_20_15_9_5_0]; omega
theorem Encoding.mred (o : BitVec 5) (a : BitVec 5) (b : BitVec 5) : Encoding.Statement (.mred o a b) := by
  have ho := o.isLt; have ha := a.isLt; have hb := b.isLt
  simp only [Encoding.Statement, Instr.encodeNat, pack_20_15_9]; omega
theorem Encoding.mcas (d : BitVec 5) (a : BitVec 5) (b : BitVec 5) : Encoding.Statement (.mcas d a b) := by
  have hd := d.isLt; have ha := a.isLt; have hb := b.isLt
  simp only [Encoding.Statement, Instr.encodeNat, pack_20_15_9]; omega
theorem Encoding.msax (d : BitVec 5) (a : BitVec 5) (b : BitVec 5) : Encoding.Statement (.msax d a b) := by
  have hd := d.isLt; have ha := a.isLt; have hb := b.isLt
  simp only [Encoding.Statement, Instr.encodeNat, pack_20_15_9]; omega
theorem Encoding.cp (d : BitVec 5) (a : BitVec 5) (b : BitVec 5) : Encoding.Statement (.cp d a b) := by
  have hd := d.isLt; have ha := a.isLt; have hb := b.isLt
  simp only [Encoding.Statement, Instr.encodeNat, pack_20_15_9]; omega
theorem Encoding.cpConv (d : BitVec 5) (a : BitVec 5) (b : BitVec 5) : Encoding.Statement (.cpConv d a b) := by
  have hd := d.isLt; have ha := a.isLt; have hb := b.isLt
  simp only [Encoding.Statement, Instr.encodeNat, pack_20_15_9]; omega
theorem Encoding.cpFp (d : BitVec 5) (a : BitVec 5) (b : BitVec 5) : Encoding.Statement (.cpFp d a b) := by
  have hd := d.isLt; have ha := a.isLt; have hb := b.isLt
  simp only [Encoding.Statement, Instr.encodeNat, pack_20_15_9]; omega
theorem Encoding.cpCmp (d : BitVec 5) (a : BitVec 5) (b : BitVec 5) : Encoding.Statement (.cpCmp d a b) := by
  have hd := d.isLt; have ha := a.isLt; have hb := b.isLt
  simp only [Encoding.Statement, Instr.encodeNat, pack_20_15_9]; omega
theorem Encoding.cpClose (a : BitVec 5) : Encoding.Statement (.cpClose a) := by
  have ha := a.isLt
  simp only [Encoding.Statement, Instr.encodeNat, pack_15]; omega
theorem Encoding.cpWait (n : BitVec 5) : Encoding.Statement (.cpWait n) := by
  have hn := n.isLt
  simp only [Encoding.Statement, Instr.encodeNat, pack_9]; omega
theorem Encoding.wset (k : BitVec 4) (a : BitVec 5) : Encoding.Statement (.wset k a) := by
  have hk := k.isLt; have ha := a.isLt
  simp only [Encoding.Statement, Instr.encodeNat, pack_20_15]; omega
theorem Encoding.wwait (k : BitVec 4) (a : BitVec 5) : Encoding.Statement (.wwait k a) := by
  have hk := k.isLt; have ha := a.isLt
  simp only [Encoding.Statement, Instr.encodeNat, pack_20_15]; omega
theorem Encoding.feWait (a : BitVec 5) (b : BitVec 5) : Encoding.Statement (.feWait a b) := by
  have ha := a.isLt; have hb := b.isLt
  simp only [Encoding.Statement, Instr.encodeNat, pack_15_9]; omega
theorem Encoding.feSet (d : BitVec 5) (a : BitVec 5) (b : BitVec 5) : Encoding.Statement (.feSet d a b) := by
  have hd := d.isLt; have ha := a.isLt; have hb := b.isLt
  simp only [Encoding.Statement, Instr.encodeNat, pack_20_15_9]; omega
theorem Encoding.feClr (d : BitVec 5) (a : BitVec 5) (b : BitVec 5) : Encoding.Statement (.feClr d a b) := by
  have hd := d.isLt; have ha := a.isLt; have hb := b.isLt
  simp only [Encoding.Statement, Instr.encodeNat, pack_20_15_9]; omega
theorem Encoding.ltagLd (d : BitVec 5) (a : BitVec 5) : Encoding.Statement (.ltagLd d a) := by
  have hd := d.isLt; have ha := a.isLt
  simp only [Encoding.Statement, Instr.encodeNat, pack_20_15]; omega
theorem Encoding.ltagSt (a : BitVec 5) (b : BitVec 5) : Encoding.Statement (.ltagSt a b) := by
  have ha := a.isLt; have hb := b.isLt
  simp only [Encoding.Statement, Instr.encodeNat, pack_15_9]; omega
theorem Encoding.vadd (d : BitVec 5) (a : BitVec 5) (x : BitVec 1) (b : BitVec 5) (y : BitVec 1) : Encoding.Statement (.vadd d a x b y) := by
  have hd := d.isLt; have ha := a.isLt; have hx := x.isLt; have hb := b.isLt; have hy := y.isLt
  simp only [Encoding.Statement, Instr.encodeNat, pack_20_15_14_9_8]; omega
theorem Encoding.vsub (d : BitVec 5) (a : BitVec 5) (x : BitVec 1) (b : BitVec 5) (y : BitVec 1) : Encoding.Statement (.vsub d a x b y) := by
  have hd := d.isLt; have ha := a.isLt; have hx := x.isLt; have hb := b.isLt; have hy := y.isLt
  simp only [Encoding.Statement, Instr.encodeNat, pack_20_15_14_9_8]; omega
theorem Encoding.vmul (d : BitVec 5) (a : BitVec 5) (x : BitVec 1) (b : BitVec 5) (y : BitVec 1) : Encoding.Statement (.vmul d a x b y) := by
  have hd := d.isLt; have ha := a.isLt; have hx := x.isLt; have hb := b.isLt; have hy := y.isLt
  simp only [Encoding.Statement, Instr.encodeNat, pack_20_15_14_9_8]; omega
theorem Encoding.vfma (d : BitVec 5) (a : BitVec 5) (x : BitVec 1) (b : BitVec 5) (y : BitVec 1) : Encoding.Statement (.vfma d a x b y) := by
  have hd := d.isLt; have ha := a.isLt; have hx := x.isLt; have hb := b.isLt; have hy := y.isLt
  simp only [Encoding.Statement, Instr.encodeNat, pack_20_15_14_9_8]; omega
theorem Encoding.vfms (d : BitVec 5) (a : BitVec 5) (x : BitVec 1) (b : BitVec 5) (y : BitVec 1) : Encoding.Statement (.vfms d a x b y) := by
  have hd := d.isLt; have ha := a.isLt; have hx := x.isLt; have hb := b.isLt; have hy := y.isLt
  simp only [Encoding.Statement, Instr.encodeNat, pack_20_15_14_9_8]; omega
theorem Encoding.vfnma (d : BitVec 5) (a : BitVec 5) (x : BitVec 1) (b : BitVec 5) (y : BitVec 1) : Encoding.Statement (.vfnma d a x b y) := by
  have hd := d.isLt; have ha := a.isLt; have hx := x.isLt; have hb := b.isLt; have hy := y.isLt
  simp only [Encoding.Statement, Instr.encodeNat, pack_20_15_14_9_8]; omega
theorem Encoding.vdiv (d : BitVec 5) (a : BitVec 5) (x : BitVec 1) (b : BitVec 5) (y : BitVec 1) : Encoding.Statement (.vdiv d a x b y) := by
  have hd := d.isLt; have ha := a.isLt; have hx := x.isLt; have hb := b.isLt; have hy := y.isLt
  simp only [Encoding.Statement, Instr.encodeNat, pack_20_15_14_9_8]; omega
theorem Encoding.vsqrt (d : BitVec 5) (a : BitVec 5) (x : BitVec 1) : Encoding.Statement (.vsqrt d a x) := by
  have hd := d.isLt; have ha := a.isLt; have hx := x.isLt
  simp only [Encoding.Statement, Instr.encodeNat, pack_20_15_14]; omega
theorem Encoding.vrsqrt (d : BitVec 5) (a : BitVec 5) (x : BitVec 1) : Encoding.Statement (.vrsqrt d a x) := by
  have hd := d.isLt; have ha := a.isLt; have hx := x.isLt
  simp only [Encoding.Statement, Instr.encodeNat, pack_20_15_14]; omega
theorem Encoding.vrcp (d : BitVec 5) (a : BitVec 5) (x : BitVec 1) : Encoding.Statement (.vrcp d a x) := by
  have hd := d.isLt; have ha := a.isLt; have hx := x.isLt
  simp only [Encoding.Statement, Instr.encodeNat, pack_20_15_14]; omega
theorem Encoding.vexp2 (d : BitVec 5) (a : BitVec 5) (x : BitVec 1) : Encoding.Statement (.vexp2 d a x) := by
  have hd := d.isLt; have ha := a.isLt; have hx := x.isLt
  simp only [Encoding.Statement, Instr.encodeNat, pack_20_15_14]; omega
theorem Encoding.vlog2 (d : BitVec 5) (a : BitVec 5) (x : BitVec 1) : Encoding.Statement (.vlog2 d a x) := by
  have hd := d.isLt; have ha := a.isLt; have hx := x.isLt
  simp only [Encoding.Statement, Instr.encodeNat, pack_20_15_14]; omega
theorem Encoding.vtanh (d : BitVec 5) (a : BitVec 5) (x : BitVec 1) : Encoding.Statement (.vtanh d a x) := by
  have hd := d.isLt; have ha := a.isLt; have hx := x.isLt
  simp only [Encoding.Statement, Instr.encodeNat, pack_20_15_14]; omega
theorem Encoding.vsin (d : BitVec 5) (a : BitVec 5) (x : BitVec 1) : Encoding.Statement (.vsin d a x) := by
  have hd := d.isLt; have ha := a.isLt; have hx := x.isLt
  simp only [Encoding.Statement, Instr.encodeNat, pack_20_15_14]; omega
theorem Encoding.vcos (d : BitVec 5) (a : BitVec 5) (x : BitVec 1) : Encoding.Statement (.vcos d a x) := by
  have hd := d.isLt; have ha := a.isLt; have hx := x.isLt
  simp only [Encoding.Statement, Instr.encodeNat, pack_20_15_14]; omega
theorem Encoding.vmin (d : BitVec 5) (a : BitVec 5) (x : BitVec 1) (b : BitVec 5) (y : BitVec 1) : Encoding.Statement (.vmin d a x b y) := by
  have hd := d.isLt; have ha := a.isLt; have hx := x.isLt; have hb := b.isLt; have hy := y.isLt
  simp only [Encoding.Statement, Instr.encodeNat, pack_20_15_14_9_8]; omega
theorem Encoding.vmax (d : BitVec 5) (a : BitVec 5) (x : BitVec 1) (b : BitVec 5) (y : BitVec 1) : Encoding.Statement (.vmax d a x b y) := by
  have hd := d.isLt; have ha := a.isLt; have hx := x.isLt; have hb := b.isLt; have hy := y.isLt
  simp only [Encoding.Statement, Instr.encodeNat, pack_20_15_14_9_8]; omega
theorem Encoding.vabs (d : BitVec 5) (a : BitVec 5) (x : BitVec 1) : Encoding.Statement (.vabs d a x) := by
  have hd := d.isLt; have ha := a.isLt; have hx := x.isLt
  simp only [Encoding.Statement, Instr.encodeNat, pack_20_15_14]; omega
theorem Encoding.vneg (d : BitVec 5) (a : BitVec 5) (x : BitVec 1) : Encoding.Statement (.vneg d a x) := by
  have hd := d.isLt; have ha := a.isLt; have hx := x.isLt
  simp only [Encoding.Statement, Instr.encodeNat, pack_20_15_14]; omega
theorem Encoding.vsgnj (d : BitVec 5) (a : BitVec 5) (x : BitVec 1) (b : BitVec 5) (y : BitVec 1) : Encoding.Statement (.vsgnj d a x b y) := by
  have hd := d.isLt; have ha := a.isLt; have hx := x.isLt; have hb := b.isLt; have hy := y.isLt
  simp only [Encoding.Statement, Instr.encodeNat, pack_20_15_14_9_8]; omega
theorem Encoding.vmulh (d : BitVec 5) (a : BitVec 5) (x : BitVec 1) (b : BitVec 5) (y : BitVec 1) : Encoding.Statement (.vmulh d a x b y) := by
  have hd := d.isLt; have ha := a.isLt; have hx := x.isLt; have hb := b.isLt; have hy := y.isLt
  simp only [Encoding.Statement, Instr.encodeNat, pack_20_15_14_9_8]; omega
theorem Encoding.vsll (d : BitVec 5) (a : BitVec 5) (x : BitVec 1) (b : BitVec 5) (y : BitVec 1) : Encoding.Statement (.vsll d a x b y) := by
  have hd := d.isLt; have ha := a.isLt; have hx := x.isLt; have hb := b.isLt; have hy := y.isLt
  simp only [Encoding.Statement, Instr.encodeNat, pack_20_15_14_9_8]; omega
theorem Encoding.vsrl (d : BitVec 5) (a : BitVec 5) (x : BitVec 1) (b : BitVec 5) (y : BitVec 1) : Encoding.Statement (.vsrl d a x b y) := by
  have hd := d.isLt; have ha := a.isLt; have hx := x.isLt; have hb := b.isLt; have hy := y.isLt
  simp only [Encoding.Statement, Instr.encodeNat, pack_20_15_14_9_8]; omega
theorem Encoding.vsra (d : BitVec 5) (a : BitVec 5) (x : BitVec 1) (b : BitVec 5) (y : BitVec 1) : Encoding.Statement (.vsra d a x b y) := by
  have hd := d.isLt; have ha := a.isLt; have hx := x.isLt; have hb := b.isLt; have hy := y.isLt
  simp only [Encoding.Statement, Instr.encodeNat, pack_20_15_14_9_8]; omega
theorem Encoding.vand (d : BitVec 5) (a : BitVec 5) (x : BitVec 1) (b : BitVec 5) (y : BitVec 1) : Encoding.Statement (.vand d a x b y) := by
  have hd := d.isLt; have ha := a.isLt; have hx := x.isLt; have hb := b.isLt; have hy := y.isLt
  simp only [Encoding.Statement, Instr.encodeNat, pack_20_15_14_9_8]; omega
theorem Encoding.vor (d : BitVec 5) (a : BitVec 5) (x : BitVec 1) (b : BitVec 5) (y : BitVec 1) : Encoding.Statement (.vor d a x b y) := by
  have hd := d.isLt; have ha := a.isLt; have hx := x.isLt; have hb := b.isLt; have hy := y.isLt
  simp only [Encoding.Statement, Instr.encodeNat, pack_20_15_14_9_8]; omega
theorem Encoding.vxor (d : BitVec 5) (a : BitVec 5) (x : BitVec 1) (b : BitVec 5) (y : BitVec 1) : Encoding.Statement (.vxor d a x b y) := by
  have hd := d.isLt; have ha := a.isLt; have hx := x.isLt; have hb := b.isLt; have hy := y.isLt
  simp only [Encoding.Statement, Instr.encodeNat, pack_20_15_14_9_8]; omega
theorem Encoding.vfsh (d : BitVec 5) (a : BitVec 5) (x : BitVec 1) (b : BitVec 5) (y : BitVec 1) : Encoding.Statement (.vfsh d a x b y) := by
  have hd := d.isLt; have ha := a.isLt; have hx := x.isLt; have hb := b.isLt; have hy := y.isLt
  simp only [Encoding.Statement, Instr.encodeNat, pack_20_15_14_9_8]; omega
theorem Encoding.vpopc (d : BitVec 5) (a : BitVec 5) (x : BitVec 1) : Encoding.Statement (.vpopc d a x) := by
  have hd := d.isLt; have ha := a.isLt; have hx := x.isLt
  simp only [Encoding.Statement, Instr.encodeNat, pack_20_15_14]; omega
theorem Encoding.vclz (d : BitVec 5) (a : BitVec 5) (x : BitVec 1) : Encoding.Statement (.vclz d a x) := by
  have hd := d.isLt; have ha := a.isLt; have hx := x.isLt
  simp only [Encoding.Statement, Instr.encodeNat, pack_20_15_14]; omega
theorem Encoding.vsadd (d : BitVec 5) (a : BitVec 5) (x : BitVec 1) (b : BitVec 5) (y : BitVec 1) : Encoding.Statement (.vsadd d a x b y) := by
  have hd := d.isLt; have ha := a.isLt; have hx := x.isLt; have hb := b.isLt; have hy := y.isLt
  simp only [Encoding.Statement, Instr.encodeNat, pack_20_15_14_9_8]; omega
theorem Encoding.vcmp (m : BitVec 3) (a : BitVec 5) (x : BitVec 1) (b : BitVec 5) (y : BitVec 1) (c : BitVec 3) : Encoding.Statement (.vcmp m a x b y c) := by
  have hm := m.isLt; have ha := a.isLt; have hx := x.isLt; have hb := b.isLt; have hy := y.isLt; have hc := c.isLt
  simp only [Encoding.Statement, Instr.encodeNat, pack_20_15_14_9_8_0]; omega
theorem Encoding.vbound (m : BitVec 3) (a : BitVec 5) (x : BitVec 1) (b : BitVec 5) (y : BitVec 1) : Encoding.Statement (.vbound m a x b y) := by
  have hm := m.isLt; have ha := a.isLt; have hx := x.isLt; have hb := b.isLt; have hy := y.isLt
  simp only [Encoding.Statement, Instr.encodeNat, pack_20_15_14_9_8]; omega
theorem Encoding.mand (d : BitVec 3) (a : BitVec 3) (b : BitVec 3) : Encoding.Statement (.mand d a b) := by
  have hd := d.isLt; have ha := a.isLt; have hb := b.isLt
  simp only [Encoding.Statement, Instr.encodeNat, pack_20_15_9]; omega
theorem Encoding.mor (d : BitVec 3) (a : BitVec 3) (b : BitVec 3) : Encoding.Statement (.mor d a b) := by
  have hd := d.isLt; have ha := a.isLt; have hb := b.isLt
  simp only [Encoding.Statement, Instr.encodeNat, pack_20_15_9]; omega
theorem Encoding.mxor (d : BitVec 3) (a : BitVec 3) (b : BitVec 3) : Encoding.Statement (.mxor d a b) := by
  have hd := d.isLt; have ha := a.isLt; have hb := b.isLt
  simp only [Encoding.Statement, Instr.encodeNat, pack_20_15_9]; omega
theorem Encoding.mandn (d : BitVec 3) (a : BitVec 3) (b : BitVec 3) : Encoding.Statement (.mandn d a b) := by
  have hd := d.isLt; have ha := a.isLt; have hb := b.isLt
  simp only [Encoding.Statement, Instr.encodeNat, pack_20_15_9]; omega
theorem Encoding.mpopc (d : BitVec 5) (a : BitVec 3) : Encoding.Statement (.mpopc d a) := by
  have hd := d.isLt; have ha := a.isLt
  simp only [Encoding.Statement, Instr.encodeNat, pack_20_15]; omega
theorem Encoding.mfirst (d : BitVec 5) (a : BitVec 3) : Encoding.Statement (.mfirst d a) := by
  have hd := d.isLt; have ha := a.isLt
  simp only [Encoding.Statement, Instr.encodeNat, pack_20_15]; omega
theorem Encoding.mset (d : BitVec 3) (a : BitVec 5) : Encoding.Statement (.mset d a) := by
  have hd := d.isLt; have ha := a.isLt
  simp only [Encoding.Statement, Instr.encodeNat, pack_20_15]; omega
theorem Encoding.vcvt (d : BitVec 5) (a : BitVec 5) (x : BitVec 1) (f : BitVec 4) : Encoding.Statement (.vcvt d a x f) := by
  have hd := d.isLt; have ha := a.isLt; have hx := x.isLt; have hf := f.isLt
  simp only [Encoding.Statement, Instr.encodeNat, pack_20_15_14_9]; omega
theorem Encoding.vquant (d : BitVec 5) (a : BitVec 5) (x : BitVec 1) (f : BitVec 4) : Encoding.Statement (.vquant d a x f) := by
  have hd := d.isLt; have ha := a.isLt; have hx := x.isLt; have hf := f.isLt
  simp only [Encoding.Statement, Instr.encodeNat, pack_20_15_14_9]; omega
theorem Encoding.vamax (d : BitVec 5) (a : BitVec 5) (x : BitVec 1) : Encoding.Statement (.vamax d a x) := by
  have hd := d.isLt; have ha := a.isLt; have hx := x.isLt
  simp only [Encoding.Statement, Instr.encodeNat, pack_20_15_14]; omega
theorem Encoding.vtagr (d : BitVec 5) (a : BitVec 5) (x : BitVec 1) (b : BitVec 5) : Encoding.Statement (.vtagr d a x b) := by
  have hd := d.isLt; have ha := a.isLt; have hx := x.isLt; have hb := b.isLt
  simp only [Encoding.Statement, Instr.encodeNat, pack_20_15_14_9]; omega
theorem Encoding.vtagw (d : BitVec 5) (a : BitVec 5) (b : BitVec 5) : Encoding.Statement (.vtagw d a b) := by
  have hd := d.isLt; have ha := a.isLt; have hb := b.isLt
  simp only [Encoding.Statement, Instr.encodeNat, pack_20_15_9]; omega
theorem Encoding.vscl (d : BitVec 5) (a : BitVec 5) (x : BitVec 1) (b : BitVec 5) : Encoding.Statement (.vscl d a x b) := by
  have hd := d.isLt; have ha := a.isLt; have hx := x.isLt; have hb := b.isLt
  simp only [Encoding.Statement, Instr.encodeNat, pack_20_15_14_9]; omega
theorem Encoding.vmov (d : BitVec 5) (a : BitVec 5) (x : BitVec 1) : Encoding.Statement (.vmov d a x) := by
  have hd := d.isLt; have ha := a.isLt; have hx := x.isLt
  simp only [Encoding.Statement, Instr.encodeNat, pack_20_15_14]; omega
theorem Encoding.vbcast (d : BitVec 5) (a : BitVec 5) (x : BitVec 1) (b : BitVec 5) : Encoding.Statement (.vbcast d a x b) := by
  have hd := d.isLt; have ha := a.isLt; have hx := x.isLt; have hb := b.isLt
  simp only [Encoding.Statement, Instr.encodeNat, pack_20_15_14_9]; omega
theorem Encoding.vslideup (d : BitVec 5) (a : BitVec 5) (x : BitVec 1) (b : BitVec 5) : Encoding.Statement (.vslideup d a x b) := by
  have hd := d.isLt; have ha := a.isLt; have hx := x.isLt; have hb := b.isLt
  simp only [Encoding.Statement, Instr.encodeNat, pack_20_15_14_9]; omega
theorem Encoding.vslidedn (d : BitVec 5) (a : BitVec 5) (x : BitVec 1) (b : BitVec 5) : Encoding.Statement (.vslidedn d a x b) := by
  have hd := d.isLt; have ha := a.isLt; have hx := x.isLt; have hb := b.isLt
  simp only [Encoding.Statement, Instr.encodeNat, pack_20_15_14_9]; omega
theorem Encoding.vperm (d : BitVec 5) (a : BitVec 5) (x : BitVec 1) (b : BitVec 5) : Encoding.Statement (.vperm d a x b) := by
  have hd := d.isLt; have ha := a.isLt; have hx := x.isLt; have hb := b.isLt
  simp only [Encoding.Statement, Instr.encodeNat, pack_20_15_14_9]; omega
theorem Encoding.vcompress (d : BitVec 5) (a : BitVec 5) (x : BitVec 1) : Encoding.Statement (.vcompress d a x) := by
  have hd := d.isLt; have ha := a.isLt; have hx := x.isLt
  simp only [Encoding.Statement, Instr.encodeNat, pack_20_15_14]; omega
theorem Encoding.vexpand (d : BitVec 5) (a : BitVec 5) (x : BitVec 1) : Encoding.Statement (.vexpand d a x) := by
  have hd := d.isLt; have ha := a.isLt; have hx := x.isLt
  simp only [Encoding.Statement, Instr.encodeNat, pack_20_15_14]; omega
theorem Encoding.vzip (d : BitVec 5) (a : BitVec 5) (x : BitVec 1) (b : BitVec 5) : Encoding.Statement (.vzip d a x b) := by
  have hd := d.isLt; have ha := a.isLt; have hx := x.isLt; have hb := b.isLt
  simp only [Encoding.Statement, Instr.encodeNat, pack_20_15_14_9]; omega
theorem Encoding.vunzip (d : BitVec 5) (a : BitVec 5) (x : BitVec 1) : Encoding.Statement (.vunzip d a x) := by
  have hd := d.isLt; have ha := a.isLt; have hx := x.isLt
  simp only [Encoding.Statement, Instr.encodeNat, pack_20_15_14]; omega
theorem Encoding.vtrn (d : BitVec 5) (a : BitVec 5) (x : BitVec 1) (b : BitVec 5) : Encoding.Statement (.vtrn d a x b) := by
  have hd := d.isLt; have ha := a.isLt; have hx := x.isLt; have hb := b.isLt
  simp only [Encoding.Statement, Instr.encodeNat, pack_20_15_14_9]; omega
theorem Encoding.vrev (d : BitVec 5) (a : BitVec 5) (x : BitVec 1) : Encoding.Statement (.vrev d a x) := by
  have hd := d.isLt; have ha := a.isLt; have hx := x.isLt
  simp only [Encoding.Statement, Instr.encodeNat, pack_20_15_14]; omega
theorem Encoding.vext (d : BitVec 5) (a : BitVec 5) (x : BitVec 1) (b : BitVec 5) : Encoding.Statement (.vext d a x b) := by
  have hd := d.isLt; have ha := a.isLt; have hx := x.isLt; have hb := b.isLt
  simp only [Encoding.Statement, Instr.encodeNat, pack_20_15_14_9]; omega
theorem Encoding.vins (d : BitVec 5) (a : BitVec 5) (b : BitVec 5) : Encoding.Statement (.vins d a b) := by
  have hd := d.isLt; have ha := a.isLt; have hb := b.isLt
  simp only [Encoding.Statement, Instr.encodeNat, pack_20_15_9]; omega
theorem Encoding.vred (d : BitVec 5) (a : BitVec 5) (x : BitVec 1) (o : BitVec 4) : Encoding.Statement (.vred d a x o) := by
  have hd := d.isLt; have ha := a.isLt; have hx := x.isLt; have ho := o.isLt
  simp only [Encoding.Statement, Instr.encodeNat, pack_20_15_14_0]; omega
theorem Encoding.vscan (d : BitVec 5) (a : BitVec 5) (x : BitVec 1) (o : BitVec 4) : Encoding.Statement (.vscan d a x o) := by
  have hd := d.isLt; have ha := a.isLt; have hx := x.isLt; have ho := o.isLt
  simp only [Encoding.Statement, Instr.encodeNat, pack_20_15_14_0]; omega
theorem Encoding.dfrPush (p : BitVec 8) (v : BitVec 5) (n : BitVec 2) (m : BitVec 3) : Encoding.Statement (.dfrPush p v n m) := by
  have hp := p.isLt; have hv := v.isLt; have hn := n.isLt; have hm := m.isLt
  simp only [Encoding.Statement, Instr.encodeNat, pack_17_12_10_7]; omega
theorem Encoding.dfrPop (p : BitVec 8) (v : BitVec 5) (n : BitVec 2) (m : BitVec 3) : Encoding.Statement (.dfrPop p v n m) := by
  have hp := p.isLt; have hv := v.isLt; have hn := n.isLt; have hm := m.isLt
  simp only [Encoding.Statement, Instr.encodeNat, pack_17_12_10_7]; omega
theorem Encoding.dfrCnt (p : BitVec 8) (x : BitVec 5) : Encoding.Statement (.dfrCnt p x) := by
  have hp := p.isLt; have hx := x.isLt
  simp only [Encoding.Statement, Instr.encodeNat, pack_17_2]; omega
theorem Encoding.qpop (d : BitVec 5) (q : BitVec 3) : Encoding.Statement (.qpop d q) := by
  have hd := d.isLt; have hq := q.isLt
  simp only [Encoding.Statement, Instr.encodeNat, pack_20_15]; omega
theorem Encoding.qpush (v : BitVec 5) (q : BitVec 3) : Encoding.Statement (.qpush v q) := by
  have hv := v.isLt; have hq := q.isLt
  simp only [Encoding.Statement, Instr.encodeNat, pack_20_15]; omega
theorem Encoding.matAtt (d : BitVec 5) (a : BitVec 5) : Encoding.Statement (.matAtt d a) := by
  have hd := d.isLt; have ha := a.isLt
  simp only [Encoding.Statement, Instr.encodeNat, pack_20_15]; omega
theorem Encoding.matDet  : Encoding.Statement (.matDet) := by
  simp only [Encoding.Statement, Instr.encodeNat]; omega
theorem Encoding.tzero (t : BitVec 2) : Encoding.Statement (.tzero t) := by
  have ht := t.isLt
  simp only [Encoding.Statement, Instr.encodeNat, pack_20]; omega
theorem Encoding.tpeek (t : BitVec 2) (a : BitVec 5) : Encoding.Statement (.tpeek t a) := by
  have ht := t.isLt; have ha := a.isLt
  simp only [Encoding.Statement, Instr.encodeNat, pack_20_15]; omega
theorem Encoding.twait (t : BitVec 2) : Encoding.Statement (.twait t) := by
  have ht := t.isLt
  simp only [Encoding.Statement, Instr.encodeNat, pack_20]; omega
theorem Encoding.mbud (d : BitVec 5) : Encoding.Statement (.mbud d) := by
  have hd := d.isLt
  simp only [Encoding.Statement, Instr.encodeNat, pack_20]; omega
theorem Encoding.mop (t : BitVec 2) (a : BitVec 5) (x : BitVec 1) (b : BitVec 5) (y : BitVec 1) (e : BitVec 2) : Encoding.Statement (.mop t a x b y e) := by
  have ht := t.isLt; have ha := a.isLt; have hx := x.isLt; have hb := b.isLt; have hy := y.isLt; have he := e.isLt
  simp only [Encoding.Statement, Instr.encodeNat, pack_20_15_14_9_8_0]; omega
theorem Encoding.mopn (t : BitVec 2) (a : BitVec 5) (x : BitVec 1) (b : BitVec 5) (y : BitVec 1) (m : BitVec 1) (k : BitVec 3) (e : BitVec 2) : Encoding.Statement (.mopn t a x b y m k e) := by
  have ht := t.isLt; have ha := a.isLt; have hx := x.isLt; have hb := b.isLt; have hy := y.isLt; have hm := m.isLt; have hk := k.isLt; have he := e.isLt
  simp only [Encoding.Statement, Instr.encodeNat, pack_20_15_14_9_8_5_2_0]; omega
theorem Encoding.vlut3 (d : BitVec 5) (a : BitVec 5) (x : BitVec 1) (b : BitVec 5) (y : BitVec 1) (t : BitVec 8) : Encoding.Statement (.vlut3 d a x b y t) := by
  have hd := d.isLt; have ha := a.isLt; have hx := x.isLt; have hb := b.isLt; have hy := y.isLt; have ht := t.isLt
  simp only [Encoding.Statement, Instr.encodeNat, pack_20_15_14_9_8_0]; omega
theorem Encoding.pfx (c : BitVec 5) (v : BitVec 1) (z : BitVec 1) (m : BitVec 3) (r : BitVec 1) (o : BitVec 3) : Encoding.Statement (.pfx c v z m r o) := by
  have hc := c.isLt; have hv := v.isLt; have hz := z.isLt; have hm := m.isLt; have hr := r.isLt; have ho := o.isLt
  simp only [Encoding.Statement, Instr.encodeNat, pack_20_19_18_15_14_11]; omega
theorem Encoding.pendingLoadWrite : Encoding.Statement (.pendingLoadWrite ) := Nat.two_pow_pos 32
theorem Encoding.trapDiversion : Encoding.Statement (.trapDiversion ) := Nat.two_pow_pos 32
theorem Encoding.gangStart : Encoding.Statement (.gangStart ) := Nat.two_pow_pos 32
theorem Encoding.gangEnd : Encoding.Statement (.gangEnd ) := Nat.two_pow_pos 32
theorem Encoding.matrixRetire (hart : BitVec 3) (tile : BitVec 2) : Encoding.Statement (.matrixRetire hart tile) := Nat.two_pow_pos 32
theorem Encoding.budgetRefill (ctx : Nat) (us : Nat) : Encoding.Statement (.budgetRefill ctx us) := Nat.two_pow_pos 32
theorem Encoding.bastingEntryWrite : Encoding.Statement (.bastingEntryWrite ) := Nat.two_pow_pos 32
theorem Encoding.landing (copy : Nat) (line : Nat) : Encoding.Statement (.landing copy line) := Nat.two_pow_pos 32
theorem Encoding.batchComplete (who : Nat) : Encoding.Statement (.batchComplete who) := Nat.two_pow_pos 32
theorem Encoding.eventPost : Encoding.Statement (.eventPost ) := Nat.two_pow_pos 32
theorem Encoding.commandBlockStart (queue : BitVec 2) : Encoding.Statement (.commandBlockStart queue) := Nat.two_pow_pos 32
theorem Encoding.bobbinEmission : Encoding.Statement (.bobbinEmission ) := Nat.two_pow_pos 32
theorem Encoding.faultRecordWrite (part : Nat) : Encoding.Statement (.faultRecordWrite part) := Nat.two_pow_pos 32
theorem Encoding.residentEntry : Encoding.Statement (.residentEntry ) := Nat.two_pow_pos 32
theorem Encoding.walkerAssign (die : Nat) : Encoding.Statement (.walkerAssign die) := Nat.two_pow_pos 32
theorem Encoding.launchComplete (part : Nat) (launch : Nat) : Encoding.Statement (.launchComplete part launch) := Nat.two_pow_pos 32
theorem Encoding.requeueRestore : Encoding.Statement (.requeueRestore ) := Nat.two_pow_pos 32
theorem Encoding.powerWake : Encoding.Statement (.powerWake ) := Nat.two_pow_pos 32
theorem Encoding.bringUp : Encoding.Statement .bringUp := Nat.two_pow_pos 32
theorem Encoding.machineCheck (wholeDevice : Bool) : Encoding.Statement (.machineCheck wholeDevice) := Nat.two_pow_pos 32
theorem Encoding.installBlockVerify (index : Nat) (ok : Bool) : Encoding.Statement (.installBlockVerify index ok) := Nat.two_pow_pos 32
theorem Encoding.installCommit (index : Nat) : Encoding.Statement (.installCommit index) := Nat.two_pow_pos 32
theorem Encoding.recodeLineStep (index : Nat) : Encoding.Statement (.recodeLineStep index) := Nat.two_pow_pos 32
theorem Encoding.turnoverSwap (index : Nat) : Encoding.Statement (.turnoverSwap index) := Nat.two_pow_pos 32
theorem Encoding.stagingFill (line : Nat) (bad : Bool) : Encoding.Statement (.stagingFill line bad) := Nat.two_pow_pos 32
theorem Encoding.claspRequest (clasp : Nat) (core : Nat) (try_ : Bool) : Encoding.Statement (.claspRequest clasp core try_) := Nat.two_pow_pos 32
theorem Encoding.recallClasp (clasp : Nat) : Encoding.Statement (.recallClasp clasp) := Nat.two_pow_pos 32
theorem Encoding.signature (clasp : Nat) : Encoding.Statement (.signature clasp) := Nat.two_pow_pos 32
theorem Encoding.grant (clasp : Nat) : Encoding.Statement (.grant clasp) := Nat.two_pow_pos 32
theorem Encoding.refusal (clasp : Nat) : Encoding.Statement (.refusal clasp) := Nat.two_pow_pos 32
theorem Encoding.writeBack (clasp : Nat) : Encoding.Statement (.writeBack clasp) := Nat.two_pow_pos 32
theorem Encoding.acknowledge (clasp : Nat) : Encoding.Statement (.acknowledge clasp) := Nat.two_pow_pos 32
theorem Encoding.partitionEnable (part : Nat) : Encoding.Statement (.partitionEnable part) := Nat.two_pow_pos 32
theorem Encoding.unallocatedEncoding (w : BitVec 32) : Encoding.Statement (.unallocatedEncoding w) := Nat.two_pow_pos 32
theorem Encoding.partitionDisable (part : Nat) : Encoding.Statement (.partitionDisable part) := Nat.two_pow_pos 32
theorem Encoding.thermal (temp : BitVec 16) : Encoding.Statement (.thermal temp) := Nat.two_pow_pos 32
theorem Encoding.debugStop (level : BitVec 2) (slot : Nat) (req : DebugReq) : Encoding.Statement (.debugStop level slot req) := Nat.two_pow_pos 32
theorem Encoding.srRpend (v : BitVec 64) : Encoding.Statement (.srRpend v) := Nat.two_pow_pos 32
theorem Encoding.srPtroot (v : BitVec 64) : Encoding.Statement (.srPtroot v) := Nat.two_pow_pos 32
theorem Encoding.srRing (v : BitVec 64) : Encoding.Statement (.srRing v) := Nat.two_pow_pos 32
theorem Encoding.srEbw (v : BitVec 64) : Encoding.Statement (.srEbw v) := Nat.two_pow_pos 32
theorem Encoding.srStage (v : BitVec 64) : Encoding.Statement (.srStage v) := Nat.two_pow_pos 32
theorem Encoding.srWalw (v : BitVec 64) : Encoding.Statement (.srWalw v) := Nat.two_pow_pos 32
theorem Encoding.srSptop (pool : BitVec 3) (v : BitVec 64) : Encoding.Statement (.srSptop pool v) := Nat.two_pow_pos 32
theorem Encoding.srPctlHold (v : BitVec 64) : Encoding.Statement (.srPctlHold v) := Nat.two_pow_pos 32
theorem Encoding.srPwrRetention : Encoding.Statement (.srPwrRetention ) := Nat.two_pow_pos 32
theorem Encoding.srPwrOff : Encoding.Statement (.srPwrOff ) := Nat.two_pow_pos 32
theorem Encoding.srSeed (v : BitVec 64) : Encoding.Statement (.srSeed v) := Nat.two_pow_pos 32
theorem Encoding.registerWrite (num : BitVec 12) (v : BitVec 64) : Encoding.Statement (.registerWrite num v) := Nat.two_pow_pos 32
theorem Encoding.clockGate : Encoding.Statement (.clockGate ) := Nat.two_pow_pos 32
theorem Encoding.linkFailure (port : Nat) : Encoding.Statement (.linkFailure port) := Nat.two_pow_pos 32
theorem Encoding.uncorrectableError (place : ErrorPlace) (n : Nat) : Encoding.Statement (.uncorrectableError place n) := Nat.two_pow_pos 32
theorem Encoding.scrub (line : ScrubLine) (bad : Bool) : Encoding.Statement (.scrub line bad) := Nat.two_pow_pos 32
theorem Encoding.heatSample (dpa : BitVec 64) : Encoding.Statement (.heatSample dpa) := Nat.two_pow_pos 32
theorem Encoding.heatDecay (dpa : BitVec 64) : Encoding.Statement (.heatDecay dpa) := Nat.two_pow_pos 32
theorem Encoding.allowanceTick (part : Nat) : Encoding.Statement (.allowanceTick part) := Nat.two_pow_pos 32
theorem Encoding.flashPowerLoss (stack : Nat) : Encoding.Statement (.flashPowerLoss stack) := Nat.two_pow_pos 32
theorem Encoding.read (line : Nat) (holder : Nat) : Encoding.Statement (.read line holder) := Nat.two_pow_pos 32
theorem Encoding.write (line : Nat) (holder : Nat) : Encoding.Statement (.write line holder) := Nat.two_pow_pos 32
theorem Encoding.persistent (line : Nat) (holder : Nat) : Encoding.Statement (.persistent line holder) := Nat.two_pow_pos 32
theorem Encoding.data (line : Nat) (src : Nat) (dst : Nat) : Encoding.Statement (.data line src dst) := Nat.two_pow_pos 32
theorem Encoding.lacingFlit (port : Nat) (flit : BitVec 2048) : Encoding.Statement (.lacingFlit port flit) := Nat.two_pow_pos 32
theorem Encoding.bisnp (line : Nat) : Encoding.Statement (.bisnp line) := Nat.two_pow_pos 32
theorem Encoding.hostWrite (line : Nat) (off : BitVec 7) (v : BitVec 64) : Encoding.Statement (.hostWrite line off v) := Nat.two_pow_pos 32
theorem Encoding.farCopyEviction (index : Nat) (drop : Bool) : Encoding.Statement (.farCopyEviction index drop) := Nat.two_pow_pos 32
theorem Encoding.hostRead (line : Nat) : Encoding.Statement (.hostRead line) := Nat.two_pow_pos 32
theorem Encoding.hostSnoop (line : Nat) (inval : Bool) : Encoding.Statement (.hostSnoop line inval) := Nat.two_pow_pos 32
theorem Encoding.outsidePoolWrite (line : Nat) (off : BitVec 7) (v : BitVec 64) : Encoding.Statement (.outsidePoolWrite line off v) := Nat.two_pow_pos 32
theorem Encoding.modulePowerLoss : Encoding.Statement (.modulePowerLoss ) := Nat.two_pow_pos 32
theorem Encoding.configurationRecordChange (r : BitVec 4096) : Encoding.Statement (.configurationRecordChange r) := Nat.two_pow_pos 32
theorem Encoding.operatingPointChange (point : Nat) : Encoding.Statement (.operatingPointChange point) := Nat.two_pow_pos 32
theorem Encoding.correctedError (core : Nat) : Encoding.Statement (.correctedError core) := Nat.two_pow_pos 32

/-- Every word fits. -/
theorem encodeNat_lt (i : Instr) : i.encodeNat < 2 ^ 32 := by
  cases i
  case add => exact Encoding.add _ _ _
  case sub => exact Encoding.sub _ _ _
  case mul => exact Encoding.mul _ _ _
  case mulh => exact Encoding.mulh _ _ _
  case mulhu => exact Encoding.mulhu _ _ _
  case div => exact Encoding.div _ _ _
  case divu => exact Encoding.divu _ _ _
  case rem => exact Encoding.rem _ _ _
  case remu => exact Encoding.remu _ _ _
  case and => exact Encoding.and _ _ _
  case or => exact Encoding.or _ _ _
  case xor => exact Encoding.xor _ _ _
  case sll => exact Encoding.sll _ _ _
  case srl => exact Encoding.srl _ _ _
  case sra => exact Encoding.sra _ _ _
  case slt => exact Encoding.slt _ _ _
  case sltu => exact Encoding.sltu _ _ _
  case min => exact Encoding.min _ _ _
  case max => exact Encoding.max _ _ _
  case minu => exact Encoding.minu _ _ _
  case maxu => exact Encoding.maxu _ _ _
  case clz => exact Encoding.clz _ _
  case ctz => exact Encoding.ctz _ _
  case popc => exact Encoding.popc _ _
  case sel => exact Encoding.sel _ _ _
  case addi => exact Encoding.addi _ _ _
  case andi => exact Encoding.andi _ _ _
  case ori => exact Encoding.ori _ _ _
  case xori => exact Encoding.xori _ _ _
  case slti => exact Encoding.slti _ _ _
  case slli => exact Encoding.slli _ _ _
  case srli => exact Encoding.srli _ _ _
  case srai => exact Encoding.srai _ _ _
  case adda => exact Encoding.adda _ _ _
  case lih => exact Encoding.lih _ _
  case beq => exact Encoding.beq _ _ _
  case bne => exact Encoding.bne _ _ _
  case blt => exact Encoding.blt _ _ _
  case bge => exact Encoding.bge _ _ _
  case bltu => exact Encoding.bltu _ _ _
  case bgeu => exact Encoding.bgeu _ _ _
  case jal => exact Encoding.jal _ _
  case jalr => exact Encoding.jalr _ _ _
  case loop => exact Encoding.loop _ _
  case ploop => exact Encoding.ploop _ _ _
  case ld => exact Encoding.ld _ _ _ _
  case st => exact Encoding.st _ _ _ _
  case ipf => exact Encoding.ipf _ _
  case dpf => exact Encoding.dpf _ _
  case vshapeImm => exact Encoding.vshapeImm _ _ _ _
  case vshapeReg => exact Encoding.vshapeReg _ _ _ _
  case vquery => exact Encoding.vquery _ _
  case bqPush => exact Encoding.bqPush _
  case bqBr => exact Encoding.bqBr _
  case fence => exact Encoding.fence _ _
  case bar => exact Encoding.bar
  case trap => exact Encoding.trap _
  case nop => exact Encoding.nop
  case yield => exact Encoding.yield
  case sysr => exact Encoding.sysr _ _
  case sysw => exact Encoding.sysw _ _
  case sbr => exact Encoding.sbr _ _ _ _ _ _
  case acq => exact Encoding.acq _ _
  case tryacq => exact Encoding.tryacq _ _
  case rel => exact Encoding.rel _
  case cqPush => exact Encoding.cqPush _ _ _
  case knWait => exact Encoding.knWait _ _
  case knSig => exact Encoding.knSig _ _
  case renq => exact Encoding.renq _ _ _
  case evqPop => exact Encoding.evqPop _
  case evqPeek => exact Encoding.evqPeek _
  case bobLd => exact Encoding.bobLd _
  case bobGo => exact Encoding.bobGo _ _ _
  case ovl => exact Encoding.ovl _
  case lnrSub => exact Encoding.lnrSub _ _
  case ftWr => exact Encoding.ftWr _ _ _
  case pkWr => exact Encoding.pkWr _ _ _
  case recode => exact Encoding.recode _ _ _
  case swp => exact Encoding.swp _ _ _
  case winst => exact Encoding.winst _ _
  case wstat => exact Encoding.wstat _ _ _
  case heatRd => exact Encoding.heatRd _ _ _
  case eret => exact Encoding.eret
  case tlbi => exact Encoding.tlbi _ _
  case rpl => exact Encoding.rpl _ _ _
  case wfi => exact Encoding.wfi
  case ctxSave => exact Encoding.ctxSave _ _ _
  case ctxLoad => exact Encoding.ctxLoad _ _
  case migDirty => exact Encoding.migDirty _ _ _
  case sysrp => exact Encoding.sysrp _ _
  case syswp => exact Encoding.syswp _ _
  case vldU => exact Encoding.vldU _ _ _ _ _ _
  case vldUQueue => exact Encoding.vldUQueue _ _
  case vldS => exact Encoding.vldS _ _ _ _ _ _ _
  case vldX => exact Encoding.vldX _ _ _ _ _ _ _
  case vldB => exact Encoding.vldB _ _ _ _ _ _ _
  case vldBQueue => exact Encoding.vldBQueue _ _ _
  case vldNp => exact Encoding.vldNp _ _ _ _
  case vstU => exact Encoding.vstU _ _
  case vstUQueue => exact Encoding.vstUQueue _ _
  case vstS => exact Encoding.vstS _ _ _
  case vstX => exact Encoding.vstX _ _ _
  case vstB => exact Encoding.vstB _ _ _
  case vstBQueue => exact Encoding.vstBQueue _ _ _
  case amo => exact Encoding.amo _ _ _ _ _
  case amoV => exact Encoding.amoV _ _ _ _ _
  case mred => exact Encoding.mred _ _ _
  case mcas => exact Encoding.mcas _ _ _
  case msax => exact Encoding.msax _ _ _
  case cp => exact Encoding.cp _ _ _
  case cpConv => exact Encoding.cpConv _ _ _
  case cpFp => exact Encoding.cpFp _ _ _
  case cpCmp => exact Encoding.cpCmp _ _ _
  case cpClose => exact Encoding.cpClose _
  case cpWait => exact Encoding.cpWait _
  case wset => exact Encoding.wset _ _
  case wwait => exact Encoding.wwait _ _
  case feWait => exact Encoding.feWait _ _
  case feSet => exact Encoding.feSet _ _ _
  case feClr => exact Encoding.feClr _ _ _
  case ltagLd => exact Encoding.ltagLd _ _
  case ltagSt => exact Encoding.ltagSt _ _
  case vadd => exact Encoding.vadd _ _ _ _ _
  case vsub => exact Encoding.vsub _ _ _ _ _
  case vmul => exact Encoding.vmul _ _ _ _ _
  case vfma => exact Encoding.vfma _ _ _ _ _
  case vfms => exact Encoding.vfms _ _ _ _ _
  case vfnma => exact Encoding.vfnma _ _ _ _ _
  case vdiv => exact Encoding.vdiv _ _ _ _ _
  case vsqrt => exact Encoding.vsqrt _ _ _
  case vrsqrt => exact Encoding.vrsqrt _ _ _
  case vrcp => exact Encoding.vrcp _ _ _
  case vexp2 => exact Encoding.vexp2 _ _ _
  case vlog2 => exact Encoding.vlog2 _ _ _
  case vtanh => exact Encoding.vtanh _ _ _
  case vsin => exact Encoding.vsin _ _ _
  case vcos => exact Encoding.vcos _ _ _
  case vmin => exact Encoding.vmin _ _ _ _ _
  case vmax => exact Encoding.vmax _ _ _ _ _
  case vabs => exact Encoding.vabs _ _ _
  case vneg => exact Encoding.vneg _ _ _
  case vsgnj => exact Encoding.vsgnj _ _ _ _ _
  case vmulh => exact Encoding.vmulh _ _ _ _ _
  case vsll => exact Encoding.vsll _ _ _ _ _
  case vsrl => exact Encoding.vsrl _ _ _ _ _
  case vsra => exact Encoding.vsra _ _ _ _ _
  case vand => exact Encoding.vand _ _ _ _ _
  case vor => exact Encoding.vor _ _ _ _ _
  case vxor => exact Encoding.vxor _ _ _ _ _
  case vfsh => exact Encoding.vfsh _ _ _ _ _
  case vpopc => exact Encoding.vpopc _ _ _
  case vclz => exact Encoding.vclz _ _ _
  case vsadd => exact Encoding.vsadd _ _ _ _ _
  case vcmp => exact Encoding.vcmp _ _ _ _ _ _
  case vbound => exact Encoding.vbound _ _ _ _ _
  case mand => exact Encoding.mand _ _ _
  case mor => exact Encoding.mor _ _ _
  case mxor => exact Encoding.mxor _ _ _
  case mandn => exact Encoding.mandn _ _ _
  case mpopc => exact Encoding.mpopc _ _
  case mfirst => exact Encoding.mfirst _ _
  case mset => exact Encoding.mset _ _
  case vcvt => exact Encoding.vcvt _ _ _ _
  case vquant => exact Encoding.vquant _ _ _ _
  case vamax => exact Encoding.vamax _ _ _
  case vtagr => exact Encoding.vtagr _ _ _ _
  case vtagw => exact Encoding.vtagw _ _ _
  case vscl => exact Encoding.vscl _ _ _ _
  case vmov => exact Encoding.vmov _ _ _
  case vbcast => exact Encoding.vbcast _ _ _ _
  case vslideup => exact Encoding.vslideup _ _ _ _
  case vslidedn => exact Encoding.vslidedn _ _ _ _
  case vperm => exact Encoding.vperm _ _ _ _
  case vcompress => exact Encoding.vcompress _ _ _
  case vexpand => exact Encoding.vexpand _ _ _
  case vzip => exact Encoding.vzip _ _ _ _
  case vunzip => exact Encoding.vunzip _ _ _
  case vtrn => exact Encoding.vtrn _ _ _ _
  case vrev => exact Encoding.vrev _ _ _
  case vext => exact Encoding.vext _ _ _ _
  case vins => exact Encoding.vins _ _ _
  case vred => exact Encoding.vred _ _ _ _
  case vscan => exact Encoding.vscan _ _ _ _
  case dfrPush => exact Encoding.dfrPush _ _ _ _
  case dfrPop => exact Encoding.dfrPop _ _ _ _
  case dfrCnt => exact Encoding.dfrCnt _ _
  case qpop => exact Encoding.qpop _ _
  case qpush => exact Encoding.qpush _ _
  case matAtt => exact Encoding.matAtt _ _
  case matDet => exact Encoding.matDet
  case tzero => exact Encoding.tzero _
  case tpeek => exact Encoding.tpeek _ _
  case twait => exact Encoding.twait _
  case mbud => exact Encoding.mbud _
  case mop => exact Encoding.mop _ _ _ _ _ _
  case mopn => exact Encoding.mopn _ _ _ _ _ _ _ _
  case vlut3 => exact Encoding.vlut3 _ _ _ _ _ _
  case pfx => exact Encoding.pfx _ _ _ _ _ _
  case pendingLoadWrite => exact Encoding.pendingLoadWrite
  case trapDiversion => exact Encoding.trapDiversion
  case gangStart => exact Encoding.gangStart
  case gangEnd => exact Encoding.gangEnd
  case matrixRetire => exact Encoding.matrixRetire _ _
  case budgetRefill => exact Encoding.budgetRefill _ _
  case bastingEntryWrite => exact Encoding.bastingEntryWrite
  case landing => exact Encoding.landing _ _
  case batchComplete => exact Encoding.batchComplete _
  case eventPost => exact Encoding.eventPost
  case commandBlockStart => exact Encoding.commandBlockStart _
  case bobbinEmission => exact Encoding.bobbinEmission
  case faultRecordWrite => exact Encoding.faultRecordWrite _
  case residentEntry => exact Encoding.residentEntry
  case walkerAssign => exact Encoding.walkerAssign _
  case launchComplete => exact Encoding.launchComplete _ _
  case requeueRestore => exact Encoding.requeueRestore
  case powerWake => exact Encoding.powerWake
  case bringUp => exact Encoding.bringUp
  case machineCheck => exact Encoding.machineCheck _
  case installBlockVerify => exact Encoding.installBlockVerify _ _
  case installCommit => exact Encoding.installCommit _
  case recodeLineStep => exact Encoding.recodeLineStep _
  case turnoverSwap => exact Encoding.turnoverSwap _
  case stagingFill => exact Encoding.stagingFill _ _
  case claspRequest => exact Encoding.claspRequest _ _ _
  case recallClasp => exact Encoding.recallClasp _
  case signature => exact Encoding.signature _
  case grant => exact Encoding.grant _
  case refusal => exact Encoding.refusal _
  case writeBack => exact Encoding.writeBack _
  case acknowledge => exact Encoding.acknowledge _
  case partitionEnable => exact Encoding.partitionEnable _
  case unallocatedEncoding => exact Encoding.unallocatedEncoding _
  case partitionDisable => exact Encoding.partitionDisable _
  case thermal => exact Encoding.thermal _
  case debugStop => exact Encoding.debugStop _ _ _
  case srRpend => exact Encoding.srRpend _
  case srPtroot => exact Encoding.srPtroot _
  case srRing => exact Encoding.srRing _
  case srEbw => exact Encoding.srEbw _
  case srStage => exact Encoding.srStage _
  case srWalw => exact Encoding.srWalw _
  case srSptop => exact Encoding.srSptop _ _
  case srPctlHold => exact Encoding.srPctlHold _
  case srPwrRetention => exact Encoding.srPwrRetention
  case srPwrOff => exact Encoding.srPwrOff
  case srSeed => exact Encoding.srSeed _
  case registerWrite => exact Encoding.registerWrite _ _
  case clockGate => exact Encoding.clockGate
  case linkFailure => exact Encoding.linkFailure _
  case uncorrectableError => exact Encoding.uncorrectableError _ _
  case scrub => exact Encoding.scrub _ _
  case heatSample => exact Encoding.heatSample _
  case heatDecay => exact Encoding.heatDecay _
  case allowanceTick => exact Encoding.allowanceTick _
  case flashPowerLoss => exact Encoding.flashPowerLoss _
  case read => exact Encoding.read _ _
  case write => exact Encoding.write _ _
  case persistent => exact Encoding.persistent _ _
  case data => exact Encoding.data _ _ _
  case lacingFlit => exact Encoding.lacingFlit _ _
  case bisnp => exact Encoding.bisnp _
  case hostWrite => exact Encoding.hostWrite _ _ _
  case farCopyEviction => exact Encoding.farCopyEviction _ _
  case hostRead => exact Encoding.hostRead _
  case hostSnoop => exact Encoding.hostSnoop _ _
  case outsidePoolWrite => exact Encoding.outsidePoolWrite _ _ _
  case modulePowerLoss => exact Encoding.modulePowerLoss
  case configurationRecordChange => exact Encoding.configurationRecordChange _
  case operatingPointChange => exact Encoding.operatingPointChange _
  case correctedError => exact Encoding.correctedError _

end Sys2Proof.Laws
end

