-- ==== Sys2Proof/Tests/Slice0.lean ====
section
/-! SUPPORT. Tests: ill-formed terms refused, words written out from the spec's encodings decoded, single steps on small states, and
for every statement with hypotheses states and operands that meet them. Expected results are the spec's worked examples and
tables, or worked out from them by hand. -/

open Sys2Proof Sys2Proof.Machine

namespace Sys2Proof.Tests

set_option maxRecDepth 100000
set_option exponentiation.threshold 4096
set_option Elab.async false

/-! ### Ill-formed terms (R87, R91, R92, R96, Tables 06.4, 11.2 and 11.4) -/

theorem test_wf_zero_word : Instr.wellFormed (.add 0 0 0) = false ∧ decode .cc 0 = .error .unallocated := ⟨rfl, rfl⟩
theorem test_wf_ld_size : Instr.wellFormed (.ld 1 2 7 0) = false := rfl
theorem test_wf_vshape_width : Instr.wellFormed (.vshapeImm 1 2 0 0) = false ∧ Instr.wellFormed (.vshapeReg 1 2 3 1) = false := ⟨rfl, rfl⟩
theorem test_wf_vquery : Instr.wellFormed (.vquery 1 5) = false := rfl
theorem test_wf_fence : Instr.wellFormed (.fence 5 1) = false ∧ Instr.wellFormed (.fence 0 0) = false := ⟨rfl, rfl⟩
theorem test_wf_sbr : Instr.wellFormed (.sbr 0 5 4 1 0 0) = false ∧ Instr.wellFormed (.sbr 0 5 31 1 0 0) = false ∧
    Instr.wellFormed (.sbr 0 5 6 0 4 0) = false := ⟨rfl, rfl, rfl⟩
theorem test_wf_evq : Instr.wellFormed (.evqPop 0) = false ∧ Instr.wellFormed (.evqPeek 29) = false := ⟨rfl, rfl⟩
theorem test_wf_sysrp : Instr.wellFormed (.sysrp 1 0xFF) = false ∧ Instr.wellFormed (.syswp 1 0) = false := ⟨rfl, rfl⟩
theorem test_wf_vld : Instr.wellFormed (.vldU 1 2 0 3 0 0) = false ∧ Instr.wellFormed (.vldS 1 2 3 0 0 0 1) = false ∧
    Instr.wellFormed (.vldX 1 2 3 0 1 0 0) = false ∧ Instr.wellFormed (.vldB 1 2 3 1 0 0 2) = false := ⟨rfl, rfl, rfl, rfl⟩
theorem test_wf_vldNp : Instr.wellFormed (.vldNp 1 2 0 1) = false ∧ Instr.wellFormed (.vldNp 1 2 0 9) = false := ⟨rfl, rfl⟩
theorem test_wf_amo : Instr.wellFormed (.amo 1 2 3 11 0) = false ∧ Instr.wellFormed (.amo 1 2 3 10 1) = false ∧
    Instr.wellFormed (.amo 2 2 3 9 2) = false ∧ Instr.wellFormed (.amo 2 2 4 9 3) = false := ⟨rfl, rfl, rfl, rfl⟩
theorem test_wf_amoV : Instr.wellFormed (.amoV 1 2 3 0 0) = false ∧ Instr.wellFormed (.amoV 1 2 0 0 6) = false := ⟨rfl, rfl⟩
theorem test_wf_bank : Instr.wellFormed (.mred 3 2 1) = false ∧ Instr.wellFormed (.mcas 1 2 31) = false := ⟨rfl, rfl⟩
theorem test_wf_cpCmp : Instr.wellFormed (.cpCmp 1 31 2) = false := rfl
theorem test_wf_reductions : Instr.wellFormed (.vred 1 2 0 7) = false ∧ Instr.wellFormed (.vscan 1 2 0 7) = false := ⟨rfl, rfl⟩
theorem test_wf_deferral : Instr.wellFormed (.dfrPush 0 31 1 0) = false ∧ Instr.wellFormed (.dfrPop 0 30 1 0) = false := ⟨rfl, rfl⟩
theorem test_wf_mopn : Instr.wellFormed (.mopn 0 1 0 2 0 0 7 0) = false := rfl
theorem test_wf_pfx : Instr.wellFormed (.pfx 1 0 0 1 0 0) = false ∧ Instr.wellFormed (.pfx 0 0 0 1 0 1) = false ∧
    Instr.wellFormed (.pfx 0 0 1 0 0 0) = false := ⟨rfl, rfl, rfl⟩

/-! ### The spec's own example words -/

theorem test_words_of_the_spec :
    decode .cc 0x3C000001 = .ok .bar ∧ decode .cc 0x40000001 = .ok .yield ∧ decode .cc 0x42500002 = .ok (.sysr 5 2) ∧
    decode .cc 0x44030002 = .ok (.sysw 6 2) ∧ decode .execute 0x82110001 = .ok (.vsqrt 1 2 0) ∧ decode .execute 0x86110600 = .ok (.vmulh 1 2 0 3 0) ∧
    decode .execute 0x88110602 = .ok (.vcmp 1 2 0 3 0 2) ∧ decode .execute 0x88220A10 = .ok (.vbound 2 4 0 5 0) ∧
    decode .execute 0x8A110600 = .ok (.mand 1 2 3) ∧ decode .execute 0x8A510004 = .ok (.mpopc 5 2) ∧
    decode .execute 0x920A2480 = .ok (.dfrPush 5 2 1 1) ∧ decode .execute 0x94400000 = .ok (.qpop 4 0) ∧
    decode .execute 0x96042011 = .ok (.mop 0 8 0 16 0 1) ∧ decode .execute 0x8C520800 = .ok (.vcvt 5 4 0 4) :=
  ⟨rfl, rfl, rfl, rfl, rfl, rfl, rfl, rfl, rfl, rfl, rfl, rfl, rfl, rfl⟩
theorem test_words_of_the_spec_for_memory :
    decode .access 0x80440118 = .ok (.vldU 4 8 1 1 1 0) ∧ decode .access 0x89040140 = .ok (.vldNp 16 8 1 4) ∧
    decode .access 0x8A144000 = .ok (.vstUQueue 1 8) ∧ decode .access 0x92540C05 = .ok (.amo 5 8 6 1 1) ∧
    decode .access 0x96540801 = .ok (.mcas 5 8 4) ∧ decode .access 0x9A041200 = .ok (.feWait 8 9) ∧
    decode .access 0x98961403 = .ok (.cpCmp 9 12 10) ∧ decode .access 0x98000405 = .ok (.cpWait 2) ∧
    decode .access 0x98330006 = .ok (.wset 3 6) ∧ decode .cc 0xC2541200 = .ok (.cqPush 5 8 9) ∧ decode .cc 0xE0530E01 = .ok (.pkWr 5 6 7) :=
  ⟨rfl, rfl, rfl, rfl, rfl, rfl, rfl, rfl, rfl, rfl, rfl⟩

/-! ### A word for each encoded row, its fields placed as the row's encoding says -/

theorem test_decode_shared_0 :
    decode .cc 0x005B1600 = .ok (.add 5 22 11) ∧
    decode .cc 0x005B1601 = .ok (.sub 5 22 11) ∧
    decode .cc 0x005B1602 = .ok (.mul 5 22 11) ∧
    decode .cc 0x005B1603 = .ok (.mulh 5 22 11) ∧
    decode .cc 0x005B1604 = .ok (.mulhu 5 22 11) ∧
    decode .cc 0x005B1605 = .ok (.div 5 22 11) ∧
    decode .cc 0x005B1606 = .ok (.divu 5 22 11) ∧
    decode .cc 0x005B1607 = .ok (.rem 5 22 11) ∧
    decode .cc 0x005B1608 = .ok (.remu 5 22 11) ∧
    decode .cc 0x005B1609 = .ok (.and 5 22 11) ∧
    decode .cc 0x005B160A = .ok (.or 5 22 11) ∧
    decode .cc 0x005B160B = .ok (.xor 5 22 11) :=
  ⟨rfl, rfl, rfl, rfl, rfl, rfl, rfl, rfl, rfl, rfl, rfl, rfl⟩

theorem test_decode_shared_1 :
    decode .cc 0x005B160C = .ok (.sll 5 22 11) ∧
    decode .cc 0x005B160D = .ok (.srl 5 22 11) ∧
    decode .cc 0x005B160E = .ok (.sra 5 22 11) ∧
    decode .cc 0x005B160F = .ok (.slt 5 22 11) ∧
    decode .cc 0x005B1610 = .ok (.sltu 5 22 11) ∧
    decode .cc 0x005B1611 = .ok (.min 5 22 11) ∧
    decode .cc 0x005B1612 = .ok (.max 5 22 11) ∧
    decode .cc 0x005B1613 = .ok (.minu 5 22 11) ∧
    decode .cc 0x005B1614 = .ok (.maxu 5 22 11) ∧
    decode .cc 0x005B0015 = .ok (.clz 5 22) ∧
    decode .cc 0x005B0016 = .ok (.ctz 5 22) ∧
    decode .cc 0x005B0017 = .ok (.popc 5 22) :=
  ⟨rfl, rfl, rfl, rfl, rfl, rfl, rfl, rfl, rfl, rfl, rfl, rfl⟩

theorem test_decode_shared_2 :
    decode .cc 0x005B1618 = .ok (.sel 5 22 11) ∧
    decode .cc 0x025B52E1 = .ok (.addi 5 22 0x52E1) ∧
    decode .cc 0x045B52E1 = .ok (.andi 5 22 0x52E1) ∧
    decode .cc 0x065B52E1 = .ok (.ori 5 22 0x52E1) ∧
    decode .cc 0x085B52E1 = .ok (.xori 5 22 0x52E1) ∧
    decode .cc 0x0A5B52E1 = .ok (.slti 5 22 0x52E1) ∧
    decode .cc 0x0C5B000B = .ok (.slli 5 22 11) ∧
    decode .cc 0x0E5B000B = .ok (.srli 5 22 11) ∧
    decode .cc 0x105B000B = .ok (.srai 5 22 11) ∧
    decode .cc 0x125B52E1 = .ok (.adda 5 22 0x52E1) ∧
    decode .cc 0x145952E1 = .ok (.lih 5 0x952E1) ∧
    decode .cc 0x165B52E1 = .ok (.beq 5 22 0x52E1) :=
  ⟨rfl, rfl, rfl, rfl, rfl, rfl, rfl, rfl, rfl, rfl, rfl, rfl⟩

theorem test_decode_shared_3 :
    decode .cc 0x185B52E1 = .ok (.bne 5 22 0x52E1) ∧
    decode .cc 0x1A5B52E1 = .ok (.blt 5 22 0x52E1) ∧
    decode .cc 0x1C5B52E1 = .ok (.bge 5 22 0x52E1) ∧
    decode .cc 0x1E5B52E1 = .ok (.bltu 5 22 0x52E1) ∧
    decode .cc 0x205B52E1 = .ok (.bgeu 5 22 0x52E1) ∧
    decode .cc 0x225952E1 = .ok (.jal 5 0x952E1) ∧
    decode .cc 0x245B52E1 = .ok (.jalr 5 22 0x52E1) ∧
    decode .cc 0x265052E1 = .ok (.loop 5 0x52E1) ∧
    decode .cc 0x285C52E1 = .ok (.ploop 5 6 0x52E1) ∧
    decode .cc 0x2A5B6AE1 = .ok (.ld 5 22 6 0xAE1) ∧
    decode .cc 0x2C5B3AE1 = .ok (.st 5 22 3 0xAE1) ∧
    decode .cc 0x2E02D2E1 = .ok (.ipf 5 0x52E1) :=
  ⟨rfl, rfl, rfl, rfl, rfl, rfl, rfl, rfl, rfl, rfl, rfl, rfl⟩

theorem test_decode_shared_4 :
    decode .cc 0x3002D2E1 = .ok (.dpf 5 0x52E1) ∧
    decode .cc 0x325F17E1 = .ok (.vshapeImm 5 15 11 0x1E1) ∧
    decode .cc 0x345B1670 = .ok (.vshapeReg 5 22 11 7) ∧
    decode .cc 0x36500003 = .ok (.vquery 5 3) ∧
    decode .cc 0x38028000 = .ok (.bqPush 5) ∧
    decode .cc 0x3A0052E1 = .ok (.bqBr 0x52E1) ∧
    decode .cc 0x3CF00000 = .ok (.fence 3 6) ∧
    decode .cc 0x3C000001 = .ok .bar ∧
    decode .cc 0x3E0052E1 = .ok (.trap 0x52E1) ∧
    decode .cc 0x40000000 = .ok .nop ∧
    decode .cc 0x40000001 = .ok .yield ∧
    decode .cc 0x42500AE1 = .ok (.sysr 5 0xAE1) :=
  ⟨rfl, rfl, rfl, rfl, rfl, rfl, rfl, rfl, rfl, rfl, rfl, rfl⟩

theorem test_decode_shared_5 :
    decode .cc 0x44028AE1 = .ok (.sysw 5 0xAE1) ∧
    decode .cc 0x74952171 = .ok (.sbr 2 9 10 1 11 17) :=
  ⟨rfl, rfl⟩

theorem test_decode_cc_0 :
    decode .cc 0xC05B0000 = .ok (.acq 5 22) ∧
    decode .cc 0xC05B0001 = .ok (.tryacq 5 22) ∧
    decode .cc 0xC0028002 = .ok (.rel 5) ∧
    decode .cc 0xC25B1600 = .ok (.cqPush 5 22 11) ∧
    decode .cc 0xC25B0001 = .ok (.knWait 5 22) ∧
    decode .cc 0xC25B0002 = .ok (.knSig 5 22) ∧
    decode .cc 0xC45B1600 = .ok (.renq 5 22 11) ∧
    decode .cc 0xC4C00001 = .ok (.evqPop 12) ∧
    decode .cc 0xC4D00002 = .ok (.evqPeek 13) ∧
    decode .cc 0xC6028000 = .ok (.bobLd 5) ∧
    decode .cc 0xC65B1601 = .ok (.bobGo 5 22 11) ∧
    decode .cc 0xC8028000 = .ok (.ovl 5) :=
  ⟨rfl, rfl, rfl, rfl, rfl, rfl, rfl, rfl, rfl, rfl, rfl, rfl⟩

theorem test_decode_cc_1 :
    decode .cc 0xC85B0001 = .ok (.lnrSub 5 22) ∧
    decode .cc 0xE05B0B00 = .ok (.ftWr 5 22 11) ∧
    decode .cc 0xE05B1601 = .ok (.pkWr 5 22 11) ∧
    decode .cc 0xE25B1600 = .ok (.recode 5 22 11) ∧
    decode .cc 0xE25B1601 = .ok (.swp 5 22 11) ∧
    decode .cc 0xE25B0002 = .ok (.winst 5 22) ∧
    decode .cc 0xE25B1603 = .ok (.wstat 5 22 11) ∧
    decode .cc 0xE25B1604 = .ok (.heatRd 5 22 11) ∧
    decode .cc 0xF8000000 = .ok .eret ∧
    decode .cc 0xF802AC01 = .ok (.tlbi 5 22) ∧
    decode .cc 0xF85B1602 = .ok (.rpl 5 22 11) ∧
    decode .cc 0xF8000003 = .ok .wfi :=
  ⟨rfl, rfl, rfl, rfl, rfl, rfl, rfl, rfl, rfl, rfl, rfl, rfl⟩

theorem test_decode_cc_2 :
    decode .cc 0xF85B1604 = .ok (.ctxSave 5 22 11) ∧
    decode .cc 0xF85B0005 = .ok (.ctxLoad 5 22) ∧
    decode .cc 0xF85B1606 = .ok (.migDirty 5 22 11) ∧
    decode .cc 0xFA500112 = .ok (.sysrp 5 0x112) ∧
    decode .cc 0xFC028113 = .ok (.syswp 5 0x113) :=
  ⟨rfl, rfl, rfl, rfl, rfl⟩

theorem test_decode_a_0 :
    decode .access 0x805B011B = .ok (.vldU 5 22 1 1 1 3) ∧
    decode .access 0x805B4000 = .ok (.vldUQueue 5 22) ∧
    decode .access 0x825B172C = .ok (.vldS 5 22 11 1 2 1 4) ∧
    decode .access 0x845B172C = .ok (.vldX 5 22 11 1 2 1 4) ∧
    decode .access 0x865B172C = .ok (.vldB 5 22 11 1 2 1 4) ∧
    decode .access 0x865B5600 = .ok (.vldBQueue 5 22 11) ∧
    decode .access 0x885B0140 = .ok (.vldNp 5 22 1 4) ∧
    decode .access 0x8A5B0000 = .ok (.vstU 5 22) ∧
    decode .access 0x8A5B4000 = .ok (.vstUQueue 5 22) ∧
    decode .access 0x8C5B1600 = .ok (.vstS 5 22 11) ∧
    decode .access 0x8E5B1600 = .ok (.vstX 5 22 11) ∧
    decode .access 0x905B1600 = .ok (.vstB 5 22 11) :=
  ⟨rfl, rfl, rfl, rfl, rfl, rfl, rfl, rfl, rfl, rfl, rfl, rfl⟩

theorem test_decode_a_1 :
    decode .access 0x905B5600 = .ok (.vstBQueue 5 22 11) ∧
    decode .access 0x925B1615 = .ok (.amo 5 22 11 5 1) ∧
    decode .access 0x945B1624 = .ok (.amoV 5 22 11 1 4) ∧
    decode .access 0x962B1600 = .ok (.mred 2 22 11) ∧
    decode .access 0x965B1601 = .ok (.mcas 5 22 11) ∧
    decode .access 0x965B1602 = .ok (.msax 5 22 11) ∧
    decode .access 0x985B1600 = .ok (.cp 5 22 11) ∧
    decode .access 0x985B1601 = .ok (.cpConv 5 22 11) ∧
    decode .access 0x985B1602 = .ok (.cpFp 5 22 11) ∧
    decode .access 0x985B1603 = .ok (.cpCmp 5 22 11) ∧
    decode .access 0x98028004 = .ok (.cpClose 5) ∧
    decode .access 0x98000A05 = .ok (.cpWait 5) :=
  ⟨rfl, rfl, rfl, rfl, rfl, rfl, rfl, rfl, rfl, rfl, rfl, rfl⟩

theorem test_decode_a_2 :
    decode .access 0x985B0006 = .ok (.wset 5 22) ∧
    decode .access 0x985B0007 = .ok (.wwait 5 22) ∧
    decode .access 0x9A02AC00 = .ok (.feWait 5 22) ∧
    decode .access 0x9A5B1601 = .ok (.feSet 5 22 11) ∧
    decode .access 0x9A5B1602 = .ok (.feClr 5 22 11) ∧
    decode .access 0x9C5B0000 = .ok (.ltagLd 5 22) ∧
    decode .access 0x9C02AC01 = .ok (.ltagSt 5 22) :=
  ⟨rfl, rfl, rfl, rfl, rfl, rfl, rfl⟩

theorem test_decode_x_0 :
    decode .execute 0x805B4300 = .ok (.vadd 5 22 1 1 1) ∧
    decode .execute 0x805B4301 = .ok (.vsub 5 22 1 1 1) ∧
    decode .execute 0x805B4302 = .ok (.vmul 5 22 1 1 1) ∧
    decode .execute 0x805B4303 = .ok (.vfma 5 22 1 1 1) ∧
    decode .execute 0x805B4304 = .ok (.vfms 5 22 1 1 1) ∧
    decode .execute 0x805B4305 = .ok (.vfnma 5 22 1 1 1) ∧
    decode .execute 0x825B4300 = .ok (.vdiv 5 22 1 1 1) ∧
    decode .execute 0x825B4001 = .ok (.vsqrt 5 22 1) ∧
    decode .execute 0x825B4002 = .ok (.vrsqrt 5 22 1) ∧
    decode .execute 0x825B4003 = .ok (.vrcp 5 22 1) ∧
    decode .execute 0x825B4004 = .ok (.vexp2 5 22 1) ∧
    decode .execute 0x825B4005 = .ok (.vlog2 5 22 1) :=
  ⟨rfl, rfl, rfl, rfl, rfl, rfl, rfl, rfl, rfl, rfl, rfl, rfl⟩

theorem test_decode_x_1 :
    decode .execute 0x825B4006 = .ok (.vtanh 5 22 1) ∧
    decode .execute 0x825B4007 = .ok (.vsin 5 22 1) ∧
    decode .execute 0x825B4008 = .ok (.vcos 5 22 1) ∧
    decode .execute 0x845B4300 = .ok (.vmin 5 22 1 1 1) ∧
    decode .execute 0x845B4301 = .ok (.vmax 5 22 1 1 1) ∧
    decode .execute 0x845B4002 = .ok (.vabs 5 22 1) ∧
    decode .execute 0x845B4003 = .ok (.vneg 5 22 1) ∧
    decode .execute 0x845B4304 = .ok (.vsgnj 5 22 1 1 1) ∧
    decode .execute 0x865B4300 = .ok (.vmulh 5 22 1 1 1) ∧
    decode .execute 0x865B4301 = .ok (.vsll 5 22 1 1 1) ∧
    decode .execute 0x865B4302 = .ok (.vsrl 5 22 1 1 1) ∧
    decode .execute 0x865B4303 = .ok (.vsra 5 22 1 1 1) :=
  ⟨rfl, rfl, rfl, rfl, rfl, rfl, rfl, rfl, rfl, rfl, rfl, rfl⟩

theorem test_decode_x_2 :
    decode .execute 0x865B4304 = .ok (.vand 5 22 1 1 1) ∧
    decode .execute 0x865B4305 = .ok (.vor 5 22 1 1 1) ∧
    decode .execute 0x865B4306 = .ok (.vxor 5 22 1 1 1) ∧
    decode .execute 0x865B4308 = .ok (.vfsh 5 22 1 1 1) ∧
    decode .execute 0x865B4009 = .ok (.vpopc 5 22 1) ∧
    decode .execute 0x865B400A = .ok (.vclz 5 22 1) ∧
    decode .execute 0x865B430B = .ok (.vsadd 5 22 1 1 1) ∧
    decode .execute 0x885B4303 = .ok (.vcmp 5 22 1 1 1 3) ∧
    decode .execute 0x885B4310 = .ok (.vbound 5 22 1 1 1) ∧
    decode .execute 0x8A530600 = .ok (.mand 5 6 3) ∧
    decode .execute 0x8A530601 = .ok (.mor 5 6 3) ∧
    decode .execute 0x8A530602 = .ok (.mxor 5 6 3) :=
  ⟨rfl, rfl, rfl, rfl, rfl, rfl, rfl, rfl, rfl, rfl, rfl, rfl⟩

theorem test_decode_x_3 :
    decode .execute 0x8A530603 = .ok (.mandn 5 6 3) ∧
    decode .execute 0x8A530004 = .ok (.mpopc 5 6) ∧
    decode .execute 0x8A530005 = .ok (.mfirst 5 6) ∧
    decode .execute 0x8A5B0006 = .ok (.mset 5 22) ∧
    decode .execute 0x8C5B4200 = .ok (.vcvt 5 22 1 1) ∧
    decode .execute 0x8C5B4201 = .ok (.vquant 5 22 1 1) ∧
    decode .execute 0x8C5B4002 = .ok (.vamax 5 22 1) ∧
    decode .execute 0x8C5B4203 = .ok (.vtagr 5 22 1 1) ∧
    decode .execute 0x8C5B1604 = .ok (.vtagw 5 22 11) ∧
    decode .execute 0x8C5B4205 = .ok (.vscl 5 22 1 1) ∧
    decode .execute 0x8E5B4000 = .ok (.vmov 5 22 1) ∧
    decode .execute 0x8E5B4201 = .ok (.vbcast 5 22 1 1) :=
  ⟨rfl, rfl, rfl, rfl, rfl, rfl, rfl, rfl, rfl, rfl, rfl, rfl⟩

theorem test_decode_x_4 :
    decode .execute 0x8E5B4202 = .ok (.vslideup 5 22 1 1) ∧
    decode .execute 0x8E5B4203 = .ok (.vslidedn 5 22 1 1) ∧
    decode .execute 0x8E5B4204 = .ok (.vperm 5 22 1 1) ∧
    decode .execute 0x8E5B4005 = .ok (.vcompress 5 22 1) ∧
    decode .execute 0x8E5B4006 = .ok (.vexpand 5 22 1) ∧
    decode .execute 0x8E5B4207 = .ok (.vzip 5 22 1 1) ∧
    decode .execute 0x8E5B4008 = .ok (.vunzip 5 22 1) ∧
    decode .execute 0x8E5B4209 = .ok (.vtrn 5 22 1 1) ∧
    decode .execute 0x8E5B400A = .ok (.vrev 5 22 1) ∧
    decode .execute 0x8E5B420B = .ok (.vext 5 22 1 1) ∧
    decode .execute 0x8E5B160C = .ok (.vins 5 22 11) ∧
    decode .execute 0x905B4006 = .ok (.vred 5 22 1 6) :=
  ⟨rfl, rfl, rfl, rfl, rfl, rfl, rfl, rfl, rfl, rfl, rfl, rfl⟩

theorem test_decode_x_5 :
    decode .execute 0x905B4015 = .ok (.vscan 5 22 1 5) ∧
    decode .execute 0x920A9C80 = .ok (.dfrPush 5 9 3 1) ∧
    decode .execute 0x920A9881 = .ok (.dfrPop 5 9 2 1) ∧
    decode .execute 0x920A005A = .ok (.dfrCnt 5 22) ∧
    decode .execute 0x94530000 = .ok (.qpop 5 6) ∧
    decode .execute 0x94530001 = .ok (.qpush 5 6) ∧
    decode .execute 0x965B0000 = .ok (.matAtt 5 22) ∧
    decode .execute 0x96000001 = .ok .matDet ∧
    decode .execute 0x96100004 = .ok (.tzero 1) ∧
    decode .execute 0x961B0005 = .ok (.tpeek 1 22) ∧
    decode .execute 0x96100006 = .ok (.twait 1) ∧
    decode .execute 0x96500007 = .ok (.mbud 5) :=
  ⟨rfl, rfl, rfl, rfl, rfl, rfl, rfl, rfl, rfl, rfl, rfl, rfl⟩

theorem test_decode_x_6 :
    decode .execute 0x961B4313 = .ok (.mop 1 22 1 1 1 3) ∧
    decode .execute 0x961B4371 = .ok (.mopn 1 22 1 1 1 1 4 1) ∧
    decode .execute 0x985B4303 = .ok (.vlut3 5 22 1 1 1 3) ∧
    decode .execute 0xFF5D6800 = .ok (.pfx 21 1 1 2 1 5) :=
  ⟨rfl, rfl, rfl, rfl⟩
/-! ### Small states -/

/-- What a computation answers, and in which state, put to a test. -/
def after {α : Type} (r : Except Stop (α × State)) (p : α → State → Bool) : Bool :=
  match r with
  | .ok (x, u) => p x u
  | .error _ => false

/-- A computation that succeeds. -/
def okay {α : Type} (r : Except Stop (α × State)) : Bool := after r fun _ _ => true

/-- A gang of two harts of each kind on a core, with two segments per register and a trap vector. -/
def gang : Gang where
  ctx := 1
  part := 1
  launch := 1
  iter := 0
  tuple := [0]
  h := 1
  segs := 2
  tvec := 0x4000
  centry := 0x1000
  aentry := 0x2000
  xentry := 0x3000
  spr := 0
  dfrUnits := 4
  trapSeq := 0
  barGen := 0
  resumed := false
  left := false
  swap := false
  term := none
  stamp := 0
  asksH := 1

def ctx1 : Ctx := { Ctx.fresh 1 1 0x10000 with eb := 1000 }
def dev : Dev := { Dev.boot 0 0 with cores := [], ctxs := [ctx1] }
def core : Core := { Core.fresh 0 0 false with resident := false, gang := some gang }
/-- A strand of two segments under the grant 8 x 1 at width 16. -/
def strand (k : StrandKind) : Strand := { Strand.fresh k 0 2 0x1000 with vl := 8, vr := 1, gw := 16 }
/-- A strand of the gang acting at the user level. -/
def user (k : StrandKind) : State := ⟨strand k, core, dev, []⟩
/-- The CC of a core of its own at the resident level. -/
def resident : State := ⟨strand .cc, Core.fresh 0 0 false, dev, []⟩
/-- A state with a loop stack. -/
def looped (ls : List LoopLevel) (s : State) : State := { s with st := { s.st with loops := ls } }
/-- The state an instruction leads to. -/
def ran (i : Instr) (s : State) : State := goOn s (exec i s)
/-- Whether a step leads on. -/
def goesOn (o : Out) : Bool :=
  match o with
  | .next _ => true
  | _ => false

/-- The first address of the scratchpad window (R203). -/
def padBase : Word := 0xFFFFFFFFFFC00000

/-! ### Single steps: the integer instructions (file 06) -/

theorem test_add_wraps : (ran (.add 5 6 7) (((user .cc).setX 6 (BitVec.allOnes 64)).setX 7 2)).x 5 = 1 := by decide +kernel
theorem test_mulh_signed : (ran (.mulh 5 6 6) ((user .cc).setX 6 (BitVec.allOnes 64))).x 5 = 0 := by decide +kernel
theorem test_mulhu : (ran (.mulhu 5 6 6) ((user .cc).setX 6 (BitVec.allOnes 64))).x 5 = 0xFFFFFFFFFFFFFFFE := by decide +kernel
theorem test_div_by_zero : (ran (.div 5 6 0) ((user .cc).setX 6 7)).x 5 = BitVec.allOnes 64 := by decide +kernel
theorem test_div_overflow : (ran (.div 5 6 7) (((user .cc).setX 6 0x8000000000000000).setX 7 (BitVec.allOnes 64))).x 5 = 0x8000000000000000 := by
  decide +kernel
theorem test_rem_sign : (ran (.rem 5 6 7) (((user .cc).setX 6 (-7)).setX 7 2)).x 5 = -1 := by decide +kernel
theorem test_sra : (ran (.sra 5 6 7) (((user .cc).setX 6 (-8)).setX 7 65)).x 5 = -4 := by decide +kernel
theorem test_andi_sign : (ran (.andi 5 6 0x7FFE) ((user .cc).setX 6 (BitVec.allOnes 64))).x 5 = 0xFFFFFFFFFFFFFFFE := by decide +kernel
theorem test_adda : (ran (.adda 5 6 3) ((user .cc).setX 6 1)).x 5 = 385 := by decide +kernel
theorem test_lih : (ran (.lih 5 0xBCDEF) ((user .cc).setX 5 0x123)).x 5 = 0x123BCDEF := by decide +kernel
theorem test_x0 : (ran (.addi 0 0 5) (user .cc)).x 0 = 0 := by decide +kernel
theorem test_jalr_same : (ran (.jalr 5 5 3) ((user .cc).setX 5 0x2000)).st.pc = 0x2000 ∧
    (ran (.jalr 5 5 3) ((user .cc).setX 5 0x2000)).x 5 = 0x1004 := by decide +kernel
theorem test_blt_signed : (ran (.blt 6 0 4) ((user .cc).setX 6 (-1))).st.pc = 0x1010 ∧
    (ran (.bltu 6 0 4) ((user .cc).setX 6 (-1))).st.pc = 0x1004 := by decide +kernel
theorem test_store_byte_order : (ran (.st 5 6 2 0) (((user .cc).setX 6 padBase).setX 5 0x11223344)).core.spad.byte 0 = 0x44 ∧
    (ran (.st 5 6 2 0) (((user .cc).setX 6 padBase).setX 5 0x11223344)).core.spad.byte 3 = 0x11 := by decide +kernel
theorem test_vshape : (ran (.vshapeImm 5 15 8 256) (user .execute)).x 5 = 128 ∧
    (ran (.vshapeImm 5 15 8 256) (user .execute)).st.vl = 128 ∧ (ran (.vshapeImm 5 15 8 256) (user .execute)).st.vr = 1 := by decide +kernel

/-! ### Witnesses: decoding and stepping -/

theorem witness_DecodeOfEncode : Instr.wellFormed (.vfma 3 1 0 2 1) = true ∧ Instr.hasWord (.vfma 3 1 0 2 1) = true ∧
    Instr.space (.vfma 3 1 0 2 1) = .execute ∧ (Instr.add 1 2 3).encodeNat < 2 ^ 31 ∧ Instr.wellFormed (.add 31 31 31) = true := by decide
theorem witness_EncodeOfDecode : decode .execute 0x80308503 = .ok (.vfma 3 1 0 2 1) := rfl

/-- A CC of its own at the resident level with a `yield` at its pc. -/
def fetching : State := resident.withFetchWord 32 0x40000001
theorem witness_StepRunsDecodedInstruction : fetching.dev.powered = true ∧ fetching.dev.failed = false ∧ fetching.agenda = [] ∧
    fetching.st.deco = none ∧ fetching.coreAgent = none ∧ fetching.devAgent = none ∧ fetching.core.canRun fetching.st = true ∧
    fetching.st.loadDue = false ∧ fetching.st.pend.any fetching.loadReady = false ∧
    after ((fetchAt fetching.via fetching.st.pc).run fetching) (fun w u => w == 0x40000001 && !u.st.suppressed &&
      decide (decode u.st.kind.space w = .ok .yield) && !endsNoBody .yield && u.st.loops.isEmpty) = true ∧
    after ((fetchAt resident.via resident.st.pc).run resident) (fun w _ => decide (decode .cc w = .error .unallocated)) = true := by
  decide +kernel

theorem test_step_goes_on : (goOn fetching (step fetching)).st.pc = 0x1004 := by decide +kernel

theorem witness_StepOtherTurns : 
    (({ resident with dev := { dev with powered := false } } : State).dev.powered = false ∧
      ({ resident with dev := { dev with failed := true } } : State).dev.failed = true ∧ resident.agenda = []) ∧
    (({ (user .execute) with st := { strand .execute with deco := some ⟨0, false, false, 0, false, 0⟩ } } : State).st.deco.isSome = true ∧
      core.canRun ({ strand .execute with deco := some ⟨0, false, false, 0, false, 0⟩ } : Strand) = true) ∧
    (Instr.hasWord (.scrub (.home 0) false) = false ∧ resident.core.num = 0 ∧ (.scrub (.spad 0) false : Instr).hasWord = false) ∧
    ((({ resident with core := { resident.core with rpend := 1, renab := 1, resident := false } } : State).coreAgent = some .residentEntry) ∧
      ({ resident with dev := { dev with swaps := [⟨1, 0, 1, 1, 0x10000, 0x20000, false⟩] } } : State).coreAgent = none ∧
      ({ resident with dev := { dev with swaps := [⟨1, 0, 1, 1, 0x10000, 0x20000, false⟩] } } : State).devAgent = some (.turnoverSwap 0)) ∧
    (let s : State := { resident with st := { resident.st with pend := [⟨1, 0, .value 5, 0⟩] } };
      s.coreAgent = none ∧ s.devAgent = none ∧ s.core.canRun s.st = true ∧ s.st.loadDue = true) ∧
    (endsNoBody (.jal 0 4) = true ∧ ∃ l ∈ (looped [⟨0xFF8, 0x1000, 3, 0, 0, 0⟩] (user .cc)).st.loops, l.last = 0x1000) ∧
    (let s := looped [⟨0x1000, 0x1004, 0, 2, 3, 0⟩] (user .cc);
      s.st.suppressed = true ∧ endsNoBody .nop = false ∧ illegalWord s .nop = false ∧ illegalWord s (.sysw 1 8) = true ∧ illegalWord s (.loop 1 0) = true ∧ isResident .nop = false ∧
      isResident .wfi = true ∧ endsNoBody .wfi = false ∧ s.atResident = false ∧ (∃ l r, s.st.loops = l :: r ∧ l.stages ≠ 0 ∧
        l.holds s.st.pc = true) ∧ s.st.deco = none) := by
  and_intros
  all_goals first
    | decide +kernel
    | exact ⟨_, _, rfl, by decide +kernel⟩

theorem witness_FetchReadsFourBytes : fetching.atResident = true ∧ fetching.core.rroot = 0 ∧ fetching.dev.rmLgn = 0 ∧
    fetching.st.pc.toNat % 4 = 0 ∧ fetching.core.owns fetching.st.pc.toNat = false ∧
    (∀ c ∈ fetching.dev.cores, c.owns fetching.st.pc.toNat = false) ∧ fetching.dev.hostLines = [] ∧
    fetching.dev.flashBad = [] ∧ (∀ t ∈ fetching.dev.tokens, t.line ≠ fetching.st.pc.toNat / 128) ∧
    (fetching.dev.mem.tag fetching.st.pc.toNat).cls ≠ cPOI := by decide +kernel


/-! ### Witnesses: the shared scalar instructions -/

theorem witness_ScalarFrame : scalarDest (.add 5 6 7) = some 5 ∧ goesOn (exec (.add 5 6 7) (user .access)) = true ∧ (7 : BitVec 5) ≠ 5 := by
  decide +kernel

theorem witness_WhereAWordGoesOn :
    (user .cc).inLine ∧
    ((looped [⟨0xFF8, 0x1004, 3, 0, 0, 0⟩] (user .cc)).st.loops ≠ [] ∧ (0x1004 : Word) ≠ (user .cc).st.pc) ∧
    (∃ l r, (looped [⟨0xFF8, 0x1000, 2, 0, 0, 0⟩] (user .cc)).st.loops = l :: r ∧ l.last = (user .cc).st.pc ∧ l.stages = 0 ∧ 1 < l.left) ∧
    (∃ l r, (looped [⟨0xFF8, 0x1000, 1, 0, 0, 0⟩] (user .cc)).st.loops = l :: r ∧ l.last = (user .cc).st.pc ∧ l.stages = 0 ∧ l.left ≤ 1) ∧
    (∃ l r, (looped [⟨0xFF8, 0x1000, 0, 3, 2, 2⟩] (user .execute)).st.loops = l :: r ∧ l.last = (user .execute).st.pc ∧ l.stages ≠ 0 ∧
      l.iter + 1 < l.trips + l.stages - 1 ∧ (7 : Nat) < 8 ∧ 1 ≤ l.trips) ∧
    (∃ l r, (looped [⟨0xFF8, 0x1000, 0, 3, 2, 3⟩] (user .execute)).st.loops = l :: r ∧ l.last = (user .execute).st.pc ∧ l.stages ≠ 0 ∧
      l.trips + l.stages - 1 ≤ l.iter + 1) := by
  refine ⟨by unfold State.inLine; decide, by decide, ⟨_, _, rfl, ?_⟩, ⟨_, _, rfl, ?_⟩, ⟨_, _, rfl, ?_⟩, ⟨_, _, rfl, ?_⟩⟩ <;> decide

theorem test_ploop_goes_round : (ran .nop (looped [⟨0xFF8, 0x1000, 0, 3, 2, 0⟩] (user .execute))).st.pc = 0xFF8 ∧
    (ran .nop (looped [⟨0xFF8, 0x1000, 0, 3, 2, 0⟩] (user .execute))).st.rb = 1 ∧
    (ran .nop (looped [⟨0xFF8, 0x1000, 0, 3, 2, 0⟩] (user .execute))).st.sp = 3 := by decide +kernel

theorem witness_BranchesGoWhereTheComparisonSays : (user .cc).mayGoTo (0x1000 + (0x7FFF : BitVec 15).signExtend 64 * 4) ∧
    resident.mayGoTo 0 := by unfold State.mayGoTo; decide

theorem witness_JumpsAndTransfers :
    (user .cc).mayGoTo (0x1000 + (4 : BitVec 20).signExtend 64 * 4) ∧
    ((user .cc).mayGoTo 0x2000 ∧ (0x2000 : Word).toNat = (((user .cc).setX 5 0x2003).x 5 + (0 : BitVec 15).signExtend 64).toNat / 4 * 4) ∧
    (∃ l ∈ (looped [⟨0xFF8, 0x1010, 0, 2, 3, 0⟩] (user .cc)).st.loops, l.stages ≠ 0 ∧ l.holds (0x1000 + (4 : BitVec 20).signExtend 64 * 4) = true) ∧
    (∃ l ∈ (looped [⟨0xFF8, 0x1010, 0, 2, 3, 0⟩] ((user .cc).setX 5 0x1013)).st.loops,
      l.stages ≠ 0 ∧ l.holds (((user .cc).setX 5 0x1013).x 5 &&& ~~~3) = true) ∧
    (let s : State := { (user .cc) with core := { core with handler := some ⟨[], 0⟩ } };
      (∀ l ∈ s.st.loops, l.stages = 0) ∧ s.atResident = false ∧ s.st.kind = .cc ∧ s.core.handler.isSome = true) ∧
    ((∀ l ∈ (user .execute).st.loops, l.stages = 0) ∧ (user .execute).st.kind ≠ .cc) := by unfold State.mayGoTo; decide +kernel

theorem witness_LoopsAndStripMining :
    (((looped (.replicate 3 ⟨0xFF8, 0x1010, 2, 0, 0, 0⟩) (user .cc)).st.loops.length < 4 ∧
        ∀ x ∈ (looped (.replicate 3 ⟨0xFF8, 0x1010, 2, 0, 0, 0⟩) (user .cc)).st.loops, x.stages = 0) ∧
      ((user .cc).setX 5 1).x 5 ≠ 0 ∧ (user .cc).x 5 = 0) ∧
    ((0x7FFF : BitVec 15).toNat + 1) % ((7 : BitVec 3).toNat + 1) = 0 ∧
    ¬((looped (.replicate 4 ⟨0xFF8, 0x1010, 2, 0, 0, 0⟩) (user .cc)).st.loops.length < 4) ∧
    ((2 : BitVec 15).toNat + 1) % ((1 : BitVec 3).toNat + 1) ≠ 0 ∧
    (∀ x ∈ (looped [⟨0xFF8, 0x1010, 2, 0, 0, 0⟩] (user .cc)).st.loops, x.last ≠ 0x1008) ∧
    sbrOk 5 6 3 0xE4 = true ∧ (5 : BitVec 5) ≠ 0 ∧ (3 : Nat) ≤ (3 : BitVec 2).toNat ∧ (6 : BitVec 5) + .ofNat 5 3 ≠ 0 ∧
    0 < (((user .cc).setX 5 9).x 5 - .ofNat 64 8).toInt ∧ (((user .cc).setX 5 8).x 5 - .ofNat 64 8).toInt ≤ 0 ∧
    (user .cc).mayGoTo (0x1000 - 4 * (((0 : BitVec 3) ++ (3 : BitVec 5)).setWidth 64 + 1)) := by
  unfold State.mayGoTo; decide +kernel

theorem test_sbr : (ran (.sbr 0 5 6 1 4 3) (((user .cc).setX 5 9).setX 6 100)).st.pc = 0xFF0 ∧
    (ran (.sbr 0 5 6 1 4 3) (((user .cc).setX 5 9).setX 6 100)).x 5 = 1 ∧
    (ran (.sbr 0 5 6 1 4 3) (((user .cc).setX 5 9).setX 6 100)).x 6 = 108 ∧
    (ran (.sbr 0 5 6 1 4 3) (((user .cc).setX 5 9).setX 6 100)).x 7 = 16 := by decide +kernel

/-- A state whose scratchpad line 0 is RAW. -/
def padRaw (k : StrandKind) : State := (user k).putSpad 0 0x0807060504030201 (Memory.tag0.raw)

theorem witness_ScratchpadAccess :
    (let s := (padRaw .cc).setX 6 padBase;
      let va := s.x 6 + (0x078 : BitVec 12).signExtend 64;
      (6 : BitVec 3).toNat ≤ 6 ∧ 0xFFFFFFFFFFC00000 ≤ va.toNat ∧ va.toNat % 128 + 2 ^ ((3 : BitVec 3).toNat % 4) ≤ 128 ∧
      s.core.engHolds 2 = false ∧ s.core.engHolds 1 = false ∧ (va.toNat % 4194304 / 128) ∉ s.core.feEmpty ∧
      (s.core.spad.tag (va.toNat % 4194304)).cls = cRAW ∧ (7 : Nat) < 8 ∧ s.st.kind = .cc ∧ s.core.spad.wf = true ∧
      s.st.holdsBytes (va.toNat % 4194304 / 128) (byteMask (va.toNat % 4194304 % 128) 8) = false ∧
      va.toNat % 4194304 / 128 * 128 + s.core.carveSize < 4194304 - 2048) ∧
    (let s := (user .cc).setX 6 (BitVec.allOnes 64 - 2047);
      (s.x 6).toNat % 4194304 / 128 * 128 + s.core.carveSize ≥ 4194304 - 2048 ∧ s.st.kind = .cc ∧ 4194304 - 2048 ≤ (s.x 6).toNat % 4194304) ∧
    ((padRaw .execute).st.kind = .execute ∧ (((padRaw .execute).putSpad 0 5 (Memory.tag0.withCls cVAL)).core.spad.tag 0).cls = cVAL) := by
  decide +kernel

theorem test_load_signs : (ran (.ld 5 6 1 0) (((user .cc).putSpad 0 0x8001 Memory.tag0.raw).setX 6 padBase)).x 5 = 0xFFFFFFFFFFFF8001 ∧
    (ran (.ld 5 6 5 0) (((user .cc).putSpad 0 0x8001 Memory.tag0.raw).setX 6 padBase)).x 5 = 0x8001 := by decide +kernel

/-- The A-hart of a gang with a load pending. -/
def pending (p : PendLoad) (s : State) : State := { s with st := { s.st with pend := [p] } }

theorem witness_ScalarAccess :
    (let s := (padRaw .access).setX 6 padBase;
      let va := s.x 6 + (0x07C : BitVec 12).signExtend 64;
      okay ((storeParts (lineParts va 8) (s.x 5).toNat).run s) = true ∧
      after ((loadParts (lineParts va (ldSize 3))).run s) (fun v u => decide (v.2 &&& u.st.tmask = 0)) = true ∧
      ¬(s.st.kind ≠ .cc ∧ s.spadEmpty va (ldSize 3) = true)) ∧
    (let s : State := ({ (padRaw .access) with core := { (padRaw .access).core with feEmpty := [0] } } : State).setX 6 padBase;
      s.st.kind = .access ∧ (∀ p ∈ lineParts padBase 4, inWindow p.1 = true) ∧ s.spadEmpty padBase 4 = true) ∧
    ((∃ p r, (pending ⟨5, 0, .value 7, 0⟩ (user .access)).st.pend = p :: r ∧ p.left = 0 ∧ p.src = .value 7) ∧ (user .access).st.run = .running) ∧
    ((∃ p r, (pending ⟨5, 0, .late padBase 2, 0⟩ (user .access)).st.pend = p :: r ∧ p.src = .late padBase 2) ∧
      ({ (user .access) with core := { core with feEmpty := [0] } } : State).spadEmpty padBase (ldSize 2) = true ∧
      (padRaw .access).spadEmpty padBase (ldSize 2) = false) ∧
    after ((loadParts (lineParts padBase (ldSize 2))).run (padRaw .access)) (fun v u => decide (v.2 &&& u.st.tmask = 0)) = true := by
  refine ⟨by decide +kernel, by decide +kernel, ⟨⟨_, _, rfl, rfl, rfl⟩, rfl⟩, ⟨⟨_, _, rfl, rfl⟩, by decide +kernel⟩, by decide +kernel⟩

theorem witness_FencesHintsAndPrefetches : ((user .access).st.unread = false ∧ (user .access).fenceWaits 3 true true = false ∧
      (pending ⟨5, 0, .late padBase 2, 0⟩ (user .access)).st.unread = true) ∧
    (2 : BitVec 3).toNat < 3 ∧ 3 ≤ (3 : BitVec 3).toNat ∧ (4 : BitVec 3).getLsbD 2 = true ∧
    (2 : BitVec 3).getLsbD 2 = false ∧ (2 : BitVec 3).getLsbD 1 = true ∧ (user .access).st.kind ≠ .execute ∧ (user .execute).st.kind = .execute ∧
    (match dev.translate (user .access).via nLoad 0 with
      | .error _ => true
      | .ok _ => false) = true := by decide +kernel

theorem witness_ShapesAndQueries : wcOk 15 = true ∧ wcOk 0 = true ∧ (user .execute).core.gang = some gang ∧
    ({ (user .execute) with st := { strand .execute with mrows := 8 } } : State).limitRows > 0 := by decide +kernel

/-- A gang with its A-hart acting, its X-hart and its CC beside it. -/
def withHarts : State := { (user .access) with core := { core with strands := [strand .cc, strand .execute] } }
/-- The same with the X-hart acting. -/
def withAccess : State := { (user .execute) with core := { core with strands := [strand .cc, strand .access] } }

theorem witness_BranchOutcomesAndBarrier :
    (∃ p, withHarts.st.partner = some 9 ∧ withHarts.strandAt 9 = some p ∧ 9 ≠ withHarts.st.slot ∧ p.bqIn.length < 16) ∧
    (let s : State := { withHarts with core := { core with strands := [strand .cc, { strand .execute with bqIn := .replicate 16 true }] } };
      ∃ p, s.strandAt 9 = some p ∧ 16 ≤ p.bqIn.length) ∧
    (({ strand .execute with bqIn := [true] } : Strand).bqIn = [true] ∧ (user .execute).st.kind ≠ .cc ∧ (user .execute).st.bqIn = []) ∧
    (user .execute).mayGoTo (0x1000 + (1 : BitVec 15).signExtend 64 * 4) ∧
    (user .cc).st.kind = .cc ∧ withHarts.core.gang = some gang ∧ withHarts.atResident = false ∧
    (some (0 : Nat)).getD 1 < ({ gang with barGen := 1 } : Gang).barGen ∧ gang.barGen ≤ withHarts.st.arrived.getD gang.barGen ∧
    ({ withHarts with st := { withHarts.st with arrived := some 0 } } : State).allArrived 0 = false ∧
    ({ (user .access) with st := { strand .access with arrived := some 0 } } : State).allArrived 0 = true := by
  refine ⟨⟨_, rfl, rfl, by decide, by decide⟩, ⟨_, rfl, by decide⟩, by decide, by unfold State.mayGoTo; decide, ?_⟩
  decide +kernel

theorem witness_TrapsRaisedAndUnhandled : (user .cc).core.gang = some gang ∧ (user .cc).atResident = false ∧ gang.term = none ∧
    ({ gang with tvec := 0 } : Gang).tvec = 0 ∧ (user .cc).st.slot = 0 ∧ ({ core with handler := some ⟨[], 0⟩ } : Core).handler.isSome = true ∧
    resident.atResident = true := by decide +kernel

theorem test_resident_trap_halts : (ran (.trap 3) resident).core.halted = true := by decide +kernel

theorem witness_TrapEntryAndHandlerExit :
    ((user .cc).core.spad.wf = true ∧ (user .cc).atResident = false ∧ (user .cc).core.gang = some gang ∧ gang.tvec ≠ 0 ∧ (user .cc).st.slot ≤ 16 ∧ (user .cc).st.slot = 0 ∧
      (user .cc).core.handler = none) ∧
    (((padRaw .cc).putSpad (4194304 - 2048) 0 Memory.tag0.raw).core.spad.tag (4194304 - 2048)).cls = cRAW ∧
    (let s : State := { (user .execute) with st := { strand .execute with idx := 7 }, core := { core with strands := [strand .cc] } };
      s.st.slot = 16 ∧ gang.left = false ∧ ∀ t ∈ s.core.strands, t.slot = 0 → t.run ≠ .ended) ∧
    (let s : State := { (user .cc) with core := { core with handler := some ⟨[], 0⟩ } };
      s.st.kind = .cc ∧ s.core.handler = some ⟨[], 0⟩ ∧ (s.core.spad.byte (4194304 - 2048 + 16)).toNat ≠ 3) ∧
    (let s : State := ({ (user .cc) with core := { core with handler := some ⟨[], 0⟩ } } : State).putSpad (4194304 - 2048) (3 <<< 128) Memory.tag0.raw;
      (s.core.spad.byte (4194304 - 2048 + 16)).toNat = 3) := by decide +kernel

theorem test_trap_frame : (ran (.trap 7) (user .execute)).st.run = .trapped ∧
    (ran (.trap 7) (user .execute)).core.spad.readN (4194304 - 2048 + 64 * 9) 8 = 0x1000 ∧
    (ran (.trap 7) (user .execute)).core.spad.byte (4194304 - 2048 + 64 * 9 + 17) = 0x09 ∧
    (ran (.trap 7) (user .execute)).core.spad.readN (4194304 - 2048 + 64 * 9 + 20) 4 = 7 := by decide +kernel

theorem witness_UserSystemRegisters : (user .execute).st.kind ≠ .cc ∧ (user .execute).st.kind = .execute ∧
    ((user .execute).dev.ctx (user .execute).core.ctxId).isSome = true ∧ 12 ≤ (12 : BitVec 12).toNat ∧ (user .cc).st.kind = .cc ∧
    (user .access).st.kind ≠ .execute ∧ 4 ≤ (8 : BitVec 12).toNat ∧ (8 : BitVec 12).toNat ≤ 8 := by decide +kernel

theorem test_seed_never_zero : (ran (.sysw 0 3) (user .execute)).st.seed = 1 := by decide +kernel
theorem test_round_reserved : (ran (.sysw 5 2) ((user .cc).setX 5 7)).st.round = 0 := by decide +kernel


/-! ### Vector states -/

/-- A register in format `f` with the given lines under one scale and class. -/
def vec (f : BitVec 4) (scl : BitVec 8) (cls : BitVec 3) (ls : List Line) : VReg := ⟨f, ls.map fun l => ⟨l, mkSide f scl false cls⟩⟩
/-- A line of `w`-bit codes. -/
def pack (w : Nat) (codes : List Nat) : Line := .ofNat 1024 (codes.foldr (fun c r => c + 2 ^ w * r) 0)
/-- A state with a vector register of the acting X-hart set. -/
def withV (v : BitVec 5) (r : VReg) (s : State) : State := { s with st := s.st.setReg (s.st.phys v) r }
/-- A state whose next word is decorated. -/
def decorated (d : Deco) (s : State) : State := { s with st := { s.st with deco := some d, pc := s.st.pc + 4 } }
/-- A state under another grant. -/
def granted (vl vr : Nat) (w : Nat) (s : State) : State := { s with st := { s.st with vl := .ofNat 15 vl, vr := .ofNat 15 vr, gw := w } }
/-- A state with mask `m` holding bits. -/
def masked (m : BitVec 3) (bits : Nat) (s : State) : State :=
  { s with st := { s.st with mask := s.st.mask.set m.toNat (.ofNat 24576 bits) m.isLt } }
/-- A state whose enabled flags are all of them. -/
def trapping (s : State) : State := { s with st := { s.st with tmask := 0xFF } }
/-- The code of an element of a register. -/
def codeOf (s : State) (v : BitVec 5) (w e : Nat) : Nat :=
  ((s.st.reg (s.st.phys v)).seg (e / perSeg w)).data.toNat / 2 ^ (w * (e % perSeg w)) % 2 ^ w
def sideOf (s : State) (v : BitVec 5) (k : Nat) : Sidecar := ((s.st.reg (s.st.phys v)).seg k).side

/-! ### The spec's worked examples of files 02, 07, 08, 09 and 11 -/

/-- File 07, one fused element across three formats. -/
def fused : State := decorated ⟨4, true, false, 0, false, 0⟩ (granted 32 1 32 (withV 4 (vec 0 127 cVAL [pack 32 [0x3F800000], 0])
  (withV 2 (vec 1 127 cVAL [pack 16 [0x3FC0], 0]) (withV 1 (vec 4 129 cVAL [pack 8 [0x42], 0]) (user .execute)))))
theorem test_fused_element : codeOf (ran (.vfma 6 1 0 2 0) fused) 6 32 0 = 0x41800000 ∧ (ran (.vfma 6 1 0 2 0) fused).st.flags = 0 ∧
    sideOf (ran (.vfma 6 1 0 2 0) fused) 6 0 = 0x07F0 := by decide +kernel

/-- File 02, two elements under SR. -/
def stochastic : State := granted 2 1 32 (withV 1 (vec 0 127 cVAL [pack 32 [0x3E99999A, 0x3E99999A], 0])
  { (user .execute) with st := { strand .execute with seed := 0xE0000000, round := 5 } })
theorem test_two_elements_under_sr : codeOf (ran (.vcvt 2 1 0 4) stochastic) 2 8 0 = 0x29 ∧ codeOf (ran (.vcvt 2 1 0 4) stochastic) 2 8 1 = 0x2A ∧
    (ran (.vcvt 2 1 0 4) stochastic).st.seed = 0x80000002 ∧ (ran (.vcvt 2 1 0 4) stochastic).st.flags = fNX := by decide +kernel

/-- File 07, a compare with NaN and a merge. -/
def compared (z : Bool) : State := decorated ⟨0, false, z, 1, false, 0⟩ (masked 1 0b1011 (masked 2 0b1111 (granted 4 1 16
  (withV 3 (vec 1 127 cVAL [pack 16 [0x4000, 0x40A0, 0, 0x4040], 0]) (withV 2 (vec 1 127 cVAL [pack 16 [0x3F80, 0x7FC0, 0x8000, 0x4040], 0])
    (user .execute))))))
theorem test_compare_with_nan : ((ran (.vcmp 2 2 0 3 0 3) (compared false)).st.mask[2]).toNat = 0b1101 ∧
    ((ran (.vcmp 2 2 0 3 0 3) (compared true)).st.mask[2]).toNat = 0b1001 ∧ (ran (.vcmp 2 2 0 3 0 3) (compared false)).st.flags = 0 := by
  decide +kernel

/-- File 07, one E4M3 segment. -/
def quantised : State := granted 4 1 16 (withV 3 (vec 1 127 cVAL [pack 16 [0x447A, 0xC040, 0x3F00, 0x42C8], 0]) (user .execute))
theorem test_quantised_elements : ((List.range 4).map (codeOf (ran (.vquant 7 3 0 4) quantised) 7 8)) = [0x78, 0xB4, 0x20, 0x5C] ∧
    sideOf (ran (.vquant 7 3 0 4) quantised) 7 0 = 0x4810 ∧ (ran (.vquant 7 3 0 4) quantised).st.flags = fNX := by decide +kernel

/-- File 07, CARRY through an add: both segments at SCL 130. -/
def carried (other : BitVec 8) : State := granted 64 1 16 (withV 9 (vec 1 other cVAL [pack 16 [0x3F80], 0]) (withV 8 (vec 1 130 cVAL [pack 16 [0x3F80], 0])
  { (user .execute) with core := { core with pk := core.pk.set 17 0x51 } }))
theorem test_carry_through_an_add : sideOf (ran (.vadd 10 8 0 9 0) (carried 130)) 10 0 = mkSide 1 130 false cVAL ∧
    codeOf (ran (.vadd 10 8 0 9 0) (carried 130)) 10 16 0 = 0x4000 ∧
    sideOf (ran (.vadd 10 8 0 9 0) (carried 131)) 10 0 = mkSide 1 127 false cVAL ∧
    codeOf (ran (.vmul 10 8 0 9 0) (carried 130)) 10 16 0 = 0x4280 := by decide +kernel

/-- File 08, select and rotate. -/
def selected : State := decorated ⟨3, true, false, 0, false, 0⟩ (granted 32 1 32 (withV 1 (vec 11 127 cVAL [pack 32 [0xFFFF0000], 0])
  (withV 2 (vec 11 127 cVAL [pack 32 [0x12345678], 0]) (withV 3 (vec 11 127 cVAL [pack 32 [0xABCDEF01], 0]) (user .execute)))))
theorem test_select_and_rotate : codeOf (ran (.vlut3 4 1 0 2 0 0xCA) selected) 4 32 0 = 0x1234EF01 ∧
    codeOf (ran (.vfsh 6 4 0 4 0) (decorated ⟨5, true, false, 0, false, 0⟩ (granted 32 1 32 (withV 5 (vec 11 127 cVAL [pack 32 [4], 0])
      (withV 4 (vec 11 127 cVAL [pack 32 [0x1234EF01], 0]) (user .execute)))))) 6 32 0 = 0x234EF011 := by decide +kernel

/-- File 08, a partial mask that the tree sees. -/
def treed : State := decorated ⟨0, false, false, 1, false, 0⟩ (masked 1 0b10111 (granted 5 1 16
  (withV 1 (vec 1 127 cVAL [pack 16 [0x4380, 0x3F80, 0x3F80, 0x3F80, 0xC380], 0]) (user .execute))))
theorem test_partial_mask_in_the_tree : ((List.range 5).map (codeOf (ran (.vred 4 1 0 0) treed) 4 16)) = [0, 0, 0, 0, 0] ∧
    (ran (.vred 4 1 0 0) treed).st.flags = fNX := by decide +kernel

/-- File 11, one unit load across three tags. -/
def threeTags : State := granted 160 1 16 (({ (user .access) with core := { core with strands := [(strand .execute).setReg 12 ⟨1, .replicate 3 ⟨0, 0⟩⟩] } } : State).putSpad
  0 (.ofNat 1024 (0x4040 * 2 ^ 512)) (Memory.tag0.retag 1 127 cVAL 0) |>.putSpad 128 (.ofNat 1024 (0x44 + 0x7E * 2 ^ 504)) (Memory.tag0.retag 4 129 cVAL 0) |>.setX 8
  (padBase + 64))
theorem test_load_across_three_tags :
    (((ran (.vldU 12 8 0 0 0 0) threeTags).strandAt 9).map fun t => ((t.reg 12).segs.map (·.side))) = some [0x17F8, 0x47F8, 0x07F0] ∧
    (((ran (.vldU 12 8 0 0 0 0) threeTags).strandAt 9).map fun t => ([0, 32, 95, 96].map fun e =>
      ((t.reg 12).seg (e / 64)).data.toNat / 2 ^ (16 * (e % 64)) % 2 ^ 16)) = some [0x4040, 0x4140, 0x44E0, 0] ∧
    (ran (.vldU 12 8 0 0 0 0) threeTags).st.flags = fNX := by decide +kernel

/-- File 09, one group, one rounding: the X-hart of a one-pair gang after `tzero`, with its four operands. -/
def matrixBase : State := granted 2 8 8 (withV 8 (vec 4 148 cVAL [pack 8 [0x50], 0]) (withV 9 (vec 4 127 cVAL [pack 8 [0x38], 0])
  (withV 10 (vec 4 127 cVAL [pack 8 [0x38, 0x38, 0x38], 0]) (withV 11 (vec 4 127 cVAL [pack 8 [0x30, 0x30, 0x30, 0x30], 0])
    { (user .execute) with st := { strand .execute with mrows := 8 } }))))
def matrixDone : State := ran (.twait 0) (ran (.matrixRetire 0 0) (ran (.matrixRetire 0 0) (ran (.mop 0 10 0 11 0 0) (ran (.mop 0 8 0 9 0 0) (ran (.tzero 0) matrixBase)))))
theorem test_one_rounding_of_a_group : codeOf matrixDone 0 32 0 = 0x4B800001 ∧ ((List.range' 1 15).map (codeOf matrixDone 0 32)) = List.replicate 15 0 ∧
    sideOf matrixDone 0 0 = 0x07F0 ∧ sideOf matrixDone 0 1 = 0x7F2 ∧ matrixDone.st.flags = fNX := by decide +kernel


/-! ### Witnesses: the vector instructions -/

/-- Whether a computation succeeds and leaves the state as it was, with an answer that passes a test. -/
def keeps {α : Type} (s : State) (m : M α) (p : α → Bool) : Prop := ∃ x, m.run s = .ok (x, s) ∧ p x = true

def fmax : Nat := 0x7F7FFFFF
/-- An X-hart whose v5 holds the largest FP32 number and v6 ones. -/
def exec8 : State := withV 6 (vec 0 127 cVAL [pack 32 (.replicate 32 0x3F800000), 0]) (withV 5 (vec 0 127 cVAL [pack 32 (.replicate 32 fmax), 0]) (user .execute))
/-- A merge under m1, bit 0 set, over a destination of another format with a value the result's format lacks. -/
def merging : State := decorated ⟨0, false, false, 1, false, 0⟩ (masked 1 1 (withV 4 (vec 11 127 cVAL [pack 32 [0, 5], 0]) exec8))

theorem witness_CommonPathWritesItsElements :
    (commonPath (.vadd 4 6 0 6 0) exec8 = some (opAdd, 4, [6, 6]) ∧ exec8.st.grant ≠ 0) ∧
    keeps exec8 (issueArith [6, 6] 4 opAdd.takes) (fun x => !(arithAcc opAdd 4 exec8 x.1 x.2).1.bad &&
      decide ((arithAcc opAdd 4 exec8 x.1 x.2).1.flags &&& exec8.st.tmask = 0)) ∧
    keeps (trapping exec8) (issueArith [5, 5] 4 opAdd.takes) (fun x => !(arithAcc opAdd 4 (trapping exec8) x.1 x.2).1.bad &&
      decide ((arithAcc opAdd 4 (trapping exec8) x.1 x.2).1.flags &&& (trapping exec8).st.tmask ≠ 0)) ∧
    (let s := exec8; let p := s.core.prick [0, 0];
      s.st.kind = .execute ∧ s.readable 5 ∧ s.readable 6 ∧ s.writable 4 ∧
      s.st.grant ≤ (s.vreg 5).segs.length * perSeg (s.fmt (s.vreg 5).fmt).wid ∧ (s.vreg 5).rawBelow (s.fmt (s.vreg 5).fmt) s.st.grant = false ∧
      s.st.grant ≤ (s.vreg 4).segs.length * perSeg (s.fmt p.cf).wid ∧ s.st.keptBeyond (s.vreg 4) (s.fmt (s.vreg 4).fmt) = false ∧ s.st.rawKept (s.vreg 4) (s.fmt (s.vreg 4).fmt) = false ∧
      p.al = true ∧ opAdd.takes (s.fmt p.cf) = true) := by
  refine ⟨⟨rfl, by decide +kernel⟩, ⟨([exec8.vreg 6, exec8.vreg 6], exec8.core.prick [0, 0]), rfl, by decide +kernel⟩,
    ⟨([exec8.vreg 5, exec8.vreg 5], exec8.core.prick [0, 0]), rfl, by decide +kernel⟩, ?_⟩
  unfold State.readable State.writable
  decide +kernel

theorem witness_VectorFrame : vectorDest (.vadd 4 6 0 6 0) = some 4 ∧ exec8.st.kind = .execute ∧ exec8.st.run = .running ∧
    (exec8.st.tile (exec8.st.phys 4 / 8)).peek = false ∧ exec8.st.phys 4 < 32 ∧ goesOn (exec (.vadd 4 6 0 6 0) exec8) = true ∧
    (ran (.vadd 4 6 0 6 0) exec8).st.run = .running ∧ segsBelow exec8.st.grant 32 ≤ 1 := by decide +kernel

theorem witness_ZeroGrantDoesNothing :
    (let s := granted 0 0 16 exec8; s.st.grant = 0 ∧ (commonPath (.vadd 4 5 0 6 0) s).isSome = true ∧ (s.core.prick [0, 0]).al = true ∧
      opAdd.takes (s.fmt (s.core.prick [0, 0]).cf) = true ∧ moveOperands (.vmov 4 5 0) = some (4, [5])) := by decide +kernel

theorem witness_ComparesReductionsAndScans : exec8.st.grant ≠ 0 ∧
    keeps exec8 (issueCompare 5 6) (fun x => decide ((compareAcc 1 (compare 0) exec8 x.1 x.2).flags &&& exec8.st.tmask = 0) &&
      decide ((compareAcc 1 bounded exec8 x.1 x.2).flags &&& exec8.st.tmask = 0)) ∧
    keeps exec8 (issueRed 4 6 0 false) (fun x => !(redAcc 0 exec8 x.1 x.2).bad && decide ((redAcc 0 exec8 x.1 x.2).flags &&& exec8.st.tmask = 0)) ∧
    keeps exec8 (issueRed 4 6 3 true) (fun x => !(scanAcc 4 3 exec8 x.1 x.2).bad && decide ((scanAcc 4 3 exec8 x.1 x.2).flags &&& exec8.st.tmask = 0)) :=
  ⟨by decide +kernel, ⟨_, rfl, by decide +kernel⟩, ⟨_, rfl, by decide +kernel⟩, ⟨_, rfl, by decide +kernel⟩⟩

/-- The issue checks of compares, reductions and scans: a comparison of two FP32 registers, a sum (operation 0) of one. -/
theorem witness_ComparesReductionsAndScans_checks :
    (let s := exec8; s.st.kind = .execute ∧ s.st.grant ≠ 0 ∧ s.readable 5 ∧ s.readable 6 ∧ s.writable 4 ∧
      (∀ r ∈ [s.vreg 5, s.vreg 6], r.holds (s.fmt r.fmt) s.st.grant = true ∧ r.rawBelow (s.fmt r.fmt) s.st.grant = false) ∧
      (s.core.prick [0, 0]).al = true ∧ (s.core.prick [(s.vreg 5).fmt]).al = true ∧ (0 : BitVec 4).toNat < 4 ∧
      (s.vreg 4).holds (s.fmt (s.core.prick [(s.vreg 5).fmt]).cf) s.st.grant = true ∧
      s.st.keptBeyond (s.vreg 4) (s.fmt (s.vreg 4).fmt) = false ∧ s.st.rawKept (s.vreg 4) (s.fmt (s.vreg 4).fmt) = false) := by
  unfold State.readable State.writable
  decide +kernel

/-- The issue checks of a conversion to BF16. -/
theorem witness_ConversionsAndTags_checks :
    (let s := exec8; s.readable 6 ∧ s.writable 4 ∧ (s.vreg 6).holds (s.fmt (s.vreg 6).fmt) s.st.grant = true ∧
      (s.vreg 6).rawBelow (s.fmt (s.vreg 6).fmt) s.st.grant = false ∧ (s.vreg 4).holds (s.fmt 1) s.st.grant = true ∧ s.st.keptBeyond (s.vreg 4) (s.fmt (s.vreg 4).fmt) = false ∧
      s.st.rawKept (s.vreg 4) (s.fmt (s.vreg 4).fmt) = false ∧ (s.fmt 1).kind ≠ .nested ∧ (s.fmt 1).kind ≠ .reserved) := by
  unfold State.readable State.writable
  decide +kernel

theorem witness_ConversionsAndTags : exec8.st.kind = .execute ∧ exec8.st.grant ≠ 0 ∧
    keeps exec8 (issueConvert 4 6 4) (fun x => !(convertAcc 4 4 exec8 x).bad && decide ((convertAcc 4 4 exec8 x).flags &&& exec8.st.tmask = 0) &&
      !(quantAcc 4 exec8 x).bad && decide ((quantAcc 4 exec8 x).flags &&& exec8.st.tmask = 0)) ∧
    exec8.readable 6 ∧ (exec8.vreg 6).holds (exec8.fmt (exec8.vreg 6).fmt) exec8.st.grant = true ∧
    (exec8.vreg 6).rawBelow (exec8.fmt (exec8.vreg 6).fmt) exec8.st.grant = false ∧
    exec8.writable 4 ∧ (exec8.vreg 4).holds (exec8.fmt (exec8.vreg 4).fmt) exec8.st.grant = true ∧
    ((granted 384 1 4 exec8).vreg 4).holds (exec8.fmt (exec8.vreg 4).fmt) (granted 384 1 4 exec8).st.grant = false ∧ (exec8.x 7).toNat < (exec8.vreg 4).segs.length ∧ ((exec8.x 8).extractLsb' 0 3).toNat < 3 ∧
    exec8.calm ((scaledSegs exec8 (exec8.vreg 6) (exec8.x 7).toInt).foldl (fun f y => f ||| y.2) 0) := by
  refine ⟨by decide +kernel, by decide +kernel, ⟨_, rfl, by decide +kernel⟩, ?_⟩
  unfold State.readable State.writable State.calm
  decide +kernel

theorem witness_PrefixDecoratesTheNextWord :
    (decode .execute 0x80308503 = .ok (.vfma 3 1 0 2 1) ∧ (0x80308503 : BitVec 32).getLsbD 31 = true ∧
      decoOk (.vfma 3 1 0 2 1) ⟨4, true, false, 0, false, 0⟩ = true) ∧
    (decode .execute 0x40000001 = .ok .yield ∧ (0x40000001 : BitVec 32).getLsbD 31 = false) ∧
    decoOk (.mop 0 8 0 16 0 1) ⟨0, false, false, 1, false, 0⟩ = false ∧
    (match decode .execute 0 with
      | .error e => decide (e = .unallocated)
      | .ok _ => false) = true := by decide

theorem witness_CodeMoves :
    (moveOperands (.vzip 4 5 0 6) = some (4, [5, 6]) ∧ exec8.st.grant ≠ 0) ∧
    keeps exec8 (issueMove 4 [5, 6]) (fun x => x.1.length == 2 && !keepsOld exec8.st (fun _ => some .zero) && x.2.fmt == 0 &&
      (movedSides 32 (movedElements exec8.st x.2 32 fun e => some ((exec8.vreg 5).moved 32 e)) (fun _ ys => movedSide 0 ys)).all (· != .clash)) ∧
    (keepsOld merging.st (fun e => if merging.st.active e then some .zero else none) = true ∧ (merging.vreg 4).fmt ≠ (merging.vreg 5).fmt) :=
  ⟨⟨rfl, by decide +kernel⟩, ⟨([exec8.vreg 5, exec8.vreg 6], exec8.vreg 4), rfl, by decide +kernel⟩, by decide +kernel⟩

/-- Indexes in v7. -/
def indexed : State := withV 7 (vec 11 127 cVAL [pack 32 [7, 6, 5, 4, 3, 2, 1, 8], 0]) exec8
theorem witness_CodeMoves_permute :
    keeps indexed (issuePerm 4 5 7) (fun x => !keepsOld indexed.st (permPick indexed x.1 x.2.1) &&
      (movedSides 32 (movedElements indexed.st x.2.2 32 (permPick indexed x.1 x.2.1)) (fun _ ys => movedSide 0 ys)).all (· != .clash)) :=
  ⟨(indexed.vreg 7, indexed.vreg 5, indexed.vreg 4), rfl, by decide +kernel⟩
/-- A third source named by a `pfx`. -/
def three : State := decorated ⟨6, true, false, 0, false, 0⟩ exec8
theorem witness_CodeMoves_table :
    keeps three (issueMove 4 [5, 6, three.st.fourth 4]) (fun x => !keepsOld three.st (lutPick 0xCA three.st 32 x.1) &&
      (movedSides 32 (movedElements three.st x.2 32 (lutPick 0xCA three.st 32 x.1)) (lutSide x.1)).all (· != .clash)) :=
  ⟨([three.vreg 5, three.vreg 6, three.vreg 6], three.vreg 4), rfl, by decide +kernel⟩

/-- The issue checks of a move of two registers and of a permutation. -/
theorem witness_CodeMoves_checks :
    (let s := indexed; s.st.kind = .execute ∧ s.st.grant ≠ 0 ∧
      (∀ x ∈ [(5 : BitVec 5), 6], s.readable x ∧ (s.vreg x).fmt = (s.vreg 5).fmt ∧ (s.vreg x).holds (s.fmt (s.vreg 5).fmt) s.st.grant = true) ∧
      s.writable 4 ∧ (s.vreg 4).holds (s.fmt (s.vreg 5).fmt) s.st.grant = true ∧ s.readable 7 ∧ (s.fmt (s.vreg 7).fmt).kind = .int ∧
      (s.vreg 7).holds (s.fmt (s.vreg 7).fmt) s.st.grant = true ∧ (s.vreg 7).rawBelow (s.fmt (s.vreg 7).fmt) s.st.grant = false) := by
  unfold State.readable State.writable
  decide +kernel

theorem test_permute_outside_the_grant : (let s := ran (.vperm 4 5 0 7) indexed;
    (List.range 8).map (codeOf s 4 32) = [fmax, fmax, fmax, fmax, fmax, fmax, fmax, 0]) := by decide +kernel

theorem witness_ElementsAndMasks :
    (let s := exec8.setX 7 7; s.st.kind = .execute ∧ s.readable 6 ∧ s.writable 4 ∧ s.st.grant ≠ 0 ∧
      (s.vreg 6).holds (s.fmt (s.vreg 6).fmt) s.st.grant = true ∧ (s.vreg 4).holds (s.fmt (s.vreg 4).fmt) s.st.grant = true ∧
      (s.x 7).toNat < s.st.grant) ∧
    (exec8.setX 7 8).st.grant ≤ ((exec8.setX 7 8).x 7).toNat ∧ (granted 0 0 16 exec8).st.grant = 0 ∧ (24575 : Nat) < 24576 ∧
    (∀ e, e < exec8.st.grant → exec8.st.maskBit 1 e = false) ∧
    ((7 : Nat) < (masked 1 0x80 exec8).st.grant ∧ (masked 1 0x80 exec8).st.maskBit 1 7 = true ∧
      ∀ k, k < 7 → (masked 1 0x80 exec8).st.maskBit 1 k = false) := by
  unfold State.readable State.writable
  decide +kernel

theorem test_mfirst : (ran (.mfirst 5 1) (masked 1 0x80 exec8)).x 5 = 7 ∧ (ran (.mfirst 5 1) exec8).x 5 = BitVec.allOnes 64 ∧
    (ran (.mpopc 5 1) (masked 1 0x1FF exec8)).x 5 = 8 := by decide +kernel

/-- An X-hart with INT32 in v3 for the element indexes. -/
def deferring : State := withV 3 (vec 11 127 cVAL [0, 0]) exec8
theorem witness_DeferralsAndTaggedQueues :
    (let s := deferring; s.st.grant ≠ 0 ∧ s.st.kind = .execute ∧ (∀ r ∈ dfrNames 5 2, s.readable r) ∧
      (∀ r ∈ (dfrNames 5 2).map s.vreg, r.holds (s.fmt r.fmt) s.st.grant = true) ∧ s.st.dfrSigOf 7 = none) ∧
    (let s := { deferring with core := { core with gang := some { gang with dfrUnits := 4 } } };
      s.st.dfr.length + (dfrEntries s 7 0 ((dfrNames 5 2).map s.vreg)).length ≤ s.core.dfrRoom) ∧
    (let s := ran (.dfrPush 7 5 1 0) { deferring with core := { core with gang := some { gang with dfrUnits := 4 } } };
      s.writable 3 ∧ (∀ r ∈ dfrNames 4 2, s.writable r) ∧ (s.vreg 3).holds (s.fmt 11) s.st.grant = true ∧
      (∀ i, i < 2 → (((dfrNames 4 2).map s.vreg).getD i (.fresh 0)).holds (s.fmt (dfrFmt s 7 ((dfrNames 4 2).map s.vreg) i)) s.st.grant = true) ∧
      (s.st.dfrSigOf 7).map (·.length) = some 2 ∧ ((s.st.dfrPath 7).take s.st.grant).length = 8 ∧
      (∀ i, i < 2 → (dfrFill s 7 ((dfrNames 4 2).map s.vreg) ((s.st.dfrPath 7).take s.st.grant) i).bad = none ∧
        (dfrFill s 7 ((dfrNames 4 2).map s.vreg) ((s.st.dfrPath 7).take s.st.grant) i).flags = 0)) ∧
    (let q : TQueue := ⟨[], some 9, some 9⟩; let s := exec8.setQueue 0 q;
      (s.core.queue 0).producer = some s.st.slot ∧ (s.core.queue 0).slots.length + ((s.vreg 6).lines (s.fmt (s.vreg 6).fmt).wid s.st.grant).length ≤ 256) ∧
    (let full : List QSlot := .replicate 256 ⟨[0], 0, 0⟩; let s := exec8.setQueue 0 ⟨full, some 9, some 10⟩;
      256 < (s.core.queue 0).slots.length + ((s.vreg 6).lines (s.fmt (s.vreg 6).fmt).wid s.st.grant).length ∧
      ({ s with core := { s.core with strands := [{ strand .execute with idx := 1 }] } } : State).hasEnded (some 10) = false ∧
      ({ s with core := { s.core with strands := [{ strand .execute with idx := 1, run := .ended }] } } : State).hasEnded (some 10) = true) ∧
    ((exec8.setQueue 0 ⟨[], some 10, none⟩).core.queue 0).producer = some 10 ∧ 10 ≠ exec8.st.slot ∧
    (let s := exec8.setQueue 0 ⟨[⟨.replicate 9 0x3F800000, Memory.tag0.retag 0 127 cVAL 0, 0⟩], none, some 9⟩;
      s.writable 4 ∧ (s.vreg 4).holds (s.fmt (s.vreg 4).fmt) s.st.grant = true ∧ (s.core.queue 0).consumer = some s.st.slot ∧
      s.st.grant ≤ (s.core.queue 0).count ∧ (((s.core.queue 0).elements).take s.st.grant).length = s.st.grant ∧
      (∀ y ∈ ((s.core.queue 0).elements).take s.st.grant, y.2.1.cls ≠ cPOI ∧ y.2.1.cls ≠ cINV) ∧
      (let r := fill s.fmt (s.vreg 4).fmt s.st.decoMode s.st.seed (((s.core.queue 0).elements.take s.st.grant).map fun y =>
          some ⟨y.1, y.2.1.fmt, y.2.1.scl, y.2.1.cls⟩);
        r.bad = none ∧ r.flags &&& s.st.tmask = 0)) ∧
    (let s := exec8.setQueue 0 ⟨[⟨.replicate 7 0x3F800000, 0x7F0, 0⟩], some 10, some 9⟩;
      (s.core.queue 0).count < s.st.grant ∧ (s.core.queue 0).slots.length ≠ 256 ∧ (s.core.queue 0).consumer = some s.st.slot) := by
  unfold State.readable State.writable
  decide +kernel

theorem test_queue_pop_leaves_the_rest : (let s := ran (.qpop 4 0) (exec8.setQueue 0 ⟨[⟨.replicate 9 0x3F800000, Memory.tag0.retag 0 127 cVAL 0, 0⟩], none, some 9⟩);
    (s.core.queue 0).count = 1 ∧ codeOf s 4 32 7 = 0x3F800000) := by decide +kernel


/-! ### Witnesses: matrix, loads, stores, atomics, tags -/

/-- A state with one matrix operation pending on tile 0. -/
def oneOp : State := ran (.mop 0 8 0 9 0 0) (ran (.tzero 0) matrixBase)
/-- A state whose tile 0 holds a flag. -/
def flaggedTile : State := { (user .execute) with st := (strand .execute).setTile 0 { Tile.clear with flags := fNX } }

theorem witness_MatrixRowsAndTiles : (user .execute).st.mrows = 0 ∧ oneOp.st.mrows ≠ 0 ∧ (oneOp.st.tile 0).pending ≠ 0 ∧
    (matrixBase.st.mrows ≠ 0 ∧ ∀ k, k < 4 → (matrixBase.st.tile k).pending = 0 ∧ (matrixBase.st.tile k).peek = false) ∧
    (7 : Nat) < 8 ∧ (8 : Nat) / 8 ≠ (0 : BitVec 2).toNat ∧
    ((flaggedTile.st.tile 0).pending = 0 ∧ (flaggedTile.st.tile 0).peek = false ∧ (flaggedTile.st.tile 0).sampled = false ∧
      (flaggedTile.st.tile 0).flags &&& flaggedTile.st.tmask = 0 ∧ ¬ ((flaggedTile.st.tile 0).flags &&& (trapping flaggedTile).st.tmask = 0)) := by
  decide +kernel

/-- Nested-plane data in v12. -/
def planes : State := withV 12 (vec 10 127 cVAL (.replicate 8 0)) (ran (.tzero 0) matrixBase)
theorem witness_MatrixOperationsIssue :
    (let s := planes; s.st.phys 8 / 8 ≠ (0 : BitVec 2).toNat ∧ s.st.phys 12 / 8 ≠ (0 : BitVec 2).toNat ∧ s.st.grant ≠ 0 ∧
      okay ((issueMatrix 0 8 9 0 none).run s) = true ∧ okay ((issueMatrix 0 8 12 0 (some (4, true))).run s) = true ∧
      (granted 0 0 8 s).st.grant = 0 ∧ (s.matrixPair false 8 9).ok = true ∧ (s.matrixPair true 8 12).ok = true ∧ (s.st.tile 0).peek = false) := by decide +kernel

theorem witness_MatrixOperationsIssue_accepted :
    (let s := planes; let A := s.vreg 8; let B := s.vreg 9; let P := s.matrixPair false 8 9; let c := (s.st.reg 0).segs.length * 32;
      s.st.kind = .execute ∧ s.readable 8 ∧ s.readable 9 ∧ P.ok = true ∧ P.int = false ∧ (s.fmt B.fmt).kind ≠ .nested ∧
      A.holds (s.fmt A.fmt) (s.st.vr.toNat * P.g) = true ∧ B.holds (s.fmt B.fmt) (s.st.vl.toNat * P.g) = true ∧ s.st.vl.toNat * s.st.vr.toNat ≤ 8 * c ∧
      (∀ x ∈ A.segs, x.side.cls ≠ cRAW) ∧ (∀ x ∈ B.segs, x.side.cls ≠ cRAW) ∧
      (((tileSegs c (s.st.vl.toNat * s.st.vr.toNat)).map fun y => s.st.tileSide 0 c y.1 y.2).all fun x =>
        x.2.cls == cUNW || (x.2.cls == cVAL && x.1 == 0 && x.2.scl == 127)) = true ∧
      s.st.vr.toNat ≤ s.st.mrows.toNat ∧ s.st.mrows ≠ 0 ∧ s.st.vl.toNat ≤ 384 ∧ 0 < ctx1.eb.toInt) := by
  unfold State.readable
  decide +kernel

theorem witness_MatrixOperationsIssue_keeps : planes.dev.ctx planes.core.ctxId = some ctx1 ∧ ∃ op, (issueMatrix 0 8 9 0 none).run planes = .ok (op, planes) := ⟨rfl, ⟨_, rfl⟩⟩

theorem witness_BudgetIsRead : (user .execute).dev.ctx (user .execute).core.ctxId = some ctx1 := rfl

/-- A location in layer L-S of die 0. -/
def lower (n : Nat) : Nat := 16 * 2 ^ 64 + n
/-- A device whose context 1 maps the first GiB at its DPA for data and the second GiB there for instructions, its tables at the DPAs
0x10000, 0x20000 and 0x30000 (R305 to R309), and whose remap table at 0x60000 places the DPA pages 0 to 7 in layer L-S of die 0 (R348);
the data leaf is cached (R312). -/
def mapped : Dev := { dev with
  mem := ((List.range 8).foldl (fun m k => m.writeN (0x60000 + 32 * k) 32 (2 ^ 192 * (0x10000 * k) + 2 ^ 52)) dev.mem)
    |>.writeN (lower 0x10000) 16 0x20005 |>.writeN (lower 0x20000) 16 0x30005 |>.writeN (lower 0x30000) 16 (3 * 2 ^ 95 + 2 ^ 93 + 0x1E)
    |>.writeN (lower 0x30010) 16 (3 * 2 ^ 95 + 2 ^ 93 + 2 ^ 88 + 0x2E)
  rmbase := 0x60003
  tlb := [⟨1, 0, 30, 2, 3 * 2 ^ 95 + 2 ^ 93 + 0x1E⟩]
  parts := dev.parts.set 0 { Part.empty with on := true, ent := .ofNat 512 (65536 * 2 ^ 384) } }
/-- A strand of the gang over that device. -/
def inMem (k : StrandKind) : State := { user k with dev := mapped }

/-- The same with an entry due for a basting buffer at 0x40000 of 32 slots. -/
def basting : State := { (inMem .execute) with core := { core with engWrites := [⟨1, 1, 0, .replicate 24 0, 4, none, 0⟩] }
                                               dev := { mapped with ctxs := [{ ctx1 with bbuf := 0x40005 }] } }
theorem witness_MatrixArraySteps :
    (∃ t o, oneOp.strandAt 9 = some t ∧ (t.tile 0).ops = [o] ∧ (t.tile 0).pending = 1 ∧ (t.tile 0).peek = false) ∧
    ctx1.eb.toInt < ctx1.ebceil.toInt ∧ ({ ctx1 with eb := 0x7FFFFFFF } : Ctx).ebceil.toInt ≤ ({ ctx1 with eb := 0x7FFFFFFF } : Ctx).eb.toInt ∧
    (let s := basting; s.core.engWrites ≠ [] ∧ (s.dev.ctx 1).isSome = true ∧
      after ((recordWrite true (s.viaKey 1) 0x40000 (.replicate 32 1)).run s) (fun _ u => decide (u.core.engWrites = s.core.engWrites)) = true) := by
  refine ⟨⟨_, _, rfl, rfl, by decide +kernel, by decide +kernel⟩, by decide +kernel, by decide +kernel, by decide +kernel⟩

/-- The A-hart of `threeTags` with its X-hart's v12 to load, 160 elements from the scratchpad. -/
theorem witness_VectorLoads :
    threeTags.st.grant ≠ 0 ∧ (∃ old, (claimUnless0 12).run threeTags = .ok (old, threeTags) ∧
      (∃ iv, (issueAccess none (!old.holds (threeTags.fmt 1) 160) false).run threeTags = .ok (iv, threeTags)) ∧
      (let r := loadEls 64 ((List.range 160).map fun e => (e, placeAt 16 ((threeTags.x 8).toNat : Int) e)) [] none threeTags;
        r.2.1.isNone = true ∧ (fill threeTags.fmt 1 none threeTags.st.seed r.1).bad = none ∧
        (fill threeTags.fmt 1 none threeTags.st.seed r.1).flags &&& r.2.2.2.st.tmask = 0)) ∧
    0 < perSeg 32 ∧ 4 ≤ 32 ∧ perSeg 32 = 32 := by
  refine ⟨by decide +kernel, ⟨⟨1, .replicate 3 ⟨0, 0⟩⟩, rfl, ⟨[], rfl⟩, by decide +kernel⟩, by decide +kernel⟩

/-- An A-hart beside its X-hart, whose v4 has 16 segments, with eight scratchpad lines of nested planes at x8. -/
def planeLoads : State := ((List.range 8).foldl (fun (s : State) k => s.putSpad (1024 + 128 * k) (.ofNat 1024 k) (Memory.tag0.retag 10 127 cVAL (.ofNat 3 k)))
  { (user .access) with core := { core with strands := [(strand .execute).setReg 4 ⟨10, .replicate 16 ⟨0, 0x7F2⟩⟩] } }).setX 8 (padBase + 1024)

theorem witness_QueueAndPlaneLoads : (granted 0 0 16 threeTags).st.grant = 0 ∧
    after ((claimQueue 1 1).run (granted 8 1 16 threeTags)) (fun _ t =>
      after ((loadSlots ((List.range 8).map fun e => (e, stripU 8 (granted 8 1 16 threeTags) [] e)) [] []).run t) (fun js u =>
        okay ((pushQueue 1 (js.map fun j => ⟨(List.range 256).flatMap fun k => (j.2.2.filter (·.1 == k)).map (·.2), j.2.1, j.1⟩)).run u))) = true ∧
    (((List.range 8).map fun e => stripU 8 (granted 8 1 16 threeTags) [] e).map (·.1)).eraseDups.length = 1 ∧
    okay ((loadSlots ((List.range 8).map fun e => (e, stripB 8 9 (granted 4 2 16 threeTags) [] e)) [] []).run (granted 4 2 16 threeTags)) = true ∧
    (let full : TQueue := ⟨.replicate 256 ⟨[0], 0, 0⟩, some 1, some 9⟩;
      (match (claimQueue 1 1).run (threeTags.setQueue 1 full) with
        | .error .wait => true
        | _ => false) = true ∧
      (match (claimQueue 1 1).run (threeTags.setQueue 1 { full with producer := some 2 }) with
        | .error (.trap c _ _ _) => c == tQUEUE_BINDING
        | _ => false) = true) ∧
    (let s := planeLoads; s.st.grant ≠ 0 ∧ okay ((claimReg 4).run s) = true ∧ s.st.grant ≤ 16 * 128 ∧
      8 * ((s.st.grant + 1023) / 1024 - 1) + (8 : BitVec 4).toNat ≤ 16 ∧ (s.x 8).toNat % 1024 = 0 ∧
      okay ((loadPlanes (s.x 8) ((List.range ((s.st.grant + 1023) / 1024)).flatMap fun h => (List.range 4).map fun p => (h, p)) none).run s) = true) := by
  decide +kernel

/-- An A-hart beside an X-hart with ones in v6, x8 in the scratchpad. -/
def storing : State := ({ (user .access) with core := { core with strands := [exec8.st] } } : State).setX 8 padBase |> granted 8 1 32
/-- The same with a queue that holds a slot. -/
def storingQueue : State := storing.setQueue 2 ⟨[⟨.replicate 8 5, Memory.tag0.retag 4 127 cVAL 0, 0⟩], none, none⟩

theorem witness_VectorStores : storing.st.grant ≠ 0 ∧
    after ((readUnless0 6).run storing) (fun r _ => okay ((issueAccess none (!r.holds (storing.fmt r.fmt) 8) false).run storing) &&
      okay ((storeStrip false ((List.range 8).map fun e => (e, stripU 8 storing [] e, r.storeEl (storing.fmt r.fmt).wid e, (0 : Tag)))).run storing)) = true ∧
    after ((headQueue 2 8).run storingQueue) (fun x t => okay ((storeStrip true (x.2.zipIdx.map fun y =>
      (y.2, stripU 8 storingQueue [] y.2, ⟨y.1.1, y.1.2.1.fmt, y.1.2.1.scl, y.1.2.1.cls⟩, y.1.2.1))).run t)) = true ∧
    (let s := storing.putSpad 0 0 (Memory.tag0.withCls cSTG);
      (match (storeStrip false ((List.range 8).map fun e => (e, stripU 8 s [] e, (⟨0, 0, 127, cVAL⟩ : FillEl), (0 : Tag)))).run s with
        | .error (.fault _) => true
        | _ => false) = true) := by decide +kernel

theorem test_store_narrow : (ran (.vstU 6 8) storing).core.spad.readN 0 4 = 0x3F800000 ∧
    (ran (.vstU 6 8) storing).core.spad.readN 28 8 = 0x3F800000 := by decide +kernel

/-- An A-hart with an INT32 accumulator line in the scratchpad and v7 of ones. -/
def updating : State := (({ (user .access) with core := { core with strands := [(withV 7 (vec 11 127 cVAL [pack 32 (.replicate 32 1), 0]) (withV 8 (vec 11 127 cVAL [pack 32 (.replicate 32 2), 0]) exec8)).st] } } : State).putSpad 0
  (pack 32 [1, 2, 3]) (Memory.tag0.retag 11 127 cVAL 0)).setX 8 padBase |> granted 8 1 32

theorem witness_Atomics :
    ((updating.setX 9 (padBase + 2)).x 9).toNat % 4 ≠ 0 ∧ (updating.x 8).toNat % 16 = 0 ∧
    ({ core with engAhead := core.engAhead.set 0 1, engKinds := 3 } : Core).engHolds 3 = true ∧ (updating.st.kind == .cc) = false ∧
    after ((translate updating.via nRmw (updating.x 8)).run updating) (fun tr u => after ((readHome tr nRmw.kind).run u) (fun x v =>
      (x.2.cls == cVAL) && decide ((amoResult 1 32 (lineBytes x.1 0 4) 5 0).2 &&& v.st.tmask = 0) &&
      okay ((writeHome tr nRmw.kind 0 (setLineBytes x.1 0 4 (amoResult 1 32 (lineBytes x.1 0 4) 5 0).1) x.2.raw (byteMask 0 4)).run v))) = true ∧
    (0 < 64 ∧ 2 ^ 64 - 1 < 2 ^ 64) ∧ updating.st.grant ≠ 0 ∧
    after ((readUnless0 7).run updating) (fun r _ => okay ((issueAccess none (!r.holds (updating.fmt r.fmt) 8) (r.rawBelow (updating.fmt r.fmt) 8)).run updating) &&
      r.holds (updating.fmt r.fmt) 8 && decide ((updating.x 8).toNat % 128 = 0) &&
      after ((allLines (amoVLine 0 r.fmt (updating.fmt r.fmt)) (updLines r (updating.fmt r.fmt) 8 (stripU 8 updating []))).run updating) (fun ys u =>
        decide (orFlags (ys.map (·.1)) &&& u.st.tmask = 0)) &&
      after ((allLines (bankLine 0 none r.fmt (updating.fmt r.fmt)) (updLines r (updating.fmt r.fmt) 8 (stripU 8 updating []))).run updating) (fun fs u =>
        decide (orFlags fs &&& u.st.tmask = 0))) = true ∧
    ((updating.setX 9 (padBase + 64)).x 9).toNat % 128 ≠ 0 ∧
    after ((claimUnless0 7).run updating) (fun r _ => after ((readUnless0 8).run updating) (fun q _ =>
      r.fmt == q.fmt && (updating.fmt r.fmt).wid == updating.st.gw && q.holds (updating.fmt q.fmt) 8 &&
      okay ((allLines (mcasLine r q updating.st.gw 8 (updating.x 8)) (List.range (segsBelow 8 updating.st.gw))).run updating))) = true := by
  decide +kernel

theorem test_amo_add : (ran (.amo 5 8 6 1 0) (updating.setX 6 5)).core.spad.readN 0 4 = 6 ∧
    (ran (.amo 5 8 6 1 0) (updating.setX 6 5)).st.pend.map (·.src) = [.value 1] := by decide +kernel

theorem witness_LineTagsAndFullEmptyBits :
    after ((translate updating.via nLoad (updating.x 8)).run updating) (fun tr u => okay ((readLine tr nLoad.kind).run u)) = true ∧
    after ((translate updating.via nStore (updating.x 8)).run updating) (fun tr u => after ((readHome tr nStore.kind).run u) (fun x v =>
      x.2.cls != cSTG && x.2.cls != cPOI && okay ((writeHome tr nStore.kind 0 x.1 (x.2.retag 4 127 cVAL 0) (BitVec.allOnes 128)).run v))) = true ∧
    (let s := (user .access).putSpad 0 0 (Memory.tag0.withCls cSTG);
      after ((translate s.via nStore padBase).run s) (fun tr u => after ((readHome tr nStore.kind).run u) (fun x _ => x.2.cls == cSTG)) = true) ∧
    (let s := (user .access).putSpad 0 0 (Memory.tag0.withCls cPOI);
      after ((translate s.via nStore padBase).run s) (fun tr u => after ((readHome tr nStore.kind).run u) (fun x v => x.2.cls == cPOI &&
        okay ((writeHome tr nStore.kind 0 (Config.freeLine v.takeFree.1) (x.2.retag 4 127 cVAL 0) (BitVec.allOnes 128)).run v.takeFree.2))) = true) ∧
    (inWindow padBase = true ∧ ((user .access).core.spad.tag 0).cls ≠ cSTG ∧ (user .access).st.holdsBytes 0 (BitVec.allOnes 128) = false) ∧
    (let s := { (user .access).setX 8 (padBase + 128 * 32767) with core := { core with feEmpty := [32767] } };
      32767 + 1 ≤ 32768 ∧ (s.x 8).toNat % 4194304 / 128 = 32767 ∧ s.core.feEmpty.countP (fun i => decide (32767 ≤ i ∧ i < 32767 + 1)) ≠ 0 ∧
      32768 < 32767 + ((s.setX 9 2).x 9).toNat ∧ ((s.setX 9 0).x 9).toNat = 0) := by decide +kernel

/-- An X-hart in mapped text of a registered object whose page is verified, `vfma` after its word. -/
def paired : State := { (inMem .execute) with st := { strand .execute with pc := 0x40001000 }
                                              dev := { mapped with mem := (mapped.mem.writeN (lower 0x1004) 4 0x80308503).writeN (lower 0x62000) 32 (2 ^ 96 + 1)
                                                                   cotab := 0x62000, verified := [0] } }
theorem witness_PrefixDecoratesTheNextWord_fetch : after ((fetchAt paired.via (paired.st.pc + 4)).run paired) (fun w _ => w == 0x80308503) = true := by
  decide +kernel
theorem test_pfx_pair : (ran (.pfx 4 1 0 0 0 0) paired).st.deco = some ⟨4, true, false, 0, false, 0⟩ ∧
    (ran (.pfx 4 1 0 0 0 0) paired).st.pc = 0x40001004 := by decide +kernel


/-! ### Witnesses: copies, clasps, launches, commands -/

/-- Whether a copy that a strand asks for passes its checks, has its pages and starts: the Shuttle free on its turn, a batch open, no line
owned by another Shuttle. -/
def starts (s : State) (q : CopyReq) (c : BitVec 512) (waits : Bool := false) : Bool :=
  let p := planCopy q c s.st.seed
  (checkCopy s.fmt q c).isNone && (2 ≤ q.op || q.size != 0) && after ((p.mapPages s.via).run s) fun xl u =>
    !u.core.shuttleBusy && u.shuttleTurn s.st.slot && after (openBatch.run u) fun _ v =>
      v.startWaits s.st.slot p (p.lines.map (placeLine v (v.viaKey s.via.key) xl)) == waits

/-- An A-hart with a BF16 line at the start of the scratchpad (x8) and room at x9. -/
def copying : State := (((user .access).putSpad 0 (pack 16 [1, 2, 3, 4, 5, 6, 7, 8]) (Memory.tag0.retag 1 127 cVAL 0)).setX 8 padBase).setX 9 (padBase + 4096)
/-- The same with every event slot of the Shuttle held. -/
def ev0 : Ev := ⟨0, 0, 0, 0, 0, 0, 1, 0, 0, 1, 1, 1⟩
def crowded (s : State) : State := { s with core := { s.core with evHeld := .replicate 64 ev0 } }
/-- A descriptor of one pixel of one channel at scratchpad line 64, with every field that may not be 0 at 1. -/
def conv : State := (copying.putSpad 8192 (.ofNat 1024 (padBase.toNat +
  ([192, 208, 224, 240, 256, 272, 288, 296, 304, 312].foldl (fun a k => a + 2 ^ k) 0) + 8 * 2 ^ 240 + 127 * 2 ^ 395 + 2 ^ 384)) Memory.tag0.raw).setX 8 (padBase + 8192)

/-- A copy to memory whose line the Shuttle of core 1 owns. -/
def contending : State := { copying with dev := { mapped with cores := [{ core with num := 1, copies :=
  [⟨0, 1, 1, 5, 1, 1, 1, .move, 16, [⟨0x40000, some ((lower 0x40000) / 128), some ((lower 0x40000) / 128), []⟩], none, none, [], none, 0, []⟩] }] } }.setX 9 0x40000

theorem witness_CopiesStart :
    starts copying (copying.stripReq 0 (copying.x 8) (copying.x 9) 0 0) 0 = true ∧
    starts contending (contending.stripReq 0 (contending.x 8) (contending.x 9) 0 0) 0 true = true ∧
    after (((planCopy (copying.stripReq 0 (copying.x 8) (copying.x 9) 0 0) 0 copying.st.seed).mapPages (crowded copying).via).run (crowded copying)) (fun _ u =>
      u.core.shuttleBusy) = true ∧
    (let s : State := { copying with core := { copying.core with strands := [{ strand .access with idx := 1, wantsShuttle := true, waiting := true }], shuttleLast := 1 } };
      s.st.slot = 1 ∧ s.shuttleTurn s.st.slot = false) ∧
    starts copying (copying.stripReq 2 (copying.x 8) 0 1 (copying.x 9)) 0 = true ∧
    starts copying (copying.stripReq 3 (copying.x 8) (copying.x 9) 256 (copying.x 9)) 0 = true ∧
    (checkCopy copying.fmt (copying.stripReq 0 (copying.x 8 + 1) (copying.x 9) 0 0) 0).isSome = true ∧
    (checkCopy copying.fmt ((granted 0 0 16 copying).stripReq 0 (copying.x 8) (copying.x 9) 0 0) 0).isNone = true ∧
    ((granted 0 0 16 copying).stripReq 0 (copying.x 8) (copying.x 9) 0 0).size = 0 ∧
    after ((readRecord (conv.x 8) 64).run conv) (fun c u => starts u (u.stripReq 1 0 (conv.x 9) 0 (conv.x 8)) (.ofNat 512 c)) = true ∧
    (let s := (granted 0 0 16 conv).setX 8 0; s.st.vl.toNat * s.st.vr.toNat = 0 ∧ (match (readRecord (s.x 8) 64).run s with
      | .error (.fault _) => true
      | _ => false) = true) := by decide +kernel

theorem test_copy_lands : (let s := ran (.landing 0 0) (ran (.cp 9 8 0) copying); s.core.copies = [] ∧ s.core.spad.readN 4096 8 = 0x0004000300020001 ∧
    (s.core.batches.map (·.written)) = [8]) := by decide +kernel

/-- An A-hart with an open batch, and with 64 closed ones outstanding. -/
def batch1 (closed : Bool) (evt : Option (BitVec 32)) : Batch := ⟨1, 1, closed, evt, 0, 0, 0, 0, none, 1, 1⟩
def withBatches (bs : List Batch) (s : State) : State := { s with core := { s.core with batches := bs } }
theorem witness_BatchesAndCounters :
    (let s := withBatches [batch1 false none] copying;
      s.core.outstanding s.st.slot < 64 ∧ after (openBatch.run s) (fun _ u => decide (u.st.slot = s.st.slot)) = true ∧
      (∃ x ∈ s.core.batches, x.who = s.st.slot ∧ x.closed = false)) ∧
    (∀ x ∈ (withBatches [batch1 true none] copying).core.batches, x.who = copying.st.slot → x.closed = true) ∧
    64 ≤ (withBatches (.replicate 64 (batch1 true none)) copying).core.outstanding copying.st.slot ∧
    ((copying.core.watchAt 3).front = (copying.core.watchAt 3).assigned ∧ copying.st.grant * ((copying.setX 5 2).x 5).toNat < 2 ^ 32) ∧
    2 ^ 32 ≤ copying.st.grant * ((copying.setX 5 0x20000000).x 5).toNat ∧
    (let s := { copying with core := copying.core.setWatch 3 ⟨8, 8, 0, []⟩ }; (s.core.watchAt 3).front ≠ (s.core.watchAt 3).assigned) ∧
    (let s := withBatches [batch1 true none] copying; ∃ x r, takeFirst (fun x => x.who == 1) s.core.batches = some (x, r) ∧ x.closed = true ∧
      s.core.batchIdle x = true ∧ x.evt = none ∧ x.knot = none) ∧
    (let s := withBatches [batch1 true (some 7)] copying; ∃ x r, takeFirst (fun x => x.who == 1) s.core.batches = some (x, r) ∧ x.evt = some 7 ∧
      s.core.shuttleHeld < 64) ∧
    (let s := { copying with core := { core with evHeld := [{ ev0 with kind := 4, ctx := 2 }, ev0] } };
      s.core.evq.length < 256 ∧ (∃ xs e r, s.core.evHeld = xs ++ e :: r ∧ (∀ y ∈ xs, s.core.mayPost y = false) ∧ s.core.mayPost e = true)) := by
  and_intros
  all_goals first
    | decide +kernel
    | exact ⟨_, _, rfl, by decide +kernel⟩
    | exact ⟨[_], _, [], rfl, by decide +kernel⟩

/-- A command block for a copy of `copying`'s line, in the scratchpad's line 128 at x7. -/
def block : Nat := padBase.toNat * 2 ^ 448 + (padBase.toNat + 4096) * 2 ^ 384 + 2 ^ 240 + 8 * 2 ^ 224 + 15 * 2 ^ 220
def queued (more : Nat) : CmdBlock := ⟨0, .ofNat 512 (block + more), 0, 1, 1, 1, 0x1000, []⟩
/-- A CC with one block queued. -/
def cmdState (more : Nat) : State := { copying with st := strand .cc, core := { copying.core with cmdq := copying.core.cmdq.set 0 [queued more] } }
/-- A CC whose Bobbin runs a nest of two iterations of that block. -/
def bobState : State := { (cmdState 0) with core := { copying.core with bobbin :=
  { Bobbin.idle with nest := some (.ofNat 2048 (block + 2 ^ (512 + 96) + (List.range 6).foldl (fun a k => a + 2 ^ (512 + 256 * k + 96)) 0)), run := some (0, 0, 0), ctx := 1, launch := 1 } } }

/-- A copy of `copying`'s line in flight; a second one to the same line behind it; one of 40 elements, whose source
line has no 40 slots by the time it lands. -/
def inFlight : State := ran (.cp 9 8 0) copying
def behindIt : State := ran (.cp 9 8 0) inFlight
def lost : State := (ran (.cp 9 8 0) (granted 40 1 16 copying)).putSpad 0 0 (Memory.tag0.retag 0 127 cVAL 0)

theorem witness_EngineSteps :
    (∃ k ln, inFlight.core.copies.find? (·.id == 0) = some k ∧ k.lines[0]? = some ln ∧ k.parked = none ∧ inFlight.core.behind k ln = false ∧
      after ((rehold k).run inFlight) (fun xl t => decide (t.core = inFlight.core) &&
        okay ((landing { k with xl := xl } ln).run (t.updCopy 0 fun k => { k with xl := xl }))) = true ∧ k.ctx < 4096) ∧
    (∃ k ln, behindIt.core.copies.find? (·.id == 1) = some k ∧ k.lines[0]? = some ln ∧ k.parked = none ∧ behindIt.core.behind k ln = true) ∧
    (∃ k ln, lost.core.copies.find? (·.id == 0) = some k ∧ k.lines[0]? = some ln ∧ k.parked = none ∧ lost.core.behind k ln = false ∧
      after ((rehold k).run lost) (fun xl t => decide (t.core = lost.core) &&
        match (landing { k with xl := xl } ln).run (t.updCopy 0 fun k => { k with xl := xl }) with
        | .error (.fault r) => !r.final
        | _ => false) = true ∧ k.ctx < 4096) ∧
    ((let s := cmdState 0; ∃ b r, s.core.cmdq[0] = b :: r ∧ s.core.shuttleBusy = false ∧ b.blk.getLsbD 205 = false ∧ s.shuttleTurn 0 = true ∧
      s.startWaits 0 (planCopy (blockReq b.blk 0) b.conv s.core.shSeed)
        ((planCopy (blockReq b.blk 0) b.conv s.core.shSeed).lines.map (placeLine s (s.viaKey b.ctx) b.xl)) = false)) ∧
    ((let s := cmdState (2 ^ 205); ∃ b r, s.core.cmdq[0] = b :: r ∧ b.blk.getLsbD 205 = true ∧
      s.core.knots[(b.blk.extractLsb' 200 5).toNat]'((b.blk.extractLsb' 200 5).isLt) = 0)) ∧
    (∃ nest, bobState.core.bobbin.nest = some nest ∧ bobState.core.bobbin.run = some (0, 0, 0) ∧ bobState.core.bobbin.parked = none ∧
      bobState.core.bobbin.at_ + 1 < nestTotal nest ∧ bobState.core.shuttleBusy = false ∧ (nestReq nest 0 0 0 0).op ≠ 1 ∧
      (checkCopy bobState.fmt (nestReq nest 0 0 0 0) 0).isNone = true ∧
      (let p := planCopy (nestReq nest 0 0 0 0) 0 bobState.core.shSeed;
        after ((p.mapPages (bobState.viaKey 1)).run bobState) (fun xl u =>
          !u.startWaits 0 p (p.lines.map (placeLine u (u.viaKey 1) xl)))) = true) := by
  refine ⟨⟨_, _, rfl, rfl, by decide +kernel⟩, ⟨_, _, rfl, rfl, by decide +kernel⟩, ⟨_, _, rfl, rfl, by decide +kernel⟩, ⟨_, _, rfl, by decide +kernel⟩,
    ⟨_, _, rfl, by decide +kernel⟩, ⟨_, rfl, rfl, by decide +kernel⟩⟩

/-- A CC whose x8 names a clasp line at 0x40000 that reads as `l`. -/
def clasped (l : Nat) : State := { (inMem .cc) with dev := mapped.putLineAt (lower 0x40000) (.ofNat 1024 l) Memory.tag0.raw }.setX 8 0x40000
def claspNo : Nat := (lower 0x40000) / 128
/-- A home with a request of another core in its FIFO. -/
def home0 : ClaspHome := ⟨claspNo, [], none, false, [], 0, none, [], false, 0⟩
def othersAhead : State := { (clasped 0) with dev := { (clasped 0).dev with clasps := [{ home0 with fifo := [⟨5, 0, false⟩] }] } }

/-- A lazy-table entry for the clasp, held. -/
def entry0 : LazyEntry := ⟨claspNo, 1, 0x40000, [], 0, [], [], 0, true, true, false, false, none⟩
/-- A CC that holds the clasp, without and with a waiter. -/
def holding : State := { (clasped 1) with core := { core with lazy := [entry0] } }
def handing : State := { (clasped 1) with core := { core with lazy := [{ entry0 with waiter := true, ranges := [(0x40080, 128)] }],
                                                              copies := [⟨0, 1, 1, 5, 1, 1, 1, .move, 16, [⟨0x40080, none, none, []⟩], none, none, [], none, 0, []⟩] },
                                          dev := { (clasped 1).dev with clasps := [{ home0 with fifo := [⟨5, 0, false⟩] }] } }

theorem witness_ClaspsAreTaken :
    after ((claspLine ((clasped 0).x 8)).run (clasped 0)) (fun x u => clMode x.2 == 0 && !u.holds x.2 && !u.otherWaits (x.1.loc / 128) &&
      (u.dev.claspHome (x.1.loc / 128)).retainer != some u.core.num &&
      (let w := (u.enqueueClasp (x.1.loc / 128) false).progress (x.1.loc / 128);
        (w.atHead (x.1.loc / 128) && ((w.dev.claspHome (x.1.loc / 128)).granted || w.dev.grantable (x.1.loc / 128))) &&
        okay ((grantLock x.1 0x40000 (w.dev.homeLine x.1).1).run w))) = true ∧
    ((clasped 1).st.unread = false ∧ (pending ⟨5, 0, .late padBase 2, 0⟩ (clasped 1)).st.unread = true ∧
      after ((claspLine ((pending ⟨5, 0, .late padBase 2, 0⟩ (clasped 1)).x 8)).run (pending ⟨5, 0, .late padBase 2, 0⟩ (clasped 1))) (fun _ _ => true) = true) ∧
    after ((claspLine ((clasped 1).x 8)).run (clasped 1)) (fun x u => u.holds x.2 && (u.core.entryFor (x.1.loc / 128)).isNone &&
      after ((releaseLock x.1 0x40000 x.2).run u) (fun y _ => y)) = true ∧
    after ((claspLine (holding.x 8)).run holding) (fun x u => u.holds x.2 && (u.core.entryFor (x.1.loc / 128)).any (fun e => e.relBy == none && !e.waiter) &&
      after ((putClasp x.1 (u.releasedLine x.2 1)).run { u with core := u.core.updEntry (x.1.loc / 128) fun e =>
        { e with held := false, seen := clRseq x.2 + 1 } }) (fun _ _ => true)) = true ∧
    after ((claspLine (handing.x 8)).run handing) (fun x u => after ((releaseLock x.1 0x40000 x.2).run u) (fun y _ => !y)) = true ∧
    after ((claspLine ((clasped 0).x 8)).run (clasped 0)) (fun x u => !u.holds x.2 && (u.core.entryFor (x.1.loc / 128)).isNone) = true ∧
    (let s := clasped (1 + 2 ^ 16 * 7);
      after ((claspLine (s.x 8)).run s) (fun x u => !u.holds x.2 && clHeld x.2 &&
        !(let w := (u.enqueueClasp (x.1.loc / 128) false).progress (x.1.loc / 128);
          w.atHead (x.1.loc / 128) && ((w.dev.claspHome (x.1.loc / 128)).granted || w.dev.grantable (x.1.loc / 128))))) = true ∧
    after ((claspLine (othersAhead.x 8)).run othersAhead) (fun x u => (u.dev.claspHome (x.1.loc / 128)).fifo.any (fun r => r.core != u.core.num) &&
      after (touchM x.1 { u.withdraw with dev := u.withdraw.dev.updClasp (x.1.loc / 128) (·.count 2) }) (fun _ _ => true)) = true ∧
    (let s := { (clasped 0) with dev := { (clasped 0).dev with clasps := [{ home0 with retainer := some 0 }] } };
      after ((claspLine (s.x 8)).run s) (fun x u => (u.dev.claspHome (x.1.loc / 128)).retainer == some u.core.num &&
        okay ((grantLock x.1 0x40000 x.2).run u))) = true ∧
    (let s := clasped (2 ^ 62 + 2 ^ 17); after ((claspLine (s.x 8)).run s) (fun x u => clMode x.2 == 1 && !u.barrierWaits (x.1.loc / 128) x.2 &&
      okay ((passBarrier 5 x.1 0x40000 x.2).run u) && okay ((arriveBarrier x.1 x.2).run u) &&
      (match (arriveBarrier x.1 x.2).run u with
        | .ok (_, v) => after ((claspLine (v.x 8)).run v) (fun y w => w.barrierWaits (y.1.loc / 128) y.2)
        | .error _ => false))) = true := by decide +kernel

theorem test_tryacq_of_a_held_lock : (let s := ran (.tryacq 5 8) (clasped (1 + 2 ^ 16 * 7)); s.x 5 = 0) ∧
    (let s := ran (.tryacq 5 8) (clasped 0); s.x 5 = 1) := by decide +kernel

def recalledState : State := { (clasped (1 + 2 ^ 64)) with core := { core with lazy := [entry0] },
                                                             dev := { (clasped (1 + 2 ^ 64)).dev with clasps := [{ home0 with fifo := [⟨5, 0, false⟩], retainer := some 0, recalled := true }] } }
/-- A write-back of the clasp's releaser, for a line that a Shuttle owns or not, and behind an earlier one. -/
def back0 : WriteBack := ⟨5, 1, ⟨(lower 0x40000) / 128, 0x40000, 1, 0, 0, 1, none, false⟩⟩
def owing (s : State) : State := { s with dev := { s.dev with clasps := [{ home0 with wbs := [back0] }] } }
def due0 : State := { recalledState with core := { core with lazy := [{ entry0 with held := false, retained := false }] } }
theorem witness_ClaspMessages :
    (let s := clasped 0; let c : Core := { core with num := 5, strands := [{ strand .cc with waiting := true }] };
      let s : State := { s with dev := { s.dev with cores := [c] } };
      s.coreAt 5 = some c ∧ (c.strands.find? (fun t => t.waiting && t.run == .running &&
        !((s.dev.claspHome claspNo).fifo.any fun r => r.core == 5 && r.who == t.slot) && !(c.lazy.any fun e => e.relBy == some t.slot))).isSome = true) ∧
    (((owing (clasped 0)).dev.claspHome claspNo).wbs = [back0] ∧ (owing (clasped 0)).owned (back0.copy.loc * 128) = false ∧
      (owing (clasped 0)).dev.behindBack back0 = false ∧ (owing contending).owned (back0.copy.loc * 128) = true) ∧
    ((clasped 0).dev.claspHome claspNo).wbs = [] ∧
    (let w := due0.dueRecall recallSent claspNo; (w.dev.claspHome claspNo).recalled = true ∧ (w.coreAt (w.dev.releaserOf claspNo)).isSome = true ∧
      ((w.coreAt (w.dev.releaserOf claspNo)).bind (·.entryFor claspNo)).map (·.due) = some false) ∧
    (((clasped 0).dueRecall recallSent claspNo).dev.claspHome claspNo).recalled = false ∧
    (othersAhead.dev.claspHome claspNo).fifo ≠ [] ∧ othersAhead.dev.grantable claspNo = true ∧ (clasped 1).dev.grantable claspNo = false ∧
    ((recalledState.dev.claspHome claspNo).fifo ≠ [] ∧ (recalledState.dev.claspHome claspNo).retainer = some recalledState.core.num ∧
      (recalledState.wholeCore.entryFor claspNo).map (·.held) = some true) ∧
    ((due0.dev.claspHome claspNo).fifo ≠ [] ∧ (due0.dev.claspHome claspNo).retainer = some due0.core.num ∧
      (due0.wholeCore.entryFor claspNo).map (·.held) = some false) ∧ ((clasped 0).dev.claspHome claspNo).fifo = [] := by
  refine ⟨⟨rfl, by decide +kernel⟩, by decide +kernel⟩


/-! ### Witnesses: launches and the CC's commands -/

/-- A record of one level with one iteration on core 0, its status block at 0x40000 (Table 16.1). -/
def record : Nat := 0x1000 + 0x40000 * 2 ^ 256 + 2 ^ 320 + 2 ^ 640 + 2 ^ 688 + 2 ^ 720
/-- A device with core 0 on and in partition 1. -/
def oneCore : Dev := { mapped with config := .ofNat 4096 (2 ^ 3488), parts := mapped.parts.set 0 { Part.empty with on := true, ent := .ofNat 512 (65536 * 2 ^ 384 + 2 ^ 248) } }
def launch1 (state left : Nat) : Launch := ⟨1, 1, 0, .ofNat 1024 record, 0, 1 - left, 0, [], 0, 0, 0, 0, 0, 0, 0, 0, 0, 0, state, 1 - left⟩
def withLaunch (l : Launch) : Dev := { oneCore with parts := oneCore.parts.set 0 { oneCore.parts[0] with launches := [l] } }
/-- A CC that submits the record at scratchpad line 0. -/
def submitting : State := (({ (user .cc) with dev := oneCore } : State).putSpad 0 (.ofNat 1024 record) Memory.tag0.raw).setX 8 padBase
/-- A core with no gang, idle. -/
def idle (l : Launch) : State := { resident with core := { resident.core with resident := false }, dev := withLaunch l, st := { strand .cc with run := .ended } }

/-- A device of two cores: this core's dirty far copy is of a line that the Shuttle of core 1 owns. -/
def heldBack (s : State) : State := { s with
  core := { s.core with far := [⟨lower 0x40000 / 128, 0x40000, 1, 0, 0, 1, none, false⟩] }, dev := { s.dev with cores := contending.dev.cores } }

theorem witness_LaunchesRunThrough_submit :
    ((submitting.setX 8 (padBase + 64)).x 8).toNat % 128 ≠ 0 ∧
    submitting.fenceWaits 3 true true = false ∧ (heldBack submitting).fenceWaits 3 true true = true ∧ ((heldBack submitting).x 8).toNat % 128 = 0 ∧
    after ((readRecord (submitting.x 8) 128).run (submitting.fenceFar 3 true true)) (fun x u =>
      decide ((submitting.dev.judge (.ofNat 1024 x) true (if submitting.dev.ctxLive 1 then submitting.dev.part 1 else none)).1 < 2) &&
      after ((mapWrites (submitting.dev.viaCtx 1) (pagesIn (lnrStatus (.ofNat 1024 x)) (64 + 32 * 2 ^ lnrF (.ofNat 1024 x) 754 4))).run u) (fun _ w =>
        okay ((submit 1 1 0 (.ofNat 1024 x)).run w))) = true ∧
    (let s := submitting.putSpad 0 0 Memory.tag0.raw; after ((readRecord (s.x 8) 128).run (s.fenceFar 3 true true)) (fun x _ =>
      decide (2 ≤ (s.dev.judge (.ofNat 1024 x) true (s.dev.part 1)).1))) = true := by decide +kernel

/-- Two launches of partition 1: one runs on core 0, one of higher priority with PMODE 1 waits for it. -/
def preempting : State := { (user .cc) with dev := { oneCore with parts := oneCore.parts.set 0 { oneCore.parts[0] with
  launches := [launch1 2 0, { (launch1 1 1) with id := 2, lnr := .ofNat 1024 (record + 2 ^ 715 + 2 ^ 716) }] } } }

theorem witness_LaunchesRunThrough_walk :
    ((idle (launch1 1 1)).walkerPick 0).isSome = true ∧ (preempting.walkerPick 0).isNone = true ∧ (preempting.stopWanted 0).isSome = true ∧
    (let s := { (idle (launch1 1 0)) with core := { (idle (launch1 1 0)).core with assigned := some ⟨1, 1, [0], none⟩ } };
      s.core.gang = none ∧ s.core.resident = false ∧ s.core.halted = false ∧ s.core.pwr = 0 ∧ (s.dev.launch 1 1).map (·.state) = some 1 ∧
      (s.dev.ctx 1).map (·.dead) = some false ∧ s.backWaits (fun f => !s.core.inLazy f) = false) ∧
    (let s := { submitting with core := { submitting.core with strands := [{ strand .execute with run := .ended }] } }.setX 8 0x3F;
      s.core.gang = some gang ∧ s.core.handler = none ∧ (s.x 8).toNat < 64 ∧ s.core.hartsOver = true ∧
      (∀ k, k < 6 → s.core.unitIdle k = true) ∧ s.atResident = false ∧ 64 ≤ ((s.setX 8 64).x 8).toNat) ∧
    (let s := { submitting with core := { core with gang := some { gang with left := true, swap := true } }, st := { strand .cc with run := .ended } }; s.gangOver = true) ∧
    (let s := idle (launch1 2 0); (s.dev.part 1).isSome = true ∧ (s.dev.launch 1 1).isSome = true ∧
      (match s.dev.part 1, s.dev.launch 1 1 with
        | some q, some l => s.launchOver 1 q l
        | _, _ => false) = true) := by decide +kernel

/-- A CC with a command block at scratchpad line 64, named by x8. -/
def pushing : State := ((copying.putSpad 8192 (.ofNat 1024 block) Memory.tag0.raw).setX 8 (padBase + 8192)) |> fun s => { s with st := { s.st with kind := .cc } }
/-- Cores 0 and 1 in one partition, both running gangs of context 1. -/
def twoCores (n : Nat) : State := { (user .cc) with dev := { oneCore with config := .ofNat 4096 (3 * 2 ^ 3488),
                                                                                       cores := [{ core with num := 1, evq := .replicate n ev0 }] } }.setX 5 1
theorem witness_CommandsOfTheCc :
    ((pushing.x 0).toNat < 4 ∧ after ((readRecord (pushing.x 8) 64).run pushing) (fun x u => let blk := resolveBlock (.ofNat 512 x) 0;
      !blockBad blk 3 && (blockReq blk 0).op != 1 && !blk.getLsbD 207 && (checkCopy pushing.fmt (blockReq blk 0) 0).isNone &&
        after (((planCopy (blockReq blk 0) 0 pushing.core.shSeed).mapPages pushing.via).run u) (fun _ v => okay (openBatch.run v))) = true ∧ (pushing.core.cmdq[0]).length < 64) ∧
    64 ≤ ((.replicate 64 (queued 0) : List CmdBlock)).length ∧ 4 ≤ ((pushing.setX 9 4).x 9).toNat ∧
    (1 ≤ 65535 ∧ (let s := { (user .cc) with core := { core with knots := core.knots.set 31 65535 } }; 65535 ≤ (s.core.knots[31]).toNat) ∧ (core.knots[0]).toNat < 1) ∧
    65535 < ((user .cc).setX 5 65536 |>.x 5).toNat := by decide +kernel

/-- A nest of one iteration at scratchpad lines 64 and 65. -/
def nest : Nat := block + (List.range 6).foldl (fun a k => a + 2 ^ (512 + 256 * k + 96)) 0
def nesting : State := (((user .cc).putSpad 8192 (.ofNat 1024 (nest % 2 ^ 1024)) Memory.tag0.raw).putSpad 8320 (.ofNat 1024 (nest / 2 ^ 1024)) Memory.tag0.raw).setX 8 (padBase + 8192)
theorem witness_CommandsOfTheCc_nests :
    ((nesting.x 8).toNat % 256 = 0 ∧ after ((readRecord (nesting.x 8) 128).run nesting) (fun lo u => after ((readRecord (nesting.x 8 + 128) 128).run u) (fun hi _ =>
      !nestBad (.ofNat 2048 (lo + 2 ^ 1024 * hi)))) = true ∧ nesting.core.bobbin.run = none ∧ nesting.core.bobbin.nest = none) ∧
    ({ bobState with core := { bobState.core with bobbin := { bobState.core.bobbin with run := none } } } : State).core.bobbin.nest.isSome = true ∧
    (let s := twoCores 255; (s.x 5).extractLsb' 24 8 = 0 ∧ (s.x 5).extractLsb' 16 8 = s.dev.num ∧
      (s.dev.part (s.dev.partOfCtx s.core.ctxId)).any (·.hasCore 1) = true ∧ s.dev.coreOn 1 = true ∧
      (match s.coreAt 1 with
        | some k => k.gang.isSome && k.ctxId == s.core.ctxId && decide (k.evq.length < 256)
        | none => false) = true) ∧
    (match (twoCores 256).coreAt 1 with
      | some k => decide (256 ≤ k.evq.length)
      | none => false) = true ∧
    ({ core with evq := [ev0] } : Core).evq ≠ [] ∧ core.evq = [] ∧
    (legalEntry (((user .cc).setX 5 0x09034007).x 5 |>.extractLsb' 0 32) = true ∧ legalEntry 0 = false ∧ 2 ^ 32 ≤ ((user .cc).setX 5 0x100000000 |>.x 5).toNat) ∧
    (core.pkLegal 0x10 = true ∧ core.pkLegal 0x14 = false ∧ ((user .cc).setX 5 255 |>.x 5).toNat < 256) := by decide +kernel


/-! ### Witnesses: the resident level and the layers -/

/-- The CC of a running gang taken to the resident level. -/
def residentGang : State := { resident with core := { core with resident := true } }
/-- The CC of a gang at the user level with an enabled event raised. -/
def interrupted : State := { (user .cc) with core := { core with rpend := 2, renab := 2 } }
theorem witness_ResidentLevel :
    (isResident .eret = true ∧ (user .cc).st.kind = .cc ∧ (user .cc).core.resident = false) ∧
    (resident.st.kind = .cc ∧ resident.core.resident = true ∧ resident.core.rpend &&& resident.core.renab.extractLsb' 0 4 = 0 ∧
      (1 : BitVec 4) &&& (1 : Word).extractLsb' 0 4 ≠ 0) ∧
    (residentGang.core.gang = some gang ∧ gang.left = false ∧ residentGang.core.parkedCc = none) ∧
    (let s := interrupted; s.st.kind = .cc ∧ s.st.slot = 0 ∧ (∀ t ∈ s.core.strands, t.slot ≠ 0) ∧ s.core.resident = false ∧ s.st.deco = none ∧
      s.st.arrived = none ∧ s.core.rpend &&& s.core.renab.extractLsb' 0 4 ≠ 0 ∧ (s.core.rpend &&& s.core.renab.extractLsb' 0 4).getLsbD 1 = true ∧
      (∀ j, j < 1 → (s.core.rpend &&& s.core.renab.extractLsb' 0 4).getLsbD j = false)) ∧
    (let s := { (user .cc) with core := { core with strands := [{ strand .execute with run := .trapped }] } };
      s.core.gang = some gang ∧ s.st.slot = 0 ∧ (∀ t ∈ s.core.strands, t.slot ≠ 0) ∧ s.core.handler = none ∧ s.st.run = .running ∧
      (∃ t ∈ s.core.strands, t.run = .trapped) ∧ s.core.spad.wf = true) := by decide +kernel

theorem test_wfi_and_entry : (ran .residentEntry interrupted).core.estat = 0x100 ∧ (ran .residentEntry interrupted).core.epc = 0x1000 := by decide +kernel

/-- A resident CC over a device that caches one translation of context 1 and holds a handle and a fault record of partition 1. -/
def frec0 : FaultRec := ⟨0x40000, 0, 0, 1, 1, 0, 0, 0, 0, 0, 0, 1, 0⟩
def serving : State := { resident with dev := { oneCore with
  tlb := [⟨1, 0x40000, 16, 2, pteRaw⟩], handles := [⟨1, 1, .strand 0 9, frec0⟩],
  parts := oneCore.parts.set 0 { oneCore.parts[0] with held := [frec0], fbase := 0x70004 } } }
/-- The same with a copy in flight that holds that translation. -/
def servingCopy : State := { serving with core := { serving.core with copies := [⟨0, 1, 1, 5, 1, 1, 1, .move, 16, [], none, none, [], none, 0, [⟨1, 0x40000, 16, 2, pteRaw⟩]⟩] } }
theorem witness_TranslationsAndFaultRecords :
    serving.st.kind = .cc ∧ serving.core.resident = true ∧
    (serving.fenceWaits 3 false true = false ∧ (heldBack serving).fenceWaits 3 false true = true ∧ serving.dev.mem.wf = true ∧ serving.dev.hostLines = []) ∧
    (let s := serving.setX 6 0x10005; (s.x 6).getLsbD 2 = true ∧ (s.dev.tlb.any (s.tlbiHits (s.x 5) (s.x 6))) = true ∧
      (∀ c ∈ ((s.fenceFar 3 false true).discard (s.tlbiHits (s.x 5) (s.x 6)) true).allCores, c.holdsAny (s.tlbiHits (s.x 5) (s.x 6)) = false)) ∧
    (let s := servingCopy.setX 6 0x10005;
      ∃ c ∈ ((s.fenceFar 3 false true).discard (s.tlbiHits (s.x 5) (s.x 6)) true).allCores, c.holdsAny (s.tlbiHits (s.x 5) (s.x 6)) = true) ∧
    (∀ h ∈ resident.dev.handles, ¬(h.part = 0 ∧ h.num = 0)) ∧
    ((serving.setX 5 1).dev.handles.find? (fun h => h.part == serving.dev.partOfCore 0 && h.num == (((serving.setX 5 1).x 5).extractLsb' 0 32).toNat)).isSome = true ∧
    (63 < 64 ∧ ((serving.setX 6 1).x 6).getLsbD 0 = true) ∧
    (match serving.dev.part 1 with
      | some p => !p.held.isEmpty && p.roomy
      | none => false) = true ∧
    (match oneCore.part 1 with
      | some p => p.held.isEmpty && !p.roomy
      | none => false) = true := by decide +kernel

/-- A device with a gang saved from core 0 and, at 0x71000, a container of a later minor revision, with no field, that names it. -/
def savedCore : Core := { core with num := 4096, strands := [strand .cc, strand .access, strand .execute] }
def header : Nat := contMagic + 2 ^ 208 * 0x0301 + 2 ^ 296 * 32 + 2 ^ 304 * 12288 + 2 ^ 384 + 2 ^ 416 + 2 ^ 448 * 64
def loading : State := { resident with dev := { oneCore with mem := oneCore.mem.writeN (lower 0x71000) 64 header,
                                                             saved := [⟨1, 1, 0, 0, savedCore, some 0x71000, false, 0x71000⟩] } }
theorem witness_GangsAreSavedAndRestored :
    ((resident.setX 8 1).x 8).toNat % 4096 ≠ 0 ∧ 2 ≤ ((resident.setX 9 2).x 9).toNat ∧ resident.core.gang = none ∧
    (residentGang.backWaits (fun _ => true) = false ∧ loading.backWaits (fun f => !loading.core.inLazy f) = false) ∧
    residentGang.core.gang = some gang ∧ ((residentGang.setX 8 0x71000).x 8).toNat % 4096 = 0 ∧ ((residentGang.setX 9 1).x 9).toNat < 2 ∧
    loading.loadStatus 0x62000 ≠ 0 ∧ (loading.setX 8 0x71000).loadStatus ((loading.setX 8 0x71000).x 8).toNat = 0 ∧
    (loading.dev.savedOf 0x71000 (loading.dev.contAt 0x71000)).isSome = true := by decide +kernel

/-- A core handed a saved gang of launch 1, whose container lies at 0x71000. -/
def requeued : State := { loading with core := { (Core.fresh 0 0 false) with resident := false, assigned := some ⟨1, 1, [], some 0x71000⟩ } }
theorem witness_GangsAreSavedAndRestored_requeue :
    requeued.core.gang = none ∧ requeued.core.resident = false ∧ requeued.core.halted = false ∧ requeued.core.pwr = 0 ∧ requeued.backWaits (fun f => !requeued.core.inLazy f) = false ∧
    (requeued.dev.saved.find? (fun g => g.at_ == some 0x71000 && g.launch == 1)).isSome = true ∧
    (({ requeued with core := { requeued.core with assigned := some ⟨1, 1, [0], none⟩ } } : State).core.assigned.any (·.saved.isNone)) = true := by
  decide +kernel

theorem witness_ResidentRegisters : resident.st.kind = .cc ∧ resident.core.resident = true ∧ 0x200 ≤ (0xFFF : BitVec 12).toNat ∧
    ({ resident.core with ctxsel := 1 } : Core).selCtx ≠ 0 ∧ resident.dev.ctxLive 1 = true ∧
    ({ resident with core := { resident.core with ctxsel := 2 } } : State).dev.ctxLive 2 = false ∧ (0x10000 : Word) ≠ 0 ∧
    resident.core.gang = none ∧ resident.dev.mem.wf = true ∧ ∃ n, ∀ k ∈ [0, 2, 3, 5], ¬((32 + k) * 2 ^ 64 + dev.stageBase k ≤ n / 128 * 128 ∧
      n / 128 * 128 < (32 + k) * 2 ^ 64 + dev.stageBase k) :=
  by simp only [← and_assoc]; exact ⟨by decide +kernel, 0, by decide +kernel⟩



/-! ### Witnesses: installs, whose blocks are too large to run -/

/-- The remap entries of the flash pages `k` and on: layer L-F at site 1, page after page from location 0. -/
def flashCells : Nat → Nat → List (Nat × Byte)
  | _, 0 => []
  | k, n + 1 => (0x200000 + 32 * (256 + k) + 6, 0x30) :: (0x200000 + 32 * (256 + k) + 7, 1) ::
      (0x200000 + 32 * (256 + k) + 26, .ofNat 8 k) :: flashCells (k + 1) n

/-- One such entry by itself. -/
def oneEntry (j : Nat) : Memory := ⟨[(6, 0x30), (7, 1), (26, .ofNat 8 j)], []⟩

theorem flashCells_beyond (k i : Nat) (hi : i < 32) : ∀ n m : Nat, k < m →
    lookupD (0 : Byte) (0x200000 + 32 * (256 + k) + i) (flashCells m n) = 0 := by
  intro n
  induction n with
  | zero => intro m _; rfl
  | succ n ih =>
    intro m hm
    simp only [flashCells, lookupD]
    rw [if_neg (by omega), if_neg (by omega), if_neg (by omega)]
    exact ih (m + 1) (by omega)

theorem flashCells_lookup (n : Nat) : ∀ k j i : Nat, k ≤ j → j < k + n → i < 32 →
    lookupD (0 : Byte) (0x200000 + 32 * (256 + j) + i) (flashCells k n) = (oneEntry j).byte i := by
  induction n with
  | zero => intro k j i h1 h2; omega
  | succ n ih =>
    intro k j i h1 h2 h3
    by_cases hk : k = j
    · subst hk
      simp only [flashCells, lookupD, flashCells_beyond k i h3 n (k + 1) (by omega), Memory.byte, oneEntry, Nat.add_left_cancel_iff,
        Memory.byte0]
    · simp only [flashCells, lookupD]
      rw [if_neg (by omega), if_neg (by omega), if_neg (by omega)]
      exact ih (k + 1) j i (by omega) (by omega) h3

theorem readN_same (m m' : Memory) : ∀ n a b : Nat, (∀ i, i < n → m.byte (a + i) = m'.byte (b + i)) → m.readN a n = m'.readN b n := by
  intro n
  induction n with
  | zero => intros; rfl
  | succ n ih =>
    intro a b h
    have h0 := h 0 (by omega)
    simp only [Nat.add_zero] at h0
    rw [Memory.readN, Memory.readN, h0, ih (a + 1) (b + 1) fun i hi => by
      have := h (i + 1) (by omega)
      rwa [Nat.add_comm i 1, ← Nat.add_assoc, ← Nat.add_assoc] at this]

/-- Every 16 MiB at VA 0x80000000 is one cached piece over the weights at DPA 16 MiB, and every page of 16 MiB at VA 0xC0000000 is
DPA page 4, in layer L-P. -/
def weightLeaf : Xlat := ⟨1, 0x80000000, 24, 2, .ofNat 128 (0x1000000 + 2 ^ 93 + 0x1E)⟩
def poolLeaf : Xlat := ⟨1, 0xC0000000, 24, 4, .ofNat 128 (0x40000 + 3 * 2 ^ 95 + 2 ^ 93 + 0x1E)⟩

/-- A CC whose descriptor for one block lies in the scratchpad, named by x8. -/
def descriptor (dst : Nat) : Nat := dst * 2 ^ 448 + 0xC0000000 * 2 ^ 384 + 2 ^ 352
def installing (dst balance : Nat) : State := (({ (user .cc) with dev := { dev with
  mem := ⟨(0x200000 + 32 * 4 + 6, 0x40) :: flashCells 0 256, []⟩
  rmbase := 0x200009
  config := .ofNat 4096 (2 ^ 3214 + 2 ^ 3228 + 2 ^ 3229)
  tlb := [weightLeaf, poolLeaf]
  parts := dev.parts.set 0 { Part.empty with on := true, balance := balance, ent := .ofNat 512 (65536 * 2 ^ 384) } } } : State).putSpad 0
    (.ofNat 1024 (descriptor dst)) Memory.tag0.raw).setX 8 padBase

def install1 : State := installing 0x80000000 16777216
/-- Page `j` of the destination. -/
def destVa (j : Nat) : Word := .ofNat 64 (0x80000000 + 65536 * j)
def destPg (j : Nat) : Pg := ⟨destVa j, [weightLeaf], weightLeaf.pte, 2, 0x1000000 + 65536 * j, .ofNat 256 ((oneEntry j).readN 0 32)⟩

theorem install1_entry (j : Nat) (hj : j < 256) : install1.dev.mem.readN (0x200000 + 32 * (256 + j)) 32 = (oneEntry j).readN 0 32 := by
  apply readN_same
  intro i hi
  have hm : install1.dev.mem.cells = (0x200000 + 32 * 4 + 6, 0x40) :: flashCells 0 256 := rfl
  rw [Memory.byte, hm, lookupD, if_neg (by omega), Nat.zero_add]
  exact flashCells_lookup 256 0 j i (by omega) (by omega) hi

theorem install1_places : ∀ j, j < 256 → inWindow (destVa j) = false ∧ badRange (destVa j) = false ∧
    install1.dev.cached 1 (destVa j) = some weightLeaf ∧ (destVa j).toNat = 0x80000000 + 65536 * j ∧
    rmLayer (destPg j).ent = 3 := by decide +kernel

/-- What the destination's pages are asked (R356). -/
def destCheck (p : Pg) : M Unit := do
  let t ← get
  if t.dev.rmIn p.dpa && rmLayer p.ent == 3 then pure () else p.look nInstall.kind true

theorem install1_via : install1.via = ⟨1, 0x10000, 1, false⟩ := rfl
theorem install1_page (j : Nat) (hj : j < 256) : (pageAt install1.via nInstall 2 (destVa j)).run install1 = .ok (destPg j, install1) := by
  obtain ⟨h1, h2, h3, h4, -⟩ := install1_places j hj
  have h6 : install1.dev.rmIn (0x1000000 + 65536 * j) = true := by
    have : install1.dev.rmLgn = 9 := rfl
    simp [Dev.rmIn, this, rmPage]; omega
  have h7 : install1.dev.rmEnt (0x1000000 + 65536 * j) = (destPg j).ent := by
    have h : install1.dev.rmAt (0x1000000 + 65536 * j) = 0x200000 + 32 * (256 + j) := by
      have : install1.dev.rmTable = 0x200000 := rfl
      simp [Dev.rmAt, this, rmPage]; omega
    rw [Dev.rmEnt, h, install1_entry j hj]; rfl
  have h8 : pteFrame weightLeaf.pte + (destVa j).toNat % 2 ^ levelShift weightLeaf.lv = 0x1000000 + 65536 * j := by
    have ha : pteFrame weightLeaf.pte = 0x1000000 := by decide +kernel
    have hb : levelShift weightLeaf.lv = 30 := rfl
    rw [ha, hb, h4]; omega
  have h9 : needFault nInstall weightLeaf (0x1000000 + 65536 * j) = none := rfl
  have h10 : ¬ pteHdev weightLeaf.pte ≠ install1.dev.num := by decide +kernel
  have h11 : install1.dev.leafOf install1.via (destVa j) = .ok (weightLeaf, install1.dev) := by
    rw [install1_via, Dev.leafOf]; simp only [h3]
  have h12 : install1.via.raw = false := rfl
  have h13 : install1.dev.leafTurns install1.via (destVa j) = false := by rw [install1_via, Dev.leafTurns]; simp [h3]
  simp only [pageAt, h1, StateT.run, bind, StateT.bind, pure, StateT.pure, Except.bind, Except.pure, get, getThe, MonadStateOf.get, StateT.get,
    h12, h2, h13, h11, h8, h9, if_neg h10, set, StateT.set, h6, h7, ite_true, Bool.false_eq_true, ite_false]
  rfl

theorem pagesOver_of (v : Via) (n : Need) (check : Pg → M Unit) (last N : Nat) (s : State) (va : Nat → Word) (pg : Nat → Pg)
    (h : ∀ j, j < N → (pageAt v n 2 (va j)).run s = .ok (pg j, s) ∧ (check (pg j)).run s = .ok ((), s) ∧ (pg j).lv ≠ 5 ∧ ¬ last ≤ (va j).toNat ∧
      (BitVec.ofNat 64 ((va j).toNat / 65536 * 65536 + 65536) : Word) = va (j + 1)) (hN : last ≤ (va N).toNat) :
    ∀ m j k : Nat, j + m = N → m < k → (pagesOver v n check last k (va j)).run s = .ok ((List.range' j m).map pg, s) := by
  intro m
  induction m with
  | zero =>
    intro j k hj hk
    obtain ⟨k, rfl⟩ : ∃ m, k = m + 1 := ⟨k - 1, by omega⟩
    obtain rfl : j = N := by omega
    rw [pagesOver, if_pos hN]; rfl
  | succ m ih =>
    intro j k hj hk
    obtain ⟨k, rfl⟩ : ∃ m, k = m + 1 := ⟨k - 1, by omega⟩
    obtain ⟨hp, hc, hv, hl, hn⟩ := h j (by omega)
    have hi := ih (j + 1) k (by omega) (by omega)
    rw [List.range'_succ, List.map_cons]
    simp only [StateT.run] at hp hc hi
    simp only [pagesOver, if_neg hl, StateT.run, bind, StateT.bind, Except.bind, hp, hc, if_neg hv, hn, hi, pure, StateT.pure, Except.pure]

theorem install1_check (j : Nat) (hj : j < 256) : (destCheck (destPg j)).run install1 = .ok ((), install1) := by
  have h5 := (install1_places j hj).2.2.2.2
  have h6 : install1.dev.rmIn (destPg j).dpa = true := by
    have : install1.dev.rmLgn = 9 := rfl
    simp [Dev.rmIn, this, rmPage, destPg]; omega
  simp only [destCheck, StateT.run, bind, StateT.bind, pure, StateT.pure, Except.bind, Except.pure, get, getThe, MonadStateOf.get, StateT.get,
    h6, h5, beq_self_eq_true, Bool.and_self, ite_true]

theorem nextPage (b : Nat) (hb : b % 65536 = 0) (j : Nat) :
    BitVec.ofNat 64 ((b + 65536 * j) / 65536 * 65536 + 65536) = BitVec.ofNat 64 (b + 65536 * (j + 1)) := by
  have h : (b + 65536 * j) / 65536 * 65536 + 65536 = b + 65536 * (j + 1) := by omega
  rw [h]

theorem install1_dest : (pagesOver install1.via nInstall destCheck 0x81000000 4112 0x80000000).run install1 =
    .ok ((List.range' 0 256).map destPg, install1) := by
  refine pagesOver_of _ _ _ _ 256 _ destVa destPg (fun j hj => ⟨install1_page j hj, install1_check j hj, (show (2 : Nat) ≠ 5 by decide), ?_, ?_⟩) (by decide +kernel)
    256 0 4112 rfl (by omega)
  · have := (install1_places j hj).2.2.2.1; omega
  · rw [(install1_places j hj).2.2.2.1]; exact nextPage _ rfl j

/-- A page of the source. -/
def srcEnt : BitVec 256 := .ofNat 256 (2 ^ 54)
def srcVa (j : Nat) : Word := .ofNat 64 (0xC0000000 + 65536 * j)
def srcPg (j : Nat) : Pg := ⟨srcVa j, [poolLeaf], poolLeaf.pte, 4, 0x40000, srcEnt⟩
theorem install1_src_places : ∀ j, j < 256 → inWindow (srcVa j) = false ∧ badRange (srcVa j) = false ∧
    install1.dev.cached 1 (srcVa j) = some poolLeaf ∧ (srcVa j).toNat = 0xC0000000 + 65536 * j := by decide +kernel
theorem install1_src_ent : install1.dev.rmEnt 0x40000 = srcEnt ∧ (install1.dev.rmLook 0x40000) = some srcEnt ∧ rmTurning srcEnt = false := by
  decide +kernel

theorem install1_src_page (j : Nat) (hj : j < 256) : (pageAt install1.via nEngRead 2 (srcVa j)).run install1 = .ok (srcPg j, install1) ∧
    ((srcPg j).look nEngRead.kind true).run install1 = .ok ((), install1) := by
  obtain ⟨h1, h2, h3, h4⟩ := install1_src_places j hj
  obtain ⟨h7, hlook, hturn⟩ := install1_src_ent
  have h6 : install1.dev.rmIn 0x40000 = true := by decide +kernel
  have h8 : pteFrame poolLeaf.pte + (srcVa j).toNat % 2 ^ levelShift poolLeaf.lv = 0x40000 := by
    have ha : pteFrame poolLeaf.pte = 0x40000 := by decide +kernel
    have hb : levelShift poolLeaf.lv = 16 := rfl
    rw [ha, hb, h4]; omega
  have h9 : needFault nEngRead poolLeaf 0x40000 = none := by decide +kernel
  have h10 : ¬ pteHdev poolLeaf.pte ≠ install1.dev.num := by decide +kernel
  have h11 : install1.dev.leafOf install1.via (srcVa j) = .ok (poolLeaf, install1.dev) := by
    rw [install1_via, Dev.leafOf]; simp only [h3]
  have h12 : install1.via.raw = false := rfl
  have h13 : install1.dev.leafTurns install1.via (srcVa j) = false := by rw [install1_via, Dev.leafTurns]; simp [h3]
  constructor
  · simp only [pageAt, h1, StateT.run, bind, StateT.bind, pure, StateT.pure, Except.bind, Except.pure, get, getThe, MonadStateOf.get, StateT.get,
      h12, h2, h13, h11, h8, h9, if_neg h10, set, StateT.set, h6, h7, ite_true, Bool.false_eq_true, ite_false]
    rfl
  · have hd : (srcPg j).dpa = 0x40000 := rfl
    simp only [Pg.look, StateT.run, bind, StateT.bind, pure, StateT.pure, Except.bind, Except.pure, get, getThe, MonadStateOf.get, StateT.get,
      hd, hlook, hturn, Bool.and_false, Bool.false_eq_true, ite_false]

theorem install1_src : (pagesOver install1.via nEngRead (fun p => p.look nEngRead.kind true) 0xC1000000 4112 0xC0000000).run install1 =
    .ok ((List.range' 0 256).map srcPg, install1) := by
  refine pagesOver_of _ _ _ _ 256 _ srcVa srcPg (fun j hj => ⟨(install1_src_page j hj).1, (install1_src_page j hj).2, (show (4 : Nat) ≠ 5 by decide), ?_, ?_⟩)
    (by decide +kernel) 256 0 4112 rfl (by omega)
  · have := (install1_src_places j hj).2.2.2; omega
  · rw [(install1_src_places j hj).2.2.2]; exact nextPage _ rfl j

/-- The entries of the destination's pages and of the source's. -/
def destEnts : List (BitVec 256) := (List.range' 0 256).map fun j => .ofNat 256 ((oneEntry j).readN 0 32)

theorem witness_LayerInstructions_install :
    (padBase.toNat % 64 = 0 ∧ install1.x 8 = padBase ∧ install1.fenceFar 3 false true = install1) ∧
    (∃ t, (translate install1.via nRmw padBase).run install1 = .ok (t, install1)) ∧
    (pageLeaf install1.via nRmw 0 padBase).run install1 = .ok ([], install1) ∧
    after ((readRecord padBase 64).run install1) (fun x _ => x == descriptor 0x80000000) = true ∧
    ((BitVec.ofNat 512 (descriptor 0x80000000)).extractLsb' 448 64 = 0x80000000 ∧ (BitVec.ofNat 512 (descriptor 0x80000000)).extractLsb' 384 64 = 0xC0000000 ∧
      (BitVec.ofNat 512 (descriptor 0x80000000)).extractLsb' 352 32 = 1 ∧ (BitVec.ofNat 512 (descriptor 0x80000000)).extractLsb' 65 255 = 0) :=
  ⟨⟨rfl, rfl, rfl⟩, ⟨_, rfl⟩, rfl, by decide +kernel, by decide +kernel⟩

theorem witness_LayerInstructions_record : ∃ x, (readRecord padBase 64).run install1 = .ok (x, install1) := ⟨_, rfl⟩

theorem witness_LayerInstructions_accept :
    ptePcls weightLeaf.pte = 0 ∧ rmLayer srcEnt = 4 ∧ ((List.range' 0 256).map destPg).map (·.ent) = destEnts ∧
    (match install1.dev.accept 1 0x80000000 0xC0000000 1 destEnts with
      | .ok (bs, rs, dv) => bs == [(0, 0)] && rs.length == 1 &&
        okay ((recordWrite false install1.via padBase (installWord 0xFF 0 0 1)).run { install1 with dev := dv })
      | .error _ => false) = true ∧
    (match (installing 0x80000000 0).dev.accept 1 0x80000000 0xC0000000 1 destEnts with
      | .ok _ => 0
      | .error c => c) = 4 := by
  refine ⟨by decide +kernel, by decide +kernel, ?_, by decide +kernel, by decide +kernel⟩
  rw [List.map_map]; rfl


/-! ### Witnesses: the other layer instructions and the layer engines' steps -/

/-- A CC whose `winst` of the descriptor at x8 waits for its acceptance write, that write still to be made or made. -/
def accepting (ack : Option (Option (BitVec 8))) : State := ({ (inMem .cc) with dev := { mapped with installs :=
  [⟨1, 1, 0, 1, 0x40000, [], 0, false, [(0, 0)], 0x1000000, [], [], 0x1000, 0, 0, none, [(0, 7)], [], 0, 0, none, false, [], ack, none⟩] } } : State).setX 8 0x40000
theorem witness_LayerInstructions_acknowledged : ∀ a : Option (BitVec 8), a = none ∨ a = some 0xFF → ∃ i,
    (accepting (some a)).dev.installs.find? (fun i => i.ack.isSome && i.ctx == (accepting (some a)).via.key && i.desc == (accepting (some a)).x 8) = some i ∧
    i.ack = some a ∧ (accepting (some a)).fenceWaits 3 false true = false ∧ ((accepting (some a)).x 8).toNat % 64 = 0 := by
  rintro _ (rfl | rfl) <;> exact ⟨_, rfl, by decide +kernel⟩

theorem witness_LayerInstructions_misaligned : (((user .cc).setX 8 32).x 8).toNat % 64 ≠ 0 ∧
    (((user .cc).setX 8 32768).x 8).toNat % 65536 ≠ 0 := by decide +kernel

/-- A CC over the mapped pages 0x40000 and 0x50000. -/
def layered : State := ((inMem .cc).setX 8 0x40000).setX 9 0x50000
theorem witness_LayerInstructions_recode : (layered.x 8).toNat % 65536 = 0 ∧
    layered.fenceWaits 3 false true = false ∧ (heldBack layered).fenceWaits 3 false true = true ∧
    (∃ ps u, (pagesOver layered.via nPerm (fun p => p.look nPerm.kind true) (0x40000 + 65536 * 1) 16 0x40000).run (layered.fenceFar 3 false true)
      = .ok (ps, u) ∧ (ps.all fun p => ptePcls p.pte != 0) = true) ∧
    (∃ ps, (pagesOver layered.via nPerm (fun p => p.look nPerm.kind true) 0x40000 0 0x40000).run (layered.fenceFar 3 false true)
      = .ok (ps, layered)) ∧
    ((layered.setX 9 0x10000).x 9).extractLsb' 16 16 = 1 ∧ ((layered.setX 9 0x10000).x 9).extractLsb' 9 7 = 0 ∧
    ((layered.setX 9 0x10000).x 9).extractLsb' 7 2 ≠ 3 ∧ ((layered.setX 9 0x10180).x 9).extractLsb' 7 2 = 3 :=
  ⟨by decide +kernel, by decide +kernel, by decide +kernel, ⟨_, _, rfl, by decide +kernel⟩, ⟨_, rfl⟩, by decide +kernel⟩

theorem witness_LayerInstructions_swp : ∃ pa u pb,
    (pageAt layered.via nPerm 2 0x40000).run (layered.fenceFar 3 false true) = .ok (pa, u) ∧ (pa.look nPerm.kind true).run u = .ok ((), u) ∧
    (∃ w, (pageAt layered.via nPerm 2 0x50000).run u = .ok (pb, w) ∧ (pb.look nPerm.kind true).run w = .ok ((), w) ∧
      w.dev.overQuota pa pb = false) ∧
    rmPage pa.dpa ≠ rmPage pb.dpa ∧ ptePcls pa.pte = ptePcls pb.pte ∧ ptePcls pa.pte ≠ 0 ∧ pteCmpr pa.pte = false ∧ pteCmpr pb.pte = false ∧
    pteCache pa.pte ≠ 2 ∧ pteCache pb.pte ≠ 2 ∧ classAllows (ptePcls pa.pte) (rmLayer pb.ent) = true ∧
    classAllows (ptePcls pb.pte) (rmLayer pa.ent) = true ∧
    (∃ w, (pageAt layered.via nPerm 2 0x40000).run u = .ok (pa, w)) :=
  ⟨_, _, _, rfl, rfl, ⟨_, rfl, rfl, by decide +kernel⟩, by
    and_intros
    all_goals first
      | decide +kernel
      | exact ⟨_, rfl⟩⟩

theorem witness_LayerInstructions_wstat : (layered.dev.part layered.layerPart).isSome = true ∧ ((layered.setX 9 1).x 9 = 1 ∧ (layered.setX 9 0).x 9 = 0 ∧
    (layered.setX 9 4).x 9 = 4 ∧ 6 ≤ ((layered.setX 9 6).x 9).toNat) ∧
    (∃ p u, (pageAt layered.via nLoad 4 0x40000).run layered = .ok (p, u) ∧ (p.look nLoad.kind false).run u = .ok ((), u)) ∧
    (layered.x 9).toNat % 4 = 0 := ⟨by decide +kernel, by decide +kernel, ⟨_, _, rfl, rfl⟩, by decide +kernel⟩

/-- An install of the resident level, of one block, its descriptor in the scratchpad and its source in memory that nothing wrote. -/
def install0 : Install := ⟨1, 4096, 0, 1, padBase, [], 0, false, [(0, 0)], 0x1000000, [], [], 0x1000, 0, 0, none, [(0, 7)], [], 0, 0, none, false, [], none, none⟩
/-- A CC at the resident level, with no tables, over one install. -/
def layerSteps (i : Install) : State := { resident with dev := { dev with mem := ⟨[], []⟩, installs := [i] } }
def blocks : State := layerSteps install0

/-- The address of the source's line `k`. -/
def blockSrc (k : Nat) : Word := .ofNat 64 (0x1000000 + 128 * k)
/-- What its line `k` is translated to. -/
def srcTr (k : Nat) : Tr := ⟨false, 0x1000000 + 128 * k, pteRaw, 0, 0x1000000 + 128 * k, blockSrc k, true, false⟩

theorem blockSrc_fits (k : Nat) (hk : k < 131072) :
    (blockSrc k).toNat = 0x1000000 + 128 * k ∧ inWindow (blockSrc k) = false ∧ (0x1000000 + .ofNat 64 (128 * k) : Word) = blockSrc k := by
  have h : (blockSrc k).toNat = 0x1000000 + 128 * k := by simp only [blockSrc, BitVec.toNat_ofNat]; omega
  refine ⟨h, ?_, ?_⟩
  · have hne : (blockSrc k).extractLsb' 22 42 ≠ BitVec.allOnes 42 := by
      intro he
      have := congrArg BitVec.toNat he
      rw [BitVec.extractLsb'_toNat, h, BitVec.toNat_allOnes, Nat.shiftRight_eq_div_pow] at this
      omega
    simpa [inWindow] using hne
  · apply BitVec.eq_of_toNat_eq
    rw [h, BitVec.toNat_add, BitVec.toNat_ofNat]
    have : BitVec.toNat (0x1000000 : Word) = 0x1000000 := rfl
    omega

theorem blocks_read (n : Nat) : ∀ k, k + n ≤ 131072 →
    ∃ ls, (installLines (blocks.viaKey 4096) [] 0x1000000 k n).run blocks = .ok (ls, blocks) ∧ ∀ x ∈ ls, x.2.cls ≠ cPOI := by
  induction n with
  | zero => intro k _; exact ⟨[], rfl, by simp⟩
  | succ n ih =>
    intro k hk
    obtain ⟨ls, h, hc⟩ := ih (k + 1) (by omega)
    obtain ⟨h1, h2, h3⟩ := blockSrc_fits k (by omega)
    have hl : blocks.dev.rmLgn = 0 := rfl
    have hr : (heldTr (blocks.viaKey 4096) [] nEngRead (0x1000000 + .ofNat 64 (128 * k))).run blocks =
        .ok (srcTr k, blocks) := by
      have hraw : (blocks.viaKey 4096).raw = true := rfl
      simp only [h3, heldTr, run_bind, run_get, List.find?_nil, Machine.translate, translateAt, Dev.translate, h2, hraw, h1, Dev.trHere, Dev.rmFree, hl,
        beq_self_eq_true, Bool.true_or, Bool.and_self, Bool.false_and, Bool.false_eq_true, if_false, if_true, run_set, run_pure]; rfl
    have hw : blocks.mustWait (srcTr k) false = false := rfl
    have hs : ¬ 48 ≤ spaceOf (0x1000000 + 128 * k) := by simp only [spaceOf]; omega
    have hf : inFlash (srcTr k).loc = false := by simp [inFlash, srcTr, hs]
    have hst : blocks.dev.stageFill (srcTr k) = blocks.dev := by simp [Dev.stageFill, hf]
    have hx : (homeRead (srcTr k) nEngRead.kind).run blocks = .ok (blocks.dev.homeLine (srcTr k), blocks) := by
      have hse : blocks.dev.sector (srcTr k) = none := by simp [Dev.sector, srcTr]
      have hb : (srcTr k).breach = false := rfl
      simp only [homeRead, hb, Bool.false_eq_true, if_false, run_bind, checkFlash, checkBlock, hf, Bool.and_false, Bool.false_and, run_get, hse, run_pure, hst, run_set]
    have hh : (blocks.dev.homeLine (srcTr k)).2 = Memory.tag0 := by
      have hm : blocks.dev.mem.tag (0x1000000 + 128 * k) = Memory.tag0 := rfl
      have ho : blocks.dev.hostLines = [] := rfl
      have hb : blocks.dev.flashBad = [] := rfl
      have hp : inPool (0x1000000 + 128 * k) = false := by
        have : spaceOf (0x1000000 + 128 * k) = 0 := by simp only [spaceOf]; omega
        simp [inPool, this]
      have hf' : inFlash (0x1000000 + 128 * k) = false := hf
      simp [Dev.homeLine, Dev.sector, ho, srcTr, Dev.lineAt, hf', Dev.lineBad, hb, Dev.hostModified, Dev.tagAt, hp, hm]
    refine ⟨blocks.dev.homeLine (srcTr k) :: ls, ?_, ?_⟩
    · simp only [installLines, run_bind, hr, run_get, hw, Bool.false_eq_true, if_false, hx, run_pure, h]
    · simp only [List.mem_cons, forall_eq_or_imp]
      exact ⟨by rw [hh]; decide, hc⟩

theorem witness_LayerSteps_install : blocks.dev.installs[0]? = some install0 ∧ install0.blocks[install0.at_]? = some (0, 0) ∧
    blocks.dev.installTurn 0 install0 = true ∧ (∃ j, install0.take 0 = some (7, j) ∧ j.src + .ofNat 64 (16777216 * j.at_) = 0x1000000 ∧ j.sxl = []) ∧
    ({ install0 with cur := some 7, tries := 1 } : Install).take 0 = some (7, { install0 with cur := some 7, tries := 1 }) ∧
    ∃ ls, (installLines (blocks.viaKey 4096) [] 0x1000000 0 131072).run blocks = .ok (ls, blocks) ∧ ∀ x ∈ ls, x.2.cls ≠ cPOI :=
  ⟨rfl, rfl, rfl, ⟨_, rfl, rfl, rfl⟩, rfl, blocks_read 131072 0 (by omega)⟩

/-- Installs that have ended: one with a code, one whose block is programmed. -/
def failed : State := layerSteps { install0 with fail := some 5 }
def programmed : State := layerSteps { install0 with at_ := 1, shadow := [((0, 0), 7)], reserved := [] }
theorem witness_LayerSteps_commit : (∃ u, (recordWrite false (failed.viaKey 4096) padBase (installWord 5 0 0 1)).run failed = .ok ((), u)) ∧
    (∃ i, programmed.dev.installs[0]? = some i ∧ i.at_ = i.blocks.length ∧
      let c := programmed.commitBlocks i
      let c : State := { c with dev := c.dev.updInstall 0 fun i => { i with committed := true } }
      4096 ≤ i.ctx ∧ ∃ u, (recordWrite false (c.viaKey i.ctx) i.desc (installWord ({ i with committed := true } : Install).code i.nremap i.maxw i.no)).run c
        = .ok ((), u)) :=
  ⟨⟨_, rfl⟩, _, rfl, rfl, by decide, _, rfl⟩

/-- A recode of one page at the resident level; swaps of the mapped pages, waiting and turning. -/
def recoding : State := { resident with dev := { dev with recodes := [⟨1, 4096, 0, 1, 0, 0, 0, 0x40000, 512, 0, [], 0x1000, 1, 0, 0, 0, 0, [], false, none⟩] } }
def swapping (turning : Bool) : State := { resident with dev := { mapped with swaps := [⟨1, 0, 4096, 1, 0x40000, 0x50000, turning⟩] } }
theorem witness_LayerSteps_recode : ∃ r, recoding.dev.recodes[0]? = some r ∧ recoding.dev.recodeTurn 0 r = true ∧
    ∃ q u, (recodeStep r).run recoding = .ok (q, u) ∧ q.at_ < q.lines := ⟨_, rfl, rfl, _, _, rfl, by decide +kernel⟩

theorem witness_LayerSteps_swap : (∀ t : Bool, ∃ w, (swapping t).dev.swaps[0]? = some w ∧ w.turning = t ∧
    (∀ q ∈ (swapping t).dev.swaps.take 0, ∀ p ∈ [w.a, w.b], q.a ≠ p ∧ q.b ≠ p)) ∧
    (let s := swapping true; s.counted 4 = false ∧ s.counted 5 = false ∧ s.pageWaits (s.dev.locOf (s.dev.rmEnt 0x40000) 0) = false ∧
      s.pageWaits (s.dev.locOf (s.dev.rmEnt 0x50000) 0) = false) :=
  ⟨fun _ => ⟨_, rfl, rfl, by simp⟩, by decide +kernel⟩

theorem witness_LayerSteps_others :
    (∃ d : Dev, d.heatcfg.getLsbD 16 = true ∧ (d.rmLook 0x40000).isSome = true) ∧ (∃ d : Dev, d.heatcfg.getLsbD 16 = false) ∧
    48 ≤ spaceOf (48 * 2 ^ 64 / 128 * 128) ∧ spaceOf (48 * 2 ^ 64 / 128 * 128) < 64 ∧ (∃ d : Dev, d.stage ≠ 0) :=
  ⟨⟨{ mapped with heatcfg := 65536 }, by decide +kernel⟩, ⟨{ mapped with heatcfg := 0 }, by decide +kernel⟩, by decide +kernel, by decide +kernel, { dev with stage := 1 }, by decide⟩

/-! ### Witnesses: the fabric's messages -/

/-- A line of die 0's L-S. -/
def diedLine : Nat := lower 0x40000 / 128
/-- Its tokens, all at one holder, with failures of holder 0 and persistent requests, on a device whose core 0 is on; and the same with the line
owned by a Shuttle. -/
def tokens (owner : Nat) (failed : List (Nat × Nat)) (persist : List Nat) : State := { (user .cc) with dev := { oneCore with
  tokens := [⟨diedLine, [(owner, 256)], owner, failed, persist⟩] } }
def tokensOwned : State := { (tokens 1 [] []) with core := { core with copies :=
  [⟨0, 1, 1, 5, 1, 1, 1, .move, 16, [⟨0x10000, some diedLine, some diedLine, []⟩], none, none, [], none, 0, []⟩] } }
/-- A device with a host behind a port that runs as an accelerator. -/
def hosted : Dev := { dev with config := .ofNat 4096 (2 ^ 3214) }

/-- The CRC of the flit of zeros but for its first sequence number, and for another device. -/
def flit1 : BitVec 2048 := let f : BitVec 2048 := .ofNat 2048 (2 ^ 104 + 2 ^ 88); f ||| ((flitCrc f).setWidth 2048 <<< 1984)
theorem witness_FabricMessages_tokens :
    (let s := tokens 0 [] []; s.isHolder diedLine 1 = true ∧ s.isHolder diedLine 2 = true ∧ s.isHolder diedLine 900 = false ∧ s.shuttleOf diedLine = none ∧
      (∀ t, s.dev.tokens.find? (·.line == diedLine) = some t → t.blocked 1 = false ∧ t.of_ 1 = 0 ∧ t.of_ 0 = 256 ∧ t.giver = some 0 ∧ (0 : Nat) ≠ 1 ∧
        (t.counts.map (·.1)).Pairwise (· < ·))) ∧
    tokensOwned.isHolder diedLine 1 = true ∧ (tokensOwned.shuttleOf diedLine).isSome = true ∧
    (∀ t, (tokens 0 [] [2]).dev.tokens.find? (·.line == diedLine) = some t → t.blocked 1 = true ∧ t.persist = [2] ∧ t.of_ 2 ≠ 256) ∧
    (let s := tokens 2 [(2, 3)] [2]; ∀ t, s.dev.tokens.find? (·.line == diedLine) = some t → sortedNe 0 t.failed = true ∧ lookupD 0 2 t.failed = 3 ∧
      t.persist = [2] ∧ t.of_ 2 = 256) ∧
    (tokens 2 [] [2]).holderWaits 2 = false ∧ (tokens 0 [] [0]).shuttleOf diedLine = none := by decide +kernel
theorem witness_FabricMessages_flits : flitCrc (1 : BitVec 2048) ≠ (1 : BitVec 2048).extractLsb' 1984 64 ∧
    flitCrc flit1 = flit1.extractLsb' 1984 64 ∧ flitCrc 0 = (0 : BitVec 2048).extractLsb' 1984 64 ∧
    (0 : BitVec 2048).extractLsb' 104 12 ≠ ((dev.links[3]'(by decide)).ack + 1) ∧
    flit1.extractLsb' 104 12 = ((dev.links[3]'(by decide)).ack + 1) ∧ flit1.extractLsb' 88 8 ≠ dev.num := by decide +kernel
theorem witness_FabricMessages_lines :
    (hosted.hasHost = true ∧ dev.hasHost = false ∧ devLine diedLine = true ∧ hosted.hostLines.any (·.1 == diedLine) = false ∧
      ({ hosted with hostLines := [(diedLine, none)] } : Dev).hostLines.any (·.1 == diedLine) = true ∧ (hosted.lineAt (diedLine * 128)).2.cls ≠ cPOI ∧
      (({ hosted with mem := ⟨[], [(diedLine, Memory.tag0.toPoi)]⟩ } : Dev).lineAt (diedLine * 128)).2.cls = cPOI) ∧
    inPool (64 * 2 ^ 64 / 128 * 128) = true ∧
    (let s : State := { contending with core := { contending.core with far := [⟨lower 0x40000 / 128, 0x40000, 1, 0, 0, 1, none, false⟩] } };
      ∃ f, s.core.far[0]? = some f ∧ s.backWaits (fun g => g.loc == f.loc) = true) ∧
    (let s : State := { copying with core := { copying.core with far := [⟨lower 0x40000 / 128, 0x40000, 1, 0, 0, 1, none, false⟩] } };
      ∃ f, s.core.far[0]? = some f ∧ s.backWaits (fun g => g.loc == f.loc) = false) :=
  ⟨by decide +kernel, by decide +kernel, ⟨_, rfl, by decide +kernel⟩, ⟨_, rfl, by decide +kernel⟩⟩

/-! ### Witnesses: the system's events, and the invariant -/

/-- A device whose partition table at 0x50000 holds one entry with EN; partition 1 off, then on. -/
def tabled (p : Part) : State :=
  { (user .cc) with dev := { mapped with ptab := 0x50000, mem := mapped.mem.setByte (lower 0x5001E) 1, parts := dev.parts.set 0 p } }
/-- The acting core alone on the device, in a power state. -/
def alone (pwr : BitVec 2) (r : Run) (rp : BitVec 4) : State :=
  ⟨{ strand .cc with run := r }, { Core.fresh 0 0 false with pwr := pwr, rpend := rp, renab := 0xF, strands := [] }, dev, []⟩
theorem witness_SystemEvents_partitions : (user .cc).core.gang.isSome = true ∧
    (let s := tabled Part.empty; (s.dev.part 1).map (·.on) = some false ∧ entryOn (s.dev.partEntry 1) = true) ∧
    (let s := tabled { Part.empty with on := true }; (s.dev.part 1).map (·.on) = some true ∧ entryOn (s.dev.partEntry 1) = true) ∧
    (let s := inMem .cc; (s.dev.part 1).map (·.on) = some true ∧ entryOn (s.dev.partEntry 1) = false) ∧
    (let s := (user .cc); ({ s with dev := { s.dev with dbgLevel := 1 } } : State).debugLevel 1 < 2 ∧
      2 ≤ ({ s with dev := { s.dev with dbgLevel := 2 } } : State).debugLevel 2) := by decide +kernel
theorem witness_SystemEvents_power :
    (alone 2 .ended 1).core.pwr = 2 ∧ (alone 2 .ended 1).core.eventDue = true ∧
    (let s := alone 0 .ended 0; s.core.pwr = 0 ∧ s.wholeCore.anyReady = false ∧ s.wholeCore.eventDue = false ∧ s.core.dbgHalt = []) ∧
    (let s := alone 1 .running 0; s.core.pwr = 1 ∧ s.wholeCore.anyReady = true) ∧
    (∀ c ∈ (alone 1 .ended 0).allCores, (alone 1 .ended 0).dev.coreOn c.num = true → c.active = false) ∧
    (let s : State := { (alone 0 .running 0) with dev := oneCore }; ∃ c ∈ s.allCores, s.dev.coreOn c.num = true ∧ c.active = true) := by decide +kernel
theorem witness_SystemEvents_record : recordOk configFull = true ∧ recordOk 0 = false := by decide +kernel

theorem witness_MemoryStaysCanonical : fetching.dev.mem.wf = true ∧ fetching.memWf = true ∧ goesOn (step fetching) = true := by decide +kernel

/-! ### Witnesses: further clauses of the statements -/

/-- Entries of each kind, one whose negative zero is reserved. -/
theorem witness_NumberFormats : Fmt.legalFloat fp32 ∧ Fmt.legalInt (Fmt.ofEntry 0x41000000) ∧
    (legalEntry 0x29034008 = true ∧ (Fmt.ofEntry 0x29034008).rsv = true ∧ (Fmt.ofEntry 0x29034008).spc = 1 ∧ legalEntry 0x10C23003 = true ∧
      (Fmt.ofEntry 0x10C23003).spc = 2) ∧
    fp32.ew = 8 ∧ fp32.mw = 23 ∧ fp32.bias = 127 ∧ fp32.spc = 0 ∧ fp32.maxVal = .fin false 16777215 104 :=
  ⟨⟨rfl, 0x0417807F, by decide, rfl⟩, ⟨rfl, 0x41000000, by decide, rfl⟩, by decide, rfl, rfl, rfl, rfl, by decide +kernel⟩

/-- FP32 at 1, at a tie, and at 2^128, which overflows; INT8 at 2.5; the amax 2^127. -/
theorem witness_NumberFormats_rounding :
    ((2 : ℚ) ^ (0 : ℤ) ≤ (1 : ℕ) * 2 ^ (0 : ℤ) ∧ ((1 : ℕ) : ℚ) * 2 ^ (0 : ℤ) < 2 ^ ((0 : ℤ) + 1) ∧
      ((1 : ℕ) : ℚ) * 2 ^ (0 : ℤ) = ((8388608 : ℕ) + 0) * 2 ^ (-23 : ℤ) ∧ ¬RMode.rne.up false true 0 0) ∧
    (((16777217 : ℕ) : ℚ) * 2 ^ (-24 : ℤ) = ((8388608 : ℕ) + 1 / 2) * 2 ^ (-23 : ℤ) ∧ ¬RMode.rne.up false true (1 / 2) 0 ∧
      RMode.rne.up false false (1 / 2) 0 ∧ RMode.sr.up false true (1 / 2) 0) ∧
    (((1 : ℕ) : ℚ) * 2 ^ (128 : ℤ) = ((8388608 : ℕ) + 0) * 2 ^ (105 : ℤ) ∧
      (Val.fin false 16777215 104).rat < ((8388608 : ℕ) : ℚ) * 2 ^ (105 : ℤ) ∧ ((8388608 : ℕ) : ℚ) * 2 ^ (-23 : ℤ) ≤ (Val.fin false 16777215 104).rat) ∧
    ((5 : ℕ) : ℚ) * 2 ^ (-1 : ℤ) = (2 : ℕ) + 1 / 2 ∧
    ((1 : ℕ) : ℚ) * 2 ^ (127 : ℤ) ≤ (Val.fin false 16777215 104).rat * 2 ^ (0 : ℤ) ∧
      (Val.fin false 16777215 104).rat * 2 ^ ((0 : ℤ) - 1) < ((1 : ℕ) : ℚ) * 2 ^ (127 : ℤ) := by
  simp only [Val.rat, RMode.up]
  norm_num

/-- One element of format 1, one of format 4 with another scale. -/
def one1 : FillEl := ⟨0x3F80, 1, 127, cVAL⟩
def one4 : FillEl := ⟨0x38, 4, 128, cVAL⟩
/-- The element as slot `k` of a line. -/
def inSlot (k : Nat) (x : FillEl) : LineEl := ⟨k, x, false⟩
/-- The reset formats. -/
def fts : BitVec 4 → Fmt := core.fmt

/-- What fills and stores are asked: an exact widening, one that is not; a line kept at the largest scale, one that a policy converts, one
that overflows, one of raw bits merged into a partly written line. -/
theorem witness_FillsAndTypedStores :
    (exactWidens 4 1 (fts 4) (fts 1) = true ∧ exactWidens 0 1 (fts 0) (fts 1) = false ∧ (fts 1).represents .nan = true) ∧
    0 < perSeg (fts 1).wid ∧
    ([inSlot 0 one1, inSlot 1 { one1 with scl := 128 }].Pairwise (fun x y => x.slot < y.slot)) ∧
    (∀ x ∈ [inSlot 0 one1, inSlot 1 one1], slotOk (fts 1) x.slot = true) ∧
    ((128 : BitVec 8) ∈ [(127 : BitVec 8), 128] ∧ ∀ z ∈ [(127 : BitVec 8), 128], z ≤ 128) ∧
    ((fts 1).represents ((fts 1).decode false 0x3F80).1 = true ∧ (fts 4).represents ((fts 1).decode false 0x7F7F).1 = false) ∧
    ((fts 4).convert .rne 0 ((fts 1).decode false 0x7F7F).1).2 &&& 0x04 ≠ 0 ∧
    ((BitVec.ofNat 9 (1 * 128 + 4 * 8)).extractLsb' 7 2).toNat = 1 ∧
    (∀ k, k < perSeg 32 → ∃ x ∈ (List.range 32).map fun k => inSlot k one1, x.slot = k) ∧
    (∀ x ∈ [inSlot 3 one1], (inSlot 0 one1).slot < x.slot) ∧ (1000 < 1024 ∧ ∀ x ∈ [inSlot 0 one1, inSlot 3 one1], 1000 / (fts 1).wid ≠ x.slot) := by
  decide +kernel

/-- Both of the tree's heights: one element, and eight. -/
theorem witness_ComparesReductionsAndScans_tree : (granted 1 1 32 exec8).st.grant ≤ 2 ^ 0 ∧ exec8.st.grant ≤ 2 ^ 3 ∧ 2 ^ (3 - 1) < exec8.st.grant ∧
    (∀ f : BitVec 4, (exec8.fmt f).kind = .float → 2 ≤ (exec8.fmt f).wid) ∧ exec8.st.active 7 = true := by decide +kernel

/-- A carried scale, one source's segments all at 130. -/
theorem witness_CommonPathWritesItsElements_carry : fedBy [((carried 130).vreg 8, (carried 130).fmt 1)] 64 64 0 130 ∧
    ((carried 130).core.prick [1, 1]).rule = 1 ∧ (opAdd.linear = true) ∧ segsBelow (carried 130).st.grant 16 = 1 ∧ (carried 130).st.active 63 = true := by
  refine ⟨⟨by decide, by decide, ?_⟩, by decide +kernel⟩
  intro x hx e _ he _
  simp only [List.mem_singleton] at hx
  subst hx
  have h : ∀ e, e < 64 → (((carried 130).vreg 8).seg (e / perSeg ((carried 130).fmt 1).wid)).side.scl = 130 := by decide +kernel
  exact h e (by omega)

/-- A suppressed stage: a jump or a `pfx` in its middle, `sysw` that its word makes illegal. -/
theorem witness_StepOtherTurns_suppressed :
    (let s := looped [⟨0x1000, 0x1004, 0, 2, 3, 0⟩] (user .execute);
      s.st.suppressed = true ∧ (∀ l ∈ s.st.loops, l.last ≠ s.st.pc) ∧ endsNoBody (.jal 0 4) = true ∧ illegalWord s (.jal 0 4) = false ∧
      goesOn (exec (.pfx 4 1 0 0 0 0) { s with dev := paired.dev, st := { s.st with pc := 0x40001000 } }) = true) := by decide +kernel

theorem witness_BranchesGoWhereTheComparisonSays_body :
    (user .cc).x 5 ≠ ((user .cc).setX 6 1).x 6 ∧
    (let s := looped [⟨0x1000, 0x1010, 0, 2, 3, 0⟩] (user .cc); s.x 5 = s.x 6 ∧
      ∃ l ∈ s.st.loops, l.stages ≠ 0 ∧ l.holds (s.st.pc + (1 : BitVec 15).signExtend 64 * 4) = true) := by decide +kernel

/-- A CC outside handler mode, a hart of its gang stopped with a trap. -/
def leaving : State := { (user .cc) with core := { core with strands := [{ strand .execute with run := .trapped }] } }
theorem witness_JumpsAndTransfers_end :
    ((∀ l ∈ leaving.st.loops, l.stages = 0) ∧ leaving.atResident = false ∧ leaving.st.kind = .cc ∧ leaving.core.handler = none ∧
      leaving.st.slot = 0 ∧ leaving.core.gang = some gang ∧ gang.term = none ∧ leaving.lowTrapped.isSome = true) ∧
    (∀ u ∈ (user .cc).core.strands, u.run ≠ .trapped) := by decide +kernel

/-- A queue that no strand has pushed to or popped from; one with all of its slots taken by 7 elements. -/
theorem witness_DeferralsAndTaggedQueues_binding :
    ((exec8.core.queue 0).producer = none ∧ (exec8.core.queue 0).consumer = none ∧ exec8.st.partner = some 1) ∧
    (let s := exec8.setQueue 0 ⟨[⟨.replicate 9 0x3F800000, Memory.tag0.retag 0 127 cVAL 0, 0⟩], none, none⟩;
      (s.core.queue 0).consumer = none ∧ s.st.grant ≤ (s.core.queue 0).count) ∧
    (let s := exec8.setQueue 0 ⟨.replicate 256 ⟨[], 0x7F0, 0⟩, some 1, some 9⟩;
      (s.core.queue 0).count < s.st.grant ∧ (s.core.queue 0).slots.length = 256) ∧
    (exec8.core.queue 0).count < exec8.st.grant ∧ (exec8.core.queue 0).slots.length ≠ 256 ∧
    ({ exec8 with core := { exec8.core with strands := [strand .access] } } : State).hasEnded (some 1) = false ∧
    ((exec8.setQueue 0 ⟨[], none, some 10⟩).core.queue 0).consumer = some 10 := by decide +kernel

/-- A view over a pending operation; a sequence to sample. -/
theorem witness_MatrixRowsAndTiles_views :
    ((ran (.tpeek 0 5) oneOp).st.tile 0).peek = true ∧
    (∃ o r, (oneOp.st.tile 0).ops = o :: r) ∧
    (let s : State := { (user .execute) with st := (strand .execute).setTile 0 { Tile.clear with sampled := true, issued := 1, done := 1 } };
      (s.st.tile 0).pending = 0 ∧ (s.st.tile 0).peek = false ∧ (s.st.tile 0).sampled = true ∧ (s.st.tile 0).issued ≠ 0 ∧ s.calm (s.st.tile 0).flags) := by
  unfold State.calm
  exact ⟨by decide +kernel, ⟨_, _, rfl⟩, by decide +kernel⟩

/-- `threeTags` with its first line poisoned; with a value that BF16 lacks at its second. -/
def poisonedLoad : State := threeTags.putSpad 0 0 (Memory.tag0.retag 1 127 cPOI 0)
def unfitLoad : State := (granted 8 1 16 threeTags).putSpad 0 (.ofNat 1024 (0x3F800001 * 2 ^ 512)) (Memory.tag0.retag 0 127 cVAL 0)
theorem witness_VectorLoads_fails :
    (let r := loadEls 64 ((List.range 160).map fun e => (e, placeAt 16 ((poisonedLoad.x 8).toNat : Int) e)) [] none poisonedLoad;
      r.2.1.isSome = true ∧ (fill poisonedLoad.fmt 1 none poisonedLoad.st.seed r.1).bad = none) ∧
    (let r := loadEls 64 ((List.range 8).map fun e => (e, placeAt 32 ((unfitLoad.x 8).toNat : Int) e)) [] none unfitLoad;
      r.2.1.isNone = true ∧ ((fill unfitLoad.fmt 1 none unfitLoad.st.seed r.1).bad).isSome = true) := by decide +kernel

/-- A strand whose load of scratchpad line 0, once empty, is still to be read. -/
theorem witness_LineTagsAndFullEmptyBits_waits :
    (let s := pending ⟨5, 0, .late padBase 2, 0⟩ (user .access) |>.setX 8 padBase;
      ∃ i, (s.x 8).toNat % 4194304 / 128 ≤ i ∧ i < (s.x 8).toNat % 4194304 / 128 + 1 ∧ s.st.holdsBytes i (BitVec.allOnes 128) = true) ∧
    (let s := (user .access).setX 8 padBase; (s.x 8).toNat % 4194304 / 128 = 0 ∧ s.st.holdsBytes 0 (BitVec.allOnes 128) = false ∧
      s.core.feEmpty.countP (fun i => decide (0 ≤ i ∧ i < 0 + 1)) = 0) := by
  refine ⟨⟨0, by decide +kernel⟩, by decide +kernel⟩

/-- A debug stop of the A-hart holds its copy still, one of the CC the Bobbin. -/
theorem witness_EngineSteps_held :
    (∃ k, inFlight.core.copies.find? (·.id == 0) = some k ∧ inFlight.core.copyHeld k = false ∧
      ({ inFlight.core with dbgHalt := [1] } : Core).copyHeld k = true) ∧ bobState.core.heldStill 0 = false ∧
    (cmdState 0).shuttleTurn 0 = true := by
  refine ⟨⟨_, rfl, by decide +kernel⟩, by decide +kernel⟩

/-- The paths of `acq` and `tryacq` through the home: at the head of the FIFO, with room in the lazy table. -/
theorem witness_ClaspsAreTaken_home :
    after ((claspLine ((clasped 0).x 8)).run (clasped 0)) (fun x u => !clHeld x.2 &&
      (((u.dev.claspHome (x.1.loc / 128)).fifo.takeWhile fun r => !(r.core == u.core.num && r.who == u.st.slot)) == []) &&
      (let w := (u.enqueueClasp (x.1.loc / 128) false).progress (x.1.loc / 128); !w.roomWaits (x.1.loc / 128)) &&
      (let z := (u.enqueueClasp (x.1.loc / 128) true).progress (x.1.loc / 128); z.dev.grantable (x.1.loc / 128) && !z.roomWaits (x.1.loc / 128) &&
        okay ((grantLock x.1 0x40000 (z.dev.homeLine x.1).1).run z))) = true ∧
    (let s := { (clasped (5 * 2 ^ 80)) with dev := { (clasped (5 * 2 ^ 80)).dev with clasps := [{ home0 with retainer := some 5 }], cores := [{ handing.core with num := 5, lazy := [{ entry0 with held := false, ranges := [(0x40080, 128)] }] }] } };
      after ((claspLine (s.x 8)).run s) (fun x u => !clHeld x.2 &&
        (let z := (u.enqueueClasp (x.1.loc / 128) true).progress (x.1.loc / 128); !(z.dev.grantable (x.1.loc / 128) && !z.roomWaits (x.1.loc / 128)))) = true) ∧
    after ((claspLine (holding.x 8)).run holding) (fun x u => u.holds x.2) = true := by decide +kernel

theorem witness_ClaspMessages_grant :
    (∃ r q, (othersAhead.dev.claspHome claspNo).fifo = r :: q ∧ r.core < 65536) ∧
    (let s : State := { (clasped 0) with dev := { (clasped 0).dev with clasps := [{ home0 with fifo := [⟨65536 + 5, 0, false⟩] }] } };
      (∃ r q, (s.dev.claspHome claspNo).fifo = r :: q ∧ 65536 ≤ r.core) ∧ s.dev.grantable claspNo = true) ∧
    (due0.dueRecall recallSent claspNo).dev.releaserOf claspNo < 65536 := by
  refine ⟨⟨_, _, rfl, by decide⟩, ⟨⟨_, _, rfl, by decide⟩, by decide +kernel⟩, by decide +kernel⟩

/-- A record judged in each way: no partition, no entry point, admitted, on a core that is off, too large for a scratchpad, with a refit, without one. -/
def judging (r : Nat) : Nat × Nat := oneCore.judge (.ofNat 1024 r) true (oneCore.part 1)
theorem witness_LaunchesRunThrough_judge :
    oneCore.judge (.ofNat 1024 record) true none = (3, 0) ∧ judging (record - 0x1000) = (3, 0) ∧ judging (record + 2 ^ 641) = (0, 0) ∧
    judging (record + 2 ^ 641 - 2 ^ 640) = (4, 0) ∧ judging (record + 2 ^ 736 * 4095) = (2, 0) ∧ judging record = (0, 0) ∧
    judging (record + 2 ^ 725 * 3 + 2 ^ 728 * 17 + 2 ^ 714) = (1, 0) ∧ judging (record + 2 ^ 725 * 3 + 2 ^ 728 * 17) = (2, 0) := by decide +kernel

theorem witness_TranslationsAndFaultRecords_place :
    (∀ p, serving.dev.part 1 = some p → serving.dev.turningAt (p.fbase.toNat / 4096 * 4096 + 64 * (p.fhead.toNat % 2 ^ (p.fbase.toNat % 32))) = false) ∧
    (let d : Dev := { serving.dev with mem := serving.dev.mem.writeN (0x60000 + 32 * 7) 32 (2 ^ 192 * 0x70000 + 2 ^ 52 + 2 ^ 64) };
      (d.rmLook 0x70000).any rmTurning = true ∧ d.turningAt 0x70000 = true) := by decide +kernel

/-- Nothing turns where there is no remap table. -/
theorem nothing_turns (d : Dev) (h : d.rmLgn = 0) (at_ n : Nat) : d.turnsIn at_ n = false := by
  simp [Dev.turnsIn, Dev.turningAt, Dev.rmLook, Dev.rmIn, h]
theorem witness_GangsAreSavedAndRestored_waits :
    (∀ at_ n, residentGang.dev.turnsIn at_ n = false) ∧ loading.dev.turnsIn 0x71000 64 = false ∧ requeued.dev.turningAt 0x71000 = false ∧
    contFull 1 [] = true ∧ loading.dev.contDir 0x71000 0 0 = [] := ⟨fun _ _ => nothing_turns _ rfl _ _, by decide +kernel⟩

/-- Restores that are answered 1 to 5. -/
def loadAnswer (h : Nat) : Nat :=
  ({ loading with dev := { loading.dev with mem := oneCore.mem.writeN (lower 0x71000) 64 h } } : State).loadStatus 0x71000
theorem witness_GangsAreSavedAndRestored_statuses :
    loadAnswer (header + 1) = 1 ∧ loadAnswer (header - 2 ^ 208) = 2 ∧ loadAnswer (header + 2 ^ 296) = 3 ∧ loadAnswer header = 0 ∧
    ({ loading with core := residentGang.core } : State).loadStatus 0x71000 = 4 ∧ loadAnswer (header + 2 ^ 416) = 5 := by decide +kernel

/-- A CC over one flash page, its stack with a block worn and one retired. -/
def flashed : State := { (inMem .cc) with dev := { mapped with
  mem := mapped.mem.writeN (0x60000 + 32 * 4) 32 (2 ^ 52 * 3 + 2 ^ 56)
  config := .ofNat 4096 (2 ^ 3228), flash := dev.flash.set 0 ⟨[(0, 5)], [(5, 3)], [9], [7, 8]⟩ } }.setX 8 0x40000
theorem witness_LayerInstructions_flash :
    (∃ p u, (pageAt layered.via nLoad 4 0x40000).run layered = .ok (p, u) ∧ (p.look nLoad.kind true).run u = .ok ((), u) ∧ rmLayer p.ent ≠ 3) ∧
    (∃ p u, (pageAt flashed.via nLoad 4 0x40000).run flashed = .ok (p, u) ∧ (p.look nLoad.kind true).run u = .ok ((), u) ∧ rmLayer p.ent = 3) ∧
    (flashed.dev.stackOf 0).leastWorn.isSome = true := ⟨⟨_, _, rfl, rfl, by decide +kernel⟩, ⟨_, _, rfl, rfl, by decide +kernel⟩, by decide +kernel⟩

/-- Two lines of flash, the second beyond correction. -/
def staging : Dev := { dev with stage := 1, flashBad := [48 * 2 ^ 57 + 1] }
theorem witness_LayerSteps_staging : staging.lineBad (48 * 2 ^ 57 * 128) = false ∧ staging.lineBad ((48 * 2 ^ 57 + 1) * 128) = true ∧
    staging.staged = [] ∧ staging.stage ≠ 0 ∧ 48 ≤ spaceOf ((48 * 2 ^ 57 + 1) * 128) ∧ spaceOf ((48 * 2 ^ 57 + 1) * 128) < 64 := by decide +kernel

/-- Flits in sequence for this device: of TYPE 2, and of TYPE 1 with a clasp request. -/
def sealed (f : BitVec 2048) : BitVec 2048 := f ||| ((flitCrc f).setWidth 2048 <<< 1984)
def flitOther : BitVec 2048 := sealed (.ofNat 2048 (2 ^ 104 + 2 ^ 73))
def requestHead : BitVec 128 := .ofNat 128 (0x10 * 2 ^ 24 + 0x40000 * 2 ^ 64 + 7 * 2 ^ 48 + 3)
def flitRequest : BitVec 2048 := sealed (.ofNat 2048 (2 ^ 104 + 2 ^ 72 + requestHead.toNat * 2 ^ 192))
theorem witness_FabricMessages_here : flitCrc flitOther = flitOther.extractLsb' 1984 64 ∧
    flitOther.extractLsb' 104 12 = ((dev.links[3]'(by decide)).ack + 1) ∧ flitOther.extractLsb' 88 8 = dev.num ∧ flitOther.extractLsb' 72 8 ≠ 1 := by
  decide +kernel
theorem witness_FabricMessages_message : flitCrc flitRequest = flitRequest.extractLsb' 1984 64 ∧
    flitRequest.extractLsb' 104 12 = ((dev.links[3]'(by decide)).ack + 1) ∧ flitRequest.extractLsb' 88 8 = dev.num ∧
    flitRequest.extractLsb' 72 8 = 1 ∧ (requestHead.extractLsb' 24 8 = 0x10 ∧ requestHead.getLsbD 21 = false) ∧
    (mapped.dpaLook 0x40000).isSome = true := by decide +kernel
theorem test_flit_with_a_request : ((ran (.lacingFlit 3 flitRequest) (inMem .cc)).dev.claspHome claspNo).fifo = [⟨foreignCore 3 7, 0, false⟩] := by
  decide +kernel

/-- Whether an address is found by an access of a KIND in a scratchpad, a memory line, or a compressed block. -/
def foundIn (s : State) (kind : BitVec 8) (va : Word) (p : Tr → Bool) : Bool :=
  match s.dev.translate s.via ⟨false, false, kind == 0, false, false, kind⟩ va with
  | .ok (some (tr, _)) => p tr
  | _ => false
theorem witness_SystemEvents_errors :
    (290 : Nat) ≥ 288 ∧ (mapped.rmLook 0x40000).isSome = true ∧
    (let s := { copying with core := { copying.core with far := [⟨lower 0x40000 / 128, 0x40000, 1, 0, 0, 1, none, false⟩] } };
      (s.core.far.find? (fun f => f.loc == lower 0x40000 / 128)).isSome = true) ∧
    foundIn (inMem .access) 1 padBase (·.spad) = true ∧
    foundIn (inMem .access) 1 0x40000 (fun tr => !tr.spad && (mapped.sector tr).isNone) = true ∧
    ((inMem .access).viaKey (inMem .access).via.key = (inMem .access).via) ∧
    (∃ k me, (inMem .access).finder 0 = some (k, me) ∧ k < 4096) ∧ (∃ k me, inFlight.finder 1 = some (k, me) ∧ k < 4096) ∧
    ((user .cc).owned (diedLine * 128) = false ∧ (user .cc).dev.entryActive (diedLine * 128) = false ∧ tokensOwned.owned (diedLine * 128) = true) := by
  refine ⟨by decide, by decide +kernel, by decide +kernel, by decide +kernel, by decide +kernel, by decide +kernel, ⟨_, _, rfl, by decide +kernel⟩,
    ⟨_, _, rfl, by decide +kernel⟩, by decide +kernel⟩

theorem witness_SystemEvents_debug :
    (let s : State := { (user .cc) with dev := { (user .cc).dev with dbgLevel := 2 } }; s.core.pwr ≠ 3 ∧ 2 ≤ s.debugLevel 2) ∧
    (serving.dev.part (serving.dev.partOfCore serving.core.num)).isSome = true ∧ (alone 3 .ended 1).core.pwr = 3 ∧ (alone 3 .ended 1).core.eventDue = true ∧
    ({ core with dbgHalt := [1] } : Core).heldStill 1 = true ∧ core.heldStill 1 = false ∧ (alone 2 .ended 1).core.pwr = 2 ∧
    (alone 1 .running 0).wholeCore.wakes = true ∧ (alone 0 .ended 0).wholeCore.wakes = false := by decide +kernel

/-- A device whose next bring-up finds everything in order, or memory that fails. -/
def bring (ok : Bool) : Dev := { State.reset.dev with bringUps := [⟨BitVec.allOnes 4096, ok, true, 0x1000, 0, []⟩] }
theorem witness_SystemEvents_bringUp : recordOk (bring true).record = true ∧ (bring true).nextUp.memoryOk = true ∧ (bring true).nextUp.digestOk = true ∧
    (bring true).nextUp.rvec = 0x1000 ∧ (bring false).nextUp.memoryOk = false ∧ (3214 : Nat) ≤ 3488 ∧ (3488 : Nat) < 3776 := by decide +kernel

end Sys2Proof.Tests
end

/-! SUPPORT. Instruction fetch at the resident level without a root and a remap table (R111, R324, R348): where its translation
goes, and when it waits for the owner of its line (R236, R260). -/

namespace Sys2Proof.Machine

/-- An address that is used as it is: its own location, outside the scratchpad (R324; log 2). -/
def Tr.untranslated (va : Word) : Tr := ⟨false, va.toNat, pteRaw, 0, va.toNat, va, true, false⟩

/-- The resident level without a root accesses memory untranslated (R322, R324). -/
theorem via_raw_of_resident (s : State) (hres : s.atResident = true) (hroot : s.core.rroot = 0) : s.via.raw = true := by
  simp [State.via, hres, hroot]

/-- While there is no remap table, an untranslated fetch finds every address at its own location and caches nothing (R348). -/
theorem translate_fetch_raw (d : Dev) (v : Via) (va : Word) (hraw : v.raw = true) (hmap : d.rmLgn = 0) :
    d.translate v nFetch va = .ok (some (Tr.untranslated va, d)) := by
  have hfree : d.rmFree va.toNat = true := by simp [Dev.rmFree, hmap]
  simp [Dev.translate, Dev.trHere, nFetch, hraw, hfree, Tr.untranslated]

/-- An untranslated fetch waits while an engine owns the line of its address (R260). -/
theorem run_fetchAt_raw_owned (s : State) (v : Via) (pc : Word) (hraw : v.raw = true) (hmap : s.dev.rmLgn = 0)
    (hown : s.owned pc.toNat = true) : (fetchAt v pc).run s = .error .wait := by
  have hwait : s.mustWait (Tr.untranslated pc) false = true := by simp [State.mustWait, Tr.untranslated, hown]
  have htr : (translate v nFetch pc).run s = .ok (Tr.untranslated pc, s) := by
    simp only [translate, translateAt, run_bind, run_get, translate_fetch_raw s.dev v pc hraw hmap, run_set, run_pure]
  have hicc : (pteIcc (Tr.untranslated pc).pte && !(Tr.untranslated pc).raw) = false := by simp [Tr.untranslated]
  simp only [fetchAt, run_bind, htr, run_get, hicc, hwait, Bool.false_eq_true, if_false, if_true, run_stop]

/-- A gang that is saved with a copy in flight: its Shuttle owns the line at location 0 until the copy lands after the restore
(R236, R260). -/
def gangSavedWithCopy : SavedGang where
  ctx := 1
  launch := 1
  iter := 0
  core := 0
  body := { Core.fresh 4096 0 false with
    copies := [⟨0, 0, 1, 4, 1, 1, 0, .move, 16, [⟨0, some 0, none, []⟩], none, none, [], none, 0, []⟩] }
  at_ := some 0x10000
  out := false
  place := 0x10000

/-- A core whose CC is at the resident level at pc 0, on a device of no other core as bring-up leaves it, with that gang in a
container. -/
def residentWithSavedGang : State where
  st := .bootCc 0
  core := Core.fresh 0 0 false
  dev := { Dev.boot configFull configFull with cores := [], saved := [gangSavedWithCopy] }
  agenda := []

/-- Refutes O6: the statement excludes the copies of the running cores as owners of the line but not those of saved gangs, for which
a fetch waits too (R236, R260). -/
theorem not_fetchReadsFourBytes : ¬ Obligations.FetchReadsFourBytes := by
  unfold Obligations.FetchReadsFourBytes
  intro h
  have hres : residentWithSavedGang.atResident = true := by decide
  have hroot : residentWithSavedGang.core.rroot = 0 := by decide
  have hmap : residentWithSavedGang.dev.rmLgn = 0 := by decide
  have hown : residentWithSavedGang.owned residentWithSavedGang.st.pc.toNat = true := by decide
  have hwaits := run_fetchAt_raw_owned _ _ _ (via_raw_of_resident _ hres hroot) hmap hown
  have hreads := h _ hres hroot hmap (by decide) (by decide) (by decide) (by decide) (by decide) (by decide) (by decide)
  rw [hwaits] at hreads
  cases hreads

end Sys2Proof.Machine

/-! SUPPORT. The system's events of file 20, an equation for each of their cases: soft errors and scrubs (R381 to R383), machine
checks (R384), partitions (R387), the debug port (R391, R392), power (R20, R393), the record and bring-up (R385, R394). -/

namespace Sys2Proof.Machine

/-! ### A line made POI (R382) -/

/-- Posting a fault changes no memory (R317). -/
theorem postFault_mem (s : State) (p : Nat) (r : FaultRec) (y : Option Party) : (s.postFault p r y).1.dev.mem = s.dev.mem := by
  unfold State.postFault
  split <;> simp

/-- A line made POI is written at its home, but flash is not written (R15, R382). -/
theorem poisonAt_mem (d : Dev) (loc : Nat) :
    (d.poisonAt loc).mem = if inFlash loc then d.mem else (d.putLineAt loc 0 (d.lineAt loc).2.toPoi).mem := by
  unfold Dev.poisonAt
  split <;> rfl

/-- Making a line POI changes the device alone. -/
theorem poison_frame (s : State) (loc : Nat) (r : Nat → FaultRec) :
    ∃ d, s.poison loc r = { s with dev := d } ∧ d.mem = (s.dev.poisonAt loc).mem := by
  unfold State.poison
  cases s.dev.dpaOf loc with
  | none => exact ⟨_, rfl, rfl⟩
  | some a =>
    obtain ⟨d, hd⟩ := postFault_frame { s with dev := s.dev.poisonAt loc } ((s.dev.poisonAt loc).partOfDpa a) (r (a / 128 * 128)) none
    refine ⟨d, hd, ?_⟩
    simpa [hd] using postFault_mem { s with dev := s.dev.poisonAt loc } ((s.dev.poisonAt loc).partOfDpa a) (r (a / 128 * 128)) none

/-! ### Corrected and uncorrectable errors (R381, R382, R369) -/

/-- Numbers below 288 are cores. -/
theorem execCorrectedError_core (core : Nat) (s : State) (h : core < 288) :
    execCorrectedError core s = .next (s.updCoreAt core fun c => { c with errcnt := c.errcnt + 1 }) :=
  congrArg Host.Outcome.next (if_pos h)

/-- Numbers from 288 on are dies (log 152). -/
theorem execCorrectedError_die (core : Nat) (s : State) (h : 288 ≤ core) :
    execCorrectedError core s =
      .next { s with dev := { s.dev with dieErr := s.dev.dieErr.mapIdx fun i n => if i = core - 288 then n + 1 else n } } :=
  congrArg Host.Outcome.next (if_neg (Nat.not_lt.mpr h))

/-- A die counts the error and changes nothing else. -/
theorem execCorrectedError_die_counts (core : Nat) (s : State) (h : 288 ≤ core) :
    ∃ t, execCorrectedError core s = .next t ∧ t = { s with dev := { s.dev with dieErr := t.dev.dieErr } } ∧
      ∀ (n : Nat) (hn : n < 6), t.dev.dieErr[n]'hn = (s.dev.dieErr[n]'hn) + (if n = core - 288 then 1 else 0) := by
  refine ⟨_, execCorrectedError_die core s h, rfl, fun n hn => ?_⟩
  by_cases hd : n = core - 288 <;> simp [hd]

/-- A register lost by a strand of a gang ends the gang's context, with a record that names the strand (R382). -/
theorem lostRegister_of_gang (s : State) (n : Nat) (h : s.core.gang.isSome = true) :
    ∃ r, s.lostRegister n = (s.postFault s.core.partId r none).1.terminateCtx s.core.ctxId ∧ r.cls = 6 ∧ r.code = 1 ∧ r.who = whoOfSlot n := by
  have hg : s.core.gang.isNone = false := by simpa [Option.isNone_iff_eq_none, Option.isSome_iff_ne_none] using h
  exact ⟨_, by rw [State.lostRegister, hg]; rfl, rfl, rfl, rfl⟩

/-- A register of no context is a structure of no context (R384). -/
theorem lostRegister_of_no_gang (s : State) (n : Nat) (h : s.core.gang = none) : s.lostRegister n = s.machineCheckCore := by
  simp [State.lostRegister, h]

theorem lostEngine_of_ctx (s : State) (e : BitVec 8) (key : Nat) (me : FaultRec → FaultRec) (h : s.finder e = some (key, me)) (hk : key < 4096) :
    s.lostEngine e = (s.postFault (s.dev.partOfCtx key) (me (s.mkFault 6 1 0 0 0 0)) none).1.terminateCtx key := by
  simp [State.lostEngine, h, Nat.not_le.mpr hk]

theorem blockLost_of_entry (s : State) (dpa : Nat) (e : BitVec 256) (h : s.dev.rmLook dpa = some e) :
    s.blockLost dpa = s.badBlock (s.dev.locOf e 0 + 16 * (dpa % 65536 / 4096)) (dpa / 4096 * 4096) (hardRecord s.dev.num 0) := by
  simp [State.blockLost, h]

/-- A far copy lost is dropped; its home line becomes POI where the copy was dirty (Table 20.1). -/
theorem execUncorrectableError_farCopy (s : State) (n : Nat) (f : FarCopy) (h : s.core.far.find? (fun f => f.loc == n) = some f) :
    execUncorrectableError .farCopy n s =
      .next (if f.dirty = 0 then { s with core := s.core.dropFar (n * 128) }
        else ({ s with core := s.core.dropFar (n * 128) } : State).poison (n * 128) (hardRecord s.dev.num)) := by
  simp only [execUncorrectableError, h]

/-- Engine 0 is the acting strand: its own translation, and a record as it is. -/
theorem finder_strand (s : State) : s.finder 0 = some (s.via.key, id) := rfl

/-! What an access of the acting strand finds, by where its translation answers. -/
section
variable (s : State) (kind : BitVec 8) (va : Word) (tr : Tr) (d : Dev)
  (htr : s.dev.translate s.via ⟨false, false, kind == 0, false, false, kind⟩ va = .ok (some (tr, d))) (hvia : s.viaKey s.via.key = s.via)
include htr hvia

theorem foundAt_strand_spad (hs : tr.spad = true) : s.foundAt 0 kind va = s.putSpad tr.loc 0 (s.core.spad.tag tr.loc).toPoi := by
  simp only [State.foundAt, finder_strand, hvia, htr, hs, if_true, State.poisonSpad]

theorem foundAt_strand_line (hs : tr.spad = false) (hb : s.dev.sector tr = none) :
    s.foundAt 0 kind va = s.poison tr.loc fun a => s.mkFault 6 2 kind tr.va a 0 := by
  simp only [State.foundAt, finder_strand, hvia, htr, hs, hb, Bool.false_eq_true, if_false, id_eq]

theorem foundAt_strand_block (k at_ : Nat) (hs : tr.spad = false) (hb : s.dev.sector tr = some (k, at_)) :
    s.foundAt 0 kind va = s.badBlock at_ (tr.dpa / 4096 * 4096) (s.mkFault 4 3 kind tr.va 0 0) := by
  simp only [State.foundAt, finder_strand, hvia, htr, hs, hb, Bool.false_eq_true, if_false, id_eq]

end

/-! ### Scrubs (R383) -/

/-- A scrub of a home line waits while an engine owns the line or its entry is at the arbiter. -/
theorem execScrub_home_waits (n : Nat) (s : State) (h : s.owned (n * 128) = true ∨ s.dev.entryActive (n * 128) = true) :
    execScrub (.home n) true s = .next s := by
  simp [execScrub, h]

theorem execScrub_home_poisons (n : Nat) (s : State) (ho : s.owned (n * 128) = false) (ha : s.dev.entryActive (n * 128) = false) :
    execScrub (.home n) true s = .next (s.poison (n * 128) (hardRecord s.dev.num)) := by
  simp [execScrub, ho, ha]

/-! ### Partitions (R387) -/

/-- A partition found lies in the table of 24. -/
theorem part_eq_some_iff (d : Dev) (n : Nat) (p : Part) : d.part n = some p ↔ n ≠ 0 ∧ ∃ h : n - 1 < 24, d.parts[n - 1] = p := by
  by_cases hn : n = 0 <;> simp [Dev.part, hn, Vector.getElem?_eq_some_iff]

/-- A partition reads as it was changed, if there is one. -/
theorem part_updPart_same (d : Dev) (n : Nat) (f : Part → Part) : (d.updPart n f).part n = (d.part n).map f := by
  by_cases h : n ≠ 0 ∧ n - 1 < 24
  · simp [Dev.part, Dev.updPart, h.1, h.2]
  · have hnone : d.part n = none := by
      rw [Option.eq_none_iff_forall_ne_some]
      intro p hp
      obtain ⟨hn, hlt, -⟩ := (part_eq_some_iff d n p).mp hp
      exact h ⟨hn, hlt⟩
    simp [Dev.updPart, h, hnone]

/-- A partition whose EN became 1 begins with its entry. -/
theorem execPartitionEnable_begins (s : State) (n : Nat) (p : Part) (hp : s.dev.part n = some p) (hoff : p.on = false)
    (hen : entryOn (s.dev.partEntry n) = true) :
    ∃ t q, execPartitionEnable n s = .next t ∧ t.dev.part n = some q ∧ q.on = true ∧ q.ent = s.dev.partEntry n :=
  ⟨_, { p with on := true, ent := s.dev.partEntry n }, rfl, by simp [part_updPart_same, hp, hoff, hen], rfl, rfl⟩

/-- A partition whose EN returned to 0 ends. -/
theorem execPartitionDisable_ends (s : State) (n : Nat) (p : Part) (hp : s.dev.part n = some p) (hon : p.on = true)
    (hen : entryOn (s.dev.partEntry n) = false) :
    ∃ t, execPartitionDisable n s = .next t ∧ ∀ q, t.dev.part n = some q → q.on = false := by
  simp only [execPartitionDisable, hen, hp, hon, Option.any_some, Bool.not_true, Bool.or_false, Bool.false_eq_true, if_false]
  refine ⟨_, rfl, fun q hq => ?_⟩
  obtain ⟨x, -, rfl⟩ := Option.map_eq_some_iff.mp ((part_updPart_same _ n _).symm.trans hq)
  rfl

theorem execPartitionDisable_of_en (s : State) (n : Nat) (hen : entryOn (s.dev.partEntry n) = true) : execPartitionDisable n s = .next s := by
  simp [execPartitionDisable, hen]

/-! ### The debug port (R391, R392) -/

/-- A request other than a decision on a token sets the level asked for, and acts only with invasive rights and on a core that is not
off (Tables 20.4, 20.5). -/
theorem execDebugStop_request (level : BitVec 2) (n : Nat) (q : DebugReq) (s : State) (hq : ∀ c, q ≠ .consent c ∧ q ≠ .expire c) :
    execDebugStop level n q s =
      let asked : State := { s with dev := { s.dev with dbgLevel := level } }
      .next (if s.core.pwr = 3 ∨ asked.debugLevel level.toNat < 2 then asked else asked.forDebug.debugAct n q) := by
  cases q with
  | consent c => exact absurd rfl (hq c).1
  | expire c => exact absurd rfl (hq c).2
  | halt | go | step | writeX | writeV | writeSys | writeMem | read => rfl

theorem execDebugStop_refused (level : BitVec 2) (n : Nat) (q : DebugReq) (s : State) (hq : ∀ c, q ≠ .consent c ∧ q ≠ .expire c)
    (h : s.core.pwr = 3 ∨ ({ s with dev := { s.dev with dbgLevel := level } } : State).debugLevel level.toNat < 2) :
    execDebugStop level n q s = .next { s with dev := { s.dev with dbgLevel := level } } := by
  rw [execDebugStop_request level n q s hq]
  exact congrArg _ (if_pos h)

theorem execDebugStop_acts (level : BitVec 2) (n : Nat) (q : DebugReq) (s : State) (hq : ∀ c, q ≠ .consent c ∧ q ≠ .expire c)
    (hp : s.core.pwr ≠ 3) (hl : 2 ≤ ({ s with dev := { s.dev with dbgLevel := level } } : State).debugLevel level.toNat) :
    execDebugStop level n q s = .next (({ s with dev := { s.dev with dbgLevel := level } } : State).forDebug.debugAct n q) := by
  rw [execDebugStop_request level n q s hq]
  exact congrArg _ (if_neg (not_or.mpr ⟨hp, Nat.not_lt.mpr hl⟩))

/-- The effective level is the least of what the port asks, DBG, and the limit of Table 20.4. -/
theorem debugLevel_eq_min (s : State) (n : Nat) (p : Part) (hp : s.dev.part (s.dev.partOfCore s.core.num) = some p) :
    s.debugLevel n = Nat.min (Nat.min n (p.ent.extractLsb' 244 2).toNat)
      (if p.ent.extractLsb' 246 2 ≠ 0 ∧ s.core.ctxId ∉ s.dev.consent then 1 else 2) := by
  have hsecure : (p.secure && !s.dev.consent.contains s.core.ctxId) = true ↔
      p.ent.extractLsb' 246 2 ≠ 0 ∧ s.core.ctxId ∉ s.dev.consent := by
    simp [Part.secure]
  simp only [State.debugLevel, hp, hsecure, Part.dbgMax, Nat.min_def]
  split <;> split_ifs <;> omega

/-- A core whose clock is gated is active while the debug port acts on it (Table 20.5). -/
theorem forDebug_of_gated (s : State) (h : s.core.pwr = 1) : s.forDebug = { s with core := { s.core with pwr := 0 } } := by
  have hne : s.core.pwr ≠ 2 := by rw [h]; decide
  rw [State.forDebug, if_neg hne, State.ungated, if_pos h]

/-- A strand that the debug port halts is among those that it holds. -/
theorem mem_dbgHalt_debugHalt (s : State) (n : Nat) : n ∈ (s.debugHalt n).core.dbgHalt := by
  have hadd (l : List Nat) : n ∈ if l.contains n then l else n :: l := by
    by_cases h : n ∈ l <;> simp [h]
  simpa only [State.debugHalt] using hadd _

/-! ### Power (R20, R393) -/

/-- With its clock gated or active, or with no event and no work, a core stays as it is. -/
theorem execPowerWake_stays (s : State) (h : s.core.eventDue = false ∧ s.core.assigned = none ∨ s.core.pwr.toNat < 2) :
    execPowerWake s = .next s := by
  rcases h with ⟨he, ha⟩ | hp
  · simp [execPowerWake, he, ha]
  · simp [execPowerWake, hp]

/-- A core that sleeps wakes for an event or for work: from retention as it is, from off as `Core.wake` says. -/
theorem execPowerWake_wakes (s : State) (hp : 2 ≤ s.core.pwr.toNat) (h : s.core.eventDue = true ∨ s.core.assigned.isSome = true) :
    execPowerWake s = .next (if s.core.pwr = 2 then { s with core := { s.core with pwr := 0 } } else s.onCore fun d c => (d, c.wake d)) := by
  have hor : (s.core.eventDue || s.core.assigned.isSome) = true := by simpa using h
  simp only [execPowerWake, hor, Bool.true_eq_false, or_false, Nat.not_lt.mpr hp, if_false]

/-- A core left with its CC alone has that CC acting, whichever strand acted before. -/
theorem onCore_of_single (s : State) (f : Dev → Core → Dev × Core) (t : Strand) (ht : t.slot = 0)
    (h : (f s.dev s.wholeCore).2.strands = [t]) :
    s.onCore f = { s with dev := (f s.dev s.wholeCore).1, st := t, core := { (f s.dev s.wholeCore).2 with strands := [] } } := by
  simp only [State.onCore, h]
  by_cases hs : s.st.slot = 0
  · simp [ht, hs]
  · simp [ht, Ne.symm hs]

/-- Leaving off is as from reset: the CC is at RVEC of the running configuration (R324, R393). -/
theorem execPowerWake_off (s : State) (hp : s.core.pwr = 3) (h : s.core.eventDue = true ∨ s.core.assigned.isSome = true) :
    execPowerWake s = .next { s with st := .bootCc (configRvec s.dev.config), core := { s.wholeCore.wake s.dev with strands := [] } } := by
  have hne : s.core.pwr ≠ 2 := by rw [hp]; decide
  rw [execPowerWake_wakes s (by rw [hp]; decide) h, if_neg hne,
    onCore_of_single s (fun d c => (d, c.wake d)) (.bootCc (configRvec s.dev.config)) rfl rfl]

theorem execClockGate_gates (s : State) (hp : s.core.pwr = 0) (hw : s.wholeCore.wakes = false) (hd : s.core.dbgHalt = []) :
    execClockGate s = .next { s with core := { s.core with pwr := 1 } } := by
  simp [execClockGate, hp, hw, hd]

theorem execClockGate_ungates (s : State) (hp : s.core.pwr = 1) (hw : s.wholeCore.wakes = true) :
    execClockGate s = .next { s with core := { s.core with pwr := 0 } } := by
  simp [execClockGate, hp, hw]

theorem execOperatingPointChange_idle (point : Nat) (s : State) (h : ∀ c ∈ s.allCores, s.dev.coreOn c.num = true → c.active = false) :
    execOperatingPointChange point s = .next { s with dev := { s.dev with opPoint := point } } := by
  have hany : (s.allCores.any fun c => s.dev.coreOn c.num && c.active) = false := by
    simpa [List.any_eq_false] using h
  simp [execOperatingPointChange, hany]

theorem execOperatingPointChange_busy (point : Nat) (s : State) (h : ∃ c ∈ s.allCores, s.dev.coreOn c.num = true ∧ c.active = true) :
    execOperatingPointChange point s = .next s := by
  have hany : (s.allCores.any fun c => s.dev.coreOn c.num && c.active) = true := by
    simpa [List.any_eq_true] using h
  simp [execOperatingPointChange, hany]

/-! ### The running configuration (R385, Table 20.2) -/

/-- Two fields beside each other read bit by bit: one of `w` bits from `lo` on, and one from `hi` on. -/
theorem testBit_two_fields (a b lo w hi n : Nat) (hb : b < 2 ^ w) (h : lo + w ≤ hi) :
    (b * 2 ^ lo + a * 2 ^ hi).testBit n = if n < hi then decide (lo ≤ n) && b.testBit (n - lo) else a.testBit (n - hi) := by
  have hlow : b * 2 ^ lo < 2 ^ hi := calc
    b * 2 ^ lo < 2 ^ w * 2 ^ lo := Nat.mul_lt_mul_of_pos_right hb (Nat.two_pow_pos lo)
    _ = 2 ^ (lo + w) := by rw [← Nat.pow_add, Nat.add_comm]
    _ ≤ 2 ^ hi := Nat.pow_le_pow_right (by decide) h
  rw [Nat.add_comm, Nat.mul_comm a, Nat.testBit_two_pow_mul_add a hlow, Nat.testBit_mul_two_pow]

/-- What the controller writes: RVEC from bit 3120 and DEVNUM from bit 3192 on (R385). -/
theorem testBit_written (k : BringUp) (n : Nat) :
    (k.rvec.toNat * 2 ^ 3120 + k.devnum.toNat * 2 ^ 3192).testBit n =
      if n < 3192 then decide (3120 ≤ n) && k.rvec.getLsbD (n - 3120) else k.devnum.getLsbD (n - 3192) :=
  testBit_two_fields k.devnum.toNat k.rvec.toNat 3120 64 3192 n k.rvec.isLt (by decide)

/-- The bits of the record that the controller's fields replace. -/
theorem testBit_replaced (n : Nat) :
    ((2 ^ 64 - 1) * 2 ^ 3120 + (2 ^ 8 - 1) * 2 ^ 3192 : Nat).testBit n =
      if n < 3192 then decide (3120 ≤ n) && decide (n - 3120 < 64) else decide (n - 3192 < 8) := by
  rw [testBit_two_fields (2 ^ 8 - 1) (2 ^ 64 - 1) 3120 64 3192 n (by decide) (by decide)]
  simp only [Nat.testBit_two_pow_sub_one]

/-- The bits that enable units: [3775:3214] (Table 20.2). -/
theorem testBit_units (n : Nat) : ((2 ^ 562 - 1) * 2 ^ 3214 : Nat).testBit n = (decide (3214 ≤ n) && decide (n - 3214 < 562)) := by
  rw [Nat.testBit_mul_two_pow, Nat.testBit_two_pow_sub_one]

/-- A bit of the running configuration: what the controller writes, or a bit of the record outside its fields, of a unit only where
its step succeeded. -/
theorem getLsbD_runningConfig (k : BringUp) (r : BitVec 4096) (n : Nat) (hn : n < 4096) :
    (runningConfig k r).getLsbD n =
      ((r.getLsbD n && (k.works.getLsbD n || !(decide (3214 ≤ n) && decide (n - 3214 < 562))) &&
          !(if n < 3192 then decide (3120 ≤ n) && decide (n - 3120 < 64) else decide (n - 3192 < 8))) ||
        (if n < 3192 then decide (3120 ≤ n) && k.rvec.getLsbD (n - 3120) else k.devnum.getLsbD (n - 3192))) := by
  simp only [runningConfig, configUnits, BitVec.getLsbD_or, BitVec.getLsbD_and, BitVec.getLsbD_not, BitVec.getLsbD_ofNat, hn,
    decide_true, Bool.true_and, testBit_written, testBit_replaced, testBit_units]

/-- The controller writes RVEC (R385, R394). -/
theorem configRvec_runningConfig (k : BringUp) (r : BitVec 4096) : configRvec (runningConfig k r) = k.rvec := by
  refine BitVec.eq_of_getLsbD_eq fun i hi => ?_
  have hlow : 3120 + i < 3192 := by omega
  simp only [configRvec, BitVec.getLsbD_extractLsb', getLsbD_runningConfig k r (3120 + i) (by omega), hi, hlow, if_true,
    Nat.le_add_right, Nat.add_sub_cancel_left, decide_true, Bool.true_and, Bool.not_true, Bool.and_false, Bool.false_or]

/-- The controller writes DEVNUM (R385, R394). -/
theorem devnum_runningConfig (k : BringUp) (r : BitVec 4096) : (runningConfig k r).extractLsb' 3192 8 = k.devnum := by
  refine BitVec.eq_of_getLsbD_eq fun i hi => ?_
  have hhigh : ¬ 3192 + i < 3192 := by omega
  simp only [BitVec.getLsbD_extractLsb', getLsbD_runningConfig k r (3192 + i) (by omega), hi, hhigh, if_false,
    Nat.add_sub_cancel_left, decide_true, Bool.true_and, Bool.not_true, Bool.and_false, Bool.false_or]

/-- A unit is enabled where the record enables it and its step succeeded (R386, R394). -/
theorem unit_runningConfig (k : BringUp) (r : BitVec 4096) (n : Nat) (hlo : 3214 ≤ n) (hhi : n < 3776) :
    (runningConfig k r).getLsbD n = (r.getLsbD n && k.works.getLsbD n) := by
  have hhigh : ¬ n < 3192 := by omega
  have hout : ¬ n - 3192 < 8 := by omega
  have hdev : k.devnum.getLsbD (n - 3192) = false := BitVec.getLsbD_of_ge _ _ (by omega)
  have hunit : n - 3214 < 562 := by omega
  simp [getLsbD_runningConfig k r n (by omega), hlo, hhigh, hout, hdev, hunit]

/-- The bits of a configuration that are not reserved: [3199:3120] and [4095:3212] (Table 20.2). -/
theorem configRead_mask : (2 ^ 4096 - 1) - (2 ^ 12 - 1) * 2 ^ 3200 - (2 ^ 3120 - 1) = (2 ^ 80 - 1) * 2 ^ 3120 + (2 ^ 884 - 1) * 2 ^ 3212 := by
  decide +kernel

/-- No bit from 3212 on reads as reserved (R5). -/
theorem getLsbD_configRead (c : BitVec 4096) (n : Nat) (hlo : 3212 ≤ n) (hhi : n < 4096) : (configRead c).getLsbD n = c.getLsbD n := by
  have hset : ((2 ^ 80 - 1) * 2 ^ 3120 + (2 ^ 884 - 1) * 2 ^ 3212 : Nat).testBit n = true := by
    rw [testBit_two_fields (2 ^ 884 - 1) (2 ^ 80 - 1) 3120 80 3212 n (by decide) (by decide), if_neg (by omega),
      Nat.testBit_two_pow_sub_one, decide_eq_true (by omega)]
  simp only [configRead, configRead_mask, BitVec.getLsbD_and, BitVec.getLsbD_ofNat, hset, hhi, decide_true, Bool.and_true]

/-! ### Bring-up (R394) -/

/-- The memory after the image was loaded holds what it held before, and the image's bytes. -/
theorem mem_cells_load (image : List (Nat × Byte)) (m : Memory) (x : Host.Cell) (h : x ∈ (m.load image).cells) :
    x ∈ m.cells ∨ x ∈ image := by
  induction image generalizing m with
  | nil => exact .inl h
  | cons y r ih =>
    rcases ih _ h with h | h
    · rw [Memory.setTag_cells] at h
      rcases setD_mem _ _ _ _ _ h with h | h
      · exact .inl h
      · exact .inr (h ▸ List.mem_cons_self)
    · exact .inr (List.mem_cons_of_mem _ h)

/-- After bring-up the memory holds what outlives a loss of power, and the firmware. -/
theorem mem_cells_afterPower_load (m : Memory) (image : List (Nat × Byte)) (x : Host.Cell) (h : x ∈ (m.afterPower.load image).cells) :
    outlives x.1 = true ∨ ∃ v, (x.1, v) ∈ image := by
  rcases mem_cells_load image _ x h with h | h
  · exact .inl (List.mem_filter.mp h).2
  · exact .inr ⟨x.2, h⟩

/-- A device failure stops bring-up (Table 20.6). -/
theorem execBringUp_fails (s : State)
    (h : recordOk s.dev.record = false ∨ s.dev.nextUp.memoryOk = false ∨ s.dev.nextUp.digestOk = false) :
    execBringUp s = .next { s with dev := { s.dev with powered := true, failed := true, bringUps := s.dev.bringUps.tail } } :=
  congrArg Host.Outcome.next (if_pos h)

/-- The state of a bring-up that no device failure stops. -/
def State.broughtUp (s : State) : State :=
  let k := s.dev.nextUp
  let old := s.dev.rollback
  let t := State.boot (runningConfig k s.dev.record) s.dev.record
  { t with
    agenda := s.agenda
    dev := { t.dev with
      mem := old.mem.afterPower.load k.image
      flash := old.flash
      flashBad := old.flashBad
      rollbacks := old.rollbacks
      rollTag := old.rollTag
      opPoint := old.opPoint
      bringUps := s.dev.bringUps.tail
      free := old.free } }

theorem execBringUp_starts (s : State) (hrec : recordOk s.dev.record = true) (hmem : s.dev.nextUp.memoryOk = true)
    (hdig : s.dev.nextUp.digestOk = true) : execBringUp s = .next s.broughtUp :=
  congrArg Host.Outcome.next (if_neg (by simp [hrec, hmem, hdig]))

/-- Bring-up starts at the RVEC that the controller writes (R394 step 8). -/
theorem broughtUp_rvec (s : State) : s.broughtUp.st.pc = s.dev.nextUp.rvec ∧ s.broughtUp.core.rvec = s.dev.nextUp.rvec :=
  ⟨configRvec_runningConfig _ _, configRvec_runningConfig _ _⟩

theorem broughtUp_num (s : State) : s.broughtUp.dev.num = s.dev.nextUp.devnum := devnum_runningConfig _ _

/-- The device is left without the units whose step failed (R394). -/
theorem broughtUp_unit (s : State) (n : Nat) (hlo : 3214 ≤ n) (hhi : n < 3776) :
    s.broughtUp.dev.config.getLsbD n = (s.dev.record.getLsbD n && s.dev.nextUp.works.getLsbD n) :=
  (getLsbD_configRead _ n (by omega) (by omega)).trans (unit_runningConfig _ _ n hlo hhi)

/-! ### The statement -/

/-- Settles O59: each clause is the equation of one case of a system event, or follows from one. -/
theorem systemEvents : Obligations.SystemEvents := by
  unfold Obligations.SystemEvents
  intro s
  refine ⟨?corrected, ?uncorrectable, ?access, ?engine, ?scrub, ?poison, ?machineCheck, ?link, ?partition, ?token, ?debug, ?level,
    ?retained, ?gated, ?act, ?wakeRetention, ?wakeOff, ?wakeNot, ?gate, ?ungate, ?point, ?loss, ?record, ?bringUp, ?bringUpFails⟩
  case corrected => exact fun core => ⟨execCorrectedError_core core s, execCorrectedError_die_counts core s⟩
  case uncorrectable =>
    refine fun n => ⟨rfl, rfl, rfl, rfl, rfl, fun h => congrArg _ (lostRegister_of_no_gang s n h), fun h => ?_,
      fun e h => congrArg _ (blockLost_of_entry s n e h), fun f h => execUncorrectableError_farCopy s n f h⟩
    obtain ⟨r, hr, hcls, hcode, hwho⟩ := lostRegister_of_gang s n h
    exact ⟨r, congrArg _ hr, hcls, hcode, hwho⟩
  case access =>
    exact fun kind n tr d htr hvia => ⟨fun hs => congrArg _ (foundAt_strand_spad s kind _ tr d htr hvia hs),
      fun hs hb => congrArg _ (foundAt_strand_line s kind _ tr d htr hvia hs hb),
      fun k at_ hs hb => congrArg _ (foundAt_strand_block s kind _ tr d htr hvia k at_ hs hb)⟩
  case engine => exact fun e n key me h hk => congrArg _ (lostEngine_of_ctx s e key me h hk)
  case scrub => exact fun n x => ⟨rfl, rfl, execScrub_home_waits n s, execScrub_home_poisons n s⟩
  case poison =>
    intro loc r
    obtain ⟨d, hd, hmem⟩ := poison_frame s loc r
    rw [hd]
    exact ⟨hmem.trans (poisonAt_mem s.dev loc), rfl, rfl⟩
  case machineCheck => exact ⟨rfl, rfl, _, rfl, rfl⟩
  case link => exact fun port _ => ⟨_, rfl, rfl⟩
  case partition =>
    exact fun n p hp => ⟨execPartitionEnable_begins s n p hp, execPartitionDisable_ends s n p hp, fun _ => execPartitionDisable_of_en s n⟩
  case token => exact fun level n c => ⟨rfl, rfl⟩
  case debug => exact fun level n q hq => ⟨execDebugStop_refused level n q s hq, execDebugStop_acts level n q s hq⟩
  case level => exact debugLevel_eq_min s
  case retained => exact fun h => if_pos h
  case gated => exact forDebug_of_gated s
  case act =>
    exact fun n r v => ⟨mem_dbgHalt_debugHalt s n, rfl, rfl, fun h => ⟨if_pos h, if_pos h⟩,
      fun h => ⟨if_neg (Bool.eq_false_iff.mp h), if_neg (Bool.eq_false_iff.mp h)⟩, fun _ => rfl⟩
  case wakeRetention =>
    exact fun hp h => (execPowerWake_wakes s (by rw [hp]; decide) h).trans (congrArg _ (if_pos hp))
  case wakeOff => exact fun hp h => ⟨_, execPowerWake_off s hp h, rfl, rfl, rfl, rfl, rfl, rfl, rfl, rfl⟩
  case wakeNot => exact execPowerWake_stays s
  case gate => exact execClockGate_gates s
  case ungate => exact execClockGate_ungates s
  case point => exact fun point => ⟨execOperatingPointChange_idle point s, execOperatingPointChange_busy point s⟩
  case loss => rfl
  case record => exact fun r => rfl
  case bringUp =>
    exact fun hrec hmem hdig => ⟨_, execBringUp_starts s hrec hmem hdig, rfl, rfl, rfl, rfl, rfl, rfl, rfl, (broughtUp_rvec s).1,
      (broughtUp_rvec s).2, broughtUp_num s, rfl, broughtUp_unit s, mem_cells_afterPower_load _ _⟩
  case bringUpFails => exact execBringUp_fails s

end Sys2Proof.Machine

/-! SUPPORT. The state that bring-up leaves (R324, R394; log 1). -/

namespace Sys2Proof.Machine

/-- RVEC of the full configuration record is 0 (log 1). -/
theorem configRvec_configFull : configRvec configFull = 0 := by decide +kernel

/-- Every core of the full configuration is enabled (log 1). -/
theorem configFull_core (n : Nat) (hn : n < 288) : configFull.getLsbD (3488 + n) = true := by
  have hfields : (2852328907 * 2 ^ 4064 + (2 ^ 288 - 1) * 2 ^ 3488 + (2 ^ 256 - 1) * 2 ^ 3232 + 15 * 2 ^ 3228 + (2 ^ 12 - 1) * 2 ^ 3216
      + 3 * 2 ^ 3214 + 3 * 2 ^ 3184 : Nat) / 2 ^ 3488 % 2 ^ 288 = 2 ^ 288 - 1 := by decide +kernel
  have hbit := congrArg (Nat.testBit · n) hfields
  simp only [Nat.testBit_mod_two_pow, Nat.testBit_div_two_pow, Nat.testBit_two_pow_sub_one, hn, decide_true, Bool.true_and] at hbit
  rw [configFull, BitVec.getLsbD_ofNat, Nat.add_comm, hbit, Bool.and_true, decide_eq_true (by omega)]

/-- A partition that bring-up leaves was never enabled (R324). -/
theorem part_boot (c r : BitVec 4096) (p : Nat) : (Dev.boot c r).part p = none ∨ (Dev.boot c r).part p = some .empty := by
  by_cases hp : p = 0
  · exact .inl (if_pos hp)
  · by_cases hlt : p - 1 < 24
    · exact .inr ((part_eq_some_iff _ p _).mpr ⟨hp, hlt, Vector.getElem_replicate _⟩)
    · refine .inl ((if_neg hp).trans (Vector.getElem?_eq_none (Nat.not_lt.mp hlt)))

/-- A fresh strand's scalar registers are 0 (R71, log 4). -/
theorem x_fresh (k : StrandKind) (i n : Nat) (pc : Word) (r : BitVec 5) : (Strand.fresh k i n pc).x r = 0 := by
  simp [Strand.x, Strand.fresh]

/-- The other cores that bring-up leaves: cores 1 to 287, each as `Core.boot` has it. -/
theorem mem_cores_boot (c r : BitVec 4096) (k : Core) (h : k ∈ (Dev.boot c r).cores) : ∃ n < 288, k = Core.boot c n := by
  obtain ⟨n, hn, rfl⟩ := List.mem_map.mp h
  exact ⟨n, by have := (List.mem_range'_1.mp hn).2; omega, rfl⟩

/-- Settles O7: bring-up leaves the values listed, field by field. -/
theorem resetValues : Obligations.ResetValues := by
  unfold Obligations.ResetValues
  refine ⟨⟨rfl, rfl, rfl, rfl, configRvec_configFull, rfl, rfl, rfl, rfl, rfl, rfl, rfl, rfl, rfl, rfl, rfl, rfl, rfl, ?parts, x_fresh _ _ _ _,
    rfl, rfl, rfl, rfl, rfl, rfl, rfl, rfl, rfl, rfl, rfl, ?count, ?others⟩, ?canonical⟩
  case parts =>
    exact fun p => (part_boot configFull configFull p).imp id fun h => ⟨.empty, h, rfl, rfl, rfl, rfl, rfl, rfl⟩
  case count => exact List.length_map _ |>.trans List.length_range'
  case others =>
    intro c hc
    obtain ⟨n, hn, rfl⟩ := mem_cores_boot _ _ c hc
    refine ⟨rfl, rfl, ?_, congrArg (fun v => [Strand.bootCc v]) configRvec_configFull⟩
    exact congrArg not (configFull_core n hn)
  case canonical =>
    have hcores : (Dev.boot configFull configFull).cores.all Core.memWf = true :=
      List.all_eq_true.mpr fun c hc => by
        obtain ⟨n, -, rfl⟩ := mem_cores_boot _ _ c hc
        rfl
    change ((true && true) && (Dev.boot configFull configFull).cores.all Core.memWf && true) = true
    rw [hcores]
    rfl

end Sys2Proof.Machine

/-! SUPPORT. The user system registers (R80, R129, Table 04.4): which numbers a strand may read and write, and what a COUNT written
to `sr.bhead` leaves other cores reading (R25). -/

namespace Sys2Proof.Machine

/-! ### Reads and writes by what the tables answer -/

/-- A register that the strand may read goes to X[D]. -/
theorem exec_sysr_of_some (d : BitVec 5) (n : BitVec 12) (s : State) (v : Word) (h : s.readSr n = some v) :
    exec (.sysr d n) s = .next (s.setX d v).advance := by
  change execSysr d n s = _
  rw [execSysr, h]
  rfl

/-- A read of any other number is ILLEGAL_INSTRUCTION (R80). -/
theorem exec_sysr_of_none (d : BitVec 5) (n : BitVec 12) (s : State) (h : s.readSr n = none) :
    exec (.sysr d n) s = .next (s.takeTrap 0x01 0 0 0) := by
  change execSysr d n s = _
  rw [execSysr, h]
  rfl

/-- A write of any other number is ILLEGAL_INSTRUCTION (R80). -/
theorem exec_sysw_of_none (a : BitVec 5) (n : BitVec 12) (s : State) (h : s.writeSr n (s.x a) = none) :
    exec (.sysw a n) s = .next (s.takeTrap 0x01 0 0 0) := by
  change execSysw a n s = _
  rw [execSysw, h]
  rfl

theorem exec_sysw_of_some (a : BitVec 5) (n : BitVec 12) (s t : State) (h : s.writeSr n (s.x a) = some t) :
    exec (.sysw a n) s = .next t.advance := by
  change execSysw a n s = _
  rw [execSysw, h]

/-- The table ends at 0x00B. -/
theorem readSr_of_ge (s : State) (n : BitVec 12) (h : 12 ≤ n.toNat) : s.readSr n = none := by
  unfold State.readSr
  split
  case h_13 => rfl
  all_goals omega

theorem writeSr_of_ge (s : State) (n : BitVec 12) (v : Word) (h : 12 ≤ n.toNat) : s.writeSr n v = none := by
  unfold State.writeSr
  split
  case h_8 => rfl
  all_goals omega

/-- 0x004 to 0x008 are read-only. -/
theorem writeSr_of_read_only (s : State) (n : BitVec 12) (v : Word) (hlo : 4 ≤ n.toNat) (hhi : n.toNat ≤ 8) : s.writeSr n v = none := by
  unfold State.writeSr
  split
  case h_8 => rfl
  all_goals omega

/-- The generator belongs to the harts (R40). -/
theorem readSr_seed (s : State) : s.readSr 3 = if s.st.kind = .cc then none else some (s.st.seed.setWidth 64) := rfl

theorem writeSr_seed (s : State) (v : Word) :
    s.writeSr 3 v = if s.st.kind = .cc then none else some { s with st := { s.st with seed := seedStore (v.extractLsb' 0 32) } } := rfl

/-- The matrix rows belong to the X-harts (Table 04.6). -/
theorem readSr_mrows (s : State) : s.readSr 5 = if s.st.kind = .execute then some (s.st.mrows.setWidth 64) else none := rfl

theorem ctxField_of_ctx (s : State) (f : Ctx → Word) (c : Ctx) (h : s.dev.ctx s.core.ctxId = some c) : s.ctxField f = f c := by
  rw [State.ctxField, h]

/-- The count of `sr.bbuf` is clamped to 16 (Table 03.9). -/
theorem bbufStore_eq (v : Word) : bbufStore v = .ofNat 64 (v.toNat / 4096 * 4096 + Min.min (v.toNat % 32) 16) := by
  rw [bbufStore, Nat.min_def]

/-! ### `sr.bhead` (R25) -/

/-- A context changed without its identifier reads as it was changed. -/
theorem ctx_updCtx_same (d : Dev) (n : Nat) (f : Ctx → Ctx) (c : Ctx) (hf : ∀ x, (f x).id = x.id) (h : d.ctx n = some c) :
    (d.updCtx n f).ctx n = some (f c) := by
  have hid : c.id = n := by simpa using List.find?_some h
  have hpred : ((fun x : Ctx => x.id == n) ∘ fun x => if x.id = n then f x else x) = fun x => x.id == n := by
    funext x
    by_cases hx : x.id = n <;> simp [hx, hf]
  rw [Dev.ctx] at h
  rw [Dev.ctx, Dev.updCtx, List.find?_map, hpred, h, Option.map_some, if_pos hid]

/-- A core keeps what it reads of COUNT when its context's is rewritten, and everything else (R25, R80). -/
theorem keepCount_eq (j : Core) (ctx : Nat) (old new : Word) : j.keepCount ctx old new = { j with bheadLag := (j.keepCount ctx old new).bheadLag } := by
  unfold Core.keepCount
  split <;> rfl

theorem keepCount_reads (j : Core) (ctx : Nat) (old new : Word) (hg : j.gang.isSome = true) (hc : j.ctxId = ctx) :
    new + (j.keepCount ctx old new).bheadLag = old + j.bheadLag := by
  have hin : (j.gang.isSome && j.ctxId == ctx) = true := by simp [hg, hc]
  rw [Core.keepCount, if_pos hin]
  change new + (j.bheadLag + (old - new)) = _
  ring

/-- A COUNT written is the context's, and other cores of the context go on reading what they read. -/
theorem setBhead_reads (s : State) (v : Word) (c : Ctx) (h : s.dev.ctx s.core.ctxId = some c) :
    (s.setBhead v).dev.ctx s.core.ctxId = some { c with bhead := v } ∧ (s.setBhead v).core.bheadLag = 0 ∧ (s.setBhead v).st = s.st ∧
      (s.setBhead v).dev.mem = s.dev.mem ∧ ∀ k ∈ (s.setBhead v).dev.cores, ∃ j ∈ s.dev.cores, k = { j with bheadLag := k.bheadLag } ∧
        (j.gang.isSome = true → j.ctxId = s.core.ctxId → v + k.bheadLag = c.bhead + j.bheadLag) := by
  refine ⟨ctx_updCtx_same s.dev s.core.ctxId (fun c => { c with bhead := v }) c (fun _ => rfl) h, rfl, rfl, rfl, fun k hk => ?_⟩
  obtain ⟨j, hj, rfl⟩ := List.mem_map.mp hk
  rw [ctxField_of_ctx s _ c h]
  exact ⟨j, hj, keepCount_eq j _ _ _, keepCount_reads j _ _ _⟩

/-! ### The statement -/

/-- Settles O24: each clause is the equation of one register, read or written. -/
theorem userSystemRegisters : Obligations.UserSystemRegisters := by
  unfold Obligations.UserSystemRegisters
  intro d a n s
  refine ⟨rfl, rfl, rfl, ?readSeed, ?readRows, rfl, ?context, rfl, ?writeBbuf, rfl, rfl, rfl, rfl, rfl, rfl, ?writeSeed, ?ownSeed, ?noRead, ?noWrite⟩
  case readSeed => exact fun h => exec_sysr_of_some d 3 s _ ((readSr_seed s).trans (if_neg h))
  case readRows => exact fun h => exec_sysr_of_some d 5 s _ ((readSr_mrows s).trans (if_pos h))
  case context =>
    have hread (n : BitVec 12) (f : Ctx → Word) (c : Ctx) (hc : s.dev.ctx s.core.ctxId = some c) (hn : s.readSr n = some (s.ctxField f)) :
        exec (.sysr d n) s = .next (s.setX d (f c)).advance :=
      exec_sysr_of_some d n s _ (hn.trans (congrArg some (ctxField_of_ctx s f c hc)))
    exact fun c hc => ⟨hread 8 (fun c => c.eb.setWidth 64) c hc rfl, hread 9 (fun _ => s.core.baste.setWidth 64) c hc rfl,
      hread 10 (fun _ => s.core.bbuf) c hc rfl, hread 11 (fun c => c.bhead + s.core.bheadLag) c hc rfl, setBhead_reads s (s.x a) c hc⟩
  case writeBbuf =>
    rw [← bbufStore_eq]
    rfl
  case writeSeed => exact fun h => exec_sysw_of_some a 3 s _ ((writeSr_seed s _).trans (if_neg h))
  case ownSeed =>
    intro v h
    change Host.Outcome.next ((s.writeSr 3 v).getD s) = _
    rw [writeSr_seed, if_neg h]
    rfl
  case noRead =>
    rintro (h | ⟨rfl, h⟩ | ⟨rfl, h⟩)
    · exact exec_sysr_of_none d n s (readSr_of_ge s n h)
    · exact exec_sysr_of_none d 3 s ((readSr_seed s).trans (if_pos h))
    · exact exec_sysr_of_none d 5 s ((readSr_mrows s).trans (if_neg h))
  case noWrite =>
    rintro (h | ⟨hlo, hhi⟩ | ⟨rfl, h⟩)
    · exact exec_sysw_of_none a n s (writeSr_of_ge s n _ h)
    · exact exec_sysw_of_none a n s (writeSr_of_read_only s n _ hlo hhi)
    · exact exec_sysw_of_none a 3 s ((writeSr_seed s _).trans (if_pos h))

end Sys2Proof.Machine

/-! SUPPORT. Trap frames (R197, R397): what a record of the scratchpad leaves in memory, the entry of a trap into its frame (R198,
R199), and the exit from handler mode (R200). -/

namespace Sys2Proof.Machine

/-! ### Records within one line of a scratchpad (R397) -/

/-- The class of a tag made RAW. -/
@[simp] theorem Tag.cls_raw (t : Tag) : t.raw.cls = cRAW := by
  have h : t.raw.extractLsb' 12 3 = cRAW := by
    refine BitVec.eq_of_getLsbD_eq fun i hi => ?_
    have hlow : ¬ 12 + i < 12 := by omega
    have hsub : 12 + i - 12 = i := by omega
    rw [Tag.raw, Tag.withCls, BitVec.getLsbD_extractLsb', BitVec.getLsbD_append, BitVec.getLsbD_append, if_neg hlow, hsub, if_pos hi,
      decide_eq_true hi, Bool.true_and]
  rw [Tag.cls, h]
  decide

theorem Memory.putRaw_wf (m : Memory) (off n x : Nat) (h : m.wf = true) : (m.putRaw off n x).wf = true := by
  refine setTag_wf _ _ _ (writeN_wf _ _ _ _ ?_)
  split
  · exact h
  · exact setLine_wf _ _ _ h

/-- The line of a record is RAW. -/
theorem Memory.cls_putRaw (m : Memory) (off n x b : Nat) (h : m.wf = true) (hb : b / 128 = off / 128) :
    ((m.putRaw off n x).tag b).cls = cRAW := by
  rw [Memory.putRaw, tag_setTag, if_pos hb, Tag.cls_raw]
  refine writeN_wf _ _ _ _ ?_
  split
  · exact h
  · exact setLine_wf _ _ _ h

/-- The bytes of a record are its number's. -/
theorem Memory.byte_putRaw_mem (m : Memory) (off n x b : Nat) (h : m.wf = true) (hlo : off ≤ b) (hhi : b < off + n) :
    (m.putRaw off n x).byte b = .ofNat 8 (x / 256 ^ (b - off)) := by
  rw [Memory.putRaw, byte_setTag, byte_writeN, if_pos ⟨hlo, hhi⟩]
  split
  · exact h
  · exact setLine_wf _ _ _ h

/-- A record in a RAW or VAL line leaves the other bytes. -/
theorem Memory.byte_putRaw_other (m : Memory) (off n x b : Nat) (h : m.wf = true)
    (hc : (m.tag off).cls = cRAW ∨ (m.tag off).cls = cVAL) (hb : b < off ∨ off + n ≤ b) : (m.putRaw off n x).byte b = m.byte b := by
  simp only [Memory.putRaw, if_pos hc]
  rw [byte_setTag, byte_writeN m off n x b h, if_neg (by omega)]

/-- A record of some words in a RAW or VAL line leaves the other bytes. -/
theorem Memory.byte_putRecord_other (m : Memory) (off k x b : Nat) (h : m.wf = true) (hline : off % 128 + 8 * k ≤ 128)
    (hc : (m.tag off).cls = cRAW ∨ (m.tag off).cls = cVAL) (hb : b < off ∨ off + 8 * k ≤ b) :
    (m.putRecord off k x).byte b = m.byte b := by
  induction k generalizing m off x with
  | zero => rfl
  | succ k ih =>
    have hfirst := byte_putRaw_other m off 8 x b h hc (by omega)
    rw [Memory.putRecord]
    rcases k with _ | k
    · exact hfirst
    · have hraw := cls_putRaw m off 8 x (off + 8) h (by omega)
      exact (ih _ (off + 8) _ (putRaw_wf m off 8 x h) (by omega) (.inl hraw) (by omega)).trans hfirst

/-- The bytes of a record of some words are its number's. -/
theorem Memory.byte_putRecord_mem (m : Memory) (off k x b : Nat) (h : m.wf = true) (hline : off % 128 + 8 * k ≤ 128)
    (hlo : off ≤ b) (hhi : b < off + 8 * k) : (m.putRecord off k x).byte b = .ofNat 8 (x / 256 ^ (b - off)) := by
  induction k generalizing m off x with
  | zero => omega
  | succ k ih =>
    have hwf := putRaw_wf m off 8 x h
    rw [Memory.putRecord]
    by_cases hb : b < off + 8
    · have hfirst := byte_putRaw_mem m off 8 x b h hlo hb
      rcases k with _ | k
      · exact hfirst
      · have hraw := cls_putRaw m off 8 x (off + 8) h (by omega)
        exact (byte_putRecord_other _ (off + 8) (k + 1) _ b hwf (by omega) (.inl hraw) (by omega)).trans hfirst
    · refine (ih _ (off + 8) _ hwf (by omega) (by omega) (by omega)).trans ?_
      rw [show (2 : Nat) ^ 64 = 256 ^ 8 from rfl, Nat.div_div_eq_div_mul, ← Nat.pow_add, show 8 + (b - (off + 8)) = b - off by omega]

/-- A run of bytes that are a number's is that number. -/
theorem Memory.readN_of_bytes (m : Memory) (a n v : Nat) (h : ∀ i < n, m.byte (a + i) = .ofNat 8 (v / 256 ^ i)) :
    m.readN a n = v % 256 ^ n := by
  induction n generalizing a v with
  | zero => simp [Memory.readN, Nat.mod_one]
  | succ n ih =>
    have hrest : m.readN (a + 1) n = v / 256 % 256 ^ n := by
      refine ih (a + 1) (v / 256) fun i hi => ?_
      rw [Nat.div_div_eq_div_mul, ← Nat.pow_succ', show a + 1 + i = a + (i + 1) by omega]
      exact h (i + 1) (by omega)
    have hfirst := h 0 (by omega)
    rw [Nat.add_zero, Nat.pow_zero, Nat.div_one] at hfirst
    rw [Memory.readN, hrest, hfirst, BitVec.toNat_ofNat, Nat.pow_succ' (m := 256), Nat.mod_mul]

/-- A field of whole bytes of a record reads as it was written. -/
theorem Memory.readN_putRecord (m : Memory) (off k x j n : Nat) (h : m.wf = true) (hline : off % 128 + 8 * k ≤ 128) (hj : j + n ≤ 8 * k) :
    (m.putRecord off k x).readN (off + j) n = x / 256 ^ j % 256 ^ n := by
  refine readN_of_bytes _ _ _ _ fun i hi => ?_
  rw [byte_putRecord_mem m off k x _ h hline (by omega) (by omega), Nat.div_div_eq_div_mul, ← Nat.pow_add,
    show off + j + i - off = j + i by omega]

/-- A digit of a number, by what lies below it and above it. -/
theorem digit_eq {x lo v hi p w : Nat} (hlo : lo < p) (hv : v < w) (hx : x = lo + p * (v + w * hi)) : x / p % w = v := by
  rw [hx, Nat.add_mul_div_left _ _ (by omega), Nat.div_eq_of_lt hlo, Nat.zero_add, Nat.add_mul_mod_self_left, Nat.mod_eq_of_lt hv]

/-- One byte of a record, by the number it is. -/
theorem Memory.byte_putRecord_eq (m : Memory) (off k x j : Nat) (v : Byte) (h : m.wf = true) (hline : off % 128 + 8 * k ≤ 128)
    (hj : j < 8 * k) (hv : x / 256 ^ j % 256 = v.toNat) : (m.putRecord off k x).byte (off + j) = v := by
  rw [byte_putRecord_mem m off k x _ h hline (by omega) (by omega), show off + j - off = j by omega]
  exact BitVec.eq_of_toNat_eq (by rw [BitVec.toNat_ofNat]; exact hv)

/-! ### The trap frame (R197, Table 10.1) -/

/-- A frame lies in one line. -/
theorem frameOff_line (n : Nat) : frameOff n % 128 + 8 * 5 ≤ 128 := by
  simp only [frameOff, Config.spadBytes]
  omega

/-- A frame's offset is that of the spec's layout. -/
theorem frameOff_eq (n : Nat) : frameOff n = 4194304 - 2048 + 64 * n := rfl

section
variable (m : Memory) (n : Nat) (pc addr : Word) (who cause : BitVec 8) (info : BitVec 32) (seq : Nat) (h : m.wf = true)
include h

/-- The fields of a frame that was filled (Table 10.1). -/
theorem frame_putRecord :
    let p := m.putRecord (frameOff n) 5 (frameWords pc who cause info addr seq)
    let f := frameOff n
    p.readN f 8 = pc.toNat ∧ p.readN (f + 8) 8 = pc.toNat ∧ p.byte (f + 16) = 1 ∧ p.byte (f + 17) = cause ∧ p.byte (f + 18) = who ∧
      p.byte (f + 19) = 0 ∧ p.readN (f + 20) 4 = info.toNat ∧ p.readN (f + 24) 8 = addr.toNat ∧ p.readN (f + 32) 8 = seq % 2 ^ 64 := by
  have hpc := pc.isLt
  have haddr := addr.isLt
  have hwho := who.isLt
  have hcause := cause.isLt
  have hinfo := info.isLt
  have hseq : seq % 2 ^ 64 < 2 ^ 64 := Nat.mod_lt _ (by decide)
  have hline := frameOff_line n
  have hfield (j w lo v hi : Nat) (hj : j + w ≤ 40) (hlo : lo < 256 ^ j) (hv : v < 256 ^ w)
      (hx : frameWords pc who cause info addr seq = lo + 256 ^ j * (v + 256 ^ w * hi)) :=
    (m.readN_putRecord (frameOff n) 5 _ j w h hline hj).trans (digit_eq hlo hv hx)
  have hbyte (j lo : Nat) (v : Byte) (hi : Nat) (hj : j < 40) (hlo : lo < 256 ^ j)
      (hx : frameWords pc who cause info addr seq = lo + 256 ^ j * (v.toNat + 256 ^ 1 * hi)) :=
    m.byte_putRecord_eq (frameOff n) 5 _ j v h hline hj (digit_eq hlo v.isLt hx)
  have hwords : frameWords pc who cause info addr seq = pc.toNat + 2 ^ 64 * pc.toNat + 2 ^ 128 + 2 ^ 136 * cause.toNat
    + 2 ^ 144 * who.toNat + 2 ^ 160 * info.toNat + 2 ^ 192 * addr.toNat + 2 ^ 256 * (seq % 2 ^ 64) := rfl
  generalize frameWords pc who cause info addr seq = x, frameOff n = f at *
  dsimp only
  generalize pc.toNat = a, addr.toNat = b, seq % 2 ^ 64 = c at *
  let r := info.toNat + 2 ^ 32 * b + 2 ^ 96 * c
  refine ⟨hfield 0 8 0 a (a + 2 ^ 64 + 2 ^ 72 * cause.toNat + 2 ^ 80 * who.toNat + 2 ^ 96 * r) (by decide) (by omega) hpc (by omega),
    hfield 8 8 a a (1 + 2 ^ 8 * cause.toNat + 2 ^ 16 * who.toNat + 2 ^ 32 * r) (by decide) (by omega) hpc (by omega),
    hbyte 16 (a + 2 ^ 64 * a) 1 (cause.toNat + 2 ^ 8 * who.toNat + 2 ^ 24 * r) (by decide) (by omega) ?_,
    hbyte 17 (a + 2 ^ 64 * a + 2 ^ 128) cause (who.toNat + 2 ^ 16 * r) (by decide) (by omega) (by omega),
    hbyte 18 (a + 2 ^ 64 * a + 2 ^ 128 + 2 ^ 136 * cause.toNat) who (2 ^ 8 * r) (by decide) (by omega) (by omega),
    hbyte 19 (a + 2 ^ 64 * a + 2 ^ 128 + 2 ^ 136 * cause.toNat + 2 ^ 144 * who.toNat) 0 r (by decide) (by omega) ?_,
    hfield 20 4 (a + 2 ^ 64 * a + 2 ^ 128 + 2 ^ 136 * cause.toNat + 2 ^ 144 * who.toNat) info.toNat (b + 2 ^ 64 * c) (by decide)
      (by omega) hinfo (by omega),
    hfield 24 8 (a + 2 ^ 64 * a + 2 ^ 128 + 2 ^ 136 * cause.toNat + 2 ^ 144 * who.toNat + 2 ^ 160 * info.toNat) b c (by decide)
      (by omega) haddr (by omega),
    hfield 32 8 (a + 2 ^ 64 * a + 2 ^ 128 + 2 ^ 136 * cause.toNat + 2 ^ 144 * who.toNat + 2 ^ 160 * info.toNat + 2 ^ 192 * b) c 0
      (by decide) (by omega) hseq (by omega)⟩
  · rw [show (1 : Byte).toNat = 1 from rfl]
    omega
  · rw [show (0 : Byte).toNat = 0 from rfl]
    omega

end

/-! ### Trap entry (R198, R199) -/

/-- The acting core after its strand's trap filled its frame. -/
def Core.trapped (c : Core) (g : Gang) (t : Strand) (cause : BitVec 8) (info : BitVec 32) (addr : Word) : Core :=
  { c with
    spad := c.spad.putRecord (frameOff t.slot) 5 (frameWords t.wordPc t.who cause info addr (g.trapSeq + 1))
    gang := some { g with trapSeq := g.trapSeq + 1 } }

section
variable (s : State) (g : Gang) (cause fl : BitVec 8) (info : BitVec 32) (addr : Word)
  (hlevel : s.atResident = false) (hg : s.core.gang = some g) (hvec : g.tvec ≠ 0)
include hlevel hg hvec

/-- A hart's trap that a handler will take stops the hart at its word (R198). -/
theorem takeTrap_hart (hslot : s.st.slot ≠ 0) (hleft : g.left = false) (hcc : ∀ t ∈ s.core.strands, t.slot = 0 → t.run ≠ .ended) :
    s.takeTrap cause info addr fl =
      { s with st := { s.st.rewind with flags := s.st.flags ||| fl, run := .trapped, waiting := false },
               core := s.core.trapped g s.st cause info addr } := by
  have hruns : ¬ (g.left = true ∨ (s.core.strands.any fun t => t.slot == 0 && t.run == .ended) = true) := by
    simpa [hleft, List.any_eq_false] using hcc
  simp only [State.takeTrap, hlevel, hg, Bool.false_eq_true, if_false, if_neg hvec, if_neg hslot]
  exact if_neg hruns

/-- A trap of the CC outside handler mode enters it at the trap vector (R199). -/
theorem takeTrap_cc (hslot : s.st.slot = 0) (hmode : s.core.handler = none) :
    s.takeTrap cause info addr fl =
      { s with st := { ({ s.st.rewind with flags := s.st.flags ||| fl, run := .trapped, waiting := false } : Strand).toHandler g.tvec with
                       run := .running },
               core := { s.core.trapped g s.st cause info addr with handler := some ⟨s.st.loops, s.st.sp⟩ } } := by
  simp only [State.takeTrap, hlevel, hg, Bool.false_eq_true, if_false, if_neg hvec, if_pos hslot, hmode, Option.isSome_none]
  rfl

end

/-! ### Handler exit (R200) -/

/-- Writing the states of frames changes the scratchpad alone. -/
theorem foldl_setFrameState (ns : List Nat) (v : Nat → Nat) (c : Core) :
    ns.foldl (fun c n => c.setFrameState n (v n)) c = { c with spad := (ns.foldl (fun c n => c.setFrameState n (v n)) c).spad } := by
  induction ns generalizing c with
  | nil => rfl
  | cons n r ih => exact ih (c.setFrameState n (v n))

/-- The strands of the core after each acted on its frame (Table 10.2). -/
def Core.exited (c : Core) : List Strand := c.strands.map fun t => t.exitFrame (c.frameState t.slot) (c.frameRpc t.slot)

/-- A CC whose frame does not say END goes on at frame 0's RPC as it was before the handler. -/
theorem handlerExit_resumes (s : State) (a : Aside) (ha : s.core.handler = some a) (hend : s.core.frameState 0 ≠ 3) :
    ∃ m l, s.handlerExit =
      { s with st := { s.st with pc := s.core.frameRpc 0, run := .running, loops := l, sp := a.sp, deco := none, waiting := false },
               core := { s.core with spad := m, strands := s.core.exited, handler := none } } := by
  have hgo : ¬ (s.core.frameState 0 == 3) = true := by simpa using hend
  rw [State.handlerExit, if_neg hgo, ha, foldl_setFrameState]
  exact ⟨_, _, rfl⟩

/-- A strand put among others is found by its frame number. -/
theorem find?_putStrand (t : Strand) (l : List Strand) : (putStrand t l).find? (fun u => u.slot == t.slot) = some t := by
  induction l with
  | nil => simp [putStrand]
  | cons u r ih =>
    rw [putStrand]
    split_ifs with hlt heq
    · simp
    · simp
    · have hne : (u.slot == t.slot) = false := by simpa using fun h => heq h.symm
      rw [List.find?_cons, hne]
      exact ih

/-- Terminating a gang leaves a strand that has ended so. -/
theorem run_terminateGang (s : State) (cause who : BitVec 8) (h : s.st.run = .ended) : (s.terminateGang cause who).st.run = .ended := by
  have hold := find?_putStrand s.st s.core.strands
  obtain ⟨t, ht, hrun⟩ : ∃ t, (s.wholeCore.terminate cause who).strands.find? (fun u => u.slot == s.st.slot) = some t ∧ t.run = .ended := by
    unfold Core.terminate
    split
    · exact ⟨s.st, hold, h⟩
    · refine ⟨_, (List.find?_map ..).trans (congrArg (Option.map _) ((congrArg (List.find? · _) ?_).trans hold)), ?_⟩
      · funext u
        change ((if u.slot = 0 ∧ _ then u else u.ended).slot == _) = _
        split <;> rfl
      · change (if s.st.slot = 0 ∧ _ then s.st else s.st.ended).run = .ended
        split
        · exact h
        · rfl
  simp only [State.terminateGang, State.onCore, ht, hrun]

/-- A strand that ends stays ended, whatever a hart stopped with a trap makes of its gang (R190, R201). -/
theorem run_strandEnd (s : State) : s.strandEnd.st.run = .ended := by
  unfold State.strandEnd
  simp only
  split_ifs
  · split
    · exact run_terminateGang _ _ _ rfl
    · rfl
  · rfl

theorem handlerExit_ends (s : State) (hend : s.core.frameState 0 = 3) : s.handlerExit.st.run = .ended := by
  rw [State.handlerExit, if_pos (by simpa using hend)]
  exact run_strandEnd _

/-- STATE of a frame is its byte 16. -/
theorem frameState_eq (c : Core) (n : Nat) : c.frameState n = (c.spad.byte (4194304 - 2048 + 64 * n + 16)).toNat := by
  rw [Core.frameState, Memory.readN, Memory.readN, frameOff_eq, Nat.mul_zero, Nat.add_zero]

/-- RPC of a frame is its doubleword 1 with bits [1:0] cleared. -/
theorem toNat_frameRpc (c : Core) (n : Nat) : (c.frameRpc n).toNat = c.spad.readN (4194304 - 2048 + 64 * n + 8) 8 / 4 * 4 := by
  have hlt := c.spad.readN_lt (frameOff n + 8) 8
  rw [Core.frameRpc, BitVec.toNat_ofNat, Nat.mod_eq_of_lt (by omega), frameOff_eq]

/-! ### The statement -/

/-- Settles O23: the frame's fields are those of the record that the trap writes, and an exit acts on each frame. -/
theorem trapEntryAndHandlerExit : Obligations.TrapEntryAndHandlerExit := by
  unfold Obligations.TrapEntryAndHandlerExit
  refine ⟨?entry, ?exit⟩
  case entry =>
    intro s g cause fl info addr hwf hlevel hg hvec hslot hhart hcc
    have hframe := frame_putRecord s.core.spad s.st.slot s.st.wordPc addr s.st.who cause info (g.trapSeq + 1) hwf
    have hother := fun hc b hb => s.core.spad.byte_putRecord_other (frameOff s.st.slot) 5
      (frameWords s.st.wordPc s.st.who cause info addr (g.trapSeq + 1)) b hwf (frameOff_line _) hc hb
    obtain ⟨hpc, hrpc, hstate, hcause, hwho, hres, hinfo, haddr, hseq⟩ := hframe
    by_cases h0 : s.st.slot = 0
    · rw [takeTrap_cc s g cause fl info addr hlevel hg hvec h0 (hcc h0)]
      exact ⟨hpc, hrpc, hstate, hcause, hwho, hres, hinfo, haddr, hseq, hother, rfl, rfl, rfl, rfl, rfl, rfl, rfl,
        fun h => absurd h0 h, fun _ => ⟨rfl, rfl, rfl, rfl, rfl⟩⟩
    · obtain ⟨hleft, hruns⟩ := hhart h0
      rw [takeTrap_hart s g cause fl info addr hlevel hg hvec h0 hleft hruns]
      exact ⟨hpc, hrpc, hstate, hcause, hwho, hres, hinfo, haddr, hseq, hother, rfl, rfl, rfl, rfl, rfl, rfl, rfl,
        fun _ => ⟨rfl, rfl, rfl⟩, fun h => absurd h h0⟩
  case exit =>
    intro s a hkind ha rpc state
    refine ⟨fun hne => ?_, fun h => handlerExit_ends s ((frameState_eq s.core 0).trans h)⟩
    obtain ⟨m, l, hexit⟩ := handlerExit_resumes s a ha ((frameState_eq s.core 0).trans_ne hne)
    rw [hexit]
    refine ⟨toNat_frameRpc s.core 0, rfl, rfl, rfl, rfl, rfl, List.map_congr_left fun u _ => ?_⟩
    have hpc : s.core.frameRpc u.slot = .ofNat 64 (rpc u.slot) :=
      (BitVec.ofNat_toNat ..).symm.trans (congrArg _ (toNat_frameRpc s.core u.slot))
    rw [Strand.exitFrame, frameState_eq, hpc]

end Sys2Proof.Machine

/-! SUPPORT. The commands of the CC (R24, R59, R257, R300 to R305): what each does where its checks pass, and how it stops where one does
not. -/

namespace Sys2Proof.Machine

/-! ### Fields of addresses and words -/

/-- The low `k` bits of a word are 0 where the word is a multiple of 2^k. -/
theorem extractLsb'_low_eq_zero (v : Word) (k : Nat) : v.extractLsb' 0 k = 0 ↔ v.toNat % 2 ^ k = 0 := by
  rw [← BitVec.toNat_inj, BitVec.extractLsb'_toNat, Nat.shiftRight_zero]
  rfl

/-- The high half of a word is 0 where the word is below 2^32. -/
theorem extractLsb'_high_eq_zero (v : Word) : v.extractLsb' 32 32 = 0 ↔ v.toNat < 2 ^ 32 := by
  rw [← BitVec.toNat_inj, BitVec.extractLsb'_toNat, Nat.shiftRight_eq_div_pow]
  change v.toNat / 2 ^ 32 % 2 ^ 32 = 0 ↔ _
  have := v.isLt
  omega

/-! ### Gates and knots (R257, R301) -/

/-- An access of the CC that no command block holds back goes on (R257). -/
theorem run_engGate_free (k : BitVec 2) (s : State) (h : s.st.kind = .cc → s.core.engHolds k = false) : (engGate k).run s = .ok ((), s) := by
  have hfree : (decide (s.st.kind = .cc) && s.core.engHolds k) = false := by
    by_cases hk : s.st.kind = .cc
    · simp [h hk]
    · simp [hk]
  simp only [engGate, run_bind, run_get, hfree, Bool.false_eq_true, if_false, run_pure]

/-- A gate lets pass, changing nothing, or waits. -/
theorem run_engGate (k : BitVec 2) (s : State) : (engGate k).run s = .ok ((), s) ∨ (engGate k).run s = .error .wait := by
  by_cases h : s.st.kind = .cc ∧ s.core.engHolds k = true
  · exact .inr (by simp only [engGate, run_bind, run_get, h, decide_true, Bool.and_self, if_true, run_stop])
  · exact .inl (run_engGate_free k s fun hk => Bool.eq_false_iff.mpr fun hh => h ⟨hk, hh⟩)

/-- n of `kn.wait` and `kn.sig`: 1 where A is x0, else X[A] (R301). -/
def State.knotN (s : State) (a : BitVec 5) : Nat := if a = 0 then 1 else (s.x a).toNat

theorem run_knotCount (a : BitVec 5) (s : State) (hlo : 1 ≤ s.knotN a) (hhi : s.knotN a ≤ 65535) :
    (knotCount a).run s = .ok (s.knotN a, s) := by
  have hok : ¬ (s.knotN a = 0 ∨ 65535 < s.knotN a) := by omega
  rw [State.knotN] at hok
  simp only [knotCount, run_bind, run_get, hok, if_false, run_pure, State.knotN]

theorem run_knotCount_bad (a : BitVec 5) (s : State) (h : s.knotN a = 0 ∨ 65535 < s.knotN a) :
    (knotCount a).run s = .error (.trap 0x11 2 0 0) := by
  rw [State.knotN] at h
  simp only [knotCount, run_bind, run_get, h, if_true, launchArg, run_stop]
  rfl

section
variable (k a : BitVec 5) (s : State)

theorem exec_knWait_bad (h : s.knotN a = 0 ∨ 65535 < s.knotN a) : exec (.knWait k a) s = .next (s.takeTrap 0x11 2 0 0) :=
  deliver_trap s _ _ _ _ _ (by rw [run_bind, run_knotCount_bad a s h])

theorem exec_knSig_bad (h : s.knotN a = 0 ∨ 65535 < s.knotN a) : exec (.knSig k a) s = .next (s.takeTrap 0x11 2 0 0) :=
  deliver_trap s _ _ _ _ _ (by rw [run_bind, run_knotCount_bad a s h])

variable (hlo : 1 ≤ s.knotN a) (hhi : s.knotN a ≤ 65535)
include hlo hhi

theorem exec_knWait_waits (h : (s.core.knots[k.toNat]'(k.isLt)).toNat < s.knotN a) : exec (.knWait k a) s = .next s.await :=
  deliver_wait s _ (by simp only [run_bind, run_knotCount a s hlo hhi, h, if_true, run_stop])

theorem exec_knWait_takes (h : s.knotN a ≤ (s.core.knots[k.toNat]'(k.isLt)).toNat) :
    exec (.knWait k a) s = .next ({ s with core := { s.core with
      knots := s.core.knots.set k.toNat (.ofNat 16 ((s.core.knots[k.toNat]'(k.isLt)).toNat - s.knotN a)) k.isLt } } : State).advance :=
  deliver_ok s _ _ (by
    simp only [run_bind, run_knotCount a s hlo hhi, Nat.not_lt.mpr h, if_false, run_modify, run_advanceM])

theorem exec_knSig_adds :
    exec (.knSig k a) s = .next ({ s with core := { s.core with
      knots := s.core.knots.set k.toNat (.ofNat 16 (Nat.min 65535 ((s.core.knots[k.toNat]'(k.isLt)).toNat + s.knotN a))) k.isLt } } : State).advance :=
  deliver_ok s _ _ (by simp only [run_bind, run_knotCount a s hlo hhi, run_modify, run_advanceM]; rfl)

end

/-! ### Command queues (R300) -/

/-- A descriptor of zeros names no rounding mode to resolve. -/
theorem resolveConv_zero (rnd : BitVec 3) : resolveConv 0 rnd = 0 := by
  rw [resolveConv, show (0 : BitVec 512).extractLsb' 392 3 = 0 from BitVec.extractLsb'_zero, if_neg (by decide)]

section
variable (d a b : BitVec 5) (s u v w : State) (x : Nat) (xl : List Xlat) (no : BitVec 32)

/-- There are four queues. -/
theorem exec_cqPush_no_queue (hq : 4 ≤ (s.x b).toNat) (ha : (s.x a).toNat % 64 = 0) : exec (.cqPush d a b) s = .next (s.takeTrap 0x11 1 0 0) :=
  deliver_trap s _ _ _ _ _ (by
    have hal := (extractLsb'_low_eq_zero (s.x a) 6).mpr ha
    simp only [hal, ne_eq, not_true_eq_false, if_false, Nat.not_lt.mpr hq, dif_neg, not_false_eq_true, launchArg, run_stop]
    rfl)

variable (h : (s.x b).toNat < 4) (ha : (s.x a).toNat % 64 = 0) (hx : (readRecord (s.x a) 64).run s = .ok (x, u))
  (hbad : blockBad (resolveBlock (.ofNat 512 x) s.st.round) 3 = false)
  (hop : (blockReq (resolveBlock (.ofNat 512 x) s.st.round) s.st.round).op ≠ 1)
  (hchk : checkCopy s.fmt (blockReq (resolveBlock (.ofNat 512 x) s.st.round) s.st.round) 0 = none)
  (hxl : ((planCopy (blockReq (resolveBlock (.ofNat 512 x) s.st.round) s.st.round) 0 s.core.shSeed).mapPages s.via).run u = .ok (xl, v))
include h ha hx hbad hop hchk hxl

theorem exec_cqPush_waits (hfull : 64 ≤ (s.core.cmdq[(s.x b).toNat]'h).length) : exec (.cqPush d a b) s = .next s.await :=
  deliver_wait s _ (by
    have hal := (extractLsb'_low_eq_zero (s.x a) 6).mpr ha
    simp only [run_bind, hal, ne_eq, not_true_eq_false, if_false, run_pure, h, dif_pos, hx, hbad, Bool.false_eq_true, hop, Option.map_some,
      resolveConv_zero, Option.bind_some, hchk, Option.getD_some, hxl, hfull, if_true, run_stop])

theorem exec_cqPush_holds (hroom : (s.core.cmdq[(s.x b).toNat]'h).length < 64)
    (hopen : (resolveBlock (.ofNat 512 x) s.st.round).getLsbD 207 = false) (hno : openBatch.run v = .ok (no, w)) :
    exec (.cqPush d a b) s = .next (({ w with core := { w.core with cmdq := w.core.cmdq.set (s.x b).toNat ((s.core.cmdq[(s.x b).toNat]'h) ++
      [⟨0, resolveBlock (.ofNat 512 x) s.st.round, 0, s.via.key, s.core.launchId, no, s.st.wordPc, xl⟩]) h } } : State).setX d
        (.ofNat 64 ((s.core.cmdq[(s.x b).toNat]'h).length + 1))).advance :=
  deliver_ok s _ _ (by
    have hal := (extractLsb'_low_eq_zero (s.x a) 6).mpr ha
    simp only [run_bind, hal, ne_eq, not_true_eq_false, if_false, run_pure, h, dif_pos, hx, hbad, Bool.false_eq_true, hop, Option.map_some,
      resolveConv_zero, Option.bind_some, hchk, Option.getD_some, hxl, Nat.not_le.mpr hroom, hno, hopen, run_modify, run_setXM, run_advanceM])

end

/-! ### The Bobbin (R302, R303) -/

section
variable (d a b : BitVec 5) (s u v : State)

theorem exec_bobLd_loads (lo hi : Nat) (ha : (s.x a).toNat % 256 = 0) (hlo : (readRecord (s.x a) 128).run s = .ok (lo, u))
    (hhi : (readRecord (s.x a + 128) 128).run u = .ok (hi, v)) (hbad : nestBad (.ofNat 2048 (lo + 2 ^ 1024 * hi)) = false)
    (hidle : s.core.bobbin.run = none) :
    exec (.bobLd a) s = .next ({ v with core := { v.core with bobbin :=
      { v.core.bobbin with nest := some (.ofNat 2048 (lo + 2 ^ 1024 * hi)) } } } : State).advance :=
  deliver_ok s _ _ (by
    have hal := (extractLsb'_low_eq_zero (s.x a) 8).mpr ha
    simp only [run_bind, hal, ne_eq, not_true_eq_false, if_false, hlo, hhi, hbad, hidle, Option.isSome_none, Bool.false_eq_true,
      run_modify, run_advanceM])

theorem exec_bobGo_starts (hnest : s.core.bobbin.nest.isSome = true) (hidle : s.core.bobbin.run = none) :
    exec (.bobGo d a b) s = .next (({ s with core := { s.core with
      batches := s.core.batches ++ [⟨17, s.core.bobbin.nestNo + 1, false, none, 0, 0, 0, 0, none, s.core.launchId, s.via.key⟩]
      bobbin := { s.core.bobbin with run := some (s.x a, s.x b, s.st.round), at_ := 0, nestNo := s.core.bobbin.nestNo + 1, parked := none,
                                     pc := s.st.wordPc, ctx := s.via.key, launch := s.core.launchId } } } : State).setX d
        ((s.core.bobbin.nestNo + 1).setWidth 64)).advance :=
  deliver_ok s _ _ (by
    have hloaded : s.core.bobbin.nest.isNone = false := by simpa [Option.isNone_eq_false_iff] using hnest
    simp only [run_bind, hloaded, hidle, Option.isSome_none, Bool.false_eq_true, if_false, run_modify, run_setXM, run_advanceM])

theorem exec_bobGo_empty (hnest : s.core.bobbin.nest = none) : exec (.bobGo d a b) s = .next (s.takeTrap 0x11 4 0 0) :=
  deliver_trap s _ _ _ _ _ (by
    simp only [hnest, Option.isNone_none, if_true, run_bind, launchArg, run_stop]
    rfl)

end

/-! ### Event records (R257, R304, R305) -/

section
variable (t a b : BitVec 5) (s : State)
  (hgate : s.st.kind = .cc → s.core.engHolds 1 = false) (hzero : (s.x t).extractLsb' 24 8 = 0) (hdev : (s.x t).extractLsb' 16 8 = s.dev.num)
  (hours : (s.dev.part (s.dev.partOfCtx s.core.ctxId)).any (·.hasCore ((s.x t).extractLsb' 0 16).toNat) = true)
  (hon : s.dev.coreOn ((s.x t).extractLsb' 0 16).toNat = true)
include hgate hzero hdev hours hon

theorem exec_renq_sends (k : Core) (hk : s.coreAt ((s.x t).extractLsb' 0 16).toNat = some k) (hg : k.gang.isSome = true)
    (hc : k.ctxId = s.core.ctxId) (hroom : k.evq.length < 256) :
    let y := s.updCoreAt ((s.x t).extractLsb' 0 16).toNat fun k => k.enqueueEv (s.remote ((s.x t).extractLsb' 32 32) (s.x a) (s.x b))
    exec (.renq t a b) s = .next ({ y with core := { y.core with renqNo := y.core.renqNo + 1 } } : State).advance :=
  deliver_ok s _ _ (by
    simp only [run_bind, run_engGate_free 1 s hgate, hzero, hdev, hours, hon, ne_eq, not_true_eq_false, Bool.true_eq_false, or_false,
      if_false, hk, hg, hc, hroom, beq_self_eq_true, decide_true, Bool.and_self, Bool.not_true, Bool.false_eq_true, run_modify, run_advanceM])

theorem exec_renq_waits (k : Core) (hk : s.coreAt ((s.x t).extractLsb' 0 16).toNat = some k)
    (hnot : k.gang = none ∨ k.ctxId ≠ s.core.ctxId ∨ 256 ≤ k.evq.length) : exec (.renq t a b) s = .next s.await :=
  deliver_wait s _ (by
    have hready : (k.gang.isSome && k.ctxId == s.core.ctxId && decide (k.evq.length < 256)) = false := by
      rcases hnot with h | h | h
      · simp [h]
      · simp [h]
      · simp [Nat.not_lt.mpr h]
    simp only [run_bind, run_engGate_free 1 s hgate, hzero, hdev, hours, hon, ne_eq, not_true_eq_false, Bool.true_eq_false, or_false,
      if_false, hk, hready, Bool.not_false, if_true, run_stop])

end

section
variable (d : BitVec 5) (s : State)

theorem exec_evqPop_takes (e : Ev) (r : List Ev) (hq : s.core.evq = e :: r) (hgate : s.st.kind = .cc → s.core.engHolds 2 = false) :
    exec (.evqPop d) s = .next ({ (s.setEvent d e.bits) with core := { s.core with evq := r } } : State).advance :=
  deliver_ok s _ _ (by simp only [run_bind, run_engGate_free 2 s hgate, hq, run_modify, run_advanceM])

/-- With no record `evq.pop` waits, for the gate or for one. -/
theorem exec_evqPop_waits (hq : s.core.evq = []) : exec (.evqPop d) s = .next s.await :=
  deliver_wait s _ (by
    rcases run_engGate 2 s with h | h
    · simp only [run_bind, h, hq, run_stop]
    · simp only [run_bind, h])

theorem exec_evqPeek_first (e : Ev) (r : List Ev) (hq : s.core.evq = e :: r) : exec (.evqPeek d) s = .next (s.setEvent d e.bits).advance := by
  change execEvqPeek d s = _
  rw [execEvqPeek, hq]
  rfl

theorem exec_evqPeek_none (hq : s.core.evq = []) : exec (.evqPeek d) s = .next (s.setEvent d 0).advance := by
  change execEvqPeek d s = _
  rw [execEvqPeek, hq]
  rfl

end

/-! ### Table writes (R24, R59) -/

section
variable (d : BitVec 5) (s : State)

/-- `ft.wr` of x0 only reads. -/
theorem exec_ftWr_reads (k : BitVec 4) : exec (.ftWr d 0 k) s = .next (s.setX d ((s.core.ft[k.toNat]'(k.isLt)).setWidth 64)).advance := rfl

variable (a : BitVec 5) (ha : a ≠ 0)
include ha

theorem exec_ftWr_writes (k : BitVec 4) (hv : (s.x a).toNat < 2 ^ 32) (hlegal : legalEntry ((s.x a).extractLsb' 0 32) = true) :
    exec (.ftWr d a k) s = .next (({ s.setCtx (fun c => { c with ft := c.ft.set k.toNat ((s.x a).extractLsb' 0 32) k.isLt }) with
      core := { s.core with ft := s.core.ft.set k.toNat ((s.x a).extractLsb' 0 32) k.isLt } } : State).setX d
        ((s.core.ft[k.toNat]'(k.isLt)).setWidth 64)).advance :=
  deliver_ok s _ _ (by
    have hhigh := (extractLsb'_high_eq_zero (s.x a)).mpr hv
    simp only [run_bind, ha, ne_eq, not_false_eq_true, if_true, hhigh, not_true_eq_false, hlegal, Bool.true_eq_false, or_false, if_false,
      run_modify, run_setXM, run_advanceM])

theorem exec_ftWr_bad (k : BitVec 4) (h : 2 ^ 32 ≤ (s.x a).toNat ∨ legalEntry ((s.x a).extractLsb' 0 32) = false) :
    exec (.ftWr d a k) s = .next (s.takeTrap 0x07 0 0 0) :=
  deliver_trap s _ _ _ _ _ (by
    have hbad : ¬ (s.x a).extractLsb' 32 32 = 0 ∨ legalEntry ((s.x a).extractLsb' 0 32) = false :=
      h.imp_left fun h => mt (extractLsb'_high_eq_zero (s.x a)).mp (Nat.not_lt.mpr h)
    simp only [run_bind, ha, ne_eq, not_false_eq_true, if_true, hbad, run_raiseTrap]
    rfl)

end

section
variable (d a b : BitVec 5) (s : State) (h : (s.x b).toNat < 256)

/-- `pk.wr` of x0 only reads. -/
theorem exec_pkWr_reads : exec (.pkWr d 0 b) s = .next (s.setX d ((s.core.pk[(s.x b).toNat]'h).setWidth 64)).advance :=
  deliver_ok s _ _ (by simp only [h, dif_pos, run_bind, ne_eq, not_true_eq_false, if_false, run_setXM, run_advanceM])

theorem exec_pkWr_writes (ha : a ≠ 0) (hlegal : s.core.pkLegal (s.x a) = true) :
    exec (.pkWr d a b) s = .next (({ s.setCtx (fun c => { c with pk := c.pk.set (s.x b).toNat ((s.x a).extractLsb' 0 8) h }) with
      core := { s.core with pk := s.core.pk.set (s.x b).toNat ((s.x a).extractLsb' 0 8) h } } : State).setX d
        ((s.core.pk[(s.x b).toNat]'h).setWidth 64)).advance :=
  deliver_ok s _ _ (by
    simp only [h, dif_pos, run_bind, ha, ne_eq, not_false_eq_true, if_true, hlegal, Bool.true_eq_false, if_false, run_modify, run_setXM,
      run_advanceM])

include h in
theorem exec_pkWr_bad (ha : a ≠ 0) (hlegal : s.core.pkLegal (s.x a) = false) : exec (.pkWr d a b) s = .next (s.takeTrap 0x07 0 0 0) :=
  deliver_trap s _ _ _ _ _ (by
    simp only [h, dif_pos, run_bind, ha, ne_eq, not_false_eq_true, if_true, hlegal, run_raiseTrap]
    rfl)

end

/-! ### The statement -/

/-- Settles O51: each clause is one case of one command. -/
theorem commandsOfTheCc : Obligations.CommandsOfTheCc := by
  unfold Obligations.CommandsOfTheCc
  intro d a b s u v w wait n
  refine ⟨?push, exec_cqPush_no_queue d a b s, ?knots, ?badKnots, ?load, exec_bobGo_starts d a b s, exec_bobGo_empty d a b s, ?renq, ?pop,
    ?noRecord, ?formats, ?pairs⟩
  case push =>
    intro h x xl no ha hx blk old hbad hop hchk hxl
    exact ⟨exec_cqPush_waits d a b s u v x xl h ha hx hbad hop hchk hxl,
      exec_cqPush_holds d a b s u v w x xl no h ha hx hbad hop hchk hxl⟩
  case knots =>
    exact fun k hlo hhi => ⟨exec_knWait_takes k a s hlo hhi, exec_knWait_waits k a s hlo hhi, exec_knSig_adds k a s hlo hhi⟩
  case badKnots => exact fun k h => ⟨exec_knWait_bad k a s h, exec_knSig_bad k a s h⟩
  case load => exact fun lo hi ha hlo hhi hbad hidle => exec_bobLd_loads a s u v lo hi ha hlo hhi hbad hidle
  case renq =>
    intro t hgate hzero hdev c hours hon
    exact ⟨exec_renq_sends t a b s hgate hzero hdev hours hon,
      exec_renq_waits t a b s hgate hzero hdev hours hon⟩
  case pop => exact fun e r hq => ⟨exec_evqPop_takes d s e r hq, exec_evqPeek_first d s e r hq⟩
  case noRecord => exact fun hq => ⟨exec_evqPop_waits d s hq, exec_evqPeek_none d s hq⟩
  case formats =>
    refine fun k => ⟨fun ha => ha ▸ exec_ftWr_reads d s k, fun ha hv hlegal => ?_, fun ha => exec_ftWr_bad d s a ha k⟩
    exact ⟨_, exec_ftWr_writes d s a ha k hv hlegal, rfl, rfl, fun c hc => ctx_updCtx_same s.dev s.core.ctxId _ c (fun _ => rfl) hc⟩
  case pairs =>
    exact fun h => ⟨fun ha => ha ▸ exec_pkWr_reads d b s h, fun ha hlegal => ⟨_, exec_pkWr_writes d a b s h ha hlegal, rfl, rfl⟩,
      exec_pkWr_bad d a b s h⟩

end Sys2Proof.Machine

/-! SUPPORT. Exact values as rational numbers (R36, R66, R134, R138, R142): sums, products, order, quotients and roots. -/

namespace Sys2Proof.Machine

/-! ### Dyadic numbers -/

/-- A magnitude moved to a lower exponent is the same number. -/
theorem mul_zpow_of_le (m : Nat) (e g : ℤ) (h : g ≤ e) : ((m * 2 ^ (e - g).toNat : Nat) : ℚ) * 2 ^ g = m * 2 ^ e := by
  have hexp : ((e - g).toNat : ℤ) = e - g := Int.toNat_of_nonneg (by omega)
  rw [Nat.cast_mul, Nat.cast_pow, Nat.cast_ofNat, ← zpow_natCast, hexp, mul_assoc, ← zpow_add₀ two_ne_zero, sub_add_cancel]

theorem two_zpow_pos (z : ℤ) : (0 : ℚ) < 2 ^ z := zpow_pos two_pos z

theorem two_zpow_lt_iff (a b : ℤ) : (2 : ℚ) ^ a < 2 ^ b ↔ a < b := zpow_lt_zpow_iff_right₀ one_lt_two

theorem two_zpow_le_iff (a b : ℤ) : (2 : ℚ) ^ a ≤ 2 ^ b ↔ a ≤ b := zpow_le_zpow_iff_right₀ one_lt_two

/-- A dyadic number is 0 where its significand is. -/
theorem mul_zpow_eq_zero (m : Nat) (e : ℤ) : (m : ℚ) * 2 ^ e = 0 ↔ m = 0 := by
  rw [mul_eq_zero, Nat.cast_eq_zero, or_iff_left (two_zpow_pos e).ne']

/-- The leading bit of a dyadic number. -/
theorem zpow_log2_le (m : Nat) (e : ℤ) (hm : m ≠ 0) : (2 : ℚ) ^ ((m.log2 : ℤ) + e) ≤ m * 2 ^ e := by
  rw [zpow_add₀ two_ne_zero, zpow_natCast]
  exact mul_le_mul_of_nonneg_right (by exact_mod_cast Nat.log2_self_le hm) (two_zpow_pos e).le

theorem lt_zpow_log2 (m : Nat) (e : ℤ) : (m : ℚ) * 2 ^ e < 2 ^ ((m.log2 : ℤ) + e + 1) := by
  rw [add_right_comm, zpow_add₀ two_ne_zero, ← Nat.cast_succ, zpow_natCast]
  exact mul_lt_mul_of_pos_right (by exact_mod_cast Nat.lt_log2_self) (two_zpow_pos e)

/-- The binade of a dyadic number is that of its leading bit. -/
theorem binade_eq (m : Nat) (e k : ℤ) (hm : m ≠ 0) (hlo : (2 : ℚ) ^ k ≤ m * 2 ^ e) (hhi : (m : ℚ) * 2 ^ e < 2 ^ (k + 1)) :
    k = (m.log2 : ℤ) + e := by
  have h₁ := (two_zpow_lt_iff _ _).mp (hlo.trans_lt (lt_zpow_log2 m e))
  have h₂ := (two_zpow_lt_iff _ _).mp ((zpow_log2_le m e hm).trans_lt hhi)
  omega

/-! ### Sums, products and order (R134, R138, R142) -/

@[simp] theorem Val.rat_fin (s : Bool) (m : Nat) (e : ℤ) : (Val.fin s m e).rat = (if s then -1 else 1) * (m * 2 ^ e) := rfl

/-- A finite value with a signed significand. -/
theorem rat_signed (s : Bool) (m : Nat) (e g : ℤ) (h : g ≤ e) :
    ((if s then -((m * 2 ^ (e - g).toNat : Nat) : ℤ) else ((m * 2 ^ (e - g).toNat : Nat) : ℤ) : ℤ) : ℚ) * 2 ^ g = (Val.fin s m e).rat := by
  rw [Val.rat_fin, ← mul_zpow_of_le m e g h]
  cases s
  · simp only [Bool.false_eq_true, if_false, Int.cast_natCast, one_mul]
  · simp only [if_true, Int.cast_neg, Int.cast_natCast, neg_mul, one_mul]

/-- Two finite values at their lower exponent are what they were. -/
theorem alignPair_rat (s t : Bool) (m n : Nat) (e f : ℤ) :
    ((alignPair s m e t n f).1 : ℚ) * 2 ^ (alignPair s m e t n f).2.2 = (Val.fin s m e).rat ∧
      ((alignPair s m e t n f).2.1 : ℚ) * 2 ^ (alignPair s m e t n f).2.2 = (Val.fin t n f).rat :=
  ⟨rat_signed s m e _ (min_le_left e f), rat_signed t n f _ (min_le_right e f)⟩

/-- An integer significand with its sign apart. -/
theorem rat_ofSigned (c g : ℤ) : (Val.fin (decide (c < 0)) c.natAbs g).rat = c * 2 ^ g := by
  rw [Val.rat_fin, ← mul_assoc, Nat.cast_natAbs]
  by_cases h : c < 0
  · simp [h, abs_of_neg h]
  · simp [h, abs_of_nonneg (not_lt.mp h)]

/-- A signed finite value is 0 where its significand is. -/
theorem rat_eq_zero_iff (s : Bool) (m : Nat) (e : ℤ) : (Val.fin s m e).rat = 0 ↔ m = 0 := by
  rw [Val.rat_fin, mul_eq_zero, mul_zpow_eq_zero, or_iff_right]
  split <;> norm_num

theorem add_fin_zeros (down s t : Bool) (e f : ℤ) : (Val.fin s 0 e).add down (.fin t 0 f) = (.fin (if s = t then s else down) 0 0, 0) := rfl

/-- The sum of two finite values, not both zero. -/
theorem add_fin (down s t : Bool) (m n : Nat) (e f : ℤ) (h : ¬ (m = 0 ∧ n = 0)) :
    (Val.fin s m e).add down (.fin t n f) =
      let p := alignPair s m e t n f
      (if p.1 + p.2.1 = 0 then .fin down 0 0 else .fin (decide (p.1 + p.2.1 < 0)) (p.1 + p.2.1).natAbs p.2.2, 0) := by
  simp only [Val.add, if_neg h]
  split <;> rfl

/-- A sum is exact, and an exact zero has the sign that the mode gives it (R134). -/
theorem add_fin_exact (down s t : Bool) (m n : Nat) (e f : ℤ) :
    ∃ z k g, (Val.fin s m e).add down (.fin t n f) = (.fin z k g, 0) ∧ (Val.fin z k g).rat = (Val.fin s m e).rat + (Val.fin t n f).rat ∧
      ((Val.fin s m e).rat + (Val.fin t n f).rat = 0 → z = if m = 0 ∧ n = 0 ∧ s = t then s else down) := by
  by_cases hz : m = 0 ∧ n = 0
  · obtain ⟨rfl, rfl⟩ := hz
    exact ⟨_, _, _, add_fin_zeros down s t e f, by simp, fun _ => by simp⟩
  · obtain ⟨ha, hb⟩ := alignPair_rat s t m n e f
    have hsum : (((alignPair s m e t n f).1 + (alignPair s m e t n f).2.1 : ℤ) : ℚ) * 2 ^ (alignPair s m e t n f).2.2 =
        (Val.fin s m e).rat + (Val.fin t n f).rat := by
      rw [Int.cast_add, add_mul, ha, hb]
    have hsign : ¬ (m = 0 ∧ n = 0 ∧ s = t) := fun h => hz ⟨h.1, h.2.1⟩
    rw [add_fin down s t m n e f hz, if_neg hsign]
    generalize alignPair s m e t n f = p at *
    by_cases hc : p.1 + p.2.1 = 0
    · rw [hc, Int.cast_zero, zero_mul] at hsum
      exact ⟨down, 0, 0, by simp [hc], ((rat_eq_zero_iff _ _ _).mpr rfl).trans hsum, fun _ => rfl⟩
    · refine ⟨_, _, _, by simp [hc], (rat_ofSigned _ _).trans hsum, fun h0 => absurd ?_ hc⟩
      rw [← hsum, mul_eq_zero, or_iff_left (two_zpow_pos _).ne'] at h0
      exact_mod_cast h0

/-- A product is exact, with the product of the signs. -/
theorem mul_fin_rat (s t : Bool) (m n : Nat) (e f : ℤ) :
    (Val.fin (s != t) (m * n) (e + f)).rat = (Val.fin s m e).rat * (Val.fin t n f).rat := by
  rw [Val.rat_fin, Val.rat_fin, Val.rat_fin, Nat.cast_mul, zpow_add₀ two_ne_zero]
  cases s <;> cases t <;> simp <;> ring

/-- The order of two finite values is that of the numbers (R142). -/
theorem cmp_fin (s t : Bool) (m n : Nat) (e f : ℤ) :
    (Val.fin s m e).cmp (.fin t n f) =
      if (Val.fin s m e).rat < (Val.fin t n f).rat then -1 else if (Val.fin s m e).rat = (Val.fin t n f).rat then 0 else 1 := by
  obtain ⟨ha, hb⟩ := alignPair_rat s t m n e f
  have hg := two_zpow_pos (alignPair s m e t n f).2.2
  rw [← ha, ← hb]
  simp only [Val.cmp, mul_lt_mul_iff_left₀ hg, mul_left_inj' hg.ne', Int.cast_lt, Int.cast_inj]

theorem cmp_fin_neg_iff (s t : Bool) (m n : Nat) (e f : ℤ) :
    (Val.fin s m e).cmp (.fin t n f) < 0 ↔ (Val.fin s m e).rat < (Val.fin t n f).rat := by
  rw [cmp_fin]
  split_ifs <;> simp_all

theorem cmp_fin_eq_zero_iff (s t : Bool) (m n : Nat) (e f : ℤ) :
    (Val.fin s m e).cmp (.fin t n f) = 0 ↔ (Val.fin s m e).rat = (Val.fin t n f).rat := by
  rw [cmp_fin]
  split_ifs with hlt heq
  · exact iff_of_false (by decide) hlt.ne
  · exact iff_of_true rfl heq
  · exact iff_of_false (by decide) heq

theorem cmp_fin_pos_iff (s t : Bool) (m n : Nat) (e f : ℤ) :
    (Val.fin s m e).cmp (.fin t n f) > 0 ↔ (Val.fin t n f).rat < (Val.fin s m e).rat := by
  rw [cmp_fin]
  split_ifs with hlt heq
  · exact iff_of_false (by decide) (not_lt.mpr hlt.le)
  · exact iff_of_false (by decide) heq.not_gt
  · exact iff_of_true (by decide) (lt_of_le_of_ne (not_lt.mp hlt) (Ne.symm heq))

/-- A positive finite value. -/
@[simp] theorem rat_pos (m : Nat) (e : ℤ) : (Val.fin false m e).rat = m * 2 ^ e := by simp

/-! ### Scales (R36) -/

/-- Multiplying by a power of two is exact. -/
theorem applyScale_fin (c : BitVec 8) (s : Bool) (m : Nat) (e : ℤ) (hc : c ≠ 255) :
    ∃ e', applyScale c (.fin s m e) = .fin s m e' ∧ (m : ℚ) * 2 ^ e' = m * 2 ^ e * 2 ^ ((c.toNat : ℤ) - 127) :=
  ⟨_, if_neg hc, by rw [zpow_add₀ two_ne_zero, mul_assoc]⟩

/-! ### Quotients and roots (R139) -/

/-- A magnitude cut with its sticky bit: even where nothing was cut off, and then the number itself. -/
theorem jam_even (m : Nat) (sticky : Bool) (e : ℤ) (h : (2 * m + sticky.toNat) % 2 = 0) :
    sticky = false ∧ ((2 * m + sticky.toNat : Nat) : ℚ) * 2 ^ (e - 1) = m * 2 ^ e := by
  cases sticky
  · refine ⟨rfl, ?_⟩
    rw [Bool.toNat_false, add_zero, Nat.cast_mul, zpow_sub₀ two_ne_zero, zpow_one]
    push_cast
    ring
  · simp only [Bool.toNat_true] at h
    omega

/-- Odd where something was cut off: then its neighbours are the magnitude cut and the next one. -/
theorem jam_odd (m : Nat) (sticky : Bool) (e : ℤ) (h : (2 * m + sticky.toNat) % 2 = 1) :
    sticky = true ∧ (((2 * m + sticky.toNat : Nat) : ℚ) - 1) * 2 ^ (e - 1) = m * 2 ^ e ∧
      (((2 * m + sticky.toNat : Nat) : ℚ) + 1) * 2 ^ (e - 1) = (m + 1) * 2 ^ e := by
  cases sticky
  · simp only [Bool.toNat_false] at h
    omega
  · rw [Bool.toNat_true, zpow_sub₀ two_ne_zero, zpow_one]
    push_cast
    exact ⟨rfl, by ring, by ring⟩

/-- The quotient's significand has at least 100 bits. -/
theorem quotient_ge (m n : Nat) (hm : m ≠ 0) (hn : n ≠ 0) : 2 ^ 99 ≤ m * 2 ^ (n.log2 + 100) / n := by
  rw [Nat.le_div_iff_mul_le (Nat.pos_of_ne_zero hn)]
  calc 2 ^ 99 * n ≤ 2 ^ 99 * 2 ^ (n.log2 + 1) := Nat.mul_le_mul_left _ Nat.lt_log2_self.le
    _ = 2 ^ (n.log2 + 100) := by rw [← Nat.pow_add]; congr 1; omega
    _ ≤ m * 2 ^ (n.log2 + 100) := Nat.le_mul_of_pos_left _ (Nat.pos_of_ne_zero hm)

/-- The exact quotient of two magnitudes as a quotient of naturals. -/
theorem quotient_rat (m n : Nat) (e f : ℤ) (k : Nat) (hn : n ≠ 0) :
    (m : ℚ) * 2 ^ e / (n * 2 ^ f) = ((m * 2 ^ k : Nat) : ℚ) / n * 2 ^ (e - f - k) := by
  have hn' : (n : ℚ) ≠ 0 := Nat.cast_ne_zero.mpr hn
  rw [zpow_sub₀ two_ne_zero, zpow_sub₀ two_ne_zero, zpow_natCast, Nat.cast_mul, Nat.cast_pow, Nat.cast_ofNat]
  have h₁ := (two_zpow_pos f).ne'
  have h₂ : (2 : ℚ) ^ k ≠ 0 := pow_ne_zero _ two_ne_zero
  field_simp

/-- A quotient is exact or cut far below any rounding. -/
theorem divVal_fin (s t : Bool) (m n : Nat) (e f : ℤ) (hm : m ≠ 0) (hn : n ≠ 0) :
    ∃ k g, divVal (.fin s m e) (.fin t n f) = (.fin (s != t) k g, 0) ∧ 2 ^ 99 ≤ k ∧
      (k % 2 = 0 → (k : ℚ) * 2 ^ g = m * 2 ^ e / (n * 2 ^ f)) ∧
      (k % 2 = 1 → (k - 1 : ℚ) * 2 ^ g < m * 2 ^ e / (n * 2 ^ f) ∧ (m : ℚ) * 2 ^ e / (n * 2 ^ f) < (k + 1 : ℚ) * 2 ^ g) := by
  have hbig := quotient_ge m n hm hn
  have hpos : (0 : ℚ) < n := by exact_mod_cast Nat.pos_of_ne_zero hn
  rw [quotient_rat m n e f (n.log2 + 100) hn]
  simp only [divVal, if_neg hn, if_neg hm, jamVal]
  generalize m * 2 ^ (n.log2 + 100) = a at *
  have hg := two_zpow_pos (e - f - ((n.log2 + 100 : Nat) : ℤ))
  refine ⟨_, _, rfl, by omega, fun heven => ?_, fun hodd => ?_⟩
  · obtain ⟨hsticky, hval⟩ := jam_even _ _ (e - f - ((n.log2 + 100 : Nat) : ℤ)) heven
    have hdvd : n ∣ a := Nat.dvd_of_mod_eq_zero (by simpa using hsticky)
    rw [hval, Nat.cast_div hdvd hpos.ne']
  · obtain ⟨hsticky, hlow, hhigh⟩ := jam_odd _ _ (e - f - ((n.log2 + 100 : Nat) : ℤ)) hodd
    have hrem : 0 < a % n := Nat.pos_of_ne_zero (by simpa using hsticky)
    have hlt := Nat.mod_lt a (Nat.pos_of_ne_zero hn)
    have hdiv := Nat.div_add_mod a n
    rw [hlow, hhigh, mul_lt_mul_iff_left₀ hg, mul_lt_mul_iff_left₀ hg, lt_div_iff₀ hpos, div_lt_iff₀ hpos]
    exact ⟨by exact_mod_cast (by nlinarith : a / n * n < a), by exact_mod_cast (by nlinarith : a < (a / n + 1) * n)⟩

/-- The square root built so far, and the bits still to come, enclose the root. -/
theorem isqrtFrom_spec (n k r : Nat) (hlo : r * r ≤ n) (hhi : n < (r + 2 ^ k) * (r + 2 ^ k)) :
    isqrtFrom n k r * isqrtFrom n k r ≤ n ∧ n < (isqrtFrom n k r + 1) * (isqrtFrom n k r + 1) := by
  induction k generalizing r with
  | zero => exact ⟨hlo, hhi⟩
  | succ k ih =>
    rw [isqrtFrom]
    by_cases h : (r + 2 ^ k) * (r + 2 ^ k) ≤ n
    · rw [if_pos h]
      exact ih _ h (by rwa [add_assoc, ← mul_two, ← Nat.pow_succ])
    · rw [if_neg h]
      exact ih _ hlo (not_le.mp h)

/-- floor(√n). -/
theorem isqrt_spec (n : Nat) : isqrt n * isqrt n ≤ n ∧ n < (isqrt n + 1) * (isqrt n + 1) := by
  refine isqrtFrom_spec n _ 0 (Nat.zero_le n) ?_
  rw [Nat.zero_add, ← Nat.pow_add]
  exact Nat.lt_log2_self.trans_le (Nat.pow_le_pow_right two_pos (by omega))

theorem le_isqrt (a n : Nat) (h : a * a ≤ n) : a ≤ isqrt n := by
  have := (isqrt_spec n).2
  by_contra hlt
  nlinarith [not_le.mp hlt]

/-- A root is exact or cut far below any rounding. -/
theorem sqrtVal_fin (m : Nat) (e : ℤ) (hm : m ≠ 0) :
    ∃ k g, sqrtVal (.fin false m e) = (.fin false k g, 0) ∧ 2 ^ 99 ≤ k ∧
      (k % 2 = 0 → ((k : ℚ) * 2 ^ g) ^ 2 = m * 2 ^ e) ∧
      (k % 2 = 1 → ((k - 1 : ℚ) * 2 ^ g) ^ 2 < m * 2 ^ e ∧ (m : ℚ) * 2 ^ e < ((k + 1 : ℚ) * 2 ^ g) ^ 2) := by
  obtain ⟨k, hk, heven, hbig⟩ : ∃ k : Nat, (if e % 2 = 0 then 200 else 201) = k ∧ (e - k) / 2 * 2 = e - k ∧ 200 ≤ k := by
    by_cases h : e % 2 = 0
    · exact ⟨200, if_pos h, by omega, le_refl _⟩
    · exact ⟨201, if_neg h, by omega, by decide⟩
  have hx : (m : ℚ) * 2 ^ e = ((m * 2 ^ k : Nat) : ℚ) * (2 ^ ((e - k) / 2)) ^ 2 := by
    rw [← zpow_natCast, ← zpow_mul, Nat.cast_ofNat, heven, zpow_sub₀ two_ne_zero, zpow_natCast, Nat.cast_mul, Nat.cast_pow, Nat.cast_ofNat]
    have h₂ : (2 : ℚ) ^ k ≠ 0 := pow_ne_zero _ two_ne_zero
    field_simp
  have hroot : 2 ^ 99 ≤ isqrt (m * 2 ^ k) := by
    refine le_isqrt _ _ ?_
    calc 2 ^ 99 * 2 ^ 99 ≤ 2 ^ 200 := by norm_num
      _ ≤ 2 ^ k := Nat.pow_le_pow_right two_pos hbig
      _ ≤ m * 2 ^ k := Nat.le_mul_of_pos_left _ (Nat.pos_of_ne_zero hm)
  simp only [sqrtVal, if_neg hm, Bool.false_eq_true, if_false, hk, jamVal]
  rw [hx]
  generalize m * 2 ^ k = a at *
  obtain ⟨hlo, hhi⟩ := isqrt_spec a
  generalize isqrt a = r at *
  have hg : (0 : ℚ) < (2 ^ ((e - k) / 2)) ^ 2 := pow_pos (two_zpow_pos _) 2
  refine ⟨_, _, rfl, by omega, fun heven => ?_, fun hodd => ?_⟩
  · obtain ⟨hsticky, hval⟩ := jam_even _ _ ((e - k) / 2) heven
    have hsq : r * r = a := by simpa using hsticky
    rw [hval, mul_pow, ← hsq, Nat.cast_mul, sq (r : ℚ)]
  · obtain ⟨hsticky, hlow, hhigh⟩ := jam_odd _ _ ((e - k) / 2) hodd
    have hne : r * r ≠ a := by simpa using hsticky
    rw [hlow, hhigh, mul_pow, mul_pow, mul_lt_mul_iff_left₀ hg, mul_lt_mul_iff_left₀ hg, sq, sq]
    exact ⟨by exact_mod_cast lt_of_le_of_ne hlo hne, by exact_mod_cast hhi⟩

end Sys2Proof.Machine

/-! SUPPORT. Float formats (R23, R28 to R32): what their codes mean, in the order of the codes. -/

namespace Sys2Proof.Machine

/-! ### The entries that a format table may hold (R23) -/

/-- What every legal float entry has: a sign, an exponent field and a fraction in its width, at least one infinity-free binade. -/
structure Fmt.WfFloat (F : Fmt) : Prop where
  kind : F.kind = .float
  wid : F.wid = 1 + F.ew + F.mw
  ew_pos : 1 ≤ F.ew
  room : 3 ≤ F.ew + F.mw
  spc_lt : F.spc < 4
  ieee : F.spc = 0 → 2 ≤ F.ew

/-- The entries at reset that are float formats. -/
theorem wfFloat_of_reset : ∀ v ∈ ftReset, (Fmt.ofEntry v).kind = .float →
    (Fmt.ofEntry v).wid = 1 + (Fmt.ofEntry v).ew + (Fmt.ofEntry v).mw ∧ 1 ≤ (Fmt.ofEntry v).ew ∧ 3 ≤ (Fmt.ofEntry v).ew + (Fmt.ofEntry v).mw ∧
      ((Fmt.ofEntry v).spc = 0 → 2 ≤ (Fmt.ofEntry v).ew) := by
  simp [ftReset, Fmt.ofEntry]

theorem Fmt.spc_ofEntry_lt (v : BitVec 32) : (Fmt.ofEntry v).spc < 4 := (v.extractLsb' 27 2).isLt

theorem Fmt.WfFloat.of_legal {F : Fmt} (h : F.legalFloat) : F.WfFloat := by
  obtain ⟨hkind, v, hv, rfl⟩ := h
  have hfields : (Fmt.ofEntry v).wid = 1 + (Fmt.ofEntry v).ew + (Fmt.ofEntry v).mw ∧ 1 ≤ (Fmt.ofEntry v).ew ∧
      3 ≤ (Fmt.ofEntry v).ew + (Fmt.ofEntry v).mw ∧ ((Fmt.ofEntry v).spc = 0 → 2 ≤ (Fmt.ofEntry v).ew) := by
    simp only [legalEntry, Bool.or_eq_true, List.contains_iff_mem, Bool.and_eq_true, decide_eq_true_eq, beq_iff_eq, bne_iff_ne] at hv
    rcases hv with hv | hv
    · exact wfFloat_of_reset v hv hkind
    · omega
  obtain ⟨hwid, hew, hroom, hieee⟩ := hfields
  exact ⟨hkind, hwid, hew, hroom, Fmt.spc_ofEntry_lt v, hieee⟩

/-! ### Codes without their sign -/

/-- The sign bit of a code. -/
def Fmt.signBit (F : Fmt) (s : Bool) : Nat := if s then 2 ^ (F.ew + F.mw) else 0

/-- The number that the exponent and fraction bits of a code stand for (R28), were the exponent field as wide as it takes and no code
special. -/
def Fmt.mag (F : Fmt) (c : Nat) : ℚ :=
  if c / 2 ^ F.mw = 0 then (c % 2 ^ F.mw : Nat) * 2 ^ F.eminSub
  else (2 ^ F.mw + c % 2 ^ F.mw : Nat) * 2 ^ (((c / 2 ^ F.mw : Nat) : ℤ) - F.bias - F.mw)

section
variable (F : Fmt)

theorem Fmt.mag_split (ex f : Nat) (hf : f < 2 ^ F.mw) :
    F.mag (ex * 2 ^ F.mw + f) = if ex = 0 then (f : ℚ) * 2 ^ F.eminSub else ((2 ^ F.mw + f : Nat) : ℚ) * 2 ^ ((ex : ℤ) - F.bias - F.mw) := by
  have hdiv : (ex * 2 ^ F.mw + f) / 2 ^ F.mw = ex := by
    rw [Nat.add_comm, Nat.add_mul_div_right _ _ (Nat.two_pow_pos _), Nat.div_eq_of_lt hf, Nat.zero_add]
  have hmod : (ex * 2 ^ F.mw + f) % 2 ^ F.mw = f := by
    rw [Nat.add_comm, Nat.add_mul_mod_self_right, Nat.mod_eq_of_lt hf]
  rw [Fmt.mag, hdiv, hmod]

@[simp] theorem Fmt.mag_zero : F.mag 0 = 0 := by simp [Fmt.mag]

/-- A subnormal code is a multiple of the smallest subnormal. -/
theorem Fmt.mag_of_lt (f : Nat) (hf : f < 2 ^ F.mw) : F.mag f = f * 2 ^ F.eminSub := by
  simpa using F.mag_split 0 f hf

/-- A code and the next: a larger fraction, or the next binade. -/
theorem Fmt.mag_lt_succ (c : Nat) : F.mag c < F.mag (c + 1) := by
  have hpos := Nat.two_pow_pos F.mw
  obtain ⟨ex, f, hf, rfl⟩ : ∃ ex f, f < 2 ^ F.mw ∧ c = ex * 2 ^ F.mw + f :=
    ⟨c / 2 ^ F.mw, c % 2 ^ F.mw, Nat.mod_lt _ hpos, (Nat.div_add_mod' _ _).symm⟩
  have hsucc : (f : ℚ) < (f + 1 : Nat) := by exact_mod_cast f.lt_succ_self
  by_cases hnext : f + 1 < 2 ^ F.mw
  · rw [add_assoc, F.mag_split ex f hf, F.mag_split ex (f + 1) hnext]
    split_ifs with hex
    · exact mul_lt_mul_of_pos_right hsucc (two_zpow_pos _)
    · exact mul_lt_mul_of_pos_right (by exact_mod_cast (by omega : 2 ^ F.mw + f < 2 ^ F.mw + (f + 1))) (two_zpow_pos _)
  · have hbinade : ex * 2 ^ F.mw + f + 1 = (ex + 1) * 2 ^ F.mw + 0 := by rw [Nat.add_mul]; omega
    rw [hbinade, F.mag_split ex f hf, F.mag_split (ex + 1) 0 hpos, if_neg (Nat.succ_ne_zero ex), Nat.add_zero]
    split_ifs with hex
    · rw [hex, Fmt.eminSub, show ((0 + 1 : Nat) : ℤ) - F.bias - F.mw = 1 - F.bias - F.mw by push_cast; ring]
      exact mul_lt_mul_of_pos_right (by exact_mod_cast hf) (two_zpow_pos _)
    · rw [show ((ex + 1 : Nat) : ℤ) - F.bias - F.mw = 1 + (ex - F.bias - F.mw) by push_cast; ring, zpow_add₀ two_ne_zero, zpow_one,
        ← mul_assoc]
      refine mul_lt_mul_of_pos_right ?_ (two_zpow_pos _)
      exact_mod_cast (by omega : 2 ^ F.mw + f < 2 ^ F.mw * 2)

/-- Codes are in the order of their numbers. -/
theorem Fmt.mag_strictMono : StrictMono F.mag := strictMono_nat_of_lt_succ F.mag_lt_succ

theorem Fmt.mag_eq_zero_iff (c : Nat) : F.mag c = 0 ↔ c = 0 := F.mag_zero ▸ F.mag_strictMono.injective.eq_iff

end

/-! ### Decoding (R28, R29, R32) -/

section
variable {F : Fmt} (hF : F.WfFloat)
include hF

/-- The fields of a code. -/
theorem decode_fields (toInt s : Bool) (ex f : Nat) (hex : ex < 2 ^ F.ew) (hf : f < 2 ^ F.mw) :
    F.decode toInt (F.signBit s + (ex * 2 ^ F.mw + f)) =
      if F.rsv = true ∧ s = true ∧ ex = 0 ∧ f = 0 then (if toInt then .zero else .nan, fRS)
      else if F.spc = 0 ∧ ex = 2 ^ F.ew - 1 then (if f = 0 then .inf s else .nan, 0)
      else if (F.spc = 1 ∨ F.spc = 3) ∧ ex = 2 ^ F.ew - 1 ∧ f = 2 ^ F.mw - 1 then (.nan, 0)
      else if ex = 0 then (.fin s f F.eminSub, 0) else (.fin s (2 ^ F.mw + f) ((ex : ℤ) - F.bias - F.mw), 0) := by
  have hbits : F.signBit s + (ex * 2 ^ F.mw + f) = f + 2 ^ F.mw * (ex + 2 ^ F.ew * s.toNat) := by
    cases s <;> simp [Fmt.signBit, Nat.pow_add] <;> ring
  have hfrac : (f + 2 ^ F.mw * (ex + 2 ^ F.ew * s.toNat)) % 2 ^ F.mw = f := by
    rw [Nat.add_mul_mod_self_left, Nat.mod_eq_of_lt hf]
  have hrest : (f + 2 ^ F.mw * (ex + 2 ^ F.ew * s.toNat)) / 2 ^ F.mw = ex + 2 ^ F.ew * s.toNat := by
    rw [Nat.add_mul_div_left _ _ (Nat.two_pow_pos _), Nat.div_eq_of_lt hf, Nat.zero_add]
  have hexp : (ex + 2 ^ F.ew * s.toNat) % 2 ^ F.ew = ex := by
    rw [Nat.add_mul_mod_self_left, Nat.mod_eq_of_lt hex]
  have hsign : (ex + 2 ^ F.ew * s.toNat) / 2 ^ F.ew = s.toNat := by
    rw [Nat.add_mul_div_left _ _ (Nat.two_pow_pos _), Nat.div_eq_of_lt hex, Nat.zero_add]
  have hs : s.toNat ≤ 1 := Bool.toNat_le s
  have hlt : f + 2 ^ F.mw * (ex + 2 ^ F.ew * s.toNat) < 2 ^ (1 + F.ew + F.mw) := by
    rw [Nat.pow_add, Nat.pow_add, Nat.pow_one]
    calc f + 2 ^ F.mw * (ex + 2 ^ F.ew * s.toNat) < 2 ^ F.mw * (ex + 2 ^ F.ew * s.toNat + 1) := by rw [Nat.mul_succ]; omega
      _ ≤ 2 ^ F.mw * (2 * 2 ^ F.ew) := Nat.mul_le_mul_left _ (by nlinarith)
      _ = 2 * 2 ^ F.ew * 2 ^ F.mw := Nat.mul_comm _ _
  have htop : (F.rsv && f + 2 ^ F.mw * (ex + 2 ^ F.ew * s.toNat) == 2 ^ (F.ew + F.mw)) = true ↔
      F.rsv = true ∧ s = true ∧ ex = 0 ∧ f = 0 := by
    rw [Bool.and_eq_true, beq_iff_eq, and_congr_right_iff]
    intro _
    constructor
    · intro h
      rw [h, Nat.pow_add] at hfrac hrest
      rw [Nat.mul_mod_left] at hfrac
      rw [Nat.mul_div_cancel _ (Nat.two_pow_pos _)] at hrest
      rw [← hrest] at hexp hsign
      rw [Nat.mod_self] at hexp
      rw [Nat.div_self (Nat.two_pow_pos _)] at hsign
      have hs : s = true := by
        cases s
        · exact absurd hsign (by decide)
        · rfl
      exact ⟨hs, hexp.symm, hfrac.symm⟩
    · rintro ⟨rfl, rfl, rfl⟩
      simp [Nat.pow_add, Nat.mul_comm]
  have hneg : (s.toNat % 2 == 1) = s := by cases s <;> rfl
  rw [hbits]
  simp only [Fmt.decode, hF.kind, Nat.mod_eq_of_lt hlt, htop]
  rw [Nat.add_comm F.ew, Nat.pow_add, ← Nat.div_div_eq_div_mul, hrest, hsign, hexp, hfrac, hneg]
  simp only [Bool.and_eq_true, Bool.or_eq_true, beq_iff_eq, and_assoc]

/-- The codes of finite numbers are those up to `maxCode` (Table 02.4). -/
theorem maxCode_eq : F.maxCode + 1 =
    if F.spc = 0 then (2 ^ F.ew - 1) * 2 ^ F.mw else if F.spc = 2 then 2 ^ (F.ew + F.mw) else 2 ^ (F.ew + F.mw) - 1 := by
  have hmw := Nat.two_pow_pos F.mw
  have hew : 2 ^ 1 ≤ 2 ^ F.ew := Nat.pow_le_pow_right two_pos hF.ew_pos
  have hspc := hF.spc_lt
  unfold Fmt.maxCode
  split
  case h_1 h0 =>
    obtain ⟨n, hn⟩ : ∃ n, 2 ^ F.ew = n + 2 := ⟨2 ^ F.ew - 2, by omega⟩
    rw [if_pos h0, hn, Nat.add_sub_cancel, show n + 2 - 1 = n + 1 from rfl, Nat.add_mul]
    omega
  case h_2 h2 =>
    rw [if_neg (by omega), if_pos h2]
    exact Nat.sub_add_cancel (Nat.two_pow_pos _)
  case h_3 h0 h2 =>
    rw [if_neg (mt h0 (by decide)), if_neg (mt h2 (by decide)), Nat.pow_add]
    by_cases hm : F.mw = 0
    · rw [if_pos hm, hm]
      omega
    · have hmw2 : 2 ^ 1 ≤ 2 ^ F.mw := Nat.pow_le_pow_right two_pos (Nat.pos_of_ne_zero hm)
      obtain ⟨n, hn⟩ : ∃ n, 2 ^ F.ew = n + 1 := ⟨2 ^ F.ew - 1, by omega⟩
      rw [if_neg hm, hn, Nat.add_sub_cancel, Nat.add_mul]
      omega

/-- The codes that are no numbers: infinities and NaNs (Table 02.4). -/
def Fmt.special (F : Fmt) (ex f : Nat) : Prop :=
  F.spc = 0 ∧ ex = 2 ^ F.ew - 1 ∨ (F.spc = 1 ∨ F.spc = 3) ∧ ex = 2 ^ F.ew - 1 ∧ f = 2 ^ F.mw - 1

/-- A code is a number up to `maxCode`, and special above. -/
theorem le_maxCode_iff (ex f : Nat) (hex : ex < 2 ^ F.ew) (hf : f < 2 ^ F.mw) : ex * 2 ^ F.mw + f ≤ F.maxCode ↔ ¬ F.special ex f := by
  have hspc := hF.spc_lt
  have hmax := maxCode_eq hF
  rw [← Nat.lt_succ_iff, Nat.succ_eq_add_one, hmax, Nat.pow_add]
  obtain ⟨a, ha⟩ : ∃ a, 2 ^ F.ew = a + 1 := ⟨2 ^ F.ew - 1, by have := Nat.two_pow_pos F.ew; omega⟩
  have hle : ex * 2 ^ F.mw ≤ a * 2 ^ F.mw := Nat.mul_le_mul_right _ (by omega)
  rw [Fmt.special, ha, Nat.add_sub_cancel, Nat.add_mul]
  split_ifs with h0 h2
  · have hless : ex ≠ a → (ex + 1) * 2 ^ F.mw ≤ a * 2 ^ F.mw := fun h => Nat.mul_le_mul_right _ (by omega)
    rw [Nat.add_mul] at hless
    constructor
    · rintro hlt (⟨-, rfl⟩ | ⟨h, -⟩) <;> omega
    · intro hnot
      have := hless fun h => hnot (.inl ⟨h0, h⟩)
      omega
  · exact iff_of_true (by omega) (by omega)
  · have hless : ex ≠ a → (ex + 1) * 2 ^ F.mw ≤ a * 2 ^ F.mw := fun h => Nat.mul_le_mul_right _ (by omega)
    rw [Nat.add_mul] at hless
    constructor
    · rintro hlt (⟨h, -⟩ | ⟨-, rfl, rfl⟩) <;> omega
    · intro hnot
      by_cases hex' : ex = a
      · have : f ≠ 2 ^ F.mw - 1 := fun h => hnot (.inr ⟨by omega, hex', h⟩)
        subst hex'
        omega
      · have := hless hex'
        omega

theorem maxCode_lt : F.maxCode < 2 ^ (F.ew + F.mw) := by
  have hmax := maxCode_eq hF
  have hle : (2 ^ F.ew - 1) * 2 ^ F.mw ≤ 2 ^ F.ew * 2 ^ F.mw := Nat.mul_le_mul_right _ (Nat.sub_le _ _)
  rw [← Nat.pow_add] at hle
  split_ifs at hmax <;> omega

theorem maxCode_pos : 0 < F.maxCode := by
  have hmax := maxCode_eq hF
  have hall : 2 ^ 3 ≤ 2 ^ (F.ew + F.mw) := Nat.pow_le_pow_right two_pos hF.room
  have hspc := hF.spc_lt
  split_ifs at hmax with h0
  · have hew : 2 ^ 2 ≤ 2 ^ F.ew := Nat.pow_le_pow_right two_pos (hF.ieee h0)
    have : (2 ^ F.ew - 1) * 1 ≤ (2 ^ F.ew - 1) * 2 ^ F.mw := Nat.mul_le_mul_left _ (Nat.two_pow_pos _)
    omega
  all_goals omega

omit hF in
/-- A code split into its fields. -/
theorem exists_fields (c : Nat) (hc : c < 2 ^ (F.ew + F.mw)) : ∃ ex f, ex < 2 ^ F.ew ∧ f < 2 ^ F.mw ∧ c = ex * 2 ^ F.mw + f :=
  ⟨c / 2 ^ F.mw, c % 2 ^ F.mw, (Nat.div_lt_iff_lt_mul (Nat.two_pow_pos _)).mpr (by rwa [← Nat.pow_add]), Nat.mod_lt _ (Nat.two_pow_pos _),
    (Nat.div_add_mod' _ _).symm⟩

/-- A code up to `maxCode` that is not reserved is its number (R28). -/
theorem decode_of_le_maxCode (toInt s : Bool) (c : Nat) (hc : c ≤ F.maxCode) (hres : ¬ (F.rsv = true ∧ s = true ∧ c = 0)) :
    ∃ m e, F.decode toInt (F.signBit s + c) = (.fin s m e, 0) ∧ (m : ℚ) * 2 ^ e = F.mag c := by
  obtain ⟨ex, f, hex, hf, rfl⟩ := exists_fields c (hc.trans_lt (maxCode_lt hF))
  have hnum := (le_maxCode_iff hF ex f hex hf).mp hc
  have hzero : ex * 2 ^ F.mw + f = 0 ↔ ex = 0 ∧ f = 0 := by
    rw [Nat.add_eq_zero_iff, Nat.mul_eq_zero, or_iff_left (Nat.two_pow_pos _).ne']
  rw [hzero] at hres
  rw [decode_fields hF toInt s ex f hex hf, if_neg hres, if_neg fun h => hnum (.inl h), if_neg fun h => hnum (.inr h), F.mag_split ex f hf]
  split_ifs
  · exact ⟨_, _, rfl, rfl⟩
  · exact ⟨_, _, rfl, rfl⟩

/-- A special or reserved code is no finite number where no integer is computed with it. -/
theorem decode_not_fin (s t : Bool) (c m : Nat) (e : ℤ) (hlt : c < 2 ^ (F.ew + F.mw))
    (h : F.maxCode < c ∨ (F.rsv = true ∧ s = true ∧ c = 0)) : (F.decode false (F.signBit s + c)).1 ≠ .fin t m e := by
  obtain ⟨ex, f, hex, hf, rfl⟩ := exists_fields c hlt
  have hzero : ex * 2 ^ F.mw + f = 0 ↔ ex = 0 ∧ f = 0 := by
    rw [Nat.add_eq_zero_iff, Nat.mul_eq_zero, or_iff_left (Nat.two_pow_pos _).ne']
  rw [decode_fields hF false s ex f hex hf]
  rw [hzero, ← not_le, le_maxCode_iff hF ex f hex hf, not_not] at h
  by_cases hres : F.rsv = true ∧ s = true ∧ ex = 0 ∧ f = 0
  · rw [if_pos hres]
    exact Val.noConfusion
  · rcases h with (h | h) | h
    · rw [if_neg hres, if_pos h]
      split_ifs <;> exact Val.noConfusion
    · rw [if_neg hres, if_neg fun h0 => by omega, if_pos h]
      exact Val.noConfusion
    · exact absurd h hres

/-- Every code is a sign bit and the bits below it. -/
theorem exists_signBit (c : Nat) (hc : c < 2 ^ F.wid) : ∃ s c', c' < 2 ^ (F.ew + F.mw) ∧ c = F.signBit s + c' := by
  rw [hF.wid, Nat.add_assoc, Nat.pow_add, Nat.pow_one] at hc
  by_cases h : c < 2 ^ (F.ew + F.mw)
  · exact ⟨false, c, h, by simp [Fmt.signBit]⟩
  · exact ⟨true, c - 2 ^ (F.ew + F.mw), by omega, by simp only [Fmt.signBit, if_true]; omega⟩

theorem signBit_add_lt (s : Bool) (c : Nat) (hc : c < 2 ^ (F.ew + F.mw)) : F.signBit s + c < 2 ^ F.wid := by
  rw [hF.wid, Nat.add_assoc, Nat.pow_add, Nat.pow_one, Fmt.signBit]
  split <;> omega

/-- A code reads as a finite number where it is a sign bit and a code up to `maxCode`, and not reserved. -/
theorem reads_iff (c : Nat) (s : Bool) (x : ℚ) :
    F.reads c s x ↔ ∃ c' ≤ F.maxCode, c = F.signBit s + c' ∧ ¬ (F.rsv = true ∧ s = true ∧ c' = 0) ∧ F.mag c' = x := by
  constructor
  · rintro ⟨hlt, m, e, hdec, hx⟩
    obtain ⟨t, c', hc', rfl⟩ := exists_signBit hF c hlt
    by_cases hbad : F.maxCode < c' ∨ (F.rsv = true ∧ t = true ∧ c' = 0)
    · exact absurd (congrArg Prod.fst hdec) (decode_not_fin hF t s c' m e hc' hbad)
    · obtain ⟨hle, hres⟩ := not_or.mp hbad
      obtain ⟨m', e', hdec', hmag⟩ := decode_of_le_maxCode hF false t c' (not_lt.mp hle) hres
      rw [hdec'] at hdec
      injection hdec with hval
      injection hval with hs hm he
      subst hs hm he
      exact ⟨c', not_lt.mp hle, rfl, hres, hmag.symm.trans hx⟩
  · rintro ⟨c', hle, rfl, hres, rfl⟩
    obtain ⟨m, e, hdec, hmag⟩ := decode_of_le_maxCode hF false s c' hle hres
    exact ⟨signBit_add_lt hF s c' (hle.trans_lt (maxCode_lt hF)), m, e, hdec, hmag⟩

/-- A code that decodes to a finite number reads as it, cut to the width. -/
theorem reads_of_decode (c m : Nat) (s : Bool) (e : ℤ) (h : (F.decode false c).1 = .fin s m e) : F.reads (c % 2 ^ F.wid) s (m * 2 ^ e) := by
  have hsame : F.decode false c = F.decode false (c % 2 ^ F.wid) := by
    simp only [Fmt.decode, hF.kind, ← hF.wid, Nat.mod_mod]
  have hlt : c % 2 ^ F.wid < 2 ^ F.wid := Nat.mod_lt _ (Nat.two_pow_pos _)
  rw [hsame] at h
  obtain ⟨t, c', hc', hsplit⟩ := exists_signBit hF _ hlt
  rw [hsplit] at h ⊢
  by_cases hbad : F.maxCode < c' ∨ (F.rsv = true ∧ t = true ∧ c' = 0)
  · exact absurd h (decode_not_fin hF t s c' m e hc' hbad)
  · obtain ⟨hle, hres⟩ := not_or.mp hbad
    obtain ⟨m', e', hdec, hmag⟩ := decode_of_le_maxCode hF false t c' (not_lt.mp hle) hres
    rw [hdec] at h
    injection h with hs hm he
    subst hs hm he
    exact (reads_iff hF _ _ _).mpr ⟨c', not_lt.mp hle, rfl, hres, hmag.symm⟩

/-! ### The largest number (R23, R66) -/

/-- The largest number is that of `maxCode`, positive. -/
theorem maxVal_fin : ∃ m e, F.maxVal = .fin false m e ∧ (m : ℚ) * 2 ^ e = F.mag F.maxCode := by
  obtain ⟨m, e, hdec, hmag⟩ := decode_of_le_maxCode hF false false F.maxCode le_rfl (by simp)
  refine ⟨m, e, ?_, hmag⟩
  have hbits : F.signBit false + F.maxCode = F.maxCode := by simp [Fmt.signBit]
  rw [hbits] at hdec
  simp only [Fmt.maxVal, hF.kind, hdec]

theorem maxVal_rat : F.maxVal.rat = F.mag F.maxCode := by
  obtain ⟨m, e, hval, hmag⟩ := maxVal_fin hF
  rw [hval, rat_pos, hmag]

/-- The largest number of either sign is written by `maxCode`. -/
theorem reads_maxCode (s : Bool) : F.reads (F.signBit s + F.maxCode) s F.maxVal.rat :=
  (reads_iff hF _ _ _).mpr ⟨F.maxCode, le_rfl, rfl, fun h => (maxCode_pos hF).ne' h.2.2, (maxVal_rat hF).symm⟩

theorem reads_le_max (c : Nat) (s : Bool) (x : ℚ) (h : F.reads c s x) : x ≤ F.maxVal.rat := by
  obtain ⟨c', hle, -, -, rfl⟩ := (reads_iff hF c s x).mp h
  exact (maxVal_rat hF).symm ▸ F.mag_strictMono.monotone hle

/-- A zero is written with its sign, where that is not the reserved code (R32, R39). -/
theorem reads_zeroCode (s : Bool) : F.reads (F.zeroCode s) (s && !F.rsv) 0 :=
  (reads_iff hF _ _ _).mpr ⟨0, Nat.zero_le _, rfl, by cases s <;> cases F.rsv <;> simp, F.mag_zero⟩

omit hF in
/-- The code of a significand with its leading bit, at weight 2^u. -/
theorem mag_normal (u : ℤ) (hu : F.eminSub ≤ u) (p : Nat) (hp : p < 2 ^ F.mw) :
    F.mag ((u + F.mw + F.bias).toNat * 2 ^ F.mw + p) = ((2 ^ F.mw + p : Nat) : ℚ) * 2 ^ u := by
  unfold Fmt.eminSub at hu
  have hnat : (((u + F.mw + F.bias).toNat : Nat) : ℤ) = u + F.mw + F.bias := Int.toNat_of_nonneg (by omega)
  have hne : (u + F.mw + F.bias).toNat ≠ 0 := by omega
  rw [F.mag_split _ p hp, if_neg hne, hnat, show u + F.mw + F.bias - F.bias - F.mw = u by ring]

omit hF in
/-- A magnitude within the format is written by its code. -/
theorem mag_encodeMag (q : Nat) (t : ℤ) (ht : F.eminSub ≤ t) (hsub : q < 2 ^ F.mw → t = F.eminSub) (hq : q ≤ 2 ^ (F.mw + 1)) :
    F.mag (F.encodeMag q t) = q * 2 ^ t := by
  have hpos := Nat.two_pow_pos F.mw
  have htwo : 2 ^ (F.mw + 1) = 2 ^ F.mw * 2 := Nat.pow_succ ..
  unfold Fmt.encodeMag
  split_ifs with hlow hbig
  · rw [F.mag_of_lt q hlow, hsub hlow]
  · obtain rfl : q = 2 ^ (F.mw + 1) := le_antisymm hq hbig
    have hhalf : 2 ^ (F.mw + 1) / 2 = 2 ^ F.mw := by omega
    simp only [hhalf, Nat.sub_self]
    rw [mag_normal (t + 1) (by omega) 0 hpos, Nat.add_zero, zpow_add₀ two_ne_zero, zpow_one, htwo, Nat.cast_mul, Nat.cast_ofNat]
    ring
  · simp only
    rw [mag_normal t ht _ (by omega), show 2 ^ F.mw + (q - 2 ^ F.mw) = q by omega]

end

end Sys2Proof.Machine

/-! SUPPORT. Rounding and conversion (R37 to R41, R43, R66): how an exact value becomes a code. -/

namespace Sys2Proof.Machine

/-! ### Rounding of a magnitude (R37, R41) -/

/-- An exact number does not round up. -/
theorem not_up_zero (rm : RMode) (neg even : Bool) (d : BitVec 32) : ¬ rm.up neg even 0 d := by
  cases rm <;> simp [RMode.up]

/-- Rounding by the discarded bits is rounding by the fraction they are (Table 02.6). -/
theorem roundsUp_iff (rm : RMode) (neg even : Bool) (r k : Nat) (d : BitVec 32) :
    roundsUp rm neg even r k d = true ↔ rm.up neg even ((r : ℚ) / 2 ^ k) d := by
  have hpos : (0 : ℚ) < 2 ^ k := pow_pos two_pos k
  have hzero : (r : ℚ) / 2 ^ k ≠ 0 ↔ r ≠ 0 := by simp [hpos.ne']
  have hlt : 1 / 2 < (r : ℚ) / 2 ^ k ↔ 2 ^ k < 2 * r := by
    rw [div_lt_div_iff₀ two_pos hpos, one_mul, mul_comm]
    exact_mod_cast Iff.rfl
  have hle : 1 / 2 ≤ (r : ℚ) / 2 ^ k ↔ 2 ^ k ≤ 2 * r := by
    rw [div_le_div_iff₀ two_pos hpos, one_mul, mul_comm]
    exact_mod_cast Iff.rfl
  have heq : (r : ℚ) / 2 ^ k = 1 / 2 ↔ 2 * r = 2 ^ k := by
    rw [div_eq_div_iff hpos.ne' two_ne_zero, one_mul, mul_comm]
    exact_mod_cast Iff.rfl
  have hnearest : (decide (2 * r > 2 ^ k) || (2 * r == 2 ^ k && !even)) = true ↔
      1 / 2 < (r : ℚ) / 2 ^ k ∨ (r : ℚ) / 2 ^ k = 1 / 2 ∧ even = false := by
    rw [hlt, heq]
    simp
  cases rm with
  | rne => exact hnearest
  | rneSat => exact hnearest
  | rtz => simp [roundsUp, RMode.up]
  | rdn => simp only [roundsUp, RMode.up, hzero, Bool.and_eq_true, bne_iff_ne]
  | rup => simp only [roundsUp, RMode.up, hzero, Bool.and_eq_true, bne_iff_ne, Bool.not_eq_true']
  | rna =>
    have hr : 2 ^ k ≤ 2 * r → r ≠ 0 := by have := Nat.two_pow_pos k; omega
    simpa only [roundsUp, RMode.up, hle, Bool.and_eq_true, bne_iff_ne, decide_eq_true_eq] using and_iff_left_of_imp hr
  | sr =>
    have hfloor : ⌊(r : ℚ) / 2 ^ k * 2 ^ 32⌋ = ((r * 2 ^ 32 / 2 ^ k : Nat) : ℤ) := by
      have hcast : (r : ℚ) / 2 ^ k * 2 ^ 32 = ((r * 2 ^ 32 : Nat) : ℚ) / ((2 ^ k : Nat) : ℚ) := by
        push_cast
        ring
      rw [hcast, Rat.floor_natCast_div_natCast]
      rfl
    simp only [roundsUp, RMode.up, hfloor, decide_eq_true_eq, Nat.cast_lt]

/-- A whole number is its own whole part. -/
theorem natCast_split {a n : Nat} {fr : ℚ} (h : (a : ℚ) = n + fr) (h0 : 0 ≤ fr) (h1 : fr < 1) : n = a ∧ fr = 0 := by
  have hle : n ≤ a := by exact_mod_cast (by linarith : (n : ℚ) ≤ a)
  have hlt : a < n + 1 := by exact_mod_cast (by linarith : (a : ℚ) < n + 1)
  obtain rfl : n = a := by omega
  exact ⟨rfl, by linarith⟩

/-- The whole part and the fraction of a number cut at `k` bits. -/
theorem shift_split {a k n : Nat} {fr : ℚ} (h : (a : ℚ) / 2 ^ k = n + fr) (h0 : 0 ≤ fr) (h1 : fr < 1) :
    n = a / 2 ^ k ∧ fr = ((a % 2 ^ k : Nat) : ℚ) / 2 ^ k := by
  have hpos : (0 : ℚ) < 2 ^ k := pow_pos two_pos k
  rw [div_eq_iff hpos.ne'] at h
  have hle : n * 2 ^ k ≤ a := by exact_mod_cast (by nlinarith : (n : ℚ) * 2 ^ k ≤ a)
  have hlt : a < (n + 1) * 2 ^ k := by exact_mod_cast (by nlinarith : (a : ℚ) < (n + 1) * 2 ^ k)
  have hn : a / 2 ^ k = n := Nat.div_eq_of_lt_le hle hlt
  refine ⟨hn.symm, (eq_div_iff hpos.ne').mpr ?_⟩
  have hdiv : ((a / 2 ^ k * 2 ^ k + a % 2 ^ k : Nat) : ℚ) = a := congrArg Nat.cast (Nat.div_add_mod' a (2 ^ k))
  rw [hn] at hdiv
  push_cast at hdiv
  linarith

/-- What a magnitude rounds to at weight 2^t: `q` units, from `n` whole ones and the fraction `fr`. -/
structure RoundsTo (rm : RMode) (neg even : Bool) (d : BitVec 32) (n : Nat) (fr : ℚ) (q : Nat) : Prop where
  nonneg : 0 ≤ fr
  lt_one : fr < 1
  up : rm.up neg even fr d → q = n + 1
  down : ¬ rm.up neg even fr d → q = n

section
variable {rm : RMode} {neg even : Bool} {d : BitVec 32} {n q : Nat} {fr : ℚ} (h : RoundsTo rm neg even d n fr q)
include h

/-- Nothing discarded: the number itself. -/
theorem RoundsTo.of_exact (hfr : fr = 0) : q = n := h.down (hfr ▸ not_up_zero rm neg even d)

theorem RoundsTo.le : q ≤ n + 1 := by
  by_cases hu : rm.up neg even fr d
  · exact (h.up hu).le
  · exact (h.down hu).le.trans (Nat.le_succ n)

theorem RoundsTo.ge : n ≤ q := by
  by_cases hu : rm.up neg even fr d
  · exact (h.up hu).symm ▸ Nat.le_succ n
  · exact (h.down hu).ge

/-- A magnitude of a whole number of units. -/
theorem RoundsTo.of_le (m : Nat) (e t : ℤ) (hte : t ≤ e) (hx : (m : ℚ) * 2 ^ e = (n + fr) * 2 ^ t) :
    q = m * 2 ^ (e - t).toNat ∧ fr = 0 := by
  rw [← mul_zpow_of_le m e t hte] at hx
  obtain ⟨hn, hfr⟩ := natCast_split (mul_right_cancel₀ (two_zpow_pos t).ne' hx) h.nonneg h.lt_one
  exact ⟨(h.of_exact hfr).trans hn, hfr⟩

/-- A magnitude with bits below one unit. -/
theorem RoundsTo.of_lt (m : Nat) (e t : ℤ) (het : e < t) (hx : (m : ℚ) * 2 ^ e = (n + fr) * 2 ^ t) :
    n = m / 2 ^ (t - e).toNat ∧ decide (fr ≠ 0) = (m % 2 ^ (t - e).toNat != 0) ∧
      q = if roundsUp rm neg even (m % 2 ^ (t - e).toNat) (t - e).toNat d then m / 2 ^ (t - e).toNat + 1 else m / 2 ^ (t - e).toNat := by
  have hexp : ((t - e).toNat : ℤ) = t - e := Int.toNat_of_nonneg (by omega)
  have hcut : (m : ℚ) / 2 ^ (t - e).toNat = n + fr := by
    rw [div_eq_iff (pow_ne_zero _ two_ne_zero), ← zpow_natCast, hexp, zpow_sub₀ two_ne_zero]
    have := (two_zpow_pos e).ne'
    field_simp
    linarith
  obtain ⟨hn, hfr⟩ := shift_split hcut h.nonneg h.lt_one
  have hne : fr ≠ 0 ↔ m % 2 ^ (t - e).toNat ≠ 0 := by
    rw [hfr, ne_eq, div_eq_zero_iff, or_iff_left (pow_ne_zero _ two_ne_zero), Nat.cast_eq_zero]
  refine ⟨hn, ?_, ?_⟩
  · rw [Bool.eq_iff_iff, decide_eq_true_eq, bne_iff_ne, hne]
  · rw [← hn]
    split_ifs with hu
    · exact h.up (hfr ▸ (roundsUp_iff ..).mp hu)
    · exact h.down (hfr ▸ mt (roundsUp_iff ..).mpr hu)

end

/-- Rounding to an integer (R39). -/
theorem roundToNat_eq {rm : RMode} {s : Bool} {m n q : Nat} {e : ℤ} {d : BitVec 32} {fr : ℚ}
    (h : RoundsTo rm s (n % 2 == 0) d n fr q) (hx : (m : ℚ) * 2 ^ e = n + fr) : roundToNat rm s m e d = (q, decide (fr ≠ 0)) := by
  have hx' : (m : ℚ) * 2 ^ e = (n + fr) * 2 ^ (0 : ℤ) := by rw [hx, zpow_zero, mul_one]
  unfold roundToNat
  split_ifs with he
  · obtain ⟨hq, hfr⟩ := h.of_le m e 0 he hx'
    rw [hq, hfr, sub_zero]
    simp
  · obtain ⟨hn, hch, hq⟩ := h.of_lt m e 0 (not_le.mp he) hx'
    rw [zero_sub] at hn hch hq
    rw [hq, hch, hn]

/-- Rounding to the significand of a float format, its exponent unbounded above (R38). -/
theorem roundMag_eq {F : Fmt} {rm : RMode} {s : Bool} {m n q : Nat} {e t : ℤ} {d : BitVec 32} {fr : ℚ}
    (ht : t = max ((m.log2 : ℤ) + e - F.mw) F.eminSub)
    (h : RoundsTo rm s ((if n < 2 ^ F.mw then (n : ℤ) else (t + F.mw + F.bias) * 2 ^ F.mw + (n - 2 ^ F.mw)) % 2 == 0) d n fr q)
    (hx : (m : ℚ) * 2 ^ e = (n + fr) * 2 ^ t) : F.roundMag rm s m e d = (q, t, decide (fr ≠ 0)) := by
  simp only [Fmt.roundMag, ← ht]
  by_cases hte : t ≤ e
  · obtain ⟨hq, hfr⟩ := h.of_le m e t hte hx
    rw [if_pos hte, hq, hfr]
    simp
  · obtain ⟨hn, hch, hq⟩ := h.of_lt m e t (not_le.mp hte) hx
    rw [if_neg hte, hq, hch, ← hn, Nat.cast_pow, Nat.cast_ofNat]

/-! ### Conversion to a float format (R38, R39, R43) -/

section
variable {F : Fmt} (hF : F.WfFloat)
include hF

theorem convert_float (rm : RMode) (d : BitVec 32) (v : Val) : F.convert rm d v = F.convertFloat rm d v := by
  simp only [Fmt.convert, hF.kind]

theorem convert_zero (rm : RMode) (d : BitVec 32) (s : Bool) (e : ℤ) : F.convert rm d (.fin s 0 e) = (F.zeroCode s, 0) := by
  rw [convert_float hF]
  rfl

theorem convert_inf (rm : RMode) (d : BitVec 32) (s : Bool) :
    F.convert rm d (.inf s) = if F.spc = 0 then (F.signBit s + (2 ^ F.ew - 1) * 2 ^ F.mw, 0) else (F.signBit s + F.maxCode, 0x14) := by
  rw [convert_float hF]
  simp only [Fmt.convertFloat, Fmt.hasInf, beq_iff_eq]
  rfl

theorem convert_nan (rm : RMode) (d : BitVec 32) : F.convert rm d .nan = if F.hasNaN then (F.nanCode, 0) else (0, 0x01) := by
  rw [convert_float hF]
  rfl

omit hF in
/-- The overflow result (Table 02.8). -/
theorem overflowCode_eq (rm : RMode) (s : Bool) :
    F.overflowCode rm s = if F.spc = 2 ∨ F.spc = 3 ∨ rm = .rtz ∨ rm = .rneSat ∨ rm = .rdn ∧ s = false ∨ rm = .rup ∧ s = true
      then F.signBit s + F.maxCode else if F.spc = 0 then F.signBit s + (2 ^ F.ew - 1) * 2 ^ F.mw else F.nanCode := by
  by_cases hspc : F.spc = 2 ∨ F.spc = 3
  · rw [if_pos (or_assoc.mp (.inl hspc))]
    simp only [Fmt.overflowCode, Bool.or_eq_true, beq_iff_eq, hspc, if_true]
    rfl
  · simp only [← or_assoc (a := F.spc = 2), hspc, false_or]
    simp only [Fmt.overflowCode, Bool.or_eq_true, beq_iff_eq, hspc, if_false]
    cases rm <;> cases s <;> rfl

/-- A finite non-zero value converted: its code and flags, from the significand it rounds to. -/
theorem convert_fin {rm : RMode} {s : Bool} {m n q : Nat} {e t : ℤ} {d : BitVec 32} {fr : ℚ} (hm : m ≠ 0)
    (ht : t = max ((m.log2 : ℤ) + e - F.mw) F.eminSub)
    (h : RoundsTo rm s ((if n < 2 ^ F.mw then (n : ℤ) else (t + F.mw + F.bias) * 2 ^ F.mw + (n - 2 ^ F.mw)) % 2 == 0) d n fr q)
    (hx : (m : ℚ) * 2 ^ e = (n + fr) * 2 ^ t) :
    F.convert rm d (.fin s m e) = if F.maxVal.rat < q * 2 ^ t then (F.overflowCode rm s, 0x14)
      else (if q = 0 then F.zeroCode s else F.signBit s + F.encodeMag q t,
        if fr = 0 then 0 else if (m : ℚ) * 2 ^ e < 2 ^ (1 - (F.bias : ℤ)) then 0x18 else 0x10) := by
  obtain ⟨mm, me, hmax, -⟩ := maxVal_fin hF
  have hover : (Val.fin false q t).cmp F.maxVal > 0 ↔ F.maxVal.rat < q * 2 ^ t := by
    rw [hmax, cmp_fin_pos_iff, rat_pos, rat_pos]
  have htiny : (m.log2 : ℤ) + e < 1 - (F.bias : ℤ) ↔ (m : ℚ) * 2 ^ e < 2 ^ (1 - (F.bias : ℤ)) := by
    constructor
    · intro hlt
      exact (lt_zpow_log2 m e).trans_le ((two_zpow_le_iff _ _).mpr (by omega))
    · intro hlt
      exact (two_zpow_lt_iff _ _).mp ((zpow_log2_le m e hm).trans_lt hlt)
  rw [convert_float hF]
  simp only [Fmt.convertFloat, if_neg hm, roundMag_eq ht h hx, hover, htiny, decide_eq_true_eq, ite_not]
  rw [← Fmt.signBit]
  split_ifs <;> rfl

omit hF in
/-- The significand of a rounded value has at most one bit more than the format, and as many unless it is subnormal. -/
theorem significand_bounds {rm : RMode} {s : Bool} {m n q : Nat} {e t : ℤ} {even : Bool} {d : BitVec 32} {fr : ℚ} (hm : m ≠ 0)
    (ht : t = max ((m.log2 : ℤ) + e - F.mw) F.eminSub) (h : RoundsTo rm s even d n fr q) (hx : (m : ℚ) * 2 ^ e = (n + fr) * 2 ^ t) :
    F.eminSub ≤ t ∧ (q < 2 ^ F.mw → t = F.eminSub) ∧ q ≤ 2 ^ (F.mw + 1) := by
  have hlo := zpow_log2_le m e hm
  have hhi := lt_zpow_log2 m e
  have h0 := h.nonneg
  have h1 := h.lt_one
  have htpos := two_zpow_pos t
  rw [hx] at hlo hhi
  refine ⟨ht ▸ le_max_right _ _, fun hq => ?_, ?_⟩
  · by_contra hne
    have htk : (m.log2 : ℤ) + e = F.mw + t := by omega
    rw [htk, zpow_add₀ two_ne_zero, zpow_natCast] at hlo
    have hbig : (2 : ℚ) ^ F.mw < n + 1 := by linarith [le_of_mul_le_mul_right hlo htpos]
    have hn : 2 ^ F.mw < n + 1 := by exact_mod_cast hbig
    have := h.ge
    omega
  · have hle : (m.log2 : ℤ) + e + 1 ≤ ((F.mw + 1 : Nat) : ℤ) + t := by
      push_cast
      omega
    have hlt := hhi.trans_le ((two_zpow_le_iff _ _).mpr hle)
    rw [zpow_add₀ two_ne_zero, zpow_natCast] at hlt
    have hn : n < 2 ^ (F.mw + 1) := by exact_mod_cast (by linarith [lt_of_mul_lt_mul_right hlt htpos.le] : (n : ℚ) < 2 ^ (F.mw + 1))
    have := h.le
    omega

/-- A value that rounds to a magnitude within the format is written with its sign, a zero without where its code is reserved (R32). -/
theorem reads_rounded {q : Nat} {t : ℤ} (s : Bool) (ht : F.eminSub ≤ t) (hsub : q < 2 ^ F.mw → t = F.eminSub) (hq : q ≤ 2 ^ (F.mw + 1))
    (hle : (q : ℚ) * 2 ^ t ≤ F.maxVal.rat) :
    F.reads (if q = 0 then F.zeroCode s else F.signBit s + F.encodeMag q t) (s && (!F.rsv || decide (q ≠ 0))) (q * 2 ^ t) := by
  split_ifs with h0
  · subst h0
    simpa using reads_zeroCode hF s
  · have hmag := mag_encodeMag q t ht hsub hq
    have hne : F.encodeMag q t ≠ 0 := by
      intro h
      rw [h, Fmt.mag_zero, eq_comm, mul_zpow_eq_zero] at hmag
      exact h0 hmag
    rw [maxVal_rat hF, ← hmag, F.mag_strictMono.le_iff_le] at hle
    rw [decide_eq_true h0, Bool.or_true, Bool.and_true]
    exact (reads_iff hF _ _ _).mpr ⟨_, hle, rfl, fun h => hne h.2.2, hmag⟩

omit hF in
/-- A code's number as a whole number of units in its last place. -/
theorem exists_grid (c : Nat) (hc : c ≠ 0) :
    ∃ (n : Nat) (k : ℤ), 2 ^ k ≤ F.mag c ∧ F.mag c < 2 ^ (k + 1) ∧ F.mag c = n * 2 ^ (max (k - F.mw) F.eminSub) := by
  have hpos := Nat.two_pow_pos F.mw
  have hf := Nat.mod_lt c hpos
  unfold Fmt.mag
  split_ifs with hex
  · have hne : c % 2 ^ F.mw ≠ 0 := by
      rw [Nat.mod_eq_of_lt (Nat.lt_of_div_eq_zero hpos hex)]
      exact hc
    have hlog := (Nat.log2_lt hne).mpr hf
    refine ⟨c % 2 ^ F.mw, _, zpow_log2_le _ _ hne, lt_zpow_log2 _ _, ?_⟩
    rw [max_eq_right (by omega)]
  · have hne : 2 ^ F.mw + c % 2 ^ F.mw ≠ 0 := by omega
    have hlog : (2 ^ F.mw + c % 2 ^ F.mw).log2 = F.mw :=
      (Nat.log2_eq_iff hne).mpr ⟨Nat.le_add_right _ _, by rw [Nat.pow_succ]; omega⟩
    refine ⟨2 ^ F.mw + c % 2 ^ F.mw, _, zpow_log2_le _ _ hne, lt_zpow_log2 _ _, ?_⟩
    have hpos' : 1 ≤ c / 2 ^ F.mw := Nat.pos_of_ne_zero hex
    rw [hlog, max_eq_left (by unfold Fmt.eminSub; omega), add_sub_cancel_left]

/-- A number of the format converts to the code that reads as it, in every mode and with no flag (R39). -/
theorem convert_of_reads (rm : RMode) (d : BitVec 32) (c m : Nat) (s : Bool) (e : ℤ) (h : F.reads c s (m * 2 ^ e)) :
    F.reads (F.convert rm d (.fin s m e)).1 s (m * 2 ^ e) ∧ (F.convert rm d (.fin s m e)).2 = 0 := by
  obtain ⟨c', hle, -, hres, hmag⟩ := (reads_iff hF c s _).mp h
  by_cases hm : m = 0
  · subst hm
    rw [Nat.cast_zero, zero_mul, Fmt.mag_eq_zero_iff] at hmag
    have hs : (s && !F.rsv) = s := by
      cases s
      · rfl
      · simpa [hmag] using hres
    rw [convert_zero hF, Nat.cast_zero, zero_mul]
    have hreads := reads_zeroCode hF s
    rw [hs] at hreads
    exact ⟨hreads, rfl⟩
  · have hc' : c' ≠ 0 := fun h0 => hm ((mul_zpow_eq_zero m e).mp (hmag ▸ h0 ▸ F.mag_zero))
    obtain ⟨n, k, hlo, hhi, hgrid⟩ := exists_grid c' hc'
    rw [hmag] at hlo hhi hgrid
    have hk := binade_eq m e k hm hlo hhi
    rw [hk] at hgrid
    have hround (even : Bool) : RoundsTo rm s even d n 0 n :=
      ⟨le_rfl, zero_lt_one, fun hu => absurd hu (not_up_zero rm s even d), fun _ => rfl⟩
    have hx : (m : ℚ) * 2 ^ e = (n + 0) * 2 ^ (max ((m.log2 : ℤ) + e - F.mw) F.eminSub) := by rw [add_zero, hgrid]
    have hmax : (n : ℚ) * 2 ^ (max ((m.log2 : ℤ) + e - F.mw) F.eminSub) ≤ F.maxVal.rat := hgrid ▸ reads_le_max hF c s _ h
    obtain ⟨ht, hsub, hq⟩ := significand_bounds hm rfl (hround true) hx
    have hn : n ≠ 0 := by
      rintro rfl
      rw [Nat.cast_zero, zero_mul, mul_zpow_eq_zero] at hgrid
      exact hm hgrid
    rw [convert_fin hF hm rfl (hround _) hx, if_neg (not_lt.mpr hmax), if_pos rfl]
    refine ⟨?_, rfl⟩
    have hreads := reads_rounded hF s ht hsub hq hmax
    rw [decide_eq_true hn, Bool.or_true, Bool.and_true] at hreads
    rwa [hgrid]

omit hF in
/-- Equal numbers other than 0 have one sign. -/
theorem sign_eq_of_rat_eq {s t : Bool} {m n : Nat} {e g : ℤ} (h : (Val.fin s m e).rat = (Val.fin t n g).rat) (hm : m ≠ 0) : s = t := by
  have hpos : (0 : ℚ) < m * 2 ^ e := mul_pos (by exact_mod_cast Nat.pos_of_ne_zero hm) (two_zpow_pos e)
  have hnonneg : (0 : ℚ) ≤ n * 2 ^ g := mul_nonneg (Nat.cast_nonneg n) (two_zpow_pos g).le
  rw [Val.rat_fin, Val.rat_fin] at h
  cases s <;> cases t <;> simp at h ⊢ <;> linarith

/-- A value is represented where some code reads as it. -/
theorem represents_iff (s : Bool) (m : Nat) (e : ℤ) : F.represents (.fin s m e) = true ↔ ∃ c, F.reads c s (m * 2 ^ e) := by
  constructor
  · intro h
    simp only [Fmt.represents, Bool.and_eq_true] at h
    obtain ⟨-, h⟩ := h
    split at h
    case h_3 t n g heq hdec =>
      injection heq with hs hm he
      subst hs hm he
      have hreads := reads_of_decode hF _ _ _ _ hdec
      simp only [Bool.and_eq_true, beq_iff_eq, cmp_fin_eq_zero_iff, hF.kind, bne_self_eq_false, Bool.false_or, Bool.or_eq_true, bne_iff_ne] at h
      obtain ⟨hrat, hsign⟩ := h
      obtain rfl : s = t := hsign.elim id (sign_eq_of_rat_eq hrat)
      have hval : (m : ℚ) * 2 ^ e = n * 2 ^ g := by
        rw [Val.rat_fin, Val.rat_fin] at hrat
        exact mul_left_cancel₀ (by split <;> norm_num) hrat
      exact ⟨_, hval ▸ hreads⟩
    all_goals simp_all
  · rintro ⟨c, h⟩
    obtain ⟨⟨-, n, g, hdec, hval⟩, hfl⟩ := convert_of_reads hF .rtz 0 c m s e h
    simp only [Fmt.represents, hfl, hdec, beq_self_eq_true, Bool.true_and, Bool.and_eq_true, beq_iff_eq, cmp_fin_eq_zero_iff, Bool.or_eq_true,
      or_true, true_or, and_true, Val.rat_fin, hval]

end

end Sys2Proof.Machine

/-! SUPPORT. Integer formats (R33, R39) and scales (R36, R66). -/

namespace Sys2Proof.Machine

/-! ### Integer formats (R33, R39) -/

/-- The integer entries at reset. -/
theorem wid_pos_of_reset : ∀ v ∈ ftReset, (Fmt.ofEntry v).kind = .int → 0 < (Fmt.ofEntry v).wid := by
  simp [ftReset, Fmt.ofEntry]

theorem Fmt.legalInt.wid_pos {F : Fmt} (h : F.legalInt) : 0 < F.wid := by
  obtain ⟨hkind, v, hv, rfl⟩ := h
  simp only [legalEntry, Bool.or_eq_true, List.contains_iff_mem, Bool.and_eq_true, beq_iff_eq] at hv
  rcases hv with hv | hv
  · exact wid_pos_of_reset v hv hkind
  · simp [hkind] at hv

theorem rat_ofInt (n : ℤ) : (Val.ofInt n).rat = n := by
  rw [Val.ofInt, rat_ofSigned, zpow_zero, mul_one]

theorem toInt_ofInt (n : ℤ) : (Val.ofInt n).toInt = n := by
  simp only [Val.toInt, Val.ofInt, le_refl, if_true, Int.toNat_zero, Nat.pow_zero, Nat.mul_one, decide_eq_true_eq]
  split_ifs <;> omega

theorem intCode_eq (w : Nat) (n : ℤ) : intCode w n = (n % 2 ^ w).toNat := by
  rw [intCode, Nat.cast_pow, Nat.cast_ofNat]

section
variable {F : Fmt} (hF : F.legalInt)
include hF

/-- A two's-complement code reads as its integer. -/
theorem decode_intCode (toInt : Bool) (n : ℤ) (hlo : -2 ^ (F.wid - 1) ≤ n) (hhi : n < 2 ^ (F.wid - 1)) :
    F.decode toInt (intCode F.wid n) = (.ofInt n, 0) := by
  have hw := hF.wid_pos
  obtain ⟨hkind, -⟩ := hF
  obtain ⟨w, hwid⟩ : ∃ w, F.wid = w + 1 := ⟨F.wid - 1, by omega⟩
  rw [hwid, Nat.add_sub_cancel] at hlo hhi
  have htwo : ((2 ^ (w + 1) : Nat) : ℤ) = 2 * 2 ^ w := by push_cast; ring
  have hpos : (0 : ℤ) < 2 ^ w := pow_pos two_pos w
  have hnat : ((intCode (w + 1) n : Nat) : ℤ) = n % ((2 ^ (w + 1) : Nat) : ℤ) := Int.toNat_of_nonneg (Int.emod_nonneg _ (by omega))
  have hlt : intCode (w + 1) n < 2 ^ (w + 1) := by
    have := Int.emod_lt_of_pos n (show (0 : ℤ) < (2 ^ (w + 1) : Nat) by omega)
    omega
  simp only [Fmt.decode, hkind, hwid, Nat.mod_eq_of_lt hlt]
  by_cases h0 : 0 ≤ n
  · rw [Int.emod_eq_of_lt h0 (by omega)] at hnat
    rw [if_neg (by omega), hnat]
  · rw [← Int.add_emod_right, Int.emod_eq_of_lt (by omega) (by omega)] at hnat
    rw [if_pos (by omega), hnat, add_sub_cancel_right]

theorem convert_int (rm : RMode) (d : BitVec 32) (v : Val) : F.convert rm d v = convertInt F.wid rm d v := by
  simp only [Fmt.convert, hF.1]

/-- An exact number becomes the integer it rounds to, or the nearest end of the range (R39). -/
theorem convert_int_fin {rm : RMode} {s : Bool} {m n q : Nat} {e : ℤ} {d : BitVec 32} {fr : ℚ}
    (h : RoundsTo rm s (n % 2 == 0) d n fr q) (hx : (m : ℚ) * 2 ^ e = n + fr) :
    let v : ℤ := if s then -q else q
    F.convert rm d (.fin s m e) = if 2 ^ (F.wid - 1) ≤ v then (intCode F.wid (2 ^ (F.wid - 1) - 1), 0x01)
      else if v < -2 ^ (F.wid - 1) then (intCode F.wid (-2 ^ (F.wid - 1)), 0x01) else (intCode F.wid v, if fr = 0 then 0 else 0x10) := by
  intro v
  rw [convert_int hF]
  simp only [convertInt, roundToNat_eq h hx, Nat.cast_pow, Nat.cast_ofNat, gt_iff_lt, Int.sub_one_lt_iff, decide_eq_true_eq, ite_not]
  simp only [intCode, Nat.cast_pow, Nat.cast_ofNat]
  rfl

theorem convert_int_nan (rm : RMode) (d : BitVec 32) : F.convert rm d .nan = (0, 0x01) := by
  rw [convert_int hF]
  rfl

theorem convert_int_inf (rm : RMode) (d : BitVec 32) (s : Bool) :
    F.convert rm d (.inf s) = (intCode F.wid (if s then -2 ^ (F.wid - 1) else 2 ^ (F.wid - 1) - 1), 0x01) := by
  rw [convert_int hF]
  simp only [convertInt, intCode, Nat.cast_pow, Nat.cast_ofNat]
  rfl

end

/-! ### The scale of an amax (R66) -/

/-- The largest number of a legal format is finite and not negative. -/
theorem maxVal_finite {F : Fmt} (hF : F.legalFloat ∨ F.legalInt) : ∃ m e, F.maxVal = .fin false m e := by
  rcases hF with hF | hF
  · obtain ⟨m, e, hmax, -⟩ := maxVal_fin (.of_legal hF)
    exact ⟨m, e, hmax⟩
  · have hpos : 0 < 2 ^ (F.wid - 1) := Nat.two_pow_pos _
    have hsign : ¬ ((2 ^ (F.wid - 1) : Nat) : ℤ) - 1 < 0 := by omega
    simp only [Fmt.maxVal, hF.1, Val.ofInt, decide_eq_false hsign]
    exact ⟨_, _, rfl⟩

theorem mul_zpow_lt_iff {x : ℚ} (hx : 0 < x) (a b : ℤ) : x * 2 ^ a < x * 2 ^ b ↔ a < b := by
  rw [mul_lt_mul_iff_right₀ hx, two_zpow_lt_iff]

/-- The scale of a number's leading bit against another's: at most one more makes it fit. -/
theorem least_scale {m n : Nat} {e f k : ℤ} (hm : m ≠ 0) (hn : n ≠ 0) (hle : (m : ℚ) * 2 ^ e ≤ n * 2 ^ f * 2 ^ k)
    (hlt : (n : ℚ) * 2 ^ f * 2 ^ (k - 1) < m * 2 ^ e) :
    (if (m : ℚ) * 2 ^ e ≤ n * 2 ^ f * 2 ^ ((m.log2 : ℤ) + e - n.log2 - f) then (m.log2 : ℤ) + e - n.log2 - f
      else (m.log2 : ℤ) + e - n.log2 - f + 1) = k := by
  have hpos : (0 : ℚ) < n * 2 ^ f := mul_pos (by exact_mod_cast Nat.pos_of_ne_zero hn) (two_zpow_pos f)
  have hhigh : (m : ℚ) * 2 ^ e < n * 2 ^ f * 2 ^ ((m.log2 : ℤ) + e - n.log2 - f + 1) := calc
    (m : ℚ) * 2 ^ e < 2 ^ ((m.log2 : ℤ) + e + 1) := lt_zpow_log2 m e
    _ = 2 ^ ((n.log2 : ℤ) + f) * 2 ^ ((m.log2 : ℤ) + e - n.log2 - f + 1) := by
      rw [← zpow_add₀ two_ne_zero]
      congr 1
      ring
    _ ≤ n * 2 ^ f * 2 ^ ((m.log2 : ℤ) + e - n.log2 - f + 1) := mul_le_mul_of_nonneg_right (zpow_log2_le n f hn) (two_zpow_pos _).le
  have hlow : (n : ℚ) * 2 ^ f * 2 ^ ((m.log2 : ℤ) + e - n.log2 - f - 1) < m * 2 ^ e := calc
    (n : ℚ) * 2 ^ f * 2 ^ ((m.log2 : ℤ) + e - n.log2 - f - 1) < 2 ^ ((n.log2 : ℤ) + f + 1) * 2 ^ ((m.log2 : ℤ) + e - n.log2 - f - 1) :=
      mul_lt_mul_of_pos_right (lt_zpow_log2 n f) (two_zpow_pos _)
    _ = 2 ^ ((m.log2 : ℤ) + e) := by
      rw [← zpow_add₀ two_ne_zero]
      congr 1
      ring
    _ ≤ m * 2 ^ e := zpow_log2_le m e hm
  have hk₁ := (mul_zpow_lt_iff hpos _ _).mp (hlt.trans hhigh)
  have hk₂ := (mul_zpow_lt_iff hpos _ _).mp (hlow.trans_le hle)
  split_ifs with hfit
  · have := (mul_zpow_lt_iff hpos _ _).mp (hlt.trans_le hfit)
    omega
  · have := (mul_zpow_lt_iff hpos _ _).mp ((not_le.mp hfit).trans_le hle)
    omega

/-- The scale of an amax is the least at which it fits, clamped (R66). -/
theorem scaleFromAmax_fin {F : Fmt} {m : Nat} {e k : ℤ} (hF : F.legalFloat ∨ F.legalInt) (hm : m ≠ 0)
    (hle : (m : ℚ) * 2 ^ e ≤ F.maxVal.rat * 2 ^ k) (hlt : F.maxVal.rat * 2 ^ (k - 1) < (m : ℚ) * 2 ^ e) :
    scaleFromAmax F (.fin false m e) = if k < -127 then (0, 0x40) else if 127 < k then (254, 0x80) else (.ofInt 8 (k + 127), 0) := by
  obtain ⟨n, f, hmax⟩ := maxVal_finite hF
  rw [hmax, rat_pos] at hle hlt
  have hn : n ≠ 0 := by
    rintro rfl
    have hpos : (0 : ℚ) < m * 2 ^ e := mul_pos (by exact_mod_cast Nat.pos_of_ne_zero hm) (two_zpow_pos e)
    rw [Nat.cast_zero, zero_mul, zero_mul] at hle
    exact absurd hle (not_le.mpr hpos)
  have hfit (j : ℤ) : (Val.fin false m e).cmp (.fin false n (f + j)) ≤ 0 ↔ (m : ℚ) * 2 ^ e ≤ n * 2 ^ f * 2 ^ j := by
    rw [← not_lt, ← gt_iff_lt, cmp_fin_pos_iff, not_lt, rat_pos, rat_pos, zpow_add₀ two_ne_zero, mul_assoc]
  simp only [scaleFromAmax, if_neg hm, hmax, hfit, least_scale hm hn hle hlt]
  rfl

/-- The amax of zeros, of a NaN and of an infinity (R66). -/
theorem scaleFromAmax_special (F : Fmt) (e : ℤ) :
    scaleFromAmax F (.fin false 0 e) = (127, 0) ∧ scaleFromAmax F .nan = (255, 0) ∧ scaleFromAmax F (.inf false) = (254, 0x80) :=
  ⟨rfl, rfl, rfl⟩

/-! ### Conversion under a clamped scale (R66) -/

section
variable {F : Fmt} (hF : F.WfFloat) (rm : RMode) (d : BitVec 32) (s : Bool) (m : Nat) (e : ℤ)
include hF

/-- Under the least scale a magnitude below the smallest number becomes a zero. -/
theorem convertScaled_floor : convertScaled F rm d 0x40 (.fin s m e) =
    if (m : ℚ) * 2 ^ e < 2 ^ F.eminSub then (F.zeroCode s, if m = 0 then 0 else 0x18) else F.convert rm d (.fin s m e) := by
  have hsmall : (Val.fin s m e).abs.cmp (.fin false 1 F.eminSub) < 0 ↔ (m : ℚ) * 2 ^ e < 2 ^ F.eminSub := by
    rw [Val.abs, cmp_fin_neg_iff, rat_pos, rat_pos, Nat.cast_one, one_mul]
  have hzero : (Val.fin s m e).isZero = true ↔ m = 0 := by
    cases m <;> simp [Val.isZero]
  simp only [convertScaled, hF.kind, hsmall, hzero]
  refine if_congr (by simp [fSF, Val.isNaN]) rfl ?_
  exact if_neg fun h => absurd h.1 (by decide)

/-- Under the largest scale a magnitude above the largest number becomes that. -/
theorem convertScaled_ceiling : convertScaled F rm d 0x80 (.fin s m e) =
    if F.maxVal.rat < m * 2 ^ e then (F.signBit s + F.maxCode, 0x10) else F.convert rm d (.fin s m e) := by
  obtain ⟨n, f, hmax, -⟩ := maxVal_fin hF
  have hlarge : (Val.fin s m e).abs.cmp F.maxVal > 0 ↔ F.maxVal.rat < m * 2 ^ e := by
    rw [hmax, Val.abs, cmp_fin_pos_iff, rat_pos, rat_pos]
  simp only [convertScaled, hF.kind, hlarge]
  rw [if_neg fun h => absurd h.1 (by decide)]
  exact if_congr (by simp [fSO, Val.isNaN]) rfl rfl

omit hF in
theorem convertScaled_unclamped (v : Val) : convertScaled F rm d 0 v = F.convert rm d v := by
  unfold convertScaled
  simp only [show (0 : BitVec 8) = fSF ↔ False by decide, show (0 : BitVec 8) = fSO ↔ False by decide, false_and, if_false]

end

end Sys2Proof.Machine

/-! SUPPORT. Number formats: the clauses of the statement, from the facts about codes, rounding and scales. -/

namespace Sys2Proof.Machine

section
variable {F : Fmt} (hF : F.WfFloat)
include hF

/-- The reserved code (R32). -/
theorem decode_reserved (toInt : Bool) {s : Bool} {ex f : Nat} (hex : ex < 2 ^ F.ew) (hf : f < 2 ^ F.mw)
    (h : F.rsv = true ∧ s = true ∧ ex = 0 ∧ f = 0) :
    F.decode toInt (F.signBit s + (ex * 2 ^ F.mw + f)) = (if toInt then .zero else .nan, 0x20) := by
  rw [decode_fields hF toInt s ex f hex hf, if_pos h]
  rfl

omit hF in
/-- The exponent field of the infinities and NaNs is not 0. -/
theorem ones_pos (hF : F.WfFloat) : 0 < 2 ^ F.ew - 1 := by
  have : 2 ^ 1 ≤ 2 ^ F.ew := Nat.pow_le_pow_right two_pos hF.ew_pos
  omega

/-- The codes of an IEEE format with all ones in the exponent field (R29, R31). -/
theorem decode_ieee (toInt s : Bool) {ex f : Nat} (hex : ex < 2 ^ F.ew) (hf : f < 2 ^ F.mw) (h0 : F.spc = 0) (hones : ex = 2 ^ F.ew - 1) :
    F.decode toInt (F.signBit s + (ex * 2 ^ F.mw + f)) = (if f = 0 then .inf s else .nan, 0) := by
  have hpos := ones_pos hF
  rw [decode_fields hF toInt s ex f hex hf, if_neg fun h => by omega, if_pos ⟨h0, hones⟩]

/-- The one NaN of a format without infinities (R30, R31). -/
theorem decode_onlyNaN (toInt s : Bool) {ex f : Nat} (hex : ex < 2 ^ F.ew) (hf : f < 2 ^ F.mw) (hspc : F.spc = 1 ∨ F.spc = 3)
    (hones : ex = 2 ^ F.ew - 1) (hfrac : f = 2 ^ F.mw - 1) : F.decode toInt (F.signBit s + (ex * 2 ^ F.mw + f)) = (.nan, 0) := by
  have hpos := ones_pos hF
  rw [decode_fields hF toInt s ex f hex hf, if_neg fun h => by omega, if_neg fun h => by omega, if_pos ⟨hspc, hones, hfrac⟩]

omit hF in
/-- A code's number by its fields (R28). -/
theorem mag_fields (ex f : Nat) (hf : f < 2 ^ F.mw) : F.mag (ex * 2 ^ F.mw + f) =
    if ex = 0 then 2 ^ (1 - (F.bias : ℤ)) * ((f : ℚ) / 2 ^ F.mw) else 2 ^ ((ex : ℤ) - F.bias) * (1 + (f : ℚ) / 2 ^ F.mw) := by
  have hpow : (2 : ℚ) ^ F.mw ≠ 0 := pow_ne_zero _ two_ne_zero
  rw [F.mag_split ex f hf, Fmt.eminSub, zpow_sub₀ two_ne_zero _ (F.mw : ℤ), zpow_sub₀ two_ne_zero _ (F.mw : ℤ), zpow_natCast]
  split_ifs
  · field_simp
  · push_cast
    field_simp

/-- The codes of numbers (R28). -/
theorem decode_number (toInt s : Bool) {ex f : Nat} (hex : ex < 2 ^ F.ew) (hf : f < 2 ^ F.mw)
    (hres : ¬ (F.rsv = true ∧ s = true ∧ ex = 0 ∧ f = 0)) (hnum : ¬ F.special ex f) :
    ∃ m e, F.decode toInt (F.signBit s + (ex * 2 ^ F.mw + f)) = (.fin s m e, 0) ∧ (m : ℚ) * 2 ^ e =
      if ex = 0 then 2 ^ (1 - (F.bias : ℤ)) * ((f : ℚ) / 2 ^ F.mw) else 2 ^ ((ex : ℤ) - F.bias) * (1 + (f : ℚ) / 2 ^ F.mw) := by
  have hzero : ex * 2 ^ F.mw + f = 0 ↔ ex = 0 ∧ f = 0 := by
    rw [Nat.add_eq_zero_iff, Nat.mul_eq_zero, or_iff_left (Nat.two_pow_pos _).ne']
  rw [← mag_fields ex f hf]
  exact decode_of_le_maxCode hF toInt s _ ((le_maxCode_iff hF ex f hex hf).mpr hnum) (by rwa [hzero])

omit hF in
/-- The NaN code of a format with one NaN per sign: all ones. -/
theorem nanCode_eq (h : F.spc = 1 ∨ F.spc = 3) : F.nanCode = 2 ^ (F.ew + F.mw) - 1 := by
  have h0 : F.spc ≠ 0 := by omega
  simp [Fmt.nanCode, h0]

/-- A rounded value beyond the largest number (Table 02.8). -/
theorem overflowCode_spec (rm : RMode) (s : Bool) (saturates : Prop)
    (hsat : saturates ↔ F.spc = 2 ∨ F.spc = 3 ∨ rm = .rtz ∨ rm = .rneSat ∨ rm = .rdn ∧ s = false ∨ rm = .rup ∧ s = true) :
    (saturates → F.reads (F.overflowCode rm s) s F.maxVal.rat) ∧
      (¬ saturates → (F.spc = 0 → F.overflowCode rm s = F.signBit s + (2 ^ F.ew - 1) * 2 ^ F.mw) ∧
        (F.spc = 1 → F.overflowCode rm s = 2 ^ (F.ew + F.mw) - 1)) := by
  rw [overflowCode_eq, hsat]
  refine ⟨fun h => ?_, fun h => ⟨fun h0 => ?_, fun h1 => ?_⟩⟩
  · rw [if_pos h]
    exact reads_maxCode hF s
  · rw [if_neg h, if_pos h0]
  · rw [if_neg h, if_neg (by omega), nanCode_eq (.inl h1)]

/-- A non-zero value converts to the value it rounds to, or overflows (R37, R38, R41, R43). -/
theorem convert_rounds {rm : RMode} {s : Bool} {d : BitVec 32} {m n q : Nat} {e k : ℤ} {fr : ℚ}
    (hlo : (2 : ℚ) ^ k ≤ m * 2 ^ e) (hhi : (m : ℚ) * 2 ^ e < 2 ^ (k + 1))
    (hx : (m : ℚ) * 2 ^ e = (n + fr) * 2 ^ (max (k - F.mw) F.eminSub))
    (h : RoundsTo rm s ((if n < 2 ^ F.mw then (n : ℤ) else (max (k - F.mw) F.eminSub + F.mw + F.bias) * 2 ^ F.mw + (n - 2 ^ F.mw)) % 2 == 0)
      d n fr q) :
    let y : ℚ := q * 2 ^ (max (k - F.mw) F.eminSub)
    let r := F.convert rm d (.fin s m e)
    (y ≤ F.maxVal.rat → F.reads r.1 (s && (!F.rsv || decide (q ≠ 0))) y ∧
      r.2 = if fr = 0 then 0 else if (m : ℚ) * 2 ^ e < 2 ^ (1 - (F.bias : ℤ)) then 0x18 else 0x10) ∧
    (F.maxVal.rat < y → r = (F.overflowCode rm s, 0x14)) := by
  have hm : m ≠ 0 := by
    rintro rfl
    rw [Nat.cast_zero, zero_mul] at hlo
    exact absurd hlo (not_le.mpr (two_zpow_pos k))
  obtain rfl := binade_eq m e k hm hlo hhi
  obtain ⟨ht, hsub, hq⟩ := significand_bounds hm rfl h hx
  simp only [convert_fin hF hm rfl h hx]
  refine ⟨fun hle => ?_, fun hlt => if_pos hlt⟩
  rw [if_neg (not_lt.mpr hle)]
  exact ⟨reads_rounded hF s ht hsub hq hle, rfl⟩

/-- NaNs convert to the canonical NaN, or to 0 with NV in a format without (R31, R39). -/
theorem convert_nan_cases (rm : RMode) (d : BitVec 32) :
    (F.spc = 2 ∨ F.spc = 0 ∧ F.mw = 0 → F.convert rm d .nan = (0, 0x01)) ∧
      (F.spc = 0 → F.mw ≠ 0 → F.convert rm d .nan = ((2 ^ F.ew - 1) * 2 ^ F.mw + 2 ^ (F.mw - 1), 0)) ∧
      (F.spc = 1 ∨ F.spc = 3 → F.convert rm d .nan = (2 ^ (F.ew + F.mw) - 1, 0)) := by
  rw [convert_nan hF]
  refine ⟨?_, fun h0 hmw => ?_, fun h => ?_⟩
  · rintro (h2 | ⟨h0, hmw⟩)
    · simp [Fmt.hasNaN, h2]
    · simp [Fmt.hasNaN, h0, hmw]
  · simp [Fmt.hasNaN, Fmt.nanCode, h0, hmw]
  · have hnan : F.hasNaN = true := by rcases h with h | h <;> simp [Fmt.hasNaN, h]
    rw [if_pos hnan, nanCode_eq h]

/-- The clamped conversions (R66). -/
theorem convertScaled_clauses (rm : RMode) (d : BitVec 32) (s : Bool) (m : Nat) (e : ℤ) :
    ((m : ℚ) * 2 ^ e < 2 ^ F.eminSub → F.reads (convertScaled F rm d 0x40 (.fin s m e)).1 (s && !F.rsv) 0 ∧
      (convertScaled F rm d 0x40 (.fin s m e)).2 = if m = 0 then 0 else 0x18) ∧
    ((2 : ℚ) ^ F.eminSub ≤ m * 2 ^ e → convertScaled F rm d 0x40 (.fin s m e) = F.convert rm d (.fin s m e)) ∧
    (F.maxVal.rat < (m : ℚ) * 2 ^ e → F.reads (convertScaled F rm d 0x80 (.fin s m e)).1 s F.maxVal.rat ∧
      (convertScaled F rm d 0x80 (.fin s m e)).2 = 0x10) ∧
    ((m : ℚ) * 2 ^ e ≤ F.maxVal.rat → convertScaled F rm d 0x80 (.fin s m e) = F.convert rm d (.fin s m e)) ∧
    convertScaled F rm d 0 (.fin s m e) = F.convert rm d (.fin s m e) := by
  rw [convertScaled_floor hF, convertScaled_ceiling hF]
  refine ⟨fun h => ?_, fun h => if_neg (not_lt.mpr h), fun h => ?_, fun h => if_neg (not_lt.mpr h), convertScaled_unclamped rm d _⟩
  · rw [if_pos h]
    exact ⟨reads_zeroCode hF s, rfl⟩
  · rw [if_pos h]
    exact ⟨reads_maxCode hF s, rfl⟩

end

/-- Settles O14: codes by their fields, conversion by the value rounded to, and the exact values as rational numbers. -/
theorem numberFormats : Obligations.NumberFormats := by
  unfold Obligations.NumberFormats
  refine ⟨fun F hlegal => ?_, fun F hF => ?_, fun F hF m e k hm hle hlt => ?_, fun c s m e => ?_, fun x => rfl, fun down s u m n e f => ?_⟩
  · have hF := Fmt.WfFloat.of_legal hlegal
    refine ⟨fun toInt s ex f hex hf => ?_, ⟨_, reads_maxCode hF false⟩, reads_le_max hF, fun rm s d m e k n q fr => ?_, fun rm d s e => ?_,
      represents_iff hF, convertScaled_clauses hF⟩
    · intro c reserved noNumber
      have hc : c = F.signBit s + (ex * 2 ^ F.mw + f) := Nat.add_assoc _ _ _
      rw [hc]
      exact ⟨decode_reserved hF toInt hex hf, decode_ieee hF toInt s hex hf, decode_onlyNaN hF toInt s hex hf,
        decode_number hF toInt s hex hf⟩
    · intro x t below y r saturates hlo hhi h0 h1 hx hup hdown
      obtain ⟨hwithin, hover⟩ := convert_rounds hF hlo hhi hx ⟨h0, h1, hup, hdown⟩
      refine ⟨hwithin, fun hlt => ?_⟩
      obtain ⟨hsat, hbig⟩ := overflowCode_spec hF rm s saturates Iff.rfl
      rw [show r = _ from hover hlt]
      exact ⟨rfl, hsat, hbig⟩
    · rw [convert_zero hF, convert_inf hF]
      refine ⟨⟨reads_zeroCode hF s, rfl⟩, fun h => if_pos h, fun h => ?_, convert_nan_cases hF rm d⟩
      rw [if_neg h]
      exact ⟨reads_maxCode hF s, rfl⟩
  · intro top code
    have hcode (n : ℤ) : code n = intCode F.wid n := (intCode_eq F.wid n).symm
    simp only [hcode]
    refine ⟨fun toInt n hlo hhi => ⟨decode_intCode hF toInt n hlo hhi, rat_ofInt n, toInt_ofInt n⟩,
      fun rm s d m e n q fr h0 h1 hx hup hdown => convert_int_fin hF ⟨h0, h1, hup, hdown⟩ hx,
      fun rm d => ⟨convert_int_nan hF rm d, convert_int_inf hF rm d false, convert_int_inf hF rm d true⟩⟩
  · exact ⟨scaleFromAmax_fin hF hm hle hlt, scaleFromAmax_special F e⟩
  · exact ⟨applyScale_fin c s m e, fun v => rfl⟩
  · refine ⟨add_fin_exact down s u m n e f, ⟨_, _, rfl, mul_fin_rat s u m n e f⟩, cmp_fin_neg_iff s u m n e f, cmp_fin_eq_zero_iff s u m n e f,
      divVal_fin s u m n e f, sqrtVal_fin m e, rfl, rfl, rfl, rfl, rfl, rfl, rfl, rfl, rfl, ?_, ?_, rfl, ?_, rfl, rfl⟩
    · rw [bne_comm]
      rfl
    · intro hn
      simp only [divVal, if_pos hn]
      rfl
    · intro hm
      simp only [sqrtVal, if_neg hm]
      rfl

end Sys2Proof.Machine

/-! SUPPORT. Vector results: the elements below the grant in order with their draws (R41, R131), the checks made at issue (R54, R77,
R89) and the destination written (R44, R57). -/

namespace Sys2Proof.Machine

/-! ### Elements in ascending order (R41, R131) -/

/-- The result under construction after the first `k` elements. -/
def elementsTo (t : Strand) (draws : Bool) (f : Nat → BitVec 32 → Nat × BitVec 8) (keep : Nat → Option Nat) (k : Nat) : Acc :=
  (List.range k).foldl (Acc.step t draws f keep) ⟨t.seed, 0, [], false⟩

section
variable (t : Strand) (draws : Bool) (f : Nat → BitVec 32 → Nat × BitVec 8) (keep : Nat → Option Nat)

theorem elementsTo_succ (k : Nat) : elementsTo t draws f keep (k + 1) = Acc.step t draws f keep (elementsTo t draws f keep k) k := by
  rw [elementsTo, List.range_succ, List.foldl_append]
  rfl

/-- An active element draws, another does not. -/
theorem Acc.step_seed (a : Acc) (e : Nat) :
    (Acc.step t draws f keep a e).seed = if t.active e = true ∧ draws = true then seedStep a.seed else a.seed := by
  unfold Acc.step
  cases t.active e with
  | true => simp
  | false => cases t.mz <;> cases keep e <;> rfl

/-- Every element adds one code: its result, 0, or what the merge keeps. -/
theorem Acc.step_codes (a : Acc) (e : Nat) :
    (Acc.step t draws f keep a e).codes = (if t.active e then (f e (if draws then seedStep a.seed else a.seed)).1
      else if t.mz then 0 else (keep e).getD 0) :: a.codes := by
  unfold Acc.step
  cases t.active e with
  | true => rfl
  | false => cases t.mz <;> cases keep e <;> rfl

theorem elementsTo_codes_length (k : Nat) : (elementsTo t draws f keep k).codes.length = k := by
  induction k with
  | zero => rfl
  | succ k ih =>
    rw [elementsTo_succ, Acc.step_codes, List.length_cons, ih]

theorem activeBelow_succ_of_active (k : Nat) (h : t.active k = true) : t.activeBelow (k + 1) = t.activeBelow k + 1 := by
  simp [Strand.activeBelow, List.range_succ, List.filter_append, h]

theorem activeBelow_succ_of_inactive (k : Nat) (h : t.active k = false) : t.activeBelow (k + 1) = t.activeBelow k := by
  simp [Strand.activeBelow, List.range_succ, List.filter_append, h]

/-- Every active element takes one draw (R41). -/
theorem elementsTo_seed (rm : RMode) (k : Nat) : (elementsTo t (rm == .sr) f keep k).seed = drawn rm t.seed (t.activeBelow k) := by
  induction k with
  | zero =>
    have hnone : t.activeBelow 0 = 0 := rfl
    rw [hnone, drawn, Function.iterate_zero, id_eq, ite_self]
    rfl
  | succ k ih =>
    rw [elementsTo_succ, Acc.step_seed, ih]
    by_cases h : t.active k = true
    · rw [activeBelow_succ_of_active t k h]
      by_cases hrm : rm = .sr <;> simp [drawn, h, hrm, Function.iterate_succ_apply']
    · rw [activeBelow_succ_of_inactive t k (Bool.eq_false_iff.mpr h), if_neg fun hk => h hk.1]

/-- An active element is computed with its own draw (R41). -/
theorem elementsTo_code (rm : RMode) (k e : Nat) (he : e < k) (hact : t.active e = true) :
    (elementsTo t (rm == .sr) f keep k).codes.reverse[e]? = some (f e (drawn rm t.seed (t.activeBelow (e + 1)))).1 := by
  induction k with
  | zero => exact absurd he (Nat.not_lt_zero e)
  | succ k ih =>
    have hlen : (elementsTo t (rm == .sr) f keep k).codes.reverse.length = k := by
      rw [List.length_reverse, elementsTo_codes_length]
    rw [elementsTo_succ, Acc.step_codes, List.reverse_cons]
    rcases Nat.lt_succ_iff_lt_or_eq.mp he with hlt | rfl
    · rw [List.getElem?_append_left (by rwa [hlen]), ih hlt]
    · have hdraw := elementsTo_seed t f keep rm (e + 1)
      rw [elementsTo_succ, Acc.step_seed] at hdraw
      simp only [hact, true_and] at hdraw
      rw [List.getElem?_append_right hlen.le, hlen, Nat.sub_self, if_pos hact, hdraw]
      rfl

theorem elements_code (rm : RMode) {e : Nat} (he : e < t.grant) (hact : t.active e = true) :
    (elements t (rm == .sr) f keep).codes.reverse[e]? = some (f e (drawn rm t.seed (t.activeBelow (e + 1)))).1 :=
  elementsTo_code t f keep rm t.grant e he hact

end

/-- The segments that hold an element below the grant. -/
theorem lt_segsBelow_iff {w g : Nat} (hn : 0 < perSeg w) (k : Nat) : k < segsBelow g w ↔ k * perSeg w < g := by
  rw [segsBelow, Nat.lt_div_iff_mul_lt hn]
  omega

/-- The elements of a segment are those whose number lies in it. -/
theorem filter_segment (g n k : Nat) (hn : 0 < n) (p : Nat → Bool) :
    ((List.range g).filter fun e => e / n == k && p e) = (List.range' (k * n) (min n (g - k * n))).filter p := by
  have hsorted : ((List.range g).filter fun e => e / n == k).Pairwise (· < ·) := List.pairwise_lt_range.filter _
  have hmem (e : Nat) : e ∈ ((List.range g).filter fun e => e / n == k) ↔ e ∈ List.range' (k * n) (min n (g - k * n)) := by
    rw [List.mem_filter, List.mem_range, beq_iff_eq, List.mem_range'_1, Nat.div_eq_iff hn]
    omega
  have hsame : ((List.range g).filter fun e => e / n == k) = List.range' (k * n) (min n (g - k * n)) :=
    hsorted.eq_of_mem_iff (List.pairwise_lt_range' 1) hmem
  rw [← hsame, List.filter_filter]
  simp only [Bool.and_comm]

/-! ### The checks made at issue (R54, R77, R89) -/

/-- The checks pass where every register has room for the grant and no segment that is read or kept is RAW. -/
theorem run_widthAndClass (srcs : List VReg) (old : VReg) (df : BitVec 4) (s : State)
    (hroom : ∀ r ∈ srcs, r.holds (s.fmt r.fmt) s.st.grant = true) (hraw : ∀ r ∈ srcs, r.rawBelow (s.fmt r.fmt) s.st.grant = false)
    (hold : old.holds (s.fmt df) s.st.grant = true) (hkept : s.st.keptBeyond old (s.fmt old.fmt) = false)
    (hrawKept : s.st.rawKept old (s.fmt old.fmt) = false) : (widthAndClass srcs old df).run s = .ok ((), s) := by
  have hwide : (srcs.any fun r => !r.holds (s.fmt r.fmt) s.st.grant) = false := by simpa using hroom
  have hclass : (srcs.any fun r => r.rawBelow (s.fmt r.fmt) s.st.grant) = false := by simpa using hraw
  simp only [widthAndClass, run_bind, run_get, hwide, hclass, hold, hkept, hrawKept, Bool.not_true, Bool.or_self,
    Bool.false_eq_true, if_false, run_pure, ite_self]

/-! ### The destination written (R44, R57) -/

theorem setReg_withFlags (t : Strand) (p : Nat) (r : VReg) (f : BitVec 8) :
    ({ t with flags := f } : Strand).setReg p r = { t.setReg p r with flags := f } := by
  unfold Strand.setReg
  split <;> rfl

/-- A result that every kept element allows and whose flags raise no trap is written. -/
theorem run_commitV (d : BitVec 5) (fi : BitVec 4) (a : Acc) (side : Nat → Sidecar) (s : State) (hbad : a.bad = false) (hcalm : s.calm a.flags) :
    (commitV d fi a side).run s = .ok ((), s.written d fi a side) := by
  simp only [commitV, hbad, run_bind, run_raiseFlags_calm _ s hcalm, run_modify, run_advanceM, Bool.false_eq_true, if_false]
  rw [State.written]
  refine congrArg (fun x : State => Except.ok ((), x.advance)) ?_
  have hset := setReg_withFlags s.st (s.st.phys d)
    ((s.st.reg (s.st.phys d)).write fi (s.fmt fi).wid a.codes.reverse side) (s.st.flags ||| a.flags)
  exact congrArg (fun t : Strand => ({ s with st := { t with seed := a.seed } } : State)) hset

end Sys2Proof.Machine

/-! SUPPORT. Conversions and the instructions on tags and scales (R145 to R150). -/

namespace Sys2Proof.Machine

/-! ### Elements of `vcvt` and `vquant` (R145, R146) -/

/-- The scale codes of `vquant` by the elements that lie in each segment. -/
theorem quantScales_eq (f : BitVec 4) (s : State) (src : VReg) (hn : 0 < perSeg (s.fmt f).wid) (k : Nat) (hk : k < segsBelow s.st.grant (s.fmt f).wid) :
    (quantScales f s src).getD k (127, 0) = scaleFromAmax (s.fmt f) (amaxOf (((List.range s.st.grant).filter
      fun e => e / perSeg (s.fmt f).wid == k && s.st.active e).map fun e => (src.value (s.fmt src.fmt) ((s.fmt f).kind != .float) true e).1)) := by
  rw [filter_segment _ _ _ hn, List.getD_eq_getElem?_getD]
  simp only [quantScales, List.getElem?_map, List.getElem?_range hk, Option.map_some, Option.getD_some]

/-- The segment of an element below the grant holds an element below the grant. -/
theorem div_perSeg_lt_segsBelow {g w e : Nat} (hn : 0 < perSeg w) (he : e < g) : e / perSeg w < segsBelow g w :=
  (lt_segsBelow_iff hn _).mpr ((Nat.div_mul_le_self _ _).trans_lt he)

/-- The code of an active element of `vquant` under the scale of its segment. -/
theorem quantAcc_code (f : BitVec 4) (s : State) (src : VReg) {e : Nat} (he : e < s.st.grant) (hact : s.st.active e = true) :
    (quantAcc f s src).codes.reverse[e]? = some (if ((quantScales f s src).getD (e / perSeg (s.fmt f).wid) (127, 0)).1 = 255 then 0
      else (convertScaled (s.fmt f) s.st.mode (drawn s.st.mode s.st.seed (s.st.activeBelow (e + 1)))
        ((quantScales f s src).getD (e / perSeg (s.fmt f).wid) (127, 0)).2
        ((src.value (s.fmt src.fmt) ((s.fmt f).kind != .float) true e).1.scale
          (127 - (((quantScales f s src).getD (e / perSeg (s.fmt f).wid) (127, 0)).1.toNat : Int)))).1) := by
  rw [quantAcc, elements_code _ _ _ _ he hact]
  simp only [apply_ite Prod.fst]

/-! ### Issue and completion -/

section
variable (d a b : BitVec 5) (x : BitVec 1) (f : BitVec 4) (s : State)

/-- Where the checks pass, the source is the register named. -/
theorem run_issueConvert (hk : s.st.kind = .execute) (hg : s.st.grant ≠ 0) (ha : s.readable a) (hd : s.writable d)
    (hchecks : (widthAndClass [s.vreg a] (s.vreg d) f).run s = .ok ((), s)) (hnest : (s.fmt f).kind ≠ .nested)
    (hres : (s.fmt f).kind ≠ .reserved) : (issueConvert d a f).run s = .ok (s.vreg a, s) := by
  have hkind : ((s.fmt f).kind == .nested || (s.fmt f).kind == .reserved) = false := by simp [hnest, hres]
  simp only [issueConvert, run_bind, run_get, hg, if_false, run_readReg s a hk ha, run_claimReg s d hk hd, hchecks, hkind, Bool.false_eq_true,
    run_pure]

/-- With nothing granted only the format named is checked (R78). -/
theorem run_issueConvert_zero (hg : s.st.grant = 0) (hnest : (s.fmt f).kind ≠ .nested) (hres : (s.fmt f).kind ≠ .reserved) :
    (issueConvert d a f).run s = .ok (s.vreg a, s) := by
  have hkind : ((s.fmt f).kind == .nested || (s.fmt f).kind == .reserved) = false := by simp [hnest, hres]
  simp only [issueConvert, widthAndClass, run_bind, run_get, hg, if_true, run_pure, ne_eq, not_true_eq_false, if_false, hkind,
    Bool.false_eq_true]
  rfl

variable {d a b f s}

/-- What an instruction does once its checks have answered the source: nothing under a zero grant, else its result is written. -/
theorem deliver_converted {src : VReg} (acc : State → VReg → Acc) (side : State → VReg → Nat → Sidecar)
    (hissue : (issueConvert d a f).run s = .ok (src, s)) :
    (s.st.grant = 0 → deliver s (do
      let src ← issueConvert d a f
      let s ← get
      if s.st.grant = 0 then advanceM else commitV d f (acc s src) (side s src)) = .next s.advance) ∧
    (s.st.grant ≠ 0 → (acc s src).bad = false → s.calm (acc s src).flags → deliver s (do
      let src ← issueConvert d a f
      let s ← get
      if s.st.grant = 0 then advanceM else commitV d f (acc s src) (side s src)) = .next (s.written d f (acc s src) (side s src))) := by
  refine ⟨fun hg => deliver_ok _ _ _ ?_, fun hg hbad hcalm => deliver_ok _ _ _ ?_⟩
  · simp only [run_bind, hissue, run_get, hg, if_true, run_advanceM]
  · simp only [run_bind, hissue, run_get, hg, if_false, run_commitV _ _ _ _ _ hbad hcalm]

theorem vcvt_converted {src : VReg} (hissue : (issueConvert d a f).run s = .ok (src, s)) :
    (s.st.grant = 0 → exec (.vcvt d a x f) s = .next s.advance) ∧
    (s.st.grant ≠ 0 → (convertAcc d f s src).bad = false → s.calm (convertAcc d f s src).flags →
      exec (.vcvt d a x f) s = .next (s.written d f (convertAcc d f s src) fun _ => mkSide f 127 false cVAL)) :=
  deliver_converted (convertAcc d f) (fun _ _ _ => mkSide f 127 false cVAL) hissue

theorem vquant_converted {src : VReg} (hissue : (issueConvert d a f).run s = .ok (src, s)) :
    (s.st.grant = 0 → exec (.vquant d a x f) s = .next s.advance) ∧
    (s.st.grant ≠ 0 → (quantAcc f s src).bad = false → s.calm (quantAcc f s src).flags →
      exec (.vquant d a x f) s = .next (s.written d f (quantAcc f s src) fun k =>
        mkSide f ((quantScales f s src).getD k (127, 0)).1 false cVAL)) :=
  deliver_converted (quantAcc f) (fun s src k => mkSide f ((quantScales f s src).getD k (127, 0)).1 false cVAL) hissue

/-! ### `vamax`, `vtagr`, `vtagw`, `vscl` (R147 to R150) -/

variable (d a b f s)

theorem exec_vamax_zero (hg : s.st.grant = 0) : exec (.vamax d a x) s = .next (s.setX d 0).advance := by
  refine deliver_ok _ _ _ ?_
  simp only [run_bind, run_get, hg, if_true, run_pure, run_setXM, run_advanceM]
  rfl

theorem exec_vamax (hk : s.st.kind = .execute) (hg : s.st.grant ≠ 0) (ha : s.readable a)
    (hroom : (s.vreg a).holds (s.fmt (s.vreg a).fmt) s.st.grant = true)
    (hraw : (s.vreg a).rawBelow (s.fmt (s.vreg a).fmt) s.st.grant = false) :
    exec (.vamax d a x) s = .next (s.setX d (.ofNat 64 (fp32.convert .rup 0 (amaxOf (((List.range s.st.grant).filter s.st.active).map fun e =>
      ((s.vreg a).value (s.fmt (s.vreg a).fmt) false true e).1))).1)).advance := by
  refine deliver_ok _ _ _ ?_
  simp only [run_bind, run_get, hg, if_false, run_readReg s a hk ha, hroom, hraw, Bool.not_true, Bool.false_eq_true, run_pure, run_setXM,
    run_advanceM]

/-- A segment's sidecar and its register's format, or bit 63 beyond the register (R148). -/
theorem exec_vtagr (hk : s.st.kind = .execute) (ha : s.readable a) :
    exec (.vtagr d a x b) s = .next (s.setX d (if h : (s.x b).toNat < (s.vreg a).segs.length
      then .ofNat 64 ((s.vreg a).fmt.toNat * 2 ^ 16 + ((s.vreg a).segs[(s.x b).toNat]).side.toNat) else .ofNat 64 (2 ^ 63))).advance := by
  refine deliver_ok _ _ _ ?_
  simp only [run_bind, run_readReg s a hk ha, run_setXM, run_advanceM]
  congr 4
  split_ifs with h
  · rw [VReg.seg, List.getD_eq_getElem _ _ h]
  · rfl

section
variable (hk : s.st.kind = .execute) (hg : s.st.grant ≠ 0) (hd : s.writable d) (hseg : (s.x b).toNat < (s.vreg d).segs.length)
include hg hseg

/-- `vtagw` goes on to its register where a segment of it is named (R149; log 140). -/
theorem vtagw_claims : (s.st.grant = 0 || decide ((s.st.reg (s.st.phys d)).segs.length ≤ (s.x b).toNat)) = false := by
  rw [decide_eq_false hg, Bool.false_or, decide_eq_false_iff_not, not_le]
  exact hseg

include hk hd

theorem exec_vtagw_narrow (hroom : (s.vreg d).holds (s.fmt (s.vreg d).fmt) s.st.grant = false) :
    exec (.vtagw d a b) s = .next (s.takeTrap 0x03 0 0 0) := by
  refine deliver_trap _ _ _ _ _ _ ?_
  simp only [vtagw_claims d b s hg hseg, Bool.false_eq_true, if_false, run_bind, run_claimReg s d hk hd, hroom, Bool.not_false, if_true,
    run_raiseTrap]
  rfl

theorem exec_vtagw (hcls : ((s.x a).extractLsb' 0 3).toNat < 3) (hroom : (s.vreg d).holds (s.fmt (s.vreg d).fmt) s.st.grant = true) :
    exec (.vtagw d a b) s = .next (s.putReg d ⟨if (s.x a).getLsbD 20 then (s.x a).extractLsb' 16 4 else (s.vreg d).fmt,
      (s.vreg d).segs.set (s.x b).toNat ⟨((s.vreg d).seg (s.x b).toNat).data, (s.x a).extractLsb' 0 16⟩⟩).advance := by
  refine deliver_ok _ _ _ ?_
  simp only [vtagw_claims d b s hg hseg, Bool.false_eq_true, if_false, run_bind, run_claimReg s d hk hd, hroom, Bool.not_true,
    Nat.not_le.mpr hcls, run_modify, run_advanceM]
  rfl

end

theorem exec_vscl (hk : s.st.kind = .execute) (hg : s.st.grant ≠ 0) (ha : s.readable a) (hd : s.writable d)
    (hroom : (s.vreg a).holds (s.fmt (s.vreg a).fmt) s.st.grant = true)
    (hcalm : s.calm ((scaledSegs s (s.vreg a) (s.x b).toInt).foldl (fun f y => f ||| y.2) 0)) :
    exec (.vscl d a x b) s =
      .next ((s.flagged ((scaledSegs s (s.vreg a) (s.x b).toInt).foldl (fun f y => f ||| y.2) 0)).putReg d ⟨(s.vreg a).fmt,
        (scaledSegs s (s.vreg a) (s.x b).toInt).map (·.1) ++
          (s.vreg d).segs.drop (scaledSegs s (s.vreg a) (s.x b).toInt).length⟩).advance := by
  refine deliver_ok _ _ _ ?_
  simp only [hg, if_false, run_bind, run_readReg s a hk ha, run_claimReg s d hk hd, run_get, hroom, Bool.not_true, Bool.false_eq_true,
    run_raiseFlags_calm _ s hcalm, run_modify, run_advanceM]

end

/-- Settles O30: the elements by the fold over the grant, and each instruction by the checks it passes. -/
theorem conversionsAndTags : Obligations.ConversionsAndTags := by
  unfold Obligations.ConversionsAndTags
  intro d a b x f s hk g
  refine ⟨exec_vtagr d a b x s hk, fun hg => ⟨exec_vamax_zero d a x s hg, fun hnest hres => ?_⟩, fun src => ?_, fun hg => ?_⟩
  · have hissue := run_issueConvert_zero d a f s hg hnest hres
    exact ⟨(vcvt_converted x hissue).1 hg, (vquant_converted x hissue).1 hg⟩
  · intro T n value seed amax scale
    have hscale (k : Nat) (hn : 0 < n) (hk : k < segsBelow g T.wid) : (quantScales f s src).getD k (127, 0) = scaleFromAmax T (amax k) :=
      quantScales_eq f s src hn k hk
    refine ⟨fun e he hact => ⟨elements_code _ _ _ _ he hact, fun hn hne => ?_, fun hn heq => ?_⟩, fun hn k hk => congrArg _ (hscale k hn hk)⟩
    · rw [quantAcc_code f s src he hact, hscale _ hn (div_perSeg_lt_segsBelow hn he), if_neg hne]
      rfl
    · rw [quantAcc_code f s src he hact, hscale _ hn (div_perSeg_lt_segsBelow hn he), if_pos heq]
  · refine ⟨fun src hissue => ⟨(vcvt_converted x hissue).2 hg, (vquant_converted x hissue).2 hg⟩, ?_, exec_vamax d a x s hk hg,
      fun hd hseg hcls => ⟨exec_vtagw_narrow d a b s hk hg hd hseg, exec_vtagw d a b s hk hg hd hseg hcls⟩, exec_vscl d a b x s hk hg⟩
    intro ha hd hroom hraw hold hkept hrawKept
    exact run_issueConvert d a f s hk hg ha hd
      (run_widthAndClass _ _ _ _ (by simpa using hroom) (by simpa using hraw) hold hkept hrawKept)

end Sys2Proof.Machine

/-! SUPPORT. Slots of a line (R27, R74): what writing one changes. -/

namespace Sys2Proof.Machine

/-! ### One slot -/

/-- A slot that a format has lies within the line (R27). -/
theorem slot_in_line {w k : Nat} (hk : k < perSeg w) : 0 < w ∧ w * k + w ≤ 1024 := by
  have hw : w ≠ 0 := by
    rintro rfl
    exact Nat.not_lt_zero k hk
  have hle : perSeg w ≤ 1024 / w := by
    simp only [perSeg, if_neg hw]
    exact Nat.div_mul_le_self _ _
  have hmul := (Nat.le_div_iff_mul_le (Nat.pos_of_ne_zero hw)).mp (hk.trans_le hle)
  rw [Nat.succ_mul, Nat.mul_comm] at hmul
  exact ⟨Nat.pos_of_ne_zero hw, hmul⟩

theorem slot_of_slotOk {F : Fmt} {k : Nat} (h : slotOk F k = true) : 0 < F.wid ∧ F.wid * k + F.wid ≤ 1024 := by
  rw [slotOk, Bool.and_eq_true, decide_eq_true_eq] at h
  exact slot_in_line h.1

/-- A number cut at two places. -/
theorem testBit_three_parts (lo mid hi a w i : Nat) (hlo : lo < 2 ^ a) (hmid : mid < 2 ^ w) :
    (2 ^ a * (2 ^ w * hi + mid) + lo).testBit i =
      if i < a then lo.testBit i else if i < a + w then mid.testBit (i - a) else hi.testBit (i - (a + w)) := by
  rw [Nat.testBit_two_pow_mul_add _ hlo, Nat.testBit_two_pow_mul_add _ hmid]
  split_ifs with h₁ h₂ h₃ h₃
  · rfl
  · rfl
  · omega
  · omega
  · rw [Nat.sub_sub]

/-- The bits of a line with a slot set. -/
theorem getLsbD_setLineSlot (l : Line) (w k c i : Nat) (hk : w * k + w ≤ 1024) :
    (setLineSlot l w k c).getLsbD i = if w * k ≤ i ∧ i < w * k + w then c.testBit (i - w * k) else l.getLsbD i := by
  have hl := l.isLt
  have hsplit : l.toNat = 2 ^ (w * k) * (2 ^ w * (l.toNat / 2 ^ (w * k) / 2 ^ w) + lineSlot l w k) + l.toNat % 2 ^ (w * k) := by
    rw [lineSlot, Nat.div_add_mod, Nat.div_add_mod]
  have hhi : l.toNat / 2 ^ (w * k) / 2 ^ w < 2 ^ (1024 - (w * k + w)) := by
    rw [Nat.div_div_eq_div_mul, ← Nat.pow_add, Nat.div_lt_iff_lt_mul (Nat.two_pow_pos _), ← Nat.pow_add, Nat.sub_add_cancel hk]
    exact hl
  have hlo : l.toNat % 2 ^ (w * k) < 2 ^ (w * k) := Nat.mod_lt _ (Nat.two_pow_pos _)
  have hslot : lineSlot l w k < 2 ^ w := Nat.mod_lt _ (Nat.two_pow_pos _)
  have hc : c % 2 ^ w < 2 ^ w := Nat.mod_lt _ (Nat.two_pow_pos _)
  have hbits : l.getLsbD i = (l.toNat).testBit i := rfl
  rw [hbits, setLineSlot, BitVec.getLsbD_ofNat]
  generalize lineSlot l w k = s at *
  generalize l.toNat / 2 ^ (w * k) / 2 ^ w = hi at *
  generalize l.toNat % 2 ^ (w * k) = lo at *
  have hnew : l.toNat - s * 2 ^ (w * k) + c % 2 ^ w * 2 ^ (w * k) = 2 ^ (w * k) * (2 ^ w * hi + c % 2 ^ w) + lo := by
    rw [hsplit]
    generalize c % 2 ^ w = d
    have : 2 ^ (w * k) * (2 ^ w * hi + s) + lo - s * 2 ^ (w * k) = 2 ^ (w * k) * (2 ^ w * hi) + lo := by
      rw [Nat.mul_add, Nat.mul_comm s]
      omega
    rw [this, Nat.mul_add, Nat.mul_comm d]
    omega
  rw [hnew, hsplit, testBit_three_parts _ _ _ _ _ _ hlo hc, testBit_three_parts _ _ _ _ _ _ hlo hslot, Nat.testBit_mod_two_pow]
  by_cases h1 : i < w * k
  · have h1024 : i < 1024 := by omega
    simp [h1, h1024, Nat.not_le.mpr h1]
  · by_cases h2 : i < w * k + w
    · have h1024 : i < 1024 := by omega
      have h3 : i - w * k < w := by omega
      simp [h1, h2, h1024, h3, Nat.not_lt.mp h1]
    · have h3 : 1024 ≤ i → hi.testBit (i - (w * k + w)) = false := fun h =>
        Nat.testBit_lt_two_pow (hhi.trans_le (Nat.pow_le_pow_right two_pos (by omega)))
      by_cases h4 : i < 1024
      · simp [h1, h2, h4]
      · simp [h1, h2, h3 (not_lt.mp h4)]

/-- A slot's code bit by bit. -/
theorem testBit_lineSlot (l : Line) (w k j : Nat) : (lineSlot l w k).testBit j = (decide (j < w) && l.getLsbD (w * k + j)) := by
  rw [lineSlot, Nat.testBit_mod_two_pow, Nat.testBit_div_two_pow, Nat.add_comm]
  rfl

/-- A slot reads as it was set. -/
theorem lineSlot_setLineSlot_same (l : Line) (w k c : Nat) (hk : w * k + w ≤ 1024) : lineSlot (setLineSlot l w k c) w k = c % 2 ^ w := by
  refine Nat.eq_of_testBit_eq fun j => ?_
  rw [testBit_lineSlot, getLsbD_setLineSlot l w k c _ hk, Nat.testBit_mod_two_pow]
  by_cases h : j < w
  · simp [h]
  · simp [h]

/-- A bit outside a slot lies before or after it. -/
theorem not_in_slot {w k i : Nat} (h : i / w ≠ k) : ¬ (w * k ≤ i ∧ i < w * k + w) := by
  rintro ⟨hlo, hhi⟩
  refine h (Nat.div_eq_of_lt_le (by rwa [Nat.mul_comm]) ?_)
  rw [Nat.succ_mul, Nat.mul_comm]
  exact hhi

/-- Another slot stays. -/
theorem lineSlot_setLineSlot_ne (l : Line) (w k j c : Nat) (hw : 0 < w) (hk : w * k + w ≤ 1024) (h : j ≠ k) :
    lineSlot (setLineSlot l w k c) w j = lineSlot l w j := by
  refine Nat.eq_of_testBit_eq fun b => ?_
  rw [testBit_lineSlot, testBit_lineSlot, getLsbD_setLineSlot l w k c _ hk]
  by_cases hb : b < w
  · have hdiv : (w * j + b) / w ≠ k := by
      rw [Nat.add_comm, Nat.add_mul_div_left _ _ hw, Nat.div_eq_of_lt hb, Nat.zero_add]
      exact h
    rw [if_neg (not_in_slot hdiv)]
  · simp [hb]

/-! ### Slots one after another -/

section
variable {w : Nat}

/-- Bits outside the slots put stay. -/
theorem getLsbD_putSlots (l : Line) (xs : List (Nat × Nat)) (hin : ∀ x ∈ xs, w * x.1 + w ≤ 1024) (i : Nat) (hi : ∀ x ∈ xs, i / w ≠ x.1) :
    (putSlots w l xs).getLsbD i = l.getLsbD i := by
  induction xs generalizing l with
  | nil => rfl
  | cons x xs ih =>
    rw [List.forall_mem_cons] at hin hi
    have hstep : putSlots w l (x :: xs) = putSlots w (setLineSlot l w x.1 x.2) xs := rfl
    rw [hstep, ih _ hin.2 hi.2, getLsbD_setLineSlot _ _ _ _ _ hin.1, if_neg (not_in_slot hi.1)]

variable (hw : 0 < w)
include hw

/-- A slot that is not put stays. -/
theorem lineSlot_putSlots_notMem (l : Line) (xs : List (Nat × Nat)) (hin : ∀ x ∈ xs, w * x.1 + w ≤ 1024) (k : Nat) (hk : ∀ x ∈ xs, k ≠ x.1) :
    lineSlot (putSlots w l xs) w k = lineSlot l w k := by
  induction xs generalizing l with
  | nil => rfl
  | cons x xs ih =>
    rw [List.forall_mem_cons] at hin hk
    have hstep : putSlots w l (x :: xs) = putSlots w (setLineSlot l w x.1 x.2) xs := rfl
    rw [hstep, ih _ hin.2 hk.2, lineSlot_setLineSlot_ne _ _ _ _ _ hw hin.1 hk.1]

/-- Slots put in distinct places read as they were put. -/
theorem lineSlot_putSlots (l : Line) (xs : List (Nat × Nat)) (hin : ∀ x ∈ xs, w * x.1 + w ≤ 1024) (hne : xs.Pairwise (fun x y => x.1 ≠ y.1))
    (x : Nat × Nat) (hx : x ∈ xs) : lineSlot (putSlots w l xs) w x.1 = x.2 % 2 ^ w := by
  induction xs generalizing l with
  | nil => exact absurd hx List.not_mem_nil
  | cons y xs ih =>
    rw [List.forall_mem_cons] at hin
    rw [List.pairwise_cons] at hne
    have hstep : putSlots w l (y :: xs) = putSlots w (setLineSlot l w y.1 y.2) xs := rfl
    rw [hstep]
    rcases List.mem_cons.mp hx with rfl | hx
    · rw [lineSlot_putSlots_notMem hw _ xs hin.2 _ hne.1, lineSlot_setLineSlot_same _ _ _ _ hin.1]
    · exact ih _ hin.2 hne.2 hx

end

end Sys2Proof.Machine

/-! SUPPORT. The filling of a register (R52): the plan of a segment, one element, and all elements in order. -/

namespace Sys2Proof.Machine

/-! ### The plan of a segment -/

theorem fillPlan_raw (fi : BitVec 4) (els : List FillEl) : (fillPlan fi els).raw = els.any (·.cls == cRAW) := by
  cases els <;> rfl

/-- The scales fold where one differs from the first. -/
theorem fillPlan_fold (fi : BitVec 4) (els : List FillEl) :
    (fillPlan fi els).fold = els.any fun x => x.scl != (els.headD x).scl := by
  cases els with
  | nil => rfl
  | cons a r => simp [fillPlan]

theorem fillPlan_side (fi : BitVec 4) (els : List FillEl) : (fillPlan fi els).side =
    match els with
    | [] => mkSide fi 127 false cVAL
    | x :: q => mkSide x.fmt (if (fillPlan fi els).fold then 127 else x.scl) (q.any (·.fmt != x.fmt))
        (if (fillPlan fi els).raw then cRAW else cVAL) := by
  cases els <;> rfl

/-! ### One element -/

/-- The value of an element on its way into a register, its scale applied where scales fold. -/
def FillEl.folded (ft : BitVec 4 → Fmt) (fi : BitVec 4) (fold : Bool) (x : FillEl) : Val :=
  let v := if x.cls = cUNW then Val.zero else ((ft x.fmt).decode ((ft fi).kind != .float) x.code).1
  if fold then applyScale x.scl v else v

/-- Whether an element is written exactly. -/
def FillEl.exact (ft : BitVec 4 → Fmt) (fi : BitVec 4) (fold : Bool) (x : FillEl) : Bool :=
  (!fold && exactWidens x.fmt fi (ft x.fmt) (ft fi)) || (ft fi).represents (x.folded ft fi fold)

section
variable (ft : BitVec 4 → Fmt) (fi : BitVec 4) (deco : Option RMode) (p : FillSeg) (d : BitVec 32) (x : FillEl)

theorem fillOne_raw (h : p.raw = true) : fillOne ft fi deco p d x = some (if x.cls = cUNW then 0 else x.code, 0) := by
  rw [fillOne, if_pos h]

/-- An element of a segment that is not RAW: exactly, under the decoration, or not at all. -/
theorem fillOne_codes (h : p.raw = false) : (fillOne ft fi deco p d x).map Prod.fst =
    if x.exact ft fi p.fold then some ((ft fi).convert .rtz 0 (x.folded ft fi p.fold)).1
    else deco.map fun rm => ((ft fi).convert rm d (x.folded ft fi p.fold)).1 := by
  have hval : (if x.cls = cUNW then (Val.zero, fNX) else (ft x.fmt).decode ((ft fi).kind != .float) x.code).1 =
      if x.cls = cUNW then Val.zero else ((ft x.fmt).decode ((ft fi).kind != .float) x.code).1 := apply_ite Prod.fst _ _ _
  simp only [fillOne, h, Bool.false_eq_true, if_false, FillEl.exact, FillEl.folded, hval]
  cases deco <;> split_ifs <;> rfl

theorem fillOne_eq_none_iff : fillOne ft fi deco p d x = none ↔ deco = none ∧ p.raw = false ∧ x.exact ft fi p.fold = false := by
  cases hraw : p.raw with
  | true => simp [fillOne_raw ft fi deco p d x hraw]
  | false =>
    rw [← Option.map_eq_none_iff (f := Prod.fst), fillOne_codes ft fi deco p d x hraw]
    cases x.exact ft fi p.fold <;> simp

end

/-! ### All elements in order -/

section
variable (ft : BitVec 4 → Fmt) (fi : BitVec 4) (deco : Option RMode) (seed : BitVec 32) (els : List (Option FillEl))

/-- The elements that supply segment `g`. -/
def suppliers (g : Nat) : List FillEl := ((els.drop (g * perSeg (ft fi).wid)).take (perSeg (ft fi).wid)).filterMap id

/-- The plan of segment `g`. -/
def segPlan (g : Nat) : FillSeg := fillPlan fi (suppliers ft fi els g)

/-- The fill after its first `k` elements, its sidecars apart. -/
def fillTo : Nat → FillRes
  | 0 => ⟨[], [], 0, seed, none⟩
  | k + 1 => (fillTo k).step ft fi deco (segPlan ft fi els (k / perSeg (ft fi).wid)) (k, els.getD k none)

/-- An element fills with no regard to the sidecars. -/
theorem FillRes.step_sides (p : FillSeg) (r : FillRes) (sides : List Sidecar) (x : Nat × Option FillEl) :
    FillRes.step ft fi deco p { r with sides := sides } x = { FillRes.step ft fi deco p r x with sides := sides } := by
  obtain ⟨k, x⟩ := x
  cases x with
  | none => rfl
  | some el =>
    simp only [FillRes.step]
    split <;> rfl

/-- The elements of one segment from number `k` on. -/
theorem fill_segment (sides : List Sidecar) (g k m : Nat) (hlen : k + m ≤ els.length)
    (hseg : ∀ i, k ≤ i → i < k + m → i / perSeg (ft fi).wid = g) :
    ((List.range' k m).zip ((els.drop k).take m)).foldl (FillRes.step ft fi deco (segPlan ft fi els g))
      { fillTo ft fi deco seed els k with sides := sides } = { fillTo ft fi deco seed els (k + m) with sides := sides } := by
  induction m generalizing k with
  | zero => simp
  | succ m ih =>
    have hk : k < els.length := by omega
    have hone : FillRes.step ft fi deco (segPlan ft fi els g) (fillTo ft fi deco seed els k) (k, els[k]) = fillTo ft fi deco seed els (k + 1) := by
      rw [fillTo, hseg k le_rfl (by omega), List.getD_eq_getElem _ _ hk]
    rw [List.drop_eq_getElem_cons hk, List.range'_succ, List.take_succ_cons, List.zip_cons_cons, List.foldl_cons, FillRes.step_sides, hone,
      ih (k + 1) (by omega) (fun i hlo hhi => hseg i (by omega) (by omega)), Nat.add_right_comm, Nat.add_assoc]

/-- The sidecars of the first `g` segments, last first. -/
def sidesTo (g : Nat) : List Sidecar := ((List.range g).map fun k => (segPlan ft fi els k).side).reverse

theorem sidesTo_succ (g : Nat) : sidesTo ft fi els (g + 1) = (segPlan ft fi els g).side :: sidesTo ft fi els g := by
  simp [sidesTo, List.range_succ]

/-- The segments that hold an element are those up to the one where the elements end. -/
theorem segsBelow_unique {w g k : Nat} (hn : 0 < perSeg w) (hle : g ≤ k * perSeg w) (hk : k ≤ segsBelow g w) : k = segsBelow g w := by
  have := (lt_segsBelow_iff hn k).not.mpr (not_lt.mpr hle)
  omega

/-- One segment more of a fill. -/
theorem fillFrom_succ (n fuel e : Nat) (rest : List (Option FillEl)) (r : FillRes) (h : rest ≠ []) :
    fillFrom ft fi deco n (fuel + 1) e rest r =
      let p := fillPlan fi ((rest.take n).filterMap id)
      let r' := ((List.range' e (rest.take n).length).zip (rest.take n)).foldl (FillRes.step ft fi deco p) r
      fillFrom ft fi deco n fuel (e + n) (rest.drop n) { r' with sides := p.side :: r'.sides } := by
  cases rest with
  | nil => exact absurd rfl h
  | cons => rfl

/-- A fill from segment `g` on. -/
theorem fillFrom_eq (hn : 0 < perSeg (ft fi).wid) (fuel g : Nat) (hfuel : els.length ≤ g * perSeg (ft fi).wid + fuel)
    (hg : g ≤ segsBelow els.length (ft fi).wid) :
    fillFrom ft fi deco (perSeg (ft fi).wid) fuel (g * perSeg (ft fi).wid) (els.drop (g * perSeg (ft fi).wid))
      { fillTo ft fi deco seed els (min (g * perSeg (ft fi).wid) els.length) with sides := sidesTo ft fi els g } =
    { fillTo ft fi deco seed els els.length with sides := sidesTo ft fi els (segsBelow els.length (ft fi).wid) } := by
  induction fuel generalizing g with
  | zero =>
    have hle : els.length ≤ g * perSeg (ft fi).wid := hfuel
    rw [fillFrom, min_eq_right hle, segsBelow_unique hn hle hg]
  | succ fuel ih =>
    by_cases hle : els.length ≤ g * perSeg (ft fi).wid
    · rw [List.drop_eq_nil_of_le hle, fillFrom, min_eq_right hle, segsBelow_unique hn hle hg]
    · have hlt := not_le.mp hle
      have hlen : ((els.drop (g * perSeg (ft fi).wid)).take (perSeg (ft fi).wid)).length =
          min (perSeg (ft fi).wid) (els.length - g * perSeg (ft fi).wid) := by
        rw [List.length_take, List.length_drop]
      have hnext : g * perSeg (ft fi).wid + min (perSeg (ft fi).wid) (els.length - g * perSeg (ft fi).wid) =
          min ((g + 1) * perSeg (ft fi).wid) els.length := by
        rw [Nat.succ_mul]
        omega
      have hseg := fill_segment ft fi deco seed els (sidesTo ft fi els g) g (g * perSeg (ft fi).wid)
        (min (perSeg (ft fi).wid) (els.length - g * perSeg (ft fi).wid)) (by omega)
        (fun i hlo hhi => Nat.div_eq_of_lt_le hlo (by rw [Nat.succ_mul]; omega))
      have hplan : fillPlan fi (((els.drop (g * perSeg (ft fi).wid)).take (perSeg (ft fi).wid)).filterMap id) = segPlan ft fi els g := rfl
      have hmin := List.take_eq_take_min (l := els.drop (g * perSeg (ft fi).wid)) (i := perSeg (ft fi).wid)
      rw [List.length_drop] at hmin
      rw [fillFrom_succ _ _ _ _ _ _ _ _ (by simpa using hlt)]
      simp only [hlen, hplan, min_eq_left hlt.le]
      rw [hmin, hseg, hnext, List.drop_drop, ← Nat.succ_mul]
      have hmore := (lt_segsBelow_iff hn g).mpr hlt
      have ih := ih (g + 1) (by rw [Nat.succ_mul]; omega) hmore
      rw [sidesTo_succ] at ih
      exact ih

/-- The filling of a register is the fill of all elements, with the sidecar of each segment. -/
theorem fill_eq (hn : 0 < perSeg (ft fi).wid) : fill ft fi deco seed els =
    { fillTo ft fi deco seed els els.length with
      codes := (fillTo ft fi deco seed els els.length).codes.reverse
      sides := (List.range (segsBelow els.length (ft fi).wid)).map fun k => (segPlan ft fi els k).side } := by
  have h := fillFrom_eq ft fi deco seed els hn els.length 0 (by omega) (Nat.zero_le _)
  simp only [Nat.zero_mul, List.drop_zero, Nat.zero_min] at h
  have hstart : ({ fillTo ft fi deco seed els 0 with sides := sidesTo ft fi els 0 } : FillRes) = ⟨[], [], 0, seed, none⟩ := rfl
  rw [hstart] at h
  simp only [fill, h, sidesTo, List.reverse_reverse]

/-- The draw of element `k` is the state after `k + 1` steps, where the decoration draws (R41). -/
def fillSeed (k : Nat) : BitVec 32 := if deco = some .sr then seedStep^[k] seed else seed

/-- What element `k` of a fill is written as, if it can be; an element without a line is code 0. -/
def fillElem (k : Nat) : Option (Nat × BitVec 8) :=
  match els.getD k none with
  | none => some (0, 0)
  | some el => fillOne ft fi deco (segPlan ft fi els (k / perSeg (ft fi).wid)) (fillSeed deco seed (k + 1)) el

theorem fillSeed_succ (k : Nat) : fillSeed deco seed (k + 1) = if deco = some .sr then seedStep (fillSeed deco seed k) else fillSeed deco seed k := by
  by_cases h : deco = some .sr <;> simp [fillSeed, h, Function.iterate_succ_apply']

theorem fillTo_seed (k : Nat) : (fillTo ft fi deco seed els k).seed = fillSeed deco seed k := by
  induction k with
  | zero => simp [fillTo, fillSeed]
  | succ k ih =>
    rw [fillSeed_succ, ← ih]
    simp only [fillTo, FillRes.step]
    split
    · rfl
    · split <;> rfl

/-- One element more. -/
theorem fillTo_succ (k : Nat) :
    (fillTo ft fi deco seed els (k + 1)).codes = ((fillElem ft fi deco seed els k).map Prod.fst).getD 0 :: (fillTo ft fi deco seed els k).codes ∧
      (fillTo ft fi deco seed els (k + 1)).bad =
        (fillTo ft fi deco seed els k).bad.or (if (fillElem ft fi deco seed els k).isNone then some k else none) := by
  have hseed := fillTo_seed ft fi deco seed els k
  simp only [fillTo, FillRes.step, fillElem, fillSeed_succ, ← hseed]
  generalize fillTo ft fi deco seed els k = r
  cases els.getD k none with
  | none => simp
  | some el =>
    simp only
    split
    next c f hc => simp [hc]
    next hc => cases r.bad <;> simp [hc]

theorem fillTo_codes (k : Nat) :
    (fillTo ft fi deco seed els k).codes.reverse = (List.range k).map fun i => ((fillElem ft fi deco seed els i).map Prod.fst).getD 0 := by
  induction k with
  | zero => rfl
  | succ k ih =>
    rw [(fillTo_succ ft fi deco seed els k).1, List.reverse_cons, ih, List.range_succ, List.map_append]
    rfl

/-- The first element that cannot be written. -/
theorem fillTo_bad (k : Nat) : (fillTo ft fi deco seed els k).bad = (List.range k).find? fun i => (fillElem ft fi deco seed els i).isNone := by
  induction k with
  | zero => rfl
  | succ k ih =>
    rw [(fillTo_succ ft fi deco seed els k).2, ih, List.range_succ, List.find?_append]
    congr 1
    simp only [List.find?_cons, List.find?_nil]
    cases (fillElem ft fi deco seed els k).isNone <;> rfl

variable {els}

theorem fillElem_none {k : Nat} (h : els[k]? = some none) : fillElem ft fi deco seed els k = some (0, 0) := by
  rw [fillElem, List.getD_eq_getElem?_getD, h, Option.getD_some]

theorem fillElem_some {k : Nat} {x : FillEl} (h : els[k]? = some (some x)) : fillElem ft fi deco seed els k =
    fillOne ft fi deco (segPlan ft fi els (k / perSeg (ft fi).wid)) (fillSeed deco seed (k + 1)) x := by
  rw [fillElem, List.getD_eq_getElem?_getD, h, Option.getD_some]

/-- The elements that cannot be written. -/
theorem fillElem_isNone_iff (k : Nat) : (fillElem ft fi deco seed els k).isNone = true ↔ deco = none ∧ ∃ x, els[k]? = some (some x) ∧
    (segPlan ft fi els (k / perSeg (ft fi).wid)).raw = false ∧ x.exact ft fi (segPlan ft fi els (k / perSeg (ft fi).wid)).fold = false := by
  rw [Option.isNone_iff_eq_none]
  rcases hk : els[k]? with _ | _ | x
  · simp [fillElem, List.getD_eq_getElem?_getD, hk]
  · simp [fillElem_none ft fi deco seed hk]
  · rw [fillElem_some ft fi deco seed hk, fillOne_eq_none_iff]
    simp

/-- The code of an element of a fill. -/
theorem fill_codes_getElem? (hn : 0 < perSeg (ft fi).wid) {k : Nat} {o : Option FillEl} (h : els[k]? = some o) :
    (fill ft fi deco seed els).codes[k]? = some (((fillElem ft fi deco seed els k).map Prod.fst).getD 0) := by
  obtain ⟨hk, -⟩ := List.getElem?_eq_some_iff.mp h
  rw [fill_eq ft fi deco seed els hn]
  simp only [fillTo_codes, List.getElem?_map, List.getElem?_range hk, Option.map_some]

theorem fill_seed (hn : 0 < perSeg (ft fi).wid) : (fill ft fi deco seed els).seed = fillSeed deco seed els.length := by
  rw [fill_eq ft fi deco seed els hn]
  exact fillTo_seed ft fi deco seed els els.length

theorem fill_codes_length (hn : 0 < perSeg (ft fi).wid) : (fill ft fi deco seed els).codes.length = els.length := by
  rw [fill_eq ft fi deco seed els hn]
  simp only [fillTo_codes, List.length_map, List.length_range]

theorem fill_sides_getElem? (hn : 0 < perSeg (ft fi).wid) {g : Nat} (hg : g * perSeg (ft fi).wid < els.length) :
    (fill ft fi deco seed els).sides[g]? = some (segPlan ft fi els g).side := by
  rw [fill_eq ft fi deco seed els hn]
  simp only [List.getElem?_map, List.getElem?_range ((lt_segsBelow_iff hn g).mpr hg), Option.map_some]

/-- The first element that cannot be written is the one that a fill names. -/
theorem fill_bad_iff (hn : 0 < perSeg (ft fi).wid) (k : Nat) : (fill ft fi deco seed els).bad = some k ↔
    (fillElem ft fi deco seed els k).isNone = true ∧ ∀ i, i < k → (fillElem ft fi deco seed els i).isNone = false := by
  have hbound (h : (fillElem ft fi deco seed els k).isNone = true) : k < els.length := by
    obtain ⟨-, x, hx, -⟩ := (fillElem_isNone_iff ft fi deco seed k).mp h
    exact (List.getElem?_eq_some_iff.mp hx).1
  rw [fill_eq ft fi deco seed els hn]
  simp only [fillTo_bad, List.find?_range_eq_some, List.mem_range, Bool.not_eq_true']
  exact ⟨fun ⟨h, _, hlow⟩ => ⟨h, hlow⟩, fun ⟨h, hlow⟩ => ⟨h, hbound h, hlow⟩⟩

end

end Sys2Proof.Machine

/-! SUPPORT. The writing of a line (R61, R62, R216): its scale, one element under each policy, the whole line. -/

namespace Sys2Proof.Machine

/-! ### The largest scale (R61) -/

theorem maxScale_foldl (c : BitVec 8) (r : List (BitVec 8)) :
    let m := r.foldl (fun a b => if a < b then b else a) c
    m ∈ c :: r ∧ ∀ z ∈ c :: r, z ≤ m := by
  induction r generalizing c with
  | nil => simp
  | cons b r ih =>
    obtain ⟨hmem, hmax⟩ := ih (if c < b then b else c)
    simp only [List.foldl_cons, List.forall_mem_cons] at hmax ⊢
    obtain ⟨hfirst, hrest⟩ := hmax
    generalize r.foldl (fun a b => if a < b then b else a) (if c < b then b else c) = m at *
    simp only [BitVec.le_def, BitVec.lt_def] at *
    refine ⟨?_, ?_, ?_, hrest⟩
    · rcases List.mem_cons.mp hmem with h | h
      · rw [h]
        split_ifs <;> simp
      · exact List.mem_cons_of_mem _ (List.mem_cons_of_mem _ h)
    · split_ifs at hfirst <;> omega
    · split_ifs at hfirst <;> omega

/-- The largest of a list of scale codes is the one that is largest. -/
theorem maxScale_eq {c : BitVec 8} {cs : List (BitVec 8)} (h : (c ∈ cs ∨ cs = [] ∧ c = 127) ∧ ∀ z ∈ cs, z ≤ c) : maxScale 127 cs = c := by
  obtain ⟨hmem, hmax⟩ := h
  cases cs with
  | nil =>
    obtain ⟨-, rfl⟩ := hmem.resolve_left List.not_mem_nil
    rfl
  | cons b r =>
    obtain ⟨hmem', hmax'⟩ := maxScale_foldl b r
    have hc := hmem.resolve_right fun h => List.cons_ne_nil _ _ h.1
    exact BitVec.le_antisymm (hmax _ hmem') (hmax' _ hc)

/-! ### Slots of a line put together -/

/-- The lowest slot of a list in ascending slots is its first. -/
theorem lowSlot_cons (low : LineEl) (rest : List LineEl) (h : ∀ x ∈ rest, low.slot < x.slot) : lowSlot (low :: rest) = low := by
  have hfold (r : List LineEl) (hr : ∀ x ∈ r, low.slot < x.slot) :
      r.foldl (fun (a : LineEl) b => if b.slot < a.slot then b else a) low = low := by
    induction r with
    | nil => rfl
    | cons x r ih =>
      rw [List.forall_mem_cons] at hr
      rw [List.foldl_cons, if_neg (Nat.not_lt.mpr hr.1.le), ih hr.2]
  rw [lowSlot, List.foldl_cons, List.headD_cons, if_neg (Nat.lt_irrefl _), hfold rest h]

section
variable {F : Fmt} {xs : List LineEl} (hok : ∀ x ∈ xs, slotOk F x.slot = true)
include hok

/-- No slot is missing from the format. -/
theorem bad_eq_nil : (xs.filter fun x => !slotOk F x.slot).map (·.slot) = [] := by
  rw [List.map_eq_nil_iff, List.filter_eq_nil_iff]
  exact fun x hx => by simp [hok x hx]

theorem slots_in_line (code : LineEl → Nat) : ∀ y ∈ xs.map fun x => (x.slot, code x), F.wid * y.1 + F.wid ≤ 1024 := by
  intro y hy
  obtain ⟨x, hx, rfl⟩ := List.mem_map.mp hy
  exact (slot_of_slotOk (hok x hx)).2

variable (hsort : xs.Pairwise fun x y => x.slot < y.slot)
include hsort

/-- Elements put into a line in ascending slots read as their codes. -/
theorem lineSlot_put (l : Line) (code : LineEl → Nat) {x : LineEl} (hx : x ∈ xs) :
    lineSlot (putSlots F.wid l (xs.map fun x => (x.slot, code x))) F.wid x.slot = code x % 2 ^ F.wid :=
  lineSlot_putSlots (slot_of_slotOk (hok x hx)).1 l _ (slots_in_line hok code) (List.pairwise_map.mpr (hsort.imp Nat.ne_of_lt))
    _ (List.mem_map_of_mem hx)

/-- So do those put in descending slots. -/
theorem lineSlot_put_reverse (l : Line) (code : LineEl → Nat) {x : LineEl} (hx : x ∈ xs) :
    lineSlot (putSlots F.wid l (xs.map fun x => (x.slot, code x)).reverse) F.wid x.slot = code x % 2 ^ F.wid :=
  lineSlot_putSlots (slot_of_slotOk (hok x hx)).1 l _ (fun y hy => slots_in_line hok code y (List.mem_reverse.mp hy))
    (List.pairwise_reverse.mpr (List.pairwise_map.mpr (hsort.imp fun h => (Nat.ne_of_lt h).symm)))
    _ (List.mem_reverse.mpr (List.mem_map_of_mem hx))

end

/-! ### One element under a policy (R61, R62) -/

/-- A value divided by a scale; a NaN stays. -/
def Val.divided (c : BitVec 8) (v : Val) : Val := if v.isNaN then v else v.scale (127 - (c.toNat : ℤ))

/-- The value of an element with its own scale applied, for a format of a kind; +0 where it is UNW (R61). -/
def FillEl.amount (ft : BitVec 4 → Fmt) (F : Fmt) (x : FillEl) : Val :=
  if x.cls = cUNW then .zero else applyScale x.scl ((ft x.fmt).decode (F.kind != .float) x.code).1

theorem FillEl.value_fst (ft : BitVec 4 → Fmt) (F : Fmt) (x : FillEl) : (x.value ft (F.kind != .float)).1 = x.amount ft F := by
  unfold FillEl.value FillEl.amount
  split <;> rfl

theorem Val.isNaN_iff (v : Val) : v.isNaN = true ↔ v = .nan := by
  cases v <;> simp [Val.isNaN]

/-- Scaling keeps the sign. -/
theorem neg?_divided (c : BitVec 8) (v : Val) : (v.divided c).neg? = v.neg? := by
  cases v <;> rfl

section
variable (ft : BitVec 4 → Fmt) (fi : BitVec 4) {c : BitVec 8} {same : Prop} [Decidable same] {x : LineEl}

/-- Scales that differ, one of them the NaN scale: a NaN. -/
theorem keepOne_nan (h : c = 255 ∧ ¬ same) : (keepOne ft fi c (decide same) x).map Prod.fst = some ((ft fi).convert .rne 0 .nan).1 := by
  rw [keepOne, if_pos ⟨h.1, decide_eq_false h.2⟩, Option.map_some]

/-- A code that is written unchanged. -/
theorem keepOne_verbatim (h : same ∧ x.el.cls ≠ cUNW ∧ x.el.fmt = fi ∧ x.el.scl = c) :
    (keepOne ft fi c (decide same) x).map Prod.fst = some x.el.code := by
  have hsame : ¬ (c = 255 ∧ decide same = false) := fun hc => of_decide_eq_false hc.2 h.1
  rw [keepOne, if_neg hsame, if_pos ⟨decide_eq_true h.1, h.2⟩, Option.map_some]

/-- Any other is written exactly or not at all. -/
theorem keepOne_divided (hsame : ¬ (c = 255 ∧ ¬ same)) (h : ¬ (same ∧ x.el.cls ≠ cUNW ∧ x.el.fmt = fi ∧ x.el.scl = c)) :
    (keepOne ft fi c (decide same) x).map Prod.fst =
      if (ft fi).represents ((x.el.amount ft (ft fi)).divided c) = true ∧
          (c ≠ 255 ∨ x.old = false ∨ (x.el.amount ft (ft fi)).divided c = .nan)
        then some ((ft fi).convert .rtz 0 ((x.el.amount ft (ft fi)).divided c)).1 else none := by
  rw [keepOne, if_neg (by rwa [decide_eq_false_iff_not]), if_neg (by rwa [decide_eq_true_eq])]
  simp only [← FillEl.value_fst, ← Val.isNaN_iff, Bool.and_eq_true, Bool.or_eq_true, bne_iff_ne, Bool.not_eq_true', or_assoc,
    apply_ite (Option.map Prod.fst), Option.map_some, Option.map_none]
  rfl

/-- The elements that keep can write. -/
theorem keepOne_isSome (h : (c = 255 ∧ ¬ same) ∨ (same ∧ x.el.cls ≠ cUNW ∧ x.el.fmt = fi ∧ x.el.scl = c) ∨
    ((ft fi).represents ((x.el.amount ft (ft fi)).divided c) = true ∧
      (c ≠ 255 ∨ x.old = false ∨ (x.el.amount ft (ft fi)).divided c = .nan))) :
    (keepOne ft fi c (decide same) x).isSome = true := by
  rw [← Option.isSome_map (f := Prod.fst)]
  by_cases hnan : c = 255 ∧ ¬ same
  · rw [keepOne_nan ft fi hnan, Option.isSome_some]
  · by_cases hverb : same ∧ x.el.cls ≠ cUNW ∧ x.el.fmt = fi ∧ x.el.scl = c
    · rw [keepOne_verbatim ft fi hverb, Option.isSome_some]
    · rw [keepOne_divided ft fi hnan hverb, if_pos ((h.resolve_left hnan).resolve_left hverb), Option.isSome_some]

end

/-! ### A whole line (R61, R62) -/

section
variable {ft : BitVec 4 → Fmt} {policy : BitVec 9} {rnd : BitVec 3} {draw : Nat → BitVec 32} {xs ns : List LineEl} {x₀ : LineEl}
  (hnews : (xs.filter fun x => !x.old) = x₀ :: ns)
include hnews

/-- RAW elements move as they are. -/
theorem buildLine_raw (hraw : (x₀ :: ns).any (·.el.cls == cRAW) = true) (hlow : ∀ x ∈ ns, x₀.slot < x.slot)
    (hok : ∀ x ∈ xs, slotOk (ft x₀.el.fmt) x.slot = true) : buildLine ft policy rnd draw xs =
      .ok ⟨putSlots (ft x₀.el.fmt).wid 0 (xs.map fun x => (x.slot, if x.el.cls = cUNW then 0 else x.el.code)), x₀.el.fmt, x₀.el.scl, cRAW, 0⟩ := by
  simp only [buildLine, hnews, hraw, bad_eq_nil hok, lowSlot_cons _ _ hlow]
  rfl

section
variable (hraw : (x₀ :: ns).any (·.el.cls == cRAW) = false) (hmode : sfpMode policy = 0) {c : BitVec 8}
  (hc : maxScale 127 (((x₀ :: ns).filter fun x => x.el.cls != cUNW).map (·.el.scl)) = c)
include hraw hmode hc

/-- A line under keep, of elements that can all be written. -/
theorem buildLine_keep {same : Bool} (hsame : ((((x₀ :: ns).filter fun x => x.el.cls != cUNW).map (·.el.scl)).all (· == c)) = same)
    (hok : ∀ x ∈ xs, slotOk (ft x₀.el.fmt) x.slot = true) (hfits : ∀ x ∈ xs, (keepOne ft x₀.el.fmt c same x).isSome = true) :
    ∃ fl, buildLine ft policy rnd draw xs = .ok ⟨putSlots (ft x₀.el.fmt).wid 0
      (xs.map fun x => (x.slot, ((keepOne ft x₀.el.fmt c same x).map Prod.fst).getD 0)), x₀.el.fmt, c, cVAL, fl⟩ := by
  have hdone : (xs.map fun x => (x.slot, if slotOk (ft x₀.el.fmt) x.slot then keepOne ft x₀.el.fmt c same x else none)) =
      xs.map fun x => (x.slot, keepOne ft x₀.el.fmt c same x) :=
    List.map_congr_left fun x hx => by rw [if_pos (hok x hx)]
  have hbad : ((xs.map fun x => (x.slot, keepOne ft x₀.el.fmt c same x)).filter fun x => x.2.isNone) = [] := by
    rw [List.filter_eq_nil_iff]
    intro y hy
    obtain ⟨x, hx, rfl⟩ := List.mem_map.mp hy
    simpa using Option.isSome_iff_ne_none.mp (hfits x hx)
  have hcode (o : Option (Nat × BitVec 8)) : (o.getD (0, 0)).1 = (o.map Prod.fst).getD 0 := by cases o <;> rfl
  simp only [buildLine, hnews, hraw, hmode, hc, hsame, hdone, hbad, List.map_map, Function.comp_def, hcode]
  exact ⟨_, rfl⟩

/-- An element that cannot be written under keep is named. -/
theorem buildLine_keep_error {same : Bool} (hsame : ((((x₀ :: ns).filter fun x => x.el.cls != cUNW).map (·.el.scl)).all (· == c)) = same)
    {x : LineEl} (hx : x ∈ xs) (hfails : keepOne ft x₀.el.fmt c same x = none) :
    ∃ bad, buildLine ft policy rnd draw xs = .error bad ∧ x.slot ∈ bad := by
  have hmem : x.slot ∈ (((xs.map fun x => (x.slot, if slotOk (ft x₀.el.fmt) x.slot then keepOne ft x₀.el.fmt c same x else none)).filter
      fun x => x.2.isNone).map (·.1)) := by
    refine List.mem_map.mpr ⟨(x.slot, none), List.mem_filter.mpr ⟨List.mem_map.mpr ⟨x, hx, ?_⟩, rfl⟩, rfl⟩
    rw [hfails, ite_self]
  refine ⟨_, ?_, hmem⟩
  simp only [buildLine, hnews, hraw, hmode, hc, hsame]
  exact if_pos (List.ne_nil_of_mem hmem)

end

omit hnews in
/-- A demotion element by element. -/
theorem demote_foldl (ti : BitVec 4) (c : BitVec 8) (rm : RMode) (r : DemRes) :
    xs.foldl (fun (r : DemRes) x => ⟨(x.slot, (demoteOne ft ti c rm (draw x.slot) x.el).1) :: r.slots,
        r.flags ||| (demoteOne ft ti c rm (draw x.slot) x.el).2.1, r.ovf || (demoteOne ft ti c rm (draw x.slot) x.el).2.2⟩) r =
      ⟨(xs.map fun x => (x.slot, (demoteOne ft ti c rm (draw x.slot) x.el).1)).reverse ++ r.slots,
        xs.foldl (fun f x => f ||| (demoteOne ft ti c rm (draw x.slot) x.el).2.1) r.flags,
        r.ovf || xs.any fun x => (demoteOne ft ti c rm (draw x.slot) x.el).2.2⟩ := by
  induction xs generalizing r with
  | nil => simp
  | cons x xs ih => simp [ih, Bool.or_assoc]

/-- A line under a demoting policy. -/
theorem buildLine_demote (hraw : (x₀ :: ns).any (·.el.cls == cRAW) = false) (hmode : sfpMode policy ≠ 0) {c : BitVec 8}
    (hc : maxScale 127 (xs.map (·.el.scl)) = c) (hok : ∀ x ∈ xs, slotOk (ft (sfpFmt policy)) x.slot = true) :
    buildLine ft policy rnd draw xs =
      if (xs.any fun x => (demoteOne ft (sfpFmt policy) c (sfpRound policy rnd) (draw x.slot) x.el).2.2) = true ∧ sfpMode policy = 2
      then .ok ⟨0, sfpFmt policy, c, cINV, fOF⟩
      else .ok ⟨putSlots (ft (sfpFmt policy)).wid 0
          (xs.map fun x => (x.slot, (demoteOne ft (sfpFmt policy) c (sfpRound policy rnd) (draw x.slot) x.el).1)).reverse, sfpFmt policy, c, cVAL,
        xs.foldl (fun f x => f ||| (demoteOne ft (sfpFmt policy) c (sfpRound policy rnd) (draw x.slot) x.el).2.1) 0⟩ := by
  simp only [buildLine, hnews, hraw, hmode, hc, bad_eq_nil hok, demote_foldl, List.append_nil, Bool.false_or]
  rfl

end

end Sys2Proof.Machine

/-! SUPPORT. Fills and typed stores: what each line reads as, and the statement. -/

namespace Sys2Proof.Machine

/-! ### One element under a demoting policy (R61) -/

section
variable (ft : BitVec 4 → Fmt) (ti : BitVec 4) {c : BitVec 8} (rm : RMode) (d : BitVec 32) (x : FillEl)

/-- Under the NaN scale every element is a NaN. -/
theorem demoteOne_nan (h : c = 255) : demoteOne ft ti c rm d x = (((ft ti).convert rm d .nan).1, ((ft ti).convert rm d .nan).2, false) := by
  rw [demoteOne, if_pos h]

/-- An element that overflows saturates. -/
theorem demoteOne_overflow (h : c ≠ 255) (hovf : ((ft ti).convert rm d ((x.amount ft (ft ti)).divided c)).2 &&& fOF ≠ 0) :
    ∃ f, demoteOne ft ti c rm d x = ((ft ti).maxSigned (x.amount ft (ft ti)).neg?, f ||| 0x14, true) := by
  refine ⟨(x.value ft ((ft ti).kind != .float)).2, ?_⟩
  rw [← neg?_divided c, ← FillEl.value_fst, demoteOne, if_neg h]
  rw [← FillEl.value_fst] at hovf
  exact (if_pos hovf).trans (by rw [BitVec.or_assoc]; rfl)

/-- Another is what it converts to. -/
theorem demoteOne_fits (h : c ≠ 255) (hovf : ((ft ti).convert rm d ((x.amount ft (ft ti)).divided c)).2 &&& fOF = 0) :
    ∃ f, demoteOne ft ti c rm d x = (((ft ti).convert rm d ((x.amount ft (ft ti)).divided c)).1, f, false) := by
  rw [← FillEl.value_fst] at hovf ⊢
  rw [demoteOne, if_neg h]
  exact ⟨_, if_neg (not_not.mpr hovf)⟩

end

/-! ### Store-format policies (Table 03.7) -/

theorem sfpMode_keep {policy : BitVec 9} (h : (policy.extractLsb' 7 2).toNat = 0 ∨ (policy.extractLsb' 7 2).toNat = 3) : sfpMode policy = 0 := by
  rcases h with h | h <;> simp [sfpMode, h]

theorem sfpMode_demote {policy : BitVec 9} (h : (policy.extractLsb' 7 2).toNat = 1 ∨ (policy.extractLsb' 7 2).toNat = 2) :
    sfpMode policy = (policy.extractLsb' 7 2).toNat := by
  rcases h with h | h <;> simp [sfpMode, h]

theorem all_beq_eq_decide (cs : List (BitVec 8)) (c : BitVec 8) : cs.all (· == c) = decide (∀ z ∈ cs, z = c) := by
  rw [Bool.eq_iff_iff]
  simp

/-- OF and NX are among flags that they were ORed into. -/
theorem or_and_absorb (f g : BitVec 8) : (f ||| 0x14 ||| g) &&& 0x14 = 0x14 := by
  ext i hi
  simp only [BitVec.getElem_and, BitVec.getElem_or]
  cases (0x14 : BitVec 8)[i] <;> simp

/-! ### What a line reads as -/

section
variable {ft : BitVec 4 → Fmt} {policy : BitVec 9} {rnd : BitVec 3} {draw : Nat → BitVec 32} {xs ns : List LineEl} {x₀ : LineEl}
  (hnews : (xs.filter fun x => !x.old) = x₀ :: ns) (hsort : xs.Pairwise fun x y => x.slot < y.slot)
include hnews hsort

/-- A line of RAW elements reads as they were. -/
theorem buildLine_raw_reads (hraw : (x₀ :: ns).any (·.el.cls == cRAW) = true) (hok : ∀ x ∈ xs, slotOk (ft x₀.el.fmt) x.slot = true) :
    ∃ l, buildLine ft policy rnd draw xs = .ok ⟨l, x₀.el.fmt, x₀.el.scl, cRAW, 0⟩ ∧ ∀ x ∈ xs,
      lineSlot l (ft x₀.el.fmt).wid x.slot = (if x.el.cls = cUNW then 0 else x.el.code) % 2 ^ (ft x₀.el.fmt).wid := by
  have hlow : ∀ x ∈ ns, x₀.slot < x.slot := (List.pairwise_cons.mp (hnews ▸ hsort.filter _)).1
  exact ⟨_, buildLine_raw hnews hraw hlow hok, fun x hx => lineSlot_put hok hsort 0 _ hx⟩

section
variable (hraw : (x₀ :: ns).any (·.el.cls == cRAW) = false)
include hraw

section
variable (hmode : sfpMode policy = 0) {c : BitVec 8}
  (hc : maxScale 127 (((x₀ :: ns).filter fun x => x.el.cls != cUNW).map (·.el.scl)) = c) {same : Prop} [Decidable same]
  (hsame : ((((x₀ :: ns).filter fun x => x.el.cls != cUNW).map (·.el.scl)).all (· == c)) = decide same)
include hmode hc hsame

/-- A line under keep reads as each element was written. -/
theorem buildLine_keep_reads (hok : ∀ x ∈ xs, slotOk (ft x₀.el.fmt) x.slot = true)
    (hfits : ∀ x ∈ xs, (keepOne ft x₀.el.fmt c (decide same) x).isSome = true) :
    ∃ l fl, buildLine ft policy rnd draw xs = .ok ⟨l, x₀.el.fmt, c, cVAL, fl⟩ ∧ ∀ x ∈ xs, ∀ k,
      (keepOne ft x₀.el.fmt c (decide same) x).map Prod.fst = some k → lineSlot l (ft x₀.el.fmt).wid x.slot = k % 2 ^ (ft x₀.el.fmt).wid := by
  obtain ⟨fl, hbuild⟩ := buildLine_keep (rnd := rnd) (draw := draw) hnews hraw hmode hc hsame hok hfits
  refine ⟨_, fl, hbuild, fun x hx k hk => ?_⟩
  rw [lineSlot_put hok hsort 0 _ hx, hk, Option.getD_some]

/-- A line whose elements keep can write: NaNs, codes as they were, or values divided by the largest scale (R61, R62). -/
theorem buildLine_keep_writes (hfits : ∀ x ∈ xs, slotOk (ft x₀.el.fmt) x.slot = true ∧
      ((c = 255 ∧ ¬ same) ∨ (same ∧ x.el.cls ≠ cUNW ∧ x.el.fmt = x₀.el.fmt ∧ x.el.scl = c) ∨
        ((ft x₀.el.fmt).represents ((x.el.amount ft (ft x₀.el.fmt)).divided c) = true ∧
          (c ≠ 255 ∨ x.old = false ∨ (x.el.amount ft (ft x₀.el.fmt)).divided c = .nan)))) :
    ∃ l fl, buildLine ft policy rnd draw xs = .ok ⟨l, x₀.el.fmt, c, cVAL, fl⟩ ∧ ∀ x ∈ xs,
      (c = 255 → ¬ same → lineSlot l (ft x₀.el.fmt).wid x.slot = ((ft x₀.el.fmt).convert .rne 0 .nan).1 % 2 ^ (ft x₀.el.fmt).wid) ∧
      (same ∧ x.el.cls ≠ cUNW ∧ x.el.fmt = x₀.el.fmt ∧ x.el.scl = c →
        lineSlot l (ft x₀.el.fmt).wid x.slot = x.el.code % 2 ^ (ft x₀.el.fmt).wid) ∧
      ((c ≠ 255 ∨ same) → ¬ (same ∧ x.el.cls ≠ cUNW ∧ x.el.fmt = x₀.el.fmt ∧ x.el.scl = c) →
        lineSlot l (ft x₀.el.fmt).wid x.slot =
          ((ft x₀.el.fmt).convert .rtz 0 ((x.el.amount ft (ft x₀.el.fmt)).divided c)).1 % 2 ^ (ft x₀.el.fmt).wid) := by
  obtain ⟨l, fl, hbuild, hreads⟩ := buildLine_keep_reads (rnd := rnd) (draw := draw) hnews hsort hraw hmode hc hsame
    (fun x hx => (hfits x hx).1) (fun x hx => keepOne_isSome ft x₀.el.fmt (hfits x hx).2)
  refine ⟨l, fl, hbuild, fun x hx => ⟨fun h255 hdiff => ?_, fun hverb => ?_, fun hone hverb => ?_⟩⟩
  · exact hreads x hx _ (keepOne_nan ft x₀.el.fmt ⟨h255, hdiff⟩)
  · exact hreads x hx _ (keepOne_verbatim ft x₀.el.fmt hverb)
  · have hnan : ¬ (c = 255 ∧ ¬ same) := fun h => hone.elim (fun hne => hne h.1) h.2
    have hfit := ((hfits x hx).2.resolve_left hnan).resolve_left hverb
    exact hreads x hx _ ((keepOne_divided ft x₀.el.fmt hnan hverb).trans (if_pos hfit))

omit hsort in
/-- An element that its format does not represent divided by the largest scale is named (R61, R62). -/
theorem buildLine_keep_refuses {x : LineEl} (hx : x ∈ xs) (hone : c ≠ 255 ∨ same)
    (hverb : ¬ (same ∧ x.el.cls ≠ cUNW ∧ x.el.fmt = x₀.el.fmt ∧ x.el.scl = c))
    (hrep : (ft x₀.el.fmt).represents ((x.el.amount ft (ft x₀.el.fmt)).divided c) = false) :
    ∃ bad, buildLine ft policy rnd draw xs = .error bad ∧ x.slot ∈ bad := by
  have hnan : ¬ (c = 255 ∧ ¬ same) := fun h => hone.elim (fun hne => hne h.1) h.2
  have hfails : keepOne ft x₀.el.fmt c (decide same) x = none := by
    rw [← Option.map_eq_none_iff (f := Prod.fst), keepOne_divided ft x₀.el.fmt hnan hverb, if_neg (by simp [hrep])]
  exact buildLine_keep_error hnews hraw hmode hc hsame hx hfails

end

omit hnews hsort hraw in
/-- A flag that one element raises is among those of all. -/
theorem foldl_or_of_mem (g : LineEl → BitVec 8) (f₀ : BitVec 8) {x : LineEl} (hx : x ∈ xs) : ∃ h, xs.foldl (fun f x => f ||| g x) f₀ = g x ||| h := by
  have hstart (ys : List LineEl) (f : BitVec 8) : ∃ h, ys.foldl (fun f x => f ||| g x) f = f ||| h := by
    induction ys generalizing f with
    | nil => exact ⟨0, BitVec.or_zero.symm⟩
    | cons y ys ih =>
      obtain ⟨h, hh⟩ := ih (f ||| g y)
      exact ⟨g y ||| h, by rw [List.foldl_cons, hh, BitVec.or_assoc]⟩
  obtain ⟨as, bs, rfl⟩ := List.append_of_mem hx
  obtain ⟨h, hh⟩ := hstart bs (as.foldl (fun f x => f ||| g x) f₀ ||| g x)
  refine ⟨as.foldl (fun f x => f ||| g x) f₀ ||| h, ?_⟩
  rw [List.foldl_append, List.foldl_cons, hh, BitVec.or_comm _ (g x), BitVec.or_assoc]

section
variable (hmode : sfpMode policy ≠ 0) {c : BitVec 8} (hc : maxScale 127 (xs.map (·.el.scl)) = c)
  (hok : ∀ x ∈ xs, slotOk (ft (sfpFmt policy)) x.slot = true)
include hmode hc hok

/-- A line under a demoting policy reads as each element was converted, and raises what each raised. -/
theorem buildLine_demote_reads
    (hvalid : sfpMode policy = 2 → ∀ x ∈ xs, (demoteOne ft (sfpFmt policy) c (sfpRound policy rnd) (draw x.slot) x.el).2.2 = false) :
    ∃ l fl, buildLine ft policy rnd draw xs = .ok ⟨l, sfpFmt policy, c, cVAL, fl⟩ ∧ ∀ x ∈ xs, ∀ k f o,
      demoteOne ft (sfpFmt policy) c (sfpRound policy rnd) (draw x.slot) x.el = (k, f, o) →
      lineSlot l (ft (sfpFmt policy)).wid x.slot = k % 2 ^ (ft (sfpFmt policy)).wid ∧ ∃ h, fl = f ||| h := by
  refine ⟨_, _, (buildLine_demote hnews hraw hmode hc hok).trans (if_neg ?_), fun x hx k f o hone => ⟨?_, ?_⟩⟩
  · rintro ⟨hany, htwo⟩
    obtain ⟨x, hx, hovf⟩ := List.any_eq_true.mp hany
    rw [hvalid htwo x hx] at hovf
    exact Bool.noConfusion hovf
  · rw [lineSlot_put_reverse hok hsort 0 _ hx, hone]
  · obtain ⟨h, hh⟩ := foldl_or_of_mem (fun x => (demoteOne ft (sfpFmt policy) c (sfpRound policy rnd) (draw x.slot) x.el).2.1) 0 hx
    exact ⟨h, by rw [hh, hone]⟩

/-- What an element of a line is under a demoting policy. -/
def demoted (ft : BitVec 4 → Fmt) (policy : BitVec 9) (rnd : BitVec 3) (draw : Nat → BitVec 32) (c : BitVec 8) (x : LineEl) : Nat × BitVec 8 :=
  (ft (sfpFmt policy)).convert (sfpRound policy rnd) (draw x.slot) ((x.el.amount ft (ft (sfpFmt policy))).divided c)

omit hsort in
/-- A line of which an element overflows is INV under the policy that says so (R61). -/
theorem buildLine_demote_invalid (hmode₂ : sfpMode policy = 2)
    (hovf : ∃ x ∈ xs, c ≠ 255 ∧ (demoted ft policy rnd draw c x).2 &&& 0x04 ≠ 0) :
    buildLine ft policy rnd draw xs = .ok ⟨0, sfpFmt policy, c, cINV, 0x04⟩ := by
  obtain ⟨x, hx, h255, hovf⟩ := hovf
  obtain ⟨f, hone⟩ := demoteOne_overflow ft (sfpFmt policy) (sfpRound policy rnd) (draw x.slot) x.el h255 hovf
  exact (buildLine_demote hnews hraw hmode hc hok).trans (if_pos ⟨List.any_eq_true.mpr ⟨x, hx, congrArg (·.2.2) hone⟩, hmode₂⟩)

/-- Any other line is converted element by element, saturated where it overflows (R61). -/
theorem buildLine_demote_writes
    (hvalid : sfpMode policy ≠ 2 ∨ ∀ x ∈ xs, ¬ (c ≠ 255 ∧ (demoted ft policy rnd draw c x).2 &&& 0x04 ≠ 0)) :
    ∃ l fl, buildLine ft policy rnd draw xs = .ok ⟨l, sfpFmt policy, c, cVAL, fl⟩ ∧ ∀ x ∈ xs,
      (c = 255 → lineSlot l (ft (sfpFmt policy)).wid x.slot =
        ((ft (sfpFmt policy)).convert (sfpRound policy rnd) (draw x.slot) .nan).1 % 2 ^ (ft (sfpFmt policy)).wid) ∧
      (c ≠ 255 ∧ (demoted ft policy rnd draw c x).2 &&& 0x04 ≠ 0 → lineSlot l (ft (sfpFmt policy)).wid x.slot =
        (ft (sfpFmt policy)).maxSigned (x.el.amount ft (ft (sfpFmt policy))).neg? % 2 ^ (ft (sfpFmt policy)).wid ∧ fl &&& 0x14 = 0x14) ∧
      (c ≠ 255 → ¬ (c ≠ 255 ∧ (demoted ft policy rnd draw c x).2 &&& 0x04 ≠ 0) →
        lineSlot l (ft (sfpFmt policy)).wid x.slot = (demoted ft policy rnd draw c x).1 % 2 ^ (ft (sfpFmt policy)).wid) := by
  have hfit (x : LineEl) (h255 : c ≠ 255) (h : ¬ (c ≠ 255 ∧ (demoted ft policy rnd draw c x).2 &&& 0x04 ≠ 0)) :=
    demoteOne_fits ft (sfpFmt policy) (sfpRound policy rnd) (draw x.slot) x.el h255 (not_not.mp fun hne => h ⟨h255, hne⟩)
  obtain ⟨l, fl, hbuild, hreads⟩ := buildLine_demote_reads (rnd := rnd) (draw := draw) hnews hsort hraw hmode hc hok fun htwo x hx => by
    by_cases h255 : c = 255
    · rw [demoteOne_nan ft _ _ _ _ h255]
    · obtain ⟨f, hone⟩ := hfit x h255 (hvalid.resolve_left (not_not.mpr htwo) x hx)
      rw [hone]
  refine ⟨l, fl, hbuild, fun x hx => ⟨fun h255 => ?_, fun ⟨h255, hovf⟩ => ?_, fun h255 hnot => ?_⟩⟩
  · exact (hreads x hx _ _ _ (demoteOne_nan ft _ _ _ _ h255)).1
  · obtain ⟨f, hone⟩ := demoteOne_overflow ft (sfpFmt policy) (sfpRound policy rnd) (draw x.slot) x.el h255 hovf
    obtain ⟨hslot, g, rfl⟩ := hreads x hx _ _ _ hone
    exact ⟨hslot, or_and_absorb f g⟩
  · obtain ⟨f, hone⟩ := hfit x h255 hnot
    exact (hreads x hx _ _ _ hone).1

end

end

end

/-! ### The clauses -/

/-- When a format exact-widens to another (R51). -/
theorem exactWidens_iff (si fi : BitVec 4) (S F : Fmt) : exactWidens si fi S F = true ↔ si = fi ∨
    (S.kind = .float ∧ F.kind = .float ∧ S.mw ≤ F.mw ∧ S.emax ≤ F.emax ∧ F.eminSub ≤ S.eminSub ∧ (S.spc = 0 → F.spc = 0) ∧
      (S.hasNaN = true → F.hasNaN = true)) ∨
    (S.kind = .int ∧ F.kind = .int ∧ S.wid ≤ F.wid) ∨
    (S.kind = .int ∧ F.kind = .float ∧ S.wid ≤ F.mw + 2 ∧ (S.wid : ℤ) - 1 ≤ F.emax) := by
  have himp (a b : Bool) : (!a || b) = true ↔ (a = true → b = true) := by cases a <;> simp
  by_cases h : si = fi
  · simp [exactWidens, h]
  · rw [exactWidens, if_neg h]
    cases hS : S.kind <;> cases hF : F.kind <;>
      simp [h, Fmt.hasInf, himp, and_assoc, Nat.add_assoc]

/-- The old elements that a store merges with (R62). -/
theorem mem_oldElements_iff (ft : BitVec 4 → Fmt) (w : Nat) (l : Line) (t : Tag) (ks : List Nat) (x : LineEl) : x ∈ oldElements ft w l t ks ↔
    x.slot < perSeg w ∧ x.slot ∉ ks ∧ x.old = true ∧ x.el.fmt = t.fmt ∧ x.el.scl = t.scl ∧
    if t.cls = cUNW ∨ perSeg (ft t.fmt).wid ≤ x.slot then x.el.code = 0 ∧ x.el.cls = cUNW
    else x.el.code = lineSlot l (ft t.fmt).wid x.slot ∧ x.el.cls = t.cls := by
  obtain ⟨slot, ⟨code, fmt, scl, cls⟩, old⟩ := x
  simp only [oldElements, List.mem_map, List.mem_filter, List.mem_range, Bool.not_eq_true', List.contains_eq_mem, decide_eq_false_iff_not]
  constructor
  · rintro ⟨k, ⟨hk, hnot⟩, heq⟩
    split_ifs at heq with hunw
    all_goals
      injection heq with h₁ h₂ h₃
      injection h₂ with h₄ h₅ h₆ h₇
      subst h₁ h₃ h₄ h₅ h₆ h₇
      simp [hk, hnot, hunw]
  · rintro ⟨hk, hnot, rfl, rfl, rfl, hrest⟩
    refine ⟨slot, ⟨hk, hnot⟩, ?_⟩
    split_ifs at hrest ⊢
    all_goals
      obtain ⟨rfl, rfl⟩ := hrest
      rfl

end Sys2Proof.Machine

/-! SUPPORT. Stores to whole lines and to parts of lines (R62, R216), and the statement about fills and stores. -/

namespace Sys2Proof.Machine

/-! ### Storing into a line -/

section
variable {ft : BitVec 4 → Fmt} {w : Nat} {policy : BitVec 9} {rnd : BitVec 3} {draw : Nat → BitVec 32} {l : Line} {t : Tag} {low : LineEl}
  {rest : List LineEl} (hlow : ∀ x ∈ rest, low.slot < x.slot) (hcls : ¬ (low.el.cls = cPOI ∨ low.el.cls = cINV ∨ low.el.cls = cSTG))

/-- Whether a store writes every slot of the strip's width. -/
theorem full_iff (xs : List LineEl) : ((List.range (perSeg w)).all fun k => xs.any (·.slot == k)) = true ↔
    ∀ k, k < perSeg w → ∃ x ∈ xs, x.slot = k := by
  simp [List.all_eq_true, List.any_eq_true]

/-- Whether a store merges bits. -/
theorem bits_iff (xs : List LineEl) : (t.cls = cRAW ∨ (xs.any fun x => x.el.cls == cRAW) = true) ↔ (t.cls = cRAW ∨ ∃ x ∈ xs, x.el.cls = cRAW) := by
  simp [List.any_eq_true]

include hlow hcls

theorem storeLine_full (hfull : ∀ k, k < perSeg w → ∃ x ∈ low :: rest, x.slot = k) :
    storeLine ft w policy rnd draw l t (low :: rest) = buildLine ft policy rnd draw (sortSlots (low :: rest)) := by
  simp only [storeLine, lowSlot_cons low rest hlow, if_neg hcls]
  exact if_pos ((full_iff _).mpr hfull)

theorem storeLine_merge (hfull : ¬ ∀ k, k < perSeg w → ∃ x ∈ low :: rest, x.slot = k)
    (hbits : ¬ (t.cls = cRAW ∨ ∃ x ∈ low :: rest, x.el.cls = cRAW)) : storeLine ft w policy rnd draw l t (low :: rest) =
      buildLine ft policy rnd draw (sortSlots (low :: rest ++ oldElements ft w l t ((low :: rest).map (·.slot)))) := by
  simp only [storeLine, lowSlot_cons low rest hlow, if_neg hcls]
  rw [if_neg (mt (full_iff _).mp hfull), if_neg (mt (bits_iff _).mp hbits)]

/-- A bit merge: the slots stored read as they were, the line's other bits stay. -/
theorem storeLine_bits (hfull : ¬ ∀ k, k < perSeg w → ∃ x ∈ low :: rest, x.slot = k)
    (hbits : t.cls = cRAW ∨ ∃ x ∈ low :: rest, x.el.cls = cRAW) (hsort : (low :: rest).Pairwise fun x y => x.slot < y.slot)
    (hok : ∀ x ∈ low :: rest, slotOk (ft low.el.fmt) x.slot = true) :
    ∃ m, storeLine ft w policy rnd draw l t (low :: rest) = .ok ⟨m, low.el.fmt, low.el.scl, cRAW, 0⟩ ∧
      (∀ x ∈ low :: rest, lineSlot m (ft low.el.fmt).wid x.slot = (if x.el.cls = cUNW then 0 else x.el.code) % 2 ^ (ft low.el.fmt).wid) ∧
      ∀ i, i < 1024 → (∀ x ∈ low :: rest, i / (ft low.el.fmt).wid ≠ x.slot) → m.getLsbD i = (t.cls ≠ cUNW && l.getLsbD i) := by
  refine ⟨putSlots (ft low.el.fmt).wid (if t.cls = cUNW then 0 else l) ((low :: rest).map fun x => (x.slot, if x.el.cls = cUNW then 0 else x.el.code)),
    ?_, fun x hx => ?_, fun i _ hi => ?_⟩
  · simp only [storeLine, lowSlot_cons low rest hlow, if_neg hcls, bad_eq_nil hok]
    rw [if_neg (mt (full_iff _).mp hfull), if_pos ((bits_iff _).mpr hbits)]
    rfl
  · exact lineSlot_put hok hsort (if t.cls = cUNW then 0 else l) (fun x => if x.el.cls = cUNW then 0 else x.el.code) hx
  · have hout : ∀ y ∈ (low :: rest).map fun x => (x.slot, if x.el.cls = cUNW then 0 else x.el.code), i / (ft low.el.fmt).wid ≠ y.1 := by
      intro y hy
      obtain ⟨x, hx, rfl⟩ := List.mem_map.mp hy
      exact hi x hx
    rw [getLsbD_putSlots _ _ (slots_in_line hok _) i hout]
    by_cases h : t.cls = cUNW <;> simp [h]

end

/-! ### The statement -/

/-- The clause about fills: each part by the fold over the elements. -/
theorem fill_clause (ft : BitVec 4 → Fmt) (fi : BitVec 4) (deco : Option RMode) (seed : BitVec 32) (els : List (Option FillEl))
    (hn : 0 < perSeg (ft fi).wid) (e : Nat) (x : FillEl) (hx : els[e]? = some (some x)) :
    let p := segPlan ft fi els (e / perSeg (ft fi).wid)
    (p.raw = true → (fill ft fi deco seed els).codes[e]? = some (if x.cls = cUNW then 0 else x.code)) ∧
    (p.raw = false → x.exact ft fi p.fold = true →
      (fill ft fi deco seed els).codes[e]? = some ((ft fi).convert .rtz 0 (x.folded ft fi p.fold)).1) ∧
    (∀ rm, p.raw = false → x.exact ft fi p.fold = false → deco = some rm →
      (fill ft fi deco seed els).codes[e]? = some ((ft fi).convert rm (fillSeed deco seed (e + 1)) (x.folded ft fi p.fold)).1) := by
  intro p
  rw [fill_codes_getElem? ft fi deco seed hn hx, fillElem_some ft fi deco seed hx]
  refine ⟨fun hraw => ?_, fun hraw hexact => ?_, fun rm hraw hexact hdeco => ?_⟩
  · rw [fillOne_raw _ _ _ _ _ _ hraw]
    rfl
  · rw [fillOne_codes _ _ _ _ _ _ hraw, if_pos hexact]
    rfl
  · rw [fillOne_codes _ _ _ _ _ _ hraw, hexact, hdeco]
    rfl

/-- The element that a fill names is the first that is neither RAW nor exact, with no decoration. -/
theorem fill_bad_clause (ft : BitVec 4 → Fmt) (fi : BitVec 4) (deco : Option RMode) (seed : BitVec 32) (els : List (Option FillEl))
    (hn : 0 < perSeg (ft fi).wid) (e : Nat) :
    let p (g : Nat) := segPlan ft fi els (g / perSeg (ft fi).wid)
    (fill ft fi deco seed els).bad = some e ↔
      deco = none ∧ (∃ x, els[e]? = some (some x) ∧ (p e).raw = false ∧ x.exact ft fi (p e).fold = false) ∧
        ∀ (i : Nat) (y : FillEl), i < e → els[i]? = some (some y) → (p i).raw = true ∨ y.exact ft fi (p i).fold = true := by
  intro p
  rw [fill_bad_iff ft fi deco seed hn e]
  constructor
  · rintro ⟨hbad, hlow⟩
    obtain ⟨hdeco, hx⟩ := (fillElem_isNone_iff ft fi deco seed e).mp hbad
    refine ⟨hdeco, hx, fun i y hi hy => ?_⟩
    by_contra hnot
    rw [not_or, Bool.not_eq_true, Bool.not_eq_true] at hnot
    have hnone := (fillElem_isNone_iff ft fi deco seed i).mpr ⟨hdeco, y, hy, hnot⟩
    exact absurd (hlow i hi) (by simp [hnone])
  · rintro ⟨hdeco, hx, hlow⟩
    refine ⟨(fillElem_isNone_iff ft fi deco seed e).mpr ⟨hdeco, hx⟩, fun i hi => Bool.eq_false_iff.mpr fun hnone => ?_⟩
    obtain ⟨-, y, hy, hraw, hexact⟩ := (fillElem_isNone_iff ft fi deco seed i).mp hnone
    rcases hlow i y hi hy with h | h
    · exact Bool.noConfusion (hraw.symm.trans h)
    · exact Bool.noConfusion (hexact.symm.trans h)

/-- Settles O26: a fill by its elements in order, a line by the slots put into it. -/
theorem fillsAndTypedStores : Obligations.FillsAndTypedStores := by
  unfold Obligations.FillsAndTypedStores
  refine ⟨exactWidens_iff, ?fill, ?build, ?store, mem_oldElements_iff⟩
  case fill =>
    intro ft fi deco seed els F n r here raw fold draw value exact hn
    have hraw (g : Nat) : raw g = (segPlan ft fi els g).raw := (fillPlan_raw fi (here g)).symm
    have hfold (g : Nat) : fold g = (segPlan ft fi els g).fold := (fillPlan_fold fi (here g)).symm
    have hexact (g : Nat) (x : FillEl) : exact g x = x.exact ft fi (segPlan ft fi els g).fold := hfold g ▸ rfl
    have hvalue (g : Nat) (x : FillEl) : value g x = x.folded ft fi (segPlan ft fi els g).fold := hfold g ▸ rfl
    refine ⟨fill_seed ft fi deco seed hn, fill_codes_length ft fi deco seed hn, fun g hg => ?_, fun e x hx => ?_, fun e he => ?_, fun e => ?_⟩
    · rw [hraw, hfold]
      exact (fill_sides_getElem? ft fi deco seed hn hg).trans (congrArg some (fillPlan_side fi (here g)))
    · simp only [hraw, hexact, hvalue]
      exact fill_clause ft fi deco seed els hn e x hx
    · exact (fill_codes_getElem? ft fi deco seed hn he).trans (by rw [fillElem_none ft fi deco seed he]; rfl)
    · simp only [hraw, hexact]
      exact fill_bad_clause ft fi deco seed els hn e
  case build =>
    intro ft policy rnd draw low rest xs mode news x₀ F T rm raw lives value divided most build hsort hne
    obtain ⟨y, ns, hcons⟩ := List.exists_cons_of_ne_nil hne
    have hnews : (xs.filter fun x => !x.old) = news := rfl
    clear_value news
    subst hcons
    have hraw : raw ↔ (y :: ns).any (·.el.cls == cRAW) = true := by simp [raw, List.any_eq_true]
    have hno (h : ¬ raw) : (y :: ns).any (·.el.cls == cRAW) = false := Bool.eq_false_iff.mpr (mt hraw.mpr h)
    refine ⟨fun h => buildLine_raw_reads hnews hsort (hraw.mp h), fun c hnot hmode hmost => ?_, fun c x hnot hmode hmost hx _ => ?_,
      fun c hnot hmode hmost hok => ?_⟩
    · exact buildLine_keep_writes hnews hsort (hno hnot) (sfpMode_keep hmode) (maxScale_eq hmost) (all_beq_eq_decide lives c)
    · exact buildLine_keep_refuses hnews (hno hnot) (sfpMode_keep hmode) (maxScale_eq hmost) (all_beq_eq_decide lives c) hx
    · have hsfp := sfpMode_demote hmode
      have hone (h : mode = 1) : sfpMode policy ≠ 2 := by omega
      exact ⟨fun htwo => buildLine_demote_invalid hnews (hno hnot) (by omega) (maxScale_eq hmost) hok (hsfp.trans htwo),
        fun hvalid => buildLine_demote_writes hnews hsort (hno hnot) (by omega) (maxScale_eq hmost) hok (hvalid.imp_left hone)⟩
  case store =>
    intro ft w policy rnd draw l t low rest xs F r full bits hlow hpoi hinv hstg
    have hcls : ¬ (low.el.cls = cPOI ∨ low.el.cls = cINV ∨ low.el.cls = cSTG) := by simp [hpoi, hinv, hstg]
    exact ⟨storeLine_full hlow hcls, storeLine_merge hlow hcls, storeLine_bits hlow hcls⟩

end Sys2Proof.Machine

/-! SUPPORT. The canonical form of memory (R45; log 8), kept by everything that a step is made of. What each operation does to the
device, a core or the machine is said once; an instruction's proof cites the lemmas of its parts in the order in which it runs them. -/

namespace Sys2Proof.Machine

/-! ### The invariant -/

/-- A core's scratchpad is canonical, where the scratchpads count (`all`). -/
structure CoreCanon (all : Bool) (c : Core) : Prop where
  spad : all = true → c.spad.wf = true

/-- The device's memory is canonical, and with `all` the scratchpads of its cores and of saved gangs. -/
structure DevCanon (all : Bool) (d : Dev) : Prop where
  mem : d.mem.wf = true
  cores : ∀ c ∈ d.cores, CoreCanon all c
  saved : ∀ g ∈ d.saved, CoreCanon all g.body

/-- The device's memory is canonical, and with `all` every memory of the machine. -/
structure Canon (all : Bool) (s : State) : Prop where
  dev : DevCanon all s.dev
  core : CoreCanon all s.core

section
variable {all : Bool}

theorem canon_false_iff (s : State) : Canon false s ↔ s.dev.mem.wf = true :=
  ⟨fun h => h.dev.mem, fun h => ⟨⟨h, fun _ _ => ⟨nofun⟩, fun _ _ => ⟨nofun⟩⟩, ⟨nofun⟩⟩⟩

theorem coreCanon_true_iff (c : Core) : CoreCanon true c ↔ c.memWf = true := ⟨fun h => h.spad rfl, fun h => ⟨fun _ => h⟩⟩

theorem canon_true_iff (s : State) : Canon true s ↔ s.memWf = true := by
  simp only [State.memWf, Bool.and_eq_true, List.all_eq_true, ← coreCanon_true_iff]
  exact ⟨fun h => ⟨⟨⟨h.dev.mem, h.core⟩, h.dev.cores⟩, h.dev.saved⟩, fun ⟨⟨⟨hm, hc⟩, hs⟩, hg⟩ => ⟨⟨hm, hs, hg⟩, hc⟩⟩

theorem Canon.of {t : Strand} {c : Core} {d : Dev} {a : List Turn} (hd : DevCanon all d) (hc : CoreCanon all c) : Canon all ⟨t, c, d, a⟩ :=
  ⟨hd, hc⟩

/-! ### Folds -/

theorem Memory.foldl_wf {α : Type} {f : Memory → α → Memory} (hf : ∀ m x, m.wf = true → (f m x).wf = true) (l : List α) {m : Memory}
    (h : m.wf = true) : (l.foldl f m).wf = true := by
  induction l generalizing m with
  | nil => exact h
  | cons x r ih => exact ih (hf m x h)

theorem DevCanon.foldl {α : Type} {f : Dev → α → Dev} (hf : ∀ d x, DevCanon all d → DevCanon all (f d x)) (l : List α) {d : Dev}
    (h : DevCanon all d) : DevCanon all (l.foldl f d) := by
  induction l generalizing d with
  | nil => exact h
  | cons x r ih => exact ih (hf d x h)

theorem Canon.foldl {α : Type} {f : State → α → State} (hf : ∀ s x, Canon all s → Canon all (f s x)) (l : List α) {s : State}
    (h : Canon all s) : Canon all (l.foldl f s) := by
  induction l generalizing s with
  | nil => exact h
  | cons x r ih => exact ih (hf s x h)

/-! ### Strands and cores of the machine -/

variable {s : State} {d : Dev} {c : Core}

theorem DevCanon.withMem (h : DevCanon all d) {m : Memory} (hm : m.wf = true) : DevCanon all { d with mem := m } := ⟨hm, h.cores, h.saved⟩

theorem CoreCanon.withSpad {m : Memory} (hm : all = true → m.wf = true) : CoreCanon all { c with spad := m } := ⟨hm⟩

theorem CoreCanon.cond {p : Prop} [Decidable p] {x y : Core} (hx : CoreCanon all x) (hy : CoreCanon all y) :
    CoreCanon all (if p then x else y) := by
  split
  · exact hx
  · exact hy

theorem putCore_canon (hc : CoreCanon all c) : ∀ cs : List Core, (∀ x ∈ cs, CoreCanon all x) → ∀ x ∈ putCore c cs, CoreCanon all x
  | [], _ => by simpa [putCore] using hc
  | d :: r, h => by
    obtain ⟨hd, hr⟩ := List.forall_mem_cons.mp h
    simp only [putCore]
    split
    · exact List.forall_mem_cons.mpr ⟨hc, h⟩
    · split
      · exact List.forall_mem_cons.mpr ⟨hc, hr⟩
      · exact List.forall_mem_cons.mpr ⟨hd, putCore_canon hc r hr⟩

theorem Canon.putStrandAt (h : Canon all s) (t : Strand) : Canon all (s.putStrandAt t) := by
  unfold State.putStrandAt
  split
  · exact ⟨h.dev, h.core⟩
  · exact ⟨h.dev, ⟨h.core.spad⟩⟩

theorem Canon.updStrandAt (h : Canon all s) (n : Nat) (f : Strand → Strand) : Canon all (s.updStrandAt n f) := by
  unfold State.updStrandAt
  split
  · exact h
  · exact h.putStrandAt _

theorem Canon.mapStrands (h : Canon all s) (f : Strand → Strand) : Canon all (s.mapStrands f) := ⟨h.dev, ⟨h.core.spad⟩⟩

theorem Canon.wholeCore (h : Canon all s) : CoreCanon all s.wholeCore := ⟨h.core.spad⟩

theorem Canon.setX (h : Canon all s) (r : BitVec 5) (v : Word) : Canon all (s.setX r v) := ⟨h.dev, h.core⟩

theorem Canon.focus (h : Canon all s) (c n : Nat) : Canon all (s.focus c n) := by
  unfold State.focus
  split
  · split
    · exact h
    · exact ⟨h.dev, ⟨h.core.spad⟩⟩
  · split
    · exact h
    · next d hd =>
      split
      · exact h
      · refine ⟨⟨h.dev.mem, fun x hx => ?_, h.dev.saved⟩, ⟨(h.dev.cores d (List.mem_of_find?_eq_some hd)).spad⟩⟩
        exact putCore_canon h.wholeCore _ h.dev.cores x (List.mem_of_mem_filter hx)

theorem Canon.atCore (h : Canon all s) (n : Nat) {f : State → State} (hf : ∀ s, Canon all s → Canon all (f s)) :
    Canon all (s.atCore n f) := (hf _ (h.focus n 0)).focus _ _

theorem DevCanon.mapCores (h : DevCanon all d) {f : Core → Core} (hf : ∀ c, CoreCanon all c → CoreCanon all (f c)) :
    DevCanon all { d with cores := d.cores.map f } := by
  refine ⟨h.mem, fun x hx => ?_, h.saved⟩
  obtain ⟨c, hc, rfl⟩ := List.mem_map.mp hx
  exact hf c (h.cores c hc)

theorem Canon.updCoreAt (h : Canon all s) (n : Nat) {f : Core → Core} (hf : ∀ c, CoreCanon all c → CoreCanon all (f c)) :
    Canon all (s.updCoreAt n f) := by
  unfold State.updCoreAt
  split
  · exact ⟨h.dev, ⟨(hf _ h.core).spad⟩⟩
  · refine ⟨h.dev.mapCores fun c hc => ?_, h.core⟩
    split
    · exact ⟨(hf c hc).spad⟩
    · exact hc

theorem DevCanon.updPart (h : DevCanon all d) (p : Nat) (f : Part → Part) : DevCanon all (d.updPart p f) := by
  unfold Dev.updPart
  split
  · exact ⟨h.mem, h.cores, h.saved⟩
  · exact h

theorem DevCanon.updCtx (h : DevCanon all d) (c : Nat) (f : Ctx → Ctx) : DevCanon all (d.updCtx c f) := ⟨h.mem, h.cores, h.saved⟩

theorem DevCanon.withdraw (h : DevCanon all d) (c : Nat) (p : Nat → Bool) : DevCanon all (d.withdraw c p) := ⟨h.mem, h.cores, h.saved⟩

theorem Canon.ungated (h : Canon all s) : Canon all s.ungated := ⟨h.dev, ⟨h.core.spad⟩⟩

theorem Canon.takeFree (h : Canon all s) : Canon all s.takeFree.2 := ⟨⟨h.dev.mem, h.dev.cores, h.dev.saved⟩, h.core⟩

/-! ### Lines of the device (R334, R343, R344) -/

theorem DevCanon.putTag (h : DevCanon all d) (loc : Nat) (t : Tag) : DevCanon all (d.putTag loc t) := by
  unfold Dev.putTag
  split
  · simp only
    split
    · exact ⟨Memory.writeN_wf _ _ _ _ h.mem, h.cores, h.saved⟩
    · exact ⟨Memory.setTag_wf _ _ _ h.mem, h.cores, h.saved⟩
  · exact h.withMem (Memory.setTag_wf _ _ _ h.mem)

theorem DevCanon.hostTake (h : DevCanon all d) (loc : Nat) : DevCanon all (d.hostTake loc) := by
  unfold Dev.hostTake
  split
  · exact h
  · simp only
    split
    · exact ⟨h.mem, h.cores, h.saved⟩
    · split
      all_goals
        refine DevCanon.putTag ⟨?_, ?_, ?_⟩ _ _ <;> dsimp only
        exacts [Memory.setLine_wf _ _ _ h.mem, h.cores, h.saved]

theorem DevCanon.setTokens (h : DevCanon all d) (t : LineTokens) : DevCanon all (d.setTokens t) := ⟨h.mem, h.cores, h.saved⟩

theorem DevCanon.tokensHome (h : DevCanon all d) (loc : Nat) : DevCanon all (d.tokensHome loc) := by
  unfold Dev.tokensHome
  split
  · exact h
  · exact h.setTokens _

theorem DevCanon.writeAt (h : DevCanon all d) (loc n v : Nat) : DevCanon all (d.writeAt loc n v) := by
  have h' := (h.hostTake loc).tokensHome loc
  unfold Dev.writeAt
  split
  · exact h
  · exact h'.withMem (Memory.writeN_wf _ _ _ _ h'.mem)

theorem DevCanon.rmSet (h : DevCanon all d) (dpa lo n v : Nat) : DevCanon all (d.rmSet dpa lo n v) :=
  (h.hostTake _).withMem (Memory.writeN_wf _ _ _ _ (h.hostTake _).mem)

theorem DevCanon.putLineAt (h : DevCanon all d) (loc : Nat) (l : Line) (t : Tag) : DevCanon all (d.putLineAt loc l t) := by
  have h' := (h.hostTake loc).tokensHome loc
  unfold Dev.putLineAt
  split
  · exact h
  · refine DevCanon.putTag ⟨?_, ?_, ?_⟩ _ _ <;> dsimp only
    exacts [Memory.setLine_wf _ _ _ h'.mem, h'.cores, h'.saved]

/-- A translation that answers leaves every memory as it was. -/
theorem DevCanon.translate (h : DevCanon all d) {v : Via} {n : Need} {va : Word} {tr : Tr} {d' : Dev}
    (ht : d.translate v n va = .ok (some (tr, d'))) : DevCanon all d' := by
  obtain ⟨_, _, rfl⟩ := translate_frame _ _ _ _ _ _ ht
  exact ⟨h.mem, h.cores, h.saved⟩

/-! ### Compressed pages and code objects (R331, R368) -/

/-- Lines set one after another, each where `f` puts it. -/
theorem Memory.setLines_wf {m : Memory} (hm : m.wf = true) (f : Nat → Nat) (xs : List ((Line × Tag) × Nat)) :
    (xs.foldl (fun m ((l, t), i) => (m.setLine (f i) l).setTag (f i) t) m).wf = true :=
  Memory.foldl_wf (fun m ((l, t), i) hm => by dsimp only; exact Memory.setTag_wf _ _ _ (Memory.setLine_wf _ _ _ hm)) xs hm

theorem DevCanon.storeBlock (h : DevCanon all d) (pool : Nat) (e : BitVec 128) (ls : List (Line × Tag)) :
    DevCanon all (d.storeBlock pool e ls) := by
  have h' : DevCanon all ((List.range (8 * blockNeed ls)).foldl (fun d i => d.hostTake (d.plainLoc pool e i)) d) :=
    h.foldl (fun d i hd => hd.hostTake _) _
  have hset := Memory.setLines_wf h'.mem
  simp only [Dev.storeBlock]
  split
  · exact h'
  · split
    all_goals refine ⟨?_, ?_, ?_⟩ <;> dsimp only
    · exact hset _ _
    · exact h'.cores
    · exact h'.saved
    · refine Memory.foldl_wf (fun m x hm => ?_) _ (hset (fun i => blockLoc pool e + 128 * i) ls.zipIdx)
      exact Memory.setByte_wf _ _ _ hm
    · exact h'.cores
    · exact h'.saved

theorem DevCanon.countEscape (h : DevCanon all d) (pool : Nat) (ls : List (Line × Tag)) : DevCanon all (d.countEscape pool ls) := by
  unfold Dev.countEscape
  split
  · exact ⟨h.mem, h.cores, h.saved⟩
  · exact h

theorem DevCanon.putCompressed (h : DevCanon all d) {pool at_ : Nat} {tr : Tr} {l : Line} {t : Tag} {d' : Dev}
    (hp : d.putCompressed pool at_ tr l t = .ok d') : DevCanon all d' := by
  have htop (v : Vector Word 8) : DevCanon all { d with sptop := v } := ⟨h.mem, h.cores, h.saved⟩
  simp only [Dev.putCompressed] at hp
  split at hp
  · cases hp
  · split at hp
    · split at hp
      · cases hp
      · rw [Except.ok.injEq] at hp
        subst hp
        exact (((htop _).writeAt _ _ _).countEscape _ _).storeBlock _ _ _
    · split at hp
      · cases hp
      · exact Except.ok.inj hp ▸ (h.countEscape _ _).storeBlock _ _ _

theorem DevCanon.markBad (h : DevCanon all d) (dpa : Nat) : DevCanon all (d.markBad dpa) := by
  unfold Dev.markBad
  split
  · exact h
  · exact h.writeAt _ _ _

theorem DevCanon.noteObject (h : DevCanon all d) (dpa : Nat) : DevCanon all (d.noteObject dpa) := by
  simp only [Dev.noteObject]
  split
  · split
    · exact ⟨h.mem, h.cores, h.saved⟩
    · exact h
  · exact h

theorem DevCanon.unverifyAt (h : DevCanon all d) (dpa : Nat) : DevCanon all (d.unverifyAt dpa) :=
  DevCanon.foldl (fun _ _ hd => hd.noteObject _) _ ⟨h.mem, h.cores, h.saved⟩

theorem DevCanon.unverify (h : DevCanon all d) (loc : Nat) : DevCanon all (d.unverify loc) := by
  unfold Dev.unverify
  cases d.dpaOf loc with
  | none => exact h
  | some dpa => exact h.unverifyAt dpa

theorem DevCanon.wrote (h : DevCanon all d) (dpa : Nat) (dte : Bool) : DevCanon all (d.wrote dpa dte) := by
  simp only [Dev.wrote]
  split
  · exact (h.unverifyAt dpa).rmSet _ _ _ _
  · exact h.unverifyAt dpa

theorem DevCanon.markWrite (h : DevCanon all d) (tr : Tr) : DevCanon all (d.markWrite tr) := by
  unfold Dev.markWrite
  split
  · exact h.wrote _ _
  · exact h

theorem DevCanon.putHome (h : DevCanon all d) {tr : Tr} {l : Line} {t : Tag} {d' : Dev} (hp : d.putHome tr l t = .ok d') :
    DevCanon all d' := by
  unfold Dev.putHome at hp
  split at hp
  · exact h.putCompressed hp
  · exact Except.ok.inj hp ▸ h.putLineAt _ _ _

/-! ### Far copies (R252, R339) -/

theorem CoreCanon.putFar (h : CoreCanon all c) (f : FarCopy) : CoreCanon all (c.putFar f) := ⟨h.spad⟩

theorem CoreCanon.dropFar (h : CoreCanon all c) (loc : Nat) : CoreCanon all (c.dropFar loc) := ⟨h.spad⟩

theorem DevCanon.farBack (h : DevCanon all d) (f : FarCopy) : DevCanon all (d.farBack f) := by
  have hput (p : Prop) [Decidable p] (l : Line) (t : Tag) : DevCanon all (if p then d else d.putLineAt (f.loc * 128) l t) := by
    split
    · exact h
    · exact h.putLineAt _ _ _
  simp only [Dev.farBack]
  split
  · exact h
  · cases f.dpa with
    | none => exact hput _ _ _
    | some a => exact (hput _ _ _).wrote _ _

theorem DevCanon.landBefore (h : DevCanon all d) (core loc : Nat) : DevCanon all (d.landBefore core loc) := by
  have h' := h.foldl (f := fun d (w : WriteBack) => d.farBack w.copy) (fun _ _ hd => hd.farBack _)
    ((d.clasps.flatMap fun h => h.wbs.filter fun w => w.toward core loc).foldr insertBack [])
  exact ⟨h'.mem, h'.cores, h'.saved⟩

theorem DevCanon.sendBack (h : DevCanon all d) (core : Nat) (f : FarCopy) : DevCanon all (d.sendBack core f) := by
  unfold Dev.sendBack
  split
  · exact h
  · exact (h.landBefore _ _).farBack f

theorem DevCanon.landOwn (h : DevCanon all d) (core : Nat) (p : FarCopy → Bool) : DevCanon all (d.landOwn core p) := by
  refine h.foldl (fun d w hd => ?_) _
  split
  · exact hd.landBefore _ _
  · exact hd

theorem DevCanon.backAll (h : DevCanon all d) (c : Core) (p : FarCopy → Bool) : DevCanon all (d.backAll c p) := by
  refine (h.landOwn c.num p).foldl (fun d f hd => ?_) _
  split
  · exact hd.sendBack _ f
  · exact hd

theorem Canon.flushFar (h : Canon all s) (p : FarCopy → Bool) (drop : Bool) : Canon all (s.flushFar p drop) :=
  ⟨h.dev.backAll _ _, ⟨h.core.spad⟩⟩

theorem Canon.flushLineEverywhere (h : Canon all s) (loc : Nat) : Canon all (s.flushLineEverywhere loc) :=
  ⟨((h.flushFar _ true).dev.foldl (fun _ c hd => hd.backAll c _) _).mapCores fun _ hc => hc.dropFar loc, (h.flushFar _ true).core⟩

/-! ### Access bits and heat (R374 to R377) -/

theorem Canon.heatEvent (h : Canon all s) (tr : Tr) : Canon all (s.heatEvent tr) := by
  simp only [State.heatEvent]
  split
  · exact h
  · split
    · exact ⟨h.dev, ⟨h.core.spad⟩⟩
    · refine ⟨?_, ⟨h.core.spad⟩⟩
      dsimp only
      split
      · exact h.dev.rmSet _ _ _ _
      · exact h.dev

theorem DevCanon.cacheHost (h : DevCanon all d) (tr : Tr) : DevCanon all (d.cacheHost tr) := by
  simp only [Dev.cacheHost]
  split
  · exact ⟨h.mem, h.cores, h.saved⟩
  · exact h

theorem Canon.touch (h : Canon all s) (tr : Tr) (sample : Bool) : Canon all (s.touch tr sample) := by
  have h₁ : Canon all { s with dev := s.dev.cacheHost tr } := ⟨h.dev.cacheHost tr, h.core⟩
  have h₂ (p : Prop) [Decidable p] : Canon all (if p then ({ s with dev := (s.dev.cacheHost tr).rmSet tr.dpa 87 1 1 } : State)
      else { s with dev := s.dev.cacheHost tr }) := by
    split
    · exact ⟨h₁.dev.rmSet _ _ _ _, h₁.core⟩
    · exact h₁
  simp only [State.touch]
  split
  · exact h
  · split
    · exact (h₂ _).heatEvent tr
    · exact h₂ _

end
end Sys2Proof.Machine

/-! SUPPORT. Computations that may stop, and the shared accesses: they keep the canonical form of memory, whether they answer or stop. -/

namespace Sys2Proof.Machine

section
variable {all : Bool} {s t : State} {d : Dev} {c : Core} {α β : Type} {m : M α}

/-! ### Computations that may stop -/

/-- What a stop still has done to the state leaves the memories canonical. -/
def StopCanon (all : Bool) : Stop → Prop
  | .redo f => ∀ me s, Canon all s → Canon all (f me s)
  | _ => True

/-- A computation's result leaves the memories canonical, whether it answers or stops. -/
def ResCanon (all : Bool) {α : Type} : Except Stop (α × State) → Prop
  | .ok (_, t) => Canon all t
  | .error e => StopCanon all e

/-- A computation that keeps the memories canonical. -/
structure MCanon (all : Bool) {α : Type} (m : M α) : Prop where
  res : ∀ s, Canon all s → ResCanon all (m.run s)

theorem MCanon.ok (hm : MCanon all m) (h : Canon all s) {a : α} (e : m.run s = .ok (a, t)) : Canon all t := by
  have := hm.res s h
  rwa [e] at this

theorem MCanon.error (hm : MCanon all m) (h : Canon all s) {x : Stop} (e : m.run s = .error x) : StopCanon all x := by
  have := hm.res s h
  rwa [e] at this

theorem MCanon.bind {f : α → M β} (hm : MCanon all m) (hf : ∀ a, MCanon all (f a)) : MCanon all (m >>= f) := by
  refine ⟨fun s h => ?_⟩
  rw [run_bind]
  cases e : m.run s with
  | ok x => exact (hf x.1).res x.2 (hm.ok h e)
  | error x => exact hm.error h e

theorem MCanon.answer (a : α) : MCanon all (pure a) := ⟨fun _ h => h⟩

theorem MCanon.map {f : α → β} (hm : MCanon all m) : MCanon all (f <$> m) := by
  rw [map_eq_pure_bind]
  exact hm.bind fun a => .answer _

theorem MCanon.read {f : State → M α} (hf : ∀ s, Canon all s → MCanon all (f s)) : MCanon all (get >>= f) :=
  ⟨fun s h => (hf s h).res s h⟩

theorem MCanon.write (h : Canon all t) : MCanon all (set t) := ⟨fun _ _ => h⟩

theorem MCanon.update {f : State → State} (hf : ∀ s, Canon all s → Canon all (f s)) : MCanon all (modify f) := ⟨hf⟩

theorem MCanon.stops {x : Stop} (h : StopCanon all x) : MCanon all (stop x : M α) := ⟨fun _ _ => h⟩

theorem MCanon.waits : MCanon all (stop .wait : M α) := .stops trivial

theorem MCanon.traps (c : BitVec 8) (i : BitVec 32) (a : Word) (f : BitVec 8) : MCanon all (stop (.trap c i a f) : M α) := .stops trivial

theorem MCanon.raises (c : BitVec 8) : MCanon all (raiseTrap c : M α) := .stops trivial

/-- A step made on a condition, and what follows it. -/
theorem MCanon.when {p : Prop} [Decidable p] {x : M Unit} {k : Unit → M α} (hx : MCanon all x) (hk : MCanon all (k ())) :
    MCanon all (if p then x >>= k else k ()) := by
  split
  · exact hx.bind fun _ => hk
  · exact hk

theorem MCanon.mapM {f : α → M β} (hf : ∀ a, MCanon all (f a)) : ∀ l : List α, MCanon all (l.mapM f)
  | [] => by
    rw [List.mapM_nil]
    exact .answer _
  | a :: r => by
    rw [List.mapM_cons]
    exact (hf a).bind fun _ => (mapM hf r).bind fun _ => .answer _

theorem MCanon.forM {f : α → M PUnit} (hf : ∀ a, MCanon all (f a)) : ∀ l : List α, MCanon all (l.forM f)
  | [] => .answer _
  | a :: r => (hf a).bind fun _ => forM hf r

theorem MCanon.cond {p : Prop} [Decidable p] {x y : M α} (hx : MCanon all x) (hy : MCanon all y) : MCanon all (if p then x else y) := by
  split
  · exact hx
  · exact hy

/-! ### Accesses: translation, home, far copies (R252, R310, R334 to R336, R349, R353, R369) -/

theorem faultAt_canon (kind : BitVec 8) (va : Word) (f : Flt) : MCanon all (faultAt kind va f : M α) := .read fun _ _ => .stops trivial

theorem translateAt_canon (v : Via) (n : Need) (ix : Nat) (va : Word) : MCanon all (translateAt v n ix va) := by
  refine .read fun s hs => ?_
  split
  · exact faultAt_canon ..
  · exact .waits
  · next ht => exact (MCanon.write (.of (hs.dev.translate ht) hs.core)).bind fun _ => .answer _

theorem Canon.badBlock (h : Canon all s) (at_ blk : Nat) (r : FaultRec) : Canon all (s.badBlock at_ blk r) :=
  .of ((h.dev.writeAt _ _ _).updPart _ _) h.core

theorem checkBlock_canon (tr : Tr) (kind : BitVec 8) : MCanon all (checkBlock tr kind) := by
  refine .read fun s _ => ?_
  split
  · exact .answer _
  · exact .cond (.stops fun _ _ h => h.badBlock _ _ _) (.answer _)

theorem Canon.linePoisoned (h : Canon all s) (dpa : Nat) (r : FaultRec) : Canon all (s.linePoisoned dpa r) := .of (h.dev.updPart _ _) h.core

theorem DevCanon.stageFill (h : DevCanon all d) (tr : Tr) : DevCanon all (d.stageFill tr) := by
  simp only [Dev.stageFill]
  split
  · exact ⟨h.mem, h.cores, h.saved⟩
  · exact h

theorem checkFlash_canon (tr : Tr) (kind : BitVec 8) : MCanon all (checkFlash tr kind) :=
  .read fun _ _ => .cond (.stops fun _ _ h => (Canon.of (h.dev.stageFill tr) h.core).linePoisoned _ _) (.answer _)

theorem breachLine_canon : MCanon all breachLine := .read fun _ h => (MCanon.write h.takeFree).bind fun _ => .answer _

theorem takeTokens_canon (tr : Tr) (write : Bool) : MCanon all (takeTokens tr write) := by
  refine .read fun s h => ?_
  split
  · exact .answer _
  · exact .cond (.stops fun _ _ h => .of (h.dev.setTokens _) h.core) (.write (.of (h.dev.setTokens _) h.core))

theorem homeRead_canon (tr : Tr) (kind : BitVec 8) : MCanon all (homeRead tr kind) :=
  .cond breachLine_canon <| (checkBlock_canon ..).bind fun _ => (checkFlash_canon ..).bind fun _ => .read fun _ h =>
    (MCanon.write (.of (h.dev.stageFill tr) h.core)).bind fun _ => .answer _

theorem landHere_canon (tr : Tr) : MCanon all (landHere tr) :=
  .read fun _ h => .cond (.when .waits (.write (.of (h.dev.landOwn _ _) h.core))) (.answer _)

theorem fetchHome_canon (tr : Tr) (kind : BitVec 8) : MCanon all (fetchHome tr kind) :=
  (landHere_canon tr).bind fun _ => (takeTokens_canon ..).bind fun _ => homeRead_canon ..

theorem readLine_canon (tr : Tr) (kind : BitVec 8) : MCanon all (readLine tr kind) := by
  refine .read fun s _ => .cond (.answer _) (.when .waits (.cond ?_ (fetchHome_canon ..)))
  split
  · exact .answer _
  · exact (fetchHome_canon ..).bind fun _ => .read fun _ h => (MCanon.write (.of h.dev (h.core.putFar _))).bind fun _ => .answer _

theorem readHome_canon (tr : Tr) (kind : BitVec 8) : MCanon all (readHome tr kind) :=
  .read fun _ h => .cond (.answer _) (.when .waits ((MCanon.write (h.flushFar _ _)).bind fun _ => fetchHome_canon ..))

theorem CoreCanon.noteLazy (h : CoreCanon all c) (ctx : Nat) (va : Word) (line : Option Nat) : CoreCanon all (c.noteLazy ctx va line) := ⟨h.spad⟩

theorem Canon.putSpad (h : Canon all s) (off : Nat) (l : Line) (t : Tag) : Canon all (s.putSpad off l t) :=
  .of h.dev <| .withSpad fun hb => Memory.setTag_wf _ _ _ (Memory.setLine_wf _ _ _ (h.core.spad hb))

theorem Canon.spadStored (h : Canon all s) (off : Nat) (bytes : BitVec 128) : Canon all (s.spadStored off bytes) := by
  simp only [State.spadStored]
  split
  · exact h
  · split
    · have h' := h.foldl (f := fun u t => u.putStrandAt (t.spoilDfr u.fmt (s.dev.free + (s.allStrands.map (·.dfr.length)).foldl Nat.max 0 * t.slot)))
        (fun _ _ hu => hu.putStrandAt _) s.allStrands
      exact ⟨⟨h'.dev.mem, h'.dev.cores, h'.dev.saved⟩, h'.core⟩
    · split
      · exact h
      · refine ⟨⟨h.dev.mem, h.dev.cores, h.dev.saved⟩, .withSpad fun hb => ?_⟩
        refine Memory.foldl_wf (fun m i hm => ?_) _ (h.core.spad hb)
        exact Memory.setLine_wf _ _ _ hm

theorem storedLine_canon (tr : Tr) (l : Line) : MCanon all (storedLine tr l) :=
  .read fun _ h => .cond ((MCanon.write h.takeFree).bind fun _ => .answer _) (.answer _)

theorem DevCanon.noteBreach (h : DevCanon all d) (s : State) (tr : Tr) (l : Line) : DevCanon all (s.noteBreach tr l d) := by
  simp only [State.noteBreach]
  split
  · refine h.foldl (fun d k hd => ?_) _
    split
    · exact hd
    · exact ⟨hd.mem, hd.cores, hd.saved⟩
  · exact h

theorem putLine_canon (tr : Tr) (kind : BitVec 8) (ix : Nat) (l : Line) (t : Tag) : MCanon all (putLine tr kind ix l t) := by
  refine .read fun s h => .cond (.write (h.putSpad _ _ _)) (.cond (.answer _) (.when .waits ?_))
  refine (takeTokens_canon ..).bind fun _ => (checkBlock_canon ..).bind fun _ => .read fun s h => ?_
  split
  · exact faultAt_canon ..
  · next hp =>
    have hd := ((h.dev.putHome hp).noteBreach s tr l).markWrite tr
    exact .write ⟨⟨hd.mem, hd.cores, hd.saved⟩, h.core.noteLazy _ _ _⟩

theorem spadStoredM_canon (tr : Tr) (bytes : BitVec 128) : MCanon all (spadStoredM tr bytes) := by
  refine .update fun s h => ?_
  split
  · exact h.spadStored _ _
  · exact h

theorem writeLine_canon (tr : Tr) (kind : BitVec 8) (ix : Nat) (l : Line) (t : Tag) (bytes : BitVec 128) :
    MCanon all (writeLine tr kind ix l t bytes) := by
  refine .read fun s _ => .when .waits (.cond (.when .waits ?_) ?_)
  · exact (storedLine_canon ..).bind fun _ => .read fun s h => .write (.of h.dev ((h.core.putFar _).noteLazy _ _ _))
  · exact (storedLine_canon ..).bind fun _ => (putLine_canon ..).bind fun _ => spadStoredM_canon ..

theorem writeHome_canon (tr : Tr) (kind : BitVec 8) (ix : Nat) (l : Line) (t : Tag) (bytes : BitVec 128) :
    MCanon all (writeHome tr kind ix l t bytes) :=
  .read fun _ _ => .when .waits <| (storedLine_canon ..).bind fun _ => (putLine_canon ..).bind fun _ => spadStoredM_canon ..

theorem touchM_canon (tr : Tr) : MCanon all (touchM tr) := .update fun _ h => h.touch _ _

theorem loadClass_canon (kind : BitVec 8) (tr : Tr) (l : Line) (t : Tag) : MCanon all (loadClass kind tr l t) :=
  .cond (faultAt_canon ..) (.cond (.traps ..) (.cond (.answer _) (.answer _)))

theorem storeClass_canon (kind : BitVec 8) (tr : Tr) (l : Line) (t : Tag) : MCanon all (storeClass kind tr l t) :=
  .cond (faultAt_canon ..) (.cond (.traps ..) (.cond (faultAt_canon ..) (.cond (.answer _) (.answer _))))

theorem scalarTr_canon (n : Need) (va : Word) : MCanon all (scalarTr n va) := .read fun _ _ => .cond (.answer _) (translateAt_canon ..)

theorem loadParts_canon : ∀ ps : List (Word × Nat), MCanon all (loadParts ps)
  | [] => .answer _
  | (_, _) :: r =>
    (scalarTr_canon ..).bind fun _ => .read fun _ _ => .when .waits <| (readLine_canon ..).bind fun _ =>
      (loadClass_canon ..).bind fun _ => (touchM_canon _).bind fun _ => (loadParts_canon r).bind fun _ => .answer _

theorem storeParts_canon : ∀ (ps : List (Word × Nat)) (x : Nat), MCanon all (storeParts ps x)
  | [], _ => .answer _
  | (_, _) :: r, _ =>
    (scalarTr_canon ..).bind fun _ => (readLine_canon ..).bind fun _ => (storeClass_canon ..).bind fun _ =>
      (writeLine_canon ..).bind fun _ => (touchM_canon _).bind fun _ => storeParts_canon r _

/-! ### Records of the device (R397) -/

theorem DevCanon.putRaw (h : DevCanon all d) (dpa n x : Nat) : DevCanon all (d.putRaw dpa n x) := by
  unfold Dev.putRaw
  split
  · exact h
  · exact (h.putLineAt _ _ _).unverifyAt _

theorem DevCanon.putRecord (h : DevCanon all d) (dpa : Nat) : ∀ k x, DevCanon all (d.putRecord dpa k x) := by
  intro k
  induction k generalizing d dpa with
  | zero => exact fun _ => h
  | succ k ih => exact fun x => ih (h.putRaw _ _ _) _ _

/-! ### Clasps kept by a core (R270 to R274, R338) -/

/-- A device and a core whose memories are canonical. -/
def PairCanon (all : Bool) (p : Dev × Core) : Prop := DevCanon all p.1 ∧ CoreCanon all p.2

theorem PairCanon.of (hd : DevCanon all d) (hc : CoreCanon all c) : PairCanon all (d, c) := ⟨hd, hc⟩

theorem backFar_canon (hd : DevCanon all d) (hc : CoreCanon all c) (p : FarCopy → Bool) : PairCanon all (backFar d c p) :=
  ⟨hd.backAll _ _, ⟨hc.spad⟩⟩

theorem DevCanon.setClasp (h : DevCanon all d) (x : ClaspHome) : DevCanon all (d.setClasp x) := ⟨h.mem, h.cores, h.saved⟩

theorem sendFar_canon (hd : DevCanon all d) (hc : CoreCanon all c) (loc : Nat) (p : FarCopy → Bool) : PairCanon all (sendFar loc d c p) :=
  ⟨⟨hd.mem, hd.cores, hd.saved⟩, ⟨hc.spad⟩⟩

theorem DevCanon.forgetClasp (h : DevCanon all d) (loc : Nat) : DevCanon all (d.forgetClasp loc) := h.mapCores fun _ hc => ⟨hc.spad⟩

theorem DevCanon.claspPut (h : DevCanon all d) (loc : Nat) (g : Line → Line) : DevCanon all (d.claspPut loc g) :=
  (h.forgetClasp loc).putLineAt _ _ _

theorem convertEntry_canon (hd : DevCanon all d) (hc : CoreCanon all c) (e : LazyEntry) (own : Nat → Bool) :
    PairCanon all (convertEntry d c e own) := by
  unfold convertEntry
  generalize hx : (if c.far.any fun f => e.has f && f.dirty != 0 && own (f.loc * 128) then sendFar e.clasp d c e.has
    else backFar d c e.has) = x
  have h : PairCanon all x := by
    subst hx
    split
    · exact sendFar_canon hd hc _ _
    · exact backFar_canon hd hc _
  have hc' := h.2.dropFar (e.clasp * 128)
  dsimp only
  split
  · exact .of h.1 hc'
  · split
    · exact .of ((h.1.claspPut _ _).setClasp _) hc'
    · split
      · exact .of (h.1.claspPut _ _) hc'
      · exact .of h.1 hc'

theorem pairFoldl_canon {f : Dev × Core → α → Dev × Core} (hf : ∀ p x, PairCanon all p → PairCanon all (f p x)) (l : List α)
    {p : Dev × Core} (h : PairCanon all p) : PairCanon all (l.foldl f p) := by
  induction l generalizing p with
  | nil => exact h
  | cons x r ih => exact ih (hf p x h)

theorem convertLazy_canon (hd : DevCanon all d) (hc : CoreCanon all c) (p : LazyEntry → Bool) (own : Nat → Bool) :
    PairCanon all (convertLazy d c p own) := by
  have h := pairFoldl_canon (f := fun (d, c) e => if p e then convertEntry d c e own else (d, c)) (fun (d, c) e hx => by
    dsimp only
    split
    · exact convertEntry_canon hx.1 hx.2 e own
    · exact hx) c.lazy (p := (d, c)) ⟨hd, hc⟩
  exact ⟨h.1, ⟨h.2.spad⟩⟩

/-! ### Fetch (R111, R332) -/

theorem DevCanon.verifyPage (h : DevCanon all d) {tr : Tr} {d' : Dev} (hv : d.verifyPage tr = .ok d') : DevCanon all d' := by
  simp only [Dev.verifyPage] at hv
  split at hv
  · cases hv
  · split at hv
    · cases hv
    · split at hv
      · exact Except.ok.inj hv ▸ h
      · split at hv
        · exact Except.ok.inj hv ▸ ⟨h.mem, h.cores, h.saved⟩
        · cases hv

theorem fetchAt_canon (v : Via) (pc : Word) : MCanon all (fetchAt v pc) := by
  refine (translateAt_canon ..).bind fun tr => .read fun s h => ?_
  have hread : MCanon all (do
      let s ← get
      if s.mustWait tr false then stop .wait
      let (l, t) ← fetchHome tr nFetch.kind
      if t.cls = cPOI then faultAt nFetch.kind pc (fltPoison 0 tr.dpa)
      modify (·.touch tr false)
      return (BitVec.ofNat 32 (lineBytes l (pc.toNat % 128) 4))) :=
    .read fun _ _ => .when .waits <| (fetchHome_canon ..).bind fun _ => .when (faultAt_canon ..) <|
      (MCanon.update fun _ h => h.touch _ _).bind fun _ => .answer _
  refine .cond (.when .waits ?_) hread
  split
  · exact (faultAt_canon ..).bind fun _ => hread
  · next hv => exact (MCanon.write (.of (h.dev.verifyPage hv) h.core)).bind fun _ => hread

end
end Sys2Proof.Machine

/-! SUPPORT. Strands, gangs, faults and traps keep the canonical form of memory; so does the delivery of a computation's outcome. -/

namespace Sys2Proof.Machine

section
variable {all : Bool} {s t : State} {d : Dev} {c : Core} {α β : Type} {m : M α}

/-! ### Every strand of a core, and every core -/

theorem Canon.onCore (h : Canon all s) {f : Dev → Core → Dev × Core}
    (hf : ∀ d c, DevCanon all d → CoreCanon all c → PairCanon all (f d c)) : Canon all (s.onCore f) := by
  unfold State.onCore
  have hp := hf _ _ h.dev h.wholeCore
  generalize f s.dev s.wholeCore = p at hp
  obtain ⟨hd, hc⟩ := hp
  dsimp only
  split
  · exact .of hd ⟨hc.spad⟩
  · split
    · exact .of hd ⟨hc.spad⟩
    · exact .of hd hc

theorem Canon.onAllCores (h : Canon all s) {f : Dev → Core → Dev × Core}
    (hf : ∀ d c, DevCanon all d → CoreCanon all c → PairCanon all (f d c)) : Canon all (s.onAllCores f) := by
  have key (cs : List Core) (p : Dev × List Core) (hcs : ∀ c ∈ cs, CoreCanon all c) (hd : DevCanon all p.1)
      (hp : ∀ c ∈ p.2, CoreCanon all c) :
      let q := cs.foldl (fun (d, cs) c =>
        let (d, c) := f d c
        (d, cs ++ [c])) p
      DevCanon all q.1 ∧ ∀ c ∈ q.2, CoreCanon all c := by
    induction cs generalizing p with
    | nil => exact ⟨hd, hp⟩
    | cons c r ih =>
      obtain ⟨hc, hr⟩ := List.forall_mem_cons.mp hcs
      obtain ⟨hd', hc'⟩ := hf _ _ hd hc
      exact ih _ hr hd' (List.forall_mem_append.mpr ⟨hp, List.forall_mem_singleton.mpr hc'⟩)
  have h' := h.onCore hf
  unfold State.onAllCores
  have hq := key (s.onCore f).dev.cores ((s.onCore f).dev, []) h'.dev.cores h'.dev (List.forall_mem_nil _)
  dsimp only at hq ⊢
  generalize (s.onCore f).dev.cores.foldl _ _ = q at hq
  exact .of ⟨hq.1.mem, hq.2, hq.1.saved⟩ h'.core

theorem Canon.onCoreAt (h : Canon all s) (n : Nat) {f : Dev → Core → Dev × Core}
    (hf : ∀ d c, DevCanon all d → CoreCanon all c → PairCanon all (f d c)) : Canon all (s.onCoreAt n f) := by
  unfold State.onCoreAt
  split
  · exact h.onCore hf
  · split
    · exact h
    · next c e =>
      obtain ⟨hd, hc⟩ := hf _ _ h.dev (h.dev.cores c (List.mem_of_find?_eq_some e))
      exact .of ⟨hd.mem, putCore_canon hc _ hd.cores, hd.saved⟩ h.core

/-! ### Ends of strands, gangs and contexts (R190, R201, R320, R384) -/

theorem Canon.advance (h : Canon all s) : Canon all s.advance := ⟨h.dev, h.core⟩

theorem Canon.await (h : Canon all s) : Canon all s.await := ⟨h.dev, h.core⟩

theorem CoreCanon.setFrameState (h : CoreCanon all c) (n v : Nat) : CoreCanon all (c.setFrameState n v) :=
  .withSpad fun hb => Memory.putRaw_wf _ _ _ _ (h.spad hb)

theorem CoreCanon.terminate (h : CoreCanon all c) (cause who : BitVec 8) : CoreCanon all (c.terminate cause who) := by
  unfold Core.terminate
  split
  · exact h
  · exact ⟨h.spad⟩

theorem Canon.terminateGang (h : Canon all s) (cause who : BitVec 8) : Canon all (s.terminateGang cause who) :=
  h.onCore fun _ _ hd hc => .of (hd.withdraw _ _) (hc.terminate _ _)

theorem Canon.strandEnd (h : Canon all s) : Canon all s.strandEnd := by
  have h' : Canon all { s with st := s.st.ended } := .of h.dev h.core
  simp only [State.strandEnd]
  split
  · split
    · exact h'.terminateGang _ _
    · exact h'
  · exact h'

theorem CoreCanon.dropCommands (h : CoreCanon all c) (ctx : Nat) : CoreCanon all (c.dropCommands ctx) := ⟨h.spad⟩

theorem endCoreWork_canon (ctx : Nat) (own : Nat → Bool) (hd : DevCanon all d) (hc : CoreCanon all c) :
    PairCanon all (endCoreWork ctx own d c) := by
  obtain ⟨hd, hc⟩ := convertLazy_canon hd hc (·.ctx == ctx) own
  simp only [endCoreWork]
  split
  · exact .of (hd.withdraw _ _) (hc.terminate _ _)
  · exact .of hd hc

/-- Saved gangs changed one by one. -/
theorem DevCanon.mapSaved (h : DevCanon all d) {f : SavedGang → SavedGang} (hf : ∀ g, CoreCanon all g.body → CoreCanon all (f g).body) :
    ∀ g ∈ d.saved.map f, CoreCanon all g.body := by
  intro g hg
  obtain ⟨x, hx, rfl⟩ := List.mem_map.mp hg
  exact hf x (h.saved x hx)

theorem SavedGang.lose_canon {g : SavedGang} (h : CoreCanon all g.body) : CoreCanon all g.lose.body := (h.dropCommands _).terminate _ _

theorem Canon.terminateCtx (h : Canon all s) (ctx : Nat) : Canon all (s.terminateCtx ctx) := by
  unfold State.terminateCtx
  extract_lets s₁ s₂ lost parts src d
  have h₁ : Canon all s₁ := h.onAllCores fun _ _ hd hc => .of hd (hc.dropCommands ctx)
  have h₂ : Canon all s₂ := h₁.onAllCores fun _ _ => endCoreWork_canon ctx _
  clear_value s₂
  have hd : DevCanon all d := by
    refine ⟨h₂.dev.mem, h₂.dev.cores, h₂.dev.mapSaved fun g hg => ?_⟩
    split
    · exact SavedGang.lose_canon hg
    · exact hg
  exact .of (hd.updCtx _ _) h₂.core

theorem DevCanon.withConfig (h : DevCanon all d) (v : BitVec 4096) : DevCanon all { d with config := v } := ⟨h.mem, h.cores, h.saved⟩

theorem CoreCanon.haltCc (h : CoreCanon all c) : CoreCanon all c.haltCc := ⟨h.spad⟩

theorem Canon.machineCheckCore (h : Canon all s) : Canon all s.machineCheckCore := by
  unfold State.machineCheckCore
  extract_lets ctx s₁ s₂
  have h₁ : Canon all s₁ := h.onCore fun _ _ hd hc => .of hd hc.haltCc
  have h₂ : Canon all s₂ := by
    unfold s₂
    split
    · exact h₁.terminateCtx _
    · exact h₁
  clear_value s₂
  exact .of (h₂.dev.withConfig _) ⟨h₂.core.spad⟩

/-! ### Faults and traps (R197 to R202, R316 to R320) -/

theorem Canon.postFault (h : Canon all s) (p : Nat) (r : FaultRec) (y : Option Party) : Canon all (s.postFault p r y).1 := by
  unfold State.postFault
  split
  · exact h
  · exact .of (h.dev.updPart _ _) h.core
  · next q y _ =>
    have hd := h.dev.updPart p fun x => { x with
      held := x.held ++ [{ r with handle := if q.nextHandle = 0 then 1 else q.nextHandle }]
      nextHandle := (if q.nextHandle = 0 then 1 else q.nextHandle) + 1 }
    exact .of ⟨hd.mem, hd.cores, hd.saved⟩ h.core

theorem Canon.noteBad (h : Canon all s) (r : FaultRec) : Canon all (s.noteBad r) := by
  refine .of ?_ h.core
  split
  · exact h.dev.markBad _
  · exact h.dev

theorem Canon.strandFault (h : Canon all s) (r : FaultRec) : Canon all (s.strandFault r) := by
  unfold State.strandFault
  split
  · exact (h.noteBad r).machineCheckCore
  · split
    · exact ((h.noteBad r).postFault _ _ _).terminateCtx _
    · exact .of (h.postFault _ _ _).dev (h.postFault _ _ _).core

theorem Canon.takeTrap (h : Canon all s) (cause : BitVec 8) (info : BitVec 32) (addr : Word) (fl : BitVec 8) :
    Canon all (s.takeTrap cause info addr fl) := by
  unfold State.takeTrap
  split
  · exact h.machineCheckCore
  · split
    · exact .of h.dev h.core
    · next g _ =>
      have h' : Canon all { s with
          st := { s.st.rewind with flags := s.st.flags ||| fl, run := .trapped, waiting := false }
          core := { s.core with
            spad := s.core.spad.putRecord (frameOff s.st.slot) 5 (frameWords s.st.wordPc s.st.who cause info addr (g.trapSeq + 1))
            gang := some { g with trapSeq := g.trapSeq + 1 } } } := .of h.dev ⟨fun hb => Memory.putRecord_wf _ _ _ _ (h.core.spad hb)⟩
      dsimp only
      split
      · exact h'.terminateGang _ _
      · split
        · split
          · exact h'.terminateGang _ _
          · exact .of h'.dev ⟨h'.core.spad⟩
        · split
          · exact h'.terminateGang _ _
          · exact h'

theorem Canon.divert (h : Canon all s) : Canon all s.divert := by
  refine h.onCore fun d c hd hc => ?_
  split
  · simp only
    split
    · refine .of (hd.withdraw _ _) ⟨fun hb => ?_⟩
      exact Memory.putRaw_wf _ _ _ _ (Memory.putRaw_wf _ _ _ _ (hc.spad hb))
    · exact .of hd hc
  · exact .of hd hc

theorem CoreCanon.foldl {f : Core → α → Core} (hf : ∀ c x, CoreCanon all c → CoreCanon all (f c x)) (l : List α)
    (h : CoreCanon all c) : CoreCanon all (l.foldl f c) := by
  induction l generalizing c with
  | nil => exact h
  | cons x r ih => exact ih (hf c x h)

theorem Canon.handlerExit (h : Canon all s) : Canon all s.handlerExit := by
  unfold State.handlerExit
  extract_lets harts stays src core ends rpc core₁
  have hf : CoreCanon all core := by
    refine CoreCanon.foldl (fun _ _ hc => ?_) _ ⟨h.core.spad⟩
    exact hc.setFrameState _ _
  have hc : CoreCanon all core₁ := hf.setFrameState _ _
  clear_value core₁
  split
  · exact Canon.strandEnd (.of h.dev ⟨hc.spad⟩)
  · exact .of h.dev ⟨hc.spad⟩

theorem Canon.transfer {s₀ : State} (h₀ : Canon all s₀) (h : Canon all s) (target : Word) : Canon all (s₀.transfer s target) := by
  have h' : Canon all { s with st := { s.st with pend := s.st.pend.map .tick, deco := none, waiting := false } } := .of h.dev h.core
  unfold State.transfer
  split
  · exact h₀.takeTrap _ _ _ _
  · dsimp only
    split
    · split
      · exact h'.handlerExit
      · exact h'.strandEnd
    · exact .of h.dev h.core

theorem Canon.residentEntry (h : Canon all s) : Canon all s.residentEntry := by
  refine h.onCore fun d c hd hc => ?_
  simp only
  split
  · exact .of hd hc
  · split
    · exact .of hd hc
    · exact .of (hd.withdraw _ _) ⟨hc.spad⟩

theorem Canon.residentExit (h : Canon all s) : Canon all s.residentExit := by
  simp only [State.residentExit]
  split
  · exact .of h.dev ⟨h.core.spad⟩
  · split
    · exact .of h.dev ⟨h.core.spad⟩
    · exact .of h.dev ⟨h.core.spad⟩

/-! ### Delivery -/

theorem Canon.stopped (h : Canon all s) {e : Stop} (he : StopCanon all e) : Canon all (s.stopped e) := by
  cases e with
  | wait => exact h.await
  | trap c i a f => exact h.takeTrap c i a f
  | fault r => exact h.strandFault r
  | redo f => exact he id _ h.await

theorem Canon.settle {m : M Unit} (h : Canon all s) (hm : MCanon all m) : Canon all (settle s m) := by
  unfold Machine.settle
  split
  · next e => exact hm.ok h e
  · next e => exact h.stopped (hm.error h e)

theorem Canon.settleKept {m : M Bool} (h : Canon all s) (hm : MCanon all m) : Canon all (settleKept s m) := by
  unfold Machine.settleKept
  split
  · next e => exact hm.ok h e
  · next e => exact (hm.ok h e).await
  · next e => exact h.stopped (hm.error h e)

/-- An outcome that goes on leaves the memories canonical. -/
structure OutCanon (all : Bool) (o : Out) : Prop where
  next : ∀ t, o = .next t → Canon all t

theorem OutCanon.of (h : Canon all s) : OutCanon all (.next s) := ⟨fun _ e => Host.Outcome.next.inj e ▸ h⟩

theorem OutCanon.fault (f : Fault) : OutCanon all (.fault f) := ⟨fun _ e => by cases e⟩

theorem OutCanon.refused (r : Refusal) : OutCanon all (.refused r) := ⟨fun _ e => by cases e⟩

theorem Canon.deliver {m : M Unit} (h : Canon all s) (hm : MCanon all m) : OutCanon all (deliver s m) := .of (h.settle hm)

theorem advanceM_canon : MCanon all advanceM := .update fun _ h => h.advance

theorem raiseFlags_canon (f : BitVec 8) : MCanon all (raiseFlags f) := .read fun _ h => .when (.traps ..) (.write (.of h.dev h.core))

theorem setXM_canon (r : BitVec 5) (v : Word) : MCanon all (setXM r v) := .update fun _ h => h.setX r v

theorem onlyKind_canon (k : StrandKind) : MCanon all (onlyKind k) := .read fun _ _ => .cond (.raises _) (.answer _)

theorem onlyResident_canon : MCanon all onlyResident := (onlyKind_canon _).bind fun _ => .read fun _ _ => .cond (.raises _) (.answer _)

end
end Sys2Proof.Machine

/-! SUPPORT. Scalar instructions, fences, registers and clasps keep the canonical form of memory. -/

namespace Sys2Proof.Machine

section
variable {all : Bool} {s t : State} {d : Dev} {c : Core} {α β : Type} {m : M α}

/-! ### The shared control subset (file 06) -/

theorem MCanon.forIn {f : α → β → M (ForInStep β)} (hf : ∀ a b, MCanon all (f a b)) :
    ∀ (l : List α) (b : β), MCanon all (forIn l b f)
  | [], _ => by
    rw [List.forIn_nil]
    exact .answer _
  | a :: r, b => by
    rw [List.forIn_cons]
    refine (hf a b).bind fun x => ?_
    cases x with
    | done b => exact .answer _
    | yield b => exact forIn hf r b

theorem MCanon.discard (hm : MCanon all m) : MCanon all (discard m) := MCanon.map (f := fun _ => ()) hm

theorem Canon.result (h : Canon all s) (r : BitVec 5) (v : Word) : OutCanon all (s.result r v) := .of (h.setX r v).advance

theorem Canon.branch (h : Canon all s) (taken : Bool) (o : BitVec 15) : OutCanon all (s.branch taken o) := by
  refine .of ?_
  split
  · exact h.transfer h _
  · exact h.advance

theorem Canon.trapped (h : Canon all s) (c : BitVec 8) (i : BitVec 32) (a : Word) (f : BitVec 8) : OutCanon all (.next (s.takeTrap c i a f)) :=
  .of (h.takeTrap c i a f)

theorem Canon.advanceLoad (h : Canon all s) (r : BitVec 5) (src : LoadSrc) : Canon all (s.advanceLoad r src) := .of h.dev h.core

theorem Canon.advanceValue (h : Canon all s) (r : BitVec 5) (v : Word) : Canon all (s.advanceValue r v) := by
  unfold State.advanceValue
  split
  · exact (h.setX r v).advance
  · exact h.advanceLoad r _

theorem Canon.execLoop (h : Canon all s) (a : BitVec 5) (l : BitVec 15) : OutCanon all (execLoop a l s) := by
  unfold Machine.execLoop
  split
  · exact h.trapped _ _ _ _
  · dsimp only
    split
    · exact .of (.of h.dev h.core)
    · exact .of (.of h.dev h.core)

theorem Canon.execPloop (h : Canon all s) (a : BitVec 5) (st : BitVec 3) (l : BitVec 15) : OutCanon all (execPloop a st l s) := by
  unfold Machine.execPloop
  dsimp only
  split
  · exact h.trapped _ _ _ _
  · split
    · exact .of (.of h.dev h.core)
    · exact .of (.of h.dev h.core)

theorem Canon.sbrAddrs (a : BitVec 5) (z : BitVec 8) (w g : Nat) : ∀ (n i : Nat) {s : State}, Canon all s → Canon all (sbrAddrs a z w g n i s)
  | 0, _, _, h => h
  | n + 1, i, _, h => sbrAddrs a z w g n (i + 1) (h.setX _ _)

theorem Canon.execSbr (h : Canon all s) (o : BitVec 3) (c a : BitVec 5) (n : BitVec 2) (z : BitVec 8) (p : BitVec 5) :
    OutCanon all (execSbr o c a n z p s) := by
  have ht := Canon.sbrAddrs a z s.st.gw s.st.grant (n.toNat + 1) 0 (h.setX c (s.x c - .ofNat 64 s.st.grant))
  unfold Machine.execSbr
  dsimp only
  split
  · exact .of (h.transfer ht _)
  · exact .of ht.advance

theorem engGate_canon (k : BitVec 2) : MCanon all (engGate k) := .read fun _ _ => .cond .waits (.answer _)

theorem Canon.execLd (h : Canon all s) (r a : BitVec 5) (z : BitVec 3) (o : BitVec 12) : OutCanon all (execLd r a z o s) := by
  refine h.deliver <| (engGate_canon _).bind fun _ => .cond ?_ ?_
  · refine (MCanon.forIn (fun _ _ => ?_) _ _).bind fun _ => .update fun _ h => h.advanceLoad _ _
    exact (scalarTr_canon ..).bind fun _ => .answer _
  · exact (loadParts_canon _).bind fun _ => (raiseFlags_canon _).bind fun _ => .update fun _ h => h.advanceValue _ _

theorem Canon.execSt (h : Canon all s) (r a : BitVec 5) (z : BitVec 2) (o : BitVec 12) : OutCanon all (execSt r a z o s) :=
  h.deliver <| (engGate_canon _).bind fun _ => (storeParts_canon _ _).bind fun _ => advanceM_canon

theorem loadValue_canon (p : PendLoad) : MCanon all (loadValue p) := by
  unfold loadValue
  split
  · exact .answer _
  · exact .read fun _ _ => .when .waits <| (loadParts_canon _).bind fun _ => (raiseFlags_canon _).bind fun _ => .answer _

theorem Canon.readPending (h : Canon all s) (before : List PendLoad) (p : PendLoad) (rest : List PendLoad) :
    OutCanon all (s.readPending before p rest) := by
  have h₀ : Canon all { s with st := { s.st with pend := before ++ rest } } := .of h.dev h.core
  have hv := loadValue_canon (all := all) p
  unfold State.readPending
  dsimp only
  split
  · next e =>
    have ht := hv.ok h₀ e
    split
    · exact .of (.of ht.dev ht.core)
    · exact .of (.of ht.dev ht.core)
  · exact .of (.of h.dev h.core)
  · exact .of (Canon.takeTrap (.of h.dev h.core) _ _ _ _)
  · exact .of (h.strandFault _)
  · next f e =>
    have ht := hv.error h₀ e (fun r => { r with pc := p.pc }) s h
    exact .of (.of ht.dev ht.core)

theorem Canon.execPendingLoadWrite (h : Canon all s) : OutCanon all (execPendingLoadWrite s) := by
  unfold Machine.execPendingLoadWrite
  split
  · exact .of h
  · split
    · exact .of h
    · split
      · exact h.readPending _ _ _
      · split
        · exact h.readPending _ _ _
        · split
          · exact h.readPending _ _ _
          · exact .of h

theorem Canon.prefetch (h : Canon all s) (va : Word) : Canon all (s.prefetch va) := by
  unfold State.prefetch
  split
  · split
    · exact h
    · exact h.touch _ _
  · exact h

theorem Canon.execDpf (h : Canon all s) (a : BitVec 5) (i : BitVec 15) : OutCanon all (execDpf a i s) := by
  refine .of (Canon.advance ?_)
  split
  · exact h
  · exact h.prefetch _

theorem Canon.vshape (h : Canon all s) (r : BitVec 5) (w rows len : Nat) : Canon all (s.vshape r w rows len) := .of h.dev h.core

theorem Canon.execVquery (h : Canon all s) (r : BitVec 5) (i : BitVec 15) : OutCanon all (execVquery r i s) := by
  unfold Machine.execVquery
  split
  case h_6 => exact h.trapped _ _ _ _
  all_goals exact h.result _ _

theorem Canon.execBqPush (h : Canon all s) (a : BitVec 5) : OutCanon all (execBqPush a s) := by
  refine h.deliver ?_
  split
  · exact .raises _
  · split
    · exact .raises _
    · exact .when .waits <| (MCanon.update fun _ h => h.updStrandAt _ _).bind fun _ => advanceM_canon

theorem Canon.execBqBr (h : Canon all s) (o : BitVec 15) : OutCanon all (execBqBr o s) := by
  refine h.deliver (.when (.raises _) ?_)
  dsimp only
  split
  · exact .waits
  · next b r _ =>
    have ht : Canon all { s with st := { s.st with bqIn := r } } := .of h.dev h.core
    refine .write ?_
    split
    · exact h.transfer ht _
    · exact ht.advance

theorem Canon.fenceFar (h : Canon all s) (scope : Nat) (ld st : Bool) : Canon all (s.fenceFar scope ld st) := by
  unfold State.fenceFar
  split
  · exact h
  · split
    · exact h.flushFar _ _
    · split
      · exact h.flushFar _ _
      · exact h

theorem Canon.execFence (h : Canon all s) (sc k : BitVec 3) : OutCanon all (execFence sc k s) := by
  have ht := h.fenceFar sc.toNat (k.getLsbD 2) (k.getLsbD 1)
  unfold Machine.execFence
  split
  · exact .of h.await
  · generalize s.fenceFar _ _ _ = t at ht
    dsimp only
    refine .of (Canon.advance ?_)
    split
    · exact .of ht.dev ⟨ht.core.spad⟩
    · exact ht

theorem Canon.execBar (h : Canon all s) : OutCanon all (execBar s) := by
  unfold Machine.execBar
  split
  · exact .of h.advance
  · split
    · exact .of h.advance
    · split
      · exact .of h.await
      · dsimp only
        split
        · exact .of (.of h.dev h.core)
        · split
          · exact .of (.of h.dev ⟨h.core.spad⟩)
          · exact .of (.of h.dev h.core)

theorem CoreCanon.keepCount (h : CoreCanon all c) (ctx : Nat) (old new : Word) : CoreCanon all (c.keepCount ctx old new) := by
  unfold Core.keepCount
  split
  · exact ⟨h.spad⟩
  · exact h

theorem Canon.setCtx (h : Canon all s) (f : Ctx → Ctx) : Canon all (s.setCtx f) := .of (h.dev.updCtx _ _) h.core

theorem Canon.setBhead (h : Canon all s) (v : Word) : Canon all (s.setBhead v) := by
  unfold State.setBhead
  extract_lets ctx old t
  have ht : Canon all t := h.setCtx _
  clear_value t
  have hc : DevCanon all { t.dev with cores := t.dev.cores.map fun c => c.keepCount ctx old v } := ht.dev.mapCores fun _ hc => hc.keepCount _ _ _
  exact .of ⟨ht.dev.mem, hc.cores, ht.dev.mapSaved fun _ hg => hg.keepCount _ _ _⟩ ⟨ht.core.spad⟩

theorem Canon.writeSr (h : Canon all s) {n : BitVec 12} {v : Word} (e : s.writeSr n v = some t) : Canon all t := by
  unfold State.writeSr at e
  split at e
  · exact Option.some.inj e ▸ .of h.dev h.core
  · exact Option.some.inj e ▸ .of h.dev h.core
  · exact Option.some.inj e ▸ .of h.dev h.core
  · split at e
    · cases e
    · exact Option.some.inj e ▸ .of h.dev h.core
  · exact Option.some.inj e ▸ .of (h.setCtx _).dev ⟨h.core.spad⟩
  · exact Option.some.inj e ▸ .of (h.setCtx _).dev ⟨h.core.spad⟩
  · exact Option.some.inj e ▸ h.setBhead v
  · cases e

theorem Canon.writeSr_getD (h : Canon all s) (n : BitVec 12) (v : Word) : Canon all ((s.writeSr n v).getD s) := by
  cases e : s.writeSr n v with
  | none => exact h
  | some t => exact h.writeSr e

theorem Canon.execSysr (h : Canon all s) (r : BitVec 5) (n : BitVec 12) : OutCanon all (execSysr r n s) := by
  unfold Machine.execSysr
  split
  · exact h.result _ _
  · exact h.trapped _ _ _ _

theorem Canon.execSysw (h : Canon all s) (a : BitVec 5) (n : BitVec 12) : OutCanon all (execSysw a n s) := by
  unfold Machine.execSysw
  split
  · next e => exact .of (h.writeSr e).advance
  · exact h.trapped _ _ _ _

/-! ### Recalls, signatures and write-backs of clasps (R271, R276, R338) -/

theorem CoreCanon.updEntry (h : CoreCanon all c) (loc : Nat) (f : LazyEntry → LazyEntry) : CoreCanon all (c.updEntry loc f) := ⟨h.spad⟩

theorem DevCanon.updClasp (h : DevCanon all d) (loc : Nat) (f : ClaspHome → ClaspHome) : DevCanon all (d.updClasp loc f) := h.setClasp _

theorem recallCore_canon (loc : Nat) (hd : DevCanon all d) (hc : CoreCanon all c) : PairCanon all (recallCore loc d c) := by
  unfold recallCore
  split
  · exact .of (hd.updClasp _ _) hc
  · split
    · exact .of (hd.updClasp _ _) (hc.updEntry _ _)
    · exact .of (hd.updClasp _ _) (hc.updEntry _ _)

theorem Canon.recall (h : Canon all s) (loc : Nat) : Canon all (s.recall loc) := by
  unfold State.recall
  split
  · exact h
  · split
    · exact .of (h.dev.updClasp _ _) h.core
    · exact h.onCoreAt _ fun _ _ => recallCore_canon loc

theorem recallDirect_canon (loc : Nat) (e : LazyEntry) (hd : DevCanon all d) (hc : CoreCanon all c) : PairCanon all (recallDirect loc e d c) :=
  have h := backFar_canon hd hc e.has
  .of (h.1.updClasp _ _) (h.2.updEntry _ _)

theorem recallSent_canon (loc : Nat) (e : LazyEntry) (hd : DevCanon all d) (hc : CoreCanon all c) : PairCanon all (recallSent loc e d c) :=
  have h := sendFar_canon hd hc loc e.has
  .of h.1 (h.2.updEntry _ _)

/-- A recall that is due keeps the memories canonical if performing it does. -/
theorem Canon.dueRecall (h : Canon all s) {perform : Nat → LazyEntry → Dev → Core → Dev × Core}
    (hp : ∀ loc e d c, DevCanon all d → CoreCanon all c → PairCanon all (perform loc e d c)) (loc : Nat) : Canon all (s.dueRecall perform loc) := by
  simp only [State.dueRecall]
  split
  · exact h
  · refine h.onCoreAt _ fun d c hd hc => ?_
    unfold performDue
    split
    · exact .of hd hc
    · split
      · exact .of hd hc
      · exact hp _ _ _ _ hd hc

theorem Canon.sendSignature (h : Canon all s) (loc : Nat) : Canon all (s.sendSignature loc) := by
  simp only [State.sendSignature]
  split
  · exact h
  · exact Canon.onCoreAt (.of (h.dev.updClasp _ _) h.core) _ fun _ _ hd hc => .of hd (hc.updEntry _ _)

theorem Canon.landBacks (h : Canon all s) (loc : Nat) : DevCanon all (s.landBacks loc) := by
  unfold State.landBacks
  refine DevCanon.updClasp (h.dev.foldl (fun _ _ hd => ?_) _) _ _
  exact hd.landBefore _ _

theorem Canon.progress (h : Canon all s) (loc : Nat) : Canon all (s.progress loc) :=
  have h' := (h.recall loc).dueRecall (fun _ _ _ _ => recallDirect_canon _ _) loc
  (Canon.of (h'.landBacks loc) h'.core).sendSignature loc

/-! ### `acq`, `tryacq` and `rel` (R262 to R278) -/

theorem claspTrap_canon (i : BitVec 32) (va : Word) : MCanon all (claspTrap i va : M α) := .traps ..

theorem readRanges_canon (clasp : Word) : ∀ (n : Nat) (a : Word), MCanon all (readRanges clasp n a)
  | 0, _ => .answer _
  | n + 1, _ => (loadParts_canon _).bind fun _ => .when (claspTrap_canon ..) <| (readRanges_canon clasp n _).bind fun _ => .answer _

theorem captureRanges_canon (va : Word) (l : Line) : MCanon all (captureRanges va l) := by
  unfold captureRanges
  exact .when (claspTrap_canon ..) (readRanges_canon ..)

theorem invalidate_canon (p : FarCopy → Bool) : MCanon all (invalidate p) := by
  refine .read fun s h => .when .waits (.write ?_)
  refine Canon.flushFar ?_ _ _
  exact .of ⟨h.dev.mem, h.dev.cores, h.dev.saved⟩ ⟨h.core.spad⟩

theorem grantInvalidate_canon (ctx : Nat) (rs : List (Word × Nat)) (q : Word) (seen : Option Word) (sig : Option (BitVec 1024)) :
    MCanon all (grantInvalidate ctx rs q seen sig) := by
  simp only [grantInvalidate]
  split
  · exact .answer _
  · split
    · exact .cond (invalidate_canon _) (invalidate_canon _)
    · exact invalidate_canon _

theorem roomForEntry_canon (loc : Nat) : MCanon all (roomForEntry loc) := by
  refine .read fun s h => ?_
  split
  · exact .answer _
  · refine .when .waits <| (MCanon.update fun _ h => ?_).bind fun _ => .answer _
    exact h.onCore fun _ _ hd hc => convertLazy_canon hd hc _ _

theorem putEntry_canon (e : LazyEntry) : MCanon all (putEntry e) := .update fun _ h => .of h.dev ⟨h.core.spad⟩

theorem claspLine_canon (va : Word) : MCanon all (claspLine va) := by
  unfold claspLine
  exact .when (.traps ..) <| .when (claspTrap_canon ..) <| (engGate_canon _).bind fun _ => .read fun _ _ => (translateAt_canon ..).bind fun _ =>
    (readHome_canon ..).bind fun _ => .when (faultAt_canon ..) <| .when (.traps ..) <| .when (faultAt_canon ..) <|
    .when (claspTrap_canon ..) <| .when (claspTrap_canon ..) <| .answer _

theorem putClasp_canon (tr : Tr) (l : Line) : MCanon all (putClasp tr l) :=
  (MCanon.update fun _ h => .of (h.dev.forgetClasp _) h.core).bind fun _ => .read fun _ _ => (putLine_canon ..).bind fun _ => touchM_canon _

theorem grantLock_canon (tr : Tr) (va : Word) (l : Line) : MCanon all (grantLock tr va l) := by
  refine .read fun s _ => (captureRanges_canon ..).bind fun _ => .cond ?_ ?_
  · exact (MCanon.update fun _ h => .of h.dev (h.core.updEntry _ _)).bind fun _ => putClasp_canon ..
  · refine (roomForEntry_canon _).bind fun _ => (grantInvalidate_canon ..).bind fun _ =>
      (MCanon.update fun _ h => .of (h.dev.updClasp _ _) h.core).bind fun _ => .cond ?_ ?_
    · exact .read fun _ _ => (putEntry_canon _).bind fun _ => putClasp_canon ..
    · refine (MCanon.update fun _ h => ?_).bind fun _ => putClasp_canon ..
      exact .of h.dev ⟨h.core.spad⟩

theorem Canon.enqueueClasp (h : Canon all s) (loc : Nat) (try_ : Bool) : Canon all (s.enqueueClasp loc try_) := by
  simp only [State.enqueueClasp]
  split
  · exact h
  · exact .of (h.dev.setClasp _) h.core

theorem Canon.withdraw (h : Canon all s) : Canon all s.withdraw := .of (h.dev.withdraw _ _) h.core

theorem updClaspM_canon (loc : Nat) (f : State → ClaspHome → ClaspHome) :
    MCanon all (modify fun s => { s with dev := s.dev.updClasp loc (f s) }) := .update fun _ h => .of (h.dev.updClasp _ _) h.core

theorem advanceValueM_canon (r : BitVec 5) (v : Word) : MCanon all (modify (·.advanceValue r v)) := .update fun _ h => h.advanceValue r v

theorem passBarrier_canon (r : BitVec 5) (tr : Tr) (va : Word) (l : Line) : MCanon all (passBarrier r tr va l) :=
  .read fun _ _ => (captureRanges_canon ..).bind fun _ => (roomForEntry_canon _).discard.bind fun _ => (grantInvalidate_canon ..).bind fun _ =>
    (putEntry_canon _).bind fun _ => (updClaspM_canon _ _).bind fun _ => (touchM_canon _).bind fun _ => advanceValueM_canon ..

theorem acquire_canon (r a : BitVec 5) : MCanon all (acquire r a) := by
  refine .read fun _ _ => (claspLine_canon _).bind fun _ => .read fun s h => .cond ?_ (.when (claspTrap_canon ..) (.cond ?_ ?_))
  · exact .cond (.answer _) ((passBarrier_canon ..).bind fun _ => .answer _)
  · exact (grantLock_canon ..).bind fun _ => (advanceValueM_canon ..).bind fun _ => .answer _
  · refine (MCanon.write ((h.enqueueClasp _ _).progress _)).bind fun _ => .read fun _ _ => .cond ?_ (.answer _)
    exact (grantLock_canon ..).bind fun _ => (advanceValueM_canon ..).bind fun _ => .answer _

theorem Canon.settleAcquire {m : M Bool} (h : Canon all s) (hm : MCanon all m) : Canon all (settleAcquire s m) := by
  unfold Machine.settleAcquire
  split
  · next e => exact hm.ok h e
  · next e => exact (hm.ok h e).await
  · exact h.await
  · next e => exact hm.error h e _ _ h.await
  · next e => exact h.withdraw.stopped (hm.error h e)

theorem tryAcquire_canon (r a : BitVec 5) : MCanon all (tryAcquire r a) := by
  refine .read fun _ _ => (claspLine_canon _).bind fun _ => .read fun s h => .cond (.cond ?_ ?_) (.when (claspTrap_canon ..) (.cond ?_ (.cond ?_ ?_)))
  · exact (updClaspM_canon _ _).bind fun _ => (touchM_canon _).bind fun _ => (advanceValueM_canon ..).bind fun _ => .answer _
  · exact (passBarrier_canon ..).bind fun _ => .answer _
  · exact (grantLock_canon ..).bind fun _ => (advanceValueM_canon ..).bind fun _ => .answer _
  · refine (MCanon.update fun _ h => ?_).bind fun _ => (touchM_canon _).bind fun _ => (advanceValueM_canon ..).bind fun _ => .answer _
    exact .of (h.withdraw.dev.updClasp _ _) h.core
  · refine (MCanon.write ((h.enqueueClasp _ _).progress _)).bind fun _ => .read fun _ _ => .cond ?_ (.answer _)
    exact (grantLock_canon ..).bind fun _ => (advanceValueM_canon ..).bind fun _ => .answer _

theorem handOff_canon (loc : Nat) : MCanon all (handOff loc) :=
  (MCanon.update fun _ h => (h.dueRecall (fun _ _ _ _ => recallDirect_canon _ _) loc).sendSignature loc).bind fun _ => .read fun _ h =>
    .cond (.answer _) <| (MCanon.write (.of h.dev (h.core.updEntry _ _))).bind fun _ => .answer _

theorem releaseLock_canon (tr : Tr) (va : Word) (l : Line) : MCanon all (releaseLock tr va l) := by
  refine .read fun s _ => .cond (handOff_canon _) (.when (claspTrap_canon ..) ?_)
  dsimp only
  split
  · refine .when .waits <| (MCanon.update fun _ h => h.flushFar _ _).bind fun _ => (MCanon.update fun _ h => ?_).bind fun _ =>
      (putClasp_canon ..).bind fun _ => .answer _
    exact .of (h.dev.updClasp _ _) ⟨h.core.spad⟩
  · refine .cond ((putClasp_canon ..).bind fun _ => (MCanon.update fun _ h => ?_).bind fun _ => handOff_canon _)
      ((MCanon.update fun _ h => ?_).bind fun _ => (putClasp_canon ..).bind fun _ => .answer _)
    · exact .of (h.dev.updClasp _ _) (h.core.updEntry _ _)
    · exact .of h.dev (h.core.updEntry _ _)

theorem arriveBarrier_canon (tr : Tr) (l : Line) : MCanon all (arriveBarrier tr l) := by
  have harrive (loc : Nat) (g : BitVec 16) (x : Line) : MCanon all (do
      modify fun s => { s with core := { s.core with arrivals := (loc, g) :: s.core.arrivals.filter (·.1 != loc) } }
      putClasp tr x) := by
    refine (MCanon.update fun _ h => ?_).bind fun _ => putClasp_canon ..
    exact .of h.dev ⟨h.core.spad⟩
  refine .read fun s _ => ?_
  dsimp only
  split
  · refine .when .waits <| (MCanon.update fun _ h => h.onCore fun _ _ hd hc => backFar_canon hd hc _).bind fun _ =>
      (MCanon.update fun _ h => ?_).bind fun _ => harrive _ _ _
    exact .of (h.dev.updClasp _ _) ((h.core.updEntry _ _).updEntry _ _)
  · exact (updClaspM_canon _ _).bind fun _ => harrive _ _ _

theorem release_canon (a : BitVec 5) : MCanon all (release a) := by
  refine .read fun s _ => .when .waits <| (claspLine_canon _).bind fun x => ?_
  have hdone (done : Bool) : MCanon all (do
      if done then advanceM
      return done) := .when advanceM_canon (.answer _)
  exact .cond (((arriveBarrier_canon ..).bind fun _ => .answer _).bind hdone) ((releaseLock_canon ..).bind hdone)

/-! ### The messages of clasps (R267, R338) -/

theorem Canon.execClaspRequest (h : Canon all s) (clasp core : Nat) (try_ : Bool) : OutCanon all (execClaspRequest clasp core try_ s) := by
  refine .of ?_
  split
  · exact h
  · exact .of (h.dev.setClasp _) h.core

theorem Canon.execRecallClasp (h : Canon all s) (clasp : Nat) : OutCanon all (execRecallClasp clasp s) := by
  refine .of ?_
  split
  · exact h
  · exact (h.recall clasp).dueRecall (fun _ _ _ _ => recallSent_canon _ _) clasp

theorem Canon.execSignature (h : Canon all s) (clasp : Nat) : OutCanon all (execSignature clasp s) :=
  .of ((h.dueRecall (fun _ _ _ _ => recallSent_canon _ _) clasp).sendSignature clasp)

theorem DevCanon.grantAway (h : DevCanon all d) (clasp core : Nat) : DevCanon all (d.grantAway clasp core) := (h.claspPut _ _).updClasp _ _

theorem Canon.execGrant (h : Canon all s) (clasp : Nat) : OutCanon all (execGrant clasp s) := by
  refine .of ?_
  split
  · exact h
  · split
    · exact h
    · split
      · exact .of (h.dev.grantAway _ _) h.core
      · exact .of (h.dev.updClasp _ _) h.core

theorem Canon.execRefusal (h : Canon all s) (clasp : Nat) : OutCanon all (execRefusal clasp s) := .of (.of (h.dev.updClasp _ _) h.core)

theorem Canon.execWriteBack (h : Canon all s) (clasp : Nat) : OutCanon all (execWriteBack clasp s) := by
  refine .of ?_
  split
  · exact h
  · split
    · exact h
    · exact .of ((h.dev.farBack _).updClasp _ _) h.core

theorem Canon.execAcknowledge (h : Canon all s) (clasp : Nat) : OutCanon all (execAcknowledge clasp s) := .of (.of (h.dev.updClasp _ _) h.core)

end
end Sys2Proof.Machine

/-! SUPPORT. Vector operands, engines, copies, the matrix array, launches and the commands of the CC keep the canonical form of memory. -/

namespace Sys2Proof.Machine

section
variable {all : Bool} {s t : State} {d : Dev} {c : Core} {α β : Type} {m : M α}

/-! ### Updates of one part of the state -/

theorem MCanon.updateSt (f : State → Strand) : MCanon all (modify fun s => { s with st := f s }) := .update fun _ h => .of h.dev h.core

theorem MCanon.updateCore {f : State → Core} (hf : ∀ s, Canon all s → CoreCanon all (f s)) :
    MCanon all (modify fun s => { s with core := f s }) := .update fun s h => .of h.dev (hf s h)

/-- A step that changes the core outside its scratchpad. -/
theorem MCanon.keepSpad {f : State → Core} (hf : ∀ s, (f s).spad = s.core.spad := by intro; rfl) :
    MCanon all (modify fun s => { s with core := f s }) := .updateCore fun s h => ⟨fun e => hf s ▸ h.core.spad e⟩

/-- A value taken one way or another, and what follows it. -/
theorem MCanon.either {p : Prop} [Decidable p] {x y : M α} {k : α → M β} (hx : MCanon all x) (hy : MCanon all y)
    (hk : ∀ a, MCanon all (k a)) : MCanon all (if p then x >>= k else y >>= k) := .cond (hx.bind hk) (hy.bind hk)

/-! ### Vector operands (R57, R89, R131, R180, R183) -/

theorem readLock_canon (ps : List Nat) : MCanon all (readLock ps) := .read fun _ _ => .cond .waits (.answer _)

theorem writeLock_canon (ps : List Nat) : MCanon all (writeLock ps) := .read fun _ _ => .when .waits (.update fun _ h => h.updStrandAt _ _)

theorem readReg_canon (v : BitVec 5) : MCanon all (readReg v) :=
  .read fun _ _ => (readLock_canon _).bind fun _ => .read fun _ _ => .read fun _ _ => .answer _

theorem claimReg_canon (v : BitVec 5) : MCanon all (claimReg v) :=
  .read fun _ _ => (writeLock_canon _).bind fun _ => .read fun _ _ => .read fun _ _ => .answer _

theorem Canon.putReg (h : Canon all s) (v : BitVec 5) (r : VReg) : Canon all (s.putReg v r) := h.updStrandAt _ _

theorem widthAndClass_canon (srcs : List VReg) (old : VReg) (df : BitVec 4) : MCanon all (widthAndClass srcs old df) :=
  .read fun _ _ => .cond (.when (.raises _) (.cond (.raises _) (.answer _))) (.answer _)

theorem commitV_canon (r : BitVec 5) (fi : BitVec 4) (a : Acc) (side : Nat → Sidecar) : MCanon all (commitV r fi a side) := by
  unfold commitV
  exact .when (.raises _) <| (raiseFlags_canon _).bind fun _ => (MCanon.updateSt _).bind fun _ => advanceM_canon

/-- What an instruction reads of its registers: as they stand under a zero grant, else once their tiles allow it. -/
theorem issueArith_canon (srcs : List (BitVec 5)) (r : BitVec 5) (takes : Fmt → Bool) : MCanon all (issueArith srcs r takes) := by
  refine .read fun s _ => ?_
  have hcheck (regs : List VReg) (old : VReg) : MCanon all (do
      widthAndClass regs old (s.core.prick (regs.map (·.fmt))).cf
      if (!(s.core.prick (regs.map (·.fmt))).al && (s.core.prick (regs.map (·.fmt))).trp) || !takes (s.fmt (s.core.prick (regs.map (·.fmt))).cf) then
        raiseTrap tFORBIDDEN_PAIR
      return (regs, s.core.prick (regs.map (·.fmt)))) :=
    (widthAndClass_canon ..).bind fun _ => .when (.raises _) (.answer _)
  have hold (regs : List VReg) : MCanon all (do
      let old ← if s.st.grant = 0 then pure (s.st.reg (s.st.phys r)) else claimReg r
      widthAndClass regs old (s.core.prick (regs.map (·.fmt))).cf
      if (!(s.core.prick (regs.map (·.fmt))).al && (s.core.prick (regs.map (·.fmt))).trp) || !takes (s.fmt (s.core.prick (regs.map (·.fmt))).cf) then
        raiseTrap tFORBIDDEN_PAIR
      return (regs, s.core.prick (regs.map (·.fmt)))) :=
    .cond ((MCanon.answer _).bind (hcheck regs)) ((claimReg_canon _).bind (hcheck regs))
  exact .cond ((MCanon.answer _).bind hold) ((MCanon.mapM readReg_canon _).bind hold)

theorem vectorOp_canon (o : VOp) (r : BitVec 5) (srcs : List (BitVec 5)) : MCanon all (vectorOp o r srcs) :=
  (issueArith_canon ..).bind fun _ => .read fun _ _ => .cond advanceM_canon (commitV_canon ..)

/-! ### Engines and the records they write (R68, R289, R316 to R318, R397) -/

theorem runEngine_done {m : M Unit} (hm : MCanon all m) (h : Canon all s) {me : FaultRec → FaultRec} (e : runEngine s me m = .done t) :
    Canon all t := by
  unfold runEngine at e
  split at e <;> cases e
  next e => exact hm.ok h e

theorem runEngine_again {m : M Unit} (hm : MCanon all m) (h : Canon all s) {me : FaultRec → FaultRec} (e : runEngine s me m = .again t) :
    Canon all t := by
  unfold runEngine at e
  split at e <;> cases e
  next e => exact hm.error h e me s h

theorem Canon.engineFault (h : Canon all s) (ctx : Nat) (y : Party) (r : FaultRec) : Canon all (s.engineFault ctx y r).1 := by
  unfold State.engineFault
  split
  · exact h.machineCheckCore
  · split
    · exact (h.postFault _ _ _).terminateCtx _
    · exact h.postFault _ _ _

theorem recordAt_canon (acc : Bool) {look : M Tr} (hl : MCanon all look) (va : Word) (bytes : List Byte) : MCanon all (recordAt acc look va bytes) :=
  hl.bind fun _ => (readHome_canon ..).bind fun _ => .when (faultAt_canon ..) <| .when (faultAt_canon ..) <| (storedLine_canon ..).bind fun _ =>
    (putLine_canon ..).bind fun _ => .cond (.update fun _ h => h.touch _ _) (.answer _)

theorem recordWrite_canon (acc : Bool) (v : Via) (va : Word) (bytes : List Byte) : MCanon all (recordWrite acc v va bytes) :=
  recordAt_canon acc (translateAt_canon ..) va bytes

theorem Canon.setWrite (h : Canon all s) (kind : Nat) (x : Option EngWrite) : Canon all (s.setWrite kind x) := .of h.dev ⟨h.core.spad⟩

theorem Canon.tryWrite (h : Canon all s) (kind : Nat) : Canon all (s.tryWrite kind) := by
  unfold State.tryWrite
  split
  · exact h
  · next w _ =>
    split
    · exact h
    · dsimp only
      split
      · next e =>
        have ht := (runEngine_done (recordWrite_canon ..) h e).setWrite kind none
        split
        · exact .of (ht.dev.updCtx _ _) ht.core
        · exact ht
      · split
        · exact h.setWrite _ _
        · exact (h.engineFault _ _ _).setWrite _ _
      · next e => exact runEngine_again (recordWrite_canon ..) h e
      · exact h

theorem Canon.drainWrites (h : Canon all s) (kind n : Nat) : Canon all (s.drainWrites kind n) := by
  induction n generalizing s with
  | zero => exact h
  | succ n ih => exact ih (h.tryWrite kind)

theorem Canon.statusWrite (h : Canon all s) (ctx launch : Nat) (va : Word) (bytes : List Byte) : Canon all (s.statusWrite ctx launch va bytes) := by
  refine Canon.drainWrites ?_ _ _
  exact .of h.dev ⟨h.core.spad⟩

/-! ### Event records and batches (R244 to R250) -/

theorem CoreCanon.post (h : CoreCanon all c) (e : Ev) : CoreCanon all (c.post e) := by
  unfold Core.post
  split
  · exact ⟨h.spad⟩
  · exact ⟨h.spad⟩

theorem CoreCanon.postHeld (h : CoreCanon all c) : CoreCanon all c.postHeld := by
  unfold Core.postHeld
  split
  · exact h
  · split
    · exact ⟨h.spad⟩
    · exact h

theorem Canon.updBatch (h : Canon all s) (p : Batch → Bool) (f : Batch → Batch) : Canon all (s.updBatch p f) := .of h.dev ⟨h.core.spad⟩

theorem openBatch_canon : MCanon all openBatch := by
  refine .read fun s h => ?_
  split
  · exact .answer _
  · refine (MCanon.write ?_).bind fun _ => .answer _
    exact .of h.dev ⟨h.core.spad⟩

theorem closeBatch_canon (evt : Option (BitVec 32)) : MCanon all (closeBatch evt) :=
  .read fun _ _ => .when .waits <| openBatch_canon.bind fun _ => .update fun _ h => h.updBatch _ _

theorem CoreCanon.signal (h : CoreCanon all c) (k : BitVec 5) (n : Nat) : CoreCanon all (c.signal k n) := ⟨h.spad⟩

theorem Canon.execBatchComplete (h : Canon all s) (who : Nat) : OutCanon all (execBatchComplete who s) := by
  refine .of ?_
  split
  · exact h
  · next b r _ =>
    have hc : CoreCanon all { s.core with batches := r } := ⟨h.core.spad⟩
    have hk : CoreCanon all (b.knot.elim { s.core with batches := r } fun k => Core.signal { s.core with batches := r } k 1) := by
      cases b.knot with
      | none => exact hc
      | some k => exact hc.signal k 1
    split
    · exact h
    · refine .of h.dev ?_
      cases b.evt with
      | none => exact hk
      | some v => exact hk.post _

/-! ### Copies (R231 to R243) -/

theorem pageLeaf_canon (v : Via) (n : Need) (ix : Nat) (va : Word) : MCanon all (pageLeaf v n ix va) := by
  unfold pageLeaf
  exact .cond (.answer _) <| (translateAt_canon ..).bind fun _ => .read fun _ _ => .answer _

theorem mapPages_canon (v : Via) (reads writes : List Word) (ix : Word → Nat) : MCanon all (mapPages v reads writes ix) := by
  refine (MCanon.mapM (fun a => ?_) _).bind fun _ => .answer _
  have hw (x : List Xlat) : MCanon all (do
      let y ← if writes.contains a then pageLeaf v nEngWrite (ix a) a else pure []
      return x ++ y) := .cond ((pageLeaf_canon ..).bind fun _ => .answer _) ((MCanon.answer _).bind fun _ => .answer _)
  exact .cond ((pageLeaf_canon ..).bind hw) ((MCanon.answer _).bind hw)

theorem DevCanon.trFrom (h : DevCanon all d) {x : Xlat} {n : Need} {held : Bool} {va : Word} {tr : Tr} {d' : Dev}
    (e : d.trFrom x n held va = .ok (some (tr, d'))) : DevCanon all d' := by
  obtain ⟨_, rfl⟩ := trFrom_frame _ _ _ _ _ _ _ e
  exact ⟨h.mem, h.cores, h.saved⟩

theorem heldTr_canon (v : Via) (xl : List Xlat) (n : Need) (va : Word) : MCanon all (heldTr v xl n va) := by
  refine .read fun s h => ?_
  split
  · refine .cond (.answer _) ?_
    split
    · exact faultAt_canon ..
    · exact .waits
    · next e => exact (MCanon.write (.of (h.dev.trFrom e) h.core)).bind fun _ => .answer _
  · exact translateAt_canon ..

theorem CoreCanon.setWatch (h : CoreCanon all c) (k : BitVec 4) (w : Watch) : CoreCanon all (c.setWatch k w) := ⟨h.spad⟩

theorem CoreCanon.retireCopy (h : CoreCanon all c) (id : Nat) : CoreCanon all (c.retireCopy id) := by
  have hc : CoreCanon all { c with copies := c.copies.filter (·.id != id) } := ⟨h.spad⟩
  unfold Core.retireCopy
  split
  · exact h
  · next k _ =>
    dsimp only
    cases k.knot with
    | none => exact hc
    | some n => exact hc.signal n 1

theorem Canon.startCopy (h : Canon all s) (b : Starter) (p : Plan) (lines : List LandLine) (xl : List Xlat) :
    Canon all (s.startCopy b p lines xl) := by
  unfold State.startCopy
  extract_lets base c₁ c₂ c₃ k c₄ t
  have h₁ : CoreCanon all c₁ := by
    unfold c₁
    split
    · exact h.core.setWatch _ _
    · exact h.core
  have h₂ : CoreCanon all c₂ := by
    unfold c₂
    split
    · exact ⟨h₁.spad⟩
    · exact h₁
  have h₃ : CoreCanon all c₃ := by
    refine CoreCanon.foldl (fun c l hc => ?_) _ h₂
    split
    · exact hc
    · exact hc.noteLazy _ _ _
  have ht : Canon all t := by
    refine Canon.updBatch ?_ _ _
    exact .of h.dev ⟨h₃.spad⟩
  split
  · exact .of ht.dev (ht.core.retireCopy _)
  · exact ht

theorem startM_canon (issuer : Nat) (b : Starter) (p : Plan) (xl : List Xlat) : MCanon all (startM issuer b p xl) := by
  refine .read fun s h => .when .waits (.write (.of ?_ (h.startCopy ..).core))
  refine (h.startCopy ..).dev.foldl (fun _ _ hd => ?_) _
  exact hd.tokensHome _

theorem issueCopy_canon (q : CopyReq) (conv : BitVec 512) : MCanon all (issueCopy q conv) := by
  refine .read fun s _ => ?_
  split
  · exact .traps ..
  · refine .cond advanceM_canon <| (mapPages_canon ..).bind fun _ => .read fun t _ => .when (.stops fun _ _ h => ?_) <| openBatch_canon.bind fun _ =>
      (startM_canon ..).bind fun _ => (MCanon.update fun _ h => ?_).bind fun _ => advanceM_canon
    · exact .of h.dev h.core
    · exact .of h.dev ⟨h.core.spad⟩

theorem readRecord_canon (va : Word) (n : Nat) : MCanon all (readRecord va n) :=
  (engGate_canon _).bind fun _ => (loadParts_canon _).bind fun _ => .answer _

theorem engineRecord_canon (v : Via) : ∀ ps : List (Word × Nat), MCanon all (engineRecord v ps)
  | [] => .answer _
  | (_, _) :: r =>
    (translateAt_canon ..).bind fun _ => (readHome_canon ..).bind fun _ => (MCanon.update fun _ h => h.touch _ _).bind fun _ =>
      .when (faultAt_canon ..) <| (engineRecord_canon v r).bind fun _ => .answer _

theorem convRecordBy_canon {read : M Nat} (hr : MCanon all read) (v : Via) (q : CopyReq) : MCanon all (convRecordBy read v q) := by
  refine ⟨fun s h => ?_⟩
  change ResCanon all (convRecordBy read v q s)
  unfold convRecordBy
  split
  · next e => exact hr.ok h e
  · exact trivial
  · next e => exact hr.error h e
  · next e =>
    split
    · exact h
    · split
      · exact trivial
      · split
        · exact hr.error h e
        · next e => exact (mapPages_canon ..).error h e

theorem convRecord_canon (q : CopyReq) : MCanon all (convRecord q) := .read fun _ _ => convRecordBy_canon (readRecord_canon ..) _ _

theorem Canon.execCpConv (h : Canon all s) (r a b : BitVec 5) : OutCanon all (execCpConv r a b s) := by
  refine h.deliver <| (convRecord_canon _).bind fun x => ?_
  split
  · exact issueCopy_canon ..
  · exact advanceM_canon

theorem Canon.execCpClose (h : Canon all s) (a : BitVec 5) : OutCanon all (execCpClose a s) :=
  h.deliver <| (closeBatch_canon _).bind fun _ => advanceM_canon

theorem Canon.execCpWait (h : Canon all s) (n : BitVec 5) : OutCanon all (execCpWait n s) := by
  have hclose {t : State} (e : (if s.core.batches.any fun b => b.who == s.st.slot && !b.closed then
      match (closeBatch none).run s with
      | .ok (_, t) => some t
      | .error _ => none
    else some s) = some t) : Canon all t := by
    split at e
    · split at e
      · next e' => exact Option.some.inj e ▸ (closeBatch_canon none).ok h e'
      · cases e
    · exact Option.some.inj e ▸ h
  unfold Machine.execCpWait
  dsimp only
  split
  · next e =>
    split
    · exact .of (hclose e).advance
    · exact .of (hclose e).await
  · exact .of h.await

theorem Canon.execWset (h : Canon all s) (k : BitVec 4) (a : BitVec 5) : OutCanon all (execWset k a s) :=
  h.deliver <| .when .waits <| .when (.raises _) <| (MCanon.updateCore fun _ h => h.core.setWatch _ _).bind fun _ => advanceM_canon

theorem Canon.execWwait (h : Canon all s) (k : BitVec 4) (a : BitVec 5) : OutCanon all (execWwait k a s) :=
  h.deliver <| .when .waits advanceM_canon

theorem readSource_canon (v : Via) (xl : List Xlat) (va : Word) : MCanon all (readSource v xl va) := by
  refine .read fun s _ => .cond (.answer _) <| (heldTr_canon ..).bind fun _ => .read fun s h => .when .waits <|
    (MCanon.write (h.touch _ _)).bind fun _ => ?_
  split
  · exact .answer _
  · exact fetchHome_canon ..

theorem gather_canon (v : Via) (xl : List Xlat) : ∀ (as : List Word) (got : List (Nat × Line × Tag)), MCanon all (gather v xl as got)
  | [], _ => .answer _
  | _ :: r, _ => by
    unfold gather
    exact .cond (gather_canon v xl r _) ((readSource_canon ..).bind fun _ => gather_canon v xl r _)

theorem compareLines_canon (v : Via) (xl : List Xlat) (a b : Word) : ∀ n off : Nat, MCanon all (compareLines v xl a b off n)
  | 0, _ => .answer _
  | n + 1, _ => (readSource_canon ..).bind fun _ => (readSource_canon ..).bind fun _ =>
    .cond (.answer _) (.cond (.answer _) (compareLines_canon v xl a b n _))

theorem putResult_canon (dst : Word) (slot v : Nat) : MCanon all (putResult dst slot v) :=
  .updateCore fun _ h => ⟨fun hb => Memory.putRecord_wf _ _ _ _ (h.core.spad hb)⟩

theorem setFull_canon (off : Nat) : MCanon all (setFull off) := .updateCore fun _ h => ⟨h.core.spad⟩

theorem landHome_canon (ln : LandLine) (tr : Tr) : MCanon all (landHome ln tr) := by
  refine .read fun s h => .when .waits <| (MCanon.write ?_).bind fun _ => homeRead_canon ..
  have ht := h.flushFar (·.loc == tr.loc / 128) true
  split
  · exact .of (ht.dev.forgetClasp _) ht.core
  · exact ht

theorem putLanded_canon (tr : Tr) (ix : Nat) (ot : Tag) (x : Landed) : MCanon all (putLanded tr ix ot x) := by
  refine .read fun s h => .cond (.write (h.putSpad _ _ _)) (.cond (.write (h.touch _ _)) ?_)
  split
  · exact faultAt_canon ..
  · next hp =>
    refine .write (Canon.touch ?_ _ _)
    exact .of (((h.dev.putHome hp).markWrite _).tokensHome _) h.core

/-- What every move of a copy does to the destination line, the line that it makes of the old one being `x`. -/
theorem landMoved_canon (v : Via) (xl : List Xlat) (ln : LandLine) (ix : Nat) (x : Line × Tag → Landed) (y : Line × Tag → β) : MCanon all (do
    let tr ← heldTr v xl nEngWrite ln.dst
    let p ← if tr.spad then pure ((← get).core.spad.line tr.loc, (← get).core.spad.tag tr.loc) else landHome ln tr
    putLanded tr ix p.2 (x p)
    if tr.spad then setFull tr.loc
    return y p) := by
  refine (heldTr_canon ..).bind fun tr => ?_
  have hput (p : Line × Tag) : MCanon all (do
      putLanded tr ix p.2 (x p)
      if tr.spad then setFull tr.loc
      return y p) := (putLanded_canon ..).bind fun _ => .when (setFull_canon _) (.answer _)
  exact .cond (.read fun _ _ => .read fun _ _ => (MCanon.answer _).bind hput) ((landHome_canon ..).bind hput)

theorem landing_canon (k : Copy) (ln : LandLine) : MCanon all (landing k ln) := by
  refine .read fun s _ => ?_
  dsimp only
  split
  · refine (MCanon.forM (fun _ => ?_) _).bind fun _ => (setFull_canon _).bind fun _ => .answer _
    exact (MCanon.mapM (fun _ => readSource_canon ..) _).bind fun _ => putResult_canon ..
  · refine (MCanon.forM (fun _ => ?_) _).bind fun _ => (setFull_canon _).bind fun _ => .answer _
    exact (compareLines_canon ..).bind fun _ => putResult_canon ..
  · refine (gather_canon ..).bind fun got => ?_
    split
    · exact (heldTr_canon ..).bind fun _ => (faultAt_canon ..).bind fun _ => landMoved_canon ..
    · exact landMoved_canon ..

theorem Canon.updCopy (h : Canon all s) (id : Nat) (f : Copy → Copy) : Canon all (s.updCopy id f) := .of h.dev ⟨h.core.spad⟩

theorem Canon.markWatch (h : Canon all s) (k : Copy) (ln : LandLine) : Canon all (s.markWatch k ln) := by
  unfold State.markWatch
  split
  · exact h
  · exact .of h.dev (h.core.setWatch _ _)

theorem rehold_canon (k : Copy) : MCanon all (rehold k) := .read fun _ _ => .cond (.answer _) ((mapPages_canon ..).bind fun _ => .answer _)

theorem Canon.parkCopy (h : Canon all s) (k : Copy) (r : FaultRec) : Canon all (s.parkCopy k r) := (h.engineFault _ _ _).updCopy _ _

theorem landOne_canon (k : Copy) (line : Nat) (ln : LandLine) : MCanon all (landOne k line ln) :=
  (landing_canon ..).bind fun _ => (MCanon.update fun _ h => h.updCopy _ _).bind fun _ =>
    (MCanon.update fun _ h => (h.markWatch _ _).updBatch _ _).bind fun _ =>
    .cond (.updateCore fun _ h => h.core.retireCopy _) (.answer _)

theorem Canon.land (h : Canon all s) {k : Copy} {line : Nat} {ln : LandLine} (e : s.land k line ln = some t) : Canon all t := by
  have hheld : MCanon all (do
      let xl ← rehold k
      modify (·.updCopy k.id fun k => { k with xl := xl })) := (rehold_canon k).bind fun _ => .update fun _ h => h.updCopy _ _
  unfold State.land at e
  split at e
  · cases e
  · dsimp only at e
    split at e
    · next e' =>
      have hu := runEngine_done hheld h e'
      split at e
      · cases e
      · split at e
        · next e' => exact Option.some.inj e ▸ runEngine_done (landOne_canon ..) hu e'
        · exact Option.some.inj e ▸ hu.parkCopy _ _
        · next e' => exact Option.some.inj e ▸ runEngine_again (landOne_canon ..) hu e'
        · cases e
    · exact Option.some.inj e ▸ h.parkCopy _ _
    · next e' => exact Option.some.inj e ▸ runEngine_again hheld h e'
    · cases e

theorem Canon.execLanding (h : Canon all s) (copy line : Nat) : OutCanon all (execLanding copy line s) := by
  refine .of ?_
  split
  · exact h
  · split
    · exact h
    · next k _ _ ln _ =>
      cases e : s.land k line ln with
      | none => exact h
      | some t => exact h.land e

theorem Canon.execCommandBlockStart (h : Canon all s) (queue : BitVec 2) : OutCanon all (execCommandBlockStart queue s) := by
  refine .of ?_
  split
  · exact h
  · dsimp only
    split
    · exact h
    · split
      · next e =>
        refine runEngine_done (startM_canon ..) (.of h.dev ⟨?_⟩) e
        dsimp only
        split <;> split <;> exact h.core.spad
      · exact h

theorem Canon.closeNest (h : Canon all s) (n : BitVec 2048) : Canon all (s.closeNest n) := by
  refine Canon.updBatch ?_ _ _
  exact .of h.dev ⟨h.core.spad⟩

/-- The copy that the Bobbin's next emission starts. -/
def bobbinCopy (s : State) (n : BitVec 2048) (offA offB : Word) (rnd : BitVec 3) : M Unit := do
  let w := s.core.bobbin
  let q := nestReq n offA offB rnd w.at_
  let v := s.viaKey w.ctx
  let conv ← if q.op = 1 then convRecordBy (engineRecord v (lineParts q.aux 64)) v q else pure (some 0)
  match conv.bind (checkCopy s.fmt q) with
  | some (e, a) => stop (.trap e 0 a 0)
  | none =>
    let c := conv.getD 0
    let p := planCopy q c s.core.shSeed
    let xl ← p.mapPages v
    modify fun s => { s with core := { s.core with shSeed := p.seed, bobbin := { s.core.bobbin with at_ := w.at_ + 1 } } }
    startM 0 ⟨17, 3, 4, w.nestNo, none, w.ctx, w.launch, w.pc⟩ p xl

theorem bobbinCopy_canon (s : State) (n : BitVec 2048) (offA offB : Word) (rnd : BitVec 3) : MCanon all (bobbinCopy s n offA offB rnd) := by
  refine .either (convRecordBy_canon (engineRecord_canon ..) _ _) (.answer _) fun x => ?_
  dsimp only
  split
  · exact .traps ..
  · exact (mapPages_canon ..).bind fun _ => MCanon.bind .keepSpad fun _ => startM_canon ..

/-- The Bobbin parked at a fault of its next emission. -/
def bobbinPark (s : State) (r : FaultRec) : State :=
  let w := s.core.bobbin
  let (t, h) := s.engineFault w.ctx (.bobbin s.core.num) (r.by 3 0 w.ctx w.pc)
  { t with core := { t.core with bobbin := { t.core.bobbin with parked := some h } } }

theorem bobbinPark_canon (h : Canon all s) (r : FaultRec) : Canon all (bobbinPark s r) :=
  have h' := h.engineFault s.core.bobbin.ctx (.bobbin s.core.num) (r.by 3 0 s.core.bobbin.ctx s.core.bobbin.pc)
  .of h'.dev ⟨h'.core.spad⟩

theorem Canon.execBobbinEmission (h : Canon all s) : OutCanon all (execBobbinEmission s) := by
  unfold Machine.execBobbinEmission
  refine .of ?_
  dsimp -zeta only
  split
  · next n offA offB rnd _ _ =>
    split
    · exact h
    · split
      · split
        · exact h.closeNest n
        · exact h
      · split
        · exact h
        · change Canon all (match runEngine s (·.by 3 0 s.core.bobbin.ctx s.core.bobbin.pc) (bobbinCopy s n offA offB rnd) with
            | .done t => if nestTotal n ≤ s.core.bobbin.at_ + 1 && decide (t.core.outstanding 17 < 64) then t.closeNest n else t
            | .again t => t
            | .wait => s
            | .check a => bobbinPark s (s.mkFault 5 1 4 a 0 0)
            | .fault r => bobbinPark s r)
          have hm : MCanon all _ := bobbinCopy_canon s n offA offB rnd
          split
          · next e =>
            have ht := runEngine_done hm h e
            split
            · exact ht.closeNest n
            · exact ht
          · next e => exact runEngine_again hm h e
          · exact h
          · exact bobbinPark_canon h _
          · exact bobbinPark_canon h _
  · exact h

/-! ### The matrix array (file 09) -/

theorem Canon.execMatAtt (h : Canon all s) (r a : BitVec 5) : OutCanon all (execMatAtt r a s) := by
  refine Canon.result ?_ _ _
  exact .of h.dev h.core

theorem Canon.execMatDet (h : Canon all s) : OutCanon all (execMatDet s) := by
  refine h.deliver (.cond (.when .waits ?_) advanceM_canon)
  exact (MCanon.updateSt _).bind fun _ => advanceM_canon

theorem issueMatrix_canon (tk : BitVec 2) (a b : BitVec 5) (ee : BitVec 2) (np : Option (Nat × Bool)) : MCanon all (issueMatrix tk a b ee np) :=
  .read fun _ _ => (readLock_canon _).bind fun _ => .when (.raises _) <| .when (.raises _) <| .when (.raises _) <| .when (.traps ..) <|
    .when (.raises _) <| .when .waits <| .answer _

theorem Canon.matrixBegin (h : Canon all s) (k : Nat) (ee : BitVec 2) (op : MatOp) : Canon all (s.matrixBegin k ee op) :=
  have h' := h.setCtx fun x => { x with eb := x.eb - .ofNat 32 ((op.vl + 95) / 96 * 2 ^ ee.toNat) }
  .of h'.dev h'.core

theorem matrixOp_canon (tk : BitVec 2) (a b : BitVec 5) (ee : BitVec 2) (np : Option (Nat × Bool)) : MCanon all (matrixOp tk a b ee np) :=
  .read fun _ _ => .when (.raises _) <| .cond (.when (.raises _) advanceM_canon) <| (issueMatrix_canon ..).bind fun _ =>
    (MCanon.update fun _ h => h.matrixBegin _ _ _).bind fun _ => advanceM_canon

theorem Canon.execMatrixRetire (h : Canon all s) (hart : BitVec 3) (tile : BitVec 2) : OutCanon all (execMatrixRetire hart tile s) := by
  simp only [Machine.execMatrixRetire]
  split
  · exact .of h
  · exact .of ((h.putStrandAt _).setCtx _)

theorem Canon.execTzero (h : Canon all s) (t : BitVec 2) : OutCanon all (execTzero t s) := .of (.of h.dev h.core)

theorem Canon.execTpeek (h : Canon all s) (t : BitVec 2) (a : BitVec 5) : OutCanon all (execTpeek t a s) := by
  refine Canon.result ?_ _ _
  exact .of h.dev h.core

theorem Canon.execTwait (h : Canon all s) (t : BitVec 2) : OutCanon all (execTwait t s) := by
  simp only [Machine.execTwait]
  split
  · exact .of h.await
  · refine Canon.deliver (.of h.dev ?_) ((raiseFlags_canon _).bind fun _ => advanceM_canon)
    split
    · exact ⟨h.core.spad⟩
    · exact h.core

theorem Canon.execBudgetRefill (h : Canon all s) (ctx us : Nat) : OutCanon all (execBudgetRefill ctx us s) := .of (.of (h.dev.updCtx _ _) h.core)

/-! ### Launches (file 16) -/

theorem DevCanon.updLaunch (h : DevCanon all d) (p id : Nat) (f : Launch → Launch) : DevCanon all (d.updLaunch p id f) := h.updPart _ _

theorem Canon.reportLaunch (h : Canon all s) (p id : Nat) (f : Launch → Launch) : Canon all (s.reportLaunch p id f) := by
  have h' : Canon all { s with dev := s.dev.updLaunch p id f } := .of (h.dev.updLaunch _ _ _) h.core
  simp only [State.reportLaunch]
  split
  · exact h'
  · exact h'.atCore _ fun _ h => h.statusWrite _ _ _ _

theorem mapWrites_canon (v : Via) : ∀ as : List Word, MCanon all (mapWrites v as)
  | [] => .answer _
  | _ :: r => (translateAt_canon ..).bind fun _ => mapWrites_canon v r

theorem submit_canon (ctx p lg : Nat) (r : BitVec 1024) : MCanon all (submit ctx p lg r) :=
  .read fun _ h => (MCanon.write (.of (h.dev.updPart _ _) h.core)).bind fun _ => (MCanon.update fun _ h => h.reportLaunch _ _ _).bind fun _ => .answer _

theorem Canon.execLnrSub (h : Canon all s) (r a : BitVec 5) : OutCanon all (execLnrSub r a s) := by
  refine h.deliver <| .when (.traps ..) <| .when .waits <| (MCanon.update fun _ h => h.fenceFar _ _ _).bind fun _ => (readRecord_canon ..).bind fun _ => ?_
  refine .cond ((setXM_canon ..).bind fun _ => advanceM_canon) ?_
  exact (mapWrites_canon ..).bind fun _ => (submit_canon ..).bind fun _ => (setXM_canon ..).bind fun _ => advanceM_canon

theorem Canon.handOut (h : Canon all s) (die p : Nat) (l : Launch) (c : Nat) : Canon all (s.handOut die p l c) := by
  unfold State.handOut
  split
  · exact h
  · next w l' _ =>
    have hd := h.dev.updLaunch p l.id fun _ => { l' with running := l'.running + 1 }
    refine Canon.updCoreAt ?_ _ fun _ hc => ⟨hc.spad⟩
    exact .of ⟨hd.mem, hd.cores, hd.saved⟩ h.core

theorem Canon.execWalkerAssign (h : Canon all s) (die : Nat) : OutCanon all (execWalkerAssign die s) := by
  refine .of ?_
  split
  · exact h.handOut _ _ _ _
  · split
    · exact h.updCoreAt _ fun _ hc => ⟨hc.spad⟩
    · exact h

theorem Canon.reportEnd (h : Canon all s) (core : Nat) (g : Gang) (x : Discards) : Canon all (s.reportEnd core g x) := by
  unfold State.reportEnd
  split
  · exact h
  · exact (h.atCore _ fun _ h => h.statusWrite _ _ _ _).reportLaunch _ _ _

theorem Canon.reportLost (h : Canon all s) (l : Launch) : Canon all (s.reportLost l) := by
  unfold State.reportLost
  extract_lets lost t
  have ht : Canon all t := by
    refine h.foldl (fun s g hs => ?_) _
    dsimp only
    split
    · exact hs
    · exact Canon.reportEnd (.of (hs.dev.updLaunch _ _ _) hs.core) _ _ _
  clear_value t
  refine .of ⟨ht.dev.mem, ht.dev.cores, ht.dev.mapSaved fun g hg => ?_⟩ ht.core
  split
  · exact hg
  · exact hg

theorem Canon.execLaunchComplete (h : Canon all s) (part launch : Nat) : OutCanon all (execLaunchComplete part launch s) := by
  refine .of ?_
  split
  · next q l _ _ =>
    split
    · exact h
    · have h' := (h.reportLost l).reportLaunch part launch fun x => { x with state := l.final q }
      have h'' (f : Part → Part) : Canon all { (s.reportLost l).reportLaunch part launch fun x => { x with state := l.final q } with
        dev := ((s.reportLost l).reportLaunch part launch fun x => { x with state := l.final q }).dev.updPart part f } := .of (h'.dev.updPart _ _) h'.core
      dsimp only
      split
      · exact (h'' _).updCoreAt _ fun _ hc => ⟨hc.spad⟩
      · exact h'' _
  · exact h

/-! ### The commands of the CC (R24, R59, R297, R300 to R305) -/

theorem launchArg_canon (i : BitVec 32) : MCanon all (launchArg i : M α) := .traps ..

theorem Canon.execOvl (h : Canon all s) (a : BitVec 5) : OutCanon all (execOvl a s) := by
  refine h.deliver <| .when (launchArg_canon _) ?_
  dsimp only
  split
  · exact advanceM_canon
  · exact .when .waits <| MCanon.bind .keepSpad fun _ => .cond advanceM_canon (.updateSt _)

theorem Canon.execCqPush (h : Canon all s) (r a b : BitVec 5) : OutCanon all (execCqPush r a b s) := by
  refine h.deliver <| .when (.traps ..) ?_
  dsimp only
  split
  · refine (readRecord_canon ..).bind fun _ => .when (.raises _) <| .either (convRecord_canon _) (.answer _) fun _ => ?_
    split
    · exact .traps ..
    · exact (mapPages_canon ..).bind fun _ => .when .waits <| openBatch_canon.bind fun _ => MCanon.bind .keepSpad fun _ =>
        .when (closeBatch_canon _) <| (setXM_canon ..).bind fun _ => advanceM_canon
  · exact launchArg_canon _

theorem knotCount_canon (a : BitVec 5) : MCanon all (knotCount a) := .read fun _ _ => .when (launchArg_canon _) (.answer _)

theorem Canon.execKnWait (h : Canon all s) (k a : BitVec 5) : OutCanon all (execKnWait k a s) :=
  h.deliver <| (knotCount_canon _).bind fun _ => .when .waits <| MCanon.bind .keepSpad fun _ => advanceM_canon

theorem Canon.execKnSig (h : Canon all s) (k a : BitVec 5) : OutCanon all (execKnSig k a s) :=
  h.deliver <| (knotCount_canon _).bind fun _ => (MCanon.updateCore fun _ h => h.core.signal _ _).bind fun _ => advanceM_canon

theorem Canon.execBobLd (h : Canon all s) (a : BitVec 5) : OutCanon all (execBobLd a s) :=
  h.deliver <| .when (.traps ..) <| (readRecord_canon ..).bind fun _ => (readRecord_canon ..).bind fun _ => .when (.raises _) <| .when .waits <|
    MCanon.bind .keepSpad fun _ => advanceM_canon

theorem Canon.execBobGo (h : Canon all s) (r a b : BitVec 5) : OutCanon all (execBobGo r a b s) :=
  h.deliver <| .when (launchArg_canon _) <| .when .waits <| MCanon.bind .keepSpad fun _ => (setXM_canon ..).bind fun _ =>
    advanceM_canon

theorem Canon.execRenq (h : Canon all s) (t a b : BitVec 5) : OutCanon all (execRenq t a b s) :=
  h.deliver <| (engGate_canon _).bind fun _ => .when (launchArg_canon _) <| .when .waits <|
    (MCanon.update fun _ h => h.updCoreAt _ (by exact fun _ hc => ⟨hc.spad⟩)).bind fun _ =>
    MCanon.bind .keepSpad fun _ => advanceM_canon

theorem Canon.setEvent (h : Canon all s) (r : BitVec 5) (e : BitVec 256) : Canon all (s.setEvent r e) :=
  (((h.setX _ _).setX _ _).setX _ _).setX _ _

theorem Canon.execEvqPop (h : Canon all s) (r : BitVec 5) : OutCanon all (execEvqPop r s) := by
  refine h.deliver <| (engGate_canon _).bind fun _ => ?_
  split
  · exact .waits
  · refine (MCanon.update fun _ h => ?_).bind fun _ => advanceM_canon
    exact .of (h.setEvent _ _).dev ⟨h.core.spad⟩

theorem Canon.execFtWr (h : Canon all s) (r a : BitVec 5) (n : BitVec 4) : OutCanon all (execFtWr r a n s) := by
  have hold : MCanon all (do
      setXM r ((s.core.ft[n.toNat]'(n.isLt)).setWidth 64)
      advanceM) := (setXM_canon ..).bind fun _ => advanceM_canon
  refine h.deliver <| .cond (.when (.raises _) <| (MCanon.update fun _ h => ?_).bind fun _ => hold) hold
  exact .of (h.setCtx _).dev ⟨h.core.spad⟩

theorem Canon.execPkWr (h : Canon all s) (r a b : BitVec 5) : OutCanon all (execPkWr r a b s) := by
  refine h.deliver ?_
  split
  · next hb =>
    have hold : MCanon all (do
        setXM r ((s.core.pk[(s.x b).toNat]'hb).setWidth 64)
        advanceM) := (setXM_canon ..).bind fun _ => advanceM_canon
    refine .cond (.when (.raises _) <| (MCanon.update fun _ h => ?_).bind fun _ => hold) hold
    exact .of (h.setCtx _).dev ⟨h.core.spad⟩
  · exact .raises _

end
end Sys2Proof.Machine

/-! SUPPORT. Vector instructions, deferred entries and queues keep the canonical form of memory. -/

namespace Sys2Proof.Machine

section
variable {all : Bool} {s t : State} {d : Dev} {c : Core} {α β : Type} {m : M α}

/-! ### Computations that a stop ends -/

theorem MCanon.trapsThen (x : BitVec 8) (i : BitVec 32) (a : Word) (f : BitVec 8) (k : α → M β) :
    MCanon all (stop (.trap x i a f) >>= k) := ⟨fun _ _ => trivial⟩

theorem MCanon.faultsThen (kind : BitVec 8) (va : Word) (f : Flt) (k : α → M β) : MCanon all (faultAt kind va f >>= k) :=
  ⟨fun _ _ => trivial⟩

/-! ### Compares, conversions, tags (file 07) -/

theorem issueCompare_canon (a b : BitVec 5) : MCanon all (issueCompare a b) :=
  .read fun _ _ => .either (.answer _) (.mapM readReg_canon _) fun _ =>
    .cond (.when (.raises _) (.when (.raises _) (.when (.raises _) (.answer _)))) (.when (.raises _) (.answer _))

theorem compareOp_canon (r : BitVec 3) (a b : BitVec 5) (test : Val → Val → Bool) : MCanon all (compareOp r a b test) :=
  (issueCompare_canon ..).bind fun _ => .read fun _ _ => .cond advanceM_canon <| (raiseFlags_canon _).bind fun _ =>
    (MCanon.updateSt _).bind fun _ => advanceM_canon

theorem issueConvert_canon (r a : BitVec 5) (f : BitVec 4) : MCanon all (issueConvert r a f) :=
  .read fun _ _ => .either (.answer _) (readReg_canon _) fun _ => .either (.answer _) (claimReg_canon _) fun _ =>
    (widthAndClass_canon ..).bind fun _ => .when (.raises _) (.answer _)

theorem Canon.execVcvt (h : Canon all s) (r a : BitVec 5) (x : BitVec 1) (f : BitVec 4) : OutCanon all (execVcvt r a x f s) :=
  h.deliver <| (issueConvert_canon ..).bind fun _ => .read fun _ _ => .cond advanceM_canon (commitV_canon ..)

theorem Canon.execVquant (h : Canon all s) (r a : BitVec 5) (x : BitVec 1) (f : BitVec 4) : OutCanon all (execVquant r a x f s) :=
  h.deliver <| (issueConvert_canon ..).bind fun _ => .read fun _ _ => .cond advanceM_canon (commitV_canon ..)

theorem Canon.execVamax (h : Canon all s) (r a : BitVec 5) (x : BitVec 1) : OutCanon all (execVamax r a x s) := by
  refine h.deliver <| .read fun s _ => ?_
  have hk (v : Word) : MCanon all (do
      setXM r v
      advanceM) := (setXM_canon ..).bind fun _ => advanceM_canon
  exact .cond ((MCanon.answer _).bind fun _ => hk _) <| (readReg_canon _).bind fun _ => .when (.raises _) <| .when (.raises _) <|
    (MCanon.answer _).bind fun _ => hk _

theorem Canon.execVtagr (h : Canon all s) (r a : BitVec 5) (x : BitVec 1) (b : BitVec 5) : OutCanon all (execVtagr r a x b s) :=
  h.deliver <| (readReg_canon _).bind fun _ => (setXM_canon ..).bind fun _ => advanceM_canon

theorem Canon.execVtagw (h : Canon all s) (r a b : BitVec 5) : OutCanon all (execVtagw r a b s) :=
  h.deliver <| .cond advanceM_canon <| (claimReg_canon _).bind fun _ => .when (.raises _) <| .when (.raises _) <|
    (MCanon.update fun _ h => h.putReg _ _).bind fun _ => advanceM_canon

theorem Canon.execVscl (h : Canon all s) (r a : BitVec 5) (x : BitVec 1) (b : BitVec 5) : OutCanon all (execVscl r a x b s) :=
  h.deliver <| .cond advanceM_canon <| (readReg_canon _).bind fun _ => (claimReg_canon _).bind fun _ => .read fun _ _ => .when (.raises _) <|
    (raiseFlags_canon _).bind fun _ => (MCanon.update fun _ h => h.putReg _ _).bind fun _ => advanceM_canon

theorem Canon.execPfx (h : Canon all s) (c : BitVec 5) (v z : BitVec 1) (r : BitVec 3) (p : BitVec 1) (o : BitVec 3) :
    OutCanon all (execPfx c v z r p o s) := by
  refine h.deliver <| (fetchAt_canon ..).bind fun _ => ?_
  split
  · exact .raises _
  · exact .when (.raises _) (.updateSt _)

/-! ### Code moves, reductions and scans (file 08) -/

theorem commitMoved_canon (r : BitVec 5) (fi : BitVec 4) (old : VReg) (pick : Nat → Option Moved) (sideOf : Nat → List Moved → MovedSeg) :
    MCanon all (commitMoved r fi old pick sideOf) :=
  .read fun _ _ => .when (.raises _) <| .when (.raises _) <| (MCanon.update fun _ h => h.putReg _ _).bind fun _ => advanceM_canon

theorem issueMove_canon (r : BitVec 5) (srcs : List (BitVec 5)) : MCanon all (issueMove r srcs) :=
  .read fun _ _ => .either (.answer _) (.mapM readReg_canon _) fun _ => .either (.answer _) (claimReg_canon _) fun _ =>
    .when (.raises _) (.when (.raises _) (.answer _))

theorem moveOp_canon (r : BitVec 5) (srcs : List (BitVec 5)) (pick : Strand → Nat → List VReg → Nat → Option Moved) :
    MCanon all (moveOp r srcs pick) :=
  (issueMove_canon ..).bind fun _ => .read fun _ _ => .cond advanceM_canon (commitMoved_canon ..)

theorem issuePerm_canon (r a b : BitVec 5) : MCanon all (issuePerm r a b) :=
  .read fun _ _ => .either (.answer _) (readReg_canon _) fun _ => .either (.answer _) (readReg_canon _) fun _ =>
    .either (.answer _) (claimReg_canon _) fun _ => .read fun _ _ => .when (.raises _) (.when (.raises _) (.when (.raises _) (.answer _)))

theorem Canon.execVperm (h : Canon all s) (r a : BitVec 5) (x : BitVec 1) (b : BitVec 5) : OutCanon all (execVperm r a x b s) :=
  h.deliver <| (issuePerm_canon ..).bind fun _ => .read fun _ _ => .cond advanceM_canon (commitMoved_canon ..)

theorem Canon.execVext (h : Canon all s) (r a : BitVec 5) (x : BitVec 1) (b : BitVec 5) : OutCanon all (execVext r a x b s) := by
  refine h.deliver ?_
  have hk (v : Word) : MCanon all (do
      setXM r v
      advanceM) := (setXM_canon ..).bind fun _ => advanceM_canon
  exact .cond ((MCanon.answer _).bind fun _ => hk _) <| (readReg_canon _).bind fun _ => .read fun _ _ => .when (.raises _) <|
    (MCanon.answer _).bind fun _ => hk _

theorem Canon.execVins (h : Canon all s) (r a b : BitVec 5) : OutCanon all (execVins r a b s) :=
  h.deliver <| .cond advanceM_canon <| (claimReg_canon _).bind fun _ => .read fun _ _ => .when (.raises _) <|
    .when (.update fun _ h => h.putReg _ _) advanceM_canon

theorem Canon.execVlut3 (h : Canon all s) (r a : BitVec 5) (x : BitVec 1) (b : BitVec 5) (y : BitVec 1) (k : BitVec 8) :
    OutCanon all (execVlut3 r a x b y k s) :=
  h.deliver <| (issueMove_canon ..).bind fun _ => .read fun _ _ => .cond advanceM_canon (commitMoved_canon ..)

theorem Canon.maskOp (h : Canon all s) (r : BitVec 3) (bits : Nat → Bool) : OutCanon all (s.maskOp r bits) :=
  .of (Canon.advance (.of h.dev h.core))

theorem issueRed_canon (r a : BitVec 5) (o : Nat) (merging : Bool) : MCanon all (issueRed r a o merging) := by
  refine .read fun _ _ => .either (.answer _) (readReg_canon _) fun _ => .either (.answer _) (claimReg_canon _) fun _ => ?_
  refine .cond ((widthAndClass_canon ..).bind fun _ => .when (.raises _) (.answer _)) (.cond (.when (.raises _) (.when (.raises _) ?_)) ?_)
  · exact .when (.raises _) (.answer _)
  · exact .when (.raises _) (.answer _)

theorem Canon.execVred (h : Canon all s) (r a : BitVec 5) (x : BitVec 1) (o : BitVec 4) : OutCanon all (execVred r a x o s) :=
  h.deliver <| (issueRed_canon ..).bind fun _ => .read fun _ _ => .cond advanceM_canon (commitV_canon ..)

theorem Canon.execVscan (h : Canon all s) (r a : BitVec 5) (x : BitVec 1) (o : BitVec 4) : OutCanon all (execVscan r a x o s) :=
  h.deliver <| (issueRed_canon ..).bind fun _ => .read fun _ _ => .cond advanceM_canon (commitV_canon ..)

/-! ### Deferred entries and queues (R160 to R167, R194 to R196) -/

theorem Canon.dfrAdd (h : Canon all s) (p : BitVec 8) (fmts : List (BitVec 4)) (new : List DfrEntry) : Canon all (s.dfrAdd p fmts new) :=
  .of h.dev h.core

theorem Canon.execDfrPush (h : Canon all s) (p : BitVec 8) (v : BitVec 5) (n : BitVec 2) (r : BitVec 3) : OutCanon all (execDfrPush p v n r s) :=
  h.deliver <| .cond advanceM_canon <| (MCanon.mapM readReg_canon _).bind fun _ => .read fun _ _ => .when (.raises _) <| .when (.raises _) <|
    .when (.traps ..) <| (MCanon.update fun _ h => h.dfrAdd _ _ _).bind fun _ => advanceM_canon

theorem Canon.dfrPut (h : Canon all s) (p : BitVec 8) (v : BitVec 5) (names : List (BitVec 5)) (ix : VReg) (olds : List VReg)
    (got : List DfrEntry) : Canon all (s.dfrPut p v names ix olds got) :=
  (h.putReg _ _).foldl (fun _ _ h => h.putReg _ _) _

theorem Canon.dfrTake (h : Canon all s) (p : BitVec 8) (r : BitVec 3) (k : Nat) : Canon all (s.dfrTake p r k) := .of h.dev h.core

theorem Canon.execDfrPop (h : Canon all s) (p : BitVec 8) (v : BitVec 5) (n : BitVec 2) (r : BitVec 3) : OutCanon all (execDfrPop p v n r s) :=
  h.deliver <| .cond advanceM_canon <| (claimReg_canon _).bind fun _ => (MCanon.mapM claimReg_canon _).bind fun _ => .read fun _ _ =>
    .when (.raises _) <| .when (.raises _) <| .when (.raises _) <| (raiseFlags_canon _).bind fun _ =>
    (MCanon.update fun _ h => (h.dfrPut ..).dfrTake _ _ _).bind fun _ => advanceM_canon

theorem Canon.setQueue (h : Canon all s) (q : BitVec 3) (x : TQueue) : Canon all (s.setQueue q x) := .of h.dev ⟨h.core.spad⟩

theorem bindQueue_canon (q : BitVec 3) (push : Bool) : MCanon all (bindQueue q push) := by
  refine .read fun s _ => ?_
  dsimp only
  split
  · exact .cond (.traps ..) (.answer _)
  · exact .answer _

theorem claimQueue_canon (q : BitVec 3) (n : Nat) : MCanon all (claimQueue q n) :=
  (bindQueue_canon ..).bind fun _ => .read fun _ _ => .cond (.either (.traps ..) .waits fun _ => .answer _) (.answer _)

theorem pushQueue_canon (q : BitVec 3) (new : List QSlot) : MCanon all (pushQueue q new) :=
  (claimQueue_canon ..).bind fun _ => .update fun _ h => h.setQueue _ _

theorem headQueue_canon (q : BitVec 3) (g : Nat) : MCanon all (headQueue q g) :=
  (bindQueue_canon ..).bind fun _ => .read fun _ _ => .cond (.either (.traps ..) .waits fun _ => .answer _) (.answer _)

theorem Canon.execQpop (h : Canon all s) (r : BitVec 5) (q : BitVec 3) : OutCanon all (execQpop r q s) := by
  refine h.deliver <| .cond advanceM_canon <| (claimReg_canon _).bind fun old => .read fun s _ => .when (.raises _) <|
    (headQueue_canon ..).bind fun x => ?_
  dsimp only
  split
  · exact .faultsThen ..
  · split
    · exact .trapsThen ..
    · split
      · exact .trapsThen ..
      · exact (raiseFlags_canon _).bind fun _ => (MCanon.update fun _ h => (h.setQueue _ _).putReg _ _).bind fun _ =>
          (MCanon.updateSt _).bind fun _ => advanceM_canon

theorem Canon.execQpush (h : Canon all s) (v : BitVec 5) (q : BitVec 3) : OutCanon all (execQpush v q s) :=
  h.deliver <| .cond advanceM_canon <| (readReg_canon _).bind fun _ => .read fun _ _ => .when (.raises _) <|
    (pushQueue_canon ..).bind fun _ => advanceM_canon

end
end Sys2Proof.Machine

/-! SUPPORT. Gangs and the resident level keep the canonical form of memory. -/

namespace Sys2Proof.Machine

section
variable {all : Bool} {s t : State} {d : Dev} {c : Core} {α β : Type} {m : M α}

/-! ### Gangs start and end (R190, R296 to R298, R320) -/

theorem CoreCanon.passUnits (h : CoreCanon all c) (inherit : Bool) : CoreCanon all (c.passUnits inherit) := by
  unfold Core.passUnits
  split
  · exact ⟨h.spad⟩
  · exact ⟨h.spad⟩

theorem CoreCanon.noGang (h : CoreCanon all c) : CoreCanon all c.noGang := ⟨h.spad⟩

theorem Canon.execGangEnd (h : Canon all s) : OutCanon all (execGangEnd s) := by
  refine .of ?_
  split
  · exact h
  · split
    · exact h
    · refine Canon.reportEnd ?_ _ _ _
      refine (h.flushFar _ _).onCore fun d c hd hc => .of (hd.withdraw _ _) ?_
      exact ⟨(hc.passUnits _).noGang.spad⟩

theorem Memory.clearFrames_wf {m : Memory} (h : m.wf = true) : m.clearFrames.wf = true :=
  Memory.foldl_wf (fun _ _ h => Memory.setTag_wf _ _ _ (Memory.setLine_wf _ _ _ h)) _ h

theorem CoreCanon.startUnits (h : CoreCanon all c) (ctx : Nat) : CoreCanon all (c.startUnits ctx) := by
  simp only [Core.startUnits]
  split
  · exact ⟨h.spad⟩
  · split
    · exact ⟨(h.passUnits _).spad⟩
    · exact ⟨h.spad⟩

theorem CoreCanon.startGang (h : CoreCanon all c) (x : Ctx) (l : Launch) (w : WorkItem) (n : Nat) : CoreCanon all (c.startGang x l w n) :=
  ⟨fun hb => Memory.clearFrames_wf ((h.startUnits _).spad hb)⟩

theorem Canon.dropItem (h : Canon all s) : Canon all s.dropItem := by
  refine .of h.dev ⟨?_⟩
  dsimp only
  split
  · exact (h.core.passUnits _).spad
  · exact h.core.spad

theorem Canon.dropGang (h : Canon all s) (w : WorkItem) : Canon all (s.dropGang w) := .of (h.dropItem.dev.updLaunch _ _ _) h.dropItem.core

theorem Canon.execGangStart (h : Canon all s) : OutCanon all (execGangStart s) := by
  refine .of ?_
  split
  · exact h
  · split
    · exact h
    · split
      · exact h.dropItem
      · split
        · exact h.dropGang _
        · split
          · exact h.dropGang _
          · split
            · exact h
            · have hs (x : Ctx) (l : Launch) (w : WorkItem) := (h.ungated.fenceFar 3 true true).onCore
                (f := fun d c => ({ d with starts := d.starts + 1 }, c.startGang x l w d.starts)) fun d c hd hc =>
                .of ⟨hd.mem, hd.cores, hd.saved⟩ (hc.startGang _ _ _ _)
              dsimp only
              split
              · exact (hs _ _ _).reportLaunch _ _ _
              · exact hs _ _ _

/-! ### The resident level (R310, R314, R316 to R323) -/

theorem Canon.execEret (h : Canon all s) : OutCanon all (execEret s) :=
  h.deliver <| onlyResident_canon.bind fun _ => .update fun _ h => h.residentExit

theorem Canon.execWfi (h : Canon all s) : OutCanon all (execWfi s) := h.deliver <| onlyResident_canon.bind fun _ => .when .waits advanceM_canon

theorem DevCanon.discard (h : DevCanon all d) (hit : Xlat → Bool) : DevCanon all (d.discard hit) := ⟨h.mem, h.cores, h.saved⟩

theorem Canon.discard (h : Canon all s) (hit : Xlat → Bool) (wait : Bool) : Canon all (s.discard hit wait) := by
  have h' : Canon all { s with dev := s.dev.discard hit } := .of (h.dev.discard hit) h.core
  unfold State.discard
  extract_lets u t park src
  split
  · have ht : Canon all t := by
      refine h'.onAllCores fun d c hd hc => .of hd ?_
      exact ⟨hc.spad⟩
    clear_value t
    exact .of ⟨ht.dev.mem, ht.dev.cores, ht.dev.mapSaved fun g hg => ⟨hg.spad⟩⟩ ht.core
  · exact h'

theorem Canon.execTlbi (h : Canon all s) (a b : BitVec 5) : OutCanon all (execTlbi a b s) := by
  have ht := (h.fenceFar 3 false true).discard (s.tlbiHits (s.x a) (s.x b)) ((s.x b).getLsbD 2)
  unfold Machine.execTlbi
  split
  · exact h.deliver onlyResident_canon
  · dsimp only
    split
    · exact .of h.await
    · split
      · exact .of ht.await
      · exact .of ht.advance

theorem CoreCanon.raise (h : CoreCanon all c) (bit : Nat) : CoreCanon all (c.raise bit) := ⟨h.spad⟩

theorem Canon.execFaultRecordWrite (h : Canon all s) (part : Nat) : OutCanon all (execFaultRecordWrite part s) := by
  refine .of ?_
  split
  · exact h
  · split
    · exact h
    · dsimp only
      split
      · exact h
      · refine Canon.updCoreAt ?_ _ fun _ hc => hc.raise 0
        exact .of ((h.dev.putRecord _ _ _).updPart _ _) h.core

/-- What keeps the memories canonical keeps them so with a strand of another core, or of a saved gang, acting. -/
theorem Canon.inCore (h : Canon all s) (n k : Nat) {f : State → State} (hf : ∀ s, Canon all s → Canon all (f s)) : Canon all (s.inCore n k f) := by
  unfold State.inCore
  extract_lets home slot
  split
  · exact (hf _ (h.focus _ _)).focus _ _
  · split
    · exact h
    · next g e =>
      have hg := h.dev.saved g (List.mem_of_find?_eq_some e)
      extract_lets u v body
      have hu : Canon all u := by
        refine hf _ (Canon.focus ?_ _ _)
        exact .of ⟨h.dev.mem, putCore_canon hg _ h.dev.cores, h.dev.saved⟩ h.core
      have hv : Canon all v := hu.focus _ _
      clear_value v
      refine .of ⟨hv.dev.mem, fun c hc => hv.dev.cores c (List.mem_filter.mp hc).1, hv.dev.mapSaved fun x hx => ?_⟩ hv.core
      split
      · unfold body
        cases e : v.dev.cores.find? (·.num == n) with
        | none => exact hx
        | some b => exact hv.dev.cores b (List.mem_of_find?_eq_some e)
      · exact hx

theorem CoreCanon.trapParked (h : CoreCanon all c) (info : BitVec 32) (addr : Word) : CoreCanon all (c.trapParked info addr) := by
  unfold Core.trapParked
  split
  · exact h
  · next g _ =>
    have h' : CoreCanon all { c with
        spad := c.spad.putRecord (frameOff 0) 5 (frameWords c.epc 0 tFAULT_DELIVERED info addr (g.trapSeq + 1))
        gang := some { g with trapSeq := g.trapSeq + 1 }, parkedCc := none } := ⟨fun hb => Memory.putRecord_wf _ _ _ _ (h.spad hb)⟩
    dsimp only
    split
    · exact h'.terminate _ _
    · exact ⟨h'.spad⟩

theorem Canon.abandonCopy (h : Canon all s) (id : Nat) : Canon all (s.abandonCopy id) := by
  unfold State.abandonCopy
  split
  · exact h
  · next k _ =>
    have h' := (h.foldl (f := fun s ln => s.markWatch k ln) (fun _ _ hs => hs.markWatch _ _) k.lines).updBatch
      (fun b => b.who == k.who && b.num == k.batch) fun b => { b with status := b.status ||| 4 }
    exact .of h'.dev ⟨h'.core.spad⟩

theorem Canon.abandonNest (h : Canon all s) : Canon all s.abandonNest := by
  unfold State.abandonNest
  split
  · exact h
  · extract_lets no s₁ _ _ s₂
    have h₁ : Canon all s₁ := h.updBatch _ _
    have h₂ : Canon all s₂ := .of h₁.dev ⟨h₁.core.spad⟩
    split
    · exact h₂.closeNest _
    · exact h₂

theorem Canon.resume (h : Canon all s) (x : Handle) : Canon all (s.resume x) := by
  unfold State.resume
  split
  · refine Canon.updCoreAt (h.inCore _ _ fun t ht => ?_) _ fun c hc => ?_
    · split
      · exact .of ht.dev ht.core
      · exact ht
    · split
      · exact ⟨hc.spad⟩
      · exact hc
  · exact h.inCore _ _ fun t ht => ht.updCopy _ _
  · refine h.inCore _ _ fun t ht => ?_
    exact .of ht.dev ⟨ht.core.spad⟩
  · exact h.updCoreAt _ fun c hc => ⟨hc.spad⟩
  · exact .of ⟨h.dev.mem, h.dev.cores, h.dev.saved⟩ h.core
  · exact .of ⟨h.dev.mem, h.dev.cores, h.dev.saved⟩ h.core

theorem Canon.handBack (h : Canon all s) (x : Handle) : Canon all (s.handBack x) := by
  unfold State.handBack
  split
  · dsimp only
    split
    · exact h.inCore _ _ fun t ht => ht.onCore fun d c hd hc => .of hd (hc.trapParked _ _)
    · refine h.inCore _ _ fun t ht => ?_
      split
      · exact ht.takeTrap _ _ _ _
      · exact ht
  · exact h.inCore _ _ fun t ht => ht.abandonCopy _
  · exact h.inCore _ _ fun t ht => ht.abandonNest
  · exact h.updCoreAt _ fun c hc => ⟨hc.spad⟩
  · exact h.resume x
  · exact h.resume x

theorem Canon.answer (h : Canon all s) (x : Handle) (act : Nat) : Canon all (s.answer x act) := by
  unfold State.answer
  extract_lets _ t
  have ht : Canon all t := .of ⟨h.dev.mem, h.dev.cores, h.dev.saved⟩ h.core
  clear_value t
  split
  · exact ht.resume x
  · exact ht.handBack x
  · refine Canon.terminateCtx ?_ _
    split
    · exact ht.resume x
    · exact ht

theorem Canon.execRpl (h : Canon all s) (r a b : BitVec 5) : OutCanon all (execRpl r a b s) := by
  refine h.deliver <| onlyResident_canon.bind fun _ => ?_
  dsimp only
  split
  · exact (setXM_canon ..).bind fun _ => advanceM_canon
  · exact (MCanon.update fun _ h => h.answer _ _).bind fun _ => (setXM_canon ..).bind fun _ => advanceM_canon

theorem Canon.execMigDirty (h : Canon all s) (r a b : BitVec 5) : OutCanon all (execMigDirty r a b s) := by
  refine h.deliver <| onlyResident_canon.bind fun _ => .when (.update fun t ht => ?_) <| (setXM_canon ..).bind fun _ => advanceM_canon
  refine .of (ht.dev.foldl (fun d i hd => ?_) _) ht.core
  split
  · exact hd.rmSet _ _ _ _
  · exact hd

theorem Canon.setPart (h : Canon all s) (f : Part → Part) : Canon all (s.setPart f) := .of (h.dev.updPart _ _) h.core

theorem Canon.setSel (h : Canon all s) (f : Ctx → Ctx) : Canon all (s.setSel f) := .of (h.dev.updCtx _ _) h.core

theorem Canon.clearPending (h : Canon all s) (v : Word) : Canon all (s.clearPending v) := .of h.dev ⟨h.core.spad⟩

theorem Canon.writeRoot (h : Canon all s) (v : Word) : Canon all (s.writeRoot v) := by
  simp only [State.writeRoot]
  split
  · exact h
  · split
    · split
      · exact h.terminateCtx _
      · exact h
    · split
      · exact .of (h.dev.updCtx _ _) h.core
      · exact .of ⟨h.dev.mem, h.dev.cores, h.dev.saved⟩ h.core

theorem Canon.ring (h : Canon all s) (v : Word) : Canon all (s.ring v) := h.updCoreAt _ fun _ hc => hc.raise 3

theorem Memory.lose_wf {m : Memory} (h : m.wf = true) (rs : List (Nat × Nat)) (n : Nat) : (m.lose rs n).1.wf = true :=
  Memory.foldl_wf (fun _ _ h => Memory.setLine_wf _ _ _ h) _ h

theorem Canon.resizeStage (h : Canon all s) (v : Word) : Canon all (s.resizeStage v) :=
  .of ⟨Memory.lose_wf h.dev.mem _ _, h.dev.cores, h.dev.saved⟩ h.core

theorem Canon.setTop (h : Canon all s) (pool : Nat) (v : Word) : Canon all (s.setTop pool v) := .of ⟨h.dev.mem, h.dev.cores, h.dev.saved⟩ h.core

theorem CoreCanon.checkHeat (h : CoreCanon all c) : CoreCanon all c.checkHeat := by
  unfold Core.checkHeat
  split
  · exact h.raise 2
  · exact h

theorem Canon.enterPower (h : Canon all s) : Canon all s.enterPower := by
  simp only [State.enterPower]
  split
  · exact h
  · split
    · exact .of h.dev ⟨h.core.spad⟩
    · have hf (t : State) (ht : Canon all t) := ht.flushFar (fun _ => true) true
      split
      · have h' := hf _ (h.onCore (f := fun d c => convertLazy d c fun _ => true) fun d c hd hc => convertLazy_canon hd hc _ _)
        exact .of h'.dev ⟨h'.core.spad⟩
      · exact .of (hf s h).dev ⟨(hf s h).core.spad⟩

theorem Canon.requestPower (h : Canon all s) (v : BitVec 2) : Canon all (s.requestPower v) := by
  refine Canon.enterPower ?_
  split
  · exact .of h.dev ⟨h.core.spad⟩
  · exact h

theorem Canon.writeRes (h : Canon all s) (num : BitVec 12) (v : Word) : Canon all (s.writeRes num v) := by
  have hd {d : Dev} (hm : d.mem = s.dev.mem := by rfl) (hc : d.cores = s.dev.cores := by rfl) (hg : d.saved = s.dev.saved := by rfl) :
      Canon all { s with dev := d } := .of ⟨hm ▸ h.dev.mem, hc ▸ h.dev.cores, hg ▸ h.dev.saved⟩ h.core
  have hc {c : Core} (hm : c.spad = s.core.spad := by rfl) : Canon all { s with core := c } := .of h.dev ⟨hm ▸ h.core.spad⟩
  unfold State.writeRes
  split
  · exact hc
  · exact hc
  · exact hc
  · exact h.clearPending v
  · exact hc
  · exact h.writeRoot v
  · exact hc
  · exact hc
  · exact h.setPart _
  · exact h.setPart _
  · exact h.setPart _
  · exact h.setSel _
  · exact h.setSel _
  · exact h.setSel _
  · exact h.setPart _
  · exact h.ring v
  · exact hd
  · exact .of h.dev (CoreCanon.checkHeat ⟨h.core.spad⟩)
  · exact hd
  · exact h.resizeStage v
  · exact h.setPart _
  · exact hd
  · exact hd
  · exact h.setPart _
  · exact h.requestPower _
  · split
    · exact hd
    · exact hd
    · exact h.setTop _ _
    · exact hd
    · exact h

theorem Canon.execSysrp (h : Canon all s) (r : BitVec 5) (n : BitVec 12) : OutCanon all (execSysrp r n s) :=
  h.deliver <| onlyResident_canon.bind fun _ => (setXM_canon ..).bind fun _ => advanceM_canon

theorem Canon.execSyswp (h : Canon all s) (a : BitVec 5) (n : BitVec 12) : OutCanon all (execSyswp a n s) :=
  h.deliver <| onlyResident_canon.bind fun _ => (MCanon.update fun _ h => h.writeRes _ _).bind fun _ => advanceM_canon

theorem Canon.writeNumbered (h : Canon all s) (num : BitVec 12) (v : Word) : Canon all (s.writeNumbered num v) := by
  unfold State.writeNumbered
  split
  · exact h.writeSr_getD _ _
  · exact h.writeRes _ _

theorem Canon.execThermal (h : Canon all s) (temp : BitVec 16) : OutCanon all (execThermal temp s) :=
  .of (.of h.dev (CoreCanon.checkHeat ⟨h.core.spad⟩))

end
end Sys2Proof.Machine

/-! SUPPORT. Saving and restoring a gang keep the canonical form of memory; what a container holds is read into that form. -/

namespace Sys2Proof.Machine

section
variable {all : Bool} {s t : State} {d : Dev} {c : Core} {α β : Type} {m : M α}

/-! ### Saved gangs (R187, R273, R274, R325 to R330) -/

theorem goOn_canon (h : Canon all s) {o : Out} (ho : OutCanon all o) : Canon all (goOn s o) := by
  unfold goOn
  split
  · exact ho.next _ rfl
  · exact h

theorem Canon.drainTile (h : Canon all s) (hart : BitVec 3) (tile : BitVec 2) (n : Nat) : Canon all (s.drainTile hart tile n) := by
  induction n generalizing s with
  | zero => exact h
  | succ n ih => exact ih (goOn_canon h (h.execMatrixRetire _ _))

theorem Canon.drainTiles (h : Canon all s) : Canon all s.drainTiles :=
  h.foldl (fun _ _ hs => hs.foldl (fun _ _ hs => hs.drainTile _ _ _) _) _

theorem Canon.stopGang (h : Canon all s) : Canon all s.stopGang := by
  unfold State.stopGang
  extract_lets s₁ rels s₂ s₃ s₄
  have h₁ : Canon all s₁ := h.residentExit.drainTiles
  have h₂ : Canon all s₂ := h₁.mapStrands _
  have h₃ : Canon all s₃ := h₂.onCore fun d c hd hc => convertLazy_canon (hd.withdraw _ _) hc _ _
  have h₄ : Canon all s₄ := h₃.onCore fun d c hd hc =>
    pairFoldl_canon (fun _ e hp => convertEntry_canon hp.1 hp.2 e _) _ (.of hd hc)
  exact h₄.flushFar _ _

theorem DevCanon.putFree (h : DevCanon all d) (dpa seed n : Nat) : DevCanon all (d.putFree dpa seed n) := by
  induction n generalizing d dpa with
  | zero => exact h
  | succ n ih => exact ih (h.putRaw _ _ _) _

theorem DevCanon.putContainer (h : DevCanon all d) (at_ header : Nat) (fields : List (Nat × Nat × Nat × Nat)) (seed : Nat) :
    DevCanon all (d.putContainer at_ header fields seed) :=
  ((h.putRecord _ _ _).foldl (fun _ _ h => h.putRecord _ _ _) _).foldl (fun _ _ h => h.putFree _ _ _) _

theorem DevCanon.moveParties (h : DevCanon all d) (ctx a b : Nat) : DevCanon all (d.moveParties ctx a b) := ⟨h.mem, h.cores, h.saved⟩

theorem Canon.leaveGang (h : Canon all s) : Canon all s.leaveGang := by
  refine h.onCore fun d c hd hc => .of hd ?_
  exact ⟨(hc.passUnits _).spad⟩

/-- The core as its container holds it. -/
theorem CoreCanon.inContainer (h : CoreCanon all c) (n : Nat) (evs : List Ev) :
    CoreCanon all { c with num := n, evHeld := evs, engWrites := [] } := ⟨h.spad⟩

/-- The core at the resident level where it was before a save. -/
theorem CoreCanon.atResident (h : CoreCanon all c) (epc estat : Word) :
    CoreCanon all { c with resident := true, epc := epc, estat := estat } := ⟨h.spad⟩

theorem DevCanon.addSaved (h : DevCanon all d) {g : SavedGang} (hg : CoreCanon all g.body) (p : SavedGang → Bool) :
    DevCanon all { d with saved := g :: d.saved.filter p } :=
  ⟨h.mem, h.cores, List.forall_mem_cons.mpr ⟨hg, fun x hx => h.saved x (List.mem_filter.mp hx).1⟩⟩

theorem Canon.execCtxSave (h : Canon all s) (r a b : BitVec 5) : OutCanon all (execCtxSave r a b s) := by
  refine h.deliver <| onlyResident_canon.bind fun _ => .cond ((setXM_canon ..).bind fun _ => advanceM_canon) ?_
  split
  · exact (setXM_canon ..).bind fun _ => advanceM_canon
  · next g _ =>
    refine .when .waits <| (MCanon.write ?_).bind fun _ => (setXM_canon ..).bind fun _ => advanceM_canon
    have hu := h.stopGang.takeFree
    have hb := h.stopGang.wholeCore.inContainer g.key (s.stopGang.core.evHeld.filter fun e => !e.outer)
    refine Canon.leaveGang (.of ?_ (hu.core.atResident _ _))
    have hd (x : SavedGang) (hx : CoreCanon all x.body) (at_ hdr fields seed) (p : SavedGang → Bool) :=
      ((hu.dev.putContainer at_ hdr fields seed).moveParties g.ctx s.core.num g.key).addSaved hx p
    dsimp only
    split
    · exact (hd _ hb ..).updLaunch _ _ _
    · exact hd _ hb ..

theorem DevCanon.savedOf (h : DevCanon all d) {at_ : Nat} {x : BitVec 512} {g : SavedGang} (e : d.savedOf at_ x = some g) : CoreCanon all g.body := by
  unfold Dev.savedOf at e
  dsimp only at e
  split at e
  · next e' => exact Option.some.inj e ▸ h.saved _ (List.mem_of_find?_eq_some e')
  · exact h.saved _ (List.mem_of_find?_eq_some e)

theorem CoreCanon.defaults (h : CoreCanon all c) (p : Nat → Bool) : CoreCanon all (c.defaults p) := by
  unfold Core.defaults
  extract_lets c₁ c₂ c₃ c₄ c₅ c₆
  have h₁ : CoreCanon all c₁ := .cond h ⟨h.spad⟩
  have h₂ : CoreCanon all c₂ := .cond h₁ ⟨h₁.spad⟩
  have h₃ : CoreCanon all c₃ := .cond h₂ (by
    split
    · exact ⟨h₂.spad⟩
    · exact h₂)
  have h₄ : CoreCanon all c₄ := .cond h₃ ⟨h₃.spad⟩
  have h₅ : CoreCanon all c₅ := .cond h₄ ⟨h₄.spad⟩
  have h₆ : CoreCanon all c₆ := .cond h₅ ⟨h₅.spad⟩
  exact .cond h₆ ⟨h₆.spad⟩

theorem Memory.canon_wf (m : Memory) : m.canon.wf = true :=
  Memory.foldl_wf (fun _ _ h => Memory.setTag_wf _ _ _ h) _ (Memory.foldl_wf (fun _ _ h => Memory.setByte_wf _ _ _ h) _ rfl)

theorem Core.shaped_canon (b : Core) (d : Dev) (x : BitVec 512) (half : Bool) (n : Nat) : CoreCanon all (b.shaped d x half n) :=
  ⟨fun _ => Memory.canon_wf _⟩

theorem Canon.container (h : Canon all s) (at_ : Nat) : CoreCanon all (s.container at_).body := by
  simp only [State.container]
  split
  · next e =>
    split
    · exact h.dev.savedOf e
    · exact Core.shaped_canon ..
  · exact Core.shaped_canon ..

theorem DevCanon.rehold (h : DevCanon all d) (core clasp : Nat) : DevCanon all (d.rehold core clasp) := h.claspPut _ _

theorem rebindEntry_canon (h : DevCanon all d) (core : Nat) (e : LazyEntry) : DevCanon all (rebindEntry d core e).1 := by
  unfold rebindEntry
  split
  · exact h
  · exact (h.rehold _ _).setClasp _

/-- A fold over a device and something else keeps the device's memories canonical where its steps do. -/
theorem DevCanon.foldlFst {σ : Type} {f : Dev × σ → α → Dev × σ} (hf : ∀ p x, DevCanon all p.1 → DevCanon all (f p x).1) (l : List α)
    {p : Dev × σ} (h : DevCanon all p.1) : DevCanon all (l.foldl f p).1 := by
  induction l generalizing p with
  | nil => exact h
  | cons x r ih => exact ih (hf p x h)

theorem rebindClasps_canon (hd : DevCanon all d) (hc : CoreCanon all c) : PairCanon all (rebindClasps d c) := by
  refine .of (DevCanon.foldlFst (fun p e h => ?_) c.lazy ?_) ⟨hc.spad⟩
  · exact rebindEntry_canon h c.num e
  · exact hd.foldl (fun _ _ h => h.rehold _ _) _

theorem CoreCanon.install {b : Core} (h : CoreCanon all b) (c : Core) : CoreCanon all (c.install b) := ⟨h.spad⟩

theorem DevCanon.markOut (h : DevCanon all d) (g : SavedGang) (n : Nat) : DevCanon all (d.markOut g n) := by
  refine ⟨h.mem, h.cores, h.mapSaved fun x hx => ?_⟩
  split
  · exact hx
  · exact hx

theorem Canon.restore (h : Canon all s) {g : SavedGang} (hg : CoreCanon all g.body) (p : Nat → Bool) : Canon all (s.restore g p) := by
  unfold State.restore
  refine Canon.onCore (h.fenceFar 3 true true) fun d c hd hc => ?_
  have hb : CoreCanon all { g.body.defaults p with gang := (g.body.defaults p).gang.map Gang.again } := ⟨(hg.defaults p).spad⟩
  refine rebindClasps_canon ?_ (hb.install c)
  split
  · exact (hd.markOut _ _).updLaunch _ _ _
  · exact hd.markOut _ _

theorem Canon.backToResident (h : Canon all s) (pc : Word) : Canon all (s.backToResident pc) := .of h.dev ⟨h.core.spad⟩

theorem Canon.execCtxLoad (h : Canon all s) (r a : BitVec 5) : OutCanon all (execCtxLoad r a s) := by
  refine h.deliver <| onlyResident_canon.bind fun _ => .when .waits ?_
  have hend : MCanon all (do
      setXM r (.ofNat 64 (s.loadStatus (s.x a).toNat))
      advanceM) := (setXM_canon ..).bind fun _ => advanceM_canon
  refine .cond (.when .waits <| (MCanon.update fun t ht => ?_).bind fun _ => hend) hend
  exact (ht.restore (h.container _) _).backToResident _

theorem Canon.execRequeueRestore (h : Canon all s) : OutCanon all (execRequeueRestore s) := by
  refine .of ?_
  split
  · exact h
  · split
    · exact h
    · split
      · exact h
      · split
        · exact h.dropGang _
        · next g e =>
          split
          · exact h
          · have h' := h.ungated.restore (h.dev.saved g (List.mem_of_find?_eq_some e)) fun _ => true
            exact .of (h'.dev.putRaw _ _ _) h'.core

end
end Sys2Proof.Machine

/-! SUPPORT. Pages and installs of the layers keep the canonical form of memory. -/

namespace Sys2Proof.Machine

section
variable {all : Bool} {s t : State} {d : Dev} {c : Core} {α β : Type} {m : M α}

/-! ### Layer work: pages, installs (R353 to R362) -/

theorem layerArg_canon (i : BitVec 32) (a : Word) : MCanon all (layerArg i a : M α) := .traps ..

theorem DevCanon.leafOf (h : DevCanon all d) {v : Via} {va : Word} {x : Xlat} {d' : Dev} (e : d.leafOf v va = .ok (x, d')) : DevCanon all d' := by
  obtain ⟨_, rfl⟩ := leafOf_frame _ _ _ _ _ e
  exact ⟨h.mem, h.cores, h.saved⟩

theorem pageAt_canon (v : Via) (n : Need) (i : BitVec 32) (va : Word) : MCanon all (pageAt v n i va) := by
  unfold pageAt
  refine .when (layerArg_canon ..) <| .read fun s h => .cond (.answer _) <| .when (faultAt_canon ..) <| .when .waits ?_
  split
  · exact faultAt_canon ..
  · next e =>
    dsimp only
    split
    · exact faultAt_canon ..
    · exact .when (layerArg_canon ..) <| (MCanon.write (.of (h.dev.leafOf e) h.core)).bind fun _ => .answer _

theorem Pg.look_canon (p : Pg) (kind : BitVec 8) (wait : Bool) : MCanon all (p.look kind wait) := by
  refine .read fun s _ => ?_
  split
  · exact faultAt_canon ..
  · exact .cond .waits (.answer _)

theorem pagesOver_canon (v : Via) (n : Need) {check : Pg → M Unit} (hc : ∀ p, MCanon all (check p)) (last k : Nat) (va : Word) :
    MCanon all (pagesOver v n check last k va) := by
  induction k generalizing va with
  | zero => exact .answer _
  | succ k ih =>
    unfold pagesOver
    exact .cond (.answer _) <| (pageAt_canon ..).bind fun _ => (hc _).bind fun _ => (ih _).bind fun _ => .answer _

theorem Canon.layerEvent (h : Canon all s) (kind : BitVec 8) (core ctx : Nat) (no utag : BitVec 32) (i1 i0 : Nat) (flags : BitVec 8) (status : Nat) :
    Canon all (s.layerEvent kind core ctx no utag i1 i0 flags status) := by
  unfold State.layerEvent
  split
  · exact h
  · exact h.updCoreAt _ fun _ hc => ⟨hc.spad⟩

theorem Canon.layerFault (h : Canon all s) (part ctx : Nat) (y : Party) (engine : BitVec 8) (pc : Word) (r : FaultRec) :
    Canon all (s.layerFault part ctx y engine pc r).1 := h.postFault _ _ _

theorem Canon.flushPage (h : Canon all s) (loc n : Nat) : Canon all (s.flushPage loc n) := by
  refine h.onAllCores fun d c hd hc => .of (hd.backAll _ _) ?_
  exact ⟨hc.spad⟩

theorem DevCanon.updStack (h : DevCanon all d) (k : Nat) (g : Flash → Flash) : DevCanon all (d.updStack k g) := by
  unfold Dev.updStack
  split
  · exact ⟨h.mem, h.cores, h.saved⟩
  · exact h

theorem DevCanon.takeBlock (h : DevCanon all d) {k p : Nat} {d' : Dev} (e : d.takeBlock k = some (p, d')) : DevCanon all d' := by
  unfold Dev.takeBlock at e
  obtain ⟨_, _, e⟩ := Option.map_eq_some_iff.mp e
  cases e
  exact h.updStack _ _

theorem DevCanon.reserve : ∀ (bs : List (Nat × Nat)) {d d' : Dev} {rs : List (Nat × Nat)}, DevCanon all d → d.reserve bs = some (rs, d') → DevCanon all d'
  | [], _, _, _, h, e => by
    cases e
    exact h
  | (_, _) :: r, _, _, _, h, e => by
    unfold Dev.reserve at e
    split at e
    · cases e
    · next e' =>
      obtain ⟨⟨_, _⟩, e'', e⟩ := Option.map_eq_some_iff.mp e
      cases e
      exact DevCanon.reserve r (h.takeBlock e') e''

theorem DevCanon.accept (h : DevCanon all d) {p : Nat} {dst src : Word} {nblk : Nat} {ents : List (BitVec 256)} {bs rs : List (Nat × Nat)} {d' : Dev}
    (e : d.accept p dst src nblk ents = .ok (bs, rs, d')) : DevCanon all d' := by
  unfold Dev.accept at e
  split at e
  · cases e
  · split at e
    · cases e
    · split at e
      · cases e
      · split at e
        · cases e
        · next e' =>
          cases e
          exact (DevCanon.reserve _ h e').updPart _ _

theorem Canon.installEvent (h : Canon all s) (i : Install) (code : BitVec 8) : Canon all (s.installEvent i code) := by
  unfold State.installEvent
  split
  · exact h.layerEvent ..
  · exact h

theorem Canon.parkInstall (h : Canon all s) (i : Install) (f : Install → Install) (r : FaultRec) : Canon all (s.parkInstall i f r) :=
  have h' := h.layerFault i.part i.ctx (.install i.no.toNat) 7 i.pc r
  .of ⟨h'.dev.mem, h'.dev.cores, h'.dev.saved⟩ h'.core

theorem winstEnd_canon (r : BitVec 5) (i : Install) : MCanon all (winstEnd r i) := by
  unfold winstEnd
  refine .when .waits <| (MCanon.update fun t ht => ?_).bind fun _ => (setXM_canon ..).bind fun _ => advanceM_canon
  exact .of ⟨ht.dev.mem, ht.dev.cores, ht.dev.saved⟩ ht.core

theorem acceptWrite_canon (acc : Bool) (v : Via) (i : Install) (code : BitVec 8) : MCanon all (acceptWrite acc v i code) := by
  refine ⟨fun t ht => ?_⟩
  have hm : MCanon all (recordWrite false v i.desc (installWord code 0 0 i.no)) := recordWrite_canon ..
  change ResCanon all (acceptWrite acc v i code t)
  unfold acceptWrite
  split
  · next e => exact hm.ok ht e
  · refine fun _ _ _ => Canon.await (Canon.parkInstall ?_ _ _ _)
    split
    · exact ht
    · exact .of ⟨ht.dev.mem, ht.dev.cores, ht.dev.saved⟩ ht.core
  · next e => exact hm.error ht e

theorem Canon.execWinst (h : Canon all s) (r a : BitVec 5) : OutCanon all (execWinst r a s) := by
  refine h.deliver <| .when (.traps ..) <| .when .waits ?_
  split
  · exact winstEnd_canon ..
  · refine (MCanon.update fun _ h => h.fenceFar _ _ _).bind fun _ => (translateAt_canon ..).bind fun _ => (pageLeaf_canon ..).bind fun _ =>
      (readRecord_canon ..).bind fun _ => .when (layerArg_canon ..) ?_
    refine (pagesOver_canon _ _ (fun p => .read fun _ _ => .cond (.answer _) (p.look_canon _ _)) _ _ _).bind fun _ =>
      (pagesOver_canon _ _ (fun p => p.look_canon _ _) _ _ _).bind fun _ =>
      (MCanon.forM (fun p => .cond (layerArg_canon ..) (.answer _)) _).bind fun _ =>
      (MCanon.forM (fun p => .cond (layerArg_canon ..) (.answer _)) _).bind fun _ => .read fun t ht =>
      (MCanon.update fun t ht => .of (ht.dev.updPart _ _) ht.core).bind fun _ => ?_
    dsimp only
    split
    · exact (acceptWrite_canon ..).bind fun _ => (MCanon.update fun _ h => h.installEvent _ _).bind fun _ => (setXM_canon ..).bind fun _ => advanceM_canon
    · next e =>
      have hd := (ht.dev.accept e).updPart s.layerPart fun q => { q with nextInstall := nextNumber q.nextInstall }
      refine (MCanon.write ?_).bind fun _ => (acceptWrite_canon ..).bind fun _ => (setXM_canon ..).bind fun _ => advanceM_canon
      exact .of ⟨hd.mem, hd.cores, hd.saved⟩ ht.core

theorem installLines_canon (v : Via) (xl : List Xlat) (src : Word) : ∀ n k, MCanon all (installLines v xl src k n)
  | 0, _ => .answer _
  | n + 1, _ =>
    (heldTr_canon ..).bind fun _ => .read fun _ _ => .when .waits <| (homeRead_canon ..).bind fun _ =>
      (installLines_canon v xl src n _).bind fun _ => .answer _

theorem DevCanon.program (h : DevCanon all d) (k p : Nat) (ls : List (Line × Tag)) : DevCanon all (d.program k p ls) :=
  ⟨Memory.foldl_wf (fun _ _ hm => Memory.setTag_wf _ _ _ (Memory.setLine_wf _ _ _ hm)) _ h.mem, h.cores, h.saved⟩

theorem DevCanon.updInstall (h : DevCanon all d) (n : Nat) (f : Install → Install) : DevCanon all (d.updInstall n f) := ⟨h.mem, h.cores, h.saved⟩

theorem DevCanon.failInstall (h : DevCanon all d) (n : Nat) (code : BitVec 8) : DevCanon all (d.failInstall n code) := by
  unfold Dev.failInstall
  split
  · exact h
  · exact (h.foldl (fun _ _ h => h.updStack _ _) _).updInstall _ _

theorem Canon.setDev (h : Canon all s) (hd : DevCanon all d) : Canon all { s with dev := d } := .of hd h.core

end
end Sys2Proof.Machine

/-! SUPPORT. The blocks and commits of installs keep the canonical form of memory. -/

namespace Sys2Proof.Machine

section
variable {all : Bool} {s t : State} {d : Dev} {c : Core} {α β : Type} {m : M α}

/-! ### Installs: blocks and commits (R358 to R361) -/

/-- One attempt at a block of an install, made by its engine. -/
def installAttempt (s : State) (i : Install) (index k b p : Nat) (ok : Bool) : M Unit := do
  let ls ← if i.lines.isEmpty then installLines (s.viaKey i.ctx) i.sxl (i.src + .ofNat 64 (16777216 * i.at_)) 0 131072 else pure i.lines
  let t ← get
  let d := t.dev.updStack k fun f => { f with wear := setD 0 p (f.wearOf p + 1) f.wear }
  let w := (d.stackOf k).wearOf p
  let d := d.updInstall index fun _ => { i with maxw := Nat.max i.maxw w, lines := ls }
  if ls.any (·.2.cls == cPOI) then set { t with dev := d.failInstall index 5 }
  else
    let d := d.program k p ls
    if ok then
      set { t with dev := d.updInstall index fun i =>
        { i with shadow := i.shadow ++ [((k, b), p)], at_ := i.at_ + 1, cur := none, tries := 0, lines := [] } }
    else
      let d := d.updStack k fun f => { f with retired := f.retired ++ [p] }
      let d := d.updInstall index fun i => { i with cur := none, tries := i.tries + 1 }
      match (if i.tries + 1 = 2 then none else d.takeBlock k) with
      | none => set { t with dev := d.failInstall index 5 }
      | some (q, d) => set { t with dev := d.updInstall index fun i => { i with cur := some q, nremap := i.nremap + 1 } }

theorem installAttempt_canon (s : State) (i : Install) (index k b p : Nat) (ok : Bool) : MCanon all (installAttempt s i index k b p ok) := by
  refine .either (installLines_canon ..) (.answer _) fun ls => .read fun t ht => ?_
  extract_lets d w d₁ d₂ d₃ d₄
  have h₁ : DevCanon all d₁ := (ht.dev.updStack _ _).updInstall _ _
  have h₂ : DevCanon all d₂ := h₁.program _ _ _
  have h₄ : DevCanon all d₄ := (h₂.updStack _ _).updInstall _ _
  refine .cond (.write (ht.setDev (h₁.failInstall _ _))) (.cond (.write (ht.setDev (h₂.updInstall _ _))) ?_)
  split
  · exact .write (ht.setDev (h₄.failInstall _ _))
  · next e =>
    split at e
    · cases e
    · exact .write (ht.setDev ((h₄.takeBlock e).updInstall _ _))

theorem Canon.execInstallBlockVerify (h : Canon all s) (index : Nat) (ok : Bool) : OutCanon all (execInstallBlockVerify index ok s) := by
  refine .of ?_
  split
  · exact h
  · split
    · exact h
    · next k b _ =>
      split
      · exact h
      · split
        · exact h.setDev (h.dev.failInstall _ _)
        · next p i _ =>
          have hm : MCanon all (installAttempt s i index k b p ok) := installAttempt_canon ..
          change Canon all (match runEngine s i.names (installAttempt s i index k b p ok) with
            | .done t => t
            | .fault r => s.parkInstall i id r
            | .again t => t
            | _ => s)
          split
          · next e => exact runEngine_done hm h e
          · exact h.parkInstall _ _ _
          · next e => exact runEngine_again hm h e
          · exact h

theorem Canon.commitBlocks (h : Canon all s) (i : Install) : Canon all (s.commitBlocks i) := by
  refine Canon.foldl (fun s x hs => ?_) _ (h.setDev (h.dev.foldl (fun d x hd => ?_) _))
  · obtain ⟨⟨k, b⟩, p⟩ := x
    dsimp -zeta only
    extract_lets old loc u d
    have hu : Canon all u := hs.flushPage _ _
    have hd : DevCanon all d := hu.dev.updStack _ _
    exact hu.setDev ⟨hd.mem, hd.cores, hd.saved⟩
  · have h' : DevCanon all { d with verified := d.verified.filter (· != x.page) } := ⟨hd.mem, hd.cores, hd.saved⟩
    dsimp only
    split
    · exact h'.rmSet _ _ _ _
    · exact h'

theorem Install.statusWrite_canon (i : Install) (s : State) (bytes : List Byte) : MCanon all (i.statusWrite s bytes) :=
  recordAt_canon false (heldTr_canon ..) _ _

theorem Canon.execInstallCommit (h : Canon all s) (index : Nat) : OutCanon all (execInstallCommit index s) := by
  refine .of ?_
  split
  · exact h
  · next i _ =>
    split
    · exact h
    · split
      · exact h
      · split
        · next e =>
          have ht := runEngine_done (i.statusWrite_canon s _) h e
          have ht' := ht.setDev (ht.dev.updInstall index fun i => { i with ack := some none })
          dsimp only
          split
          · exact ht'.installEvent _ _
          · exact ht'
        · exact h.parkInstall _ _ _
        · next e => exact runEngine_again (i.statusWrite_canon s _) h e
        · exact h
      · split
        · exact h
        · extract_lets t u j gone
          have hu : Canon all u := by
            unfold u
            split
            · exact (h.commitBlocks i).setDev ((h.commitBlocks i).dev.updInstall _ _)
            · exact h
          clear_value u
          have hgone (t : State) (ht : Canon all t) : Canon all (gone t) := ht.setDev ⟨ht.dev.mem, ht.dev.cores, ht.dev.saved⟩
          have hm : MCanon all (j.statusWrite u (installWord j.code j.nremap j.maxw j.no)) := j.statusWrite_canon ..
          split
          · exact hgone u hu
          · split
            · next e => exact hgone _ ((runEngine_done hm hu e).installEvent _ _)
            · exact hu.parkInstall _ _ _
            · next e => exact runEngine_again hm hu e
            · exact hu

theorem Canon.execFlashPowerLoss (h : Canon all s) (stack : Nat) : OutCanon all (execFlashPowerLoss stack s) := by
  refine .of (h.setDev (h.dev.foldl (fun d n hd => ?_) _))
  split
  · have h' := hd.failInstall n 6
    exact ⟨h'.mem, h'.cores, h'.saved⟩
  · exact hd

theorem Canon.execAllowanceTick (h : Canon all s) (part : Nat) : OutCanon all (execAllowanceTick part s) := .of (h.setDev (h.dev.updPart _ _))

theorem Canon.execWstat (h : Canon all s) (r a b : BitVec 5) : OutCanon all (execWstat r a b s) := by
  refine h.deliver <| MCanon.bind ?_ fun _ => (setXM_canon ..).bind fun _ => advanceM_canon
  dsimp only
  split
  · exact .answer _
  · exact .answer _
  · exact .answer _
  · exact .answer _
  · refine .cond ((pageAt_canon ..).bind fun p => (p.look_canon ..).bind fun _ => .when (layerArg_canon ..) ?_) (layerArg_canon ..)
    exact .cond (.answer _) <| .read fun _ h => (MCanon.write h.takeFree).bind fun _ => .answer _

end
end Sys2Proof.Machine

/-! SUPPORT. Recodes, swaps, heat and staging keep the canonical form of memory. -/

namespace Sys2Proof.Machine

section
variable {all : Bool} {s t : State} {d : Dev} {c : Core} {α β : Type} {m : M α}

/-! ### Recodes (R363 to R369) -/

theorem Canon.execRecode (h : Canon all s) (r a b : BitVec 5) : OutCanon all (execRecode r a b s) := by
  refine h.deliver <| .when (.traps ..) <| .when .waits <| (MCanon.update fun _ h => h.fenceFar _ _ _).bind fun _ =>
    (pagesOver_canon _ _ (fun p => p.look_canon _ _) _ _ _).bind fun _ => .when (layerArg_canon ..) <|
    (MCanon.forM (fun p => .cond (layerArg_canon ..) (.answer _)) _).bind fun _ =>
    (MCanon.update fun t ht => ?_).bind fun _ => (setXM_canon ..).bind fun _ => advanceM_canon
  have hd := ht.dev.updPart s.layerPart fun q => { q with nextRecode := nextNumber q.nextRecode }
  exact ht.setDev ⟨hd.mem, hd.cores, hd.saved⟩

theorem DevCanon.shrinkBlock (h : DevCanon all d) (pool at_ n : Nat) : DevCanon all (d.shrinkBlock pool at_ n) := by
  unfold Dev.shrinkBlock
  extract_lets e extra top base u keep
  have hu : DevCanon all u := h.foldl (fun _ _ h => h.writeAt _ _ _) _
  clear_value u
  have h' := hu.writeAt at_ 16 (keep + stFor n)
  exact ⟨h'.mem, h'.cores, h'.saved⟩

theorem DevCanon.recompress (h : DevCanon all d) (keep : Bool) (tr : Tr) : DevCanon all (d.recompress keep tr).1 := by
  unfold Dev.recompress
  split
  · exact h
  · next pool at_ _ =>
    dsimp only
    split
    · exact h
    · have h' := (h.countEscape pool (d.blockLines pool (d.sectorEnt at_))).storeBlock pool (d.sectorEnt at_) (d.blockLines pool (d.sectorEnt at_))
      dsimp only
      split
      · exact h'.shrinkBlock _ _ _
      · exact h'

theorem Canon.passPages (h : Canon all s) (r : Recode) : Canon all (s.passPages r).1 := by
  refine h.setDev (h.dev.foldl (fun d p hd => ?_) _)
  split
  · exact hd.rmSet _ _ _ _
  · exact hd

theorem recodeStep_canon (r : Recode) : MCanon all (recodeStep r) := by
  refine .read fun s hs => (heldTr_canon ..).bind fun tr => .read fun s hs => .when .waits <|
    (MCanon.update fun _ h => h.flushLineEverywhere _).bind fun _ => (homeRead_canon ..).bind fun x => .read fun s hs => ?_
  have hend (r : Recode) : MCanon all (do
      let s ← get
      let (s, r) := if r.at_ % 32 = 0 then
          let (d, did) := s.dev.recompress (sfpMode r.policy == 0) tr
          (({ s with dev := d } : State), { r with recomp := r.recomp + did.toNat })
        else (s, r)
      let (s, r) := s.passPages r
      set s
      return r) := by
    refine .read fun s hs => ?_
    dsimp only
    refine (MCanon.write ?_).bind fun _ => .answer _
    refine Canon.passPages ?_ _
    split
    · exact hs.setDev (hs.dev.recompress _ _)
    · exact hs
  refine MCanon.bind ?_ hend
  split
  · exact .answer _
  · split
    · exact faultAt_canon ..
    · next d e =>
      have hd := (hs.dev.putHome e).markWrite tr
      refine (MCanon.write (hs.setDev (DevCanon.tokensHome ?_ _))).bind fun _ => .answer _
      split
      · exact hd.rmSet _ _ _ _
      · exact hd

theorem DevCanon.updRecode (h : DevCanon all d) (n : Nat) (f : Recode → Recode) : DevCanon all (d.updRecode n f) := ⟨h.mem, h.cores, h.saved⟩

/-- One line of a recode made by its engine, with its event after the last. -/
def recodeLineStep (index : Nat) (r : Recode) : M Unit := do
  let r ← recodeStep r
  modify fun t => { t with dev := t.dev.updRecode index fun _ => r }
  if r.lines ≤ r.at_ then
    modify fun t =>
      let t := t.layerEvent 7 r.core r.ctx r.no r.utag (r.inval % 2 ^ 32 + 2 ^ 32 * (r.recomp % 2 ^ 32)) r.changed r.flags r.faulted.toNat
      { t with dev := { t.dev with recodes := t.dev.recodes.eraseIdx index } }

theorem recodeLineStep_canon (index : Nat) (r : Recode) : MCanon all (recodeLineStep index r) := by
  refine (recodeStep_canon r).bind fun r => (MCanon.update fun t ht => ht.setDev (ht.dev.updRecode _ _)).bind fun _ =>
    .cond (.update fun t ht => ?_) (.answer _)
  have ht' := ht.layerEvent 7 r.core r.ctx r.no r.utag (r.inval % 2 ^ 32 + 2 ^ 32 * (r.recomp % 2 ^ 32)) r.changed r.flags r.faulted.toNat
  exact ht'.setDev ⟨ht'.dev.mem, ht'.dev.cores, ht'.dev.saved⟩

theorem Canon.execRecodeLineStep (h : Canon all s) (index : Nat) : OutCanon all (execRecodeLineStep index s) := by
  refine .of ?_
  split
  · exact h
  · next r _ =>
    split
    · exact h
    · have hm : MCanon all (recodeLineStep index r) := recodeLineStep_canon ..
      change Canon all (match runEngine s r.names (recodeLineStep index r) with
        | .done t => t
        | .again t => t
        | .fault f =>
          let (t, h) := s.layerFault r.part r.ctx (.recode r.no.toNat) 6 r.pc f
          { t with dev := t.dev.updRecode index fun r => { r with parked := some h, faulted := true } }
        | _ => s)
      split
      · next e => exact runEngine_done hm h e
      · next e => exact runEngine_again hm h e
      · next f _ =>
        have h' := h.layerFault r.part r.ctx (.recode r.no.toNat) 6 r.pc f
        exact h'.setDev (h'.dev.updRecode _ _)
      · exact h

/-! ### Swaps, heat, staging (R352, R353, R370 to R377) -/

theorem Canon.execSwp (h : Canon all s) (r a b : BitVec 5) : OutCanon all (execSwp r a b s) := by
  refine h.deliver <| .when (.traps ..) <| .when (.traps ..) <| .when .waits <| (MCanon.update fun _ h => h.fenceFar _ _ _).bind fun _ =>
    (pageAt_canon ..).bind fun _ => (Pg.look_canon ..).bind fun _ => (pageAt_canon ..).bind fun _ => (Pg.look_canon ..).bind fun _ =>
    .when (layerArg_canon ..) <| .when (layerArg_canon ..) <| .when (layerArg_canon ..) <| .read fun t ht => .when (layerArg_canon ..) <|
    (MCanon.update fun t ht => ?_).bind fun _ => (setXM_canon ..).bind fun _ => advanceM_canon
  have hd := ht.dev.updPart s.layerPart fun q => { q with nextSwap := nextNumber q.nextSwap }
  exact ht.setDev ⟨hd.mem, hd.cores, hd.saved⟩

theorem DevCanon.putPage (h : DevCanon all d) (loc : Nat) (ls : List (Line × Tag)) : DevCanon all (d.putPage loc ls) :=
  h.foldl (fun _ _ h => h.putLineAt _ _ _) _

theorem DevCanon.withClasps (h : DevCanon all d) (cl : List ClaspHome) (tk : List LineTokens) :
    DevCanon all { d with clasps := cl, tokens := tk } := ⟨h.mem, h.cores, h.saved⟩

theorem Canon.turn (h : Canon all s) (w : Swap) : Canon all (s.turn w) := by
  unfold State.turn
  extract_lets ea eb la lb s₁ s₂ mv d₁ d₂ put d₃ s₃
  have h₁ : Canon all s₁ := h.onAllCores fun d c hd hc => convertLazy_canon hd hc _ _
  have h₂ : Canon all s₂ := (h₁.flushPage _ _).flushPage _ _
  have hd₁ : DevCanon all d₁ := (h₂.dev.putPage _ _).putPage _ _
  have hd₂ : DevCanon all d₂ := hd₁.withClasps _ _
  have hput (d : Dev) (dpa : Nat) (e : BitVec 256) (hd : DevCanon all d) : DevCanon all (put d dpa e) :=
    ((((hd.rmSet _ _ _ _).rmSet _ _ _ _).rmSet _ _ _ _).rmSet _ _ _ _).rmSet _ _ _ _
  have hd₃ : DevCanon all d₃ := hput _ _ _ (hput _ _ _ hd₂)
  clear_value d₃
  refine Canon.onAllCores (h₂.setDev hd₃) fun d c hd hc => .of hd ?_
  exact ⟨hc.spad⟩

theorem DevCanon.withSwaps (h : DevCanon all d) (rm : List (Nat × BitVec 256)) (w : List Swap) : DevCanon all { d with rmCache := rm, swaps := w } :=
  ⟨h.mem, h.cores, h.saved⟩

theorem Canon.execTurnoverSwap (h : Canon all s) (index : Nat) : OutCanon all (execTurnoverSwap index s) := by
  refine .of ?_
  split
  · exact h
  · next w _ =>
    dsimp only
    split
    · exact h
    · split
      · exact h.setDev (((h.dev.rmSet w.a.toNat 64 2 1).rmSet w.b.toNat 64 2 1).withSwaps _ _)
      · split
        · exact h
        · exact Canon.layerEvent ((h.turn w).setDev ((h.turn w).dev.withSwaps _ _)) ..

theorem Canon.execHeatSample (h : Canon all s) (dpa : BitVec 64) : OutCanon all (execHeatSample dpa s) := .of (h.heatEvent _)

theorem Canon.execHeatDecay (h : Canon all s) (dpa : BitVec 64) : OutCanon all (execHeatDecay dpa s) := by
  refine .of ?_
  split
  · exact h.setDev (h.dev.rmSet _ _ _ _)
  · exact h

theorem Canon.execHeatRd (h : Canon all s) (r a b : BitVec 5) : OutCanon all (execHeatRd r a b s) := by
  refine h.deliver <| (pageAt_canon ..).bind fun p => (p.look_canon ..).bind fun _ => (MCanon.update fun t ht => ht.setDev ?_).bind fun _ =>
    (setXM_canon ..).bind fun _ => advanceM_canon
  have hclear : DevCanon all (if (s.x b).getLsbD 0 then t.dev.rmSet p.dpa 87 1 0 else t.dev) := by
    split
    · exact ht.dev.rmSet _ _ _ _
    · exact ht.dev
  split
  · exact hclear.rmSet _ _ _ _
  · exact hclear

theorem Canon.execStagingFill (h : Canon all s) (line : Nat) (bad : Bool) : OutCanon all (execStagingFill line bad s) := by
  refine .of ?_
  split
  · have hu (x : List (Nat × Line × Tag)) : Canon all { s with dev := { s.dev with staged := x } } :=
      h.setDev ⟨h.dev.mem, h.dev.cores, h.dev.saved⟩
    dsimp only
    split
    · cases s.dev.dpaOf (line * 128) with
      | none => exact hu _
      | some a => exact (hu _).linePoisoned _ _
    · exact hu _
  · exact h

end
end Sys2Proof.Machine

/-! SUPPORT. Messages of other devices, hosts, errors, the debug port and power keep the canonical form of memory; bring-up starts in it. -/

namespace Sys2Proof.Machine

section
variable {all : Bool} {s t : State} {d : Dev} {c : Core} {α β : Type} {m : M α}

/-! ### Tokens, messages of other devices, hosts (R252, R332 to R344) -/

theorem Canon.request (h : Canon all s) (line n : Nat) (f : LineTokens → LineTokens) : Canon all (s.request line n f) := by
  unfold State.request
  split
  · exact h
  · exact h.setDev (h.dev.setTokens _)

theorem Canon.execPersistent (h : Canon all s) (line n : Nat) : OutCanon all (execPersistent line n s) := by
  refine .of ?_
  split
  · exact h
  · split
    · exact h.setDev (h.dev.setTokens _)
    · split
      · exact h
      · split
        · exact h.setDev (h.dev.setTokens _)
        · split
          · exact h
          · exact h.setDev (h.dev.setTokens _)

theorem Canon.execData (h : Canon all s) (line src dst : Nat) : OutCanon all (execData line src dst s) := by
  refine .of ?_
  split
  · exact h
  · dsimp only
    split
    · exact h
    · exact h.setDev (h.dev.setTokens _)

theorem Canon.message (h : Canon all s) (x : BitVec 128) (line : Line) (tag : Tag) : Canon all (s.message x line tag) := by
  have hat (n : Nat) (f : ClaspHome → ClaspHome) : Canon all { s with dev := s.dev.updClasp n f } := h.setDev (h.dev.updClasp _ _)
  unfold State.message
  dsimp only
  split
  · exact h.setDev (h.dev.putLineAt _ _ _)
  · split
    · exact h
    · exact h.setDev ((h.dev.putLineAt _ _ _).unverifyAt _)
  · exact hat _ _
  · exact hat _ _
  · exact (h.onCoreAt _ fun _ _ => recallCore_canon _).dueRecall (fun _ _ _ _ => recallSent_canon _ _) _
  · exact hat _ _
  · exact hat _ _
  · exact hat _ _
  · exact h

theorem Canon.unpack (h : Canon all s) (n : Nat) (bs : List Byte) (t : Option Tag) (tags : List Tag) : Canon all (s.unpack n bs t tags).1 := by
  induction n generalizing s bs t tags with
  | zero => exact h
  | succ n ih =>
    unfold State.unpack
    dsimp only
    split
    · exact h
    · split
      · exact h
      · split
        · exact h
        · exact ih (h.message _ _ _) _ _ _

theorem DevCanon.updLink (h : DevCanon all d) (p : Nat) (f : Link → Link) : DevCanon all (d.updLink p f) := by
  unfold Dev.updLink
  split
  · exact ⟨h.mem, h.cores, h.saved⟩
  · exact h

theorem Canon.execLacingFlit (h : Canon all s) (port : Nat) (flit : BitVec 2048) : OutCanon all (execLacingFlit port flit s) := by
  refine .of ?_
  dsimp only
  split
  · exact h
  · split
    · exact h.setDev (h.dev.updLink _ _)
    · have h' := Canon.unpack (h.setDev (h.dev.updLink port fun l =>
        { l with ack := flit.extractLsb' 104 12, seq := flit.extractLsb' 116 12, cred := l.cred + (flit.extractLsb' 96 8).toNat })) 32
      exact (h' _ _ _).setDev ((h' _ _ _).dev.updLink _ _)

theorem Canon.execBisnp (h : Canon all s) (line : Nat) : OutCanon all (execBisnp line s) := by
  refine .of ?_
  split
  · exact h.setDev (h.dev.hostTake _)
  · exact h

theorem Canon.execHostWrite (h : Canon all s) (line : Nat) (off : BitVec 7) (v : BitVec 64) : OutCanon all (execHostWrite line off v s) := by
  refine .of ?_
  dsimp only
  split
  · exact h
  · split
    · refine h.setDev (DevCanon.unverify ?_ _)
      exact ⟨h.dev.mem, h.dev.cores, h.dev.saved⟩
    · exact h.setDev ((h.dev.putLineAt _ _ _).unverify _)

theorem Canon.execHostRead (h : Canon all s) (line : Nat) : OutCanon all (execHostRead line s) := by
  refine .of ?_
  split
  · exact h
  · exact h.setDev ⟨h.dev.mem, h.dev.cores, h.dev.saved⟩

theorem Canon.execHostSnoop (h : Canon all s) (line : Nat) (inval : Bool) : OutCanon all (execHostSnoop line inval s) := by
  refine .of ?_
  split
  · exact h.setDev ⟨h.dev.mem, h.dev.cores, h.dev.saved⟩
  · exact h

theorem DevCanon.withPool (h : DevCanon all d) {m : Memory} (hm : m.wf = true) (tv fb : List Nat) :
    DevCanon all { d with mem := m, tagValid := tv, flashBad := fb } := ⟨hm, h.cores, h.saved⟩

theorem Canon.execOutsidePoolWrite (h : Canon all s) (line : Nat) (off : BitVec 7) (v : BitVec 64) :
    OutCanon all (execOutsidePoolWrite line off v s) := by
  refine .of ?_
  dsimp only
  split
  · refine h.setDev (DevCanon.unverify ?_ _)
    exact h.dev.withPool (Memory.setLine_wf _ _ _ h.dev.mem) _ _
  · exact h

theorem Canon.execFarCopyEviction (h : Canon all s) (index : Nat) (drop : Bool) : OutCanon all (execFarCopyEviction index drop s) := by
  refine .of ?_
  split
  · exact h
  · dsimp only
    split
    · exact h
    · exact h.flushFar _ _

/-! ### Errors (R381 to R385) -/

theorem DevCanon.poisonAt (h : DevCanon all d) (loc : Nat) : DevCanon all (d.poisonAt loc) := by
  unfold Dev.poisonAt
  split
  · exact ⟨h.mem, h.cores, h.saved⟩
  · exact h.putLineAt _ _ _

theorem Canon.poison (h : Canon all s) (loc : Nat) (r : Nat → FaultRec) : Canon all (s.poison loc r) := by
  have h' := h.setDev (h.dev.poisonAt loc)
  unfold State.poison
  dsimp only
  split
  · exact h'
  · exact h'.postFault _ _ _

theorem Canon.poisonSpad (h : Canon all s) (off : Nat) : Canon all (s.poisonSpad off) := h.putSpad _ _ _

theorem Canon.lostRegister (h : Canon all s) (slot : Nat) : Canon all (s.lostRegister slot) := by
  unfold State.lostRegister
  split
  · exact h.machineCheckCore
  · exact (h.postFault _ _ _).terminateCtx _

theorem Canon.blockLost (h : Canon all s) (dpa : Nat) : Canon all (s.blockLost dpa) := by
  unfold State.blockLost
  split
  · exact h
  · exact h.badBlock _ _ _

theorem Canon.foundAt (h : Canon all s) (engine kind : BitVec 8) (va : Word) : Canon all (s.foundAt engine kind va) := by
  unfold State.foundAt
  split
  · exact h
  · split
    · split
      · exact h.poisonSpad _
      · split
        · exact h.badBlock _ _ _
        · exact h.poison _ _
    · exact h

theorem Canon.lostEngine (h : Canon all s) (engine : BitVec 8) : Canon all (s.lostEngine engine) := by
  unfold State.lostEngine
  split
  · exact h
  · split
    · exact h.machineCheckCore
    · exact (h.postFault _ _ _).terminateCtx _

theorem Canon.execUncorrectableError (h : Canon all s) (place : ErrorPlace) (n : Nat) : OutCanon all (execUncorrectableError place n s) := by
  refine .of ?_
  cases place with
  | line => exact h.poison _ _
  | access e k => exact h.foundAt _ _ _
  | spad => exact h.poisonSpad _
  | farCopy =>
    have hd (n : Nat) : Canon all { s with core := s.core.dropFar (n * 128) } := .of h.dev (h.core.dropFar _)
    dsimp only
    split
    · exact h
    · split
      · exact hd _
      · exact (hd _).poison _ _
  | fetched => exact h
  | strand => exact h.lostRegister _
  | engine e => exact h.lostEngine _
  | source => exact h.setDev ⟨h.dev.mem, h.dev.cores, h.dev.saved⟩
  | block => exact h.blockLost _
  | shared => exact h.machineCheckCore

theorem Canon.execCorrectedError (h : Canon all s) (core : Nat) : OutCanon all (execCorrectedError core s) := by
  refine .of ?_
  split
  · exact h.updCoreAt _ fun _ hc => ⟨hc.spad⟩
  · exact h.setDev ⟨h.dev.mem, h.dev.cores, h.dev.saved⟩

theorem Canon.execScrub (h : Canon all s) (line : ScrubLine) (bad : Bool) : OutCanon all (execScrub line bad s) := by
  refine .of ?_
  split
  · exact h
  · cases line with
    | spad n => exact h.poisonSpad _
    | home n =>
      dsimp only
      split
      · exact h
      · exact h.poison _ _

theorem Canon.terminateLive (h : Canon all s) (cs : List Nat) :
    Canon all (cs.foldl (fun s c => if s.dev.ctxLive c then s.terminateCtx c else s) s) := by
  refine h.foldl (fun s c hs => ?_) _
  split
  · exact hs.terminateCtx _
  · exact hs

theorem Canon.failDevice (h : Canon all s) : Canon all s.failDevice := by
  have h' : Canon all s.terminateAll := h.terminateLive _
  exact h'.setDev ⟨h'.dev.mem, h'.dev.cores, h'.dev.saved⟩

theorem Canon.execMachineCheck (h : Canon all s) (whole : Bool) : OutCanon all (execMachineCheck whole s) := by
  refine .of ?_
  split
  · exact h.failDevice
  · exact h.machineCheckCore

theorem Canon.execLinkFailure (h : Canon all s) (port : Nat) : OutCanon all (execLinkFailure port s) :=
  .of (h.setDev (h.dev.withConfig _)).failDevice

/-! ### Partitions, debug, power (R386 to R394) -/

theorem Canon.execPartitionDisable (h : Canon all s) (part : Nat) : OutCanon all (execPartitionDisable part s) := by
  refine .of ?_
  split
  · exact h
  · have h' : Canon all ((s.dev.ctxs.filter fun c => c.part == part).foldl (fun s c => if s.dev.ctxLive c.id then s.terminateCtx c.id else s) s) := by
      refine h.foldl (fun s c hs => ?_) _
      split
      · exact hs.terminateCtx _
      · exact hs
    exact h'.setDev (h'.dev.updPart _ _)

theorem Canon.forDebug (h : Canon all s) : Canon all s.forDebug := by
  unfold State.forDebug
  split
  · exact .of h.dev ⟨h.core.spad⟩
  · exact h.ungated

theorem Canon.debugHalt (h : Canon all s) (slot : Nat) : Canon all (s.debugHalt slot) := by
  unfold State.debugHalt
  extract_lets s₁ s₂ s₃ s₄
  have h₂ : Canon all s₂ := h.drainTiles.updStrandAt _ _
  have h₃ : Canon all s₃ := h₂.setDev (h₂.dev.withdraw _ _)
  have h₄ : Canon all s₄ := by
    unfold s₄
    split
    · exact h₃
    · exact (h₃.onCore (f := fun d c => convertLazy d c fun e => !e.held && e.relBy.isNone) fun d c hd hc =>
        convertLazy_canon hd hc _ _).flushFar _ _
  clear_value s₄
  exact .of h₄.dev ⟨h₄.core.spad⟩

theorem Canon.debugStore (h : Canon all s) (va v : Word) : Canon all (s.debugStore va v) := by
  unfold State.debugStore
  split
  · next e => exact .of ((storeParts_canon ..).ok h e).dev ((storeParts_canon ..).ok h e).core
  · exact h

theorem Canon.debugAct (h : Canon all s) (n : Nat) (q : DebugReq) : Canon all (s.debugAct n q) := by
  cases q with
  | halt => exact h.debugHalt _
  | go => exact .of h.dev ⟨h.core.spad⟩
  | step =>
    change Canon all (ite _ _ _)
    split
    · exact .of h.dev ⟨h.core.spad⟩
    · exact h
  | writeX r v =>
    change Canon all (ite _ _ _)
    split
    · exact h.updStrandAt _ _
    · exact h
  | writeV r g l d =>
    change Canon all (ite _ _ _)
    split
    · exact h.updStrandAt _ _
    · exact h
  | writeSys num v => exact h.writeNumbered _ _
  | writeMem va v => exact h.debugStore _ _
  | read => exact h
  | consent _ => exact h
  | expire _ => exact h

theorem Canon.execDebugStop (h : Canon all s) (level : BitVec 2) (slot : Nat) (req : DebugReq) : OutCanon all (execDebugStop level slot req s) := by
  refine .of ?_
  have hd (b : BitVec 2) (x : List Nat) : Canon all { s with dev := { s.dev with dbgLevel := b, consent := x } } :=
    h.setDev ⟨h.dev.mem, h.dev.cores, h.dev.saved⟩
  split
  · exact hd _ _
  · exact hd _ _
  · dsimp only
    split
    · exact hd _ _
    · exact (Canon.forDebug (hd _ _)).debugAct _ _

theorem CoreCanon.wake (c : Core) (d : Dev) : CoreCanon all (c.wake d) := ⟨fun _ => rfl⟩

theorem Canon.execPowerWake (h : Canon all s) : OutCanon all (execPowerWake s) := by
  refine .of ?_
  split
  · exact h
  · split
    · exact .of h.dev ⟨h.core.spad⟩
    · exact h.onCore fun d c hd _ => .of hd (.wake c d)

theorem Canon.execClockGate (h : Canon all s) : OutCanon all (execClockGate s) := by
  refine .of ?_
  split
  · exact .of h.dev ⟨h.core.spad⟩
  · split
    · exact .of h.dev ⟨h.core.spad⟩
    · exact h

theorem Canon.execOperatingPointChange (h : Canon all s) (point : Nat) : OutCanon all (execOperatingPointChange point s) := by
  refine .of ?_
  split
  · exact h
  · exact h.setDev ⟨h.dev.mem, h.dev.cores, h.dev.saved⟩

/-! ### Bring-up (R361, R394) -/

theorem sortedNe_filter [DecidableEq α] (z : α) (p : Nat × α → Bool) (l : List (Nat × α)) (h : sortedNe z l = true) :
    sortedNe z (l.filter p) = true := by
  induction l with
  | nil => rfl
  | cons x r ih =>
    obtain ⟨hz, hlt, hr⟩ := (sortedNe_cons z x.1 x.2 r).mp h
    rw [List.filter_cons]
    split
    · exact (sortedNe_cons z x.1 x.2 _).mpr ⟨hz, fun y hy => hlt y (List.mem_filter.mp hy).1, ih hr⟩
    · exact ih hr

theorem Memory.afterPower_wf {m : Memory} (h : m.wf = true) : m.afterPower.wf = true := by
  obtain ⟨hc, ht⟩ := (Memory.wf_iff m).mp h
  exact (Memory.wf_iff _).mpr ⟨sortedNe_filter _ _ _ hc, sortedNe_filter _ _ _ ht⟩

theorem Memory.load_wf {m : Memory} (h : m.wf = true) (image : List (Nat × Byte)) : (m.load image).wf = true :=
  Memory.foldl_wf (fun _ _ h => Memory.setTag_wf _ _ _ (Memory.setByte_wf _ _ _ h)) _ h

theorem DevCanon.rollback (h : DevCanon all d) : DevCanon all d.rollback := by
  have h' : DevCanon all ((List.range d.installs.length).foldl (fun e n => if (e.installs[n]?).any (!·.committed) then e.failInstall n 6 else e) d) := by
    refine h.foldl (fun d n hd => ?_) _
    split
    · exact hd.failInstall _ _
    · exact hd
  exact ⟨h'.mem, h'.cores, h'.saved⟩

theorem Canon.boot (c rec_ : BitVec 4096) : Canon all (State.boot c rec_) :=
  .of ⟨rfl, fun x hx => by
    obtain ⟨n, -, rfl⟩ := List.mem_map.mp hx
    exact ⟨fun _ => rfl⟩, List.forall_mem_nil _⟩ ⟨fun _ => rfl⟩

theorem Canon.execBringUp (h : Canon all s) : OutCanon all (execBringUp s) := by
  refine .of ?_
  split
  · exact h.setDev ⟨h.dev.mem, h.dev.cores, h.dev.saved⟩
  · have hb : Canon all (State.boot (runningConfig s.dev.nextUp s.dev.record) s.dev.record) := .boot _ _
    have hm := Memory.load_wf (Memory.afterPower_wf h.dev.rollback.mem) s.dev.nextUp.image
    exact .of ⟨hm, hb.dev.cores, hb.dev.saved⟩ hb.core

end
end Sys2Proof.Machine

/-! SUPPORT. Loads of a strip, and computations whose stop counts at an element, keep the canonical form of memory. -/

namespace Sys2Proof.Machine

section
variable {all : Bool} {s t : State} {d : Dev} {c : Core} {α β : Type} {m : M α}

/-! ### Loads (R52, R205 to R213) -/

theorem issueAccess_canon (ix : Option (BitVec 5)) (narrow raw : Bool) : MCanon all (issueAccess ix narrow raw) := by
  refine .read fun s _ => ?_
  dsimp only
  split
  · exact .cond (.when (.raises _) (.when (.raises _) (.answer _))) (.answer _)
  · exact .either (.answer _) (readReg_canon _) fun _ =>
      .cond (.when (.raises _) (.when (.raises _) (.when (.raises _) (.answer _)))) (.when (.raises _) (.answer _))

theorem claimUnless0_canon (v : BitVec 5) : MCanon all (claimUnless0 v) := .read fun _ _ => .cond (.answer _) (claimReg_canon v)

theorem readUnless0_canon (v : BitVec 5) : MCanon all (readUnless0 v) := .read fun _ _ => .cond (.answer _) (readReg_canon v)

theorem seeLine_canon (va : Word) (seen : List SeenLine) : MCanon all (seeLine va seen) := by
  unfold seeLine
  split
  · exact .answer _
  · exact .read fun _ _ => (translateAt_canon ..).bind fun _ => .read fun _ _ => .when .waits <| (readLine_canon ..).bind fun _ => .answer _

/-- What follows a stop does not count. -/
theorem MCanon.stopsThen {x : Stop} (h : StopCanon all x) (k : α → M β) : MCanon all (stop x >>= k) := ⟨fun _ _ => h⟩

theorem touchAll_canon (trs : List Tr) : MCanon all (touchAll trs) := .update fun _ h => h.foldl (fun _ _ h => h.touch _ _) _

theorem slotCheck_canon (va : Word) (t : Tag) (k : Nat) : MCanon all (slotCheck va t k) :=
  .read fun _ _ => .cond (.traps ..) (.answer _)

theorem loadCheck_canon (e : Nat) (va : Word) (k : Nat) (x : SeenLine) : MCanon all (loadCheck e va k x) :=
  (slotCheck_canon ..).bind fun _ => .when (faultAt_canon ..) (.cond (.traps ..) (.answer _))

/-- A first failure whose stop leaves the memories canonical. -/
def FirstCanon (all : Bool) (b : Option (Nat × Stop)) : Prop := ∀ e x, b = some (e, x) → StopCanon all x

theorem FirstCanon.none : FirstCanon all none := fun _ _ e => by cases e

theorem FirstCanon.some {x : Stop} (h : StopCanon all x) (e : Nat) : FirstCanon all (some (e, x)) := fun _ _ e => by
  cases e
  exact h

theorem FirstCanon.first {b : Option (Nat × Stop)} (hb : FirstCanon all b) {x : Stop} (hx : StopCanon all x) (e : Nat) :
    FirstCanon all (if b.isNone then .some (e, x) else b) := by
  split
  · exact .some hx e
  · exact hb

theorem loadEls_canon (n : Nat) (ps : List (Nat × Word × Nat)) (seen : List SeenLine) {b : Option (Nat × Stop)} (hb : FirstCanon all b)
    (h : Canon all s) : FirstCanon all (loadEls n ps seen b s).2.1 ∧ Canon all (loadEls n ps seen b s).2.2.2 := by
  induction ps generalizing seen b s with
  | nil => exact ⟨hb, h⟩
  | cons p r ih =>
    obtain ⟨e, va, k⟩ := p
    unfold loadEls
    split
    · exact ⟨hb, h⟩
    · split
      · next ex => exact ih seen (hb.first ((seeLine_canon va seen).error h ex) e) h
      · next x seen' u ex =>
        have hu := (seeLine_canon va seen).ok h ex
        refine ih seen' ?_ hu
        split
        · next ey => exact hb.first ((loadCheck_canon e va k x).error hu ey) e
        · exact hb

theorem loadStop_canon {n : Nat} {place : Nat → Word} {bad : Option Nat} {b : Option (Nat × Stop)} (hb : FirstCanon all b) {y : Stop}
    (e : loadStop n place bad b = some y) : StopCanon all y := by
  unfold loadStop at e
  split at e
  · split at e
    · cases e
      exact trivial
    · cases e
      exact hb _ _ rfl
  · cases e
    exact trivial
  · cases e
    exact hb _ _ rfl
  · cases e

theorem vecLoad_canon (r : BitVec 5) (f : BitVec 1) (t : BitVec 4) (rr : BitVec 1) (mm : BitVec 3) (ix : Option (BitVec 5)) (strip : Strip) :
    MCanon all (vecLoad r f t rr mm ix strip) := by
  refine (claimUnless0_canon _).bind fun old => .read fun s _ => (issueAccess_canon ..).bind fun iv => .read fun s hs => .cond advanceM_canon ?_
  have hl (n : Nat) (ps : List (Nat × Word × Nat)) := loadEls_canon n ps [] (FirstCanon.none (all := all)) hs
  dsimp only
  split
  · next e => exact .stopsThen (loadStop_canon (hl _ _).1 e) _
  · exact (MCanon.write (hl _ _).2).bind fun _ => (touchAll_canon _).bind fun _ => (raiseFlags_canon _).bind fun _ =>
      (MCanon.update fun u hu => (Canon.of hu.dev hu.core).putReg _ _).bind fun _ => advanceM_canon

theorem loadSlots_canon : ∀ (ps : List (Nat × Word × Nat)) (seen : List SeenLine) (js : List (Word × Tag × List (Nat × Nat))),
    MCanon all (loadSlots ps seen js)
  | [], _, _ => (touchAll_canon _).bind fun _ => .answer _
  | (_, _, _) :: r, _, _ => (seeLine_canon ..).bind fun _ => (slotCheck_canon ..).bind fun _ => .read fun _ _ => loadSlots_canon r _ _

theorem queueLoad_canon (q : BitVec 3) (strip : Strip) : MCanon all (queueLoad q strip) :=
  .read fun _ _ => .cond advanceM_canon <| (claimQueue_canon ..).bind fun _ => (loadSlots_canon ..).bind fun _ => (pushQueue_canon ..).bind fun _ =>
    advanceM_canon

theorem loadPlane_canon (base : Word) (gf : Option (BitVec 4)) (n p : Nat) : MCanon all (loadPlane base gf n p) :=
  (seeLine_canon ..).bind fun _ => (touchM_canon _).bind fun _ => .when (faultAt_canon ..) <| .when (.traps ..) <| .cond (.answer _) <|
    .read fun _ _ => .when (.traps ..) (.answer _)

theorem loadPlanes_canon (base : Word) : ∀ (ps : List (Nat × Nat)) (gf : Option (BitVec 4)), MCanon all (loadPlanes base ps gf)
  | [], _ => .answer _
  | (_, _) :: r, _ => (loadPlane_canon ..).bind fun _ => (loadPlanes_canon base r _).bind fun _ => .answer _

theorem Canon.execVldNp (h : Canon all s) (r a : BitVec 5) (m : BitVec 1) (k : BitVec 4) : OutCanon all (execVldNp r a m k s) :=
  h.deliver <| .cond advanceM_canon <| (claimReg_canon _).bind fun _ => .when (.raises _) <| .when (.traps ..) <| (loadPlanes_canon ..).bind fun _ =>
    (MCanon.update fun _ h => h.putReg _ _).bind fun _ => advanceM_canon

/-! ### Computations whose stop counts at an element -/

/-- What a computation whose stop counts at an element results in leaves the memories canonical. -/
def ElCanon (all : Bool) {α : Type} : Except (Nat × Stop) (α × State) → Prop
  | .ok (_, t) => Canon all t
  | .error (_, x) => StopCanon all x

/-- A computation whose stop counts at an element, keeping the memories canonical. -/
structure ACanon (all : Bool) {α : Type} (m : AtEl α) : Prop where
  res : ∀ s, Canon all s → ElCanon all (m.run s)

theorem ACanon.at {e : Nat} (hm : MCanon all m) : ACanon all (atEl e m) := by
  refine ⟨fun s h => ?_⟩
  change ElCanon all (atEl e m s)
  unfold atEl
  split
  · next ex => exact hm.ok h ex
  · next ex => exact hm.error h ex

theorem ACanon.bind {m : AtEl α} {f : α → AtEl β} (hm : ACanon all m) (hf : ∀ a, ACanon all (f a)) : ACanon all (m >>= f) := by
  refine ⟨fun s h => ?_⟩
  have hr := hm.res s h
  rw [StateT.run_bind]
  cases e : m.run s with
  | ok x =>
    rw [e] at hr
    exact (hf x.1).res x.2 hr
  | error x =>
    rw [e] at hr
    exact hr

theorem ACanon.answer (a : α) : ACanon all (pure a) := ⟨fun _ h => h⟩

theorem ACanon.read {f : State → AtEl α} (hf : ∀ s, Canon all s → ACanon all (f s)) : ACanon all (get >>= f) := ⟨fun s h => (hf s h).res s h⟩

theorem ACanon.when {p : Prop} [Decidable p] {x : AtEl Unit} {k : Unit → AtEl α} (hx : ACanon all x) (hk : ACanon all (k ())) :
    ACanon all (if p then x >>= k else k ()) := by
  split
  · exact hx.bind fun _ => hk
  · exact hk

theorem runLines_canon {f : α → AtEl β} (hf : ∀ j, ACanon all (f j)) (js : List α) (h : Canon all s) :
    FirstCanon all (runLines f js s).2.1 ∧ Canon all (runLines f js s).2.2 := by
  induction js generalizing s with
  | nil => exact ⟨.none, h⟩
  | cons j r ih =>
    have hr := (hf j).res s h
    unfold runLines
    split
    · next ex =>
      rw [ex] at hr
      exact ih hr
    · next e x ex =>
      rw [ex] at hr
      refine ⟨?_, (ih h).2⟩
      dsimp only
      split
      · next e' y hb =>
        split
        · exact .some ((ih h).1 _ _ hb) _
        · exact .some hr e
      · exact .some hr e

theorem allLines_canon {f : α → AtEl β} (hf : ∀ j, ACanon all (f j)) (js : List α) : MCanon all (allLines f js) := by
  refine .read fun s h => ?_
  obtain ⟨hb, ht⟩ := runLines_canon hf js h
  dsimp only
  split
  · next hx => exact (MCanon.stops (hb _ _ hx)).bind fun _ => .answer _
  · exact (MCanon.write ht).bind fun _ => .answer _

end
end Sys2Proof.Machine

/-! SUPPORT. Stores, atomics, bank operations and line tags keep the canonical form of memory. -/

namespace Sys2Proof.Machine

section
variable {all : Bool} {s t : State} {d : Dev} {c : Core} {α β : Type} {m : M α}

/-! ### Stores (R215, R216) -/

theorem addStoreEl_canon (js : List StoreLine) (e : Nat) (loc : Word × Nat) (el : FillEl) (tag : Tag) : MCanon all (addStoreEl js e loc el tag) := by
  unfold addStoreEl
  obtain ⟨va, k⟩ := loc
  dsimp only
  split
  · exact .answer _
  · exact .cond (.read fun _ h => (MCanon.write h.takeFree).bind fun _ => .answer _) (.answer _)

theorem storeLines_canon : ∀ (xs : List (Nat × (Word × Nat) × FillEl × Tag)) (js : List StoreLine), MCanon all (storeLines xs js)
  | [], _ => .answer _
  | (_, _, _, _) :: r, _ => (addStoreEl_canon ..).bind fun _ => storeLines_canon r _

theorem planLine_canon (w : Nat) (j : StoreLine) : ACanon all (planLine w j) :=
  .read fun _ _ => (ACanon.at (translateAt_canon ..)).bind fun _ => (ACanon.at (readLine_canon ..)).bind fun _ => .read fun _ _ =>
    .when (.at (.traps ..)) <| .when (.at (faultAt_canon ..)) <| .when (.at (faultAt_canon ..)) <| .when (.at (.traps ..)) (.answer _)

theorem storeOne_canon (w : Nat) (queue : Bool) (ds : List ((Option Word × Nat) × BitVec 32)) (p : StorePlan) : ACanon all (storeOne w queue ds p) := by
  refine .read fun s _ => ?_
  dsimp only
  split
  · exact (ACanon.at (.traps ..)).bind fun _ => .answer _
  · exact .when (.at (.traps ..)) <| (ACanon.at (writeLine_canon ..)).bind fun _ => .answer _

theorem firstOf_canon {a b : Option (Nat × Stop)} (ha : FirstCanon all a) (hb : FirstCanon all b) : FirstCanon all (firstOf a b) := by
  unfold firstOf
  split
  · split
    · exact hb
    · exact ha
  · exact ha
  · exact hb

theorem storeStrip_canon (queue : Bool) (xs : List (Nat × (Word × Nat) × FillEl × Tag)) : MCanon all (storeStrip queue xs) := by
  refine (storeLines_canon ..).bind fun js => .read fun s h => ?_
  obtain ⟨hb₁, h₁⟩ := runLines_canon (planLine_canon s.st.gw) js h
  have h₂ (ds : List ((Option Word × Nat) × BitVec 32)) (ps : List StorePlan) := runLines_canon (storeOne_canon s.st.gw queue ds) ps h₁
  dsimp only
  split
  · next e => exact .stopsThen (firstOf_canon hb₁ (h₂ _ _).1 _ _ e) _
  · refine (MCanon.write ?_).bind fun _ => (touchAll_canon _).bind fun _ => raiseFlags_canon _
    exact .of (h₂ _ _).2.dev (h₂ _ _).2.core

theorem vecStore_canon (v : BitVec 5) (ix : Option (BitVec 5)) (strip : Strip) : MCanon all (vecStore v ix strip) :=
  (readUnless0_canon _).bind fun _ => .read fun _ _ => (issueAccess_canon ..).bind fun _ => .cond advanceM_canon <|
    (storeStrip_canon ..).bind fun _ => advanceM_canon

theorem queueStore_canon (q : BitVec 3) (strip : Strip) : MCanon all (queueStore q strip) :=
  .read fun _ _ => .cond advanceM_canon <| (headQueue_canon ..).bind fun _ => (storeStrip_canon ..).bind fun _ =>
    (MCanon.update fun _ h => h.setQueue _ _).bind fun _ => advanceM_canon

/-! ### Atomics and bank operations (R217 to R223) -/

theorem rmwClass_canon (va : Word) (tr : Tr) (t : Tag) (e : Nat) : MCanon all (rmwClass va tr t e) := by
  unfold rmwClass
  exact .when (faultAt_canon ..) <| .when (.traps ..) <| .cond (faultAt_canon ..) (.answer _)

theorem Canon.amoReturn (h : Canon all s) (r : BitVec 5) (n x : Nat) : Canon all (s.amoReturn r n x) := by
  simp only [State.amoReturn]
  split
  · exact h.advanceValue _ _
  · split
    · split
      · exact (h.advanceValue _ _).setX _ _
      · exact .of (h.advanceValue _ _).dev (h.advanceValue _ _).core
    · exact h.advanceValue _ _

theorem Canon.execAmo (h : Canon all s) (r a b : BitVec 5) (o : BitVec 4) (z : BitVec 2) : OutCanon all (execAmo r a b o z s) :=
  h.deliver <| .when (.traps ..) <| (engGate_canon _).bind fun _ => (translateAt_canon ..).bind fun _ => (readHome_canon ..).bind fun _ =>
    (rmwClass_canon ..).bind fun _ => (raiseFlags_canon _).bind fun _ => (writeHome_canon ..).bind fun _ => (touchM_canon _).bind fun _ =>
    .update fun _ h => h.amoReturn _ _ _

theorem amoVLine_canon (o fi : BitVec 4) (F : Fmt) (j : UpdLine) : ACanon all (amoVLine o fi F j) :=
  .read fun _ _ => (ACanon.at (translateAt_canon ..)).bind fun _ => (ACanon.at (readHome_canon ..)).bind fun _ => .read fun _ _ =>
    .when (.at (.traps ..)) <| (ACanon.at (rmwClass_canon ..)).bind fun _ => .when (.at (.traps ..)) <| .when (.at (.traps ..)) <|
    .when (.at (.traps ..)) <| (ACanon.at (writeHome_canon ..)).bind fun _ => .answer _

theorem Canon.execAmoV (h : Canon all s) (v a b : BitVec 5) (x : BitVec 1) (o : BitVec 4) : OutCanon all (execAmoV v a b x o s) :=
  h.deliver <| (readUnless0_canon _).bind fun _ => .read fun _ _ => (issueAccess_canon ..).bind fun _ => .when (.raises _) <| .cond advanceM_canon <|
    (allLines_canon (amoVLine_canon _ _ _) _).bind fun _ => (touchAll_canon _).bind fun _ => (raiseFlags_canon _).bind fun _ => advanceM_canon

theorem bankLine_canon (o : BitVec 5) (fac : Option Val) (fi : BitVec 4) (rf : Fmt) (j : UpdLine) : ACanon all (bankLine o fac fi rf j) :=
  .read fun _ _ => (ACanon.at (translateAt_canon ..)).bind fun _ => (ACanon.at (readHome_canon ..)).bind fun _ => .read fun _ _ =>
    .when (.at (.traps ..)) <| (ACanon.at (rmwClass_canon ..)).bind fun _ => .when (.at (.traps ..)) <| .when (.at (.traps ..)) <|
    .when (.at (.traps ..)) <| (ACanon.at (writeHome_canon ..)).bind fun _ => (ACanon.at (touchM_canon _)).bind fun _ => .answer _

theorem bankUpdate_canon (o : BitVec 5) (fac : Option Val) (a b : BitVec 5) : MCanon all (bankUpdate o fac a b) :=
  (readUnless0_canon _).bind fun _ => .read fun _ _ => (issueAccess_canon ..).bind fun _ => .cond advanceM_canon <| .when (.traps ..) <|
    (allLines_canon (bankLine_canon _ _ _ _) _).bind fun _ => (raiseFlags_canon _).bind fun _ => advanceM_canon

theorem mcasLine_canon (r q : VReg) (w g : Nat) (base : Word) (k : Nat) : ACanon all (mcasLine r q w g base k) :=
  .read fun _ _ => (ACanon.at (translateAt_canon ..)).bind fun _ => (ACanon.at (readHome_canon ..)).bind fun _ => .read fun _ _ =>
    .when (.at (.traps ..)) <| (ACanon.at (rmwClass_canon ..)).bind fun _ => .when (.at (.traps ..)) <|
    .when (.at (writeHome_canon ..)) <| (ACanon.at (touchM_canon _)).bind fun _ => .answer _

theorem Canon.execMcas (h : Canon all s) (r a b : BitVec 5) : OutCanon all (execMcas r a b s) :=
  h.deliver <| (claimUnless0_canon _).bind fun _ => (readUnless0_canon _).bind fun _ => .read fun _ _ => (issueAccess_canon ..).bind fun _ =>
    .cond (.update fun _ h => h.advanceValue _ _) <| .when (.traps ..) <| .when (.raises _) <| (allLines_canon (mcasLine_canon _ _ _ _ _) _).bind fun _ =>
    (MCanon.update fun _ h => h.putReg _ _).bind fun _ => .update fun _ h => h.advanceValue _ _

/-! ### Full/empty bits and line tags (R224 to R226) -/

theorem feRange_canon (a b : BitVec 5) : MCanon all (feRange a b) := .read fun _ _ => .when (.traps ..) (.answer _)

theorem Canon.execFeWait (h : Canon all s) (a b : BitVec 5) : OutCanon all (execFeWait a b s) :=
  h.deliver <| (feRange_canon ..).bind fun _ => .when .waits advanceM_canon

theorem CoreCanon.setFe (h : CoreCanon all c) (k n : Nat) (full : Bool) : CoreCanon all (c.setFe k n full) := ⟨h.spad⟩

theorem changeFe_canon (r a b : BitVec 5) (full : Bool) : MCanon all (changeFe r a b full) :=
  (feRange_canon ..).bind fun _ => .read fun _ h => .when .waits <| (MCanon.write (.of h.dev (h.core.setFe _ _ _))).bind fun _ =>
    .update fun _ h => h.advanceValue _ _

theorem Canon.execLtagLd (h : Canon all s) (r a : BitVec 5) : OutCanon all (execLtagLd r a s) :=
  h.deliver <| (translateAt_canon ..).bind fun _ => (readLine_canon ..).bind fun _ => (touchM_canon _).bind fun _ => .update fun _ h => h.advanceValue _ _

theorem Canon.execLtagSt (h : Canon all s) (a b : BitVec 5) : OutCanon all (execLtagSt a b s) :=
  h.deliver <| (translateAt_canon ..).bind fun _ => (readHome_canon ..).bind fun _ => .when (faultAt_canon ..) <| .read fun _ h =>
    .when (.write h.takeFree) <| (writeHome_canon ..).bind fun _ => (touchM_canon _).bind fun _ => advanceM_canon

end
end Sys2Proof.Machine

/-! SUPPORT. Every instruction, agent step and turn keeps the canonical form of memory, and the statement. -/

namespace Sys2Proof.Machine

section
variable {all : Bool} {s t : State} {d : Dev} {c : Core} {α β : Type} {m : M α}

/-! ### Every instruction and agent step, and a turn of the machine -/

theorem exec_canon (h : Canon all s) (i : Instr) : OutCanon all (exec i s) := by
  cases i with
  | add _ _ _ | sub _ _ _ | mul _ _ _ | mulh _ _ _ | mulhu _ _ _ | div _ _ _ | divu _ _ _ | rem _ _ _ | remu _ _ _ | and _ _ _ | or _ _ _
  | xor _ _ _ | sll _ _ _ | srl _ _ _ | sra _ _ _ | slt _ _ _ | sltu _ _ _ | min _ _ _ | max _ _ _ | minu _ _ _ | maxu _ _ _ | clz _ _
  | ctz _ _ | popc _ _ | sel _ _ _ | addi _ _ _ | andi _ _ _ | ori _ _ _ | xori _ _ _ | slti _ _ _ | slli _ _ _ | srli _ _ _ | srai _ _ _
  | adda _ _ _ | lih _ _ | mpopc _ _ | mfirst _ _ | dfrCnt _ _ | mbud _ => exact h.result _ _
  | beq _ _ _ | bne _ _ _ | blt _ _ _ | bge _ _ _ | bltu _ _ _ | bgeu _ _ _ => exact h.branch _ _
  | jal _ _ | jalr _ _ _ => exact .of (h.transfer (h.setX _ _) _)
  | loop _ _ => exact h.execLoop ..
  | ploop _ _ _ => exact h.execPloop ..
  | ld _ _ _ _ => exact h.execLd ..
  | st _ _ _ _ => exact h.execSt ..
  | ipf _ _ => exact .of (h.prefetch _).advance
  | dpf _ _ => exact h.execDpf ..
  | vshapeImm _ _ _ _ | vshapeReg _ _ _ _ => exact .of (h.vshape _ _ _ _)
  | vquery _ _ => exact h.execVquery ..
  | bqPush _ => exact h.execBqPush ..
  | bqBr _ => exact h.execBqBr ..
  | fence _ _ => exact h.execFence ..
  | bar => exact h.execBar
  | trap _ | unallocatedEncoding _ => exact .of (h.takeTrap _ _ _ _)
  | nop | yield => exact .of h.advance
  | sysr _ _ => exact h.execSysr ..
  | sysw _ _ => exact h.execSysw ..
  | sbr _ _ _ _ _ _ => exact h.execSbr ..
  | acq _ _ => exact .of (h.settleAcquire (acquire_canon _ _))
  | tryacq _ _ => exact .of (h.settleAcquire (tryAcquire_canon _ _))
  | rel _ => exact .of (h.settleKept (release_canon _))
  | cqPush _ _ _ => exact h.execCqPush ..
  | knWait _ _ => exact h.execKnWait ..
  | knSig _ _ => exact h.execKnSig ..
  | renq _ _ _ => exact h.execRenq ..
  | evqPop _ => exact h.execEvqPop ..
  | evqPeek _ => exact .of (h.setEvent _ _).advance
  | bobLd _ => exact h.execBobLd ..
  | bobGo _ _ _ => exact h.execBobGo ..
  | ovl _ => exact h.execOvl ..
  | lnrSub _ _ => exact h.execLnrSub ..
  | ftWr _ _ _ => exact h.execFtWr ..
  | pkWr _ _ _ => exact h.execPkWr ..
  | recode _ _ _ => exact h.execRecode ..
  | swp _ _ _ => exact h.execSwp ..
  | winst _ _ => exact h.execWinst ..
  | wstat _ _ _ => exact h.execWstat ..
  | heatRd _ _ _ => exact h.execHeatRd ..
  | eret => exact h.execEret
  | tlbi _ _ => exact h.execTlbi ..
  | rpl _ _ _ => exact h.execRpl ..
  | wfi => exact h.execWfi
  | ctxSave _ _ _ => exact h.execCtxSave ..
  | ctxLoad _ _ => exact h.execCtxLoad ..
  | migDirty _ _ _ => exact h.execMigDirty ..
  | sysrp _ _ => exact h.execSysrp ..
  | syswp _ _ => exact h.execSyswp ..
  | vldU _ _ _ _ _ _ | vldS _ _ _ _ _ _ _ | vldX _ _ _ _ _ _ _ | vldB _ _ _ _ _ _ _ => exact h.deliver (vecLoad_canon ..)
  | vldUQueue _ _ | vldBQueue _ _ _ => exact h.deliver (queueLoad_canon ..)
  | vldNp _ _ _ _ => exact h.execVldNp ..
  | vstU _ _ | vstS _ _ _ | vstX _ _ _ | vstB _ _ _ => exact h.deliver (vecStore_canon ..)
  | vstUQueue _ _ | vstBQueue _ _ _ => exact h.deliver (queueStore_canon ..)
  | amo _ _ _ _ _ => exact h.execAmo ..
  | amoV _ _ _ _ _ => exact h.execAmoV ..
  | mred _ _ _ | msax _ _ _ => exact h.deliver (bankUpdate_canon ..)
  | mcas _ _ _ => exact h.execMcas ..
  | cp _ _ _ | cpFp _ _ _ | cpCmp _ _ _ => exact h.deliver (issueCopy_canon ..)
  | cpConv _ _ _ => exact h.execCpConv ..
  | cpClose _ => exact h.execCpClose ..
  | cpWait _ => exact h.execCpWait ..
  | wset _ _ => exact h.execWset ..
  | wwait _ _ => exact h.execWwait ..
  | feWait _ _ => exact h.execFeWait ..
  | feSet _ _ _ | feClr _ _ _ => exact h.deliver (changeFe_canon ..)
  | ltagLd _ _ => exact h.execLtagLd ..
  | ltagSt _ _ => exact h.execLtagSt ..
  | vadd _ _ _ _ _ | vsub _ _ _ _ _ | vmul _ _ _ _ _ | vfma _ _ _ _ _ | vfms _ _ _ _ _ | vfnma _ _ _ _ _ | vdiv _ _ _ _ _ | vsqrt _ _ _
  | vrsqrt _ _ _ | vrcp _ _ _ | vexp2 _ _ _ | vlog2 _ _ _ | vtanh _ _ _ | vsin _ _ _ | vcos _ _ _ | vmin _ _ _ _ _ | vmax _ _ _ _ _
  | vabs _ _ _ | vneg _ _ _ | vsgnj _ _ _ _ _ | vmulh _ _ _ _ _ | vsll _ _ _ _ _ | vsrl _ _ _ _ _ | vsra _ _ _ _ _ | vand _ _ _ _ _
  | vor _ _ _ _ _ | vxor _ _ _ _ _ | vfsh _ _ _ _ _ | vpopc _ _ _ | vclz _ _ _ | vsadd _ _ _ _ _ => exact h.deliver (vectorOp_canon ..)
  | vcmp _ _ _ _ _ _ | vbound _ _ _ _ _ => exact h.deliver (compareOp_canon ..)
  | mand _ _ _ | mor _ _ _ | mxor _ _ _ | mandn _ _ _ | mset _ _ => exact h.maskOp _ _
  | vcvt r a x f => exact h.execVcvt r a x f
  | vquant r a x b => exact h.execVquant r a x b
  | vamax r a x => exact h.execVamax r a x
  | vtagr r a x b => exact h.execVtagr r a x b
  | vtagw _ _ _ => exact h.execVtagw ..
  | vscl r a x b => exact h.execVscl r a x b
  | vmov _ _ _ | vbcast _ _ _ _ | vslideup _ _ _ _ | vslidedn _ _ _ _ | vcompress _ _ _ | vexpand _ _ _ | vzip _ _ _ _ | vunzip _ _ _
  | vtrn _ _ _ _ | vrev _ _ _ => exact h.deliver (moveOp_canon ..)
  | vperm r a x b => exact h.execVperm r a x b
  | vext r a x b => exact h.execVext r a x b
  | vins _ _ _ => exact h.execVins ..
  | vred r a x b => exact h.execVred r a x b
  | vscan r a x b => exact h.execVscan r a x b
  | dfrPush _ _ _ _ => exact h.execDfrPush ..
  | dfrPop _ _ _ _ => exact h.execDfrPop ..
  | qpop _ _ => exact h.execQpop ..
  | qpush _ _ => exact h.execQpush ..
  | matAtt _ _ => exact h.execMatAtt ..
  | matDet => exact h.execMatDet
  | tzero _ => exact h.execTzero ..
  | tpeek _ _ => exact h.execTpeek ..
  | twait _ => exact h.execTwait ..
  | mop _ _ _ _ _ _ | mopn _ _ _ _ _ _ _ _ => exact h.deliver (matrixOp_canon ..)
  | vlut3 r a x b y k => exact h.execVlut3 r a x b y k
  | pfx _ _ _ _ _ _ => exact h.execPfx ..
  | pendingLoadWrite => exact h.execPendingLoadWrite
  | trapDiversion => exact .of h.divert
  | gangStart => exact h.execGangStart
  | gangEnd => exact h.execGangEnd
  | matrixRetire _ _ => exact h.execMatrixRetire ..
  | budgetRefill _ _ => exact h.execBudgetRefill ..
  | bastingEntryWrite => exact .of (h.tryWrite _)
  | landing _ _ => exact h.execLanding ..
  | batchComplete _ => exact h.execBatchComplete ..
  | eventPost => exact .of (.of h.dev h.core.postHeld)
  | commandBlockStart _ => exact h.execCommandBlockStart ..
  | bobbinEmission => exact h.execBobbinEmission
  | faultRecordWrite _ => exact h.execFaultRecordWrite ..
  | residentEntry => exact .of h.residentEntry
  | walkerAssign _ => exact h.execWalkerAssign ..
  | launchComplete _ _ => exact h.execLaunchComplete ..
  | requeueRestore => exact h.execRequeueRestore
  | powerWake => exact h.execPowerWake
  | bringUp => exact h.execBringUp
  | machineCheck _ => exact h.execMachineCheck ..
  | installBlockVerify _ _ => exact h.execInstallBlockVerify ..
  | installCommit _ => exact h.execInstallCommit ..
  | recodeLineStep _ => exact h.execRecodeLineStep ..
  | turnoverSwap _ => exact h.execTurnoverSwap ..
  | stagingFill _ _ => exact h.execStagingFill ..
  | claspRequest _ _ _ => exact h.execClaspRequest ..
  | recallClasp _ => exact h.execRecallClasp ..
  | signature _ => exact h.execSignature ..
  | grant _ => exact h.execGrant ..
  | refusal _ => exact h.execRefusal ..
  | writeBack _ => exact h.execWriteBack ..
  | acknowledge _ => exact h.execAcknowledge ..
  | partitionEnable _ => exact .of (h.setDev (h.dev.updPart _ _))
  | partitionDisable _ => exact h.execPartitionDisable ..
  | thermal _ => exact h.execThermal ..
  | debugStop _ _ _ => exact h.execDebugStop ..
  | srRpend _ => exact .of (h.clearPending _)
  | srPtroot _ => exact .of (h.writeRoot _)
  | srRing _ => exact .of (h.ring _)
  | srEbw _ => exact .of (h.setSel _)
  | srStage _ => exact .of (h.resizeStage _)
  | srWalw _ | srPctlHold _ => exact .of (h.setPart _)
  | srSptop _ _ => exact .of (h.setTop _ _)
  | srPwrRetention | srPwrOff => exact .of (h.requestPower _)
  | srSeed _ => exact .of (h.writeSr_getD _ _)
  | registerWrite _ _ => exact .of (h.writeNumbered _ _)
  | clockGate => exact h.execClockGate
  | linkFailure _ => exact h.execLinkFailure ..
  | uncorrectableError _ _ => exact h.execUncorrectableError ..
  | scrub _ _ => exact h.execScrub ..
  | heatSample _ => exact h.execHeatSample ..
  | heatDecay _ => exact h.execHeatDecay ..
  | allowanceTick _ => exact h.execAllowanceTick ..
  | flashPowerLoss _ => exact h.execFlashPowerLoss ..
  | read _ _ | write _ _ => exact .of (h.request _ _ _)
  | persistent _ _ => exact h.execPersistent ..
  | data _ _ _ => exact h.execData ..
  | lacingFlit _ _ => exact h.execLacingFlit ..
  | bisnp _ => exact h.execBisnp ..
  | hostWrite _ _ _ => exact h.execHostWrite ..
  | farCopyEviction _ _ => exact h.execFarCopyEviction ..
  | hostRead _ => exact h.execHostRead ..
  | hostSnoop _ _ => exact h.execHostSnoop ..
  | outsidePoolWrite _ _ _ => exact h.execOutsidePoolWrite ..
  | modulePowerLoss | configurationRecordChange _ => exact .of (h.setDev ⟨h.dev.mem, h.dev.cores, h.dev.saved⟩)
  | operatingPointChange _ => exact h.execOperatingPointChange ..
  | correctedError _ => exact h.execCorrectedError ..

theorem skipWord_canon (h : Canon all s) (i : Instr) : OutCanon all (skipWord i s) := by
  unfold skipWord
  split
  · exact exec_canon h _
  · split
    · next t e =>
      have ht := (exec_canon h _).next t e
      split
      · exact .of ht.advance
      · exact .of ht
    · exact .fault _
    · exact .refused _
  · split
    · exact .of (h.takeTrap _ _ _ _)
    · split
      · exact .of (h.takeTrap _ _ _ _)
      · exact .of h.advance

theorem issueInstr_canon (h : Canon all s) (i : Instr) : OutCanon all (issueInstr i s) := by
  unfold issueInstr
  split
  · exact .of (h.takeTrap _ _ _ _)
  · split
    · exact skipWord_canon h i
    · exact exec_canon h i

theorem issue_canon (h : Canon all s) : OutCanon all (issue s) := by
  unfold issue
  split
  · next e => exact issueInstr_canon ((fetchAt_canon ..).ok h e) _
  · next e => exact .of (h.stopped ((fetchAt_canon ..).error h e))

theorem Canon.rotate (h : Canon all s) : Canon all s.rotate := by
  simp only [State.rotate]
  split
  · exact h.focus _ _
  · split
    · exact h.focus _ _
    · split
      · exact h.focus _ _
      · exact h

theorem Canon.stepped (h : Canon all s) : Canon all s.stepped := by
  unfold State.stepped
  split
  · exact h
  · exact .of h.dev ⟨h.core.spad⟩

theorem OutCanon.thenStepped {o : Out} (h : OutCanon all o) : OutCanon all (thenStepped o) := by
  cases o with
  | next s => exact .of (h.next s rfl).stepped
  | fault f => exact .fault f
  | refused r => exact .refused r

theorem OutCanon.thenRotate {o : Out} (h : OutCanon all o) : OutCanon all (thenRotate o) := by
  cases o with
  | next s =>
    refine .of ?_
    split
    · exact (h.next s rfl).stepped
    · exact (h.next s rfl).stepped.rotate
  | fault f => exact .fault f
  | refused r => exact .refused r

theorem strandTurn_canon (h : Canon all s) : OutCanon all (strandTurn s) := by
  unfold strandTurn
  split
  · split
    · exact exec_canon h _
    · exact .of h
  · split
    · exact exec_canon h _
    · split
      · exact exec_canon h _
      · split
        · exact exec_canon h _
        · exact issue_canon h

theorem Canon.focusCore (h : Canon all s) (n : Nat) : Canon all (s.focusCore n) := by
  unfold State.focusCore
  split
  · exact h
  · exact h.focus _ _

theorem runTurn_canon (h : Canon all s) : OutCanon all (runTurn s) := by
  have hr (r : List Turn) : Canon all { s with agenda := r } := .of h.dev h.core
  unfold runTurn
  split
  · split
    · split
      · exact exec_canon (hr _) _
      · exact .fault _
    · exact .fault _
  · split
    · exact issue_canon h
    · split
      · exact (strandTurn_canon ((hr _).focus _ _)).thenStepped
      · dsimp only
        split
        · exact exec_canon ((hr _).focusCore _) _
        · exact .of ((hr _).focusCore _)
      · split
        · exact exec_canon h _
        · split
          · exact exec_canon h _
          · exact (strandTurn_canon h).thenRotate

theorem step_canon (h : Canon all s) (e : step s = .next t) : Canon all t := (runTurn_canon h).next t e

end

/-- Settles O60: an invariant of the step. Nothing writes a memory but by storing bytes, tags and lines in it, which keep the canonical form, by
rebuilding it in that form, or by dropping what power does not keep; every step keeps the form of the device's memory alone, and that of all. -/
theorem memoryStaysCanonical : Obligations.MemoryStaysCanonical := by
  unfold Obligations.MemoryStaysCanonical
  intro s t e
  exact ⟨fun h => (canon_false_iff t).mp (step_canon ((canon_false_iff s).mpr h) e),
    fun h => (canon_true_iff t).mp (step_canon ((canon_true_iff s).mpr h) e)⟩

end Sys2Proof.Machine

/-! SUPPORT. The matrix array's own steps (R68, R177, R184, R324): the retirement of an operation, the budget of a context, the entries of the
basting buffer. -/

namespace Sys2Proof.Machine

/-! ### Retirement (R177) -/

theorem Strand.tile_setTile_same (t : Strand) {k : Nat} (hk : k < 4) (x : Tile) : (t.setTile k x).tile k = x := by
  simp [Strand.tile, Strand.setTile, hk]

theorem Strand.setTile_setTile (t : Strand) (k : Nat) (x y : Tile) : (t.setTile k x).setTile k y = t.setTile k y := by
  unfold Strand.setTile
  split
  · simp
  · rfl

/-- A retiring operation writes registers alone. -/
theorem Strand.retireOp_tiles (t : Strand) (k : Nat) (o : MatOp) : (t.retireOp k o).1.tiles = t.tiles := by
  refine List.foldlRecOn (motive := fun p : Strand × BitVec 8 => p.1.tiles = t.tiles) _ _ rfl fun p hp i _ => ?_
  exact (Strand.setReg_tiles _ _ _).trans hp

theorem Strand.retireOp_tile (t : Strand) (k : Nat) (o : MatOp) (j : Nat) : (t.retireOp k o).1.tile j = t.tile j :=
  congrArg (fun x => (x[j]?).getD Tile.clear) (t.retireOp_tiles k o)

/-- The one pending operation of a tile that shows its registers retires into them. -/
theorem Strand.retireOne_single {t : Strand} {k : Nat} {o : MatOp} (hk : k < 4) (hops : (t.tile k).ops = [o]) (hpend : (t.tile k).pending = 1)
    (hpeek : (t.tile k).peek = false) :
    t.retireOne k = (t.retireOp k o).1.setTile k
      { t.tile k with ops := [], done := (t.tile k).done + 1, flags := (t.tile k).flags ||| (t.retireOp k o).2 } := by
  have happly : t.applyFirst k = (t.retireOp k o).1.setTile k { t.tile k with ops := [], flags := (t.tile k).flags ||| (t.retireOp k o).2 } := by
    simp only [Strand.applyFirst, hops, Strand.retireOp_tile]
  simp only [Strand.retireOne, hpend, hpeek, happly, Strand.tile_setTile_same _ hk, Strand.setTile_setTile, Nat.one_ne_zero, if_false,
    Bool.false_eq_true]

theorem execMatrixRetire_single {hart : BitVec 3} {tile : BitVec 2} {s : State} {t : Strand} {o : MatOp} (hat : s.strandAt (9 + hart.toNat) = some t)
    (hops : (t.tile tile.toNat).ops = [o]) (hpend : (t.tile tile.toNat).pending = 1) :
    execMatrixRetire hart tile s = .next ((s.putStrandAt (t.retireOne tile.toNat)).setCtx fun c => { c with eb := c.eb - .ofNat 32 o.extra }) := by
  simp [execMatrixRetire, hat, hops, hpend]

/-! ### Budgets (R184, R324) -/

theorem Dev.ctx_updCtx {d : Dev} {n : Nat} {c : Ctx} {f : Ctx → Ctx} (hf : ∀ x, (f x).id = x.id) (h : d.ctx n = some c) :
    (d.updCtx n f).ctx n = some (f c) := by
  unfold Dev.ctx at h
  have hid : c.id = n := by simpa using List.find?_some h
  have hkeep : (fun x : Ctx => (if x.id = n then f x else x).id == n) = fun x => x.id == n := by
    funext x
    split
    · rw [hf]
    · rfl
  simp only [Dev.ctx, Dev.updCtx, List.find?_map, Function.comp_def, hkeep, h, Option.map_some, hid, if_true]

/-- A context's budget after the power manager's refill. -/
def Ctx.refilled (us : Nat) (c : Ctx) : Ctx :=
  if c.eb.toInt < c.ebceil.toInt then { c with eb := .ofInt 32 (min c.ebceil.toInt (c.eb.toInt + c.ebrate.toInt * us)) } else c

theorem execBudgetRefill_eq (ctx us : Nat) (s : State) :
    execBudgetRefill ctx us s = .next { s with dev := s.dev.updCtx ctx (Ctx.refilled us) } := rfl

theorem Ctx.refilled_id (us : Nat) (c : Ctx) : (c.refilled us).id = c.id := by
  unfold Ctx.refilled
  split
  · rfl
  · rfl

theorem Ctx.refilled_eb_of_full {us : Nat} {c : Ctx} (h : c.ebceil.toInt ≤ c.eb.toInt) : (c.refilled us).eb = c.eb := by
  rw [Ctx.refilled, if_neg h.not_gt]

theorem Ctx.refilled_eb {us : Nat} {c : Ctx} (h : c.eb.toInt < c.ebceil.toInt) :
    (c.refilled us).eb = .ofInt 32 (min c.ebceil.toInt (c.eb.toInt + c.ebrate.toInt * us)) := by
  rw [Ctx.refilled, if_pos h]

/-! ### Basting entries (R68) -/

theorem State.entryOf_baste {s : State} {w : EngWrite} {c : Ctx} (hkind : w.kind = 4) (hctx : s.dev.ctx w.ctx = some c) :
    s.entryOf w = (.ofNat 64 ((s.basteView c).1.toNat / 4096 * 4096 + 32 * ((s.basteView c).2.toNat % 2 ^ ((s.basteView c).1.toNat % 32))),
      (List.range 8).map (fun k => BitVec.ofNat 8 (((s.basteView c).2 + 1).toNat / 256 ^ k)) ++ w.bytes) := by
  simp [State.entryOf, hkind, hctx]

/-- A basting entry at the head of the engine's writes, once its bytes are in memory. -/
theorem State.tryWrite_baste {s u : State} {w : EngWrite} {r : List EngWrite} (hhead : s.core.engWrites = w :: r) (hkind : w.kind = 4)
    (hfree : w.parked = none) (hrun : (recordWrite true (s.viaKey w.ctx) (s.entryOf w).1 (s.entryOf w).2).run s = .ok ((), u))
    (hkeep : u.core.engWrites = s.core.engWrites) :
    s.tryWrite 4 = { u with core := { u.core with engWrites := r }, dev := u.dev.updCtx w.ctx fun c => { c with bhead := c.bhead + 1 } } := by
  have hfind : (w :: r).find? (·.kind == 4) = some w := by simp [hkind]
  have hrest : replaceWrite 4 none u.core.engWrites = r := by simp [hkeep, hhead, replaceWrite, hkind]
  simp only [State.tryWrite, hhead, hfind, hfree, Option.isSome_none, Bool.false_eq_true, if_false, runEngine, hrun, State.setWrite, hrest, if_true]

/-- Settles O39: the tile's one operation retires, the context's budget is refilled, the entry at the head of the writes goes out. -/
theorem matrixArraySteps : Obligations.MatrixArraySteps := by
  unfold Obligations.MatrixArraySteps
  intro hart tile ctx us s t o c
  refine ⟨fun hat hops hpend hpeek => ?retire, fun hctx => ?refill, fun w r u hhead hkind hfree hctx hrun hkeep => ?baste⟩
  case retire =>
    exact (execMatrixRetire_single hat hops hpend).trans (by rw [Strand.retireOne_single tile.isLt hops hpend hpeek])
  case refill =>
    refine ⟨_, c.refilled us, execBudgetRefill_eq ctx us s, Dev.ctx_updCtx (Ctx.refilled_id us) hctx, rfl, rfl, rfl, Ctx.refilled_eb_of_full, fun hlt => ?_⟩
    rw [Ctx.refilled_eb hlt, or_iff_not_imp_right, not_not]
    exact fun ⟨hlo, hhi⟩ => BitVec.toInt_ofInt_eq_self (by decide) hlo hhi
  case baste =>
    have hready : s.core.writeReady 4 = true := by simp [Core.writeReady, hhead, hkind, hfree]
    have hentry := State.entryOf_baste hkind hctx
    have htry := State.tryWrite_baste hhead hkind hfree (by rw [hentry]; exact hrun) hkeep
    change Host.Outcome.next (s.tryWrite (if s.core.writeReady 4 then 4 else 5)) = _
    rw [hready, if_pos rfl, htry]

end Sys2Proof.Machine

/-! SUPPORT. Register loads of a strip (R52, R205, R209 to R211): where an element lies, what ends a load, and what a load does that nothing
ends. -/

namespace Sys2Proof.Machine

/-! ### Where an element of a strip lies (R205) -/

theorem placeAt_of_nat (w b : Nat) (t : Int) :
    let n : Int := perSeg w
    let o := b % 128
    let s0 : Int := if n ≤ (8 * o / w : Nat) then 0 else (8 * o / w : Nat)
    let base : Int := if n ≤ (8 * o / w : Nat) then (b : Int) - o + 128 else (b : Int) - o
    let u := s0 + t
    placeAt w b t = (.ofInt 64 (base + 128 * (u / n)), (u % n).toNat) := by
  intro n o s0 base u
  have ho : ((b : Int) % 128).toNat = o := by omega
  by_cases h : perSeg w ≤ 8 * o / w
  · have h' : n ≤ (8 * o / w : Nat) := Int.ofNat_le.mpr h
    simp only [u, s0, base, placeAt, place, ho, ge_iff_le, h, h', if_true]
    rfl
  · have h' : ¬ n ≤ (8 * o / w : Nat) := mt Int.ofNat_le.mp h
    simp only [u, s0, base, placeAt, place, ho, ge_iff_le, h, h', if_false]
    rfl

/-! ### What ends a load (R52, R209, R210, R213) -/

theorem loadStop_failed (n : Nat) (place : Nat → Word) (e : Nat) (y : Stop) : loadStop n place none (some (e, y)) = some y := rfl

theorem loadStop_unfit (n : Nat) (place : Nat → Word) (k : Nat) : loadStop n place (some k) none = some (.trap tTAG_FORMAT 0 (place k) 0) := rfl

/-- An element that R52 cannot write counts before a failure behind it that is no wait. -/
theorem loadStop_unfit_first {n : Nat} {place : Nat → Word} {k e : Nat} {y : Stop} (hlt : k < e) (hy : y.waits = false) :
    loadStop n place (some k) (some (e, y)) = some (.trap tTAG_FORMAT 0 (place k) 0) := by
  simp [loadStop, hlt, hy]

/-- A failure counts before an element of its segment, at its place or behind it, that R52 cannot write. -/
theorem loadStop_failed_first {n : Nat} {place : Nat → Word} {k e : Nat} {y : Stop} (hle : e ≤ k) (hseg : k / n = e / n) :
    loadStop n place (some k) (some (e, y)) = some y := by
  simp [loadStop, hseg, hle]

/-! ### A register load run (R209 to R211) -/

theorem run_touchAll (trs : List Tr) (s : State) :
    (touchAll trs).run s = .ok ((), (trs.foldr insertTr []).foldl (fun s tr => s.touch tr true) s) := rfl

section
variable {d : BitVec 5} {f : BitVec 1} {t : BitVec 4} {r : BitVec 1} {m : BitVec 3} {ix : Option (BitVec 5)} {strip : Strip} {s u : State} {old : VReg}
  {iv : List Int} {els : List (Option FillEl)} {b : Option (Nat × Stop)} {seen : List SeenLine} {fi : BitVec 4} {x : FillRes}
  (hg : s.st.grant ≠ 0) (hclaim : (claimUnless0 d).run s = .ok (old, s)) (hfi : (if f = 1 then t else old.fmt) = fi)
  (hissue : (issueAccess ix (!old.holds (s.fmt fi) s.st.grant) false).run s = .ok (iv, s))
  (hels : loadEls (perSeg (s.fmt fi).wid) ((List.range s.st.grant).map fun e => (e, strip s iv e)) [] none s = (els, b, seen, u))
  (hx : fill s.fmt fi (if r = 1 then some (s.st.modeOf m) else none) s.st.seed els = x)
include hg hclaim hfi hissue hels hx

/-- A load that a stop ends does nothing besides. -/
theorem run_vecLoad_stops {y : Stop} (hstop : loadStop (perSeg (s.fmt fi).wid) (fun i => (strip s iv i).1) x.bad b = some y) :
    (vecLoad d f t r m ix strip).run s = .error y := by
  simp only [vecLoad, run_bind, run_get, hclaim, hfi, hissue, hg, if_false, hels, hx, hstop, run_stop]

/-- A load that nothing ends: its lines are sampled, its flags raised, its draws taken, its register written. -/
theorem run_vecLoad_done (hstop : loadStop (perSeg (s.fmt fi).wid) (fun i => (strip s iv i).1) x.bad b = none)
    (hcalm : State.calm (((seen.map (·.tr)).foldr insertTr []).foldl (fun s tr => s.touch tr true) u) x.flags) :
    let v := ((seen.map (·.tr)).foldr insertTr []).foldl (fun s tr => s.touch tr true) u
    (vecLoad d f t r m ix strip).run s = .ok ((), (({ v with st := { v.st with flags := v.st.flags ||| x.flags, seed := x.seed } } : State).putReg d
      (old.filled fi (s.fmt fi).wid x)).advance) := by
  simp only [vecLoad, run_bind, run_get, hclaim, hfi, hissue, hg, if_false, hels, hx, hstop, run_set, run_touchAll, run_raiseFlags_calm _ _ hcalm,
    run_modify, run_advanceM]
  rfl

end

/-- What a stop makes of an instruction. -/
def stopEnds (s : State) (o : Out) (y : Stop) : Prop :=
  match y with
  | .trap c n ad fl => o = .next (s.takeTrap c n ad fl)
  | .fault z => o = .next (s.strandFault z)
  | .wait => o = .next s.await
  | .redo _ => True

theorem deliver_stopEnds {s : State} {x : M Unit} {y : Stop} (h : x.run s = .error y) : stopEnds s (deliver s x) y := by
  cases y with
  | trap c n ad fl => exact deliver_trap s x c n ad fl h
  | fault z => exact deliver_fault s x z h
  | wait => exact deliver_wait s x h
  | redo _ => exact trivial

/-- Settles O40: every form is the one register load at the places of its strip. -/
theorem vectorLoads : Obligations.VectorLoads := by
  unfold Obligations.VectorLoads
  refine ⟨fun d a b f t r m s u old iv els seen hg hclaim => ?loads, fun w b t _ _ _ => placeAt_of_nat w b t⟩
  intro g fi done fails base W both
  have hload (i : Instr) (ix : Option (BitVec 5)) (strip : Strip) (hexec : exec i s = deliver s (vecLoad d f t r m ix strip)) :
      both i ix fun e => strip s iv e := by
    refine ⟨?done, ?fails⟩
    case done =>
      intro hissue hels x v hfit hcalm
      exact hexec.trans (deliver_ok _ _ _ (run_vecLoad_done hg hclaim rfl hissue hels rfl (hfit ▸ rfl) hcalm))
    case fails =>
      intro b e k y hissue hels x ends unfit
      have hends (hstop : loadStop (perSeg (s.fmt fi).wid) (fun i => (strip s iv i).1) x.bad b = some y) : ends :=
        show stopEnds s (exec i s) y from hexec ▸ deliver_stopEnds (run_vecLoad_stops hg hclaim rfl hissue hels rfl hstop)
      have hunfit (hstop : loadStop (perSeg (s.fmt fi).wid) (fun i => (strip s iv i).1) x.bad b = some (.trap tTAG_FORMAT 0 (strip s iv k).1 0)) : unfit :=
        hexec.trans (deliver_trap _ _ _ _ _ _ (run_vecLoad_stops hg hclaim rfl hissue hels rfl hstop))
      refine ⟨fun hfit hb => hends ?_, fun hbad hb => hunfit ?_, fun hbad hb hlt hy => hunfit ?_, fun hbad hb hle hseg => hends ?_⟩
      · rw [hfit, hb, loadStop_failed]
      · rw [hbad, hb, loadStop_unfit]
      · rw [hbad, hb, loadStop_unfit_first hlt hy]
      · rw [hbad, hb, loadStop_failed_first hle hseg]
  exact ⟨hload _ _ (stripU a) rfl, hload _ _ (stripS a b) rfl, hload _ _ (stripX a) rfl, hload _ _ (stripB a b) rfl⟩

end Sys2Proof.Machine

/-! SUPPORT. The integer instructions (R70, R105 to R108): each writes one scalar register and completes. -/

namespace Sys2Proof.Machine

/-- An integer instruction writes X[D] and completes. -/
theorem exec_scalarDest {i : Instr} {d : BitVec 5} (s : State) (h : scalarDest i = some d) : ∃ v, exec i s = .next (s.setX d v).advance := by
  unfold scalarDest at h
  split at h
  case h_36 => cases h
  all_goals
    obtain rfl := Option.some.inj h
    exact ⟨_, rfl⟩

/-- A scalar register written and the instruction completed: nothing moves but registers and where the strand goes on. -/
theorem onlyScalars_setX_advance (s : State) (d : BitVec 5) (v : Word) : s.onlyScalars (s.setX d v).advance := by
  unfold State.onlyScalars
  rw [setX_eq]
  rfl

/-- Settles O12: each integer instruction is one write of X[D], which the laws of registers and of completion frame. -/
theorem scalarFrame : Obligations.ScalarFrame := by
  unfold Obligations.ScalarFrame
  refine ⟨fun i d s t hdest hexec => ?frame, fun s d r v => ⟨rfl, rfl, x_setX s d v, x_setX_ne s d r v⟩⟩
  obtain ⟨v, hv⟩ := exec_scalarDest s hdest
  obtain rfl : (s.setX d v).advance = t := Host.Outcome.next.inj (hv.symm.trans hexec)
  refine ⟨onlyScalars_setX_advance s d v, fun r hr => ?_, rfl, fun _ => rfl, fun _ => rfl⟩
  rw [State.advance_x, x_setX_ne s d r v hr]

end Sys2Proof.Machine

/-! SUPPORT. Where a strand goes on (R109, R112, R113, R115, R116): the loop stack judged level by level, and the branches. -/

namespace Sys2Proof.Machine

/-! ### Completing a word (R112, R115, R116) -/

/-- A word that is no body's last goes on at the next one. -/
theorem endLoops_of_not_last (rot : BitVec 4) (pc : Word) (sp : BitVec 8) (rb : BitVec 4) :
    ∀ ls : List LoopLevel, (∀ l ∈ ls, l.last ≠ pc) → endLoops rot pc ls sp rb = (pc + 4, ls, sp, rb)
  | [], _ => rfl
  | l :: r, h => by
    have hl : l.last ≠ pc := h l List.mem_cons_self
    rw [endLoops, if_pos hl, endLoops_of_not_last rot pc sp rb r fun x hx => h x (List.mem_cons_of_mem l hx)]

/-- The step of the rotating base at the end of a `ploop` body (R116). -/
def Strand.rot (t : Strand) : BitVec 4 := if t.kind = .execute then 1 else 0

/-- A completed word, given where the loop processing goes on. -/
theorem advance_of_endLoops (s : State) {pc : Word} {loops : List LoopLevel} {sp : BitVec 8} {rb : BitVec 4}
    (h : endLoops s.st.rot s.st.pc s.st.loops s.st.sp s.st.rb = (pc, loops, sp, rb)) :
    s.advance = { s with st := { s.st with pc := pc, loops := loops, sp := sp, rb := rb, pend := s.st.pend.map .tick, deco := none,
                                           waiting := false, wantsShuttle := false } } := by
  unfold State.advance Strand.advance
  rw [show endLoops (if s.st.kind = .execute then 1 else 0) s.st.pc s.st.loops s.st.sp s.st.rb = _ from h]

section
variable {s : State} {l : LoopLevel} {r : List LoopLevel} (hloops : s.st.loops = l :: r)
include hloops

/-- A word that is not the last of the innermost body is judged by the outer loops alone (R113). -/
theorem advance_of_not_last (hlast : l.last ≠ s.st.pc) :
    let u := ({ s with st := { s.st with loops := r } } : State).advance
    s.advance = { u with st := { u.st with loops := l :: u.st.loops } } := by
  intro u
  refine advance_of_endLoops s ?_
  rw [hloops, endLoops, if_pos hlast]
  rfl

variable (hlast : l.last = s.st.pc)
include hlast

theorem advance_of_loop_again (hkind : l.stages = 0) (hleft : 1 < l.left) :
    s.advance.st.pc = l.first ∧ s.advance.st.loops = { l with left := l.left - 1 } :: r ∧ s.advance.st.rb = s.st.rb := by
  have hends : endLoops s.st.rot s.st.pc s.st.loops s.st.sp s.st.rb = (l.first, { l with left := l.left - 1 } :: r, s.st.sp, s.st.rb) := by
    rw [hloops, endLoops, if_neg (not_not_intro hlast), if_pos hkind, if_pos hleft]
  rw [advance_of_endLoops s hends]
  exact ⟨rfl, rfl, rfl⟩

theorem advance_of_loop_done (hkind : l.stages = 0) (hleft : l.left ≤ 1) :
    s.advance = ({ s with st := { s.st with loops := r } } : State).advance := by
  refine advance_of_endLoops s ?_
  rw [hloops, endLoops, if_neg (not_not_intro hlast), if_pos hkind, if_neg (Nat.not_lt.mpr hleft)]
  rfl

theorem advance_of_ploop_again (hkind : l.stages ≠ 0) (hiter : l.iter + 1 < l.trips + l.stages - 1) :
    s.advance.st.pc = l.first ∧ s.advance.st.loops = { l with iter := l.iter + 1 } :: r ∧ s.advance.st.rb = s.st.rb + s.st.rot ∧
      s.advance.st.sp = stagePred l.stages l.trips (l.iter + 1) := by
  have hends : endLoops s.st.rot s.st.pc s.st.loops s.st.sp s.st.rb =
      (l.first, { l with iter := l.iter + 1 } :: r, stagePred l.stages l.trips (l.iter + 1), s.st.rb + s.st.rot) := by
    rw [hloops, endLoops, if_neg (not_not_intro hlast), if_neg hkind, if_pos hiter]
  rw [advance_of_endLoops s hends]
  exact ⟨rfl, rfl, rfl, rfl⟩

theorem advance_of_ploop_done (hkind : l.stages ≠ 0) (hiter : l.trips + l.stages - 1 ≤ l.iter + 1) :
    s.advance = ({ s with st := { s.st with loops := r, sp := 0, rb := s.st.rb + s.st.rot } } : State).advance := by
  refine advance_of_endLoops s ?_
  rw [hloops, endLoops, if_neg (not_not_intro hlast), if_neg hkind, if_neg (Nat.not_lt.mpr hiter)]
  rfl

end

/-- Bits given as a number, one above another, read as they were given. -/
theorem testBit_foldr_bits (p : Nat → Prop) [DecidablePred p] (n : Nat) : ∀ i k : Nat,
    ((List.range' i n).foldr (fun k acc => 2 * acc + (if p k then 1 else 0)) 0).testBit k = (decide (k < n) && decide (p (i + k))) := by
  induction n with
  | zero => intro i k; simp
  | succ n ih =>
    intro i k
    rw [List.range'_succ, List.foldr_cons]
    cases k with
    | zero => by_cases h : p i <;> simp [h, Nat.testBit_zero]
    | succ k =>
      have hhalf (x b : Nat) (hb : b < 2) : (2 * x + b) / 2 = x := by omega
      rw [Nat.testBit_succ, hhalf _ _ (by split <;> omega), ih]
      simp [Nat.add_assoc, Nat.add_comm 1]

/-- Stage k runs in iterations k to k + trips - 1 (R115). -/
theorem getLsbD_stagePred (stages trips i k : Nat) (hk : k < 8) :
    (stagePred stages trips i).getLsbD k = decide (k < stages ∧ k ≤ i ∧ i < k + trips) := by
  rw [stagePred, BitVec.getLsbD_ofNat, List.range_eq_range', testBit_foldr_bits fun k => k < stages ∧ k ≤ i ∧ i < k + trips]
  simp [hk]

/-! ### Branches (R109, R113, R115) -/

/-- A taken transfer into an active `ploop` body is illegal (R115). -/
theorem transfer_into_ploop (s₀ s : State) (target : Word) (h : ∃ l ∈ s₀.st.loops, l.stages ≠ 0 ∧ l.holds target = true) :
    s₀.transfer s target = s₀.takeTrap 0x01 0 0 0 := by
  obtain ⟨l, hl, hstages, hholds⟩ := h
  rw [State.transfer, if_pos (List.any_eq_true.mpr ⟨l, hl, by simp [hstages, hholds]⟩)]
  rfl

/-- A branch with the condition it decides. -/
theorem branch_clauses (s : State) (o : BitVec 15) (taken : Bool) (c : Prop) [Decidable c] (hc : taken = decide c) :
    let target := s.st.pc + o.signExtend 64 * 4
    (s.mayGoTo target → s.branch taken o = .next (if c then s.goTo target else s.advance)) ∧
    (¬ c → s.branch taken o = .next s.advance) ∧
    (c → (∃ l ∈ s.st.loops, l.stages ≠ 0 ∧ l.holds target = true) → s.branch taken o = .next (s.takeTrap 0x01 0 0 0)) := by
  intro target
  have hbranch : s.branch taken o = .next (if c then s.transfer s target else s.advance) := by simp [State.branch, hc, target]
  rw [hbranch]
  refine ⟨fun hgo => ?_, fun hnot => by rw [if_neg hnot], fun htaken hin => by rw [if_pos htaken, transfer_into_ploop s s target hin]⟩
  rw [transfer_goTo s s target hgo rfl]

/-- Settles O13: loop processing level by level, and each branch by the condition it decides. -/
theorem whereAWordGoesOn : Obligations.WhereAWordGoesOn := by
  unfold Obligations.WhereAWordGoesOn
  refine ⟨fun s => ⟨fun hline => ?next, fun l r hloops hlast => ?outer, fun l r hloops hlast => advance_of_loop_again hloops hlast,
    fun l r hloops hlast => advance_of_loop_done hloops hlast, fun l r hloops hlast hkind hiter => ?again,
    fun l r hloops hlast => advance_of_ploop_done hloops hlast, rfl⟩, fun a b o s => ?branches⟩
  case next =>
    rw [advance_of_endLoops s (endLoops_of_not_last s.st.rot s.st.pc s.st.sp s.st.rb s.st.loops hline)]
    exact ⟨rfl, rfl, rfl, rfl⟩
  case outer =>
    intro u
    rw [advance_of_not_last hloops hlast]
    exact ⟨rfl, rfl, rfl, rfl⟩
  case again =>
    obtain ⟨hpc, hstack, hrb, hsp⟩ := advance_of_ploop_again hloops hlast hkind hiter
    refine ⟨hpc, hstack, hrb, fun k hk htrips => ?_⟩
    rw [hsp, getLsbD_stagePred _ _ _ _ hk, decide_eq_decide]
    omega
  case branches =>
    exact ⟨branch_clauses s o _ _ (beq_eq_decide ..), branch_clauses s o _ _ (by rw [bne, beq_eq_decide, decide_not]), branch_clauses s o _ _ rfl,
      branch_clauses s o _ _ (by rw [BitVec.slt, ← decide_not, decide_eq_decide, not_lt]), branch_clauses s o _ _ rfl,
      branch_clauses s o _ _ (by rw [BitVec.ult, ← decide_not, decide_eq_decide, not_lt])⟩

end Sys2Proof.Machine

/-! SUPPORT. Shapes and queries (R75, R76, R123, R124): the grant by its rule, and the answers on a core that runs a gang. -/

namespace Sys2Proof.Machine

section
variable (cap limit rows len : Nat)

/-- The rows that a request is granted before the attached rows bound them (R75). -/
def grantRows : Nat := if Min.min len cap = 0 then 0 else Min.min rows (cap / Min.min len cap)

/-- The rows granted, bounded by the attached rows where some are (R76). -/
theorem shapeGrant_rows : (shapeGrant cap limit rows len).2 = if limit > 0 then Min.min (grantRows cap rows len) limit else grantRows cap rows len := rfl

theorem shapeGrant_length : (shapeGrant cap limit rows len).1 = if (shapeGrant cap limit rows len).2 = 0 then 0 else Min.min len cap := rfl

theorem shapeGrant_rows_le : (shapeGrant cap limit rows len).2 ≤ grantRows cap rows len := by
  rw [shapeGrant_rows]
  split
  · exact Nat.min_le_left _ _
  · exact Nat.le_refl _

/-- No row is granted of an empty length (R75). -/
theorem grantRows_eq_zero (h : Min.min len cap = 0) : grantRows cap rows len = 0 := if_pos h

theorem grantRows_bounds : grantRows cap rows len ≤ rows ∧ Min.min len cap * grantRows cap rows len ≤ cap := by
  unfold grantRows
  split
  · exact ⟨Nat.zero_le _, Nat.zero_le _⟩
  · exact ⟨Nat.min_le_left _ _, (Nat.mul_le_mul_left _ (Nat.min_le_right _ _)).trans (Nat.mul_div_le _ _)⟩

/-- A grant is empty in both of its sides or in neither (R75). -/
theorem shapeGrant_rows_eq_zero_iff : (shapeGrant cap limit rows len).2 = 0 ↔ (shapeGrant cap limit rows len).1 = 0 := by
  rw [shapeGrant_length]
  split
  next hrows => simp [hrows]
  next hrows =>
    refine iff_of_false hrows fun hlen => hrows (Nat.le_zero.mp ?_)
    exact grantRows_eq_zero cap rows len hlen ▸ shapeGrant_rows_le cap limit rows len

theorem shapeGrant_length_le : (shapeGrant cap limit rows len).1 ≤ Min.min len cap := by
  rw [shapeGrant_length]
  split
  · exact Nat.zero_le _
  · exact Nat.le_refl _

/-- A grant fits the registers (R75). -/
theorem shapeGrant_fits : (shapeGrant cap limit rows len).1 * (shapeGrant cap limit rows len).2 ≤ cap :=
  (Nat.mul_le_mul (shapeGrant_length_le cap limit rows len) (shapeGrant_rows_le cap limit rows len)).trans (grantRows_bounds cap rows len).2

end

/-- A shape completes with what the rule grants of its request (R75, R76, R123). -/
theorem vshape_grants (d : BitVec 5) (w : BitVec 4) (rows len : Nat) (s : State) :
    let W := if w = 0 then 32 else w.toNat + 1
    let cap := s.core.segs * perSeg W
    ∃ t, Host.Outcome.next (s.vshape d (wcWidth w) rows len) = (.next t.advance : Out) ∧ ∃ vl vr y : Nat,
      vl ≤ len ∧ vl ≤ cap ∧ vl * vr ≤ cap ∧ vr ≤ rows ∧ (s.limitRows > 0 → vr ≤ s.limitRows) ∧ (vr = 0 ↔ vl = 0) ∧
      y = (if Min.min len cap = 0 then 0 else Min.min rows (cap / Min.min len cap)) ∧
      vr = (if s.limitRows > 0 then Min.min y s.limitRows else y) ∧ (vr ≠ 0 → vl = Min.min len cap) ∧
      t = ({ s with st := { s.st with vl := .ofNat 15 vl, vr := .ofNat 15 vr, gw := W } } : State).setX d (.ofNat 64 (vl * vr)) := by
  intro W cap
  have hlen := shapeGrant_length_le cap s.limitRows rows len
  refine ⟨_, rfl, (shapeGrant cap s.limitRows rows len).1, (shapeGrant cap s.limitRows rows len).2, grantRows cap rows len,
    hlen.trans (Nat.min_le_left _ _), hlen.trans (Nat.min_le_right _ _), shapeGrant_fits cap s.limitRows rows len,
    (shapeGrant_rows_le cap s.limitRows rows len).trans (grantRows_bounds cap rows len).1, fun hlimit => ?_,
    shapeGrant_rows_eq_zero_iff cap s.limitRows rows len, rfl, shapeGrant_rows cap s.limitRows rows len, fun hrows => ?_, rfl⟩
  · rw [shapeGrant_rows, if_pos hlimit]
    exact Nat.min_le_right _ _
  · rw [shapeGrant_length, if_neg hrows]

theorem Core.pairs_of_gang {c : Core} {g : Gang} (h : c.gang = some g) : c.pairs = g.h := by rw [Core.pairs, h]

theorem Core.segs_of_gang {c : Core} {g : Gang} (h : c.gang = some g) : c.segs = g.segs := by rw [Core.segs, h]

/-- Settles O20: the rule of the grant, and the table of `vquery` with the gang's pairs and segments. -/
theorem shapesAndQueries : Obligations.ShapesAndQueries := by
  unfold Obligations.ShapesAndQueries
  refine ⟨fun d a b w r l s _ => ⟨vshape_grants d w r.toNat l.toNat s, vshape_grants d w (s.x a).toNat (s.x b).toNat s⟩, fun d s g hg => ?_⟩
  rw [← Core.pairs_of_gang hg, ← Core.segs_of_gang hg]
  exact ⟨rfl, rfl, rfl, rfl, rfl⟩

end Sys2Proof.Machine

/-! SUPPORT. Turns of the machine (R82, R101, R191, R361, R393; log 3), an equation for each kind of turn, and what the bodies of loops make
of a word (R114, R115; log 120). -/

namespace Sys2Proof.Machine

/-! ### Turns (R101, R191; log 3) -/

/-- While the module is down only the agenda can move it (R361, R394). -/
theorem step_of_down (s : State) (hdown : s.dev.powered = false ∨ s.dev.failed = true) (hagenda : s.agenda = []) :
    step s = .fault (if s.dev.powered then .deviceFailed else .powerOff) := by
  rw [step, runTurn, if_pos hdown, hagenda]

theorem not_in_pair {s : State} (hdeco : s.st.deco = none) : ¬ (s.st.deco.isSome = true ∧ s.core.canRun s.st = true) := by simp [hdeco]

section
variable {s : State} (hup : s.dev.powered = true) (hwell : s.dev.failed = false)
include hup hwell

theorem not_down : ¬ (s.dev.powered = false ∨ s.dev.failed = true) := by simp [hup, hwell]

/-- The second word of a pair comes at once (R101). -/
theorem step_of_pair (hdeco : s.st.deco.isSome = true) (hrun : s.core.canRun s.st = true) : step s = issue s := by
  rw [step, runTurn, if_neg (not_down hup hwell), if_pos ⟨hdeco, hrun⟩]

variable (hdeco : s.st.deco = none)
include hdeco

theorem step_of_named_agent {c : Nat} {i : Instr} {r : List Turn} (hagenda : s.agenda = .agent c i :: r) (hword : i.hasWord = false)
    (hcore : s.core.num = c) : step s = exec i { s with agenda := r } := by
  have hagent : isAgentStep i = true := by rw [isAgentStep, hword]; rfl
  have hfocus : ({ s with agenda := r } : State).focusCore c = { s with agenda := r } := if_pos hcore
  simp only [step, runTurn, if_neg (not_down hup hwell), if_neg (not_in_pair hdeco), hagenda, hfocus, hagent, if_true]

theorem step_of_named_strand {c n : Nat} {r : List Turn} (hagenda : s.agenda = .strand c n :: r) :
    step s = thenStepped (strandTurn (({ s with agenda := r } : State).focus c n)) := by
  simp only [step, runTurn, if_neg (not_down hup hwell), if_neg (not_in_pair hdeco), hagenda]

variable (hagenda : s.agenda = [])
include hagenda

theorem step_of_coreAgent {i : Instr} (hcore : s.coreAgent = some i) : step s = exec i s := by
  rw [step, runTurn, if_neg (not_down hup hwell), if_neg (not_in_pair hdeco), hagenda]
  simp only [hcore]

variable (hcore : s.coreAgent = none)
include hcore

theorem step_of_devAgent {i : Instr} (hdev : s.devAgent = some i) : step s = exec i s := by
  rw [step, runTurn, if_neg (not_down hup hwell), if_neg (not_in_pair hdeco), hagenda]
  simp only [hcore, hdev]

theorem step_of_no_agent (hdev : s.devAgent = none) : step s = thenRotate (strandTurn s) := by
  rw [step, runTurn, if_neg (not_down hup hwell), if_neg (not_in_pair hdeco), hagenda]
  simp only [hcore, hdev]

end

theorem of_ite_some_eq_none {α : Type} {p : Prop} [Decidable p] {a : α} {x : Option α} (h : (if p then some a else x) = none) : ¬ p ∧ x = none := by
  split at h
  next => cases h
  next hp => exact ⟨hp, h⟩

/-- Where no agent of the core is ready, its CC neither enters the resident level nor is diverted. -/
theorem stays_of_coreAgent_none {s : State} (h : s.coreAgent = none) : s.entersResident = false ∧ s.diverts = false := by
  unfold State.coreAgent at h
  obtain ⟨-, h⟩ := of_ite_some_eq_none h
  obtain ⟨henters, h⟩ := of_ite_some_eq_none h
  obtain ⟨hdiverts, -⟩ := of_ite_some_eq_none h
  exact ⟨Bool.eq_false_iff.mpr henters, Bool.eq_false_iff.mpr hdiverts⟩

/-- A load that is due lands before the next word (R82). -/
theorem strandTurn_of_loadDue {s : State} (hcore : s.coreAgent = none) (hrun : s.core.canRun s.st = true) (hdue : s.st.loadDue = true) :
    strandTurn s = exec .pendingLoadWrite s := by
  obtain ⟨henters, hdiverts⟩ := stays_of_coreAgent_none hcore
  simp [strandTurn, hrun, henters, hdiverts, hdue]

/-- A strand that cannot run does nothing; on a gated core the clock is seen to (R393). -/
theorem strandTurn_of_not_canRun {s : State} (hrun : s.core.canRun s.st = false) :
    strandTurn s = if s.core.pwr = 1 then exec .clockGate s else .next s := by
  rw [strandTurn, if_pos hrun]

/-! ### Words of loop bodies (R114, R115; log 120) -/

section
variable {i : Instr} {s : State}

/-- A transfer, a loop or a `pfx` in the last word of an active body is illegal (R114). -/
theorem issueInstr_of_body_end (hends : endsNoBody i = true) (hlast : ∃ l ∈ s.st.loops, l.last = s.st.pc) :
    issueInstr i s = .next (s.takeTrap 0x01 0 0 0) := by
  obtain ⟨l, hl, hpc⟩ := hlast
  have hany : (s.st.loops.any (·.last == s.st.pc)) = true := List.any_eq_true.mpr ⟨l, hl, beq_iff_eq.mpr hpc⟩
  rw [issueInstr, hends, hany]
  rfl

/-- Any other word of a suppressed stage is skipped (R115). -/
theorem issueInstr_of_suppressed (hsup : s.st.suppressed = true) (hfree : endsNoBody i = false ∨ ∀ l ∈ s.st.loops, l.last ≠ s.st.pc) :
    issueInstr i s = skipWord i s := by
  have hno : (endsNoBody i && s.st.loops.any (·.last == s.st.pc)) = false := by
    rcases hfree with hends | hlast
    · rw [hends, Bool.false_and]
    · rw [List.any_eq_false.mpr fun l hl => by simp [hlast l hl], Bool.and_false]
  rw [issueInstr, hno, if_neg Bool.false_ne_true, if_pos hsup]

/-- A skipped word that is no `pfx` and allocated takes the traps that it alone decides (R115; log 120). -/
theorem skipWord_eq (hword : ∀ w, i ≠ .unallocatedEncoding w) (hpfx : ∀ c v z m r o, i ≠ .pfx c v z m r o) :
    skipWord i s = if illegalWord s i then .next (s.takeTrap tILLEGAL 0 0 0)
      else if isResident i ∧ s.atResident = false then .next (s.takeTrap tPRIVILEGED 0 0 0) else .next s.advance := by
  unfold skipWord
  split
  next w => exact absurd rfl (hword w)
  next c v z m r o => exact absurd rfl (hpfx c v z m r o)
  next => rfl

/-- The words judged alone are neither unallocated nor a `pfx`. -/
theorem skipWord_of_illegalWord (h : illegalWord s i = true) : skipWord i s = .next (s.takeTrap 0x01 0 0 0) := by
  rw [skipWord_eq (by rintro w rfl; cases h) (by rintro c v z m r o rfl; cases h), if_pos h]
  rfl

theorem isResident_of_endsNoBody (h : endsNoBody i = true) : isResident i = false := by
  unfold endsNoBody at h
  split at h
  case h_14 => cases h
  all_goals rfl

theorem illegalWord_of_isResident (h : isResident i = true) : illegalWord s i = false := by
  unfold isResident at h
  split at h
  case h_10 => cases h
  all_goals rfl

theorem skipWord_of_isResident (h : isResident i = true) (hlevel : s.atResident = false) :
    skipWord i s = .next (s.takeTrap 0x02 0 0 0) := by
  rw [skipWord_eq (by rintro w rfl; cases h) (by rintro c v z m r o rfl; cases h), illegalWord_of_isResident h, if_neg Bool.false_ne_true,
    if_pos ⟨h, hlevel⟩]
  rfl

theorem skipWord_advances (hword : ∀ w, i ≠ .unallocatedEncoding w) (hpfx : ∀ c v z m r o, i ≠ .pfx c v z m r o)
    (hlegal : illegalWord s i = false) (hres : isResident i = false) : skipWord i s = .next s.advance := by
  rw [skipWord_eq hword hpfx, hlegal, hres]
  rfl

/-- A pair of a suppressed stage is skipped as one (R115). -/
theorem skipWord_pfx {c : BitVec 5} {v z : BitVec 1} {m : BitVec 3} {r : BitVec 1} {o : BitVec 3} {t : State}
    (h : exec (.pfx c v z m r o) s = .next t) :
    skipWord (.pfx c v z m r o) s = .next (if t.st.deco.isSome then t.advance else t) := by
  simp only [skipWord, h]
  split <;> rfl

end

/-- The stage of a word in a `ploop` body, and its predicate (R115). -/
theorem suppressed_eq {t : Strand} {l : LoopLevel} {r : List LoopLevel} (hloops : t.loops = l :: r) (hstages : l.stages ≠ 0)
    (hholds : l.holds t.pc = true) (hdeco : t.deco = none) :
    t.suppressed = !t.sp.getLsbD ((t.pc.toNat - l.first.toNat) / 4 / (((l.last.toNat - l.first.toNat) / 4 + 1) / l.stages)) := by
  simp [Strand.suppressed, hloops, hstages, hholds, hdeco]

/-- Settles O5: each clause is the equation of one kind of turn or of one kind of word. -/
theorem stepOtherTurns : Obligations.StepOtherTurns := by
  unfold Obligations.StepOtherTurns
  refine ⟨fun s => ⟨fun hoff hagenda => ?off, fun hup hfailed hagenda => ?failed, fun hup hwell => ⟨step_of_pair hup hwell, fun hdeco =>
    ⟨fun c i r hagenda hword hcore => step_of_named_agent hup hwell hdeco hagenda hword hcore,
    fun c n r hagenda => step_of_named_strand hup hwell hdeco hagenda, fun i hagenda => step_of_coreAgent hup hwell hdeco hagenda,
    fun i hagenda hcore => step_of_devAgent hup hwell hdeco hagenda hcore, fun hagenda hcore hdev hrun hdue => ?due,
    fun hagenda hcore hdev hrun => ?idle⟩⟩⟩,
    fun i s => ⟨issueInstr_of_body_end, fun hsup hends hlegal hres hword => ?skips, fun hsup hillegal => ?illegal, fun hsup hends hres hlevel => ?privileged,
    fun hsup hlast hends hlegal hpfx => ?transfer, fun c v z m r o t hsup hlast hexec => ?pair,
    fun l r hloops hstages hholds hdeco => suppressed_eq hloops hstages hholds hdeco⟩⟩
  case off => rw [step_of_down s (.inl hoff) hagenda, hoff]; rfl
  case failed => rw [step_of_down s (.inr hfailed) hagenda, hup]; rfl
  case due => rw [step_of_no_agent hup hwell hdeco hagenda hcore hdev, strandTurn_of_loadDue hcore hrun hdue]
  case idle => rw [step_of_no_agent hup hwell hdeco hagenda hcore hdev, strandTurn_of_not_canRun hrun]
  case skips =>
    rw [issueInstr_of_suppressed hsup (.inl hends),
      skipWord_advances hword (by rintro c v z m r o rfl; cases hends) hlegal hres]
  case illegal =>
    by_cases hlast : endsNoBody i = true ∧ ∃ l ∈ s.st.loops, l.last = s.st.pc
    · exact issueInstr_of_body_end hlast.1 hlast.2
    · have hfree : endsNoBody i = false ∨ ∀ l ∈ s.st.loops, l.last ≠ s.st.pc := by
        rcases not_and_or.mp hlast with hends | hnone
        · exact .inl (Bool.eq_false_iff.mpr hends)
        · exact .inr fun l hl hpc => hnone ⟨l, hl, hpc⟩
      rw [issueInstr_of_suppressed hsup hfree, skipWord_of_illegalWord hillegal]
  case privileged => rw [issueInstr_of_suppressed hsup (.inl hends), skipWord_of_isResident hres hlevel]
  case transfer =>
    rw [issueInstr_of_suppressed hsup (.inr hlast),
      skipWord_advances (by rintro w rfl; cases hends) hpfx hlegal (isResident_of_endsNoBody hends)]
  case pair => rw [issueInstr_of_suppressed hsup (.inr hlast), skipWord_pfx hexec]

end Sys2Proof.Machine

/-! SUPPORT. Instructions under a zero grant (R78): the issue checks judge formats alone, and nothing is read or written. -/

namespace Sys2Proof.Machine

/-! ### The shared shapes of vector instructions -/

/-- An instruction of the common operand path is its operation between its registers (R131). -/
theorem exec_commonPath {i : Instr} {s : State} {o : VOp} {d : BitVec 5} {srcs : List (BitVec 5)} (h : commonPath i s = some (o, d, srcs)) :
    exec i s = deliver s (vectorOp o d srcs) := by
  unfold commonPath at h
  split at h
  case h_32 => cases h
  all_goals
    obtain ⟨rfl, rfl, rfl⟩ := h
    rfl

/-- A code-moving instruction is a choice of the element at each position (R154). -/
theorem exec_moveOperands {i : Instr} {d : BitVec 5} {srcs : List (BitVec 5)} (s : State) (h : moveOperands i = some (d, srcs)) :
    ∃ pick, exec i s = deliver s (moveOp d srcs pick) := by
  unfold moveOperands at h
  split at h
  case h_11 => cases h
  all_goals
    obtain ⟨rfl, rfl⟩ := h
    exact ⟨_, rfl⟩

/-- An instruction that does nothing on a condition completes where it holds. -/
theorem deliver_advance_of (s : State) {p : Prop} [Decidable p] (h : p) (x : M Unit) : deliver s (if p then advanceM else x) = .next s.advance :=
  deliver_ok s _ _ (by rw [if_pos h, run_advanceM])

section
variable {s : State} (hg : s.st.grant = 0)
include hg

/-- Rooms and classes are not judged under a zero grant (R78). -/
theorem run_widthAndClass_zero (srcs : List VReg) (old : VReg) (df : BitVec 4) : (widthAndClass srcs old df).run s = .ok ((), s) := by
  simp only [widthAndClass, run_bind, run_get, hg, ne_eq, not_true_eq_false, if_false, run_pure]

/-- Under a zero grant an arithmetic instruction is judged by its formats alone (R78, R89). -/
theorem run_issueArith_zero (srcs : List (BitVec 5)) (d : BitVec 5) (takes : Fmt → Bool)
    (hpair : let p := s.core.prick (srcs.map fun v => (s.vreg v).fmt); p.al = true ∨ p.trp = false)
    (htakes : takes (s.fmt (s.core.prick (srcs.map fun v => (s.vreg v).fmt)).cf) = true) :
    (issueArith srcs d takes).run s = .ok ((srcs.map s.vreg, s.core.prick (srcs.map fun v => (s.vreg v).fmt)), s) := by
  have hfmts : (srcs.map fun v => s.st.reg (s.st.phys v)).map (·.fmt) = srcs.map fun v => (s.vreg v).fmt := List.map_map
  have hallowed : (!(s.core.prick (srcs.map fun v => (s.vreg v).fmt)).al && (s.core.prick (srcs.map fun v => (s.vreg v).fmt)).trp) = false := by
    rcases hpair with hal | htrp
    · rw [hal]; rfl
    · rw [htrp, Bool.and_false]
  simp only [issueArith, run_bind, run_get, hg, if_true, run_pure, run_widthAndClass_zero hg, hfmts, hallowed, htakes, Bool.not_true,
    Bool.or_self, Bool.false_eq_true, if_false]
  rfl

theorem deliver_vectorOp_zero (o : VOp) (d : BitVec 5) (srcs : List (BitVec 5))
    (hpair : let p := s.core.prick (srcs.map fun v => (s.vreg v).fmt); p.al = true ∨ p.trp = false)
    (htakes : o.takes (s.fmt (s.core.prick (srcs.map fun v => (s.vreg v).fmt)).cf) = true) :
    deliver s (vectorOp o d srcs) = .next s.advance := by
  refine deliver_ok s _ _ ?_
  simp only [vectorOp, run_bind, run_issueArith_zero hg srcs d o.takes hpair htakes, run_get, hg, if_true, run_advanceM]

/-- Under a zero grant sources of one format are all that a code-moving instruction asks for (R78, R154). -/
theorem deliver_moveOp_zero (d : BitVec 5) (srcs : List (BitVec 5)) (pick : Strand → Nat → List VReg → Nat → Option Moved) (f : BitVec 4)
    (hsame : ∀ v ∈ srcs, (s.vreg v).fmt = f) : deliver s (moveOp d srcs pick) = .next s.advance := by
  refine deliver_ok s _ _ ?_
  cases srcs with
  | nil => simp only [moveOp, issueMove, run_bind, run_get, hg, if_true, run_pure, List.map_nil, List.any_nil, ne_eq, not_true_eq_false, decide_false,
      Bool.false_and, Bool.false_eq_true, if_false, run_advanceM]
  | cons a r =>
    have hone : ((a :: r).map fun v => s.st.reg (s.st.phys v)).any (·.fmt != (s.st.reg (s.st.phys a)).fmt) = false := by
      refine List.any_eq_false.mpr fun x hx => ?_
      obtain ⟨v, hv, rfl⟩ := List.mem_map.mp hx
      have hfmts : (s.st.reg (s.st.phys v)).fmt = (s.st.reg (s.st.phys a)).fmt := (hsame v hv).trans (hsame a List.mem_cons_self).symm
      simp [hfmts]
    rw [List.map_cons] at hone
    simp only [moveOp, issueMove, run_bind, run_get, hg, if_true, run_pure, List.map_cons, hone, ne_eq, not_true_eq_false, decide_false,
      Bool.false_and, Bool.false_eq_true, if_false, run_advanceM]

end

/-- Settles O28: by the shape of each instruction. -/
theorem zeroGrantDoesNothing : Obligations.ZeroGrantDoesNothing := by
  unfold Obligations.ZeroGrantDoesNothing
  intro i s hg
  refine ⟨fun o d srcs hpath hpair htakes => ?path, fun d srcs f hmoves hsame => ?moves, fun d q v a b p n m hone => ?ones⟩
  case path => rw [exec_commonPath hpath, deliver_vectorOp_zero hg o d srcs hpair htakes]
  case moves =>
    obtain ⟨pick, hexec⟩ := exec_moveOperands s hmoves
    rw [hexec, deliver_moveOp_zero hg d srcs pick f hsame]
  case ones =>
    rcases hone with rfl | rfl | rfl | rfl | rfl | rfl | ⟨x, rfl⟩
    all_goals exact deliver_advance_of s (by simp [hg]) _

end Sys2Proof.Machine

/-! SUPPORT. How the computations of a vector instruction can end: with an answer, or at a wait or a user trap of the strand; the issue
checks answer with nothing changed (R54, R77, R89, R180). -/

namespace Sys2Proof.Machine

/-- A stop of the instruction itself: it waits, or it raises a user trap. -/
def Stop.own : Stop → Prop
  | .wait => True
  | .trap _ _ _ _ => True
  | _ => False

/-- From `s` a computation answers as `R` says, or it waits or traps. -/
structure Ends {α : Type} (s : State) (m : M α) (R : α → State → Prop) : Prop where
  answers : ∀ {a t}, m.run s = .ok (a, t) → R a t
  stops : ∀ {e}, m.run s = .error e → e.own

/-- From `s` a computation answers what `Q` says and changes nothing, or it waits or traps. -/
def Judges {α : Type} (s : State) (m : M α) (Q : α → Prop) : Prop := Ends s m fun a t => t = s ∧ Q a

section
variable {α β : Type} {s : State} {m : M α} {Q : α → Prop} {R : β → State → Prop}

theorem Judges.bind {f : α → M β} (hm : Judges s m Q) (hf : ∀ a, Q a → Ends s (f a) R) : Ends s (m >>= f) R := by
  cases hrun : m.run s with
  | error e =>
    have hbind : (m >>= f).run s = .error e := by rw [run_bind, hrun]
    exact ⟨fun h => by (rw [hbind] at h; cases h), fun h => Except.error.inj (hbind.symm.trans h) ▸ hm.stops hrun⟩
  | ok x =>
    obtain ⟨hx, hQ⟩ := hm.answers hrun
    have hbind : (m >>= f).run s = (f x.1).run s := by rw [run_bind, hrun, ← hx]
    exact ⟨fun h => (hf x.1 hQ).answers (hbind ▸ h), fun h => (hf x.1 hQ).stops (hbind ▸ h)⟩

theorem Ends.of_ok {b : β} {t : State} {x : M β} (h : x.run s = .ok (b, t)) (hR : R b t) : Ends s x R :=
  ⟨fun e => by obtain ⟨rfl, rfl⟩ := Prod.mk.inj (Except.ok.inj (h.symm.trans e)); exact hR, fun e => by rw [h] at e; cases e⟩

theorem Ends.of_error {e : Stop} {x : M β} (h : x.run s = .error e) (he : e.own) : Ends s x R :=
  ⟨fun q => by rw [h] at q; (cases q), fun q => Except.error.inj (h.symm.trans q) ▸ he⟩

theorem Ends.answer {a : α} (h : Q a) : Judges s (pure a) Q := .of_ok (run_pure a s) ⟨rfl, h⟩

theorem Ends.read {f : State → M β} (h : Ends s (f s) R) : Ends s (get >>= f) R :=
  ⟨fun e => h.answers (by rwa [run_bind, run_get] at e), fun e => h.stops (by rwa [run_bind, run_get] at e)⟩

/-- Two ways to the same kind of answer. -/
theorem Judges.either {p : Prop} [Decidable p] {x y : M α} {f : α → M β} (hx : p → Judges s x Q) (hy : ¬ p → Judges s y Q)
    (hf : ∀ a, Q a → Ends s (f a) R) : Ends s (if p then x >>= f else y >>= f) R := by
  split
  next hp => exact (hx hp).bind hf
  next hp => exact (hy hp).bind hf

theorem Judges.mono {P : α → Prop} (h : Judges s m Q) (hQ : ∀ a, Q a → P a) : Judges s m P :=
  ⟨fun e => ⟨(h.answers e).1, hQ _ (h.answers e).2⟩, h.stops⟩

/-- A check that traps where it fails. -/
theorem Ends.check {p : Prop} [Decidable p] {c : BitVec 8} {k : α → M β} {y : M β} (h : ¬ p → Ends s y R) :
    Ends s (if p then raiseTrap c >>= k else y) R := by
  split
  next => exact .of_error (e := .trap c 0 0 0) (by rw [run_bind, run_raiseTrap]) trivial
  next hp => exact h hp

theorem Ends.cond {p : Prop} [Decidable p] {x y : M β} (hx : p → Ends s x R) (hy : ¬ p → Ends s y R) : Ends s (if p then x else y) R := by
  split
  next hp => exact hx hp
  next hp => exact hy hp

end

/-! ### Registers (R180, R183) -/

section
variable {s : State} (hk : s.st.kind = .execute)
include hk

theorem readReg_judges (v : BitVec 5) : Judges s (readReg v) fun r => r = s.vreg v := by
  by_cases hr : s.readable v
  · exact .of_ok (run_readReg s v hk hr) ⟨rfl, rfl⟩
  · refine .of_error (e := .wait) ?_ trivial
    have hlock : ([s.st.phys v].any fun p => !(s.st.tile (p / 8)).peek && s.st.covered p) = true := by
      simpa [State.readable, not_or] using hr
    simp only [readReg, readLock, run_bind, run_get, xhart_execute s hk, hlock, if_true, run_stop]

theorem mapM_readReg_judges : ∀ srcs : List (BitVec 5), Judges s (srcs.mapM readReg) fun _ => True
  | [] => .answer trivial
  | v :: r => by
    rw [List.mapM_cons]
    exact (readReg_judges hk v).bind fun _ _ => (mapM_readReg_judges r).bind fun _ _ => .answer trivial

/-- Claiming a register of a tile with no peek view changes nothing. -/
theorem claimReg_judges {d : BitVec 5} (hpeek : (s.st.tile (s.st.phys d / 8)).peek = false) :
    Judges s (claimReg d) fun r => r = s.vreg d := by
  by_cases hc : s.st.covered (s.st.phys d) = false
  · exact .of_ok (run_claimReg s d hk ⟨hpeek, hc⟩) ⟨rfl, rfl⟩
  · refine .of_error (e := .wait) ?_ trivial
    have hlock : [s.st.phys d].any s.st.covered = true := by simpa using hc
    simp only [claimReg, writeLock, run_bind, run_get, xhart_execute s hk, hlock, if_true, run_stop]

end

/-! ### Issue checks (R54, R77, R89) -/

/-- The register D has room for the grant in a format. -/
def State.roomIn (s : State) (d : BitVec 5) (fi : BitVec 4) : Prop := s.st.grant ≠ 0 → (s.vreg d).holds (s.fmt fi) s.st.grant = true

theorem widthAndClass_judges (s : State) (srcs : List VReg) (old : VReg) (df : BitVec 4) :
    Judges s (widthAndClass srcs old df) fun _ => s.st.grant ≠ 0 → old.holds (s.fmt df) s.st.grant = true := by
  refine .read <| .cond (fun _ => .check fun hroom => .cond (fun _ => .of_error (run_raiseTrap _ s) trivial) fun _ => .answer fun _ => ?_)
    fun hg => .answer fun h => absurd h hg
  simp only [Bool.or_eq_true, not_or, Bool.not_eq_true, Bool.not_eq_false'] at hroom
  exact hroom.1.2

section
variable {s : State} {d : BitVec 5} (hk : s.st.kind = .execute) (hpeek : (s.st.tile (s.st.phys d / 8)).peek = false)
include hk hpeek

theorem issueArith_judges (srcs : List (BitVec 5)) (takes : Fmt → Bool) :
    Judges s (issueArith srcs d takes) fun x => s.roomIn d x.2.cf := by
  unfold issueArith
  refine .read <| Judges.either (Q := fun _ => True) (fun _ => .answer trivial) (fun _ => mapM_readReg_judges hk srcs) fun regs _ => ?_
  refine Judges.either (Q := fun r => r = s.vreg d) (fun _ => .answer rfl) (fun _ => claimReg_judges hk hpeek) fun old hold => ?_
  subst hold
  exact (widthAndClass_judges ..).bind fun _ hroom => .check fun _ => .answer hroom

theorem issueConvert_judges (a : BitVec 5) (f : BitVec 4) : Judges s (issueConvert d a f) fun _ => s.roomIn d f := by
  unfold issueConvert
  refine .read <| Judges.either (Q := fun _ => True) (fun _ => .answer trivial) (fun _ => (readReg_judges hk a).mono fun _ _ => trivial) fun src _ => ?_
  refine Judges.either (Q := fun r => r = s.vreg d) (fun _ => .answer rfl) (fun _ => claimReg_judges hk hpeek) fun old hold => ?_
  subst hold
  exact (widthAndClass_judges ..).bind fun _ hroom => .check fun _ => .answer hroom

theorem issueRed_judges (a : BitVec 5) (o : Nat) (merging : Bool) : Judges s (issueRed d a o merging) fun x => s.roomIn d x.2.cf := by
  unfold issueRed
  refine .read <| Judges.either (Q := fun _ => True) (fun _ => .answer trivial) (fun _ => (readReg_judges hk a).mono fun _ _ => trivial) fun src _ => ?_
  refine Judges.either (Q := fun r => r = s.vreg d) (fun _ => .answer rfl) (fun _ => claimReg_judges hk hpeek) fun old hold => ?_
  subst hold
  dsimp only
  refine .cond (fun _ => (widthAndClass_judges ..).bind fun _ hroom => .check fun _ => .answer hroom) fun _ => .cond (fun hg => ?_) fun hg => ?_
  · refine .check fun hroom => .check fun _ => .check fun _ => .answer fun _ => ?_
    simp only [Bool.or_eq_true, not_or, Bool.not_eq_true, Bool.not_eq_false'] at hroom
    exact hroom.2
  · exact .check fun _ => .answer fun h => absurd h hg

end
end Sys2Proof.Machine

/-! SUPPORT. The frame of the vector instructions that write one register (R77, R136): what they leave alone where they complete, wait
or trap. -/

namespace Sys2Proof.Machine

/-! ### Registers as a result is written into them (R27, R136) -/

theorem fillSegs_length (w : Nat) (side : Nat → Sidecar) : ∀ (segs : List Seg) (g : Nat) (codes : List Nat),
    (fillSegs w side segs g codes).length = segs.length
  | [], _, _ => rfl
  | _ :: _, _, [] => rfl
  | _ :: r, g, c :: cs => congrArg (· + 1) (fillSegs_length w side r (g + 1) ((c :: cs).drop (perSeg w)))

/-- Segments beyond the codes stay (R136). -/
theorem fillSegs_getElem?_of_le (w : Nat) (side : Nat → Sidecar) : ∀ (segs : List Seg) (g : Nat) (codes : List Nat) (k : Nat),
    codes.length ≤ k * perSeg w → (fillSegs w side segs g codes)[k]? = segs[k]?
  | [], _, _, _, _ => rfl
  | _ :: _, _, [], _, _ => rfl
  | _ :: _, _, c :: cs, 0, h => by simp at h
  | x :: r, g, c :: cs, k + 1, h => by
    have hrest : ((c :: cs).drop (perSeg w)).length ≤ k * perSeg w := by
      rw [List.length_drop, Nat.sub_le_iff_le_add, ← Nat.succ_mul]
      exact h
    exact fillSegs_getElem?_of_le w side r (g + 1) _ k hrest

theorem reg_setReg_same (t : Strand) {p : Nat} (hp : p < 32) (r : VReg) : (t.setReg p r).reg p = r := by
  simp [Strand.setReg, Strand.reg, hp]

theorem reg_setReg_ne (t : Strand) {p q : Nat} (hpq : q ≠ p) (r : VReg) : (t.setReg p r).reg q = t.reg q := by
  unfold Strand.setReg
  split
  · simp [Strand.reg, Vector.getElem_set_ne _ _ hpq.symm]
  · rfl

/-! ### Results that are written -/

/-- `t` is `s` with its instruction completed, register D written below the grant or nothing written. -/
def State.oneRegister (s : State) (d : BitVec 5) (t : State) : Prop :=
  t = s.advance ∨ ∃ fi a side, s.st.grant ≠ 0 ∧ s.roomIn d fi ∧ a.codes.length = s.st.grant ∧ t = s.written d fi a side

theorem commitV_ends {s : State} {d : BitVec 5} {fi : BitVec 4} {a : Acc} {side : Nat → Sidecar} (hg : s.st.grant ≠ 0) (hroom : s.roomIn d fi)
    (hlen : a.codes.length = s.st.grant) : Ends s (commitV d fi a side) fun _ t => s.oneRegister d t := by
  by_cases hbad : a.bad = true
  · refine .of_error (e := .trap tTAG_FORMAT 0 0 0) ?_ trivial
    simp only [commitV, hbad, if_true, run_bind, run_raiseTrap]
  by_cases hcalm : s.calm a.flags
  · exact .of_ok (run_commitV d fi a side s (Bool.eq_false_iff.mpr hbad) hcalm) (.inr ⟨fi, a, side, hg, hroom, hlen, rfl⟩)
  · refine .of_error (e := .trap tARITH ((a.flags &&& s.st.tmask).setWidth 32) 0 a.flags) ?_ trivial
    simp only [commitV, hbad, Bool.false_eq_true, if_false, run_bind, run_raiseFlags_trap a.flags s hcalm]

/-- An instruction that has passed its checks completes with nothing written under a zero grant, and writes its result otherwise. -/
theorem result_ends {s : State} {d : BitVec 5} {fi : BitVec 4} {a : Acc} {side : Nat → Sidecar} (hroom : s.roomIn d fi)
    (hlen : s.st.grant ≠ 0 → a.codes.length = s.st.grant) :
    Ends s (if s.st.grant = 0 then advanceM else commitV d fi a side) fun _ t => s.oneRegister d t :=
  .cond (fun _ => .of_ok (run_advanceM s) (.inl rfl)) fun hg => commitV_ends hg hroom (hlen hg)

theorem elements_codes_length (t : Strand) (draws : Bool) (f : Nat → BitVec 32 → Nat × BitVec 8) (keep : Nat → Option Nat) :
    (elements t draws f keep).codes.length = t.grant := elementsTo_codes_length t draws f keep t.grant

/-- A reduction writes its root and zeros (R158). -/
theorem redAcc_codes_length (o : Nat) (s : State) (src : VReg) (p : Prick) (hg : s.st.grant ≠ 0) : (redAcc o s src p).codes.length = s.st.grant := by
  unfold redAcc
  dsimp only
  split
  all_goals
    rw [List.length_append, List.length_replicate, List.length_singleton]
    omega

section
variable {s : State} {d : BitVec 5} (hk : s.st.kind = .execute) (hpeek : (s.st.tile (s.st.phys d / 8)).peek = false)
include hk hpeek

theorem vectorOp_ends (o : VOp) (srcs : List (BitVec 5)) : Ends s (vectorOp o d srcs) fun _ t => s.oneRegister d t :=
  (issueArith_judges hk hpeek srcs o.takes).bind fun _ hroom => .read (result_ends hroom fun _ => elements_codes_length ..)

/-- Each instruction that writes one vector register ends as one (R131, R145, R146, R158, R159). -/
theorem exec_vectorDest {i : Instr} (h : vectorDest i = some d) :
    ∃ m : M Unit, exec i s = deliver s m ∧ Ends s m fun _ t => s.oneRegister d t := by
  unfold vectorDest at h
  split at h
  case h_36 => cases h
  all_goals obtain rfl := Option.some.inj h
  case h_32 => exact ⟨_, rfl, (issueConvert_judges hk hpeek _ _).bind fun _ hroom => .read (result_ends hroom fun _ => elements_codes_length ..)⟩
  case h_33 => exact ⟨_, rfl, (issueConvert_judges hk hpeek _ _).bind fun _ hroom => .read (result_ends hroom fun _ => elements_codes_length ..)⟩
  case h_34 => exact ⟨_, rfl, (issueRed_judges hk hpeek _ _ _).bind fun _ hroom => .read (result_ends hroom (redAcc_codes_length _ _ _ _))⟩
  case h_35 => exact ⟨_, rfl, (issueRed_judges hk hpeek _ _ _).bind fun _ hroom => .read (result_ends hroom fun _ => elements_codes_length ..)⟩
  all_goals exact ⟨_, rfl, vectorOp_ends hk hpeek _ _⟩

end

/-! ### Traps stop the strand (R198, R201) -/

/-- A gang that is terminated ends its strands, but for a CC at the resident level (R201). -/
theorem terminate_strands (c : Core) (cause who : BitVec 8) :
    ∃ f : Strand → Strand, (∀ t, f t = t ∨ f t = t.ended) ∧ (c.terminate cause who).strands = c.strands.map f := by
  unfold Core.terminate
  split
  · exact ⟨id, fun _ => .inl rfl, (List.map_id _).symm⟩
  · refine ⟨_, fun t => ?_, rfl⟩
    split
    · exact .inl rfl
    · exact .inr rfl

/-- Terminating a gang lets no strand that is stopped run. -/
theorem terminateGang_stopped {s : State} (cause who : BitVec 8) (h : s.st.run ≠ .running) : (s.terminateGang cause who).st.run ≠ .running := by
  obtain ⟨f, hf, hstrands⟩ := terminate_strands s.wholeCore cause who
  have hslot (t : Strand) : (f t).slot = t.slot := (hf t).elim (congrArg Strand.slot) (congrArg Strand.slot)
  have hrun : (f s.st).run ≠ .running := by
    rcases hf s.st with e | e
    · rwa [e]
    · rw [e, Strand.ended_run]
      decide
  have hfound : (s.wholeCore.terminate cause who).strands.find? (fun t => t.slot == s.st.slot) = some (f s.st) := by
    have hsame : ((fun t : Strand => t.slot == s.st.slot) ∘ f) = fun t => t.slot == s.st.slot := funext fun t => by rw [Function.comp_apply, hslot]
    rw [hstrands, List.find?_map, hsame]
    exact congrArg (Option.map f) (find?_putStrand s.st s.core.strands)
  simpa only [State.terminateGang, State.onCore, hfound] using hrun

/-- A hart that traps does not run on (R198). -/
theorem takeTrap_stopped {s : State} (hk : s.st.kind = .execute) (c : BitVec 8) (i : BitVec 32) (a : Word) (f : BitVec 8) :
    (s.takeTrap c i a f).st.run ≠ .running := by
  have huser : s.atResident = false := by simp [State.atResident, hk]
  have hslot : s.st.slot ≠ 0 := by simp [Strand.slot, hk]
  unfold State.takeTrap
  rw [huser, if_neg Bool.false_ne_true]
  split
  · simp
  · dsimp only
    rw [if_neg hslot]
    split
    · exact terminateGang_stopped _ _ (by simp)
    split
    · exact terminateGang_stopped _ _ (by simp)
    · simp

/-! ### The frame -/

/-- `t` is `s` but for where the acting strand goes on, its flags, its generator and its vector registers. -/
def State.onlyVector (s t : State) : Prop :=
  t = { s with st := { s.st with pc := t.st.pc, loops := t.st.loops, sp := t.st.sp, rb := t.st.rb, pend := t.st.pend, deco := t.st.deco,
                                 waiting := t.st.waiting, wantsShuttle := t.st.wantsShuttle, flags := t.st.flags, seed := t.st.seed,
                                 vreg := t.st.vreg } }

/-- Of the vector registers only physical register `p` differs, and of it no segment at or above the grant. -/
def State.keepsRegisters (s t : State) (p : Nat) : Prop :=
  (∀ q, q < 32 → q ≠ p → t.st.reg q = s.st.reg q) ∧ (t.st.reg p).segs.length = (s.st.reg p).segs.length ∧
  ∀ k, segsBelow s.st.grant (s.fmt (t.st.reg p).fmt).wid ≤ k → (t.st.reg p).segs[k]? = (s.st.reg p).segs[k]?

theorem keepsRegisters_of_vreg {s t : State} (h : t.st.vreg = s.st.vreg) (p : Nat) : s.keepsRegisters t p := by
  have hreg (q : Nat) : t.st.reg q = s.st.reg q := by rw [Strand.reg, Strand.reg, h]
  exact ⟨fun q _ _ => hreg q, by rw [hreg], fun k _ => by rw [hreg]⟩

theorem setReg_eq (t : Strand) (p : Nat) (r : VReg) : t.setReg p r = { t with vreg := (t.setReg p r).vreg } := by
  unfold Strand.setReg
  split <;> rfl

theorem onlyVector_written (s : State) (d : BitVec 5) (fi : BitVec 4) (a : Acc) (side : Nat → Sidecar) : s.onlyVector (s.written d fi a side) := by
  unfold State.onlyVector State.written
  rw [setReg_eq]
  rfl

/-- A register with room for the grant has elements in its segments. -/
theorem perSeg_pos_of_holds {r : VReg} {F : Fmt} {g : Nat} (h : r.holds F g = true) (hg : g ≠ 0) : 0 < perSeg F.wid := by
  have hle : g ≤ r.segs.length * perSeg F.wid := of_decide_eq_true h
  refine Nat.pos_of_ne_zero fun hz => hg ?_
  rw [hz, Nat.mul_zero] at hle
  exact Nat.le_zero.mp hle

/-- A result changes the segments of its register that hold an element below the grant (R136). -/
theorem keepsRegisters_written {s : State} {d : BitVec 5} {fi : BitVec 4} {a : Acc} {side : Nat → Sidecar} (hp : s.st.phys d < 32)
    (hg : s.st.grant ≠ 0) (hroom : s.roomIn d fi) (hlen : a.codes.length = s.st.grant) :
    s.keepsRegisters (s.written d fi a side) (s.st.phys d) := by
  have hpos : 0 < perSeg (s.fmt fi).wid := perSeg_pos_of_holds (hroom hg) hg
  have hsame : (s.written d fi a side).st.reg (s.st.phys d) = (s.st.reg (s.st.phys d)).write fi (s.fmt fi).wid a.codes.reverse side :=
    reg_setReg_same s.st hp _
  refine ⟨fun q _ hq => reg_setReg_ne s.st hq _, ?_, fun k hk => ?_⟩
  · rw [hsame]
    exact fillSegs_length ..
  · rw [hsame] at hk ⊢
    have hbeyond : s.st.grant ≤ k * perSeg (s.fmt fi).wid := Nat.not_lt.mp fun h => absurd ((lt_segsBelow_iff hpos k).mpr h) (Nat.not_lt.mpr hk)
    exact fillSegs_getElem?_of_le _ _ _ _ _ _ (by rwa [List.length_reverse, hlen])

/-- A hart's instruction after which the hart still runs has answered, or waits. -/
theorem deliver_runs {s t : State} {m : M Unit} {R : Unit → State → Prop} (hk : s.st.kind = .execute) (hm : Ends s m R)
    (hnext : deliver s m = .next t) (hrun : t.st.run = .running) : t = s.await ∨ R () t := by
  cases hres : m.run s with
  | ok x => exact .inr (Host.Outcome.next.inj ((deliver_ok s x.2 m hres).symm.trans hnext) ▸ hm.answers hres)
  | error e =>
    match e, hm.stops hres with
    | .wait, _ => exact .inl (Host.Outcome.next.inj (hnext.symm.trans (deliver_wait s m hres)))
    | .trap c i a f, _ =>
      have htrap : s.takeTrap c i a f = t := Host.Outcome.next.inj ((deliver_trap s m c i a f hres).symm.trans hnext)
      exact absurd (htrap ▸ hrun) (takeTrap_stopped hk c i a f)

/-- Settles O27: the instruction answers with its one register written, or nothing, or it waits. -/
theorem vectorFrame : Obligations.VectorFrame := by
  unfold Obligations.VectorFrame
  intro i d s t hdest hk _ hpeek hp hexec hrun
  obtain ⟨m, hdeliver, hends⟩ := exec_vectorDest hk hpeek hdest
  obtain ⟨hframe, hothers, hlength, hsegs⟩ : s.onlyVector t ∧ s.keepsRegisters t (s.st.phys d) := by
    rcases deliver_runs hk hends (hdeliver.symm.trans hexec) hrun with rfl | rfl | ⟨fi, a, side, hg, hroom, hlen, rfl⟩
    · exact ⟨rfl, keepsRegisters_of_vreg rfl _⟩
    · exact ⟨rfl, keepsRegisters_of_vreg rfl _⟩
    · exact ⟨onlyVector_written s d fi a side, keepsRegisters_written hp hg hroom hlen⟩
  rw [hframe] at hothers hlength hsegs ⊢
  exact ⟨rfl, rfl, rfl, rfl, rfl, rfl, rfl, rfl, rfl, rfl, rfl, rfl, rfl, rfl, rfl, rfl, rfl, rfl, rfl, rfl, hothers, hlength, hsegs⟩

end Sys2Proof.Machine

/-! SUPPORT. Copies as the A-harts issue them (R78, R192, R230, R231, R242 to R244, R260; logs 76, 135): the checks, the Shuttle's turn, the
start, and the descriptor of a convolution. -/

namespace Sys2Proof.Machine

/-! ### The issue of a copy (R231) -/

/-- The copy of a plan started under batch `n` of the acting strand of `s₀`, whose on-die lines are then at home (R236, R334). -/
def State.copyStarted (s₀ v : State) (p : Plan) (n : BitVec 32) (xl : List Xlat) : State :=
  let lines := p.lines.map (placeLine v (v.viaKey s₀.via.key) xl)
  let t := v.startCopy ⟨s₀.st.slot, 1, 5, n, none, s₀.via.key, s₀.core.launchId, s₀.st.wordPc⟩ p lines xl
  { t with dev := (lines.filterMap fun (l : LandLine) => l.own).foldl (fun d n => d.tokensHome (n * 128)) t.dev }

section
variable {s₀ : State} {q : CopyReq} {c : BitVec 512}

/-- A failed check traps with its cause and address. -/
theorem run_issueCopy_trap {e : Check} (hcheck : checkCopy s₀.fmt q c = some e) : (issueCopy q c).run s₀ = .error (.trap e.1 0 e.2 0) := by
  simp only [issueCopy, run_bind, run_get, hcheck, run_stop]

variable (hcheck : checkCopy s₀.fmt q c = none)
include hcheck

/-- A strip of no elements is no copy (R78). -/
theorem run_issueCopy_empty (hop : q.op < 2) (hsize : q.size = 0) : (issueCopy q c).run s₀ = .ok ((), s₀.advance) := by
  simp only [issueCopy, run_bind, run_get, hcheck, hop, hsize, and_self, if_true, run_advanceM]

variable {u : State} {xl : List Xlat} (hsize : q.op < 2 → q.size ≠ 0)
  (hpages : ((planCopy q c s₀.st.seed).mapPages s₀.via).run s₀ = .ok (xl, u))
include hsize hpages

/-- The Shuttle takes no copy now: the strand comes back to it as one that waits for it (R192; log 135). -/
theorem run_issueCopy_turn (hturn : u.core.shuttleBusy = true ∨ u.shuttleTurn s₀.st.slot = false) :
    (issueCopy q c).run s₀ = .error (.redo fun _ u => { u with st := { u.st with wantsShuttle := true } }) := by
  have hlater : (u.core.shuttleBusy || !u.shuttleTurn s₀.st.slot) = true := by rcases hturn with h | h <;> simp [h]
  have hcopy : ¬ (q.op < 2 ∧ q.size = 0) := fun h => hsize h.1 h.2
  simp only [issueCopy, run_bind, run_get, hcheck, hcopy, hpages, hlater, if_false, if_true, run_stop]

variable {v : State} {n : BitVec 32} (hbusy : u.core.shuttleBusy = false) (hturn : u.shuttleTurn s₀.st.slot = true)
  (hbatch : openBatch.run u = .ok (n, v))
include hbusy hturn hbatch

/-- A copy one of whose lines another Shuttle owns waits (R260). -/
theorem run_issueCopy_waits (hwaits : v.startWaits s₀.st.slot (planCopy q c s₀.st.seed)
      ((planCopy q c s₀.st.seed).lines.map (placeLine v (v.viaKey s₀.via.key) xl)) = true) :
    (issueCopy q c).run s₀ = .error .wait := by
  have hcopy : ¬ (q.op < 2 ∧ q.size = 0) := fun h => hsize h.1 h.2
  simp only [issueCopy, startM, run_bind, run_get, hcheck, hcopy, hpages, hbusy, hturn, hbatch, hwaits, Bool.not_true, Bool.or_self, Bool.false_eq_true,
    if_false, if_true, run_stop]

/-- The copy starts, the generator has taken its draws, and the Shuttle's next turn is another source's (R192, R233). -/
theorem run_issueCopy_starts (hwaits : v.startWaits s₀.st.slot (planCopy q c s₀.st.seed)
      ((planCopy q c s₀.st.seed).lines.map (placeLine v (v.viaKey s₀.via.key) xl)) = false) :
    let w := s₀.copyStarted v (planCopy q c s₀.st.seed) n xl
    (issueCopy q c).run s₀ = .ok ((), ({ w with
      st := { w.st with seed := (planCopy q c s₀.st.seed).seed }
      core := { w.core with shuttleLast := w.core.shuttleLast / 16 * 16 + s₀.st.slot } } : State).advance) := by
  have hcopy : ¬ (q.op < 2 ∧ q.size = 0) := fun h => hsize h.1 h.2
  simp only [issueCopy, startM, run_bind, run_get, hcheck, hcopy, hpages, hbusy, hturn, hbatch, hwaits, Bool.not_true, Bool.or_self, Bool.false_eq_true,
    if_false, run_set, run_modify, run_advanceM]
  rfl

end

/-! ### The descriptor of a convolution (R239; log 76) -/

section
variable {s : State} {q : CopyReq}

theorem run_convRecord (q : CopyReq) (s : State) : (convRecord q).run s = convRecordBy (readRecord q.aux 64) s.via q s := by
  simp only [convRecord, run_bind, run_get]
  rfl

theorem run_convRecord_read {k : Nat} {s₀ : State} (h : (readRecord q.aux 64).run s = .ok (k, s₀)) :
    (convRecord q).run s = .ok (some (.ofNat 512 k), s₀) := by
  rw [run_convRecord, convRecordBy, h]

/-- A request without elements needs no descriptor (R78, R231). -/
theorem run_convRecord_empty {r : FaultRec} (hsize : q.size = 0) (h : (readRecord q.aux 64).run s = .error (.fault r)) :
    (convRecord q).run s = .ok (none, s) := by
  simp only [run_convRecord, convRecordBy, h, hsize, if_true]

end

/-- Settles O45: each clause is one way in which the issue of a copy ends. -/
theorem copiesStart : Obligations.CopiesStart := by
  unfold Obligations.CopiesStart
  intro d a b s u v xl n issued
  have hissued (i : Instr) (s₀ : State) (q : CopyReq) (c : BitVec 512) (m : M Unit) (hexec : exec i s = deliver s m)
      (hrun : m.run s = (issueCopy q c).run s₀) : issued i s₀ q c := by
    refine ⟨fun hcheck hsize hpages => ⟨fun hturn => ?turn, fun hbusy hturn hbatch => ⟨fun hwaits => ?waits, fun hwaits => ?starts⟩⟩,
      fun e hcheck => ?trap, fun hcheck hop hsize => ?empty⟩
    case turn =>
      have hredo := hrun.trans (run_issueCopy_turn hcheck hsize hpages hturn)
      simp only [hexec, deliver, settle, hredo, State.stopped]
    case waits => exact hexec.trans (deliver_wait s m (hrun.trans (run_issueCopy_waits hcheck hsize hpages hbusy hturn hbatch hwaits)))
    case starts => exact hexec.trans (deliver_ok s _ m (hrun.trans (run_issueCopy_starts hcheck hsize hpages hbusy hturn hbatch hwaits)))
    case trap => exact hexec.trans (deliver_trap s m _ _ _ _ (hrun.trans (run_issueCopy_trap hcheck)))
    case empty => exact hexec.trans (deliver_ok s _ m (hrun.trans (run_issueCopy_empty hcheck hop hsize)))
  refine ⟨hissued _ _ _ _ _ rfl rfl, hissued _ _ _ _ _ rfl rfl, hissued _ _ _ _ _ rfl rfl, fun c s₀ hread => hissued _ _ _ _ _ rfl ?_,
    fun r hsize hread => deliver_ok s _ _ ?_⟩
  · rw [run_bind, run_convRecord_read (q := s.stripReq 1 0 (s.x d) (s.x b) (s.x a)) hread]
  · rw [run_bind, run_convRecord_empty (q := s.stripReq 1 0 (s.x d) (s.x b) (s.x a)) hsize hread]
    exact run_advanceM s

end Sys2Proof.Machine

/-! SUPPORT. Words from instructions (R84, R87): a word that a decoder takes is the word of the instruction it answers. A word is its
fields put together, however it is cut; each row's fixed bits and operands are one such cut. -/

namespace Sys2Proof

set_option Elab.async false

/-! ### Fields of a word -/

/-- An operand of `n` bits as a decoder reads it, as a number. -/
abbrev fieldAt (w lo n : Nat) : Nat := (BitVec.ofNat n (bitsAt w lo n)).toNat

theorem fieldAt_eq (w lo n : Nat) : fieldAt w lo n = bitsAt w lo n := by
  rw [fieldAt, BitVec.toNat_ofNat, bitsAt, Nat.mod_mod]

/-- The bits of `w` from `lo` on, cut into fields of the given widths, the rest on top. -/
def cutAt (w lo : Nat) : List Nat → Nat
  | [] => w / 2 ^ lo
  | n :: ns => bitsAt w lo n + 2 ^ n * cutAt w (lo + n) ns

theorem cutAt_eq (w lo : Nat) (ns : List Nat) : cutAt w lo ns = w / 2 ^ lo := by
  induction ns generalizing lo with
  | nil => rfl
  | cons n ns ih => rw [cutAt, ih, bitsAt, Nat.pow_add, ← Nat.div_div_eq_div_mul, Nat.mod_add_div]

theorem eq_cutAt (w : Nat) (ns : List Nat) : w = cutAt w 0 ns := by
  rw [cutAt_eq, Nat.pow_zero, Nat.div_one]

/-! ### Decoders row by row -/

/-- The instruction that a decoder answers, if any, has the word `w`. -/
def EncodesTo (w : Nat) (o : Option Instr) : Prop := ∀ i, o = some i → i.encodeNat = w

theorem EncodesTo.none (w : Nat) : EncodesTo w none :=
  fun i h => absurd h.symm (Option.some_ne_none i)

theorem EncodesTo.some {w : Nat} {i : Instr} (h : i.encodeNat = w) : EncodesTo w (some i) := by
  intro j hj
  obtain rfl := Option.some.inj hj
  exact h

/-- One row of a map before the others: where its fixed bits are met, its instruction has the word `w`. -/
theorem EncodesTo.row {c : Prop} [Decidable c] {w : Nat} {i : Instr} {rest : Option Instr} (hi : c → i.encodeNat = w)
    (hr : EncodesTo w rest) : EncodesTo w (if c then Option.some i else rest) := by
  split
  · exact .some (hi ‹c›)
  · exact hr

/-! ### Words put together from their fields

One lemma for each layout of fixed bits and operands: `k` is the major opcode with the space bit, `c` with a bit's number the
value of the fixed bits there, and `m` the row's fixed bits as the encoder writes them. The name tells the fixed bits by their
positions. -/

theorem eq_of_gaps_0 {w k m c0 : Nat} (h : bitsAt w 0 25 = c0) (hw : w / 2 ^ 25 = k) (hm : k * 2 ^ 25 + c0 = m) : m = w := by
  have hcut := eq_cutAt w [25]
  simp only [cutAt, Nat.reduceAdd] at hcut
  omega

theorem pack_20_15_9_of_gaps_0_14 {w k m c0 c14 : Nat} (h : bitsAt w 0 9 = c0 ∧ bitsAt w 14 1 = c14) (hw : w / 2 ^ 25 = k)
    (hm : k * 2 ^ 25 + c14 * 2 ^ 14 + c0 = m) :
    pack_20_15_9 m (fieldAt w 20 5) (fieldAt w 15 5) (fieldAt w 9 5) = w := by
  have hcut := eq_cutAt w [9, 5, 1, 5, 5]
  simp only [cutAt, Nat.reduceAdd, pack_20_15_9, fieldAt_eq] at hcut ⊢
  omega

theorem pack_20_15_of_gaps_0 {w k m c0 : Nat} (h : bitsAt w 0 15 = c0) (hw : w / 2 ^ 25 = k) (hm : k * 2 ^ 25 + c0 = m) :
    pack_20_15 m (fieldAt w 20 5) (fieldAt w 15 5) = w := by
  have hcut := eq_cutAt w [15, 5, 5]
  simp only [cutAt, Nat.reduceAdd, pack_20_15, fieldAt_eq] at hcut ⊢
  omega

theorem pack_20_15_0_of_major {w k m : Nat} (hw : w / 2 ^ 25 = k) (hm : k * 2 ^ 25 = m) :
    pack_20_15_0 m (fieldAt w 20 5) (fieldAt w 15 5) (fieldAt w 0 15) = w := by
  have hcut := eq_cutAt w [15, 5, 5]
  simp only [cutAt, Nat.reduceAdd, pack_20_15_0, fieldAt_eq] at hcut ⊢
  omega

theorem pack_20_15_0_of_gaps_6 {w k m c6 : Nat} (h : bitsAt w 6 9 = c6) (hw : w / 2 ^ 25 = k) (hm : k * 2 ^ 25 + c6 * 2 ^ 6 = m) :
    pack_20_15_0 m (fieldAt w 20 5) (fieldAt w 15 5) (fieldAt w 0 6) = w := by
  have hcut := eq_cutAt w [6, 9, 5, 5]
  simp only [cutAt, Nat.reduceAdd, pack_20_15_0, fieldAt_eq] at hcut ⊢
  omega

theorem pack_20_0_of_major {w k m : Nat} (hw : w / 2 ^ 25 = k) (hm : k * 2 ^ 25 = m) :
    pack_20_0 m (fieldAt w 20 5) (fieldAt w 0 20) = w := by
  have hcut := eq_cutAt w [20, 5]
  simp only [cutAt, Nat.reduceAdd, pack_20_0, fieldAt_eq] at hcut ⊢
  omega

theorem pack_20_0_of_gaps_15 {w k m c15 : Nat} (h : bitsAt w 15 5 = c15) (hw : w / 2 ^ 25 = k) (hm : k * 2 ^ 25 + c15 * 2 ^ 15 = m) :
    pack_20_0 m (fieldAt w 20 5) (fieldAt w 0 15) = w := by
  have hcut := eq_cutAt w [15, 5, 5]
  simp only [cutAt, Nat.reduceAdd, pack_20_0, fieldAt_eq] at hcut ⊢
  omega

theorem pack_20_17_0_of_gaps_15 {w k m c15 : Nat} (h : bitsAt w 15 2 = c15) (hw : w / 2 ^ 25 = k) (hm : k * 2 ^ 25 + c15 * 2 ^ 15 = m) :
    pack_20_17_0 m (fieldAt w 20 5) (fieldAt w 17 3) (fieldAt w 0 15) = w := by
  have hcut := eq_cutAt w [15, 2, 3, 5]
  simp only [cutAt, Nat.reduceAdd, pack_20_17_0, fieldAt_eq] at hcut ⊢
  omega

theorem pack_20_15_12_0_of_major {w k m : Nat} (hw : w / 2 ^ 25 = k) (hm : k * 2 ^ 25 = m) :
    pack_20_15_12_0 m (fieldAt w 20 5) (fieldAt w 15 5) (fieldAt w 12 3) (fieldAt w 0 12) = w := by
  have hcut := eq_cutAt w [12, 3, 5, 5]
  simp only [cutAt, Nat.reduceAdd, pack_20_15_12_0, fieldAt_eq] at hcut ⊢
  omega

theorem pack_20_15_12_0_of_gaps_14 {w k m c14 : Nat} (h : bitsAt w 14 1 = c14) (hw : w / 2 ^ 25 = k) (hm : k * 2 ^ 25 + c14 * 2 ^ 14 = m) :
    pack_20_15_12_0 m (fieldAt w 20 5) (fieldAt w 15 5) (fieldAt w 12 2) (fieldAt w 0 12) = w := by
  have hcut := eq_cutAt w [12, 2, 1, 5, 5]
  simp only [cutAt, Nat.reduceAdd, pack_20_15_12_0, fieldAt_eq] at hcut ⊢
  omega

theorem pack_15_0_of_gaps_20 {w k m c20 : Nat} (h : bitsAt w 20 5 = c20) (hw : w / 2 ^ 25 = k) (hm : k * 2 ^ 25 + c20 * 2 ^ 20 = m) :
    pack_15_0 m (fieldAt w 15 5) (fieldAt w 0 15) = w := by
  have hcut := eq_cutAt w [15, 5, 5]
  simp only [cutAt, Nat.reduceAdd, pack_15_0, fieldAt_eq] at hcut ⊢
  omega

theorem pack_20_16_9_0_of_major {w k m : Nat} (hw : w / 2 ^ 25 = k) (hm : k * 2 ^ 25 = m) :
    pack_20_16_9_0 m (fieldAt w 20 5) (fieldAt w 16 4) (fieldAt w 9 7) (fieldAt w 0 9) = w := by
  have hcut := eq_cutAt w [9, 7, 4, 5]
  simp only [cutAt, Nat.reduceAdd, pack_20_16_9_0, fieldAt_eq] at hcut ⊢
  omega

theorem pack_20_15_9_4_of_gaps_0_8_14 {w k m c0 c8 c14 : Nat}
    (h : bitsAt w 0 4 = c0 ∧ bitsAt w 8 1 = c8 ∧ bitsAt w 14 1 = c14) (hw : w / 2 ^ 25 = k)
    (hm : k * 2 ^ 25 + c14 * 2 ^ 14 + c8 * 2 ^ 8 + c0 = m) :
    pack_20_15_9_4 m (fieldAt w 20 5) (fieldAt w 15 5) (fieldAt w 9 5) (fieldAt w 4 4) = w := by
  have hcut := eq_cutAt w [4, 4, 1, 5, 1, 5, 5]
  simp only [cutAt, Nat.reduceAdd, pack_20_15_9_4, fieldAt_eq] at hcut ⊢
  omega

theorem pack_15_of_gaps_0_20 {w k m c0 c20 : Nat} (h : bitsAt w 0 15 = c0 ∧ bitsAt w 20 5 = c20) (hw : w / 2 ^ 25 = k)
    (hm : k * 2 ^ 25 + c20 * 2 ^ 20 + c0 = m) :
    pack_15 m (fieldAt w 15 5) = w := by
  have hcut := eq_cutAt w [15, 5, 5]
  simp only [cutAt, Nat.reduceAdd, pack_15, fieldAt_eq] at hcut ⊢
  omega

theorem pack_0_of_gaps_15 {w k m c15 : Nat} (h : bitsAt w 15 10 = c15) (hw : w / 2 ^ 25 = k) (hm : k * 2 ^ 25 + c15 * 2 ^ 15 = m) :
    pack_0 m (fieldAt w 0 15) = w := by
  have hcut := eq_cutAt w [15, 10]
  simp only [cutAt, Nat.reduceAdd, pack_0, fieldAt_eq] at hcut ⊢
  omega

theorem pack_22_19_of_gaps_0 {w k m c0 : Nat} (h : bitsAt w 0 19 = c0) (hw : w / 2 ^ 25 = k) (hm : k * 2 ^ 25 + c0 = m) :
    pack_22_19 m (fieldAt w 22 3) (fieldAt w 19 3) = w := by
  have hcut := eq_cutAt w [19, 3, 3]
  simp only [cutAt, Nat.reduceAdd, pack_22_19, fieldAt_eq] at hcut ⊢
  omega

theorem pack_20_0_of_gaps_12 {w k m c12 : Nat} (h : bitsAt w 12 8 = c12) (hw : w / 2 ^ 25 = k) (hm : k * 2 ^ 25 + c12 * 2 ^ 12 = m) :
    pack_20_0 m (fieldAt w 20 5) (fieldAt w 0 12) = w := by
  have hcut := eq_cutAt w [12, 8, 5]
  simp only [cutAt, Nat.reduceAdd, pack_20_0, fieldAt_eq] at hcut ⊢
  omega

theorem pack_15_0_of_gaps_12_20 {w k m c12 c20 : Nat} (h : bitsAt w 12 3 = c12 ∧ bitsAt w 20 5 = c20) (hw : w / 2 ^ 25 = k)
    (hm : k * 2 ^ 25 + c20 * 2 ^ 20 + c12 * 2 ^ 12 = m) :
    pack_15_0 m (fieldAt w 15 5) (fieldAt w 0 12) = w := by
  have hcut := eq_cutAt w [12, 3, 5, 5]
  simp only [cutAt, Nat.reduceAdd, pack_15_0, fieldAt_eq] at hcut ⊢
  omega

theorem pack_25_20_15_13_5_0_of_major {w k m : Nat} (hw : w / 2 ^ 28 = k) (hm : k * 2 ^ 28 = m) :
    pack_25_20_15_13_5_0 m (fieldAt w 25 3) (fieldAt w 20 5) (fieldAt w 15 5) (fieldAt w 13 2) (fieldAt w 5 8) (fieldAt w 0 5) = w := by
  have hcut := eq_cutAt w [5, 8, 2, 5, 5, 3]
  simp only [cutAt, Nat.reduceAdd, pack_25_20_15_13_5_0, fieldAt_eq] at hcut ⊢
  omega

theorem pack_20_of_gaps_0 {w k m c0 : Nat} (h : bitsAt w 0 20 = c0) (hw : w / 2 ^ 25 = k) (hm : k * 2 ^ 25 + c0 = m) :
    pack_20 m (fieldAt w 20 5) = w := by
  have hcut := eq_cutAt w [20, 5]
  simp only [cutAt, Nat.reduceAdd, pack_20, fieldAt_eq] at hcut ⊢
  omega

theorem pack_20_15_8_of_gaps_0_12 {w k m c0 c12 : Nat} (h : bitsAt w 0 8 = c0 ∧ bitsAt w 12 3 = c12) (hw : w / 2 ^ 25 = k)
    (hm : k * 2 ^ 25 + c12 * 2 ^ 12 + c0 = m) :
    pack_20_15_8 m (fieldAt w 20 5) (fieldAt w 15 5) (fieldAt w 8 4) = w := by
  have hcut := eq_cutAt w [8, 4, 3, 5, 5]
  simp only [cutAt, Nat.reduceAdd, pack_20_15_8, fieldAt_eq] at hcut ⊢
  omega

theorem pack_15_9_of_gaps_0_14_20 {w k m c0 c14 c20 : Nat}
    (h : bitsAt w 0 9 = c0 ∧ bitsAt w 14 1 = c14 ∧ bitsAt w 20 5 = c20) (hw : w / 2 ^ 25 = k)
    (hm : k * 2 ^ 25 + c20 * 2 ^ 20 + c14 * 2 ^ 14 + c0 = m) :
    pack_15_9 m (fieldAt w 15 5) (fieldAt w 9 5) = w := by
  have hcut := eq_cutAt w [9, 5, 1, 5, 5]
  simp only [cutAt, Nat.reduceAdd, pack_15_9, fieldAt_eq] at hcut ⊢
  omega

theorem pack_20_15_8_4_3_0_of_gaps_9 {w k m c9 : Nat} (h : bitsAt w 9 6 = c9) (hw : w / 2 ^ 25 = k) (hm : k * 2 ^ 25 + c9 * 2 ^ 9 = m) :
    pack_20_15_8_4_3_0 m (fieldAt w 20 5) (fieldAt w 15 5) (fieldAt w 8 1) (fieldAt w 4 4) (fieldAt w 3 1) (fieldAt w 0 3) = w := by
  have hcut := eq_cutAt w [3, 1, 4, 1, 6, 5, 5]
  simp only [cutAt, Nat.reduceAdd, pack_20_15_8_4_3_0, fieldAt_eq] at hcut ⊢
  omega

theorem pack_20_15_of_gaps_0_23 {w k m c0 c23 : Nat} (h : bitsAt w 0 15 = c0 ∧ bitsAt w 23 2 = c23) (hw : w / 2 ^ 25 = k)
    (hm : k * 2 ^ 25 + c23 * 2 ^ 23 + c0 = m) :
    pack_20_15 m (fieldAt w 20 3) (fieldAt w 15 5) = w := by
  have hcut := eq_cutAt w [15, 5, 3, 2]
  simp only [cutAt, Nat.reduceAdd, pack_20_15, fieldAt_eq] at hcut ⊢
  omega

theorem pack_20_15_9_8_4_3_0_of_gaps_14 {w k m c14 : Nat} (h : bitsAt w 14 1 = c14) (hw : w / 2 ^ 25 = k)
    (hm : k * 2 ^ 25 + c14 * 2 ^ 14 = m) :
    pack_20_15_9_8_4_3_0 m (fieldAt w 20 5) (fieldAt w 15 5) (fieldAt w 9 5) (fieldAt w 8 1) (fieldAt w 4 4) (fieldAt w 3 1) (fieldAt w 0 3)
      = w := by
  have hcut := eq_cutAt w [3, 1, 4, 1, 5, 1, 5, 5]
  simp only [cutAt, Nat.reduceAdd, pack_20_15_9_8_4_3_0, fieldAt_eq] at hcut ⊢
  omega

theorem pack_20_15_9_of_gaps_0_14_23 {w k m c0 c14 c23 : Nat}
    (h : bitsAt w 0 9 = c0 ∧ bitsAt w 14 1 = c14 ∧ bitsAt w 23 2 = c23) (hw : w / 2 ^ 25 = k)
    (hm : k * 2 ^ 25 + c23 * 2 ^ 23 + c14 * 2 ^ 14 + c0 = m) :
    pack_20_15_9 m (fieldAt w 20 3) (fieldAt w 15 5) (fieldAt w 9 5) = w := by
  have hcut := eq_cutAt w [9, 5, 1, 5, 3, 2]
  simp only [cutAt, Nat.reduceAdd, pack_20_15_9, fieldAt_eq] at hcut ⊢
  omega

theorem pack_20_15_8_4_of_gaps_0_9 {w k m c0 c9 : Nat} (h : bitsAt w 0 4 = c0 ∧ bitsAt w 9 6 = c9) (hw : w / 2 ^ 25 = k)
    (hm : k * 2 ^ 25 + c9 * 2 ^ 9 + c0 = m) :
    pack_20_15_8_4 m (fieldAt w 20 5) (fieldAt w 15 5) (fieldAt w 8 1) (fieldAt w 4 4) = w := by
  have hcut := eq_cutAt w [4, 4, 1, 6, 5, 5]
  simp only [cutAt, Nat.reduceAdd, pack_20_15_8_4, fieldAt_eq] at hcut ⊢
  omega

theorem pack_20_15_9_2_0_of_gaps_6_14 {w k m c6 c14 : Nat} (h : bitsAt w 6 3 = c6 ∧ bitsAt w 14 1 = c14) (hw : w / 2 ^ 25 = k)
    (hm : k * 2 ^ 25 + c14 * 2 ^ 14 + c6 * 2 ^ 6 = m) :
    pack_20_15_9_2_0 m (fieldAt w 20 5) (fieldAt w 15 5) (fieldAt w 9 5) (fieldAt w 2 4) (fieldAt w 0 2) = w := by
  have hcut := eq_cutAt w [2, 4, 3, 5, 1, 5, 5]
  simp only [cutAt, Nat.reduceAdd, pack_20_15_9_2_0, fieldAt_eq] at hcut ⊢
  omega

theorem pack_20_15_9_5_0_of_gaps_4_6_14 {w k m c4 c6 c14 : Nat}
    (h : bitsAt w 4 1 = c4 ∧ bitsAt w 6 3 = c6 ∧ bitsAt w 14 1 = c14) (hw : w / 2 ^ 25 = k)
    (hm : k * 2 ^ 25 + c14 * 2 ^ 14 + c6 * 2 ^ 6 + c4 * 2 ^ 4 = m) :
    pack_20_15_9_5_0 m (fieldAt w 20 5) (fieldAt w 15 5) (fieldAt w 9 5) (fieldAt w 5 1) (fieldAt w 0 4) = w := by
  have hcut := eq_cutAt w [4, 1, 1, 3, 5, 1, 5, 5]
  simp only [cutAt, Nat.reduceAdd, pack_20_15_9_5_0, fieldAt_eq] at hcut ⊢
  omega

theorem pack_9_of_gaps_0_14 {w k m c0 c14 : Nat} (h : bitsAt w 0 9 = c0 ∧ bitsAt w 14 11 = c14) (hw : w / 2 ^ 25 = k)
    (hm : k * 2 ^ 25 + c14 * 2 ^ 14 + c0 = m) :
    pack_9 m (fieldAt w 9 5) = w := by
  have hcut := eq_cutAt w [9, 5, 11]
  simp only [cutAt, Nat.reduceAdd, pack_9, fieldAt_eq] at hcut ⊢
  omega

theorem pack_20_15_of_gaps_0_24 {w k m c0 c24 : Nat} (h : bitsAt w 0 15 = c0 ∧ bitsAt w 24 1 = c24) (hw : w / 2 ^ 25 = k)
    (hm : k * 2 ^ 25 + c24 * 2 ^ 24 + c0 = m) :
    pack_20_15 m (fieldAt w 20 4) (fieldAt w 15 5) = w := by
  have hcut := eq_cutAt w [15, 5, 4, 1]
  simp only [cutAt, Nat.reduceAdd, pack_20_15, fieldAt_eq] at hcut ⊢
  omega

theorem pack_20_15_14_9_8_of_gaps_0 {w k m c0 : Nat} (h : bitsAt w 0 8 = c0) (hw : w / 2 ^ 25 = k) (hm : k * 2 ^ 25 + c0 = m) :
    pack_20_15_14_9_8 m (fieldAt w 20 5) (fieldAt w 15 5) (fieldAt w 14 1) (fieldAt w 9 5) (fieldAt w 8 1) = w := by
  have hcut := eq_cutAt w [8, 1, 5, 1, 5, 5]
  simp only [cutAt, Nat.reduceAdd, pack_20_15_14_9_8, fieldAt_eq] at hcut ⊢
  omega

theorem pack_20_15_14_of_gaps_0 {w k m c0 : Nat} (h : bitsAt w 0 14 = c0) (hw : w / 2 ^ 25 = k) (hm : k * 2 ^ 25 + c0 = m) :
    pack_20_15_14 m (fieldAt w 20 5) (fieldAt w 15 5) (fieldAt w 14 1) = w := by
  have hcut := eq_cutAt w [14, 1, 5, 5]
  simp only [cutAt, Nat.reduceAdd, pack_20_15_14, fieldAt_eq] at hcut ⊢
  omega

theorem pack_20_15_14_9_8_0_of_gaps_3_23 {w k m c3 c23 : Nat} (h : bitsAt w 3 5 = c3 ∧ bitsAt w 23 2 = c23) (hw : w / 2 ^ 25 = k)
    (hm : k * 2 ^ 25 + c23 * 2 ^ 23 + c3 * 2 ^ 3 = m) :
    pack_20_15_14_9_8_0 m (fieldAt w 20 3) (fieldAt w 15 5) (fieldAt w 14 1) (fieldAt w 9 5) (fieldAt w 8 1) (fieldAt w 0 3) = w := by
  have hcut := eq_cutAt w [3, 5, 1, 5, 1, 5, 3, 2]
  simp only [cutAt, Nat.reduceAdd, pack_20_15_14_9_8_0, fieldAt_eq] at hcut ⊢
  omega

theorem pack_20_15_14_9_8_of_gaps_0_23 {w k m c0 c23 : Nat} (h : bitsAt w 0 8 = c0 ∧ bitsAt w 23 2 = c23) (hw : w / 2 ^ 25 = k)
    (hm : k * 2 ^ 25 + c23 * 2 ^ 23 + c0 = m) :
    pack_20_15_14_9_8 m (fieldAt w 20 3) (fieldAt w 15 5) (fieldAt w 14 1) (fieldAt w 9 5) (fieldAt w 8 1) = w := by
  have hcut := eq_cutAt w [8, 1, 5, 1, 5, 3, 2]
  simp only [cutAt, Nat.reduceAdd, pack_20_15_14_9_8, fieldAt_eq] at hcut ⊢
  omega

theorem pack_20_15_9_of_gaps_0_12_18_23 {w k m c0 c12 c18 c23 : Nat}
    (h : bitsAt w 0 9 = c0 ∧ bitsAt w 12 3 = c12 ∧ bitsAt w 18 2 = c18 ∧ bitsAt w 23 2 = c23) (hw : w / 2 ^ 25 = k)
    (hm : k * 2 ^ 25 + c23 * 2 ^ 23 + c18 * 2 ^ 18 + c12 * 2 ^ 12 + c0 = m) :
    pack_20_15_9 m (fieldAt w 20 3) (fieldAt w 15 3) (fieldAt w 9 3) = w := by
  have hcut := eq_cutAt w [9, 3, 3, 3, 2, 3, 2]
  simp only [cutAt, Nat.reduceAdd, pack_20_15_9, fieldAt_eq] at hcut ⊢
  omega

theorem pack_20_15_of_gaps_0_18 {w k m c0 c18 : Nat} (h : bitsAt w 0 15 = c0 ∧ bitsAt w 18 2 = c18) (hw : w / 2 ^ 25 = k)
    (hm : k * 2 ^ 25 + c18 * 2 ^ 18 + c0 = m) :
    pack_20_15 m (fieldAt w 20 5) (fieldAt w 15 3) = w := by
  have hcut := eq_cutAt w [15, 3, 2, 5]
  simp only [cutAt, Nat.reduceAdd, pack_20_15, fieldAt_eq] at hcut ⊢
  omega

theorem pack_20_15_14_9_of_gaps_0_13 {w k m c0 c13 : Nat} (h : bitsAt w 0 9 = c0 ∧ bitsAt w 13 1 = c13) (hw : w / 2 ^ 25 = k)
    (hm : k * 2 ^ 25 + c13 * 2 ^ 13 + c0 = m) :
    pack_20_15_14_9 m (fieldAt w 20 5) (fieldAt w 15 5) (fieldAt w 14 1) (fieldAt w 9 4) = w := by
  have hcut := eq_cutAt w [9, 4, 1, 1, 5, 5]
  simp only [cutAt, Nat.reduceAdd, pack_20_15_14_9, fieldAt_eq] at hcut ⊢
  omega

theorem pack_20_15_14_9_of_gaps_0 {w k m c0 : Nat} (h : bitsAt w 0 9 = c0) (hw : w / 2 ^ 25 = k) (hm : k * 2 ^ 25 + c0 = m) :
    pack_20_15_14_9 m (fieldAt w 20 5) (fieldAt w 15 5) (fieldAt w 14 1) (fieldAt w 9 5) = w := by
  have hcut := eq_cutAt w [9, 5, 1, 5, 5]
  simp only [cutAt, Nat.reduceAdd, pack_20_15_14_9, fieldAt_eq] at hcut ⊢
  omega

theorem pack_20_15_14_0_of_gaps_4 {w k m c4 : Nat} (h : bitsAt w 4 10 = c4) (hw : w / 2 ^ 25 = k) (hm : k * 2 ^ 25 + c4 * 2 ^ 4 = m) :
    pack_20_15_14_0 m (fieldAt w 20 5) (fieldAt w 15 5) (fieldAt w 14 1) (fieldAt w 0 4) = w := by
  have hcut := eq_cutAt w [4, 10, 1, 5, 5]
  simp only [cutAt, Nat.reduceAdd, pack_20_15_14_0, fieldAt_eq] at hcut ⊢
  omega

theorem pack_17_12_10_7_of_gaps_0 {w k m c0 : Nat} (h : bitsAt w 0 7 = c0) (hw : w / 2 ^ 25 = k) (hm : k * 2 ^ 25 + c0 = m) :
    pack_17_12_10_7 m (fieldAt w 17 8) (fieldAt w 12 5) (fieldAt w 10 2) (fieldAt w 7 3) = w := by
  have hcut := eq_cutAt w [7, 3, 2, 5, 8]
  simp only [cutAt, Nat.reduceAdd, pack_17_12_10_7, fieldAt_eq] at hcut ⊢
  omega

theorem pack_17_2_of_gaps_0_7 {w k m c0 c7 : Nat} (h : bitsAt w 0 2 = c0 ∧ bitsAt w 7 10 = c7) (hw : w / 2 ^ 25 = k)
    (hm : k * 2 ^ 25 + c7 * 2 ^ 7 + c0 = m) :
    pack_17_2 m (fieldAt w 17 8) (fieldAt w 2 5) = w := by
  have hcut := eq_cutAt w [2, 5, 10, 8]
  simp only [cutAt, Nat.reduceAdd, pack_17_2, fieldAt_eq] at hcut ⊢
  omega

theorem pack_20_of_gaps_0_22 {w k m c0 c22 : Nat} (h : bitsAt w 0 20 = c0 ∧ bitsAt w 22 3 = c22) (hw : w / 2 ^ 25 = k)
    (hm : k * 2 ^ 25 + c22 * 2 ^ 22 + c0 = m) :
    pack_20 m (fieldAt w 20 2) = w := by
  have hcut := eq_cutAt w [20, 2, 3]
  simp only [cutAt, Nat.reduceAdd, pack_20, fieldAt_eq] at hcut ⊢
  omega

theorem pack_20_15_of_gaps_0_22 {w k m c0 c22 : Nat} (h : bitsAt w 0 15 = c0 ∧ bitsAt w 22 3 = c22) (hw : w / 2 ^ 25 = k)
    (hm : k * 2 ^ 25 + c22 * 2 ^ 22 + c0 = m) :
    pack_20_15 m (fieldAt w 20 2) (fieldAt w 15 5) = w := by
  have hcut := eq_cutAt w [15, 5, 2, 3]
  simp only [cutAt, Nat.reduceAdd, pack_20_15, fieldAt_eq] at hcut ⊢
  omega

theorem pack_20_15_14_9_8_0_of_gaps_2_22 {w k m c2 c22 : Nat} (h : bitsAt w 2 6 = c2 ∧ bitsAt w 22 3 = c22) (hw : w / 2 ^ 25 = k)
    (hm : k * 2 ^ 25 + c22 * 2 ^ 22 + c2 * 2 ^ 2 = m) :
    pack_20_15_14_9_8_0 m (fieldAt w 20 2) (fieldAt w 15 5) (fieldAt w 14 1) (fieldAt w 9 5) (fieldAt w 8 1) (fieldAt w 0 2) = w := by
  have hcut := eq_cutAt w [2, 6, 1, 5, 1, 5, 2, 3]
  simp only [cutAt, Nat.reduceAdd, pack_20_15_14_9_8_0, fieldAt_eq] at hcut ⊢
  omega

theorem pack_20_15_14_9_8_5_2_0_of_gaps_6_22 {w k m c6 c22 : Nat} (h : bitsAt w 6 2 = c6 ∧ bitsAt w 22 3 = c22) (hw : w / 2 ^ 25 = k)
    (hm : k * 2 ^ 25 + c22 * 2 ^ 22 + c6 * 2 ^ 6 = m) :
    pack_20_15_14_9_8_5_2_0 m (fieldAt w 20 2) (fieldAt w 15 5) (fieldAt w 14 1) (fieldAt w 9 5) (fieldAt w 8 1) (fieldAt w 5 1) (fieldAt w
      2 3) (fieldAt w 0 2) = w := by
  have hcut := eq_cutAt w [2, 3, 1, 2, 1, 5, 1, 5, 2, 3]
  simp only [cutAt, Nat.reduceAdd, pack_20_15_14_9_8_5_2_0, fieldAt_eq] at hcut ⊢
  omega

theorem pack_20_15_14_9_8_0_of_major {w k m : Nat} (hw : w / 2 ^ 25 = k) (hm : k * 2 ^ 25 = m) :
    pack_20_15_14_9_8_0 m (fieldAt w 20 5) (fieldAt w 15 5) (fieldAt w 14 1) (fieldAt w 9 5) (fieldAt w 8 1) (fieldAt w 0 8) = w := by
  have hcut := eq_cutAt w [8, 1, 5, 1, 5, 5]
  simp only [cutAt, Nat.reduceAdd, pack_20_15_14_9_8_0, fieldAt_eq] at hcut ⊢
  omega

theorem pack_20_19_18_15_14_11_of_gaps_0 {w k m c0 : Nat} (h : bitsAt w 0 11 = c0) (hw : w / 2 ^ 25 = k) (hm : k * 2 ^ 25 + c0 = m) :
    pack_20_19_18_15_14_11 m (fieldAt w 20 5) (fieldAt w 19 1) (fieldAt w 18 1) (fieldAt w 15 3) (fieldAt w 14 1) (fieldAt w 11 3) = w := by
  have hcut := eq_cutAt w [11, 3, 1, 3, 1, 1, 5]
  simp only [cutAt, Nat.reduceAdd, pack_20_19_18_15_14_11, fieldAt_eq] at hcut ⊢
  omega

/-! ### The majors of the shared control subset (Table 05.4) -/

theorem decodeShared00_encodesTo {w : Nat} (hw : w / 2 ^ 25 = 0x00) : EncodesTo w (decodeShared00 w) :=
  .row (fun h => pack_20_15_9_of_gaps_0_14 h hw rfl) <|
  .row (fun h => pack_20_15_9_of_gaps_0_14 h hw rfl) <|
  .row (fun h => pack_20_15_9_of_gaps_0_14 h hw rfl) <|
  .row (fun h => pack_20_15_9_of_gaps_0_14 h hw rfl) <|
  .row (fun h => pack_20_15_9_of_gaps_0_14 h hw rfl) <|
  .row (fun h => pack_20_15_9_of_gaps_0_14 h hw rfl) <|
  .row (fun h => pack_20_15_9_of_gaps_0_14 h hw rfl) <|
  .row (fun h => pack_20_15_9_of_gaps_0_14 h hw rfl) <|
  .row (fun h => pack_20_15_9_of_gaps_0_14 h hw rfl) <|
  .row (fun h => pack_20_15_9_of_gaps_0_14 h hw rfl) <|
  .row (fun h => pack_20_15_9_of_gaps_0_14 h hw rfl) <|
  .row (fun h => pack_20_15_9_of_gaps_0_14 h hw rfl) <|
  .row (fun h => pack_20_15_9_of_gaps_0_14 h hw rfl) <|
  .row (fun h => pack_20_15_9_of_gaps_0_14 h hw rfl) <|
  .row (fun h => pack_20_15_9_of_gaps_0_14 h hw rfl) <|
  .row (fun h => pack_20_15_9_of_gaps_0_14 h hw rfl) <|
  .row (fun h => pack_20_15_9_of_gaps_0_14 h hw rfl) <|
  .row (fun h => pack_20_15_9_of_gaps_0_14 h hw rfl) <|
  .row (fun h => pack_20_15_9_of_gaps_0_14 h hw rfl) <|
  .row (fun h => pack_20_15_9_of_gaps_0_14 h hw rfl) <|
  .row (fun h => pack_20_15_9_of_gaps_0_14 h hw rfl) <|
  .row (fun h => pack_20_15_of_gaps_0 h hw rfl) <|
  .row (fun h => pack_20_15_of_gaps_0 h hw rfl) <|
  .row (fun h => pack_20_15_of_gaps_0 h hw rfl) <|
  .row (fun h => pack_20_15_9_of_gaps_0_14 h hw rfl) <|
  .none w

theorem decodeShared01_encodesTo {w : Nat} (hw : w / 2 ^ 25 = 0x01) : EncodesTo w (decodeShared01 w) :=
  .some (pack_20_15_0_of_major hw rfl)

theorem decodeShared02_encodesTo {w : Nat} (hw : w / 2 ^ 25 = 0x02) : EncodesTo w (decodeShared02 w) :=
  .some (pack_20_15_0_of_major hw rfl)

theorem decodeShared03_encodesTo {w : Nat} (hw : w / 2 ^ 25 = 0x03) : EncodesTo w (decodeShared03 w) :=
  .some (pack_20_15_0_of_major hw rfl)

theorem decodeShared04_encodesTo {w : Nat} (hw : w / 2 ^ 25 = 0x04) : EncodesTo w (decodeShared04 w) :=
  .some (pack_20_15_0_of_major hw rfl)

theorem decodeShared05_encodesTo {w : Nat} (hw : w / 2 ^ 25 = 0x05) : EncodesTo w (decodeShared05 w) :=
  .some (pack_20_15_0_of_major hw rfl)

theorem decodeShared06_encodesTo {w : Nat} (hw : w / 2 ^ 25 = 0x06) : EncodesTo w (decodeShared06 w) :=
  .row (fun h => pack_20_15_0_of_gaps_6 h hw rfl) <|
  .none w

theorem decodeShared07_encodesTo {w : Nat} (hw : w / 2 ^ 25 = 0x07) : EncodesTo w (decodeShared07 w) :=
  .row (fun h => pack_20_15_0_of_gaps_6 h hw rfl) <|
  .none w

theorem decodeShared08_encodesTo {w : Nat} (hw : w / 2 ^ 25 = 0x08) : EncodesTo w (decodeShared08 w) :=
  .row (fun h => pack_20_15_0_of_gaps_6 h hw rfl) <|
  .none w

theorem decodeShared09_encodesTo {w : Nat} (hw : w / 2 ^ 25 = 0x09) : EncodesTo w (decodeShared09 w) :=
  .some (pack_20_15_0_of_major hw rfl)

theorem decodeShared0A_encodesTo {w : Nat} (hw : w / 2 ^ 25 = 0x0A) : EncodesTo w (decodeShared0A w) :=
  .some (pack_20_0_of_major hw rfl)

theorem decodeShared0B_encodesTo {w : Nat} (hw : w / 2 ^ 25 = 0x0B) : EncodesTo w (decodeShared0B w) :=
  .some (pack_20_15_0_of_major hw rfl)

theorem decodeShared0C_encodesTo {w : Nat} (hw : w / 2 ^ 25 = 0x0C) : EncodesTo w (decodeShared0C w) :=
  .some (pack_20_15_0_of_major hw rfl)

theorem decodeShared0D_encodesTo {w : Nat} (hw : w / 2 ^ 25 = 0x0D) : EncodesTo w (decodeShared0D w) :=
  .some (pack_20_15_0_of_major hw rfl)

theorem decodeShared0E_encodesTo {w : Nat} (hw : w / 2 ^ 25 = 0x0E) : EncodesTo w (decodeShared0E w) :=
  .some (pack_20_15_0_of_major hw rfl)

theorem decodeShared0F_encodesTo {w : Nat} (hw : w / 2 ^ 25 = 0x0F) : EncodesTo w (decodeShared0F w) :=
  .some (pack_20_15_0_of_major hw rfl)

theorem decodeShared10_encodesTo {w : Nat} (hw : w / 2 ^ 25 = 0x10) : EncodesTo w (decodeShared10 w) :=
  .some (pack_20_15_0_of_major hw rfl)

theorem decodeShared11_encodesTo {w : Nat} (hw : w / 2 ^ 25 = 0x11) : EncodesTo w (decodeShared11 w) :=
  .some (pack_20_0_of_major hw rfl)

theorem decodeShared12_encodesTo {w : Nat} (hw : w / 2 ^ 25 = 0x12) : EncodesTo w (decodeShared12 w) :=
  .some (pack_20_15_0_of_major hw rfl)

theorem decodeShared13_encodesTo {w : Nat} (hw : w / 2 ^ 25 = 0x13) : EncodesTo w (decodeShared13 w) :=
  .row (fun h => pack_20_0_of_gaps_15 h hw rfl) <|
  .none w

theorem decodeShared14_encodesTo {w : Nat} (hw : w / 2 ^ 25 = 0x14) : EncodesTo w (decodeShared14 w) :=
  .row (fun h => pack_20_17_0_of_gaps_15 h hw rfl) <|
  .none w

theorem decodeShared15_encodesTo {w : Nat} (hw : w / 2 ^ 25 = 0x15) : EncodesTo w (decodeShared15 w) :=
  .some (pack_20_15_12_0_of_major hw rfl)

theorem decodeShared16_encodesTo {w : Nat} (hw : w / 2 ^ 25 = 0x16) : EncodesTo w (decodeShared16 w) :=
  .row (fun h => pack_20_15_12_0_of_gaps_14 h hw rfl) <|
  .none w

theorem decodeShared17_encodesTo {w : Nat} (hw : w / 2 ^ 25 = 0x17) : EncodesTo w (decodeShared17 w) :=
  .row (fun h => pack_15_0_of_gaps_20 h hw rfl) <|
  .none w

theorem decodeShared18_encodesTo {w : Nat} (hw : w / 2 ^ 25 = 0x18) : EncodesTo w (decodeShared18 w) :=
  .row (fun h => pack_15_0_of_gaps_20 h hw rfl) <|
  .none w

theorem decodeShared19_encodesTo {w : Nat} (hw : w / 2 ^ 25 = 0x19) : EncodesTo w (decodeShared19 w) :=
  .some (pack_20_16_9_0_of_major hw rfl)

theorem decodeShared1A_encodesTo {w : Nat} (hw : w / 2 ^ 25 = 0x1A) : EncodesTo w (decodeShared1A w) :=
  .row (fun h => pack_20_15_9_4_of_gaps_0_8_14 h hw rfl) <|
  .none w

theorem decodeShared1B_encodesTo {w : Nat} (hw : w / 2 ^ 25 = 0x1B) : EncodesTo w (decodeShared1B w) :=
  .row (fun h => pack_20_0_of_gaps_15 h hw rfl) <|
  .none w

theorem decodeShared1C_encodesTo {w : Nat} (hw : w / 2 ^ 25 = 0x1C) : EncodesTo w (decodeShared1C w) :=
  .row (fun h => pack_15_of_gaps_0_20 h hw rfl) <|
  .none w

theorem decodeShared1D_encodesTo {w : Nat} (hw : w / 2 ^ 25 = 0x1D) : EncodesTo w (decodeShared1D w) :=
  .row (fun h => pack_0_of_gaps_15 h hw rfl) <|
  .none w

theorem decodeShared1E_encodesTo {w : Nat} (hw : w / 2 ^ 25 = 0x1E) : EncodesTo w (decodeShared1E w) :=
  .row (fun h => pack_22_19_of_gaps_0 h hw rfl) <|
  .row (fun h => eq_of_gaps_0 h hw rfl) <|
  .none w

theorem decodeShared1F_encodesTo {w : Nat} (hw : w / 2 ^ 25 = 0x1F) : EncodesTo w (decodeShared1F w) :=
  .row (fun h => pack_0_of_gaps_15 h hw rfl) <|
  .none w

theorem decodeShared20_encodesTo {w : Nat} (hw : w / 2 ^ 25 = 0x20) : EncodesTo w (decodeShared20 w) :=
  .row (fun h => eq_of_gaps_0 h hw rfl) <|
  .row (fun h => eq_of_gaps_0 h hw rfl) <|
  .none w

theorem decodeShared21_encodesTo {w : Nat} (hw : w / 2 ^ 25 = 0x21) : EncodesTo w (decodeShared21 w) :=
  .row (fun h => pack_20_0_of_gaps_12 h hw rfl) <|
  .none w

theorem decodeShared22_encodesTo {w : Nat} (hw : w / 2 ^ 25 = 0x22) : EncodesTo w (decodeShared22 w) :=
  .row (fun h => pack_15_0_of_gaps_12_20 h hw rfl) <|
  .none w

theorem decodeShared38_encodesTo {w : Nat} (hw : w / 2 ^ 28 = 7) : EncodesTo w (decodeShared38 w) :=
  .some (pack_25_20_15_13_5_0_of_major hw rfl)

theorem decodeShared_encodesTo {w : Nat} (hw : w / 2 ^ 31 = 0) : EncodesTo w (decodeShared w) := by
  have hmajor : w / 2 ^ 25 = bitsAt w 25 6 := by simp only [bitsAt]; omega
  unfold decodeShared
  split <;> rename_i h <;> try rw [h] at hmajor
  · exact decodeShared00_encodesTo hmajor
  · exact decodeShared01_encodesTo hmajor
  · exact decodeShared02_encodesTo hmajor
  · exact decodeShared03_encodesTo hmajor
  · exact decodeShared04_encodesTo hmajor
  · exact decodeShared05_encodesTo hmajor
  · exact decodeShared06_encodesTo hmajor
  · exact decodeShared07_encodesTo hmajor
  · exact decodeShared08_encodesTo hmajor
  · exact decodeShared09_encodesTo hmajor
  · exact decodeShared0A_encodesTo hmajor
  · exact decodeShared0B_encodesTo hmajor
  · exact decodeShared0C_encodesTo hmajor
  · exact decodeShared0D_encodesTo hmajor
  · exact decodeShared0E_encodesTo hmajor
  · exact decodeShared0F_encodesTo hmajor
  · exact decodeShared10_encodesTo hmajor
  · exact decodeShared11_encodesTo hmajor
  · exact decodeShared12_encodesTo hmajor
  · exact decodeShared13_encodesTo hmajor
  · exact decodeShared14_encodesTo hmajor
  · exact decodeShared15_encodesTo hmajor
  · exact decodeShared16_encodesTo hmajor
  · exact decodeShared17_encodesTo hmajor
  · exact decodeShared18_encodesTo hmajor
  · exact decodeShared19_encodesTo hmajor
  · exact decodeShared1A_encodesTo hmajor
  · exact decodeShared1B_encodesTo hmajor
  · exact decodeShared1C_encodesTo hmajor
  · exact decodeShared1D_encodesTo hmajor
  · exact decodeShared1E_encodesTo hmajor
  · exact decodeShared1F_encodesTo hmajor
  · exact decodeShared20_encodesTo hmajor
  · exact decodeShared21_encodesTo hmajor
  · exact decodeShared22_encodesTo hmajor
  iterate 8 exact decodeShared38_encodesTo (by omega)
  · exact .none w

/-! ### The majors of the CC's own space (Table 05.6) -/

theorem decodeCc20_encodesTo {w : Nat} (hw : w / 2 ^ 25 = 0x60) : EncodesTo w (decodeCc20 w) :=
  .row (fun h => pack_20_15_of_gaps_0 h hw rfl) <|
  .row (fun h => pack_20_15_of_gaps_0 h hw rfl) <|
  .row (fun h => pack_15_of_gaps_0_20 h hw rfl) <|
  .none w

theorem decodeCc21_encodesTo {w : Nat} (hw : w / 2 ^ 25 = 0x61) : EncodesTo w (decodeCc21 w) :=
  .row (fun h => pack_20_15_9_of_gaps_0_14 h hw rfl) <|
  .row (fun h => pack_20_15_of_gaps_0 h hw rfl) <|
  .row (fun h => pack_20_15_of_gaps_0 h hw rfl) <|
  .none w

theorem decodeCc22_encodesTo {w : Nat} (hw : w / 2 ^ 25 = 0x62) : EncodesTo w (decodeCc22 w) :=
  .row (fun h => pack_20_15_9_of_gaps_0_14 h hw rfl) <|
  .row (fun h => pack_20_of_gaps_0 h hw rfl) <|
  .row (fun h => pack_20_of_gaps_0 h hw rfl) <|
  .none w

theorem decodeCc23_encodesTo {w : Nat} (hw : w / 2 ^ 25 = 0x63) : EncodesTo w (decodeCc23 w) :=
  .row (fun h => pack_15_of_gaps_0_20 h hw rfl) <|
  .row (fun h => pack_20_15_9_of_gaps_0_14 h hw rfl) <|
  .none w

theorem decodeCc24_encodesTo {w : Nat} (hw : w / 2 ^ 25 = 0x64) : EncodesTo w (decodeCc24 w) :=
  .row (fun h => pack_15_of_gaps_0_20 h hw rfl) <|
  .row (fun h => pack_20_15_of_gaps_0 h hw rfl) <|
  .none w

theorem decodeCc30_encodesTo {w : Nat} (hw : w / 2 ^ 25 = 0x70) : EncodesTo w (decodeCc30 w) :=
  .row (fun h => pack_20_15_8_of_gaps_0_12 h hw rfl) <|
  .row (fun h => pack_20_15_9_of_gaps_0_14 h hw rfl) <|
  .none w

theorem decodeCc31_encodesTo {w : Nat} (hw : w / 2 ^ 25 = 0x71) : EncodesTo w (decodeCc31 w) :=
  .row (fun h => pack_20_15_9_of_gaps_0_14 h hw rfl) <|
  .row (fun h => pack_20_15_9_of_gaps_0_14 h hw rfl) <|
  .row (fun h => pack_20_15_of_gaps_0 h hw rfl) <|
  .row (fun h => pack_20_15_9_of_gaps_0_14 h hw rfl) <|
  .row (fun h => pack_20_15_9_of_gaps_0_14 h hw rfl) <|
  .none w

theorem decodeCc3C_encodesTo {w : Nat} (hw : w / 2 ^ 25 = 0x7C) : EncodesTo w (decodeCc3C w) :=
  .row (fun h => eq_of_gaps_0 h hw rfl) <|
  .row (fun h => pack_15_9_of_gaps_0_14_20 h hw rfl) <|
  .row (fun h => pack_20_15_9_of_gaps_0_14 h hw rfl) <|
  .row (fun h => eq_of_gaps_0 h hw rfl) <|
  .row (fun h => pack_20_15_9_of_gaps_0_14 h hw rfl) <|
  .row (fun h => pack_20_15_of_gaps_0 h hw rfl) <|
  .row (fun h => pack_20_15_9_of_gaps_0_14 h hw rfl) <|
  .none w

theorem decodeCc3D_encodesTo {w : Nat} (hw : w / 2 ^ 25 = 0x7D) : EncodesTo w (decodeCc3D w) :=
  .row (fun h => pack_20_0_of_gaps_12 h hw rfl) <|
  .none w

theorem decodeCc3E_encodesTo {w : Nat} (hw : w / 2 ^ 25 = 0x7E) : EncodesTo w (decodeCc3E w) :=
  .row (fun h => pack_15_0_of_gaps_12_20 h hw rfl) <|
  .none w

theorem decodeCc_encodesTo {w : Nat} (hw : w / 2 ^ 31 = 1) : EncodesTo w (decodeCc w) := by
  have hmajor : w / 2 ^ 25 = 64 + bitsAt w 25 6 := by simp only [bitsAt]; omega
  unfold decodeCc
  split <;> rename_i h <;> try rw [h] at hmajor
  · exact decodeCc20_encodesTo hmajor
  · exact decodeCc21_encodesTo hmajor
  · exact decodeCc22_encodesTo hmajor
  · exact decodeCc23_encodesTo hmajor
  · exact decodeCc24_encodesTo hmajor
  · exact decodeCc30_encodesTo hmajor
  · exact decodeCc31_encodesTo hmajor
  · exact decodeCc3C_encodesTo hmajor
  · exact decodeCc3D_encodesTo hmajor
  · exact decodeCc3E_encodesTo hmajor
  · exact .none w

/-! ### The majors of the A-harts' own space (Table 05.7) -/

theorem decodeA00_encodesTo {w : Nat} (hw : w / 2 ^ 25 = 0x40) : EncodesTo w (decodeA00 w) :=
  .row (fun h => pack_20_15_8_4_3_0_of_gaps_9 h hw rfl) <|
  .row (fun h => pack_20_15_of_gaps_0_23 h hw rfl) <|
  .none w

theorem decodeA01_encodesTo {w : Nat} (hw : w / 2 ^ 25 = 0x41) : EncodesTo w (decodeA01 w) :=
  .row (fun h => pack_20_15_9_8_4_3_0_of_gaps_14 h hw rfl) <|
  .none w

theorem decodeA02_encodesTo {w : Nat} (hw : w / 2 ^ 25 = 0x42) : EncodesTo w (decodeA02 w) :=
  .row (fun h => pack_20_15_9_8_4_3_0_of_gaps_14 h hw rfl) <|
  .none w

theorem decodeA03_encodesTo {w : Nat} (hw : w / 2 ^ 25 = 0x43) : EncodesTo w (decodeA03 w) :=
  .row (fun h => pack_20_15_9_8_4_3_0_of_gaps_14 h hw rfl) <|
  .row (fun h => pack_20_15_9_of_gaps_0_14_23 h hw rfl) <|
  .none w

theorem decodeA04_encodesTo {w : Nat} (hw : w / 2 ^ 25 = 0x44) : EncodesTo w (decodeA04 w) :=
  .row (fun h => pack_20_15_8_4_of_gaps_0_9 h hw rfl) <|
  .none w

theorem decodeA05_encodesTo {w : Nat} (hw : w / 2 ^ 25 = 0x45) : EncodesTo w (decodeA05 w) :=
  .row (fun h => pack_20_15_of_gaps_0 h hw rfl) <|
  .row (fun h => pack_20_15_of_gaps_0_23 h hw rfl) <|
  .none w

theorem decodeA06_encodesTo {w : Nat} (hw : w / 2 ^ 25 = 0x46) : EncodesTo w (decodeA06 w) :=
  .row (fun h => pack_20_15_9_of_gaps_0_14 h hw rfl) <|
  .none w

theorem decodeA07_encodesTo {w : Nat} (hw : w / 2 ^ 25 = 0x47) : EncodesTo w (decodeA07 w) :=
  .row (fun h => pack_20_15_9_of_gaps_0_14 h hw rfl) <|
  .none w

theorem decodeA08_encodesTo {w : Nat} (hw : w / 2 ^ 25 = 0x48) : EncodesTo w (decodeA08 w) :=
  .row (fun h => pack_20_15_9_of_gaps_0_14 h hw rfl) <|
  .row (fun h => pack_20_15_9_of_gaps_0_14_23 h hw rfl) <|
  .none w

theorem decodeA09_encodesTo {w : Nat} (hw : w / 2 ^ 25 = 0x49) : EncodesTo w (decodeA09 w) :=
  .row (fun h => pack_20_15_9_2_0_of_gaps_6_14 h hw rfl) <|
  .none w

theorem decodeA0A_encodesTo {w : Nat} (hw : w / 2 ^ 25 = 0x4A) : EncodesTo w (decodeA0A w) :=
  .row (fun h => pack_20_15_9_5_0_of_gaps_4_6_14 h hw rfl) <|
  .none w

theorem decodeA0B_encodesTo {w : Nat} (hw : w / 2 ^ 25 = 0x4B) : EncodesTo w (decodeA0B w) :=
  .row (fun h => pack_20_15_9_of_gaps_0_14 h hw rfl) <|
  .row (fun h => pack_20_15_9_of_gaps_0_14 h hw rfl) <|
  .row (fun h => pack_20_15_9_of_gaps_0_14 h hw rfl) <|
  .none w

theorem decodeA0C_encodesTo {w : Nat} (hw : w / 2 ^ 25 = 0x4C) : EncodesTo w (decodeA0C w) :=
  .row (fun h => pack_20_15_9_of_gaps_0_14 h hw rfl) <|
  .row (fun h => pack_20_15_9_of_gaps_0_14 h hw rfl) <|
  .row (fun h => pack_20_15_9_of_gaps_0_14 h hw rfl) <|
  .row (fun h => pack_20_15_9_of_gaps_0_14 h hw rfl) <|
  .row (fun h => pack_15_of_gaps_0_20 h hw rfl) <|
  .row (fun h => pack_9_of_gaps_0_14 h hw rfl) <|
  .row (fun h => pack_20_15_of_gaps_0_24 h hw rfl) <|
  .row (fun h => pack_20_15_of_gaps_0_24 h hw rfl) <|
  .none w

theorem decodeA0D_encodesTo {w : Nat} (hw : w / 2 ^ 25 = 0x4D) : EncodesTo w (decodeA0D w) :=
  .row (fun h => pack_15_9_of_gaps_0_14_20 h hw rfl) <|
  .row (fun h => pack_20_15_9_of_gaps_0_14 h hw rfl) <|
  .row (fun h => pack_20_15_9_of_gaps_0_14 h hw rfl) <|
  .none w

theorem decodeA0E_encodesTo {w : Nat} (hw : w / 2 ^ 25 = 0x4E) : EncodesTo w (decodeA0E w) :=
  .row (fun h => pack_20_15_of_gaps_0 h hw rfl) <|
  .row (fun h => pack_15_9_of_gaps_0_14_20 h hw rfl) <|
  .none w

theorem decodeA20_encodesTo {w : Nat} (hw : w / 2 ^ 25 = 0x60) : EncodesTo w (decodeA20 w) :=
  .row (fun h => pack_20_15_of_gaps_0 h hw rfl) <|
  .row (fun h => pack_20_15_of_gaps_0 h hw rfl) <|
  .row (fun h => pack_15_of_gaps_0_20 h hw rfl) <|
  .none w

theorem decodeA_encodesTo {w : Nat} (hw : w / 2 ^ 31 = 1) : EncodesTo w (decodeA w) := by
  have hmajor : w / 2 ^ 25 = 64 + bitsAt w 25 6 := by simp only [bitsAt]; omega
  unfold decodeA
  split <;> rename_i h <;> try rw [h] at hmajor
  · exact decodeA00_encodesTo hmajor
  · exact decodeA01_encodesTo hmajor
  · exact decodeA02_encodesTo hmajor
  · exact decodeA03_encodesTo hmajor
  · exact decodeA04_encodesTo hmajor
  · exact decodeA05_encodesTo hmajor
  · exact decodeA06_encodesTo hmajor
  · exact decodeA07_encodesTo hmajor
  · exact decodeA08_encodesTo hmajor
  · exact decodeA09_encodesTo hmajor
  · exact decodeA0A_encodesTo hmajor
  · exact decodeA0B_encodesTo hmajor
  · exact decodeA0C_encodesTo hmajor
  · exact decodeA0D_encodesTo hmajor
  · exact decodeA0E_encodesTo hmajor
  · exact decodeA20_encodesTo hmajor
  · exact .none w

/-! ### The majors of the X-harts' own space (Table 05.9) -/

theorem decodeX00_encodesTo {w : Nat} (hw : w / 2 ^ 25 = 0x40) : EncodesTo w (decodeX00 w) :=
  .row (fun h => pack_20_15_14_9_8_of_gaps_0 h hw rfl) <|
  .row (fun h => pack_20_15_14_9_8_of_gaps_0 h hw rfl) <|
  .row (fun h => pack_20_15_14_9_8_of_gaps_0 h hw rfl) <|
  .row (fun h => pack_20_15_14_9_8_of_gaps_0 h hw rfl) <|
  .row (fun h => pack_20_15_14_9_8_of_gaps_0 h hw rfl) <|
  .row (fun h => pack_20_15_14_9_8_of_gaps_0 h hw rfl) <|
  .none w

theorem decodeX01_encodesTo {w : Nat} (hw : w / 2 ^ 25 = 0x41) : EncodesTo w (decodeX01 w) :=
  .row (fun h => pack_20_15_14_9_8_of_gaps_0 h hw rfl) <|
  .row (fun h => pack_20_15_14_of_gaps_0 h hw rfl) <|
  .row (fun h => pack_20_15_14_of_gaps_0 h hw rfl) <|
  .row (fun h => pack_20_15_14_of_gaps_0 h hw rfl) <|
  .row (fun h => pack_20_15_14_of_gaps_0 h hw rfl) <|
  .row (fun h => pack_20_15_14_of_gaps_0 h hw rfl) <|
  .row (fun h => pack_20_15_14_of_gaps_0 h hw rfl) <|
  .row (fun h => pack_20_15_14_of_gaps_0 h hw rfl) <|
  .row (fun h => pack_20_15_14_of_gaps_0 h hw rfl) <|
  .none w

theorem decodeX02_encodesTo {w : Nat} (hw : w / 2 ^ 25 = 0x42) : EncodesTo w (decodeX02 w) :=
  .row (fun h => pack_20_15_14_9_8_of_gaps_0 h hw rfl) <|
  .row (fun h => pack_20_15_14_9_8_of_gaps_0 h hw rfl) <|
  .row (fun h => pack_20_15_14_of_gaps_0 h hw rfl) <|
  .row (fun h => pack_20_15_14_of_gaps_0 h hw rfl) <|
  .row (fun h => pack_20_15_14_9_8_of_gaps_0 h hw rfl) <|
  .none w

theorem decodeX03_encodesTo {w : Nat} (hw : w / 2 ^ 25 = 0x43) : EncodesTo w (decodeX03 w) :=
  .row (fun h => pack_20_15_14_9_8_of_gaps_0 h hw rfl) <|
  .row (fun h => pack_20_15_14_9_8_of_gaps_0 h hw rfl) <|
  .row (fun h => pack_20_15_14_9_8_of_gaps_0 h hw rfl) <|
  .row (fun h => pack_20_15_14_9_8_of_gaps_0 h hw rfl) <|
  .row (fun h => pack_20_15_14_9_8_of_gaps_0 h hw rfl) <|
  .row (fun h => pack_20_15_14_9_8_of_gaps_0 h hw rfl) <|
  .row (fun h => pack_20_15_14_9_8_of_gaps_0 h hw rfl) <|
  .row (fun h => pack_20_15_14_9_8_of_gaps_0 h hw rfl) <|
  .row (fun h => pack_20_15_14_of_gaps_0 h hw rfl) <|
  .row (fun h => pack_20_15_14_of_gaps_0 h hw rfl) <|
  .row (fun h => pack_20_15_14_9_8_of_gaps_0 h hw rfl) <|
  .none w

theorem decodeX04_encodesTo {w : Nat} (hw : w / 2 ^ 25 = 0x44) : EncodesTo w (decodeX04 w) :=
  .row (fun h => pack_20_15_14_9_8_0_of_gaps_3_23 h hw rfl) <|
  .row (fun h => pack_20_15_14_9_8_of_gaps_0_23 h hw rfl) <|
  .none w

theorem decodeX05_encodesTo {w : Nat} (hw : w / 2 ^ 25 = 0x45) : EncodesTo w (decodeX05 w) :=
  .row (fun h => pack_20_15_9_of_gaps_0_12_18_23 h hw rfl) <|
  .row (fun h => pack_20_15_9_of_gaps_0_12_18_23 h hw rfl) <|
  .row (fun h => pack_20_15_9_of_gaps_0_12_18_23 h hw rfl) <|
  .row (fun h => pack_20_15_9_of_gaps_0_12_18_23 h hw rfl) <|
  .row (fun h => pack_20_15_of_gaps_0_18 h hw rfl) <|
  .row (fun h => pack_20_15_of_gaps_0_18 h hw rfl) <|
  .row (fun h => pack_20_15_of_gaps_0_23 h hw rfl) <|
  .none w

theorem decodeX06_encodesTo {w : Nat} (hw : w / 2 ^ 25 = 0x46) : EncodesTo w (decodeX06 w) :=
  .row (fun h => pack_20_15_14_9_of_gaps_0_13 h hw rfl) <|
  .row (fun h => pack_20_15_14_9_of_gaps_0_13 h hw rfl) <|
  .row (fun h => pack_20_15_14_of_gaps_0 h hw rfl) <|
  .row (fun h => pack_20_15_14_9_of_gaps_0 h hw rfl) <|
  .row (fun h => pack_20_15_9_of_gaps_0_14 h hw rfl) <|
  .row (fun h => pack_20_15_14_9_of_gaps_0 h hw rfl) <|
  .none w

theorem decodeX07_encodesTo {w : Nat} (hw : w / 2 ^ 25 = 0x47) : EncodesTo w (decodeX07 w) :=
  .row (fun h => pack_20_15_14_of_gaps_0 h hw rfl) <|
  .row (fun h => pack_20_15_14_9_of_gaps_0 h hw rfl) <|
  .row (fun h => pack_20_15_14_9_of_gaps_0 h hw rfl) <|
  .row (fun h => pack_20_15_14_9_of_gaps_0 h hw rfl) <|
  .row (fun h => pack_20_15_14_9_of_gaps_0 h hw rfl) <|
  .row (fun h => pack_20_15_14_of_gaps_0 h hw rfl) <|
  .row (fun h => pack_20_15_14_of_gaps_0 h hw rfl) <|
  .row (fun h => pack_20_15_14_9_of_gaps_0 h hw rfl) <|
  .row (fun h => pack_20_15_14_of_gaps_0 h hw rfl) <|
  .row (fun h => pack_20_15_14_9_of_gaps_0 h hw rfl) <|
  .row (fun h => pack_20_15_14_of_gaps_0 h hw rfl) <|
  .row (fun h => pack_20_15_14_9_of_gaps_0 h hw rfl) <|
  .row (fun h => pack_20_15_9_of_gaps_0_14 h hw rfl) <|
  .none w

theorem decodeX08_encodesTo {w : Nat} (hw : w / 2 ^ 25 = 0x48) : EncodesTo w (decodeX08 w) :=
  .row (fun h => pack_20_15_14_0_of_gaps_4 h hw rfl) <|
  .row (fun h => pack_20_15_14_0_of_gaps_4 h hw rfl) <|
  .none w

theorem decodeX09_encodesTo {w : Nat} (hw : w / 2 ^ 25 = 0x49) : EncodesTo w (decodeX09 w) :=
  .row (fun h => pack_17_12_10_7_of_gaps_0 h hw rfl) <|
  .row (fun h => pack_17_12_10_7_of_gaps_0 h hw rfl) <|
  .row (fun h => pack_17_2_of_gaps_0_7 h hw rfl) <|
  .none w

theorem decodeX0A_encodesTo {w : Nat} (hw : w / 2 ^ 25 = 0x4A) : EncodesTo w (decodeX0A w) :=
  .row (fun h => pack_20_15_of_gaps_0_18 h hw rfl) <|
  .row (fun h => pack_20_15_of_gaps_0_18 h hw rfl) <|
  .none w

theorem decodeX0B_encodesTo {w : Nat} (hw : w / 2 ^ 25 = 0x4B) : EncodesTo w (decodeX0B w) :=
  .row (fun h => pack_20_15_of_gaps_0 h hw rfl) <|
  .row (fun h => eq_of_gaps_0 h hw rfl) <|
  .row (fun h => pack_20_of_gaps_0_22 h hw rfl) <|
  .row (fun h => pack_20_15_of_gaps_0_22 h hw rfl) <|
  .row (fun h => pack_20_of_gaps_0_22 h hw rfl) <|
  .row (fun h => pack_20_of_gaps_0 h hw rfl) <|
  .row (fun h => pack_20_15_14_9_8_0_of_gaps_2_22 h hw rfl) <|
  .row (fun h => pack_20_15_14_9_8_5_2_0_of_gaps_6_22 h hw rfl) <|
  .none w

theorem decodeX0C_encodesTo {w : Nat} (hw : w / 2 ^ 25 = 0x4C) : EncodesTo w (decodeX0C w) :=
  .some (pack_20_15_14_9_8_0_of_major hw rfl)

theorem decodeX3F_encodesTo {w : Nat} (hw : w / 2 ^ 25 = 0x7F) : EncodesTo w (decodeX3F w) :=
  .row (fun h => pack_20_19_18_15_14_11_of_gaps_0 h hw rfl) <|
  .none w

theorem decodeX_encodesTo {w : Nat} (hw : w / 2 ^ 31 = 1) : EncodesTo w (decodeX w) := by
  have hmajor : w / 2 ^ 25 = 64 + bitsAt w 25 6 := by simp only [bitsAt]; omega
  unfold decodeX
  split <;> rename_i h <;> try rw [h] at hmajor
  · exact decodeX00_encodesTo hmajor
  · exact decodeX01_encodesTo hmajor
  · exact decodeX02_encodesTo hmajor
  · exact decodeX03_encodesTo hmajor
  · exact decodeX04_encodesTo hmajor
  · exact decodeX05_encodesTo hmajor
  · exact decodeX06_encodesTo hmajor
  · exact decodeX07_encodesTo hmajor
  · exact decodeX08_encodesTo hmajor
  · exact decodeX09_encodesTo hmajor
  · exact decodeX0A_encodesTo hmajor
  · exact decodeX0B_encodesTo hmajor
  · exact decodeX0C_encodesTo hmajor
  · exact decodeX3F_encodesTo hmajor
  · exact .none w

/-! ### The statement -/

theorem decodeRow_encodesTo (sp : Space) {w : Nat} (hw : w < 2 ^ 32) : EncodesTo w (decodeRow sp w) := by
  unfold decodeRow
  split
  · exact .none w
  · split <;> rename_i h31
    · exact decodeShared_encodesTo (by simp only [bitsAt] at h31; omega)
    · have htop : w / 2 ^ 31 = 1 := by simp only [bitsAt] at h31; omega
      cases sp with
      | cc => exact decodeCc_encodesTo htop
      | access => exact decodeA_encodesTo htop
      | execute => exact decodeX_encodesTo htop

/-- A word decodes to `i` where it names `i`'s row and the row allows `i`'s operands (R84, R87). -/
theorem decode_eq_ok_iff {sp : Space} {w : BitVec 32} {i : Instr} :
    decode sp w = .ok i ↔ decodeRow sp w.toNat = some i ∧ i.wellFormed = true := by
  unfold decode
  cases decodeRow sp w.toNat with
  | none => simp
  | some j =>
    simp only [Option.some.injEq]
    constructor
    · intro h
      split at h
      · cases h; exact ⟨rfl, ‹_›⟩
      · cases h
    · rintro ⟨rfl, hwf⟩
      exact if_pos hwf

/-- Settles O3: each row's fixed bits and operands are all the bits of the word, so that the encoder puts the same word together. -/
theorem encodeOfDecode : Obligations.EncodeOfDecode := by
  unfold Obligations.EncodeOfDecode
  intro sp w i hdecode
  obtain ⟨hrow, hwf⟩ := decode_eq_ok_iff.mp hdecode
  have henc : i.encodeNat = w.toNat := decodeRow_encodesTo sp w.isLt i hrow
  have hne : w.toNat ≠ 0 := by
    intro h0
    simp [decodeRow, h0] at hrow
  have hword : i.hasWord = true := by simp [Instr.hasWord, henc, hne]
  refine ⟨hwf, ?_⟩
  rw [encode, if_pos hword, henc, BitVec.ofNat_toNat, BitVec.setWidth_eq]

end Sys2Proof

/-! SUPPORT. Instructions from their words (R84 to R98): the fields of a word that the encoder writes are the operands, and so every
row before an instruction's own refuses its word and its own row answers it. -/

namespace Sys2Proof

set_option Elab.async false

/-! ### The fields of an encoded word -/

/-- A field's value at its place in a word. -/
def place {n : Nat} (f : BitVec n) (k : Nat) : Nat := f.toNat * 2 ^ k

@[simp] theorem bitsAt_place_above (x : Nat) {n : Nat} (f : BitVec n) {k lo m : Nat} (h : lo + m ≤ k) :
    bitsAt (x + place f k) lo m = bitsAt x lo m := by
  obtain ⟨j, rfl⟩ := Nat.exists_eq_add_of_le h
  unfold bitsAt place
  rw [Nat.add_assoc, Nat.pow_add, Nat.mul_left_comm, Nat.add_mul_div_left _ _ (Nat.two_pow_pos lo), Nat.pow_add, Nat.mul_left_comm,
    Nat.add_mul_mod_self_left]

@[simp] theorem bitsAt_place_below (x : Nat) {n : Nat} (f : BitVec n) {k lo m : Nat} (h : k + n ≤ lo) (hx : bitsAt x k n = 0) :
    bitsAt (x + place f k) lo m = bitsAt x lo m := by
  obtain ⟨j, rfl⟩ := Nat.exists_eq_add_of_le h
  have hf := f.isLt
  simp only [bitsAt, place, Nat.pow_add, ← Nat.div_div_eq_div_mul, Nat.add_mul_div_right _ _ (Nat.two_pow_pos k)] at hx ⊢
  have : (x / 2 ^ k + f.toNat) / 2 ^ n = x / 2 ^ k / 2 ^ n := by
    conv_lhs => rw [← Nat.mod_add_div (x / 2 ^ k) (2 ^ n), hx, Nat.zero_add, Nat.add_comm,
      Nat.add_mul_div_left _ _ (Nat.two_pow_pos n), Nat.div_eq_of_lt hf, Nat.zero_add]
  rw [this]

@[simp] theorem bitsAt_place_self (x : Nat) {n : Nat} (f : BitVec n) {k : Nat} (hx : bitsAt x k n = 0) :
    bitsAt (x + place f k) k n = f.toNat := by
  have hf := f.isLt
  simp only [bitsAt, place, Nat.add_mul_div_right _ _ (Nat.two_pow_pos k)] at hx ⊢
  rw [← Nat.mod_add_mod, hx, Nat.zero_add, Nat.mod_eq_of_lt hf]

/-- The fields of a row's fixed bits are computed. -/
@[simp] theorem bitsAt_lit (m lo n : Nat) : bitsAt (no_index (OfNat.ofNat m)) lo n = OfNat.ofNat m / 2 ^ lo % 2 ^ n := by
  simp only [bitsAt]

/-- A row that asks for more bits at once than another row's fixed bits asks for each part of them. -/
theorem bitsAt_eq_iff_split (p q : Nat) {w lo n c : Nat} (hn : n = p + q) :
    bitsAt w lo n = c ↔ bitsAt w lo p = c % 2 ^ p ∧ bitsAt w (lo + p) q = c / 2 ^ p := by
  subst hn
  have hcut : bitsAt w lo (p + q) = bitsAt w lo p + 2 ^ p * bitsAt w (lo + p) q := by
    simp only [bitsAt, Nat.pow_add, Nat.mod_mul, Nat.div_div_eq_div_mul]
  have hlt : bitsAt w lo p < 2 ^ p := Nat.mod_lt _ (Nat.two_pow_pos p)
  rw [hcut]
  constructor
  · rintro rfl
    rw [Nat.add_mul_mod_self_left, Nat.mod_eq_of_lt hlt, Nat.add_mul_div_left _ _ (Nat.two_pow_pos p), Nat.div_eq_of_lt hlt,
      Nat.zero_add]
    exact ⟨rfl, rfl⟩
  · rintro ⟨h1, h2⟩
    rw [h1, h2, Nat.mod_add_div]

/-! ### Each layout of fields as a sum of places -/

section

variable (m : Nat) {na nb nc nd ne nf ng nh : Nat} (a : BitVec na) (b : BitVec nb) (c : BitVec nc) (d : BitVec nd) (e : BitVec ne)
  (f : BitVec nf) (g : BitVec ng) (h : BitVec nh)

@[simp] theorem pack_0_eq : pack_0 m a.toNat = m + place a 0 := by
  simp only [pack_0, place, Nat.pow_zero, Nat.mul_one]

@[simp] theorem pack_15_eq : pack_15 m a.toNat = m + place a 15 := rfl

@[simp] theorem pack_15_0_eq : pack_15_0 m a.toNat b.toNat = m + place a 15 + place b 0 := by
  simp only [pack_15_0, place, Nat.pow_zero, Nat.mul_one]

@[simp] theorem pack_15_9_eq : pack_15_9 m a.toNat b.toNat = m + place a 15 + place b 9 := rfl

@[simp] theorem pack_17_12_10_7_eq :
    pack_17_12_10_7 m a.toNat b.toNat c.toNat d.toNat =
      m + place a 17 + place b 12 + place c 10 + place d 7 := rfl

@[simp] theorem pack_17_2_eq : pack_17_2 m a.toNat b.toNat = m + place a 17 + place b 2 := rfl

@[simp] theorem pack_20_eq : pack_20 m a.toNat = m + place a 20 := rfl

@[simp] theorem pack_20_0_eq : pack_20_0 m a.toNat b.toNat = m + place a 20 + place b 0 := by
  simp only [pack_20_0, place, Nat.pow_zero, Nat.mul_one]

@[simp] theorem pack_20_15_eq : pack_20_15 m a.toNat b.toNat = m + place a 20 + place b 15 := rfl

@[simp] theorem pack_20_15_0_eq : pack_20_15_0 m a.toNat b.toNat c.toNat = m + place a 20 + place b 15 + place c 0 := by
  simp only [pack_20_15_0, place, Nat.pow_zero, Nat.mul_one]

@[simp] theorem pack_20_15_12_0_eq :
    pack_20_15_12_0 m a.toNat b.toNat c.toNat d.toNat =
      m + place a 20 + place b 15 + place c 12 + place d 0 := by
  simp only [pack_20_15_12_0, place, Nat.pow_zero, Nat.mul_one]

@[simp] theorem pack_20_15_14_eq : pack_20_15_14 m a.toNat b.toNat c.toNat = m + place a 20 + place b 15 + place c 14 := rfl

@[simp] theorem pack_20_15_14_0_eq :
    pack_20_15_14_0 m a.toNat b.toNat c.toNat d.toNat =
      m + place a 20 + place b 15 + place c 14 + place d 0 := by
  simp only [pack_20_15_14_0, place, Nat.pow_zero, Nat.mul_one]

@[simp] theorem pack_20_15_14_9_eq :
    pack_20_15_14_9 m a.toNat b.toNat c.toNat d.toNat =
      m + place a 20 + place b 15 + place c 14 + place d 9 := rfl

@[simp] theorem pack_20_15_14_9_8_eq :
    pack_20_15_14_9_8 m a.toNat b.toNat c.toNat d.toNat e.toNat =
      m + place a 20 + place b 15 + place c 14 + place d 9 + place e 8 := rfl

@[simp] theorem pack_20_15_14_9_8_0_eq :
    pack_20_15_14_9_8_0 m a.toNat b.toNat c.toNat d.toNat e.toNat f.toNat =
      m + place a 20 + place b 15 + place c 14 + place d 9 + place e 8 + place f 0 := by
  simp only [pack_20_15_14_9_8_0, place, Nat.pow_zero, Nat.mul_one]

@[simp] theorem pack_20_15_14_9_8_5_2_0_eq :
    pack_20_15_14_9_8_5_2_0 m a.toNat b.toNat c.toNat d.toNat e.toNat f.toNat g.toNat h.toNat =
      m + place a 20 + place b 15 + place c 14 + place d 9 + place e 8 + place f 5 + place g 2 + place h 0 := by
  simp only [pack_20_15_14_9_8_5_2_0, place, Nat.pow_zero, Nat.mul_one]

@[simp] theorem pack_20_15_8_eq : pack_20_15_8 m a.toNat b.toNat c.toNat = m + place a 20 + place b 15 + place c 8 := rfl

@[simp] theorem pack_20_15_8_4_eq :
    pack_20_15_8_4 m a.toNat b.toNat c.toNat d.toNat =
      m + place a 20 + place b 15 + place c 8 + place d 4 := rfl

@[simp] theorem pack_20_15_8_4_3_0_eq :
    pack_20_15_8_4_3_0 m a.toNat b.toNat c.toNat d.toNat e.toNat f.toNat =
      m + place a 20 + place b 15 + place c 8 + place d 4 + place e 3 + place f 0 := by
  simp only [pack_20_15_8_4_3_0, place, Nat.pow_zero, Nat.mul_one]

@[simp] theorem pack_20_15_9_eq : pack_20_15_9 m a.toNat b.toNat c.toNat = m + place a 20 + place b 15 + place c 9 := rfl

@[simp] theorem pack_20_15_9_2_0_eq :
    pack_20_15_9_2_0 m a.toNat b.toNat c.toNat d.toNat e.toNat =
      m + place a 20 + place b 15 + place c 9 + place d 2 + place e 0 := by
  simp only [pack_20_15_9_2_0, place, Nat.pow_zero, Nat.mul_one]

@[simp] theorem pack_20_15_9_4_eq :
    pack_20_15_9_4 m a.toNat b.toNat c.toNat d.toNat =
      m + place a 20 + place b 15 + place c 9 + place d 4 := rfl

@[simp] theorem pack_20_15_9_5_0_eq :
    pack_20_15_9_5_0 m a.toNat b.toNat c.toNat d.toNat e.toNat =
      m + place a 20 + place b 15 + place c 9 + place d 5 + place e 0 := by
  simp only [pack_20_15_9_5_0, place, Nat.pow_zero, Nat.mul_one]

@[simp] theorem pack_20_15_9_8_4_3_0_eq :
    pack_20_15_9_8_4_3_0 m a.toNat b.toNat c.toNat d.toNat e.toNat f.toNat g.toNat =
      m + place a 20 + place b 15 + place c 9 + place d 8 + place e 4 + place f 3 + place g 0 := by
  simp only [pack_20_15_9_8_4_3_0, place, Nat.pow_zero, Nat.mul_one]

@[simp] theorem pack_20_16_9_0_eq :
    pack_20_16_9_0 m a.toNat b.toNat c.toNat d.toNat =
      m + place a 20 + place b 16 + place c 9 + place d 0 := by
  simp only [pack_20_16_9_0, place, Nat.pow_zero, Nat.mul_one]

@[simp] theorem pack_20_17_0_eq : pack_20_17_0 m a.toNat b.toNat c.toNat = m + place a 20 + place b 17 + place c 0 := by
  simp only [pack_20_17_0, place, Nat.pow_zero, Nat.mul_one]

@[simp] theorem pack_20_19_18_15_14_11_eq :
    pack_20_19_18_15_14_11 m a.toNat b.toNat c.toNat d.toNat e.toNat f.toNat =
      m + place a 20 + place b 19 + place c 18 + place d 15 + place e 14 + place f 11 := rfl

@[simp] theorem pack_22_19_eq : pack_22_19 m a.toNat b.toNat = m + place a 22 + place b 19 := rfl

@[simp] theorem pack_25_20_15_13_5_0_eq :
    pack_25_20_15_13_5_0 m a.toNat b.toNat c.toNat d.toNat e.toNat f.toNat =
      m + place a 25 + place b 20 + place c 15 + place d 13 + place e 5 + place f 0 := by
  simp only [pack_25_20_15_13_5_0, place, Nat.pow_zero, Nat.mul_one]

@[simp] theorem pack_9_eq : pack_9 m a.toNat = m + place a 9 := rfl

end


/-! ### Reading each encoded row back -/

/-- The word of `i` names `i` in every space that reads it; the all-zero word is none (R87). -/
def ReadBack (i : Instr) : Prop :=
  i.hasWord = true → ∀ sp, (bitsAt i.encodeNat 31 1 = 0 ∨ sp = i.space) → decodeRow sp i.encodeNat = some i

/-- Majors 0x38 to 0x3F are one row, `sbr`, whose OFF field reaches into the major opcode (R117). -/
theorem decodeShared_of_56_le {w : Nat} (h : 56 ≤ bitsAt w 25 6) : decodeShared w = decodeShared38 w := by
  have hlt : bitsAt w 25 6 < 64 := Nat.mod_lt _ (by decide)
  unfold decodeShared
  interval_cases bitsAt w 25 6 <;> rfl

theorem readBack_shared {i : Instr} (htop : bitsAt i.encodeNat 31 1 = 0) (hrow : decodeShared i.encodeNat = some i) : ReadBack i := by
  intro hword sp _
  simp [decodeRow, bne_iff_ne.mp hword, htop, hrow]

section

variable {i : Instr} (htop : bitsAt i.encodeNat 31 1 = 1)
include htop

/-- A word that is not shared is read in the space of its instruction alone. -/
theorem readBack_of_private (hrow : i.encodeNat ≠ 0 → decodeRow i.space i.encodeNat = some i) : ReadBack i := by
  rintro hword sp (hshared | rfl)
  · omega
  · exact hrow (bne_iff_ne.mp hword)

theorem readBack_cc (hspace : i.space = .cc) (hrow : decodeCc i.encodeNat = some i) : ReadBack i :=
  readBack_of_private htop fun hne => by simp [decodeRow, hne, htop, hspace, hrow]

theorem readBack_access (hspace : i.space = .access) (hrow : decodeA i.encodeNat = some i) : ReadBack i :=
  readBack_of_private htop fun hne => by simp [decodeRow, hne, htop, hspace, hrow]

theorem readBack_execute (hspace : i.space = .execute) (hrow : decodeX i.encodeNat = some i) : ReadBack i :=
  readBack_of_private htop fun hne => by simp [decodeRow, hne, htop, hspace, hrow]

end

theorem ReadBack.add (d a b : BitVec 5) : ReadBack (.add d a b) :=
  readBack_shared (by simp [-zero_add, -Nat.zero_add, Instr.encodeNat])
    (by simp [-zero_add, -Nat.zero_add, decodeShared, decodeShared00, Instr.encodeNat])
theorem ReadBack.sub (d a b : BitVec 5) : ReadBack (.sub d a b) :=
  readBack_shared (by simp [Instr.encodeNat]) (by simp [decodeShared, decodeShared00, Instr.encodeNat])
theorem ReadBack.mul (d a b : BitVec 5) : ReadBack (.mul d a b) :=
  readBack_shared (by simp [Instr.encodeNat]) (by simp [decodeShared, decodeShared00, Instr.encodeNat])
theorem ReadBack.mulh (d a b : BitVec 5) : ReadBack (.mulh d a b) :=
  readBack_shared (by simp [Instr.encodeNat]) (by simp [decodeShared, decodeShared00, Instr.encodeNat])
theorem ReadBack.mulhu (d a b : BitVec 5) : ReadBack (.mulhu d a b) :=
  readBack_shared (by simp [Instr.encodeNat]) (by simp [decodeShared, decodeShared00, Instr.encodeNat])
theorem ReadBack.div (d a b : BitVec 5) : ReadBack (.div d a b) :=
  readBack_shared (by simp [Instr.encodeNat]) (by simp [decodeShared, decodeShared00, Instr.encodeNat])
theorem ReadBack.divu (d a b : BitVec 5) : ReadBack (.divu d a b) :=
  readBack_shared (by simp [Instr.encodeNat]) (by simp [decodeShared, decodeShared00, Instr.encodeNat])
theorem ReadBack.rem (d a b : BitVec 5) : ReadBack (.rem d a b) :=
  readBack_shared (by simp [Instr.encodeNat]) (by simp [decodeShared, decodeShared00, Instr.encodeNat])
theorem ReadBack.remu (d a b : BitVec 5) : ReadBack (.remu d a b) :=
  readBack_shared (by simp [Instr.encodeNat]) (by simp [decodeShared, decodeShared00, Instr.encodeNat])
theorem ReadBack.and (d a b : BitVec 5) : ReadBack (.and d a b) :=
  readBack_shared (by simp [Instr.encodeNat]) (by simp [decodeShared, decodeShared00, Instr.encodeNat])
theorem ReadBack.or (d a b : BitVec 5) : ReadBack (.or d a b) :=
  readBack_shared (by simp [Instr.encodeNat]) (by simp [decodeShared, decodeShared00, Instr.encodeNat])
theorem ReadBack.xor (d a b : BitVec 5) : ReadBack (.xor d a b) :=
  readBack_shared (by simp [Instr.encodeNat]) (by simp [decodeShared, decodeShared00, Instr.encodeNat])
theorem ReadBack.sll (d a b : BitVec 5) : ReadBack (.sll d a b) :=
  readBack_shared (by simp [Instr.encodeNat]) (by simp [decodeShared, decodeShared00, Instr.encodeNat])
theorem ReadBack.srl (d a b : BitVec 5) : ReadBack (.srl d a b) :=
  readBack_shared (by simp [Instr.encodeNat]) (by simp [decodeShared, decodeShared00, Instr.encodeNat])
theorem ReadBack.sra (d a b : BitVec 5) : ReadBack (.sra d a b) :=
  readBack_shared (by simp [Instr.encodeNat]) (by simp [decodeShared, decodeShared00, Instr.encodeNat])
theorem ReadBack.slt (d a b : BitVec 5) : ReadBack (.slt d a b) :=
  readBack_shared (by simp [Instr.encodeNat]) (by simp [decodeShared, decodeShared00, Instr.encodeNat])
theorem ReadBack.sltu (d a b : BitVec 5) : ReadBack (.sltu d a b) :=
  readBack_shared (by simp [Instr.encodeNat]) (by simp [decodeShared, decodeShared00, Instr.encodeNat])
theorem ReadBack.min (d a b : BitVec 5) : ReadBack (.min d a b) :=
  readBack_shared (by simp [Instr.encodeNat]) (by simp [decodeShared, decodeShared00, Instr.encodeNat])
theorem ReadBack.max (d a b : BitVec 5) : ReadBack (.max d a b) :=
  readBack_shared (by simp [Instr.encodeNat]) (by simp [decodeShared, decodeShared00, Instr.encodeNat])
theorem ReadBack.minu (d a b : BitVec 5) : ReadBack (.minu d a b) :=
  readBack_shared (by simp [Instr.encodeNat]) (by simp [decodeShared, decodeShared00, Instr.encodeNat])
theorem ReadBack.maxu (d a b : BitVec 5) : ReadBack (.maxu d a b) :=
  readBack_shared (by simp [Instr.encodeNat]) (by simp [decodeShared, decodeShared00, Instr.encodeNat])
theorem ReadBack.clz (d a : BitVec 5) : ReadBack (.clz d a) :=
  readBack_shared (by simp [Instr.encodeNat]) (by simp [decodeShared, decodeShared00, Instr.encodeNat])
theorem ReadBack.ctz (d a : BitVec 5) : ReadBack (.ctz d a) :=
  readBack_shared (by simp [Instr.encodeNat]) (by simp [decodeShared, decodeShared00, Instr.encodeNat])
theorem ReadBack.popc (d a : BitVec 5) : ReadBack (.popc d a) :=
  readBack_shared (by simp [Instr.encodeNat]) (by simp [decodeShared, decodeShared00, Instr.encodeNat])
theorem ReadBack.sel (d a b : BitVec 5) : ReadBack (.sel d a b) :=
  readBack_shared (by simp [Instr.encodeNat]) (by simp [decodeShared, decodeShared00, Instr.encodeNat, bitsAt_eq_iff_split 9 6])
theorem ReadBack.addi (d a : BitVec 5) (i : BitVec 15) : ReadBack (.addi d a i) :=
  readBack_shared (by simp [Instr.encodeNat]) (by simp [decodeShared, decodeShared01, Instr.encodeNat])
theorem ReadBack.andi (d a : BitVec 5) (i : BitVec 15) : ReadBack (.andi d a i) :=
  readBack_shared (by simp [Instr.encodeNat]) (by simp [decodeShared, decodeShared02, Instr.encodeNat])
theorem ReadBack.ori (d a : BitVec 5) (i : BitVec 15) : ReadBack (.ori d a i) :=
  readBack_shared (by simp [Instr.encodeNat]) (by simp [decodeShared, decodeShared03, Instr.encodeNat])
theorem ReadBack.xori (d a : BitVec 5) (i : BitVec 15) : ReadBack (.xori d a i) :=
  readBack_shared (by simp [Instr.encodeNat]) (by simp [decodeShared, decodeShared04, Instr.encodeNat])
theorem ReadBack.slti (d a : BitVec 5) (i : BitVec 15) : ReadBack (.slti d a i) :=
  readBack_shared (by simp [Instr.encodeNat]) (by simp [decodeShared, decodeShared05, Instr.encodeNat])
theorem ReadBack.slli (d a : BitVec 5) (s : BitVec 6) : ReadBack (.slli d a s) :=
  readBack_shared (by simp [Instr.encodeNat]) (by simp [decodeShared, decodeShared06, Instr.encodeNat])
theorem ReadBack.srli (d a : BitVec 5) (s : BitVec 6) : ReadBack (.srli d a s) :=
  readBack_shared (by simp [Instr.encodeNat]) (by simp [decodeShared, decodeShared07, Instr.encodeNat])
theorem ReadBack.srai (d a : BitVec 5) (s : BitVec 6) : ReadBack (.srai d a s) :=
  readBack_shared (by simp [Instr.encodeNat]) (by simp [decodeShared, decodeShared08, Instr.encodeNat])
theorem ReadBack.adda (d a : BitVec 5) (i : BitVec 15) : ReadBack (.adda d a i) :=
  readBack_shared (by simp [Instr.encodeNat]) (by simp [decodeShared, decodeShared09, Instr.encodeNat])
theorem ReadBack.lih (d : BitVec 5) (i : BitVec 20) : ReadBack (.lih d i) :=
  readBack_shared (by simp [Instr.encodeNat]) (by simp [decodeShared, decodeShared0A, Instr.encodeNat])
theorem ReadBack.beq (a b : BitVec 5) (o : BitVec 15) : ReadBack (.beq a b o) :=
  readBack_shared (by simp [Instr.encodeNat]) (by simp [decodeShared, decodeShared0B, Instr.encodeNat])
theorem ReadBack.bne (a b : BitVec 5) (o : BitVec 15) : ReadBack (.bne a b o) :=
  readBack_shared (by simp [Instr.encodeNat]) (by simp [decodeShared, decodeShared0C, Instr.encodeNat])
theorem ReadBack.blt (a b : BitVec 5) (o : BitVec 15) : ReadBack (.blt a b o) :=
  readBack_shared (by simp [Instr.encodeNat]) (by simp [decodeShared, decodeShared0D, Instr.encodeNat])
theorem ReadBack.bge (a b : BitVec 5) (o : BitVec 15) : ReadBack (.bge a b o) :=
  readBack_shared (by simp [Instr.encodeNat]) (by simp [decodeShared, decodeShared0E, Instr.encodeNat])
theorem ReadBack.bltu (a b : BitVec 5) (o : BitVec 15) : ReadBack (.bltu a b o) :=
  readBack_shared (by simp [Instr.encodeNat]) (by simp [decodeShared, decodeShared0F, Instr.encodeNat])
theorem ReadBack.bgeu (a b : BitVec 5) (o : BitVec 15) : ReadBack (.bgeu a b o) :=
  readBack_shared (by simp [Instr.encodeNat]) (by simp [decodeShared, decodeShared10, Instr.encodeNat])
theorem ReadBack.jal (d : BitVec 5) (o : BitVec 20) : ReadBack (.jal d o) :=
  readBack_shared (by simp [Instr.encodeNat]) (by simp [decodeShared, decodeShared11, Instr.encodeNat])
theorem ReadBack.jalr (d a : BitVec 5) (i : BitVec 15) : ReadBack (.jalr d a i) :=
  readBack_shared (by simp [Instr.encodeNat]) (by simp [decodeShared, decodeShared12, Instr.encodeNat])
theorem ReadBack.loop (a : BitVec 5) (l : BitVec 15) : ReadBack (.loop a l) :=
  readBack_shared (by simp [Instr.encodeNat]) (by simp [decodeShared, decodeShared13, Instr.encodeNat])
theorem ReadBack.ploop (a : BitVec 5) (s : BitVec 3) (l : BitVec 15) : ReadBack (.ploop a s l) :=
  readBack_shared (by simp [Instr.encodeNat]) (by simp [decodeShared, decodeShared14, Instr.encodeNat])
theorem ReadBack.ld (d a : BitVec 5) (z : BitVec 3) (o : BitVec 12) : ReadBack (.ld d a z o) :=
  readBack_shared (by simp [Instr.encodeNat]) (by simp [decodeShared, decodeShared15, Instr.encodeNat])
theorem ReadBack.st (d a : BitVec 5) (z : BitVec 2) (o : BitVec 12) : ReadBack (.st d a z o) :=
  readBack_shared (by simp [Instr.encodeNat]) (by simp [decodeShared, decodeShared16, Instr.encodeNat])
theorem ReadBack.ipf (a : BitVec 5) (i : BitVec 15) : ReadBack (.ipf a i) :=
  readBack_shared (by simp [Instr.encodeNat]) (by simp [decodeShared, decodeShared17, Instr.encodeNat])
theorem ReadBack.dpf (a : BitVec 5) (i : BitVec 15) : ReadBack (.dpf a i) :=
  readBack_shared (by simp [Instr.encodeNat]) (by simp [decodeShared, decodeShared18, Instr.encodeNat])
theorem ReadBack.vshapeImm (d : BitVec 5) (w : BitVec 4) (r : BitVec 7) (l : BitVec 9) : ReadBack (.vshapeImm d w r l) :=
  readBack_shared (by simp [Instr.encodeNat]) (by simp [decodeShared, decodeShared19, Instr.encodeNat])
theorem ReadBack.vshapeReg (d a b : BitVec 5) (w : BitVec 4) : ReadBack (.vshapeReg d a b w) :=
  readBack_shared (by simp [Instr.encodeNat]) (by simp [decodeShared, decodeShared1A, Instr.encodeNat])
theorem ReadBack.vquery (d : BitVec 5) (i : BitVec 15) : ReadBack (.vquery d i) :=
  readBack_shared (by simp [Instr.encodeNat]) (by simp [decodeShared, decodeShared1B, Instr.encodeNat])
theorem ReadBack.bqPush (a : BitVec 5) : ReadBack (.bqPush a) :=
  readBack_shared (by simp [Instr.encodeNat]) (by simp [decodeShared, decodeShared1C, Instr.encodeNat])
theorem ReadBack.bqBr (o : BitVec 15) : ReadBack (.bqBr o) :=
  readBack_shared (by simp [Instr.encodeNat]) (by simp [decodeShared, decodeShared1D, Instr.encodeNat])
theorem ReadBack.fence (s k : BitVec 3) : ReadBack (.fence s k) :=
  readBack_shared (by simp [Instr.encodeNat]) (by simp [decodeShared, decodeShared1E, Instr.encodeNat])
theorem ReadBack.bar : ReadBack .bar :=
  readBack_shared (by simp [Instr.encodeNat]) (by simp [decodeShared, decodeShared1E, Instr.encodeNat])
theorem ReadBack.trap (i : BitVec 15) : ReadBack (.trap i) :=
  readBack_shared (by simp [Instr.encodeNat]) (by simp [decodeShared, decodeShared1F, Instr.encodeNat])
theorem ReadBack.nop : ReadBack .nop :=
  readBack_shared (by simp [Instr.encodeNat]) (by simp [decodeShared, decodeShared20, Instr.encodeNat])
theorem ReadBack.yield : ReadBack .yield :=
  readBack_shared (by simp [Instr.encodeNat]) (by simp [decodeShared, decodeShared20, Instr.encodeNat])
theorem ReadBack.sysr (d : BitVec 5) (n : BitVec 12) : ReadBack (.sysr d n) :=
  readBack_shared (by simp [Instr.encodeNat]) (by simp [decodeShared, decodeShared21, Instr.encodeNat])
theorem ReadBack.sysw (a : BitVec 5) (n : BitVec 12) : ReadBack (.sysw a n) :=
  readBack_shared (by simp [Instr.encodeNat]) (by simp [decodeShared, decodeShared22, Instr.encodeNat])

theorem ReadBack.sbr (o : BitVec 3) (c a : BitVec 5) (n : BitVec 2) (z : BitVec 8) (p : BitVec 5) : ReadBack (.sbr o c a n z p) := by
  have hmajor : bitsAt (0x70000000 + place o 25) 25 6 = 56 + o.toNat := by
    have := o.isLt
    simp only [bitsAt, place]
    omega
  refine readBack_shared (by simp [Instr.encodeNat]) ?_
  rw [decodeShared_of_56_le (by simp [Instr.encodeNat, hmajor])]
  simp [decodeShared38, Instr.encodeNat]

theorem ReadBack.acq (d a : BitVec 5) : ReadBack (.acq d a) :=
  readBack_cc (by simp [Instr.encodeNat]) rfl (by simp [decodeCc, decodeCc20, Instr.encodeNat])
theorem ReadBack.tryacq (d a : BitVec 5) : ReadBack (.tryacq d a) :=
  readBack_cc (by simp [Instr.encodeNat]) rfl (by simp [decodeCc, decodeCc20, Instr.encodeNat])
theorem ReadBack.rel (a : BitVec 5) : ReadBack (.rel a) :=
  readBack_cc (by simp [Instr.encodeNat]) rfl (by simp [decodeCc, decodeCc20, Instr.encodeNat])
theorem ReadBack.cqPush (d a b : BitVec 5) : ReadBack (.cqPush d a b) :=
  readBack_cc (by simp [Instr.encodeNat]) rfl (by simp [decodeCc, decodeCc21, Instr.encodeNat])
theorem ReadBack.knWait (k a : BitVec 5) : ReadBack (.knWait k a) :=
  readBack_cc (by simp [Instr.encodeNat]) rfl (by simp [decodeCc, decodeCc21, Instr.encodeNat])
theorem ReadBack.knSig (k a : BitVec 5) : ReadBack (.knSig k a) :=
  readBack_cc (by simp [Instr.encodeNat]) rfl (by simp [decodeCc, decodeCc21, Instr.encodeNat])
theorem ReadBack.renq (d a b : BitVec 5) : ReadBack (.renq d a b) :=
  readBack_cc (by simp [Instr.encodeNat]) rfl (by simp [decodeCc, decodeCc22, Instr.encodeNat])
theorem ReadBack.evqPop (d : BitVec 5) : ReadBack (.evqPop d) :=
  readBack_cc (by simp [Instr.encodeNat]) rfl (by simp [decodeCc, decodeCc22, Instr.encodeNat])
theorem ReadBack.evqPeek (d : BitVec 5) : ReadBack (.evqPeek d) :=
  readBack_cc (by simp [Instr.encodeNat]) rfl (by simp [decodeCc, decodeCc22, Instr.encodeNat])
theorem ReadBack.bobLd (a : BitVec 5) : ReadBack (.bobLd a) :=
  readBack_cc (by simp [Instr.encodeNat]) rfl (by simp [decodeCc, decodeCc23, Instr.encodeNat])
theorem ReadBack.bobGo (d a b : BitVec 5) : ReadBack (.bobGo d a b) :=
  readBack_cc (by simp [Instr.encodeNat]) rfl (by simp [decodeCc, decodeCc23, Instr.encodeNat, bitsAt_eq_iff_split 9 6])
theorem ReadBack.ovl (a : BitVec 5) : ReadBack (.ovl a) :=
  readBack_cc (by simp [Instr.encodeNat]) rfl (by simp [decodeCc, decodeCc24, Instr.encodeNat])
theorem ReadBack.lnrSub (d a : BitVec 5) : ReadBack (.lnrSub d a) :=
  readBack_cc (by simp [Instr.encodeNat]) rfl (by simp [decodeCc, decodeCc24, Instr.encodeNat])
theorem ReadBack.ftWr (d a : BitVec 5) (n : BitVec 4) : ReadBack (.ftWr d a n) :=
  readBack_cc (by simp [Instr.encodeNat]) rfl (by simp [decodeCc, decodeCc30, Instr.encodeNat])
theorem ReadBack.pkWr (d a b : BitVec 5) : ReadBack (.pkWr d a b) :=
  readBack_cc (by simp [Instr.encodeNat]) rfl (by simp [decodeCc, decodeCc30, Instr.encodeNat])
theorem ReadBack.recode (d a b : BitVec 5) : ReadBack (.recode d a b) :=
  readBack_cc (by simp [Instr.encodeNat]) rfl (by simp [decodeCc, decodeCc31, Instr.encodeNat])
theorem ReadBack.swp (d a b : BitVec 5) : ReadBack (.swp d a b) :=
  readBack_cc (by simp [Instr.encodeNat]) rfl (by simp [decodeCc, decodeCc31, Instr.encodeNat])
theorem ReadBack.winst (d a : BitVec 5) : ReadBack (.winst d a) :=
  readBack_cc (by simp [Instr.encodeNat]) rfl (by simp [decodeCc, decodeCc31, Instr.encodeNat])
theorem ReadBack.wstat (d a b : BitVec 5) : ReadBack (.wstat d a b) :=
  readBack_cc (by simp [Instr.encodeNat]) rfl (by simp [decodeCc, decodeCc31, Instr.encodeNat, bitsAt_eq_iff_split 9 6])
theorem ReadBack.heatRd (d a b : BitVec 5) : ReadBack (.heatRd d a b) :=
  readBack_cc (by simp [Instr.encodeNat]) rfl (by simp [decodeCc, decodeCc31, Instr.encodeNat, bitsAt_eq_iff_split 9 6])
theorem ReadBack.eret : ReadBack .eret :=
  readBack_cc (by simp [Instr.encodeNat]) rfl (by simp [decodeCc, decodeCc3C, Instr.encodeNat])
theorem ReadBack.tlbi (a b : BitVec 5) : ReadBack (.tlbi a b) :=
  readBack_cc (by simp [Instr.encodeNat]) rfl (by simp [decodeCc, decodeCc3C, Instr.encodeNat, bitsAt_eq_iff_split 9 16])
theorem ReadBack.rpl (d a b : BitVec 5) : ReadBack (.rpl d a b) :=
  readBack_cc (by simp [Instr.encodeNat]) rfl (by simp [decodeCc, decodeCc3C, Instr.encodeNat, bitsAt_eq_iff_split 9 16])
theorem ReadBack.wfi : ReadBack .wfi :=
  readBack_cc (by simp [Instr.encodeNat]) rfl (by simp [decodeCc, decodeCc3C, Instr.encodeNat])
theorem ReadBack.ctxSave (d a b : BitVec 5) : ReadBack (.ctxSave d a b) :=
  readBack_cc (by simp [Instr.encodeNat]) rfl (by simp [decodeCc, decodeCc3C, Instr.encodeNat, bitsAt_eq_iff_split 9 16])
theorem ReadBack.ctxLoad (d a : BitVec 5) : ReadBack (.ctxLoad d a) :=
  readBack_cc (by simp [Instr.encodeNat]) rfl (by simp [decodeCc, decodeCc3C, Instr.encodeNat, bitsAt_eq_iff_split 9 16])
theorem ReadBack.migDirty (d a b : BitVec 5) : ReadBack (.migDirty d a b) :=
  readBack_cc (by simp [Instr.encodeNat]) rfl
    (by simp [decodeCc, decodeCc3C, Instr.encodeNat, bitsAt_eq_iff_split 9 16, bitsAt_eq_iff_split 9 6])
theorem ReadBack.sysrp (d : BitVec 5) (n : BitVec 12) : ReadBack (.sysrp d n) :=
  readBack_cc (by simp [Instr.encodeNat]) rfl (by simp [decodeCc, decodeCc3D, Instr.encodeNat])
theorem ReadBack.syswp (a : BitVec 5) (n : BitVec 12) : ReadBack (.syswp a n) :=
  readBack_cc (by simp [Instr.encodeNat]) rfl (by simp [decodeCc, decodeCc3E, Instr.encodeNat])
theorem ReadBack.vldU (d a : BitVec 5) (f : BitVec 1) (t : BitVec 4) (r : BitVec 1) (m : BitVec 3) : ReadBack (.vldU d a f t r m) :=
  readBack_access (by simp [Instr.encodeNat]) rfl (by simp [decodeA, decodeA00, Instr.encodeNat])
theorem ReadBack.vldUQueue (q : BitVec 3) (a : BitVec 5) : ReadBack (.vldUQueue q a) :=
  readBack_access (by simp [Instr.encodeNat]) rfl (by simp [decodeA, decodeA00, Instr.encodeNat])
theorem ReadBack.vldS (d a b : BitVec 5) (f : BitVec 1) (t : BitVec 4) (r : BitVec 1) (m : BitVec 3) : ReadBack (.vldS d a b f t r m) :=
  readBack_access (by simp [Instr.encodeNat]) rfl (by simp [decodeA, decodeA01, Instr.encodeNat])
theorem ReadBack.vldX (d a b : BitVec 5) (f : BitVec 1) (t : BitVec 4) (r : BitVec 1) (m : BitVec 3) : ReadBack (.vldX d a b f t r m) :=
  readBack_access (by simp [Instr.encodeNat]) rfl (by simp [decodeA, decodeA02, Instr.encodeNat])
theorem ReadBack.vldB (d a b : BitVec 5) (f : BitVec 1) (t : BitVec 4) (r : BitVec 1) (m : BitVec 3) : ReadBack (.vldB d a b f t r m) :=
  readBack_access (by simp [Instr.encodeNat]) rfl (by simp [decodeA, decodeA03, Instr.encodeNat])
theorem ReadBack.vldBQueue (q : BitVec 3) (a b : BitVec 5) : ReadBack (.vldBQueue q a b) :=
  readBack_access (by simp [Instr.encodeNat]) rfl (by simp [decodeA, decodeA03, Instr.encodeNat])
theorem ReadBack.vldNp (d a : BitVec 5) (m : BitVec 1) (k : BitVec 4) : ReadBack (.vldNp d a m k) :=
  readBack_access (by simp [Instr.encodeNat]) rfl (by simp [decodeA, decodeA04, Instr.encodeNat])
theorem ReadBack.vstU (v a : BitVec 5) : ReadBack (.vstU v a) :=
  readBack_access (by simp [Instr.encodeNat]) rfl (by simp [decodeA, decodeA05, Instr.encodeNat])
theorem ReadBack.vstUQueue (q : BitVec 3) (a : BitVec 5) : ReadBack (.vstUQueue q a) :=
  readBack_access (by simp [Instr.encodeNat]) rfl (by simp [decodeA, decodeA05, Instr.encodeNat])
theorem ReadBack.vstS (v a b : BitVec 5) : ReadBack (.vstS v a b) :=
  readBack_access (by simp [Instr.encodeNat]) rfl (by simp [decodeA, decodeA06, Instr.encodeNat])
theorem ReadBack.vstX (v a b : BitVec 5) : ReadBack (.vstX v a b) :=
  readBack_access (by simp [Instr.encodeNat]) rfl (by simp [decodeA, decodeA07, Instr.encodeNat])
theorem ReadBack.vstB (v a b : BitVec 5) : ReadBack (.vstB v a b) :=
  readBack_access (by simp [Instr.encodeNat]) rfl (by simp [decodeA, decodeA08, Instr.encodeNat])
theorem ReadBack.vstBQueue (q : BitVec 3) (a b : BitVec 5) : ReadBack (.vstBQueue q a b) :=
  readBack_access (by simp [Instr.encodeNat]) rfl (by simp [decodeA, decodeA08, Instr.encodeNat])
theorem ReadBack.amo (d a b : BitVec 5) (o : BitVec 4) (z : BitVec 2) : ReadBack (.amo d a b o z) :=
  readBack_access (by simp [Instr.encodeNat]) rfl (by simp [decodeA, decodeA09, Instr.encodeNat])
theorem ReadBack.amoV (v a b : BitVec 5) (x : BitVec 1) (o : BitVec 4) : ReadBack (.amoV v a b x o) :=
  readBack_access (by simp [Instr.encodeNat]) rfl (by simp [decodeA, decodeA0A, Instr.encodeNat])
theorem ReadBack.mred (o a b : BitVec 5) : ReadBack (.mred o a b) :=
  readBack_access (by simp [Instr.encodeNat]) rfl (by simp [decodeA, decodeA0B, Instr.encodeNat])
theorem ReadBack.mcas (d a b : BitVec 5) : ReadBack (.mcas d a b) :=
  readBack_access (by simp [Instr.encodeNat]) rfl (by simp [decodeA, decodeA0B, Instr.encodeNat])
theorem ReadBack.msax (d a b : BitVec 5) : ReadBack (.msax d a b) :=
  readBack_access (by simp [Instr.encodeNat]) rfl (by simp [decodeA, decodeA0B, Instr.encodeNat])
theorem ReadBack.cp (d a b : BitVec 5) : ReadBack (.cp d a b) :=
  readBack_access (by simp [Instr.encodeNat]) rfl (by simp [decodeA, decodeA0C, Instr.encodeNat])
theorem ReadBack.cpConv (d a b : BitVec 5) : ReadBack (.cpConv d a b) :=
  readBack_access (by simp [Instr.encodeNat]) rfl (by simp [decodeA, decodeA0C, Instr.encodeNat])
theorem ReadBack.cpFp (d a b : BitVec 5) : ReadBack (.cpFp d a b) :=
  readBack_access (by simp [Instr.encodeNat]) rfl (by simp [decodeA, decodeA0C, Instr.encodeNat])
theorem ReadBack.cpCmp (d a b : BitVec 5) : ReadBack (.cpCmp d a b) :=
  readBack_access (by simp [Instr.encodeNat]) rfl (by simp [decodeA, decodeA0C, Instr.encodeNat])
theorem ReadBack.cpClose (a : BitVec 5) : ReadBack (.cpClose a) :=
  readBack_access (by simp [Instr.encodeNat]) rfl (by simp [decodeA, decodeA0C, Instr.encodeNat])
theorem ReadBack.cpWait (n : BitVec 5) : ReadBack (.cpWait n) :=
  readBack_access (by simp [Instr.encodeNat]) rfl (by simp [decodeA, decodeA0C, Instr.encodeNat, bitsAt_eq_iff_split 9 6])
theorem ReadBack.wset (k : BitVec 4) (a : BitVec 5) : ReadBack (.wset k a) :=
  readBack_access (by simp [Instr.encodeNat]) rfl (by simp [decodeA, decodeA0C, Instr.encodeNat])
theorem ReadBack.wwait (k : BitVec 4) (a : BitVec 5) : ReadBack (.wwait k a) :=
  readBack_access (by simp [Instr.encodeNat]) rfl (by simp [decodeA, decodeA0C, Instr.encodeNat])
theorem ReadBack.feWait (a b : BitVec 5) : ReadBack (.feWait a b) :=
  readBack_access (by simp [Instr.encodeNat]) rfl (by simp [decodeA, decodeA0D, Instr.encodeNat])
theorem ReadBack.feSet (d a b : BitVec 5) : ReadBack (.feSet d a b) :=
  readBack_access (by simp [Instr.encodeNat]) rfl (by simp [decodeA, decodeA0D, Instr.encodeNat])
theorem ReadBack.feClr (d a b : BitVec 5) : ReadBack (.feClr d a b) :=
  readBack_access (by simp [Instr.encodeNat]) rfl (by simp [decodeA, decodeA0D, Instr.encodeNat])
theorem ReadBack.ltagLd (d a : BitVec 5) : ReadBack (.ltagLd d a) :=
  readBack_access (by simp [Instr.encodeNat]) rfl (by simp [decodeA, decodeA0E, Instr.encodeNat])
theorem ReadBack.ltagSt (a b : BitVec 5) : ReadBack (.ltagSt a b) :=
  readBack_access (by simp [Instr.encodeNat]) rfl (by simp [decodeA, decodeA0E, Instr.encodeNat, bitsAt_eq_iff_split 9 6])
theorem ReadBack.vadd (d a : BitVec 5) (x : BitVec 1) (b : BitVec 5) (y : BitVec 1) : ReadBack (.vadd d a x b y) :=
  readBack_execute (by simp [Instr.encodeNat]) rfl (by simp [decodeX, decodeX00, Instr.encodeNat])
theorem ReadBack.vsub (d a : BitVec 5) (x : BitVec 1) (b : BitVec 5) (y : BitVec 1) : ReadBack (.vsub d a x b y) :=
  readBack_execute (by simp [Instr.encodeNat]) rfl (by simp [decodeX, decodeX00, Instr.encodeNat])
theorem ReadBack.vmul (d a : BitVec 5) (x : BitVec 1) (b : BitVec 5) (y : BitVec 1) : ReadBack (.vmul d a x b y) :=
  readBack_execute (by simp [Instr.encodeNat]) rfl (by simp [decodeX, decodeX00, Instr.encodeNat])
theorem ReadBack.vfma (d a : BitVec 5) (x : BitVec 1) (b : BitVec 5) (y : BitVec 1) : ReadBack (.vfma d a x b y) :=
  readBack_execute (by simp [Instr.encodeNat]) rfl (by simp [decodeX, decodeX00, Instr.encodeNat])
theorem ReadBack.vfms (d a : BitVec 5) (x : BitVec 1) (b : BitVec 5) (y : BitVec 1) : ReadBack (.vfms d a x b y) :=
  readBack_execute (by simp [Instr.encodeNat]) rfl (by simp [decodeX, decodeX00, Instr.encodeNat])
theorem ReadBack.vfnma (d a : BitVec 5) (x : BitVec 1) (b : BitVec 5) (y : BitVec 1) : ReadBack (.vfnma d a x b y) :=
  readBack_execute (by simp [Instr.encodeNat]) rfl (by simp [decodeX, decodeX00, Instr.encodeNat])
theorem ReadBack.vdiv (d a : BitVec 5) (x : BitVec 1) (b : BitVec 5) (y : BitVec 1) : ReadBack (.vdiv d a x b y) :=
  readBack_execute (by simp [Instr.encodeNat]) rfl (by simp [decodeX, decodeX01, Instr.encodeNat])
theorem ReadBack.vsqrt (d a : BitVec 5) (x : BitVec 1) : ReadBack (.vsqrt d a x) :=
  readBack_execute (by simp [Instr.encodeNat]) rfl (by simp [decodeX, decodeX01, Instr.encodeNat])
theorem ReadBack.vrsqrt (d a : BitVec 5) (x : BitVec 1) : ReadBack (.vrsqrt d a x) :=
  readBack_execute (by simp [Instr.encodeNat]) rfl (by simp [decodeX, decodeX01, Instr.encodeNat])
theorem ReadBack.vrcp (d a : BitVec 5) (x : BitVec 1) : ReadBack (.vrcp d a x) :=
  readBack_execute (by simp [Instr.encodeNat]) rfl (by simp [decodeX, decodeX01, Instr.encodeNat])
theorem ReadBack.vexp2 (d a : BitVec 5) (x : BitVec 1) : ReadBack (.vexp2 d a x) :=
  readBack_execute (by simp [Instr.encodeNat]) rfl (by simp [decodeX, decodeX01, Instr.encodeNat])
theorem ReadBack.vlog2 (d a : BitVec 5) (x : BitVec 1) : ReadBack (.vlog2 d a x) :=
  readBack_execute (by simp [Instr.encodeNat]) rfl (by simp [decodeX, decodeX01, Instr.encodeNat])
theorem ReadBack.vtanh (d a : BitVec 5) (x : BitVec 1) : ReadBack (.vtanh d a x) :=
  readBack_execute (by simp [Instr.encodeNat]) rfl (by simp [decodeX, decodeX01, Instr.encodeNat])
theorem ReadBack.vsin (d a : BitVec 5) (x : BitVec 1) : ReadBack (.vsin d a x) :=
  readBack_execute (by simp [Instr.encodeNat]) rfl (by simp [decodeX, decodeX01, Instr.encodeNat])
theorem ReadBack.vcos (d a : BitVec 5) (x : BitVec 1) : ReadBack (.vcos d a x) :=
  readBack_execute (by simp [Instr.encodeNat]) rfl (by simp [decodeX, decodeX01, Instr.encodeNat])
theorem ReadBack.vmin (d a : BitVec 5) (x : BitVec 1) (b : BitVec 5) (y : BitVec 1) : ReadBack (.vmin d a x b y) :=
  readBack_execute (by simp [Instr.encodeNat]) rfl (by simp [decodeX, decodeX02, Instr.encodeNat])
theorem ReadBack.vmax (d a : BitVec 5) (x : BitVec 1) (b : BitVec 5) (y : BitVec 1) : ReadBack (.vmax d a x b y) :=
  readBack_execute (by simp [Instr.encodeNat]) rfl (by simp [decodeX, decodeX02, Instr.encodeNat])
theorem ReadBack.vabs (d a : BitVec 5) (x : BitVec 1) : ReadBack (.vabs d a x) :=
  readBack_execute (by simp [Instr.encodeNat]) rfl (by simp [decodeX, decodeX02, Instr.encodeNat])
theorem ReadBack.vneg (d a : BitVec 5) (x : BitVec 1) : ReadBack (.vneg d a x) :=
  readBack_execute (by simp [Instr.encodeNat]) rfl (by simp [decodeX, decodeX02, Instr.encodeNat])
theorem ReadBack.vsgnj (d a : BitVec 5) (x : BitVec 1) (b : BitVec 5) (y : BitVec 1) : ReadBack (.vsgnj d a x b y) :=
  readBack_execute (by simp [Instr.encodeNat]) rfl (by simp [decodeX, decodeX02, Instr.encodeNat, bitsAt_eq_iff_split 8 6])
theorem ReadBack.vmulh (d a : BitVec 5) (x : BitVec 1) (b : BitVec 5) (y : BitVec 1) : ReadBack (.vmulh d a x b y) :=
  readBack_execute (by simp [Instr.encodeNat]) rfl (by simp [decodeX, decodeX03, Instr.encodeNat])
theorem ReadBack.vsll (d a : BitVec 5) (x : BitVec 1) (b : BitVec 5) (y : BitVec 1) : ReadBack (.vsll d a x b y) :=
  readBack_execute (by simp [Instr.encodeNat]) rfl (by simp [decodeX, decodeX03, Instr.encodeNat])
theorem ReadBack.vsrl (d a : BitVec 5) (x : BitVec 1) (b : BitVec 5) (y : BitVec 1) : ReadBack (.vsrl d a x b y) :=
  readBack_execute (by simp [Instr.encodeNat]) rfl (by simp [decodeX, decodeX03, Instr.encodeNat])
theorem ReadBack.vsra (d a : BitVec 5) (x : BitVec 1) (b : BitVec 5) (y : BitVec 1) : ReadBack (.vsra d a x b y) :=
  readBack_execute (by simp [Instr.encodeNat]) rfl (by simp [decodeX, decodeX03, Instr.encodeNat])
theorem ReadBack.vand (d a : BitVec 5) (x : BitVec 1) (b : BitVec 5) (y : BitVec 1) : ReadBack (.vand d a x b y) :=
  readBack_execute (by simp [Instr.encodeNat]) rfl (by simp [decodeX, decodeX03, Instr.encodeNat])
theorem ReadBack.vor (d a : BitVec 5) (x : BitVec 1) (b : BitVec 5) (y : BitVec 1) : ReadBack (.vor d a x b y) :=
  readBack_execute (by simp [Instr.encodeNat]) rfl (by simp [decodeX, decodeX03, Instr.encodeNat])
theorem ReadBack.vxor (d a : BitVec 5) (x : BitVec 1) (b : BitVec 5) (y : BitVec 1) : ReadBack (.vxor d a x b y) :=
  readBack_execute (by simp [Instr.encodeNat]) rfl (by simp [decodeX, decodeX03, Instr.encodeNat])
theorem ReadBack.vfsh (d a : BitVec 5) (x : BitVec 1) (b : BitVec 5) (y : BitVec 1) : ReadBack (.vfsh d a x b y) :=
  readBack_execute (by simp [Instr.encodeNat]) rfl (by simp [decodeX, decodeX03, Instr.encodeNat])
theorem ReadBack.vpopc (d a : BitVec 5) (x : BitVec 1) : ReadBack (.vpopc d a x) :=
  readBack_execute (by simp [Instr.encodeNat]) rfl (by simp [decodeX, decodeX03, Instr.encodeNat])
theorem ReadBack.vclz (d a : BitVec 5) (x : BitVec 1) : ReadBack (.vclz d a x) :=
  readBack_execute (by simp [Instr.encodeNat]) rfl (by simp [decodeX, decodeX03, Instr.encodeNat])
theorem ReadBack.vsadd (d a : BitVec 5) (x : BitVec 1) (b : BitVec 5) (y : BitVec 1) : ReadBack (.vsadd d a x b y) :=
  readBack_execute (by simp [Instr.encodeNat]) rfl (by simp [decodeX, decodeX03, Instr.encodeNat, bitsAt_eq_iff_split 8 6])
theorem ReadBack.vcmp (m : BitVec 3) (a : BitVec 5) (x : BitVec 1) (b : BitVec 5) (y : BitVec 1) (c : BitVec 3) :
    ReadBack (.vcmp m a x b y c) :=
  readBack_execute (by simp [Instr.encodeNat]) rfl (by simp [decodeX, decodeX04, Instr.encodeNat])
theorem ReadBack.vbound (m : BitVec 3) (a : BitVec 5) (x : BitVec 1) (b : BitVec 5) (y : BitVec 1) : ReadBack (.vbound m a x b y) :=
  readBack_execute (by simp [Instr.encodeNat]) rfl (by simp [decodeX, decodeX04, Instr.encodeNat])
theorem ReadBack.mand (d a b : BitVec 3) : ReadBack (.mand d a b) :=
  readBack_execute (by simp [Instr.encodeNat]) rfl (by simp [decodeX, decodeX05, Instr.encodeNat])
theorem ReadBack.mor (d a b : BitVec 3) : ReadBack (.mor d a b) :=
  readBack_execute (by simp [Instr.encodeNat]) rfl (by simp [decodeX, decodeX05, Instr.encodeNat])
theorem ReadBack.mxor (d a b : BitVec 3) : ReadBack (.mxor d a b) :=
  readBack_execute (by simp [Instr.encodeNat]) rfl (by simp [decodeX, decodeX05, Instr.encodeNat])
theorem ReadBack.mandn (d a b : BitVec 3) : ReadBack (.mandn d a b) :=
  readBack_execute (by simp [Instr.encodeNat]) rfl (by simp [decodeX, decodeX05, Instr.encodeNat])
theorem ReadBack.mpopc (d : BitVec 5) (a : BitVec 3) : ReadBack (.mpopc d a) :=
  readBack_execute (by simp [Instr.encodeNat]) rfl (by simp [decodeX, decodeX05, Instr.encodeNat])
theorem ReadBack.mfirst (d : BitVec 5) (a : BitVec 3) : ReadBack (.mfirst d a) :=
  readBack_execute (by simp [Instr.encodeNat]) rfl (by simp [decodeX, decodeX05, Instr.encodeNat])
theorem ReadBack.mset (d : BitVec 3) (a : BitVec 5) : ReadBack (.mset d a) :=
  readBack_execute (by simp [Instr.encodeNat]) rfl (by simp [decodeX, decodeX05, Instr.encodeNat])
theorem ReadBack.vcvt (d a : BitVec 5) (x : BitVec 1) (f : BitVec 4) : ReadBack (.vcvt d a x f) :=
  readBack_execute (by simp [Instr.encodeNat]) rfl (by simp [decodeX, decodeX06, Instr.encodeNat])
theorem ReadBack.vquant (d a : BitVec 5) (x : BitVec 1) (f : BitVec 4) : ReadBack (.vquant d a x f) :=
  readBack_execute (by simp [Instr.encodeNat]) rfl (by simp [decodeX, decodeX06, Instr.encodeNat])
theorem ReadBack.vamax (d a : BitVec 5) (x : BitVec 1) : ReadBack (.vamax d a x) :=
  readBack_execute (by simp [Instr.encodeNat]) rfl (by simp [decodeX, decodeX06, Instr.encodeNat])
theorem ReadBack.vtagr (d a : BitVec 5) (x : BitVec 1) (b : BitVec 5) : ReadBack (.vtagr d a x b) :=
  readBack_execute (by simp [Instr.encodeNat]) rfl (by simp [decodeX, decodeX06, Instr.encodeNat, bitsAt_eq_iff_split 9 5])
theorem ReadBack.vtagw (d a b : BitVec 5) : ReadBack (.vtagw d a b) :=
  readBack_execute (by simp [Instr.encodeNat]) rfl (by simp [decodeX, decodeX06, Instr.encodeNat, bitsAt_eq_iff_split 9 5])
theorem ReadBack.vscl (d a : BitVec 5) (x : BitVec 1) (b : BitVec 5) : ReadBack (.vscl d a x b) :=
  readBack_execute (by simp [Instr.encodeNat]) rfl (by simp [decodeX, decodeX06, Instr.encodeNat, bitsAt_eq_iff_split 9 5])
theorem ReadBack.vmov (d a : BitVec 5) (x : BitVec 1) : ReadBack (.vmov d a x) :=
  readBack_execute (by simp [Instr.encodeNat]) rfl (by simp [decodeX, decodeX07, Instr.encodeNat])
theorem ReadBack.vbcast (d a : BitVec 5) (x : BitVec 1) (b : BitVec 5) : ReadBack (.vbcast d a x b) :=
  readBack_execute (by simp [Instr.encodeNat]) rfl (by simp [decodeX, decodeX07, Instr.encodeNat, bitsAt_eq_iff_split 9 5])
theorem ReadBack.vslideup (d a : BitVec 5) (x : BitVec 1) (b : BitVec 5) : ReadBack (.vslideup d a x b) :=
  readBack_execute (by simp [Instr.encodeNat]) rfl (by simp [decodeX, decodeX07, Instr.encodeNat, bitsAt_eq_iff_split 9 5])
theorem ReadBack.vslidedn (d a : BitVec 5) (x : BitVec 1) (b : BitVec 5) : ReadBack (.vslidedn d a x b) :=
  readBack_execute (by simp [Instr.encodeNat]) rfl (by simp [decodeX, decodeX07, Instr.encodeNat, bitsAt_eq_iff_split 9 5])
theorem ReadBack.vperm (d a : BitVec 5) (x : BitVec 1) (b : BitVec 5) : ReadBack (.vperm d a x b) :=
  readBack_execute (by simp [Instr.encodeNat]) rfl (by simp [decodeX, decodeX07, Instr.encodeNat, bitsAt_eq_iff_split 9 5])
theorem ReadBack.vcompress (d a : BitVec 5) (x : BitVec 1) : ReadBack (.vcompress d a x) :=
  readBack_execute (by simp [Instr.encodeNat]) rfl (by simp [decodeX, decodeX07, Instr.encodeNat])
theorem ReadBack.vexpand (d a : BitVec 5) (x : BitVec 1) : ReadBack (.vexpand d a x) :=
  readBack_execute (by simp [Instr.encodeNat]) rfl (by simp [decodeX, decodeX07, Instr.encodeNat])
theorem ReadBack.vzip (d a : BitVec 5) (x : BitVec 1) (b : BitVec 5) : ReadBack (.vzip d a x b) :=
  readBack_execute (by simp [Instr.encodeNat]) rfl (by simp [decodeX, decodeX07, Instr.encodeNat, bitsAt_eq_iff_split 9 5])
theorem ReadBack.vunzip (d a : BitVec 5) (x : BitVec 1) : ReadBack (.vunzip d a x) :=
  readBack_execute (by simp [Instr.encodeNat]) rfl (by simp [decodeX, decodeX07, Instr.encodeNat])
theorem ReadBack.vtrn (d a : BitVec 5) (x : BitVec 1) (b : BitVec 5) : ReadBack (.vtrn d a x b) :=
  readBack_execute (by simp [Instr.encodeNat]) rfl (by simp [decodeX, decodeX07, Instr.encodeNat, bitsAt_eq_iff_split 9 5])
theorem ReadBack.vrev (d a : BitVec 5) (x : BitVec 1) : ReadBack (.vrev d a x) :=
  readBack_execute (by simp [Instr.encodeNat]) rfl (by simp [decodeX, decodeX07, Instr.encodeNat])
theorem ReadBack.vext (d a : BitVec 5) (x : BitVec 1) (b : BitVec 5) : ReadBack (.vext d a x b) :=
  readBack_execute (by simp [Instr.encodeNat]) rfl (by simp [decodeX, decodeX07, Instr.encodeNat, bitsAt_eq_iff_split 9 5])
theorem ReadBack.vins (d a b : BitVec 5) : ReadBack (.vins d a b) :=
  readBack_execute (by simp [Instr.encodeNat]) rfl (by simp [decodeX, decodeX07, Instr.encodeNat, bitsAt_eq_iff_split 9 5])
theorem ReadBack.vred (d a : BitVec 5) (x : BitVec 1) (o : BitVec 4) : ReadBack (.vred d a x o) :=
  readBack_execute (by simp [Instr.encodeNat]) rfl (by simp [decodeX, decodeX08, Instr.encodeNat])
theorem ReadBack.vscan (d a : BitVec 5) (x : BitVec 1) (o : BitVec 4) : ReadBack (.vscan d a x o) :=
  readBack_execute (by simp [Instr.encodeNat]) rfl (by simp [decodeX, decodeX08, Instr.encodeNat])
theorem ReadBack.dfrPush (p : BitVec 8) (v : BitVec 5) (n : BitVec 2) (m : BitVec 3) : ReadBack (.dfrPush p v n m) :=
  readBack_execute (by simp [Instr.encodeNat]) rfl (by simp [decodeX, decodeX09, Instr.encodeNat])
theorem ReadBack.dfrPop (p : BitVec 8) (v : BitVec 5) (n : BitVec 2) (m : BitVec 3) : ReadBack (.dfrPop p v n m) :=
  readBack_execute (by simp [Instr.encodeNat]) rfl (by simp [decodeX, decodeX09, Instr.encodeNat])
theorem ReadBack.dfrCnt (p : BitVec 8) (x : BitVec 5) : ReadBack (.dfrCnt p x) :=
  readBack_execute (by simp [Instr.encodeNat]) rfl (by simp [decodeX, decodeX09, Instr.encodeNat, bitsAt_eq_iff_split 2 5])
theorem ReadBack.qpop (d : BitVec 5) (q : BitVec 3) : ReadBack (.qpop d q) :=
  readBack_execute (by simp [Instr.encodeNat]) rfl (by simp [decodeX, decodeX0A, Instr.encodeNat])
theorem ReadBack.qpush (v : BitVec 5) (q : BitVec 3) : ReadBack (.qpush v q) :=
  readBack_execute (by simp [Instr.encodeNat]) rfl (by simp [decodeX, decodeX0A, Instr.encodeNat])
theorem ReadBack.matAtt (d a : BitVec 5) : ReadBack (.matAtt d a) :=
  readBack_execute (by simp [Instr.encodeNat]) rfl (by simp [decodeX, decodeX0B, Instr.encodeNat])
theorem ReadBack.matDet : ReadBack .matDet :=
  readBack_execute (by simp [Instr.encodeNat]) rfl (by simp [decodeX, decodeX0B, Instr.encodeNat])
theorem ReadBack.tzero (t : BitVec 2) : ReadBack (.tzero t) :=
  readBack_execute (by simp [Instr.encodeNat]) rfl (by simp [decodeX, decodeX0B, Instr.encodeNat, bitsAt_eq_iff_split 20 5])
theorem ReadBack.tpeek (t : BitVec 2) (a : BitVec 5) : ReadBack (.tpeek t a) :=
  readBack_execute (by simp [Instr.encodeNat]) rfl
    (by simp [decodeX, decodeX0B, Instr.encodeNat, bitsAt_eq_iff_split 15 10, bitsAt_eq_iff_split 15 5])
theorem ReadBack.twait (t : BitVec 2) : ReadBack (.twait t) :=
  readBack_execute (by simp [Instr.encodeNat]) rfl (by simp [decodeX, decodeX0B, Instr.encodeNat, bitsAt_eq_iff_split 20 5])
theorem ReadBack.mbud (d : BitVec 5) : ReadBack (.mbud d) :=
  readBack_execute (by simp [Instr.encodeNat]) rfl (by simp [decodeX, decodeX0B, Instr.encodeNat, bitsAt_eq_iff_split 20 5])
theorem ReadBack.mop (t : BitVec 2) (a : BitVec 5) (x : BitVec 1) (b : BitVec 5) (y : BitVec 1) (e : BitVec 2) :
    ReadBack (.mop t a x b y e) :=
  readBack_execute (by simp [Instr.encodeNat]) rfl
    (by simp [decodeX, decodeX0B, Instr.encodeNat, bitsAt_eq_iff_split 2 13, bitsAt_eq_iff_split 6 7, bitsAt_eq_iff_split 2 18,
      bitsAt_eq_iff_split 6 12, bitsAt_eq_iff_split 2 23, bitsAt_eq_iff_split 6 17])
theorem ReadBack.mopn (t : BitVec 2) (a : BitVec 5) (x : BitVec 1) (b : BitVec 5) (y m : BitVec 1) (k : BitVec 3) (e : BitVec 2) :
    ReadBack (.mopn t a x b y m k e) :=
  readBack_execute (by simp [Instr.encodeNat]) rfl
    (by simp [decodeX, decodeX0B, Instr.encodeNat, bitsAt_eq_iff_split 6 9, bitsAt_eq_iff_split 2 7, bitsAt_eq_iff_split 6 14,
      bitsAt_eq_iff_split 2 12, bitsAt_eq_iff_split 6 19, bitsAt_eq_iff_split 2 17, bitsAt_eq_iff_split 4 2])
theorem ReadBack.vlut3 (d a : BitVec 5) (x : BitVec 1) (b : BitVec 5) (y : BitVec 1) (t : BitVec 8) : ReadBack (.vlut3 d a x b y t) :=
  readBack_execute (by simp [Instr.encodeNat]) rfl (by simp [decodeX, decodeX0C, Instr.encodeNat])
theorem ReadBack.pfx (c : BitVec 5) (v z : BitVec 1) (m : BitVec 3) (r : BitVec 1) (o : BitVec 3) : ReadBack (.pfx c v z m r o) :=
  readBack_execute (by simp [Instr.encodeNat]) rfl (by simp [decodeX, decodeX3F, Instr.encodeNat])

theorem readBack (i : Instr) : ReadBack i := by
  cases i
  case add => exact ReadBack.add _ _ _
  case sub => exact ReadBack.sub _ _ _
  case mul => exact ReadBack.mul _ _ _
  case mulh => exact ReadBack.mulh _ _ _
  case mulhu => exact ReadBack.mulhu _ _ _
  case div => exact ReadBack.div _ _ _
  case divu => exact ReadBack.divu _ _ _
  case rem => exact ReadBack.rem _ _ _
  case remu => exact ReadBack.remu _ _ _
  case and => exact ReadBack.and _ _ _
  case or => exact ReadBack.or _ _ _
  case xor => exact ReadBack.xor _ _ _
  case sll => exact ReadBack.sll _ _ _
  case srl => exact ReadBack.srl _ _ _
  case sra => exact ReadBack.sra _ _ _
  case slt => exact ReadBack.slt _ _ _
  case sltu => exact ReadBack.sltu _ _ _
  case min => exact ReadBack.min _ _ _
  case max => exact ReadBack.max _ _ _
  case minu => exact ReadBack.minu _ _ _
  case maxu => exact ReadBack.maxu _ _ _
  case clz => exact ReadBack.clz _ _
  case ctz => exact ReadBack.ctz _ _
  case popc => exact ReadBack.popc _ _
  case sel => exact ReadBack.sel _ _ _
  case addi => exact ReadBack.addi _ _ _
  case andi => exact ReadBack.andi _ _ _
  case ori => exact ReadBack.ori _ _ _
  case xori => exact ReadBack.xori _ _ _
  case slti => exact ReadBack.slti _ _ _
  case slli => exact ReadBack.slli _ _ _
  case srli => exact ReadBack.srli _ _ _
  case srai => exact ReadBack.srai _ _ _
  case adda => exact ReadBack.adda _ _ _
  case lih => exact ReadBack.lih _ _
  case beq => exact ReadBack.beq _ _ _
  case bne => exact ReadBack.bne _ _ _
  case blt => exact ReadBack.blt _ _ _
  case bge => exact ReadBack.bge _ _ _
  case bltu => exact ReadBack.bltu _ _ _
  case bgeu => exact ReadBack.bgeu _ _ _
  case jal => exact ReadBack.jal _ _
  case jalr => exact ReadBack.jalr _ _ _
  case loop => exact ReadBack.loop _ _
  case ploop => exact ReadBack.ploop _ _ _
  case ld => exact ReadBack.ld _ _ _ _
  case st => exact ReadBack.st _ _ _ _
  case ipf => exact ReadBack.ipf _ _
  case dpf => exact ReadBack.dpf _ _
  case vshapeImm => exact ReadBack.vshapeImm _ _ _ _
  case vshapeReg => exact ReadBack.vshapeReg _ _ _ _
  case vquery => exact ReadBack.vquery _ _
  case bqPush => exact ReadBack.bqPush _
  case bqBr => exact ReadBack.bqBr _
  case fence => exact ReadBack.fence _ _
  case bar => exact ReadBack.bar
  case trap => exact ReadBack.trap _
  case nop => exact ReadBack.nop
  case yield => exact ReadBack.yield
  case sysr => exact ReadBack.sysr _ _
  case sysw => exact ReadBack.sysw _ _
  case sbr => exact ReadBack.sbr _ _ _ _ _ _
  case acq => exact ReadBack.acq _ _
  case tryacq => exact ReadBack.tryacq _ _
  case rel => exact ReadBack.rel _
  case cqPush => exact ReadBack.cqPush _ _ _
  case knWait => exact ReadBack.knWait _ _
  case knSig => exact ReadBack.knSig _ _
  case renq => exact ReadBack.renq _ _ _
  case evqPop => exact ReadBack.evqPop _
  case evqPeek => exact ReadBack.evqPeek _
  case bobLd => exact ReadBack.bobLd _
  case bobGo => exact ReadBack.bobGo _ _ _
  case ovl => exact ReadBack.ovl _
  case lnrSub => exact ReadBack.lnrSub _ _
  case ftWr => exact ReadBack.ftWr _ _ _
  case pkWr => exact ReadBack.pkWr _ _ _
  case recode => exact ReadBack.recode _ _ _
  case swp => exact ReadBack.swp _ _ _
  case winst => exact ReadBack.winst _ _
  case wstat => exact ReadBack.wstat _ _ _
  case heatRd => exact ReadBack.heatRd _ _ _
  case eret => exact ReadBack.eret
  case tlbi => exact ReadBack.tlbi _ _
  case rpl => exact ReadBack.rpl _ _ _
  case wfi => exact ReadBack.wfi
  case ctxSave => exact ReadBack.ctxSave _ _ _
  case ctxLoad => exact ReadBack.ctxLoad _ _
  case migDirty => exact ReadBack.migDirty _ _ _
  case sysrp => exact ReadBack.sysrp _ _
  case syswp => exact ReadBack.syswp _ _
  case vldU => exact ReadBack.vldU _ _ _ _ _ _
  case vldUQueue => exact ReadBack.vldUQueue _ _
  case vldS => exact ReadBack.vldS _ _ _ _ _ _ _
  case vldX => exact ReadBack.vldX _ _ _ _ _ _ _
  case vldB => exact ReadBack.vldB _ _ _ _ _ _ _
  case vldBQueue => exact ReadBack.vldBQueue _ _ _
  case vldNp => exact ReadBack.vldNp _ _ _ _
  case vstU => exact ReadBack.vstU _ _
  case vstUQueue => exact ReadBack.vstUQueue _ _
  case vstS => exact ReadBack.vstS _ _ _
  case vstX => exact ReadBack.vstX _ _ _
  case vstB => exact ReadBack.vstB _ _ _
  case vstBQueue => exact ReadBack.vstBQueue _ _ _
  case amo => exact ReadBack.amo _ _ _ _ _
  case amoV => exact ReadBack.amoV _ _ _ _ _
  case mred => exact ReadBack.mred _ _ _
  case mcas => exact ReadBack.mcas _ _ _
  case msax => exact ReadBack.msax _ _ _
  case cp => exact ReadBack.cp _ _ _
  case cpConv => exact ReadBack.cpConv _ _ _
  case cpFp => exact ReadBack.cpFp _ _ _
  case cpCmp => exact ReadBack.cpCmp _ _ _
  case cpClose => exact ReadBack.cpClose _
  case cpWait => exact ReadBack.cpWait _
  case wset => exact ReadBack.wset _ _
  case wwait => exact ReadBack.wwait _ _
  case feWait => exact ReadBack.feWait _ _
  case feSet => exact ReadBack.feSet _ _ _
  case feClr => exact ReadBack.feClr _ _ _
  case ltagLd => exact ReadBack.ltagLd _ _
  case ltagSt => exact ReadBack.ltagSt _ _
  case vadd => exact ReadBack.vadd _ _ _ _ _
  case vsub => exact ReadBack.vsub _ _ _ _ _
  case vmul => exact ReadBack.vmul _ _ _ _ _
  case vfma => exact ReadBack.vfma _ _ _ _ _
  case vfms => exact ReadBack.vfms _ _ _ _ _
  case vfnma => exact ReadBack.vfnma _ _ _ _ _
  case vdiv => exact ReadBack.vdiv _ _ _ _ _
  case vsqrt => exact ReadBack.vsqrt _ _ _
  case vrsqrt => exact ReadBack.vrsqrt _ _ _
  case vrcp => exact ReadBack.vrcp _ _ _
  case vexp2 => exact ReadBack.vexp2 _ _ _
  case vlog2 => exact ReadBack.vlog2 _ _ _
  case vtanh => exact ReadBack.vtanh _ _ _
  case vsin => exact ReadBack.vsin _ _ _
  case vcos => exact ReadBack.vcos _ _ _
  case vmin => exact ReadBack.vmin _ _ _ _ _
  case vmax => exact ReadBack.vmax _ _ _ _ _
  case vabs => exact ReadBack.vabs _ _ _
  case vneg => exact ReadBack.vneg _ _ _
  case vsgnj => exact ReadBack.vsgnj _ _ _ _ _
  case vmulh => exact ReadBack.vmulh _ _ _ _ _
  case vsll => exact ReadBack.vsll _ _ _ _ _
  case vsrl => exact ReadBack.vsrl _ _ _ _ _
  case vsra => exact ReadBack.vsra _ _ _ _ _
  case vand => exact ReadBack.vand _ _ _ _ _
  case vor => exact ReadBack.vor _ _ _ _ _
  case vxor => exact ReadBack.vxor _ _ _ _ _
  case vfsh => exact ReadBack.vfsh _ _ _ _ _
  case vpopc => exact ReadBack.vpopc _ _ _
  case vclz => exact ReadBack.vclz _ _ _
  case vsadd => exact ReadBack.vsadd _ _ _ _ _
  case vcmp => exact ReadBack.vcmp _ _ _ _ _ _
  case vbound => exact ReadBack.vbound _ _ _ _ _
  case mand => exact ReadBack.mand _ _ _
  case mor => exact ReadBack.mor _ _ _
  case mxor => exact ReadBack.mxor _ _ _
  case mandn => exact ReadBack.mandn _ _ _
  case mpopc => exact ReadBack.mpopc _ _
  case mfirst => exact ReadBack.mfirst _ _
  case mset => exact ReadBack.mset _ _
  case vcvt => exact ReadBack.vcvt _ _ _ _
  case vquant => exact ReadBack.vquant _ _ _ _
  case vamax => exact ReadBack.vamax _ _ _
  case vtagr => exact ReadBack.vtagr _ _ _ _
  case vtagw => exact ReadBack.vtagw _ _ _
  case vscl => exact ReadBack.vscl _ _ _ _
  case vmov => exact ReadBack.vmov _ _ _
  case vbcast => exact ReadBack.vbcast _ _ _ _
  case vslideup => exact ReadBack.vslideup _ _ _ _
  case vslidedn => exact ReadBack.vslidedn _ _ _ _
  case vperm => exact ReadBack.vperm _ _ _ _
  case vcompress => exact ReadBack.vcompress _ _ _
  case vexpand => exact ReadBack.vexpand _ _ _
  case vzip => exact ReadBack.vzip _ _ _ _
  case vunzip => exact ReadBack.vunzip _ _ _
  case vtrn => exact ReadBack.vtrn _ _ _ _
  case vrev => exact ReadBack.vrev _ _ _
  case vext => exact ReadBack.vext _ _ _ _
  case vins => exact ReadBack.vins _ _ _
  case vred => exact ReadBack.vred _ _ _ _
  case vscan => exact ReadBack.vscan _ _ _ _
  case dfrPush => exact ReadBack.dfrPush _ _ _ _
  case dfrPop => exact ReadBack.dfrPop _ _ _ _
  case dfrCnt => exact ReadBack.dfrCnt _ _
  case qpop => exact ReadBack.qpop _ _
  case qpush => exact ReadBack.qpush _ _
  case matAtt => exact ReadBack.matAtt _ _
  case matDet => exact ReadBack.matDet
  case tzero => exact ReadBack.tzero _
  case tpeek => exact ReadBack.tpeek _ _
  case twait => exact ReadBack.twait _
  case mbud => exact ReadBack.mbud _
  case mop => exact ReadBack.mop _ _ _ _ _ _
  case mopn => exact ReadBack.mopn _ _ _ _ _ _ _ _
  case vlut3 => exact ReadBack.vlut3 _ _ _ _ _ _
  case pfx => exact ReadBack.pfx _ _ _ _ _ _
  all_goals exact fun hword => absurd hword Bool.false_ne_true

/-! ### The statements -/

/-- Settles O2: the word is the encoder's own (R84), its row is read back, and its operands are allowed. -/
theorem decodeOfEncode : Obligations.DecodeOfEncode := by
  unfold Obligations.DecodeOfEncode
  intro i sp hwf hword hsp
  have hnat : (BitVec.ofNat 32 i.encodeNat).toNat = i.encodeNat := by
    rw [BitVec.toNat_ofNat, Nat.mod_eq_of_lt (Laws.encodeNat_lt i)]
  have hreads : bitsAt i.encodeNat 31 1 = 0 ∨ sp = i.space :=
    hsp.imp_left fun hlt => by rw [bitsAt, Nat.div_eq_of_lt hlt, Nat.zero_mod]
  exact decode_eq_ok_iff.mpr ⟨by rw [hnat]; exact readBack i hword sp hreads, hwf⟩

/-- Settles O1: each word is the encoding of its instruction, which decodes back. -/
theorem writtenWordsDecode : Obligations.WrittenWordsDecode := by
  unfold Obligations.WrittenWordsDecode
  exact ⟨decodeOfEncode (.addi 6 5 0x7FFD) _ rfl (by decide) (.inl (by decide)),
    decodeOfEncode (.lih 5 0xBCDEF) _ rfl (by decide) (.inl (by decide)),
    decodeOfEncode (.ploop 9 2 5) _ rfl (by decide) (.inl (by decide)),
    decodeOfEncode (.vshapeImm 5 15 8 256) _ rfl (by decide) (.inl (by decide)),
    decodeOfEncode (.fence 3 6) _ rfl (by decide) (.inl (by decide)),
    decodeOfEncode .bar _ rfl (by decide) (.inl (by decide)),
    decodeOfEncode (.vfma 3 1 0 2 1) _ rfl (by decide) (.inr rfl),
    decodeOfEncode (.vperm 4 1 0 2) _ rfl (by decide) (.inr rfl),
    decodeOfEncode (.dfrCnt 5 5) _ rfl (by decide) (.inr rfl),
    decodeOfEncode (.qpush 5 1) _ rfl (by decide) (.inr rfl),
    decodeOfEncode (.pfx 0 0 1 2 1 1) _ rfl (by decide) (.inr rfl),
    decodeOfEncode (.vldX 5 8 6 0 0 0 0) _ rfl (by decide) (.inr rfl),
    decodeOfEncode (.vstB 4 8 9) _ rfl (by decide) (.inr rfl),
    decodeOfEncode (.cp 9 8 10) _ rfl (by decide) (.inr rfl),
    decodeOfEncode (.ltagSt 8 6) _ rfl (by decide) (.inr rfl),
    decodeOfEncode (.ftWr 5 6 12) _ rfl (by decide) (.inr rfl)⟩

end Sys2Proof

/-! SUPPORT. What a strand's turn issues, and the traps that its word raises or that nothing handles (R84, R87, R100, R101, R191,
R199, R201). -/

namespace Sys2Proof.Machine

/-! ### The turn of a strand that issues (R84, R87, R191) -/

/-- A strand that may run and has no load to land issues the word at its pc. -/
theorem strandTurn_issues {s : State} (hcore : s.coreAgent = none) (hrun : s.core.canRun s.st = true) (hdue : s.st.loadDue = false)
    (hready : s.st.pend.any s.loadReady = false) : strandTurn s = issue s := by
  obtain ⟨henters, hdiverts⟩ := stays_of_coreAgent_none hcore
  simp [strandTurn, hrun, henters, hdiverts, hdue, hready]

/-- A fetched word issues as the instruction it stands for. -/
theorem issue_of_fetch {s u : State} {w : BitVec 32} (hfetch : (fetchAt s.via s.st.pc).run s = .ok (w, u)) :
    issue s = issueInstr (u.wordInstr w) u := by
  rw [issue, hfetch]

/-- A word of no suppressed stage that may stand where it does is executed (R114, R115). -/
theorem issueInstr_executes {i : Instr} {s : State} (hsup : s.st.suppressed = false)
    (hfree : endsNoBody i = false ∨ ∀ l ∈ s.st.loops, l.last ≠ s.st.pc) : issueInstr i s = exec i s := by
  have hno : (endsNoBody i && s.st.loops.any (·.last == s.st.pc)) = false := by
    rcases hfree with hends | hlast
    · rw [hends, Bool.false_and]
    · rw [List.any_eq_false.mpr fun l hl => by simp [hlast l hl], Bool.and_false]
  rw [issueInstr, hno, hsup, if_neg Bool.false_ne_true, if_neg Bool.false_ne_true]

theorem wordInstr_of_ok {s : State} {w : BitVec 32} {i : Instr} (h : decode s.st.kind.space w = .ok i) : s.wordInstr w = i := by
  rw [State.wordInstr, h]

theorem wordInstr_of_error {s : State} {w : BitVec 32} {e : DecodeError} (h : decode s.st.kind.space w = .error e) :
    s.wordInstr w = .unallocatedEncoding w := by
  rw [State.wordInstr, h]

/-- Settles O4: with no agent ready the turn is the strand's own, which issues what its fetch answers. -/
theorem stepRunsDecodedInstruction : Obligations.StepRunsDecodedInstruction := by
  unfold Obligations.StepRunsDecodedInstruction
  intro s u w hup hwell hagenda hdeco hcore hdev hrun hdue hready hfetch hsup
  have hstep : step s = thenRotate (issueInstr (u.wordInstr w) u) := by
    rw [step_of_no_agent hup hwell hdeco hagenda hcore hdev, strandTurn_issues hcore hrun hdue hready, issue_of_fetch hfetch]
  refine ⟨fun i hi hfree => ?_, fun e he => ?_⟩
  · rw [hstep, wordInstr_of_ok hi, issueInstr_executes hsup hfree]
  · rw [hstep, wordInstr_of_error he, issueInstr_executes hsup (.inl rfl)]

/-! ### A `pfx` and the word after it (R100, R101) -/

/-- What a `pfx` makes of the word after it: its decoration, or an illegal pair. -/
def prefixed (x : Deco) (w : BitVec 32) : M Unit :=
  match decode .execute w with
  | .error _ => raiseTrap tILLEGAL
  | .ok i => if w.getLsbD 31 = false || !decoOk i x then raiseTrap tILLEGAL
    else modify fun s => { s with st := { s.st with deco := some x, pc := s.st.pc + 4 } }

/-- A `pfx` fetches the word after it and judges it. -/
theorem exec_pfx (c : BitVec 5) (v z : BitVec 1) (m : BitVec 3) (r : BitVec 1) (o : BitVec 3) (s : State) :
    exec (.pfx c v z m r o) s =
      deliver s (fetchAt s.via (s.st.pc + 4) >>= prefixed ⟨c, v == 1, z == 1, m, r == 1, o⟩) := by
  change execPfx c v z m r o s = _
  unfold execPfx prefixed
  congr 2

theorem run_prefixed_accepts {x : Deco} {w : BitVec 32} {i : Instr} (hi : decode .execute w = .ok i) (hpriv : w.getLsbD 31 = true)
    (hok : decoOk i x = true) (u : State) :
    (prefixed x w).run u = .ok ((), { u with st := { u.st with deco := some x, pc := u.st.pc + 4 } }) := by
  have hgood : (decide (w.getLsbD 31 = false) || !decoOk i x) = false := by
    simp only [hpriv, hok, Bool.true_eq_false, decide_false, Bool.not_true, Bool.or_self]
  simp only [prefixed, hi, hgood, Bool.false_eq_true, if_false, run_modify]

theorem run_prefixed_refuses {x : Deco} {w : BitVec 32} {i : Instr} (hi : decode .execute w = .ok i)
    (hno : w.getLsbD 31 = false ∨ decoOk i x = false) (u : State) : (prefixed x w).run u = .error (.trap tILLEGAL 0 0 0) := by
  have hbad : (decide (w.getLsbD 31 = false) || !decoOk i x) = true := by
    rcases hno with hno | hno <;> simp only [hno, decide_true, Bool.true_or, Bool.not_false, Bool.or_true]
  simp only [prefixed, hi, hbad, if_true, run_raiseTrap]

theorem run_prefixed_unallocated {x : Deco} {w : BitVec 32} {e : DecodeError} (he : decode .execute w = .error e) (u : State) :
    (prefixed x w).run u = .error (.trap tILLEGAL 0 0 0) := by
  simp only [prefixed, he, run_raiseTrap]

/-- Settles O31: the fetched word is judged, and only one that decodes in the X-harts' own half and takes the decorations gets them. -/
theorem prefixDecoratesTheNextWord : Obligations.PrefixDecoratesTheNextWord := by
  unfold Obligations.PrefixDecoratesTheNextWord
  intro c v z m r o s u w hfetch x
  have hrun : (fetchAt s.via (s.st.pc + 4) >>= prefixed x).run s = (prefixed x w).run u := by rw [run_bind, hfetch]
  refine ⟨fun i hi hpriv hok => ?accepts, fun i hi hno => ?refuses, fun e he => ?unallocated⟩
  case accepts => exact (exec_pfx ..).trans (deliver_ok _ _ _ (hrun.trans (run_prefixed_accepts hi hpriv hok u)))
  case refuses => exact (exec_pfx ..).trans (deliver_trap _ _ _ _ _ _ (hrun.trans (run_prefixed_refuses hi hno u)))
  case unallocated => exact (exec_pfx ..).trans (deliver_trap _ _ _ _ _ _ (hrun.trans (run_prefixed_unallocated he u)))

/-! ### Traps that no handler takes (R201, R322, R384) -/

theorem slot_eq_zero_iff (t : Strand) : t.slot = 0 ↔ t.kind = .cc := by
  unfold Strand.slot
  split <;> simp_all

/-- A gang that is terminated for the first time holds the cause and the strand that trapped. -/
theorem terminate_gang {c : Core} {g : Gang} (hg : c.gang = some g) (hterm : g.term = none) (cause who : BitVec 8) :
    (c.terminate cause who).gang = some { g with term := some (cause, who), left := true } := by
  rw [Core.terminate, hg]
  simp only [hterm]

/-- What a change of the acting core leaves of its gang, where it keeps the acting strand. -/
theorem onCore_gang (s : State) (f : Dev → Core → Dev × Core) : (s.onCore f).core.gang = (f s.dev s.wholeCore).2.gang := by
  unfold State.onCore
  dsimp only
  split
  · rfl
  · split <;> rfl

theorem terminateGang_gang {s : State} {g : Gang} (hg : s.core.gang = some g) (hterm : g.term = none) (cause who : BitVec 8) :
    (s.terminateGang cause who).core.gang = some { g with term := some (cause, who), left := true } :=
  (onCore_gang ..).trans (terminate_gang (c := s.wholeCore) hg hterm cause who)

/-- A terminated gang's strand that runs at the user level ends (R201). -/
theorem terminateGang_ends {s : State} {g : Gang} (hg : s.core.gang = some g) (huser : s.atResident = false) (cause who : BitVec 8) :
    (s.terminateGang cause who).st.run = .ended := by
  have hstays : ¬ (s.st.slot = 0 ∧ s.core.resident = true) := fun ⟨hslot, hres⟩ => by
    simp [State.atResident, (slot_eq_zero_iff _).mp hslot, hres] at huser
  let f (t : Strand) : Strand := if t.slot = 0 ∧ s.core.resident = true then t else t.ended
  have hslot (t : Strand) : (f t).slot = t.slot := by
    dsimp only [f]
    split <;> rfl
  have hstrands : (s.wholeCore.terminate cause who).strands = s.wholeCore.strands.map f := by
    rw [Core.terminate, show s.wholeCore.gang = some g from hg]
    rfl
  have hfound : (s.wholeCore.terminate cause who).strands.find? (fun t => t.slot == s.st.slot) = some s.st.ended := by
    have hsame : ((fun t : Strand => t.slot == s.st.slot) ∘ f) = fun t => t.slot == s.st.slot :=
      funext fun t => by rw [Function.comp_apply, hslot]
    have hst : f s.st = s.st.ended := if_neg hstays
    rw [hstrands, List.find?_map, hsame, ← hst]
    exact congrArg (Option.map f) (find?_putStrand s.st s.core.strands)
  simp only [State.terminateGang, State.onCore, hfound]
  rfl

/-- The state in which a strand that traps has stopped at its word, its frame written. -/
def State.stoppedInFrame (s : State) (g : Gang) (cause : BitVec 8) (info : BitVec 32) (addr : Word) (fl : BitVec 8) : State :=
  { s with
    st := { s.st.rewind with flags := s.st.flags ||| fl, run := .trapped, waiting := false }
    core := s.core.trapped g s.st cause info addr }

/-- A trap with no vector, or of a CC in handler mode, terminates the gang (R201). -/
theorem takeTrap_unhandled {s : State} {g : Gang} (huser : s.atResident = false) (hg : s.core.gang = some g)
    (hno : g.tvec = 0 ∨ (s.st.slot = 0 ∧ s.core.handler.isSome = true)) (cause : BitVec 8) (info : BitVec 32) (addr : Word)
    (fl : BitVec 8) :
    s.takeTrap cause info addr fl = (s.stoppedInFrame g cause info addr fl).terminateGang cause s.st.who := by
  unfold State.takeTrap
  rw [huser, if_neg Bool.false_ne_true, hg]
  dsimp only
  split
  next => rfl
  next hvec =>
    obtain ⟨hslot, hmode⟩ := hno.resolve_left hvec
    rw [if_pos hslot, if_pos hmode]
    rfl

/-- Settles O22: such a trap terminates the gang, and at the resident level every trap is a machine check. -/
theorem trapsRaisedAndUnhandled : Obligations.TrapsRaisedAndUnhandled := by
  unfold Obligations.TrapsRaisedAndUnhandled
  refine ⟨fun i w s => ⟨rfl, rfl⟩, fun s g cause fl info addr hg => ⟨fun huser hterm hno => ?user, fun hres => ?resident⟩⟩
  case user =>
    rw [takeTrap_unhandled huser hg hno]
    have hstopped : (s.stoppedInFrame g cause info addr fl).core.gang = some { g with trapSeq := g.trapSeq + 1 } := rfl
    exact ⟨_, terminateGang_gang hstopped hterm _ _, rfl, rfl, terminateGang_ends hstopped huser _ _⟩
  case resident =>
    rw [takeTrap_resident s _ _ _ _ hres]
    rfl

/-! ### The diversion of a CC whose `rel` waits (R199, R284) -/

/-- A gang with a trap vector, none of it terminated. -/
def divertedGang : Gang where
  ctx := 1
  part := 1
  launch := 1
  iter := 0
  tuple := [0]
  h := 1
  segs := 2
  tvec := 0x4000
  centry := 0x1000
  aentry := 0x2000
  xentry := 0x3000
  spr := 0
  dfrUnits := 4
  trapSeq := 0
  barGen := 0
  resumed := false
  left := false
  swap := false
  term := none
  stamp := 0
  asksH := 1

/-- A clasp that the CC of its core releases, its write-backs still to be sent. -/
def releasedByCc : LazyEntry where
  clasp := 0
  ctx := 1
  va := 0x10000
  ranges := []
  seen := 0
  lset := []
  lines := []
  sig := 0
  held := false
  retained := false
  waiter := false
  due := true
  relBy := some 0

/-- A CC at the user level that waits at a `rel`, beside a hart stopped with a trap. -/
def releasingBesideTrapped : State where
  st := Strand.fresh .cc 0 2 0x1000
  core := { Core.fresh 0 0 false with
    resident := false
    gang := some divertedGang
    strands := [{ Strand.fresh .access 0 2 0x2000 with run := .trapped }]
    lazy := [releasedByCc] }
  dev := { Dev.boot configFull configFull with cores := [] }
  agenda := []

/-- Refutes O52: a CC whose `rel` waits for its write-backs is not diverted, and the diversion clause does not exclude it. -/
theorem not_residentLevel : ¬ Obligations.ResidentLevel := by
  unfold Obligations.ResidentLevel
  intro h
  obtain ⟨-, -, -, hdivert⟩ := h releasingBesideTrapped
  obtain ⟨t, hexec, hpc, -⟩ := hdivert divertedGang rfl rfl (by decide) rfl rfl rfl rfl rfl (by decide)
  have hstays : exec .trapDiversion releasingBesideTrapped = .next releasingBesideTrapped := by rfl
  rw [hstays] at hexec
  obtain rfl := Host.Outcome.next.inj hexec
  exact absurd hpc (by decide)

end Sys2Proof.Machine

/-! SUPPORT. Scalar loads and stores of the scratchpad (R93, R118 to R121): the bits of the bytes that an access reads and writes, and
what an access does where no check stops it. -/

namespace Sys2Proof.Machine

/-! ### The bits of bytes (R4) -/

/-- A run of bytes, bit by bit. -/
theorem testBit_readN (m : Memory) (a n k : Nat) :
    (m.readN a n).testBit k = (decide (k < 8 * n) && (m.byte (a + k / 8)).getLsbD (k % 8)) := by
  induction n generalizing a k with
  | zero => simp [Memory.readN]
  | succ n ih =>
    have hsum : m.readN a (n + 1) = 2 ^ 8 * m.readN (a + 1) n + (m.byte a).toNat := Nat.add_comm ..
    rw [hsum, Nat.testBit_two_pow_mul_add _ (m.byte a).isLt, ih]
    by_cases hk : k < 8
    · rw [if_pos hk, Nat.div_eq_of_lt hk, Nat.mod_eq_of_lt hk, decide_eq_true (by omega), Bool.true_and]
      rfl
    · rw [if_neg hk, show a + 1 + (k - 8) / 8 = a + k / 8 by omega, show (k - 8) % 8 = k % 8 by omega,
        show decide (k - 8 < 8 * n) = decide (k < 8 * (n + 1)) from decide_eq_decide.mpr (by omega)]

/-- The bits of a line of memory. -/
theorem getLsbD_line (m : Memory) (a k : Nat) (hk : k < 1024) :
    (m.line a).getLsbD k = (m.byte (a / 128 * 128 + k / 8)).getLsbD (k % 8) := by
  rw [Memory.line, BitVec.getLsbD_ofNat, testBit_readN, decide_eq_true hk, Bool.true_and, Bool.true_and]

/-- The bits of a line with some bytes set. -/
theorem getLsbD_setLineBytes (l : Line) (o n x k : Nat) (hk : k < 1024) :
    (setLineBytes l o n x).getLsbD k = if 8 * o ≤ k ∧ k < 8 * o + 8 * n then x.testBit (k - 8 * o) else l.getLsbD k := by
  have hlo : l.toNat % 2 ^ (8 * o) < 2 ^ (8 * o) := Nat.mod_lt _ (Nat.two_pow_pos _)
  have hold : lineBytes l o n < 2 ^ (8 * n) := Nat.mod_lt _ (Nat.two_pow_pos _)
  have hnew : x % 2 ^ (8 * n) < 2 ^ (8 * n) := Nat.mod_lt _ (Nat.two_pow_pos _)
  have hsplit : l.toNat =
      2 ^ (8 * o) * (2 ^ (8 * n) * (l.toNat / 2 ^ (8 * o) / 2 ^ (8 * n)) + lineBytes l o n) + l.toNat % 2 ^ (8 * o) := by
    rw [lineBytes, Nat.div_add_mod, Nat.div_add_mod]
  rw [setLineBytes, BitVec.getLsbD_ofNat, show l.getLsbD k = l.toNat.testBit k from rfl, decide_eq_true hk, Bool.true_and]
  generalize lineBytes l o n = v at *
  generalize l.toNat / 2 ^ (8 * o) / 2 ^ (8 * n) = hi at *
  generalize l.toNat % 2 ^ (8 * o) = lo at *
  have hset : l.toNat - v * 2 ^ (8 * o) + x % 2 ^ (8 * n) * 2 ^ (8 * o) = 2 ^ (8 * o) * (2 ^ (8 * n) * hi + x % 2 ^ (8 * n)) + lo := by
    rw [hsplit, Nat.mul_add, Nat.mul_add, Nat.mul_comm v, Nat.mul_comm (x % _)]
    omega
  rw [hset, hsplit, testBit_three_parts _ _ _ _ _ _ hlo hnew, testBit_three_parts _ _ _ _ _ _ hlo hold, Nat.testBit_mod_two_pow]
  by_cases hbelow : k < 8 * o
  · rw [if_pos hbelow, if_neg (by omega), if_pos hbelow]
  · by_cases hin : k < 8 * o + 8 * n
    · rw [if_neg hbelow, if_pos hin, if_pos (by omega), decide_eq_true (by omega), Bool.true_and]
    · rw [if_neg hbelow, if_neg hin, if_neg (by omega), if_neg hbelow, if_neg hin]

/-- A byte after a line was set. -/
theorem byte_setLine (m : Memory) (a b : Nat) (l : Line) (h : m.wf = true) :
    (m.setLine a l).byte b = if b / 128 = a / 128 then l.extractLsb' (8 * (b % 128)) 8 else m.byte b := by
  rw [Memory.setLine, Memory.byte_writeN _ _ _ _ _ h]
  by_cases hb : b / 128 = a / 128
  · rw [if_pos (by omega), if_pos hb, show b - a / 128 * 128 = b % 128 by omega, ← two_pow_bytes]
    refine BitVec.eq_of_toNat_eq ?_
    rw [BitVec.toNat_ofNat, BitVec.extractLsb'_toNat, Nat.shiftRight_eq_div_pow]
  · rw [if_neg (by omega), if_neg hb]

/-! ### A scratchpad line with some bytes stored (R121) -/

section
variable (m : Memory) (off n x : Nat) (hroom : off % 128 + n ≤ 128)

/-- The line at a place with `n` bytes from there on set. -/
def storedBytes : Memory := m.setLine off (setLineBytes (m.line off) (off % 128) n x)

variable (h : m.wf = true)
include h hroom

theorem byte_storedBytes (b : Nat) :
    (storedBytes m off n x).byte b = if off ≤ b ∧ b < off + n then .ofNat 8 (x / 2 ^ (8 * (b - off))) else m.byte b := by
  rw [storedBytes, byte_setLine m off b _ h]
  by_cases hline : b / 128 = off / 128
  case neg => rw [if_neg hline, if_neg (by omega)]
  rw [if_pos hline]
  refine BitVec.eq_of_getLsbD_eq fun i hi => ?_
  rw [BitVec.getLsbD_extractLsb', decide_eq_true hi, Bool.true_and, getLsbD_setLineBytes _ _ _ _ _ (by omega)]
  by_cases hin : off ≤ b ∧ b < off + n
  · rw [if_pos (by omega), if_pos hin, BitVec.getLsbD_ofNat, decide_eq_true hi, Bool.true_and, Nat.testBit_div_two_pow,
      show 8 * (b % 128) + i - 8 * (off % 128) = i + 8 * (b - off) by omega]
  · rw [if_neg (by omega), if_neg hin, getLsbD_line _ _ _ (by omega), show off / 128 * 128 + (8 * (b % 128) + i) / 8 = b by omega,
      show (8 * (b % 128) + i) % 8 = i by omega]

end

/-! ### The value of a load (R93) -/

/-- A loaded number's sign is its top bit. -/
theorem testBit_top (v n : Nat) : v / 2 ^ n % 2 = 1 ↔ v.testBit n = true := by
  rw [Nat.testBit_eq_decide_div_mod_eq, decide_eq_true_eq]

/-- A loaded value bit by bit: its bytes, then copies of its sign or zeros. -/
theorem getLsbD_ldExtend (z : BitVec 3) (v k : Nat) (hk : k < 64) :
    (ldExtend z v).getLsbD k =
      if k < 8 * ldSize z then v.testBit k else decide (z.toNat < 4) && v.testBit (8 * ldSize z - 1) := by
  have hsize : 8 * ldSize z ≤ 64 := by
    have hpow : ldSize z ≤ 2 ^ 3 := Nat.pow_le_pow_right two_pos (by omega)
    omega
  have hlow : v % 2 ^ (8 * ldSize z) < 2 ^ (8 * ldSize z) := Nat.mod_lt _ (Nat.two_pow_pos _)
  unfold ldExtend
  dsimp only
  simp only [testBit_top]
  generalize 8 * ldSize z = n at *
  by_cases hsign : z.toNat < 4 ∧ v.testBit (n - 1) = true
  · have hones : v % 2 ^ n + 2 ^ 64 - 2 ^ n = 2 ^ n * (2 ^ (64 - n) - 1) + v % 2 ^ n := by
      rw [Nat.mul_sub, ← Nat.pow_add, Nat.add_sub_cancel' hsize, Nat.mul_one]
      have := Nat.pow_le_pow_right two_pos hsize
      omega
    rw [if_pos hsign, BitVec.getLsbD_ofNat, decide_eq_true hk, Bool.true_and, hones, Nat.testBit_two_pow_mul_add _ hlow,
      Nat.testBit_mod_two_pow, Nat.testBit_two_pow_sub_one]
    split
    next hin => rw [decide_eq_true hin, Bool.true_and]
    next hout => rw [decide_eq_true (by omega), decide_eq_true hsign.1, hsign.2, Bool.and_self]
  · rw [if_neg hsign, BitVec.getLsbD_ofNat, decide_eq_true hk, Bool.true_and, Nat.testBit_mod_two_pow]
    split
    next hin => rw [decide_eq_true hin, Bool.true_and]
    next hout =>
      rw [decide_eq_false hout, Bool.false_and, eq_comm, Bool.and_eq_false_iff, decide_eq_false_iff_not]
      by_cases hz4 : z.toNat < 4
      · exact .inr (Bool.eq_false_iff.mpr fun ht => hsign ⟨hz4, ht⟩)
      · exact .inl hz4

/-! ### An access that lies in one scratchpad line (R118, R119) -/

/-- The top 4 MiB of addresses are the scratchpad window (R203). -/
theorem inWindow_of_le {va : Word} (h : 0xFFFFFFFFFFC00000 ≤ va.toNat) : inWindow va = true := by
  rw [inWindow, beq_iff_eq]
  refine BitVec.eq_of_toNat_eq ?_
  have hlt := va.isLt
  rw [BitVec.extractLsb'_toNat, Nat.shiftRight_eq_div_pow, BitVec.toNat_allOnes]
  omega

theorem lineParts_one {va : Word} {n : Nat} (hroom : va.toNat % 128 + n ≤ 128) : lineParts va n = [(va, n)] := by
  rw [lineParts, if_pos (by omega)]

section
variable {s : State} {va : Word} {n : Nat}

/-- An X-hart's access, and one in the window, reach the scratchpad (R119). -/
theorem run_scalarTr_spad (q : Need) (hx : q.x = false) (h : s.st.kind = .execute ∨ 0xFFFFFFFFFFC00000 ≤ va.toNat) :
    (scalarTr q va).run s = .ok (.ofSpad va, s) := by
  simp only [scalarTr, run_bind, run_get]
  split
  next => rfl
  next hk => exact run_translateAt_window _ _ _ _ _ (inWindow_of_le (h.resolve_left hk)) hx

theorem run_touchM_spad {tr : Tr} (h : tr.spad = true) : (touchM tr).run s = .ok ((), s) := by
  rw [touchM, run_modify, touch_spad s tr _ h]

variable {tr : Tr} {t : Tag} {l : Line}

/-- A line of class VAL or RAW is none of the others. -/
theorem cls_plain (hcls : t.cls = cVAL ∨ t.cls = cRAW) : t.cls ≠ cPOI ∧ t.cls ≠ cINV ∧ t.cls ≠ cSTG ∧ t.cls ≠ cUNW := by
  rcases hcls with h | h <;> rw [h] <;> decide

theorem run_loadClass_plain (hcls : t.cls = cVAL ∨ t.cls = cRAW) (kind : BitVec 8) : (loadClass kind tr l t).run s = .ok ((l, 0), s) := by
  obtain ⟨hpoi, hinv, -, hunw⟩ := cls_plain hcls
  rw [loadClass, if_neg hpoi, if_neg hinv, if_neg hunw, run_pure]

theorem run_storeClass_plain (hcls : t.cls = cVAL ∨ t.cls = cRAW) (kind : BitVec 8) : (storeClass kind tr l t).run s = .ok (l, s) := by
  obtain ⟨hpoi, hinv, hstg, hunw⟩ := cls_plain hcls
  rw [storeClass, if_neg hpoi, if_neg hinv, if_neg hstg, if_neg hunw, run_pure]

/-- A store to the scratchpad of bytes that no pending load of the strand has to read puts the line (R252, R254). -/
theorem run_writeLine_spad (hspad : tr.spad = true) {bytes : BitVec 128} (hfree : s.st.holdsBytes (tr.loc / 128) bytes = false)
    (kind : BitVec 8) (ix : Nat) :
    (writeLine tr kind ix l t bytes).run s = .ok ((), (s.putSpad tr.loc l t).spadStored tr.loc bytes) := by
  have hfar : farMay s.core tr = false := by rw [farMay, hspad]; rfl
  simp only [writeLine, run_bind, run_get, hspad, hfree, hfar, Bool.true_and, Bool.false_eq_true, if_false, storedLine, Bool.not_true,
    Bool.false_and, run_pure, putLine, if_true, run_set, spadStoredM, run_modify]

variable (h : s.st.kind = .execute ∨ 0xFFFFFFFFFFC00000 ≤ va.toNat)
  (hcls : (s.core.spad.tag (spadOff va)).cls = cVAL ∨ (s.core.spad.tag (spadOff va)).cls = cRAW)
include h hcls

/-- A load within one full scratchpad line answers its bytes and changes nothing. -/
theorem run_loadParts_spad (hfull : spadOff va / 128 ∉ s.core.feEmpty) :
    (loadParts [(va, n)]).run s = .ok ((lineBytes (s.core.spad.line (spadOff va)) (va.toNat % 128) n, 0), s) := by
  have hgate : ((Tr.ofSpad va).spad && s.core.feEmpty.contains (spadOff va / 128)) = false :=
    Bool.and_eq_false_iff.mpr (.inr (by simpa using hfull))
  have hload := run_loadClass_plain (s := s) (tr := .ofSpad va) (l := s.core.spad.line (spadOff va)) hcls nLoad.kind
  simp only [loadParts, run_bind, run_scalarTr_spad nLoad rfl h, run_get, show (Tr.ofSpad va).loc = spadOff va from rfl, hgate,
    Bool.false_eq_true, if_false, run_readLine_spad (.ofSpad va) _ s rfl, hload, run_touchM_spad (tr := .ofSpad va) rfl, run_pure,
    Nat.mul_zero, Nat.add_zero]
  rfl

/-- A store within one scratchpad line puts the line with its bytes set. -/
theorem run_storeParts_spad {x : Nat} (hfree : s.st.holdsBytes (spadOff va / 128) (byteMask (va.toNat % 128) n) = false) :
    (storeParts [(va, n)] x).run s = .ok ((), (s.putSpad (spadOff va) (setLineBytes (s.core.spad.line (spadOff va)) (va.toNat % 128) n x)
      (s.core.spad.tag (spadOff va)).raw).spadStored (spadOff va) (byteMask (va.toNat % 128) n)) := by
  have hstore := run_storeClass_plain (s := s) (tr := .ofSpad va) (l := s.core.spad.line (spadOff va)) hcls nStore.kind
  have hwrite {l : Line} {t : Tag} := run_writeLine_spad (s := s) (tr := .ofSpad va) (l := l) (t := t) rfl hfree nStore.kind 0
  have hunw := (cls_plain hcls).2.2.2
  simp only [storeParts, run_bind, run_scalarTr_spad nStore rfl h, run_readLine_spad (.ofSpad va) _ s rfl,
    show (Tr.ofSpad va).loc = spadOff va from rfl, hstore, if_neg hunw] at hwrite ⊢
  simp only [hwrite, run_touchM_spad (tr := .ofSpad va) rfl, run_pure]

end

/-! ### The statement -/

theorem flagged_zero (s : State) : s.flagged 0 = s := by
  have hflags : s.st.flags ||| 0 = s.st.flags := BitVec.or_zero
  rw [State.flagged, hflags]

theorem calm_zero (s : State) : s.calm 0 := BitVec.zero_and

/-- A load that its gate lets pass and whose bytes are there completes with them (R82, R118). -/
theorem exec_ld_value {d a : BitVec 5} {z : BitVec 3} {o : BitVec 12} {s : State} {v : Nat}
    (hgate : s.st.kind = .cc → s.core.engHolds 2 = false) (hfull : s.spadEmpty (s.x a + o.signExtend 64) (ldSize z) = false)
    (hload : (loadParts (lineParts (s.x a + o.signExtend 64) (ldSize z))).run s = .ok ((v, 0), s)) :
    exec (.ld d a z o) s = .next (s.advanceValue d (ldExtend z v)) := by
  refine deliver_ok s _ _ ?_
  have hcalm : (raiseFlags 0).run s = .ok ((), s) := (run_raiseFlags_calm 0 s (calm_zero s)).trans (by rw [flagged_zero])
  simp only [run_bind, run_engGate_free 2 s hgate, hfull, Bool.false_eq_true, and_false, if_false, hload, hcalm, run_modify]

theorem exec_st_stored {d a : BitVec 5} {z : BitVec 2} {o : BitVec 12} {s u : State}
    (hgate : s.st.kind = .cc → s.core.engHolds 1 = false)
    (hstore : (storeParts (lineParts (s.x a + o.signExtend 64) (2 ^ z.toNat)) (s.x d).toNat).run s = .ok ((), u)) :
    exec (.st d a z o) s = .next u.advance :=
  deliver_ok s _ _ (by simp only [run_bind, run_engGate_free 1 s hgate, hstore, run_advanceM])

/-- A full line is not empty. -/
theorem spadEmpty_of_full {s : State} {va : Word} {n : Nat} (hroom : va.toNat % 128 + n ≤ 128)
    (hfull : spadOff va / 128 ∉ s.core.feEmpty) :
    s.spadEmpty va n = false := by
  have hout : s.core.feEmpty.contains (spadOff va / 128) = false := by simpa using hfull
  rw [State.spadEmpty, lineParts_one hroom, List.any_cons, List.any_nil]
  simp only [hout, Bool.and_false, Bool.or_self]

/-- A store below the deferral carve-out, and one of the CC to the trap frames, leaves nothing open (R160, R197). -/
theorem spadStored_settled {s : State} {off : Nat} (m : Memory) (bytes : BitVec 128)
    (h : off / 128 * 128 + s.core.carveSize < 4194304 - 2048 ∨ (s.st.kind = .cc ∧ 4194304 - 2048 ≤ off)) :
    ({ s with core := { s.core with spad := m } } : State).spadStored off bytes = { s with core := { s.core with spad := m } } := by
  unfold State.spadStored
  have hframes : framesAt = 4194304 - 2048 := rfl
  dsimp only
  rcases h with h | ⟨hcc, hoff⟩
  · exact if_pos (hframes ▸ h)
  · rw [if_neg (by omega), if_neg (by omega), if_pos (by simp [hcc])]

theorem spadOff_mod (va : Word) : spadOff va % 128 = va.toNat % 128 := Nat.mod_mod_of_dvd _ (by decide)

section
variable {s : State} {d a : BitVec 5} {o : BitVec 12} {va : Word} (hva : va = s.x a + o.signExtend 64)
  (hplace : s.st.kind = .execute ∨ 0xFFFFFFFFFFC00000 ≤ va.toNat)
  (hcls : (s.core.spad.tag (spadOff va)).cls = cVAL ∨ (s.core.spad.tag (spadOff va)).cls = cRAW)
include hva hplace hcls

/-- A load within one full line of the scratchpad completes with its bytes. -/
theorem exec_ld_spad {z : BitVec 3} (hroom : va.toNat % 128 + ldSize z ≤ 128) (hgate : s.st.kind = .cc → s.core.engHolds 2 = false)
    (hfull : spadOff va / 128 ∉ s.core.feEmpty) :
    exec (.ld d a z o) s = .next (s.advanceValue d (ldExtend z (s.core.spad.readN (spadOff va) (ldSize z)))) := by
  have hempty := spadEmpty_of_full hroom hfull
  have hload : (loadParts (lineParts va (ldSize z))).run s = .ok ((s.core.spad.readN (spadOff va) (ldSize z), 0), s) := by
    rw [lineParts_one hroom, run_loadParts_spad hplace hcls hfull, Memory.line_bytes _ _ _ _ hroom, ← spadOff_mod, Nat.div_add_mod']
  rw [hva] at hempty hload
  rw [exec_ld_value hgate hempty hload, ← hva]

/-- A store within one line of the scratchpad completes with its bytes set in the line, which becomes RAW. -/
theorem exec_st_spad {z : BitVec 2} (hroom : spadOff va % 128 + 2 ^ z.toNat ≤ 128) (hgate : s.st.kind = .cc → s.core.engHolds 1 = false)
    (hfree : s.st.holdsBytes (spadOff va / 128) (byteMask (spadOff va % 128) (2 ^ z.toNat)) = false) :
    exec (.st d a z o) s = .next (({ s with core := { s.core with spad :=
      (storedBytes s.core.spad (spadOff va) (2 ^ z.toNat) (s.x d).toNat).setTag (spadOff va) (s.core.spad.tag (spadOff va)).raw } } :
        State).spadStored (spadOff va) (byteMask (spadOff va % 128) (2 ^ z.toNat))).advance := by
  have hstore := run_storeParts_spad hplace hcls (x := (s.x d).toNat) (spadOff_mod va ▸ hfree)
  rw [spadOff_mod] at hroom
  rw [← lineParts_one hroom, hva] at hstore
  rw [exec_st_stored hgate hstore, ← hva, ← spadOff_mod]
  rfl

end

/-- Settles O17: an access within one line of the scratchpad runs through every check unchanged, and the rest is its bits. -/
theorem scratchpadAccess : Obligations.ScratchpadAccess := by
  unfold Obligations.ScratchpadAccess
  refine ⟨?load, ?store⟩
  case load =>
    intro d a z o s va n off _ hplace hroom hgate hfull hcls
    have hvalue : exec (.ld d a z o) s = .next (s.advanceValue d (ldExtend z (s.core.spad.readN off n))) :=
      exec_ld_spad rfl hplace hcls hroom hgate hfull
    refine ⟨ldExtend z (s.core.spad.readN off n), fun k hk => ?bits, fun hcc => ?atOnce, fun hhart => ?shadow⟩
    case bits =>
      have hpos : 1 ≤ n := Nat.one_le_two_pow
      rw [getLsbD_ldExtend z _ k hk, show ldSize z = n from rfl, testBit_readN, testBit_readN]
      clear_value n off
      split
      next hin => rw [decide_eq_true hin, Bool.true_and]
      next => rw [show decide (8 * n - 1 < 8 * n) = true from decide_eq_true (by omega), Bool.true_and,
          show off + (8 * n - 1) / 8 = off + n - 1 by omega, show (8 * n - 1) % 8 = 7 by omega]
    case atOnce => rw [hvalue, State.advanceValue, if_pos hcc]
    case shadow =>
      rw [hvalue, State.advanceValue, if_neg hhart]
      rfl
  case store =>
    intro d a z o s va n off hplace hroom hgate hwf hfree hcls
    have hroom : off % 128 + n ≤ 128 := (spadOff_mod va).symm ▸ hroom
    have hexec := exec_st_spad (d := d) rfl hplace hcls hroom hgate hfree
    have hwf' : (storedBytes s.core.spad off n (s.x d).toNat).wf = true := Memory.setLine_wf _ _ _ hwf
    have hbyte (b : Nat) := byte_storedBytes s.core.spad off n (s.x d).toNat hroom hwf b
    refine ⟨(storedBytes s.core.spad off n (s.x d).toNat).setTag off (s.core.spad.tag off).raw, hexec, ?settled,
      fun k hk => ?inside, fun b hb => ?outside, ?tag, fun b hb => ?otherTags⟩
    case settled =>
      exact spadStored_settled _ _
    case inside =>
      clear_value off n
      rw [Memory.byte_setTag, hbyte, if_pos (by omega), Nat.add_sub_cancel_left]
      refine BitVec.eq_of_toNat_eq ?_
      rw [BitVec.toNat_ofNat, BitVec.extractLsb'_toNat, Nat.shiftRight_eq_div_pow]
    case outside => rw [Memory.byte_setTag, hbyte, if_neg (by omega)]
    case tag =>
      rw [Memory.tag_setTag _ _ _ _ hwf', if_pos rfl]
      rfl
    case otherTags => rw [Memory.tag_setTag _ _ _ _ hwf', if_neg hb, storedBytes, Memory.tag_setLine]

end Sys2Proof.Machine

/-! SUPPORT. The common operand path (R54 to R56, R89, R131 to R133, R138 to R141, R152): what its operations compute, the scale codes
that feed a result segment, and its elements in order. -/

namespace Sys2Proof.Machine

/-! ### Operations (R138 to R141, R152) -/

section
variable {cf : Fmt} (rm : RMode) (d : BitVec 32) (xs : List Val)

theorem arithOp_run_float (h : cf.kind = .float) (l : Bool) (fl : Bool → List Val → Val × BitVec 8) (int : List Val → Int) :
    (arithOp l fl int).run cf rm d xs = delivered cf rm d (fl (rm == .rdn) xs) := by
  simp only [arithOp, h]

theorem arithOp_run_int (h : cf.kind = .int) (l : Bool) (fl : Bool → List Val → Val × BitVec 8) (int : List Val → Int) :
    (arithOp l fl int).run cf rm d xs = (intCode cf.wid (int xs), 0) := by
  simp only [arithOp, h]

theorem orderOp_run_float (h : cf.kind = .float) (fl : List Val → Val) (int : Nat → List Val → Int × BitVec 8) :
    (orderOp fl int).run cf rm d xs = cf.convert .rtz 0 (fl xs) := by
  simp only [orderOp, h]

theorem orderOp_run_int (h : cf.kind = .int) (fl : List Val → Val) (int : Nat → List Val → Int × BitVec 8) :
    (orderOp fl int).run cf rm d xs = satCode cf.wid (int cf.wid xs) := by
  simp only [orderOp, h]

variable (x y : Val)

/-- A saturating add of floats whose sum overflows is the largest magnitude with OF and NX (R141). -/
theorem opSadd_run_float (h : cf.kind = .float) :
    opSadd.run cf rm d [x, y] = if (cf.convert rm d (x.add (rm == .rdn) y).1).2 &&& 0x04 ≠ 0
      then ((if (x.add (rm == .rdn) y).1.neg? = true then 2 ^ (cf.ew + cf.mw) else 0) + cf.maxCode, (x.add (rm == .rdn) y).2 ||| 0x14)
      else delivered cf rm d (x.add (rm == .rdn) y) := by
  have hflags (f : BitVec 8) : f ||| fOF ||| fNX = f ||| 0x14 := BitVec.or_assoc f fOF fNX
  simp only [opSadd, h, opnd, List.getD_cons_zero, List.getD_cons_succ, hflags]
  rfl

/-- A saturating add of integers is clamped with OF (R141). -/
theorem opSadd_run_int (h : cf.kind = .int) :
    opSadd.run cf rm d [x, y] = if (2 : ℤ) ^ (cf.wid - 1) ≤ x.toInt + y.toInt then (intCode cf.wid (2 ^ (cf.wid - 1) - 1), 0x04)
      else if x.toInt + y.toInt < -2 ^ (cf.wid - 1) then (intCode cf.wid (-2 ^ (cf.wid - 1)), 0x04)
      else (intCode cf.wid (x.toInt + y.toInt), 0) := by
  simp only [opSadd, h, iopnd, opnd, List.getD_cons_zero, List.getD_cons_succ, Nat.cast_pow, Nat.cast_ofNat, gt_iff_lt, Int.sub_one_lt_iff]
  rfl

end

/-- Saturation with NV by its bound (R140). -/
theorem satNv_eq (w : Nat) (n : ℤ) : satNv w n = if (2 : ℤ) ^ (w - 1) ≤ n then (2 ^ (w - 1) - 1, 0x01) else (n, 0) := by
  simp only [satNv, Nat.cast_pow, Nat.cast_ofNat, gt_iff_lt, Int.sub_one_lt_iff]
  rfl

theorem satCode_satNv (w : Nat) (n : ℤ) :
    satCode w (satNv w n) = if (2 : ℤ) ^ (w - 1) ≤ n then (intCode w (2 ^ (w - 1) - 1), 0x01) else (intCode w n, 0) := by
  rw [satNv_eq, satCode]
  split <;> rfl

theorem satNv_fst (w : Nat) (n : ℤ) : (satNv w n).1 = Min.min n (2 ^ (w - 1) - 1) := by
  rw [satNv_eq]
  split
  next h => exact (min_eq_right (by omega)).symm
  next h => exact (min_eq_left (by omega)).symm

theorem satNv_snd (w : Nat) (n : ℤ) :
    (satNv w n).2 = (if (2 : ℤ) ^ (w - 1) ≤ n then (intCode w (2 ^ (w - 1) - 1), (0x01 : BitVec 8)) else (intCode w n, 0)).2 := by
  rw [satNv_eq]
  split <;> rfl

section
variable {cf : Fmt} (h : cf.kind = .int) (rm : RMode) (d : BitVec 32) (x y : Val)
include h

theorem opAbs_run_int : opAbs.run cf rm d [x] =
    if (2 : ℤ) ^ (cf.wid - 1) ≤ |x.toInt| then (intCode cf.wid (2 ^ (cf.wid - 1) - 1), 0x01) else (intCode cf.wid |x.toInt|, 0) := by
  rw [opAbs, orderOp_run_int rm d _ h, ← satCode_satNv, ← Int.natCast_natAbs]
  rfl

theorem opNeg_run_int : opNeg.run cf rm d [x] =
    if (2 : ℤ) ^ (cf.wid - 1) ≤ -x.toInt then (intCode cf.wid (2 ^ (cf.wid - 1) - 1), 0x01) else (intCode cf.wid (-x.toInt), 0) := by
  rw [opNeg, orderOp_run_int rm d _ h, ← satCode_satNv]
  rfl

/-- The magnitude saturates before it takes its sign (R140; log 53). -/
theorem opSgnj_run_int : opSgnj.run cf rm d [x, y] =
    (intCode cf.wid (if 0 ≤ y.toInt then Min.min |x.toInt| (2 ^ (cf.wid - 1) - 1) else -Min.min |x.toInt| (2 ^ (cf.wid - 1) - 1)),
      (if (2 : ℤ) ^ (cf.wid - 1) ≤ |x.toInt| then (intCode cf.wid (2 ^ (cf.wid - 1) - 1), (0x01 : BitVec 8))
        else (intCode cf.wid |x.toInt|, 0)).2) := by
  rw [opSgnj, orderOp_run_int rm d _ h, ← satNv_fst, ← satNv_snd, ← Int.natCast_natAbs]
  rfl

end

/-- The one bits of a pattern, counted by position. -/
theorem popcount_eq_countP (n w : Nat) : popcount n w = (List.range w).countP n.testBit := by
  induction w generalizing n with
  | zero => rfl
  | succ w ih =>
    have hrest : (List.range w).countP (n.testBit ∘ Nat.succ) = popcount (n / 2) w := by
      rw [ih]
      refine List.countP_congr fun k _ => ?_
      rw [Function.comp_apply, Nat.testBit_succ]
    have hlow : n % 2 = if n.testBit 0 = true then 1 else 0 := by
      simp only [Nat.testBit_zero, decide_eq_true_eq]
      split <;> omega
    rw [popcount, List.range_succ_eq_map, List.countP_cons, List.countP_map, hrest, hlow, Nat.add_comm]

theorem intCode_lt (w : Nat) (n : ℤ) : intCode w n < 2 ^ w := by
  have hpos : (0 : ℤ) < 2 ^ w := by positivity
  have hlt := Int.emod_lt_of_pos n hpos
  have hle := Int.emod_nonneg n hpos.ne'
  rw [intCode_eq]
  zify
  rwa [Int.toNat_of_nonneg hle]

/-- The leading zeros of a pattern, by its highest one bit. -/
theorem clzW_eq {w n k : Nat} (hn : n < 2 ^ w) (hk : k ≤ w) (hzeros : ∀ j, j < w → w ≤ j + k → n.testBit j = false)
    (hone : k < w → n.testBit (w - 1 - k) = true) : clzW w n = k := by
  have hlt : n < 2 ^ (w - k) := by
    refine Nat.lt_pow_two_of_testBit n fun j hj => ?_
    by_cases hw : j < w
    · exact hzeros j hw (by omega)
    · exact Nat.testBit_lt_two_pow (hn.trans_le (Nat.pow_le_pow_right two_pos (by omega)))
  rcases hk.lt_or_eq with hlow | rfl
  · have hge : 2 ^ (w - 1 - k) ≤ n := Nat.ge_two_pow_of_testBit (hone hlow)
    have hne : n ≠ 0 := (Nat.two_pow_pos _).trans_le hge |>.ne'
    have hlog : n.log2 = w - 1 - k := (Nat.log2_eq_iff hne).mpr ⟨hge, by rwa [show w - 1 - k + 1 = w - k by omega]⟩
    rw [clzW, if_neg hne, hlog]
    omega
  · rw [Nat.sub_self, Nat.pow_zero, Nat.lt_one_iff] at hlt
    rw [clzW, if_pos hlt]

/-! ### The smaller and the larger of two values (R140) -/

theorem min_max_nan_left (y : Val) : Val.nan.min y = y ∧ Val.nan.max y = y := ⟨rfl, rfl⟩

theorem min_max_nan_right (x : Val) : x.min .nan = x ∧ x.max .nan = x := by
  cases x <;> exact ⟨rfl, rfl⟩

theorem isNaN_of_ne {x : Val} (h : x ≠ .nan) : x.isNaN = false := by
  cases x with
  | nan => exact absurd rfl h
  | inf => rfl
  | fin => rfl

theorem min_max_number {x y : Val} (hx : x ≠ .nan) (hy : y ≠ .nan) :
    x.min y = (if x.cmp y < 0 ∨ x.cmp y = 0 ∧ x.neg? = true then x else y) ∧
      x.max y = (if 0 < x.cmp y ∨ x.cmp y = 0 ∧ x.neg? = false then x else y) := by
  simp only [Val.min, Val.max, isNaN_of_ne hx, isNaN_of_ne hy, Bool.false_eq_true, if_false, gt_iff_lt, and_self]

/-! ### The scale code of a result segment (R56, R131) -/

theorem oneScale_eq_some_iff (l : List (BitVec 8)) (c : BitVec 8) : oneScale l = some c ↔ c ≠ 255 ∧ l ≠ [] ∧ ∀ x ∈ l, x = c := by
  cases l with
  | nil => simp [oneScale]
  | cons a r =>
    have hrest : r.all (· == a) = true ↔ ∀ x ∈ r, x = a := by simp
    rw [oneScale, Option.ite_none_right_eq_some, hrest, Option.some.injEq]
    constructor
    · rintro ⟨⟨hne, hall⟩, rfl⟩
      exact ⟨hne, List.cons_ne_nil _ _, List.forall_mem_cons.mpr ⟨rfl, hall⟩⟩
    · rintro ⟨hne, -, hall⟩
      obtain ⟨rfl, hall⟩ := List.forall_mem_cons.mp hall
      exact ⟨⟨hne, hall⟩, rfl⟩

/-- The segments that feed a run of elements are those that hold one of them. -/
theorem mem_feeding (r : VReg) (F : Fmt) {lo hi : Nat} (h : lo ≤ hi) (c : BitVec 8) :
    c ∈ r.feeding F lo hi ↔ ∃ e, lo ≤ e ∧ e ≤ hi ∧ (r.seg (e / perSeg F.wid)).side.scl = c := by
  have hmono := Nat.div_le_div_right (c := perSeg F.wid) h
  simp only [VReg.feeding, List.mem_map, List.mem_range'_1]
  constructor
  · rintro ⟨j, ⟨hlo, hhi⟩, rfl⟩
    rcases hlo.eq_or_lt with rfl | hlt
    · exact ⟨lo, le_rfl, h, rfl⟩
    · have hpos : 0 < perSeg F.wid := Nat.pos_of_ne_zero fun h0 => by
        rw [h0, Nat.div_zero] at hlt hhi
        rw [Nat.div_zero] at hhi
        omega
      refine ⟨j * perSeg F.wid, ?_, ?_, by rw [Nat.mul_div_cancel _ hpos]⟩
      · exact ((Nat.div_lt_iff_lt_mul hpos).mp hlt).le
      · exact (Nat.le_div_iff_mul_le hpos).mp (by omega)
  · rintro ⟨e, hlo, hhi, rfl⟩
    have hfrom := Nat.div_le_div_right (c := perSeg F.wid) hlo
    have hto := Nat.div_le_div_right (c := perSeg F.wid) hhi
    exact ⟨e / perSeg F.wid, ⟨hfrom, by omega⟩, rfl⟩

/-- A result segment carries a scale code where all that feeds it carries it (R131). -/
theorem carryOf_eq_some_iff (srcs : List (VReg × Fmt)) {cf : Fmt} {g k : Nat} (hk : k < segsBelow g cf.wid) (c : BitVec 8) :
    carryOf srcs cf g k = some c ↔ fedBy srcs (perSeg cf.wid) g k c := by
  have hpos : 0 < perSeg cf.wid := Nat.pos_of_ne_zero fun h0 => by
    rw [segsBelow, h0, Nat.div_zero] at hk
    exact Nat.not_lt_zero _ hk
  have hbelow := (lt_segsBelow_iff hpos k).mp hk
  have hmul : (k + 1) * perSeg cf.wid = k * perSeg cf.wid + perSeg cf.wid := Nat.succ_mul _ _
  have hmin : Nat.min g ((k + 1) * perSeg cf.wid) = min g ((k + 1) * perSeg cf.wid) := rfl
  have hrun : k * perSeg cf.wid ≤ Nat.min g ((k + 1) * perSeg cf.wid) - 1 := by omega
  have hlast (e : Nat) : e ≤ Nat.min g ((k + 1) * perSeg cf.wid) - 1 ↔ e < (k + 1) * perSeg cf.wid ∧ e < g := by omega
  have hempty : (srcs.flatMap fun x => x.1.feeding x.2 (k * perSeg cf.wid) (Nat.min g ((k + 1) * perSeg cf.wid) - 1)) ≠ [] ↔ srcs ≠ [] := by
    refine ⟨fun h hnil => h (by rw [hnil]; rfl), fun h => ?_⟩
    obtain ⟨x, hx⟩ := List.exists_mem_of_ne_nil srcs h
    exact List.ne_nil_of_mem (List.mem_flatMap.mpr ⟨x, hx, (mem_feeding x.1 x.2 hrun _).mpr ⟨_, le_rfl, hrun, rfl⟩⟩)
  rw [show carryOf srcs cf g k = oneScale (srcs.flatMap fun x => x.1.feeding x.2 (k * perSeg cf.wid)
    (Nat.min g ((k + 1) * perSeg cf.wid) - 1)) from rfl, oneScale_eq_some_iff, hempty, fedBy]
  refine and_congr_right fun _ => and_congr_right fun _ => ⟨fun h x hx e hlo hhi hg => ?_, fun h v hv => ?_⟩
  · exact h _ (List.mem_flatMap.mpr ⟨x, hx, (mem_feeding x.1 x.2 hrun _).mpr ⟨e, hlo, (hlast e).mpr ⟨hhi, hg⟩, rfl⟩⟩)
  · obtain ⟨x, hx, hv⟩ := List.mem_flatMap.mp hv
    obtain ⟨e, hlo, hhi, rfl⟩ := (mem_feeding x.1 x.2 hrun _).mp hv
    exact h x hx e hlo ((hlast e).mp hhi).1 ((hlast e).mp hhi).2

/-! ### The elements of an arithmetic instruction (R54, R55, R131 to R133) -/

section
variable (o : VOp) (d : BitVec 5) (s : State) (regs : List VReg) (p : Prick)

/-- The source registers with their formats. -/
def operands : List (VReg × Fmt) := regs.map fun r => (r, s.fmt r.fmt)

/-- The scale code that a result segment carries, if it does. -/
def carriedScale (k : Nat) : Option (BitVec 8) :=
  if p.rule = 1 ∧ o.linear = true then carryOf (operands s regs) (s.fmt p.cf) s.st.grant k else none

/-- What every result segment below the grant carries. -/
def carriedScales : List (Option (BitVec 8)) := (List.range (segsBelow s.st.grant (s.fmt p.cf).wid)).map (carriedScale o s regs p)

variable {k e : Nat}

theorem getD_carriedScales (hk : k < segsBelow s.st.grant (s.fmt p.cf).wid) :
    (carriedScales o s regs p).getD k none = carriedScale o s regs p k := by
  rw [carriedScales, List.getD_eq_getElem?_getD, List.getElem?_map, List.getElem?_range hk, Option.map_some, Option.getD_some]

/-- A result segment has the scale code that it carries, or 127. -/
theorem arithAcc_scale (hk : k < segsBelow s.st.grant (s.fmt p.cf).wid) :
    (arithAcc o d s regs p).2 k = (carriedScale o s regs p k).getD 127 :=
  congrArg (Option.getD · 127) (getD_carriedScales o s regs p hk)

/-- A source element in the compute format, as its scale is applied or not (R54, R55, R133). -/
def scaledOperand (toInt scaled : Bool) (cf : Fmt) (rm : RMode) (draw : BitVec 32) (e : Nat) (q : VReg × Fmt) : Val :=
  let g := q.1.seg (e / perSeg q.2.wid)
  let v := if g.side.cls = cUNW then Val.zero else (q.2.decode toInt (g.bits q.2.wid (e % perSeg q.2.wid))).1
  let v := if g.side.scl = 255 then Val.nan else if scaled then applyScale g.side.scl v else v
  (cf.decode toInt (cf.convert rm draw v).1).1

theorem operand_fst (q : VReg × Fmt) (cf : Fmt) (scaled : Bool) (rm : RMode) (draw : BitVec 32) :
    (q.1.operand q.2 cf scaled rm draw e).1 = scaledOperand (cf.kind != .float) scaled cf rm draw e q := by
  have hvalue : ((q.1.seg (e / perSeg q.2.wid)).value q.2 (cf.kind != .float) (e % perSeg q.2.wid)).1 =
      if (q.1.seg (e / perSeg q.2.wid)).side.cls = cUNW then Val.zero
      else (q.2.decode (cf.kind != .float) ((q.1.seg (e / perSeg q.2.wid)).bits q.2.wid (e % perSeg q.2.wid))).1 := by
    rw [Seg.value, apply_ite Prod.fst]
  dsimp only [scaledOperand]
  rw [← hvalue]
  rfl

/-- The NaN of a pair that computes nothing, or 0 in an integer format (R55). -/
theorem nanFor_fst (cf : Fmt) : (nanFor cf).1 = if cf.kind = .float then (cf.convert .rne 0 .nan).1 else 0 := by
  unfold nanFor
  split
  next h => rw [if_pos h]
  next h => rw [if_neg h]

/-- Whether the scale of a source is applied to the elements of a result segment (R132, R133). -/
def scalesApply (k : Nat) : Bool := p.rule == 0 || (p.rule == 1 && (carriedScale o s regs p k).isNone)

/-- An active element is the operation on its source elements, with the draw of its own (R41, R131). -/
theorem arithAcc_code (he : e < s.st.grant) (hact : s.st.active e = true)
    (hk : e / perSeg (s.fmt p.cf).wid < segsBelow s.st.grant (s.fmt p.cf).wid) :
    (arithAcc o d s regs p).1.codes.reverse[e]? = some (
      let cf := s.fmt p.cf
      let draw := drawn s.st.mode s.st.seed (s.st.activeBelow (e + 1))
      if p.al = true then (o.run cf s.st.mode draw ((operands s regs).map
        (scaledOperand (cf.kind != .float) (scalesApply o s regs p (e / perSeg cf.wid)) cf s.st.mode draw e))).1
      else if cf.kind = .float then (cf.convert .rne 0 .nan).1 else 0) := by
  refine (elements_code s.st _ _ s.st.mode he hact).trans (congrArg some ?_)
  have hscaled : (p.rule == 0 || (p.rule == 1 && ((carriedScales o s regs p).getD (e / perSeg (s.fmt p.cf).wid) none).isNone)) =
      scalesApply o s regs p (e / perSeg (s.fmt p.cf).wid) := by
    rw [getD_carriedScales o s regs p hk, scalesApply]
  have hmap (scaled : Bool) (draw : BitVec 32) :
      ((operands s regs).map fun q => q.1.operand q.2 (s.fmt p.cf) scaled s.st.mode draw e).map (·.1) =
        (operands s regs).map (scaledOperand ((s.fmt p.cf).kind != .float) scaled (s.fmt p.cf) s.st.mode draw e) := by
    rw [List.map_map]
    exact List.map_congr_left fun q _ => operand_fst q _ _ _ _
  dsimp only
  rw [← hmap, ← hscaled, ← nanFor_fst, ← apply_ite Prod.fst]
  rfl

end

/-! ### Elements one by one (R41, R131) -/

section
variable (t : Strand) (rm : RMode) (f : Nat → BitVec 32 → Nat × BitVec 8) (keep : Nat → Option Nat)

/-- An active element's result, with its own draw. -/
def activeResult (e : Nat) : Nat × BitVec 8 := f e (drawn rm t.seed (t.activeBelow (e + 1)))

/-- The draw of an active element is the generator one step after the elements before it. -/
theorem step_draw {k : Nat} (hact : t.active k = true) :
    (if rm == .sr then seedStep (elementsTo t (rm == .sr) f keep k).seed else (elementsTo t (rm == .sr) f keep k).seed) =
      drawn rm t.seed (t.activeBelow (k + 1)) := by
  rw [← elementsTo_seed t f keep rm (k + 1), elementsTo_succ, Acc.step_seed]
  simp only [hact, true_and]

/-- Each element's code, in order. -/
theorem elementsTo_codes (k : Nat) : (elementsTo t (rm == .sr) f keep k).codes.reverse = (List.range k).map fun e =>
    if t.active e then (activeResult t rm f e).1 else if t.mz then 0 else (keep e).getD 0 := by
  induction k with
  | zero => rfl
  | succ k ih =>
    have hlast : (if t.active k then (f k (if rm == .sr then seedStep (elementsTo t (rm == .sr) f keep k).seed
          else (elementsTo t (rm == .sr) f keep k).seed)).1 else if t.mz then 0 else (keep k).getD 0) =
        if t.active k then (activeResult t rm f k).1 else if t.mz then 0 else (keep k).getD 0 := by
      split
      next hact => rw [step_draw t rm f keep hact, activeResult]
      next => rfl
    rw [elementsTo_succ, Acc.step_codes, List.reverse_cons, ih, List.range_succ, List.map_append, List.map_singleton, hlast]

theorem Acc.step_bad (draws : Bool) (a : Acc) (e : Nat) :
    (Acc.step t draws f keep a e).bad = true ↔ a.bad = true ∨ (t.mz = false ∧ t.active e = false ∧ keep e = none) := by
  unfold Acc.step
  cases t.active e with
  | true => simp
  | false => cases t.mz <;> cases keep e <;> simp

/-- A result cannot be written where merging keeps an element that the format does not hold (R57). -/
theorem elementsTo_bad (draws : Bool) (k : Nat) :
    (elementsTo t draws f keep k).bad = true ↔ t.mz = false ∧ ∃ e, e < k ∧ t.active e = false ∧ keep e = none := by
  induction k with
  | zero => simp [elementsTo]
  | succ k ih =>
    rw [elementsTo_succ, Acc.step_bad, ih, Nat.exists_lt_succ_right]
    exact and_or_left.symm

theorem Acc.step_flags (draws : Bool) (a : Acc) (e : Nat) : (Acc.step t draws f keep a e).flags =
    a.flags ||| if t.active e then (f e (if draws then seedStep a.seed else a.seed)).2 else 0 := by
  unfold Acc.step
  cases t.active e with
  | true => rfl
  | false => cases t.mz <;> cases keep e <;> exact BitVec.or_zero.symm

/-- A flag is raised where an active element raises it. -/
theorem elementsTo_flags (k i : Nat) : (elementsTo t (rm == .sr) f keep k).flags.getLsbD i = true ↔
    ∃ e, e < k ∧ t.active e = true ∧ (activeResult t rm f e).2.getLsbD i = true := by
  induction k with
  | zero => simp [elementsTo]
  | succ k ih =>
    rw [elementsTo_succ, Acc.step_flags, BitVec.getLsbD_or, Bool.or_eq_true, ih, Nat.exists_lt_succ_right]
    refine or_congr_right ?_
    split
    next hact => rw [step_draw t rm f keep hact, and_iff_right hact, activeResult]
    next hact => simp [hact]

end

/-! ### The instruction (R44, R54, R57, R77, R89, R131) -/

section
variable {i : Instr} {s : State} {o : VOp} {d : BitVec 5} {srcs : List (BitVec 5)} {regs : List VReg} {p : Prick}

/-- A result that an enabled flag stops, or that cannot be kept, is not written (R44, R57). -/
theorem run_commitV_arith (fi : BitVec 4) (a : Acc) (side : Nat → Sidecar) (hbad : a.bad = false) (hon : ¬ s.calm a.flags) :
    (commitV d fi a side).run s = .error (.trap tARITH ((a.flags &&& s.st.tmask).setWidth 32) 0 a.flags) := by
  simp only [commitV, hbad, run_bind, run_raiseFlags_trap _ s hon, Bool.false_eq_true, if_false]

theorem run_commitV_bad (fi : BitVec 4) (a : Acc) (side : Nat → Sidecar) (hbad : a.bad = true) :
    (commitV d fi a side).run s = .error (.trap tTAG_FORMAT 0 0 0) := by
  simp only [commitV, hbad, run_bind, run_raiseTrap, if_true]

variable (hpath : commonPath i s = some (o, d, srcs)) (hg : s.st.grant ≠ 0)
  (hissue : (issueArith srcs d o.takes).run s = .ok ((regs, p), s))
include hg hissue

theorem run_vectorOp : (vectorOp o d srcs).run s =
    (commitV d p.cf (arithAcc o d s regs p).1 fun k => mkSide p.cf ((arithAcc o d s regs p).2 k) false cVAL).run s := by
  simp only [vectorOp, run_bind, hissue, run_get, hg, if_false]

include hpath

/-- Where the checks pass, the elements are written, or a trap leaves the destination as it was. -/
theorem exec_commonPath_ends :
    ((arithAcc o d s regs p).1.bad = false → s.calm (arithAcc o d s regs p).1.flags →
      exec i s = .next (s.written d p.cf (arithAcc o d s regs p).1 fun k => mkSide p.cf ((arithAcc o d s regs p).2 k) false cVAL)) ∧
    ((arithAcc o d s regs p).1.bad = false → ¬ s.calm (arithAcc o d s regs p).1.flags →
      exec i s = .next (s.takeTrap 0x08 (((arithAcc o d s regs p).1.flags &&& s.st.tmask).setWidth 32) 0 (arithAcc o d s regs p).1.flags)) ∧
    ((arithAcc o d s regs p).1.bad = true → exec i s = .next (s.takeTrap 0x05 0 0 0)) := by
  have hrun := run_vectorOp hg hissue
  rw [exec_commonPath hpath]
  refine ⟨fun hbad hcalm => ?_, fun hbad hon => ?_, fun hbad => ?_⟩
  · exact deliver_ok s _ _ (hrun.trans (run_commitV _ _ _ _ _ hbad hcalm))
  · exact deliver_trap s _ _ _ _ _ (hrun.trans (run_commitV_arith _ _ _ hbad hon))
  · exact deliver_trap s _ _ _ _ _ (hrun.trans (run_commitV_bad _ _ _ hbad))

end

/-- The issue checks pass where the registers are free, every format has room, nothing read or kept is RAW, and the Pricking table
allows the pair and the instruction its compute format (R54, R77, R89). -/
theorem run_issueArith {s : State} {d : BitVec 5} {srcs : List (BitVec 5)} {takes : Fmt → Bool} {regs : List VReg} {p : Prick}
    (hregs : regs = srcs.map s.vreg) (hp : p = s.core.prick (regs.map (·.fmt))) (hk : s.st.kind = .execute) (hg : s.st.grant ≠ 0)
    (hread : ∀ v ∈ srcs, s.readable v) (hwrite : s.writable d) (hclass : (widthAndClass regs (s.vreg d) p.cf).run s = .ok ((), s))
    (hpair : p.al = true ∨ p.trp = false) (htakes : takes (s.fmt p.cf) = true) :
    (issueArith srcs d takes).run s = .ok ((regs, p), s) := by
  have hallowed : (!p.al && p.trp) = false := by
    rcases hpair with hal | htrp
    · rw [hal]; rfl
    · rw [htrp, Bool.and_false]
  subst hregs
  subst hp
  simp only [issueArith, run_bind, run_get, hg, if_false, run_mapM_readReg s hk srcs hread, run_claimReg s d hk hwrite, hclass, hallowed,
    htakes, Bool.not_true, Bool.or_self, Bool.false_eq_true, run_pure]

/-- Settles O25: the instruction by its shared shape, its elements by their order, and its operations each by its definition. -/
theorem commonPathWritesItsElements : Obligations.CommonPathWritesItsElements := by
  unfold Obligations.CommonPathWritesItsElements
  refine ⟨⟨fun i s o d srcs regs p hpath hg hissue => ?path, fun s d srcs takes => ?issue⟩, fun t draws f keep => ?elements⟩
  case path =>
    obtain ⟨hwrites, harith, hformat⟩ := exec_commonPath_ends hpath hg hissue
    refine ⟨hwrites, harith, hformat, ⟨fun k c hk => carryOf_eq_some_iff _ hk c, fun k hk => arithAcc_scale o d s regs p hk,
      fun e he hact hk => arithAcc_code o d s regs p he hact hk⟩, fun cf rm d x y z => ⟨fun hfloat => ?float, fun hint => ?int, fun i j =>
      ⟨?nanLeft, ?nanRight, min_max_number, rfl⟩⟩⟩
    case nanLeft => rintro rfl; exact min_max_nan_left y
    case nanRight => rintro rfl; exact min_max_nan_right x
    case float =>
      exact ⟨arithOp_run_float rm d _ hfloat _ _ _, arithOp_run_float rm d _ hfloat _ _ _, arithOp_run_float rm d _ hfloat _ _ _,
        arithOp_run_float rm d _ hfloat _ _ _, arithOp_run_float rm d _ hfloat _ _ _, arithOp_run_float rm d _ hfloat _ _ _,
        orderOp_run_float rm d _ hfloat _ _, orderOp_run_float rm d _ hfloat _ _, orderOp_run_float rm d _ hfloat _ _,
        orderOp_run_float rm d _ hfloat _ _, orderOp_run_float rm d _ hfloat _ _, opSadd_run_float rm d x y hfloat, fun f xs => rfl⟩
    case int =>
      have hcode (n : ℤ) : (n % 2 ^ cf.wid).toNat = intCode cf.wid n := (intCode_eq ..).symm
      have hpow (k : Nat) : ((2 ^ k : Nat) : ℤ) = 2 ^ k := Nat.cast_pow 2 k
      simp only [hcode]
      refine ⟨arithOp_run_int rm d _ hint _ _ _, arithOp_run_int rm d _ hint _ _ _, arithOp_run_int rm d _ hint _ _ _,
        arithOp_run_int rm d _ hint _ _ _, arithOp_run_int rm d _ hint _ _ _, arithOp_run_int rm d _ hint _ _ _,
        orderOp_run_int rm d _ hint _ _, orderOp_run_int rm d _ hint _ _, opAbs_run_int hint rm d x, opNeg_run_int hint rm d x,
        opSgnj_run_int hint rm d x y, opSadd_run_int rm d x y hint, ?mulh, rfl, rfl, ?sra, rfl, rfl, rfl, ?popc,
        fun k hk hzeros hone => ?clz, rfl⟩
      case mulh => rw [← hpow]; rfl
      case sra => rw [← hpow]; rfl
      case popc => rw [← popcount_eq_countP]; rfl
      case clz => exact congrArg (fun n : Nat => (intCode cf.wid n, (0 : BitVec 8))) (clzW_eq (intCode_lt _ _) hk hzeros hone)
  case issue =>
    intro g regs p old hk hg hread hwrite hregs hroom hkept hraw hpair htakes
    have hclass : (widthAndClass regs old p.cf).run s = .ok ((), s) :=
      run_widthAndClass regs old p.cf s (fun r hr => decide_eq_true (hregs r hr).1) (fun r hr => (hregs r hr).2)
        (decide_eq_true hroom) hkept hraw
    exact run_issueArith rfl rfl hk hg hread hwrite hclass hpair htakes
  case elements =>
    obtain ⟨rm, rfl⟩ : ∃ rm : RMode, draws = (rm == .sr) := by
      cases draws
      · exact ⟨.rne, rfl⟩
      · exact ⟨.sr, rfl⟩
    have hseed (n : Nat) : (if (rm == .sr) = true then seedStep^[n] t.seed else t.seed) = drawn rm t.seed n := by
      simp only [drawn, beq_iff_eq]
    simp only [hseed]
    exact ⟨elementsTo_codes t rm f keep t.grant, elementsTo_seed t f keep rm t.grant, elementsTo_bad t f keep _ t.grant,
      elementsTo_flags t rm f keep t.grant⟩

end Sys2Proof.Machine

/-! SUPPORT. The integer instructions by what they compute (R105 to R108, Table 06.1): the words of the table as numbers, bit by bit where the
table speaks of bits. Each instruction itself is one write of X[D] (`State.result`). -/

namespace Sys2Proof.Machine

/-! ### Sums, products, quotients and remainders -/

theorem toNat_sub_wraps (a b : Word) : (a - b).toNat = (a.toNat + 2 ^ 64 - b.toNat) % 2 ^ 64 := by
  rw [BitVec.toNat_sub]
  omega

/-- The high half of a number of 128 bits. -/
theorem toInt_high (p : BitVec 128) : (p.extractLsb' 64 64).toInt = p.toInt / 2 ^ 64 := by
  have hlt := p.isLt
  rw [BitVec.toInt_eq_toNat_cond, BitVec.toInt_eq_toNat_cond, BitVec.extractLsb'_toNat, Nat.shiftRight_eq_div_pow]
  split <;> split <;> omega

/-- A signed product of two words fits in 128 bits. -/
theorem toInt_wide_mul (a b : Word) : (a.signExtend 128 * b.signExtend 128).toInt = a.toInt * b.toInt := by
  have hlo := BitVec.le_toInt_mul_toInt (x := a) (y := b)
  have hhi := BitVec.toInt_mul_toInt_le (x := a) (y := b)
  rw [BitVec.toInt_mul, BitVec.toInt_signExtend_of_le (by decide), BitVec.toInt_signExtend_of_le (by decide)]
  exact Int.bmod_eq_of_le (by omega) (by omega)

theorem toInt_mulh (a b : Word) : ((a.signExtend 128 * b.signExtend 128).extractLsb' 64 64).toInt = a.toInt * b.toInt / 2 ^ 64 := by
  rw [toInt_high, toInt_wide_mul]

theorem toNat_mulhu (a b : Word) : ((a.setWidth 128 * b.setWidth 128).extractLsb' 64 64).toNat = a.toNat * b.toNat / 2 ^ 64 := by
  have hlt : a.toNat * b.toNat < 2 ^ 64 * 2 ^ 64 := Nat.mul_lt_mul'' a.isLt b.isLt
  rw [BitVec.extractLsb'_toNat, BitVec.toNat_mul, BitVec.toNat_setWidth_of_le (by decide), BitVec.toNat_setWidth_of_le (by decide),
    Nat.shiftRight_eq_div_pow]
  omega

theorem toInt_eq_zero_iff (b : Word) : b.toInt = 0 ↔ b = 0 := by
  rw [← BitVec.toInt_inj]
  rfl

theorem toNat_eq_zero_iff (b : Word) : b.toNat = 0 ↔ b = 0 := by
  rw [← BitVec.toNat_inj]
  rfl

/-- Signed quotients (Table 06.1). -/
theorem toInt_divS (a b : Word) :
    (b.toInt = 0 → (divS a b).toInt = -1) ∧
    (a.toInt = -2 ^ 63 → b.toInt = -1 → (divS a b).toInt = -2 ^ 63) ∧
    (b.toInt ≠ 0 → ¬(a.toInt = -2 ^ 63 ∧ b.toInt = -1) → (divS a b).toInt = a.toInt.tdiv b.toInt) := by
  have hmin (x : Word) : x.toInt = -2 ^ 63 ↔ x = BitVec.intMin 64 := by
    rw [← BitVec.toInt_inj]
    rfl
  have hneg (x : Word) : x.toInt = -1 ↔ x = -1#64 := by
    rw [← BitVec.toInt_inj]
    rfl
  simp only [ne_eq, toInt_eq_zero_iff, hmin a, hneg b, divS]
  refine ⟨fun hzero => ?zero, fun ha hb => ?overflow, fun hne hfits => ?fits⟩
  case zero =>
    rw [if_pos hzero]
    rfl
  case overflow =>
    rw [ha, hb, if_neg (by decide), BitVec.intMin_sdiv_neg_one]
    rfl
  case fits => rw [if_neg hne, BitVec.toInt_sdiv_of_ne_or_ne _ _ (not_and_or.mp hfits)]

theorem toNat_divU (a b : Word) :
    (b.toNat = 0 → (divU a b).toNat = 2 ^ 64 - 1) ∧ (b.toNat ≠ 0 → (divU a b).toNat = a.toNat / b.toNat) := by
  simp only [ne_eq, toNat_eq_zero_iff, divU]
  refine ⟨fun hzero => ?_, fun hne => ?_⟩
  · rw [if_pos hzero]
    rfl
  · rw [if_neg hne, BitVec.toNat_udiv]

theorem toInt_remS (a b : Word) : (b.toInt = 0 → remS a b = a) ∧ (b.toInt ≠ 0 → (remS a b).toInt = a.toInt.tmod b.toInt) := by
  simp only [ne_eq, toInt_eq_zero_iff, remS]
  exact ⟨fun hzero => if_pos hzero, fun hne => by rw [if_neg hne, BitVec.toInt_srem]⟩

theorem toNat_remU (a b : Word) : (b.toNat = 0 → remU a b = a) ∧ (b.toNat ≠ 0 → (remU a b).toNat = a.toNat % b.toNat) := by
  simp only [ne_eq, toNat_eq_zero_iff, remU]
  exact ⟨fun hzero => if_pos hzero, fun hne => by rw [if_neg hne, BitVec.toNat_umod]⟩

/-- Settles O8: each instruction writes its word of Table 06.1, which is the number the table gives. -/
theorem registerArithmetic : Obligations.RegisterArithmetic := by
  unfold Obligations.RegisterArithmetic
  exact fun d a b s => ⟨⟨_, rfl, BitVec.toNat_add ..⟩, ⟨_, rfl, toNat_sub_wraps ..⟩, ⟨_, rfl, BitVec.toNat_mul ..⟩, ⟨_, rfl, toInt_mulh ..⟩,
    ⟨_, rfl, toNat_mulhu ..⟩, ⟨_, rfl, toInt_divS ..⟩, ⟨_, rfl, toNat_divU ..⟩, ⟨_, rfl, toInt_remS ..⟩, ⟨_, rfl, toNat_remU ..⟩⟩

/-! ### Shifts by an amount below 64 -/

theorem toNat_shiftedLeft (a : Word) (n : Nat) : (a <<< n).toNat = a.toNat * 2 ^ n % 2 ^ 64 := by
  rw [BitVec.toNat_shiftLeft, Nat.shiftLeft_eq]

theorem toNat_shiftedRight (a : Word) (n : Nat) : (a >>> n).toNat = a.toNat / 2 ^ n := by
  rw [BitVec.toNat_ushiftRight, Nat.shiftRight_eq_div_pow]

theorem toInt_shiftedRight (a : Word) (n : Nat) : (a.sshiftRight n).toInt = a.toInt / 2 ^ n := by
  rw [BitVec.toInt_sshiftRight, Int.shiftRight_eq_div_pow, Nat.cast_pow]
  rfl

/-! ### Comparisons, the smaller and the larger -/

theorem boolWord_decide (p : Prop) [Decidable p] : boolWord (decide p) = if p then 1 else 0 := by
  simp only [boolWord, decide_eq_true_eq]

theorem toInt_smaller (a b : Word) : (if a.slt b then a else b).toInt = Min.min a.toInt b.toInt := by
  simp only [BitVec.slt, decide_eq_true_eq]
  split <;> omega

theorem toInt_larger (a b : Word) : (if a.slt b then b else a).toInt = Max.max a.toInt b.toInt := by
  simp only [BitVec.slt, decide_eq_true_eq]
  split <;> omega

theorem toNat_smaller (a b : Word) : (if a.ult b then a else b).toNat = Min.min a.toNat b.toNat := by
  simp only [BitVec.ult, decide_eq_true_eq]
  split <;> omega

theorem toNat_larger (a b : Word) : (if a.ult b then b else a).toNat = Max.max a.toNat b.toNat := by
  simp only [BitVec.ult, decide_eq_true_eq]
  split <;> omega

/-! ### Bit counts -/

/-- The leading zeros end at the highest one bit. -/
theorem clz64_bits (a : Word) : clz64 a ≤ 64 ∧ (clz64 a < 64 → a.getLsbD (63 - clz64 a) = true) ∧
    ∀ k, 64 - clz64 a ≤ k → k < 64 → a.getLsbD k = false := by
  unfold clz64
  split
  next hzero =>
    subst hzero
    exact ⟨le_rfl, fun h => absurd h (lt_irrefl _), fun k _ _ => BitVec.getLsbD_zero⟩
  next hne =>
    have hnat : a.toNat ≠ 0 := fun h => hne ((toNat_eq_zero_iff a).mp h)
    have htop : a.toNat.log2 < 64 := (Nat.log2_lt hnat).mpr a.isLt
    refine ⟨by omega, fun _ => ?_, fun k hk _ => ?_⟩
    · rw [show 63 - (63 - a.toNat.log2) = a.toNat.log2 by omega]
      exact Nat.testBit_log2 hnat
    · exact Nat.testBit_lt_two_pow (Nat.lt_log2_self.trans_le (Nat.pow_le_pow_right two_pos (by omega)))

/-- A search upwards stops at the first one bit, or past the bits it looks at. -/
theorem ctzFrom_bits (a : Word) (n : Nat) : ∀ i : Nat, ctzFrom a i n ≤ i + n ∧ (ctzFrom a i n < i + n → a.getLsbD (ctzFrom a i n) = true) ∧
    ∀ k, i ≤ k → k < ctzFrom a i n → a.getLsbD k = false := by
  induction n with
  | zero => exact fun i => ⟨le_rfl, fun h => absurd h (lt_irrefl _), fun k hk hlt => absurd hlt (not_lt.mpr hk)⟩
  | succ n ih =>
    intro i
    rw [ctzFrom]
    split
    next hone => exact ⟨by omega, fun _ => hone, fun k hk hlt => absurd hlt (not_lt.mpr hk)⟩
    next hzero =>
      obtain ⟨hle, hone, hbelow⟩ := ih (i + 1)
      refine ⟨by omega, fun hlt => hone (by omega), fun k hk hlt => ?_⟩
      rcases hk.eq_or_lt with rfl | hk
      · exact Bool.eq_false_iff.mpr hzero
      · exact hbelow k hk hlt

theorem ctz64_bits (a : Word) : ctz64 a ≤ 64 ∧ (ctz64 a < 64 → a.getLsbD (ctz64 a) = true) ∧ ∀ k, k < ctz64 a → a.getLsbD k = false := by
  obtain ⟨hle, hone, hbelow⟩ := ctzFrom_bits a 64 0
  exact ⟨by rwa [Nat.zero_add] at hle, by rwa [Nat.zero_add] at hone, fun k hk => hbelow k (Nat.zero_le k) hk⟩

/-- Settles O9: each instruction writes its word of Table 06.1, read bit by bit or as a number. -/
theorem registerLogic : Obligations.RegisterLogic := by
  unfold Obligations.RegisterLogic
  intro d a b s
  refine ⟨⟨_, rfl, fun _ => BitVec.getLsbD_and⟩, ⟨_, rfl, fun _ => BitVec.getLsbD_or⟩, ⟨_, rfl, fun _ => BitVec.getLsbD_xor⟩,
    ⟨_, rfl, toNat_shiftedLeft ..⟩, ⟨_, rfl, toNat_shiftedRight ..⟩, ⟨_, rfl, toInt_shiftedRight ..⟩, ?slt, ?sltu,
    ⟨_, rfl, toInt_smaller ..⟩, ⟨_, rfl, toInt_larger ..⟩, ⟨_, rfl, toNat_smaller ..⟩, ⟨_, rfl, toNat_larger ..⟩,
    ⟨_, rfl, clz64_bits _⟩, ⟨_, rfl, ctz64_bits _⟩, ?popc, ?sel⟩
  case slt =>
    rw [← boolWord_decide]
    rfl
  case sltu =>
    rw [← boolWord_decide]
    rfl
  case popc =>
    have hcount := popcount_eq_countP (s.x a).toNat 64
    exact congrArg (fun n : Nat => Host.Outcome.next (s.setX d (.ofNat 64 n)).advance) hcount
  case sel =>
    rw [← ite_not]
    rfl

/-! ### Immediates (R106, R108) -/

/-- The bits of a sign-extended immediate: those above its top one repeat that one (R86). -/
theorem getLsbD_sext15 (i : BitVec 15) {k : Nat} (hk : k < 64) : (i.signExtend 64).getLsbD k = i.getLsbD (Min.min k 14) := by
  rw [BitVec.getLsbD_signExtend, decide_eq_true hk, Bool.true_and]
  split
  next hlow => rw [Nat.min_eq_left (by omega)]
  next hhigh => rw [Nat.min_eq_right (by omega), BitVec.msb_eq_getLsbD_last]

theorem toInt_sext15 (i : BitVec 15) : (i.signExtend 64).toInt = i.toInt := BitVec.toInt_signExtend_of_le (by decide)

theorem toInt_add_sext15 (a : Word) (i : BitVec 15) : (a + i.signExtend 64).toInt = (a.toInt + i.toInt).bmod (2 ^ 64) := by
  rw [BitVec.toInt_add, toInt_sext15]

theorem toInt_adda (a : Word) (i : BitVec 15) : (a + i.signExtend 64 * 128).toInt = (a.toInt + i.toInt * 128).bmod (2 ^ 64) := by
  rw [BitVec.toInt_add, BitVec.toInt_mul, toInt_sext15, Int.add_bmod_bmod]
  rfl

/-- Settles O10: an immediate form writes the word of its register form, with the sign-extended immediate for b. -/
theorem immediateArithmetic : Obligations.ImmediateArithmetic := by
  unfold Obligations.ImmediateArithmetic
  intro d a i h s
  refine ⟨⟨_, rfl, toInt_add_sext15 ..⟩, ⟨_, rfl, fun k hk => ?and⟩, ⟨_, rfl, fun k hk => ?or⟩, ⟨_, rfl, fun k hk => ?xor⟩, ?slti,
    ⟨_, rfl, toNat_shiftedLeft ..⟩, ⟨_, rfl, toNat_shiftedRight ..⟩, ⟨_, rfl, toInt_shiftedRight ..⟩, ⟨_, rfl, toInt_adda ..⟩⟩
  case and => rw [BitVec.getLsbD_and, getLsbD_sext15 i hk]
  case or => rw [BitVec.getLsbD_or, getLsbD_sext15 i hk]
  case xor => rw [BitVec.getLsbD_xor, getLsbD_sext15 i hk]
  case slti =>
    rw [← toInt_sext15, ← boolWord_decide]
    rfl

/-- A word shifted past twenty bits takes them below it. -/
theorem toNat_shifted_or (a : Word) (i : BitVec 20) : (a <<< 20 ||| i.setWidth 64).toNat = a.toNat * 2 ^ 20 % 2 ^ 64 + i.toNat := by
  have hhigh : a.toNat * 2 ^ 20 % 2 ^ 64 = 2 ^ 20 * (a.toNat % 2 ^ 44) := by omega
  rw [BitVec.toNat_or, toNat_shiftedLeft, BitVec.toNat_setWidth_of_le (by decide), hhigh, Nat.two_pow_add_eq_or_of_lt i.isLt]

/-- Settles O11: the shifted register and the field share no bit. -/
theorem loadImmediateHigh : Obligations.LoadImmediateHigh := by
  unfold Obligations.LoadImmediateHigh
  exact fun d i s => ⟨_, rfl, toNat_shifted_or ..⟩

end Sys2Proof.Machine

/-! SUPPORT. Jumps (R110), and the taken transfers that leave handler mode or end a strand (R190, R200, R201). -/

namespace Sys2Proof.Machine

/-! ### Jumps (R110, R113) -/

/-- An address with its two low bits clear. -/
theorem toNat_clear_low (v : Word) : (v &&& ~~~3).toNat = v.toNat / 4 * 4 := by
  have hthree (i : Nat) : (3 : Word).getLsbD i = decide (i < 2) := Nat.testBit_two_pow_sub_one 2 i
  have hshifts : (v &&& ~~~3 : Word) = (v >>> 2) <<< 2 := by
    refine BitVec.eq_of_getLsbD_eq fun i hi => ?_
    rw [BitVec.getLsbD_and, BitVec.getLsbD_not, hthree, BitVec.getLsbD_shiftLeft, BitVec.getLsbD_ushiftRight, decide_eq_true hi]
    by_cases hlow : i < 2
    · simp [hlow]
    · simp [hlow, Nat.add_sub_cancel' (not_lt.mp hlow)]
  have hlt := v.isLt
  rw [hshifts, toNat_shiftedLeft, toNat_shiftedRight]
  omega

theorem exec_jal (d : BitVec 5) (o : BitVec 20) (s : State) :
    exec (.jal d o) s = .next (s.transfer (s.setX d (s.st.pc + 4)) (s.st.pc + o.signExtend 64 * 4)) := rfl

theorem exec_jalr (d a : BitVec 5) (i : BitVec 15) (s : State) :
    exec (.jalr d a i) s = .next (s.transfer (s.setX d (s.st.pc + 4)) ((s.x a + i.signExtend 64) &&& ~~~3)) := rfl

/-- A jump that may go on writes its link and goes on at its target; a link moves no part of the level the strand runs at. -/
theorem transfer_link_goTo (s : State) (d : BitVec 5) (link target : Word) (h : s.mayGoTo target) :
    s.transfer (s.setX d link) target = (s.setX d link).goTo target :=
  transfer_goTo s _ target h (by simp [State.atResident])

/-! ### Transfers to 0 at the user level (R190) -/

/-- The state whose acting strand has left its word by a taken transfer, before it is known where it goes on. -/
def State.leftWord (s : State) : State := { s with st := { s.st with pend := s.st.pend.map .tick, deco := none, waiting := false } }

/-- `jalr x0, x0, 0` transfers to 0 and writes nothing. -/
theorem exec_jalr_zero (s : State) : exec (.jalr 0 0 0) s = .next (s.transfer s 0) := by
  have hx : s.x 0 = 0 := rfl
  have htarget : ((0 : Word) + (0 : BitVec 15).signExtend 64) &&& ~~~3 = 0 := by decide
  rw [exec_jalr, hx, htarget]
  rfl

/-- A transfer to 0 at the user level, no `ploop` active: the CC leaves handler mode, any other strand ends. -/
theorem transfer_zero {s : State} (hloops : ∀ l ∈ s.st.loops, l.stages = 0) (huser : s.atResident = false) :
    s.transfer s 0 = if s.st.kind = .cc ∧ s.core.handler.isSome then s.leftWord.handlerExit else s.leftWord.strandEnd := by
  have hnone : (s.st.loops.any fun l => l.stages != 0 && l.holds 0) = false :=
    List.any_eq_false.mpr fun l hl => by simp [hloops l hl]
  have huser' : s.leftWord.atResident = false := huser
  unfold State.transfer
  rw [hnone, if_neg Bool.false_ne_true]
  exact if_pos ⟨rfl, huser'⟩

/-- A hart that ends touches no other part of the machine. -/
theorem strandEnd_hart {s : State} (hkind : s.st.kind ≠ .cc) : s.strandEnd = { s with st := s.st.ended } := by
  unfold State.strandEnd
  exact if_neg hkind

/-- The harts stopped with a trap that a CC finds are those beside it (R201). -/
theorem lowTrapped_cc {s : State} (hkind : s.st.kind = .cc) :
    s.lowTrapped = (s.core.strands.find? fun t => t.slot != 0 && t.run == .trapped).map (·.slot) := by
  have hslot : s.st.slot = 0 := (slot_eq_zero_iff _).mpr hkind
  rw [State.lowTrapped, State.allStrands]
  congr 1
  cases s.core.strands with
  | nil => simp [putStrand, hslot]
  | cons u r =>
    rw [putStrand, hslot]
    split_ifs with hafter hsame
    · simp [hslot]
    · simp [hslot, ← hsame]
    · omega

/-- What a CC finds does not depend on its own state. -/
theorem lowTrapped_of_cc {s t : State} (hs : s.st.kind = .cc) (ht : t.st.kind = .cc) (h : t.core.strands = s.core.strands) :
    t.lowTrapped = s.lowTrapped := by
  rw [lowTrapped_cc hs, lowTrapped_cc ht, h]

/-- A CC that ends while no hart is stopped with a trap. -/
theorem strandEnd_cc_alone {s : State} (hkind : s.st.kind = .cc) (hnone : ∀ u ∈ s.core.strands, u.run ≠ .trapped) :
    s.strandEnd = { s with st := s.st.ended } := by
  have hlow : State.lowTrapped { s with st := s.st.ended } = none := by
    rw [lowTrapped_cc (s := { s with st := s.st.ended }) hkind, Option.map_eq_none_iff, List.find?_eq_none]
    intro u hu
    simp [hnone u hu]
  unfold State.strandEnd
  simp only [hlow]
  exact if_pos hkind

/-- A CC that ends while a hart is stopped with a trap terminates its gang by that hart's frame (R201). -/
theorem strandEnd_cc_trapped {s : State} {n : Nat} (hkind : s.st.kind = .cc) (hlow : s.lowTrapped = some n) :
    s.strandEnd = State.terminateByFrame { s with st := s.st.ended } n := by
  have hlow' : State.lowTrapped { s with st := s.st.ended } = some n :=
    (lowTrapped_of_cc (t := { s with st := s.st.ended }) hkind hkind rfl).trans hlow
  unfold State.strandEnd
  simp only [hlow']
  exact if_pos hkind

/-- One byte as a number is that byte. -/
theorem ofNat_readN_one (m : Memory) (a : Nat) : BitVec.ofNat 8 (m.readN a 1) = m.byte a := by
  rw [Memory.readN, Memory.readN, Nat.mul_zero, Nat.add_zero, BitVec.ofNat_toNat, BitVec.setWidth_eq]

/-- The gang that a hart's frame terminates holds the cause and the strand of that frame. -/
theorem terminateByFrame_gang {s : State} {g : Gang} (hg : s.core.gang = some g) (hterm : g.term = none) (n : Nat) :
    (s.terminateByFrame n).core.gang =
      some { g with term := some (s.core.spad.byte (4194304 - 2048 + 64 * n + 17), whoOfSlot n), left := true } := by
  rw [State.terminateByFrame, terminateGang_gang hg hterm, ofNat_readN_one, frameOff_eq]

/-- Settles O15: a jump is one transfer, and a transfer goes on, is illegal, leaves handler mode or ends the strand. -/
theorem jumpsAndTransfers : Obligations.JumpsAndTransfers := by
  unfold Obligations.JumpsAndTransfers
  refine ⟨fun d a o i s => ⟨fun hgo => ?jal, fun target hgo htarget => ?jalr⟩,
    fun d a o s => ⟨fun hin => ?jalIllegal, fun hin => ?jalrIllegal, fun hloops huser hkind hmode => ?handler,
      fun hloops huser hkind hmode => ?cc, fun hloops hkind => ?hart⟩⟩
  case jal => rw [exec_jal, transfer_link_goTo s d _ _ hgo]
  case jalr =>
    obtain rfl : (s.x a + i.signExtend 64) &&& ~~~3 = target := BitVec.eq_of_toNat_eq ((toNat_clear_low _).trans htarget.symm)
    rw [exec_jalr, transfer_link_goTo s d _ _ hgo]
  case jalIllegal => rw [exec_jal, transfer_into_ploop s _ _ hin]
  case jalrIllegal =>
    have hzero : s.x a + (0 : BitVec 15).signExtend 64 = s.x a := BitVec.add_zero _
    rw [exec_jalr, hzero, transfer_into_ploop s _ _ hin]
  case handler =>
    rw [exec_jalr_zero, transfer_zero hloops huser, if_pos ⟨hkind, hmode⟩]
    rfl
  case cc =>
    rw [exec_jalr_zero, transfer_zero hloops huser, if_neg (by simp [hmode])]
    refine ⟨_, rfl, run_strandEnd _, fun hnone => ?alone, fun g n _ hg hterm hlow => ?trapped⟩
    case alone =>
      rw [strandEnd_cc_alone (s := s.leftWord) hkind hnone]
      exact ⟨rfl, rfl, rfl⟩
    case trapped =>
      have hlow' : s.leftWord.lowTrapped = some n := (lowTrapped_of_cc (t := s.leftWord) hkind hkind rfl).trans hlow
      rw [strandEnd_cc_trapped (s := s.leftWord) hkind hlow']
      exact ⟨_, terminateByFrame_gang (s := { s.leftWord with st := s.leftWord.st.ended }) hg hterm n, rfl, rfl⟩
  case hart =>
    have huser : s.atResident = false := by simp [State.atResident, hkind]
    rw [exec_jalr_zero, transfer_zero hloops huser, if_neg (by simp [hkind]), strandEnd_hart (s := s.leftWord) hkind]
    exact ⟨_, rfl, rfl, rfl, rfl, rfl, rfl⟩

end Sys2Proof.Machine

/-! SUPPORT. Hardware loops (R112, R113, R115) and the strip-mining branch (R117). -/

namespace Sys2Proof.Machine

/-! ### `loop` and `ploop` (R112, R113, R115) -/

/-- A loop may be entered while fewer than four levels are active and no `ploop` is. -/
theorem loopRoom_iff (t : Strand) : t.loopRoom = true ↔ t.loops.length < 4 ∧ ∀ x ∈ t.loops, x.stages = 0 := by
  simp [Strand.loopRoom]

/-- In its first iteration a `ploop` runs its first stage alone. -/
theorem stagePred_first {stages trips : Nat} (hstages : 0 < stages) (htrips : 0 < trips) : stagePred stages trips 0 = 1 := by
  refine BitVec.eq_of_getLsbD_eq fun k hk => ?_
  have hone : (1 : BitVec 8).getLsbD k = (decide (0 < 8) && decide (k = 0)) := BitVec.getLsbD_one
  rw [getLsbD_stagePred _ _ _ _ hk, hone, decide_eq_true (by decide : 0 < 8), Bool.true_and, decide_eq_decide]
  omega

section
variable {a : BitVec 5} {st : BitVec 3} {l : BitVec 15} {s : State}

theorem exec_loop_illegal (hfull : s.st.loopRoom = false) : exec (.loop a l) s = .next (s.takeTrap 0x01 0 0 0) := if_pos hfull

theorem exec_ploop_illegal (h : s.st.loopRoom = false ∨ (l.toNat + 1) % (st.toNat + 1) ≠ 0) :
    exec (.ploop a st l) s = .next (s.takeTrap 0x01 0 0 0) := if_pos h

section
variable (hroom : s.st.loopRoom = true)
include hroom

theorem exec_loop_skips (hzero : s.x a = 0) :
    exec (.loop a l) s = .next { s with st := s.st.skipBody (s.st.pc + 4 + l.setWidth 64 * 4) } :=
  (if_neg (by simp [hroom])).trans (if_pos hzero)

theorem exec_loop_enters (hne : s.x a ≠ 0) : exec (.loop a l) s =
    .next { s with st := s.st.enterBody ⟨s.st.pc + 4, s.st.pc + 4 + l.setWidth 64 * 4, (s.x a).toNat, 0, 0, 0⟩ s.st.sp } :=
  (if_neg (by simp [hroom])).trans (if_neg hne)

variable (hbody : (l.toNat + 1) % (st.toNat + 1) = 0)
include hbody

theorem exec_ploop_skips (hzero : s.x a = 0) :
    exec (.ploop a st l) s = .next { s with st := s.st.skipBody (s.st.pc + 4 + l.setWidth 64 * 4) } :=
  (if_neg (by simp [hroom, hbody])).trans (if_pos hzero)

theorem exec_ploop_enters (hne : s.x a ≠ 0) : exec (.ploop a st l) s =
    .next { s with st := s.st.enterBody ⟨s.st.pc + 4, s.st.pc + 4 + l.setWidth 64 * 4, 0, st.toNat + 1, (s.x a).toNat, 0⟩ 1 } := by
  have htrips : 0 < (s.x a).toNat := Nat.pos_of_ne_zero fun h => hne ((toNat_eq_zero_iff _).mp h)
  rw [← stagePred_first st.toNat.succ_pos htrips]
  exact (if_neg (by simp [hroom, hbody])).trans (if_neg hne)

end

end

/-! ### `sbr` (R117) -/

/-- The address registers of a strip move nothing of the state but scalar registers. -/
theorem sbrAddrs_eq (a : BitVec 5) (z : BitVec 8) (w g n : Nat) : ∀ (i : Nat) (s : State),
    sbrAddrs a z w g n i s = { s with st := { s.st with xr := (sbrAddrs a z w g n i s).st.xr } } := by
  induction n with
  | zero => exact fun i s => rfl
  | succ n ih =>
    intro i s
    rw [sbrAddrs, ih, setX_eq]

/-- A register that is none of those advanced stays. -/
theorem x_sbrAddrs_other (a : BitVec 5) (z : BitVec 8) (w g : Nat) (r : BitVec 5) (n : Nat) : ∀ (i : Nat) (s : State),
    (∀ j, i ≤ j → j < i + n → r ≠ a + .ofNat 5 j) → (sbrAddrs a z w g n i s).x r = s.x r := by
  induction n with
  | zero => exact fun i s _ => rfl
  | succ n ih =>
    intro i s hr
    rw [sbrAddrs, ih _ _ fun j hj hlt => hr j (by omega) (by omega), x_setX_ne _ _ _ _ (hr i le_rfl (by omega))]

/-- Different numbers below 32 name different registers from a base on. -/
theorem reg_add_ne (a : BitVec 5) {i j : Nat} (hi : i < 32) (hj : j < 32) (hne : i ≠ j) : a + BitVec.ofNat 5 i ≠ a + BitVec.ofNat 5 j := by
  rw [ne_eq, BitVec.add_right_inj, ← BitVec.toNat_inj, BitVec.toNat_ofNat, BitVec.toNat_ofNat]
  omega

/-- Each address register advances by the amount of its own size code. -/
theorem x_sbrAddrs (a : BitVec 5) (z : BitVec 8) (w g n : Nat) : ∀ (i : Nat) (s : State) (j : Nat), i ≤ j → j < i + n → i + n ≤ 32 →
    a + .ofNat 5 j ≠ 0 →
    (sbrAddrs a z w g n i s).x (a + .ofNat 5 j) = s.x (a + .ofNat 5 j) + .ofNat 64 (sbrAdv (z.toNat / 4 ^ j % 4) w g) := by
  induction n with
  | zero => exact fun i s j hij hj => absurd hj (by omega)
  | succ n ih =>
    intro i s j hij hj hn hreg
    rw [sbrAddrs]
    rcases hij.eq_or_lt with rfl | hlt
    · rw [x_sbrAddrs_other _ _ _ _ _ _ _ _ fun k hk hkn => reg_add_ne a (by omega) (by omega) (by omega), x_setX _ _ _ hreg]
    · rw [ih (i + 1) _ j hlt (by omega) (by omega) hreg, x_setX_ne _ _ _ _ (reg_add_ne a (by omega) (by omega) (by omega))]

/-- The operands that the encoding allows name registers in order, the counter none of them (R117). -/
theorem sbrOk_regs {c a : BitVec 5} {n : BitVec 2} {z : BitVec 8} (h : sbrOk c a n z = true) :
    a.toNat + n.toNat ≤ 31 ∧ ¬(a.toNat ≤ c.toNat ∧ c.toNat ≤ a.toNat + n.toNat) := by
  simp only [sbrOk, Bool.and_eq_true, decide_eq_true_eq, Bool.not_eq_true', Bool.and_eq_false_iff, decide_eq_false_iff_not] at h
  omega

/-- A register outside a run of registers is none of them. -/
theorem reg_ne_of_outside {a r : BitVec 5} {n : BitVec 2} (hrun : a.toNat + n.toNat ≤ 31)
    (hr : ¬(a.toNat ≤ r.toNat ∧ r.toNat ≤ a.toNat + n.toNat)) {j : Nat} (hj : j < 0 + (n.toNat + 1)) : r ≠ a + .ofNat 5 j := by
  rintro rfl
  rw [BitVec.toNat_add, BitVec.toNat_ofNat] at hr
  omega

/-- The state whose acting strand has stepped its strip: the grant taken off the counter, the addresses advanced. -/
def State.stripped (s : State) (c a : BitVec 5) (n : BitVec 2) (z : BitVec 8) : State :=
  sbrAddrs a z s.st.gw s.st.grant (n.toNat + 1) 0 (s.setX c (s.x c - .ofNat 64 s.st.grant))

theorem exec_sbr (o : BitVec 3) (c a : BitVec 5) (n : BitVec 2) (z : BitVec 8) (p : BitVec 5) (s : State) :
    exec (.sbr o c a n z p) s = if 0 < ((s.stripped c a n z).x c).toInt
      then .next (s.transfer (s.stripped c a n z) (s.st.pc - 4 * ((o ++ p).setWidth 64 + 1))) else .next (s.stripped c a n z).advance :=
  if_congr (P := (0 : Word).slt ((s.stripped c a n z).x c) = true) decide_eq_true_iff rfl rfl

section
variable {c a : BitVec 5} {n : BitVec 2} {z : BitVec 8} (s : State) (hok : sbrOk c a n z = true)

/-- Stepping a strip moves nothing of the state but scalar registers. -/
theorem stripped_eq : s.stripped c a n z = { s with st := { s.st with xr := (s.stripped c a n z).st.xr } } := by
  rw [State.stripped, sbrAddrs_eq, setX_eq]

include hok

theorem stripped_counter (hc : c ≠ 0) : (s.stripped c a n z).x c = s.x c - .ofNat 64 s.st.grant := by
  obtain ⟨hrun, hout⟩ := sbrOk_regs hok
  rw [State.stripped, x_sbrAddrs_other _ _ _ _ _ _ _ _ fun j _ hj => reg_ne_of_outside hrun hout hj, x_setX _ _ _ hc]

theorem stripped_address {i : Nat} (hi : i ≤ n.toNat) (hreg : a + .ofNat 5 i ≠ 0) :
    (s.stripped c a n z).x (a + .ofNat 5 i) = s.x (a + .ofNat 5 i) + .ofNat 64 (sbrAdv (z.toNat / 4 ^ i % 4) s.st.gw s.st.grant) := by
  obtain ⟨hrun, hout⟩ := sbrOk_regs hok
  rw [State.stripped, x_sbrAddrs _ _ _ _ _ _ _ _ (Nat.zero_le i) (by omega) (by omega) hreg,
    x_setX_ne _ _ _ _ (reg_ne_of_outside hrun hout (by omega)).symm]

theorem stripped_other {r : BitVec 5} (hrc : r ≠ c) (hr : ¬(a.toNat ≤ r.toNat ∧ r.toNat ≤ a.toNat + n.toNat)) :
    (s.stripped c a n z).x r = s.x r := by
  obtain ⟨hrun, -⟩ := sbrOk_regs hok
  rw [State.stripped, x_sbrAddrs_other _ _ _ _ _ _ _ _ fun j _ hj => reg_ne_of_outside hrun hr hj, x_setX_ne _ _ _ _ hrc]

end

/-- Settles O16: a loop is refused, skipped or entered, and a strip is stepped before its branch. -/
theorem loopsAndStripMining : Obligations.LoopsAndStripMining := by
  unfold Obligations.LoopsAndStripMining
  refine ⟨fun a st l s => ?loops, fun o c a n z p s hok => ?strip⟩
  case loops =>
    dsimp only
    simp only [← loopRoom_iff, Bool.not_eq_true]
    exact ⟨exec_loop_enters, exec_loop_skips, fun hroom hne hbody => exec_ploop_enters hroom hbody hne,
      fun hroom hzero hbody => exec_ploop_skips hroom hbody hzero,
      fun hfull => ⟨exec_loop_illegal hfull, exec_ploop_illegal (.inl hfull)⟩, fun hbody => exec_ploop_illegal (.inr hbody),
      fun x sp => ⟨rfl, rfl, rfl, rfl, rfl⟩, rfl, rfl, rfl, rfl, rfl⟩
  case strip =>
    intro g back
    refine ⟨(s.stripped c a n z).st.xr, ?_⟩
    rw [← stripped_eq s]
    refine ⟨stripped_counter s hok, fun i hi hreg => ?address, fun r => stripped_other s hok, fun hpos hgo => ?back, fun hdone => ?next⟩
    case address =>
      rw [stripped_address s hok hi hreg]
      rfl
    case back =>
      have hlevel : (s.stripped c a n z).atResident = s.atResident := by rw [stripped_eq]; rfl
      rw [exec_sbr, if_pos hpos, transfer_goTo s _ back hgo hlevel]
    case next => rw [exec_sbr, if_neg (not_lt.mpr hdone)]

end Sys2Proof.Machine

/-! SUPPORT. Scalar accesses whatever they cross (R118, R119, R121), and the landing of shadowed loads (R82, R120). -/

namespace Sys2Proof.Machine

/-- A loop whose every round leaves the state as it was leaves it so. -/
theorem run_forIn_same {α : Type} {f : α → PUnit → M (ForInStep PUnit)} (s : State) :
    ∀ l : List α, (∀ x ∈ l, (f x ⟨⟩).run s = .ok (.yield ⟨⟩, s)) → (forIn l PUnit.unit f).run s = .ok (⟨⟩, s)
  | [], _ => rfl
  | x :: r, h => by
    rw [List.forIn_cons, run_bind, h x List.mem_cons_self]
    exact run_forIn_same s r fun y hy => h y (List.mem_cons_of_mem x hy)

/-! ### Loads that complete (R118, R120, R121) -/

section
variable {d a : BitVec 5} {z : BitVec 3} {o : BitVec 12} {s : State}

/-- A load whose parts answer raises their flags and delivers their value. -/
theorem exec_ld_parts {u : State} {v : Nat} {f : BitVec 8} (hgate : s.st.kind = .cc → s.core.engHolds 2 = false)
    (hload : (loadParts (lineParts (s.x a + o.signExtend 64) (ldSize z))).run s = .ok ((v, f), u)) (hcalm : u.calm f)
    (hnow : ¬(s.st.kind ≠ .cc ∧ s.spadEmpty (s.x a + o.signExtend 64) (ldSize z) = true)) :
    exec (.ld d a z o) s = .next ((u.flagged f).advanceValue d (ldExtend z v)) := by
  refine deliver_ok s _ _ ?_
  simp only [run_bind, run_engGate_free 2 s hgate, hnow, if_false, hload, run_raiseFlags_calm f u hcalm, run_modify]

/-- An X-hart's access, and one of the window, reach the scratchpad and cache nothing (R119). -/
theorem run_scalarTr_window {va : Word} (h : s.st.kind = .execute ∨ inWindow va = true) : (scalarTr nLoad va).run s = .ok (.ofSpad va, s) := by
  simp only [scalarTr, run_bind, run_get]
  split
  next => rfl
  next hk => exact run_translateAt_window _ _ _ _ _ (h.resolve_left hk) rfl

/-- A hart's load from an empty scratchpad line goes into its shadow unread. -/
theorem exec_ld_late (hkind : s.st.kind = .execute ∨
      (s.st.kind = .access ∧ ∀ p ∈ lineParts (s.x a + o.signExtend 64) (ldSize z), inWindow p.1 = true))
    (hempty : s.spadEmpty (s.x a + o.signExtend 64) (ldSize z) = true) :
    exec (.ld d a z o) s = .next (s.advanceLoad d (.late (s.x a + o.signExtend 64) z)) := by
  have hhart : s.st.kind ≠ .cc := by
    rcases hkind with h | ⟨h, -⟩ <;> rw [h] <;> decide
  have hgate : s.st.kind = .cc → s.core.engHolds 2 = false := fun h => absurd h hhart
  have hparts (p : Word × Nat) (hp : p ∈ lineParts (s.x a + o.signExtend 64) (ldSize z)) :
      (scalarTr nLoad p.1).run s = .ok (.ofSpad p.1, s) := run_scalarTr_window (hkind.imp_right fun h => h.2 p hp)
  refine deliver_ok s _ _ ?_
  simp only [run_bind, run_engGate_free 2 s hgate, hempty, hhart, ne_eq, not_false_eq_true, and_self, if_true]
  rw [run_forIn_same s _ fun p hp => by simp only [run_bind, hparts p hp, run_pure]]
  rfl

end

/-! ### Loads in their shadow (R82, R120) -/

section
variable {s : State} {p : PendLoad} {r : List PendLoad}

theorem run_loadValue_value {v : Word} (hsrc : p.src = .value v) (s : State) : (loadValue p).run s = .ok (v, s) := by
  simp only [loadValue, hsrc, run_pure]

theorem run_loadValue_empty {va : Word} {z : BitVec 3} (hsrc : p.src = .late va z) (hempty : s.spadEmpty va (ldSize z) = true) :
    (loadValue p).run s = .error .wait := by
  simp only [loadValue, hsrc, run_bind, run_get, hempty, if_true, run_stop]

theorem run_loadValue_read {va : Word} {z : BitVec 3} {v : Nat} {f : BitVec 8} {u : State} (hsrc : p.src = .late va z)
    (hfull : s.spadEmpty va (ldSize z) = false) (hload : (loadParts (lineParts va (ldSize z))).run s = .ok ((v, f), u)) (hcalm : u.calm f) :
    (loadValue p).run s = .ok (ldExtend z v, u.flagged f) := by
  simp only [loadValue, hsrc, run_bind, run_get, hfull, Bool.false_eq_true, if_false, run_pure, hload, run_raiseFlags_calm f u hcalm]

/-- A due load at the head of the shadow that can be read writes its destination. -/
theorem readPending_lands {v : Word} {t : State} (hleft : p.left = 0)
    (hvalue : (loadValue p).run { s with st := { s.st with pend := r } } = .ok (v, t)) :
    s.readPending [] p r = .next { t with st := { t.st.setX p.dst v with waiting := false } } := by
  unfold State.readPending
  simp only [List.nil_append, hvalue, hleft, and_self, if_true]

theorem readPending_waits (hvalue : (loadValue p).run { s with st := { s.st with pend := r } } = .error .wait) :
    s.readPending [] p r = .next { s with st := { s.st with waiting := true } } := by
  unfold State.readPending
  simp only [List.nil_append, hvalue]

variable (hpend : s.st.pend = p :: r) (hleft : p.left = 0) (hrun : s.st.run = .running)
include hpend hleft hrun

/-- The first load of the shadow is taken once it is due and its line is full. -/
theorem exec_pendingLoadWrite_due (hfull : s.loadEmpty p = false) : exec .pendingLoadWrite s = s.readPending [] p r := by
  change execPendingLoadWrite s = _
  simp only [execPendingLoadWrite, hpend, hrun, ne_eq, not_true_eq_false, if_false, hleft, hfull, and_self, if_true]

/-- While no load can be read, the due one is tried, and waits. -/
theorem exec_pendingLoadWrite_none_ready (hempty : s.loadEmpty p = true) (hnone : s.st.pend.any s.loadReady = false) :
    exec .pendingLoadWrite s = s.readPending [] p r := by
  have hdrop : (p :: r).dropWhile (fun q => !s.loadReady q) = [] := by
    rw [List.dropWhile_eq_nil_iff]
    intro q hq
    rw [hpend] at hnone
    simpa using List.any_eq_false.mp hnone q hq
  change execPendingLoadWrite s = _
  simp only [execPendingLoadWrite, hpend, hrun, ne_eq, not_true_eq_false, if_false, hleft, hempty, Bool.true_eq_false, and_false,
    List.span_eq_takeWhile_dropWhile, hdrop, if_true]

end

/-- A scalar register written beside the shadow. -/
theorem setX_with_pend (t : Strand) (l : List PendLoad) (d : BitVec 5) (v : Word) :
    ({ t with pend := l } : Strand).setX d v = { t.setX d v with pend := l } := by
  unfold Strand.setX
  split <;> rfl

/-- Settles O18: an access by what its parts answer, and a shadowed load by where its data comes from. -/
theorem scalarAccess : Obligations.ScalarAccess := by
  unfold Obligations.ScalarAccess
  refine ⟨fun d a z y o s u v f => ⟨exec_st_stored, exec_ld_parts, exec_ld_late⟩,
    fun s p r hpend hleft hrun => ⟨fun v hsrc => ?value, fun va z hsrc hempty hnone => ?empty, fun va z v f u hsrc hfull hload hcalm => ?read⟩⟩
  case value =>
    have hfull : s.loadEmpty p = false := by rw [State.loadEmpty, hsrc]
    rw [exec_pendingLoadWrite_due hpend hleft hrun hfull, readPending_lands hleft (run_loadValue_value hsrc _)]
    dsimp only
    rw [setX_with_pend]
  case empty =>
    have hempty' : s.loadEmpty p = true := by rw [State.loadEmpty, hsrc]; exact hempty
    rw [exec_pendingLoadWrite_none_ready hpend hleft hrun hempty' hnone,
      readPending_waits (s := s) (r := r) (run_loadValue_empty hsrc hempty)]
  case read =>
    have hfull' : s.loadEmpty p = false := by rw [State.loadEmpty, hsrc]; exact hfull
    rw [exec_pendingLoadWrite_due hpend hleft hrun hfull',
      readPending_lands (s := s) (r := r) hleft (run_loadValue_read hsrc hfull hload hcalm)]
    rfl

end Sys2Proof.Machine

/-! SUPPORT. Fences (R126, R257, R260, Table 13.2), hints (R128) and prefetches (R122, R377). -/

namespace Sys2Proof.Machine

/-! ### Fences -/

/-- The state that a fence completes in: its far-copy actions done, and on the CC the blocks that later accesses wait for noted (R257). -/
def State.fenced (s : State) (scope : Nat) (k : BitVec 3) : State :=
  let t := s.fenceFar scope (k.getLsbD 2) (k.getLsbD 1)
  if k.getLsbD 0 && s.st.kind == .cc then
    { t with core := { t.core with engKinds := t.core.engKinds ||| k.extractLsb' 1 2, engAhead := t.core.cmdq.map List.length } } else t

theorem exec_fence (sc k : BitVec 3) (s : State) :
    exec (.fence sc k) s = if (k.getLsbD 2 && s.st.unread) || s.fenceWaits sc.toNat (k.getLsbD 2) (k.getLsbD 1)
      then .next s.await else .next (s.fenced sc.toNat k).advance := rfl

theorem fenceFar_near {scope : Nat} (h : scope < 3) (s : State) (ld st : Bool) : s.fenceFar scope ld st = s := if_pos h

/-- From device scope on, `ld` gives up every far copy that no lazy set holds. -/
theorem fenceFar_ld {scope : Nat} (h : 3 ≤ scope) (s : State) (st : Bool) :
    s.fenceFar scope true st = s.flushFar (fun f => !s.core.inLazy f) true := if_neg (not_lt.mpr h)

/-- From device scope on, `st` alone writes them back. -/
theorem fenceFar_st {scope : Nat} (h : 3 ≤ scope) (s : State) :
    s.fenceFar scope false true = s.flushFar (fun f => !s.core.inLazy f) false := if_neg (not_lt.mpr h)

theorem fenceFar_frame (s : State) (scope : Nat) (ld st : Bool) :
    ∃ d far, s.fenceFar scope ld st = { s with dev := d, core := { s.core with far := far } } := by
  unfold State.fenceFar
  split_ifs
  · exact ⟨_, _, rfl⟩
  · exact flushFar_frame ..
  · exact flushFar_frame ..
  · exact ⟨_, _, rfl⟩

/-- A fence notes for the CC no more than which accesses wait for how many blocks. -/
theorem fenced_frame (s : State) (scope : Nat) (k : BitVec 3) : ∃ kinds ahead,
    s.fenced scope k = { s.fenceFar scope (k.getLsbD 2) (k.getLsbD 1) with
      core := { (s.fenceFar scope (k.getLsbD 2) (k.getLsbD 1)).core with engKinds := kinds, engAhead := ahead } } := by
  unfold State.fenced
  dsimp only
  split
  · exact ⟨_, _, rfl⟩
  · exact ⟨_, _, rfl⟩

/-- A far copy that is kept when others are dropped is one that was not named. -/
theorem flushFar_drop_kept {s : State} {p : FarCopy → Bool} {f : FarCopy} (h : f ∈ (s.flushFar p true).core.far) : p f = false := by
  rw [flushFar_drops, List.mem_filter] at h
  simpa using h.2

/-- A far copy after a write-back has no dirty byte, or is one that was not named. -/
theorem flushFar_keep_clean {s : State} {p : FarCopy → Bool} {f : FarCopy} (h : f ∈ (s.flushFar p false).core.far) :
    p f = false ∨ f.dirty = 0 := by
  obtain ⟨x, -, rfl⟩ := List.mem_map.mp (h : f ∈ s.core.far.map fun f => if p f then { f with dirty := 0, dte := false } else f)
  by_cases hx : p x = true
  · rw [if_pos hx]
    exact .inr rfl
  · rw [if_neg hx]
    exact .inl (Bool.eq_false_iff.mpr hx)

/-! ### Prefetches (R122, R377) -/

/-- A page marked accessed without a sample: a change of the device alone. -/
theorem touch_unsampled_frame (s : State) (tr : Tr) : ∃ d, s.touch tr false = { s with dev := d } := by
  simp only [State.touch, Bool.false_and, Bool.false_eq_true, if_false]
  split_ifs
  · exact ⟨_, rfl⟩
  · exact ⟨_, rfl⟩
  · exact ⟨_, rfl⟩

theorem prefetch_frame (s : State) (va : Word) : ∃ d, s.prefetch va = { s with dev := d } := by
  unfold State.prefetch
  split
  · split
    · exact ⟨_, rfl⟩
    · exact touch_unsampled_frame ..
  · exact ⟨_, rfl⟩

theorem prefetch_untranslated {s : State} {va : Word} {f : Flt} (h : s.dev.translate s.via nLoad va = .error f) : s.prefetch va = s := by
  rw [State.prefetch, h]

theorem exec_dpf_prefetches {a : BitVec 5} {i : BitVec 15} {s : State} (h : s.st.kind ≠ .execute) :
    exec (.dpf a i) s = .next (s.prefetch (s.x a + i.signExtend 64)).advance :=
  congrArg (fun t : State => Host.Outcome.next t.advance) (if_neg h)

theorem exec_dpf_execute {a : BitVec 5} {i : BitVec 15} {s : State} (h : s.st.kind = .execute) :
    exec (.dpf a i) s = .next s.advance :=
  congrArg (fun t : State => Host.Outcome.next t.advance) (if_pos h)

/-- Settles O19: a fence by its far-copy actions, a prefetch by the access bit it may set. -/
theorem fencesHintsAndPrefetches : Obligations.FencesHintsAndPrefetches := by
  unfold Obligations.FencesHintsAndPrefetches
  refine ⟨fun sc k s => ⟨fun hwaits => ?waits, fun hread hfree => ?completes, rfl, rfl⟩, fun a i s => ⟨?prefetch, exec_dpf_execute⟩⟩
  case waits =>
    rw [exec_fence, if_pos (by simpa using hwaits)]
  case completes =>
    obtain ⟨kinds, ahead, hfenced⟩ := fenced_frame s sc.toNat k
    obtain ⟨d, far, hfar⟩ := fenceFar_frame s sc.toNat (k.getLsbD 2) (k.getLsbD 1)
    have hgoes : ¬ ((k.getLsbD 2 && s.st.unread) || s.fenceWaits sc.toNat (k.getLsbD 2) (k.getLsbD 1)) = true := by
      rw [hfree, Bool.or_false]
      simpa using hread
    refine ⟨s.fenced sc.toNat k, by rw [exec_fence, if_neg hgoes], ?_⟩
    rw [hfenced]
    refine ⟨by rw [hfar], by rw [hfar], by rw [hfar], fun hnear => ?near, fun hscope hld f hf => ?ld, fun hscope hld hst f hf => ?st⟩
    case near => rw [fenceFar_near hnear]; exact ⟨rfl, rfl⟩
    case ld =>
      rw [hld, fenceFar_ld hscope] at hf
      simpa using flushFar_drop_kept hf
    case st =>
      rw [hld, hst, fenceFar_st hscope] at hf
      simpa using flushFar_keep_clean hf
  case prefetch =>
    obtain ⟨d, hd⟩ := prefetch_frame s (s.x a + i.signExtend 64)
    exact ⟨s.prefetch (s.x a + i.signExtend 64), by rw [hd], by rw [hd], by rw [hd], rfl, exec_dpf_prefetches, fun f => prefetch_untranslated⟩

end Sys2Proof.Machine

/-! SUPPORT. The branch-outcome queues (R125) and the gang barrier (R127). -/

namespace Sys2Proof.Machine

/-! ### Branch-outcome queues (R125) -/

section
variable {a : BitVec 5} {o : BitVec 15} {s : State}

section
variable {n : Nat} {p : Strand} (hpartner : s.st.partner = some n) (hp : s.strandAt n = some p)
include hpartner hp

theorem exec_bqPush_room (hroom : p.bqIn.length < 16) :
    exec (.bqPush a) s = .next (s.updStrandAt n fun p => { p with bqIn := p.bqIn ++ [s.x a != 0] }).advance := by
  refine deliver_ok s _ _ ?_
  simp only [hpartner, hp, run_bind, if_neg (not_le.mpr hroom), run_modify, run_advanceM]

theorem exec_bqPush_full (hfull : 16 ≤ p.bqIn.length) : exec (.bqPush a) s = .next s.await := by
  refine deliver_wait s _ ?_
  simp only [hpartner, hp, run_bind, if_pos hfull, run_stop]

end

/-- The CC has no partner. -/
theorem exec_bqPush_cc (hkind : s.st.kind = .cc) : exec (.bqPush a) s = .next (s.takeTrap 0x01 0 0 0) := by
  have hnone : s.st.partner = none := by rw [Strand.partner, hkind]
  refine deliver_trap s _ _ _ _ _ ?_
  simp only [hnone, run_raiseTrap]
  rfl

theorem exec_bqBr_cc (hkind : s.st.kind = .cc) : exec (.bqBr o) s = .next (s.takeTrap 0x01 0 0 0) := by
  refine deliver_trap s _ _ _ _ _ ?_
  simp only [run_bind, if_pos hkind, run_raiseTrap]
  rfl

theorem exec_bqBr_empty (hkind : s.st.kind ≠ .cc) (hnone : s.st.bqIn = []) : exec (.bqBr o) s = .next s.await := by
  refine deliver_wait s _ ?_
  simp only [if_neg hkind, hnone, run_stop]

/-- `bq.br` takes the oldest bit and branches on it. -/
theorem exec_bqBr_takes {b : Bool} {r : List Bool} (hkind : s.st.kind ≠ .cc) (hbits : s.st.bqIn = b :: r) :
    exec (.bqBr o) s = .next (if b then s.transfer { s with st := { s.st with bqIn := r } } (s.st.pc + o.signExtend 64 * 4)
      else ({ s with st := { s.st with bqIn := r } } : State).advance) := by
  refine deliver_ok s _ _ ?_
  simp only [if_neg hkind, hbits, run_set]

end

/-! ### The gang barrier (R127) -/

section
variable {s : State} {g : Gang} (hg : s.core.gang = some g) (huser : s.atResident = false)
include hg huser

/-- A strand with a load still to be read waits at the barrier before it arrives (R120). -/
theorem exec_bar_unread (hunread : s.st.unread = true) : exec .bar s = .next s.await := by
  change execBar s = _
  simp only [execBar, hg, huser, hunread, Bool.false_eq_true, if_false, if_true]

variable (hread : s.st.unread = false)
include hread

theorem exec_bar_over (hold : s.st.arrived.getD g.barGen < g.barGen) :
    exec .bar s = .next ({ s with st := { s.st with arrived := none } } : State).advance := by
  change execBar s = _
  simp only [execBar, hg, huser, hread, Bool.false_eq_true, if_false, if_pos hold]

/-- A strand whose generation is not over notes its arrival, and goes on where it is the last. -/
theorem exec_bar_arrives {gen : Nat} (hgen : s.st.arrived.getD g.barGen = gen) (hnow : g.barGen ≤ gen) :
    exec .bar s = if State.allArrived { s with st := { s.st with arrived := some gen } } gen
      then .next (State.advance { s with
        st := { s.st with arrived := none }, core := { s.core with gang := some { g with barGen := gen + 1 } } })
      else .next (State.await { s with st := { s.st with arrived := some gen } }) := by
  change execBar s = _
  simp only [execBar, hg, huser, hread, Bool.false_eq_true, if_false, hgen, if_neg (not_lt.mpr hnow)]

end

/-- Settles O21: each instruction by the case that its queue, or the barrier's generation, is in. -/
theorem branchOutcomesAndBarrier : Obligations.BranchOutcomesAndBarrier := by
  unfold Obligations.BranchOutcomesAndBarrier
  refine ⟨fun a o s => ⟨fun n p hpartner hp _ => exec_bqPush_room hpartner hp, fun n p => exec_bqPush_full,
    fun b r hkind hbits hgo => ?takes, exec_bqBr_empty, fun hkind => ⟨exec_bqPush_cc hkind, exec_bqBr_cc hkind⟩⟩,
    fun s g hg huser => ⟨exec_bar_unread hg huser, exec_bar_over hg huser, fun hread hnow hwaits => ?waits, fun hread hnow hlast => ?last⟩⟩
  case takes =>
    intro t
    rw [exec_bqBr_takes hkind hbits, transfer_goTo s t _ hgo rfl]
  case waits => rw [exec_bar_arrives hg huser hread rfl hnow, if_neg (Bool.eq_false_iff.mp hwaits)]
  case last => rw [exec_bar_arrives hg huser hread rfl hnow, if_pos hlast]

end Sys2Proof.Machine

/-! SUPPORT. Masks as destinations (R142, R156): the bits of a mask below the grant replaced. -/

namespace Sys2Proof.Machine

/-- Bits packed into a number read as they were given, and as zeros above them. -/
theorem testBit_packed (bits : Nat → Bool) (g e : Nat) :
    ((List.range g).foldr (fun e acc => 2 * acc + (bits e).toNat) 0).testBit e = (decide (e < g) && bits e) := by
  have hbit (e : Nat) : (bits e).toNat = if bits e = true then 1 else 0 := by
    cases bits e <;> rfl
  have h := testBit_foldr_bits (fun e => bits e = true) g 0 e
  simpa only [hbit, ← List.range_eq_range', Nat.zero_add, Bool.decide_eq_true] using h

theorem getLsbD_maskWith (old : BitVec 24576) (g : Nat) (bits : Nat → Bool) (e : Nat) :
    (maskWith old g bits).getLsbD e = (decide (e < 24576) && if e < g then bits e else old.getLsbD e) := by
  have hlow : (List.range g).foldr (fun e acc => 2 * acc + (bits e).toNat) 0 < 2 ^ g := by
    refine Nat.lt_pow_two_of_testBit _ fun e he => ?_
    rw [testBit_packed, decide_eq_false (Nat.not_lt.mpr he), Bool.false_and]
  rw [maskWith, BitVec.getLsbD_ofNat, Nat.mul_comm, Nat.testBit_two_pow_mul_add _ hlow, testBit_packed]
  refine congrArg (decide (e < 24576) && ·) ?_
  split
  next h => rw [decide_eq_true h, Bool.true_and]
  next h => rw [Nat.testBit_div_two_pow, Nat.sub_add_cancel (Nat.not_lt.mp h)]; rfl

/-- A mask reads as written below the grant; the others, and all of m0, stay (R142, Table 00.3). -/
theorem maskBit_putMask (t : Strand) (m n : BitVec 3) (e : Nat) (bits : Nat → Bool) : (t.putMask m bits).maskBit n e =
    if n = 0 then true else if n = m ∧ e < t.grant ∧ e < 24576 then bits e else t.maskBit n e := by
  by_cases hn : n = 0
  · rw [if_pos hn, hn]
    rfl
  rw [if_neg hn]
  have hbit (u : Strand) : u.maskBit n e = (u.mask[n.toNat]'n.isLt).getLsbD e := by
    rw [Strand.maskBit, beq_false_of_ne hn, Bool.false_or]
  rw [hbit, hbit, Strand.putMask, Strand.setMask]
  by_cases hm : m = 0
  · rw [if_pos hm, if_neg fun h => hn (h.1.trans hm)]
  rw [if_neg hm]
  by_cases hnm : n = m
  · subst hnm
    rw [Vector.getElem_set_self, getLsbD_maskWith]
    by_cases he : e < 24576
    · simp only [he, decide_true, Bool.true_and, true_and, and_true]
    · rw [if_neg fun h : n = n ∧ _ => he h.2.2, decide_eq_false he, Bool.false_and, BitVec.getLsbD_of_ge _ _ (Nat.not_lt.mp he)]
  · rw [Vector.getElem_set_ne _ _ fun h => hnm (BitVec.eq_of_toNat_eq h.symm), if_neg fun h => hnm h.1]

theorem putMask_withFlags (t : Strand) (m : BitVec 3) (bits : Nat → Bool) (f : BitVec 8) :
    ({ t with flags := f } : Strand).putMask m bits = { t.putMask m bits with flags := f } := by
  unfold Strand.putMask Strand.setMask
  split <;> rfl

/-- A compare that passes its checks and raises no trap writes its bits (R44, R142). -/
theorem run_compareOp {m : BitVec 3} {a b : BitVec 5} {test : Val → Val → Bool} {s : State} {regs : List VReg} {p : Prick} (hg : s.st.grant ≠ 0)
    (hissue : (issueCompare a b).run s = .ok ((regs, p), s)) (hcalm : s.calm (compareAcc m test s regs p).flags) :
    (compareOp m a b test).run s = .ok ((), ({ s with
      st := { s.st.putMask m (fun e => (compareAcc m test s regs p).codes.reverse.getD e 0 != 0) with
        flags := s.st.flags ||| (compareAcc m test s regs p).flags, seed := (compareAcc m test s regs p).seed } } : State).advance) := by
  simp only [compareOp, run_bind, hissue, run_get, hg, if_false, run_raiseFlags_calm _ s hcalm, run_modify, run_advanceM, State.flagged,
    putMask_withFlags]

/-- The issue checks of a compare pass where its registers are free, have room and are not RAW, and the table allows the pair (R54, R77,
R89). -/
theorem run_issueCompare {a b : BitVec 5} {s : State} {regs : List VReg} {p : Prick} (hregs : regs = [s.vreg a, s.vreg b])
    (hp : p = s.core.prick (regs.map (·.fmt))) (hk : s.st.kind = .execute) (hg : s.st.grant ≠ 0) (ha : s.readable a) (hb : s.readable b)
    (hclass : ∀ r ∈ regs, r.holds (s.fmt r.fmt) s.st.grant = true ∧ r.rawBelow (s.fmt r.fmt) s.st.grant = false)
    (hpair : p.al = true ∨ p.trp = false) : (issueCompare a b).run s = .ok ((regs, p), s) := by
  have hallowed : (!p.al && p.trp) = false := by
    rw [Bool.and_eq_false_iff, Bool.not_eq_false']
    exact hpair
  have hread : ([a, b].mapM readReg).run s = .ok (regs, s) := hregs ▸ run_mapM_readReg s hk [a, b] (by simp [ha, hb])
  have hwide : (regs.any fun r => !r.holds (s.fmt r.fmt) s.st.grant) = false := by
    simpa using fun r hr => (hclass r hr).1
  have hraw : (regs.any fun r => r.rawBelow (s.fmt r.fmt) s.st.grant) = false := by
    simpa using fun r hr => (hclass r hr).2
  subst hp
  simp only [issueCompare, run_bind, run_get, hg, if_false, hread, hwide, hraw, hallowed, ne_eq, not_false_eq_true, if_true, Bool.false_eq_true,
    run_pure]

end Sys2Proof.Machine

/-! SUPPORT. Reductions and scans (R157 to R159, Table 08.4): the leaves with their draws, the levels of the tree, and its root. -/

namespace Sys2Proof.Machine

/-! ### The operations of Table 08.4 -/

/-- An integer as the two's-complement number of `w` bits congruent to it. -/
def wrapped (w : Nat) (n : ℤ) : Val := .ofInt ((n + 2 ^ (w - 1)) % 2 ^ w - 2 ^ (w - 1))

theorem wrapVal_eq {w : Nat} (hw : 0 < w) (n : ℤ) : wrapVal w n = wrapped w n := by
  obtain ⟨v, rfl⟩ : ∃ v, w = v + 1 := ⟨w - 1, by omega⟩
  have hpos : (0 : ℤ) < 2 ^ v := by positivity
  have htwo : (2 : ℤ) ^ (v + 1) = 2 * 2 ^ v := pow_succ' 2 v
  have hnat : ((2 ^ (v + 1) : Nat) : ℤ) = 2 * 2 ^ v := by push_cast; exact htwo
  have hcode : ((intCode (v + 1) n : Nat) : ℤ) = n % (2 * 2 ^ v) := by
    rw [intCode_eq, htwo, Int.toNat_of_nonneg (Int.emod_nonneg _ (by omega))]
  have hlo := Int.emod_nonneg n (show (2 * 2 ^ v : ℤ) ≠ 0 by omega)
  have hhi := Int.emod_lt_of_pos n (show (0 : ℤ) < 2 * 2 ^ v by omega)
  simp only [wrapVal, wrapped, Fmt.decode, Nat.mod_eq_of_lt (intCode_lt _ n), Nat.add_sub_cancel, htwo]
  rw [← Int.emod_add_emod]
  generalize n % (2 * 2 ^ v) = r at *
  congr 1
  by_cases h : r < 2 ^ v
  · rw [if_neg (by omega), Int.emod_eq_of_lt (by omega) (by omega)]
    omega
  · rw [if_pos (by omega), ← Int.sub_emod_right, Int.emod_eq_of_lt (by omega) (by omega)]
    omega

/-- The identity of an operation (Table 08.4). -/
def identityOf (o : Nat) (cf : Fmt) : Val :=
  if cf.kind = .float
  then (match o with | 0 => .fin true 0 0 | 1 => if cf.spc = 0 then .inf false else cf.maxVal
                     | 2 => if cf.spc = 0 then .inf true else cf.maxVal.negate | _ => .zero)
  else (match o with | 1 => .ofInt (2 ^ (cf.wid - 1) - 1) | 2 => .ofInt (-2 ^ (cf.wid - 1)) | 4 => .ofInt (-1) | _ => .zero)

/-- The operation of a node on its two values (Table 08.4). -/
def nodeOf (o : Nat) (cf : Fmt) (rm : RMode) (d : BitVec 32) (a b : Val) : Val :=
  let pat (v : Val) : Nat := (v.toInt % 2 ^ cf.wid).toNat
  if cf.kind = .float
  then (match o with | 0 => (cf.decode false (cf.convert rm d (a.add (rm == .rdn) b).1).1).1 | 1 => a.min b | _ => a.max b)
  else (match o with | 0 => wrapped cf.wid (a.toInt + b.toInt) | 1 => .ofInt (Min.min a.toInt b.toInt)
                     | 4 => wrapped cf.wid (pat a &&& pat b : Nat) | 5 => wrapped cf.wid (pat a ||| pat b : Nat)
                     | 6 => wrapped cf.wid (pat a ^^^ pat b : Nat) | _ => .ofInt (Max.max a.toInt b.toInt))

theorem redIdentity_eq (o : Nat) (cf : Fmt) : redIdentity o cf = identityOf o cf := by
  unfold redIdentity identityOf
  simp only [Fmt.hasInf, beq_iff_eq, Nat.cast_pow, Nat.cast_ofNat]
  split
  next h => exact (if_pos h).symm
  next h => exact (if_neg h).symm

theorem redNode_fst {o : Nat} {cf : Fmt} (hw : 0 < cf.wid) (rm : RMode) (d : BitVec 32) (a b : Val) :
    (redNode o cf rm d a b).1 = nodeOf o cf rm d a b := by
  unfold redNode nodeOf
  simp only [wrapVal_eq hw, intCode_eq]
  split
  next h =>
    rw [if_pos h]
    match o with
    | 0 | 1 | _ + 2 => rfl
  next h =>
    rw [if_neg h]
    match o with
    | 0 | 1 | 2 | 3 | 4 | 5 | 6 | _ + 7 => rfl

/-- The magnitude that a leaf of `.amax` is, saturated in an integer format (R140, Table 08.4). -/
theorem redLeaf_fst (o : Nat) (cf : Fmt) (v : Val) : (redLeaf o cf v).1 =
    if o ≠ 3 then v else if cf.kind = .float then v.abs else .ofInt (Min.min |v.toInt| (2 ^ (cf.wid - 1) - 1)) := by
  unfold redLeaf
  rw [apply_ite Prod.fst]
  refine if_congr Iff.rfl rfl ?_
  split
  next h => rw [if_pos h]
  next h => rw [if_neg h, ← satNv_fst, ← Int.natCast_natAbs]

/-! ### Draws (R41) -/

theorem drawn_add (rm : RMode) (seed : BitVec 32) (a b : Nat) : drawn rm (drawn rm seed a) b = drawn rm seed (a + b) := by
  unfold drawn
  split
  · rw [Nat.add_comm, Function.iterate_add_apply]
  · rfl

theorem drawn_one (rm : RMode) (seed : BitVec 32) : drawn rm seed 1 = if rm == .sr then seedStep seed else seed := by
  rw [drawn, Function.iterate_one]
  simp only [beq_iff_eq]

theorem drawn_zero (rm : RMode) (seed : BitVec 32) : drawn rm seed 0 = seed := by
  rw [drawn, Function.iterate_zero_apply, ite_self]

/-! ### The tree (R158) -/

section
variable (o : Nat) (cf : Fmt) (rm : RMode)

/-- A level of the tree: each node is the operation on its two, with the next draw. -/
theorem redLevel_eq (n : Nat) (v : Nat → Val) (seed : BitVec 32) :
    (redLevel o cf rm (rm == .sr) ((List.range (2 * n)).map v) seed).1 =
        (List.range n).map (fun j => (redNode o cf rm (drawn rm seed (j + 1)) (v (2 * j)) (v (2 * j + 1))).1) ∧
      (redLevel o cf rm (rm == .sr) ((List.range (2 * n)).map v) seed).2.1 = drawn rm seed n := by
  induction n generalizing v seed with
  | zero => exact ⟨rfl, (drawn_zero rm seed).symm⟩
  | succ n ih =>
    obtain ⟨hnodes, hseed⟩ := ih (fun j => v (j + 2)) (drawn rm seed 1)
    have hlist : (List.range (2 * (n + 1))).map v = v 0 :: v 1 :: (List.range (2 * n)).map fun j => v (j + 2) := by
      rw [Nat.mul_succ, List.range_succ_eq_map, List.range_succ_eq_map]
      simp only [List.map_cons, List.map_map]
      rfl
    rw [hlist, redLevel, ← drawn_one, List.range_succ_eq_map, List.map_cons, List.map_map]
    refine ⟨congrArg₂ List.cons rfl (hnodes.trans (List.map_congr_left fun j _ => ?_)), ?_⟩
    · rw [drawn_add, Nat.add_comm 1]
      rfl
    · rw [Nat.add_comm, ← drawn_add]
      exact hseed

/-- The root of a tree of `2 ^ h` leaves, and the draws of its nodes, level by level in ascending order. -/
theorem redTree_eq (h : Nat) (L : Nat → Nat → Val) (seed : BitVec 32)
    (hL : ∀ k j, k < h → j < 2 ^ (h - k - 1) →
      L (k + 1) j = (redNode o cf rm (drawn rm seed (2 ^ h - 2 ^ (h - k) + j + 1)) (L k (2 * j)) (L k (2 * j + 1))).1) :
    (redTree o cf rm (rm == .sr) h ((List.range (2 ^ h)).map (L 0)) seed).1 = L h 0 ∧
      (redTree o cf rm (rm == .sr) h ((List.range (2 ^ h)).map (L 0)) seed).2.1 = drawn rm seed (2 ^ h - 1) := by
  induction h generalizing L seed with
  | zero => exact ⟨rfl, (drawn_zero rm seed).symm⟩
  | succ h ih =>
    have hdouble : 2 ^ (h + 1) = 2 * 2 ^ h := Nat.pow_succ'
    obtain ⟨hnodes, hseed⟩ := redLevel_eq o cf rm (2 ^ h) (L 0) seed
    have hlevel : (redLevel o cf rm (rm == .sr) ((List.range (2 * 2 ^ h)).map (L 0)) seed).1 = (List.range (2 ^ h)).map (L 1) := by
      refine hnodes.trans (List.map_congr_left fun j hj => ?_)
      rw [hL 0 j (Nat.succ_pos h) (List.mem_range.mp hj), Nat.sub_zero, Nat.sub_self, Nat.zero_add]
    have hrest := ih (fun k => L (k + 1)) (drawn rm seed (2 ^ h)) fun k j hk hj => by
      have hle : 2 ^ (h - k) ≤ 2 ^ h := Nat.pow_le_pow_right two_pos (Nat.sub_le h k)
      have hlater := hL (k + 1) j (by omega) (by rwa [Nat.add_sub_add_right])
      rw [Nat.add_sub_add_right] at hlater
      rw [hlater, drawn_add, show 2 ^ h + (2 ^ h - 2 ^ (h - k) + j + 1) = 2 ^ (h + 1) - 2 ^ (h - k) + j + 1 by omega]
    have hdraws : 2 ^ h + (2 ^ h - 1) = 2 ^ (h + 1) - 1 := by
      have := Nat.two_pow_pos h
      omega
    rw [drawn_add, hdraws] at hrest
    rw [hdouble] at hrest ⊢
    exact ⟨(congrArg₂ (fun vs x => (redTree o cf rm (rm == .sr) h vs x).1) hlevel hseed).trans hrest.1,
      (congrArg₂ (fun vs x => (redTree o cf rm (rm == .sr) h vs x).2.1) hlevel hseed).trans hrest.2⟩

/-- The tree of a grant has the fewest levels that hold it (R158). -/
theorem treeLevels_eq {g h : Nat} (hle : g ≤ 2 ^ h) (hleast : h = 0 ∨ 2 ^ (h - 1) < g) : treeLevels g = h := by
  rw [treeLevels]
  rcases hleast with rfl | hlt
  · rw [if_pos (by simpa using hle)]
  · have hpos := Nat.two_pow_pos (h - 1)
    have hh : h ≠ 0 := by
      rintro rfl
      omega
    rw [if_neg (by omega), (Nat.log2_eq_iff (by omega)).mpr ⟨Nat.le_sub_one_of_lt hlt, ?_⟩, Nat.sub_add_cancel (Nat.pos_of_ne_zero hh)]
    rw [Nat.sub_add_cancel (Nat.pos_of_ne_zero hh)]
    omega

/-- Leaves in order, with identities up to the width of the tree. -/
theorem padLeaves_eq {g n h : Nat} (hg : treeLevels g = h) (hn : n ≤ 2 ^ h) (v : Nat → Val) :
    padLeaves o cf g ((List.range n).map v) = (List.range (2 ^ h)).map fun q => if q < n then v q else identityOf o cf := by
  rw [padLeaves, hg, redIdentity_eq, List.length_map, List.length_range]
  obtain ⟨m, hm⟩ := Nat.exists_eq_add_of_le hn
  rw [hm, Nat.add_sub_cancel_left, List.range_add, List.map_append, List.map_map]
  refine congrArg₂ (· ++ ·) (List.map_congr_left fun q hq => (if_pos (List.mem_range.mp hq)).symm) ?_
  refine (List.eq_replicate_iff.mpr ⟨by simp, fun x hx => ?_⟩).symm
  obtain ⟨q, -, rfl⟩ := List.mem_map.mp hx
  exact if_neg (Nat.not_lt.mpr (Nat.le_add_right n q))

end

/-! ### Leaves (R157, R158) -/

/-- One leaf more: an active element's, with its draw, or the identity. -/
def leafStep (o : Nat) (cf : Fmt) (t : Strand) (draws : Bool) (x : Nat → BitVec 32 → Val × BitVec 8) (acc : List Val × BitVec 32 × BitVec 8)
    (e : Nat) : List Val × BitVec 32 × BitVec 8 :=
  if t.active e then
    let seed := if draws then seedStep acc.2.1 else acc.2.1
    let v := redLeaf o cf (x e seed).1
    (v.1 :: acc.1, seed, acc.2.2 ||| (x e seed).2 ||| v.2)
  else (redIdentity o cf :: acc.1, acc.2)

/-- The leaves of the first `k` elements, last first. -/
def leavesTo (o : Nat) (cf : Fmt) (t : Strand) (draws : Bool) (x : Nat → BitVec 32 → Val × BitVec 8) (k : Nat) : List Val × BitVec 32 × BitVec 8 :=
  (List.range k).foldl (leafStep o cf t draws x) ([], t.seed, 0)

section
variable (o : Nat) (cf : Fmt) (t : Strand) (rm : RMode) (x : Nat → BitVec 32 → Val × BitVec 8)

theorem redLeaves_eq (draws : Bool) : redLeaves o cf t draws x =
    ((leavesTo o cf t draws x t.grant).1.reverse, (leavesTo o cf t draws x t.grant).2) := rfl

/-- The leaf of an element: an active one with its own draw, the identity for another (R158). -/
def leafAt (e : Nat) : Val :=
  if t.active e then (redLeaf o cf (x e (drawn rm t.seed (t.activeBelow (e + 1)))).1).1 else identityOf o cf

theorem leavesTo_eq (k : Nat) : (leavesTo o cf t (rm == .sr) x k).1.reverse = (List.range k).map (leafAt o cf t rm x) ∧
    (leavesTo o cf t (rm == .sr) x k).2.1 = drawn rm t.seed (t.activeBelow k) := by
  induction k with
  | zero => exact ⟨rfl, (drawn_zero rm t.seed).symm⟩
  | succ k ih =>
    obtain ⟨hleaves, hseed⟩ := ih
    have hstep : leavesTo o cf t (rm == .sr) x (k + 1) = leafStep o cf t (rm == .sr) x (leavesTo o cf t (rm == .sr) x k) k := by
      rw [leavesTo, List.range_succ, List.foldl_append]
      rfl
    rw [hstep, leafStep, List.range_succ, List.map_append, List.map_singleton, ← hleaves, leafAt]
    by_cases hact : t.active k = true
    · rw [if_pos hact, if_pos hact, ← drawn_one, hseed, drawn_add, activeBelow_succ_of_active t k hact]
      exact ⟨List.reverse_cons, rfl⟩
    · rw [if_neg hact, if_neg hact, activeBelow_succ_of_inactive t k (Bool.eq_false_iff.mpr hact), redIdentity_eq]
      exact ⟨List.reverse_cons, hseed⟩

theorem redLeaves_fst : (redLeaves o cf t (rm == .sr) x).1 = (List.range t.grant).map (leafAt o cf t rm x) := (leavesTo_eq ..).1

theorem redLeaves_seed : (redLeaves o cf t (rm == .sr) x).2.1 = drawn rm t.seed (t.activeBelow t.grant) := (leavesTo_eq ..).2

end

/-! ### Reductions (R157, R158) -/

section
variable (o : Nat) (s : State) (src : VReg) (p : Prick)

/-- The leaves of a reduction or scan with the generator after them. -/
def sourceLeaves : List Val × BitVec 32 × BitVec 8 :=
  redLeaves o (s.fmt p.cf) s.st (s.st.mode == .sr) fun e seed => src.operand (s.fmt src.fmt) (s.fmt p.cf) (p.rule != 2) s.st.mode seed e

/-- The leaf of an active element: its value in the compute format, or its magnitude (R131, Table 08.4). -/
def sourceLeaf (e : Nat) : Val :=
  let cf := s.fmt p.cf
  let F := s.fmt src.fmt
  let sg := src.seg (e / perSeg F.wid)
  let v := if sg.side.cls = cUNW then Val.zero else (F.decode (cf.kind != .float) (sg.bits F.wid (e % perSeg F.wid))).1
  let v := if sg.side.scl = 255 then Val.nan else if p.rule = 2 then v else applyScale sg.side.scl v
  let v := (cf.decode (cf.kind != .float) (cf.convert s.st.mode (drawn s.st.mode s.st.seed (s.st.activeBelow (e + 1))) v).1).1
  if o ≠ 3 then v else if cf.kind = .float then v.abs else .ofInt (Min.min |v.toInt| (2 ^ (cf.wid - 1) - 1))

theorem sourceLeaves_fst : (sourceLeaves o s src p).1 =
    (List.range s.st.grant).map fun e => if s.st.active e then sourceLeaf o s src p e else identityOf o (s.fmt p.cf) := by
  refine (redLeaves_fst ..).trans (List.map_congr_left fun e _ => if_congr Iff.rfl ?_ rfl)
  have hscaled (c : BitVec 8) (v : Val) : (if (p.rule != 2) = true then applyScale c v else v) = if p.rule = 2 then v else applyScale c v := by
    by_cases h : p.rule = 2 <;> simp [h]
  have hvalue := operand_fst (e := e) (src, s.fmt src.fmt) (s.fmt p.cf) (p.rule != 2) s.st.mode (drawn s.st.mode s.st.seed (s.st.activeBelow (e + 1)))
  dsimp only [scaledOperand] at hvalue
  rw [redLeaf_fst, hvalue, hscaled]
  rfl

/-- The tree of a reduction: its root with the generator after it. -/
def reduction : Val × BitVec 32 × BitVec 8 :=
  redTree o (s.fmt p.cf) s.st.mode (s.st.mode == .sr) (treeLevels s.st.grant)
    (padLeaves o (s.fmt p.cf) s.st.grant (sourceLeaves o s src p).1) (sourceLeaves o s src p).2.1

theorem redAcc_seed : (redAcc o s src p).seed = (reduction o s src p).2.1 := by
  unfold redAcc
  dsimp only
  split <;> rfl

/-- The code of a root, or the NaN of R55 where the pair computes nothing (log 51). -/
def reducedCode (v : Val) : Nat :=
  if p.al = true then ((s.fmt p.cf).convert .rtz 0 v).1
  else if (s.fmt p.cf).kind = .float then ((s.fmt p.cf).convert .rne 0 .nan).1 else 0

theorem redAcc_codes : (redAcc o s src p).codes.reverse =
    reducedCode s p (reduction o s src p).1 :: List.replicate (s.st.grant - 1) 0 := by
  unfold redAcc reducedCode
  dsimp only
  split
  all_goals
    rw [List.reverse_append, List.reverse_singleton, List.reverse_replicate, List.singleton_append]
  · rfl
  · rw [nanFor_fst]

/-- Every element but the first becomes 0 (R158). -/
theorem redAcc_codes_zero {e : Nat} (hpos : 0 < e) (he : e < s.st.grant) : (redAcc o s src p).codes.reverse[e]? = some 0 := by
  obtain ⟨e, rfl⟩ : ∃ k, e = k + 1 := ⟨e - 1, by omega⟩
  rw [redAcc_codes, List.getElem?_cons_succ, List.getElem?_replicate_of_lt (by omega)]

variable {h : Nat} (hle : s.st.grant ≤ 2 ^ h) (hleast : h = 0 ∨ 2 ^ (h - 1) < s.st.grant) (hw : 0 < (s.fmt p.cf).wid) (L : Nat → Nat → Val)
include hle hleast hw

/-- The tree of a reduction has the active elements and identities for leaves, and draws for its nodes after its leaves (R41, R158). -/
theorem reduction_eq
    (hleaves : ∀ e, e < 2 ^ h → L 0 e = if e < s.st.grant ∧ s.st.active e = true then sourceLeaf o s src p e else identityOf o (s.fmt p.cf))
    (hnodes : ∀ k j, k < h → j < 2 ^ (h - k - 1) → L (k + 1) j = nodeOf o (s.fmt p.cf) s.st.mode
      (drawn s.st.mode s.st.seed (s.st.activeBelow s.st.grant + (2 ^ h - 2 ^ (h - k)) + j + 1)) (L k (2 * j)) (L k (2 * j + 1))) :
    (reduction o s src p).1 = L h 0 ∧
      (reduction o s src p).2.1 = drawn s.st.mode s.st.seed (s.st.activeBelow s.st.grant + (2 ^ h - 1)) := by
  have hlevels := treeLevels_eq hle hleast
  have hlist : padLeaves o (s.fmt p.cf) s.st.grant (sourceLeaves o s src p).1 = (List.range (2 ^ h)).map (L 0) := by
    rw [sourceLeaves_fst, padLeaves_eq o _ hlevels hle]
    refine List.map_congr_left fun e he => ?_
    rw [hleaves e (List.mem_range.mp he), ite_and]
  have htree := redTree_eq o (s.fmt p.cf) s.st.mode h L (sourceLeaves o s src p).2.1 fun k j hk hj => by
    rw [hnodes k j hk hj, redNode_fst hw, sourceLeaves, redLeaves_seed, drawn_add, Nat.add_assoc, Nat.add_assoc, Nat.add_assoc]
  rw [reduction, hlevels, hlist, ← drawn_add, ← redLeaves_seed]
  exact htree

/-- The tree of a scan at an element has the elements up to it for leaves, and no draws for its nodes (R159). -/
theorem scan_tree_eq {e : Nat} (he : e < s.st.grant) {rm : RMode} (hrm : (rm == .sr) = false)
    (hleaves : ∀ q, q < 2 ^ h → L 0 q = if q ≤ e ∧ s.st.active q = true then sourceLeaf o s src p q else identityOf o (s.fmt p.cf))
    (hnodes : ∀ k j, k < h → j < 2 ^ (h - k - 1) → L (k + 1) j = nodeOf o (s.fmt p.cf) rm 0 (L k (2 * j)) (L k (2 * j + 1))) :
    (redTree o (s.fmt p.cf) rm false (treeLevels s.st.grant)
      (padLeaves o (s.fmt p.cf) s.st.grant ((sourceLeaves o s src p).1.take (e + 1))) 0).1 = L h 0 := by
  have hlevels := treeLevels_eq hle hleast
  have hlist : padLeaves o (s.fmt p.cf) s.st.grant ((sourceLeaves o s src p).1.take (e + 1)) = (List.range (2 ^ h)).map (L 0) := by
    rw [sourceLeaves_fst, ← List.map_take, List.take_range, min_eq_left (Nat.succ_le_of_lt he), padLeaves_eq o _ hlevels (he.trans_le hle)]
    refine List.map_congr_left fun q hq => ?_
    simp only [hleaves q (List.mem_range.mp hq), ite_and, Nat.lt_succ_iff]
  have hdraw (n : Nat) : drawn rm 0 n = 0 := if_neg fun h => by simp [h] at hrm
  have htree := redTree_eq o (s.fmt p.cf) rm h L 0 fun k j hk hj => by
    rw [hnodes k j hk hj, redNode_fst hw, hdraw]
  rw [hlevels, hlist, ← hrm]
  exact htree.1

end

/-! ### Scans (R159) -/

section
variable (d : BitVec 5) (o : Nat) (s : State) (src : VReg) (p : Prick)

/-- The rounding of a scan's nodes. -/
def scanMode (rm : RMode) : RMode := if rm = .sr then .rne else rm

theorem scanMode_draws (rm : RMode) : (scanMode rm == .sr) = false := by
  cases rm <;> rfl

/-- An active element of a scan is the root of its tree (R159). -/
theorem scanAcc_code {e : Nat} (he : e < s.st.grant) (hact : s.st.active e = true) : (scanAcc d o s src p).codes.reverse[e]? =
    some (reducedCode s p (redTree o (s.fmt p.cf) (scanMode s.st.mode) false (treeLevels s.st.grant)
      (padLeaves o (s.fmt p.cf) s.st.grant ((sourceLeaves o s src p).1.take (e + 1))) 0).1) := by
  have hmode : (if s.st.mode == .sr then RMode.rne else s.st.mode) = scanMode s.st.mode := if_congr beq_iff_eq rfl rfl
  refine (elements_code s.st _ _ .rne he hact).trans (congrArg some ?_)
  dsimp only
  rw [hmode, reducedCode, ← nanFor_fst]
  split <;> rfl

end

/-! ### Issue and completion (R44, R54, R77, R89) -/

section
variable {d a : BitVec 5} {o : Nat} {s : State}

/-- A reduction or scan that passes its checks, can be written and raises no trap is written. -/
theorem deliver_reduced {src : VReg} {p : Prick} {merging : Bool} (acc : State → VReg → Prick → Acc) (hg : s.st.grant ≠ 0)
    (hissue : (issueRed d a o merging).run s = .ok ((src, p), s)) (hbad : (acc s src p).bad = false) (hcalm : s.calm (acc s src p).flags) :
    deliver s (do
      let (src, p) ← issueRed d a o merging
      let s ← get
      if s.st.grant = 0 then advanceM else commitV d p.cf (acc s src p) fun _ => mkSide p.cf 127 false cVAL) =
      .next (s.written d p.cf (acc s src p) fun _ => mkSide p.cf 127 false cVAL) := by
  refine deliver_ok _ _ _ ?_
  simp only [run_bind, hissue, run_get, hg, if_false, run_commitV _ _ _ _ _ hbad hcalm]

/-- The issue checks pass where the registers are free and have room, the source is not RAW, the table allows the source and the compute
format has the operation; a scan judges what its merge keeps too. -/
theorem run_issueRed {p : Prick} (hp : p = s.core.prick [(s.vreg a).fmt]) (hk : s.st.kind = .execute) (hg : s.st.grant ≠ 0)
    (ha : s.readable a) (hd : s.writable d) (hroom : (s.vreg a).holds (s.fmt (s.vreg a).fmt) s.st.grant = true)
    (hraw : (s.vreg a).rawBelow (s.fmt (s.vreg a).fmt) s.st.grant = false) (hold : (s.vreg d).holds (s.fmt p.cf) s.st.grant = true)
    (hpair : p.al = true ∨ p.trp = false) (hop : (s.fmt p.cf).kind ≠ .float ∨ o < 4) (merging : Bool)
    (hmerge : merging = true → s.st.keptBeyond (s.vreg d) (s.fmt (s.vreg d).fmt) = false ∧ s.st.rawKept (s.vreg d) (s.fmt (s.vreg d).fmt) = false) :
    (issueRed d a o merging).run s = .ok ((s.vreg a, p), s) := by
  have hallowed : ((!p.al && p.trp) || ((s.fmt p.cf).kind == .float && decide (4 ≤ o))) = false := by
    rw [Bool.or_eq_false_iff, Bool.and_eq_false_iff, Bool.and_eq_false_iff, Bool.not_eq_false', beq_eq_false_iff_ne, decide_eq_false_iff_not,
      not_le]
    exact ⟨hpair, hop⟩
  subst hp
  cases merging with
  | false =>
    simp only [issueRed, run_bind, run_get, hg, if_false, run_readReg s a hk ha, run_claimReg s d hk hd, Bool.false_eq_true, ne_eq,
      not_false_eq_true, if_true, hroom, hold, hraw, Bool.not_true, Bool.or_self, hallowed, run_pure]
  | true =>
    obtain ⟨hkept, hrawKept⟩ := hmerge rfl
    have hclass := run_widthAndClass [s.vreg a] (s.vreg d) (s.core.prick [(s.vreg a).fmt]).cf s (by simpa using hroom) (by simpa using hraw) hold
      hkept hrawKept
    simp only [issueRed, run_bind, run_get, hg, if_false, run_readReg s a hk ha, run_claimReg s d hk hd, if_true, hclass, hallowed,
      Bool.false_eq_true, run_pure]

end

/-- Settles O29: a compare by the bits of its mask, a reduction and a scan by the tree of their leaves. -/
theorem comparesReductionsAndScans : Obligations.ComparesReductionsAndScans := by
  unfold Obligations.ComparesReductionsAndScans
  refine ⟨fun m c a b x y s regs p hg hissue => ?compares, fun d a x o s src p hg => ?reductions, fun a b s => ?compareChecks, fun d a o s => ?checks⟩
  case compares =>
    exact ⟨fun hcalm => deliver_ok _ _ _ (run_compareOp hg hissue hcalm), fun hcalm => deliver_ok _ _ _ (run_compareOp hg hissue hcalm),
      maskBit_putMask s.st m⟩
  case reductions =>
    refine ⟨deliver_reduced (redAcc o.toNat) hg, deliver_reduced (scanAcc d o.toNat) hg, ?trees, redAcc_codes_length _ s src p hg,
      fun e => redAcc_codes_zero _ s src p⟩
    case trees =>
      intro cf F toInt g rm total top wrap pat identity node leaf h L hle hleast hwid _
      have hw : 0 < cf.wid := by omega
      refine ⟨fun hleaves hnodes => ?_, fun e he hact hleaves hnodes => ?_⟩
      · obtain ⟨hroot, hseed⟩ := reduction_eq o.toNat s src p hle hleast hw L hleaves hnodes
        rw [redAcc_seed, redAcc_codes, hroot]
        exact ⟨hseed, rfl⟩
      · rw [scanAcc_code d _ s src p he hact, scan_tree_eq o.toNat s src p hle hleast hw L he (scanMode_draws rm) hleaves hnodes]
        rfl
  case compareChecks =>
    intro regs p hk hg ha hb hregs hpair
    exact run_issueCompare rfl rfl hk hg ha hb hregs hpair
  case checks =>
    intro src old p hk hg ha hd hroom hraw hold hpair hop
    exact ⟨run_issueRed rfl hk hg ha hd hroom hraw hold hpair hop false nofun,
      fun hkept hrawKept => run_issueRed rfl hk hg ha hd hroom hraw hold hpair hop true fun _ => ⟨hkept, hrawKept⟩⟩

end Sys2Proof.Machine

/-! SUPPORT. Code-moving instructions (R153 to R155, Table 08.2): their issue checks, the element that each position takes, and the register
they write. -/

namespace Sys2Proof.Machine

/-! ### Issue checks (R54, R77, R154, R180) -/

section
variable {s : State} (hk : s.st.kind = .execute) (hg : s.st.grant ≠ 0) {d : BitVec 5} (hd : s.writable d)
include hk hg hd

/-- Sources of one format with room for the grant, and a destination with room at that format, are all that a move asks for. -/
theorem run_issueMove {v : BitVec 5} {r : List (BitVec 5)} {fi : BitVec 4} (hfi : (s.vreg v).fmt = fi)
    (hsrcs : ∀ x ∈ v :: r, s.readable x ∧ (s.vreg x).fmt = fi ∧ (s.vreg x).holds (s.fmt fi) s.st.grant = true)
    (hroom : (s.vreg d).holds (s.fmt fi) s.st.grant = true) : (issueMove d (v :: r)).run s = .ok (((v :: r).map s.vreg, s.vreg d), s) := by
  have hread := run_mapM_readReg s hk (v :: r) fun x hx => (hsrcs x hx).1
  have hformat : ((v :: r).map s.vreg).any (·.fmt != fi) = false := by
    simpa using fun x hx => (hsrcs x (List.mem_cons.mpr hx)).2.1
  have hwide : ((v :: r).map s.vreg).any (fun x => !x.holds (s.fmt x.fmt) s.st.grant) = false := by
    refine List.any_eq_false.mpr fun y hy => ?_
    obtain ⟨x, hx, rfl⟩ := List.mem_map.mp hy
    obtain ⟨-, hxf, hxroom⟩ := hsrcs x hx
    rw [hxf, hxroom]
    decide
  rw [List.map_cons] at hread hformat hwide ⊢
  simp only [issueMove, run_bind, run_get, hg, if_false, hread, run_claimReg s d hk hd, hwide, hfi, hroom, hformat, Bool.not_true, Bool.or_self,
    Bool.and_false, Bool.false_eq_true, run_pure]

/-- `vperm` asks for room in every register and for integer indexes that are not RAW. -/
theorem run_issuePerm {a b : BitVec 5} (ha : s.readable a) (hb : s.readable b) (hint : (s.fmt (s.vreg b).fmt).kind = .int)
    (hroomB : (s.vreg b).holds (s.fmt (s.vreg b).fmt) s.st.grant = true) (hraw : (s.vreg b).rawBelow (s.fmt (s.vreg b).fmt) s.st.grant = false)
    (hroomA : (s.vreg a).holds (s.fmt (s.vreg a).fmt) s.st.grant = true) (hroomD : (s.vreg d).holds (s.fmt (s.vreg a).fmt) s.st.grant = true) :
    (issuePerm d a b).run s = .ok ((s.vreg b, s.vreg a, s.vreg d), s) := by
  have hkind : ((s.fmt (s.vreg b).fmt).kind != .int) = false := by
    rw [hint]
    rfl
  simp only [issuePerm, run_bind, run_get, hg, if_false, run_readReg s b hk hb, run_readReg s a hk ha, run_claimReg s d hk hd, hroomB, hroomA,
    hroomD, hraw, hkind, Bool.not_true, Bool.or_self, Bool.and_false, Bool.false_eq_true, run_pure]

end

/-! ### The element of each position (Table 08.2) -/

/-- The element that the table names for position `e`, 0 where it names none. -/
def sourceAt (i : Instr) (s : State) (w : Nat) (regs : List VReg) (e : Nat) : Moved :=
  match moveSource i s e with
  | some (k, x) => srcAt regs w k x
  | none => .zero

/-- What a code-moving instruction writes at position `e`, if it writes it. -/
def tablePick (i : Instr) (s : State) (w : Nat) (regs : List VReg) (e : Nat) : Option Moved :=
  if moveWrites i s e then some (sourceAt i s w regs e) else none

section
variable {i : Instr} {s : State} {w e : Nat} {regs : List VReg}

theorem onActive_eq_tablePick {f : Strand → Nat → List VReg → Nat → Moved} (hwrites : moveWrites i s e = s.st.active e)
    (hsource : f s.st w regs e = sourceAt i s w regs e) : onActive f s.st w regs e = tablePick i s w regs e := by
  rw [onActive, tablePick, hwrites, hsource]

theorem sourceAt_eq {k x : Nat} (h : moveSource i s e = some (k, x)) : sourceAt i s w regs e = srcAt regs w k x := by
  rw [sourceAt, h]

theorem sourceAt_eq_zero (h : moveSource i s e = none) : sourceAt i s w regs e = .zero := by
  rw [sourceAt, h]

/-- A source that an entry names on a condition. -/
theorem sourceAt_ite {p : Prop} [Decidable p] {k x : Nat} (h : moveSource i s e = if p then some (k, x) else none) :
    sourceAt i s w regs e = if p then srcAt regs w k x else .zero := by
  split
  next hp => exact sourceAt_eq (h.trans (if_pos hp))
  next hp => exact sourceAt_eq_zero (h.trans (if_neg hp))

/-- A source that an entry takes from two places. -/
theorem sourceAt_either {p : Prop} [Decidable p] {k x l y : Nat} (h : moveSource i s e = if p then some (k, x) else some (l, y)) :
    sourceAt i s w regs e = if p then srcAt regs w k x else srcAt regs w l y := by
  split
  next hp => exact sourceAt_eq (h.trans (if_pos hp))
  next hp => exact sourceAt_eq (h.trans (if_neg hp))

end

/-- `vcompress` fills the first positions, as many as there are active elements. -/
theorem compress_eq_tablePick (d a : BitVec 5) (x : BitVec 1) (s : State) (w : Nat) (regs : List VReg) (e : Nat) :
    (match s.st.activeList[e]? with
      | some k => some (srcAt regs w 0 k)
      | none => none) = tablePick (.vcompress d a x) s w regs e := by
  by_cases he : e < s.st.activeList.length
  · have hwrites : moveWrites (.vcompress d a x) s e = true := decide_eq_true he
    have hsource : moveSource (.vcompress d a x) s e = some (0, s.st.activeList[e]) :=
      congrArg (fun y => some (0, y)) (List.getD_eq_getElem s.st.activeList 0 he)
    rw [tablePick, if_pos hwrites, sourceAt_eq hsource, List.getElem?_eq_getElem he]
  · have hwrites : moveWrites (.vcompress d a x) s e = false := decide_eq_false he
    rw [tablePick, hwrites, List.getElem?_eq_none (not_lt.mp he)]
    rfl

/-- Each code-moving instruction takes the elements that the table names. -/
theorem exec_moveOperands_tablePick {i : Instr} {d : BitVec 5} {srcs : List (BitVec 5)} (s : State) (h : moveOperands i = some (d, srcs)) :
    ∃ pick, exec i s = deliver s (moveOp d srcs pick) ∧ ∀ w regs, pick s.st w regs = tablePick i s w regs := by
  unfold moveOperands at h
  split at h
  case h_11 => cases h
  all_goals
    obtain ⟨rfl, rfl⟩ := h
    refine ⟨_, rfl, fun w regs => funext fun e => ?_⟩
  case h_5 => exact compress_eq_tablePick _ _ _ s w regs e
  all_goals refine onActive_eq_tablePick rfl ?_
  case h_1 => exact (sourceAt_eq rfl).symm
  case h_2 => exact (sourceAt_ite rfl).symm
  case h_3 =>
    refine (sourceAt_ite ?_).symm
    exact (ite_not _ _ _).symm.trans (if_congr not_lt rfl rfl)
  case h_4 => exact (sourceAt_ite rfl).symm
  case h_6 => exact (sourceAt_eq rfl).symm
  case h_7 =>
    rw [sourceAt_either rfl]
    rcases Nat.mod_two_eq_zero_or_one e with hmod | hmod
    · rw [hmod, if_pos rfl]
    · rw [hmod, if_neg one_ne_zero]
  case h_8 =>
    rw [sourceAt_either rfl, apply_ite (srcAt regs w 0)]
    exact if_congr (by omega) rfl rfl
  case h_9 => exact (sourceAt_either rfl).symm
  case h_10 => exact (sourceAt_eq rfl).symm

/-! ### The bits of a truth table (R153) -/

theorem testBit_lut3 (tt : BitVec 8) (n p q r k : Nat) (hk : k < n) : (lut3 tt p q r n).testBit k =
    tt.getLsbD (4 * (p.testBit k).toNat + 2 * (q.testBit k).toNat + (r.testBit k).toNat) := by
  induction n generalizing p q r k with
  | zero => omega
  | succ n ih =>
    have hlow (x : Nat) : (x.testBit 0).toNat = x % 2 := by
      rw [Nat.toNat_testBit, pow_zero, Nat.div_one]
    rw [lut3]
    cases k with
    | zero =>
      rw [hlow, hlow, hlow, Nat.testBit_zero, Nat.add_mul_mod_self_left]
      cases tt.getLsbD (4 * (p % 2) + 2 * (q % 2) + r % 2) <;> rfl
    | succ k =>
      have hrest (b : Bool) (m : Nat) : (b.toNat + 2 * m) / 2 = m := by
        have := b.toNat_le
        omega
      rw [Nat.testBit_succ, hrest, ih _ _ _ _ (Nat.lt_of_succ_lt_succ hk), Nat.testBit_succ, Nat.testBit_succ, Nat.testBit_succ]

/-! ### The register written (R136, R154) -/

/-- What becomes of the segments of a destination. -/
def segsMoved (s : State) (fi : BitVec 4) (old : VReg) (pick : Nat → Option Moved) (sideOf : Nat → List Moved → MovedSeg) : List MovedSeg :=
  movedSides (s.fmt fi).wid (movedElements s.st old (s.fmt fi).wid pick) sideOf

/-- The state whose register D is written with moved elements. -/
def State.moved (s : State) (d : BitVec 5) (fi : BitVec 4) (old : VReg) (pick : Nat → Option Moved)
    (sideOf : Nat → List Moved → MovedSeg) : State :=
  s.putReg d (old.writeMoved fi (s.fmt fi).wid (movedElements s.st old (s.fmt fi).wid pick) (segsMoved s fi old pick sideOf))

section
variable {s : State} {d : BitVec 5} {fi : BitVec 4} {old : VReg} {pick : Nat → Option Moved} {sideOf : Nat → List Moved → MovedSeg}

theorem run_commitMoved (hkept : keepsOld s.st pick = false ∨ old.fmt = fi) (hone : .clash ∉ segsMoved s fi old pick sideOf) :
    (commitMoved d fi old pick sideOf).run s = .ok ((), (s.moved d fi old pick sideOf).advance) := by
  have hformat : (keepsOld s.st pick && old.fmt != fi) = false := by
    rw [Bool.and_eq_false_iff, bne_eq_false_iff_eq]
    exact hkept
  have hclash : (segsMoved s fi old pick sideOf).contains .clash = false := Bool.eq_false_iff.mpr fun h => hone (List.contains_iff_mem.mp h)
  rw [segsMoved] at hclash
  simp only [commitMoved, run_bind, run_get, hformat, hclash, Bool.false_eq_true, if_false, run_modify, run_advanceM]
  rfl

/-- An old code kept in another format, or two scale codes in one segment, raise TAG_FORMAT. -/
theorem run_commitMoved_trap (h : (keepsOld s.st pick = true ∧ old.fmt ≠ fi) ∨ .clash ∈ segsMoved s fi old pick sideOf) :
    (commitMoved d fi old pick sideOf).run s = .error (.trap tTAG_FORMAT 0 0 0) := by
  by_cases hformat : (keepsOld s.st pick && old.fmt != fi) = true
  · simp only [commitMoved, run_bind, run_get, hformat, if_true, run_raiseTrap]
  have hmem : .clash ∈ segsMoved s fi old pick sideOf := h.resolve_left fun ⟨hkeep, hfmt⟩ => hformat (by
    rw [hkeep, Bool.true_and, bne_iff_ne]
    exact hfmt)
  have hclash := List.contains_iff_mem.mpr hmem
  rw [segsMoved] at hclash
  simp only [commitMoved, run_bind, run_get, hformat, hclash, Bool.false_eq_true, if_false, if_true, run_raiseTrap]

variable (hg : s.st.grant ≠ 0)
include hg

/-- A code-moving instruction whose issue checks pass is the writing of its destination. -/
theorem run_moveOp {srcs : List (BitVec 5)} {pick : Strand → Nat → List VReg → Nat → Option Moved} {r : VReg} {regs : List VReg}
    (hissue : (issueMove d srcs).run s = .ok ((r :: regs, old), s)) : (moveOp d srcs pick).run s =
      (commitMoved d r.fmt old (pick s.st (s.fmt r.fmt).wid (r :: regs)) fun _ xs => movedSide r.fmt xs).run s := by
  simp only [moveOp, run_bind, hissue, run_get, hg, if_false]

theorem exec_vperm_moved {a b : BitVec 5} {x : BitVec 1} {ix src : VReg} (hissue : (issuePerm d a b).run s = .ok ((ix, src, old), s))
    (hkept : keepsOld s.st (permPick s ix src) = false ∨ old.fmt = src.fmt)
    (hone : .clash ∉ segsMoved s src.fmt old (permPick s ix src) fun _ xs => movedSide src.fmt xs) :
    exec (.vperm d a x b) s = .next (s.moved d src.fmt old (permPick s ix src) fun _ xs => movedSide src.fmt xs).advance := by
  refine deliver_ok s _ _ ?_
  simp only [run_bind, hissue, run_get, hg, if_false, run_commitMoved hkept hone]

theorem exec_vlut3_moved {a b : BitVec 5} {x y : BitVec 1} {tt : BitVec 8} {regs : List VReg}
    (hissue : (issueMove d [a, b, s.st.fourth d]).run s = .ok ((regs, old), s)) (hfi : (regs.getD 0 (.fresh 0)).fmt = fi)
    (hkept : keepsOld s.st (lutPick tt s.st (s.fmt fi).wid regs) = false ∨ old.fmt = fi)
    (hone : .clash ∉ segsMoved s fi old (lutPick tt s.st (s.fmt fi).wid regs) (lutSide regs)) :
    exec (.vlut3 d a x b y tt) s = .next (s.moved d fi old (lutPick tt s.st (s.fmt fi).wid regs) (lutSide regs)).advance := by
  refine deliver_ok s _ _ ?_
  simp only [run_bind, hissue, run_get, hg, if_false, hfi, run_commitMoved hkept hone]

end

/-- Settles O32: each instruction by the element its position takes, written as one register. -/
theorem codeMoves : Obligations.CodeMoves := by
  unfold Obligations.CodeMoves
  refine ⟨fun i s d srcs r regs old hops hg hissue => ?moves,
    fun d a b x y tt s ix src old regs hg => ⟨exec_vperm_moved hg, fun hissue => exec_vlut3_moved hg hissue rfl, testBit_lut3 tt⟩,
    fun d v r s hk hg hsrcs hd hroom => run_issueMove hk hg hd rfl hsrcs hroom,
    fun d a b s hk hg ha hb hd hint hroomB hraw hroomA hroomD => run_issuePerm hk hg hd ha hb hint hroomB hraw hroomA hroomD⟩
  case moves =>
    obtain ⟨pick, hexec, hpick⟩ := exec_moveOperands_tablePick s hops
    have hrun := run_moveOp (pick := pick) hg hissue
    rw [hpick] at hrun
    rw [hexec]
    exact ⟨fun hkept hone => deliver_ok s _ _ (hrun.trans (run_commitMoved hkept hone)),
      fun htrap => deliver_trap s _ _ _ _ _ (hrun.trans (run_commitMoved_trap htrap))⟩

end Sys2Proof.Machine

/-! SUPPORT. Single elements of a register (R155) and the mask instructions (R156, Table 08.3). -/

namespace Sys2Proof.Machine

/-! ### `vext` and `vins` (R155) -/

section
variable {s : State} {d a b : BitVec 5} {x : BitVec 1}

theorem exec_vext_zero (hg : s.st.grant = 0) : exec (.vext d a x b) s = .next (s.setX d (.ofNat 64 (2 ^ 63))).advance := by
  refine deliver_ok s _ _ ?_
  simp only [run_bind, hg, if_true, run_pure, run_setXM, run_advanceM]

theorem exec_vext_reads (hk : s.st.kind = .execute) (hg : s.st.grant ≠ 0) (ha : s.readable a)
    (hroom : (s.vreg a).holds (s.fmt (s.vreg a).fmt) s.st.grant = true) {w : Nat} (hw : (s.fmt (s.vreg a).fmt).wid = w) :
    exec (.vext d a x b) s = .next (s.setX d (.ofNat 64 (if (s.x b).toNat < s.st.grant
      then ((s.vreg a).seg ((s.x b).toNat / perSeg w)).bits w ((s.x b).toNat % perSeg w) else 2 ^ 63))).advance := by
  refine deliver_ok s _ _ ?_
  simp only [run_bind, hg, if_false, run_readReg s a hk ha, run_get, hroom, hw, Bool.not_true, Bool.false_eq_true, run_pure, run_setXM,
    run_advanceM]

section
variable (hk : s.st.kind = .execute) (hg : s.st.grant ≠ 0) (hd : s.writable d)
  (hroom : (s.vreg d).holds (s.fmt (s.vreg d).fmt) s.st.grant = true)
include hk hg hd hroom

theorem exec_vins_writes {w : Nat} (hw : (s.fmt (s.vreg d).fmt).wid = w) (hlt : (s.x b).toNat < s.st.grant) :
    exec (.vins d a b) s = .next (s.putReg d ((s.vreg d).setSeg ((s.x b).toNat / perSeg w)
      (((s.vreg d).seg ((s.x b).toNat / perSeg w)).insert w ((s.x b).toNat % perSeg w) (s.x a).toNat))).advance := by
  refine deliver_ok s _ _ ?_
  simp only [run_bind, hg, if_false, run_claimReg s d hk hd, run_get, hroom, hw, Bool.not_true, Bool.false_eq_true, hlt, if_true, run_modify,
    run_advanceM]

/-- An element outside the grant is not written. -/
theorem exec_vins_outside (hle : s.st.grant ≤ (s.x b).toNat) : exec (.vins d a b) s = .next s.advance := by
  refine deliver_ok s _ _ ?_
  simp only [run_bind, hg, if_false, run_claimReg s d hk hd, run_get, hroom, Bool.not_true, Bool.false_eq_true, not_lt.mpr hle, run_advanceM]

end
end

/-! ### Masks (R156) -/

/-- The state with the bits of a mask below the grant replaced. -/
def State.withMask (s : State) (d : BitVec 3) (bits : Nat → Bool) : State := { s with st := s.st.putMask d bits }

theorem withMask_frame (s : State) (d : BitVec 3) (bits : Nat → Bool) :
    s.withMask d bits = { s with st := { s.st with mask := (s.withMask d bits).st.mask } } := by
  unfold State.withMask Strand.putMask Strand.setMask
  split <;> rfl

theorem maskBit_withMask (s : State) (d n : BitVec 3) (bits : Nat → Bool) {e : Nat} (he : e < 24576) : (s.withMask d bits).st.maskBit n e =
    if n = 0 then true else if n = d ∧ e < s.st.grant then bits e else s.st.maskBit n e := by
  simp only [State.withMask, maskBit_putMask, he, and_true]

/-- An instruction that replaces mask bits leaves all but the mask alone. -/
theorem maskOp_writes (s : State) (d : BitVec 3) (bits : Nat → Bool) : ∃ t : State, s.maskOp d bits = .next t.advance ∧
    t = { s with st := { s.st with mask := t.st.mask } } ∧ ∀ (n : BitVec 3) (e : Nat), e < 24576 →
      t.st.maskBit n e = if n = 0 then true else if n = d ∧ e < s.st.grant then bits e else s.st.maskBit n e :=
  ⟨s.withMask d bits, rfl, withMask_frame s d bits, fun n _ he => maskBit_withMask s d n bits he⟩

section
variable {s : State} {x : BitVec 5} {a : BitVec 3}

theorem exec_mpopc_counts : exec (.mpopc x a) s = .next (s.setX x (.ofNat 64 ((List.range s.st.grant).countP (s.st.maskBit a)))).advance := by
  change execMpopc x a s = _
  rw [execMpopc, State.result, List.countP_eq_length_filter]

theorem exec_mfirst_none (hnone : ∀ e, e < s.st.grant → s.st.maskBit a e = false) :
    exec (.mfirst x a) s = .next (s.setX x (BitVec.allOnes 64)).advance := by
  have hfind : (List.range s.st.grant).find? (s.st.maskBit a) = none :=
    List.find?_eq_none.mpr fun e he => Bool.eq_false_iff.mp (hnone e (List.mem_range.mp he))
  change execMfirst x a s = _
  rw [execMfirst, hfind, State.result]

theorem exec_mfirst_some {e : Nat} (he : e < s.st.grant) (hset : s.st.maskBit a e = true) (hfirst : ∀ k, k < e → s.st.maskBit a k = false) :
    exec (.mfirst x a) s = .next (s.setX x (.ofNat 64 e)).advance := by
  have hfind : (List.range s.st.grant).find? (s.st.maskBit a) = some e :=
    List.find?_range_eq_some.mpr ⟨hset, List.mem_range.mpr he, fun k hk => by rw [hfirst k hk]; rfl⟩
  change execMfirst x a s = _
  rw [execMfirst, hfind, State.result]

end

/-- Settles O33: one element read or written, and masks as the bits below the grant. -/
theorem elementsAndMasks : Obligations.ElementsAndMasks := by
  unfold Obligations.ElementsAndMasks
  refine ⟨fun d a b x s hk => ⟨fun ha hg hroom => exec_vext_reads hk hg ha hroom rfl, exec_vext_zero, fun hd hg hroom =>
    ⟨exec_vins_writes hk hg hd hroom rfl, exec_vins_outside hk hg hd hroom⟩⟩, fun d a b x s => ?masks⟩
  case masks =>
    exact ⟨maskOp_writes s d _, maskOp_writes s d _, maskOp_writes s d _, maskOp_writes s d _, maskOp_writes s d _, exec_mpopc_counts,
      exec_mfirst_none, fun e => exec_mfirst_some⟩

end Sys2Proof.Machine

/-! SUPPORT. The deferral queue (R160 to R164) and the X-hart ends of the tagged queues (R165 to R167, R194 to R196; log 161). -/

namespace Sys2Proof.Machine

/-! ### Paths of the deferral queue (R161, R163) -/

/-- Entries dropped from a path are the oldest of it, and those of the other paths stay. -/
theorem dfrDrop_filter (p : BitVec 8) (k : Nat) (es : List DfrEntry) :
    (dfrDrop p k es).filter (·.path == p) = (es.filter (·.path == p)).drop k ∧
      (dfrDrop p k es).filter (·.path != p) = es.filter (·.path != p) := by
  induction es generalizing k with
  | nil => cases k <;> exact ⟨List.drop_nil.symm, rfl⟩
  | cons x r ih =>
    cases k with
    | zero => exact ⟨rfl, rfl⟩
    | succ k =>
      rw [dfrDrop]
      by_cases hpath : x.path = p
      · rw [if_pos hpath, List.filter_cons_of_pos (by simpa using hpath), List.filter_cons_of_neg (by simpa using hpath)]
        exact ih k
      · rw [if_neg hpath]
        simp only [List.filter_cons, beq_false_of_ne hpath, bne, Bool.not_false, Bool.false_eq_true, if_false, if_true]
        exact ⟨(ih (k + 1)).1, congrArg (x :: ·) (ih (k + 1)).2⟩

theorem exec_dfrCnt_counts (p : BitVec 8) (x : BitVec 5) (s : State) :
    exec (.dfrCnt p x) s = .next (s.setX x (.ofNat 64 (s.st.dfr.countP fun e => e.path == p))).advance := by
  change execDfrCnt p x s = _
  rw [execDfrCnt, State.result, Strand.dfrPath, List.countP_eq_length_filter]

/-- A test that the signature of a path fails, if it has one. -/
theorem any_dfrSigOf_eq_false {t : Strand} {p : BitVec 8} {q : List (BitVec 4) → Bool} (h : ∀ sig, t.dfrSigOf p = some sig → q sig = false) :
    (t.dfrSigOf p).any q = false := by
  cases hsig : t.dfrSigOf p with
  | none => rfl
  | some sig => exact h sig hsig

/-- Fills that raise nothing raise nothing together. -/
theorem foldl_flags_eq_zero (fills : List FillRes) (h : ∀ x ∈ fills, x.flags = 0) : fills.foldl (fun f x => f ||| x.flags) 0 = 0 := by
  induction fills with
  | nil => rfl
  | cons x r ih =>
    rw [List.forall_mem_cons] at h
    rw [List.foldl_cons, h.1]
    exact ih h.2

section
variable {s : State} (hg : s.st.grant ≠ 0) (hk : s.st.kind = .execute) {p : BitVec 8} {v : BitVec 5} {n : BitVec 2} {m : BitVec 3}
include hg hk

theorem exec_dfrPush_adds {regs : List VReg} (hregs : regs = (dfrNames v (n.toNat + 1)).map s.vreg)
    (hread : ∀ r ∈ dfrNames v (n.toNat + 1), s.readable r) (hroom : ∀ r ∈ regs, r.holds (s.fmt r.fmt) s.st.grant = true)
    (hsig : ∀ sig, s.st.dfrSigOf p = some sig → sig = regs.map (·.fmt))
    (hfits : s.st.dfr.length + (dfrEntries s p m regs).length ≤ s.core.dfrRoom) :
    exec (.dfrPush p v n m) s = .next (s.dfrAdd p (regs.map (·.fmt)) (dfrEntries s p m regs)).advance := by
  have hrun := hregs ▸ run_mapM_readReg s hk _ hread
  have hwide : (regs.any fun r => !r.holds (s.fmt r.fmt) s.st.grant) = false := by simpa using hroom
  have hsame : (s.st.dfrSigOf p).any (· != regs.map (·.fmt)) = false :=
    any_dfrSigOf_eq_false fun sig h => bne_eq_false_iff_eq.mpr (hsig sig h)
  refine deliver_ok s _ _ ?_
  simp only [run_bind, hg, if_false, hrun, run_get, hwide, hsame, Bool.false_eq_true, if_neg (not_lt.mpr hfits), run_modify, run_advanceM]

theorem exec_dfrPop_takes {ix : VReg} {olds : List VReg} {got : List DfrEntry} (hix : ix = s.vreg v)
    (holds : olds = (dfrNames (v + 1) (n.toNat + 1)).map s.vreg) (hv : s.writable v) (hnames : ∀ r ∈ dfrNames (v + 1) (n.toNat + 1), s.writable r)
    (hixRoom : ix.holds (s.fmt 11) s.st.grant = true)
    (hroom : ∀ i, i < n.toNat + 1 → (olds.getD i (.fresh 0)).holds (s.fmt (dfrFmt s p olds i)) s.st.grant = true)
    (hsig : ∀ sig, s.st.dfrSigOf p = some sig → sig.length = n.toNat + 1) (hgot : got = (s.st.dfrPath p).take s.st.grant)
    (hfill : ∀ i, i < n.toNat + 1 → (dfrFill s p olds got i).bad = none ∧ (dfrFill s p olds got i).flags = 0) :
    exec (.dfrPop p v n m) s =
      .next ((s.dfrPut p v (dfrNames (v + 1) (n.toNat + 1)) ix olds got).dfrTake p m got.length).advance := by
  have hrun := holds ▸ run_mapM_claimReg s hk _ hnames
  have hwide : ((List.range (n.toNat + 1)).any fun i => !(olds.getD i (.fresh 0)).holds (s.fmt (dfrFmt s p olds i)) s.st.grant) = false :=
    List.any_eq_false.mpr fun i hi => by rw [hroom i (List.mem_range.mp hi)]; decide
  have hcount : (s.st.dfrSigOf p).any (·.length != n.toNat + 1) = false :=
    any_dfrSigOf_eq_false fun sig h => bne_eq_false_iff_eq.mpr (hsig sig h)
  have hfills : ∀ x ∈ (List.range (n.toNat + 1)).map (dfrFill s p olds got), x.bad = none ∧ x.flags = 0 := by
    simpa using hfill
  have hwritten : (((List.range (n.toNat + 1)).map (dfrFill s p olds got)).any fun x => x.bad.isSome) = false :=
    List.any_eq_false.mpr fun x hx => by rw [(hfills x hx).1]; decide
  have hflags := foldl_flags_eq_zero _ fun x hx => (hfills x hx).2
  have hraise : (raiseFlags 0).run s = .ok ((), s) := (run_raiseFlags_calm 0 s (calm_zero s)).trans (by rw [flagged_zero])
  subst hix hgot
  refine deliver_ok s _ _ ?_
  simp only [run_bind, hg, if_false, run_claimReg s v hk hv, hrun, run_get, hixRoom, hwide, hcount, hwritten, hflags, hraise, Bool.not_true,
    Bool.or_self, Bool.false_eq_true, run_modify, run_advanceM]

end

/-! ### Binding (R194; log 161) -/

/-- The strand at one end of a queue: its producer, which pushes, or its consumer. -/
def TQueue.boundTo (x : TQueue) (push : Bool) : Option Nat := if push then x.producer else x.consumer

/-- A queue at its first push or pop by a strand, which binds it with the other strand of the pair at its other end. -/
def TQueue.claimedBy (x : TQueue) (push : Bool) (t : Strand) : TQueue :=
  if push then { x with producer := some t.slot, consumer := t.partner } else { x with consumer := some t.slot, producer := t.partner }

/-- The queue as a push or a pop of a strand finds it, bound now or before. -/
def TQueue.bound (x : TQueue) (push : Bool) (t : Strand) : TQueue := if x.boundTo push = none then x.claimedBy push t else x

theorem slots_bound (x : TQueue) (push : Bool) (t : Strand) : (x.bound push t).slots = x.slots := by
  unfold TQueue.bound TQueue.claimedBy
  cases push <;> (split <;> rfl)

theorem count_bound (x : TQueue) (push : Bool) (t : Strand) : (x.bound push t).count = x.count := by
  rw [TQueue.count, TQueue.count, slots_bound]

/-- The other end of a queue that a strand pops from. -/
theorem producer_bound_pop (x : TQueue) (t : Strand) : (x.bound false t).producer = if x.consumer = none then t.partner else x.producer :=
  apply_ite TQueue.producer (x.consumer = none) (x.claimedBy false t) x

theorem run_bindQueue {q : BitVec 3} {push : Bool} {s : State}
    (h : (s.core.queue q).boundTo push = none ∨ (s.core.queue q).boundTo push = some s.st.slot) :
    (bindQueue q push).run s = .ok ((s.core.queue q).bound push s.st, s) := by
  rw [TQueue.bound]
  rcases h with hnone | hmine
  · rw [if_pos hnone]
    rw [TQueue.boundTo] at hnone
    simp only [bindQueue, run_bind, run_get, hnone, run_pure]
    rfl
  · rw [if_neg (by rw [hmine]; exact Option.some_ne_none _)]
    rw [TQueue.boundTo] at hmine
    simp only [bindQueue, run_bind, run_get, hmine, ne_eq, not_true_eq_false, if_false, run_pure]

theorem run_bindQueue_other {q : BitVec 3} {push : Bool} {s : State} {n : Nat} (h : (s.core.queue q).boundTo push = some n) (hn : n ≠ s.st.slot) :
    (bindQueue q push).run s = .error (.trap tQUEUE_BINDING (q.setWidth 32) 0 0) := by
  rw [TQueue.boundTo] at h
  simp only [bindQueue, run_bind, run_get, h, if_pos hn, run_stop]

theorem deliver_error (s : State) (m : M Unit) {e : Stop} (h : m.run s = .error e) : deliver s m = .next (s.stopped e) := by
  simp only [deliver, settle, h]

/-! ### Pushes (R167, R195, R196) -/

theorem run_claimQueue_other {q : BitVec 3} {s : State} {k n : Nat} (h : (s.core.queue q).boundTo true = some n) (hn : n ≠ s.st.slot) :
    (claimQueue q k).run s = .error (.trap tQUEUE_BINDING (q.setWidth 32) 0 0) := by
  simp only [claimQueue, run_bind, run_bindQueue_other h hn]

section
variable {q : BitVec 3} {s : State} {x : TQueue} {n : Nat} (hbind : (bindQueue q true).run s = .ok (x, s))
include hbind

theorem run_claimQueue_room (hroom : x.slots.length + n ≤ 256) : (claimQueue q n).run s = .ok (x, s) := by
  simp only [claimQueue, run_bind, hbind, run_get, if_neg (not_lt.mpr hroom), run_pure]

section
variable (hfull : 256 < x.slots.length + n)
include hfull

/-- Without room the producer waits for its consumer. -/
theorem run_claimQueue_waits (hended : s.hasEnded x.consumer = false) : (claimQueue q n).run s = .error .wait := by
  simp only [claimQueue, run_bind, hbind, run_get, if_pos hfull, hended, Bool.false_eq_true, if_false, run_stop]

/-- Without room and without a consumer there never is any. -/
theorem run_claimQueue_short (hended : s.hasEnded x.consumer = true) :
    (claimQueue q n).run s = .error (.trap tQUEUE_SHORT (q.setWidth 32) 0 0) := by
  simp only [claimQueue, run_bind, hbind, run_get, if_pos hfull, hended, if_true, run_stop]

end
end

/-- The slots that a register makes of its elements below the grant. -/
def State.linesOf (s : State) (v : BitVec 5) : List QSlot := (s.vreg v).lines (s.fmt (s.vreg v).fmt).wid s.st.grant

section
variable {s : State} (hk : s.st.kind = .execute) (hg : s.st.grant ≠ 0) {v : BitVec 5} {q : BitVec 3} (hv : s.readable v)
  (hroom : (s.vreg v).holds (s.fmt (s.vreg v).fmt) s.st.grant = true)
include hk hg hv hroom

/-- A push that its queue stops stops so. -/
theorem exec_qpush_stops {e : Stop} (hclaim : (claimQueue q (s.linesOf v).length).run s = .error e) :
    exec (.qpush v q) s = .next (s.stopped e) := by
  refine deliver_error s _ ?_
  rw [State.linesOf] at hclaim
  simp only [run_bind, hg, if_false, run_readReg s v hk hv, run_get, hroom, Bool.not_true, Bool.false_eq_true, pushQueue, hclaim]

theorem exec_qpush_appends {x : TQueue} (hclaim : (claimQueue q (s.linesOf v).length).run s = .ok (x, s)) :
    exec (.qpush v q) s = .next (s.setQueue q { x with slots := x.slots ++ s.linesOf v }).advance := by
  refine deliver_ok s _ _ ?_
  rw [State.linesOf] at hclaim ⊢
  simp only [run_bind, hg, if_false, run_readReg s v hk hv, run_get, hroom, Bool.not_true, Bool.false_eq_true, pushQueue, hclaim, run_modify,
    run_advanceM]

end

/-! ### Pops (R166, R195, R196) -/

theorem dropElems_codes (n : Nat) (ss : List QSlot) : (dropElems n ss).flatMap (·.codes) = (ss.flatMap (·.codes)).drop n := by
  induction ss generalizing n with
  | nil => rw [dropElems, List.flatMap_nil, List.drop_nil]
  | cons x r ih =>
    rw [dropElems, List.flatMap_cons, List.drop_append]
    split
    next h => rw [ih, List.drop_of_length_le h, List.nil_append]
    next h => rw [List.flatMap_cons, Nat.sub_eq_zero_of_le (not_le.mp h).le, List.drop_zero]

theorem run_headQueue_other {q : BitVec 3} {s : State} {g n : Nat} (h : (s.core.queue q).boundTo false = some n) (hn : n ≠ s.st.slot) :
    (headQueue q g).run s = .error (.trap tQUEUE_BINDING (q.setWidth 32) 0 0) := by
  simp only [headQueue, run_bind, run_bindQueue_other h hn]

section
variable {q : BitVec 3} {s : State} {x : TQueue} {g : Nat} (hbind : (bindQueue q false).run s = .ok (x, s))
include hbind

theorem run_headQueue_there (hthere : g ≤ x.count) : (headQueue q g).run s = .ok ((x, x.elements.take g), s) := by
  simp only [headQueue, run_bind, hbind, run_get, if_neg (not_lt.mpr hthere), run_pure]

section
variable (hshort : x.count < g)
include hshort

/-- With too few elements the consumer waits while more can come. -/
theorem run_headQueue_waits (hroom : x.slots.length ≠ 256) (hended : s.hasEnded x.producer = false) :
    (headQueue q g).run s = .error .wait := by
  simp only [headQueue, run_bind, hbind, run_get, if_pos hshort, hroom, hended, decide_false, Bool.or_self, Bool.false_eq_true, if_false,
    run_stop]

/-- No more can come where every slot is taken or the producer has ended. -/
theorem run_headQueue_short (hover : x.slots.length = 256 ∨ s.hasEnded x.producer = true) :
    (headQueue q g).run s = .error (.trap tQUEUE_SHORT (q.setWidth 32) 0 0) := by
  simp only [headQueue, run_bind, hbind, run_get, if_pos hshort, Bool.or_eq_true, decide_eq_true_eq, if_pos hover, run_stop]

end
end

/-- A register written once flags are raised and a queue is changed. -/
theorem putReg_flagged_setQueue {s : State} (hk : s.st.kind = .execute) (f : BitVec 8) (q : BitVec 3) (y : TQueue) (d : BitVec 5) (r : VReg) :
    ((s.flagged f).setQueue q y).putReg d r =
      { s with st := { s.st.setReg (s.st.phys d) r with flags := s.st.flags ||| f }, core := (s.setQueue q y).core } := by
  rw [putReg_execute ((s.flagged f).setQueue q y) hk]
  exact congrArg (fun t => ({ s.setQueue q y with st := t } : State)) (setReg_withFlags s.st (s.st.phys d) r (s.st.flags ||| f))

section
variable {s : State} (hk : s.st.kind = .execute) (hg : s.st.grant ≠ 0) {d : BitVec 5} {q : BitVec 3} (hd : s.writable d)
  (hroom : (s.vreg d).holds (s.fmt (s.vreg d).fmt) s.st.grant = true)
include hk hg hd hroom

/-- A pop that its queue stops stops so. -/
theorem exec_qpop_stops {e : Stop} (hhead : (headQueue q s.st.grant).run s = .error e) : exec (.qpop d q) s = .next (s.stopped e) := by
  refine deliver_error s _ ?_
  simp only [run_bind, hg, if_false, run_claimReg s d hk hd, run_get, hroom, Bool.not_true, Bool.false_eq_true, hhead]

theorem exec_qpop_takes {x : TQueue} {els : List (Nat × Tag × Word)} {r : FillRes}
    (hhead : (headQueue q s.st.grant).run s = .ok ((x, els), s))
    (hr : r = fill s.fmt (s.vreg d).fmt s.st.decoMode s.st.seed (els.map fun y => some ⟨y.1, y.2.1.fmt, y.2.1.scl, y.2.1.cls⟩))
    (hclass : ∀ y ∈ els, y.2.1.cls ≠ cPOI ∧ y.2.1.cls ≠ cINV) (hlen : els.length = s.st.grant) (hbad : r.bad = none) (hcalm : s.calm r.flags) :
    exec (.qpop d q) s = .next (({ s with
      st := { s.st.setReg (s.st.phys d) ((s.vreg d).filled (s.vreg d).fmt (s.fmt (s.vreg d).fmt).wid r) with
                flags := s.st.flags ||| r.flags, seed := r.seed }
      core := (s.setQueue q { x with slots := dropElems s.st.grant x.slots }).core } : State).advance) := by
  have hpoison : (List.range s.st.grant).find? (fun i => (els.getD i (0, 0, 0)).2.1.cls == cPOI) = none := by
    refine List.find?_eq_none.mpr fun i hi => ?_
    have hlt : i < els.length := hlen.symm ▸ List.mem_range.mp hi
    rw [List.getD_eq_getElem els _ hlt, beq_iff_eq]
    exact (hclass _ (List.getElem_mem hlt)).1
  have hinvalid : els.find? (fun y => y.2.1.cls == cINV) = none :=
    List.find?_eq_none.mpr fun y hy => by simpa using (hclass y hy).2
  refine deliver_ok s _ _ ?_
  simp only [run_bind, hg, if_false, run_claimReg s d hk hd, run_get, hroom, Bool.not_true, Bool.false_eq_true, hhead, hpoison, hinvalid, ← hr,
    hbad, run_raiseFlags_calm _ s hcalm, run_modify, run_advanceM, putReg_flagged_setQueue hk]
  rfl

end

/-- Settles O34: the entries of a path counted, and a path of one strand in that strand alone. -/
theorem deferralCount : Obligations.DeferralCount := by
  unfold Obligations.DeferralCount
  exact ⟨exec_dfrCnt_counts, decodeOfEncode (.dfrPush 5 2 1 1) _ rfl (by decide) (.inr rfl),
    decodeOfEncode (.dfrCnt 5 5) _ rfl (by decide) (.inr rfl), fun _ _ _ _ => ⟨rfl, rfl, rfl⟩⟩

/-- Settles O35: a path by its entries in order; a queue by its binding, its room and its elements from the head on. -/
theorem deferralsAndTaggedQueues : Obligations.DeferralsAndTaggedQueues := by
  unfold Obligations.DeferralsAndTaggedQueues
  refine ⟨fun p v n m s hg hk => ⟨fun regs => exec_dfrPush_adds hg hk, fun ix olds got => exec_dfrPop_takes hg hk, dfrDrop_filter p⟩,
    fun d v q s hk hg => ⟨fun hv hroom hmine => ?pushes, fun n hbound hn hd hroom => ?popOther, fun n hbound hn hv hroom => ?pushOther,
      fun hd hroom hmine hthere => ?pops, fun hmine hd hroom hshort => ?short, dropElems_codes⟩⟩
  case pushes =>
    have hbind := run_bindQueue (push := true) hmine
    exact ⟨fun hfits => exec_qpush_appends hk hg hv hroom (run_claimQueue_room hbind hfits),
      fun hfull hended => exec_qpush_stops hk hg hv hroom (run_claimQueue_waits hbind hfull hended),
      fun hfull hended => exec_qpush_stops hk hg hv hroom (run_claimQueue_short hbind hfull hended)⟩
  case popOther => exact exec_qpop_stops hk hg hd hroom (run_headQueue_other hbound hn)
  case pushOther => exact exec_qpush_stops hk hg hv hroom (run_claimQueue_other hbound hn)
  case pops =>
    intro x els r hclass hlen hbad hcalm
    have hhead := run_headQueue_there (run_bindQueue (push := false) hmine) (hthere.trans_eq (count_bound ..).symm)
    exact exec_qpop_takes hk hg hd hroom hhead rfl hclass hlen hbad hcalm
  case short =>
    have hbind := run_bindQueue (push := false) hmine
    have hfew : ((s.core.queue q).bound false s.st).count < s.st.grant := (count_bound ..).trans_lt hshort
    intro other
    have hother : ((s.core.queue q).bound false s.st).producer = other := producer_bound_pop _ _
    refine ⟨fun hslots hended => exec_qpop_stops hk hg hd hroom (run_headQueue_waits hbind hfew ?_ ?_),
      fun hover => exec_qpop_stops hk hg hd hroom (run_headQueue_short hbind hfew ?_)⟩
    · rwa [slots_bound]
    · rwa [hother]
    · rwa [slots_bound, hother]

end Sys2Proof.Machine

/-! SUPPORT. The matrix instructions (file 09): rows, tiles and their peek views, the issue of an operation, the budget read. -/

namespace Sys2Proof.Machine

/-! ### mat.att (R168) -/

/-- A grant never shrinks by attaching. -/
theorem le_attGrant (s : State) (n : Nat) : s.st.mrows.toNat ≤ s.attGrant n := by
  simp only [State.attGrant]
  split
  · exact le_rfl
  next hless => exact le_min (not_le.mp hless).le (Nat.le_add_right ..)

theorem exec_matAtt_eq (d a : BitVec 5) (s : State) :
    exec (.matAtt d a) s = .next (({ s with st := { s.st with mrows := .ofNat 7 (s.attGrant (s.x a).toNat) } } : State).setX d
      (.ofNat 64 (s.attGrant (s.x a).toNat))).advance := rfl

/-! ### Peek views (R183) -/

theorem Strand.setTile_tile (t : Strand) (k : Nat) : t.setTile k (t.tile k) = t := by
  unfold Strand.setTile
  split
  next hk => simp [Strand.tile, hk]
  · rfl

@[simp] theorem Strand.setTile_reg (t : Strand) (k : Nat) (x : Tile) (p : Nat) : (t.setTile k x).reg p = t.reg p := by
  simp only [Strand.reg, Strand.setTile_vreg]

/-- Where no view is open, none ends. -/
theorem Strand.endPeek_of_closed {t : Strand} {k : Nat} (h : (t.tile k).peek = false) : t.endPeek k = t := by
  have hsame : { t.tile k with peek := false } = t.tile k := by rw [← h]
  simp only [Strand.endPeek, h, Bool.false_eq_true, if_false, hsame, Strand.setTile_tile]

theorem Strand.applyFirst_cons {t : Strand} {k : Nat} {o : MatOp} {r : List MatOp} (hops : (t.tile k).ops = o :: r) :
    t.applyFirst k =
      (t.retireOp k o).1.setTile k { t.tile k with ops := r, flags := (t.tile k).flags ||| (t.retireOp k o).2 } := by
  simp only [Strand.applyFirst, hops, Strand.retireOp_tile]

theorem Strand.applyFirst_tile_ops (t : Strand) {k : Nat} (hk : k < 4) : ((t.applyFirst k).tile k).ops = (t.tile k).ops.drop 1 := by
  cases hops : (t.tile k).ops with
  | nil => simp only [Strand.applyFirst, hops, List.drop_nil]
  | cons o r => rw [Strand.applyFirst_cons hops, Strand.tile_setTile_same _ hk]; rfl

theorem Strand.applyFirst_tile_done (t : Strand) {k : Nat} (hk : k < 4) : ((t.applyFirst k).tile k).done = (t.tile k).done := by
  cases hops : (t.tile k).ops with
  | nil => simp only [Strand.applyFirst, hops]
  | cons o r => rw [Strand.applyFirst_cons hops, Strand.tile_setTile_same _ hk]

theorem Strand.applyOps_tile_ops (t : Strand) {k : Nat} (hk : k < 4) (n : Nat) : ((t.applyOps k n).tile k).ops = (t.tile k).ops.drop n := by
  induction n generalizing t with
  | zero => rfl
  | succ n ih => rw [Strand.applyOps, ih, Strand.applyFirst_tile_ops t hk, List.drop_drop, Nat.add_comm]

theorem Strand.applyOps_tile_done (t : Strand) {k : Nat} (hk : k < 4) (n : Nat) : ((t.applyOps k n).tile k).done = (t.tile k).done := by
  induction n generalizing t with
  | zero => rfl
  | succ n ih => rw [Strand.applyOps, ih, Strand.applyFirst_tile_done t hk]

/-- An open view that ends puts every operation retired so far into the registers. -/
theorem Strand.endPeek_tile_of_open {t : Strand} {k : Nat} (hk : k < 4) (h : (t.tile k).peek = true) :
    (t.endPeek k).tile k = { (t.applyOps k ((t.tile k).ops.length - (t.tile k).pending)).tile k with peek := false } := by
  simp only [Strand.endPeek, h, if_true, Strand.tile_setTile_same _ hk]

/-- The end of a view changes no count of retired operations. -/
theorem Strand.endPeek_tile_done (t : Strand) {k : Nat} (hk : k < 4) : ((t.endPeek k).tile k).done = (t.tile k).done := by
  cases hpeek : (t.tile k).peek with
  | false => rw [Strand.endPeek_of_closed hpeek]
  | true => rw [Strand.endPeek_tile_of_open hk hpeek]; exact Strand.applyOps_tile_done t hk _

/-! ### tpeek (R183) -/

/-- The tile's count of retired operations is answered, whether a view was open or not. -/
theorem exec_tpeek_eq (t : BitVec 2) (a : BitVec 5) (s : State) :
    exec (.tpeek t a) s = .next (({ s with st := (s.st.endPeek t.toNat).setTile t.toNat { (s.st.endPeek t.toNat).tile t.toNat with peek := true } } :
      State).setX a (.ofNat 64 (s.st.tile t.toNat).done)).advance := by
  change execTpeek t a s = _
  rw [execTpeek, State.result, Strand.endPeek_tile_done _ t.isLt]

/-! ### mat.det (R169) -/

theorem exec_matDet_waits {s : State} (hrows : s.st.mrows ≠ 0) {k : Nat} (hk : k < 4) (hpend : (s.st.tile k).pending ≠ 0) :
    exec .matDet s = .next s.await := by
  have hany : s.st.anyPending = true := List.any_eq_true.mpr ⟨k, List.mem_range.mpr hk, bne_iff_ne.mpr hpend⟩
  refine deliver_wait s _ ?_
  simp only [run_bind, hrows, hany, ne_eq, not_false_eq_true, if_true, run_stop]

theorem exec_matDet_detached {s : State} (hrows : s.st.mrows = 0) : exec .matDet s = .next s.advance := by
  refine deliver_ok s _ _ ?_
  simp only [hrows, ne_eq, not_true_eq_false, if_false, run_advanceM]

/-- No view ends on a strand that has none open. -/
theorem foldl_endPeek_of_closed {t : Strand} (ks : List Nat) (h : ∀ k ∈ ks, (t.tile k).peek = false) :
    ks.foldl (fun u k => u.endPeek k) t = t := by
  induction ks with
  | nil => rfl
  | cons k r ih =>
    rw [List.forall_mem_cons] at h
    rw [List.foldl_cons, Strand.endPeek_of_closed h.1, ih h.2]

theorem exec_matDet_returns {s : State} (hrows : s.st.mrows ≠ 0) (hidle : ∀ k, k < 4 → (s.st.tile k).pending = 0 ∧ (s.st.tile k).peek = false) :
    exec .matDet s = .next ({ s with st := { s.st with mrows := 0 } } : State).advance := by
  have hnone : s.st.anyPending = false :=
    List.any_eq_false.mpr fun k hk => by simp [(hidle k (List.mem_range.mp hk)).1]
  have hclosed := foldl_endPeek_of_closed (List.range 4) fun k hk => (hidle k (List.mem_range.mp hk)).2
  refine deliver_ok s _ _ ?_
  simp only [run_bind, hrows, hnone, ne_eq, not_false_eq_true, if_true, Bool.false_eq_true, if_false, run_modify, hclosed, run_advanceM]

/-! ### tzero (R182) -/

/-- A register of code 0 and UNW segments in its format. -/
def VReg.zeroed (r : VReg) : VReg := ⟨r.fmt, r.segs.map fun _ => ⟨0, 0x7F2⟩⟩

/-- The strand with `n` registers zeroed from `b` on. -/
def Strand.zeroRegs (t : Strand) (b n : Nat) : Strand :=
  (List.range n).foldl (fun u i => u.setReg (b + i) (u.reg (b + i)).zeroed) t

theorem exec_tzero_eq (t : BitVec 2) (s : State) :
    exec (.tzero t) s = .next ({ s with st := (s.st.zeroRegs (8 * t.toNat) 8).setTile t.toNat .clear } : State).advance := rfl

theorem Strand.zeroRegs_eq (t : Strand) (b n : Nat) : t.zeroRegs b n = { t with vreg := (t.zeroRegs b n).vreg } := by
  refine List.foldlRecOn (motive := fun u : Strand => u = { t with vreg := u.vreg }) _ _ rfl fun u hu i _ => ?_
  rw [setReg_eq, hu]

theorem Strand.zeroRegs_succ (t : Strand) (b n : Nat) :
    t.zeroRegs b (n + 1) = (t.zeroRegs b n).setReg (b + n) ((t.zeroRegs b n).reg (b + n)).zeroed := by
  simp only [Strand.zeroRegs, List.range_succ, List.foldl_append, List.foldl_cons, List.foldl_nil]

theorem Strand.zeroRegs_reg (t : Strand) (b n : Nat) (hn : b + n ≤ 32) (p : Nat) :
    (t.zeroRegs b n).reg p = if b ≤ p ∧ p < b + n then (t.reg p).zeroed else t.reg p := by
  induction n with
  | zero => rw [if_neg (by omega)]; rfl
  | succ n ih =>
    rw [Strand.zeroRegs_succ]
    by_cases hp : p = b + n
    · subst hp
      rw [reg_setReg_same _ (by omega), ih (by omega), if_neg (by omega), if_pos (by omega)]
    · rw [reg_setReg_ne _ hp, ih (by omega)]
      exact if_congr (by omega) rfl rfl

/-! ### twait (R181, R183, R186) -/

/-- An instruction that raises flags and completes: they are kept, or one of them traps. -/
theorem deliver_raises (s : State) (f : BitVec 8) :
    (s.calm f → deliver s (do raiseFlags f; advanceM) = .next (s.flagged f).advance) ∧
    (¬ s.calm f → deliver s (do raiseFlags f; advanceM) = .next (s.takeTrap 0x08 ((f &&& s.st.tmask).setWidth 32) 0 f)) :=
  ⟨fun h => deliver_ok s _ _ (by simp only [run_bind, run_raiseFlags_calm f s h, run_advanceM]),
    fun h => deliver_trap s _ _ _ _ _ (by simp only [run_bind, run_raiseFlags_trap f s h]; rfl)⟩

/-- The state after the sequence of tile `k` ended: the tile is empty, a sequence that issued anything counts, and a sampled one owes its
entry to the basting buffer (R69, R186). -/
def State.sequenceEnded (s : State) (k : Nat) : State :=
  { s with
    st := { s.st.setTile k .clear with bcount := if (s.st.tile k).issued = 0 then s.st.bcount else s.st.bcount + 1 }
    core := if (s.st.tile k).issued ≠ 0 ∧ (s.st.tile k).sampled = true then
        { s.core with engWrites := s.core.engWrites ++
          [⟨s.core.ctxId, s.core.launchId, 0, bytesOf 24 (s.basteEntry k), 4, none, s.st.wordPc⟩] }
      else s.core }

theorem State.sequenceEnded_tmask (s : State) (k : Nat) : (s.sequenceEnded k).st.tmask = s.st.tmask := Strand.setTile_tmask ..

section
variable {t : BitVec 2} {s u : State} (hpend : (s.st.tile t.toNat).pending = 0) (hpeek : (s.st.tile t.toNat).peek = false)
include hpend hpeek

/-- With nothing pending and no view open, `twait` ends the sequence and then raises the flags it had. -/
theorem exec_twait_ends :
    exec (.twait t) s = deliver (s.sequenceEnded t.toNat) (do raiseFlags (s.st.tile t.toNat).flags; advanceM) := by
  change execTwait t s = _
  simp only [execTwait, hpend, ne_eq, not_true_eq_false, if_false, Strand.endPeek_of_closed hpeek]
  rfl

theorem exec_twait_raises (hu : s.sequenceEnded t.toNat = u) :
    (s.calm (s.st.tile t.toNat).flags → exec (.twait t) s = .next (u.flagged (s.st.tile t.toNat).flags).advance) ∧
    (¬ s.calm (s.st.tile t.toNat).flags →
      exec (.twait t) s = .next (u.takeTrap 0x08 (((s.st.tile t.toNat).flags &&& s.st.tmask).setWidth 32) 0 (s.st.tile t.toNat).flags)) := by
  have hmask : u.st.tmask = s.st.tmask := hu ▸ s.sequenceEnded_tmask t.toNat
  have hraise := deliver_raises u (s.st.tile t.toNat).flags
  rw [State.calm, hmask] at hraise
  rw [exec_twait_ends hpend hpeek, hu]
  exact hraise

end

/-- Settles O36: rows by the grant's bounds, a tile by what its view, its operations and its registers become. -/
theorem matrixRowsAndTiles : Obligations.MatrixRowsAndTiles := by
  unfold Obligations.MatrixRowsAndTiles
  refine ⟨fun d a s => ⟨exec_matAtt_eq d a s, le_attGrant s (s.x a).toNat, exec_matDet_detached, fun hrows k => exec_matDet_waits hrows,
    fun hrows hidle => ⟨s.st.tiles, fun _ _ => rfl, exec_matDet_returns hrows hidle⟩⟩,
    fun t a s => ⟨⟨_, exec_tzero_eq t s, rfl, rfl, ?xr, ?flags, Strand.tile_setTile_same _ t.isLt _, fun i hi => ?zeroed, fun p hp => ?others⟩,
      fun hpeek => ?peek, fun hpeek => ?repeek, fun k o r hk hops => ?first, fun hpend => ?waits, fun hpend hpeek hsampled hissued => ?sampled,
      fun hpend hpeek hsampled => ?unsampled⟩⟩
  case xr => rw [Strand.setTile_xr, Strand.zeroRegs_eq]
  case flags => rw [Strand.setTile_flags, Strand.zeroRegs_eq]
  case zeroed =>
    have ht := t.isLt
    rw [Strand.setTile_reg, Strand.zeroRegs_reg _ _ _ (by omega), if_pos (by omega)]
    exact ⟨rfl, rfl⟩
  case others =>
    have ht := t.isLt
    rw [Strand.setTile_reg, Strand.zeroRegs_reg _ _ _ (by omega), if_neg (by omega)]
  case peek =>
    rw [exec_tpeek_eq, Strand.endPeek_of_closed hpeek]
  case repeek =>
    have htile := Strand.endPeek_tile_of_open t.isLt hpeek
    exact ⟨exec_tpeek_eq t a s, by rw [htile], Strand.endPeek_tile_done _ t.isLt, by rw [htile]; exact Strand.applyOps_tile_ops _ t.isLt _⟩
  case first =>
    rw [Strand.applyFirst_cons hops, Strand.tile_setTile_same _ hk]
    exact ⟨Strand.setTile_vreg .., rfl, rfl⟩
  case waits =>
    change execTwait t s = _
    rw [execTwait, if_pos hpend]
  case sampled =>
    exact exec_twait_raises hpend hpeek (by simp only [State.sequenceEnded, if_neg hissued, if_pos (And.intro hissued hsampled)])
  case unsampled =>
    have hnot : ¬ ((s.st.tile t.toNat).issued ≠ 0 ∧ (s.st.tile t.toNat).sampled = true) := by simp [hsampled]
    exact exec_twait_raises hpend hpeek (by simp only [State.sequenceEnded, if_neg hnot])

/-! ### The issue of mop and mopn (R176, R177, R184) -/

section
variable {s : State} {t : BitVec 2} {a b : BitVec 5} {e : BitVec 2} {np : Option (Nat × Bool)}
  (ha : s.st.phys a / 8 ≠ t.toNat) (hb : s.st.phys b / 8 ≠ t.toNat)
include ha hb

theorem deliver_matrixOp_begins {op : MatOp} (hg : s.st.grant ≠ 0) (hissue : (issueMatrix t a b e np).run s = .ok (op, s)) :
    deliver s (matrixOp t a b e np) = .next (s.matrixBegin t.toNat e op).advance := by
  refine deliver_ok s _ _ ?_
  simp only [matrixOp, run_bind, run_get, ha, hb, or_self, if_false, hg, hissue, run_modify, run_advanceM]

/-- Under a zero grant an accepted pair is all that is asked (log 162). -/
theorem deliver_matrixOp_zero (hg : s.st.grant = 0) (hpair : (s.matrixPair np.isSome a b).ok = true) :
    deliver s (matrixOp t a b e np) = .next s.advance := by
  refine deliver_ok s _ _ ?_
  simp only [matrixOp, run_bind, run_get, ha, hb, or_self, if_false, hg, if_true, hpair, Bool.not_true, Bool.false_eq_true, run_advanceM]

end

/-- An operation begun on a tile with no view open is pending there, and no register changes before it retires. -/
theorem matrixBegin_of_closed (s : State) {k : Nat} (hk : k < 4) (e : BitVec 2) (op : MatOp) (hpeek : (s.st.tile k).peek = false) :
    ((s.matrixBegin k e op).st.tile k).ops = (s.st.tile k).ops ++ [op] ∧
      ((s.matrixBegin k e op).st.tile k).issued = (s.st.tile k).issued + 1 ∧ (s.matrixBegin k e op).st.vreg = s.st.vreg := by
  simp only [State.matrixBegin, State.setCtx_st, Strand.endPeek_of_closed hpeek, Strand.tile_setTile_same _ hk, Strand.setTile_vreg, and_self]

/-- The declared cost is debited from the context's budget. -/
theorem matrixBegin_debits {s : State} {c : Ctx} (hctx : s.dev.ctx s.core.ctxId = some c) (k : Nat) (e : BitVec 2) (op : MatOp) :
    (s.matrixBegin k e op).dev.ctx s.core.ctxId = some { c with eb := c.eb - .ofNat 32 ((op.vl + 95) / 96 * 2 ^ e.toNat) } :=
  Dev.ctx_updCtx (fun _ => rfl) hctx

/-! ### What makes a mop pass its checks (R176) -/

theorem run_readLock_open {s : State} (hk : s.st.kind = .execute) {vs : List (BitVec 5)} (hvs : ∀ v ∈ vs, s.readable v) :
    (readLock (vs.map s.st.phys)).run s = .ok ((), s) := by
  have hopen : ((vs.map s.st.phys).any fun p => !(s.st.tile (p / 8)).peek && s.st.covered p) = false := by
    refine List.any_eq_false.mpr fun p hp => ?_
    obtain ⟨v, hv, rfl⟩ := List.mem_map.mp hp
    rcases hvs v hv with h | h <;> simp [h]
  simp only [readLock, run_bind, run_get, xhart_execute s hk, hopen, Bool.false_eq_true, if_false, run_pure]

/-- A segment that a register does not have is UNW. -/
theorem VReg.seg_cls_ne_raw {r : VReg} (h : ∀ x ∈ r.segs, x.side.cls ≠ cRAW) (g : Nat) : (r.seg g).side.cls ≠ cRAW := by
  rw [VReg.seg, List.getD_eq_getElem?_getD]
  cases hseg : r.segs[g]? with
  | none => decide
  | some x => exact h x (List.mem_of_getElem? hseg)

theorem captured_length (f : Nat → Val × BitVec 8) (n : Nat) : (captured f n).1.length = n := by
  have hlist (l : List Nat) : (l.foldr (fun e (x : List Val × BitVec 8) => ((f e).1 :: x.1, x.2 ||| (f e).2)) ([], 0)).1.length = l.length := by
    induction l with
    | nil => rfl
    | cons x r ih => exact congrArg (· + 1) ih
  exact (hlist _).trans List.length_range

/-- What a `mop` of operands `a` and `b` captures (R177, R184). -/
def State.mopCaptured (s : State) (a b : BitVec 5) (e : BitVec 2) : MatOp :=
  let P := s.matrixPair false a b
  let vl := s.st.vl.toNat
  let vr := s.st.vr.toNat
  let va := captured (fun i => (s.vreg a).value (s.fmt (s.vreg a).fmt) P.int true i) (vr * P.g)
  let vb := captured (fun i => (s.vreg b).value (s.fmt (s.vreg b).fmt) P.int true i) (vl * P.g)
  ⟨vl, vr, P.g, P.int, va.1, vb.1, va.2 ||| vb.2, meterExtra vl P.g (2 ^ e.toNat) va.1 vb.1⟩

/-- A budget above 0, or no gang, and the array does not wait (R184). -/
theorem budget_allows {s : State} (h : s.core.gang = none ∨ ∃ y, s.dev.ctx s.core.ctxId = some y ∧ 0 < y.eb.toInt) :
    (s.core.gang.isSome && decide ((s.ctxField fun x => x.eb.signExtend 64).toInt ≤ 0)) = false := by
  rcases h with hnone | ⟨y, hctx, hpos⟩
  · rw [hnone]; rfl
  · rw [ctxField_of_ctx s _ y hctx, BitVec.toInt_signExtend_of_le (by decide), decide_eq_false (not_le.mpr hpos), Bool.and_false]

/-- A side of a tile segment that a float accumulator takes: unwritten, or a value of FP32 in scale 1 (R176). -/
def takesFloat (x : BitVec 4 × Sidecar) : Prop := x.2.cls = cUNW ∨ (x.2.cls = cVAL ∧ x.1 = 0 ∧ x.2.scl = 127)

theorem takesFloat.not_raw {x : BitVec 4 × Sidecar} (h : takesFloat x) : x.2.cls ≠ cRAW := by
  rcases h with h | ⟨h, -, -⟩ <;> rw [h] <;> decide

theorem takesFloat.no_mismatch {x : BitVec 4 × Sidecar} (h : takesFloat x) : (x.2.cls == cVAL && (x.1 != 0 || x.2.scl != 127)) = false := by
  rcases h with h | ⟨-, hfmt, hscl⟩
  · rw [h]; rfl
  · simp [hfmt, hscl]

/-- No operand segment and no tile segment is RAW. -/
theorem any_raw_eq_false {A B : VReg} {tiles : List (BitVec 4 × Sidecar)} (hA : ∀ x ∈ A.segs, x.side.cls ≠ cRAW)
    (hB : ∀ x ∈ B.segs, x.side.cls ≠ cRAW) (htiles : ∀ x ∈ tiles, takesFloat x) (as bs : List Nat) :
    ((as.map fun g => (A.seg g).side) ++ (bs.map fun g => (B.seg g).side) ++ tiles.map fun x => x.2).any (fun x => x.cls == cRAW) = false := by
  refine List.any_eq_false.mpr fun side hside => ?_
  rw [beq_iff_eq]
  simp only [List.mem_append, List.mem_map] at hside
  rcases hside with (⟨g, -, rfl⟩ | ⟨g, -, rfl⟩) | ⟨x, hx, rfl⟩
  · exact VReg.seg_cls_ne_raw hA g
  · exact VReg.seg_cls_ne_raw hB g
  · exact (htiles x hx).not_raw

theorem any_mismatch_eq_false {tiles : List (BitVec 4 × Sidecar)} (htiles : ∀ x ∈ tiles, takesFloat x) :
    (tiles.any fun x => x.2.cls == cVAL && (x.1 != accIdx false || x.2.scl != 127)) = false :=
  List.any_eq_false.mpr fun x hx => by rw [Bool.not_eq_true]; exact (htiles x hx).no_mismatch

/-- A float `mop` that every check of R176 passes: room in the operands and the tile, no RAW segment, an accepted pair, attached rows for the
grant, a tile of the pair's accumulator, and a budget above 0. -/
structure State.MopReady (s : State) (t : BitVec 2) (a b : BitVec 5) : Prop where
  kind : s.st.kind = .execute
  readA : s.readable a
  readB : s.readable b
  pair : (s.matrixPair false a b).ok = true
  float : (s.matrixPair false a b).int = false
  plain : (s.fmt (s.vreg b).fmt).kind ≠ .nested
  roomA : (s.vreg a).holds (s.fmt (s.vreg a).fmt) (s.st.vr.toNat * (s.matrixPair false a b).g) = true
  roomB : (s.vreg b).holds (s.fmt (s.vreg b).fmt) (s.st.vl.toNat * (s.matrixPair false a b).g) = true
  roomTile : s.st.vl.toNat * s.st.vr.toNat ≤ 8 * ((s.st.reg (8 * t.toNat)).segs.length * 32)
  rawA : ∀ x ∈ (s.vreg a).segs, x.side.cls ≠ cRAW
  rawB : ∀ x ∈ (s.vreg b).segs, x.side.cls ≠ cRAW
  tile : ∀ x ∈ (tileSegs ((s.st.reg (8 * t.toNat)).segs.length * 32) (s.st.vl.toNat * s.st.vr.toNat)).map
    fun y => s.st.tileSide t.toNat ((s.st.reg (8 * t.toNat)).segs.length * 32) y.1 y.2, takesFloat x
  fits : s.st.vr.toNat ≤ s.st.mrows.toNat
  rows : s.st.mrows ≠ 0
  cols : s.st.vl.toNat ≤ 384
  budget : s.core.gang = none ∨ ∃ y, s.dev.ctx s.core.ctxId = some y ∧ 0 < y.eb.toInt

/-- A `mop` that passes its checks captures its operands and changes nothing else. -/
theorem run_issueMatrix_mop {s : State} {t : BitVec 2} {a b : BitVec 5} (h : s.MopReady t a b) (e : BitVec 2) :
    (issueMatrix t a b e none).run s = .ok (s.mopCaptured a b e, s) := by
  have hlock : (readLock [s.st.phys a, s.st.phys b]).run s = .ok ((), s) :=
    run_readLock_open h.kind (vs := [a, b]) (by simp [h.readA, h.readB])
  have hshape : ¬ (s.st.mrows = 0 ∨ s.st.mrows.toNat < s.st.vr.toNat ∨ 384 < s.st.vl.toNat) := by
    simp only [h.rows, false_or, not_or, not_lt]
    exact ⟨h.fits, h.cols⟩
  have hregA : s.st.reg (s.st.phys a) = s.vreg a := rfl
  have hregB : s.st.reg (s.st.phys b) = s.vreg b := rfl
  have hpair : pairOf false (s.ftEntry (s.vreg a).fmt) (s.ftEntry (s.vreg b).fmt) = s.matrixPair false a b := rfl
  simp only [issueMatrix, run_bind, run_get, hlock, Option.isSome_none, hregA, hregB, hpair, h.roomA, h.roomB, beq_eq_false_iff_ne.mpr h.plain,
    decide_eq_false h.roomTile.not_gt, any_raw_eq_false h.rawA h.rawB h.tile, any_mismatch_eq_false h.tile, h.pair, h.float, hshape,
    budget_allows h.budget, Bool.not_true, Bool.false_and, Bool.or_self, Bool.false_eq_true, if_false, run_pure, State.mopCaptured]

/-- Settles O37: an operation that was issued begins on its tile, and a float `mop` that is ready is issued. -/
theorem matrixOperationsIssue : Obligations.MatrixOperationsIssue := by
  unfold Obligations.MatrixOperationsIssue
  refine ⟨fun t a b x y m k e s op ha hb => ⟨deliver_matrixOp_begins ha hb, deliver_matrixOp_begins ha hb, deliver_matrixOp_zero (np := none) ha hb,
    deliver_matrixOp_zero (np := some (k.toNat + 2, m == 1)) ha hb,
    matrixBegin_of_closed s t.isLt e op, fun c hctx => ⟨_, matrixBegin_debits hctx t.toNat e op, rfl⟩⟩, ?ready⟩
  case ready =>
    intro t a b e s A B P vl vr c kind readA readB pair float plain roomA roomB roomTile rawA rawB tile fits rows cols budget
    exact ⟨s.mopCaptured a b e, run_issueMatrix_mop ⟨kind, readA, readB, pair, float, plain, roomA, roomB, roomTile, rawA, rawB, tile, fits,
      rows, cols, budget⟩ e, rfl, rfl, rfl, float, captured_length _ _, captured_length _ _⟩

/-! ### mbud (R185) -/

/-- Settles O38: the budget sign-extended has its value. -/
theorem budgetIsRead : Obligations.BudgetIsRead := by
  unfold Obligations.BudgetIsRead
  intro d s c hctx
  refine ⟨c.eb.signExtend 64, ?_, BitVec.toInt_signExtend_of_le (by decide)⟩
  change s.result d (s.ctxField fun c => c.eb.signExtend 64) = _
  rw [ctxField_of_ctx s _ c hctx, State.result]

end Sys2Proof.Machine

/-! SUPPORT. Loads into tagged queues (R194, R196, R212; log 161) and loads of planes (R214): what a load does once its checks pass, and the stop of
a push that its queue refuses. -/

namespace Sys2Proof.Machine

/-! ### Loads into queues (R194, R196, R212) -/

/-- The places of a strip's elements below the grant. -/
def State.stripPlaces (s : State) (strip : Strip) : List (Nat × Word × Nat) := (List.range s.st.grant).map fun e => (e, strip s [] e)

/-- The slots that a queue load makes of its lines: the codes of each in the order of their places in it. -/
def slotsOfLines (js : List (Word × Tag × List (Nat × Nat))) : List QSlot :=
  js.map fun j => ⟨(List.range 256).flatMap fun k => (j.2.2.filter (·.1 == k)).map (·.2), j.2.1, j.1⟩

section
variable {q : BitVec 3} {strip : Strip} {s : State} (hg : s.st.grant ≠ 0)
include hg

/-- A push that the queue refuses stops the load before it reads a line. -/
theorem run_queueLoad_refused {y : Stop} (hclaim : (claimQueue q ((s.stripPlaces strip).map (·.2.1)).eraseDups.length).run s = .error y) :
    (queueLoad q strip).run s = .error y := by
  rw [State.stripPlaces] at hclaim
  simp only [queueLoad, run_bind, run_get, if_neg hg, hclaim]

theorem run_queueLoad_appends {x : TQueue} {js : List (Word × Tag × List (Nat × Nat))} {u v w : State}
    (hclaim : (claimQueue q ((s.stripPlaces strip).map (·.2.1)).eraseDups.length).run s = .ok (x, w))
    (hread : (loadSlots (s.stripPlaces strip) [] []).run w = .ok (js, u)) (hpush : (pushQueue q (slotsOfLines js)).run u = .ok ((), v)) :
    (queueLoad q strip).run s = .ok ((), v.advance) := by
  rw [State.stripPlaces] at hclaim hread
  rw [slotsOfLines] at hpush
  simp only [queueLoad, run_bind, run_get, if_neg hg, hclaim, hread, hpush, run_advanceM]

end

/-! ### Loads of planes (R214) -/

/-- The midpoint filler of a group that starts at segment `8 * h`, behind its `k` planes. -/
def midFiller (k h : Nat) : List (Nat × Line × BitVec 8 × BitVec 3) :=
  (List.range' k (8 - k)).map fun p => (8 * h + p, (if p = k then BitVec.allOnes 1024 else 0 : Line), (127 : BitVec 8), cVAL)

/-- Segments with plane lines put into them. -/
def planesPut (F : BitVec 4) (xs : List (Nat × Line × BitVec 8 × BitVec 3)) (ss : List Seg) : List Seg :=
  xs.foldl (fun ss x => setSeg x.1 ⟨x.2.1, mkSide F x.2.2.1 false x.2.2.2⟩ ss) ss

/-- A plane load whose register has room for its planes, at an aligned base, puts each line that it reads into its segment. -/
theorem exec_vldNp_puts {d a : BitVec 5} {m : BitVec 1} {k : BitVec 4} {s u : State} {old : VReg} {xs : List (Nat × Line × BitVec 8 × BitVec 3)}
    {gf : Option (BitVec 4)} (hg : s.st.grant ≠ 0) (hclaim : (claimReg d).run s = .ok (old, s)) (hroom : s.st.grant ≤ old.segs.length * 128)
    (hplanes : 8 * ((s.st.grant + 1023) / 1024 - 1) + k.toNat ≤ old.segs.length) (hbase : (s.x a).toNat % 1024 = 0)
    (hread : (loadPlanes (s.x a) ((List.range ((s.st.grant + 1023) / 1024)).flatMap fun h => (List.range k.toNat).map fun p => (h, p)) none).run s
      = .ok ((xs, gf), u)) :
    let filler := if m = 1 then (List.range ((s.st.grant + 1023) / 1024)).flatMap (midFiller k.toNat) else []
    exec (.vldNp d a m k) s = .next (u.putReg d ⟨gf.getD old.fmt, planesPut (gf.getD old.fmt) (xs ++ filler) old.segs⟩).advance := by
  have hwide : ¬ (old.segs.length * 128 < s.st.grant ∨ old.segs.length < 8 * ((s.st.grant + 1023) / 1024 - 1) + k.toNat) := by omega
  have haligned : ¬ (s.x a).extractLsb' 0 10 ≠ 0 := not_not.mpr ((extractLsb'_low_eq_zero _ 10).mpr hbase)
  refine deliver_ok s _ _ ?_
  simp only [run_bind, if_neg hg, hclaim, if_neg hwide, if_neg haligned, hread, run_modify, run_advanceM]
  rfl

/-- Settles O41: both queue loads are the one load at the places of their strip. -/
theorem queueAndPlaneLoads : Obligations.QueueAndPlaneLoads := by
  unfold Obligations.QueueAndPlaneLoads
  intro d a b q m k s u v w
  refine ⟨fun hg => ⟨deliver_advance_of s hg _, deliver_advance_of s hg _, deliver_advance_of s hg _⟩, ?loads⟩
  intro hg slots through
  have hthrough (i : Instr) (strip : Strip) (hexec : exec i s = deliver s (queueLoad q strip)) : through i strip :=
    ⟨fun x js hclaim hread hpush => hexec.trans (deliver_ok s _ _ (run_queueLoad_appends hg hclaim hread hpush)),
      fun c y ad fl hclaim => hexec.trans (deliver_trap s _ c y ad fl (run_queueLoad_refused hg hclaim)),
      fun hclaim => hexec.trans (deliver_wait s _ (run_queueLoad_refused hg hclaim))⟩
  exact ⟨hthrough _ (stripU a) rfl, hthrough _ (stripB a b) rfl,
    fun old xs gf hclaim hroom hplanes hbase hread => exec_vldNp_puts hg hclaim hroom hplanes hbase hread⟩

end Sys2Proof.Machine

/-! SUPPORT. The engines' own steps (R232 to R238): a core whose Shuttle holds two copies under one number, and what a landing makes of it. -/

namespace Sys2Proof.Machine

/-- A landing of a fingerprint in the scratchpad, of no element. -/
def landingLine : LandLine := ⟨0xFFFFFFFFFFC00000, none, none, []⟩

/-- A fingerprint in flight under number 0, with lines still to land. -/
def copyZero (ls : List LandLine) : Copy := ⟨0, 0, 1, 4, 1, 1, 0, .fp, 16, ls, none, none, [], none, 0, []⟩

/-- A core at the resident level with two copies under number 0, of which the earlier one has two lines to land and the later one none. -/
def sameNumberCopies : State where
  st := .bootCc 0
  core := { Core.fresh 0 0 false with copies := [copyZero [landingLine, landingLine], copyZero []] }
  dev := { Dev.boot configFull configFull with cores := [] }
  agenda := []

/-- The number of lines that each copy of the acting core has still to land. -/
def State.linesToLand (s : State) : List Nat := s.core.copies.map (·.lines.length)

/-- The earlier copy holds its translations and lands its line: neither changes the core. -/
theorem run_rehold_copyZero : (rehold (copyZero [landingLine, landingLine])).run sameNumberCopies = .ok ([], sameNumberCopies) := by rfl

theorem run_landing_copyZero : (landing (copyZero [landingLine, landingLine]) landingLine).run sameNumberCopies = .ok (([], false, 0), sameNumberCopies) := by
  rfl

/-- A landing takes its line from each copy of the number, from its own lines. -/
theorem exec_landing_sameNumber : ∃ x, exec (.landing 0 0) sameNumberCopies = .next x ∧ x.linesToLand = [1, 0] := ⟨_, rfl, by decide⟩

/-- Refutes O47: where a core holds two copies under one number, the statement gives the later one the lines of the earlier one, while the
landing takes a line from each copy's own lines. The Shuttle numbers the copies it starts apart, which the statement does not ask of the
state. -/
theorem not_engineSteps : ¬ Obligations.EngineSteps := by
  unfold Obligations.EngineSteps
  intro h
  obtain ⟨hland, -⟩ := h sameNumberCopies sameNumberCopies sameNumberCopies
  obtain ⟨-, hlands⟩ := hland 0 0 (copyZero [landingLine, landingLine]) landingLine [] false 0 [] rfl rfl rfl
  obtain ⟨hdone, -⟩ := hlands (by decide) (by decide) run_rehold_copyZero rfl
  obtain ⟨x, hexec, hlines⟩ := exec_landing_sameNumber
  have hsame := Host.Outcome.next.inj (hexec.symm.trans (hdone run_landing_copyZero))
  rw [hsame] at hlines
  exact absurd hlines (by decide)

end Sys2Proof.Machine

/-! SUPPORT. Launches (R287 to R298): the four tests of a record as the statement writes them, the refit, and the steps of a launch from its
submission to its completion. -/

namespace Sys2Proof.Machine

/-! ### The record's fields and cores (R286, Table 16.1) -/

/-- The low bits of a field of a record. -/
theorem lnrF_low (r : BitVec 1024) (lo : Nat) {k n : Nat} (h : k ≤ n) : lnrF r lo k = lnrF r lo n % 2 ^ k := by
  rw [lnrF, lnrF, BitVec.extractLsb'_toNat, BitVec.extractLsb'_toNat, Nat.mod_mod_of_dvd _ (Nat.pow_dvd_pow 2 h)]

theorem mem_lnrNamed {r : BitVec 1024} {x : Nat} :
    x ∈ lnrNamed r ↔ ∃ d c, d < 6 ∧ c < 48 ∧ r.getLsbD (688 + d) = true ∧ r.getLsbD (640 + c) = true ∧ 48 * d + c = x := by
  simp only [lnrNamed, List.mem_flatMap, List.mem_range, List.mem_map, List.mem_filter, Bool.and_eq_true]
  constructor
  · rintro ⟨d, hd, c, ⟨hc, hdie, hcore⟩, hx⟩
    exact ⟨d, c, hd, hc, hdie, hcore, hx⟩
  · rintro ⟨d, c, hd, hc, hdie, hcore, hx⟩
    exact ⟨d, hd, c, ⟨hc, hdie, hcore⟩, hx⟩

theorem hasCore_of_lt (q : Part) {c : Nat} (h : c < 288) : q.hasCore c = q.qmask.getLsbD (c / 12) := by
  simp [Part.hasCore, Config.cores, h]

theorem coreOn_of_lt (d : Dev) {c : Nat} (h : c < 288) : d.coreOn c = d.cfg (3488 + c) := by
  simp [Dev.coreOn, Config.cores, h]

/-- A record that names a core outside the partition. -/
theorem namesOutside_iff (r : BitVec 1024) (q : Part) : (!(lnrNamed r).all q.hasCore) = true ↔
    ∃ d c, d < 6 ∧ c < 48 ∧ r.getLsbD (688 + d) = true ∧ r.getLsbD (640 + c) = true ∧ q.qmask.getLsbD ((48 * d + c) / 12) = false := by
  rw [Bool.not_eq_true', List.all_eq_false]
  constructor
  · rintro ⟨x, hx, hout⟩
    obtain ⟨d, c, hd, hc, hdie, hcore, rfl⟩ := mem_lnrNamed.mp hx
    rw [hasCore_of_lt q (by omega), Bool.not_eq_true] at hout
    exact ⟨d, c, hd, hc, hdie, hcore, hout⟩
  · rintro ⟨d, c, hd, hc, hdie, hcore, hout⟩
    refine ⟨_, mem_lnrNamed.mpr ⟨d, c, hd, hc, hdie, hcore, rfl⟩, ?_⟩
    rw [hasCore_of_lt q (by omega), hout]
    exact Bool.false_ne_true

/-- A record none of whose cores is enabled. -/
theorem coreSet_isEmpty_iff (dev : Dev) (r : BitVec 1024) : (dev.coreSet r).isEmpty = true ↔
    ∀ d c, d < 6 → c < 48 → r.getLsbD (688 + d) = true → r.getLsbD (640 + c) = true → dev.cfg (3488 + (48 * d + c)) = false := by
  rw [List.isEmpty_iff, Dev.coreSet, List.filter_eq_nil_iff]
  constructor
  · intro h d c hd hc hdie hcore
    have hoff := h _ (mem_lnrNamed.mpr ⟨d, c, hd, hc, hdie, hcore, rfl⟩)
    rwa [coreOn_of_lt dev (by omega), Bool.not_eq_true] at hoff
  · intro h x hx
    obtain ⟨d, c, hd, hc, hdie, hcore, rfl⟩ := mem_lnrNamed.mp hx
    rw [coreOn_of_lt dev (by omega), h d c hd hc hdie hcore]
    exact Bool.false_ne_true

/-! ### The refit (R287) -/

theorem refit_eq_some {ok : Nat → Bool} {k lg : Nat} (hk : k ≤ lg) (hok : ok k = true) (habove : ∀ j, k < j → j ≤ lg → ok j = false) :
    refit ok lg = some k := by
  induction lg with
  | zero => rw [refit, ← Nat.le_zero.mp hk, if_pos hok]
  | succ n ih =>
    rw [refit]
    rcases hk.eq_or_lt with rfl | hlt
    · rw [if_pos hok]
    · rw [if_neg (by rw [habove _ hlt le_rfl]; exact Bool.false_ne_true)]
      exact ih (Nat.lt_succ_iff.mp hlt) fun j hj hle => habove j hj (Nat.le_succ_of_le hle)

theorem refit_eq_none {ok : Nat → Bool} {lg : Nat} (h : ∀ k, k ≤ lg → ok k = false) : refit ok lg = none := by
  induction lg with
  | zero => rw [refit, if_neg (by rw [h 0 le_rfl]; exact Bool.false_ne_true)]
  | succ n ih =>
    rw [refit, if_neg (by rw [h _ le_rfl]; exact Bool.false_ne_true)]
    exact ih fun k hk => h k (Nat.le_succ_of_le hk)

/-! ### The judgement (R287) -/

/-- Whether a gang of a record's row fits at 2^k hart pairs. -/
def Dev.fitsAt (d : Dev) (r : BitVec 1024) (k : Nat) : Bool := decide (k ≤ 3) && decide (512 * lnrF r 728 8 ≤ d.lreg (d.coreSet r) (2 ^ k))

theorem fitsAt_iff {d : Dev} {r : BitVec 1024} {k : Nat} :
    d.fitsAt r k = true ↔ k ≤ 3 ∧ 512 * lnrF r 728 8 ≤ d.lreg (d.coreSet r) (2 ^ k) := by
  simp [Dev.fitsAt]

/-- The answer for a record that passes the tests before the last, at a refit: a partition whose launches are as many as it holds takes none. -/
def Part.grants (q : Part) (x : Nat × Nat) : Nat × Nat := if 256 ≤ q.launches.length then (5, 0) else x

section
variable {d : Dev} {r : BitVec 1024} {user : Bool} {q : Part}

theorem judge_invalid (h : lnrInvalid r user q = true) : d.judge r user (some q) = (3, 0) := by
  simp only [Dev.judge, if_pos h]

section
variable (hvalid : lnrInvalid r user q = false)
include hvalid

theorem judge_away (h : (!(lnrNamed r).all q.hasCore || (d.coreSet r).isEmpty) = true) : d.judge r user (some q) = (4, 0) := by
  simp only [Dev.judge, hvalid, Bool.false_eq_true, if_false, if_pos h]

section
variable (hhere : (!(lnrNamed r).all q.hasCore || (d.coreSet r).isEmpty) = false)
include hhere

theorem judge_tooLarge (h : 4096 < lnrF r 736 13 + 2 + 32 * lnrF r 749 5 ∨ 16 < lnrF r 749 5) : d.judge r user (some q) = (2, 0) := by
  simp only [Dev.judge, hvalid, hhere, Bool.false_eq_true, if_false, if_pos h]

section
variable (hsize : ¬ (4096 < lnrF r 736 13 + 2 + 32 * lnrF r 749 5 ∨ 16 < lnrF r 749 5))
include hsize

theorem judge_asAsked (h : d.fitsAt r (lnrF r 725 3) = true) : d.judge r user (some q) = q.grants (0, lnrF r 725 3) := by
  rw [Dev.fitsAt] at h
  simp only [Dev.judge, hvalid, hhere, Bool.false_eq_true, if_false, if_neg hsize, if_pos h]
  rfl

section
variable (hunfit : d.fitsAt r (lnrF r 725 3) = false)
include hunfit

theorem judge_unfit (h : r.getLsbD 714 = false) : d.judge r user (some q) = (2, 0) := by
  rw [Dev.fitsAt] at hunfit
  simp only [Dev.judge, hvalid, hhere, Bool.false_eq_true, if_false, if_neg hsize, hunfit, h]

section
variable (hrefit : r.getLsbD 714 = true)
include hrefit

theorem judge_byRefit :
    d.judge r user (some q) = ((refit (d.fitsAt r) (lnrF r 725 3)).elim (2, 0) fun k => q.grants (1, k)) := by
  have hfits : d.fitsAt r = fun k => decide (k ≤ 3) && decide (512 * lnrF r 728 8 ≤ d.lreg (d.coreSet r) (2 ^ k)) := rfl
  rw [Dev.fitsAt] at hunfit
  simp only [Dev.judge, hvalid, hhere, Bool.false_eq_true, if_false, if_neg hsize, hunfit, hrefit, if_true, ← hfits]
  cases refit (d.fitsAt r) (lnrF r 725 3) <;> rfl

/-- A record that asks for a refit is granted the most hart pairs below those it asks for that fit. -/
theorem judge_refit {k : Nat} (hlt : k < lnrF r 725 3) (hfit : d.fitsAt r k = true)
    (habove : ∀ j, k < j → j < lnrF r 725 3 → d.fitsAt r j = false) : d.judge r user (some q) = q.grants (1, k) := by
  have hnone_above (j : Nat) (hj : k < j) (hle : j ≤ lnrF r 725 3) : d.fitsAt r j = false :=
    hle.eq_or_lt.elim (fun he => he ▸ hunfit) (habove j hj)
  rw [judge_byRefit hvalid hhere hsize hunfit hrefit, refit_eq_some hlt.le hfit hnone_above, Option.elim_some]

theorem judge_noRefit (hnone : ∀ k, k < lnrF r 725 3 → d.fitsAt r k = false) : d.judge r user (some q) = (2, 0) := by
  have hnone_upTo (k : Nat) (hle : k ≤ lnrF r 725 3) : d.fitsAt r k = false := hle.eq_or_lt.elim (fun he => he ▸ hunfit) (hnone k)
  rw [judge_byRefit hvalid hhere hsize hunfit hrefit, refit_eq_none hnone_upTo, Option.elim_none]

end

end
end
end
end
end

/-- The entry points and the trap vector of a record are addresses of words. -/
theorem entriesMisaligned_eq (r : BitVec 1024) : ([0, 64, 128, 192].any fun k => lnrF r k 2 != 0) =
    (lnrF r 0 64 % 4 != 0 || lnrF r 64 64 % 4 != 0 || lnrF r 128 64 % 4 != 0 || lnrF r 192 64 % 4 != 0) := by
  have hlow (lo : Nat) : lnrF r lo 2 = lnrF r lo 64 % 4 := lnrF_low r lo (by omega)
  simp only [List.any_cons, List.any_nil, hlow, Bool.or_false, Bool.or_assoc]

/-! ### `lnr.sub` (R287, R288, R296) -/

section
variable {d a : BitVec 5} {s : State}

theorem exec_lnrSub_misaligned (h : (s.x a).toNat % 128 ≠ 0) : exec (.lnrSub d a) s = .next (s.takeTrap 0x0E 0 (s.x a) 0) := by
  refine deliver_trap s _ _ _ _ _ ?_
  simp only [run_bind, if_pos (mt (extractLsb'_low_eq_zero _ 7).mp h), run_stop]
  rfl

section
variable (halign : (s.x a).toNat % 128 = 0)
include halign

theorem exec_lnrSub_waits (h : s.fenceWaits 3 true true = true) : exec (.lnrSub d a) s = .next s.await := by
  have halign' := not_not.mpr ((extractLsb'_low_eq_zero _ 7).mpr halign)
  exact deliver_wait s _ (by simp only [run_bind, if_neg halign', if_pos h, run_stop])

section
variable {x : Nat} {u : State} {j : Nat × Nat} (hfence : s.fenceWaits 3 true true = false)
  (hread : (readRecord (s.x a) 128).run (s.fenceFar 3 true true) = .ok (x, u))
  (hjudge : s.dev.judge (.ofNat 1024 x) (!s.atResident)
    (if s.dev.ctxLive s.submitCtx then s.dev.part (s.dev.partOfCtx s.submitCtx) else none) = j)
include hfence hread hjudge

/-- A record that fails a test is answered with the test it fails. -/
theorem exec_lnrSub_refuses (h : 2 ≤ j.1) : exec (.lnrSub d a) s = .next (u.setX d (.ofNat 64 (j.1 * 2 ^ 56))).advance := by
  have halign' := not_not.mpr ((extractLsb'_low_eq_zero _ 7).mpr halign)
  refine deliver_ok s _ _ ?_
  simp only [run_bind, if_neg halign', hfence, Bool.false_eq_true, if_false, run_modify, hread, hjudge, if_pos h, run_setXM, run_advanceM]

/-- An accepted record is answered with its refit and its launch's number. -/
theorem exec_lnrSub_accepts {v w : State} {n : Nat} (h : j.1 < 2)
    (hmap : (mapWrites (s.dev.viaCtx s.submitCtx) (pagesIn (lnrStatus (.ofNat 1024 x)) (64 + 32 * 2 ^ lnrF (.ofNat 1024 x) 754 4))).run u = .ok ((), w))
    (hsubmit : (submit s.submitCtx (s.dev.partOfCtx s.submitCtx) j.2 (.ofNat 1024 x)).run w = .ok (n, v)) :
    exec (.lnrSub d a) s = .next (v.setX d (.ofNat 64 (j.1 * 2 ^ 56 + j.2 * 2 ^ 32 + n))).advance := by
  have halign' := not_not.mpr ((extractLsb'_low_eq_zero _ 7).mpr halign)
  refine deliver_ok s _ _ ?_
  simp only [run_bind, if_neg halign', hfence, Bool.false_eq_true, if_false, run_modify, hread, hjudge, if_neg h.not_ge, hmap, hsubmit, run_setXM,
    run_advanceM]

end
end
end

/-! ### Gangs start and end (R189, R190, R296 to R298) -/

/-- A gang starts on a core that is free for it, for a tuple of a launch that is neither complete nor of a dead context. -/
theorem exec_gangStart_starts {s : State} {w : WorkItem} {l : Launch} {x : Ctx} (hitem : s.core.assigned = some w) (htuple : w.saved = none)
    (hgang : s.core.gang = none) (huser : s.core.resident = false) (hhalted : s.core.halted = false) (hpower : s.core.pwr.toNat < 2)
    (hlaunch : s.dev.launch w.part w.launch = some l) (hctx : s.dev.ctx l.ctx = some x) (hlive : x.dead = false) (hopen : l.state < 3)
    (hback : s.backWaits (fun f => !s.core.inLazy f) = false) :
    let f := s.ungated.fenceFar 3 true true
    let t := f.onCore fun d c => ({ d with starts := d.starts + 1 }, c.startGang x l w f.dev.starts)
    exec .gangStart s = .next (if l.state = 1 then t.reportLaunch w.part w.launch fun l => { l with state := 2 } else t) := by
  have hfree : (s.core.gang.isSome || s.core.resident || s.core.halted || decide (2 ≤ s.core.pwr.toNat) || w.saved.isSome) = false := by
    simp [hgang, huser, hhalted, htuple, hpower]
  have hruns : ¬ (x.dead = true ∨ 3 ≤ l.state) := by simp [hlive, hopen]
  change execGangStart s = _
  simp only [execGangStart, hitem, hfree, hlaunch, hctx, hback, Bool.false_eq_true, if_false, if_neg hruns]
  rfl

theorem exec_gangEnd_ends {s : State} {g : Gang} (hgang : s.core.gang = some g) (hover : s.gangOver = true) :
    let f := s.flushFar (fun x => !s.core.inLazy x) false
    let t := f.onCore fun d c => (d.withdraw c.num fun _ => true,
      { (c.passUnits s.inherits).noGang with inherit := if s.inherits then some g.ctx else none })
    exec .gangEnd s = .next (t.reportEnd t.core.num g (f.wholeCore.discards s.inherits)) := by
  change execGangEnd s = _
  simp only [execGangEnd, hgang, hover, Bool.not_true, Bool.false_eq_true, if_false]

/-! ### `ovl` (R297) -/

/-- A mask names units 0 to 5 alone where it is below 64. -/
theorem extractLsb'_unitMask_eq_zero (v : Word) : v.extractLsb' 6 58 = 0 ↔ v.toNat < 64 := by
  rw [← BitVec.toNat_inj, BitVec.extractLsb'_toNat, Nat.shiftRight_eq_div_pow]
  change v.toNat / 2 ^ 6 % 2 ^ 58 = 0 ↔ _
  have := v.isLt
  omega

theorem exec_ovl_leaves {a : BitVec 5} {s : State} {g : Gang} (hgang : s.core.gang = some g) (hhandler : s.core.handler = none)
    (hmask : (s.x a).toNat < 64) (hharts : s.core.hartsOver = true)
    (hunits : ∀ k, k < 6 → (s.x a).getLsbD k = true → s.core.namedIdle k = true) (huser : s.atResident = false) :
    exec (.ovl a) s = .next { s with st := s.st.ended, core := { s.core with gang := some { g with left := true, swap := true } } } := by
  have hplain : ¬ (s.core.handler.isSome = true ∨ (s.x a).extractLsb' 6 58 ≠ 0) := by
    rw [not_or, not_not, hhandler]
    exact ⟨Bool.false_ne_true, (extractLsb'_unitMask_eq_zero _).mpr hmask⟩
  have hready : (!s.core.hartsOver || (List.range 6).any fun k => (s.x a).getLsbD k && !s.core.namedIdle k) = false := by
    rw [hharts, Bool.not_true, Bool.false_or, List.any_eq_false]
    intro k hk
    have hidle := hunits k (List.mem_range.mp hk)
    simpa using hidle
  refine deliver_ok s _ _ ?_
  simp only [run_bind, if_neg hplain, hgang, hready, huser, Bool.false_eq_true, if_false, run_modify]

theorem exec_ovl_bad {a : BitVec 5} {s : State} (h : s.core.handler.isSome = true ∨ 64 ≤ (s.x a).toNat) :
    exec (.ovl a) s = .next (s.takeTrap 0x11 5 0 0) := by
  have hbad : s.core.handler.isSome = true ∨ (s.x a).extractLsb' 6 58 ≠ 0 :=
    h.imp_right fun hmask hzero => hmask.not_gt ((extractLsb'_unitMask_eq_zero _).mp hzero)
  refine deliver_trap s _ _ _ _ _ ?_
  simp only [run_bind, if_pos hbad, launchArg, run_stop]
  rfl

/-! ### Walkers and completion (R292 to R295) -/

theorem exec_walkerAssign_hands {s : State} {die p : Nat} {l : Launch} {c : Nat} (h : s.walkerPick die = some (p, l, c)) :
    exec (.walkerAssign die) s = .next (s.handOut die p l c) := by
  change execWalkerAssign die s = _
  rw [execWalkerAssign, h]

/-- A walker that has nothing to hand out asks for a stop that is wanted. -/
theorem exec_walkerAssign_asks {s : State} {die l c : Nat} (hpick : s.walkerPick die = none) (hstop : s.stopWanted die = some (l, c)) :
    exec (.walkerAssign die) s = .next (s.updCoreAt c (Core.askStop l)) := by
  change execWalkerAssign die s = _
  rw [execWalkerAssign, hpick, hstop]

theorem exec_launchComplete_completes {s : State} {part launch : Nat} {q : Part} {l : Launch} (hpart : s.dev.part part = some q)
    (hlaunch : s.dev.launch part launch = some l) (hover : s.launchOver part q l = true) :
    let t := (s.reportLost l).reportLaunch part launch fun y => { y with state := l.final q }
    let t : State := { t with dev := t.dev.updPart part fun x =>
      { x with launches := x.launches.filter (·.id != launch), finished := ((launch, l.final q) :: x.finished).take 4096 } }
    exec (.launchComplete part launch) s = .next (if l.lnr.getLsbD 712 then
      t.updCoreAt (lnrF l.lnr 696 16) fun c => { c with evHeld := c.evHeld ++ [t.launchEvent l (l.final q)] } else t) := by
  change execLaunchComplete part launch s = _
  simp only [execLaunchComplete, hpart, hlaunch, hover, Bool.not_true, Bool.false_eq_true, if_false]

/-- Settles O50: a record by the test that decides it, every other step of a launch by its own lemma. -/
theorem launchesRunThrough : Obligations.LaunchesRunThrough := by
  unfold Obligations.LaunchesRunThrough
  intro d a s u v
  refine ⟨exec_lnrSub_misaligned, exec_lnrSub_waits, fun x halign hfence hread => ?submit, fun r user q => ?judge,
    fun die p l c => exec_walkerAssign_hands, fun die l c => exec_walkerAssign_asks, fun w l x hitem htuple hgang huser hhalted hpower hlaunch hctx
      hlive hopen hback => exec_gangStart_starts hitem htuple hgang huser hhalted hpower hlaunch hctx hlive hopen hback,
    fun g => exec_ovl_leaves, exec_ovl_bad, fun g => exec_gangEnd_ends, fun part launch q l => exec_launchComplete_completes⟩
  case submit =>
    exact ⟨exec_lnrSub_refuses halign hfence hread rfl, fun w n => exec_lnrSub_accepts halign hfence hread rfl⟩
  case judge =>
    intro f invalid away need fits full
    have hinvalid : lnrInvalid r user q = invalid := by
      have hstatus : lnrF r 256 6 = lnrF r 256 64 % 64 := lnrF_low r 256 (by omega)
      simp only [lnrInvalid, entriesMisaligned_eq, hstatus, Bool.or_assoc]
      simp only [invalid, Bool.or_assoc]
      rfl
    have haway : (!(lnrNamed r).all q.hasCore || (s.dev.coreSet r).isEmpty) = true ↔ away := by
      rw [Bool.or_eq_true, namesOutside_iff, coreSet_isEmpty_iff]
    have hhere (h : ¬ away) : (!(lnrNamed r).all q.hasCore || (s.dev.coreSet r).isEmpty) = false := Bool.eq_false_iff.mpr (mt haway.mp h)
    have hunfit {k : Nat} (h : ¬ fits k) : s.dev.fitsAt r k = false := Bool.eq_false_iff.mpr (mt fitsAt_iff.mp h)
    refine ⟨rfl, fun hbad => judge_invalid (hinvalid.trans hbad), fun hok hout => judge_away (hinvalid.trans hok) (haway.mpr hout),
      fun hok hin => judge_tooLarge (hinvalid.trans hok) (hhere hin), fun hok hin hneed hmax => ?_⟩
    have hsize : ¬ (4096 < need ∨ 16 < f 749 5) := by omega
    refine ⟨fun hfit => judge_asAsked (hinvalid.trans hok) (hhere hin) hsize (fitsAt_iff.mpr hfit),
      fun hnot => judge_unfit (hinvalid.trans hok) (hhere hin) hsize (hunfit hnot), fun hnot hrefit => ?_⟩
    exact ⟨fun k hlt hfit habove => judge_refit (hinvalid.trans hok) (hhere hin) hsize (hunfit hnot) hrefit hlt (fitsAt_iff.mpr hfit)
        fun j hj hlt => hunfit (habove j hj hlt),
      fun hnone => judge_noRefit (hinvalid.trans hok) (hhere hin) hsize (hunfit hnot) hrefit fun k hlt => hunfit (hnone k hlt)⟩

end Sys2Proof.Machine

/-! SUPPORT. Stores of a strip (R210, R215, R216): a store from a register or a queue once its register or its elements are there, all its lines
written or none. -/

namespace Sys2Proof.Machine

/-! ### Stores from registers (R215) -/

/-- The elements of a register as a store of a strip takes them, with their places. -/
def VReg.strip (r : VReg) (F : Fmt) (g : Nat) (place : Nat → Word × Nat) : List (Nat × (Word × Nat) × FillEl × Tag) :=
  (List.range g).map fun e => (e, place e, r.storeEl F.wid e, (0 : Tag))

section
variable {v : BitVec 5} {ix : Option (BitVec 5)} {strip : Strip} {s : State} {r : VReg} {iv : List Int}
  (hg : s.st.grant ≠ 0) (hread : (readUnless0 v).run s = .ok (r, s)) (hissue : (issueAccess ix (!r.holds (s.fmt r.fmt) s.st.grant) false).run s = .ok (iv, s))
include hg hread hissue

/-- Every line can be written: the store completes behind them. -/
theorem run_vecStore_done {u : State} (hstore : (storeStrip false (r.strip (s.fmt r.fmt) s.st.grant (strip s iv))).run s = .ok ((), u)) :
    (vecStore v ix strip).run s = .ok ((), u.advance) := by
  rw [VReg.strip] at hstore
  simp only [vecStore, run_bind, run_get, hread, hissue, if_neg hg, hstore, run_advanceM]

/-- A line that cannot be written stops the store. -/
theorem run_vecStore_stops {y : Stop} (hstore : (storeStrip false (r.strip (s.fmt r.fmt) s.st.grant (strip s iv))).run s = .error y) :
    (vecStore v ix strip).run s = .error y := by
  rw [VReg.strip] at hstore
  simp only [vecStore, run_bind, run_get, hread, hissue, if_neg hg, hstore]

end

/-! ### Stores from queues (R216; log 161) -/

/-- The elements of a queue as a store of a strip takes them, with their places. -/
def queueStrip (place : Nat → Word × Nat) (es : List (Nat × Tag × Word)) : List (Nat × (Word × Nat) × FillEl × Tag) :=
  es.zipIdx.map fun y => (y.2, place y.2, ⟨y.1.1, y.1.2.1.fmt, y.1.2.1.scl, y.1.2.1.cls⟩, y.1.2.1)

/-- Elements leave their queue once every line is written. -/
theorem run_queueStore_done {q : BitVec 3} {strip : Strip} {s u w : State} {x : TQueue} {es : List (Nat × Tag × Word)} (hg : s.st.grant ≠ 0)
    (hhead : (headQueue q s.st.grant).run s = .ok ((x, es), w)) (hstore : (storeStrip true (queueStrip (strip s []) es)).run w = .ok ((), u)) :
    (queueStore q strip).run s = .ok ((), (u.setQueue q { x with slots := dropElems s.st.grant x.slots }).advance) := by
  rw [queueStrip] at hstore
  simp only [queueStore, run_bind, run_get, if_neg hg, hhead, hstore, run_modify, run_advanceM]

/-- Settles O42: every form is the one register store, or the one queue store, at the places of its strip. -/
theorem vectorStores : Obligations.VectorStores := by
  unfold Obligations.VectorStores
  intro v a b q s u w r iv hg g els fromReg fromQueue
  have hreg (i : Instr) (ix : Option (BitVec 5)) (strip : Strip) (hexec : exec i s = deliver s (vecStore v ix strip)) : fromReg i ix strip :=
    fun hread hissue => ⟨fun hstore => hexec.trans (deliver_ok s _ _ (run_vecStore_done hg hread hissue hstore)),
      fun c n ad fl hstore => hexec.trans (deliver_trap s _ c n ad fl (run_vecStore_stops hg hread hissue hstore)),
      fun e hstore => hexec.trans (deliver_fault s _ e (run_vecStore_stops hg hread hissue hstore))⟩
  have hqueue (i : Instr) (strip : Strip) (hexec : exec i s = deliver s (queueStore q strip)) : fromQueue i strip :=
    fun x es hhead hstore => hexec.trans (deliver_ok s _ _ (run_queueStore_done hg hhead hstore))
  exact ⟨hreg _ _ (stripU a) rfl, hreg _ _ (stripS a b) rfl, hreg _ _ (stripX a) rfl, hreg _ _ (stripB a b) rfl,
    hqueue _ (stripU a) rfl, hqueue _ (stripB a b) rfl⟩

end Sys2Proof.Machine

/-! SUPPORT. Atomics (R217 to R223, R257): the scalar atomic on an operand that it may update, the update of every line of a strip, and the
bank-side commands. -/

namespace Sys2Proof.Machine

/-! ### Classes that an update takes (R47) -/

/-- The classes of a line that a scalar atomic may update. -/
def updates (t : Tag) : Prop := t.cls = cVAL ∨ t.cls = cRAW ∨ t.cls = cUNW

theorem run_rmwClass_updates {va : Word} {tr : Tr} {t : Tag} {e : Nat} (h : updates t) (s : State) : (rmwClass va tr t e).run s = .ok ((), s) := by
  have hpoi : t.cls ≠ cPOI := by rcases h with h | h | h <;> (rw [h]; decide)
  have hinv : t.cls ≠ cINV := by rcases h with h | h | h <;> (rw [h]; decide)
  have hstg : t.cls ≠ cSTG := by rcases h with h | h | h <;> (rw [h]; decide)
  simp only [rmwClass, if_neg hpoi, if_neg hinv, if_neg hstg, run_pure]

theorem run_touchM (tr : Tr) (s : State) : (touchM tr).run s = .ok ((), s.touch tr true) := rfl

/-- A gate that the command blocks before it close makes an access of the CC wait (R257). -/
theorem run_engGate_held {k : BitVec 2} {s : State} (h : (s.st.kind == .cc && s.core.engHolds k) = true) : (engGate k).run s = .error .wait := by
  have hheld : (decide (s.st.kind = .cc) && s.core.engHolds k) = true := h
  simp only [engGate, run_bind, run_get, hheld, if_true, run_stop]

/-! ### The scalar atomic (R217, R218, Table 11.4) -/

section
variable {d a b : BitVec 5} {o : BitVec 4} {z : BitVec 2} {s : State}

theorem exec_amo_misaligned (h : (s.x a).toNat % (4 * 2 ^ z.toNat) ≠ 0) : exec (.amo d a b o z) s = .next (s.takeTrap 0x0E 0 (s.x a) 0) :=
  deliver_trap s _ _ _ _ _ (by simp only [run_bind, if_pos h, run_stop]; rfl)

section
variable (halign : (s.x a).toNat % (4 * 2 ^ z.toNat) = 0)
include halign

theorem exec_amo_held (h : (s.st.kind == .cc && s.core.engHolds 3) = true) : exec (.amo d a b o z) s = .next s.await :=
  deliver_wait s _ (by simp only [run_bind, if_neg (not_not.mpr halign), run_engGate_held h])

theorem exec_amo_updates {u v w : State} {tr : Tr} {l : Line} {t : Tag} (hgate : (s.st.kind == .cc && s.core.engHolds 3) = false)
    (htr : (translate s.via nRmw (s.x a)).run s = .ok (tr, u)) (hread : (readHome tr nRmw.kind).run u = .ok ((l, t), v)) (hcls : updates t) :
    let n := 4 * 2 ^ z.toNat
    let old : Line := if t.cls = cUNW then 0 else l
    let m := lineBytes old ((s.x a).toNat % 128) n
    let r := amoResult o (8 * n) m (s.wide b n) (s.wide d n)
    let f := if t.cls = cUNW then r.2 ||| 0x10 else r.2
    v.calm f → (writeHome tr nRmw.kind 0 (setLineBytes old ((s.x a).toNat % 128) n r.1) t.raw
      (if t.cls = cUNW then BitVec.allOnes 128 else byteMask ((s.x a).toNat % 128) n)).run (v.flagged f) = .ok ((), w) →
    exec (.amo d a b o z) s = .next ((w.touch tr true).amoReturn d n m) := by
  intro n old m r f hcalm hwrite
  have hfree : (engGate 3).run s = .ok ((), s) := run_engGate_free 3 s fun hk => by simpa [hk] using hgate
  refine deliver_ok s _ _ ?_
  simp only [run_bind, if_neg (not_not.mpr halign), hfree, htr, hread, run_rmwClass_updates hcls]
  rw [show fNX = 0x10 from rfl, run_raiseFlags_calm _ _ hcalm]
  simp only [n, old, m, r] at hwrite
  simp only [hwrite, run_touchM, run_modify]
  rfl

end
end

/-- What each integer operation of Table 11.4 makes of an old value and an operand. -/
theorem amoResult_fst (k m b x : Nat) : (amoResult 0 k m b x).1 = b ∧ (amoResult 1 k m b x).1 = (m + b) % 2 ^ k ∧
    (amoResult 2 k m b x).1 = m &&& b ∧ (amoResult 3 k m b x).1 = m ||| b ∧ (amoResult 4 k m b x).1 = m ^^^ b ∧
    signedOf k (amoResult 5 k m b x).1 = Min.min (signedOf k m) (signedOf k b) ∧
    signedOf k (amoResult 6 k m b x).1 = Max.max (signedOf k m) (signedOf k b) ∧
    (amoResult 7 k m b x).1 = Min.min m b ∧ (amoResult 8 k m b x).1 = Max.max m b ∧ (amoResult 9 k m b x).1 = if m = x then b else m := by
  refine ⟨rfl, rfl, rfl, rfl, rfl, ?smaller, ?larger, rfl, rfl, rfl⟩
  case smaller =>
    change signedOf k (if signedOf k b < signedOf k m then b else m) = _
    split <;> omega
  case larger =>
    change signedOf k (if signedOf k m < signedOf k b then b else m) = _
    split <;> omega

/-! ### Vector atomics (R219) -/

section
variable {s : State} (hg : s.st.grant ≠ 0)
include hg

/-- Data registers with room and of a class that the access takes pass its issue checks. -/
theorem run_issueAccess_data : (issueAccess none false false).run s = .ok ([], s) := by
  simp only [issueAccess, run_bind, run_get, if_pos hg, Bool.false_eq_true, if_false, run_pure]

theorem exec_amoV_updates {v a b : BitVec 5} {x : BitVec 1} {p : BitVec 4} {r : VReg} {iv : List Int} {u : State} {ys : List (BitVec 8 × Tr)}
    (hread : (readUnless0 v).run s = .ok (r, s)) (hbits : ¬ (3 ≤ p.toNat ∧ (s.fmt r.fmt).kind = .float))
    (hissue : (issueAccess (if x = 1 then some b else none) (!r.holds (s.fmt r.fmt) s.st.grant) (r.rawBelow (s.fmt r.fmt) s.st.grant)).run s = .ok (iv, s))
    (hlines : (allLines (amoVLine p r.fmt (s.fmt r.fmt)) (updLines r (s.fmt r.fmt) s.st.grant ((if x = 1 then stripX a else stripU a) s iv))).run s
      = .ok (ys, u)) :
    let w := ((ys.map (·.2)).foldr insertTr []).foldl (fun s tr => s.touch tr true) u
    w.calm (orFlags (ys.map (·.1))) → exec (.amoV v a b x p) s = .next (w.flagged (orFlags (ys.map (·.1)))).advance := by
  intro w hcalm
  have htakes : (decide (3 ≤ p.toNat) && (s.fmt r.fmt).kind == .float) = false := by
    rw [Bool.eq_false_iff, ne_eq, Bool.and_eq_true, decide_eq_true_iff, beq_iff_eq]
    exact hbits
  refine deliver_ok s _ _ ?_
  simp only [run_bind, hread, run_get, hissue, htakes, Bool.false_eq_true, if_false, if_neg hg, hlines, run_touchAll]
  rw [run_raiseFlags_calm _ _ hcalm]
  rfl

/-! ### Bank-side commands (R220 to R223) -/

section
variable {a b o : BitVec 5} {fac : Option Val} {r : VReg} (hread : (readUnless0 b).run s = .ok (r, s)) (hroom : r.holds (s.fmt r.fmt) s.st.grant = true)
include hread hroom

theorem run_bankUpdate_misaligned (h : (s.x a).toNat % 128 ≠ 0) : (bankUpdate o fac a b).run s = .error (.trap 0x0E 0 (s.x a) 0) := by
  simp only [bankUpdate, run_bind, hread, run_get, hroom, Bool.not_true, run_issueAccess_data hg, if_neg hg,
    if_pos (mt (extractLsb'_low_eq_zero _ 7).mp h), run_stop]
  rfl

theorem run_bankUpdate_updates {fs : List (BitVec 8)} {u : State} (halign : (s.x a).toNat % 128 = 0)
    (hlines : (allLines (bankLine o fac r.fmt (s.fmt r.fmt)) (updLines r (s.fmt r.fmt) s.st.grant (stripU a s []))).run s = .ok (fs, u))
    (hcalm : u.calm (orFlags fs)) : (bankUpdate o fac a b).run s = .ok ((), (u.flagged (orFlags fs)).advance) := by
  simp only [bankUpdate, run_bind, hread, run_get, hroom, Bool.not_true, run_issueAccess_data hg, if_neg hg,
    if_neg (not_not.mpr ((extractLsb'_low_eq_zero _ 7).mpr halign)), hlines, run_raiseFlags_calm _ _ hcalm, run_advanceM]

end

/-- What `mcas` returns in the register of its old values: each line with its tag (R223). -/
theorem exec_mcas_exchanges {d a b : BitVec 5} {r q : VReg} {xs : List (Nat × Line × Tag × Bool)} {u : State}
    (hclaim : (claimUnless0 b).run s = .ok (r, s)) (hread : (readUnless0 (b + 1)).run s = .ok (q, s))
    (hroom : r.holds (s.fmt r.fmt) s.st.grant = true) (hroom' : q.holds (s.fmt q.fmt) s.st.grant = true) (halign : (s.x a).toNat % 128 = 0)
    (hfmt : r.fmt = q.fmt) (hwid : (s.fmt r.fmt).wid = s.st.gw)
    (hlines : (allLines (mcasLine r q s.st.gw s.st.grant (s.x a)) (List.range (segsBelow s.st.grant s.st.gw))).run s = .ok (xs, u)) :
    exec (.mcas d a b) s = .next ((u.putReg b { r with segs := xs.foldl (fun ss y =>
      setSeg y.1 ⟨y.2.1, mkSide y.2.2.1.fmt y.2.2.1.scl false (if y.2.2.1.fmt ≠ r.fmt then cRAW else y.2.2.1.cls)⟩ ss) r.segs }).advanceValue d
      (.ofNat 64 (xs.filter (·.2.2.2)).length)) := by
  have hsame : ¬ (r.fmt ≠ q.fmt ∨ (s.fmt r.fmt).wid ≠ s.st.gw) := by
    rw [not_or, not_not, not_not]
    exact ⟨hfmt, hwid⟩
  refine deliver_ok s _ _ ?_
  simp only [run_bind, hclaim, hread, run_get, hroom, hroom', Bool.not_true, Bool.or_false, run_issueAccess_data hg, if_neg hg,
    if_neg (not_not.mpr ((extractLsb'_low_eq_zero _ 7).mpr halign)), if_neg hsame, hlines, run_modify]

end

/-- Settles O43: the scalar atomic by its checks, every other form by the lines of its strip. -/
theorem atomics : Obligations.Atomics := by
  unfold Obligations.Atomics
  refine ⟨?scalar, ?strips⟩
  case scalar =>
    intro d a b o z s u v w tr l t n va old m r f held
    exact ⟨exec_amo_misaligned, exec_amo_held, fun halign hgate htr hread hcls => exec_amo_updates halign hgate htr hread hcls,
      fun k m b x _ _ _ => amoResult_fst k m b x⟩
  case strips =>
    intro v a b d o x p s u r iv fs ys hg g F
    refine ⟨fun hread hbits hissue hlines => exec_amoV_updates hg hread hbits hissue hlines, fun hread hroom halign => ⟨?_, ?_⟩,
      fun hread hroom h => ⟨?_, ?_⟩, fun q xs hclaim hread hroom hroom' halign hfmt hwid hlines =>
        exec_mcas_exchanges hg hclaim hread hroom hroom' halign hfmt hwid hlines⟩
    · exact fun hlines hcalm => deliver_ok s _ _ (run_bankUpdate_updates hg hread hroom halign hlines hcalm)
    · exact fun hlines hcalm => deliver_ok s _ _ (run_bankUpdate_updates hg hread hroom halign hlines hcalm)
    · exact deliver_trap s _ _ _ _ _ (run_bankUpdate_misaligned hg hread hroom h)
    · exact deliver_trap s _ _ _ _ _ (run_bankUpdate_misaligned hg hread hroom h)

end Sys2Proof.Machine

/-! SUPPORT. Line tags (R225, R226, Table 03.1; log 82) and full/empty bits (R120, R224). -/

namespace Sys2Proof.Machine

/-! ### The fields of a tag written (Table 03.1) -/

section
variable (t : Tag) (fmt : BitVec 4) (scl : BitVec 8) (cls pln : BitVec 3)

/-- The bits of a rewritten tag behind its FMT. -/
theorem Tag.retag_above_fmt {k n : Nat} (h : 4 ≤ k) :
    (t.retag fmt scl cls pln).extractLsb' k n = (t.extractLsb' 18 6 ++ pln ++ cls ++ scl).extractLsb' (k - 4) n :=
  BitVec.extractLsb'_append_eq_of_le h

theorem Tag.fmt_retag : (t.retag fmt scl cls pln).fmt = fmt := BitVec.extractLsb'_append_eq_right

theorem Tag.scl_retag : (t.retag fmt scl cls pln).scl = scl := by
  rw [Tag.scl, Tag.retag_above_fmt _ _ _ _ _ (by omega)]
  exact BitVec.extractLsb'_append_eq_right

theorem Tag.pln_retag : (t.retag fmt scl cls pln).pln = pln := by
  rw [Tag.pln, Tag.retag_above_fmt _ _ _ _ _ (by omega), BitVec.extractLsb'_append_eq_of_le (by omega), BitVec.extractLsb'_append_eq_of_le (by omega)]
  exact BitVec.extractLsb'_append_eq_right

/-- A class that is written as it is read stays: codes 6 and 7 are never read (R47). -/
theorem Tag.cls_retag (h : cls ≠ 6 ∧ cls ≠ 7) : (t.retag fmt scl cls pln).cls = cls := by
  have hbits : (t.retag fmt scl cls pln).extractLsb' 12 3 = cls := by
    rw [Tag.retag_above_fmt _ _ _ _ _ (by omega), BitVec.extractLsb'_append_eq_of_le (by omega)]
    exact BitVec.extractLsb'_append_eq_right
  rw [Tag.cls, hbits]
  exact if_neg (not_or.mpr h)

/-- GEN and CMP lie above what is written. -/
theorem Tag.high_retag {k n : Nat} (hk : 18 ≤ k) (hn : k + n ≤ 24) : (t.retag fmt scl cls pln).extractLsb' k n = t.extractLsb' k n := by
  rw [Tag.retag_above_fmt _ _ _ _ _ (by omega), BitVec.extractLsb'_append_eq_of_le (by omega), BitVec.extractLsb'_append_eq_of_le (by omega),
    BitVec.extractLsb'_append_eq_of_le (by omega)]
  refine BitVec.eq_of_getLsbD_eq fun i hi => ?_
  have hin : k - 4 - 8 - 3 - 3 + i < 6 := by omega
  have hat : 18 + (k - 4 - 8 - 3 - 3 + i) = k + i := by omega
  rw [BitVec.getLsbD_extractLsb', BitVec.getLsbD_extractLsb', BitVec.getLsbD_extractLsb', decide_eq_true hin, Bool.true_and, hat]

end

theorem Tag.cls_read (t : Tag) : t.cls ≠ 6 ∧ t.cls ≠ 7 := by
  rw [Tag.cls]
  generalize t.extractLsb' 12 3 = c
  revert c
  decide

/-! ### `ltag.ld` (R225) -/

theorem exec_ltagLd_reads {d a : BitVec 5} {s u v : State} {tr : Tr} {l : Line} {t : Tag} (htr : (translate s.via nLoad (s.x a)).run s = .ok (tr, u))
    (hread : (readLine tr nLoad.kind).run u = .ok ((l, t), v)) :
    exec (.ltagLd d a) s = .next ((v.touch tr true).advanceValue d
      (.ofNat 64 (t.toNat + (if tr.spad = true ∧ tr.loc / 128 ∉ s.core.feEmpty then 2 ^ 24 else 0)))) := by
  have hbit : (tr.spad && !s.core.feEmpty.contains (tr.loc / 128)) = decide (tr.spad = true ∧ tr.loc / 128 ∉ s.core.feEmpty) := by simp
  refine deliver_ok s _ _ ?_
  simp only [run_bind, htr, hread, run_touchM, hbit, decide_eq_true_eq, run_modify]

/-! ### `ltag.st` (R226; log 82) -/

section
variable {a b : BitVec 5} {s u v : State} {tr : Tr} {l : Line} {t : Tag} (htr : (translate s.via nStore (s.x a)).run s = .ok (tr, u))
  (hread : (readHome tr nStore.kind).run u = .ok ((l, t), v))
include htr hread

theorem exec_ltagSt_stg (hcls : t.cls = cSTG) :
    exec (.ltagSt a b) s = .next (s.strandFault (v.mkFault 2 0x02 2 (s.x a) (tr.dpa / 128 * 128) 0)) :=
  deliver_fault s _ _ (by simp only [run_bind, htr, hread, if_pos hcls, faultAt, run_get, run_stop]; rfl)

theorem exec_ltagSt_writes {w : State} {new x : Tag} (hnew : (s.x b).extractLsb' 0 24 = new) (hx : t.retag new.fmt new.scl new.cls new.pln = x)
    (hcls : t.cls ≠ cSTG)
    (hwrite : (writeHome tr nStore.kind 0 (if t.cls = cUNW ∨ x.cls = cUNW then 0 else if t.cls = cPOI then Config.freeLine v.takeFree.1 else l) x
      (BitVec.allOnes 128)).run (if t.cls == cPOI && x.cls != cUNW then v.takeFree.2 else v) = .ok ((), w)) :
    exec (.ltagSt a b) s = .next (w.touch tr true).advance := by
  have hfree : (t.cls == cPOI && x.cls != cUNW) = decide (t.cls = cPOI ∧ x.cls ≠ cUNW) := by
    rw [Bool.decide_and]
    simp [bne, BEq.beq]
  refine deliver_ok s _ _ ?_
  by_cases h : t.cls = cPOI ∧ x.cls ≠ cUNW
  · rw [hfree, decide_eq_true h, if_pos rfl] at hwrite
    simp only [run_bind, htr, hread, if_neg hcls, run_get, hnew, hx, if_pos h, run_set, hwrite, run_touchM, run_advanceM]
  · rw [hfree, decide_eq_false h, if_neg Bool.false_ne_true] at hwrite
    simp only [run_bind, htr, hread, if_neg hcls, run_get, hnew, hx, if_neg h, hwrite, run_touchM, run_advanceM]

end

/-! ### Lines of the scratchpad (R119) -/

/-- A line of the scratchpad that no earlier load of the strand has still to read can be written. -/
theorem run_writeHome_spad {tr : Tr} (hspad : tr.spad = true) {s : State} (hread : s.st.holdsBytes (tr.loc / 128) (BitVec.allOnes 128) = false)
    (kind : BitVec 8) (ix : Nat) (l : Line) (t : Tag) (bytes : BitVec 128) :
    (writeHome tr kind ix l t bytes).run s = .ok ((), (s.putSpad tr.loc l t).spadStored tr.loc bytes) := by
  have hstored : (storedLine tr l).run s = .ok (l, s) := by
    simp only [storedLine, run_bind, run_get, hspad, Bool.not_true, Bool.false_and, Bool.false_eq_true, if_false, run_pure]
  have hput : (putLine tr kind ix l t).run s = .ok ((), s.putSpad tr.loc l t) := by simp only [putLine, run_bind, run_get, hspad, if_true, run_set]
  simp only [writeHome, run_bind, run_get, hspad, Bool.true_and, hread, Bool.false_eq_true, if_false, hstored, hput, spadStoredM, run_modify, if_true]

theorem run_readHome_spad {tr : Tr} (hspad : tr.spad = true) (kind : BitVec 8) (s : State) :
    (readHome tr kind).run s = .ok ((s.core.spad.line tr.loc, s.core.spad.tag tr.loc), s) := by
  simp only [readHome, run_bind, run_get, hspad, if_true, run_pure]

theorem spad_tag_of_line (m : Memory) (n : Nat) : m.tag (128 * (n / 128)) = m.tag n := by
  rw [Memory.tag, Memory.tag, Nat.mul_div_cancel_left _ (by omega)]

section
variable {a : BitVec 5} {s : State} (hwin : inWindow (s.x a) = true)
include hwin

theorem exec_ltagLd_window (d : BitVec 5) :
    let k := spadOff (s.x a) / 128
    exec (.ltagLd d a) s = .next (s.advanceValue d (.ofNat 64 ((s.core.spad.tag (128 * k)).toNat + (if k ∉ s.core.feEmpty then 2 ^ 24 else 0)))) := by
  intro k
  rw [spad_tag_of_line, exec_ltagLd_reads (run_translateAt_window s.via nLoad 0 _ s hwin rfl) (run_readLine_spad (.ofSpad (s.x a)) _ s rfl),
    touch_spad _ (.ofSpad (s.x a)) _ rfl]
  have hspad : ((Tr.ofSpad (s.x a)).spad = true ∧ (Tr.ofSpad (s.x a)).loc / 128 ∉ s.core.feEmpty) ↔ k ∉ s.core.feEmpty := and_iff_right rfl
  simp only [hspad]
  rfl

theorem exec_ltagSt_window (b : BitVec 5) (hheld : s.st.holdsBytes (spadOff (s.x a) / 128) (BitVec.allOnes 128) = false)
    (hcls : (s.core.spad.tag (128 * (spadOff (s.x a) / 128))).cls ≠ cSTG) : ∃ z : State, exec (.ltagSt a b) s = .next z.advance := by
  rw [spad_tag_of_line] at hcls
  have htr := run_translateAt_window s.via nStore 0 _ s hwin rfl
  have hread : (readHome (.ofSpad (s.x a)) nStore.kind).run s = _ := run_readHome_spad rfl _ s
  refine ⟨_, exec_ltagSt_writes htr hread rfl rfl hcls (run_writeHome_spad rfl ?_ _ _ _ _ _)⟩
  split
  · exact hheld
  · exact hheld

end

/-! ### Full/empty bits (R224) -/

/-- The first line that a full/empty instruction names. -/
def State.feFirst (s : State) (a : BitVec 5) : Nat := (s.x a).toNat % 4194304 / 128

/-- How many lines a full/empty instruction names. -/
def State.feCount (s : State) (b : BitVec 5) : Nat := if b = 0 then 1 else (s.x b).toNat

theorem empties_eq_countP (c : Core) (k n : Nat) : c.empties k n = c.feEmpty.countP fun i => decide (k ≤ i ∧ i < k + n) := by
  rw [Core.empties, List.countP_eq_length_filter]
  simp only [Bool.decide_and]

theorem mem_setFe (c : Core) (k n : Nat) (full : Bool) (i : Nat) :
    i ∈ (c.setFe k n full).feEmpty ↔ if k ≤ i ∧ i < k + n then full = false else i ∈ c.feEmpty := by
  have hrange : i ∈ (if full then [] else List.range' k n) ↔ full = false ∧ k ≤ i ∧ i < k + n := by
    cases full <;> simp [List.mem_range'_1]
  rw [Core.setFe]
  simp only [List.mem_append, hrange, List.mem_filter, decide_eq_true_eq]
  split
  next h => simp [h, show ¬ i < k by omega, show ¬ k + n ≤ i by omega]
  next h =>
    have hout : i < k ∨ k + n ≤ i := by omega
    constructor
    · rintro ((⟨hi, _⟩ | ⟨_, hi⟩) | ⟨hi, _⟩)
      · exact hi
      · exact absurd hi h
      · exact hi
    · exact fun hi => hout.elim (fun hlt => .inl (.inl ⟨hi, hlt⟩)) fun hge => .inr ⟨hi, hge⟩

theorem holdsLines_eq_true_iff (t : Strand) (k n : Nat) :
    t.holdsLines k n = true ↔ ∃ i, k ≤ i ∧ i < k + n ∧ t.holdsBytes i (BitVec.allOnes 128) = true := by
  rw [Strand.holdsLines, List.any_eq_true]
  simp only [List.mem_range'_1, and_assoc]

section
variable {d a b : BitVec 5} {s : State}

theorem run_feRange_bad (h : s.feCount b = 0 ∨ 32768 < s.feFirst a + s.feCount b) : (feRange a b).run s = .error (.trap 0x05 0 (s.x a) 0) := by
  have hbad : (if b = 0 then 1 else (s.x b).toNat) = 0 ∨ 32768 < spadOff (s.x a) / 128 + (if b = 0 then 1 else (s.x b).toNat) := h
  simp only [feRange, run_bind, run_get, if_pos hbad, run_stop]
  rfl

section
variable (hsome : s.feCount b ≠ 0) (hin : s.feFirst a + s.feCount b ≤ 32768)
include hsome hin

theorem run_feRange : (feRange a b).run s = .ok ((s.feFirst a, s.feCount b), s) := by
  have hok : ¬ ((if b = 0 then 1 else (s.x b).toNat) = 0 ∨ 32768 < spadOff (s.x a) / 128 + (if b = 0 then 1 else (s.x b).toNat)) :=
    not_or.mpr ⟨hsome, hin.not_gt⟩
  simp only [feRange, run_bind, run_get, if_neg hok, run_pure]
  rfl

theorem exec_feWait_full (h : s.core.empties (s.feFirst a) (s.feCount b) = 0) : exec (.feWait a b) s = .next s.advance :=
  deliver_ok s _ _ (by simp only [run_bind, run_feRange hsome hin, h, ne_eq, not_true_eq_false, if_false, run_advanceM])

theorem exec_feWait_waits (h : s.core.empties (s.feFirst a) (s.feCount b) ≠ 0) : exec (.feWait a b) s = .next s.await :=
  deliver_wait s _ (by simp only [run_bind, run_feRange hsome hin, if_pos h, run_stop])

theorem run_changeFe_waits (full : Bool) (h : s.st.holdsLines (s.feFirst a) (s.feCount b) = true) : (changeFe d a b full).run s = .error .wait := by
  simp only [changeFe, run_bind, run_feRange hsome hin, run_get, if_pos h, run_stop]

theorem run_changeFe_sets (full : Bool) (h : s.st.holdsLines (s.feFirst a) (s.feCount b) = false) : (changeFe d a b full).run s =
    .ok ((), ({ s with core := s.core.setFe (s.feFirst a) (s.feCount b) full } : State).advanceValue d
      (.ofNat 64 (s.feCount b - s.core.empties (s.feFirst a) (s.feCount b)))) := by
  simp only [changeFe, run_bind, run_feRange hsome hin, run_get, h, Bool.false_eq_true, if_false, run_set, run_modify]

end
end

/-- Settles O44: a tag by its fields, the instructions on lines by their checks, those on ranges by the range that they name. -/
theorem lineTagsAndFullEmptyBits : Obligations.LineTagsAndFullEmptyBits := by
  unfold Obligations.LineTagsAndFullEmptyBits
  refine ⟨?tags, ?bits⟩
  case tags =>
    intro d a b s u v w tr l t new x
    exact ⟨Tag.fmt_retag .., Tag.scl_retag t .., Tag.cls_retag t _ _ _ _ (Tag.cls_read new), Tag.pln_retag t .., Tag.high_retag t _ _ _ _ (by omega) (by omega),
      Tag.high_retag t _ _ _ _ (by omega) (by omega), exec_ltagLd_reads, fun htr hread hcls => exec_ltagSt_writes htr hread rfl rfl hcls, exec_ltagSt_stg,
      fun hwin => ⟨exec_ltagLd_window hwin d, exec_ltagSt_window hwin b⟩⟩
  case bits =>
    intro d a b s k n empty
    have hempty : s.core.empties k n = empty := empties_eq_countP _ _ _
    refine ⟨fun hsome hin => ⟨fun h => exec_feWait_full hsome hin (hempty.trans h), fun h => exec_feWait_waits hsome hin (hempty.trans_ne h),
      fun h => ?sets, fun h => ?waits, fun full i => mem_setFe s.core k n full i⟩, fun h => ?bad⟩
    case sets =>
      have hread : s.st.holdsLines k n = false := by
        rw [Bool.eq_false_iff, ne_eq, holdsLines_eq_true_iff]
        rintro ⟨i, hlo, hhi, hheld⟩
        exact Bool.false_ne_true ((h i hlo hhi).symm.trans hheld)
      rw [← hempty]
      exact ⟨deliver_ok s _ _ (run_changeFe_sets hsome hin true hread), deliver_ok s _ _ (run_changeFe_sets hsome hin false hread)⟩
    case waits =>
      have hread := (holdsLines_eq_true_iff s.st k n).mpr h
      exact ⟨deliver_wait s _ (run_changeFe_waits hsome hin true hread), deliver_wait s _ (run_changeFe_waits hsome hin false hread)⟩
    case bad =>
      have hbad := run_feRange_bad h
      exact ⟨deliver_trap s _ _ _ _ _ (by simp only [run_bind, hbad]), deliver_trap s _ _ _ _ _ (by simp only [changeFe, run_bind, hbad]),
        deliver_trap s _ _ _ _ _ (by simp only [changeFe, run_bind, hbad])⟩

end Sys2Proof.Machine

/-! SUPPORT. Batches and watch counters (R244 to R246), and the event records of a core (R250). -/

namespace Sys2Proof.Machine

/-! ### Closing a batch and waiting for batches (R244, R245) -/

section
variable {s u : State} {n : BitVec 32}

theorem run_closeBatch_full (evt : Option (BitVec 32)) (h : 64 ≤ s.core.outstanding s.st.slot) : (closeBatch evt).run s = .error .wait := by
  simp only [closeBatch, run_bind, run_get, if_pos h, run_stop]

theorem run_closeBatch (evt : Option (BitVec 32)) (hroom : s.core.outstanding s.st.slot < 64) (hopen : openBatch.run s = .ok (n, u)) :
    (closeBatch evt).run s = .ok ((), u.updBatch (fun x => x.who == s.st.slot && x.num == n) fun x => { x with closed := true, evt := evt }) := by
  simp only [closeBatch, run_bind, run_get, if_neg hroom.not_ge, hopen, run_modify]

theorem exec_cpClose_full (a : BitVec 5) (h : 64 ≤ s.core.outstanding s.st.slot) : exec (.cpClose a) s = .next s.await :=
  deliver_wait s _ (by simp only [run_bind, run_closeBatch_full _ h])

theorem exec_cpClose_closes (a : BitVec 5) (hroom : s.core.outstanding s.st.slot < 64) (hopen : openBatch.run s = .ok (n, u)) :
    exec (.cpClose a) s = .next (u.updBatch (fun x => x.who == s.st.slot && x.num == n) fun x =>
      { x with closed := true, evt := if a = 0 then none else some ((s.x a).extractLsb' 0 32) }).advance :=
  deliver_ok s _ _ (by simp only [run_bind, run_closeBatch _ hroom hopen, run_advanceM])

/-- Where no batch of the strand is open, `cp.wait` waits for those that are closed. -/
theorem exec_cpWait_closed (w : BitVec 5) (h : ∀ x ∈ s.core.batches, x.who = s.st.slot → x.closed = true) :
    exec (.cpWait w) s = .next (if s.core.outstanding s.st.slot ≤ w.toNat then s.advance else s.await) := by
  have hnone : (s.core.batches.any fun b => b.who == s.st.slot && !b.closed) = false := by
    refine List.any_eq_false.mpr fun x hx hopen => ?_
    obtain ⟨hwho, hnot⟩ := Bool.and_eq_true_iff.mp hopen
    rw [h x hx (beq_iff_eq.mp hwho)] at hnot
    exact Bool.false_ne_true hnot
  change execCpWait w s = _
  simp only [execCpWait, hnone, Bool.false_eq_true, if_false]
  split <;> rfl

/-- An open batch is closed first, and counts among those that `cp.wait` waits for. -/
theorem exec_cpWait_open (w : BitVec 5) (hroom : s.core.outstanding s.st.slot < 64) (hopen : openBatch.run s = .ok (n, u))
    (h : ∃ x ∈ s.core.batches, x.who = s.st.slot ∧ x.closed = false) :
    let t := u.updBatch (fun x => x.who == s.st.slot && x.num == n) fun x => { x with closed := true, evt := none }
    exec (.cpWait w) s = .next (if t.core.outstanding s.st.slot ≤ w.toNat then t.advance else t.await) := by
  intro t
  have hsome : (s.core.batches.any fun b => b.who == s.st.slot && !b.closed) = true := by
    obtain ⟨x, hx, hwho, hclosed⟩ := h
    exact List.any_eq_true.mpr ⟨x, hx, by rw [hwho, hclosed, beq_self_eq_true]; rfl⟩
  change execCpWait w s = _
  simp only [execCpWait, hsome, if_true, run_closeBatch none hroom hopen]
  split <;> rfl

end

/-! ### Watch counters (R246) -/

section
variable {k : BitVec 4} {a : BitVec 5} {s : State}

theorem exec_wset_waits (h : (s.core.watchAt k).front ≠ (s.core.watchAt k).assigned) : exec (.wset k a) s = .next s.await :=
  deliver_wait s _ (by simp only [run_bind, if_pos h, run_stop])

section
variable (hdone : (s.core.watchAt k).front = (s.core.watchAt k).assigned)
include hdone

theorem exec_wset_sets (h : s.st.grant * (if a = 0 then 1 else (s.x a).toNat) < 2 ^ 32) : exec (.wset k a) s =
    .next ({ s with core := s.core.setWatch k ⟨.ofNat 32 (s.st.grant * (if a = 0 then 1 else (s.x a).toNat)), 0, 0, []⟩ } : State).advance :=
  deliver_ok s _ _ (by simp only [run_bind, if_neg (not_not.mpr hdone), if_neg h.not_ge, run_modify, run_advanceM])

theorem exec_wset_range (h : 2 ^ 32 ≤ s.st.grant * (if a = 0 then 1 else (s.x a).toNat)) : exec (.wset k a) s = .next (s.takeTrap 0x0F 0 0 0) :=
  deliver_trap s _ _ _ _ _ (by simp only [run_bind, if_neg (not_not.mpr hdone), if_pos h, run_raiseTrap]; rfl)

end

theorem exec_wwait_eq : exec (.wwait k a) s = .next
    (if (if a = 0 then (s.core.watchAt k).expect.toNat else Nat.min (s.x a).toNat (s.core.watchAt k).expect.toNat) ≤ (s.core.watchAt k).front.toNat
      then s.advance else s.await) := by
  generalize hm : (if a = 0 then (s.core.watchAt k).expect.toNat else Nat.min (s.x a).toNat (s.core.watchAt k).expect.toNat) = m
  split
  next h => exact deliver_ok s _ _ (by simp only [hm, if_neg h.not_gt, run_advanceM])
  next h => exact deliver_wait s _ (by simp only [run_bind, hm, if_pos (lt_of_not_ge h), run_stop])

end

/-! ### Batches complete, records are posted (R244, R250) -/

theorem execBatchComplete_completes {who : Nat} {s : State} {x : Batch} {r : List Batch}
    (hfirst : takeFirst (fun x => x.who == who) s.core.batches = some (x, r)) (hclosed : x.closed = true) (hidle : s.core.batchIdle x = true)
    (hroom : x.evt = none ∨ s.core.shuttleHeld < 64) :
    let told : Core := x.knot.elim { s.core with batches := r } fun k => ({ s.core with batches := r } : Core).signal k 1
    exec (.batchComplete who) s = .next { s with core := x.evt.elim told fun g => told.post (s.batchEvent x g) } := by
  have hgoes : (!x.closed || !s.core.batchIdle x || (x.evt.isSome && decide (64 ≤ s.core.shuttleHeld))) = false := by
    rw [hclosed, hidle]
    rcases hroom with hnone | hroom
    · rw [hnone]
      rfl
    · rw [decide_eq_false hroom.not_ge, Bool.and_false]
      rfl
  change execBatchComplete who s = _
  simp only [execBatchComplete, hfirst, hgoes, Bool.false_eq_true, if_false]

/-- The first entry that satisfies a test stands behind those that do not. -/
theorem takeFirst_append {α : Type} {p : α → Bool} {e : α} (he : p e = true) (r : List α) :
    ∀ xs : List α, (∀ y ∈ xs, p y = false) → takeFirst p (xs ++ e :: r) = some (e, xs ++ r)
  | [], _ => if_pos he
  | y :: ys, h => by
    have hy : ¬ p y = true := Bool.eq_false_iff.mp (h y List.mem_cons_self)
    have ih := takeFirst_append he r ys fun z hz => h z (List.mem_cons_of_mem y hz)
    simp only [List.cons_append, takeFirst, if_neg hy, ih, Option.map_some]

theorem execEventPost_posts {s : State} {xs : List Ev} {e : Ev} {r : List Ev} (hroom : s.core.evq.length < 256) (hheld : s.core.evHeld = xs ++ e :: r)
    (hskip : ∀ y ∈ xs, s.core.mayPost y = false) (hpost : s.core.mayPost e = true) :
    exec .eventPost s = .next { s with core := { s.core with evq := s.core.evq ++ [e], evHeld := xs ++ r } } := by
  have hfirst : takeFirst s.core.mayPost s.core.evHeld = some (e, xs ++ r) := hheld ▸ takeFirst_append hpost r xs hskip
  change execEventPost s = _
  rw [execEventPost, Core.postHeld, if_neg hroom.not_ge, hfirst]

/-- Settles O46: each instruction and each step by its own lemma; the batch that closes is the strand's own. -/
theorem batchesAndCounters : Obligations.BatchesAndCounters := by
  unfold Obligations.BatchesAndCounters
  intro a w k s u n slot shut wait c count
  refine ⟨fun hroom hopen hslot => ⟨?close, fun h => ?wait⟩, exec_cpWait_closed w, exec_cpClose_full a, exec_wset_sets, exec_wset_range,
    exec_wset_waits, exec_wwait_eq, fun who x r => execBatchComplete_completes, fun xs e r => execEventPost_posts⟩
  case close =>
    rw [exec_cpClose_closes a hroom hopen, ← show u.st.slot = s.st.slot from hslot]
  case wait =>
    rw [exec_cpWait_open w hroom hopen h, ← show u.st.slot = s.st.slot from hslot]
    rfl

end Sys2Proof.Machine

/-! SUPPORT. `acq`, `tryacq` and `rel` (R265 to R269, R273, R277, R278; log 36) on a clasp line that passes their shared checks. -/

namespace Sys2Proof.Machine

/-! ### What an attempt to acquire or to release comes to (R265) -/

theorem settleAcquire_ok {s t : State} {m : M Bool} (h : m.run s = .ok (true, t)) : settleAcquire s m = t := by rw [settleAcquire, h]

theorem settleAcquire_waits {s t : State} {m : M Bool} (h : m.run s = .ok (false, t)) : settleAcquire s m = t.await := by rw [settleAcquire, h]

/-- A trap withdraws the strand's requests (R267). -/
theorem settleAcquire_trap {s : State} {m : M Bool} {c : BitVec 8} {i : BitVec 32} {ad : Word} {f : BitVec 8} (h : m.run s = .error (.trap c i ad f)) :
    settleAcquire s m = s.withdraw.takeTrap c i ad f := by
  rw [settleAcquire, h]
  rfl

theorem settleKept_ok {s t : State} {m : M Bool} (h : m.run s = .ok (true, t)) : settleKept s m = t := by rw [settleKept, h]

theorem settleKept_waits {s t : State} {m : M Bool} (h : m.run s = .ok (false, t)) : settleKept s m = t.await := by rw [settleKept, h]

theorem settleKept_wait {s : State} {m : M Bool} (h : m.run s = .error .wait) : settleKept s m = s.await := by
  rw [settleKept, h]
  rfl

theorem settleKept_trap {s : State} {m : M Bool} {c : BitVec 8} {i : BitVec 32} {ad : Word} {f : BitVec 8} (h : m.run s = .error (.trap c i ad f)) :
    settleKept s m = s.takeTrap c i ad f := by
  rw [settleKept, h]
  rfl

theorem run_claspTrap {α : Type} (i : BitVec 32) (va : Word) (s : State) : (claspTrap i va : M α).run s = .error (.trap 0x10 i va 0) := rfl

/-- The requests that stand ahead of the acting strand's own (R268). -/
def State.ahead (u : State) (loc : Nat) : List ClaspReq :=
  (u.dev.claspHome loc).fifo.takeWhile fun r => !(r.core == u.core.num && r.who == u.st.slot)

theorem isBehind_iff (u : State) (loc : Nat) : u.isBehind loc = true ↔ u.ahead loc ≠ [] := by
  have hahead : u.isBehind loc = !(u.ahead loc).isEmpty := rfl
  rw [hahead, Bool.not_eq_true', ← Bool.not_eq_true, List.isEmpty_iff]

/-- The state after a request that the home refuses: one message more where the request stood there before, else two (R268, R277). -/
def State.refused (u : State) (loc : Nat) : State :=
  let n := if (u.dev.claspHome loc).fifo.any u.isOwn then 1 else 2
  { u.withdraw with dev := u.withdraw.dev.updClasp loc (·.count n) }

theorem lock_not_barrier {l : Line} (h : clMode l = 0) : ¬ clMode l = 1 := by omega

theorem lock_may_ask {u : State} {l : Line} {loc : Nat} (hfree : u.holds l = false) (hothers : u.otherWaits loc = false) :
    ¬ (u.holds l || u.otherWaits loc) = true := by
  rw [hfree, hothers]
  exact Bool.false_ne_true

theorem lock_is_free {u : State} {l : Line} {loc : Nat} (hnone : clHeld l = false) (hfirst : u.ahead loc = []) :
    ¬ (clHeld l || u.isBehind loc) = true := by
  rw [hnone, Bool.false_or, isBehind_iff, not_not]
  exact hfirst

section
variable {d a : BitVec 5} {s u v : State} {tr : Tr} {l : Line} (hline : (claspLine (s.x a)).run s = .ok ((tr, l), u))
include hline

/-! ### Locks (R266 to R268) -/

section
variable (hlock : clMode l = 0)
include hlock

/-- A core that holds the lock, or another of whose strands waits for it, may not ask for it again (Table 13.6). -/
theorem acquire_refused (h : u.holds l = true ∨ u.otherWaits (tr.loc / 128) = true) :
    exec (.acq d a) s = .next (s.withdraw.takeTrap 0x10 4 (s.x a) 0) ∧ exec (.tryacq d a) s = .next (s.withdraw.takeTrap 0x10 4 (s.x a) 0) := by
  have hbad : (u.holds l || u.otherWaits (tr.loc / 128)) = true := Bool.or_eq_true_iff.mpr h
  have hmode := lock_not_barrier hlock
  exact ⟨congrArg _ (settleAcquire_trap (by simp only [acquire, run_bind, run_get, hline, if_neg hmode, if_pos hbad, run_claspTrap])),
    congrArg _ (settleAcquire_trap (by simp only [tryAcquire, run_bind, run_get, hline, if_neg hmode, if_pos hbad, run_claspTrap]))⟩

section
variable (hfree : u.holds l = false) (hothers : u.otherWaits (tr.loc / 128) = false)
include hfree hothers

/-- A core that retains the lock grants it to itself. -/
theorem acquire_retained (hretains : (u.dev.claspHome (tr.loc / 128)).retainer = some u.core.num) (hgrant : (grantLock tr (s.x a) l).run u = .ok ((), v)) :
    exec (.acq d a) s = .next (v.advanceValue d (clRseq l)) ∧ exec (.tryacq d a) s = .next (v.advanceValue d 1) := by
  have hmode := lock_not_barrier hlock
  have hask := lock_may_ask hfree hothers
  exact ⟨congrArg _ (settleAcquire_ok (by
      simp only [acquire, run_bind, run_get, hline, if_neg hmode, if_neg hask, if_pos hretains, hgrant, run_modify, run_pure])),
    congrArg _ (settleAcquire_ok (by
      simp only [tryAcquire, run_bind, run_get, hline, if_neg hmode, if_neg hask, if_pos hretains, hgrant, run_modify, run_pure]))⟩

section
variable (hother : (u.dev.claspHome (tr.loc / 128)).retainer ≠ some u.core.num)
include hother

section
variable {w : State} (hw : (u.enqueueClasp (tr.loc / 128) false).progress (tr.loc / 128) = w)
include hw

/-- The request that stands first in the FIFO of a clasp that may be granted is granted at once (log 36). -/
theorem acquire_granted
    (hnow : (w.atHead (tr.loc / 128) && ((w.dev.claspHome (tr.loc / 128)).granted || w.dev.grantable (tr.loc / 128)) && !w.roomWaits (tr.loc / 128)) = true)
    {l' : Line} (hl : (if (w.dev.homeLine tr).2.cls = cUNW then 0 else (w.dev.homeLine tr).1) = l')
    (hgrant : (grantLock tr (s.x a) l').run w = .ok ((), v)) : exec (.acq d a) s = .next (v.advanceValue d (clRseq l')) :=
  congrArg _ (settleAcquire_ok (by
    simp only [acquire, run_bind, run_get, hline, if_neg (lock_not_barrier hlock), if_neg (lock_may_ask hfree hothers), if_neg hother,
      run_set, hw, if_pos hnow, hl, hgrant, run_modify, run_pure]))

/-- A request that is not granted stays in the FIFO, and the strand waits. -/
theorem acquire_queued
    (hnow : (w.atHead (tr.loc / 128) && ((w.dev.claspHome (tr.loc / 128)).granted || w.dev.grantable (tr.loc / 128)) && !w.roomWaits (tr.loc / 128)) = false) :
    exec (.acq d a) s = .next w.await :=
  congrArg _ (settleAcquire_waits (by
    simp only [acquire, run_bind, run_get, hline, if_neg (lock_not_barrier hlock), if_neg (lock_may_ask hfree hothers), if_neg hother,
      run_set, hw, hnow, Bool.false_eq_true, if_false, run_pure]))

end

/-- A lock that is held, or for which others stand ahead, is not tried for (R268). -/
theorem tryAcquire_fails (hbusy : clHeld l = true ∨ u.ahead (tr.loc / 128) ≠ [])
    (htouch : touchM tr (u.refused (tr.loc / 128)) = .ok ((), v)) :
    exec (.tryacq d a) s = .next (v.advanceValue d 0) := by
  have hbehind : (clHeld l || u.isBehind (tr.loc / 128)) = true := Bool.or_eq_true_iff.mpr (hbusy.imp_right (isBehind_iff ..).mpr)
  obtain rfl : (u.refused (tr.loc / 128)).touch tr true = v := congrArg Prod.snd (Except.ok.inj htouch)
  refine congrArg _ (settleAcquire_ok ?_)
  simp only [tryAcquire, run_bind, run_get, hline, if_neg (lock_not_barrier hlock), if_neg (lock_may_ask hfree hothers), if_neg hother,
    if_pos hbehind, run_modify, run_touchM, run_pure]
  rfl

section
variable (hnone : clHeld l = false) (hfirst : u.ahead (tr.loc / 128) = []) {z : State}
  (hz : (u.enqueueClasp (tr.loc / 128) true).progress (tr.loc / 128) = z)
include hnone hfirst hz

theorem tryAcquire_granted (hnow : (z.dev.grantable (tr.loc / 128) && !z.roomWaits (tr.loc / 128)) = true)
    (hgrant : (grantLock tr (s.x a) (if (z.dev.homeLine tr).2.cls = cUNW then 0 else (z.dev.homeLine tr).1)).run z = .ok ((), v)) :
    exec (.tryacq d a) s = .next (v.advanceValue d 1) :=
  congrArg _ (settleAcquire_ok (by
    simp only [tryAcquire, run_bind, run_get, hline, if_neg (lock_not_barrier hlock), if_neg (lock_may_ask hfree hothers), if_neg hother,
      if_neg (lock_is_free hnone hfirst), run_set, hz, if_pos hnow, hgrant, run_modify, run_pure]))

theorem tryAcquire_queued (hnow : (z.dev.grantable (tr.loc / 128) && !z.roomWaits (tr.loc / 128)) = false) : exec (.tryacq d a) s = .next z.await :=
  congrArg _ (settleAcquire_waits (by
    simp only [tryAcquire, run_bind, run_get, hline, if_neg (lock_not_barrier hlock), if_neg (lock_may_ask hfree hothers), if_neg hother,
      if_neg (lock_is_free hnone hfirst), run_set, hz, hnow, Bool.false_eq_true, if_false, run_pure]))

end
end
end

/-! ### Releases of locks (R269, R273) -/

section
variable (hread : s.st.unread = false)
include hread

theorem release_done (h : (releaseLock tr (s.x a) l).run u = .ok (true, v)) : exec (.rel a) s = .next v.advance :=
  congrArg _ (settleKept_ok (by
    simp only [release, run_bind, run_get, hread, Bool.false_eq_true, if_false, hline, if_neg (lock_not_barrier hlock), h, if_true, run_advanceM, run_pure]))

theorem release_waits (h : (releaseLock tr (s.x a) l).run u = .ok (false, v)) : exec (.rel a) s = .next v.await :=
  congrArg _ (settleKept_waits (by
    simp only [release, run_bind, run_get, hread, Bool.false_eq_true, if_false, hline, if_neg (lock_not_barrier hlock), h, run_pure]))

/-- A lock that the core does not hold is not released, but by the strand whose release is under way (Table 13.6). -/
theorem release_not_held (hfree : u.holds l = false) (hnone : ∀ e, u.core.entryFor (tr.loc / 128) = some e → e.relBy = none) :
    exec (.rel a) s = .next (s.takeTrap 0x10 3 (s.x a) 0) := by
  have hover : ((u.core.entryFor (tr.loc / 128)).any fun e => e.relBy == some u.st.slot) = false := by
    cases hentry : u.core.entryFor (tr.loc / 128) with
    | none => rfl
    | some e => rw [Option.any_some, hnone e hentry]; rfl
  have hrun : (releaseLock tr (s.x a) l).run u = .error (.trap 0x10 3 (s.x a) 0) := by
    simp only [releaseLock, run_bind, run_get, hover, Bool.false_eq_true, if_false, hfree, Bool.not_false, if_true, run_claspTrap]
  exact congrArg _ (settleKept_trap (by
    simp only [release, run_bind, run_get, hread, Bool.false_eq_true, if_false, hline, if_neg (lock_not_barrier hlock), hrun]))

end
end

/-! ### Barriers (R278) -/

section
variable (hbarrier : clMode l = 1)
include hbarrier

theorem barrier_acq_waits (h : u.barrierWaits (tr.loc / 128) l = true) : exec (.acq d a) s = .next u.await :=
  congrArg _ (settleAcquire_waits (by simp only [acquire, run_bind, run_get, hline, if_pos hbarrier, h, if_true, run_pure]))

theorem barrier_tryacq_waits (h : u.barrierWaits (tr.loc / 128) l = true)
    (htouch : touchM tr { u with dev := u.dev.updClasp (tr.loc / 128) (·.count 2) } = .ok ((), v)) : exec (.tryacq d a) s = .next (v.advanceValue d 0) := by
  refine congrArg _ (settleAcquire_ok ?_)
  simp only [tryAcquire, run_bind, run_get, hline, if_pos hbarrier, h, if_true, run_modify, run_pure]
  rw [show (touchM tr).run _ = _ from htouch]

theorem barrier_passes (h : u.barrierWaits (tr.loc / 128) l = false) (hpass : (passBarrier d tr (s.x a) l).run u = .ok ((), v)) :
    exec (.acq d a) s = .next v ∧ exec (.tryacq d a) s = .next v :=
  ⟨congrArg _ (settleAcquire_ok (by
      simp only [acquire, run_bind, run_get, hline, if_pos hbarrier, h, Bool.false_eq_true, if_false, hpass, run_pure])),
    congrArg _ (settleAcquire_ok (by
      simp only [tryAcquire, run_bind, run_get, hline, if_pos hbarrier, h, Bool.false_eq_true, if_false, hpass, run_pure]))⟩

theorem barrier_arrives (hread : s.st.unread = false) (h : (arriveBarrier tr l).run u = .ok ((), v)) : exec (.rel a) s = .next v.advance :=
  congrArg _ (settleKept_ok (by
    simp only [release, run_bind, run_get, hread, Bool.false_eq_true, if_false, hline, if_pos hbarrier, h, if_true, run_advanceM, run_pure]))

end
end

/-- A release waits for the loads of the strand that are still to be read (R120). -/
theorem release_unread {a : BitVec 5} {s : State} (h : s.st.unread = true) : exec (.rel a) s = .next s.await :=
  congrArg _ (settleKept_wait (by simp only [release, run_bind, run_get, h, if_true, run_stop]))

/-- Without a waiter the lock is released and stays retained (R269). -/
theorem run_releaseLock_kept {tr : Tr} {va : Word} {l : Line} {u v : State} {e : LazyEntry} (hentry : u.core.entryFor (tr.loc / 128) = some e)
    (hrel : e.relBy = none) (hwaiter : e.waiter = false) (hholds : u.holds l = true)
    (hput : (putClasp tr (u.releasedLine l 1)).run
      { u with core := u.core.updEntry (tr.loc / 128) fun e => { e with held := false, seen := clRseq l + 1 } } = .ok ((), v)) :
    (releaseLock tr va l).run u = .ok (true, v) := by
  have hover : ((some e).any fun e => e.relBy == some u.st.slot) = false := by rw [Option.any_some, hrel]; rfl
  simp only [releaseLock, run_bind, run_get, hentry, hover, Bool.false_eq_true, if_false, hholds, Bool.not_true, hwaiter, run_modify, hput, run_pure]

/-- Settles O48: locks by whether the core holds, retains or must ask for them, barriers by whether they are passed, releases by what they wait for. -/
theorem claspsAreTaken : Obligations.ClaspsAreTaken := by
  unfold Obligations.ClaspsAreTaken
  intro d a s u v tr l va loc hline mine
  refine ⟨fun hlock => ⟨acquire_refused hline hlock, acquire_retained hline hlock, fun hfree hothers hother => ?home, release_done hline hlock,
      release_waits hline hlock, release_not_held hline hlock⟩, release_unread, fun hbarrier => ⟨barrier_acq_waits hline hbarrier,
      barrier_passes hline hbarrier, barrier_tryacq_waits hline hbarrier, barrier_arrives hline hbarrier⟩, fun e => run_releaseLock_kept⟩
  case home =>
    intro w now l'
    exact ⟨fun hnow => acquire_granted hline hlock hfree hothers hother rfl hnow rfl, acquire_queued hline hlock hfree hothers hother rfl,
      tryAcquire_fails hline hlock hfree hothers hother, fun hnone hfirst =>
        ⟨tryAcquire_granted hline hlock hfree hothers hother hnone hfirst rfl, tryAcquire_queued hline hlock hfree hothers hother hnone hfirst rfl⟩⟩

end Sys2Proof.Machine

/-! SUPPORT. The recall of a clasp (R276, R284, R338; log 28) from a core whose number is one by which a home knows a core of another device. -/

namespace Sys2Proof.Machine

/-- The entry of a clasp that its core holds and retains, nobody waiting for it. -/
def heldEntry : LazyEntry := ⟨0, 1, 0, [], 0, [], [], 0, true, true, false, false, none⟩

/-- What the home keeps of a clasp that core 5 has asked for, while a core numbered as core 0 of device 0 is known to a home retains it. -/
def askedHome : ClaspHome := ⟨0, [⟨5, 0, false⟩], some (foreignCore 0 0), false, [], 0, none, [], false, 0⟩

/-- The core of that number, which holds the clasp. -/
def numberedAsForeign : State where
  st := .bootCc 0
  core := { Core.fresh (foreignCore 0 0) 0 false with lazy := [heldEntry] }
  dev := { Dev.boot configFull configFull with cores := [], clasps := [askedHome] }
  agenda := []

theorem claspHome_numberedAsForeign : numberedAsForeign.dev.claspHome 0 = askedHome := rfl

theorem entryFor_numberedAsForeign : numberedAsForeign.wholeCore.entryFor 0 = some heldEntry := rfl

/-- Its recall leaves over Lacing: the core does not learn that another waits. -/
theorem recall_numberedAsForeign : (numberedAsForeign.recall 0).core.lazy = [heldEntry] := rfl

theorem lazy_numberedAsForeign : numberedAsForeign.core.lazy = [heldEntry] := rfl

/-- Refutes O49: where the acting core has a number from 65,536 on, the home takes it for a core of another device, so that the recall leaves over
Lacing; the statement, which does not bound the number, has the core's own entry note the waiter. -/
theorem not_claspMessages : ¬ Obligations.ClaspMessages := by
  unfold Obligations.ClaspMessages
  intro h
  obtain ⟨-, -, -, -, -, -, -, -, -, hrecall, -⟩ := h 0 numberedAsForeign
  rw [claspHome_numberedAsForeign] at hrecall
  obtain ⟨-, hheld, -⟩ := hrecall (List.cons_ne_nil _ _) rfl heldEntry entryFor_numberedAsForeign
  obtain ⟨hlazy, -⟩ := hheld rfl
  rw [recall_numberedAsForeign, lazy_numberedAsForeign] at hlazy
  have hwaiter : [false] = [true] := congrArg (List.map LazyEntry.waiter) hlazy
  exact absurd hwaiter (by decide)

end Sys2Proof.Machine

/-! SUPPORT. The containers of gangs (R325 to R330): what `ctx.save` leaves, the status `ctx.load` answers, and the gang it restores. -/

namespace Sys2Proof.Machine

/-! ### The resident level -/

theorem run_onlyResident {s : State} (hcc : s.st.kind = .cc) (hres : s.core.resident = true) : onlyResident.run s = .ok ((), s) := by
  simp only [onlyResident, onlyKind, run_bind, run_get, hcc, ne_eq, not_true_eq_false, if_false, run_pure, hres, Bool.not_true, Bool.false_eq_true]

/-! ### `ctx.save` (R326) -/

/-- Only bit 0 of a word is set where it is below 2. -/
theorem extractLsb'_aboveBit0_eq_zero (v : Word) : v.extractLsb' 1 63 = 0 ↔ v.toNat < 2 := by
  rw [← BitVec.toNat_inj, BitVec.extractLsb'_toNat, Nat.shiftRight_eq_div_pow]
  change v.toNat / 2 ^ 1 % 2 ^ 63 = 0 ↔ _
  have := v.isLt
  omega

theorem saveArgs_good {v w : Word} (halign : v.toNat % 4096 = 0) (hmode : w.toNat < 2) : ¬ (v.toNat % 4096 ≠ 0 ∨ w.extractLsb' 1 63 ≠ 0) := by
  simp [halign, (extractLsb'_aboveBit0_eq_zero w).mpr hmode]

theorem State.onCore_dev (s : State) (f : Dev → Core → Dev × Core) : (s.onCore f).dev = (f s.dev s.wholeCore).1 := by
  unfold State.onCore
  dsimp only
  split
  · rfl
  · split <;> rfl

theorem State.leaveGang_dev (s : State) : s.leaveGang.dev = s.dev := s.onCore_dev _

/-- A launch that is told of a saved gang, where it asks for that, leaves the saved gangs. -/
theorem Dev.updLaunch_saved_ite (d : Dev) (c : Bool) (p n : Nat) (f : Launch → Launch) :
    (if c = true then d.updLaunch p n f else d).saved = d.saved := by
  split
  · exact d.updPart_saved _ _
  · rfl

section
variable {d a b : BitVec 5} {s : State} (hcc : s.st.kind = .cc) (hres : s.core.resident = true)
include hcc hres

theorem exec_ctxSave_misused (h : (s.x a).toNat % 4096 ≠ 0 ∨ 2 ≤ (s.x b).toNat) :
    exec (.ctxSave d a b) s = .next (s.setX d (BitVec.allOnes 64)).advance := by
  have hbad : (s.x a).toNat % 4096 ≠ 0 ∨ (s.x b).extractLsb' 1 63 ≠ 0 :=
    h.imp_right fun h => mt (extractLsb'_aboveBit0_eq_zero _).mp h.not_gt
  refine deliver_ok s _ _ ?_
  simp only [run_bind, run_onlyResident hcc hres, if_pos hbad, run_setXM, run_advanceM]

section
variable (halign : (s.x a).toNat % 4096 = 0) (hmode : (s.x b).toNat < 2)
include halign hmode

theorem exec_ctxSave_noGang (h : s.core.gang = none) : exec (.ctxSave d a b) s = .next (s.setX d 0).advance := by
  have hgood := saveArgs_good halign hmode
  refine deliver_ok s _ _ ?_
  simp only [run_bind, run_onlyResident hcc hres, if_neg hgood, h, run_setXM, run_advanceM]

section
variable {g : Gang} (hgang : s.core.gang = some g)
include hgang

theorem exec_ctxSave_waits (h : s.backWaits (fun _ => true) = true ∨ s.dev.turnsIn (s.x a).toNat (contLayout g.h).2 = true) :
    exec (.ctxSave d a b) s = .next s.await := by
  have hgood := saveArgs_good halign hmode
  refine deliver_wait s _ ?_
  simp only [run_bind, run_onlyResident hcc hres, if_neg hgood, hgang, Bool.or_eq_true, if_pos h, run_stop]

theorem exec_ctxSave_saves (hback : s.backWaits (fun _ => true) = false) (hturn : s.dev.turnsIn (s.x a).toNat (contLayout g.h).2 = false) :
    ∃ (t : State) (x : SavedGang), exec (.ctxSave d a b) s = .next (t.setX d (.ofNat 64 (contLayout g.h).2)).advance ∧ x ∈ t.dev.saved ∧
      x.ctx = g.ctx ∧ x.launch = g.launch ∧ x.iter = g.iter ∧ x.core = s.core.num ∧ x.out = false ∧
      x.at_ = (if (s.x b).getLsbD 0 = true then some (s.x a) else none) := by
  have hgood := saveArgs_good halign hmode
  have hgo : ¬ ((s.backWaits fun _ => true) || s.dev.turnsIn (s.x a).toNat (contLayout g.h).2) = true := by simp [hback, hturn]
  refine ⟨_, ?gang, deliver_ok s _ _ (by
    simp only [run_bind, run_onlyResident hcc hres, if_neg hgood, hgang, if_neg hgo, run_set, run_setXM, run_advanceM]
    rfl), ?mem, ?fields⟩
  case mem =>
    rw [State.leaveGang_dev]
    dsimp only
    rw [Dev.updLaunch_saved_ite]
    exact List.mem_cons_self
  case fields => exact ⟨rfl, rfl, rfl, rfl, rfl, rfl⟩

end
end
end

/-! ### The status of a restore (R327, R330) -/

/-- The high byte of REV. -/
theorem revision_div (v : BitVec 512) : (v.extractLsb' 208 16).toNat / 256 = (v.extractLsb' 216 8).toNat := by
  rw [BitVec.extractLsb'_toNat, BitVec.extractLsb'_toNat, Nat.shiftRight_eq_div_pow, Nat.shiftRight_eq_div_pow, show 216 = 208 + 8 from rfl,
    Nat.pow_add, ← Nat.div_div_eq_div_mul]
  generalize v.toNat / 2 ^ 208 = q
  omega

theorem dirOk_of_short {n len : Nat} (es : List (BitVec 128)) (h : len < 64 + 16 * n) : dirOk n len es = false := by
  simp only [dirOk, decide_eq_false h.not_ge, Bool.false_and]

section
variable {s : State} {n lgh : Nat} {head : BitVec 512} {es : List (BitVec 128)} (hhead : s.dev.contAt n = head)
  (hes : s.dev.contDir n 0 (head.extractLsb' 224 32).toNat = es) (hlgh : (head.extractLsb' 288 3).toNat = lgh)
include hhead hes

theorem loadStatus_badFormat (h : head.extractLsb' 0 32 ≠ 0x4C584333 ∨ head.extractLsb' 216 8 ≠ 3 ∨
    dirOk (head.extractLsb' 224 32).toNat (head.extractLsb' 448 64).toNat es = false) : s.loadStatus n = 1 := by
  simp only [State.loadStatus, hhead, hes, revision_div]
  split
  · rfl
  next hlong =>
    rw [not_or, not_or, not_not, not_not] at hlong
    obtain ⟨hmagic, hrev, -⟩ := hlong
    refine if_pos ?_
    have hrev' : head.extractLsb' 216 8 = 3 := BitVec.eq_of_toNat_eq hrev
    exact (h.resolve_left (not_not.mpr hmagic)).resolve_left (not_not.mpr hrev')

section
variable (hformat : ¬ (head.extractLsb' 0 32 ≠ 0x4C584333 ∨ head.extractLsb' 216 8 ≠ 3 ∨
    dirOk (head.extractLsb' 224 32).toNat (head.extractLsb' 448 64).toNat es = false))
include hlgh hformat

theorem loadStatus_of_format : s.loadStatus n =
    if s.dev.revisionOk n (head.extractLsb' 208 16).toNat (2 ^ lgh) es = false then 2
    else if 3 < lgh ∨ (head.extractLsb' 304 16).toNat ≠ (if s.core.laneHalf = true then 48 else 96) / 2 ^ lgh * 128 ∨
        (head.extractLsb' 296 8).toNat ≠ s.core.lanes ∨ 4194304 < (head.extractLsb' 256 32).toNat then 3
    else if s.core.gang.isSome then 4
    else if s.dev.ctxLive (head.extractLsb' 416 32).toNat = false then 5
    else 0 := by
  rw [not_or, not_or, not_not, not_not, Bool.not_eq_false] at hformat
  obtain ⟨hmagic, hrev, hdir⟩ := hformat
  have hlong : ¬ (head.extractLsb' 448 64).toNat < 64 + 16 * (head.extractLsb' 224 32).toNat := fun h =>
    Bool.false_ne_true ((dirOk_of_short es h).symm.trans hdir)
  have hstart : ¬ (head.extractLsb' 0 32 ≠ .ofNat 32 contMagic ∨ (head.extractLsb' 208 16).toNat / 256 ≠ 3 ∨
      (head.extractLsb' 448 64).toNat < 64 + 16 * (head.extractLsb' 224 32).toNat) := by
    rw [not_or, not_or, not_not, not_not, revision_div, hrev]
    exact ⟨hmagic, rfl, hlong⟩
  simp only [State.loadStatus, hhead, hes, hlgh, if_neg hstart, hdir, Bool.true_eq_false, if_false, Bool.not_eq_true']
  rfl
end
end

/-- A reader of a revision up to its own asks for the fields of RULE 3, at its own width (R330). -/
theorem revisionOk_iff (d : Dev) (n : Nat) {rev : Nat} (h : Nat) (es : List (BitVec 128)) (hrev : rev ≤ 0x0300) :
    d.revisionOk n rev h es = true ↔
      ∀ f ∈ [0x01, 0x04, 0x05, 0x0A, 0x0B, 0x0D], ∃ e ∈ es, dirFid e = f ∧ contWidth f h ≤ dirWid e := by
  have hold : rev ≤ contRev := hrev
  simp only [Dev.revisionOk, if_pos hold, contFields, List.all_cons, List.all_nil, List.forall_mem_cons, List.not_mem_nil, bne_self_eq_false,
    Bool.false_or, Bool.and_eq_true, List.any_eq_true, beq_iff_eq, decide_eq_true_eq]
  simp

/-! ### `ctx.load` (R327, R330) -/

section
variable {d a : BitVec 5} {s : State} (hcc : s.st.kind = .cc) (hres : s.core.resident = true)
include hcc hres

theorem exec_ctxLoad_turns (h : s.dev.turnsIn (s.x a).toNat 64 = true) : exec (.ctxLoad d a) s = .next s.await := by
  refine deliver_wait s _ ?_
  simp only [run_bind, run_onlyResident hcc hres, if_pos h, run_stop]

section
variable (hturn : s.dev.turnsIn (s.x a).toNat 64 = false)
include hturn

/-- A restore that is refused answers its status. -/
theorem exec_ctxLoad_refuses {n : Nat} (h : s.loadStatus (s.x a).toNat = n) (hn : n ≠ 0) :
    exec (.ctxLoad d a) s = .next (s.setX d (.ofNat 64 n)).advance := by
  refine deliver_ok s _ _ ?_
  simp only [run_bind, run_onlyResident hcc hres, hturn, Bool.false_eq_true, if_false, h, if_neg hn, run_setXM, run_advanceM]

section
variable {head : BitVec 512} (hhead : s.dev.contAt (s.x a).toNat = head) (hstatus : s.loadStatus (s.x a).toNat = 0)
include hhead hstatus

theorem exec_ctxLoad_waits
    (h : s.dev.turnsIn (s.x a).toNat (head.extractLsb' 448 64).toNat = true ∨ s.backWaits (fun f => !s.core.inLazy f) = true) :
    exec (.ctxLoad d a) s = .next s.await := by
  refine deliver_wait s _ ?_
  simp only [run_bind, run_onlyResident hcc hres, hturn, Bool.false_eq_true, if_false, hstatus, if_true, hhead, Bool.or_eq_true, if_pos h, run_stop]

theorem exec_ctxLoad_restores (hlong : s.dev.turnsIn (s.x a).toNat (head.extractLsb' 448 64).toNat = false)
    (hback : s.backWaits (fun f => !s.core.inLazy f) = false) :
    exec (.ctxLoad d a) s = .next ((((s.restore (s.container (s.x a).toNat) (contHas (2 ^ (head.extractLsb' 288 3).toNat)
      (s.dev.contDir (s.x a).toNat 0 (head.extractLsb' 224 32).toNat))).backToResident s.st.pc).setX d 0).advance) := by
  refine deliver_ok s _ _ ?_
  simp only [run_bind, run_onlyResident hcc hres, hturn, Bool.false_eq_true, if_false, hstatus, if_true, hhead, hlong, hback, Bool.or_self,
    run_modify, run_setXM, run_advanceM]
  rfl

end
end
end

/-- A container whose known fields all have the reader's width is the gang that this device saved in it. -/
theorem container_of_saved {s : State} {n lgh : Nat} {head : BitVec 512} {es : List (BitVec 128)} {g : SavedGang}
    (hhead : s.dev.contAt n = head) (hes : s.dev.contDir n 0 (head.extractLsb' 224 32).toNat = es) (hlgh : (head.extractLsb' 288 3).toNat = lgh)
    (hsaved : s.dev.savedOf n head = some g) (hfull : contFull (2 ^ lgh) es = true) : s.container n = g := by
  simp only [State.container, hhead, hes, hlgh, hsaved, hfull, if_true]

/-! ### The walker's restore (R294, R326) -/

theorem exec_requeueRestore_tuple {s : State} {w : WorkItem} (hitem : s.core.assigned = some w) (htuple : w.saved = none) :
    exec .requeueRestore s = .next s := by
  change execRequeueRestore s = _
  simp only [execRequeueRestore, hitem, htuple]

theorem exec_requeueRestore_restores {s : State} {w : WorkItem} {at_ : Word} {g : SavedGang} (hitem : s.core.assigned = some w)
    (hcont : w.saved = some at_) (hgang : s.core.gang = none) (huser : s.core.resident = false) (hhalted : s.core.halted = false)
    (hpower : s.core.pwr.toNat < 2) (hfind : s.dev.saved.find? (fun g => g.at_ == some at_ && g.launch == w.launch) = some g)
    (hback : s.backWaits (fun f => !s.core.inLazy f) = false) (hturn : s.dev.turningAt at_.toNat = false) :
    exec .requeueRestore s =
      .next { (s.ungated.restore g fun _ => true) with dev := (s.ungated.restore g fun _ => true).dev.putRaw at_.toNat 4 0 } := by
  have hfree : (s.core.gang.isSome || s.core.resident || s.core.halted || decide (2 ≤ s.core.pwr.toNat)) = false := by
    simp [hgang, huser, hhalted, hpower]
  change execRequeueRestore s = _
  simp only [execRequeueRestore, hitem, hcont, hfree, hfind, hturn, hback, Bool.or_self, Bool.false_eq_true, if_false]

/-- Settles O54: `ctx.load` answers the first status that holds, since its judgement is their sequence. -/
theorem gangsAreSavedAndRestored : Obligations.GangsAreSavedAndRestored := by
  unfold Obligations.GangsAreSavedAndRestored
  intro d a b s
  refine ⟨fun hcc hres => ⟨exec_ctxSave_misused hcc hres, exec_ctxSave_noGang hcc hres,
    fun g halign hmode => exec_ctxSave_waits hcc hres halign hmode,
    fun g halign hmode => exec_ctxSave_saves hcc hres halign hmode, ⟨exec_ctxLoad_turns hcc hres, fun hturn => ?load,
    fun g => container_of_saved rfl rfl rfl⟩, fun n rev h es => revisionOk_iff s.dev n h es⟩,
    fun w at_ g => exec_requeueRestore_restores, fun w => exec_requeueRestore_tuple⟩
  have refuses {n : Nat} := exec_ctxLoad_refuses (d := d) hcc hres hturn (n := n)
  have hof := @loadStatus_of_format s (s.x a).toNat _ _ _ rfl rfl rfl
  refine ⟨fun h => refuses (loadStatus_badFormat rfl rfl h) (by decide), fun hf h => ?_, fun hf hr h => ?_, fun hf hr hg h => ?_,
    fun hf hr hg hb h => ?_, fun hf hr hg hb hc => ?_⟩
  · exact refuses ((hof hf).trans (if_pos h)) (by decide)
  · exact refuses ((hof hf).trans ((if_neg hr).trans (if_pos h))) (by decide)
  · exact refuses ((hof hf).trans ((if_neg hr).trans ((if_neg hg).trans (if_pos h)))) (by decide)
  · exact refuses ((hof hf).trans ((if_neg hr).trans ((if_neg hg).trans ((if_neg hb).trans (if_pos h))))) (by decide)
  · have hok := (hof hf).trans ((if_neg hr).trans ((if_neg hg).trans ((if_neg hb).trans (if_neg hc))))
    exact ⟨exec_ctxLoad_waits hcc hres hturn rfl hok, exec_ctxLoad_restores hcc hres hturn rfl hok⟩

end Sys2Proof.Machine

/-! SUPPORT. Translations discarded (R312 to R314), faults answered (R317 to R319), and the dirty bits of pages (R333). -/

namespace Sys2Proof.Machine

/-! ### `tlbi` (R312 to R314) -/

/-- A change of the cores alone, one after another, leaves the rest of the device. -/
theorem foldl_cores_fst {f : Dev → Core → Dev × Core} (hf : ∀ d c, (f d c).1 = d) (cs : List Core) (p : Dev × List Core) :
    (cs.foldl (fun (d, cs) c =>
      let (d, c) := f d c
      (d, cs ++ [c])) p).1 = p.1 := by
  induction cs generalizing p with
  | nil => rfl
  | cons c r ih => exact (ih _).trans (hf _ _)

theorem State.onAllCores_tlb (s : State) {f : Dev → Core → Dev × Core} (hf : ∀ d c, (f d c).1 = d) : (s.onAllCores f).dev.tlb = s.dev.tlb := by
  have hfold := foldl_cores_fst hf (s.onCore f).dev.cores ((s.onCore f).dev, [])
  have hcore : (s.onCore f).dev = s.dev := (s.onCore_dev f).trans (hf _ _)
  exact (congrArg Dev.tlb (hfold.trans hcore) :)

theorem State.discard_tlb (s : State) (hit : Xlat → Bool) (wait : Bool) : (s.discard hit wait).dev.tlb = s.dev.tlb.filter fun x => !hit x := by
  cases wait with
  | false => rfl
  | true =>
    simp only [State.discard, if_true]
    exact State.onAllCores_tlb _ fun _ _ => rfl

theorem State.discarded {s : State} {hit : Xlat → Bool} {wait : Bool} {x : Xlat} (hx : x ∈ (s.discard hit wait).dev.tlb) : hit x = false := by
  rw [State.discard_tlb] at hx
  exact Bool.not_eq_eq_eq_not.mp (List.mem_filter.mp hx).2

section
variable {d a b : BitVec 5} {s : State} (hcc : s.st.kind = .cc) (hres : s.core.resident = true)
include hcc hres

theorem State.atResident_of : s.atResident = true := by
  rw [State.atResident, hcc, hres]
  rfl

theorem exec_tlbi_waits (h : s.fenceWaits 3 false true = true) : exec (.tlbi a b) s = .next s.await := by
  change execTlbi a b s = _
  simp only [execTlbi, State.atResident_of hcc hres, Bool.true_eq_false, if_false, h, if_true]

section
variable {hit : Xlat → Bool} {t : State} (hhit : s.tlbiHits (s.x a) (s.x b) = hit)
  (ht : (s.fenceFar 3 false true).discard hit ((s.x b).getLsbD 2) = t) (hfence : s.fenceWaits 3 false true = false)
include hhit ht hfence

theorem exec_tlbi_completes (h : (s.x b).getLsbD 2 = false ∨ ∀ c ∈ t.allCores, c.holdsAny hit = false) :
    exec (.tlbi a b) s = .next t.advance := by
  have hfree : ((s.x b).getLsbD 2 && t.allCores.any (·.holdsAny hit)) = false := by
    rw [Bool.and_eq_false_iff, List.any_eq_false]
    exact h.imp_right fun h c hc => Bool.not_eq_true _ ▸ h c hc
  change execTlbi a b s = _
  simp only [execTlbi, State.atResident_of hcc hres, Bool.true_eq_false, if_false, hhit, ht, hfence, hfree, Bool.false_eq_true]

/-- A command that holds a discarded translation is waited for, where the instruction asks for that. -/
theorem exec_tlbi_held (hwait : (s.x b).getLsbD 2 = true) (h : ∃ c ∈ t.allCores, c.holdsAny hit = true) :
    exec (.tlbi a b) s = .next t.await := by
  have hheld : (t.allCores.any (·.holdsAny hit)) = true := List.any_eq_true.mpr h
  change execTlbi a b s = _
  simp only [execTlbi, State.atResident_of hcc hres, Bool.true_eq_false, if_false, hhit, hwait, Bool.true_and, hfence, Bool.false_eq_true]
  rw [hwait] at ht
  simp only [ht, hheld, if_true]

end

/-! ### `rpl` (R318, R319) -/

theorem exec_rpl_dead (h : ∀ x ∈ s.dev.handles, ¬ (x.part = s.dev.partOfCore s.core.num ∧ x.num = ((s.x a).extractLsb' 0 32).toNat)) :
    exec (.rpl d a b) s = .next (s.setX d 1).advance := by
  have hnone : s.dev.handles.find? (fun x => x.part == s.dev.partOfCore s.core.num && x.num == ((s.x a).extractLsb' 0 32).toNat) = none := by
    simpa using h
  refine deliver_ok s _ _ ?_
  simp only [run_bind, run_onlyResident hcc hres, hnone, run_setXM, run_advanceM]

theorem exec_rpl_live {x : Handle}
    (h : s.dev.handles.find? (fun x => x.part == s.dev.partOfCore s.core.num && x.num == ((s.x a).extractLsb' 0 32).toNat) = some x) :
    exec (.rpl d a b) s = .next ((s.answer x ((s.x b).extractLsb' 0 2).toNat).setX d 0).advance := by
  refine deliver_ok s _ _ ?_
  simp only [run_bind, run_onlyResident hcc hres, h, run_modify, run_setXM, run_advanceM]

end

/-! ### Fault records (R317) -/

section
variable {s : State} {part : Nat} {p : Part} (hpart : s.dev.part part = some p)
include hpart

theorem exec_faultRecordWrite_idle (h : p.held = [] ∨ p.roomy = false) : exec (.faultRecordWrite part) s = .next s := by
  change execFaultRecordWrite part s = _
  rcases h with hheld | hfull
  · simp only [execFaultRecordWrite, hpart, hheld]
  · simp only [execFaultRecordWrite, hpart, hfull, Bool.not_false, Bool.true_or, if_true]
    split <;> rfl

section
variable {r : FaultRec} {rest : List FaultRec} (hheld : p.held = r :: rest)
include hheld

theorem exec_faultRecordWrite_turning (h : s.dev.turningAt p.next = true) : exec (.faultRecordWrite part) s = .next s := by
  change execFaultRecordWrite part s = _
  simp only [execFaultRecordWrite, hpart, hheld, h, Bool.or_true, if_true]

theorem exec_faultRecordWrite_writes (hroom : p.roomy = true) (h : s.dev.turningAt p.next = false) :
    let dv := (s.dev.putRecord p.next 4 (r.bits (p.fhead + 1)).toNat).updPart part fun p => { p with held := rest, fhead := p.fhead + 1 }
    exec (.faultRecordWrite part) s = .next (({ s with dev := dv } : State).updCoreAt p.fsvc.toNat fun c => { c with rpend := c.rpend ||| 1 }) := by
  change execFaultRecordWrite part s = _
  simp only [execFaultRecordWrite, hpart, hheld, h, hroom, Bool.not_true, Bool.or_self, Bool.false_eq_true, if_false]
  rfl

end
end

/-! ### Dirty bits (R333) -/

theorem Memory.readN_congr {m m' : Memory} {a n : Nat} (h : ∀ b, a ≤ b → b < a + n → m.byte b = m'.byte b) : m.readN a n = m'.readN a n := by
  induction n generalizing a with
  | zero => rfl
  | succ n ih =>
    simp only [Memory.readN]
    rw [h a (by omega) (by omega), ih fun b hlo hhi => h b (by omega) (by omega)]

/-- A run of bytes after another run was written that does not meet it. -/
theorem Memory.readN_writeN_apart {m : Memory} {a b n k v : Nat} (hwf : m.wf = true) (h : a + n ≤ b ∨ b + k ≤ a) :
    (m.writeN a n v).readN b k = m.readN b k :=
  Memory.readN_congr fun c hlo hhi => by rw [Memory.byte_writeN m a n v c hwf, if_neg (by omega)]

/-- A number with `n` of its bits at `lo` replaced. -/
def bitsReplaced (e lo n v : Nat) : Nat := e - e / 2 ^ lo % 2 ^ n * 2 ^ lo + v % 2 ^ n * 2 ^ lo

/-- A bit that is replaced by 0 is 0. -/
theorem testBit_bitsReplaced_zero (e k : Nat) : (bitsReplaced e k 1 0).testBit k = false := by
  rw [bitsReplaced, Nat.zero_mod, Nat.zero_mul, Nat.add_zero, Nat.pow_one]
  cases hbit : e.testBit k with
  | false =>
    rw [← Nat.toNat_testBit, hbit]
    simpa using hbit
  | true =>
    have hle : 2 ^ k ≤ e := Nat.ge_two_pow_of_testBit hbit
    have hflip := Nat.testBit_two_pow_add_eq (e - 2 ^ k) k
    rw [Nat.add_sub_cancel' hle, hbit] at hflip
    rw [← Nat.toNat_testBit, hbit, Bool.toNat_true, Nat.one_mul]
    exact Bool.not_eq_eq_eq_not.mp hflip.symm

theorem Dev.rmEnt_withMem (d : Dev) (m : Memory) (b : Nat) : ({ d with mem := m } : Dev).rmEnt b = .ofNat 256 (m.readN (d.rmAt b) 32) := rfl

theorem Dev.rmIn_withMem (d : Dev) (m : Memory) (b : Nat) : ({ d with mem := m } : Dev).rmIn b = d.rmIn b := rfl
theorem Dev.rmValid_withMem (d : Dev) (m : Memory) (e : BitVec 256) : ({ d with mem := m } : Dev).rmValid e = d.rmValid e := rfl

section
variable {d : Dev} {a b lo n v : Nat} (hfree : d.hostLines = [])
include hfree

/-- Where no host holds lines, an entry is changed in the table alone. -/
theorem Dev.rmSet_of_noHost :
    d.rmSet a lo n v = { d with mem := d.mem.writeN (d.rmAt a) 32 (bitsReplaced (d.rmEnt a).toNat lo n v) } := by
  simp only [Dev.rmSet, Dev.hostTake, hfree, List.find?_nil, bitsReplaced]

theorem Dev.rmSet_hostLines_of_noHost : (d.rmSet a lo n v).hostLines = [] := by
  rw [Dev.rmSet_of_noHost hfree]
  exact hfree

section
variable (hwf : d.mem.wf = true)
include hwf

theorem Dev.rmSet_wf_of_noHost : (d.rmSet a lo n v).mem.wf = true := by
  rw [Dev.rmSet_of_noHost hfree]
  exact Memory.writeN_wf _ _ _ _ hwf

/-- The entries of two pages do not meet in the table. -/
theorem Dev.rmLook_rmSet_other (h : rmPage b ≠ rmPage a) : (d.rmSet a lo n v).rmLook b = d.rmLook b := by
  have happart : d.rmAt a + 32 ≤ d.rmAt b ∨ d.rmAt b + 32 ≤ d.rmAt a := by
    simp only [Dev.rmAt]
    omega
  have hent : (d.rmSet a lo n v).rmEnt b = d.rmEnt b := by
    rw [Dev.rmSet_of_noHost hfree, Dev.rmEnt_withMem, Memory.readN_writeN_apart hwf happart]
    rfl
  simp only [Dev.rmLook, hent]
  rw [Dev.rmSet_of_noHost hfree, Dev.rmIn_withMem, Dev.rmValid_withMem]

theorem Dev.rmEnt_cleared_clean : rmDirty ((d.rmSet a 86 1 0).rmEnt a) = false := by
  rw [Dev.rmSet_of_noHost hfree, Dev.rmEnt_withMem, Memory.readN_writeN_self _ _ _ _ hwf, rmDirty, BitVec.getLsbD_ofNat, ← two_pow_bytes,
    Nat.testBit_mod_two_pow, testBit_bitsReplaced_zero, Bool.and_false, Bool.and_false]

theorem Dev.rmLook_cleared_clean : ((d.rmSet a 86 1 0).rmLook a).any rmDirty = false := by
  have hclean := Dev.rmEnt_cleared_clean (a := a) hfree hwf
  simp only [Dev.rmLook]
  split
  · split
    · exact hclean
    · rfl
  · rfl

end
end

/-- The dirty bits of the first `n` pages from a DPA on cleared, where an entry is found. -/
def Dev.clearDirty (d : Dev) (base n : Nat) : Dev :=
  (List.range n).foldl (fun dv i => if (dv.rmLook (base + 65536 * i)).isSome then dv.rmSet (base + 65536 * i) 86 1 0 else dv) d

theorem Dev.clearDirty_succ (d : Dev) (base n : Nat) : d.clearDirty base (n + 1) =
    if ((d.clearDirty base n).rmLook (base + 65536 * n)).isSome then (d.clearDirty base n).rmSet (base + 65536 * n) 86 1 0
    else d.clearDirty base n := by
  rw [Dev.clearDirty, List.range_succ, List.foldl_append]
  rfl

/-- Page after page is cleared and stays so: the entries of different pages do not meet. -/
theorem Dev.clearDirty_clean {d : Dev} {base : Nat} (hfree : d.hostLines = []) (hwf : d.mem.wf = true) (n : Nat) :
    (d.clearDirty base n).hostLines = [] ∧ (d.clearDirty base n).mem.wf = true ∧
      ∀ i, i < n → ((d.clearDirty base n).rmLook (base + 65536 * i)).any rmDirty = false := by
  induction n with
  | zero => exact ⟨hfree, hwf, fun i hi => absurd hi (Nat.not_lt_zero i)⟩
  | succ n ih =>
    obtain ⟨hfree', hwf', hclean⟩ := ih
    rw [Dev.clearDirty_succ]
    split
    · refine ⟨Dev.rmSet_hostLines_of_noHost hfree', Dev.rmSet_wf_of_noHost hfree' hwf', fun i hi => ?_⟩
      rcases Nat.lt_succ_iff_lt_or_eq.mp hi with hlt | rfl
      · have hpage : rmPage (base + 65536 * i) ≠ rmPage (base + 65536 * n) := by
          simp only [rmPage]
          omega
        rw [Dev.rmLook_rmSet_other hfree' hwf' hpage]
        exact hclean i hlt
      · exact Dev.rmLook_cleared_clean hfree' hwf'
    next hnone =>
      refine ⟨hfree', hwf', fun i hi => ?_⟩
      rcases Nat.lt_succ_iff_lt_or_eq.mp hi with hlt | rfl
      · exact hclean i hlt
      · rw [Option.not_isSome_iff_eq_none.mp hnone]
        rfl

/-- The word whose bits, from bit 0 on, are those of a list. -/
theorem testBit_foldr_toNat (bits : List Bool) (i : Nat) :
    (bits.foldr (fun (x : Bool) acc => 2 * acc + x.toNat) 0).testBit i = bits.getD i false := by
  induction bits generalizing i with
  | nil => simp
  | cons x r ih =>
    rw [List.foldr_cons]
    cases i with
    | zero => cases x <;> simp [Nat.testBit_zero]
    | succ i =>
      rw [Nat.testBit_succ, List.getD_cons_succ, ← ih]
      congr 1
      cases x <;> simp
      omega

/-- The dirty bits of the 64 pages from a DPA on, as a word. -/
def Dev.dirtyBits (d : Dev) (base : Nat) : Word :=
  .ofNat 64 (((List.range 64).map fun i => (d.rmLook (base + 65536 * i)).any rmDirty).foldr (fun x acc => 2 * acc + x.toNat) 0)

theorem Dev.dirtyBits_getLsbD (d : Dev) (base : Nat) {i : Nat} (hi : i < 64) :
    (d.dirtyBits base).getLsbD i = (d.rmLook (base + 65536 * i)).any rmDirty := by
  rw [Dev.dirtyBits, BitVec.getLsbD_ofNat, testBit_foldr_toNat, decide_eq_true hi, Bool.true_and, List.getD_eq_getElem _ _ (by simpa using hi)]
  simp

section
variable {d a b : BitVec 5} {s : State} (hcc : s.st.kind = .cc) (hres : s.core.resident = true) {base : Nat}
  (hbase : (s.x a).toNat / 4194304 * 4194304 = base)
include hcc hres hbase

theorem exec_migDirty_reads (hkeep : (s.x b).getLsbD 0 = true) : exec (.migDirty d a b) s = .next (s.setX d (s.dev.dirtyBits base)).advance := by
  refine deliver_ok s _ _ ?_
  simp only [run_bind, run_onlyResident hcc hres, hkeep, Bool.not_true, Bool.false_eq_true, if_false, hbase, run_setXM, run_advanceM,
    Dev.dirtyBits]

theorem exec_migDirty_clears (hkeep : (s.x b).getLsbD 0 = false) {dv : Dev} (hdv : s.dev.clearDirty base 64 = dv) :
    exec (.migDirty d a b) s = .next ((({ s with dev := dv } : State).setX d (s.dev.dirtyBits base)).advance) := by
  rw [Dev.clearDirty] at hdv
  refine deliver_ok s _ _ ?_
  simp only [run_bind, run_onlyResident hcc hres, hkeep, Bool.not_false, if_true, hbase, hdv, run_modify, run_setXM, run_advanceM, Dev.dirtyBits]

theorem exec_migDirty :
    ∃ (u : State) (v : Word), exec (.migDirty d a b) s = .next (u.setX d v).advance ∧ u.st = s.st ∧ u.core = s.core ∧
      (∀ i, i < 64 → v.getLsbD i = (s.dev.rmLook (base + 65536 * i)).any rmDirty) ∧ ((s.x b).getLsbD 0 = true → u = s) ∧
      ((s.x b).getLsbD 0 = false → s.dev.mem.wf = true → s.dev.hostLines = [] →
        ∀ i, i < 64 → (u.dev.rmLook (base + 65536 * i)).any rmDirty = false) := by
  have hbits := fun i (hi : i < 64) => s.dev.dirtyBits_getLsbD base hi
  cases hkeep : (s.x b).getLsbD 0 with
  | true => exact ⟨s, _, exec_migDirty_reads hcc hres hbase hkeep, rfl, rfl, hbits, fun _ => rfl, nofun⟩
  | false =>
    obtain ⟨dv, hdv⟩ : ∃ dv, s.dev.clearDirty base 64 = dv := ⟨_, rfl⟩
    refine ⟨{ s with dev := dv }, _, exec_migDirty_clears hcc hres hbase hkeep hdv, rfl, rfl, hbits, nofun, fun _ hwf hfree => ?_⟩
    obtain ⟨-, -, hclean⟩ := Dev.clearDirty_clean (base := base) hfree hwf 64
    rwa [hdv] at hclean

end

/-- Settles O53: `mig.dirty` clears one entry after another, and the others are a case each of their instruction. -/
theorem translationsAndFaultRecords : Obligations.TranslationsAndFaultRecords := by
  unfold Obligations.TranslationsAndFaultRecords
  intro d a b s hcc hres hit t base
  exact ⟨exec_tlbi_waits hcc hres, exec_tlbi_completes hcc hres rfl rfl, exec_tlbi_held hcc hres rfl rfl, fun x => State.discarded,
    exec_rpl_dead hcc hres, fun h => exec_rpl_live hcc hres, exec_migDirty hcc hres rfl,
    fun part p r rest hpart hheld hroom => ⟨exec_faultRecordWrite_turning hpart hheld, exec_faultRecordWrite_writes hpart hheld hroom⟩,
    fun part p => exec_faultRecordWrite_idle⟩

end Sys2Proof.Machine

/-! SUPPORT. The resident registers (R323, R385, R389): what each reads, what a write stores, and the writes that act. -/

namespace Sys2Proof.Machine

/-! ### Reads and writes by number (R323, R385) -/

theorem poolReg_eq_none {n : Nat} (h : 0x200 ≤ n) : poolReg n = none := if_neg (by omega)

/-- The numbers of the running configuration read it, 64 bits each (R385). -/
theorem readRes_config (s : State) (k : BitVec 6) : s.readRes (0x200 + k.setWidth 12) = s.dev.config.extractLsb' (64 * k.toNat) 64 := by
  have hk := k.isLt
  have hnum : (0x200 + k.setWidth 12 : BitVec 12).toNat = 0x200 + k.toNat := by
    rw [BitVec.toNat_add, BitVec.toNat_setWidth]
    change (0x200 + k.toNat % 2 ^ 12) % 2 ^ 12 = _
    omega
  rw [State.readRes, hnum]
  split
  case h_27 => rw [if_pos (by omega), Nat.add_sub_cancel_left]
  all_goals omega

/-- A write discards from 0x200 on. -/
theorem writeRes_high (s : State) (v : Word) {n : BitVec 12} (h : 0x200 ≤ n.toNat) : s.writeRes n v = s := by
  rw [State.writeRes]
  split
  case h_26 => rw [poolReg_eq_none h]
  all_goals omega

section
variable {d a : BitVec 5} {n : BitVec 12} {s : State} (hcc : s.st.kind = .cc) (hres : s.core.resident = true)
include hcc hres

theorem exec_sysrp : exec (.sysrp d n) s = .next (s.setX d (s.readRes n)).advance := by
  refine deliver_ok s _ _ ?_
  simp only [run_bind, run_onlyResident hcc hres, run_setXM, run_advanceM]

theorem exec_syswp : exec (.syswp a n) s = .next (s.writeRes n (s.x a)).advance := by
  refine deliver_ok s _ _ ?_
  simp only [run_bind, run_onlyResident hcc hres, run_modify, run_advanceM]

end

/-! ### The writes that act (R320, R322, R352, R393) -/

section
variable {s : State} {v : Word} {c : Nat} (hsel : s.core.selCtx = c) (hc : c ≠ 0)
include hsel hc

theorem writeRoot_terminates (hv : v = 0) (hlive : s.dev.ctxLive c = true) : s.writeRoot v = s.terminateCtx c := by
  simp only [State.writeRoot, hsel, if_neg hc, if_pos hv, hlive, if_true]

theorem writeRoot_replaces (hv : v ≠ 0) (hlive : s.dev.ctxLive c = true) :
    s.writeRoot v = { s with dev := s.dev.updCtx c fun x => { x with ptroot := v } } := by
  simp only [State.writeRoot, hsel, if_neg hc, if_neg hv, hlive, if_true]

/-- A context that does not live is created, in the partition of the core. -/
theorem writeRoot_creates (hv : v ≠ 0) (hdead : s.dev.ctxLive c = false) :
    let d := { s.dev with ctxs := .fresh c (s.dev.partOfCore s.core.num) v :: s.dev.ctxs.filter (·.id != c) }
    s.writeRoot v = { s with dev := d } := by
  simp only [State.writeRoot, hsel, if_neg hc, if_neg hv, hdead, Bool.false_eq_true, if_false]

end

theorem Dev.ctxLive_cons_fresh (d : Dev) (c p : Nat) (v : Word) (r : List Ctx) : ({ d with ctxs := .fresh c p v :: r } : Dev).ctxLive c = true := by
  simp [Dev.ctxLive, Ctx.fresh]

theorem Dev.ctx_cons_fresh (d : Dev) (c p : Nat) (v : Word) (r : List Ctx) : ({ d with ctxs := .fresh c p v :: r } : Dev).ctx c = some (.fresh c p v) :=
  List.find?_cons_of_pos (beq_self_eq_true c)

/-- Lines of other places leave a byte. -/
theorem Memory.byte_setLines {m : Memory} (hwf : m.wf = true) {n : Nat} {f : Nat → Line} (l : List (Nat × Nat))
    (h : ∀ x ∈ l, x.1 / 128 ≠ n / 128) :
    (l.foldl (fun m (a, i) => m.setLine a (f i)) m).byte n = m.byte n := by
  induction l generalizing m with
  | nil => rfl
  | cons x r ih =>
    obtain ⟨a, i⟩ := x
    obtain ⟨hx, hr⟩ := List.forall_mem_cons.mp h
    rw [List.foldl_cons, ih (Memory.setLine_wf _ _ _ hwf) hr, Memory.setLine, Memory.byte_writeN _ _ _ _ _ hwf, if_neg (by omega)]

/-- Lines that a memory loses lie in the ranges given. -/
theorem Memory.byte_lose {m : Memory} (hwf : m.wf = true) {rs : List (Nat × Nat)} {n k : Nat}
    (h : ∀ r ∈ rs, ¬ (r.1 ≤ n / 128 * 128 ∧ n / 128 * 128 < r.2)) : (m.lose rs k).1.byte n = m.byte n := by
  refine Memory.byte_setLines hwf (f := fun i => Config.freeLine (k + i)) _ fun x hx heq => ?_
  have hmem := List.fst_mem_of_mem_zipIdx hx
  rw [List.mem_filter, List.mem_eraseDups, List.mem_map, List.any_eq_true] at hmem
  obtain ⟨⟨c, -, hc⟩, r, hr, hin⟩ := hmem
  rw [Bool.and_eq_true, decide_eq_true_eq, decide_eq_true_eq] at hin
  have hline : x.1 = n / 128 * 128 := by omega
  exact h r hr (hline ▸ hin)

/-- The pages that a resized reserve takes are those below its old base; nothing else of the memory changes (R352; log 137). -/
theorem resizeStage_byte {s : State} {v : Word} (hwf : s.dev.mem.wf = true) {n : Nat}
    (h : ∀ k ∈ [0, 2, 3, 5], ¬ ((32 + k) * 2 ^ 64 + (s.resizeStage v).dev.stageBase k ≤ n / 128 * 128 ∧
      n / 128 * 128 < (32 + k) * 2 ^ 64 + s.dev.stageBase k)) : (s.resizeStage v).dev.mem.byte n = s.dev.mem.byte n := by
  refine Memory.byte_lose (m := s.dev.mem) hwf fun r hr => ?_
  obtain ⟨k, hk, rfl⟩ := List.mem_map.mp hr
  exact h k hk

theorem requestPower_retention (s : State) : s.requestPower 2 = ({ s with core := { s.core with pwrReq := 2 } } : State).enterPower := by
  rw [State.requestPower, if_pos (.inl rfl)]

theorem requestPower_off {s : State} (h : s.core.gang = none) :
    s.requestPower 3 = ({ s with core := { s.core with pwrReq := 3 } } : State).enterPower := by
  rw [State.requestPower, if_pos (.inr ⟨rfl, by rw [h]; rfl⟩)]

/-- The temperature's event is bit 2 of `sr.rpend`. -/
theorem checkHeat_eq (c : Core) : c.checkHeat = { c with rpend := if c.ttrip ≤ c.temp then c.rpend ||| 4 else c.rpend } := by
  rw [Core.checkHeat]
  split <;> rfl

theorem exec_thermal (s : State) (t : BitVec 16) :
    let rpend := if s.core.ttrip ≤ t then s.core.rpend ||| 4 else s.core.rpend
    exec (.thermal t) s = .next { s with core := { s.core with temp := t, rpend := rpend } } := by
  change execThermal t s = _
  rw [execThermal, checkHeat_eq]

/-- Settles O55: a register is read and written by its number, and each write that acts is a step with the same effect. -/
theorem residentRegisters : Obligations.ResidentRegisters := by
  unfold Obligations.ResidentRegisters
  intro d a v s
  refine ⟨fun hcc hres n => ⟨exec_sysrp hcc hres, exec_syswp hcc hres⟩, fun n => rfl, ?reads, ?writes, rfl, fun hc => ?root, rfl, rfl, ?stage, rfl,
    fun p => rfl, rfl, congrArg Host.Outcome.next (requestPower_retention s), fun h => congrArg Host.Outcome.next (requestPower_off h),
    exec_thermal s⟩
  case reads => exact ⟨rfl, rfl, rfl, rfl, rfl, rfl, rfl, rfl, rfl, rfl, rfl, rfl, rfl, rfl, readRes_config s⟩
  case writes => exact ⟨rfl, rfl, rfl, rfl, rfl, rfl, rfl, fun n => writeRes_high s v⟩
  case root =>
    refine ⟨fun hv hlive => congrArg Host.Outcome.next (writeRoot_terminates rfl hc hv hlive),
      fun hv hlive => congrArg Host.Outcome.next (writeRoot_replaces rfl hc hv hlive),
      fun hv hdead => ⟨_, congrArg Host.Outcome.next (writeRoot_creates rfl hc hv hdead), Dev.ctxLive_cons_fresh .., fun c hctx => ?_⟩⟩
    obtain rfl := Option.some.inj ((Dev.ctx_cons_fresh ..).symm.trans hctx)
    exact ⟨rfl, rfl⟩
  case stage => exact ⟨_, rfl, rfl, rfl, rfl, rfl, fun hwf n => resizeStage_byte hwf⟩

end Sys2Proof.Machine

/-! SUPPORT. The layer instructions (R356, R357, R363, R364, R371, R378): what each does once its pages are found. -/

namespace Sys2Proof.Machine

theorem run_bind_of {α β : Type} {x : M α} {f : α → M β} {s t : State} {v : α} (h : x.run s = .ok (v, t)) : (x >>= f).run s = (f v).run t := by
  rw [run_bind, h]

/-- A check of every element that passes each changes nothing. -/
theorem run_forM_ok {α : Type} {f : α → M Unit} {s : State} {l : List α} (h : ∀ x ∈ l, (f x).run s = .ok ((), s)) :
    (l.forM f).run s = .ok ((), s) := by
  induction l with
  | nil => rfl
  | cons x r ih =>
    obtain ⟨hx, hr⟩ := List.forall_mem_cons.mp h
    change (f x >>= fun _ => r.forM f).run s = _
    simp only [run_bind, hx, ih hr]

/-! ### `winst` (R356, R357) -/

/-- An install whose acceptance is written changes the device alone. -/
theorem run_winstEnd (d : BitVec 5) (s : State) {i : Install} (h : i.ack = some none) :
    ∃ dv : Dev, (winstEnd d i).run s = .ok ((), (({ s with dev := dv } : State).setX d (i.no.setWidth 64)).advance) := by
  refine ⟨?dv, ?run⟩
  case run =>
    simp only [winstEnd, run_bind, if_neg (not_not.mpr h), run_modify, run_setXM, run_advanceM]
    rfl

/-- The install that a descriptor asks for, before its blocks are known (R356, R357). -/
def State.asked (s : State) (va : Word) (w : BitVec 512) (dxl : List Xlat) (ds ss : List Pg) (no : BitVec 32) : Install :=
  ⟨s.layerPart, s.via.key, s.core.num, no, va, dxl, w.extractLsb' 320 32, w.getLsbD 64, [], w.extractLsb' 384 64, ss.flatMap (·.xl), ds.flatMap (·.xl),
    s.st.wordPc, 0, 0, none, [], [], 0, 0, none, false, [], none, none⟩

/-- How a `winst` goes on once its descriptor is read and its pages are found: the judgement of R357, the acceptance write and the answer. -/
def winstJudged (d : BitVec 5) (s : State) (va : Word) (w : BitVec 512) (dxl : List Xlat) (ds ss : List Pg) (n : Nat) (no : BitVec 32) : M Unit := do
  let t ← get
  modify fun t => { t with dev := t.dev.updPart s.layerPart fun q => { q with nextInstall := nextNumber q.nextInstall } }
  match t.dev.accept s.layerPart (w.extractLsb' 448 64) (w.extractLsb' 384 64) n (ds.map (·.ent)) with
  | .error c =>
    acceptWrite false s.via (s.asked va w dxl ds ss no) c
    modify fun t => t.installEvent (s.asked va w dxl ds ss no) c
  | .ok (bs, rs, dv) =>
    let i := { s.asked va w dxl ds ss no with blocks := bs, reserved := rs }
    set { t with dev := { dv.updPart s.layerPart (fun q => { q with nextInstall := nextNumber q.nextInstall }) with installs := dv.installs ++ [i] } }
    acceptWrite true s.via i 0xFF
  setXM d (no.setWidth 64)
  advanceM

theorem run_acceptWrite {acc : Bool} {v : Via} {i : Install} {code : BitVec 8} {t u : State}
    (h : (recordWrite false v i.desc (installWord code 0 0 i.no)).run t = .ok ((), u)) : (acceptWrite acc v i code).run t = .ok ((), u) := by
  change acceptWrite acc v i code t = _
  change (recordWrite false v i.desc (installWord code 0 0 i.no)) t = _ at h
  simp only [acceptWrite, StateT.run, h]

section
variable {d : BitVec 5} {s t u : State} {va : Word} {w : BitVec 512} {dxl : List Xlat} {ds ss : List Pg} {n : Nat} {no : BitVec 32}

theorem run_winstJudged_refused {c : BitVec 8}
    (haccept : t.dev.accept s.layerPart (w.extractLsb' 448 64) (w.extractLsb' 384 64) n (ds.map (·.ent)) = .error c)
    (hwrite : (recordWrite false s.via va (installWord c 0 0 no)).run
      { t with dev := t.dev.updPart s.layerPart fun q => { q with nextInstall := nextNumber q.nextInstall } } = .ok ((), u)) :
    (winstJudged d s va w dxl ds ss n no).run t =
      .ok ((), ((u.installEvent (s.asked va w dxl ds ss no) c).setX d (no.setWidth 64)).advance) := by
  have hrun := run_acceptWrite (acc := false) (i := s.asked va w dxl ds ss no) hwrite
  simp only [winstJudged, run_bind, run_get, run_modify, haccept, hrun, run_setXM, run_advanceM]

theorem run_winstJudged_accepted {bs rs : List (Nat × Nat)} {dv : Dev}
    (haccept : t.dev.accept s.layerPart (w.extractLsb' 448 64) (w.extractLsb' 384 64) n (ds.map (·.ent)) = .ok (bs, rs, dv))
    (hwrite : (recordWrite false s.via va (installWord 0xFF 0 0 no)).run { t with dev :=
      { dv.updPart s.layerPart (fun q => { q with nextInstall := nextNumber q.nextInstall }) with
        installs := dv.installs ++ [{ s.asked va w dxl ds ss no with blocks := bs, reserved := rs }] } } = .ok ((), u)) :
    (winstJudged d s va w dxl ds ss n no).run t = .ok ((), (u.setX d (no.setWidth 64)).advance) := by
  have hrun := run_acceptWrite (acc := true) (i := { s.asked va w dxl ds ss no with blocks := bs, reserved := rs }) hwrite
  simp only [winstJudged, run_bind, run_get, run_modify, haccept, run_set, hrun, run_setXM, run_advanceM]

end

section
variable {d a : BitVec 5} {s : State}

theorem exec_winst_misaligned (h : (s.x a).toNat % 64 ≠ 0) : exec (.winst d a) s = .next (s.takeTrap 0x0E 0 (s.x a) 0) := by
  refine deliver_trap s _ _ _ _ _ ?_
  simp only [run_bind, if_pos (mt (extractLsb'_low_eq_zero _ 6).mp h), run_stop]
  rfl

section
variable (halign : (s.x a).toNat % 64 = 0)
include halign

theorem exec_winst_waits (h : s.fenceWaits 3 false true = true) : exec (.winst d a) s = .next s.await := by
  have halign' := not_not.mpr ((extractLsb'_low_eq_zero _ 6).mpr halign)
  refine deliver_wait s _ ?_
  simp only [run_bind, if_neg halign', h, if_true, run_stop]

section
variable (hfence : s.fenceWaits 3 false true = false)
include hfence

section
variable {i : Install} (hfind : s.dev.installs.find? (fun i => i.ack.isSome && i.ctx == s.via.key && i.desc == s.x a) = some i)
include hfind

theorem exec_winst_pending (h : i.ack ≠ some none) : exec (.winst d a) s = .next s.await := by
  have halign' := not_not.mpr ((extractLsb'_low_eq_zero _ 6).mpr halign)
  refine deliver_wait s _ ?_
  simp only [run_bind, if_neg halign', hfence, Bool.false_eq_true, if_false, hfind, winstEnd, if_pos h, run_stop]

theorem exec_winst_ends (h : i.ack = some none) :
    ∃ t : State, exec (.winst d a) s = .next (t.setX d (i.no.setWidth 64)).advance ∧ t.st = s.st ∧ t.core = s.core := by
  have halign' := not_not.mpr ((extractLsb'_low_eq_zero _ 6).mpr halign)
  obtain ⟨dv, hdv⟩ := run_winstEnd d s h
  refine ⟨{ s with dev := dv }, deliver_ok s _ _ ?_, rfl, rfl⟩
  simp only [if_neg halign', hfence, Bool.false_eq_true, if_false, hfind, hdv]

end

section
variable {t₁ : Tr} {u₁ u₂ u₃ u₄ u₅ u : State} {dxl : List Xlat} {x n : Nat} {w : BitVec 512} {ds ss : List Pg} {no : BitVec 32}
  (hnew : ∀ i ∈ s.dev.installs, i.ack = none) (htr : (translate s.via nRmw (s.x a)).run (s.fenceFar 3 false true) = .ok (t₁, u₁))
  (hleaf : (pageLeaf s.via nRmw 0 (s.x a)).run u₁ = .ok (dxl, u₂)) (hread : (readRecord (s.x a) 64).run u₂ = .ok (x, u₃))
  (hw : BitVec.ofNat 512 x = w) (hn : (w.extractLsb' 352 32).toNat = n) (hzero : w.extractLsb' 65 255 = 0) (hsome : 1 ≤ n) (hmost : n ≤ 64)
  (hds : (pagesOver s.via nInstall (fun p => do
      let t ← get
      if t.dev.rmIn p.dpa && rmLayer p.ent == 3 then pure () else p.look nInstall.kind true)
    ((w.extractLsb' 448 64).toNat + n * 16777216) (n * 4096 + 16) (w.extractLsb' 448 64)).run u₃ = .ok (ds, u₄))
  (hss : (pagesOver s.via nEngRead (fun p => p.look nEngRead.kind true) ((w.extractLsb' 384 64).toNat + n * 16777216) (n * 4096 + 16)
    (w.extractLsb' 384 64)).run u₄ = .ok (ss, u₅))
  (hflash : ∀ p ∈ ds, s.via.raw = false ∧ ptePcls p.pte = 0) (hsource : ∀ p ∈ ss, rmLayer p.ent = 2 ∨ rmLayer p.ent = 4)
  (hno : (u₅.dev.part s.layerPart).elim 1 (·.nextInstall) = no)
include hnew htr hleaf hread hw hn hzero hsome hmost hds hss hflash hsource hno

/-- A descriptor whose tests of form are met and whose pages are found goes on to be judged. -/
theorem exec_winst_judged {v : State} (hrest : (winstJudged d s (s.x a) w dxl ds ss n no).run u₅ = .ok ((), v)) :
    exec (.winst d a) s = .next v := by
  have halign' := not_not.mpr ((extractLsb'_low_eq_zero _ 6).mpr halign)
  have hfind : s.dev.installs.find? (fun i => i.ack.isSome && i.ctx == s.via.key && i.desc == s.x a) = none := by
    refine List.find?_eq_none.mpr fun i hi => ?_
    simp [hnew i hi]
  have hgood : ¬ (w.extractLsb' 65 255 ≠ 0 ∨ n = 0 ∨ 64 < n) := by
    rw [not_or, not_not]
    exact ⟨hzero, by omega⟩
  have hdsOk : (ds.forM fun p => if s.via.raw || ptePcls p.pte != 0 then layerArg 2 p.va else pure () : M Unit).run u₅ = .ok ((), u₅) :=
    run_forM_ok fun p hp => by
      obtain ⟨hraw, hcls⟩ := hflash p hp
      simp only [hraw, hcls, bne_self_eq_false, Bool.or_self, Bool.false_eq_true, if_false, run_pure]
  have hssOk : (ss.forM fun p => if rmLayer p.ent != 2 && rmLayer p.ent != 4 then layerArg 2 p.va else pure () : M Unit).run u₅ = .ok ((), u₅) :=
    run_forM_ok fun p hp => by
      have hplain : (rmLayer p.ent != 2 && rmLayer p.ent != 4) = false := by rcases hsource p hp with h | h <;> rw [h] <;> rfl
      simp only [hplain, Bool.false_eq_true, if_false, run_pure]
  refine deliver_ok s _ _ (Eq.trans ?_ hrest)
  simp only [run_bind, if_neg halign', hfence, Bool.false_eq_true, if_false, hfind, run_modify, htr, hleaf, hread, hw, hn]
  rw [if_neg hgood, run_bind_of hds, run_bind_of hss, run_bind_of hdsOk, run_bind_of hssOk, run_bind_of (run_get _), hno]
  rw [winstJudged, run_bind_of (run_get u₅)]
  rfl

end

end
end
end

/-! ### `recode` and `swp` (R364, R371) -/

section
variable {d a b : BitVec 5} {s : State}

section
variable (h : (s.x a).toNat % 65536 ≠ 0)
include h

theorem exec_recode_misaligned : exec (.recode d a b) s = .next (s.takeTrap 0x0E 0 (s.x a) 0) := by
  refine deliver_trap s _ _ _ _ _ ?_
  simp only [run_bind, if_pos (mt (extractLsb'_low_eq_zero _ 16).mp h), run_stop]
  rfl

theorem exec_swp_misaligned : exec (.swp d a b) s = .next (s.takeTrap 0x0E 0 (s.x a) 0) := by
  refine deliver_trap s _ _ _ _ _ ?_
  simp only [run_bind, if_pos (mt (extractLsb'_low_eq_zero _ 16).mp h), run_stop]
  rfl

end

section
variable (halign : (s.x a).toNat % 65536 = 0) (hfence : s.fenceWaits 3 false true = false)
include halign hfence

section
variable {u : State} {w : Word} {n : Nat} {ps : List Pg} (hw : s.x b = w) (hn : (w.extractLsb' 16 16).toNat = n)
  (hps : (pagesOver s.via nPerm (fun p => p.look nPerm.kind true) ((s.x a).toNat + 65536 * n) (16 * n) (s.x a)).run (s.fenceFar 3 false true) =
    .ok (ps, u))
include hw hn hps

/-- A `recode` of no page, or with a reserved field set. -/
theorem exec_recode_bad (h : n = 0 ∨ w.extractLsb' 9 7 ≠ 0 ∨ w.extractLsb' 7 2 = 3) : exec (.recode d a b) s = .next (s.takeTrap 0x14 1 0 0) := by
  have halign' := not_not.mpr ((extractLsb'_low_eq_zero _ 16).mpr halign)
  refine deliver_trap s _ _ _ _ _ ?_
  simp only [run_bind, if_neg halign', hfence, Bool.false_eq_true, if_false, run_modify, hw, hn]
  simp only [hps, if_pos h, layerArg]
  rfl

theorem exec_recode_queues (hsome : n ≠ 0) (hzero : w.extractLsb' 9 7 = 0) (hmode : w.extractLsb' 7 2 ≠ 3)
    (hcls : ∀ p ∈ ps, s.via.raw = true ∨ ptePcls p.pte ≠ 0) {no : BitVec 32} (hno : (s.dev.part s.layerPart).elim 1 (·.nextRecode) = no)
    {r : Recode} (hr : ⟨s.layerPart, s.via.key, s.core.num, no, w.extractLsb' 32 32, w.extractLsb' 0 9, s.st.round, s.x a, 512 * n, 0,
      ps.flatMap (·.xl), s.st.wordPc, seedStore no, 0, 0, 0, 0, [], false, none⟩ = r) :
    let dv := u.dev.updPart s.layerPart fun q => { q with nextRecode := nextNumber q.nextRecode }
    exec (.recode d a b) s = .next (({ u with dev := { dv with recodes := u.dev.recodes ++ [r] } } : State).setX d (no.setWidth 64)).advance := by
  have halign' := not_not.mpr ((extractLsb'_low_eq_zero _ 16).mpr halign)
  have hgood : ¬ (n = 0 ∨ w.extractLsb' 9 7 ≠ 0 ∨ w.extractLsb' 7 2 = 3) := by
    rw [not_or, not_or, not_not]
    exact ⟨hsome, hzero, hmode⟩
  have hpsOk : (ps.forM fun p => if !s.via.raw && ptePcls p.pte == 0 then layerArg 2 p.va else pure () : M Unit).run u = .ok ((), u) :=
    run_forM_ok fun p hp => by
      have hplain : (!s.via.raw && ptePcls p.pte == 0) = false := by rcases hcls p hp with h | h <;> simp [h]
      simp only [hplain, Bool.false_eq_true, if_false, run_pure]
  refine deliver_ok s _ _ ?_
  simp only [run_bind, if_neg halign', hfence, Bool.false_eq_true, if_false, run_modify, hw, hn]
  simp only [hps]
  rw [if_neg hgood, run_bind_of hpsOk, hno, hr]
  rfl

end

section
variable {pa pb : Pg} {u₁ u₂ u₃ u : State} (halignB : (s.x b).toNat % 65536 = 0)
  (hpa : (pageAt s.via nPerm 2 (s.x a)).run (s.fenceFar 3 false true) = .ok (pa, u₁)) (hlookA : (pa.look nPerm.kind true).run u₁ = .ok ((), u₂))
  (hpb : (pageAt s.via nPerm 2 (s.x b)).run u₂ = .ok (pb, u₃)) (hlookB : (pb.look nPerm.kind true).run u₃ = .ok ((), u))
include halignB hpa hlookA hpb hlookB

/-- A `swp` of a page with itself. -/
theorem exec_swp_same (h : rmPage pa.dpa = rmPage pb.dpa) : exec (.swp d a b) s = .next (s.takeTrap 0x14 3 (s.x a) 0) := by
  have halign' := not_not.mpr ((extractLsb'_low_eq_zero _ 16).mpr halign)
  have halignB' := not_not.mpr ((extractLsb'_low_eq_zero _ 16).mpr halignB)
  refine deliver_trap s _ _ _ _ _ ?_
  simp only [run_bind, if_neg halign', if_neg halignB', hfence, Bool.false_eq_true, if_false, run_modify, hpa, hlookA, hpb, hlookB]
  simp only [if_pos h, layerArg]
  rfl

theorem exec_swp_queues (h : rmPage pa.dpa ≠ rmPage pb.dpa) (hcls : ptePcls pa.pte = ptePcls pb.pte) (hkind : s.via.raw = true ∨ ptePcls pa.pte ≠ 0)
    (hcmpA : pteCmpr pa.pte = false) (hcmpB : pteCmpr pb.pte = false) (hcacheA : pteCache pa.pte ≠ 2) (hcacheB : pteCache pb.pte ≠ 2)
    (hallowA : classAllows (ptePcls pa.pte) (rmLayer pb.ent) = true) (hallowB : classAllows (ptePcls pb.pte) (rmLayer pa.ent) = true)
    (hquota : u.dev.overQuota pa pb = false) {no : BitVec 32} (hno : (s.dev.part s.layerPart).elim 1 (·.nextSwap) = no) :
    let dv := u.dev.updPart s.layerPart fun q => { q with nextSwap := nextNumber q.nextSwap }
    exec (.swp d a b) s = .next (({ u with dev := { dv with swaps := u.dev.swaps ++ [⟨s.layerPart, s.core.num, s.via.key, no,
      .ofNat 64 (pa.dpa / 65536 * 65536), .ofNat 64 (pb.dpa / 65536 * 65536), false⟩] } } : State).setX d (no.setWidth 64)).advance := by
  have halign' := not_not.mpr ((extractLsb'_low_eq_zero _ 16).mpr halign)
  have halignB' := not_not.mpr ((extractLsb'_low_eq_zero _ 16).mpr halignB)
  have hkindA : (!s.via.raw && ptePcls pa.pte == 0) = false := by rcases hkind with h | h <;> simp [h]
  have hkindB : (!s.via.raw && ptePcls pb.pte == 0) = false := hcls ▸ hkindA
  have hgoodA : ¬ (ptePcls pa.pte ≠ ptePcls pb.pte ∨ ((!s.via.raw && ptePcls pa.pte == 0) || pteCmpr pa.pte || pteCache pa.pte == 2 ||
      !classAllows (ptePcls pa.pte) (rmLayer pb.ent)) = true) := by
    rw [not_or, not_not]
    exact ⟨hcls, by simp [hkindA, hcmpA, hcacheA, hallowA]⟩
  have hgoodB : ¬ ((!s.via.raw && ptePcls pb.pte == 0) || pteCmpr pb.pte || pteCache pb.pte == 2 ||
      !classAllows (ptePcls pb.pte) (rmLayer pa.ent)) = true := by
    simp [hkindB, hcmpB, hcacheB, hallowB]
  refine deliver_ok s _ _ ?_
  simp only [run_bind, if_neg halign', if_neg halignB', hfence, Bool.false_eq_true, if_false, run_modify, hpa, hlookA, hpb, hlookB]
  rw [if_neg h, if_neg hgoodA, if_neg hgoodB, run_bind_of (run_get u), hquota, if_neg Bool.false_ne_true, hno]
  rfl

end
end
end

/-! ### `wstat` and `heat.rd` (R363, R378) -/

/-- The wear word of a stack, with the lowest wear that of its least-worn usable block. -/
theorem Flash.summary_eq (f : Flash) (free : Nat) : f.summary free = 2 ^ 48 * (f.retired.length % 2 ^ 16) + 2 ^ 32 * (f.usable.length % 2 ^ 16) +
    2 ^ 16 * (f.wear.foldl (fun n x => Nat.max n x.2) 0 % 2 ^ 16) + f.leastWorn.elim (Config.freeWord free).toNat f.wearOf % 2 ^ 16 := by
  unfold Flash.summary
  cases f.leastWorn <;> rfl

section
variable {d a b : BitVec 5} {s : State}

section
variable {q : Part} (hq : s.dev.part s.layerPart = some q)
include hq

theorem exec_wstat_balance (h : s.x b = 0) : exec (.wstat d a b) s = .next (s.setX d (.ofNat 64 q.balance)).advance := by
  refine deliver_ok s _ _ ?_
  simp only [h, hq]
  rfl

theorem exec_wstat_allowance (h : s.x b = 1) : exec (.wstat d a b) s = .next (s.setX d q.walw).advance := by
  refine deliver_ok s _ _ ?_
  simp only [h, hq]
  change Except.ok ((), (s.setX d (.ofNat 64 q.walw.toNat)).advance) = _
  rw [BitVec.ofNat_toNat, BitVec.setWidth_eq]

end

theorem exec_wstat_installs (h : s.x b = 4) :
    exec (.wstat d a b) s = .next (s.setX d (.ofNat 64 (s.dev.installs.filter (·.part == s.layerPart)).length)).advance := by
  refine deliver_ok s _ _ ?_
  simp only [h]
  rfl

theorem exec_wstat_rollbacks (h : s.x b = 5) :
    exec (.wstat d a b) s = .next (s.setX d (.ofNat 64 (s.dev.rollTag.toNat * 2 ^ 32 + s.dev.rollbacks % 2 ^ 32))).advance := by
  refine deliver_ok s _ _ ?_
  simp only [h]
  rfl

/-- A selector that Table 19.7 does not have. -/
theorem exec_wstat_bad (h : 6 ≤ (s.x b).toNat) : exec (.wstat d a b) s = .next (s.takeTrap 0x14 4 0 0) := by
  refine deliver_trap s _ _ _ _ _ ?_
  dsimp only
  split
  case h_5 =>
    have hpage : ¬ ((s.x b).toNat = 2 ∨ (s.x b).toNat = 3) := by omega
    rw [if_neg hpage]
    rfl
  all_goals omega

section
variable {p : Pg} {u₁ u : State} {loc : Nat} {blk : Nat × Nat} {f : Flash} (hpage : (pageAt s.via nLoad 4 (s.x a)).run s = .ok (p, u₁))
  (hlook : (p.look nLoad.kind true).run u₁ = .ok ((), u))
include hpage hlook

theorem exec_wstat_notFlash (h : (s.x b).toNat = 2 ∨ (s.x b).toNat = 3) (hlayer : rmLayer p.ent ≠ 3) :
    exec (.wstat d a b) s = .next (s.takeTrap 0x14 4 (s.x a) 0) := by
  refine deliver_trap s _ _ _ _ _ ?_
  rcases h with hsel | hsel
  all_goals
    simp only [run_bind, hsel, true_or, or_true, if_true, hpage, hlook, if_pos hlayer, layerArg, run_stop]
    rfl

section
variable (hloc : rmLoc p.ent + (s.x a).toNat % 65536 = loc) (hblk : flashBlock (rmSite p.ent) loc = blk) (hf : s.dev.stackOf blk.1 = f)
  (hlayer : rmLayer p.ent = 3)
include hloc hblk hf hlayer

theorem exec_wstat_wear (hsel : (s.x b).toNat = 2) : exec (.wstat d a b) s =
    .next (u.setX d (.ofNat 64 (2 ^ 32 * (loc / 16777216) + f.wearOf (f.phys blk.2) % 2 ^ 16))).advance := by
  refine deliver_ok s _ _ ?_
  rw [Nat.mul_comm (2 ^ 32)]
  simp only [run_bind, hsel, true_or, if_true, hpage, hlook, hlayer, ne_eq, not_true_eq_false, if_false,
    hloc, hblk, hf, run_pure, run_setXM, run_advanceM]

theorem exec_wstat_stack (hsel : (s.x b).toNat = 3) : ∃ least, (∀ q, f.leastWorn = some q → least = f.wearOf q) ∧ exec (.wstat d a b) s =
    .next (u.takeFree.2.setX d (.ofNat 64 (2 ^ 48 * (f.retired.length % 2 ^ 16) + 2 ^ 32 * (f.usable.length % 2 ^ 16) +
      2 ^ 16 * (f.wear.foldl (fun n x => Nat.max n x.2) 0 % 2 ^ 16) + least % 2 ^ 16))).advance := by
  refine ⟨f.leastWorn.elim (Config.freeWord u.takeFree.1).toNat f.wearOf, fun q hq => by rw [hq]; rfl, deliver_ok s _ _ ?_⟩
  simp only [run_bind, hsel, or_true, if_true, hpage, hlook, hlayer, ne_eq, not_true_eq_false, if_false,
    show (3 : Nat) ≠ 2 from by decide, hloc, hblk, hf, run_get, run_set, run_pure, run_setXM, run_advanceM, Flash.summary_eq]

end
end

theorem exec_heatRd {p : Pg} {u₁ u : State} (hpage : (pageAt s.via nLoad 4 (s.x a)).run s = .ok (p, u₁))
    (hlook : (p.look nLoad.kind false).run u₁ = .ok ((), u)) :
    let noAcc := if (s.x b).getLsbD 0 = true then u.dev.rmSet p.dpa 87 1 0 else u.dev
    let cold := if (s.x b).getLsbD 1 = true then noAcc.rmSet p.dpa 88 8 0 else noAcc
    exec (.heatRd d a b) s = .next (({ u with dev := cold } : State).setX d (.ofNat 64 (2 ^ 32 * (rmGenf p.ent).toNat +
      2 ^ 24 * (rmTurning p.ent).toNat + 2 ^ 16 * rmSite p.ent + 2 ^ 12 * rmLayer p.ent + 2 ^ 8 * (rmAcc p.ent).toNat + rmHeat p.ent))).advance := by
  refine deliver_ok s _ _ ?_
  rw [run_bind_of hpage, run_bind_of hlook]
  rfl

end

/-- Settles O56: each instruction runs to its end from the pages it finds. -/
theorem layerInstructions : Obligations.LayerInstructions := by
  unfold Obligations.LayerInstructions
  intro d a b s u va vb f
  refine ⟨exec_winst_misaligned, fun h => ⟨exec_recode_misaligned h, exec_swp_misaligned h⟩, exec_winst_waits,
    fun i halign hfence hfind => ⟨exec_winst_pending halign hfence hfind, exec_winst_ends halign hfence hfind⟩, ?winst, ?recode, ?swp, ?wstat, ?page,
    fun p u₁ => exec_heatRd⟩
  case winst =>
    intro t₁ u₁ dxl u₂ x u₃ ds u₄ ss u₅ halign hfence hnew htr hleaf hread w dst src n hzero hsome hmost hds hss hflash hsource p no i next
    have judged {v : State} := exec_winst_judged (d := d) (v := v) halign hfence hnew htr hleaf hread rfl rfl hzero hsome hmost hds hss hflash hsource rfl
    exact ⟨fun c haccept hwrite => judged (run_winstJudged_refused haccept hwrite),
      fun bs rs dv haccept hwrite => judged (run_winstJudged_accepted haccept hwrite)⟩
  case recode =>
    intro ps halign hfence w n hps
    exact ⟨exec_recode_bad halign hfence rfl rfl hps,
      fun hsome hzero hmode hcls => exec_recode_queues halign hfence rfl rfl hps hsome hzero hmode hcls rfl rfl⟩
  case swp =>
    intro pa u₁ u₂ pb u₃ halign halignB hfence hpa hlookA hpb hlookB
    exact ⟨exec_swp_same halign hfence halignB hpa hlookA hpb hlookB,
      fun h hcls hkind hcmpA hcmpB hcacheA hcacheB hallowA hallowB hquota => exec_swp_queues halign hfence halignB hpa hlookA hpb hlookB h hcls hkind
        hcmpA hcmpB hcacheA hcacheB hallowA hallowB hquota rfl⟩
  case wstat =>
    exact fun q hq => ⟨exec_wstat_balance hq, exec_wstat_allowance hq, exec_wstat_installs, exec_wstat_rollbacks, exec_wstat_bad⟩
  case page =>
    intro p u₁ hpage hlook hsel loc blk f
    have hsel' : (s.x b).toNat = 2 ∨ (s.x b).toNat = 3 := hsel.imp (congrArg BitVec.toNat) (congrArg BitVec.toNat)
    exact ⟨exec_wstat_notFlash hpage hlook hsel', fun hlayer h => exec_wstat_wear hpage hlook rfl rfl rfl hlayer (congrArg BitVec.toNat h),
      fun hlayer h => exec_wstat_stack hpage hlook rfl rfl rfl hlayer (congrArg BitVec.toNat h)⟩

end Sys2Proof.Machine

/-! SUPPORT. The steps of the layer engines (R353, R358 to R362, R365, R372, R375, R376): installs, recodes, swaps, staging and power. -/

namespace Sys2Proof.Machine

/-! ### Installing a block (R358, R359) -/

theorem runEngine_ok {s t : State} {me : FaultRec → FaultRec} {m : M Unit} (h : m.run s = .ok ((), t)) : runEngine s me m = .done t := by
  simp only [runEngine, h]

/-- What an attempt at a block does once its source lines are read, with the wear of the block it programs counted. -/
def installTried (index k b p : Nat) (j : Install) (ok : Bool) (ls : List (Line × Tag)) : M Unit := do
  let t ← get
  let d := t.dev.updStack k fun f => { f with wear := setD 0 p (f.wearOf p + 1) f.wear }
  let d := d.updInstall index fun _ => { j with maxw := Nat.max j.maxw ((d.stackOf k).wearOf p), lines := ls }
  if ls.any (·.2.cls == cPOI) then set { t with dev := d.failInstall index 5 }
  else
    let d := d.program k p ls
    if ok then
      set { t with dev := d.updInstall index fun i =>
        { i with shadow := i.shadow ++ [((k, b), p)], at_ := i.at_ + 1, cur := none, tries := 0, lines := [] } }
    else
      let d := d.updStack k fun f => { f with retired := f.retired ++ [p] }
      let d := d.updInstall index fun i => { i with cur := none, tries := i.tries + 1 }
      match (if j.tries + 1 = 2 then none else d.takeBlock k) with
      | none => set { t with dev := d.failInstall index 5 }
      | some (q, d) => set { t with dev := d.updInstall index fun i => { i with cur := some q, nremap := i.nremap + 1 } }

section
variable {u : State} {index k b p : Nat} {j : Install} {ls : List (Line × Tag)} {d₁ d₂ : Dev}
  (h₁ : (u.dev.updStack k fun f => { f with wear := setD 0 p (f.wearOf p + 1) f.wear }) = d₁)
  (h₂ : (d₁.updInstall index fun _ => { j with maxw := Nat.max j.maxw ((d₁.stackOf k).wearOf p), lines := ls }) = d₂)
include h₁ h₂

/-- A POI source line ends the install. -/
theorem run_installTried_poison (ok : Bool) (h : ∃ x ∈ ls, x.2.cls = cPOI) :
    (installTried index k b p j ok ls).run u = .ok ((), { u with dev := d₂.failInstall index 5 }) := by
  have hpoi : (ls.any (·.2.cls == cPOI)) = true := by simpa using h
  rw [installTried, run_bind_of (run_get u)]
  dsimp only
  rw [h₁, h₂, if_pos hpoi, run_set]

section
variable (hplain : ∀ x ∈ ls, x.2.cls ≠ cPOI)
include hplain

theorem run_installTried_good : (installTried index k b p j true ls).run u = .ok ((), { u with dev := (d₂.program k p ls).updInstall index fun i =>
    { i with shadow := i.shadow ++ [((k, b), p)], at_ := i.at_ + 1, cur := none, tries := 0, lines := [] } }) := by
  have hpoi : ¬ (ls.any (·.2.cls == cPOI)) = true := by simpa using hplain
  rw [installTried, run_bind_of (run_get u)]
  dsimp only
  rw [h₁, h₂, if_neg hpoi, if_pos rfl, run_set]

section
variable {d₃ : Dev} (h₃ : (((d₂.program k p ls).updStack k fun f => { f with retired := f.retired ++ [p] }).updInstall index fun i =>
    { i with cur := none, tries := i.tries + 1 }) = d₃)
include h₃

/-- A block that fails its read-back is replaced once, from the stack's pool. -/
theorem run_installTried_again {q : Nat} {d₄ : Dev} (htries : j.tries ≠ 1) (hpool : d₃.takeBlock k = some (q, d₄)) :
    (installTried index k b p j false ls).run u =
      .ok ((), { u with dev := d₄.updInstall index fun i => { i with cur := some q, nremap := i.nremap + 1 } }) := by
  have hpoi : ¬ (ls.any (·.2.cls == cPOI)) = true := by simpa using hplain
  have hfirst : ¬ j.tries + 1 = 2 := by omega
  rw [installTried, run_bind_of (run_get u)]
  dsimp only
  rw [h₁, h₂, if_neg hpoi, if_neg Bool.false_ne_true, h₃, if_neg hfirst, hpool]
  rfl

theorem run_installTried_fails (h : j.tries = 1 ∨ d₃.takeBlock k = none) :
    (installTried index k b p j false ls).run u = .ok ((), { u with dev := d₃.failInstall index 5 }) := by
  have hpoi : ¬ (ls.any (·.2.cls == cPOI)) = true := by simpa using hplain
  have hnone : (if j.tries + 1 = 2 then none else d₃.takeBlock k) = none := by
    rcases h with htries | hpool
    · exact if_pos (by omega)
    · rw [hpool, ite_self]
  rw [installTried, run_bind_of (run_get u)]
  dsimp only
  rw [h₁, h₂, if_neg hpoi, if_neg Bool.false_ne_true, h₃, hnone]
  rfl

end
end
end

section
variable {s u v : State} {index k b p : Nat} {i j : Install} {ls : List (Line × Tag)} (hi : s.dev.installs[index]? = some i)
  (hb : i.blocks[i.at_]? = some (k, b)) (hturn : s.dev.installTurn index i = true) (htake : i.take k = some (p, j))
  (hls : (if j.lines.isEmpty then installLines (s.viaKey j.ctx) j.sxl (j.src + .ofNat 64 (16777216 * j.at_)) 0 131072 else pure j.lines : M _).run s =
    .ok (ls, u))
include hi hb hturn htake hls

theorem exec_installBlockVerify_of {ok : Bool} (h : (installTried index k b p j ok ls).run u = .ok ((), v)) :
    exec (.installBlockVerify index ok) s = .next v := by
  change execInstallBlockVerify index ok s = _
  rw [execInstallBlockVerify, hi]
  dsimp only
  rw [hb]
  dsimp only
  rw [hturn, if_neg Bool.true_eq_false.mp, htake]
  dsimp only
  split at hls
  next hempty =>
    rw [if_pos hempty, runEngine_ok ((run_bind_of hls).trans ?_)]
    exact h
  next hread =>
    rw [if_neg hread, runEngine_ok ((run_bind_of hls).trans ?_)]
    exact h

end

/-! ### The end of an install (R356, R360, R361) -/

/-- Layer work is dropped only where its context is terminated; that of the resident level has none (R320). -/
theorem notDropped {d : Dev} {c : Nat} (h : 4096 ≤ c ∨ d.ctxLive c = true) : (decide (c < 4096) && !d.ctxLive c) = false := by
  rcases h with h | h
  · rw [decide_eq_false h.not_gt, Bool.false_and]
  · rw [h, Bool.not_true, Bool.and_false]

section
variable {s u : State} {index : Nat} {i : Install} (hi : s.dev.installs[index]? = some i) (hparked : i.parked = none) (hack : i.ack = none)
include hi hparked hack

theorem exec_installCommit_failed {c : BitVec 8} (hfail : i.fail = some c) (hlive : 4096 ≤ i.ctx ∨ s.dev.ctxLive i.ctx = true)
    (hwrite : (i.statusWrite s (installWord c i.nremap i.maxw i.no)).run s = .ok ((), u)) :
    let t := u.installEvent { i with committed := false } c
    exec (.installCommit index) s = .next { t with dev := { t.dev with installs := t.dev.installs.eraseIdx index } } := by
  have hdead := notDropped hlive
  change execInstallCommit index s = _
  simp only [execInstallCommit, hi, hparked, Option.isSome_none, Bool.false_eq_true, if_false, hack, hfail, Option.isNone_some, Bool.false_and, hdead]
  rw [runEngine_ok (t := u) ?write]
  case write => exact hwrite
  rfl

theorem exec_installCommit_commits {c : State} (hfail : i.fail = none) (hnew : i.committed = false) (hdone : i.at_ = i.blocks.length)
    (hc : ({ s.commitBlocks i with dev := (s.commitBlocks i).dev.updInstall index fun i => { i with committed := true } } : State) = c)
    (hlive : 4096 ≤ i.ctx ∨ c.dev.ctxLive i.ctx = true)
    (hwrite : (i.statusWrite c (installWord ({ i with committed := true } : Install).code i.nremap i.maxw i.no)).run c = .ok ((), u)) :
    let t := u.installEvent { i with committed := true } ({ i with committed := true } : Install).code
    exec (.installCommit index) s = .next { t with dev := { t.dev with installs := t.dev.installs.eraseIdx index } } := by
  have hdead := notDropped hlive
  change execInstallCommit index s = _
  simp only [execInstallCommit, hi, hparked, Option.isSome_none, Bool.false_eq_true, if_false, hack, hfail, Option.isNone_none, Bool.true_and, hdone,
    Nat.lt_irrefl, decide_false, hnew, Bool.not_false, if_true, hc, hdead]
  simp only [hfail, hack, hparked, hdone] at hwrite
  rw [runEngine_ok (t := u) ?write]
  case write => exact hwrite

end

/-! ### The other engines (R362, R365, R372, R376) -/

theorem exec_recodeLineStep_steps {s u : State} {index : Nat} {r q : Recode} (hr : s.dev.recodes[index]? = some r)
    (hturn : s.dev.recodeTurn index r = true) (hstep : (recodeStep r).run s = .ok (q, u)) :
    let t : State := { u with dev := u.dev.updRecode index fun _ => q }
    let z := t.layerEvent 7 q.core q.ctx q.no q.utag (q.inval % 2 ^ 32 + 2 ^ 32 * (q.recomp % 2 ^ 32)) q.changed q.flags q.faulted.toNat
    exec (.recodeLineStep index) s = .next (if q.at_ < q.lines then t else { z with dev := { z.dev with recodes := z.dev.recodes.eraseIdx index } }) := by
  intro t z
  change execRecodeLineStep index s = _
  simp only [execRecodeLineStep, hr, hturn, Bool.true_eq_false, if_false]
  by_cases hmore : q.at_ < q.lines
  · rw [if_pos hmore, runEngine_ok (t := t) ?more]
    case more =>
      rw [run_bind_of hstep, run_bind_of (run_modify _ _), if_neg hmore.not_ge]
      rfl
  · rw [if_neg hmore, runEngine_ok (t := { z with dev := { z.dev with recodes := z.dev.recodes.eraseIdx index } }) ?last]
    case last =>
      rw [run_bind_of hstep, run_bind_of (run_modify _ _), if_pos (Nat.not_lt.mp hmore)]
      rfl

/-- A swap none of whose pages an earlier one names. -/
theorem swap_isFirst {qs : List Swap} {w : Swap} (h : ∀ q ∈ qs, ∀ p ∈ [w.a, w.b], q.a ≠ p ∧ q.b ≠ p) :
    (qs.any fun q => [w.a, w.b].contains q.a || [w.a, w.b].contains q.b) = false := by
  refine List.any_eq_false.mpr fun q hq hin => ?_
  rw [Bool.or_eq_true, List.contains_iff_mem, List.contains_iff_mem] at hin
  rcases hin with ha | hb
  · exact (h q hq _ ha).1 rfl
  · exact (h q hq _ hb).2 rfl

section
variable {s : State} {index : Nat} {w : Swap} (hw : s.dev.swaps[index]? = some w)
  (hturn : ∀ q ∈ s.dev.swaps.take index, ∀ p ∈ [w.a, w.b], q.a ≠ p ∧ q.b ≠ p)
include hw hturn

theorem exec_turnoverSwap_turns (h : w.turning = false) : ∃ t, exec (.turnoverSwap index) s = .next t ∧ t.st = s.st ∧ t.core = s.core ∧
    t.dev.swaps[index]? = some { w with turning := true } := by
  have hfirst := swap_isFirst hturn
  change ∃ t, execTurnoverSwap index s = .next t ∧ _
  simp only [execTurnoverSwap, hw, hfirst, Bool.false_eq_true, if_false, h, Bool.not_false, if_true]
  refine ⟨_, rfl, rfl, rfl, ?_⟩
  simp only [List.getElem?_map, List.getElem?_zipIdx, Dev.rmSet_swaps, hw, Option.map_some, Nat.zero_add, if_true]

theorem exec_turnoverSwap_exchanges (h : w.turning = true) (hcountA : s.counted (rmPage w.a.toNat) = false)
    (hcountB : s.counted (rmPage w.b.toNat) = false) (hwaitA : s.pageWaits (s.dev.locOf (s.dev.rmEnt w.a.toNat) 0) = false)
    (hwaitB : s.pageWaits (s.dev.locOf (s.dev.rmEnt w.b.toNat) 0) = false) :
    let t := s.turn w
    exec (.turnoverSwap index) s = .next (({ t with dev := { t.dev with swaps := t.dev.swaps.eraseIdx index } } : State).layerEvent
      8 w.core w.ctx w.no 0 w.b.toNat w.a.toNat 0 0) := by
  have hfirst := swap_isFirst hturn
  change execTurnoverSwap index s = _
  simp only [execTurnoverSwap, hw, hfirst, Bool.false_eq_true, if_false, h, Bool.not_true, hcountA, hcountB, hwaitA, hwaitB, Bool.or_self]

end

theorem exec_allowanceTick (s : State) (part : Nat) : exec (.allowanceTick part) s = .next { s with dev := s.dev.updPart part fun p =>
    { p with balance := if p.balance < p.walw.toNat then p.balance + 1 else p.balance } } := by
  have hbalance : (fun p : Part => if p.balance < p.walw.toNat then { p with balance := p.balance + 1 } else p) = fun p =>
      { p with balance := if p.balance < p.walw.toNat then p.balance + 1 else p.balance } := by
    funext p
    split <;> rfl
  change execAllowanceTick part s = _
  rw [execAllowanceTick, hbalance]

/-! ### Page heat and staging (R353, R375, R376) -/

theorem exec_heatDecay_halves {s : State} {dpa : BitVec 64} (hon : s.dev.heatcfg.getLsbD 16 = true) (hfound : (s.dev.rmLook dpa.toNat).isSome = true) :
    exec (.heatDecay dpa) s = .next { s with dev := s.dev.rmSet dpa.toNat 88 8 (rmHeat (s.dev.rmEnt dpa.toNat) / 2) } := by
  change execHeatDecay dpa s = _
  rw [execHeatDecay, hon, hfound]
  rfl

theorem exec_heatDecay_off {s : State} {dpa : BitVec 64} (h : s.dev.heatcfg.getLsbD 16 = false) : exec (.heatDecay dpa) s = .next s := by
  change execHeatDecay dpa s = _
  rw [execHeatDecay, h]
  rfl

/-- The state with a line and its tag in the staging cache. -/
def State.withStaged (s : State) (line : Nat) (x : Line × Tag) : State :=
  { s with dev := { s.dev with staged := (line, x) :: s.dev.staged.filter fun y => y.1 != line } }

/-- A flash line that cannot be read is staged as POI. -/
theorem stageLine_bad {d : Dev} {loc : Nat} (h : d.lineBad loc = true) : d.stageLine loc = (0, withCmp 0 (d.mem.tag loc).toPoi) := by
  rw [Dev.stageLine, h]
  rfl

section
variable {s : State} {line : Nat} (hlow : 48 ≤ spaceOf (line * 128)) (hhigh : spaceOf (line * 128) < 64) (hstage : s.dev.stage ≠ 0)
include hlow hhigh hstage

theorem exec_stagingFill_stages (h : s.dev.lineBad (line * 128) = false) :
    exec (.stagingFill line false) s = .next (s.withStaged line (s.dev.stageLine (line * 128))) := by
  change execStagingFill line false s = _
  rw [execStagingFill, if_pos ⟨hlow, hhigh, hstage⟩, h]
  rfl

/-- A line that cannot be read is lost, with its record, where the cache does not hold it as POI already. -/
theorem exec_stagingFill_lost {bad : Bool} (h : bad = true ∨ s.dev.lineBad (line * 128) = true)
    (hnew : ∀ y ∈ s.dev.staged, y.1 = line → y.2.2.cls ≠ cPOI) :
    let lost := s.withStaged line (0, withCmp 0 (s.dev.mem.tag (line * 128)).toPoi)
    exec (.stagingFill line bad) s = .next ((s.dev.dpaOf (line * 128)).elim lost fun at_ => lost.linePoisoned at_ (hardRecord s.dev.num 0)) := by
  have hfresh : (s.dev.staged.any fun (a, _, t) => a == line && t.cls == cPOI) = false := by
    refine List.any_eq_false.mpr fun y hy hboth => ?_
    obtain ⟨hline, hpoi⟩ := Bool.and_eq_true_iff.mp hboth
    exact hnew y hy (beq_iff_eq.mp hline) (beq_iff_eq.mp hpoi)
  have hbad : (bad || s.dev.lineBad (line * 128)) = true := Bool.or_eq_true_iff.mpr h
  have hline : (if bad then (0, (s.dev.mem.tag (line * 128)).toPoi |> withCmp 0) else s.dev.stageLine (line * 128)) =
      (0, withCmp 0 (s.dev.mem.tag (line * 128)).toPoi) := by
    cases bad with
    | true => rfl
    | false => exact stageLine_bad (h.resolve_left Bool.false_ne_true)
  change execStagingFill line bad s = _
  rw [execStagingFill, if_pos ⟨hlow, hhigh, hstage⟩, hline]
  dsimp only
  rw [hbad, hfresh]
  rfl

end

/-! ### Loss of power of a flash stack (R361) -/

theorem Dev.updStack_installs (d : Dev) (k : Nat) (g : Flash → Flash) : (d.updStack k g).installs = d.installs := by
  unfold Dev.updStack
  split <;> rfl

theorem Dev.updStack_mem (d : Dev) (k : Nat) (g : Flash → Flash) : (d.updStack k g).mem = d.mem := by
  unfold Dev.updStack
  split <;> rfl

theorem foldl_updStack_frame {g : Nat → Flash → Flash} (l : List (Nat × Nat)) (d : Dev) :
    (l.foldl (fun d (k, p) => d.updStack k (g p)) d).installs = d.installs ∧ (l.foldl (fun d (k, p) => d.updStack k (g p)) d).mem = d.mem := by
  induction l generalizing d with
  | nil => exact ⟨rfl, rfl⟩
  | cons x r ih => exact ⟨(ih _).1.trans (d.updStack_installs _ _), (ih _).2.trans (d.updStack_mem _ _)⟩

theorem Dev.updInstall_getElem? (d : Dev) (n m : Nat) (f : Install → Install) :
    (d.updInstall n f).installs[m]? = (d.installs[m]?).map fun i => if m = n then f i else i := by
  simp [Dev.updInstall, List.getElem?_map, List.getElem?_zipIdx, Function.comp_def]

/-- An install as its end without a commit leaves it (R358). -/
def Install.failed (i : Install) (code : BitVec 8) : Install := { i with fail := some code, reserved := [], shadow := [], cur := none }

theorem Dev.failInstall_mem (d : Dev) (n : Nat) (code : BitVec 8) : (d.failInstall n code).mem = d.mem := by
  unfold Dev.failInstall
  split
  · rfl
  · exact (foldl_updStack_frame (g := fun p f => { f with pool := f.pool ++ [p] }) _ _).2

theorem Dev.failInstall_getElem? (d : Dev) (n m : Nat) (code : BitVec 8) :
    (d.failInstall n code).installs[m]? = (d.installs[m]?).map fun i => if m = n then i.failed code else i := by
  unfold Dev.failInstall
  split
  next hnone =>
    by_cases hm : m = n
    · rw [hm, hnone]
      rfl
    · simp [hm]
  next i hi =>
    rw [Dev.updInstall_getElem?, (foldl_updStack_frame (g := fun p f => { f with pool := f.pool ++ [p] }) _ _).1]
    rfl

/-- Whether an install ends when a stack loses power: it uses the stack and has neither failed nor committed. -/
def Install.endsWith (i : Install) (stack : Nat) : Bool := !i.committed && i.fail.isNone && i.blocks.any (·.1 == stack)

theorem Install.endsWith_iff (i : Install) {stack : Nat} :
    i.endsWith stack = true ↔ i.committed = false ∧ i.fail = none ∧ i.blocks.any (·.1 == stack) = true := by
  simp only [Install.endsWith, Bool.and_eq_true, Bool.not_eq_true', Option.isNone_iff_eq_none, and_assoc]

theorem length_eq_of_getElem?_map {α β : Type} {f : Nat → α → β} {l : List α} {l' : List β} (h : ∀ m, l'[m]? = (l[m]?).map (f m)) :
    l'.length = l.length := by
  refine Nat.le_antisymm (List.getElem?_eq_none_iff.mp ?_) (List.getElem?_eq_none_iff.mp ?_)
  · rw [h, List.getElem?_eq_none (Nat.le_refl _)]
    rfl
  · exact Option.map_eq_none_iff.mp ((h _).symm.trans (List.getElem?_eq_none (Nat.le_refl _)))

/-- The installs up to one, each in turn, after a stack lost power. -/
def Dev.losePower (d : Dev) (stack n : Nat) : Dev :=
  (List.range n).foldl (fun d n => if (d.installs[n]?).any (·.endsWith stack) then { d.failInstall n 6 with rollbacks := d.rollbacks + 1 } else d) d

theorem Dev.losePower_succ (d : Dev) (stack n : Nat) : d.losePower stack (n + 1) =
    if ((d.losePower stack n).installs[n]?).any (·.endsWith stack) then
      { (d.losePower stack n).failInstall n 6 with rollbacks := (d.losePower stack n).rollbacks + 1 }
    else d.losePower stack n := by
  rw [Dev.losePower, List.range_succ, List.foldl_append]
  rfl

theorem Dev.losePower_mem (d : Dev) (stack n : Nat) : (d.losePower stack n).mem = d.mem := by
  induction n with
  | zero => rfl
  | succ n ih =>
    rw [Dev.losePower_succ]
    split
    · exact (Dev.failInstall_mem _ n 6).trans ih
    · exact ih

/-- Each install is judged once, as it was. -/
theorem Dev.losePower_getElem? (d : Dev) (stack n m : Nat) : (d.losePower stack n).installs[m]? =
    (d.installs[m]?).map fun i => if m < n ∧ i.endsWith stack = true then i.failed 6 else i := by
  induction n generalizing m with
  | zero => simp [Dev.losePower]
  | succ n ih =>
    have hnow : (d.losePower stack n).installs[n]? = d.installs[n]? := by simp [ih]
    have hlater : m ≠ n → (m < n + 1 ↔ m < n) := by omega
    rw [Dev.losePower_succ, hnow]
    split
    next hend =>
      change ((d.losePower stack n).failInstall n 6).installs[m]? = _
      rw [Dev.failInstall_getElem?, ih, Option.map_map]
      cases hm : d.installs[m]? with
      | none => rfl
      | some i =>
        by_cases heq : m = n
        · rw [← heq, hm] at hend
          have hi : i.endsWith stack = true := hend
          simp [heq, hi]
        · simp [heq, hlater heq]
    next hkeep =>
      rw [ih]
      cases hm : d.installs[m]? with
      | none => rfl
      | some i =>
        by_cases heq : m = n
        · rw [← heq, hm] at hkeep
          have hi : ¬ i.endsWith stack = true := hkeep
          simp [hi]
        · simp [hlater heq]

theorem exec_flashPowerLoss (s : State) (stack : Nat) : ∃ t : State, exec (.flashPowerLoss stack) s = .next t ∧ t.st = s.st ∧ t.core = s.core ∧
    t.dev.mem = s.dev.mem ∧ t.dev.installs.length = s.dev.installs.length ∧
    ∀ (n : Nat) (i j : Install), s.dev.installs[n]? = some i → t.dev.installs[n]? = some j →
      j.fail = (if i.committed = false ∧ i.fail = none ∧ i.blocks.any (·.1 == stack) = true then some 6 else i.fail) := by
  have hget := s.dev.losePower_getElem? stack s.dev.installs.length
  refine ⟨{ s with dev := s.dev.losePower stack s.dev.installs.length }, rfl, rfl, rfl, Dev.losePower_mem _ _ _, length_eq_of_getElem?_map hget,
    fun n i j hi hj => ?_⟩
  obtain ⟨hn, -⟩ := List.getElem?_eq_some_iff.mp hi
  have hj' := (hget n).symm.trans hj
  rw [hi] at hj'
  obtain rfl := Option.some.inj hj'
  dsimp only
  by_cases hend : i.endsWith stack = true
  · rw [if_pos ⟨hn, hend⟩, if_pos (i.endsWith_iff.mp hend)]
    rfl
  · rw [if_neg fun h => hend h.2, if_neg (mt i.endsWith_iff.mpr hend)]

/-- Settles O57: every engine's step is one case of its definition; a power loss judges each install once. -/
theorem layerSteps : Obligations.LayerSteps := by
  unfold Obligations.LayerSteps
  intro s u index
  refine ⟨?verify, fun i c hi hparked hack => exec_installCommit_failed hi hparked hack,
    ?commit,
    fun r q => exec_recodeLineStep_steps, fun w hw hturn => ⟨exec_turnoverSwap_turns hw hturn, exec_turnoverSwap_exchanges hw hturn⟩,
    fun dpa => ⟨rfl, exec_heatDecay_halves, exec_heatDecay_off⟩,
    fun line hlow hhigh hstage => ⟨exec_stagingFill_stages hlow hhigh hstage, stageLine_bad, fun bad => exec_stagingFill_lost hlow hhigh hstage⟩,
    exec_allowanceTick s, exec_flashPowerLoss s⟩
  case commit =>
    intro i hi hparked hack hfail hnew hdone c₀ c
    exact exec_installCommit_commits hi hparked hack hfail hnew hdone rfl
  case verify =>
    intro i k b p j ls hi hb hturn htake hls d₁ d₂ d₃
    have tried {v : State} {ok : Bool} := exec_installBlockVerify_of (v := v) (ok := ok) hi hb hturn htake hls
    exact ⟨fun h ok => tried (run_installTried_poison rfl rfl ok h), fun hplain => ⟨tried (run_installTried_good rfl rfl hplain),
      fun q d₄ htries hpool => tried (run_installTried_again rfl rfl hplain rfl htries hpool),
      fun h => tried (run_installTried_fails rfl rfl hplain rfl h)⟩⟩

end Sys2Proof.Machine

/-! SUPPORT. The coherence fabric and the links: tokens (R334 to R336), flits and messages (R340), hosts and pools (R342 to R344). -/

namespace Sys2Proof.Machine

/-! ### Counts by holder

The keys of a line's counts stand in order, but a count may be 0, so the laws of canonical lists do not apply. -/

/-- Keys in ascending order. -/
def KeysAscend {α : Type} (l : List (Nat × α)) : Prop := (l.map (·.1)).Pairwise (· < ·)

theorem keysAscend_cons {α : Type} {x : Nat × α} {l : List (Nat × α)} : KeysAscend (x :: l) ↔ (∀ y ∈ l, x.1 < y.1) ∧ KeysAscend l := by
  simp [KeysAscend]

/-- The sum of the counts of a list. -/
def countSum (l : List (Nat × Nat)) : Nat := (l.map (·.2)).sum

theorem countSum_cons (x : Nat × Nat) (l : List (Nat × Nat)) : countSum (x :: l) = x.2 + countSum l := by
  simp [countSum]

theorem lookupD_setD_ne {α : Type} [DecidableEq α] (z : α) {k j : Nat} (v : α) (l : List (Nat × α)) (h : j ≠ k) :
    lookupD z j (setD z k v l) = lookupD z j l := by
  induction l with
  | nil =>
    simp only [setD]
    split
    · rfl
    · exact if_neg h.symm
  | cons x r ih =>
    obtain ⟨a, w⟩ := x
    simp only [setD]
    split
    · split
      · rfl
      · exact if_neg h.symm
    · split
      next heq =>
        have ha : ¬ a = j := fun e => h (e.symm.trans heq)
        split
        · exact (if_neg ha).symm
        · exact (if_neg h.symm).trans (if_neg ha).symm
      · simp only [lookupD, ih]

theorem lookupD_setD_self {k : Nat} (v : Nat) {l : List (Nat × Nat)} (h : KeysAscend l) : lookupD 0 k (setD 0 k v l) = v := by
  induction l with
  | nil =>
    simp only [setD]
    split
    next hv => exact hv.symm
    · exact if_pos rfl
  | cons x r ih =>
    obtain ⟨hlow, hr⟩ := keysAscend_cons.mp h
    obtain ⟨a, w⟩ := x
    simp only [setD]
    split
    next hk =>
      split
      next hv =>
        rw [lookupD_below 0 k _ fun y hy => ?_, hv]
        rcases List.mem_cons.mp hy with rfl | hy
        · exact hk
        · exact hk.trans (hlow y hy)
      · exact if_pos rfl
    · split
      next hak =>
        split
        next hv => rw [lookupD_below 0 k r fun y hy => hak ▸ hlow y hy, hv]
        · exact if_pos rfl
      next hak => exact (if_neg hak).trans (ih hr)

/-- Setting one count changes the sum by what it replaces. -/
theorem countSum_setD {k : Nat} (v : Nat) {l : List (Nat × Nat)} (h : KeysAscend l) : countSum (setD 0 k v l) + lookupD 0 k l = countSum l + v := by
  induction l with
  | nil =>
    simp only [setD]
    split
    next hv => simp [hv, countSum, lookupD]
    · simp [countSum, lookupD]
  | cons x r ih =>
    obtain ⟨hlow, hr⟩ := keysAscend_cons.mp h
    obtain ⟨a, w⟩ := x
    simp only [setD]
    split
    next hk =>
      have hnone : lookupD 0 k ((a, w) :: r) = 0 := by
        refine lookupD_below 0 k _ fun y hy => ?_
        rcases List.mem_cons.mp hy with rfl | hy
        · exact hk
        · exact hk.trans (hlow y hy)
      rw [hnone]
      split
      next hv => rw [hv]
      · exact Nat.add_comm v _
    · split
      next hak =>
        rw [lookupD, if_pos hak, countSum_cons]
        split
        next hv => rw [hv, Nat.add_zero, Nat.add_comm]
        · rw [countSum_cons]
          omega
      next hak =>
        have hrest := ih hr
        rw [lookupD, if_neg hak, countSum_cons, countSum_cons]
        omega

theorem setD_keysAscend {k v : Nat} {l : List (Nat × Nat)} (h : KeysAscend l) : KeysAscend (setD 0 k v l) := by
  induction l with
  | nil =>
    simp only [setD]
    split
    · exact h
    · simp [KeysAscend]
  | cons x r ih =>
    obtain ⟨hlow, hr⟩ := keysAscend_cons.mp h
    obtain ⟨a, w⟩ := x
    simp only [setD]
    split
    next hk =>
      split
      · exact h
      · refine keysAscend_cons.mpr ⟨fun y hy => ?_, h⟩
        rcases List.mem_cons.mp hy with rfl | hy
        · exact hk
        · exact hk.trans (hlow y hy)
    next hk =>
      split
      next hak =>
        split
        · exact hr
        · exact keysAscend_cons.mpr ⟨fun y hy => hak ▸ hlow y hy, hr⟩
      next hak =>
        refine keysAscend_cons.mpr ⟨fun y hy => ?_, ih hr⟩
        rcases setD_mem 0 k v r y hy with hy | rfl
        · exact hlow y hy
        · exact Nat.lt_of_le_of_ne (Nat.not_lt.mp hk) hak

theorem lookupD_of_mem {l : List (Nat × Nat)} (h : KeysAscend l) {x : Nat × Nat} (hx : x ∈ l) : lookupD 0 x.1 l = x.2 := by
  induction l with
  | nil => exact absurd hx List.not_mem_nil
  | cons y r ih =>
    obtain ⟨hlow, hr⟩ := keysAscend_cons.mp h
    rcases List.mem_cons.mp hx with rfl | hx
    · exact if_pos rfl
    · exact (if_neg (hlow x hx).ne).trans (ih hr hx)

/-! ### Tokens (R334 to R336) -/

theorem LineTokens.total_eq (t : LineTokens) : t.total = countSum t.counts := by
  have hfold (l : List (Nat × Nat)) (n : Nat) : l.foldl (fun n x => n + x.2) n = n + countSum l := by
    induction l generalizing n with
    | nil => rfl
    | cons x r ih => rw [List.foldl_cons, ih, countSum_cons, Nat.add_assoc]
  rw [LineTokens.total, hfold, Nat.zero_add]

/-- Who gives a token has two at least. -/
theorem LineTokens.two_le_of_giver {t : LineTokens} (h : KeysAscend t.counts) {g : Nat} (hg : t.giver = some g) : 2 ≤ t.of_ g := by
  unfold LineTokens.giver at hg
  split at hg
  next howner =>
    obtain rfl := Option.some.inj hg
    exact howner
  · obtain ⟨x, hx, rfl⟩ := Option.map_eq_some_iff.mp hg
    have hmem := List.mem_of_find?_eq_some hx
    have htwo : 2 ≤ x.2 := by simpa using List.find?_some hx
    exact htwo.trans_eq (lookupD_of_mem h hmem).symm

section
variable {t : LineTokens} {g holder : Nat} (hsort : KeysAscend t.counts) (hne : g ≠ holder)
include hsort hne

/-- A token that is moved arrives, and none is lost. -/
theorem LineTokens.move_one (hnone : t.of_ holder = 0) (hg : t.giver = some g) :
    (t.move g holder 1).of_ holder = 1 ∧ (t.move g holder 1).total = t.total := by
  have htwo := LineTokens.two_le_of_giver hsort hg
  have hkept : KeysAscend (setD 0 g (t.of_ g - 1) t.counts) := setD_keysAscend hsort
  have hzero : lookupD 0 holder (setD 0 g (t.of_ g - 1) t.counts) = 0 := (lookupD_setD_ne 0 _ _ hne.symm).trans hnone
  have hgave := countSum_setD (k := g) (t.of_ g - 1) hsort
  have htook := countSum_setD (k := holder) (lookupD 0 holder (setD 0 g (t.of_ g - 1) t.counts) + 1) hkept
  constructor
  · refine (lookupD_setD_self _ hkept).trans ?_
    rw [hzero]
  · rw [LineTokens.total_eq, LineTokens.total_eq]
    change countSum (setD 0 holder (lookupD 0 holder (setD 0 g (t.of_ g - 1) t.counts) + 1) (setD 0 g (t.of_ g - 1) t.counts)) = _
    change _ + t.of_ g = _ at hgave
    omega

end

/-- The fourth failed request of one holder turns persistent (R335). -/
theorem LineTokens.fail_fourth {t : LineTokens} {holder : Nat} (hsort : sortedNe 0 t.failed = true) (h : lookupD 0 holder t.failed = 3) :
    lookupD 0 holder (t.fail holder).failed = 0 ∧ holder ∈ (t.fail holder).persist := by
  rw [LineTokens.fail, if_pos h.ge]
  refine ⟨(lookupD_setD 0 holder holder 0 _ hsort).trans (if_pos rfl), ?_⟩
  dsimp only
  split
  next hin => exact List.contains_iff_mem.mp hin
  · exact List.mem_append_right _ (List.mem_singleton_self _)

section
variable {s : State} {line holder : Nat}

theorem request_unknown (f : LineTokens → LineTokens) (h : s.isHolder line holder = false) : s.request line holder f = s := by
  rw [State.request, h]
  rfl

theorem exec_persistent_unknown (h : s.isHolder line holder = false) : exec (.persistent line holder) s = .next s := by
  change execPersistent line holder s = _
  rw [execPersistent, h]
  rfl

/-- The first entry of the arbiter acts once no Shuttle owns the line. -/
theorem persistent_acts {t : LineTokens} {r : List Nat} (hfirst : t.persist = holder :: r) (hfree : s.shuttleOf line = none) :
    t.persist.contains holder = true ∧ ¬ (t.persist.head? ≠ some holder ∨ (s.shuttleOf line).isSome = true) := by
  simp [hfirst, hfree]

section
variable (hknown : s.isHolder line holder = true) {t : LineTokens} (ht : (s.dev.tokens.find? (·.line == line)).getD ⟨line, [(0, 256)], 0, [], []⟩ = t)
include hknown ht

theorem request_owned (f : LineTokens → LineTokens) (h : (s.shuttleOf line).isSome = true) :
    s.request line holder f = { s with dev := s.dev.setTokens (t.fail holder) } := by
  simp only [State.request, hknown, Bool.not_true, Bool.false_eq_true, if_false, ht, h, if_true]

theorem request_free (f : LineTokens → LineTokens) (h : s.shuttleOf line = none) :
    s.request line holder f = { s with dev := s.dev.setTokens (f t) } := by
  simp only [State.request, hknown, Bool.not_true, Bool.false_eq_true, if_false, ht, h, Option.isSome_none]

/-- A request that finds the line owned, or another's entry active, counts as failed. -/
theorem request_fails {f : LineTokens → LineTokens} (hf : t.blocked holder = true → f t = t.fail holder)
    (h : (s.shuttleOf line).isSome = true ∨ t.blocked holder = true) :
    s.request line holder f = { s with dev := s.dev.setTokens (t.fail holder) } := by
  cases howner : s.shuttleOf line with
  | some c => exact request_owned hknown ht f (by rw [howner]; rfl)
  | none =>
    have hblocked : t.blocked holder = true := h.resolve_left (by simp [howner])
    rw [request_free hknown ht f howner, hf hblocked]

theorem exec_read_fails (h : (s.shuttleOf line).isSome = true ∨ t.blocked holder = true) :
    exec (.read line holder) s = .next { s with dev := s.dev.setTokens (t.fail holder) } :=
  congrArg Host.Outcome.next (request_fails hknown ht (fun hblocked => if_pos hblocked) h)

theorem exec_write_fails (h : (s.shuttleOf line).isSome = true ∨ t.blocked holder = true) :
    exec (.write line holder) s = .next { s with dev := s.dev.setTokens (t.fail holder) } :=
  congrArg Host.Outcome.next (request_fails hknown ht (fun hblocked => if_pos hblocked) h)

section
variable (hfree : s.shuttleOf line = none) (hopen : t.blocked holder = false)
include hfree hopen

theorem exec_read_holding (h : t.of_ holder ≠ 0) : exec (.read line holder) s = .next { s with dev := s.dev.setTokens (t.ok holder) } := by
  change Host.Outcome.next (s.request line holder _) = _
  rw [request_free hknown ht _ hfree, hopen, if_neg Bool.false_ne_true, if_pos h]

theorem exec_read_takes {g : Nat} (h : t.of_ holder = 0) (hg : t.giver = some g) :
    exec (.read line holder) s = .next { s with dev := s.dev.setTokens ((t.ok holder).move g holder 1) } := by
  change Host.Outcome.next (s.request line holder _) = _
  rw [request_free hknown ht _ hfree, hopen, if_neg Bool.false_ne_true, if_neg (not_not.mpr h), hg]

theorem exec_write_takes :
    exec (.write line holder) s = .next { s with dev := s.dev.setTokens { t.ok holder with counts := [(holder, 256)], owner := holder } } := by
  change Host.Outcome.next (s.request line holder _) = _
  rw [request_free hknown ht _ hfree, hopen, if_neg Bool.false_ne_true]
  rfl

end

theorem exec_persistent_enters (h : holder ∉ t.persist) :
    exec (.persistent line holder) s = .next { s with dev := s.dev.setTokens { t with persist := t.persist ++ [holder] } } := by
  have hout : t.persist.contains holder = false := by simpa using h
  change execPersistent line holder s = _
  simp only [execPersistent, ht, hknown, Bool.not_true, Bool.false_eq_true, if_false, hout, Bool.not_false, if_true]

section
variable {r : List Nat} (hfirst : t.persist = holder :: r) (hfree : s.shuttleOf line = none)
include hfirst hfree

theorem exec_persistent_gathers (h : t.of_ holder ≠ 256) :
    exec (.persistent line holder) s = .next { s with dev := s.dev.setTokens { t with counts := [(holder, 256)], owner := holder } } := by
  obtain ⟨hin, hacts⟩ := persistent_acts hfirst hfree
  change execPersistent line holder s = _
  simp only [execPersistent, ht, hknown, hin, Bool.not_true, Bool.false_eq_true, if_false, if_neg hacts, if_pos h]
  rfl

theorem exec_persistent_ends (h : t.of_ holder = 256) (hover : s.holderWaits holder = false) :
    exec (.persistent line holder) s = .next { s with dev := s.dev.setTokens (t.ok holder) } ∧ (t.ok holder).persist = r := by
  obtain ⟨hin, hacts⟩ := persistent_acts hfirst hfree
  refine ⟨?_, by simp [LineTokens.ok, hfirst]⟩
  change execPersistent line holder s = _
  simp only [execPersistent, ht, hknown, hin, Bool.not_true, Bool.false_eq_true, if_false, if_neg hacts, if_neg (not_not.mpr h), hover]

end
end

section
variable {src dst : Nat} {t : LineTokens} (ht : (s.dev.tokens.find? (·.line == line)).getD ⟨line, [(0, 256)], 0, [], []⟩ = t)
include ht

theorem exec_data_moves (hne : src ≠ dst) (hsrc : s.isHolder line src = true) (hdst : s.isHolder line dst = true)
    (hfree : s.shuttleOf line = none) (hopen : t.blocked dst = false) :
    exec (.data line src dst) s = .next { s with dev := s.dev.setTokens { t.move src dst (t.of_ src) with
      owner := if t.owner = src ∧ t.of_ src ≠ 0 then dst else t.owner } } := by
  have hgo : ¬ (src = dst ∨ s.isHolder line src = false ∨ s.isHolder line dst = false ∨ (s.shuttleOf line).isSome = true) := by
    simp [hne, hsrc, hdst, hfree]
  have htokens : s.tokensOf line = t := by simp only [State.tokensOf, hfree, ht]
  change execData line src dst s = _
  simp only [execData, if_neg hgo, htokens, hopen, Bool.false_eq_true, if_false]

theorem exec_data_held (h : (s.shuttleOf line).isSome = true ∨ t.blocked dst = true) : exec (.data line src dst) s = .next s := by
  change execData line src dst s = _
  cases howner : s.shuttleOf line with
  | some c => simp [execData, howner]
  | none =>
    have hblocked : t.blocked dst = true := h.resolve_left (by simp [howner])
    have htokens : s.tokensOf line = t := by simp only [State.tokensOf, howner, ht]
    simp only [execData, htokens, hblocked, if_true, ite_self]

end
end

/-! ### Flits and messages (R338 to R340) -/

section
variable {s : State} {port : Nat} {flit : BitVec 2048}

theorem exec_lacingFlit_bad (h : flitCrc flit ≠ flit.extractLsb' 1984 64 ∨ 12 ≤ port) : exec (.lacingFlit port flit) s = .next s := by
  change execLacingFlit port flit s = _
  rw [execLacingFlit, if_pos (h.imp_right .inr)]

theorem Dev.updLink_of_lt (d : Dev) (h : port < 12) (f : Link → Link) :
    d.updLink port f = { d with links := d.links.set port (f (d.links[port]'h)) h } := dif_pos h

theorem link_of_lt (hport : port < 12) : (s.dev.links[port]?).getD ⟨0, 0, 0, [], none⟩ = s.dev.links[port]'hport := by
  simp [hport]

theorem flit_good (hport : port < 12) (hcrc : flitCrc flit = flit.extractLsb' 1984 64)
    (hseq : flit.extractLsb' 104 12 = (s.dev.links[port]'hport).ack + 1) :
    ¬ (flitCrc flit ≠ flit.extractLsb' 1984 64 ∨ flit.extractLsb' 104 12 ≠ (s.dev.links[port]'hport).ack + 1 ∨ 12 ≤ port) := by
  rw [not_or, not_or, not_not, not_not]
  exact ⟨hcrc, hseq, hport.not_ge⟩

section
variable (hport : port < 12) (hcrc : flitCrc flit = flit.extractLsb' 1984 64)
include hport

theorem exec_lacingFlit_outOfSequence (h : flit.extractLsb' 104 12 ≠ (s.dev.links[port]'hport).ack + 1) : exec (.lacingFlit port flit) s = .next s := by
  change execLacingFlit port flit s = _
  rw [execLacingFlit, link_of_lt hport, if_pos (.inr (.inl h))]

include hcrc

section
variable (hseq : flit.extractLsb' 104 12 = (s.dev.links[port]'hport).ack + 1) {l₁ : Link}
  (hl : { s.dev.links[port]'hport with ack := flit.extractLsb' 104 12, seq := flit.extractLsb' 116 12,
                                       cred := (s.dev.links[port]'hport).cred + (flit.extractLsb' 96 8).toNat } = l₁)
include hseq hl

/-- The next flit in sequence moves its port on; only one of messages for this device does more. -/
theorem exec_lacingFlit_passes (h : flit.extractLsb' 88 8 ≠ s.dev.num ∨ flit.extractLsb' 72 8 ≠ 1) :
    exec (.lacingFlit port flit) s = .next { s with dev := { s.dev with links := s.dev.links.set port l₁ hport } } := by
  change execLacingFlit port flit s = _
  rw [execLacingFlit, link_of_lt hport, if_neg (flit_good hport hcrc hseq)]
  dsimp only
  rw [Dev.updLink_of_lt _ hport, hl, if_pos h]

theorem exec_lacingFlit_unpacks (hhere : flit.extractLsb' 88 8 = s.dev.num) (htype : flit.extractLsb' 72 8 = 1) {r : State × List Byte × Option Tag}
    (hr : ({ s with dev := { s.dev with links := s.dev.links.set port l₁ hport } } : State).unpack 32
      ((s.dev.links[port]'hport).buf ++ (List.range 224).map fun k => flit.extractLsb' (192 + 8 * k) 8) (s.dev.links[port]'hport).tag
      ([flit.extractLsb' 144 24, flit.extractLsb' 168 24].take (flit.extractLsb' 142 2).toNat) = r) :
    exec (.lacingFlit port flit) s = .next { r.1 with dev := r.1.dev.updLink port fun l => { l with buf := r.2.1, tag := r.2.2 } } := by
  have hplain : ¬ (flit.extractLsb' 88 8 ≠ s.dev.num ∨ flit.extractLsb' 72 8 ≠ 1) := by
    rw [not_or, not_not, not_not]
    exact ⟨hhere, htype⟩
  change execLacingFlit port flit s = _
  rw [execLacingFlit, link_of_lt hport, if_neg (flit_good hport hcrc hseq)]
  dsimp only
  rw [Dev.updLink_of_lt _ hport, hl, if_neg hplain, hr]

end
end
end

section
variable {s : State} {n : Nat} {bs : List Byte} {tags : List Tag} {h : BitVec 128}

theorem unpack_short (hlen : bs.length < 16) : s.unpack (n + 1) bs none tags = (s, bs, none) := by
  rw [State.unpack, if_pos hlen]

variable (hh : msgHeader bs = h)
include hh

/-- A message of KIND 0 ends the flit. -/
theorem unpack_none (hlen : 16 ≤ bs.length) (hkind : h.extractLsb' 24 8 = 0) : s.unpack (n + 1) bs none tags = (s, [], none) := by
  rw [State.unpack, if_neg hlen.not_gt, hh, if_pos hkind]

theorem unpack_plain (hlen : 16 ≤ bs.length) (hkind : h.extractLsb' 24 8 ≠ 0) (hline : h.getLsbD 21 = false) : s.unpack (n + 1) bs none tags =
    (s.message h (.ofNat 1024 (numOf ((bs.drop 16).take 128))) Memory.tag0).unpack n (bs.drop 16) none tags := by
  have hsize : msgSize h = 16 := by rw [msgSize, hline]; rfl
  rw [State.unpack, if_neg hlen.not_gt, hh, if_neg hkind]
  simp only [hline, hsize, Bool.false_and, Bool.false_eq_true, if_false, if_neg hlen.not_gt, Option.getD_none]

section
variable (hlen : 144 ≤ bs.length) (hkind : h.extractLsb' 24 8 ≠ 0) (hline : h.getLsbD 21 = true) (x : Tag)
include hlen hkind hline

/-- A message with a line takes the next of the flit's tags. -/
theorem unpack_line : s.unpack (n + 1) bs none (x :: tags) =
    (s.message h (.ofNat 1024 (numOf ((bs.drop 16).take 128))) x).unpack n (bs.drop 144) none tags := by
  have hsize : msgSize h = 144 := by rw [msgSize, hline]; rfl
  have hlong : 16 < bs.length := by omega
  rw [State.unpack, if_neg (by omega), hh, if_neg hkind]
  simp only [hline, hsize, decide_eq_true hlong, Bool.and_self, if_true, List.head?_cons, List.drop_one, List.tail_cons, if_neg hlen.not_gt,
    Option.getD_some]

/-- A line that has begun in an earlier flit has its tag already. -/
theorem unpack_rest : s.unpack (n + 1) bs (some x) tags =
    (s.message h (.ofNat 1024 (numOf ((bs.drop 16).take 128))) x).unpack n (bs.drop 144) none tags := by
  have hsize : msgSize h = 144 := by rw [msgSize, hline]; rfl
  rw [State.unpack, if_neg (by omega), hh, if_neg hkind]
  simp only [hsize, if_neg hlen.not_gt, Option.getD_some]

end
end

/-- Each KIND of message has its own effect (Table 18.1); a write-back needs a page that a lookup finds. -/
theorem message_kinds (s : State) (h : BitVec 128) (data : Line) (tag : Tag) :
    let addr := (h.extractLsb' 64 64).toNat
    let home := s.dev.dpaLoc addr
    let from_ := (h.extractLsb' 0 8).toNat
    let away := (256 + from_) * 2 ^ 64 + addr
    let core := (h.extractLsb' 32 16).toNat
    let upd (n : Nat) (f : ClaspHome → ClaspHome) : State := { s with dev := s.dev.updClasp n f }
    (h.extractLsb' 24 8 = 0x04 → s.message h data tag = { s with dev := s.dev.putLineAt away data tag }) ∧
    (h.extractLsb' 24 8 = 0x05 → (s.dev.dpaLook addr).isSome = true → s.message h data tag =
      { s with dev := (s.dev.putLineAt home data ((s.dev.lineAt home).2.retag tag.fmt tag.scl tag.cls tag.pln)).unverifyAt addr }) ∧
    (h.extractLsb' 24 8 = 0x06 → s.message h data tag = upd (home / 128) fun k => { k with acks := k.acks - 1 }) ∧
    (h.extractLsb' 24 8 = 0x10 → s.message h data tag = upd (home / 128) fun k =>
      { k with msgs := k.msgs + 1, fifo := k.fifo ++ [⟨foreignCore from_ (h.extractLsb' 48 16).toNat, 0, false⟩] }) ∧
    (h.extractLsb' 24 8 = 0x11 → s.message h data tag = (s.onCoreAt core (recallCore (away / 128))).dueRecall recallSent (away / 128)) ∧
    (h.extractLsb' 24 8 = 0x12 → s.message h data tag = upd (home / 128) fun k => { k with msgs := k.msgs + 1, sig := some data, recalled := false }) ∧
    (h.extractLsb' 24 8 = 0x13 → s.message h data tag = upd (away / 128) fun k =>
      { k with granted := true, sig := if h.getLsbD 21 = true then some data else k.sig }) ∧
    (h.extractLsb' 24 8 = 0x14 → s.message h data tag = upd (away / 128) fun k =>
      { k with fifo := k.fifo.filter fun r => !(r.core == core && r.try_) }) := by
  intro addr home from_ away core upd
  refine ⟨?_, ?writeBack, ?_, ?_, ?_, ?_, ?_, ?_⟩
  case writeBack =>
    intro hkind hlive
    have hfound : (s.dev.dpaLook addr).isNone = false := by rw [← Option.not_isSome, hlive]; rfl
    have hpage : ¬ (s.dev.dpaLook addr).isNone = true := by rw [hfound]; exact Bool.false_ne_true
    rw [State.message, hkind]
    exact if_neg hpage
  all_goals
    intro hkind
    rw [State.message, hkind]
    rfl

/-! ### Hosts and pools (R342 to R344) -/

theorem Dev.noteObject_frame (d : Dev) (dpa : Nat) : (d.noteObject dpa).mem = d.mem ∧ (d.noteObject dpa).tagValid = d.tagValid := by
  unfold Dev.noteObject
  split
  · dsimp only
    split
    · exact ⟨rfl, rfl⟩
    · exact ⟨rfl, rfl⟩
  · exact ⟨rfl, rfl⟩

theorem foldl_noteObject_frame (l : List Nat) (base : Nat) (d : Dev) :
    (l.foldl (fun d k => d.noteObject (base + 32 * k)) d).mem = d.mem ∧ (l.foldl (fun d k => d.noteObject (base + 32 * k)) d).tagValid = d.tagValid := by
  induction l generalizing d with
  | nil => exact ⟨rfl, rfl⟩
  | cons k r ih =>
    obtain ⟨hmem, htags⟩ := d.noteObject_frame (base + 32 * k)
    exact ⟨(ih _).1.trans hmem, (ih _).2.trans htags⟩

/-- A write that ends verification changes neither data nor tag-valid bits. -/
theorem Dev.unverify_frame (d : Dev) (loc : Nat) : (d.unverify loc).mem = d.mem ∧ (d.unverify loc).tagValid = d.tagValid := by
  unfold Dev.unverify
  cases d.dpaOf loc with
  | none => exact ⟨rfl, rfl⟩
  | some a =>
    rw [Option.elim_some, Dev.unverifyAt]
    exact foldl_noteObject_frame (List.range 4) (a / 128 * 128) { d with verified := d.verified.filter (· != rmPage a) }

section
variable {s : State} {line : Nat} {off : BitVec 7} {v : Word}

section
variable (hhost : s.dev.hasHost = true) (hline : devLine line = true) {x : Line × Tag} (hx : s.dev.lineAt (line * 128) = x)
include hhost hline hx

section
variable {new : Line}
  (hnew : setLineBytes (if x.2.cls = cRAW ∨ x.2.cls = cVAL then x.1 else 0) off.toNat (Nat.min 8 (128 - off.toNat)) v.toNat = new)
include hnew

theorem exec_hostWrite_reaches (h : s.dev.hostLines.any (·.1 == line) = false) : exec (.hostWrite line off v) s =
    .next { s with dev := (s.dev.putLineAt (line * 128) new x.2.bumpGen.raw).unverify (line * 128) } := by
  change execHostWrite line off v s = _
  simp only [execHostWrite, hx, hnew, hhost, hline, Bool.not_true, Bool.or_self, Bool.false_eq_true, if_false, h]

theorem exec_hostWrite_stays (h : s.dev.hostLines.any (·.1 == line) = true) : exec (.hostWrite line off v) s =
    .next { s with dev := ({ s.dev with hostLines := (line, some new) :: s.dev.hostLines.filter (·.1 != line) } : Dev).unverify (line * 128) } := by
  change execHostWrite line off v s = _
  simp only [execHostWrite, hx, hnew, hhost, hline, Bool.not_true, Bool.or_self, Bool.false_eq_true, if_false, h, if_true]

end

theorem exec_hostRead_holds (hcls : x.2.cls ≠ cPOI) (h : s.dev.hostLines.any (·.1 == line) = false) : exec (.hostRead line) s =
    .next { s with dev := { s.dev with hostLines := (line, none) :: s.dev.hostLines } } := by
  have hgo : ¬ (!s.dev.hasHost ∨ devLine line = false ∨ (s.dev.lineAt (line * 128)).2.cls = cPOI ∨ s.dev.hostLines.any (·.1 == line) = true) := by
    rw [hhost, hline, hx, h]
    simp [hcls]
  change execHostRead line s = _
  rw [execHostRead, if_neg hgo]

end

theorem exec_hostRead_keeps (h : (s.dev.lineAt (line * 128)).2.cls = cPOI ∨ s.dev.hostLines.any (·.1 == line) = true) :
    exec (.hostRead line) s = .next s := by
  change execHostRead line s = _
  rw [execHostRead, if_pos (.inr (.inr h))]

theorem exec_hosts_without (h : s.dev.hasHost = false) : exec (.bisnp line) s = .next s ∧ exec (.hostSnoop line true) s = .next s ∧
    exec (.hostWrite line off v) s = .next s ∧ exec (.hostRead line) s = .next s := by
  refine ⟨?bisnp, ?snoop, ?write, ?read⟩
  case bisnp =>
    change execBisnp line s = _
    rw [execBisnp, h, if_neg Bool.false_ne_true]
  case snoop =>
    change execHostSnoop line true s = _
    rw [execHostSnoop, h, Bool.and_false, if_neg Bool.false_ne_true]
  case write =>
    change execHostWrite line off v s = _
    simp only [execHostWrite, h, Bool.not_false, Bool.true_or, if_true]
  case read =>
    change execHostRead line s = _
    rw [execHostRead, if_pos (.inl (by rw [h]; rfl))]

theorem exec_hosts_with (h : s.dev.hasHost = true) : exec (.bisnp line) s = .next { s with dev := s.dev.hostTake (line * 128) } ∧
    exec (.hostSnoop line true) s = .next { s with dev := { s.dev with hostCache := s.dev.hostCache.filter (· != line) } } := by
  constructor
  · change execBisnp line s = _
    rw [execBisnp, h, if_pos rfl]
  · change execHostSnoop line true s = _
    rw [execHostSnoop, h, Bool.and_self, if_pos rfl]

theorem exec_outsidePoolWrite (h : inPool (line * 128) = true) : ∃ u, exec (.outsidePoolWrite line off v) s = .next u ∧ u.st = s.st ∧
    u.core = s.core ∧ line ∉ u.dev.tagValid ∧ u.dev.mem = s.dev.mem.setLine (line * 128)
      (setLineBytes (s.dev.mem.line (line * 128)) off.toNat (Nat.min 8 (128 - off.toNat)) v.toNat) := by
  let d : Dev := { s.dev with
    mem := s.dev.mem.setLine (line * 128) (setLineBytes (s.dev.mem.line (line * 128)) off.toNat (Nat.min 8 (128 - off.toNat)) v.toNat)
    tagValid := s.dev.tagValid.filter (· != line)
    flashBad := s.dev.flashBad.filter (· != line) }
  obtain ⟨hmem, htags⟩ := d.unverify_frame (line * 128)
  refine ⟨{ s with dev := d.unverify (line * 128) }, ?_, rfl, rfl, ?_, hmem⟩
  · change execOutsidePoolWrite line off v s = _
    rw [execOutsidePoolWrite, if_pos h]
  · rw [htags]
    simp [d]

theorem exec_farCopyEviction {i : Nat} {f : FarCopy} (h : s.core.far[i]? = some f) (drop : Bool) : exec (.farCopyEviction i drop) s =
    .next (if s.backWaits (fun g => g.loc == f.loc) = true then s else s.flushFar (fun g => g.loc == f.loc) drop) := by
  change execFarCopyEviction i drop s = _
  rw [execFarCopyEviction, h]

end

/-- Settles O58: tokens are counted by holder, and each message, flit or access of a host is one case of its step. -/
theorem fabricMessages : Obligations.FabricMessages := by
  unfold Obligations.FabricMessages
  intro s line holder src dst off v t put known
  refine ⟨fun hunknown => ⟨congrArg Host.Outcome.next (request_unknown _ hunknown), congrArg Host.Outcome.next (request_unknown _ hunknown),
      exec_persistent_unknown hunknown⟩, ?requests,
    fun hknown h => ⟨exec_read_fails hknown rfl h, exec_write_fails hknown rfl h⟩, LineTokens.fail_fourth,
    fun hknown => ⟨exec_persistent_enters hknown rfl, fun r hfirst hfree =>
      ⟨exec_persistent_gathers hknown rfl hfirst hfree, exec_persistent_ends hknown rfl hfirst hfree⟩⟩,
    fun hne hsrc hdst => ⟨exec_data_moves rfl hne hsrc hdst, exec_data_held rfl⟩, fun port flit => exec_lacingFlit_bad, ?flit, ?unpack, message_kinds s,
    ?host, exec_hosts_with, exec_hosts_without, rfl, exec_outsidePoolWrite, fun i f h => exec_farCopyEviction h⟩
  case requests =>
    intro hknown hfree hopen
    exact ⟨exec_read_holding hknown rfl hfree hopen, fun g hnone hg => ⟨exec_read_takes hknown rfl hfree hopen hnone hg,
      fun hne hsort => LineTokens.move_one hsort hne hnone hg⟩, exec_write_takes hknown rfl hfree hopen⟩
  case flit =>
    intro port flit hport hcrc
    refine ⟨exec_lacingFlit_outOfSequence hport, fun hseq haway => ?_, fun hseq hhere => ?_⟩
    · exact ⟨_, exec_lacingFlit_passes hport hcrc hseq rfl (.inl haway), rfl, rfl, rfl, by simp⟩
    · exact ⟨fun htype => exec_lacingFlit_passes hport hcrc hseq rfl (.inr htype),
        fun htype => exec_lacingFlit_unpacks hport hcrc hseq rfl hhere htype rfl⟩
  case unpack =>
    intro n bs tags h
    exact ⟨unpack_short, unpack_none rfl, unpack_plain rfl,
      fun x hlen hkind hline => ⟨unpack_line rfl hlen hkind hline x, unpack_rest rfl hlen hkind hline x⟩⟩
  case host =>
    intro hhost hline x new held
    exact ⟨exec_hostWrite_reaches hhost hline rfl rfl, exec_hostWrite_stays hhost hline rfl rfl,
      exec_hostRead_holds hhost hline rfl, exec_hostRead_keeps⟩

end Sys2Proof.Machine
